-- ==== Sys2Proof/Word.lean ====
section
/-! DEFINITION. The word types of the device (00_scope.md, "Numbers, bits and formats") and the type of sparse tables. -/

namespace Sys2Proof

/-- A register of the register window, a general register of a thread, a word of memory: 32 bits. -/
abbrev Word := BitVec 32

/-- One byte of memory, of a frame or of a bus transfer. -/
abbrev Byte := BitVec 8

/-- A sequence of bytes, first byte first. -/
abbrev Bytes := List Byte

/-- A sparse table: pairs of a key and a value, keys strictly rising, no entry equal to what an unlisted key reads as. -/
abbrev Tab (α : Type) := List (Nat × α)

end Sys2Proof
end

