-- ==== Sys2Proof/Syntax.lean ====
section
/-! DEFINITION. The commands of the block: one constructor of `Instr` per row of spec/opcode_table.json, with the operands
that the row's rule names. The operand types come first. -/

namespace Sys2Proof

/-- The source of a register access (01_device_map.md, Table 1.8). PF 0 has two paths, BAR0 and BAR4 (Table 12.2). -/
inductive Req where
  | thread (t : Fin 512)
  | bar0 (pf : Fin 8)
  | pf0Bar4
  | rootstock
  | tw0
  | tw1
  | usb
  | debug
  deriving DecidableEq, Repr

/-- Where a requester points an access: a 40-bit device address, or an offset in a PCIe BAR (Table 12.6). -/
inductive Target where
  | dev (addr : BitVec 40)
  | bar0 (off : BitVec 16)
  | bar2 (off : BitVec 12)
  | bar4 (off : BitVec 27)
  deriving DecidableEq, Repr

/-- A stretch of bytes that an access covers: where it begins and how many bytes it has. -/
structure Stretch where
  tgt : Target
  bytes : Fin 4097
  deriving DecidableEq, Repr

/-- A hardware thread: one of the 512 scion threads by its requester code, or one of the eight of the rootstock pair. -/
inductive Thr where
  | scion (t : Fin 512)
  | rs (t : Fin 8)
  deriving DecidableEq, Repr

/-- A voltage loop (07_rootstock_voltage_loops.md). -/
inductive Loop where
  | A | B | C | D
  deriving DecidableEq, Repr

/-- A harness loop, one with a governor (09_harness_energy_and_cooling.md). -/
inductive HLoop where
  | C | D
  deriving DecidableEq, Repr

/-- The 16-bit or the 32-bit form of an instruction that has both and takes the same operands in each. -/
inductive Wd where
  | c | w
  deriving DecidableEq, Repr

/-- A register-register instruction: C.ALU (Table 5.3) or OP 0x0 (Table 5.7). -/
inductive AluForm where
  | c (rd rs : BitVec 4)
  | w (rd ra rb : BitVec 5)
  deriving DecidableEq, Repr

/-- A register instruction of one source: C.ALU or OP 0x0 with RB = 0. -/
inductive UnaryForm where
  | c (rd rs : BitVec 4)
  | w (rd ra : BitVec 5)
  deriving DecidableEq, Repr

/-- ADDI: C.ADDI or OP 0x1. -/
inductive AddiForm where
  | c (rd : BitVec 4) (simm : BitVec 8)
  | w (rd ra : BitVec 5) (imm : BitVec 16)
  deriving DecidableEq, Repr

/-- A shift by an immediate count: C.SHI or OP 0x0 with the count in RB. -/
inductive ShiftForm where
  | c (rd : BitVec 4) (sh : BitVec 5)
  | w (rd ra sh : BitVec 5)
  deriving DecidableEq, Repr

/-- LDW or STW: C.LDW and C.STW, or the M format. -/
inductive MemForm where
  | c (r rb : BitVec 4) (off : BitVec 4)
  | w (r ra : BitVec 5) (imm : BitVec 13)
  deriving DecidableEq, Repr

/-- The width and extension of a load (Table 5.9). -/
inductive LoadKind where
  | word | half | halfu | byte | byteu
  deriving DecidableEq, Repr

/-- The width of a store (Table 5.9). -/
inductive StoreKind where
  | word | half | byte
  deriving DecidableEq, Repr

/-- An access through an address generator: C.AGM or OP 0x7 (Table 5.10). `upd` is the U bit. -/
inductive AgForm where
  | c (r : BitVec 4) (n : Fin 4) (upd : Bool)
  | w (r : BitVec 5) (n : Fin 4) (upd : Bool)
  deriving DecidableEq, Repr

/-- A branch condition code (Table 5.13). -/
abbrev Cond := BitVec 4

/-- BCOND: C.BCC or OP 0x8. -/
inductive BccForm where
  | c (cond : Cond) (off : BitVec 8)
  | w (cond : Cond) (off : BitVec 22)
  deriving DecidableEq, Repr

/-- BZ and BNZ: C.BZ or OP 0x9. -/
inductive BzForm where
  | c (rs : BitVec 4) (off : BitVec 7)
  | w (rs : BitVec 5) (off : BitVec 16)
  deriving DecidableEq, Repr

/-- CALLM with a register target (OP 0xA) or a PC-relative one (OP 0xB). -/
inductive CallForm where
  | reg (ra : BitVec 5) (mask : BitVec 16)
  | rel (rm : BitVec 5) (off : BitVec 21)
  deriving DecidableEq, Repr

/-- The transfer of a PMBus command at TW_0: a write with its data bytes and its PEC byte, if one comes, a read, or the write and read of one
combined transfer; `pec` says of a read whether the controller takes a PEC byte. -/
inductive PmXfer where
  | write (data : Bytes) (pec : Option Byte)
  | read (pec : Bool)
  | call (data : Bytes) (pec : Bool)
  deriving DecidableEq, Repr

/-- A configuration request of the host to one PCIe function, as far as the spec names what it changes (12, R429, R443, R448): a read of the
word at byte offset `off` of the configuration space, a write of word `i` of the base address registers, a write that changes one control
bit. -/
inductive CfgOp where
  | read (off : BitVec 12)
  | writeBar (i : Fin 6) (v : Word)
  | setBme (on : Bool)
  | setFnMask (on : Bool)
  | setD0 (on : Bool)
  deriving DecidableEq, Repr

/-- A SerDes supply (21, R682). -/
inductive Rail where
  | srd | srh | vio18
  deriving DecidableEq, Repr

/-- The three PLLs in the order of PDC_PLL (Table 2.8). -/
inductive Pll where
  | ctl | core | sys
  deriving DecidableEq, Repr

/-- Where a frame enters: a port (0-7 backbone, 8-23 edge, 24-35 10BASE-T1S) or host queue q of row r. -/
inductive Ingress where
  | port (p : Fin 36)
  | host (r q : Fin 8)
  deriving DecidableEq, Repr

/-- What a controller transaction met on the bus (11, R369, R374, R398-R400). `read` is what the target sent, without the count
byte of a block; `badLen` a block count above 32, `stuck` SDA low after the ninth clock. -/
inductive BusResult where
  | ok (read : Bytes) (pec : Byte)
  | nack
  | arbLost (read : Bytes)
  | badLen (read : Bytes)
  | stuck
  deriving DecidableEq, Repr

/-- The end of a controller transaction: how often SCL was clocked before SDA was high (R374), and what the transaction met. -/
structure BusEnd where
  clocks : Fin 10
  res : BusResult
  deriving DecidableEq, Repr

/-- A controller, and the bytes that its transaction has received so far (R400). -/
structure PartRead where
  n : Fin 2
  read : Bytes
  deriving DecidableEq, Repr

/-- The host's request on the PORT_SUSPEND feature of hub port 3 (R550, log 78): it sets it, or clears it, with a function wake in the
same microframe or without. -/
inductive PortSuspend where
  | set
  | clear (merge : Bool)
  deriving DecidableEq, Repr

/-- The commands. `t` is the thread that executes an instruction, `req` the requester of a register access, `x` a loop,
`r` a row, `o` a job owner, `n` an instance number. What the outside world supplies (samples, host data, frames, bus bytes)
is an operand. -/
inductive Instr where
  -- 01: register accesses
  | registerWrite (req : Req) (tgt : Target) (bytes : Fin 513) (v : BitVec 4096)
  | loRead (req : Req) (tgt : Stretch)
  | hiRead (req : Req) (tgt : Target)
  | loWrite (req : Req) (tgt : Target) (v : Word)
  | hiWrite (req : Req) (tgt : Target) (v : Word)
  -- 02: taproot
  | rtcSecWrite (req : Req) (lo hi : Word)
  | coldStart (straps : BitVec 12) (testEn : Bool)
  | vkaLoss
  | warmReset
  | warmResetEnd
  | xtalChangeover
  | xtalFail
  | rtcAlarm
  | wakeQualify (n : Fin 8)
  | wakeCfgWrite (req : Req) (n : Fin 8) (v : Word)
  | vbatComparatorQualify (hi : Bool)
  | vbatCmpWrite (req : Req) (v : Word)
  | standbyEntry (req : Req)
  | rramDataAccess (req : Req) (wr : Option Word)
  | rramEccInjArm (req : Req) (inj : BitVec 2)
  | domainRequest (d : Fin 16)
  | domainGrant (d : Fin 16)
  | domainRelease (d : Fin 16)
  | domainRequestEnd (d : Fin 16)
  | budAck (b : Fin 8)
  | budTimeout (b : Fin 8)
  | vioLoss
  | vioReturn
  | refSysTimeout
  | pllLockTimeout (p : Pll)
  | serdesRailLoss (rail : Rail)
  -- 03: boot and trust
  | rootstockBoot (xspi : Option Bytes)
  | fabricLoad (xspi : Bytes)
  | xspiTimeout
  | stageGo (req : Req)
  | stagedImageDone
  | boughRelease (req : Req)
  | advVer (req : Req)
  | revoke (req : Req) (n : Fin 4)
  | rngRead (req : Req)
  | rngHealthFail
  | restart (req : Req) (pass : Bool)
  | idcode
  | challenge
  | response (level : Byte) (sig : BitVec 512)
  | bypass (code : Byte)
  -- 04, 05: the Dexgolith instruction set
  | instructionFetch (t : Thr) (k : Fin 4)
  | fetchFault (t : Thr)
  | illegalEncoding (t : Thr) (w : Word)
  | mv (t : Thr) (rd rs : BitVec 4)
  | add (t : Thr) (f : AluForm)
  | sub (t : Thr) (f : AluForm)
  | and (t : Thr) (f : AluForm)
  | or (t : Thr) (f : AluForm)
  | xor (t : Thr) (f : AluForm)
  | sll (t : Thr) (f : AluForm)
  | srl (t : Thr) (f : AluForm)
  | sra (t : Thr) (f : AluForm)
  | cmp (t : Thr) (rd rs : BitVec 4)
  | neg (t : Thr) (rd rs : BitVec 4)
  | not (t : Thr) (rd rs : BitVec 4)
  | bswap (t : Thr) (f : UnaryForm)
  | addi (t : Thr) (f : AddiForm)
  | li (t : Thr) (rd : BitVec 4) (simm : BitVec 8)
  | slli (t : Thr) (f : ShiftForm)
  | srli (t : Thr) (f : ShiftForm)
  | srai (t : Thr) (f : ShiftForm)
  | cmpi (t : Thr) (rs : BitVec 4) (simm : BitVec 8)
  | mul (t : Thr) (rd ra rb : BitVec 5)
  | mulhs (t : Thr) (rd ra rb : BitVec 5)
  | mulhu (t : Thr) (rd ra rb : BitVec 5)
  | min (t : Thr) (rd ra rb : BitVec 5)
  | max (t : Thr) (rd ra rb : BitVec 5)
  | minu (t : Thr) (rd ra rb : BitVec 5)
  | maxu (t : Thr) (rd ra rb : BitVec 5)
  | addc (t : Thr) (rd ra rb : BitVec 5)
  | subc (t : Thr) (rd ra rb : BitVec 5)
  | clz (t : Thr) (rd ra : BitVec 5)
  | popc (t : Thr) (rd ra : BitVec 5)
  | extu (t : Thr) (rd ra rb : BitVec 5)
  | andi (t : Thr) (rd ra : BitVec 5) (imm : BitVec 16)
  | ori (t : Thr) (rd ra : BitVec 5) (imm : BitVec 16)
  | lui (t : Thr) (rd : BitVec 5) (imm : BitVec 16)
  | ldw (t : Thr) (f : MemForm)
  | ldh (t : Thr) (rd ra : BitVec 5) (imm : BitVec 13)
  | ldhu (t : Thr) (rd ra : BitVec 5) (imm : BitVec 13)
  | ldb (t : Thr) (rd ra : BitVec 5) (imm : BitVec 13)
  | ldbu (t : Thr) (rd ra : BitVec 5) (imm : BitVec 13)
  | xadd (t : Thr) (rd ra : BitVec 5) (imm : BitVec 13)
  | xchg (t : Thr) (rd ra : BitVec 5) (imm : BitVec 13)
  | stw (t : Thr) (f : MemForm)
  | sth (t : Thr) (rd ra : BitVec 5) (imm : BitVec 13)
  | stb (t : Thr) (rd ra : BitVec 5) (imm : BitVec 13)
  | agLoad (t : Thr) (f : AgForm) (k : LoadKind)
  | agStore (t : Thr) (f : AgForm) (k : StoreKind)
  | b (t : Thr) (off : BitVec 12)
  | bcond (t : Thr) (f : BccForm)
  | bz (t : Thr) (f : BzForm)
  | bnz (t : Thr) (f : BzForm)
  | callm (t : Thr) (f : CallForm)
  | retm (t : Thr)
  | j (t : Thr) (off : BitVec 26)
  | jr (t : Thr) (rs : BitVec 4)
  | macl (t : Thr) (ad : BitVec 2) (ra rb : BitVec 5)
  | msul (t : Thr) (ad : BitVec 2) (ra rb : BitVec 5)
  | mpyl (t : Thr) (ad : BitVec 2) (ra rb : BitVec 5)
  | macp (t : Thr) (ad : BitVec 2) (ra rb : BitVec 5)
  | msup (t : Thr) (ad : BitVec 2) (ra rb : BitVec 5)
  | ext (t : Thr) (rd : BitVec 5) (an : BitVec 2) (sh : BitVec 5)
  | aclr (t : Thr) (ad : BitVec 2)
  | amov (t : Thr) (ad : BitVec 2) (ra : BitVec 5)
  | aadd (t : Thr) (ad an : BitVec 2)
  | fadd (t : Thr) (rd ra rb : BitVec 5)
  | fsub (t : Thr) (rd ra rb : BitVec 5)
  | padd (t : Thr) (rd ra rb : BitVec 5)
  | psub (t : Thr) (rd ra rb : BitVec 5)
  | fsra (t : Thr) (rd ra rb : BitVec 5)
  | fork (t : Thr) (rd ra rb : BitVec 5)
  | join (t : Thr) (ra : BitVec 5)
  | joinComplete (t : Thr)
  | quit (t : Thr) (f : Wd)
  | waitt (t : Thr) (ra : BitVec 5)
  | waittComplete (t : Thr)
  | waite (t : Thr) (rd ra : BitVec 5)
  | waiteComplete (t : Thr)
  | timerCompareMet (t : Thr)
  | hreq (t : Thr) (h : BitVec 3) (cn : BitVec 3) (ra rb : BitVec 5)
  | hwait (t : Thr) (rd : BitVec 5) (cn : BitVec 3)
  | hwaitComplete (t : Thr)
  | hpoll (t : Thr) (rd : BitVec 5) (cn : BitVec 3)
  | mfs (t : Thr) (rd : BitVec 5) (n : Byte)
  | mts (t : Thr) (n : Byte) (ra : BitVec 5)
  | eret (t : Thr) (f : Wd)
  | sysc (t : Thr) (f : Wd) (imm : Byte)
  | brk (t : Thr) (f : Wd) (imm : Byte)
  | fence (t : Thr)
  -- 06: commands to threads
  | eventPost (req : Req) (b : Fin 8) (t : Fin 64) (mask : Byte)
  | release (req : Req) (t : Fin 512)
  | resume (req : Req) (t : Fin 512)
  -- 07: voltage loops
  | loopEnable (req : Req) (x : Loop) (hard : Bool)
  | loopDisable (req : Req) (x : Loop) (hard : Bool)
  | regulatingEntry (x : Loop)
  | softstartTimeout (x : Loop)
  | phaseSafePoint (x : Loop)
  | phcmdBud (req : Req) (x : Loop) (mask : BitVec 16) (tmo : Byte)
  | phcmdPrune (req : Req) (x : Loop) (mask : BitVec 16) (tmo : Byte)
  | pruneTimeout (n : Fin 16)
  | zeroCrossing (n : Fin 16)
  | lawCompute (x : Loop)
  | deEnter (x : Loop)
  | boughWakeRequest (b : Fin 8)
  | wakeBoostEnd
  | hintUp
  | hintDn
  | loopTelemetryPublish (x : Loop)
  | peakClr (req : Req) (x : Loop)
  -- 08: converters
  | slotFire (n : Fin 16) (sl : Fin 4)
  | conversionResult (n : Fin 16) (uV : Int)
  | precisionEntryDone (m : Fin 2) (sl : Fin 8) (uVs : List Int)
  | precisionListRestart (m : Fin 2)
  | converterCalibration (fast : Bool) (ok : Bool)
  -- 09: governor, fans, shutdown
  | governorTick
  | govWindowTimeout (x : HLoop)
  | govEventClose (x : HLoop)
  | govDisable (req : Req) (x : HLoop)
  | maxClr (req : Req) (x : HLoop)
  | tachEdge (n : Fin 4) (us : Nat)
  | tachStall (n : Fin 4)
  | fanMonitorCheck
  | fanKeepTimeout
  | shutdownAssert (ts uV : Int)
  | shutdownRelease
  -- 10: battery estimator
  | batteryAbsent
  | batEnable (req : Req)
  | firstEstimate
  | batPublish
  | batRestore (req : Req)
  | batStale
  | batRelaxResync
  -- 11: PMBus, controllers, AVSBus
  | page (x : PmXfer)
  | operation (x : PmXfer)
  | onOffConfig (x : PmXfer)
  | clearFaults (x : PmXfer)
  | writeProtect (x : PmXfer)
  | capability (x : PmXfer)
  | voutMode (x : PmXfer)
  | voutCommand (x : PmXfer)
  | voutMax (x : PmXfer)
  | voutMin (x : PmXfer)
  | voutTransitionRate (x : PmXfer)
  | voutOvFaultLimit (x : PmXfer)
  | voutUvFaultLimit (x : PmXfer)
  | statusByte (x : PmXfer)
  | statusWord (x : PmXfer)
  | statusVout (x : PmXfer)
  | statusIout (x : PmXfer)
  | statusTemperature (x : PmXfer)
  | statusCml (x : PmXfer)
  | statusMfrSpecific (x : PmXfer)
  | readEout (x : PmXfer)
  | readVout (x : PmXfer)
  | readIout (x : PmXfer)
  | readTemperature1 (x : PmXfer)
  | readPout (x : PmXfer)
  | pmbusRevision (x : PmXfer)
  | mfrId (x : PmXfer)
  | mfrModel (x : PmXfer)
  | mfrRevision (x : PmXfer)
  | mfrRegRead (x : PmXfer)
  | mfrRegWrite (x : PmXfer)
  | mfrGovEvent (x : PmXfer)
  | mfrBat (x : PmXfer)
  | mfrPhases (x : PmXfer)
  | mfrReady (x : PmXfer)
  | mfrProg (i : Fin 16) (x : PmXfer)
  | invalidCommand (code : Byte)
  | alertResponse
  | mbxResponse (req : Req) (v : Word)
  | stretchTimeout (total : Bool)
  | busTimeout
  | controllerWrite (req : Req) (n : Fin 2) (v : Word)
  | controllerWriteRead (req : Req) (n : Fin 2) (v : Word)
  | controllerRead (req : Req) (n : Fin 2) (v : Word)
  | controllerBlockRead (req : Req) (n : Fin 2) (v : Word)
  | controllerRetry (n : Fin 2)
  | controllerTimeout (n : PartRead)
  | controllerDone (n : Fin 2) (res : BusEnd)
  | avsWriteCommit (m : Fin 2) (frame : BitVec 32)
  | avsWriteHold (m : Fin 2) (frame : BitVec 32)
  | avsVoltageRead (m : Fin 2) (frame : BitVec 32)
  | avsRateRead (m : Fin 2) (frame : BitVec 32)
  | avsRateWrite (m : Fin 2) (frame : BitVec 32)
  | avsCurrentRead (m : Fin 2) (frame : BitVec 32)
  | avsTemperatureRead (m : Fin 2) (frame : BitVec 32)
  | avsResetVoltage (m : Fin 2) (frame : BitVec 32)
  | avsStatusRead (m : Fin 2) (frame : BitVec 32)
  | avsVersionRead (m : Fin 2) (frame : BitVec 32)
  -- 12: rows and the host link
  | rowEnable (req : Req) (r : Fin 8)
  | rowDisable (req : Req) (r : Fin 8)
  | rowReset (req : Req) (r : Fin 8)
  | rowResetDone (r : Fin 8)
  | msixMessage (r : Fin 8) (v : Fin 32)
  | doorbell (r q : Fin 8) (v : Word)
  | h2dDescriptor (r q : Fin 8) (lo : BitVec 64) (w2 w3 : Word) (data : Bytes) (bad : Bool)
  | d2hDelivery (r q : Fin 8) (lo : BitVec 64) (w2 w3 : Word) (bad : Bool)
  | mailboxGo (r : Fin 8) (len : BitVec 11) (vec : BitVec 5)
  | functionLevelReset (r : Fin 8)
  | linkDown
  | perstFall
  | configRequest (pf : Fin 8) (op : CfgOp)
  -- 13: packet path
  | frameReceive (src : Ingress) (data : Bytes) (fcsOk : Bool)
  | breqClear (req : Req) (mask : Word)
  | pauseReceive (e : Fin 16) (quanta : BitVec 16)
  | pauseEnd (e : Fin 16)
  | dispatch (r : Fin 8)
  | get (t : Fin 512) (cn : BitVec 3)
  | emit (t : Fin 512) (cn : BitVec 3)
  | parse (t : Fin 512) (cn : BitVec 3)
  | find (t : Fin 512) (cn : BitVec 3)
  | inet (t : Fin 512) (cn : BitVec 3)
  | crc32 (t : Fin 512) (cn : BitVec 3)
  | aesSeal (t : Fin 512) (cn : BitVec 3)
  | aesOpen (t : Fin 512) (cn : BitVec 3)
  | now (t : Fin 512) (cn : BitVec 3)
  | egressTs (t : Fin 512) (cn : BitVec 3)
  | ticketRelease (d : Fin 64)
  | orderTimeout (d : Fin 64)
  | frameTransmit (port : Fin 36)
  -- 14: gates, PLCA, MACsec, time, ring
  | gateChange (port : Fin 36)
  | plcaBeacon (i : Fin 12)
  | plcaBeaconLoss (i : Fin 12)
  | commit (req : Req) (v : Word)
  | msecCommitDone
  | step (req : Req)
  | slew (req : Req)
  | slewDone
  | claim (east : Bool) (data : Bytes)
  | beacon (east : Bool) (data : Bytes)
  | slot (east : Bool) (data : Bytes)
  | leave (east : Bool) (data : Bytes)
  | ringCtlStart (req : Req)
  | stop (req : Req)
  | ringListenEnd
  | ringBackoffEnd
  | ringConfirmEnd
  | ringCycleStart
  | ringWindow
  | ringCycleEnd
  | ringStartTimeout
  | ringBeaconMiss
  -- 15: USB
  | usbAttach (vbus : Bool)
  | usbBusReset (hs : Bool)
  | setConfiguration (hub on : Bool)
  | bulkOutPacket (data : Bytes)
  | ping
  | fankoecHello
  | authChallenge
  | authResponse
  | logout
  | readyMap
  | regRead
  | regWrite
  | fankoecJobSubmit
  | jobRead
  | notificationPoll
  | notificationAck
  | ntfPost (req : Req) (bits : Word)
  | portPower (n : Fin 2) (on : Bool)
  | usbOvercurrent (n : Fin 2)
  | babble (n : Fin 2)
  | usbSuspend
  | usbResumeK
  | usbResumeEnd
  | remoteWakeDecision (lineK : Bool)
  | remoteWakeRelease
  | remoteWakeFail
  | remoteWakeRetry
  | usbDisable (req : Req)
  -- 16: jobs and the store
  | jobSubmit (req : Req) (o : Fin 9) (addr : BitVec 64)
  | nvWrite (tag : BitVec 10)
  | nvErase (tag : BitVec 10)
  | calStore (tag : BitVec 10)
  | graftSync (tag : BitVec 10)
  | ringStart (tag : BitVec 10)
  | scrub (tag : BitVec 10)
  | bistBough (tag : BitVec 10) (fails : Word)
  | imageVerify (tag : BitVec 10)
  | logExport (tag : BitVec 10)
  | storePageProgram (code : BitVec 12) (mismatch : Bool)
  | jobComplete (tag : BitVec 10)
  | cplRead (req : Req) (o : Fin 9)
  -- 17: faults and watchdogs
  | clear (req : Req)
  | faultStoreClearDone
  | injectionArm (req : Req) (st : Fin 32) (mode : BitVec 2) (dbl : Bool)
  | rsLockstep
  | admWrite (req : Req) (u : Fin 152) (v : Word)
  | adminAdopt (u : Fin 152)
  | admGraceTimeout (u : Fin 152)
  | wdtKeyFirst (req : Req) (v : Word)
  | wdtKeySecond (req : Req) (v : Word)
  | wdtExpiry
  | wdTripRelease
  | rowWdtService (req : Req) (r : Fin 8) (v : Word)
  | rowWdtExpiry (r : Fin 8)
  -- 18: graft
  | graftHelloSend
  | graftHello (data : Bytes)
  | graftLinkLost
  | beginFrame (data : Bytes)
  | dataFrame (data : Bytes)
  | endFrame (data : Bytes)
  | ackFrame (data : Bytes)
  | nakFrame (data : Bytes)
  | abortFrame (data : Bytes)
  | graftAckTimeout
  | graftEpochTimeout
  | demote (req : Req)
  | partnerTrip
  | takeover
  -- events added at the end of the table
  | vbatComparatorRearm (hi : Bool)
  | wakeLeavesActive (n : Fin 8)
  | serdesRailReturn (rail : Rail)
  | portLockGain (p : Fin 36)
  | portLinkLost (p : Fin 36)
  | pcieLinkUp (speed width : Fin 16)
  | perstRise
  | frameTransmitEnd (port : Fin 36)
  | portConnectChange (n : Fin 2) (conn : Bool)
  | deviceRemoteWakeup (fn on : Bool)
  | clearPortSuspend (rq : PortSuspend)
  deriving DecidableEq, Repr

end Sys2Proof
end

