-- ==== Sys2Proof/Decode.lean ====
section
/-! DEFINITION. The table's words (no row of the opcode table gives bits, so there are none), and the instruction words of
the Dexgolith set, which the spec does give: their decoder and encoder (05, R147-R177, Tables 5.2-5.16). -/

namespace Sys2Proof

/-- The command that a word spells by the opcode table's bits: no row of the table has any. -/
def decodeTableWord (_nbits _w : Nat) : Option Instr := none

/-! ## Fields of an instruction word -/

/-- `n` bits of a halfword from bit `lo`. -/
def hbits (h : BitVec 16) (lo n : Nat) : BitVec n := h.extractLsb' lo n

/-- `n` bits of an instruction word from bit `lo`. -/
def wbits (w : Word) (lo n : Nat) : BitVec n := w.extractLsb' lo n

/-- Whether an instruction whose first halfword is `h` is 32 bits wide (R147). -/
def isWide (h : BitVec 16) : Bool := hbits h 14 2 == 3

/-- An instruction, once the thread that executes it is known. -/
abbrev Op := Thr → Instr

/-! ## The decoder -/

/-- C.ALU (Table 5.3); the halfword 0x0000 is illegal (R151). -/
def decAlu (h : BitVec 16) : Option Op :=
  let rd := hbits h 8 4
  let rs := hbits h 4 4
  match (hbits h 0 4).toNat with
  | 0x0 => if h = 0 then none else some (.mv · rd rs)
  | 0x1 => some (.add · (.c rd rs))
  | 0x2 => some (.sub · (.c rd rs))
  | 0x3 => some (.and · (.c rd rs))
  | 0x4 => some (.or · (.c rd rs))
  | 0x5 => some (.xor · (.c rd rs))
  | 0x6 => some (.sll · (.c rd rs))
  | 0x7 => some (.srl · (.c rd rs))
  | 0x8 => some (.sra · (.c rd rs))
  | 0x9 => some (.cmp · rd rs)
  | 0xA => some (.neg · rd rs)
  | 0xB => some (.not · rd rs)
  | 0xC => some (.bswap · (.c rd rs))
  | _ => none

/-- C.SHI (Table 5.2): bit 5 is 0, k = 0b11 is illegal. -/
def decShi (h : BitVec 16) : Option Op :=
  let rd := hbits h 8 4
  let sh := hbits h 0 5
  if hbits h 5 1 ≠ 0 then none
  else match (hbits h 6 2).toNat with
    | 0 => some (.slli · (.c rd sh))
    | 1 => some (.srli · (.c rd sh))
    | 2 => some (.srai · (.c rd sh))
    | _ => none

/-- C.AGM (Tables 5.2, 5.10). -/
def decAgm (h : BitVec 16) : Option Op :=
  let r := hbits h 8 4
  let n := (hbits h 6 2).toFin
  let u := hbits h 2 1 == 1
  if hbits h 0 2 ≠ 0 then none
  else if hbits h 5 1 = 0 then
    match (hbits h 3 2).toNat with
    | 0 => some (.agLoad · (.c r n u) .word)
    | 1 => some (.agLoad · (.c r n u) .half)
    | 2 => some (.agLoad · (.c r n u) .halfu)
    | _ => none
  else
    match (hbits h 3 2).toNat with
    | 0 => some (.agStore · (.c r n u) .word)
    | 1 => some (.agStore · (.c r n u) .half)
    | _ => none

/-- C.MISC (Table 5.4). -/
def decMisc (h : BitVec 16) : Option Op :=
  let x := hbits h 0 8
  match (hbits h 8 4).toNat with
  | 0x0 => if x = 0 then some (.retm ·) else none
  | 0x1 => if x = 0 then some (.quit · .c) else none
  | 0x2 => if x = 0 then some (.eret · .c) else none
  | 0x3 => some (.brk · .c x)
  | 0x4 => some (.sysc · .c x)
  | 0x5 => if hbits h 0 4 = 0 then some (.jr · (hbits h 4 4)) else none
  | _ => none

/-- A 16-bit instruction (R155, Table 5.2). -/
def decode16 (h : BitVec 16) : Option Op :=
  let r := hbits h 8 4
  let x := hbits h 0 8
  match (hbits h 12 4).toNat with
  | 0x0 => decAlu h
  | 0x1 => some (.addi · (.c r x))
  | 0x2 => some (.li · r x)
  | 0x3 => decShi h
  | 0x4 => some (.ldw · (.c r (hbits h 4 4) (hbits h 0 4)))
  | 0x5 => some (.stw · (.c r (hbits h 4 4) (hbits h 0 4)))
  | 0x6 => decAgm h
  | 0x7 => some (.b · (hbits h 0 12))
  | 0x8 => some (.bcond · (.c r x))
  | 0x9 => if hbits h 7 1 = 0 then some (.bz · (.c r (hbits h 0 7))) else some (.bnz · (.c r (hbits h 0 7)))
  | 0xA => decMisc h
  | 0xB => some (.cmpi · r x)
  | _ => none

/-- OP 0x0 (R157, Table 5.7). -/
def decInt (w : Word) : Option Op :=
  let rb := wbits w 27 5
  let rd := wbits w 5 5
  let ra := wbits w 0 5
  match (wbits w 16 11).toNat with
  | 0x000 => some (.add · (.w rd ra rb))
  | 0x001 => some (.sub · (.w rd ra rb))
  | 0x002 => some (.and · (.w rd ra rb))
  | 0x003 => some (.or · (.w rd ra rb))
  | 0x004 => some (.xor · (.w rd ra rb))
  | 0x005 => some (.sll · (.w rd ra rb))
  | 0x006 => some (.srl · (.w rd ra rb))
  | 0x007 => some (.sra · (.w rd ra rb))
  | 0x008 => some (.mul · rd ra rb)
  | 0x009 => some (.mulhs · rd ra rb)
  | 0x00A => some (.mulhu · rd ra rb)
  | 0x00B => some (.min · rd ra rb)
  | 0x00C => some (.max · rd ra rb)
  | 0x00D => some (.minu · rd ra rb)
  | 0x00E => some (.maxu · rd ra rb)
  | 0x00F => some (.addc · rd ra rb)
  | 0x010 => some (.subc · rd ra rb)
  | 0x011 => if rb = 0 then some (.clz · rd ra) else none
  | 0x012 => if rb = 0 then some (.popc · rd ra) else none
  | 0x013 => if rb = 0 then some (.bswap · (.w rd ra)) else none
  | 0x014 => some (.extu · rd ra rb)
  | 0x015 => some (.slli · (.w rd ra rb))
  | 0x016 => some (.srli · (.w rd ra rb))
  | 0x017 => some (.srai · (.w rd ra rb))
  | _ => none

/-- OP 0x5 (Table 5.9). -/
def decLoad (w : Word) : Option Op :=
  let imm := wbits w 19 13
  let rd := wbits w 5 5
  let ra := wbits w 0 5
  match (wbits w 16 3).toNat with
  | 0 => some (.ldw · (.w rd ra imm))
  | 1 => some (.ldh · rd ra imm)
  | 2 => some (.ldhu · rd ra imm)
  | 3 => some (.ldb · rd ra imm)
  | 4 => some (.ldbu · rd ra imm)
  | 5 => some (.xadd · rd ra imm)
  | 6 => some (.xchg · rd ra imm)
  | _ => none

/-- OP 0x6 (Table 5.9). -/
def decStore (w : Word) : Option Op :=
  let imm := wbits w 19 13
  let rd := wbits w 5 5
  let ra := wbits w 0 5
  match (wbits w 16 3).toNat with
  | 0 => some (.stw · (.w rd ra imm))
  | 1 => some (.sth · rd ra imm)
  | 3 => some (.stb · rd ra imm)
  | _ => none

/-- OP 0x7 (R166). -/
def decAg (w : Word) : Option Op :=
  let f := AgForm.w (wbits w 5 5) (wbits w 0 2).toFin (wbits w 3 1 == 1)
  if wbits w 19 13 ≠ 0 ∨ wbits w 4 1 ≠ 0 then none
  else if wbits w 2 1 = 0 then
    match (wbits w 16 3).toNat with
    | 0 => some (.agLoad · f .word)
    | 1 => some (.agLoad · f .half)
    | 2 => some (.agLoad · f .halfu)
    | 3 => some (.agLoad · f .byte)
    | 4 => some (.agLoad · f .byteu)
    | _ => none
  else
    match (wbits w 16 3).toNat with
    | 0 => some (.agStore · f .word)
    | 1 => some (.agStore · f .half)
    | 3 => some (.agStore · f .byte)
    | _ => none

/-- OP 0xD (R167, Table 5.11). -/
def decMac (w : Word) : Option Op :=
  let rb := wbits w 27 5
  let rd := wbits w 5 5
  let ra := wbits w 0 5
  let ad := wbits w 5 2
  let an := wbits w 0 2
  let adOk := wbits w 7 3 = 0
  let anOk := wbits w 2 3 = 0
  if wbits w 25 2 ≠ 0 then none
  else if (wbits w 16 4).toNat = 5 then
    if rb = 0 ∧ anOk then some (.ext · rd an (wbits w 20 5)) else none
  else if wbits w 20 5 ≠ 0 then none
  else match (wbits w 16 4).toNat with
    | 0x0 => if adOk then some (.macl · ad ra rb) else none
    | 0x1 => if adOk then some (.msul · ad ra rb) else none
    | 0x2 => if adOk then some (.mpyl · ad ra rb) else none
    | 0x3 => if adOk then some (.macp · ad ra rb) else none
    | 0x4 => if adOk then some (.msup · ad ra rb) else none
    | 0x6 => if adOk ∧ ra = 0 ∧ rb = 0 then some (.aclr · ad) else none
    | 0x7 => if adOk ∧ rb = 0 then some (.amov · ad ra) else none
    | 0x8 => if adOk ∧ anOk ∧ rb = 0 then some (.aadd · ad an) else none
    | 0x9 => some (.fadd · rd ra rb)
    | 0xA => some (.fsub · rd ra rb)
    | 0xB => some (.padd · rd ra rb)
    | 0xC => some (.psub · rd ra rb)
    | 0xD => some (.fsra · rd ra rb)
    | _ => none

/-- OP 0xE (R171, Table 5.14); helper codes 5-7 are illegal (Table 5.15). -/
def decThread (w : Word) : Option Op :=
  let rb := wbits w 27 5
  let rd := wbits w 5 5
  let ra := wbits w 0 5
  if wbits w 23 4 ≠ 0 then none
  else if (wbits w 16 4).toNat = 5 then
    if wbits w 8 2 = 0 ∧ (wbits w 20 3).toNat < 5 then some (.hreq · (wbits w 20 3) (wbits w 5 3) ra rb) else none
  else if wbits w 20 3 ≠ 0 then none
  else match (wbits w 16 4).toNat with
    | 0x0 => some (.fork · rd ra rb)
    | 0x1 => if rd = 0 ∧ rb = 0 then some (.join · ra) else none
    | 0x2 => if rd = 0 ∧ ra = 0 ∧ rb = 0 then some (.quit · .w) else none
    | 0x3 => if rd = 0 ∧ rb = 0 then some (.waitt · ra) else none
    | 0x4 => if rb = 0 then some (.waite · rd ra) else none
    | 0x6 => if rb = 0 ∧ wbits w 3 2 = 0 then some (.hwait · rd (wbits w 0 3)) else none
    | 0x7 => if rb = 0 ∧ wbits w 3 2 = 0 then some (.hpoll · rd (wbits w 0 3)) else none
    | _ => none

/-- OP 0xF (R176, Table 5.16). -/
def decSystem (w : Word) : Option Op :=
  let rb := wbits w 27 5
  let rd := wbits w 5 5
  let ra := wbits w 0 5
  let n := wbits w 19 8
  if rb ≠ 0 then none
  else match (wbits w 16 3).toNat with
    | 0 => if ra = 0 then some (.mfs · rd n) else none
    | 1 => if rd = 0 then some (.mts · n ra) else none
    | 2 => if rd = 0 ∧ ra = 0 ∧ n = 0 then some (.eret · .w) else none
    | 3 => if rd = 0 ∧ ra = 0 then some (.sysc · .w n) else none
    | 4 => if rd = 0 ∧ ra = 0 then some (.brk · .w n) else none
    | 5 => if rd = 0 ∧ ra = 0 ∧ n = 0 then some (.fence ·) else none
    | _ => none

/-- A 32-bit instruction (R156, Table 5.6). -/
def decode32 (w : Word) : Option Op :=
  let imm := wbits w 16 16
  let rd := wbits w 5 5
  let ra := wbits w 0 5
  match (wbits w 10 4).toNat with
  | 0x0 => decInt w
  | 0x1 => some (.addi · (.w rd ra imm))
  | 0x2 => some (.andi · rd ra imm)
  | 0x3 => some (.ori · rd ra imm)
  | 0x4 => if ra = 0 then some (.lui · rd imm) else none
  | 0x5 => decLoad w
  | 0x6 => decStore w
  | 0x7 => decAg w
  | 0x8 => some (.bcond · (.w (wbits w 6 4) (wbits w 0 6 ++ imm)))
  | 0x9 => if wbits w 1 4 = 0 then
      (if wbits w 0 1 = 0 then some (.bz · (.w rd imm)) else some (.bnz · (.w rd imm))) else none
  | 0xA => if rd = 0 then some (.callm · (.reg ra imm)) else none
  | 0xB => some (.callm · (.rel ra (rd ++ imm)))
  | 0xC => some (.j · (wbits w 0 10 ++ imm))
  | 0xD => decMac w
  | 0xE => decThread w
  | _ => decSystem w

/-- The instruction of a word I (R147): the low halfword alone where it is a 16-bit instruction. -/
def decodeWord (w : Word) : Option Op := if isWide (wbits w 0 16) then decode32 w else decode16 (wbits w 0 16)

/-! ## The encoder -/

/-- A 16-bit word from its four nibbles. -/
def enc16 (a b c d : BitVec 4) : Word := (0 : BitVec 16) ++ (a ++ b ++ c ++ d : BitVec 16)

/-- A 16-bit word from two nibbles and a byte. -/
def enc16b (a b : BitVec 4) (x : BitVec 8) : Word := (0 : BitVec 16) ++ (a ++ b ++ x : BitVec 16)

/-- Format R (Table 5.5). -/
def encR (op : BitVec 4) (rb : BitVec 5) (func : BitVec 11) (rd ra : BitVec 5) : Word :=
  rb ++ func ++ (3 : BitVec 2) ++ op ++ rd ++ ra

/-- Format I. -/
def encI (op : BitVec 4) (imm : BitVec 16) (rd ra : BitVec 5) : Word := imm ++ (3 : BitVec 2) ++ op ++ rd ++ ra

/-- Format M. -/
def encM (op : BitVec 4) (imm : BitVec 13) (kind : BitVec 3) (rd ra : BitVec 5) : Word :=
  imm ++ kind ++ (3 : BitVec 2) ++ op ++ rd ++ ra

/-- A register-register instruction. -/
def encAluF (fc : BitVec 4) (fw : BitVec 11) : AluForm → Word
  | .c rd rs => enc16 0 rd rs fc
  | .w rd ra rb => encR 0 rb fw rd ra

/-- A shift by an immediate. -/
def encShF (k : BitVec 2) (fw : BitVec 11) : ShiftForm → Word
  | .c rd sh => (0 : BitVec 16) ++ ((3 : BitVec 4) ++ rd ++ k ++ (0 : BitVec 1) ++ sh : BitVec 16)
  | .w rd ra sh => encR 0 sh fw rd ra

/-- The KIND of a load (Table 5.9). -/
def loadKindBits : LoadKind → BitVec 3
  | .word => 0
  | .half => 1
  | .halfu => 2
  | .byte => 3
  | .byteu => 4

/-- The KIND of a store. -/
def storeKindBits : StoreKind → BitVec 3
  | .word => 0
  | .half => 1
  | .byte => 3

/-- An addressed access: `st` is the S bit, `kind` the KIND and its low bits the SZ (Table 5.10). -/
def encAgF (st : BitVec 1) (kind : BitVec 3) : AgForm → Word
  | .c r n u => (0 : BitVec 16) ++ ((6 : BitVec 4) ++ r ++ BitVec.ofFin (w := 2) n ++ st ++ kind.extractLsb' 0 2 ++ BitVec.ofBool u
      ++ (0 : BitVec 2) : BitVec 16)
  | .w r n u => (0 : BitVec 13) ++ kind ++ (3 : BitVec 2) ++ (7 : BitVec 4) ++ r ++ (0 : BitVec 1) ++ BitVec.ofBool u ++ st
      ++ BitVec.ofFin (w := 2) n

/-- BZ and BNZ. -/
def encBzF (nz : BitVec 1) : BzForm → Word
  | .c rs off => (0 : BitVec 16) ++ ((9 : BitVec 4) ++ rs ++ nz ++ off : BitVec 16)
  | .w rs off => off ++ (3 : BitVec 2) ++ (9 : BitVec 4) ++ rs ++ (0 : BitVec 4) ++ nz

/-- An instruction of OP 0xD. -/
def encMac (op : BitVec 4) (sh rb rd ra : BitVec 5) : Word := encR 0xD rb ((0 : BitVec 2) ++ sh ++ op) rd ra

/-- An instruction of OP 0xE. -/
def encThr (op : BitVec 4) (h : BitVec 3) (rb rd ra : BitVec 5) : Word := encR 0xE rb ((0 : BitVec 4) ++ h ++ op) rd ra

/-- An instruction of OP 0xF. -/
def encSys (op : BitVec 3) (n : BitVec 8) (rd ra : BitVec 5) : Word := encR 0xF 0 (n ++ op) rd ra

/-- The word of an instruction; `none` for a command that is no instruction. A 16-bit instruction stands in the low halfword. -/
def encodeWord : Instr → Option Word
  | .mv _ rd rs => some (enc16 0 rd rs 0)
  | .add _ f => some (encAluF 1 0 f)
  | .sub _ f => some (encAluF 2 1 f)
  | .and _ f => some (encAluF 3 2 f)
  | .or _ f => some (encAluF 4 3 f)
  | .xor _ f => some (encAluF 5 4 f)
  | .sll _ f => some (encAluF 6 5 f)
  | .srl _ f => some (encAluF 7 6 f)
  | .sra _ f => some (encAluF 8 7 f)
  | .cmp _ rd rs => some (enc16 0 rd rs 9)
  | .neg _ rd rs => some (enc16 0 rd rs 0xA)
  | .not _ rd rs => some (enc16 0 rd rs 0xB)
  | .bswap _ (.c rd rs) => some (enc16 0 rd rs 0xC)
  | .bswap _ (.w rd ra) => some (encR 0 0 0x013 rd ra)
  | .addi _ (.c rd x) => some (enc16b 1 rd x)
  | .addi _ (.w rd ra x) => some (encI 1 x rd ra)
  | .li _ rd x => some (enc16b 2 rd x)
  | .slli _ f => some (encShF 0 0x015 f)
  | .srli _ f => some (encShF 1 0x016 f)
  | .srai _ f => some (encShF 2 0x017 f)
  | .cmpi _ rs x => some (enc16b 0xB rs x)
  | .mul _ rd ra rb => some (encR 0 rb 0x008 rd ra)
  | .mulhs _ rd ra rb => some (encR 0 rb 0x009 rd ra)
  | .mulhu _ rd ra rb => some (encR 0 rb 0x00A rd ra)
  | .min _ rd ra rb => some (encR 0 rb 0x00B rd ra)
  | .max _ rd ra rb => some (encR 0 rb 0x00C rd ra)
  | .minu _ rd ra rb => some (encR 0 rb 0x00D rd ra)
  | .maxu _ rd ra rb => some (encR 0 rb 0x00E rd ra)
  | .addc _ rd ra rb => some (encR 0 rb 0x00F rd ra)
  | .subc _ rd ra rb => some (encR 0 rb 0x010 rd ra)
  | .clz _ rd ra => some (encR 0 0 0x011 rd ra)
  | .popc _ rd ra => some (encR 0 0 0x012 rd ra)
  | .extu _ rd ra rb => some (encR 0 rb 0x014 rd ra)
  | .andi _ rd ra x => some (encI 2 x rd ra)
  | .ori _ rd ra x => some (encI 3 x rd ra)
  | .lui _ rd x => some (encI 4 x rd 0)
  | .ldw _ (.c r rb off) => some (enc16 4 r rb off)
  | .ldw _ (.w r ra x) => some (encM 5 x 0 r ra)
  | .ldh _ rd ra x => some (encM 5 x 1 rd ra)
  | .ldhu _ rd ra x => some (encM 5 x 2 rd ra)
  | .ldb _ rd ra x => some (encM 5 x 3 rd ra)
  | .ldbu _ rd ra x => some (encM 5 x 4 rd ra)
  | .xadd _ rd ra x => some (encM 5 x 5 rd ra)
  | .xchg _ rd ra x => some (encM 5 x 6 rd ra)
  | .stw _ (.c r rb off) => some (enc16 5 r rb off)
  | .stw _ (.w r ra x) => some (encM 6 x 0 r ra)
  | .sth _ rd ra x => some (encM 6 x 1 rd ra)
  | .stb _ rd ra x => some (encM 6 x 3 rd ra)
  | .agLoad _ f k => some (encAgF 0 (loadKindBits k) f)
  | .agStore _ f k => some (encAgF 1 (storeKindBits k) f)
  | .b _ off => some ((0 : BitVec 16) ++ ((7 : BitVec 4) ++ off : BitVec 16))
  | .bcond _ (.c c off) => some (enc16b 8 c off)
  | .bcond _ (.w c off) => some (off.extractLsb' 0 16 ++ (3 : BitVec 2) ++ (8 : BitVec 4) ++ c ++ off.extractLsb' 16 6)
  | .bz _ f => some (encBzF 0 f)
  | .bnz _ f => some (encBzF 1 f)
  | .callm _ (.reg ra mask) => some (encI 0xA mask 0 ra)
  | .callm _ (.rel rm off) => some (off.extractLsb' 0 16 ++ (3 : BitVec 2) ++ (0xB : BitVec 4) ++ off.extractLsb' 16 5 ++ rm)
  | .retm _ => some (enc16b 0xA 0 0)
  | .j _ off => some (off.extractLsb' 0 16 ++ (3 : BitVec 2) ++ (0xC : BitVec 4) ++ off.extractLsb' 16 10)
  | .jr _ rs => some (enc16 0xA 5 rs 0)
  | .macl _ ad ra rb => some (encMac 0 0 rb (ad.zeroExtend 5) ra)
  | .msul _ ad ra rb => some (encMac 1 0 rb (ad.zeroExtend 5) ra)
  | .mpyl _ ad ra rb => some (encMac 2 0 rb (ad.zeroExtend 5) ra)
  | .macp _ ad ra rb => some (encMac 3 0 rb (ad.zeroExtend 5) ra)
  | .msup _ ad ra rb => some (encMac 4 0 rb (ad.zeroExtend 5) ra)
  | .ext _ rd an x => some (encMac 5 x 0 rd (an.zeroExtend 5))
  | .aclr _ ad => some (encMac 6 0 0 (ad.zeroExtend 5) 0)
  | .amov _ ad ra => some (encMac 7 0 0 (ad.zeroExtend 5) ra)
  | .aadd _ ad an => some (encMac 8 0 0 (ad.zeroExtend 5) (an.zeroExtend 5))
  | .fadd _ rd ra rb => some (encMac 9 0 rb rd ra)
  | .fsub _ rd ra rb => some (encMac 0xA 0 rb rd ra)
  | .padd _ rd ra rb => some (encMac 0xB 0 rb rd ra)
  | .psub _ rd ra rb => some (encMac 0xC 0 rb rd ra)
  | .fsra _ rd ra rb => some (encMac 0xD 0 rb rd ra)
  | .fork _ rd ra rb => some (encThr 0 0 rb rd ra)
  | .join _ ra => some (encThr 1 0 0 0 ra)
  | .quit _ .c => some (enc16b 0xA 1 0)
  | .quit _ .w => some (encThr 2 0 0 0 0)
  | .waitt _ ra => some (encThr 3 0 0 0 ra)
  | .waite _ rd ra => some (encThr 4 0 0 rd ra)
  | .hreq _ h cn ra rb => some (encThr 5 h rb (cn.zeroExtend 5) ra)
  | .hwait _ rd cn => some (encThr 6 0 0 rd (cn.zeroExtend 5))
  | .hpoll _ rd cn => some (encThr 7 0 0 rd (cn.zeroExtend 5))
  | .mfs _ rd n => some (encSys 0 n rd 0)
  | .mts _ n ra => some (encSys 1 n 0 ra)
  | .eret _ .c => some (enc16b 0xA 2 0)
  | .eret _ .w => some (encSys 2 0 0 0)
  | .sysc _ .c x => some (enc16b 0xA 4 x)
  | .sysc _ .w x => some (encSys 3 x 0 0)
  | .brk _ .c x => some (enc16b 0xA 3 x)
  | .brk _ .w x => some (encSys 4 x 0 0)
  | .fence _ => some (encSys 5 0 0 0)
  | _ => none

/-- The first halfword of an instruction, which EVAL takes under ILLEGAL and PRIV (04, Table 4.9). -/
def firstHalf (i : Instr) : Word :=
  match encodeWord i with
  | some w => (wbits w 0 16).zeroExtend 32
  | none => 0

end Sys2Proof
end

