-- ==== Sys2Proof/Config.lean ====
section
/-! DEFINITION. What the spec leaves to an implementation or leaves open: free values, which nothing in Lean can evaluate. -/

namespace Sys2Proof

/-- A word whose value the spec does not give, applied to the count of free values taken: a random word (03, R95), the data
that BIST_BOUGH leaves in a memory (16, R569), a configuration read's data (log 1). -/
opaque Config.freeWord : Nat → BitVec 32

/-- A byte whose value the spec does not give (log 1). -/
opaque Config.freeByte : Nat → BitVec 8

/-- A digest, nonce or signature part whose value the spec does not give (log 1). -/
opaque Config.freeBig : Nat → BitVec 512

/-- Whether a quotient that is not whole is taken upwards, where the spec states no rounding (log 1): (dividend, divisor). -/
opaque Config.roundUp : Int → Nat → Bool

/-- What a value is clamped to when the lower bound lies above the upper one: (lower, upper, value) (log 1). -/
opaque Config.crossed : Int → Int → Int → Int

/-- By how much the shutdown comparator's threshold on TS_3 differs from its nominal value, in 1/16 °C (09, R324; log 81). -/
opaque Config.tsShift : Int

/-- By how much the shutdown comparator's threshold on THERM_X differs from 0.300 V, in microvolts (09, R325; log 81). -/
opaque Config.thermShift : Int

end Sys2Proof
end

