-- ==== Sys2Proof/Machine/RegTable.lean ====
section
/-! DEFINITION. The register table: every register of the register window with its fields, access codes, cold values, reset
kinds and the privilege its writes need, transcribed from the field tables of 01-18 (rule or table beside each row). -/

namespace Sys2Proof.Machine

/-- Access codes (00, Table 0.6). -/
inductive Acc where
  | rw | ro | w1c | w1s | wo | rwl | rsv
  deriving DecidableEq, Repr

/-- The reset kinds that restore a field (00, Table 0.7), the cold one first; `held` is a field that taproot holds (Table 1.25). -/
inductive Kinds where
  | c | cw | cd | cwd | cwdr | held
  deriving DecidableEq, Repr

/-- What a write of a field needs (03, Table 3.7 and the register section of each chapter). -/
inductive Priv where
  | warden | anyone | rowSupv | rootstock | batRestore | staging | jobOwner | eventPost | threadCmd | threadTsp | gateRow
  deriving DecidableEq, Repr

/-- A field of a register: lowest bit, width, access code, cold value, and what differs from its register's row. -/
structure FieldRow where
  lo : Nat
  w : Nat
  acc : Acc
  cold : Nat
  kinds : Option Kinds := none
  priv : Option Priv := none
  deriving DecidableEq, Repr

/-- Which half of a 64-bit pair a register is (01, R28-R30). -/
inductive Half where
  | whole | lo | hi
  deriving DecidableEq, Repr

/-- A register, or an array of registers: base offset, (count, stride) of each index with the larger strides first. -/
structure RegRow where
  base : Nat
  dims : List (Nat × Nat)
  kinds : Kinds
  priv : Priv
  half : Half
  fields : List FieldRow
  deriving DecidableEq, Repr

/-- Registers from offset 0x0. -/
def regsIdr0 : List RegRow := [
  -- IDR_PART (01:R26/T1.12)
  ⟨0x0, [], .c, .warden, .whole,
   [⟨0, 16, .ro, 0x6416, none, none⟩,
    ⟨16, 8, .ro, 9, none, none⟩]⟩,
  -- IDR_REV (01:T1.13)
  ⟨0x4, [], .c, .warden, .whole,
   [⟨0, 8, .ro, 0, none, none⟩,
    ⟨8, 8, .ro, 1, none, none⟩]⟩,
  -- IDR_GRADE (01:T1.14)
  ⟨0x8, [], .c, .warden, .whole,
   [⟨0, 2, .ro, 2, none, none⟩,
    ⟨16, 16, .ro, 0x640, none, none⟩]⟩,
  -- IDR_FAMILY_0 (01:R26/T1.15)
  ⟨0xc, [], .c, .warden, .whole,
   [⟨0, 8, .ro, 8, none, none⟩,
    ⟨8, 8, .ro, 0x40, none, none⟩,
    ⟨16, 4, .ro, 8, none, none⟩,
    ⟨20, 4, .ro, 4, none, none⟩,
    ⟨24, 8, .ro, 0x10, none, none⟩]⟩,
  -- IDR_FAMILY_1 (01:R26/T1.16)
  ⟨0x10, [], .c, .warden, .whole,
   [⟨0, 8, .ro, 8, none, none⟩,
    ⟨8, 8, .ro, 0x10, none, none⟩,
    ⟨16, 8, .ro, 0xc, none, none⟩,
    ⟨24, 4, .ro, 8, none, none⟩]⟩,
  -- IDR_UID_LO (01:T1.17)
  ⟨0x18, [], .c, .warden, .lo,
   [⟨0, 32, .ro, 0, none, none⟩]⟩,
  -- IDR_UID_HI (01:T1.17)
  ⟨0x1c, [], .c, .warden, .hi,
   [⟨0, 32, .ro, 0, none, none⟩]⟩,
  -- IDR_READY_0 (01:R20/T1.18)
  ⟨0x20, [], .c, .warden, .whole,
   [⟨0, 2, .ro, 0, none, none⟩,
    ⟨2, 1, .ro, 0, some .cw, none⟩,
    ⟨3, 6, .ro, 0, none, none⟩,
    ⟨9, 2, .ro, 0, some .cw, none⟩,
    ⟨11, 1, .ro, 0, none, none⟩,
    ⟨12, 20, .ro, 0, some .cw, none⟩]⟩,
  -- IDR_READY_1 (01:R20/T1.18)
  ⟨0x24, [], .cw, .warden, .whole,
   [⟨0, 32, .ro, 0, none, none⟩]⟩,
  -- IDR_READY_EVT_0 (01:R25/T1.19)
  ⟨0x28, [], .cw, .warden, .whole,
   [⟨0, 32, .w1c, 0, none, none⟩]⟩,
  -- IDR_READY_EVT_1 (01:R25/T1.19)
  ⟨0x2c, [], .cw, .warden, .whole,
   [⟨0, 32, .w1c, 0, none, none⟩]⟩,
  -- IDR_READY_ROUTE (01:T1.20)
  ⟨0x30, [], .cw, .warden, .whole,
   [⟨0, 32, .rw, 0, none, none⟩]⟩,
  -- IDR_ACC_STATUS (01:R39/T1.21)
  ⟨0x40, [], .cw, .warden, .whole,
   [⟨0, 1, .w1c, 0, none, none⟩,
    ⟨1, 1, .w1c, 0, none, none⟩,
    ⟨2, 1, .w1c, 0, none, none⟩,
    ⟨3, 1, .w1c, 0, none, none⟩,
    ⟨4, 1, .w1c, 0, none, none⟩]⟩,
  -- IDR_ACC_ADDR (01:R39/T1.22)
  ⟨0x44, [], .cw, .warden, .whole,
   [⟨0, 32, .ro, 0, none, none⟩]⟩,
  -- IDR_ACC_SRC (01:R39/T1.23)
  ⟨0x48, [], .cw, .warden, .whole,
   [⟨0, 8, .ro, 0, none, none⟩,
    ⟨8, 10, .ro, 0, none, none⟩,
    ⟨18, 1, .ro, 0, none, none⟩,
    ⟨19, 2, .ro, 0, none, none⟩]⟩,
  -- IDR_ACC_CNT (01:R38/T1.24)
  ⟨0x4c, [], .cw, .warden, .whole,
   [⟨0, 16, .ro, 0, none, none⟩,
    ⟨31, 1, .w1c, 0, none, none⟩]⟩,
  -- IDR_ACC_ROUTE (01:R40/T1.20)
  ⟨0x50, [], .cw, .warden, .whole,
   [⟨0, 32, .rw, 0, none, none⟩]⟩,
  -- FLT_SAFE (17:R600/T17.10)
  ⟨0x80, [], .cw, .warden, .whole,
   [⟨0, 1, .ro, 0, none, none⟩,
    ⟨8, 7, .ro, 0, none, none⟩,
    ⟨16, 5, .ro, 0, none, none⟩,
    ⟨24, 8, .ro, 0, none, none⟩]⟩,
  -- FLT_SYS_STATUS (17:R588/T17.10)
  ⟨0x84, [], .cw, .warden, .whole,
   [⟨0, 1, .w1c, 0, none, none⟩,
    ⟨1, 1, .w1c, 0, none, none⟩,
    ⟨2, 1, .w1c, 0, none, none⟩,
    ⟨3, 1, .w1c, 0, none, none⟩,
    ⟨4, 1, .w1c, 0, none, none⟩,
    ⟨5, 1, .w1c, 0, none, none⟩,
    ⟨6, 1, .w1c, 0, none, none⟩,
    ⟨7, 1, .w1c, 0, none, none⟩]⟩,
  -- FLT_SYS_EN (17:T17.8)
  ⟨0x88, [], .cw, .warden, .whole,
   [⟨0, 8, .rw, 0xff, none, none⟩]⟩,
  -- FLT_SYS_ROUTE (17:T17.8)
  ⟨0x8c, [], .cw, .warden, .whole,
   [⟨0, 19, .rw, 0, none, none⟩]⟩,
  -- FLT_NV_CFG (17:R596/T17.10)
  ⟨0x90, [], .c, .warden, .whole,
   [⟨0, 2, .rw, 2, none, none⟩,
    ⟨31, 1, .wo, 0, none, none⟩]⟩,
  -- FLT_NV_STAT (17:R597/T17.10)
  ⟨0x94, [], .c, .warden, .whole,
   [⟨0, 10, .ro, 0, none, none⟩,
    ⟨11, 1, .ro, 0, none, none⟩,
    ⟨16, 16, .ro, 0, none, none⟩]⟩,
  -- ADM_GRACE (17:R610/T17.8)
  ⟨0x98, [], .c, .warden, .whole,
   [⟨0, 16, .rw, 0x3e8, none, none⟩]⟩]

/-- Registers from offset 0x100. -/
def regsIdr1 : List RegRow := [
  -- FLT_INJ_s (17:R604/T17.10)
  ⟨0x100, [(28, 0x4)], .cw, .warden, .whole,
   [⟨0, 2, .rw, 0, none, none⟩,
    ⟨2, 1, .rw, 0, none, none⟩]⟩,
  -- FLT_INJ_28 to FLT_INJ_31 (17:T17.5)
  ⟨0x170, [(4, 0x4)], .cw, .warden, .whole,
   [⟨0, 32, .rsv, 0, none, none⟩]⟩,
  -- FLT_b_FIRST (17:R593/T17.10)
  ⟨0x400, [(80, 0x20)], .c, .warden, .whole,
   [⟨0, 5, .ro, 0, none, none⟩,
    ⟨8, 2, .ro, 0, none, none⟩,
    ⟨31, 1, .ro, 0, none, none⟩]⟩,
  -- FLT_b_FIRST_T (17:R593/T17.10)
  ⟨0x404, [(80, 0x20)], .c, .warden, .whole,
   [⟨0, 32, .ro, 0, none, none⟩]⟩,
  -- FLT_b_LAST (17:R593/T17.10)
  ⟨0x408, [(80, 0x20)], .c, .warden, .whole,
   [⟨0, 5, .ro, 0, none, none⟩,
    ⟨8, 2, .ro, 0, none, none⟩,
    ⟨31, 1, .ro, 0, none, none⟩]⟩,
  -- FLT_b_LAST_T (17:R593/T17.10)
  ⟨0x40c, [(80, 0x20)], .c, .warden, .whole,
   [⟨0, 32, .ro, 0, none, none⟩]⟩,
  -- FLT_b_CNT (17:R593,R595/T17.10)
  ⟨0x410, [(80, 0x20)], .c, .warden, .whole,
   [⟨0, 16, .ro, 0, none, none⟩,
    ⟨31, 1, .w1c, 0, none, none⟩]⟩]

/-- The Idr registers. -/
def regsIdr : List RegRow := regsIdr0 ++ regsIdr1

/-- Registers from offset 0x1000. -/
def regsTap0 : List RegRow := [
  -- TAP_STATUS (02:R42/T2.7)
  ⟨0x1000, [], .c, .warden, .whole,
   [⟨0, 1, .ro, 0, none, none⟩]⟩,
  -- TAP_STRAP (02:R57/T2.7)
  ⟨0x1004, [], .c, .warden, .whole,
   [⟨0, 2, .ro, 0, none, none⟩,
    ⟨2, 4, .ro, 0, none, none⟩,
    ⟨6, 2, .ro, 0, none, none⟩,
    ⟨8, 3, .ro, 0, none, none⟩,
    ⟨11, 1, .ro, 0, none, none⟩]⟩,
  -- TAP_RTC_SUB (02:R44/T2.7)
  ⟨0x1008, [], .c, .warden, .whole,
   [⟨0, 15, .ro, 0, none, none⟩]⟩,
  -- TAP_RTC_SEC_LO (02:R44,R45)
  ⟨0x100c, [], .c, .warden, .lo,
   [⟨0, 32, .rw, 0, none, none⟩]⟩,
  -- TAP_RTC_SEC_HI (02:R44,R45/T2.7)
  ⟨0x1010, [], .c, .warden, .hi,
   [⟨0, 16, .rw, 0, none, none⟩]⟩,
  -- TAP_ALARM_SEC (02:R46)
  ⟨0x1014, [], .c, .warden, .whole,
   [⟨0, 32, .rw, 0, none, none⟩]⟩,
  -- TAP_ALARM_SUB (02:R46/T2.7)
  ⟨0x1018, [], .c, .warden, .whole,
   [⟨0, 15, .rw, 0, none, none⟩]⟩,
  -- TAP_WAKE_CFG_n (02:R47/T2.7)
  ⟨0x1020, [(8, 0x4)], .c, .warden, .whole,
   [⟨0, 1, .rw, 0, none, none⟩,
    ⟨1, 1, .rw, 0, none, none⟩,
    ⟨2, 1, .rw, 0, none, none⟩,
    ⟨8, 8, .rw, 0, none, none⟩]⟩,
  -- TAP_VBAT_CMP (02:R48/T2.7)
  ⟨0x1040, [], .c, .warden, .whole,
   [⟨0, 6, .rw, 0, none, none⟩,
    ⟨8, 6, .rw, 0, none, none⟩]⟩,
  -- TAP_WAKE_EN (02:R51/T2.7)
  ⟨0x1044, [], .c, .warden, .whole,
   [⟨0, 11, .rw, 0, none, none⟩,
    ⟨11, 1, .rsv, 0, none, none⟩]⟩,
  -- TAP_WAKE_REASON (02:R49/T2.7)
  ⟨0x1048, [], .c, .warden, .whole,
   [⟨0, 12, .w1c, 0, none, none⟩]⟩,
  -- TAP_WAKE_FIRST (02:R51/T2.7)
  ⟨0x104c, [], .c, .warden, .whole,
   [⟨0, 4, .ro, 0, none, none⟩]⟩,
  -- TAP_WAKE_ROUTE (02:R50)
  ⟨0x1050, [], .c, .warden, .whole,
   [⟨0, 19, .rw, 0, none, none⟩]⟩,
  -- TAP_STBY (02:R71,R72,R75/T2.7)
  ⟨0x1054, [], .c, .warden, .whole,
   [⟨0, 1, .wo, 0, none, none⟩,
    ⟨1, 1, .w1c, 0, none, none⟩,
    ⟨2, 1, .w1c, 0, none, none⟩]⟩,
  -- TAP_RRAM_IDX (02:R52/T2.7)
  ⟨0x1060, [], .c, .anyone, .whole,
   [⟨0, 12, .rw, 0, none, none⟩]⟩,
  -- TAP_RRAM_DATA (02:R52)
  ⟨0x1064, [], .c, .anyone, .whole,
   [⟨0, 32, .rw, 0, none, none⟩]⟩,
  -- TAP_RRAM_ECC (02:R53-R55/T2.7)
  ⟨0x1068, [], .c, .warden, .whole,
   [⟨0, 2, .rw, 0, none, none⟩,
    ⟨8, 8, .ro, 0, none, none⟩,
    ⟨16, 12, .ro, 0, none, none⟩]⟩,
  -- TAP_FAULT_STATUS (02:T2.7)
  ⟨0x1070, [], .c, .warden, .whole,
   [⟨0, 1, .w1c, 0, none, none⟩,
    ⟨1, 1, .w1c, 0, none, none⟩,
    ⟨2, 1, .w1c, 0, none, none⟩,
    ⟨3, 1, .w1c, 0, none, none⟩,
    ⟨4, 1, .w1c, 0, none, none⟩,
    ⟨5, 1, .w1c, 0, none, none⟩,
    ⟨6, 1, .w1c, 0, none, none⟩]⟩,
  -- TAP_FAULT_EN (02:T2.6)
  ⟨0x1074, [], .c, .warden, .whole,
   [⟨0, 7, .rw, 0x7f, none, none⟩]⟩,
  -- TAP_FAULT_ROUTE (02:T2.6)
  ⟨0x1078, [], .c, .warden, .whole,
   [⟨0, 19, .rw, 0, none, none⟩]⟩,
  -- WDT_CTL (17:R613,R620/T17.10)
  ⟨0x1100, [], .cw, .warden, .whole,
   [⟨0, 1, .rwl, 0, none, none⟩,
    ⟨1, 1, .rwl, 0, none, none⟩,
    ⟨2, 1, .w1s, 0, none, none⟩,
    ⟨4, 3, .rwl, 0, none, none⟩,
    ⟨8, 8, .rwl, 0xa, none, none⟩]⟩,
  -- WDT_PERIOD (17:R613/T17.10)
  ⟨0x1104, [], .cw, .warden, .whole,
   [⟨0, 16, .rwl, 0x3e8, none, none⟩]⟩,
  -- WDT_KEY (17:R615)
  ⟨0x1108, [], .c, .warden, .whole,
   [⟨0, 32, .wo, 0, none, none⟩]⟩,
  -- WDT_STATUS (17:T17.10)
  ⟨0x110c, [], .cw, .warden, .whole,
   [⟨0, 16, .ro, 0, none, none⟩,
    ⟨16, 1, .ro, 0, none, none⟩,
    ⟨17, 1, .ro, 0, none, none⟩,
    ⟨18, 1, .ro, 0, none, none⟩]⟩]

/-- Registers from offset 0x1110. -/
def regsTap1 : List RegRow := [
  -- WDT_BAD (17:R616/T17.10)
  ⟨0x1110, [], .cw, .warden, .whole,
   [⟨0, 16, .ro, 0, none, none⟩,
    ⟨31, 1, .w1c, 0, none, none⟩]⟩,
  -- WDT_EXP (17:R618,R619/T17.10)
  ⟨0x1114, [], .c, .warden, .whole,
   [⟨0, 16, .ro, 0, none, none⟩,
    ⟨16, 1, .w1c, 0, none, none⟩]⟩,
  -- WDT_FAULT_STATUS (17:T17.10)
  ⟨0x1120, [], .cw, .warden, .whole,
   [⟨0, 1, .w1c, 0, none, none⟩,
    ⟨1, 1, .w1c, 0, none, none⟩]⟩,
  -- WDT_FAULT_EN (17:T17.8)
  ⟨0x1124, [], .cw, .warden, .whole,
   [⟨0, 2, .rw, 3, none, none⟩]⟩,
  -- WDT_FAULT_ROUTE (17:T17.8)
  ⟨0x1128, [], .cw, .warden, .whole,
   [⟨0, 19, .rw, 0, none, none⟩]⟩]

/-- The Tap registers. -/
def regsTap : List RegRow := regsTap0 ++ regsTap1

/-- Registers from offset 0x2000. -/
def regsPdc : List RegRow := [
  -- PDC_REQ (02:R59,R65/T2.8)
  ⟨0x2000, [], .cw, .warden, .whole,
   [⟨1, 15, .rw, 0, none, none⟩]⟩,
  -- PDC_GRANT (02:R60/T2.8)
  ⟨0x2004, [], .c, .warden, .whole,
   [⟨0, 3, .ro, 1, none, none⟩,
    ⟨3, 13, .ro, 0, some .cw, none⟩]⟩,
  -- PDC_PLL (02:R61,R710/T2.8)
  ⟨0x2008, [], .c, .warden, .whole,
   [⟨0, 3, .ro, 0, none, none⟩,
    ⟨8, 3, .rw, 0, some .cw, none⟩]⟩,
  -- PDC_BUD_TMO (02:R68/T2.8)
  ⟨0x200c, [], .cw, .warden, .whole,
   [⟨0, 10, .rw, 0xc8, none, none⟩]⟩,
  -- PDC_DOM_0 (02:R710/T2.8)
  ⟨0x2040, [], .c, .warden, .whole,
   [⟨0, 3, .ro, 4, none, none⟩,
    ⟨4, 2, .ro, 0, some .cw, none⟩]⟩,
  -- PDC_DOM_n (02:R710/T2.8)
  ⟨0x2044, [(15, 0x4)], .c, .warden, .whole,
   [⟨0, 3, .ro, 0, none, none⟩,
    ⟨4, 2, .ro, 0, some .cw, none⟩]⟩,
  -- ADM_u (17:R608/T17.10)
  ⟨0x3000, [(152, 0x8)], .c, .warden, .whole,
   [⟨0, 1, .rw, 1, none, none⟩,
    ⟨16, 16, .rw, 0, none, none⟩]⟩,
  -- OPS_u (17:R610/T17.10)
  ⟨0x3004, [(152, 0x8)], .c, .warden, .whole,
   [⟨0, 1, .ro, 0, none, none⟩,
    ⟨1, 1, .ro, 1, none, none⟩,
    ⟨2, 1, .ro, 0, none, none⟩,
    ⟨3, 1, .ro, 0, none, none⟩,
    ⟨4, 1, .ro, 0, none, none⟩,
    ⟨5, 1, .ro, 0, none, none⟩,
    ⟨16, 16, .ro, 0, none, none⟩]⟩]

/-- Registers from offset 0x10000. -/
def regsLoops0 : List RegRow := [
  -- LOOP_x_CTL (07:R232,R237/T7.8)
  ⟨0x10000, [(4, 0x2000)], .cd, .warden, .whole,
   [⟨0, 1, .rw, 0, none, none⟩,
    ⟨1, 1, .rw, 0, none, none⟩]⟩,
  -- LOOP_x_STATUS (07:T7.8)
  ⟨0x10004, [(4, 0x2000)], .cd, .warden, .whole,
   [⟨0, 3, .ro, 0, none, none⟩,
    ⟨8, 1, .w1c, 0, none, none⟩,
    ⟨9, 1, .w1c, 0, none, none⟩,
    ⟨10, 1, .w1c, 0, none, none⟩,
    ⟨11, 1, .w1c, 0, none, none⟩,
    ⟨12, 1, .w1c, 0, none, none⟩,
    ⟨13, 1, .ro, 0, none, none⟩,
    ⟨14, 1, .ro, 0, none, none⟩]⟩,
  -- LOOP_AB_PERIOD (07:R222/T7.8)
  ⟨0x10008, [(2, 0x2000)], .cd, .warden, .whole,
   [⟨0, 13, .rw, 0x320, none, none⟩]⟩,
  -- LOOP_CD_PERIOD (07:R222/T7.8)
  ⟨0x14008, [(2, 0x2000)], .cd, .warden, .whole,
   [⟨0, 13, .rw, 0x7d0, none, none⟩]⟩,
  -- LOOP_x_TIMING (07:R229-R231/T7.8)
  ⟨0x1000c, [(4, 0x2000)], .cd, .warden, .whole,
   [⟨0, 1, .rw, 0, none, none⟩,
    ⟨16, 13, .rw, 0, none, none⟩]⟩,
  -- LOOP_AB_VSET (07:R257/T7.8)
  ⟨0x10010, [(2, 0x2000)], .cd, .warden, .whole,
   [⟨0, 16, .rw, 0xbb8, none, none⟩]⟩,
  -- LOOP_CD_VSET (07:R257/T7.8)
  ⟨0x14010, [(2, 0x2000)], .cd, .warden, .whole,
   [⟨0, 16, .rw, 0xbb80, none, none⟩]⟩,
  -- LOOP_A_VLIM (07:R256/T7.2)
  ⟨0x10014, [], .cd, .warden, .whole,
   [⟨0, 16, .rw, 0xa28, none, none⟩,
    ⟨16, 16, .rw, 0xd48, none, none⟩]⟩,
  -- LOOP_B_VLIM (07:R256/T7.2)
  ⟨0x12014, [], .cd, .warden, .whole,
   [⟨0, 16, .rw, 0x7d0, none, none⟩,
    ⟨16, 16, .rw, 0x1770, none, none⟩]⟩,
  -- LOOP_CD_VLIM (07:R256/T7.2)
  ⟨0x14014, [(2, 0x2000)], .cd, .warden, .whole,
   [⟨0, 16, .rw, 0x8ca0, none, none⟩,
    ⟨16, 16, .rw, 0xea60, none, none⟩]⟩,
  -- LOOP_x_SS (07:R232,R236/T7.8)
  ⟨0x10018, [(4, 0x2000)], .cd, .warden, .whole,
   [⟨0, 16, .rw, 0x2ee, none, none⟩,
    ⟨16, 16, .rw, 0x14, none, none⟩]⟩,
  -- LOOP_x_SENSE (07:R225/T7.8)
  ⟨0x1001c, [(4, 0x2000)], .cd, .warden, .whole,
   [⟨0, 16, .rw, 0x1000, none, none⟩,
    ⟨16, 12, .rw, 0, none, none⟩]⟩,
  -- LOOP_x_LAW (07:R226,R227,R267/T7.8)
  ⟨0x10020, [(4, 0x2000)], .cd, .warden, .whole,
   [⟨0, 4, .rw, 0, none, none⟩,
    ⟨4, 1, .rw, 0, none, none⟩,
    ⟨5, 4, .rw, 0, none, none⟩,
    ⟨9, 4, .rw, 0, none, none⟩,
    ⟨16, 1, .rw, 0, none, none⟩]⟩,
  -- LOOP_x_KI (07:R227/T7.8)
  ⟨0x10024, [(4, 0x2000)], .cd, .warden, .whole,
   [⟨0, 16, .rw, 0, none, none⟩]⟩,
  -- LOOP_x_KD (07:R227/T7.8)
  ⟨0x10028, [(4, 0x2000)], .cd, .warden, .whole,
   [⟨0, 16, .rw, 0, none, none⟩]⟩,
  -- LOOP_x_FF (07:R227/T7.8)
  ⟨0x1002c, [(4, 0x2000)], .cd, .warden, .whole,
   [⟨0, 16, .rw, 0, none, none⟩]⟩,
  -- LOOP_x_IMAX (07:R228/T7.8)
  ⟨0x10030, [(4, 0x2000)], .cd, .warden, .whole,
   [⟨0, 24, .rw, 0, none, none⟩]⟩,
  -- LOOP_x_DLIM (07:R227/T7.8)
  ⟨0x10034, [(4, 0x2000)], .cd, .warden, .whole,
   [⟨0, 16, .rw, 0, none, none⟩,
    ⟨16, 16, .rw, 0xe666, none, none⟩]⟩,
  -- LOOP_x_DE (07:R239,R240/T7.8)
  ⟨0x10038, [(4, 0x2000)], .cd, .warden, .whole,
   [⟨0, 16, .rw, 0, none, none⟩,
    ⟨16, 16, .rw, 0, none, none⟩]⟩,
  -- LOOP_x_BAL (07:R254,R255/T7.8)
  ⟨0x1003c, [(4, 0x2000)], .cd, .warden, .whole,
   [⟨0, 1, .rw, 0, none, none⟩,
    ⟨8, 8, .rw, 0, none, none⟩,
    ⟨16, 16, .rw, 0, none, none⟩]⟩,
  -- LOOP_x_PHCMD (07:R243/T7.8)
  ⟨0x10040, [(4, 0x2000)], .cd, .warden, .whole,
   [⟨0, 16, .rw, 0, none, none⟩,
    ⟨16, 2, .rw, 0, none, none⟩,
    ⟨24, 8, .rw, 0, none, none⟩]⟩,
  -- LOOP_x_PG (07:R234,R235/T7.8)
  ⟨0x10044, [(4, 0x2000)], .cd, .warden, .whole,
   [⟨0, 16, .rw, 0x50, none, none⟩,
    ⟨16, 8, .rw, 4, none, none⟩]⟩,
  -- LOOP_A_PROT (07:R265,R266/T7.8)
  ⟨0x10048, [], .cd, .warden, .whole,
   [⟨0, 16, .rw, 0xe9c, none, none⟩,
    ⟨16, 16, .rw, 0x924, none, none⟩]⟩,
  -- LOOP_B_PROT (07:R265,R266/T7.8)
  ⟨0x12048, [], .cd, .warden, .whole,
   [⟨0, 16, .rw, 0x19c8, none, none⟩,
    ⟨16, 16, .rw, 0x708, none, none⟩]⟩]

/-- Registers from offset 0x14048. -/
def regsLoops1 : List RegRow := [
  -- LOOP_CD_PROT (07:R265,R266/T7.8)
  ⟨0x14048, [(2, 0x2000)], .cd, .warden, .whole,
   [⟨0, 16, .rw, 0xffff, none, none⟩,
    ⟨16, 16, .rw, 0x7e90, none, none⟩]⟩,
  -- LOOP_x_TLM_CTL (07:R260-R262/T7.8)
  ⟨0x1004c, [(4, 0x2000)], .cd, .warden, .whole,
   [⟨0, 1, .rw, 0, none, none⟩,
    ⟨1, 4, .rw, 0, none, none⟩,
    ⟨8, 4, .rw, 0, none, none⟩,
    ⟨16, 1, .wo, 0, none, none⟩]⟩,
  -- LOOP_A_WAKE (07:R247,R248/T7.8)
  ⟨0x10050, [], .cd, .warden, .whole,
   [⟨0, 4, .rw, 2, none, none⟩,
    ⟨8, 8, .rw, 0x28, none, none⟩,
    ⟨16, 8, .rw, 0, none, none⟩,
    ⟨24, 8, .rw, 4, none, none⟩]⟩,
  -- LOOP_A_HINT (07:R252/T7.8)
  ⟨0x10054, [], .cd, .warden, .whole,
   [⟨0, 4, .rw, 1, none, none⟩]⟩,
  -- LOOP_x_VSLEW (07:R256/T7.7)
  ⟨0x10058, [(4, 0x2000)], .cd, .warden, .whole,
   [⟨0, 32, .rw, 0xfa0, none, none⟩]⟩,
  -- LOOP_x_EVT_ROUTE (07:T7.7)
  ⟨0x1005c, [(4, 0x2000)], .cd, .warden, .whole,
   [⟨0, 19, .rw, 0, none, none⟩]⟩,
  -- LOOP_x_FAULT_STATUS (07:R236,R265,R266/T7.8)
  ⟨0x10060, [(4, 0x2000)], .cd, .warden, .whole,
   [⟨0, 1, .w1c, 0, none, none⟩,
    ⟨1, 1, .w1c, 0, none, none⟩,
    ⟨2, 1, .w1c, 0, none, none⟩]⟩,
  -- LOOP_x_FAULT_EN (07:T7.7)
  ⟨0x10064, [(4, 0x2000)], .cd, .warden, .whole,
   [⟨0, 3, .rw, 3, none, none⟩]⟩,
  -- LOOP_x_FAULT_ROUTE (07:T7.7)
  ⟨0x10068, [(4, 0x2000)], .cd, .warden, .whole,
   [⟨0, 19, .rw, 0, none, none⟩]⟩,
  -- LOOP_x_DLIM_T (07:R224/T7.8)
  ⟨0x10070, [(4, 0x2000)], .cd, .warden, .whole,
   [⟨0, 8, .rw, 0x10, none, none⟩,
    ⟨8, 8, .rw, 0x10, none, none⟩]⟩,
  -- LOOP_x_DE_CNT (07:R239/T7.8)
  ⟨0x10074, [(4, 0x2000)], .cd, .warden, .whole,
   [⟨0, 8, .rw, 8, none, none⟩]⟩,
  -- LOOP_x_PROT_I (07:R264/T7.8)
  ⟨0x10078, [(4, 0x2000)], .cd, .warden, .whole,
   [⟨0, 16, .rw, 0x7fff, none, none⟩]⟩,
  -- LOOP_x_TLM_SEQ (07:R31,R261)
  ⟨0x10080, [(4, 0x2000)], .cd, .warden, .whole,
   [⟨0, 32, .ro, 0, none, none⟩]⟩,
  -- LOOP_x_TLM_V (07:R261/T7.8)
  ⟨0x10084, [(4, 0x2000)], .cd, .warden, .whole,
   [⟨0, 16, .ro, 0, none, none⟩]⟩,
  -- LOOP_x_TLM_I (07:R261/T7.8)
  ⟨0x10088, [(4, 0x2000)], .cd, .warden, .whole,
   [⟨0, 16, .ro, 0, none, none⟩]⟩,
  -- LOOP_x_TLM_P (07:R261/T7.8)
  ⟨0x1008c, [(4, 0x2000)], .cd, .warden, .whole,
   [⟨0, 32, .ro, 0, none, none⟩]⟩,
  -- LOOP_x_TLM_T (07:R261/T7.8)
  ⟨0x10090, [(4, 0x2000)], .cd, .warden, .whole,
   [⟨0, 16, .ro, 0, none, none⟩]⟩,
  -- LOOP_x_PEAK_V (07:R262/T7.8)
  ⟨0x10094, [(4, 0x2000)], .cd, .warden, .whole,
   [⟨0, 16, .ro, 0, none, none⟩]⟩,
  -- LOOP_x_PEAK_I (07:R262/T7.8)
  ⟨0x10098, [(4, 0x2000)], .cd, .warden, .whole,
   [⟨0, 16, .ro, 0, none, none⟩]⟩,
  -- LOOP_x_PEAK_T (07:R262/T7.8)
  ⟨0x1009c, [(4, 0x2000)], .cd, .warden, .whole,
   [⟨0, 16, .ro, 0, none, none⟩]⟩,
  -- LOOP_x_KP_b_i (07:R226,R267/T7.8)
  ⟨0x10400, [(4, 0x2000), (2, 0x100), (64, 0x4)], .cd, .warden, .whole,
   [⟨0, 16, .rw, 0, none, none⟩]⟩,
  -- PH_n_CFG (07:R217,R218/T7.8)
  ⟨0x11000, [(16, 0x20)], .cd, .warden, .whole,
   [⟨0, 2, .rw, 0, none, none⟩,
    ⟨2, 1, .rw, 0, none, none⟩,
    ⟨3, 1, .rw, 0, none, none⟩,
    ⟨4, 1, .rw, 0, none, none⟩]⟩,
  -- PH_n_STATE (07:T7.3/T7.8)
  ⟨0x11004, [(16, 0x20)], .cd, .warden, .whole,
   [⟨0, 3, .ro, 0, none, none⟩,
    ⟨8, 1, .w1c, 0, none, none⟩,
    ⟨16, 8, .ro, 0, none, none⟩]⟩,
  -- PH_n_CUR (07:R281/T7.8)
  ⟨0x11008, [(16, 0x20)], .cd, .warden, .whole,
   [⟨0, 16, .ro, 0, none, none⟩]⟩]

/-- Registers from offset 0x1100c. -/
def regsLoops2 : List RegRow := [
  -- PH_n_TRIM (07:R255/T7.8)
  ⟨0x1100c, [(16, 0x20)], .cd, .warden, .whole,
   [⟨0, 16, .ro, 0, none, none⟩]⟩]

/-- The Loops registers. -/
def regsLoops : List RegRow := regsLoops0 ++ regsLoops1 ++ regsLoops2

/-- Registers from offset 0x18010. -/
def regsCnv : List RegRow := [
  -- CNV_PAIR_p (08:R283/T8.6)
  ⟨0x18010, [(8, 0x4)], .cd, .warden, .whole,
   [⟨0, 1, .rw, 0, none, none⟩,
    ⟨4, 12, .rw, 0, none, none⟩,
    ⟨16, 8, .rw, 0, none, none⟩,
    ⟨24, 8, .rw, 0, none, none⟩]⟩,
  -- CNV_CS_n_CAL (08:R281/T8.6)
  ⟨0x18040, [(16, 0x4)], .cd, .warden, .whole,
   [⟨0, 12, .rw, 0x800, none, none⟩,
    ⟨16, 16, .rw, 0x1000, none, none⟩]⟩,
  -- CNV_0_SLOT_0 (08:T8.5)
  ⟨0x18100, [], .cd, .warden, .whole,
   [⟨0, 1, .rw, 1, none, none⟩,
    ⟨1, 3, .rw, 1, none, none⟩,
    ⟨4, 1, .rw, 0, none, none⟩,
    ⟨5, 2, .rw, 0, none, none⟩,
    ⟨8, 1, .rw, 1, none, none⟩,
    ⟨9, 1, .rw, 0, none, none⟩,
    ⟨16, 13, .rw, 0, none, none⟩]⟩,
  -- CNV_4_SLOT_0 (08:T8.5)
  ⟨0x18140, [], .cd, .warden, .whole,
   [⟨0, 1, .rw, 1, none, none⟩,
    ⟨1, 3, .rw, 2, none, none⟩,
    ⟨4, 1, .rw, 0, none, none⟩,
    ⟨5, 2, .rw, 1, none, none⟩,
    ⟨8, 1, .rw, 1, none, none⟩,
    ⟨9, 1, .rw, 0, none, none⟩,
    ⟨16, 13, .rw, 0, none, none⟩]⟩,
  -- CNV_8_SLOT_0 (08:T8.5)
  ⟨0x18180, [], .cd, .warden, .whole,
   [⟨0, 1, .rw, 1, none, none⟩,
    ⟨1, 3, .rw, 3, none, none⟩,
    ⟨4, 1, .rw, 0, none, none⟩,
    ⟨5, 2, .rw, 2, none, none⟩,
    ⟨8, 1, .rw, 1, none, none⟩,
    ⟨9, 1, .rw, 0, none, none⟩,
    ⟨16, 13, .rw, 0, none, none⟩]⟩,
  -- CNV_12_SLOT_0 (08:T8.5)
  ⟨0x181c0, [], .cd, .warden, .whole,
   [⟨0, 1, .rw, 1, none, none⟩,
    ⟨1, 3, .rw, 4, none, none⟩,
    ⟨4, 1, .rw, 0, none, none⟩,
    ⟨5, 2, .rw, 3, none, none⟩,
    ⟨8, 1, .rw, 1, none, none⟩,
    ⟨9, 1, .rw, 0, none, none⟩,
    ⟨16, 13, .rw, 0, none, none⟩]⟩,
  -- CNV_n_SLOT_s (08:R276,R277/T8.6)
  ⟨0x18100, [(16, 0x10), (4, 0x4)], .cd, .warden, .whole,
   [⟨0, 1, .rw, 0, none, none⟩,
    ⟨1, 3, .rw, 0, none, none⟩,
    ⟨4, 1, .rw, 0, none, none⟩,
    ⟨5, 2, .rw, 0, none, none⟩,
    ⟨8, 1, .rw, 0, none, none⟩,
    ⟨9, 1, .rw, 0, none, none⟩,
    ⟨16, 13, .rw, 0, none, none⟩]⟩,
  -- CNV_n_STAT (08:R277,R278,R280/T8.6)
  ⟨0x18200, [(16, 0x4)], .cd, .warden, .whole,
   [⟨0, 1, .w1c, 0, none, none⟩,
    ⟨8, 8, .ro, 0, none, none⟩,
    ⟨16, 8, .ro, 0, none, none⟩]⟩,
  -- CNV_P_m_LIST_s (08:R286/T8.6)
  ⟨0x18300, [(2, 0x20), (8, 0x4)], .cd, .warden, .whole,
   [⟨0, 1, .rw, 0, none, none⟩,
    ⟨1, 5, .rw, 0, none, none⟩,
    ⟨8, 3, .rw, 0, none, none⟩,
    ⟨12, 1, .rw, 0, none, none⟩]⟩,
  -- CNV_P_CTL (08:R287,R288/T8.6)
  ⟨0x18340, [], .cd, .warden, .whole,
   [⟨0, 1, .rw, 0, none, none⟩,
    ⟨1, 1, .rw, 0, none, none⟩,
    ⟨2, 1, .rw, 0, none, none⟩,
    ⟨3, 1, .w1c, 0, none, none⟩,
    ⟨16, 16, .rw, 0, none, none⟩]⟩,
  -- CNV_P_SEQ (08:R290)
  ⟨0x18380, [], .cd, .warden, .whole,
   [⟨0, 32, .ro, 0, none, none⟩]⟩,
  -- CNV_P_m_RES_s (08:R290/T8.3)
  ⟨0x183c0, [(2, 0x20), (8, 0x4)], .cd, .warden, .whole,
   [⟨0, 16, .ro, 0, none, none⟩,
    ⟨16, 1, .ro, 0, none, none⟩,
    ⟨17, 1, .ro, 0, none, none⟩,
    ⟨18, 5, .ro, 0, none, none⟩,
    ⟨23, 1, .ro, 0, none, none⟩,
    ⟨24, 8, .ro, 0, none, none⟩]⟩,
  -- CNV_TEMP_k (08:R291/T8.6)
  ⟨0x18400, [(4, 0x4)], .cd, .warden, .whole,
   [⟨0, 16, .ro, 0, none, none⟩,
    ⟨16, 16, .ro, 0, none, none⟩]⟩,
  -- CNV_XTEMP_k (08:T8.6)
  ⟨0x18410, [(4, 0x4)], .cd, .warden, .whole,
   [⟨0, 16, .rw, 0, none, none⟩]⟩,
  -- CNV_CMP_c_CFG (08:R292,R293/T8.6)
  ⟨0x18500, [(32, 0x8)], .cd, .warden, .whole,
   [⟨0, 1, .rw, 0, none, none⟩,
    ⟨1, 5, .rw, 0, none, none⟩,
    ⟨8, 5, .rw, 0, none, none⟩,
    ⟨16, 8, .rw, 0, none, none⟩]⟩,
  -- CNV_CMP_c_THR (08:R292/T8.6)
  ⟨0x18504, [(32, 0x8)], .cd, .warden, .whole,
   [⟨0, 16, .rw, 0, none, none⟩,
    ⟨16, 16, .rw, 0, none, none⟩]⟩,
  -- CNV_CMP_HIT (08:R293)
  ⟨0x18600, [], .cd, .warden, .whole,
   [⟨0, 32, .w1c, 0, none, none⟩]⟩,
  -- CNV_CMP_ROUTE (08:R293)
  ⟨0x18604, [], .cd, .warden, .whole,
   [⟨0, 19, .rw, 0, none, none⟩]⟩,
  -- CNV_CAP_CTL (08:R294,R295/T8.6)
  ⟨0x18610, [], .cd, .warden, .whole,
   [⟨0, 1, .rw, 0, none, none⟩,
    ⟨1, 1, .rw, 0, none, none⟩,
    ⟨2, 1, .rw, 0, none, none⟩,
    ⟨8, 5, .rw, 0, none, none⟩,
    ⟨16, 10, .rw, 0, none, none⟩]⟩,
  -- CNV_CAP_PTR (08:R294,R295/T8.6)
  ⟨0x18614, [], .cd, .warden, .whole,
   [⟨0, 10, .ro, 0, none, none⟩,
    ⟨31, 1, .ro, 0, none, none⟩]⟩,
  -- CNV_FAULT_STATUS (08:R280,R297,R299/T8.6)
  ⟨0x18620, [], .cd, .warden, .whole,
   [⟨0, 1, .w1c, 0, none, none⟩,
    ⟨1, 1, .w1c, 0, none, none⟩,
    ⟨2, 1, .w1c, 0, none, none⟩]⟩,
  -- CNV_FAULT_EN (08:T8.5)
  ⟨0x18624, [], .cd, .warden, .whole,
   [⟨0, 3, .rw, 3, none, none⟩]⟩,
  -- CNV_FAULT_ROUTE (08:T8.5)
  ⟨0x18628, [], .cd, .warden, .whole,
   [⟨0, 19, .rw, 0, none, none⟩]⟩,
  -- CNV_RMEM_w (08:R294)
  ⟨0x19000, [(1024, 0x4)], .cd, .warden, .whole,
   [⟨0, 32, .ro, 0, none, none⟩]⟩]

/-- Registers from offset 0x1a000. -/
def regsFan : List RegRow := [
  -- FAN_n_CFG (09:R317,R318/T9.7)
  ⟨0x1a000, [(4, 0x20)], .cwd, .warden, .whole,
   [⟨0, 1, .rw, 0, none, none⟩,
    ⟨1, 1, .rw, 0, none, none⟩,
    ⟨2, 1, .rw, 0, none, none⟩,
    ⟨4, 2, .rw, 0, none, none⟩]⟩,
  -- FAN_n_DUTY (09:R317/T9.7)
  ⟨0x1a004, [(4, 0x20)], .cwd, .warden, .whole,
   [⟨0, 10, .rw, 0x3e8, none, none⟩]⟩,
  -- FAN_n_TARGET (09:T9.7)
  ⟨0x1a008, [(4, 0x20)], .cwd, .warden, .whole,
   [⟨0, 16, .rw, 0, none, none⟩]⟩,
  -- FAN_n_TACH (09:R318,R319/T9.7)
  ⟨0x1a00c, [(4, 0x20)], .cwd, .warden, .whole,
   [⟨0, 20, .ro, 0xfffff, none, none⟩,
    ⟨31, 1, .ro, 1, none, none⟩]⟩,
  -- FAN_n_RPM (09:R318/T9.7)
  ⟨0x1a010, [(4, 0x20)], .cwd, .warden, .whole,
   [⟨0, 16, .ro, 0, none, none⟩]⟩,
  -- FAN_n_OUT (09:R321/T9.7)
  ⟨0x1a014, [(4, 0x20)], .cwd, .warden, .whole,
   [⟨0, 10, .ro, 0, none, none⟩,
    ⟨31, 1, .ro, 0, none, none⟩]⟩,
  -- FAN_MON_j_CFG (09:R320/T9.7)
  ⟨0x1a100, [(4, 0x10)], .cwd, .warden, .whole,
   [⟨0, 1, .rw, 0, none, none⟩,
    ⟨1, 4, .rw, 0, none, none⟩,
    ⟨16, 16, .rw, 0, none, none⟩]⟩,
  -- FAN_MON_j_THR (09:R320/T9.7)
  ⟨0x1a104, [(4, 0x10)], .cwd, .warden, .whole,
   [⟨0, 16, .rw, 0x8000, none, none⟩,
    ⟨16, 16, .rw, 0x7fff, none, none⟩]⟩,
  -- FAN_MON_j_STAT (09:R320/T9.7)
  ⟨0x1a108, [(4, 0x10)], .cwd, .warden, .whole,
   [⟨0, 2, .ro, 0, none, none⟩,
    ⟨16, 16, .ro, 0, none, none⟩]⟩,
  -- FAN_CTL (09:R322/T9.7)
  ⟨0x1a180, [], .cwd, .warden, .whole,
   [⟨0, 16, .rw, 0, none, none⟩]⟩,
  -- FAN_SHDN (09:R324,R328/T9.7)
  ⟨0x1a184, [], .cwd, .warden, .whole,
   [⟨0, 1, .ro, 0, none, none⟩,
    ⟨1, 1, .ro, 0, none, none⟩,
    ⟨2, 1, .ro, 0, none, none⟩,
    ⟨4, 2, .ro, 0, none, none⟩,
    ⟨8, 1, .w1c, 0, none, none⟩]⟩,
  -- FAN_FAULT_STATUS (09:T9.7)
  ⟨0x1a190, [], .cwd, .warden, .whole,
   [⟨0, 4, .w1c, 0, none, none⟩,
    ⟨4, 1, .w1c, 0, none, none⟩,
    ⟨8, 4, .w1c, 0, none, none⟩,
    ⟨12, 1, .w1c, 0, none, none⟩]⟩,
  -- FAN_FAULT_EN (09:T9.6)
  ⟨0x1a194, [], .cwd, .warden, .whole,
   [⟨0, 5, .rw, 0x1f, none, none⟩,
    ⟨8, 5, .rw, 0x1f, none, none⟩]⟩,
  -- FAN_FAULT_ROUTE (09:T9.6)
  ⟨0x1a198, [], .cwd, .warden, .whole,
   [⟨0, 19, .rw, 0, none, none⟩]⟩]

/-- Registers from offset 0x1b000. -/
def regsBat : List RegRow := [
  -- BAT_CTL (10:R341,R353,R360/T10.6)
  ⟨0x1b000, [], .cwd, .warden, .whole,
   [⟨0, 1, .rw, 0, none, none⟩,
    ⟨1, 1, .wo, 0, none, some .batRestore⟩,
    ⟨4, 4, .rw, 4, none, none⟩]⟩,
  -- BAT_STATUS (10:T10.6)
  ⟨0x1b004, [], .cwd, .warden, .whole,
   [⟨0, 1, .ro, 0, some .held, none⟩,
    ⟨1, 1, .ro, 1, some .held, none⟩,
    ⟨2, 1, .ro, 0, none, none⟩,
    ⟨3, 1, .ro, 0, some .held, none⟩,
    ⟨4, 1, .ro, 0, none, none⟩,
    ⟨5, 1, .ro, 0, some .held, none⟩,
    ⟨6, 1, .w1c, 0, none, none⟩,
    ⟨8, 3, .ro, 0, none, none⟩]⟩,
  -- BAT_VGAIN (10:R334/T10.6)
  ⟨0x1b008, [], .cwd, .warden, .whole,
   [⟨0, 32, .rw, 0, none, none⟩]⟩,
  -- BAT_IGAIN (10:R334/T10.6)
  ⟨0x1b00c, [], .cwd, .warden, .whole,
   [⟨0, 32, .rw, 0, none, none⟩]⟩,
  -- BAT_IOFFS (10:R334/T10.6)
  ⟨0x1b010, [], .cwd, .warden, .whole,
   [⟨0, 16, .rw, 0, none, none⟩]⟩,
  -- BAT_DESIGN (10:R343/T10.5)
  ⟨0x1b014, [], .cwd, .warden, .whole,
   [⟨0, 32, .rw, 0, none, none⟩]⟩,
  -- BAT_RINT (10:R338/T10.5)
  ⟨0x1b018, [], .cwd, .warden, .whole,
   [⟨0, 32, .rw, 0, none, none⟩]⟩,
  -- BAT_REST (10:R340,R363/T10.6)
  ⟨0x1b01c, [], .cwd, .warden, .whole,
   [⟨0, 16, .rw, 0x64, none, none⟩,
    ⟨16, 16, .rw, 0x3c, none, none⟩]⟩,
  -- BAT_OCV_k (10:R338/T10.6)
  ⟨0x1b040, [(11, 0x4)], .cwd, .warden, .whole,
   [⟨0, 16, .rw, 0, none, none⟩]⟩,
  -- BAT_TTAB_i (10:R334/T10.6)
  ⟨0x1b080, [(8, 0x4)], .cwd, .warden, .whole,
   [⟨0, 16, .rw, 0, none, none⟩,
    ⟨16, 16, .rw, 0, none, none⟩]⟩,
  -- BAT_SEQ (10:R339)
  ⟨0x1b100, [], .cwd, .warden, .whole,
   [⟨0, 32, .ro, 0, none, none⟩]⟩,
  -- BAT_SOC (10:R339,R357/T10.6)
  ⟨0x1b104, [], .cwd, .warden, .whole,
   [⟨0, 14, .ro, 0, none, none⟩,
    ⟨16, 14, .ro, 0, none, none⟩,
    ⟨31, 1, .ro, 1, none, none⟩]⟩,
  -- BAT_RC (10:R339/T10.6)
  ⟨0x1b108, [], .cwd, .warden, .whole,
   [⟨0, 31, .ro, 0, none, none⟩,
    ⟨31, 1, .ro, 1, none, none⟩]⟩,
  -- BAT_FCC (10:R339/T10.6)
  ⟨0x1b10c, [], .cwd, .warden, .whole,
   [⟨0, 31, .ro, 0, none, none⟩,
    ⟨31, 1, .ro, 1, none, none⟩]⟩,
  -- BAT_TTE (10:R340/T10.6)
  ⟨0x1b110, [], .cwd, .warden, .whole,
   [⟨0, 16, .ro, 0xffff, none, none⟩,
    ⟨31, 1, .ro, 1, none, none⟩]⟩,
  -- BAT_MEAS (10:R339/T10.6)
  ⟨0x1b114, [], .cwd, .warden, .whole,
   [⟨0, 16, .ro, 0, none, none⟩,
    ⟨16, 16, .ro, 0, none, none⟩]⟩,
  -- BAT_I (10:R339)
  ⟨0x1b118, [], .cwd, .warden, .whole,
   [⟨0, 32, .ro, 0, none, none⟩]⟩,
  -- BAT_LEARN (10:R358-R360/T10.6)
  ⟨0x1b120, [], .cwd, .warden, .whole,
   [⟨0, 16, .ro, 0, none, none⟩,
    ⟨16, 4, .ro, 0, none, none⟩,
    ⟨24, 1, .ro, 0, none, none⟩,
    ⟨25, 1, .ro, 0, none, none⟩]⟩,
  -- BAT_SAVE_n (10:R350/T10.2)
  ⟨0x1b140, [(8, 0x4)], .cwd, .warden, .whole,
   [⟨0, 32, .ro, 0, none, none⟩]⟩,
  -- BAT_RESTORE_n (10:R353/T10.5)
  ⟨0x1b160, [(8, 0x4)], .cwd, .batRestore, .whole,
   [⟨0, 32, .rw, 0, none, none⟩]⟩,
  -- BAT_FAULT_STATUS (10:T10.6)
  ⟨0x1b180, [], .cwd, .warden, .whole,
   [⟨0, 1, .w1c, 0, none, none⟩,
    ⟨1, 1, .w1c, 0, none, none⟩,
    ⟨2, 1, .w1c, 0, none, none⟩]⟩,
  -- BAT_FAULT_EN (10:T10.5)
  ⟨0x1b184, [], .cwd, .warden, .whole,
   [⟨0, 3, .rw, 7, none, none⟩]⟩,
  -- BAT_FAULT_ROUTE (10:T10.5)
  ⟨0x1b188, [], .cwd, .warden, .whole,
   [⟨0, 19, .rw, 0, none, none⟩]⟩]

/-- Registers from offset 0x1c000. -/
def regsTw : List RegRow := [
  -- TW_0_CFG (11:R366/T11.10)
  ⟨0x1c000, [], .cwd, .warden, .whole,
   [⟨0, 1, .rw, 1, none, none⟩,
    ⟨1, 2, .rw, 0, none, none⟩,
    ⟨4, 1, .rw, 0, none, none⟩,
    ⟨5, 1, .rw, 0, none, none⟩,
    ⟨8, 7, .ro, 0, none, none⟩]⟩,
  -- TW_1_CFG (11:R366/T11.10)
  ⟨0x1c400, [], .cwd, .warden, .whole,
   [⟨0, 1, .rw, 1, none, none⟩,
    ⟨1, 2, .rw, 0, none, none⟩,
    ⟨4, 1, .rw, 0, none, none⟩,
    ⟨5, 1, .rw, 0, none, none⟩,
    ⟨8, 7, .ro, 0, none, none⟩]⟩,
  -- TW_n_STRETCH (11:R396/T11.10)
  ⟨0x1c004, [(2, 0x400)], .cwd, .warden, .whole,
   [⟨0, 4, .rw, 0xa, none, none⟩,
    ⟨8, 5, .rw, 0x18, none, none⟩]⟩,
  -- TW_n_MCMD (11:R398/T11.10)
  ⟨0x1c008, [(2, 0x400)], .cwd, .warden, .whole,
   [⟨0, 7, .rw, 0, none, none⟩,
    ⟨8, 2, .rw, 0, none, none⟩,
    ⟨10, 6, .rw, 0, none, none⟩,
    ⟨16, 6, .rw, 0, none, none⟩,
    ⟨24, 1, .rw, 0, none, none⟩,
    ⟨31, 1, .wo, 0, none, none⟩]⟩,
  -- TW_n_MSTAT (11:R369-R374,R399,R400/T11.10)
  ⟨0x1c00c, [(2, 0x400)], .cwd, .warden, .whole,
   [⟨0, 1, .ro, 0, none, none⟩,
    ⟨1, 1, .w1c, 0, none, none⟩,
    ⟨2, 1, .w1c, 0, none, none⟩,
    ⟨3, 1, .w1c, 0, none, none⟩,
    ⟨4, 1, .w1c, 0, none, none⟩,
    ⟨5, 1, .w1c, 0, none, none⟩,
    ⟨6, 1, .w1c, 0, none, none⟩,
    ⟨7, 1, .w1c, 0, none, none⟩,
    ⟨16, 6, .ro, 0, none, none⟩]⟩,
  -- TW_n_MCTL (11:R370/T11.10)
  ⟨0x1c010, [(2, 0x400)], .cwd, .warden, .whole,
   [⟨0, 4, .rw, 3, none, none⟩]⟩,
  -- TW_n_MROUTE (11:R400)
  ⟨0x1c014, [(2, 0x400)], .cwd, .warden, .whole,
   [⟨0, 19, .rw, 0, none, none⟩]⟩,
  -- TW_n_MDATA_k (11:T11.10)
  ⟨0x1c040, [(2, 0x400), (8, 0x4)], .cwd, .warden, .whole,
   [⟨0, 32, .rw, 0, none, none⟩]⟩,
  -- TW_0_MBX_CMD (11:R393,R394/T11.10)
  ⟨0x1c100, [], .cwd, .warden, .whole,
   [⟨0, 8, .ro, 0, none, none⟩,
    ⟨8, 2, .ro, 0, none, none⟩,
    ⟨10, 6, .ro, 0, none, none⟩,
    ⟨16, 1, .ro, 0, none, none⟩,
    ⟨17, 1, .ro, 0, none, none⟩,
    ⟨31, 1, .ro, 0, none, none⟩]⟩,
  -- TW_0_MBX_RESP (11:R395/T11.10)
  ⟨0x1c104, [], .cwd, .warden, .whole,
   [⟨0, 1, .wo, 0, none, none⟩,
    ⟨8, 6, .wo, 0, none, none⟩]⟩,
  -- TW_0_MBX_STAT (11:R396/T11.10)
  ⟨0x1c108, [], .cwd, .warden, .whole,
   [⟨0, 1, .w1c, 0, none, none⟩,
    ⟨1, 1, .w1c, 0, none, none⟩]⟩,
  -- TW_0_MBX_ROUTE (11:R393)
  ⟨0x1c10c, [], .cwd, .warden, .whole,
   [⟨0, 19, .rw, 0, none, none⟩]⟩,
  -- TW_0_MBX_DATA_k (11:R395)
  ⟨0x1c140, [(8, 0x4)], .cwd, .warden, .whole,
   [⟨0, 32, .rw, 0, none, none⟩]⟩,
  -- TW_0_AMASK (11:R386/T11.10)
  ⟨0x1c180, [], .cwd, .warden, .whole,
   [⟨0, 32, .rw, 0, none, none⟩]⟩,
  -- AVS_m_CFG (11:T11.10)
  ⟨0x1c800, [(2, 0x100)], .cwd, .warden, .whole,
   [⟨0, 1, .rw, 1, none, none⟩]⟩,
  -- AVS_m_HOLD (11:R402/T11.10)
  ⟨0x1c804, [(2, 0x100)], .cwd, .warden, .whole,
   [⟨0, 16, .ro, 0, none, none⟩,
    ⟨16, 1, .ro, 0, none, none⟩]⟩,
  -- AVS_m_STAT (11:R403/T11.10)
  ⟨0x1c808, [(2, 0x100)], .cwd, .warden, .whole,
   [⟨0, 8, .ro, 0, none, none⟩,
    ⟨16, 16, .ro, 0, none, none⟩]⟩,
  -- TW_FAULT_STATUS (11:R374/T11.10)
  ⟨0x1cc00, [], .cwd, .warden, .whole,
   [⟨0, 1, .w1c, 0, none, none⟩,
    ⟨1, 1, .w1c, 0, none, none⟩]⟩,
  -- TW_FAULT_EN (11:T11.9)
  ⟨0x1cc04, [], .cwd, .warden, .whole,
   [⟨0, 2, .rw, 3, none, none⟩]⟩,
  -- TW_FAULT_ROUTE (11:T11.9)
  ⟨0x1cc08, [], .cwd, .warden, .whole,
   [⟨0, 19, .rw, 0, none, none⟩]⟩]

/-- Registers from offset 0x1e000. -/
def regsGov : List RegRow := [
  -- GOV_x_CTL (09:R303,R311/T9.5)
  ⟨0x1e000, [(2, 0x100)], .cd, .warden, .whole,
   [⟨0, 1, .rw, 1, none, none⟩,
    ⟨1, 1, .rw, 0, none, none⟩,
    ⟨2, 1, .wo, 0, none, none⟩]⟩,
  -- GOV_x_EMAX (09:R304/T9.5)
  ⟨0x1e004, [(2, 0x100)], .cd, .warden, .whole,
   [⟨0, 15, .rw, 0x3e8, none, none⟩]⟩,
  -- GOV_x_ITRIP (09:R303/T9.5)
  ⟨0x1e008, [(2, 0x100)], .cd, .warden, .whole,
   [⟨0, 16, .rw, 0x3a98, none, none⟩]⟩,
  -- GOV_x_WIN (09:R305,R306/T9.5)
  ⟨0x1e00c, [(2, 0x100)], .cd, .warden, .whole,
   [⟨0, 16, .rw, 0x14, none, none⟩,
    ⟨16, 16, .rw, 0, none, none⟩]⟩,
  -- GOV_x_PMAX (09:R311,R312/T9.5)
  ⟨0x1e010, [(2, 0x100)], .cd, .warden, .whole,
   [⟨0, 15, .rw, 0x1f4, none, none⟩,
    ⟨16, 16, .rw, 0, none, none⟩]⟩,
  -- GOV_x_CDECL (09:R311/T9.4)
  ⟨0x1e014, [(2, 0x100)], .cd, .warden, .whole,
   [⟨0, 32, .rw, 0, none, none⟩]⟩,
  -- GOV_x_STATUS (09:R303,R304,R311/T9.5)
  ⟨0x1e018, [(2, 0x100)], .cd, .warden, .whole,
   [⟨0, 1, .ro, 0, none, none⟩,
    ⟨1, 2, .ro, 0, none, none⟩,
    ⟨3, 1, .w1c, 0, none, none⟩]⟩,
  -- GOV_x_ACC (09:T9.4)
  ⟨0x1e01c, [(2, 0x100)], .cd, .warden, .whole,
   [⟨0, 32, .ro, 0, none, none⟩]⟩,
  -- GOV_x_EVT_E (09:R307)
  ⟨0x1e020, [(2, 0x100)], .cd, .warden, .whole,
   [⟨0, 32, .ro, 0, none, none⟩]⟩,
  -- GOV_x_EVT_T (09:R307)
  ⟨0x1e024, [(2, 0x100)], .cd, .warden, .whole,
   [⟨0, 32, .ro, 0, none, none⟩]⟩,
  -- GOV_x_EVT_CNT (09:R307)
  ⟨0x1e028, [(2, 0x100)], .cd, .warden, .whole,
   [⟨0, 16, .ro, 0, none, none⟩]⟩,
  -- GOV_x_EVT_MAX (09:R307)
  ⟨0x1e02c, [(2, 0x100)], .cd, .warden, .whole,
   [⟨0, 32, .ro, 0, none, none⟩]⟩,
  -- GOV_x_PRE_E (09:R314)
  ⟨0x1e030, [(2, 0x100)], .cd, .warden, .whole,
   [⟨0, 32, .ro, 0, none, none⟩]⟩,
  -- GOV_x_STORED (09:R316)
  ⟨0x1e034, [(2, 0x100)], .cd, .warden, .whole,
   [⟨0, 32, .ro, 0, none, none⟩]⟩,
  -- GOV_x_EVT_SEQ (09:R307)
  ⟨0x1e038, [(2, 0x100)], .cd, .warden, .whole,
   [⟨0, 32, .ro, 0, none, none⟩]⟩,
  -- GOV_FAULT_STATUS (09:R304,R313/T9.5)
  ⟨0x1e200, [], .cd, .warden, .whole,
   [⟨0, 1, .w1c, 0, none, none⟩,
    ⟨1, 1, .w1c, 0, none, none⟩,
    ⟨2, 1, .w1c, 0, none, none⟩,
    ⟨3, 1, .w1c, 0, none, none⟩]⟩,
  -- GOV_FAULT_EN (09:T9.4)
  ⟨0x1e204, [], .cd, .warden, .whole,
   [⟨0, 4, .rw, 0xf, none, none⟩]⟩,
  -- GOV_FAULT_ROUTE (09:T9.4)
  ⟨0x1e208, [], .cd, .warden, .whole,
   [⟨0, 19, .rw, 0, none, none⟩]⟩]

/-- Registers from offset 0x20000. -/
def regsEsp0 : List RegRow := [
  -- ESP_CFG (13:R475,R458/T13.10)
  ⟨0x20000, [], .cwd, .warden, .whole,
   [⟨0, 10, .rw, 0x14, none, none⟩,
    ⟨16, 15, .rw, 0x2400, none, none⟩]⟩,
  -- ESP_STATUS (13:R455,R477/T13.10)
  ⟨0x20004, [], .cwd, .warden, .whole,
   [⟨0, 13, .ro, 0, none, none⟩,
    ⟨16, 13, .ro, 0, none, none⟩]⟩,
  -- ESP_HINT (13:R477/T13.10)
  ⟨0x20008, [], .cwd, .warden, .whole,
   [⟨0, 16, .rw, 0x40, none, none⟩,
    ⟨16, 16, .rw, 8, none, none⟩]⟩,
  -- ESP_BREQ (13:R478,R479/T13.10)
  ⟨0x2000c, [], .cwd, .warden, .whole,
   [⟨0, 8, .w1c, 0, none, none⟩]⟩,
  -- ESP_DISC_LO (13:R454)
  ⟨0x20010, [], .cwd, .warden, .lo,
   [⟨0, 32, .ro, 0, none, none⟩]⟩,
  -- ESP_DISC_HI (13:R454)
  ⟨0x20014, [], .cwd, .warden, .hi,
   [⟨0, 32, .ro, 0, none, none⟩]⟩,
  -- ESP_FAULT_STATUS (13:R475/T13.10)
  ⟨0x20020, [], .cwd, .warden, .whole,
   [⟨0, 1, .w1c, 0, none, none⟩,
    ⟨1, 1, .w1c, 0, none, none⟩]⟩,
  -- ESP_FAULT_EN (13:T13.9)
  ⟨0x20024, [], .cwd, .warden, .whole,
   [⟨0, 2, .rw, 3, none, none⟩]⟩,
  -- ESP_FAULT_ROUTE (13:T13.9)
  ⟨0x20028, [], .cwd, .warden, .whole,
   [⟨0, 19, .rw, 0, none, none⟩]⟩,
  -- ESP_SRC_s (13:R453,R454/T13.10)
  ⟨0x20100, [(100, 0x4)], .cwd, .warden, .whole,
   [⟨0, 3, .rw, 0, none, none⟩,
    ⟨8, 6, .rw, 0, none, none⟩,
    ⟨16, 1, .rw, 0, none, none⟩,
    ⟨17, 1, .rw, 0, none, none⟩]⟩,
  -- ESP_DOM_d_IDX (13:R460/T13.10)
  ⟨0x20400, [(64, 0x10)], .cwd, .warden, .whole,
   [⟨0, 16, .ro, 0, none, none⟩,
    ⟨16, 16, .ro, 0, none, none⟩]⟩,
  -- ESP_DOM_d_REL_LO (13:R471)
  ⟨0x20404, [(64, 0x10)], .cwd, .warden, .lo,
   [⟨0, 32, .ro, 0, none, none⟩]⟩,
  -- ESP_DOM_d_REL_HI (13:R471)
  ⟨0x20408, [(64, 0x10)], .cwd, .warden, .hi,
   [⟨0, 32, .ro, 0, none, none⟩]⟩,
  -- ESP_DOM_d_VOID (13:R475/T13.10)
  ⟨0x2040c, [(64, 0x10)], .cwd, .warden, .whole,
   [⟨0, 16, .ro, 0, none, none⟩,
    ⟨31, 1, .w1c, 0, none, none⟩]⟩,
  -- ESP_ROW_r_WAKE (13:R478/T13.10)
  ⟨0x20800, [(8, 0x10)], .cwd, .warden, .whole,
   [⟨0, 13, .rw, 0, none, none⟩]⟩,
  -- ESP_ROW_r_WAIT (13:T13.10)
  ⟨0x20804, [(8, 0x10)], .cwdr, .warden, .whole,
   [⟨0, 13, .ro, 0, none, none⟩]⟩,
  -- ESP_ROW_r_DROP_k_LO (13:R472,R474/T13.10)
  ⟨0x21000, [(8, 0x40), (8, 0x8)], .cwd, .warden, .lo,
   [⟨0, 32, .ro, 0, none, none⟩]⟩,
  -- ESP_ROW_r_DROP_k_HI (13:R472,R474/T13.10)
  ⟨0x21004, [(8, 0x40), (8, 0x8)], .cwd, .warden, .hi,
   [⟨0, 32, .ro, 0, none, none⟩]⟩,
  -- DTB_LO (14:R510,R511)
  ⟨0x23000, [], .cwd, .warden, .lo,
   [⟨0, 32, .ro, 0, none, none⟩]⟩,
  -- DTB_HI (14:R510,R511)
  ⟨0x23004, [], .cwd, .warden, .hi,
   [⟨0, 32, .ro, 0, none, none⟩]⟩,
  -- DTB_RATE (14:R510/T14.7)
  ⟨0x23008, [], .cwd, .warden, .whole,
   [⟨0, 32, .rw, 0, none, none⟩]⟩,
  -- DTB_ADJ_LO (14:R512)
  ⟨0x2300c, [], .cwd, .warden, .lo,
   [⟨0, 32, .rw, 0, none, none⟩]⟩,
  -- DTB_ADJ_HI (14:R512)
  ⟨0x23010, [], .cwd, .warden, .hi,
   [⟨0, 32, .rw, 0, none, none⟩]⟩,
  -- DTB_CMD (14:R512,R513/T14.7)
  ⟨0x23014, [], .cwd, .warden, .whole,
   [⟨0, 2, .wo, 0, none, none⟩]⟩]

/-- Registers from offset 0x23018. -/
def regsEsp1 : List RegRow := [
  -- DTB_STATUS (14:R513/T14.7)
  ⟨0x23018, [], .cwd, .warden, .whole,
   [⟨0, 1, .ro, 0, none, none⟩]⟩]

/-- The Esp registers. -/
def regsEsp : List RegRow := regsEsp0 ++ regsEsp1

/-- Registers from offset 0x24000. -/
def regsJob : List RegRow := [
  -- JOB_o_SUBMIT_LO (16:R565)
  ⟨0x24000, [(9, 0x40)], .cwd, .jobOwner, .lo,
   [⟨0, 32, .wo, 0, none, none⟩]⟩,
  -- JOB_o_SUBMIT_HI (16:R565,R566/T16.11)
  ⟨0x24004, [(9, 0x40)], .cwd, .jobOwner, .hi,
   [⟨0, 8, .wo, 0, none, none⟩,
    ⟨31, 1, .wo, 0, none, none⟩]⟩,
  -- JOB_o_CPL_k (16:R572)
  ⟨0x24010, [(9, 0x40), (4, 0x4)], .cwd, .warden, .whole,
   [⟨0, 32, .ro, 0, none, none⟩]⟩,
  -- JOB_o_STAT (16:R567/T16.11)
  ⟨0x24020, [(9, 0x40)], .cwd, .warden, .whole,
   [⟨0, 8, .ro, 0, none, none⟩,
    ⟨8, 8, .ro, 0, none, none⟩,
    ⟨16, 1, .w1c, 0, none, none⟩]⟩,
  -- JOB_o_ROUTE (16:R571)
  ⟨0x24024, [(9, 0x40)], .cwd, .warden, .whole,
   [⟨0, 19, .rw, 0, none, none⟩]⟩,
  -- JOB_PROG_t (16:R570/T16.11)
  ⟨0x26000, [(1024, 0x8)], .cwd, .warden, .whole,
   [⟨0, 14, .ro, 0, none, none⟩,
    ⟨16, 2, .ro, 0, none, none⟩,
    ⟨20, 4, .ro, 0, none, none⟩,
    ⟨24, 8, .ro, 0, none, none⟩]⟩,
  -- JOB_POS_t (16:R570)
  ⟨0x26004, [(1024, 0x8)], .cwd, .warden, .whole,
   [⟨0, 32, .ro, 0, none, none⟩]⟩]

/-- Registers from offset 0x28000. -/
def regsRow0 : List RegRow := [
  -- ROW_r_CTL (12:R409-R411,R441/T12.8)
  ⟨0x28000, [(8, 0x1000)], .cwd, .warden, .whole,
   [⟨0, 1, .rw, 0, none, none⟩,
    ⟨1, 1, .wo, 0, none, some .rowSupv⟩]⟩,
  -- ROW_r_STATUS (12:R441,R442/T12.8)
  ⟨0x28004, [(8, 0x1000)], .cwd, .rowSupv, .whole,
   [⟨0, 1, .w1c, 0, none, none⟩,
    ⟨1, 1, .ro, 0, none, none⟩,
    ⟨4, 2, .ro, 0, none, none⟩,
    ⟨8, 1, .w1c, 0, none, none⟩]⟩,
  -- ROW_r_SUPV (12:R409/T12.8)
  ⟨0x28008, [(8, 0x1000)], .cwd, .warden, .whole,
   [⟨0, 10, .rw, 0, none, none⟩]⟩,
  -- ROW_r_ENTRY (12:R410/T12.8)
  ⟨0x2800c, [(8, 0x1000)], .cwd, .warden, .whole,
   [⟨1, 17, .rw, 0, none, none⟩]⟩,
  -- ROW_r_TVEC (12:R414/T12.8)
  ⟨0x28010, [(8, 0x1000)], .cwd, .rowSupv, .whole,
   [⟨1, 17, .rw, 0, none, none⟩]⟩,
  -- ROW_r_POLICY (12:R415/T12.8)
  ⟨0x28014, [(8, 0x1000)], .cwd, .rowSupv, .whole,
   [⟨0, 1, .rw, 0, none, none⟩]⟩,
  -- ROW_r_THR_SHARE (12:R417,R418/T12.8)
  ⟨0x28018, [(8, 0x1000)], .cwd, .warden, .whole,
   [⟨0, 1, .rw, 0, none, none⟩,
    ⟨16, 10, .rw, 0, none, none⟩]⟩,
  -- ROW_r_THR_USE (12:R418/T12.8)
  ⟨0x2801c, [(8, 0x1000)], .cwd, .warden, .whole,
   [⟨0, 10, .ro, 0, none, none⟩,
    ⟨16, 10, .ro, 0, none, none⟩]⟩,
  -- ROW_r_CMIN (12:R421/T12.8)
  ⟨0x28020, [(8, 0x1000)], .cwd, .warden, .whole,
   [⟨0, 19, .rw, 0, none, none⟩]⟩,
  -- ROW_r_CMAX (12:R421/T12.8)
  ⟨0x28024, [(8, 0x1000)], .cwd, .warden, .whole,
   [⟨0, 19, .rw, 0, none, none⟩]⟩,
  -- ROW_r_CELL_USE (12:R422/T12.8)
  ⟨0x28028, [(8, 0x1000)], .cwdr, .warden, .whole,
   [⟨0, 19, .ro, 0, none, none⟩]⟩,
  -- ROW_r_CELL_PEAK (12:T12.8)
  ⟨0x2802c, [(8, 0x1000)], .cwd, .rowSupv, .whole,
   [⟨0, 19, .ro, 0, none, none⟩,
    ⟨31, 1, .wo, 0, none, none⟩]⟩,
  -- ROW_r_TMAP_w (12:R413/T12.8)
  ⟨0x28040, [(8, 0x1000), (16, 0x4)], .cwd, .warden, .whole,
   [⟨0, 32, .rw, 0, none, none⟩]⟩,
  -- ROW_0_WMAP_w (12:R425,R426/T12.8)
  ⟨0x28080, [(16, 0x4)], .cwd, .rootstock, .whole,
   [⟨0, 32, .rw, 0, none, none⟩]⟩,
  -- ROW_r_WMAP_w (12:T12.7)
  ⟨0x29080, [(7, 0x1000), (16, 0x4)], .cwd, .warden, .whole,
   [⟨0, 32, .rsv, 0, none, none⟩]⟩,
  -- ROW_r_WDT_CTL (17:R621/T17.10)
  ⟨0x28100, [(8, 0x1000)], .cwd, .rowSupv, .whole,
   [⟨0, 16, .rw, 0, none, none⟩,
    ⟨16, 1, .rw, 0, some .cwdr, none⟩]⟩,
  -- ROW_r_WDT_KEY (17:R621)
  ⟨0x28104, [(8, 0x1000)], .c, .anyone, .whole,
   [⟨0, 32, .wo, 0, none, none⟩]⟩,
  -- ROW_r_WDT_STAT (17:R622/T17.10)
  ⟨0x28108, [(8, 0x1000)], .cwd, .warden, .whole,
   [⟨0, 16, .ro, 0, none, none⟩,
    ⟨16, 8, .ro, 0, none, none⟩,
    ⟨31, 1, .w1c, 0, none, none⟩]⟩,
  -- ROW_r_WDT_ROUTE (17:R623)
  ⟨0x2810c, [(8, 0x1000)], .cwd, .warden, .whole,
   [⟨0, 19, .rw, 0, none, none⟩]⟩,
  -- ROW_r_HQ_q_CFG (12:R432/T12.8)
  ⟨0x28200, [(8, 0x1000), (8, 0x20)], .cwd, .rowSupv, .whole,
   [⟨0, 1, .rw, 0, none, none⟩,
    ⟨1, 1, .rw, 0, none, none⟩,
    ⟨4, 4, .rw, 0, none, none⟩,
    ⟨8, 5, .rw, 0, none, none⟩]⟩,
  -- ROW_r_HQ_q_BASE_LO (12:T12.8)
  ⟨0x28204, [(8, 0x1000), (8, 0x20)], .cwd, .rowSupv, .lo,
   [⟨6, 26, .rw, 0, none, none⟩]⟩,
  -- ROW_r_HQ_q_BASE_HI (12:T12.8)
  ⟨0x28208, [(8, 0x1000), (8, 0x20)], .cwd, .rowSupv, .hi,
   [⟨0, 32, .rw, 0, none, none⟩]⟩,
  -- ROW_r_HQ_q_IDX (12:R432,R437/T12.8)
  ⟨0x2820c, [(8, 0x1000), (8, 0x20)], .cwdr, .warden, .whole,
   [⟨0, 16, .ro, 0, none, none⟩,
    ⟨16, 16, .ro, 0, none, none⟩]⟩,
  -- ROW_r_HQ_q_STAT (12:R433,R436/T12.8)
  ⟨0x28210, [(8, 0x1000), (8, 0x20)], .cwd, .warden, .whole,
   [⟨0, 16, .ro, 0, none, none⟩,
    ⟨16, 9, .ro, 0, some .cwdr, none⟩]⟩]

/-- Registers from offset 0x28300. -/
def regsRow1 : List RegRow := [
  -- ROW_r_FAULT_STATUS (12:R433,R437/T12.8)
  ⟨0x28300, [(8, 0x1000)], .cwd, .rowSupv, .whole,
   [⟨0, 1, .w1c, 0, none, none⟩,
    ⟨1, 1, .w1c, 0, none, none⟩]⟩,
  -- ROW_r_FAULT_EN (12:T12.7)
  ⟨0x28304, [(8, 0x1000)], .cwd, .warden, .whole,
   [⟨0, 2, .rw, 3, none, none⟩]⟩,
  -- ROW_r_FAULT_ROUTE (12:T12.7)
  ⟨0x28308, [(8, 0x1000)], .cwd, .warden, .whole,
   [⟨0, 19, .rw, 0, none, none⟩]⟩]

/-- The Row registers. -/
def regsRow : List RegRow := regsRow0 ++ regsRow1

/-- Registers from offset 0x30100. -/
def regsBgh : List RegRow := [
  -- BGH_EVT_POST (06:R192/T6.8)
  ⟨0x30100, [(8, 0x2000)], .c, .eventPost, .whole,
   [⟨0, 6, .wo, 0, none, none⟩,
    ⟨8, 8, .wo, 0, none, none⟩]⟩,
  -- BGH_FORK_FAIL (06:R202/T6.8)
  ⟨0x30104, [(8, 0x2000)], .cwd, .warden, .whole,
   [⟨0, 16, .ro, 0, none, none⟩,
    ⟨31, 1, .w1c, 0, none, none⟩]⟩,
  -- BGH_TSTATE_t (06:R208,R211/T6.8)
  ⟨0x30200, [(8, 0x2000), (64, 0x4)], .cwd, .threadCmd, .whole,
   [⟨0, 3, .ro, 5, none, none⟩,
    ⟨4, 3, .ro, 0, none, none⟩,
    ⟨8, 2, .ro, 0, none, none⟩,
    ⟨16, 8, .ro, 0, none, none⟩,
    ⟨30, 2, .wo, 0, none, none⟩]⟩,
  -- BGH_TSP_t (06:T6.8)
  ⟨0x30300, [(8, 0x2000), (64, 0x4)], .cwd, .threadTsp, .whole,
   [⟨0, 32, .rw, 0, none, none⟩]⟩,
  -- BGH_LKP_k_CFG (13:R467/T13.11)
  ⟨0x30600, [(8, 0x2000), (8, 0x8)], .cwd, .warden, .whole,
   [⟨0, 5, .rw, 0, none, none⟩,
    ⟨8, 3, .rw, 0, none, none⟩,
    ⟨12, 3, .rw, 0, none, none⟩,
    ⟨16, 1, .rw, 0, none, none⟩]⟩,
  -- BGH_LKP_k_BASE (13:R467/T13.11)
  ⟨0x30604, [(8, 0x2000), (8, 0x8)], .cwd, .warden, .whole,
   [⟨2, 18, .rw, 0, none, none⟩]⟩,
  -- BGH_FAULT_STATUS (17:T17.10)
  ⟨0x30700, [(8, 0x2000)], .cwd, .warden, .whole,
   [⟨0, 1, .w1c, 0, none, none⟩,
    ⟨1, 1, .w1c, 0, none, none⟩,
    ⟨2, 1, .w1c, 0, none, none⟩,
    ⟨3, 1, .w1c, 0, none, none⟩,
    ⟨4, 1, .w1c, 0, none, none⟩,
    ⟨5, 1, .w1c, 0, none, none⟩]⟩,
  -- BGH_FAULT_EN (17:T17.8)
  ⟨0x30704, [(8, 0x2000)], .cwd, .warden, .whole,
   [⟨0, 6, .rw, 0x3f, none, none⟩]⟩,
  -- BGH_FAULT_ROUTE (17:T17.8)
  ⟨0x30708, [(8, 0x2000)], .cwd, .warden, .whole,
   [⟨0, 19, .rw, 0, none, none⟩]⟩]

/-- Registers from offset 0x40000. -/
def regsBb : List RegRow := [
  -- BB_p_CTL (14:R495/T14.7)
  ⟨0x40000, [(8, 0x1000)], .cwd, .warden, .whole,
   [⟨0, 1, .rw, 0, none, none⟩,
    ⟨1, 2, .rw, 0, none, none⟩,
    ⟨8, 3, .rw, 0, none, none⟩]⟩,
  -- BB_p_STATUS (14:T14.7)
  ⟨0x40004, [(8, 0x1000)], .cwd, .warden, .whole,
   [⟨0, 1, .ro, 0, none, none⟩,
    ⟨1, 1, .ro, 0, none, none⟩]⟩,
  -- BB_p_MAC_LO (14:T14.6)
  ⟨0x40008, [(8, 0x1000)], .cwd, .warden, .lo,
   [⟨0, 32, .rw, 0, none, none⟩]⟩,
  -- BB_p_MAC_HI (14:T14.6)
  ⟨0x4000c, [(8, 0x1000)], .cwd, .warden, .hi,
   [⟨0, 16, .rw, 0, none, none⟩]⟩,
  -- BB_p_TSCORR (14:R494/T14.7)
  ⟨0x40010, [(8, 0x1000)], .cwd, .warden, .whole,
   [⟨0, 16, .rw, 0, none, none⟩,
    ⟨16, 16, .rw, 0, none, none⟩]⟩,
  -- BB_p_GATE (14:R489-R492/T14.7)
  ⟨0x40014, [(8, 0x1000)], .cwd, .gateRow, .whole,
   [⟨0, 8, .rw, 0xff, none, none⟩,
    ⟨8, 8, .rw, 0, none, none⟩,
    ⟨16, 1, .rw, 0, none, none⟩,
    ⟨17, 1, .w1c, 0, none, none⟩]⟩,
  -- BB_p_GATE_AT_LO (14:R490)
  ⟨0x40018, [(8, 0x1000)], .cwd, .gateRow, .lo,
   [⟨0, 32, .rw, 0, none, none⟩]⟩,
  -- BB_p_GATE_AT_HI (14:R490)
  ⟨0x4001c, [(8, 0x1000)], .cwd, .gateRow, .hi,
   [⟨0, 32, .rw, 0, none, none⟩]⟩,
  -- BB_p_GATE_ROUTE (14:R490)
  ⟨0x40020, [(8, 0x1000)], .cwd, .warden, .whole,
   [⟨0, 19, .rw, 0, none, none⟩]⟩,
  -- BB_p_TXEQ_0 (14:R496,R500/T14.7)
  ⟨0x40024, [(8, 0x1000)], .cwd, .warden, .whole,
   [⟨0, 8, .rw, 0, none, none⟩,
    ⟨8, 8, .rw, 0, none, none⟩,
    ⟨16, 8, .rw, 0, none, none⟩,
    ⟨24, 8, .rw, 0, none, none⟩]⟩,
  -- BB_p_TXEQ_1 (14:R497,R498/T14.7)
  ⟨0x40028, [(8, 0x1000)], .cwd, .warden, .whole,
   [⟨0, 4, .rw, 0, none, none⟩,
    ⟨4, 3, .rw, 0, none, none⟩,
    ⟨7, 1, .rw, 0, none, none⟩]⟩,
  -- BB_p_TXEQ_ACT (14:R499)
  ⟨0x4002c, [(8, 0x1000)], .cwd, .warden, .whole,
   [⟨0, 8, .ro, 0, none, none⟩,
    ⟨8, 8, .ro, 0, none, none⟩,
    ⟨16, 8, .ro, 0, none, none⟩,
    ⟨24, 8, .ro, 0, none, none⟩]⟩,
  -- BB_p_TXEQ_C0 (14:R499)
  ⟨0x40030, [(8, 0x1000)], .cwd, .warden, .whole,
   [⟨0, 8, .ro, 0x80, none, none⟩]⟩,
  -- BB_p_CNT_k_LO (14:T14.6)
  ⟨0x40040, [(8, 0x1000), (6, 0x8)], .cwd, .warden, .lo,
   [⟨0, 32, .ro, 0, none, none⟩]⟩,
  -- BB_p_CNT_k_HI (14:T14.6)
  ⟨0x40044, [(8, 0x1000), (6, 0x8)], .cwd, .warden, .hi,
   [⟨0, 32, .ro, 0, none, none⟩]⟩,
  -- BB_p_FAULT_STATUS (14:T14.7)
  ⟨0x40080, [(8, 0x1000)], .cwd, .warden, .whole,
   [⟨0, 1, .w1c, 0, none, none⟩,
    ⟨1, 1, .w1c, 0, none, none⟩,
    ⟨2, 1, .w1c, 0, none, none⟩]⟩,
  -- BB_p_FAULT_EN (14:T14.6)
  ⟨0x40084, [(8, 0x1000)], .cwd, .warden, .whole,
   [⟨0, 3, .rw, 3, none, none⟩]⟩,
  -- BB_p_FAULT_ROUTE (14:T14.6)
  ⟨0x40088, [(8, 0x1000)], .cwd, .warden, .whole,
   [⟨0, 19, .rw, 0, none, none⟩]⟩]

/-- Registers from offset 0x48000. -/
def regsEdg0 : List RegRow := [
  -- EDG_e_CTL (14:T14.7)
  ⟨0x48000, [(16, 0x400)], .cwd, .warden, .whole,
   [⟨0, 1, .rw, 0, none, none⟩,
    ⟨1, 2, .rw, 0, none, none⟩,
    ⟨8, 3, .rw, 0, none, none⟩]⟩,
  -- T1S_i_CTL (14:T14.7)
  ⟨0x4c000, [(12, 0x100)], .cwd, .warden, .whole,
   [⟨0, 1, .rw, 0, none, none⟩,
    ⟨1, 2, .rw, 0, none, none⟩,
    ⟨8, 3, .rw, 0, none, none⟩]⟩,
  -- EDG_e_STATUS (14:T14.7)
  ⟨0x48004, [(16, 0x400)], .cwd, .warden, .whole,
   [⟨0, 1, .ro, 0, none, none⟩,
    ⟨1, 1, .ro, 0, none, none⟩]⟩,
  -- T1S_i_STATUS (14:T14.7)
  ⟨0x4c004, [(12, 0x100)], .cwd, .warden, .whole,
   [⟨0, 1, .ro, 0, none, none⟩,
    ⟨1, 1, .ro, 0, none, none⟩]⟩,
  -- EDG_e_MAC_LO (14:T14.6)
  ⟨0x48008, [(16, 0x400)], .cwd, .warden, .lo,
   [⟨0, 32, .rw, 0, none, none⟩]⟩,
  -- T1S_i_MAC_LO (14:T14.6)
  ⟨0x4c008, [(12, 0x100)], .cwd, .warden, .lo,
   [⟨0, 32, .rw, 0, none, none⟩]⟩,
  -- EDG_e_MAC_HI (14:T14.6)
  ⟨0x4800c, [(16, 0x400)], .cwd, .warden, .hi,
   [⟨0, 16, .rw, 0, none, none⟩]⟩,
  -- T1S_i_MAC_HI (14:T14.6)
  ⟨0x4c00c, [(12, 0x100)], .cwd, .warden, .hi,
   [⟨0, 16, .rw, 0, none, none⟩]⟩,
  -- EDG_e_TSCORR (14:R494/T14.7)
  ⟨0x48010, [(16, 0x400)], .cwd, .warden, .whole,
   [⟨0, 16, .rw, 0, none, none⟩,
    ⟨16, 16, .rw, 0, none, none⟩]⟩,
  -- T1S_i_TSCORR (14:R494/T14.7)
  ⟨0x4c010, [(12, 0x100)], .cwd, .warden, .whole,
   [⟨0, 16, .rw, 0, none, none⟩,
    ⟨16, 16, .rw, 0, none, none⟩]⟩,
  -- EDG_e_GATE (14:R489-R492/T14.7)
  ⟨0x48014, [(16, 0x400)], .cwd, .gateRow, .whole,
   [⟨0, 8, .rw, 0xff, none, none⟩,
    ⟨8, 8, .rw, 0, none, none⟩,
    ⟨16, 1, .rw, 0, none, none⟩,
    ⟨17, 1, .w1c, 0, none, none⟩]⟩,
  -- T1S_i_GATE (14:R489-R492/T14.7)
  ⟨0x4c014, [(12, 0x100)], .cwd, .gateRow, .whole,
   [⟨0, 8, .rw, 0xff, none, none⟩,
    ⟨8, 8, .rw, 0, none, none⟩,
    ⟨16, 1, .rw, 0, none, none⟩,
    ⟨17, 1, .w1c, 0, none, none⟩]⟩,
  -- EDG_e_GATE_AT_LO (14:R490)
  ⟨0x48018, [(16, 0x400)], .cwd, .gateRow, .lo,
   [⟨0, 32, .rw, 0, none, none⟩]⟩,
  -- T1S_i_GATE_AT_LO (14:R490)
  ⟨0x4c018, [(12, 0x100)], .cwd, .gateRow, .lo,
   [⟨0, 32, .rw, 0, none, none⟩]⟩,
  -- EDG_e_GATE_AT_HI (14:R490)
  ⟨0x4801c, [(16, 0x400)], .cwd, .gateRow, .hi,
   [⟨0, 32, .rw, 0, none, none⟩]⟩,
  -- T1S_i_GATE_AT_HI (14:R490)
  ⟨0x4c01c, [(12, 0x100)], .cwd, .gateRow, .hi,
   [⟨0, 32, .rw, 0, none, none⟩]⟩,
  -- EDG_e_GATE_ROUTE (14:R490)
  ⟨0x48020, [(16, 0x400)], .cwd, .warden, .whole,
   [⟨0, 19, .rw, 0, none, none⟩]⟩,
  -- T1S_i_GATE_ROUTE (14:R490)
  ⟨0x4c020, [(12, 0x100)], .cwd, .warden, .whole,
   [⟨0, 19, .rw, 0, none, none⟩]⟩,
  -- EDG_e_TXEQ_0 (14:R496,R500/T14.7)
  ⟨0x48024, [(16, 0x400)], .cwd, .warden, .whole,
   [⟨0, 8, .rsv, 0, none, none⟩,
    ⟨8, 8, .rsv, 0, none, none⟩,
    ⟨16, 8, .rw, 0, none, none⟩,
    ⟨24, 8, .rw, 0, none, none⟩]⟩,
  -- EDG_e_TXEQ_1 (14:R497,R498/T14.7)
  ⟨0x48028, [(16, 0x400)], .cwd, .warden, .whole,
   [⟨0, 4, .rw, 0, none, none⟩,
    ⟨4, 3, .rw, 0, none, none⟩,
    ⟨7, 1, .rw, 0, none, none⟩]⟩,
  -- EDG_e_TXEQ_ACT (14:R499)
  ⟨0x4802c, [(16, 0x400)], .cwd, .warden, .whole,
   [⟨0, 8, .ro, 0, none, none⟩,
    ⟨8, 8, .ro, 0, none, none⟩,
    ⟨16, 8, .ro, 0, none, none⟩,
    ⟨24, 8, .ro, 0, none, none⟩]⟩,
  -- EDG_e_TXEQ_C0 (14:R499)
  ⟨0x48030, [(16, 0x400)], .cwd, .warden, .whole,
   [⟨0, 8, .ro, 0x40, none, none⟩]⟩,
  -- EDG_e_CNT_k_LO (14:T14.6)
  ⟨0x48040, [(16, 0x400), (6, 0x8)], .cwd, .warden, .lo,
   [⟨0, 32, .ro, 0, none, none⟩]⟩,
  -- T1S_i_CNT_k_LO (14:T14.6)
  ⟨0x4c040, [(12, 0x100), (4, 0x8)], .cwd, .warden, .lo,
   [⟨0, 32, .ro, 0, none, none⟩]⟩,
  -- PORT_TXEQ_0, _1, _ACT, _C0 of a T1S port, not implemented (01:R11, 14:T14.6)
  ⟨0x4c024, [(12, 0x100), (4, 0x4)], .cwd, .warden, .whole,
   [⟨0, 32, .rsv, 0, none, none⟩]⟩,
  -- PORT_CNT_4, _5 of a T1S port, not implemented (01:R11, 14:T14.6)
  ⟨0x4c060, [(12, 0x100), (4, 0x4)], .cwd, .warden, .whole,
   [⟨0, 32, .rsv, 0, none, none⟩]⟩]

/-- Registers from offset 0x48044. -/
def regsEdg1 : List RegRow := [
  -- EDG_e_CNT_k_HI (14:T14.6)
  ⟨0x48044, [(16, 0x400), (6, 0x8)], .cwd, .warden, .hi,
   [⟨0, 32, .ro, 0, none, none⟩]⟩,
  -- T1S_i_CNT_k_HI (14:T14.6)
  ⟨0x4c044, [(12, 0x100), (4, 0x8)], .cwd, .warden, .hi,
   [⟨0, 32, .ro, 0, none, none⟩]⟩,
  -- EDG_e_FAULT_STATUS (14:T14.7)
  ⟨0x48080, [(16, 0x400)], .cwd, .warden, .whole,
   [⟨0, 1, .w1c, 0, none, none⟩,
    ⟨1, 1, .w1c, 0, none, none⟩,
    ⟨2, 1, .w1c, 0, none, none⟩]⟩,
  -- T1S_i_FAULT_STATUS (14:T14.7)
  ⟨0x4c080, [(12, 0x100)], .cwd, .warden, .whole,
   [⟨0, 1, .w1c, 0, none, none⟩,
    ⟨1, 1, .w1c, 0, none, none⟩,
    ⟨2, 1, .w1c, 0, none, none⟩]⟩,
  -- EDG_e_FAULT_EN (14:T14.6)
  ⟨0x48084, [(16, 0x400)], .cwd, .warden, .whole,
   [⟨0, 3, .rw, 3, none, none⟩]⟩,
  -- T1S_i_FAULT_EN (14:T14.6)
  ⟨0x4c084, [(12, 0x100)], .cwd, .warden, .whole,
   [⟨0, 3, .rw, 3, none, none⟩]⟩,
  -- EDG_e_FAULT_ROUTE (14:T14.6)
  ⟨0x48088, [(16, 0x400)], .cwd, .warden, .whole,
   [⟨0, 19, .rw, 0, none, none⟩]⟩,
  -- T1S_i_FAULT_ROUTE (14:T14.6)
  ⟨0x4c088, [(12, 0x100)], .cwd, .warden, .whole,
   [⟨0, 19, .rw, 0, none, none⟩]⟩,
  -- T1S_i_PLCA (14:R501,R503/T14.7)
  ⟨0x4c0c0, [(12, 0x100)], .cwd, .warden, .whole,
   [⟨0, 1, .rw, 0, none, none⟩,
    ⟨8, 8, .rw, 0, none, none⟩,
    ⟨16, 8, .rw, 0, none, none⟩,
    ⟨24, 8, .rw, 0, none, none⟩]⟩,
  -- T1S_i_PLCA_T (14:R501/T14.7)
  ⟨0x4c0c4, [(12, 0x100)], .cwd, .warden, .whole,
   [⟨0, 8, .rw, 0x20, none, none⟩,
    ⟨8, 8, .rw, 0, none, none⟩]⟩,
  -- T1S_i_STATUS2 (14:R502/T14.7)
  ⟨0x4c0c8, [(12, 0x100)], .cwd, .warden, .whole,
   [⟨2, 1, .ro, 0, none, none⟩]⟩,
  -- MSEC_SEL (14:R504/T14.7)
  ⟨0x4f000, [], .cwd, .warden, .whole,
   [⟨0, 12, .rw, 0, none, none⟩]⟩,
  -- MSEC_CFG (14:R504/T14.7)
  ⟨0x4f004, [], .cwd, .warden, .whole,
   [⟨0, 1, .rw, 0, none, none⟩,
    ⟨1, 2, .rw, 0, none, none⟩]⟩,
  -- MSEC_KEY_k (14:R504/T14.7)
  ⟨0x4f010, [(8, 0x4)], .cwd, .warden, .whole,
   [⟨0, 32, .wo, 0, none, none⟩]⟩,
  -- MSEC_SALT_k (14:R504/T14.7)
  ⟨0x4f030, [(3, 0x4)], .cwd, .warden, .whole,
   [⟨0, 32, .wo, 0, none, none⟩]⟩,
  -- MSEC_CMD (14:R504-R506/T14.7)
  ⟨0x4f040, [], .cwd, .warden, .whole,
   [⟨0, 1, .wo, 0, none, none⟩,
    ⟨1, 1, .ro, 0, none, none⟩,
    ⟨2, 1, .w1c, 0, none, none⟩]⟩]

/-- The Edg registers. -/
def regsEdg : List RegRow := regsEdg0 ++ regsEdg1

/-- Registers from offset 0x50000. -/
def regsUsb : List RegRow := [
  -- USB_CTL (15:R528,R561/T15.11)
  ⟨0x50000, [], .cwd, .warden, .whole,
   [⟨0, 1, .rw, 1, none, none⟩]⟩,
  -- USB_STATUS (15:T15.11)
  ⟨0x50004, [], .cwd, .warden, .whole,
   [⟨0, 3, .ro, 0, none, none⟩,
    ⟨3, 1, .ro, 0, none, none⟩,
    ⟨4, 1, .ro, 0, none, none⟩,
    ⟨5, 1, .ro, 0, none, none⟩]⟩,
  -- USB_RESUME_CNT (15:R542,R546,R549/T15.11)
  ⟨0x50008, [], .cwd, .warden, .whole,
   [⟨0, 8, .ro, 0, none, none⟩,
    ⟨8, 8, .ro, 0, none, none⟩,
    ⟨16, 8, .ro, 0, none, none⟩,
    ⟨24, 7, .ro, 0, none, none⟩,
    ⟨31, 1, .w1c, 0, none, none⟩]⟩,
  -- USB_NTF_POST (15:R543/T15.11)
  ⟨0x50010, [], .cwd, .warden, .whole,
   [⟨0, 16, .wo, 0, none, none⟩]⟩,
  -- USB_NTF_PEND (15:R543/T15.11)
  ⟨0x50014, [], .cwd, .warden, .whole,
   [⟨0, 18, .ro, 0, none, none⟩]⟩,
  -- USB_NTF_MASK (15:R544/T15.11)
  ⟨0x50018, [], .cwd, .warden, .whole,
   [⟨0, 18, .rw, 0x3ffff, none, none⟩]⟩,
  -- USB_WAKE_CFG (15:R549/T15.11)
  ⟨0x5001c, [], .cwd, .warden, .whole,
   [⟨0, 16, .rw, 0x64, none, none⟩,
    ⟨16, 4, .rw, 3, none, none⟩]⟩,
  -- USB_FK (15:R555-R557/T15.11)
  ⟨0x50020, [], .cwd, .warden, .whole,
   [⟨0, 2, .ro, 0, none, none⟩,
    ⟨2, 2, .ro, 0, none, none⟩,
    ⟨4, 1, .ro, 0, some .held, none⟩]⟩,
  -- USB_PORT_n (15:R538/T15.11)
  ⟨0x50040, [(2, 0x4)], .cwd, .warden, .whole,
   [⟨0, 1, .ro, 0, none, none⟩,
    ⟨1, 1, .ro, 0, none, none⟩,
    ⟨2, 1, .ro, 0, none, none⟩,
    ⟨3, 1, .ro, 0, none, none⟩,
    ⟨4, 2, .ro, 0, none, none⟩,
    ⟨8, 8, .ro, 0, none, none⟩,
    ⟨31, 1, .w1c, 0, none, none⟩]⟩,
  -- USB_FAULT_STATUS (15:T15.11)
  ⟨0x50080, [], .cwd, .warden, .whole,
   [⟨0, 1, .w1c, 0, none, none⟩,
    ⟨1, 1, .w1c, 0, none, none⟩,
    ⟨2, 1, .w1c, 0, none, none⟩,
    ⟨3, 1, .w1c, 0, none, none⟩,
    ⟨4, 1, .w1c, 0, none, none⟩,
    ⟨5, 1, .w1c, 0, none, none⟩]⟩,
  -- USB_FAULT_EN (15:T15.10)
  ⟨0x50084, [], .cwd, .warden, .whole,
   [⟨0, 6, .rw, 0x1f, none, none⟩]⟩,
  -- USB_FAULT_ROUTE (15:T15.10)
  ⟨0x50088, [], .cwd, .warden, .whole,
   [⟨0, 19, .rw, 0, none, none⟩]⟩]

/-- Registers from offset 0x54000. -/
def regsPcie : List RegRow := [
  -- PCIE_STATUS (12:T12.10)
  ⟨0x54000, [], .cwd, .warden, .whole,
   [⟨0, 1, .ro, 0, none, none⟩,
    ⟨1, 3, .ro, 0, none, none⟩,
    ⟨4, 4, .ro, 0, none, none⟩]⟩,
  -- PCIE_ID (12:T12.10)
  ⟨0x54004, [], .cwd, .warden, .whole,
   [⟨0, 16, .ro, 0x6416, none, none⟩,
    ⟨16, 16, .ro, 0, none, none⟩]⟩,
  -- PCIE_HOSTPRIV (12:R425/T12.10)
  ⟨0x54008, [], .cwd, .rootstock, .whole,
   [⟨0, 1, .rw, 0, none, none⟩,
    ⟨1, 1, .rw, 0, none, none⟩]⟩,
  -- PCIE_FAULT_STATUS (12:R451/T12.10)
  ⟨0x54200, [], .cwd, .warden, .whole,
   [⟨0, 1, .w1c, 0, none, none⟩]⟩,
  -- PCIE_FAULT_EN (12:T12.9)
  ⟨0x54204, [], .cwd, .warden, .whole,
   [⟨0, 1, .rw, 1, none, none⟩]⟩,
  -- PCIE_FAULT_ROUTE (12:T12.9)
  ⟨0x54208, [], .cwd, .warden, .whole,
   [⟨0, 19, .rw, 0, none, none⟩]⟩]

/-- Registers from offset 0x58000. -/
def regsGraft : List RegRow := [
  -- GRAFT_CTL (18:R628,R630,R645/T18.8)
  ⟨0x58000, [], .cwd, .warden, .whole,
   [⟨0, 1, .rw, 0, none, none⟩,
    ⟨1, 1, .rw, 0, none, none⟩,
    ⟨2, 1, .wo, 0, none, none⟩]⟩,
  -- GRAFT_STATUS (18:R627,R643/T18.8)
  ⟨0x58004, [], .cwd, .warden, .whole,
   [⟨0, 1, .ro, 1, some .held, none⟩,
    ⟨1, 3, .ro, 0, none, none⟩,
    ⟨4, 1, .ro, 0, none, none⟩,
    ⟨5, 1, .ro, 1, none, none⟩,
    ⟨6, 1, .w1c, 0, none, none⟩]⟩,
  -- GRAFT_SHADOW (18:R634/T18.8)
  ⟨0x58008, [], .cwd, .warden, .whole,
   [⟨0, 4, .rw, 4, none, none⟩]⟩,
  -- GRAFT_EPOCH (18:R643)
  ⟨0x5800c, [], .cwd, .warden, .whole,
   [⟨0, 32, .ro, 0, none, none⟩]⟩,
  -- GRAFT_AGE (18:R643)
  ⟨0x58010, [], .cwd, .warden, .whole,
   [⟨0, 32, .ro, 0, none, none⟩]⟩,
  -- GRAFT_TAKE (18:R647-R650/T18.8)
  ⟨0x58014, [], .cwd, .warden, .whole,
   [⟨0, 1, .ro, 0, none, none⟩,
    ⟨1, 1, .ro, 0, none, none⟩,
    ⟨2, 1, .ro, 0, none, none⟩]⟩,
  -- GRAFT_TAKE_SKIP (18:R648/T18.8)
  ⟨0x58018, [], .cwd, .warden, .whole,
   [⟨0, 32, .ro, 0, none, none⟩]⟩,
  -- GRAFT_TAKE_T (18:R647/T18.7)
  ⟨0x5801c, [], .cwd, .warden, .whole,
   [⟨0, 32, .ro, 0, none, none⟩]⟩,
  -- GRAFT_ROUTE (18:R647)
  ⟨0x58020, [], .cwd, .warden, .whole,
   [⟨0, 19, .rw, 0, none, none⟩]⟩,
  -- GRAFT_FAULT_STATUS (18:T18.8)
  ⟨0x58040, [], .cwd, .warden, .whole,
   [⟨0, 1, .w1c, 0, none, none⟩,
    ⟨1, 1, .w1c, 0, none, none⟩,
    ⟨2, 1, .w1c, 0, none, none⟩,
    ⟨3, 1, .w1c, 0, none, none⟩,
    ⟨4, 1, .w1c, 0, none, none⟩,
    ⟨5, 1, .w1c, 0, none, none⟩]⟩,
  -- GRAFT_FAULT_EN (18:T18.7)
  ⟨0x58044, [], .cwd, .warden, .whole,
   [⟨0, 6, .rw, 0x3f, none, none⟩]⟩,
  -- GRAFT_FAULT_ROUTE (18:T18.7)
  ⟨0x58048, [], .cwd, .warden, .whole,
   [⟨0, 19, .rw, 0, none, none⟩]⟩]

/-- Registers from offset 0x5c000. -/
def regsRing : List RegRow := [
  -- RING_CTL (14:R519,R527/T14.7)
  ⟨0x5c000, [], .cwd, .warden, .whole,
   [⟨0, 1, .wo, 0, none, none⟩,
    ⟨1, 1, .wo, 0, none, none⟩]⟩,
  -- RING_CFG (14:T14.7)
  ⟨0x5c004, [], .cwd, .warden, .whole,
   [⟨0, 3, .rw, 0, none, none⟩,
    ⟨4, 3, .rw, 1, none, none⟩,
    ⟨8, 3, .rw, 7, none, none⟩,
    ⟨16, 5, .rw, 5, none, none⟩]⟩,
  -- RING_MEMBERS (14:R522/T14.7)
  ⟨0x5c008, [], .cwd, .warden, .whole,
   [⟨0, 16, .rw, 0, none, none⟩]⟩,
  -- RING_LDLY (14:R517/T14.7)
  ⟨0x5c00c, [], .cwd, .warden, .whole,
   [⟨0, 16, .rw, 0, none, none⟩]⟩,
  -- RING_STATUS (14:T14.7)
  ⟨0x5c010, [], .cwd, .warden, .whole,
   [⟨0, 3, .ro, 0, none, none⟩,
    ⟨4, 1, .ro, 0, none, none⟩,
    ⟨5, 3, .ro, 0, none, none⟩,
    ⟨8, 4, .ro, 0, none, none⟩,
    ⟨12, 4, .ro, 0, none, none⟩,
    ⟨16, 16, .ro, 0, none, none⟩]⟩,
  -- RING_CYCLE (14:T14.7)
  ⟨0x5c014, [], .cwd, .warden, .whole,
   [⟨0, 16, .ro, 0, none, none⟩]⟩,
  -- RING_START_T (14:R522/T14.7)
  ⟨0x5c018, [], .cwd, .warden, .whole,
   [⟨0, 16, .ro, 0, none, none⟩]⟩,
  -- RING_FAULT_STATUS (14:T14.7)
  ⟨0x5c020, [], .cwd, .warden, .whole,
   [⟨0, 1, .w1c, 0, none, none⟩,
    ⟨1, 1, .w1c, 0, none, none⟩,
    ⟨2, 1, .w1c, 0, none, none⟩,
    ⟨3, 1, .w1c, 0, none, none⟩]⟩,
  -- RING_FAULT_EN (14:T14.6)
  ⟨0x5c024, [], .cwd, .warden, .whole,
   [⟨0, 4, .rw, 0xf, none, none⟩]⟩,
  -- RING_FAULT_ROUTE (14:T14.6)
  ⟨0x5c028, [], .cwd, .warden, .whole,
   [⟨0, 19, .rw, 0, none, none⟩]⟩]

/-- Registers from offset 0x60000. -/
def regsNv : List RegRow := [
  -- NV_STATUS (16:T16.11)
  ⟨0x60000, [], .cwd, .warden, .whole,
   [⟨0, 1, .ro, 0, none, none⟩,
    ⟨8, 24, .ro, 0, none, none⟩]⟩,
  -- NV_HOLD_C (16:R577/T16.10)
  ⟨0x60004, [], .cwd, .warden, .whole,
   [⟨0, 32, .rw, 0, none, none⟩]⟩,
  -- NV_HOLD_VMIN (16:R577/T16.10)
  ⟨0x60008, [], .cwd, .warden, .whole,
   [⟨0, 32, .rw, 0, none, none⟩]⟩,
  -- NV_HOLD_SCALE (16:R577/T16.10)
  ⟨0x6000c, [], .cwd, .warden, .whole,
   [⟨0, 32, .rw, 0, none, none⟩]⟩,
  -- NV_HOLD_E (16:R577/T16.11)
  ⟨0x60010, [], .cwd, .warden, .whole,
   [⟨0, 16, .rw, 0x28, none, none⟩,
    ⟨16, 16, .rw, 0x78, none, none⟩]⟩,
  -- NV_HOLD_V (16:T16.10)
  ⟨0x60014, [], .cwd, .warden, .whole,
   [⟨0, 32, .ro, 0, none, none⟩]⟩,
  -- NV_HOLD_EN (16:T16.10)
  ⟨0x60018, [], .cwd, .warden, .whole,
   [⟨0, 32, .ro, 0, none, none⟩]⟩,
  -- NV_REC_k (16:R581/T16.11)
  ⟨0x60020, [(2, 0x8)], .cwd, .warden, .whole,
   [⟨0, 1, .ro, 0, none, none⟩,
    ⟨1, 1, .ro, 0, none, none⟩,
    ⟨16, 16, .ro, 0, none, none⟩]⟩,
  -- NV_REC_k_SEQ (16:R581)
  ⟨0x60024, [(2, 0x8)], .cwd, .warden, .whole,
   [⟨0, 32, .ro, 0, none, none⟩]⟩,
  -- NV_RD_ADDR (16:T16.11)
  ⟨0x60040, [], .cwd, .warden, .whole,
   [⟨2, 19, .rw, 0, none, none⟩]⟩,
  -- NV_RD_DATA (16:T16.10)
  ⟨0x60044, [], .cwd, .warden, .whole,
   [⟨0, 32, .ro, 0, none, none⟩]⟩,
  -- NV_FAULT_STATUS (16:T16.11)
  ⟨0x60050, [], .cwd, .warden, .whole,
   [⟨0, 1, .w1c, 0, none, none⟩,
    ⟨1, 1, .w1c, 0, none, none⟩,
    ⟨2, 1, .w1c, 0, none, none⟩,
    ⟨3, 1, .w1c, 0, none, none⟩]⟩,
  -- NV_FAULT_EN (16:T16.10)
  ⟨0x60054, [], .cwd, .warden, .whole,
   [⟨0, 4, .rw, 7, none, none⟩]⟩,
  -- NV_FAULT_ROUTE (16:T16.10)
  ⟨0x60058, [], .cwd, .warden, .whole,
   [⟨0, 19, .rw, 0, none, none⟩]⟩]

/-- Registers from offset 0x64000. -/
def regsSec : List RegRow := [
  -- BOOT_STATUS (03:T3.10)
  ⟨0x64000, [], .cwd, .warden, .whole,
   [⟨0, 3, .ro, 0, none, none⟩,
    ⟨4, 4, .ro, 0, none, none⟩,
    ⟨8, 1, .ro, 0, none, none⟩,
    ⟨9, 1, .ro, 0, none, none⟩,
    ⟨10, 1, .ro, 0, none, none⟩,
    ⟨11, 1, .ro, 0, none, none⟩,
    ⟨12, 6, .ro, 0, none, none⟩,
    ⟨18, 6, .ro, 0, none, none⟩]⟩,
  -- BOOT_CTL (03:R106/T3.10)
  ⟨0x64004, [], .cw, .warden, .whole,
   [⟨0, 1, .wo, 0, none, none⟩]⟩,
  -- BOOT_STAGE_ADDR (03:R89/T3.9)
  ⟨0x64008, [], .cw, .staging, .whole,
   [⟨0, 32, .rw, 0, none, none⟩]⟩,
  -- BOOT_STAGE_LEN (03:R89/T3.9)
  ⟨0x6400c, [], .cw, .staging, .whole,
   [⟨0, 32, .rw, 0, none, none⟩]⟩,
  -- BOOT_STAGE_GO (03:R90/T3.10)
  ⟨0x64010, [], .cw, .staging, .whole,
   [⟨0, 1, .wo, 0, none, none⟩]⟩,
  -- BOOT_FUSE (03:T3.10)
  ⟨0x64014, [], .c, .warden, .whole,
   [⟨0, 6, .ro, 0, none, none⟩,
    ⟨8, 4, .ro, 0, none, none⟩,
    ⟨12, 1, .ro, 0, none, none⟩,
    ⟨13, 1, .ro, 0, none, none⟩]⟩,
  -- BOOT_FUSE_CMD (03:R93,R94/T3.10)
  ⟨0x64018, [], .c, .warden, .whole,
   [⟨0, 1, .wo, 0, none, none⟩,
    ⟨4, 4, .wo, 0, none, none⟩]⟩,
  -- SEC_RNG_DATA (03:R95,R96)
  ⟨0x64020, [], .c, .warden, .whole,
   [⟨0, 32, .ro, 0, none, none⟩]⟩,
  -- SEC_RNG_STATUS (03:R96,R97/T3.10)
  ⟨0x64024, [], .cw, .warden, .whole,
   [⟨0, 1, .ro, 0, none, none⟩,
    ⟨1, 1, .w1c, 0, none, none⟩]⟩,
  -- SEC_RNG_CTL (03:R97/T3.10)
  ⟨0x64028, [], .c, .warden, .whole,
   [⟨0, 1, .wo, 0, none, none⟩]⟩,
  -- SEC_DBG (03:R99-R102/T3.10)
  ⟨0x64030, [], .cw, .warden, .whole,
   [⟨0, 2, .ro, 0, none, none⟩,
    ⟨2, 2, .ro, 0, some .held, none⟩,
    ⟨4, 1, .ro, 0, some .held, none⟩]⟩,
  -- SEC_FAULT_STATUS (03:T3.10)
  ⟨0x64040, [], .cw, .warden, .whole,
   [⟨0, 1, .w1c, 0, none, none⟩,
    ⟨1, 1, .w1c, 0, none, none⟩,
    ⟨2, 1, .w1c, 0, none, none⟩,
    ⟨3, 1, .w1c, 0, none, none⟩,
    ⟨4, 1, .w1c, 0, none, none⟩]⟩,
  -- SEC_FAULT_EN (03:T3.9)
  ⟨0x64044, [], .cw, .warden, .whole,
   [⟨0, 5, .rw, 0x1f, none, none⟩]⟩,
  -- SEC_FAULT_ROUTE (03:T3.9)
  ⟨0x64048, [], .cw, .warden, .whole,
   [⟨0, 19, .rw, 0, none, none⟩]⟩]

/-- The registers of the block of Table 1.4 that offset `off` lies in. -/
def regBlock (off : Nat) : List RegRow :=
  if off < 0x1000 then regsIdr
  else if off < 0x2000 then regsTap
  else if off < 0x10000 then regsPdc
  else if off < 0x18000 then regsLoops
  else if off < 0x1a000 then regsCnv
  else if off < 0x1b000 then regsFan
  else if off < 0x1c000 then regsBat
  else if off < 0x1e000 then regsTw
  else if off < 0x20000 then regsGov
  else if off < 0x24000 then regsEsp
  else if off < 0x28000 then regsJob
  else if off < 0x30000 then regsRow
  else if off < 0x40000 then regsBgh
  else if off < 0x48000 then regsBb
  else if off < 0x50000 then regsEdg
  else if off < 0x54000 then regsUsb
  else if off < 0x58000 then regsPcie
  else if off < 0x5c000 then regsGraft
  else if off < 0x60000 then regsRing
  else if off < 0x64000 then regsNv
  else if off < 0x68000 then regsSec
  else []

/-- Whether `rem` is reached by some choice of indices. -/
def dimsHit : List (Nat × Nat) → Nat → Bool
  | [], rem => rem == 0
  | (n, s) :: ds, rem => decide (rem / s < n) && dimsHit ds (rem % s)

/-- Whether the row describes the register at `off`. -/
def RegRow.hit (r : RegRow) (off : Nat) : Bool := decide (r.base ≤ off) && dimsHit r.dims (off - r.base)

/-- The row that describes the register at `off`, if there is one (01, R11). -/
def regRow (off : Nat) : Option RegRow := (regBlock off).find? (fun r => r.hit off)

/-- The bits of a field in its register. -/
def FieldRow.mask (f : FieldRow) : Nat := (2 ^ f.w - 1) * 2 ^ f.lo

/-- The cold value of the register at `off`. -/
def coldWord (off : Nat) : Word :=
  match regRow off with
  | none => 0
  | some r => BitVec.ofNat 32 (r.fields.foldl (fun a f => a + f.cold * 2 ^ f.lo) 0)

/-- The bits of a register whose fields satisfy `p`. -/
def RegRow.bits (r : RegRow) (p : FieldRow → Bool) : Word :=
  BitVec.ofNat 32 (r.fields.foldl (fun a f => if p f then a + f.mask else a) 0)

/-- The kinds of reset that restore a field of a row. -/
def FieldRow.kindsIn (r : RegRow) (f : FieldRow) : Kinds := f.kinds.getD r.kinds

/-- The privilege that a write of a field needs. -/
def FieldRow.privIn (r : RegRow) (f : FieldRow) : Priv := f.priv.getD r.priv

end Sys2Proof.Machine
end

