-- ==== Sys2Proof/Machine/Regs.lean ====
section
/-! DEFINITION. The registers of the register window by the spec's names: for each register its offset in the window (with its
instance indices as arguments), and for each field its place. A port p is 0-7 backbone, 8-23 edge, 24-35 10BASE-T1S. -/

namespace Sys2Proof.Machine

/-- A field: the register's offset, the field's lowest bit and its width. -/
structure Fld where
  off : Nat
  lo : Nat
  w : Nat
  deriving DecidableEq, Repr

namespace R

def IDR_PART : Nat := 0x00000
def IDR_PART_PART_CODE : Fld := ⟨IDR_PART, 0, 16⟩
def IDR_PART_MEMBER : Fld := ⟨IDR_PART, 16, 8⟩
def IDR_REV : Nat := 0x00004
def IDR_REV_MINOR : Fld := ⟨IDR_REV, 0, 8⟩
def IDR_REV_MAJOR : Fld := ⟨IDR_REV, 8, 8⟩
def IDR_GRADE : Nat := 0x00008
def IDR_GRADE_GRADE : Fld := ⟨IDR_GRADE, 0, 2⟩
def IDR_GRADE_SCION_MHZ : Fld := ⟨IDR_GRADE, 16, 16⟩
def IDR_FAMILY_0 : Nat := 0x0000C
def IDR_FAMILY_0_BOUGHS : Fld := ⟨IDR_FAMILY_0, 0, 8⟩
def IDR_FAMILY_0_SCIONS : Fld := ⟨IDR_FAMILY_0, 8, 8⟩
def IDR_FAMILY_0_THREADS : Fld := ⟨IDR_FAMILY_0, 16, 4⟩
def IDR_FAMILY_0_LOOPS : Fld := ⟨IDR_FAMILY_0, 20, 4⟩
def IDR_FAMILY_0_PHASES : Fld := ⟨IDR_FAMILY_0, 24, 8⟩
def IDR_FAMILY_1 : Nat := 0x00010
def IDR_FAMILY_1_BB_LANES : Fld := ⟨IDR_FAMILY_1, 0, 8⟩
def IDR_FAMILY_1_EDGE_LANES : Fld := ⟨IDR_FAMILY_1, 8, 8⟩
def IDR_FAMILY_1_T1S_PORTS : Fld := ⟨IDR_FAMILY_1, 16, 8⟩
def IDR_FAMILY_1_ROWS : Fld := ⟨IDR_FAMILY_1, 24, 4⟩
def IDR_UID_LO : Nat := 0x00018
def IDR_UID_LO_UID : Fld := ⟨IDR_UID_LO, 0, 32⟩
def IDR_UID_HI : Nat := 0x0001C
def IDR_UID_HI_UID : Fld := ⟨IDR_UID_HI, 0, 32⟩
def IDR_READY_0 : Nat := 0x00020
def IDR_READY_0_READY_1_0 : Fld := ⟨IDR_READY_0, 0, 2⟩
def IDR_READY_0_READY_2 : Fld := ⟨IDR_READY_0, 2, 1⟩
def IDR_READY_0_READY_8_3 : Fld := ⟨IDR_READY_0, 3, 6⟩
def IDR_READY_0_READY_10_9 : Fld := ⟨IDR_READY_0, 9, 2⟩
def IDR_READY_0_READY_11 : Fld := ⟨IDR_READY_0, 11, 1⟩
def IDR_READY_0_READY_31_12 : Fld := ⟨IDR_READY_0, 12, 20⟩
def IDR_READY_1 : Nat := 0x00024
def IDR_READY_1_READY : Fld := ⟨IDR_READY_1, 0, 32⟩
def IDR_READY_EVT_0 : Nat := 0x00028
def IDR_READY_EVT_0_EVT : Fld := ⟨IDR_READY_EVT_0, 0, 32⟩
def IDR_READY_EVT_1 : Nat := 0x0002C
def IDR_READY_EVT_1_EVT : Fld := ⟨IDR_READY_EVT_1, 0, 32⟩
def IDR_READY_ROUTE : Nat := 0x00030
def IDR_READY_ROUTE_ROUTE : Fld := ⟨IDR_READY_ROUTE, 0, 32⟩
def IDR_ACC_STATUS : Nat := 0x00040
def IDR_ACC_STATUS_UNMAPPED : Fld := ⟨IDR_ACC_STATUS, 0, 1⟩
def IDR_ACC_STATUS_NRDY : Fld := ⟨IDR_ACC_STATUS, 1, 1⟩
def IDR_ACC_STATUS_WIDTH : Fld := ⟨IDR_ACC_STATUS, 2, 1⟩
def IDR_ACC_STATUS_PRIV : Fld := ⟨IDR_ACC_STATUS, 3, 1⟩
def IDR_ACC_STATUS_OVF : Fld := ⟨IDR_ACC_STATUS, 4, 1⟩
def IDR_ACC_ADDR : Nat := 0x00044
def IDR_ACC_ADDR_ADDR : Fld := ⟨IDR_ACC_ADDR, 0, 32⟩
def IDR_ACC_SRC : Nat := 0x00048
def IDR_ACC_SRC_ADDR_HI : Fld := ⟨IDR_ACC_SRC, 0, 8⟩
def IDR_ACC_SRC_REQ : Fld := ⟨IDR_ACC_SRC, 8, 10⟩
def IDR_ACC_SRC_WRITE : Fld := ⟨IDR_ACC_SRC, 18, 1⟩
def IDR_ACC_SRC_BAR : Fld := ⟨IDR_ACC_SRC, 19, 2⟩
def IDR_ACC_CNT : Nat := 0x0004C
def IDR_ACC_CNT_COUNT : Fld := ⟨IDR_ACC_CNT, 0, 16⟩
def IDR_ACC_CNT_CLR : Fld := ⟨IDR_ACC_CNT, 31, 1⟩
def IDR_ACC_ROUTE : Nat := 0x00050
def IDR_ACC_ROUTE_ROUTE : Fld := ⟨IDR_ACC_ROUTE, 0, 32⟩
def FLT_SAFE : Nat := 0x00080
def FLT_SAFE_SAFE : Fld := ⟨FLT_SAFE, 0, 1⟩
def FLT_SAFE_BLOCK : Fld := ⟨FLT_SAFE, 8, 7⟩
def FLT_SAFE_BIT : Fld := ⟨FLT_SAFE, 16, 5⟩
def FLT_SAFE_FATAL_CNT : Fld := ⟨FLT_SAFE, 24, 8⟩
def FLT_SYS_STATUS : Nat := 0x00084
def FLT_SYS_STATUS_RS_LOCKSTEP : Fld := ⟨FLT_SYS_STATUS, 0, 1⟩
def FLT_SYS_STATUS_RS_DOUBLE : Fld := ⟨FLT_SYS_STATUS, 1, 1⟩
def FLT_SYS_STATUS_RS_MEM_UE : Fld := ⟨FLT_SYS_STATUS, 2, 1⟩
def FLT_SYS_STATUS_RS_MEM_CE : Fld := ⟨FLT_SYS_STATUS, 3, 1⟩
def FLT_SYS_STATUS_FENCE : Fld := ⟨FLT_SYS_STATUS, 4, 1⟩
def FLT_SYS_STATUS_STALE : Fld := ⟨FLT_SYS_STATUS, 5, 1⟩
def FLT_SYS_STATUS_ROUTE_LOST : Fld := ⟨FLT_SYS_STATUS, 6, 1⟩
def FLT_SYS_STATUS_NV_DROP : Fld := ⟨FLT_SYS_STATUS, 7, 1⟩
def FLT_SYS_EN : Nat := 0x00088
def FLT_SYS_EN_EN : Fld := ⟨FLT_SYS_EN, 0, 8⟩
def FLT_SYS_ROUTE : Nat := 0x0008C
def FLT_SYS_ROUTE_ROUTE : Fld := ⟨FLT_SYS_ROUTE, 0, 19⟩
def FLT_NV_CFG : Nat := 0x00090
def FLT_NV_CFG_MINCLASS : Fld := ⟨FLT_NV_CFG, 0, 2⟩
def FLT_NV_CFG_CLEAR : Fld := ⟨FLT_NV_CFG, 31, 1⟩
def FLT_NV_STAT : Nat := 0x00094
def FLT_NV_STAT_NEXT : Fld := ⟨FLT_NV_STAT, 0, 10⟩
def FLT_NV_STAT_BUSY : Fld := ⟨FLT_NV_STAT, 11, 1⟩
def FLT_NV_STAT_DROP : Fld := ⟨FLT_NV_STAT, 16, 16⟩
def ADM_GRACE : Nat := 0x00098
def ADM_GRACE_GRACE : Fld := ⟨ADM_GRACE, 0, 16⟩
def FLT_INJ (s : Nat) : Nat := 0x00100 + 0x4 * s
def FLT_INJ_MODE (s : Nat) : Fld := ⟨(FLT_INJ s), 0, 2⟩
def FLT_INJ_DOUBLE (s : Nat) : Fld := ⟨(FLT_INJ s), 2, 1⟩
def FLT_FIRST (b : Nat) : Nat := 0x00400 + 0x20 * b
def FLT_FIRST_BIT (b : Nat) : Fld := ⟨(FLT_FIRST b), 0, 5⟩
def FLT_FIRST_CLASS (b : Nat) : Fld := ⟨(FLT_FIRST b), 8, 2⟩
def FLT_FIRST_VALID (b : Nat) : Fld := ⟨(FLT_FIRST b), 31, 1⟩
def FLT_FIRST_T (b : Nat) : Nat := 0x00404 + 0x20 * b
def FLT_FIRST_T_TIME (b : Nat) : Fld := ⟨(FLT_FIRST_T b), 0, 32⟩
def FLT_LAST (b : Nat) : Nat := 0x00408 + 0x20 * b
def FLT_LAST_BIT (b : Nat) : Fld := ⟨(FLT_LAST b), 0, 5⟩
def FLT_LAST_CLASS (b : Nat) : Fld := ⟨(FLT_LAST b), 8, 2⟩
def FLT_LAST_VALID (b : Nat) : Fld := ⟨(FLT_LAST b), 31, 1⟩
def FLT_LAST_T (b : Nat) : Nat := 0x0040C + 0x20 * b
def FLT_LAST_T_TIME (b : Nat) : Fld := ⟨(FLT_LAST_T b), 0, 32⟩
def FLT_CNT (b : Nat) : Nat := 0x00410 + 0x20 * b
def FLT_CNT_COUNT (b : Nat) : Fld := ⟨(FLT_CNT b), 0, 16⟩
def FLT_CNT_CLR (b : Nat) : Fld := ⟨(FLT_CNT b), 31, 1⟩
def TAP_STATUS : Nat := 0x01000
def TAP_STATUS_XTAL_OK : Fld := ⟨TAP_STATUS, 0, 1⟩
def TAP_STRAP : Nat := 0x01004
def TAP_STRAP_TSHD : Fld := ⟨TAP_STRAP, 0, 2⟩
def TAP_STRAP_NODE : Fld := ⟨TAP_STRAP, 2, 4⟩
def TAP_STRAP_BOOT : Fld := ⟨TAP_STRAP, 6, 2⟩
def TAP_STRAP_TWADDR : Fld := ⟨TAP_STRAP, 8, 3⟩
def TAP_STRAP_ROLE : Fld := ⟨TAP_STRAP, 11, 1⟩
def TAP_RTC_SUB : Nat := 0x01008
def TAP_RTC_SUB_SUB : Fld := ⟨TAP_RTC_SUB, 0, 15⟩
def TAP_RTC_SEC_LO : Nat := 0x0100C
def TAP_RTC_SEC_LO_SEC : Fld := ⟨TAP_RTC_SEC_LO, 0, 32⟩
def TAP_RTC_SEC_HI : Nat := 0x01010
def TAP_RTC_SEC_HI_SEC : Fld := ⟨TAP_RTC_SEC_HI, 0, 16⟩
def TAP_ALARM_SEC : Nat := 0x01014
def TAP_ALARM_SEC_SEC : Fld := ⟨TAP_ALARM_SEC, 0, 32⟩
def TAP_ALARM_SUB : Nat := 0x01018
def TAP_ALARM_SUB_SUB : Fld := ⟨TAP_ALARM_SUB, 0, 15⟩
def TAP_WAKE_CFG (n : Nat) : Nat := 0x01020 + 0x4 * n
def TAP_WAKE_CFG_EN (n : Nat) : Fld := ⟨(TAP_WAKE_CFG n), 0, 1⟩
def TAP_WAKE_CFG_POL (n : Nat) : Fld := ⟨(TAP_WAKE_CFG n), 1, 1⟩
def TAP_WAKE_CFG_MODE (n : Nat) : Fld := ⟨(TAP_WAKE_CFG n), 2, 1⟩
def TAP_WAKE_CFG_DEBOUNCE (n : Nat) : Fld := ⟨(TAP_WAKE_CFG n), 8, 8⟩
def TAP_VBAT_CMP : Nat := 0x01040
def TAP_VBAT_CMP_LO_CODE : Fld := ⟨TAP_VBAT_CMP, 0, 6⟩
def TAP_VBAT_CMP_HI_CODE : Fld := ⟨TAP_VBAT_CMP, 8, 6⟩
def TAP_WAKE_EN : Nat := 0x01044
def TAP_WAKE_EN_SRC : Fld := ⟨TAP_WAKE_EN, 0, 11⟩
def TAP_WAKE_EN_VIO_RET : Fld := ⟨TAP_WAKE_EN, 11, 1⟩
def TAP_WAKE_REASON : Nat := 0x01048
def TAP_WAKE_REASON_SRC : Fld := ⟨TAP_WAKE_REASON, 0, 12⟩
def TAP_WAKE_FIRST : Nat := 0x0104C
def TAP_WAKE_FIRST_SRC : Fld := ⟨TAP_WAKE_FIRST, 0, 4⟩
def TAP_WAKE_ROUTE : Nat := 0x01050
def TAP_WAKE_ROUTE_ROUTE : Fld := ⟨TAP_WAKE_ROUTE, 0, 19⟩
def TAP_STBY : Nat := 0x01054
def TAP_STBY_GO : Fld := ⟨TAP_STBY, 0, 1⟩
def TAP_STBY_REFUSED : Fld := ⟨TAP_STBY, 1, 1⟩
def TAP_STBY_ABORTED : Fld := ⟨TAP_STBY, 2, 1⟩
def TAP_RRAM_IDX : Nat := 0x01060
def TAP_RRAM_IDX_IDX : Fld := ⟨TAP_RRAM_IDX, 0, 12⟩
def TAP_RRAM_DATA : Nat := 0x01064
def TAP_RRAM_DATA_DATA : Fld := ⟨TAP_RRAM_DATA, 0, 32⟩
def TAP_RRAM_ECC : Nat := 0x01068
def TAP_RRAM_ECC_INJ : Fld := ⟨TAP_RRAM_ECC, 0, 2⟩
def TAP_RRAM_ECC_CE_CNT : Fld := ⟨TAP_RRAM_ECC, 8, 8⟩
def TAP_RRAM_ECC_UE_IDX : Fld := ⟨TAP_RRAM_ECC, 16, 12⟩
def TAP_FAULT_STATUS : Nat := 0x01070
def TAP_FAULT_STATUS_XTAL_FAIL : Fld := ⟨TAP_FAULT_STATUS, 0, 1⟩
def TAP_FAULT_STATUS_OSC_FAIL : Fld := ⟨TAP_FAULT_STATUS, 1, 1⟩
def TAP_FAULT_STATUS_PLL_FAIL : Fld := ⟨TAP_FAULT_STATUS, 2, 1⟩
def TAP_FAULT_STATUS_RRAM_CE : Fld := ⟨TAP_FAULT_STATUS, 3, 1⟩
def TAP_FAULT_STATUS_RRAM_UE : Fld := ⟨TAP_FAULT_STATUS, 4, 1⟩
def TAP_FAULT_STATUS_NOBUD : Fld := ⟨TAP_FAULT_STATUS, 5, 1⟩
def TAP_FAULT_STATUS_VIO_LOSS : Fld := ⟨TAP_FAULT_STATUS, 6, 1⟩
def TAP_FAULT_EN : Nat := 0x01074
def TAP_FAULT_EN_EN : Fld := ⟨TAP_FAULT_EN, 0, 7⟩
def TAP_FAULT_ROUTE : Nat := 0x01078
def TAP_FAULT_ROUTE_ROUTE : Fld := ⟨TAP_FAULT_ROUTE, 0, 19⟩
def WDT_CTL : Nat := 0x01100
def WDT_CTL_EN : Fld := ⟨WDT_CTL, 0, 1⟩
def WDT_CTL_HOLD : Fld := ⟨WDT_CTL, 1, 1⟩
def WDT_CTL_LOCK : Fld := ⟨WDT_CTL, 2, 1⟩
def WDT_CTL_WIN : Fld := ⟨WDT_CTL, 4, 3⟩
def WDT_CTL_PULSE : Fld := ⟨WDT_CTL, 8, 8⟩
def WDT_PERIOD : Nat := 0x01104
def WDT_PERIOD_PERIOD : Fld := ⟨WDT_PERIOD, 0, 16⟩
def WDT_KEY : Nat := 0x01108
def WDT_KEY_KEY : Fld := ⟨WDT_KEY, 0, 32⟩
def WDT_STATUS : Nat := 0x0110C
def WDT_STATUS_COUNT : Fld := ⟨WDT_STATUS, 0, 16⟩
def WDT_STATUS_OPEN : Fld := ⟨WDT_STATUS, 16, 1⟩
def WDT_STATUS_ARMED : Fld := ⟨WDT_STATUS, 17, 1⟩
def WDT_STATUS_TRIP : Fld := ⟨WDT_STATUS, 18, 1⟩
def WDT_BAD : Nat := 0x01110
def WDT_BAD_COUNT : Fld := ⟨WDT_BAD, 0, 16⟩
def WDT_BAD_CLR : Fld := ⟨WDT_BAD, 31, 1⟩
def WDT_EXP : Nat := 0x01114
def WDT_EXP_COUNT : Fld := ⟨WDT_EXP, 0, 16⟩
def WDT_EXP_LAST_WAS_WDT : Fld := ⟨WDT_EXP, 16, 1⟩
def WDT_FAULT_STATUS : Nat := 0x01120
def WDT_FAULT_STATUS_EXPIRED : Fld := ⟨WDT_FAULT_STATUS, 0, 1⟩
def WDT_FAULT_STATUS_BAD_KEY : Fld := ⟨WDT_FAULT_STATUS, 1, 1⟩
def WDT_FAULT_EN : Nat := 0x01124
def WDT_FAULT_EN_EN : Fld := ⟨WDT_FAULT_EN, 0, 2⟩
def WDT_FAULT_ROUTE : Nat := 0x01128
def WDT_FAULT_ROUTE_ROUTE : Fld := ⟨WDT_FAULT_ROUTE, 0, 19⟩
def PDC_REQ : Nat := 0x02000
def PDC_REQ_REQ : Fld := ⟨PDC_REQ, 1, 15⟩
def PDC_GRANT : Nat := 0x02004
def PDC_GRANT_GRANT_2_0 : Fld := ⟨PDC_GRANT, 0, 3⟩
def PDC_GRANT_GRANT_15_3 : Fld := ⟨PDC_GRANT, 3, 13⟩
def PDC_PLL : Nat := 0x02008
def PDC_PLL_LOCK : Fld := ⟨PDC_PLL, 0, 3⟩
def PDC_PLL_KEEP : Fld := ⟨PDC_PLL, 8, 3⟩
def PDC_BUD_TMO : Nat := 0x0200C
def PDC_BUD_TMO_TMO : Fld := ⟨PDC_BUD_TMO, 0, 10⟩
def PDC_DOM (n : Nat) : Nat := 0x2040 + 4 * n
def PDC_DOM_STATE (n : Nat) : Fld := ⟨(PDC_DOM n), 0, 3⟩
def PDC_DOM_ERR (n : Nat) : Fld := ⟨(PDC_DOM n), 4, 2⟩
def ADM (u : Nat) : Nat := 0x03000 + 0x8 * u
def ADM_ADMIN (u : Nat) : Fld := ⟨(ADM u), 0, 1⟩
def ADM_EPOCH (u : Nat) : Fld := ⟨(ADM u), 16, 16⟩
def OPS (u : Nat) : Nat := 0x03004 + 0x8 * u
def OPS_OPER (u : Nat) : Fld := ⟨(OPS u), 0, 1⟩
def OPS_ADOPTED (u : Nat) : Fld := ⟨(OPS u), 1, 1⟩
def OPS_FENCED (u : Nat) : Fld := ⟨(OPS u), 2, 1⟩
def OPS_F_ADMIN (u : Nat) : Fld := ⟨(OPS u), 3, 1⟩
def OPS_F_OPER (u : Nat) : Fld := ⟨(OPS u), 4, 1⟩
def OPS_F_KIND (u : Nat) : Fld := ⟨(OPS u), 5, 1⟩
def OPS_F_EPOCH (u : Nat) : Fld := ⟨(OPS u), 16, 16⟩
def LOOP_CTL (x : Nat) : Nat := 0x10000 + 0x2000 * x
def LOOP_CTL_EN (x : Nat) : Fld := ⟨(LOOP_CTL x), 0, 1⟩
def LOOP_CTL_HARDOFF (x : Nat) : Fld := ⟨(LOOP_CTL x), 1, 1⟩
def LOOP_STATUS (x : Nat) : Nat := 0x10004 + 0x2000 * x
def LOOP_STATUS_STATE (x : Nat) : Fld := ⟨(LOOP_STATUS x), 0, 3⟩
def LOOP_STATUS_CFG_ERR (x : Nat) : Fld := ⟨(LOOP_STATUS x), 8, 1⟩
def LOOP_STATUS_PRUNE_CANCEL (x : Nat) : Fld := ⟨(LOOP_STATUS x), 9, 1⟩
def LOOP_STATUS_HINT_DN (x : Nat) : Fld := ⟨(LOOP_STATUS x), 10, 1⟩
def LOOP_STATUS_VCLAMP (x : Nat) : Fld := ⟨(LOOP_STATUS x), 11, 1⟩
def LOOP_STATUS_CMD_LOST (x : Nat) : Fld := ⟨(LOOP_STATUS x), 12, 1⟩
def LOOP_STATUS_DE_ON (x : Nat) : Fld := ⟨(LOOP_STATUS x), 13, 1⟩
def LOOP_STATUS_AUTO (x : Nat) : Fld := ⟨(LOOP_STATUS x), 14, 1⟩
def LOOP_PERIOD (x : Nat) : Nat := 0x10008 + 0x2000 * x
def LOOP_PERIOD_PERIOD (x : Nat) : Fld := ⟨(LOOP_PERIOD x), 0, 13⟩
def LOOP_TIMING (x : Nat) : Nat := 0x1000C + 0x2000 * x
def LOOP_TIMING_MODE (x : Nat) : Fld := ⟨(LOOP_TIMING x), 0, 1⟩
def LOOP_TIMING_SPHASE (x : Nat) : Fld := ⟨(LOOP_TIMING x), 16, 13⟩
def LOOP_VSET (x : Nat) : Nat := 0x10010 + 0x2000 * x
def LOOP_VSET_VSET (x : Nat) : Fld := ⟨(LOOP_VSET x), 0, 16⟩
def LOOP_VLIM (x : Nat) : Nat := 0x10014 + 0x2000 * x
def LOOP_VLIM_VMIN (x : Nat) : Fld := ⟨(LOOP_VLIM x), 0, 16⟩
def LOOP_VLIM_VMAX (x : Nat) : Fld := ⟨(LOOP_VLIM x), 16, 16⟩
def LOOP_SS (x : Nat) : Nat := 0x10018 + 0x2000 * x
def LOOP_SS_RATE (x : Nat) : Fld := ⟨(LOOP_SS x), 0, 16⟩
def LOOP_SS_TMO (x : Nat) : Fld := ⟨(LOOP_SS x), 16, 16⟩
def LOOP_SENSE (x : Nat) : Nat := 0x1001C + 0x2000 * x
def LOOP_SENSE_GAIN (x : Nat) : Fld := ⟨(LOOP_SENSE x), 0, 16⟩
def LOOP_SENSE_OFFS (x : Nat) : Fld := ⟨(LOOP_SENSE x), 16, 12⟩
def LOOP_LAW (x : Nat) : Nat := 0x10020 + 0x2000 * x
def LOOP_LAW_ERR_SHIFT (x : Nat) : Fld := ⟨(LOOP_LAW x), 0, 4⟩
def LOOP_LAW_INTERP (x : Nat) : Fld := ⟨(LOOP_LAW x), 4, 1⟩
def LOOP_LAW_OSHIFT (x : Nat) : Fld := ⟨(LOOP_LAW x), 5, 4⟩
def LOOP_LAW_KI_SHIFT (x : Nat) : Fld := ⟨(LOOP_LAW x), 9, 4⟩
def LOOP_LAW_BANK (x : Nat) : Fld := ⟨(LOOP_LAW x), 16, 1⟩
def LOOP_KI (x : Nat) : Nat := 0x10024 + 0x2000 * x
def LOOP_KI_K (x : Nat) : Fld := ⟨(LOOP_KI x), 0, 16⟩
def LOOP_KD (x : Nat) : Nat := 0x10028 + 0x2000 * x
def LOOP_KD_K (x : Nat) : Fld := ⟨(LOOP_KD x), 0, 16⟩
def LOOP_FF (x : Nat) : Nat := 0x1002C + 0x2000 * x
def LOOP_FF_FF (x : Nat) : Fld := ⟨(LOOP_FF x), 0, 16⟩
def LOOP_IMAX (x : Nat) : Nat := 0x10030 + 0x2000 * x
def LOOP_IMAX_IMAX (x : Nat) : Fld := ⟨(LOOP_IMAX x), 0, 24⟩
def LOOP_DLIM (x : Nat) : Nat := 0x10034 + 0x2000 * x
def LOOP_DLIM_DMIN (x : Nat) : Fld := ⟨(LOOP_DLIM x), 0, 16⟩
def LOOP_DLIM_DMAX (x : Nat) : Fld := ⟨(LOOP_DLIM x), 16, 16⟩
def LOOP_DE (x : Nat) : Nat := 0x10038 + 0x2000 * x
def LOOP_DE_ENTER (x : Nat) : Fld := ⟨(LOOP_DE x), 0, 16⟩
def LOOP_DE_EXIT (x : Nat) : Fld := ⟨(LOOP_DE x), 16, 16⟩
def LOOP_BAL (x : Nat) : Nat := 0x1003C + 0x2000 * x
def LOOP_BAL_MODE (x : Nat) : Fld := ⟨(LOOP_BAL x), 0, 1⟩
def LOOP_BAL_GAIN (x : Nat) : Fld := ⟨(LOOP_BAL x), 8, 8⟩
def LOOP_BAL_MAX (x : Nat) : Fld := ⟨(LOOP_BAL x), 16, 16⟩
def LOOP_PHCMD (x : Nat) : Nat := 0x10040 + 0x2000 * x
def LOOP_PHCMD_MASK (x : Nat) : Fld := ⟨(LOOP_PHCMD x), 0, 16⟩
def LOOP_PHCMD_OP (x : Nat) : Fld := ⟨(LOOP_PHCMD x), 16, 2⟩
def LOOP_PHCMD_PRUNE_TMO (x : Nat) : Fld := ⟨(LOOP_PHCMD x), 24, 8⟩
def LOOP_PG (x : Nat) : Nat := 0x10044 + 0x2000 * x
def LOOP_PG_WIN (x : Nat) : Fld := ⟨(LOOP_PG x), 0, 16⟩
def LOOP_PG_DLY (x : Nat) : Fld := ⟨(LOOP_PG x), 16, 8⟩
def LOOP_PROT (x : Nat) : Nat := 0x10048 + 0x2000 * x
def LOOP_PROT_OV (x : Nat) : Fld := ⟨(LOOP_PROT x), 0, 16⟩
def LOOP_PROT_UV (x : Nat) : Fld := ⟨(LOOP_PROT x), 16, 16⟩
def LOOP_TLM_CTL (x : Nat) : Nat := 0x1004C + 0x2000 * x
def LOOP_TLM_CTL_MODE (x : Nat) : Fld := ⟨(LOOP_TLM_CTL x), 0, 1⟩
def LOOP_TLM_CTL_K (x : Nat) : Fld := ⟨(LOOP_TLM_CTL x), 1, 4⟩
def LOOP_TLM_CTL_TSRC (x : Nat) : Fld := ⟨(LOOP_TLM_CTL x), 8, 4⟩
def LOOP_TLM_CTL_PEAK_CLR (x : Nat) : Fld := ⟨(LOOP_TLM_CTL x), 16, 1⟩
def LOOP_A_WAKE : Nat := 0x10050
def LOOP_A_WAKE_PHASES : Fld := ⟨LOOP_A_WAKE, 0, 4⟩
def LOOP_A_WAKE_BOOST : Fld := ⟨LOOP_A_WAKE, 8, 8⟩
def LOOP_A_WAKE_SETTLE : Fld := ⟨LOOP_A_WAKE, 16, 8⟩
def LOOP_A_WAKE_HOLD : Fld := ⟨LOOP_A_WAKE, 24, 8⟩
def LOOP_A_HINT : Nat := 0x10054
def LOOP_A_HINT_PHASES : Fld := ⟨LOOP_A_HINT, 0, 4⟩
def LOOP_VSLEW (x : Nat) : Nat := 0x10058 + 0x2000 * x
def LOOP_VSLEW_VSLEW (x : Nat) : Fld := ⟨(LOOP_VSLEW x), 0, 32⟩
def LOOP_EVT_ROUTE (x : Nat) : Nat := 0x1005C + 0x2000 * x
def LOOP_EVT_ROUTE_ROUTE (x : Nat) : Fld := ⟨(LOOP_EVT_ROUTE x), 0, 19⟩
def LOOP_FAULT_STATUS (x : Nat) : Nat := 0x10060 + 0x2000 * x
def LOOP_FAULT_STATUS_OV (x : Nat) : Fld := ⟨(LOOP_FAULT_STATUS x), 0, 1⟩
def LOOP_FAULT_STATUS_SS_FAIL (x : Nat) : Fld := ⟨(LOOP_FAULT_STATUS x), 1, 1⟩
def LOOP_FAULT_STATUS_UV (x : Nat) : Fld := ⟨(LOOP_FAULT_STATUS x), 2, 1⟩
def LOOP_FAULT_EN (x : Nat) : Nat := 0x10064 + 0x2000 * x
def LOOP_FAULT_EN_EN (x : Nat) : Fld := ⟨(LOOP_FAULT_EN x), 0, 3⟩
def LOOP_FAULT_ROUTE (x : Nat) : Nat := 0x10068 + 0x2000 * x
def LOOP_FAULT_ROUTE_ROUTE (x : Nat) : Fld := ⟨(LOOP_FAULT_ROUTE x), 0, 19⟩
def LOOP_DLIM_T (x : Nat) : Nat := 0x10070 + 0x2000 * x
def LOOP_DLIM_T_TON_MIN (x : Nat) : Fld := ⟨(LOOP_DLIM_T x), 0, 8⟩
def LOOP_DLIM_T_TOFF_MIN (x : Nat) : Fld := ⟨(LOOP_DLIM_T x), 8, 8⟩
def LOOP_DE_CNT (x : Nat) : Nat := 0x10074 + 0x2000 * x
def LOOP_DE_CNT_CNT (x : Nat) : Fld := ⟨(LOOP_DE_CNT x), 0, 8⟩
def LOOP_PROT_I (x : Nat) : Nat := 0x10078 + 0x2000 * x
def LOOP_PROT_I_IPK (x : Nat) : Fld := ⟨(LOOP_PROT_I x), 0, 16⟩
def LOOP_TLM_SEQ (x : Nat) : Nat := 0x10080 + 0x2000 * x
def LOOP_TLM_SEQ_SEQ (x : Nat) : Fld := ⟨(LOOP_TLM_SEQ x), 0, 32⟩
def LOOP_TLM_V (x : Nat) : Nat := 0x10084 + 0x2000 * x
def LOOP_TLM_V_V (x : Nat) : Fld := ⟨(LOOP_TLM_V x), 0, 16⟩
def LOOP_TLM_I (x : Nat) : Nat := 0x10088 + 0x2000 * x
def LOOP_TLM_I_I (x : Nat) : Fld := ⟨(LOOP_TLM_I x), 0, 16⟩
def LOOP_TLM_P (x : Nat) : Nat := 0x1008C + 0x2000 * x
def LOOP_TLM_P_P (x : Nat) : Fld := ⟨(LOOP_TLM_P x), 0, 32⟩
def LOOP_TLM_T (x : Nat) : Nat := 0x10090 + 0x2000 * x
def LOOP_TLM_T_T (x : Nat) : Fld := ⟨(LOOP_TLM_T x), 0, 16⟩
def LOOP_PEAK_V (x : Nat) : Nat := 0x10094 + 0x2000 * x
def LOOP_PEAK_V_V (x : Nat) : Fld := ⟨(LOOP_PEAK_V x), 0, 16⟩
def LOOP_PEAK_I (x : Nat) : Nat := 0x10098 + 0x2000 * x
def LOOP_PEAK_I_I (x : Nat) : Fld := ⟨(LOOP_PEAK_I x), 0, 16⟩
def LOOP_PEAK_T (x : Nat) : Nat := 0x1009C + 0x2000 * x
def LOOP_PEAK_T_T (x : Nat) : Fld := ⟨(LOOP_PEAK_T x), 0, 16⟩
def LOOP_KP (x b i : Nat) : Nat := 0x10400 + 0x2000 * x + 0x100 * b + 0x4 * i
def LOOP_KP_T (x b i : Nat) : Fld := ⟨(LOOP_KP x b i), 0, 16⟩
def PH_CFG (n : Nat) : Nat := 0x11000 + 0x20 * n
def PH_CFG_LOOP (n : Nat) : Fld := ⟨(PH_CFG n), 0, 2⟩
def PH_CFG_ASSIGN (n : Nat) : Fld := ⟨(PH_CFG n), 2, 1⟩
def PH_CFG_DE_EN (n : Nat) : Fld := ⟨(PH_CFG n), 3, 1⟩
def PH_CFG_ZSRC (n : Nat) : Fld := ⟨(PH_CFG n), 4, 1⟩
def PH_STATE (n : Nat) : Nat := 0x11004 + 0x20 * n
def PH_STATE_STATE (n : Nat) : Fld := ⟨(PH_STATE n), 0, 3⟩
def PH_STATE_CFG_ERR (n : Nat) : Fld := ⟨(PH_STATE n), 8, 1⟩
def PH_STATE_OC_CNT (n : Nat) : Fld := ⟨(PH_STATE n), 16, 8⟩
def PH_CUR (n : Nat) : Nat := 0x11008 + 0x20 * n
def PH_CUR_I (n : Nat) : Fld := ⟨(PH_CUR n), 0, 16⟩
def PH_TRIM (n : Nat) : Nat := 0x1100C + 0x20 * n
def PH_TRIM_TRIM (n : Nat) : Fld := ⟨(PH_TRIM n), 0, 16⟩
def CNV_PAIR (p : Nat) : Nat := 0x18010 + 0x4 * p
def CNV_PAIR_ILV (p : Nat) : Fld := ⟨(CNV_PAIR p), 0, 1⟩
def CNV_PAIR_GTRIM (p : Nat) : Fld := ⟨(CNV_PAIR p), 4, 12⟩
def CNV_PAIR_OTRIM (p : Nat) : Fld := ⟨(CNV_PAIR p), 16, 8⟩
def CNV_PAIR_SKEW (p : Nat) : Fld := ⟨(CNV_PAIR p), 24, 8⟩
def CNV_CS_CAL (n : Nat) : Nat := 0x18040 + 0x4 * n
def CNV_CS_CAL_OFFS (n : Nat) : Fld := ⟨(CNV_CS_CAL n), 0, 12⟩
def CNV_CS_CAL_GAIN (n : Nat) : Fld := ⟨(CNV_CS_CAL n), 16, 16⟩
def CNV_SLOT (n s : Nat) : Nat := 0x18100 + 0x10 * n + 0x4 * s
def CNV_SLOT_EN (n s : Nat) : Fld := ⟨(CNV_SLOT n s), 0, 1⟩
def CNV_SLOT_SRC (n s : Nat) : Fld := ⟨(CNV_SLOT n s), 1, 3⟩
def CNV_SLOT_TRIG (n s : Nat) : Fld := ⟨(CNV_SLOT n s), 4, 1⟩
def CNV_SLOT_LOOP (n s : Nat) : Fld := ⟨(CNV_SLOT n s), 5, 2⟩
def CNV_SLOT_ENG (n s : Nat) : Fld := ⟨(CNV_SLOT n s), 8, 1⟩
def CNV_SLOT_RMEM (n s : Nat) : Fld := ⟨(CNV_SLOT n s), 9, 1⟩
def CNV_SLOT_OFFS (n s : Nat) : Fld := ⟨(CNV_SLOT n s), 16, 13⟩
def CNV_STAT (n : Nat) : Nat := 0x18200 + 0x4 * n
def CNV_STAT_CFG_ERR (n : Nat) : Fld := ⟨(CNV_STAT n), 0, 1⟩
def CNV_STAT_ABORT (n : Nat) : Fld := ⟨(CNV_STAT n), 8, 8⟩
def CNV_STAT_SLIP_CNT (n : Nat) : Fld := ⟨(CNV_STAT n), 16, 8⟩
def CNV_P_LIST (m s : Nat) : Nat := 0x18300 + 0x20 * m + 0x4 * s
def CNV_P_LIST_EN (m s : Nat) : Fld := ⟨(CNV_P_LIST m s), 0, 1⟩
def CNV_P_LIST_CHAN (m s : Nat) : Fld := ⟨(CNV_P_LIST m s), 1, 5⟩
def CNV_P_LIST_OSR (m s : Nat) : Fld := ⟨(CNV_P_LIST m s), 8, 3⟩
def CNV_P_LIST_RMEM (m s : Nat) : Fld := ⟨(CNV_P_LIST m s), 12, 1⟩
def CNV_P_CTL : Nat := 0x18340
def CNV_P_CTL_EN_0 : Fld := ⟨CNV_P_CTL, 0, 1⟩
def CNV_P_CTL_EN_1 : Fld := ⟨CNV_P_CTL, 1, 1⟩
def CNV_P_CTL_SYNC : Fld := ⟨CNV_P_CTL, 2, 1⟩
def CNV_P_CTL_OVERRUN : Fld := ⟨CNV_P_CTL, 3, 1⟩
def CNV_P_CTL_PERIOD : Fld := ⟨CNV_P_CTL, 16, 16⟩
def CNV_P_SEQ : Nat := 0x18380
def CNV_P_SEQ_SEQ : Fld := ⟨CNV_P_SEQ, 0, 32⟩
def CNV_P_RES (m s : Nat) : Nat := 0x183C0 + 0x20 * m + 0x4 * s
def CNV_P_RES_CODE (m s : Nat) : Fld := ⟨(CNV_P_RES m s), 0, 16⟩
def CNV_P_RES_OVR (m s : Nat) : Fld := ⟨(CNV_P_RES m s), 16, 1⟩
def CNV_P_RES_OVR_NEG (m s : Nat) : Fld := ⟨(CNV_P_RES m s), 17, 1⟩
def CNV_P_RES_CHAN (m s : Nat) : Fld := ⟨(CNV_P_RES m s), 18, 5⟩
def CNV_P_RES_ILV (m s : Nat) : Fld := ⟨(CNV_P_RES m s), 23, 1⟩
def CNV_P_RES_SEQ (m s : Nat) : Fld := ⟨(CNV_P_RES m s), 24, 8⟩
def CNV_TEMP (k : Nat) : Nat := 0x18400 + 0x4 * k
def CNV_TEMP_TEMP (k : Nat) : Fld := ⟨(CNV_TEMP k), 0, 16⟩
def CNV_TEMP_AGE (k : Nat) : Fld := ⟨(CNV_TEMP k), 16, 16⟩
def CNV_XTEMP (k : Nat) : Nat := 0x18410 + 0x4 * k
def CNV_XTEMP_TEMP (k : Nat) : Fld := ⟨(CNV_XTEMP k), 0, 16⟩
def CNV_CMP_CFG (c : Nat) : Nat := 0x18500 + 0x8 * c
def CNV_CMP_CFG_EN (c : Nat) : Fld := ⟨(CNV_CMP_CFG c), 0, 1⟩
def CNV_CMP_CFG_SRC (c : Nat) : Fld := ⟨(CNV_CMP_CFG c), 1, 5⟩
def CNV_CMP_CFG_CHAN (c : Nat) : Fld := ⟨(CNV_CMP_CFG c), 8, 5⟩
def CNV_CMP_CFG_CNT (c : Nat) : Fld := ⟨(CNV_CMP_CFG c), 16, 8⟩
def CNV_CMP_THR (c : Nat) : Nat := 0x18504 + 0x8 * c
def CNV_CMP_THR_LO (c : Nat) : Fld := ⟨(CNV_CMP_THR c), 0, 16⟩
def CNV_CMP_THR_HI (c : Nat) : Fld := ⟨(CNV_CMP_THR c), 16, 16⟩
def CNV_CMP_HIT : Nat := 0x18600
def CNV_CMP_HIT_HIT : Fld := ⟨CNV_CMP_HIT, 0, 32⟩
def CNV_CMP_ROUTE : Nat := 0x18604
def CNV_CMP_ROUTE_ROUTE : Fld := ⟨CNV_CMP_ROUTE, 0, 19⟩
def CNV_CAP_CTL : Nat := 0x18610
def CNV_CAP_CTL_EN : Fld := ⟨CNV_CAP_CTL, 0, 1⟩
def CNV_CAP_CTL_WRAP : Fld := ⟨CNV_CAP_CTL, 1, 1⟩
def CNV_CAP_CTL_TARM : Fld := ⟨CNV_CAP_CTL, 2, 1⟩
def CNV_CAP_CTL_TCMP : Fld := ⟨CNV_CAP_CTL, 8, 5⟩
def CNV_CAP_CTL_POST : Fld := ⟨CNV_CAP_CTL, 16, 10⟩
def CNV_CAP_PTR : Nat := 0x18614
def CNV_CAP_PTR_PTR : Fld := ⟨CNV_CAP_PTR, 0, 10⟩
def CNV_CAP_PTR_FROZEN : Fld := ⟨CNV_CAP_PTR, 31, 1⟩
def CNV_FAULT_STATUS : Nat := 0x18620
def CNV_FAULT_STATUS_CAL_FAIL : Fld := ⟨CNV_FAULT_STATUS, 0, 1⟩
def CNV_FAULT_STATUS_REF_DRIFT : Fld := ⟨CNV_FAULT_STATUS, 1, 1⟩
def CNV_FAULT_STATUS_SLIP : Fld := ⟨CNV_FAULT_STATUS, 2, 1⟩
def CNV_FAULT_EN : Nat := 0x18624
def CNV_FAULT_EN_EN : Fld := ⟨CNV_FAULT_EN, 0, 3⟩
def CNV_FAULT_ROUTE : Nat := 0x18628
def CNV_FAULT_ROUTE_ROUTE : Fld := ⟨CNV_FAULT_ROUTE, 0, 19⟩
def CNV_RMEM (w : Nat) : Nat := 0x19000 + 0x4 * w
def CNV_RMEM_WORD (w : Nat) : Fld := ⟨(CNV_RMEM w), 0, 32⟩
def FAN_CFG (n : Nat) : Nat := 0x1A000 + 0x20 * n
def FAN_CFG_EN (n : Nat) : Fld := ⟨(FAN_CFG n), 0, 1⟩
def FAN_CFG_POL (n : Nat) : Fld := ⟨(FAN_CFG n), 1, 1⟩
def FAN_CFG_OD (n : Nat) : Fld := ⟨(FAN_CFG n), 2, 1⟩
def FAN_CFG_PPR (n : Nat) : Fld := ⟨(FAN_CFG n), 4, 2⟩
def FAN_DUTY (n : Nat) : Nat := 0x1A004 + 0x20 * n
def FAN_DUTY_DUTY (n : Nat) : Fld := ⟨(FAN_DUTY n), 0, 10⟩
def FAN_TARGET (n : Nat) : Nat := 0x1A008 + 0x20 * n
def FAN_TARGET_TARGET (n : Nat) : Fld := ⟨(FAN_TARGET n), 0, 16⟩
def FAN_TACH (n : Nat) : Nat := 0x1A00C + 0x20 * n
def FAN_TACH_PERIOD (n : Nat) : Fld := ⟨(FAN_TACH n), 0, 20⟩
def FAN_TACH_STALL (n : Nat) : Fld := ⟨(FAN_TACH n), 31, 1⟩
def FAN_RPM (n : Nat) : Nat := 0x1A010 + 0x20 * n
def FAN_RPM_RPM (n : Nat) : Fld := ⟨(FAN_RPM n), 0, 16⟩
def FAN_OUT (n : Nat) : Nat := 0x1A014 + 0x20 * n
def FAN_OUT_DUTY (n : Nat) : Fld := ⟨(FAN_OUT n), 0, 10⟩
def FAN_OUT_FORCED (n : Nat) : Fld := ⟨(FAN_OUT n), 31, 1⟩
def FAN_MON_CFG (j : Nat) : Nat := 0x1A100 + 0x10 * j
def FAN_MON_CFG_EN (j : Nat) : Fld := ⟨(FAN_MON_CFG j), 0, 1⟩
def FAN_MON_CFG_SRC (j : Nat) : Fld := ⟨(FAN_MON_CFG j), 1, 4⟩
def FAN_MON_CFG_STALE (j : Nat) : Fld := ⟨(FAN_MON_CFG j), 16, 16⟩
def FAN_MON_THR (j : Nat) : Nat := 0x1A104 + 0x10 * j
def FAN_MON_THR_LO (j : Nat) : Fld := ⟨(FAN_MON_THR j), 0, 16⟩
def FAN_MON_THR_HI (j : Nat) : Fld := ⟨(FAN_MON_THR j), 16, 16⟩
def FAN_MON_STAT (j : Nat) : Nat := 0x1A108 + 0x10 * j
def FAN_MON_STAT_KIND (j : Nat) : Fld := ⟨(FAN_MON_STAT j), 0, 2⟩
def FAN_MON_STAT_VALUE (j : Nat) : Fld := ⟨(FAN_MON_STAT j), 16, 16⟩
def FAN_CTL : Nat := 0x1A180
def FAN_CTL_KEEP : Fld := ⟨FAN_CTL, 0, 16⟩
def FAN_SHDN : Nat := 0x1A184
def FAN_SHDN_TRIP_TS : Fld := ⟨FAN_SHDN, 0, 1⟩
def FAN_SHDN_TRIP_X : Fld := ⟨FAN_SHDN, 1, 1⟩
def FAN_SHDN_ASSERTED : Fld := ⟨FAN_SHDN, 2, 1⟩
def FAN_SHDN_TSHD : Fld := ⟨FAN_SHDN, 4, 2⟩
def FAN_SHDN_LAT : Fld := ⟨FAN_SHDN, 8, 1⟩
def FAN_FAULT_STATUS : Nat := 0x1A190
def FAN_FAULT_STATUS_MON : Fld := ⟨FAN_FAULT_STATUS, 0, 4⟩
def FAN_FAULT_STATUS_KEEP : Fld := ⟨FAN_FAULT_STATUS, 4, 1⟩
def FAN_FAULT_STATUS_STALL : Fld := ⟨FAN_FAULT_STATUS, 8, 4⟩
def FAN_FAULT_STATUS_SHDN : Fld := ⟨FAN_FAULT_STATUS, 12, 1⟩
def FAN_FAULT_EN : Nat := 0x1A194
def FAN_FAULT_EN_EN_4_0 : Fld := ⟨FAN_FAULT_EN, 0, 5⟩
def FAN_FAULT_EN_EN_12_8 : Fld := ⟨FAN_FAULT_EN, 8, 5⟩
def FAN_FAULT_ROUTE : Nat := 0x1A198
def FAN_FAULT_ROUTE_ROUTE : Fld := ⟨FAN_FAULT_ROUTE, 0, 19⟩
def BAT_CTL : Nat := 0x1B000
def BAT_CTL_EN : Fld := ⟨BAT_CTL, 0, 1⟩
def BAT_CTL_RESTORE : Fld := ⟨BAT_CTL, 1, 1⟩
def BAT_CTL_LEARN_W : Fld := ⟨BAT_CTL, 4, 4⟩
def BAT_STATUS : Nat := 0x1B004
def BAT_STATUS_PRESENT : Fld := ⟨BAT_STATUS, 0, 1⟩
def BAT_STATUS_PROVISIONAL : Fld := ⟨BAT_STATUS, 1, 1⟩
def BAT_STATUS_VALID : Fld := ⟨BAT_STATUS, 2, 1⟩
def BAT_STATUS_INSERTED : Fld := ⟨BAT_STATUS, 3, 1⟩
def BAT_STATUS_TRANGE : Fld := ⟨BAT_STATUS, 4, 1⟩
def BAT_STATUS_ABSENT : Fld := ⟨BAT_STATUS, 5, 1⟩
def BAT_STATUS_CFG_ERR : Fld := ⟨BAT_STATUS, 6, 1⟩
def BAT_STATUS_RESULT : Fld := ⟨BAT_STATUS, 8, 3⟩
def BAT_VGAIN : Nat := 0x1B008
def BAT_VGAIN_GAIN : Fld := ⟨BAT_VGAIN, 0, 32⟩
def BAT_IGAIN : Nat := 0x1B00C
def BAT_IGAIN_GAIN : Fld := ⟨BAT_IGAIN, 0, 32⟩
def BAT_IOFFS : Nat := 0x1B010
def BAT_IOFFS_OFFS : Fld := ⟨BAT_IOFFS, 0, 16⟩
def BAT_DESIGN : Nat := 0x1B014
def BAT_DESIGN_DESIGN : Fld := ⟨BAT_DESIGN, 0, 32⟩
def BAT_RINT : Nat := 0x1B018
def BAT_RINT_RINT : Fld := ⟨BAT_RINT, 0, 32⟩
def BAT_REST : Nat := 0x1B01C
def BAT_REST_REST_I : Fld := ⟨BAT_REST, 0, 16⟩
def BAT_REST_RELAX : Fld := ⟨BAT_REST, 16, 16⟩
def BAT_OCV (k : Nat) : Nat := 0x1B040 + 0x4 * k
def BAT_OCV_V (k : Nat) : Fld := ⟨(BAT_OCV k), 0, 16⟩
def BAT_TTAB (i : Nat) : Nat := 0x1B080 + 0x4 * i
def BAT_TTAB_CODE (i : Nat) : Fld := ⟨(BAT_TTAB i), 0, 16⟩
def BAT_TTAB_TEMP (i : Nat) : Fld := ⟨(BAT_TTAB i), 16, 16⟩
def BAT_SEQ : Nat := 0x1B100
def BAT_SEQ_SEQ : Fld := ⟨BAT_SEQ, 0, 32⟩
def BAT_SOC : Nat := 0x1B104
def BAT_SOC_SOC : Fld := ⟨BAT_SOC, 0, 14⟩
def BAT_SOC_SOH : Fld := ⟨BAT_SOC, 16, 14⟩
def BAT_SOC_PROV : Fld := ⟨BAT_SOC, 31, 1⟩
def BAT_RC : Nat := 0x1B108
def BAT_RC_VALUE : Fld := ⟨BAT_RC, 0, 31⟩
def BAT_RC_PROV : Fld := ⟨BAT_RC, 31, 1⟩
def BAT_FCC : Nat := 0x1B10C
def BAT_FCC_VALUE : Fld := ⟨BAT_FCC, 0, 31⟩
def BAT_FCC_PROV : Fld := ⟨BAT_FCC, 31, 1⟩
def BAT_TTE : Nat := 0x1B110
def BAT_TTE_TTE : Fld := ⟨BAT_TTE, 0, 16⟩
def BAT_TTE_PROV : Fld := ⟨BAT_TTE, 31, 1⟩
def BAT_MEAS : Nat := 0x1B114
def BAT_MEAS_VBAT : Fld := ⟨BAT_MEAS, 0, 16⟩
def BAT_MEAS_T : Fld := ⟨BAT_MEAS, 16, 16⟩
def BAT_I : Nat := 0x1B118
def BAT_I_I : Fld := ⟨BAT_I, 0, 32⟩
def BAT_LEARN : Nat := 0x1B120
def BAT_LEARN_CNT : Fld := ⟨BAT_LEARN, 0, 16⟩
def BAT_LEARN_DQ : Fld := ⟨BAT_LEARN, 16, 4⟩
def BAT_LEARN_OPEN : Fld := ⟨BAT_LEARN, 24, 1⟩
def BAT_LEARN_LEARNED : Fld := ⟨BAT_LEARN, 25, 1⟩
def BAT_SAVE (n : Nat) : Nat := 0x1B140 + 0x4 * n
def BAT_SAVE_WORD (n : Nat) : Fld := ⟨(BAT_SAVE n), 0, 32⟩
def BAT_RESTORE (n : Nat) : Nat := 0x1B160 + 0x4 * n
def BAT_RESTORE_WORD (n : Nat) : Fld := ⟨(BAT_RESTORE n), 0, 32⟩
def BAT_FAULT_STATUS : Nat := 0x1B180
def BAT_FAULT_STATUS_IOVR : Fld := ⟨BAT_FAULT_STATUS, 0, 1⟩
def BAT_FAULT_STATUS_STALE : Fld := ⟨BAT_FAULT_STATUS, 1, 1⟩
def BAT_FAULT_STATUS_RRAM_BAD : Fld := ⟨BAT_FAULT_STATUS, 2, 1⟩
def BAT_FAULT_EN : Nat := 0x1B184
def BAT_FAULT_EN_EN : Fld := ⟨BAT_FAULT_EN, 0, 3⟩
def BAT_FAULT_ROUTE : Nat := 0x1B188
def BAT_FAULT_ROUTE_ROUTE : Fld := ⟨BAT_FAULT_ROUTE, 0, 19⟩
def TW_CFG (n : Nat) : Nat := 0x1C000 + 0x400 * n
def TW_CFG_EN (n : Nat) : Fld := ⟨(TW_CFG n), 0, 1⟩
def TW_CFG_SPEED (n : Nat) : Fld := ⟨(TW_CFG n), 1, 2⟩
def TW_CFG_PEC_STD (n : Nat) : Fld := ⟨(TW_CFG n), 4, 1⟩
def TW_CFG_PEC_MFR (n : Nat) : Fld := ⟨(TW_CFG n), 5, 1⟩
def TW_CFG_ADDR (n : Nat) : Fld := ⟨(TW_CFG n), 8, 7⟩
def TW_STRETCH (n : Nat) : Nat := 0x1C004 + 0x400 * n
def TW_STRETCH_BYTE_MAX (n : Nat) : Fld := ⟨(TW_STRETCH n), 0, 4⟩
def TW_STRETCH_TOTAL_MAX (n : Nat) : Fld := ⟨(TW_STRETCH n), 8, 5⟩
def TW_MCMD (n : Nat) : Nat := 0x1C008 + 0x400 * n
def TW_MCMD_ADDR (n : Nat) : Fld := ⟨(TW_MCMD n), 0, 7⟩
def TW_MCMD_PROTO (n : Nat) : Fld := ⟨(TW_MCMD n), 8, 2⟩
def TW_MCMD_WLEN (n : Nat) : Fld := ⟨(TW_MCMD n), 10, 6⟩
def TW_MCMD_RLEN (n : Nat) : Fld := ⟨(TW_MCMD n), 16, 6⟩
def TW_MCMD_PEC (n : Nat) : Fld := ⟨(TW_MCMD n), 24, 1⟩
def TW_MCMD_GO (n : Nat) : Fld := ⟨(TW_MCMD n), 31, 1⟩
def TW_MSTAT (n : Nat) : Nat := 0x1C00C + 0x400 * n
def TW_MSTAT_BUSY (n : Nat) : Fld := ⟨(TW_MSTAT n), 0, 1⟩
def TW_MSTAT_DONE (n : Nat) : Fld := ⟨(TW_MSTAT n), 1, 1⟩
def TW_MSTAT_NACK (n : Nat) : Fld := ⟨(TW_MSTAT n), 2, 1⟩
def TW_MSTAT_ARB_LOST (n : Nat) : Fld := ⟨(TW_MSTAT n), 3, 1⟩
def TW_MSTAT_TIMEOUT (n : Nat) : Fld := ⟨(TW_MSTAT n), 4, 1⟩
def TW_MSTAT_STUCK (n : Nat) : Fld := ⟨(TW_MSTAT n), 5, 1⟩
def TW_MSTAT_PEC_ERR (n : Nat) : Fld := ⟨(TW_MSTAT n), 6, 1⟩
def TW_MSTAT_GO_LOST (n : Nat) : Fld := ⟨(TW_MSTAT n), 7, 1⟩
def TW_MSTAT_RCOUNT (n : Nat) : Fld := ⟨(TW_MSTAT n), 16, 6⟩
def TW_MCTL (n : Nat) : Nat := 0x1C010 + 0x400 * n
def TW_MCTL_RETRY (n : Nat) : Fld := ⟨(TW_MCTL n), 0, 4⟩
def TW_MROUTE (n : Nat) : Nat := 0x1C014 + 0x400 * n
def TW_MROUTE_ROUTE (n : Nat) : Fld := ⟨(TW_MROUTE n), 0, 19⟩
def TW_MDATA (n k : Nat) : Nat := 0x1C040 + 0x400 * n + 0x4 * k
def TW_MDATA_DATA (n k : Nat) : Fld := ⟨(TW_MDATA n k), 0, 32⟩
def TW_0_MBX_CMD : Nat := 0x1C100
def TW_0_MBX_CMD_CODE : Fld := ⟨TW_0_MBX_CMD, 0, 8⟩
def TW_0_MBX_CMD_PAGE : Fld := ⟨TW_0_MBX_CMD, 8, 2⟩
def TW_0_MBX_CMD_LEN : Fld := ⟨TW_0_MBX_CMD, 10, 6⟩
def TW_0_MBX_CMD_RD : Fld := ⟨TW_0_MBX_CMD, 16, 1⟩
def TW_0_MBX_CMD_ALL : Fld := ⟨TW_0_MBX_CMD, 17, 1⟩
def TW_0_MBX_CMD_VALID : Fld := ⟨TW_0_MBX_CMD, 31, 1⟩
def TW_0_MBX_RESP : Nat := 0x1C104
def TW_0_MBX_RESP_ACK : Fld := ⟨TW_0_MBX_RESP, 0, 1⟩
def TW_0_MBX_RESP_LEN : Fld := ⟨TW_0_MBX_RESP, 8, 6⟩
def TW_0_MBX_STAT : Nat := 0x1C108
def TW_0_MBX_STAT_LATE : Fld := ⟨TW_0_MBX_STAT, 0, 1⟩
def TW_0_MBX_STAT_TMO : Fld := ⟨TW_0_MBX_STAT, 1, 1⟩
def TW_0_MBX_ROUTE : Nat := 0x1C10C
def TW_0_MBX_ROUTE_ROUTE : Fld := ⟨TW_0_MBX_ROUTE, 0, 19⟩
def TW_0_MBX_DATA (k : Nat) : Nat := 0x1C140 + 0x4 * k
def TW_0_MBX_DATA_DATA (k : Nat) : Fld := ⟨(TW_0_MBX_DATA k), 0, 32⟩
def TW_0_AMASK : Nat := 0x1C180
def TW_0_AMASK_MASK : Fld := ⟨TW_0_AMASK, 0, 32⟩
def AVS_CFG (m : Nat) : Nat := 0x1C800 + 0x100 * m
def AVS_CFG_EN (m : Nat) : Fld := ⟨(AVS_CFG m), 0, 1⟩
def AVS_HOLD (m : Nat) : Nat := 0x1C804 + 0x100 * m
def AVS_HOLD_V (m : Nat) : Fld := ⟨(AVS_HOLD m), 0, 16⟩
def AVS_HOLD_VALID (m : Nat) : Fld := ⟨(AVS_HOLD m), 16, 1⟩
def AVS_STAT (m : Nat) : Nat := 0x1C808 + 0x100 * m
def AVS_STAT_CRC_CNT (m : Nat) : Fld := ⟨(AVS_STAT m), 0, 8⟩
def AVS_STAT_LAST_TYPE (m : Nat) : Fld := ⟨(AVS_STAT m), 16, 16⟩
def TW_FAULT_STATUS : Nat := 0x1CC00
def TW_FAULT_STATUS_STUCK_0 : Fld := ⟨TW_FAULT_STATUS, 0, 1⟩
def TW_FAULT_STATUS_STUCK_1 : Fld := ⟨TW_FAULT_STATUS, 1, 1⟩
def TW_FAULT_EN : Nat := 0x1CC04
def TW_FAULT_EN_EN : Fld := ⟨TW_FAULT_EN, 0, 2⟩
def TW_FAULT_ROUTE : Nat := 0x1CC08
def TW_FAULT_ROUTE_ROUTE : Fld := ⟨TW_FAULT_ROUTE, 0, 19⟩
def GOV_CTL (x : Nat) : Nat := 0x1E000 + 0x100 * x
def GOV_CTL_EN (x : Nat) : Fld := ⟨(GOV_CTL x), 0, 1⟩
def GOV_CTL_PRE_EN (x : Nat) : Fld := ⟨(GOV_CTL x), 1, 1⟩
def GOV_CTL_MAX_CLR (x : Nat) : Fld := ⟨(GOV_CTL x), 2, 1⟩
def GOV_EMAX (x : Nat) : Nat := 0x1E004 + 0x100 * x
def GOV_EMAX_EMAX (x : Nat) : Fld := ⟨(GOV_EMAX x), 0, 15⟩
def GOV_ITRIP (x : Nat) : Nat := 0x1E008 + 0x100 * x
def GOV_ITRIP_ITRIP (x : Nat) : Fld := ⟨(GOV_ITRIP x), 0, 16⟩
def GOV_WIN (x : Nat) : Nat := 0x1E00C + 0x100 * x
def GOV_WIN_CLOSE (x : Nat) : Fld := ⟨(GOV_WIN x), 0, 16⟩
def GOV_WIN_MAX (x : Nat) : Fld := ⟨(GOV_WIN x), 16, 16⟩
def GOV_PMAX (x : Nat) : Nat := 0x1E010 + 0x100 * x
def GOV_PMAX_PMAX (x : Nat) : Fld := ⟨(GOV_PMAX x), 0, 15⟩
def GOV_PMAX_ILIM (x : Nat) : Fld := ⟨(GOV_PMAX x), 16, 16⟩
def GOV_CDECL (x : Nat) : Nat := 0x1E014 + 0x100 * x
def GOV_CDECL_CDECL (x : Nat) : Fld := ⟨(GOV_CDECL x), 0, 32⟩
def GOV_STATUS (x : Nat) : Nat := 0x1E018 + 0x100 * x
def GOV_STATUS_OPEN (x : Nat) : Fld := ⟨(GOV_STATUS x), 0, 1⟩
def GOV_STATUS_CAUSE (x : Nat) : Fld := ⟨(GOV_STATUS x), 1, 2⟩
def GOV_STATUS_PRE_REFUSED (x : Nat) : Fld := ⟨(GOV_STATUS x), 3, 1⟩
def GOV_ACC (x : Nat) : Nat := 0x1E01C + 0x100 * x
def GOV_ACC_ACC (x : Nat) : Fld := ⟨(GOV_ACC x), 0, 32⟩
def GOV_EVT_E (x : Nat) : Nat := 0x1E020 + 0x100 * x
def GOV_EVT_E_E (x : Nat) : Fld := ⟨(GOV_EVT_E x), 0, 32⟩
def GOV_EVT_T (x : Nat) : Nat := 0x1E024 + 0x100 * x
def GOV_EVT_T_T (x : Nat) : Fld := ⟨(GOV_EVT_T x), 0, 32⟩
def GOV_EVT_CNT (x : Nat) : Nat := 0x1E028 + 0x100 * x
def GOV_EVT_CNT_CNT (x : Nat) : Fld := ⟨(GOV_EVT_CNT x), 0, 16⟩
def GOV_EVT_MAX (x : Nat) : Nat := 0x1E02C + 0x100 * x
def GOV_EVT_MAX_E (x : Nat) : Fld := ⟨(GOV_EVT_MAX x), 0, 32⟩
def GOV_PRE_E (x : Nat) : Nat := 0x1E030 + 0x100 * x
def GOV_PRE_E_E (x : Nat) : Fld := ⟨(GOV_PRE_E x), 0, 32⟩
def GOV_STORED (x : Nat) : Nat := 0x1E034 + 0x100 * x
def GOV_STORED_E (x : Nat) : Fld := ⟨(GOV_STORED x), 0, 32⟩
def GOV_EVT_SEQ (x : Nat) : Nat := 0x1E038 + 0x100 * x
def GOV_EVT_SEQ_SEQ (x : Nat) : Fld := ⟨(GOV_EVT_SEQ x), 0, 32⟩
def GOV_FAULT_STATUS : Nat := 0x1E200
def GOV_FAULT_STATUS_CUT_C : Fld := ⟨GOV_FAULT_STATUS, 0, 1⟩
def GOV_FAULT_STATUS_CUT_D : Fld := ⟨GOV_FAULT_STATUS, 1, 1⟩
def GOV_FAULT_STATUS_PRE_C : Fld := ⟨GOV_FAULT_STATUS, 2, 1⟩
def GOV_FAULT_STATUS_PRE_D : Fld := ⟨GOV_FAULT_STATUS, 3, 1⟩
def GOV_FAULT_EN : Nat := 0x1E204
def GOV_FAULT_EN_EN : Fld := ⟨GOV_FAULT_EN, 0, 4⟩
def GOV_FAULT_ROUTE : Nat := 0x1E208
def GOV_FAULT_ROUTE_ROUTE : Fld := ⟨GOV_FAULT_ROUTE, 0, 19⟩
def ESP_CFG : Nat := 0x20000
def ESP_CFG_ORDER_TMO : Fld := ⟨ESP_CFG, 0, 10⟩
def ESP_CFG_MAXLEN : Fld := ⟨ESP_CFG, 16, 15⟩
def ESP_STATUS : Nat := 0x20004
def ESP_STATUS_INFLIGHT : Fld := ⟨ESP_STATUS, 0, 13⟩
def ESP_STATUS_WAITING : Fld := ⟨ESP_STATUS, 16, 13⟩
def ESP_HINT : Nat := 0x20008
def ESP_HINT_UP : Fld := ⟨ESP_HINT, 0, 16⟩
def ESP_HINT_DN : Fld := ⟨ESP_HINT, 16, 16⟩
def ESP_BREQ : Nat := 0x2000C
def ESP_BREQ_REQ : Fld := ⟨ESP_BREQ, 0, 8⟩
def ESP_DISC_LO : Nat := 0x20010
def ESP_DISC_LO_COUNT : Fld := ⟨ESP_DISC_LO, 0, 32⟩
def ESP_DISC_HI : Nat := 0x20014
def ESP_DISC_HI_COUNT : Fld := ⟨ESP_DISC_HI, 0, 32⟩
def ESP_FAULT_STATUS : Nat := 0x20020
def ESP_FAULT_STATUS_VOID_TMO : Fld := ⟨ESP_FAULT_STATUS, 0, 1⟩
def ESP_FAULT_STATUS_BUF_UE : Fld := ⟨ESP_FAULT_STATUS, 1, 1⟩
def ESP_FAULT_EN : Nat := 0x20024
def ESP_FAULT_EN_EN : Fld := ⟨ESP_FAULT_EN, 0, 2⟩
def ESP_FAULT_ROUTE : Nat := 0x20028
def ESP_FAULT_ROUTE_ROUTE : Fld := ⟨ESP_FAULT_ROUTE, 0, 19⟩
def ESP_SRC (s : Nat) : Nat := 0x20100 + 0x4 * s
def ESP_SRC_ROW (s : Nat) : Fld := ⟨(ESP_SRC s), 0, 3⟩
def ESP_SRC_DOM (s : Nat) : Fld := ⟨(ESP_SRC s), 8, 6⟩
def ESP_SRC_DMODE (s : Nat) : Fld := ⟨(ESP_SRC s), 16, 1⟩
def ESP_SRC_EN (s : Nat) : Fld := ⟨(ESP_SRC s), 17, 1⟩
def ESP_DOM_IDX (d : Nat) : Nat := 0x20400 + 0x10 * d
def ESP_DOM_IDX_HEAD (d : Nat) : Fld := ⟨(ESP_DOM_IDX d), 0, 16⟩
def ESP_DOM_IDX_NEXT (d : Nat) : Fld := ⟨(ESP_DOM_IDX d), 16, 16⟩
def ESP_DOM_REL_LO (d : Nat) : Nat := 0x20404 + 0x10 * d
def ESP_DOM_REL_LO_COUNT (d : Nat) : Fld := ⟨(ESP_DOM_REL_LO d), 0, 32⟩
def ESP_DOM_REL_HI (d : Nat) : Nat := 0x20408 + 0x10 * d
def ESP_DOM_REL_HI_COUNT (d : Nat) : Fld := ⟨(ESP_DOM_REL_HI d), 0, 32⟩
def ESP_DOM_VOID (d : Nat) : Nat := 0x2040C + 0x10 * d
def ESP_DOM_VOID_COUNT (d : Nat) : Fld := ⟨(ESP_DOM_VOID d), 0, 16⟩
def ESP_DOM_VOID_CLR (d : Nat) : Fld := ⟨(ESP_DOM_VOID d), 31, 1⟩
def ESP_ROW_WAKE (r : Nat) : Nat := 0x20800 + 0x10 * r
def ESP_ROW_WAKE_TH (r : Nat) : Fld := ⟨(ESP_ROW_WAKE r), 0, 13⟩
def ESP_ROW_WAIT (r : Nat) : Nat := 0x20804 + 0x10 * r
def ESP_ROW_WAIT_WAIT (r : Nat) : Fld := ⟨(ESP_ROW_WAIT r), 0, 13⟩
def ESP_ROW_DROP_LO (r k : Nat) : Nat := 0x21000 + 0x40 * r + 0x8 * k
def ESP_ROW_DROP_LO_COUNT (r k : Nat) : Fld := ⟨(ESP_ROW_DROP_LO r k), 0, 32⟩
def ESP_ROW_DROP_HI (r k : Nat) : Nat := 0x21004 + 0x40 * r + 0x8 * k
def ESP_ROW_DROP_HI_COUNT (r k : Nat) : Fld := ⟨(ESP_ROW_DROP_HI r k), 0, 32⟩
def DTB_LO : Nat := 0x23000
def DTB_LO_DTB : Fld := ⟨DTB_LO, 0, 32⟩
def DTB_HI : Nat := 0x23004
def DTB_HI_DTB : Fld := ⟨DTB_HI, 0, 32⟩
def DTB_RATE : Nat := 0x23008
def DTB_RATE_RATE : Fld := ⟨DTB_RATE, 0, 32⟩
def DTB_ADJ_LO : Nat := 0x2300C
def DTB_ADJ_LO_ADJ : Fld := ⟨DTB_ADJ_LO, 0, 32⟩
def DTB_ADJ_HI : Nat := 0x23010
def DTB_ADJ_HI_ADJ : Fld := ⟨DTB_ADJ_HI, 0, 32⟩
def DTB_CMD : Nat := 0x23014
def DTB_CMD_CMD : Fld := ⟨DTB_CMD, 0, 2⟩
def DTB_STATUS : Nat := 0x23018
def DTB_STATUS_SLEWING : Fld := ⟨DTB_STATUS, 0, 1⟩
def JOB_SUBMIT_LO (o : Nat) : Nat := 0x24000 + 0x40 * o
def JOB_SUBMIT_LO_ADDR (o : Nat) : Fld := ⟨(JOB_SUBMIT_LO o), 0, 32⟩
def JOB_SUBMIT_HI (o : Nat) : Nat := 0x24004 + 0x40 * o
def JOB_SUBMIT_HI_ADDR_HI (o : Nat) : Fld := ⟨(JOB_SUBMIT_HI o), 0, 8⟩
def JOB_SUBMIT_HI_PRIV (o : Nat) : Fld := ⟨(JOB_SUBMIT_HI o), 31, 1⟩
def JOB_CPL (o k : Nat) : Nat := 0x24010 + 0x40 * o + 0x4 * k
def JOB_CPL_WORD (o k : Nat) : Fld := ⟨(JOB_CPL o k), 0, 32⟩
def JOB_STAT (o : Nat) : Nat := 0x24020 + 0x40 * o
def JOB_STAT_INUSE (o : Nat) : Fld := ⟨(JOB_STAT o), 0, 8⟩
def JOB_STAT_QCOUNT (o : Nat) : Fld := ⟨(JOB_STAT o), 8, 8⟩
def JOB_STAT_BADSUB (o : Nat) : Fld := ⟨(JOB_STAT o), 16, 1⟩
def JOB_ROUTE (o : Nat) : Nat := 0x24024 + 0x40 * o
def JOB_ROUTE_ROUTE (o : Nat) : Fld := ⟨(JOB_ROUTE o), 0, 19⟩
def JOB_PROG (t : Nat) : Nat := 0x26000 + 0x8 * t
def JOB_PROG_PCT (t : Nat) : Fld := ⟨(JOB_PROG t), 0, 14⟩
def JOB_PROG_STATE (t : Nat) : Fld := ⟨(JOB_PROG t), 16, 2⟩
def JOB_PROG_OWNER (t : Nat) : Fld := ⟨(JOB_PROG t), 20, 4⟩
def JOB_PROG_TYPE (t : Nat) : Fld := ⟨(JOB_PROG t), 24, 8⟩
def JOB_POS (t : Nat) : Nat := 0x26004 + 0x8 * t
def JOB_POS_POS (t : Nat) : Fld := ⟨(JOB_POS t), 0, 32⟩
def ROW_CTL (r : Nat) : Nat := 0x28000 + 0x1000 * r
def ROW_CTL_EN (r : Nat) : Fld := ⟨(ROW_CTL r), 0, 1⟩
def ROW_CTL_RST (r : Nat) : Fld := ⟨(ROW_CTL r), 1, 1⟩
def ROW_STATUS (r : Nat) : Nat := 0x28004 + 0x1000 * r
def ROW_STATUS_CFG_ERR (r : Nat) : Fld := ⟨(ROW_STATUS r), 0, 1⟩
def ROW_STATUS_RST_BUSY (r : Nat) : Fld := ⟨(ROW_STATUS r), 1, 1⟩
def ROW_STATUS_RST_SRC (r : Nat) : Fld := ⟨(ROW_STATUS r), 4, 2⟩
def ROW_STATUS_RST_DONE (r : Nat) : Fld := ⟨(ROW_STATUS r), 8, 1⟩
def ROW_SUPV (r : Nat) : Nat := 0x28008 + 0x1000 * r
def ROW_SUPV_CODE (r : Nat) : Fld := ⟨(ROW_SUPV r), 0, 10⟩
def ROW_ENTRY (r : Nat) : Nat := 0x2800C + 0x1000 * r
def ROW_ENTRY_OFFS (r : Nat) : Fld := ⟨(ROW_ENTRY r), 1, 17⟩
def ROW_TVEC (r : Nat) : Nat := 0x28010 + 0x1000 * r
def ROW_TVEC_OFFS (r : Nat) : Fld := ⟨(ROW_TVEC r), 1, 17⟩
def ROW_POLICY (r : Nat) : Nat := 0x28014 + 0x1000 * r
def ROW_POLICY_FPOL (r : Nat) : Fld := ⟨(ROW_POLICY r), 0, 1⟩
def ROW_THR_SHARE (r : Nat) : Nat := 0x28018 + 0x1000 * r
def ROW_THR_SHARE_MODE (r : Nat) : Fld := ⟨(ROW_THR_SHARE r), 0, 1⟩
def ROW_THR_SHARE_TMAX (r : Nat) : Fld := ⟨(ROW_THR_SHARE r), 16, 10⟩
def ROW_THR_USE (r : Nat) : Nat := 0x2801C + 0x1000 * r
def ROW_THR_USE_USE (r : Nat) : Fld := ⟨(ROW_THR_USE r), 0, 10⟩
def ROW_THR_USE_MAPPED (r : Nat) : Fld := ⟨(ROW_THR_USE r), 16, 10⟩
def ROW_CMIN (r : Nat) : Nat := 0x28020 + 0x1000 * r
def ROW_CMIN_CELLS (r : Nat) : Fld := ⟨(ROW_CMIN r), 0, 19⟩
def ROW_CMAX (r : Nat) : Nat := 0x28024 + 0x1000 * r
def ROW_CMAX_CELLS (r : Nat) : Fld := ⟨(ROW_CMAX r), 0, 19⟩
def ROW_CELL_USE (r : Nat) : Nat := 0x28028 + 0x1000 * r
def ROW_CELL_USE_CELLS (r : Nat) : Fld := ⟨(ROW_CELL_USE r), 0, 19⟩
def ROW_CELL_PEAK (r : Nat) : Nat := 0x2802C + 0x1000 * r
def ROW_CELL_PEAK_PEAK (r : Nat) : Fld := ⟨(ROW_CELL_PEAK r), 0, 19⟩
def ROW_CELL_PEAK_CLR (r : Nat) : Fld := ⟨(ROW_CELL_PEAK r), 31, 1⟩
def ROW_TMAP (r w : Nat) : Nat := 0x28040 + 0x1000 * r + 0x4 * w
def ROW_TMAP_MAP (r w : Nat) : Fld := ⟨(ROW_TMAP r w), 0, 32⟩
def ROW_0_WMAP (w : Nat) : Nat := 0x28080 + 0x4 * w
def ROW_0_WMAP_MAP (w : Nat) : Fld := ⟨(ROW_0_WMAP w), 0, 32⟩
def ROW_WDT_CTL (r : Nat) : Nat := 0x28100 + 0x1000 * r
def ROW_WDT_CTL_PERIOD (r : Nat) : Fld := ⟨(ROW_WDT_CTL r), 0, 16⟩
def ROW_WDT_CTL_EN (r : Nat) : Fld := ⟨(ROW_WDT_CTL r), 16, 1⟩
def ROW_WDT_KEY (r : Nat) : Nat := 0x28104 + 0x1000 * r
def ROW_WDT_KEY_KEY (r : Nat) : Fld := ⟨(ROW_WDT_KEY r), 0, 32⟩
def ROW_WDT_STAT (r : Nat) : Nat := 0x28108 + 0x1000 * r
def ROW_WDT_STAT_COUNT (r : Nat) : Fld := ⟨(ROW_WDT_STAT r), 0, 16⟩
def ROW_WDT_STAT_EXP (r : Nat) : Fld := ⟨(ROW_WDT_STAT r), 16, 8⟩
def ROW_WDT_STAT_EXPIRED (r : Nat) : Fld := ⟨(ROW_WDT_STAT r), 31, 1⟩
def ROW_WDT_ROUTE (r : Nat) : Nat := 0x2810C + 0x1000 * r
def ROW_WDT_ROUTE_ROUTE (r : Nat) : Fld := ⟨(ROW_WDT_ROUTE r), 0, 19⟩
def ROW_HQ_CFG (r q : Nat) : Nat := 0x28200 + 0x1000 * r + 0x20 * q
def ROW_HQ_CFG_EN (r q : Nat) : Fld := ⟨(ROW_HQ_CFG r q), 0, 1⟩
def ROW_HQ_CFG_DIR (r q : Nat) : Fld := ⟨(ROW_HQ_CFG r q), 1, 1⟩
def ROW_HQ_CFG_LOG2SIZE (r q : Nat) : Fld := ⟨(ROW_HQ_CFG r q), 4, 4⟩
def ROW_HQ_CFG_VEC (r q : Nat) : Fld := ⟨(ROW_HQ_CFG r q), 8, 5⟩
def ROW_HQ_BASE_LO (r q : Nat) : Nat := 0x28204 + 0x1000 * r + 0x20 * q
def ROW_HQ_BASE_LO_BASE (r q : Nat) : Fld := ⟨(ROW_HQ_BASE_LO r q), 6, 26⟩
def ROW_HQ_BASE_HI (r q : Nat) : Nat := 0x28208 + 0x1000 * r + 0x20 * q
def ROW_HQ_BASE_HI_BASE (r q : Nat) : Fld := ⟨(ROW_HQ_BASE_HI r q), 0, 32⟩
def ROW_HQ_IDX (r q : Nat) : Nat := 0x2820C + 0x1000 * r + 0x20 * q
def ROW_HQ_IDX_HEAD (r q : Nat) : Fld := ⟨(ROW_HQ_IDX r q), 0, 16⟩
def ROW_HQ_IDX_TAIL (r q : Nat) : Fld := ⟨(ROW_HQ_IDX r q), 16, 16⟩
def ROW_HQ_STAT (r q : Nat) : Nat := 0x28210 + 0x1000 * r + 0x20 * q
def ROW_HQ_STAT_LAST_BAD (r q : Nat) : Fld := ⟨(ROW_HQ_STAT r q), 0, 16⟩
def ROW_HQ_STAT_WAIT (r q : Nat) : Fld := ⟨(ROW_HQ_STAT r q), 16, 9⟩
def ROW_FAULT_STATUS (r : Nat) : Nat := 0x28300 + 0x1000 * r
def ROW_FAULT_STATUS_DB_ERR (r : Nat) : Fld := ⟨(ROW_FAULT_STATUS r), 0, 1⟩
def ROW_FAULT_STATUS_DMA_ERR (r : Nat) : Fld := ⟨(ROW_FAULT_STATUS r), 1, 1⟩
def ROW_FAULT_EN (r : Nat) : Nat := 0x28304 + 0x1000 * r
def ROW_FAULT_EN_EN (r : Nat) : Fld := ⟨(ROW_FAULT_EN r), 0, 2⟩
def ROW_FAULT_ROUTE (r : Nat) : Nat := 0x28308 + 0x1000 * r
def ROW_FAULT_ROUTE_ROUTE (r : Nat) : Fld := ⟨(ROW_FAULT_ROUTE r), 0, 19⟩
def BGH_EVT_POST (b : Nat) : Nat := 0x30100 + 0x2000 * b
def BGH_EVT_POST_T (b : Nat) : Fld := ⟨(BGH_EVT_POST b), 0, 6⟩
def BGH_EVT_POST_MASK (b : Nat) : Fld := ⟨(BGH_EVT_POST b), 8, 8⟩
def BGH_FORK_FAIL (b : Nat) : Nat := 0x30104 + 0x2000 * b
def BGH_FORK_FAIL_COUNT (b : Nat) : Fld := ⟨(BGH_FORK_FAIL b), 0, 16⟩
def BGH_FORK_FAIL_CLR (b : Nat) : Fld := ⟨(BGH_FORK_FAIL b), 31, 1⟩
def BGH_TSTATE (b t : Nat) : Nat := 0x30200 + 0x2000 * b + 0x4 * t
def BGH_TSTATE_STATE (b t : Nat) : Fld := ⟨(BGH_TSTATE b t), 0, 3⟩
def BGH_TSTATE_ROW (b t : Nat) : Fld := ⟨(BGH_TSTATE b t), 4, 3⟩
def BGH_TSTATE_PRI (b t : Nat) : Fld := ⟨(BGH_TSTATE b t), 8, 2⟩
def BGH_TSTATE_CAUSE (b t : Nat) : Fld := ⟨(BGH_TSTATE b t), 16, 8⟩
def BGH_TSTATE_CMD (b t : Nat) : Fld := ⟨(BGH_TSTATE b t), 30, 2⟩
def BGH_TSP (b t : Nat) : Nat := 0x30300 + 0x2000 * b + 0x4 * t
def BGH_TSP_TSP (b t : Nat) : Fld := ⟨(BGH_TSP b t), 0, 32⟩
def BGH_LKP_CFG (b k : Nat) : Nat := 0x30600 + 0x2000 * b + 0x8 * k
def BGH_LKP_CFG_LOG2 (b k : Nat) : Fld := ⟨(BGH_LKP_CFG b k), 0, 5⟩
def BGH_LKP_CFG_KEYW (b k : Nat) : Fld := ⟨(BGH_LKP_CFG b k), 8, 3⟩
def BGH_LKP_CFG_ENTW (b k : Nat) : Fld := ⟨(BGH_LKP_CFG b k), 12, 3⟩
def BGH_LKP_CFG_EN (b k : Nat) : Fld := ⟨(BGH_LKP_CFG b k), 16, 1⟩
def BGH_LKP_BASE (b k : Nat) : Nat := 0x30604 + 0x2000 * b + 0x8 * k
def BGH_LKP_BASE_BASE (b k : Nat) : Fld := ⟨(BGH_LKP_BASE b k), 2, 18⟩
def BGH_FAULT_STATUS (b : Nat) : Nat := 0x30700 + 0x2000 * b
def BGH_FAULT_STATUS_IMEM_CE (b : Nat) : Fld := ⟨(BGH_FAULT_STATUS b), 0, 1⟩
def BGH_FAULT_STATUS_IMEM_UE (b : Nat) : Fld := ⟨(BGH_FAULT_STATUS b), 1, 1⟩
def BGH_FAULT_STATUS_SMEM_CE (b : Nat) : Fld := ⟨(BGH_FAULT_STATUS b), 2, 1⟩
def BGH_FAULT_STATUS_SMEM_UE (b : Nat) : Fld := ⟨(BGH_FAULT_STATUS b), 3, 1⟩
def BGH_FAULT_STATUS_DMEM_CE (b : Nat) : Fld := ⟨(BGH_FAULT_STATUS b), 4, 1⟩
def BGH_FAULT_STATUS_DMEM_UE (b : Nat) : Fld := ⟨(BGH_FAULT_STATUS b), 5, 1⟩
def BGH_FAULT_EN (b : Nat) : Nat := 0x30704 + 0x2000 * b
def BGH_FAULT_EN_EN (b : Nat) : Fld := ⟨(BGH_FAULT_EN b), 0, 6⟩
def BGH_FAULT_ROUTE (b : Nat) : Nat := 0x30708 + 0x2000 * b
def BGH_FAULT_ROUTE_ROUTE (b : Nat) : Fld := ⟨(BGH_FAULT_ROUTE b), 0, 19⟩
/-- The base of port p's register block (14, Table 14.6). -/
def portBase (p : Nat) : Nat :=
  if p < 8 then 0x40000 + 0x1000 * p else if p < 24 then 0x48000 + 0x400 * (p - 8) else 0x4C000 + 0x100 * (p - 24)
def PORT_CTL (p : Nat) : Nat := portBase p
def PORT_CTL_EN (p : Nat) : Fld := ⟨(PORT_CTL p), 0, 1⟩
def PORT_CTL_MODE (p : Nat) : Fld := ⟨(PORT_CTL p), 1, 2⟩
def PORT_CTL_GROW (p : Nat) : Fld := ⟨(PORT_CTL p), 8, 3⟩
def PORT_STATUS (p : Nat) : Nat := portBase p + 0x4
def PORT_STATUS_LINK (p : Nat) : Fld := ⟨(PORT_STATUS p), 0, 1⟩
def PORT_STATUS_LOCK (p : Nat) : Fld := ⟨(PORT_STATUS p), 1, 1⟩
def PORT_MAC_LO (p : Nat) : Nat := portBase p + 0x8
def PORT_MAC_LO_MAC (p : Nat) : Fld := ⟨(PORT_MAC_LO p), 0, 32⟩
def PORT_MAC_HI (p : Nat) : Nat := portBase p + 0xc
def PORT_MAC_HI_MAC (p : Nat) : Fld := ⟨(PORT_MAC_HI p), 0, 16⟩
def PORT_TSCORR (p : Nat) : Nat := portBase p + 0x10
def PORT_TSCORR_RX (p : Nat) : Fld := ⟨(PORT_TSCORR p), 0, 16⟩
def PORT_TSCORR_TX (p : Nat) : Fld := ⟨(PORT_TSCORR p), 16, 16⟩
def PORT_GATE (p : Nat) : Nat := portBase p + 0x14
def PORT_GATE_OPEN (p : Nat) : Fld := ⟨(PORT_GATE p), 0, 8⟩
def PORT_GATE_NEXT (p : Nat) : Fld := ⟨(PORT_GATE p), 8, 8⟩
def PORT_GATE_NEXT_VALID (p : Nat) : Fld := ⟨(PORT_GATE p), 16, 1⟩
def PORT_GATE_LATE (p : Nat) : Fld := ⟨(PORT_GATE p), 17, 1⟩
def PORT_GATE_AT_LO (p : Nat) : Nat := portBase p + 0x18
def PORT_GATE_AT_LO_AT (p : Nat) : Fld := ⟨(PORT_GATE_AT_LO p), 0, 32⟩
def PORT_GATE_AT_HI (p : Nat) : Nat := portBase p + 0x1c
def PORT_GATE_AT_HI_AT (p : Nat) : Fld := ⟨(PORT_GATE_AT_HI p), 0, 32⟩
def PORT_GATE_ROUTE (p : Nat) : Nat := portBase p + 0x20
def PORT_GATE_ROUTE_ROUTE (p : Nat) : Fld := ⟨(PORT_GATE_ROUTE p), 0, 19⟩
def PORT_TXEQ_0 (p : Nat) : Nat := portBase p + 0x24
def PORT_TXEQ_0_C_M3 (p : Nat) : Fld := ⟨(PORT_TXEQ_0 p), 0, 8⟩
def PORT_TXEQ_0_C_M2 (p : Nat) : Fld := ⟨(PORT_TXEQ_0 p), 8, 8⟩
def PORT_TXEQ_0_C_M1 (p : Nat) : Fld := ⟨(PORT_TXEQ_0 p), 16, 8⟩
def PORT_TXEQ_0_C_P1 (p : Nat) : Fld := ⟨(PORT_TXEQ_0 p), 24, 8⟩
def PORT_TXEQ_1 (p : Nat) : Nat := portBase p + 0x28
def PORT_TXEQ_1_AMP (p : Nat) : Fld := ⟨(PORT_TXEQ_1 p), 0, 4⟩
def PORT_TXEQ_1_PRESET (p : Nat) : Fld := ⟨(PORT_TXEQ_1 p), 4, 3⟩
def PORT_TXEQ_1_USE_PRESET (p : Nat) : Fld := ⟨(PORT_TXEQ_1 p), 7, 1⟩
def PORT_TXEQ_ACT (p : Nat) : Nat := portBase p + 0x2c
def PORT_TXEQ_ACT_C_M3 (p : Nat) : Fld := ⟨(PORT_TXEQ_ACT p), 0, 8⟩
def PORT_TXEQ_ACT_C_M2 (p : Nat) : Fld := ⟨(PORT_TXEQ_ACT p), 8, 8⟩
def PORT_TXEQ_ACT_C_M1 (p : Nat) : Fld := ⟨(PORT_TXEQ_ACT p), 16, 8⟩
def PORT_TXEQ_ACT_C_P1 (p : Nat) : Fld := ⟨(PORT_TXEQ_ACT p), 24, 8⟩
def PORT_TXEQ_C0 (p : Nat) : Nat := portBase p + 0x30
def PORT_TXEQ_C0_C0 (p : Nat) : Fld := ⟨(PORT_TXEQ_C0 p), 0, 8⟩
def PORT_CNT_LO (p k : Nat) : Nat := portBase p + 0x40 + 8 * k
def PORT_CNT_LO_COUNT (p k : Nat) : Fld := ⟨(PORT_CNT_LO p k), 0, 32⟩
def PORT_CNT_HI (p k : Nat) : Nat := portBase p + 0x44 + 8 * k
def PORT_CNT_HI_COUNT (p k : Nat) : Fld := ⟨(PORT_CNT_HI p k), 0, 32⟩
def PORT_FAULT_STATUS (p : Nat) : Nat := portBase p + 0x80
def PORT_FAULT_STATUS_LINK_LOST (p : Nat) : Fld := ⟨(PORT_FAULT_STATUS p), 0, 1⟩
def PORT_FAULT_STATUS_FEC_UNCORR (p : Nat) : Fld := ⟨(PORT_FAULT_STATUS p), 1, 1⟩
def PORT_FAULT_STATUS_CFG_ERR (p : Nat) : Fld := ⟨(PORT_FAULT_STATUS p), 2, 1⟩
def PORT_FAULT_EN (p : Nat) : Nat := portBase p + 0x84
def PORT_FAULT_EN_EN (p : Nat) : Fld := ⟨(PORT_FAULT_EN p), 0, 3⟩
def PORT_FAULT_ROUTE (p : Nat) : Nat := portBase p + 0x88
def PORT_FAULT_ROUTE_ROUTE (p : Nat) : Fld := ⟨(PORT_FAULT_ROUTE p), 0, 19⟩
def T1S_PLCA (i : Nat) : Nat := 0x4C0C0 + 0x100 * i
def T1S_PLCA_EN (i : Nat) : Fld := ⟨(T1S_PLCA i), 0, 1⟩
def T1S_PLCA_ID (i : Nat) : Fld := ⟨(T1S_PLCA i), 8, 8⟩
def T1S_PLCA_CNT (i : Nat) : Fld := ⟨(T1S_PLCA i), 16, 8⟩
def T1S_PLCA_TO (i : Nat) : Fld := ⟨(T1S_PLCA i), 24, 8⟩
def T1S_PLCA_T (i : Nat) : Nat := 0x4C0C4 + 0x100 * i
def T1S_PLCA_T_BURST_TMR (i : Nat) : Fld := ⟨(T1S_PLCA_T i), 0, 8⟩
def T1S_PLCA_T_BURST_CNT (i : Nat) : Fld := ⟨(T1S_PLCA_T i), 8, 8⟩
def T1S_STATUS2 (i : Nat) : Nat := 0x4C0C8 + 0x100 * i
def T1S_STATUS2_PLCA_OK (i : Nat) : Fld := ⟨(T1S_STATUS2 i), 2, 1⟩
def MSEC_SEL : Nat := 0x4F000
def MSEC_SEL_SA : Fld := ⟨MSEC_SEL, 0, 12⟩
def MSEC_CFG : Nat := 0x4F004
def MSEC_CFG_VALID : Fld := ⟨MSEC_CFG, 0, 1⟩
def MSEC_CFG_SUITE : Fld := ⟨MSEC_CFG, 1, 2⟩
def MSEC_KEY (k : Nat) : Nat := 0x4F010 + 0x4 * k
def MSEC_KEY_BYTES (k : Nat) : Fld := ⟨(MSEC_KEY k), 0, 32⟩
def MSEC_SALT (k : Nat) : Nat := 0x4F030 + 0x4 * k
def MSEC_SALT_BYTES (k : Nat) : Fld := ⟨(MSEC_SALT k), 0, 32⟩
def MSEC_CMD : Nat := 0x4F040
def MSEC_CMD_COMMIT : Fld := ⟨MSEC_CMD, 0, 1⟩
def MSEC_CMD_BUSY : Fld := ⟨MSEC_CMD, 1, 1⟩
def MSEC_CMD_LOST : Fld := ⟨MSEC_CMD, 2, 1⟩
def USB_CTL : Nat := 0x50000
def USB_CTL_EN : Fld := ⟨USB_CTL, 0, 1⟩
def USB_STATUS : Nat := 0x50004
def USB_STATUS_STATE : Fld := ⟨USB_STATUS, 0, 3⟩
def USB_STATUS_SPEED : Fld := ⟨USB_STATUS, 3, 1⟩
def USB_STATUS_RWE_FN : Fld := ⟨USB_STATUS, 4, 1⟩
def USB_STATUS_RWE_HUB : Fld := ⟨USB_STATUS, 5, 1⟩
def USB_RESUME_CNT : Nat := 0x50008
def USB_RESUME_CNT_HOST : Fld := ⟨USB_RESUME_CNT, 0, 8⟩
def USB_RESUME_CNT_REMOTE : Fld := ⟨USB_RESUME_CNT, 8, 8⟩
def USB_RESUME_CNT_CANCEL : Fld := ⟨USB_RESUME_CNT, 16, 8⟩
def USB_RESUME_CNT_FAIL : Fld := ⟨USB_RESUME_CNT, 24, 7⟩
def USB_RESUME_CNT_CLR : Fld := ⟨USB_RESUME_CNT, 31, 1⟩
def USB_NTF_POST : Nat := 0x50010
def USB_NTF_POST_POST : Fld := ⟨USB_NTF_POST, 0, 16⟩
def USB_NTF_PEND : Nat := 0x50014
def USB_NTF_PEND_BITS : Fld := ⟨USB_NTF_PEND, 0, 18⟩
def USB_NTF_MASK : Nat := 0x50018
def USB_NTF_MASK_BITS : Fld := ⟨USB_NTF_MASK, 0, 18⟩
def USB_WAKE_CFG : Nat := 0x5001C
def USB_WAKE_CFG_RETRY : Fld := ⟨USB_WAKE_CFG, 0, 16⟩
def USB_WAKE_CFG_RETRIES : Fld := ⟨USB_WAKE_CFG, 16, 4⟩
def USB_FK : Nat := 0x50020
def USB_FK_LEVEL : Fld := ⟨USB_FK, 0, 2⟩
def USB_FK_FAILS : Fld := ⟨USB_FK, 2, 2⟩
def USB_FK_LOCKOUT : Fld := ⟨USB_FK, 4, 1⟩
def USB_PORT (n : Nat) : Nat := 0x50040 + 0x4 * n
def USB_PORT_POWER (n : Nat) : Fld := ⟨(USB_PORT n), 0, 1⟩
def USB_PORT_CONN (n : Nat) : Fld := ⟨(USB_PORT n), 1, 1⟩
def USB_PORT_EN (n : Nat) : Fld := ⟨(USB_PORT n), 2, 1⟩
def USB_PORT_OC (n : Nat) : Fld := ⟨(USB_PORT n), 3, 1⟩
def USB_PORT_SPEED (n : Nat) : Fld := ⟨(USB_PORT n), 4, 2⟩
def USB_PORT_BABBLE (n : Nat) : Fld := ⟨(USB_PORT n), 8, 8⟩
def USB_PORT_CLR (n : Nat) : Fld := ⟨(USB_PORT n), 31, 1⟩
def USB_FAULT_STATUS : Nat := 0x50080
def USB_FAULT_STATUS_OC_1 : Fld := ⟨USB_FAULT_STATUS, 0, 1⟩
def USB_FAULT_STATUS_OC_2 : Fld := ⟨USB_FAULT_STATUS, 1, 1⟩
def USB_FAULT_STATUS_BABBLE_1 : Fld := ⟨USB_FAULT_STATUS, 2, 1⟩
def USB_FAULT_STATUS_BABBLE_2 : Fld := ⟨USB_FAULT_STATUS, 3, 1⟩
def USB_FAULT_STATUS_WAKE_FAIL : Fld := ⟨USB_FAULT_STATUS, 4, 1⟩
def USB_FAULT_STATUS_AUTH_LOCK : Fld := ⟨USB_FAULT_STATUS, 5, 1⟩
def USB_FAULT_EN : Nat := 0x50084
def USB_FAULT_EN_EN : Fld := ⟨USB_FAULT_EN, 0, 6⟩
def USB_FAULT_ROUTE : Nat := 0x50088
def USB_FAULT_ROUTE_ROUTE : Fld := ⟨USB_FAULT_ROUTE, 0, 19⟩
def PCIE_STATUS : Nat := 0x54000
def PCIE_STATUS_LINK_UP : Fld := ⟨PCIE_STATUS, 0, 1⟩
def PCIE_STATUS_SPEED : Fld := ⟨PCIE_STATUS, 1, 3⟩
def PCIE_STATUS_WIDTH : Fld := ⟨PCIE_STATUS, 4, 4⟩
def PCIE_ID : Nat := 0x54004
def PCIE_ID_DEVICE : Fld := ⟨PCIE_ID, 0, 16⟩
def PCIE_ID_VENDOR : Fld := ⟨PCIE_ID, 16, 16⟩
def PCIE_HOSTPRIV : Nat := 0x54008
def PCIE_HOSTPRIV_PF0_WARDEN : Fld := ⟨PCIE_HOSTPRIV, 0, 1⟩
def PCIE_HOSTPRIV_TW0_WARDEN : Fld := ⟨PCIE_HOSTPRIV, 1, 1⟩
def PCIE_FAULT_STATUS : Nat := 0x54200
def PCIE_FAULT_STATUS_LINK_DOWN : Fld := ⟨PCIE_FAULT_STATUS, 0, 1⟩
def PCIE_FAULT_EN : Nat := 0x54204
def PCIE_FAULT_EN_EN : Fld := ⟨PCIE_FAULT_EN, 0, 1⟩
def PCIE_FAULT_ROUTE : Nat := 0x54208
def PCIE_FAULT_ROUTE_ROUTE : Fld := ⟨PCIE_FAULT_ROUTE, 0, 19⟩
def GRAFT_CTL : Nat := 0x58000
def GRAFT_CTL_EN : Fld := ⟨GRAFT_CTL, 0, 1⟩
def GRAFT_CTL_TAKE_EN : Fld := ⟨GRAFT_CTL, 1, 1⟩
def GRAFT_CTL_DEMOTE : Fld := ⟨GRAFT_CTL, 2, 1⟩
def GRAFT_STATUS : Nat := 0x58004
def GRAFT_STATUS_ROLE : Fld := ⟨GRAFT_STATUS, 0, 1⟩
def GRAFT_STATUS_STATE : Fld := ⟨GRAFT_STATUS, 1, 3⟩
def GRAFT_STATUS_BANK : Fld := ⟨GRAFT_STATUS, 4, 1⟩
def GRAFT_STATUS_NONE : Fld := ⟨GRAFT_STATUS, 5, 1⟩
def GRAFT_STATUS_CFG_ERR : Fld := ⟨GRAFT_STATUS, 6, 1⟩
def GRAFT_SHADOW : Nat := 0x58008
def GRAFT_SHADOW_BANK_MIB : Fld := ⟨GRAFT_SHADOW, 0, 4⟩
def GRAFT_EPOCH : Nat := 0x5800C
def GRAFT_EPOCH_EPOCH : Fld := ⟨GRAFT_EPOCH, 0, 32⟩
def GRAFT_AGE : Nat := 0x58010
def GRAFT_AGE_AGE : Fld := ⟨GRAFT_AGE, 0, 32⟩
def GRAFT_TAKE : Nat := 0x58014
def GRAFT_TAKE_DONE : Fld := ⟨GRAFT_TAKE, 0, 1⟩
def GRAFT_TAKE_BAT : Fld := ⟨GRAFT_TAKE, 1, 1⟩
def GRAFT_TAKE_NO_EPOCH : Fld := ⟨GRAFT_TAKE, 2, 1⟩
def GRAFT_TAKE_SKIP : Nat := 0x58018
def GRAFT_TAKE_SKIP_SKIP : Fld := ⟨GRAFT_TAKE_SKIP, 0, 32⟩
def GRAFT_TAKE_T : Nat := 0x5801C
def GRAFT_TAKE_T_T : Fld := ⟨GRAFT_TAKE_T, 0, 32⟩
def GRAFT_ROUTE : Nat := 0x58020
def GRAFT_ROUTE_ROUTE : Fld := ⟨GRAFT_ROUTE, 0, 19⟩
def GRAFT_FAULT_STATUS : Nat := 0x58040
def GRAFT_FAULT_STATUS_LINK_LOST : Fld := ⟨GRAFT_FAULT_STATUS, 0, 1⟩
def GRAFT_FAULT_STATUS_EPOCH_BAD : Fld := ⟨GRAFT_FAULT_STATUS, 1, 1⟩
def GRAFT_FAULT_STATUS_PARTNER_LOST : Fld := ⟨GRAFT_FAULT_STATUS, 2, 1⟩
def GRAFT_FAULT_STATUS_DUAL_ACTIVE : Fld := ⟨GRAFT_FAULT_STATUS, 3, 1⟩
def GRAFT_FAULT_STATUS_NO_EPOCH : Fld := ⟨GRAFT_FAULT_STATUS, 4, 1⟩
def GRAFT_FAULT_STATUS_SKIP : Fld := ⟨GRAFT_FAULT_STATUS, 5, 1⟩
def GRAFT_FAULT_EN : Nat := 0x58044
def GRAFT_FAULT_EN_EN : Fld := ⟨GRAFT_FAULT_EN, 0, 6⟩
def GRAFT_FAULT_ROUTE : Nat := 0x58048
def GRAFT_FAULT_ROUTE_ROUTE : Fld := ⟨GRAFT_FAULT_ROUTE, 0, 19⟩
def RING_CTL : Nat := 0x5C000
def RING_CTL_START : Fld := ⟨RING_CTL, 0, 1⟩
def RING_CTL_STOP : Fld := ⟨RING_CTL, 1, 1⟩
def RING_CFG : Nat := 0x5C004
def RING_CFG_PORT_E : Fld := ⟨RING_CFG, 0, 3⟩
def RING_CFG_PORT_W : Fld := ⟨RING_CFG, 4, 3⟩
def RING_CFG_CLASS : Fld := ⟨RING_CFG, 8, 3⟩
def RING_CFG_DMAX : Fld := ⟨RING_CFG, 16, 5⟩
def RING_MEMBERS : Nat := 0x5C008
def RING_MEMBERS_MEMBERS : Fld := ⟨RING_MEMBERS, 0, 16⟩
def RING_LDLY : Nat := 0x5C00C
def RING_LDLY_LDLY : Fld := ⟨RING_LDLY, 0, 16⟩
def RING_STATUS : Nat := 0x5C010
def RING_STATUS_STATE : Fld := ⟨RING_STATUS, 0, 3⟩
def RING_STATUS_COLD : Fld := ⟨RING_STATUS, 4, 1⟩
def RING_STATUS_COLL : Fld := ⟨RING_STATUS, 5, 3⟩
def RING_STATUS_NODE : Fld := ⟨RING_STATUS, 8, 4⟩
def RING_STATUS_CNODE : Fld := ⟨RING_STATUS, 12, 4⟩
def RING_STATUS_MISSING : Fld := ⟨RING_STATUS, 16, 16⟩
def RING_CYCLE : Nat := 0x5C014
def RING_CYCLE_VALUE : Fld := ⟨RING_CYCLE, 0, 16⟩
def RING_START_T : Nat := 0x5C018
def RING_START_T_VALUE : Fld := ⟨RING_START_T, 0, 16⟩
def RING_FAULT_STATUS : Nat := 0x5C020
def RING_FAULT_STATUS_DUP_ID : Fld := ⟨RING_FAULT_STATUS, 0, 1⟩
def RING_FAULT_STATUS_BEACON_LOSS : Fld := ⟨RING_FAULT_STATUS, 1, 1⟩
def RING_FAULT_STATUS_MISSING : Fld := ⟨RING_FAULT_STATUS, 2, 1⟩
def RING_FAULT_STATUS_BAD_FRAME : Fld := ⟨RING_FAULT_STATUS, 3, 1⟩
def RING_FAULT_EN : Nat := 0x5C024
def RING_FAULT_EN_EN : Fld := ⟨RING_FAULT_EN, 0, 4⟩
def RING_FAULT_ROUTE : Nat := 0x5C028
def RING_FAULT_ROUTE_ROUTE : Fld := ⟨RING_FAULT_ROUTE, 0, 19⟩
def NV_STATUS : Nat := 0x60000
def NV_STATUS_BUSY : Fld := ⟨NV_STATUS, 0, 1⟩
def NV_STATUS_WEAR_MAX : Fld := ⟨NV_STATUS, 8, 24⟩
def NV_HOLD_C : Nat := 0x60004
def NV_HOLD_C_C : Fld := ⟨NV_HOLD_C, 0, 32⟩
def NV_HOLD_VMIN : Nat := 0x60008
def NV_HOLD_VMIN_VMIN : Fld := ⟨NV_HOLD_VMIN, 0, 32⟩
def NV_HOLD_SCALE : Nat := 0x6000C
def NV_HOLD_SCALE_SCALE : Fld := ⟨NV_HOLD_SCALE, 0, 32⟩
def NV_HOLD_E : Nat := 0x60010
def NV_HOLD_E_EPAGE : Fld := ⟨NV_HOLD_E, 0, 16⟩
def NV_HOLD_E_EFIX : Fld := ⟨NV_HOLD_E, 16, 16⟩
def NV_HOLD_V : Nat := 0x60014
def NV_HOLD_V_V : Fld := ⟨NV_HOLD_V, 0, 32⟩
def NV_HOLD_EN : Nat := 0x60018
def NV_HOLD_EN_E : Fld := ⟨NV_HOLD_EN, 0, 32⟩
def NV_REC (k : Nat) : Nat := 0x60020 + 0x8 * k
def NV_REC_VALID (k : Nat) : Fld := ⟨(NV_REC k), 0, 1⟩
def NV_REC_SLOT (k : Nat) : Fld := ⟨(NV_REC k), 1, 1⟩
def NV_REC_LEN (k : Nat) : Fld := ⟨(NV_REC k), 16, 16⟩
def NV_REC_SEQ (k : Nat) : Nat := 0x60024 + 0x8 * k
def NV_REC_SEQ_SEQ (k : Nat) : Fld := ⟨(NV_REC_SEQ k), 0, 32⟩
def NV_RD_ADDR : Nat := 0x60040
def NV_RD_ADDR_ADDR : Fld := ⟨NV_RD_ADDR, 2, 19⟩
def NV_RD_DATA : Nat := 0x60044
def NV_RD_DATA_DATA : Fld := ⟨NV_RD_DATA, 0, 32⟩
def NV_FAULT_STATUS : Nat := 0x60050
def NV_FAULT_STATUS_NRG : Fld := ⟨NV_FAULT_STATUS, 0, 1⟩
def NV_FAULT_STATUS_PROG_FAIL : Fld := ⟨NV_FAULT_STATUS, 1, 1⟩
def NV_FAULT_STATUS_WEAR : Fld := ⟨NV_FAULT_STATUS, 2, 1⟩
def NV_FAULT_STATUS_UE : Fld := ⟨NV_FAULT_STATUS, 3, 1⟩
def NV_FAULT_EN : Nat := 0x60054
def NV_FAULT_EN_EN : Fld := ⟨NV_FAULT_EN, 0, 4⟩
def NV_FAULT_ROUTE : Nat := 0x60058
def NV_FAULT_ROUTE_ROUTE : Fld := ⟨NV_FAULT_ROUTE, 0, 19⟩
def BOOT_STATUS : Nat := 0x64000
def BOOT_STATUS_STATE : Fld := ⟨BOOT_STATUS, 0, 3⟩
def BOOT_STATUS_ERR : Fld := ⟨BOOT_STATUS, 4, 4⟩
def BOOT_STATUS_RS_SLOT : Fld := ⟨BOOT_STATUS, 8, 1⟩
def BOOT_STATUS_FAB_SLOT : Fld := ⟨BOOT_STATUS, 9, 1⟩
def BOOT_STATUS_RECOV : Fld := ⟨BOOT_STATUS, 10, 1⟩
def BOOT_STATUS_BUSY_HIT : Fld := ⟨BOOT_STATUS, 11, 1⟩
def BOOT_STATUS_RS_VER : Fld := ⟨BOOT_STATUS, 12, 6⟩
def BOOT_STATUS_FAB_VER : Fld := ⟨BOOT_STATUS, 18, 6⟩
def BOOT_CTL : Nat := 0x64004
def BOOT_CTL_RELEASE : Fld := ⟨BOOT_CTL, 0, 1⟩
def BOOT_STAGE_ADDR : Nat := 0x64008
def BOOT_STAGE_ADDR_ADDR : Fld := ⟨BOOT_STAGE_ADDR, 0, 32⟩
def BOOT_STAGE_LEN : Nat := 0x6400C
def BOOT_STAGE_LEN_LEN : Fld := ⟨BOOT_STAGE_LEN, 0, 32⟩
def BOOT_STAGE_GO : Nat := 0x64010
def BOOT_STAGE_GO_GO : Fld := ⟨BOOT_STAGE_GO, 0, 1⟩
def BOOT_FUSE : Nat := 0x64014
def BOOT_FUSE_MIN_VER : Fld := ⟨BOOT_FUSE, 0, 6⟩
def BOOT_FUSE_REVOKED : Fld := ⟨BOOT_FUSE, 8, 4⟩
def BOOT_FUSE_DBG_DIS : Fld := ⟨BOOT_FUSE, 12, 1⟩
def BOOT_FUSE_RECOV_EN : Fld := ⟨BOOT_FUSE, 13, 1⟩
def BOOT_FUSE_CMD : Nat := 0x64018
def BOOT_FUSE_CMD_ADV_VER : Fld := ⟨BOOT_FUSE_CMD, 0, 1⟩
def BOOT_FUSE_CMD_REVOKE : Fld := ⟨BOOT_FUSE_CMD, 4, 4⟩
def SEC_RNG_DATA : Nat := 0x64020
def SEC_RNG_DATA_DATA : Fld := ⟨SEC_RNG_DATA, 0, 32⟩
def SEC_RNG_STATUS : Nat := 0x64024
def SEC_RNG_STATUS_VALID : Fld := ⟨SEC_RNG_STATUS, 0, 1⟩
def SEC_RNG_STATUS_HEALTH_FAIL : Fld := ⟨SEC_RNG_STATUS, 1, 1⟩
def SEC_RNG_CTL : Nat := 0x64028
def SEC_RNG_CTL_RESTART : Fld := ⟨SEC_RNG_CTL, 0, 1⟩
def SEC_DBG : Nat := 0x64030
def SEC_DBG_LEVEL : Fld := ⟨SEC_DBG, 0, 2⟩
def SEC_DBG_FAILS : Fld := ⟨SEC_DBG, 2, 2⟩
def SEC_DBG_LOCKOUT : Fld := ⟨SEC_DBG, 4, 1⟩
def SEC_FAULT_STATUS : Nat := 0x64040
def SEC_FAULT_STATUS_RS_FAIL : Fld := ⟨SEC_FAULT_STATUS, 0, 1⟩
def SEC_FAULT_STATUS_FAB_FAIL : Fld := ⟨SEC_FAULT_STATUS, 1, 1⟩
def SEC_FAULT_STATUS_RNG_FAIL : Fld := ⟨SEC_FAULT_STATUS, 2, 1⟩
def SEC_FAULT_STATUS_REVOKE_SELF : Fld := ⟨SEC_FAULT_STATUS, 3, 1⟩
def SEC_FAULT_STATUS_DBG_FAIL : Fld := ⟨SEC_FAULT_STATUS, 4, 1⟩
def SEC_FAULT_EN : Nat := 0x64044
def SEC_FAULT_EN_EN : Fld := ⟨SEC_FAULT_EN, 0, 5⟩
def SEC_FAULT_ROUTE : Nat := 0x64048
def SEC_FAULT_ROUTE_ROUTE : Fld := ⟨SEC_FAULT_ROUTE, 0, 19⟩

end R

end Sys2Proof.Machine
end

