-- ==== Sys2Proof/Machine/State.lean ====
section
/-! DEFINITION. The state of the device (plain data), the reasons a step can stop, and the state after reset. INVENTORY.md,
"State", names the rule of the spec behind every field. -/

namespace Sys2Proof.Machine

/-! ## Threads -/

/-- Thread states (06, Table 6.2), in the order of their codes. -/
inductive TState where
  | idle | run | wait | halted | done | unassigned
  deriving DecidableEq, Repr

/-- What a thread in WAIT waits for. -/
inductive WaitFor where
  | nothing
  | join (child : Nat)
  | waitt
  | waite (rd : BitVec 5) (mask : Byte)
  | hwait (rd : BitVec 5) (cn : BitVec 3)
  deriving DecidableEq, Repr

/-- A completion register c0-c7 (05, Table 5.14). -/
inductive Compl where
  | idle
  | outstanding
  | held (w : Word)
  deriving DecidableEq, Repr

/-- An address generator (04, Table 4.15). -/
structure AddrGen where
  base : Word := 0
  idx : Word := 0
  len : BitVec 16 := 0
  step : BitVec 16 := 0
  mode : BitVec 2 := 0
  deriving DecidableEq, Repr

/-- A hardware thread: its place in the fork pool and the registers of Tables 4.2, 4.11 and 6.5. -/
structure Thread where
  state : TState
  wait : WaitFor := .nothing
  row : Nat := 0
  borrowed : Bool := false
  parent : Option Nat := none
  cause : Byte := 0
  pc : Word := 0
  g : Tab Word := []
  a : Tab (BitVec 40) := []
  ag : Tab AddrGen := []
  tsr : Word := 0x20
  etsr : Word := 0
  epc : Word := 0
  ecause : Word := 0
  eval : Word := 0
  tsp : Word := 0
  rtvec : Word := 0
  rstk : List Word := []
  rsTop : Nat := 0
  rsWrapped : Bool := false
  xar : Tab (BitVec 10) := []
  tpri : Word := 0x31
  tevt : Word := 0
  tcmp : Word := 0
  haltq : List Nat := []
  haltOvf : Bool := false
  compl : Tab Compl := []
  deriving DecidableEq, Repr

/-- A MACsec secure association (14, R504-R508). -/
structure SaEntry where
  key : BitVec 256 := 0
  salt : BitVec 96 := 0
  suite : BitVec 2 := 0
  valid : Bool := false
  deriving DecidableEq, Repr

/-- A helper request that has issued and not completed (13, R464): the thread's code, the completion register, the helper, the
device address of the descriptor and the argument word; `sa` is the association in force when an AES-GCM request was accepted
(14, R505), `stamp` the slot whose first byte an EGRESS_TS waits for. -/
structure HelperReq where
  t : Nat
  cn : Nat
  h : Nat
  desc : Nat
  arg : Word
  sa : SaEntry := {}
  stamp : Option Nat := none
  deriving DecidableEq, Repr

/-! ## Taproot -/

/-- The power mode of the device (02, R70-R76). -/
inductive Mode where
  | powerOnReset | running | standbyEntry | standby | vioLost
  deriving DecidableEq, Repr

/-- A clock source: REF_SYS or a PLL (02, R60, R77-R79). -/
inductive ClkState where
  | off | starting | running | failed
  deriving DecidableEq, Repr

/-- Power-domain and wake state that no register holds; `stby` says that VIO was lost in standby, `firstOpen` that the slow-clock
cycle in which an enabled source ended standby still runs (R51). -/
structure Taproot where
  mode : Mode := .powerOnReset
  testEn : Bool := false
  srdGood : Bool := true
  srhGood : Bool := true
  vio18Good : Bool := true
  vioGood : Bool := true
  refSys : ClkState := .off
  plls : Tab ClkState := []
  wakeQual : Tab Bool := []
  vbatLoArmed : Bool := true
  vbatHiArmed : Bool := true
  hwReq : Tab Bool := []
  warmHeld : Bool := false
  stby : Bool := false
  firstOpen : Bool := false
  deriving DecidableEq, Repr

/-- Counts of the slow clock (02, R44; 17, R711). `wdtKeys` are the writes of WDT_KEY that the next edge judges, oldest first, each with
whether its writer has warden privilege (17, R617). -/
structure Slow where
  phase : Nat := 0
  counted : Bool := false
  wdtCycles : Nat := 0
  wdtArmed : Option Nat := none
  wdtKeys : List (Bool × Word) := []
  rowWdtCycles : Tab Nat := []
  deriving DecidableEq, Repr

/-- Fuses: they survive every reset (01, Table 1.7). `idKey` is the identity private key (03, R92), which no access reads. -/
structure Fuses where
  uid : BitVec 64 := 0
  gradeA1 : Bool := false
  minVer : BitVec 6 := 0
  revoked : BitVec 4 := 0
  dbgDis : Bool := false
  recovEn : Bool := false
  keys : Tab (BitVec 256) := []
  vendor : BitVec 16 := 0
  mfrId : BitVec 11 := 0
  recovProfile : List (Nat × Word) := []
  idKey : BitVec 256 := 1
  deriving DecidableEq, Repr

/-- Boot state that no register holds (03): the key slot of the running rootstock image, whether a staged image is being verified,
whether RELEASE has been written, the nonce of the last CHALLENGE that no RESPONSE has used; `rsStore` and `fabStore` name the store
slot of the running rootstock and fabric image, where it came from the store (16, R574); `hostOpen` is whether PF 0 might write the
staging registers when the verification began (R89), `boughsOn` whether the boughs have started (R80, Table 3.2). -/
structure Boot where
  rsKey : Option (Fin 4) := none
  verifying : Bool := false
  released : Bool := false
  dbgNonce : Option Bytes := none
  hostOpen : Bool := false
  boughsOn : Bool := false
  rsStore : Option Nat := none
  fabStore : Option Nat := none
  deriving DecidableEq, Repr

/-! ## Loops, phases and converters -/

/-- A voltage loop's engine (07). `ramp` and `vramp` in 1 uV, `v` and `boost` in 0.25 mV; `settling` holds the bough requests
whose BUD_ACK is due after so many more periods. -/
structure LoopSt where
  ramp : Option Int := none
  vramp : Int := 0
  v : Int := 0
  ePrev : Int := 0
  sigma : Int := 0
  u : Int := 0
  sample : Option Nat := none
  inPeriod : Bool := false
  startAt : Nat := 0
  pgCount : Nat := 0
  boost : Nat := 0
  wakes : List Nat := []
  wakeCancel : List Nat := []
  settling : List (Nat × Nat) := []
  cmdPend : Bool := false
  hints : Nat := 0
  bank : Nat := 0
  deCount : Nat := 0
  deLeave : Bool := false
  telN : Nat := 0
  telV : Int := 0
  telI : Int := 0
  telP : Int := 0
  telT : Int := 0
  peakClr : Bool := false
  eoutAcc : Int := 0
  eoutRoll : Int := 0
  eoutN : Nat := 0
  avsWrote : Bool := false
  otherWrote : Bool := false
  pgoodHigh : Bool := false
  deriving DecidableEq, Repr

/-- What a PWM pin does (07, R220): mid-level, low, or in each period high from its rise edge to its fall edge and low else. -/
inductive Pwm where
  | mid | low | edges
  deriving DecidableEq, Repr

/-- A power phase (07, 08). `rise` and `fall` are ticks of 78.125 ps from the period start; `carry` is an on-time that began in
the period before: its rise, before the period start, and its fall. `startMid` and `endMid` tell that the pin is at mid-level and not
low before the rise edge and after the fall edge (R233, R241). -/
structure PhaseSt where
  pwm : Pwm := .mid
  pruneLeft : Nat := 0
  rise : Nat := 0
  fall : Nat := 0
  carry : Option (Int × Int) := none
  sum : Int := 0
  cnt : Nat := 0
  iPer : Int := 0
  startMid : Bool := false
  endMid : Bool := false
  deriving DecidableEq, Repr

/-- A fast converter (08): the slot whose conversion is in progress (none: home sampling), the slots waiting, the count. -/
structure ConvSt where
  busy : Option Nat := none
  waiting : List Nat := []
  seq : Nat := 0
  deriving DecidableEq, Repr

/-- Converter state shared by all (08). `held` lists the settings still in force of slots and calibrations written since
(R300); `listAct` the list entries in force (R289); `listPos` the entry a precision list is at, 8 when it has finished. -/
structure CnvSt where
  held : Tab Word := []
  cmpRun : Tab Nat := []
  postLeft : Option Nat := none
  listAct : Tab Word := []
  listPos : Tab Nat := []
  listDue : Tab Bool := []
  pSeq : Tab Nat := []
  tempAt : Tab Nat := []
  xtempAt : Tab Nat := []
  thermX : Option (Word × Nat) := none
  deriving DecidableEq, Repr

/-! ## Harness, fans, battery -/

/-- A governor channel (09). `acc` and `pre` in units of 0.25 mV x 10 mA x 100 ns; `openT` and `below` in ticks of 100 ns;
`emax`, `itrip`, `close` and `wmax` are the settings that the open event took (R308); `cutPhases` those a cut has shed. -/
structure GovSt where
  acc : Nat := 0
  isOpen : Bool := false
  openT : Nat := 0
  below : Nat := 0
  emax : Nat := 0
  itrip : Nat := 0
  close : Nat := 0
  wmax : Nat := 0
  cut : Bool := false
  cutPhases : List Nat := []
  pre : Nat := 0
  hold : Bool := false
  deriving DecidableEq, Repr

/-- The battery estimator (10): the charge Q in mA us, FCC in mAh, the measurements and when the last current result came (us),
`hist` the results of the last 60 s behind I_avg, each with its time in us, and the table values still in force (R365). -/
structure BatSt where
  q : Int := 0
  fcc : Nat := 0
  firstDue : Bool := false
  estDone : Bool := false
  vbat : Int := 0
  vSeen : Bool := false
  i : Int := 0
  t : Int := 0
  lastI : Option Nat := none
  paused : Bool := false
  hist : List (Nat × Int) := []
  restSecs : Nat := 0
  resync : Bool := false
  held : Tab Word := []
  deriving DecidableEq, Repr

/-- What the estimator keeps in retention RAM beside words 0x000-0x007 (R349, R359, R361, R363): the open leg, and the RTC second and the
time in us of the last current result. `fill` marks words 0x008-0x0FF as written with contents that the spec does not lay out. -/
structure BatKeep where
  legOn : Bool := false
  legSoc : Int := 0
  legQ : Int := 0
  legGap : Bool := false
  lastSec : Nat := 0
  lastUs : Option Nat := none
  fill : Nat := 0
  deriving DecidableEq, Repr

/-! ## Buses -/

/-- What follows the held byte of a program-served transfer: nothing amiss, a write's PEC byte that is wrong or that is missing though
required (11, R390, R391), a process call's written block that breaks its count (R381). -/
inductive PmAfter where
  | fine | pecWrong | pecMissing | badCall
  deriving DecidableEq, Repr

/-- A program-served PMBus transfer whose byte is held (11, R393): whether it reads, whether the controller takes a PEC byte, the bytes that
the PEC covers so far, and what the rest of the transfer brings. -/
structure PmHold where
  read : Bool
  pec : Bool
  head : Bytes
  rest : PmAfter
  deriving DecidableEq, Repr

/-- The PMBus target (11): PAGE, WRITE_PROTECT, the latched status bits (`latSum` those of STATUS_WORD itself), the result of the last MFR_REG_WRITE, the alert pin. -/
structure PmSt where
  page : Nat := 0
  wp : Byte := 0
  latVout : Tab Byte := []
  latIout : Tab Byte := []
  latTemp : Tab Byte := []
  latMfr : Tab Byte := []
  latSum : Tab (BitVec 16) := []
  cml : Byte := 0
  busy : Bool := false
  regRes : Nat := 0
  alertLow : Bool := false
  hold : Option PmHold := none
  deriving DecidableEq, Repr

/-- A controller transaction in progress (11, R398); `sent` are the bytes that it writes. -/
structure CtlSt where
  proto : Nat
  addr : Nat
  wlen : Nat
  rlen : Nat
  pec : Bool
  sent : Bytes
  triesLeft : Nat
  lost : Bool := false
  deriving DecidableEq, Repr

/-! ## Rows and PCIe -/

/-- One entry of an MSI-X table. -/
structure MsixEntry where
  addr : BitVec 64 := 0
  data : Word := 0
  masked : Bool := true
  deriving DecidableEq, Repr

/-- Row state that no register holds (12, 13). `bars` are the six words of a function's base address registers (12, Table 12.6). -/
structure RowSt where
  mbIn : Tab Byte := []
  mbOut : Tab Byte := []
  mbCtl : Word := 0
  msix : Tab MsixEntry := []
  msixPend : Word := 0
  bme : Bool := false
  fnMask : Bool := false
  d0 : Bool := true
  bars : Tab Word := []
  hqWait : Tab (List Nat) := []
  dispQ : List Nat := []
  deriving DecidableEq, Repr

/-! ## Packet path -/

/-- A ticket's state (13, Table 13.3); a released ticket is in no domain any more. -/
inductive TickState where
  | issued | held | ready | void
  deriving DecidableEq, Repr

/-- A ticket of an order domain (13): its number, its frame's slot, and the thread that holds it. -/
structure Ticket where
  num : Nat
  slot : Nat
  state : TickState := .issued
  thr : Option Nat := none
  deriving DecidableEq, Repr

/-- A frame slot in use (13, Tables 13.4, 13.5): `off` is where the frame begins in its cells; `txTime` the DTB at which its
first byte left; `ends` the main-clock time at which its last byte has arrived, and `crcBad` that its FCS fails there (R458, R473). -/
structure Frame where
  row : Nat := 0
  src : Nat := 0
  dom : Nat := 0
  cells : List Nat := []
  len : Nat := 0
  off : Nat := 64
  bad : Bool := false
  dest : Nat := 127
  cls : Nat := 0
  rxTime : Nat := 0
  txTime : Option Nat := none
  ends : Nat := 0
  crcBad : Bool := false
  deriving DecidableEq, Repr

/-- The espalier (13). `reqRow` names the row for which each bough's ESP_BREQ bit was last set (R478). -/
structure EspSt where
  frames : Tab Frame := []
  gens : Tab Nat := []
  doms : Tab (List Ticket) := []
  egress : Tab (List Nat) := []
  reqRow : Tab Nat := []
  hintSent : Bool := false
  hintUpDue : Bool := false
  hintDnDue : Bool := false
  deriving DecidableEq, Repr

/-- A frame in transmission: its slot with the slot's generation, and the bytes that leave. -/
structure TxSt where
  slot : Nat
  gen : Nat
  data : Bytes
  deriving DecidableEq, Repr

/-- A port (14): whether PAUSE holds it, the frame it sends, and the PLCA settings in force (R503); `beaconAt` is the main-clock time of
the last BEACON, `sent` the frames started since, `lastEnd` when the last of them ended (R501). -/
structure PortSt where
  pause : Bool := false
  tx : Option TxSt := none
  plcaNow : Word := 0
  beaconAt : Option Nat := none
  sent : Nat := 0
  lastEnd : Nat := 0
  deriving DecidableEq, Repr

/-- The device time base (14, R510-R513). -/
structure DtbSt where
  frac : Nat := 0
  slewLeft : Int := 0
  slewPhase : Nat := 0
  deriving DecidableEq, Repr

/-- The ring engine (14, R515-R527). Node sets are masks by node ID; `wait` is the drawn back-off in slots, `startAt` the time of
START, `cycleAt` the DTB at the cycle start, `windowEnd` at which the node's window ends, `leaving` the nodes that have sent LEAVE. -/
structure RingSt where
  attempt : Nat := 0
  wait : Nat := 0
  collided : Bool := false
  startAt : Nat := 0
  inCycle : Bool := false
  cycleAt : Nat := 0
  heard : Nat := 0
  heardPrev : Nat := 0
  everHeard : Nat := 0
  leaving : Nat := 0
  windowOpen : Bool := false
  windowEnd : Nat := 0
  deriving DecidableEq, Repr

/-! ## USB, jobs, faults, graft -/

/-- USB (15). `bufs` are the EP1 OUT packets in their buffers, oldest first; `rx` the transfer taken from them so far and `whole`
that it is complete; `posted` the pending reasons in the order of their posts with the DTB of each; `fly` the notification that the
host has not acknowledged, with its reasons; `wakeBits` the reasons that ended or began the last exit from suspend; `change` the
hub's change bits of ports 1 and 2 (0 connect, 1 enable, 3 over-current); `resp` the packets queued on EP1 IN; `port3Susp` the selective
suspend of port 3. -/
structure UsbSt where
  vbus : Bool := false
  pullup : Bool := false
  addressed : Bool := false
  hubCfg : Bool := false
  fnCfg : Bool := false
  bufs : List Bytes := []
  rx : Bytes := []
  whole : Bool := false
  resp : List Bytes := []
  nonce : Option Bytes := none
  posted : List (Nat × Nat) := []
  fly : Option (Bytes × Nat) := none
  ntfSeq : Nat := 0
  wakeBits : Nat := 0
  change : Tab Byte := []
  port3Susp : Bool := false
  susp : Bool := false
  hostK : Bool := false
  cancelled : Bool := false
  droveK : Bool := false
  driving : Bool := false
  released : Bool := false
  wakeTries : Nat := 0
  retryDue : Bool := false
  gaveUp : Bool := false
  deriving DecidableEq, Repr

/-- States of a job (16). -/
inductive JobState where
  | queued | running | done
  deriving DecidableEq, Repr

/-- A job (16, Table 16.2): `pos` is POSITION, `pages` the pages programmed so far, `ended` that it has ended and its
completion record is still to be queued. -/
structure Job where
  tag : Nat
  owner : Nat
  op : Nat
  arg0 : Nat
  src : Nat
  dst : Nat
  len : Nat
  arg1 : Nat
  state : JobState := .queued
  status : Nat := 0
  pos : Nat := 0
  result : Nat := 0
  pages : Nat := 0
  ended : Bool := false
  deriving DecidableEq, Repr

/-- A completion record waiting to be read (16, Table 16.4). -/
structure Cpl where
  words : List Word := []
  tag : Nat := 0
  deriving DecidableEq, Repr

/-- The jobs engine and the store (16). -/
structure JobsSt where
  list : List Job := []
  cpl : Tab (List Cpl) := []
  cplShadow : Tab (List Word) := []
  nextTag : Nat := 0
  deriving DecidableEq, Repr

/-- The fault store's queue (17, R598). -/
structure FstSt where
  queue : List Bytes := []
  seq : Nat := 0
  deriving DecidableEq, Repr

/-- FAN_PWM_n (09, R317): the cycles of its 32,000 in which it is high, and whether high is left to an external pull-up. -/
structure FanPin where
  high : Nat
  openDrain : Bool
  deriving DecidableEq, Repr

/-- Output pins (20, Table 20.6), and the two shutdown comparators (09, R324, R325). `lanes` lists the domains whose serial-lane balls
are terminated and driven: the balls of every other domain are high impedance (R667). `fan` are the FAN_PWM_n that are driven, the others
being high impedance; `therm` is where TS_3, in 1/16 °C, and THERM_X, in microvolts, last stood for the comparators (log 81). -/
structure Pins where
  faultLow : Bool := false
  wdTrip : Bool := false
  shdnLow : Bool := false
  tripTs : Bool := false
  tripX : Bool := false
  therm : Option (Int × Int) := none
  fan : Tab (Option FanPin) := []
  usbPwr : Tab Bool := []
  lanes : Tab Bool := []
  deriving DecidableEq, Repr

/-- An epoch in transfer on the standby (18, R639, R640): its number, TOTAL and section count, the target bank, the byte ranges
that have arrived, and the DTB at its BEGIN. -/
structure GraftRx where
  epoch : Nat
  total : Nat
  nsec : Nat
  bank : Nat
  got : List (Nat × Nat)
  start : Nat
  deriving DecidableEq, Repr

/-- The graft link (18): what the partner's last HELLO said, the epoch in transfer, the job and the epoch that wait for an answer,
the next SEQ, and when PARTNER_TRIP qualified. -/
structure GraftSt where
  pSeen : Bool := false
  pActive : Bool := false
  pEpoch : Nat := 0
  pBank : Nat := 0
  rx : Option GraftRx := none
  txTag : Option Nat := none
  txEpoch : Nat := 0
  seq : Nat := 0
  tripAt : Nat := 0
  deriving DecidableEq, Repr

/-- What the device sends outside; a value a requester reads is sent to it. -/
inductive Out where
  | regRead (req : Req) (v : BitVec 64)
  | jtag (data : Bytes)
  | pmbus (data : Bytes)
  | pmNack
  | twoWire (n : Nat) (addr : Nat) (data : Bytes)
  | twClocks (n : Nat) (count : Nat)
  | avs (m : Nat) (w : Word)
  | msix (r v : Nat) (addr : BitVec 64) (data : Word)
  | hostWrite (r : Nat) (addr : BitVec 64) (data : Bytes)
  | configRetry (pf : Nat)
  | configDone (pf : Nat) (data : Word)
  | hostRead (r : Nat) (addr : BitVec 64) (n : Nat)
  | memRead (req : Req) (data : Bytes)
  | unsupported (req : Req)
  | frame (port : Nat) (data : Bytes) (bad : Bool)
  | ring (east : Bool) (data : Bytes)
  | plcaBeacon (i cnt : Nat)
  | graft (data : Bytes)
  | usbAck
  | usbNyet
  | usbNak
  | usbData (ep : Nat) (data : Bytes)
  | usbK (on : Bool)
  deriving DecidableEq, Repr

/-- The whole machine. `pending` is the queue of waiting commands, first in first out; `freeCtr` is the model's own count of
free values taken; `clk` the nanoseconds that idle steps have let pass; `out` the log of what was sent, newest first; `admOff` lists
the units that have adopted ADMIN = 0 (17, R608); `fanForced` says that the fans are forced to full speed (09, R321). -/
structure State where
  pending : List Instr := []
  freeCtr : Nat := 0
  clk : Nat := 0
  out : List Out := []
  regs : Tab Word := []
  rdShadow : Tab (Nat × Word) := []
  wrShadow : Tab (Nat × Word) := []
  mem : List Host.Cell := []
  rsMem : List Host.Cell := []
  nv : List Host.Cell := []
  nvCounts : Tab Nat := []
  fill : Tab Nat := []
  rram : Tab Word := []
  ecc : Tab Nat := []
  rsEcc : Tab Nat := []
  rramEcc : Tab Nat := []
  nvEcc : Tab Nat := []
  saEcc : Tab Nat := []
  threads : Tab Thread := []
  helpers : List HelperReq := []
  tap : Taproot := {}
  slow : Slow := {}
  admOff : Tab Bool := []
  fuses : Fuses := {}
  boot : Boot := {}
  loops : Tab LoopSt := []
  phases : Tab PhaseSt := []
  convs : Tab ConvSt := []
  cnv : CnvSt := {}
  gov : Tab GovSt := []
  fanForced : Bool := false
  bat : BatSt := {}
  batKeep : BatKeep := {}
  pm : PmSt := {}
  ctl : Tab (Option CtlSt) := []
  rows : Tab RowSt := []
  perst : Bool := false
  esp : EspSt := {}
  ports : Tab PortSt := []
  saMaster : Tab SaEntry := []
  saCopies : Tab (Tab SaEntry) := []
  msecBusy : Option Nat := none
  dtb : DtbSt := {}
  ring : RingSt := {}
  usb : UsbSt := {}
  jobs : JobsSt := {}
  fst : FstSt := {}
  pins : Pins := {}
  graft : GraftSt := {}
  deriving DecidableEq, Repr

/-- Why the machine could stop with a fault. No rule of the spec gives the device such a stop: a refused access, an exception
of a thread, a fault bit and the safe state are next states, so no command raises one and the type is empty. -/
inductive Fault where
  deriving DecidableEq, Repr

/-- Why a command could have no meaning. -/
inductive Refusal where
  /-- The command's arm has no meaning yet. Raised by exec's arm of that mnemonic alone; safe, since no next state is claimed. -/
  | notModelled (mnemonic : String)
  deriving DecidableEq, Repr

/-- The machine in taproot power-on reset: every register at its cold value, every memory with nothing listed, no command
waiting. COLD_START leaves this state. -/
def State.reset : State := {}

end Sys2Proof.Machine
end

