-- ==== Sys2Proof/Machine/Tab.lean ====
section
/-! DEFINITION. Sparse tables in one canonical form: finding, writing and removing an entry. A table stands for a total
function: a key it does not list reads as the default of the table, given at each access. -/

namespace Sys2Proof.Machine

/-- The value listed for key `k`, if any. -/
def tabFind {α : Type} (k : Nat) : Tab α → Option α
  | [] => none
  | (j, v) :: t => if j = k then some v else tabFind k t

/-- The table with `v` listed for key `k`, keys kept rising. -/
def tabPut {α : Type} (k : Nat) (v : α) : Tab α → Tab α
  | [] => [(k, v)]
  | (j, w) :: t => if k < j then (k, v) :: (j, w) :: t else if k = j then (k, v) :: t else (j, w) :: tabPut k v t

/-- The table without key `k`. -/
def tabDel {α : Type} (k : Nat) : Tab α → Tab α
  | [] => []
  | (j, w) :: t => if j = k then tabDel k t else (j, w) :: tabDel k t

/-- What key `k` reads as, `d` being what the unlisted key reads as. -/
def tabGet {α : Type} (d : α) (k : Nat) (t : Tab α) : α := (tabFind k t).getD d

/-- Writes `v` for key `k`: writing what the unlisted key reads as removes the entry. -/
def tabSet {α : Type} [DecidableEq α] (d : α) (k : Nat) (v : α) (t : Tab α) : Tab α :=
  if v = d then tabDel k t else tabPut k v t

/-- Only the entries whose key satisfies `p`: every other key goes back to what the unlisted key reads as. -/
def tabKeep {α : Type} (p : Nat → Bool) (t : Tab α) : Tab α := t.filter (fun c => p c.1)

/-- The keys of the table all lie above `k`. -/
def tabAbove {α : Type} (k : Nat) : Tab α → Bool
  | [] => true
  | (j, _) :: t => decide (k < j) && tabAbove k t

/-- The canonical form: keys strictly rising, no entry equal to what its key reads as when unlisted. -/
def tabWf {α : Type} [DecidableEq α] (d : Nat → α) : Tab α → Bool
  | [] => true
  | (j, v) :: t => decide (v ≠ d j) && tabAbove j t && tabWf d t

end Sys2Proof.Machine
end

