-- ==== Sys2Proof/Machine/Ops.lean ====
section
/-! DEFINITION. The operations that every family of commands shares: registers, free values, bytes, readiness, thread lookup,
events, faults with their records and the safe state, refused accesses, memories with their check bits. -/

namespace Sys2Proof.Machine

/-- The outcome of a command: always a next state. -/
abbrev Res := Host.Outcome State Fault Refusal

/-! ## Registers of the window -/

/-- The stored word of the register at window offset `off`. -/
def State.reg (s : State) (off : Nat) : Word := tabGet (coldWord off) off s.regs

/-- Stores a whole register word. -/
def State.setReg (s : State) (off : Nat) (v : Word) : State := { s with regs := tabSet (coldWord off) off v s.regs }

/-- A field's value in a register word. -/
def Fld.get (f : Fld) (w : Word) : Nat := w.toNat / 2 ^ f.lo % 2 ^ f.w

/-- A register word with one field replaced (the value's low bits). -/
def Fld.put (f : Fld) (v : Nat) (w : Word) : Word :=
  BitVec.ofNat 32 (w.toNat - f.get w * 2 ^ f.lo + v % 2 ^ f.w * 2 ^ f.lo)

/-- The current value of a field. -/
def State.fld (s : State) (f : Fld) : Nat := f.get (s.reg f.off)

/-- Replaces a field. -/
def State.setFld (s : State) (f : Fld) (v : Nat) : State := s.setReg f.off (f.put v (s.reg f.off))

/-- Whether a field is nonzero. -/
def State.flag (s : State) (f : Fld) : Bool := s.fld f != 0

/-- Two's complement of `w` bits. -/
def toSigned (w v : Nat) : Int := if v < 2 ^ (w - 1) then (v : Int) else (v : Int) - (2 ^ w : Nat)

/-- The low `w` bits of an integer, as the hardware holds it. -/
def ofSigned (w : Nat) (v : Int) : Nat := (v % ((2 ^ w : Nat) : Int)).toNat

/-- A field read as a signed value. -/
def State.sfld (s : State) (f : Fld) : Int := toSigned f.w (s.fld f)

/-- Adds `k` to a counting field, which saturates at `top`. -/
def State.satAdd (s : State) (f : Fld) (k top : Nat) : State := s.setFld f (min top (s.fld f + k))

/-- `f s` where the condition holds, else `s` itself. -/
def State.when (s : State) (c : Bool) (f : State → State) : State := if c then f s else s

/-- An integer held between two bounds. -/
def clampI (lo hi v : Int) : Int := if v < lo then lo else if hi < v then hi else v

/-- An integer held between two programmable bounds; bounds that cross give a free value (log 1). -/
def clampX (lo hi v : Int) : Int := if hi < lo then Config.crossed lo hi v else clampI lo hi v

/-- A quotient whose rounding the spec does not state: the floor or one more (log 1). -/
def divFree (a : Int) (n : Nat) : Int :=
  a / (n : Int) + (if a % (n : Int) = 0 then 0 else if Config.roundUp a n then 1 else 0)

/-- `x` shifted right arithmetically by `k`. -/
def asr (x : Int) (k : Nat) : Int := x / ((2 ^ k : Nat) : Int)

/-- A 64-bit pair of registers as one number. -/
def State.pair (s : State) (lo hi : Nat) : Nat := (s.reg lo).toNat + (s.reg hi).toNat * 2 ^ 32

/-- Stores a 64-bit pair. -/
def State.setPair (s : State) (lo hi v : Nat) : State :=
  (s.setReg lo (BitVec.ofNat 32 v)).setReg hi (BitVec.ofNat 32 (v / 2 ^ 32))

/-- Whether bit `n` of a word is 1. -/
def bitOf (w : Word) (n : Nat) : Bool := w.toNat.testBit n

/-- Appends to the log of what was sent. -/
def State.send (s : State) (o : Out) : State := { s with out := o :: s.out }

/-! ## Bytes -/

/-- The `n` low bytes of a number, least significant first (00, R4). -/
def leBytes : Nat → Nat → Bytes
  | 0, _ => []
  | n + 1, v => BitVec.ofNat 8 v :: leBytes n (v / 256)

/-- The number that bytes hold, least significant first. -/
def leNat : Bytes → Nat
  | [] => 0
  | b :: bs => b.toNat + 256 * leNat bs

/-- The `n` low bytes of a number, most significant first (00, R5). -/
def beBytes (n v : Nat) : Bytes := (leBytes n v).reverse

/-- The number that bytes hold, most significant first. -/
def beNat (bs : Bytes) : Nat := leNat bs.reverse

/-- `n` bytes of a list from position `i`. -/
def slice {α : Type} (i n : Nat) (l : List α) : List α := (l.drop i).take n

/-- One step of a reflected CRC of `w` bits with polynomial `p`. -/
def crcBit (p : Nat) (c : Nat) : Nat := if c % 2 = 1 then (c / 2) ^^^ p else c / 2

/-- CRC-32 of IEEE 802.3 over bytes: reflected, all ones in and out. -/
def crc32Ieee (bs : Bytes) : Nat :=
  (bs.foldl (fun c b => (List.range 8).foldl (fun c _ => crcBit 0xEDB88320 c) (c ^^^ b.toNat)) 0xFFFFFFFF) ^^^ 0xFFFFFFFF

/-- One step of the SMBus PEC, polynomial x^8 + x^2 + x + 1. -/
def crc8Bit (c : Nat) : Nat := if 128 ≤ c then (c * 2 % 256) ^^^ 7 else c * 2 % 256

/-- The SMBus PEC of a byte string. -/
def crc8 (bs : Bytes) : Nat := bs.foldl (fun c b => (List.range 8).foldl (fun c _ => crc8Bit c) (c ^^^ b.toNat)) 0

/-! ## Free values (log 1) -/

/-- The next free word. -/
def State.nextFree (s : State) : Word := Config.freeWord s.freeCtr

/-- The state after a free value has been taken. -/
def State.tookFree (s : State) : State := { s with freeCtr := s.freeCtr + 1 }

/-! ## Time, power and readiness -/

/-- The RTC seconds (02, R44). -/
def State.rtcSec (s : State) : Nat := s.pair R.TAP_RTC_SEC_LO R.TAP_RTC_SEC_HI

/-- The time word of the fault records: {TAP_RTC_SEC[16:0], TAP_RTC_SUB[14:0]} (17, "Fault records"). -/
def State.faultTime (s : State) : Nat := s.rtcSec % 2 ^ 17 * 2 ^ 15 + s.fld R.TAP_RTC_SUB_SUB

/-- The device time base (14, R510). -/
def State.dtbNow (s : State) : Nat := s.pair R.DTB_LO R.DTB_HI

/-- Whether domain `d` is granted: bit `d` of PDC_GRANT (02, R60). -/
def State.granted (s : State) (d : Nat) : Bool := bitOf (s.reg R.PDC_GRANT) d

/-- Whether readiness bit `n` of 0-63 is 1 (01, Table 1.9). -/
def State.ready (s : State) (n : Nat) : Bool :=
  bitOf (s.reg (if n < 32 then R.IDR_READY_0 else R.IDR_READY_1)) (n % 32)

/-- Whether the device is in the safe state (17, R600). -/
def State.safe (s : State) : Bool := s.flag R.FLT_SAFE_SAFE

/-- Sets bit `n` of the word at `off`. -/
def State.setBit (s : State) (off n : Nat) : State := s.setReg off (s.reg off ||| BitVec.ofNat 32 (2 ^ n))

/-- Clears bit `n` of the word at `off`. -/
def State.clrBit (s : State) (off n : Nat) : State := s.setReg off (s.reg off &&& ~~~ BitVec.ofNat 32 (2 ^ n))

/-! ## Threads -/

/-- The key of a thread: its code, or 512 + its number on the rootstock pair. -/
def thrKey : Thr → Nat
  | .scion t => t.val
  | .rs t => 512 + t.val

/-- What an unlisted thread holds: scion threads belong to no row, rootstock threads are idle at warden level (log 7). -/
def threadDflt (k : Nat) : Thread :=
  if k < 512 then { state := .unassigned } else { state := .idle, tsr := 0x820 }

/-- Thread `k`. -/
def State.thr (s : State) (k : Nat) : Thread := tabGet (threadDflt k) k s.threads

/-- Replaces thread `k`. -/
def State.setThr (s : State) (k : Nat) (t : Thread) : State :=
  { s with threads := tabSet (threadDflt k) k t s.threads }

/-- Changes thread `k`. -/
def State.updThr (s : State) (k : Nat) (f : Thread → Thread) : State := s.setThr k (f (s.thr k))

/-- The bough of a scion thread's code. -/
def boughOf (k : Nat) : Nat := k / 64

/-- Whether a thread state takes event posts (06, R215). -/
def TState.takesEvents : TState → Bool
  | .run | .wait | .halted => true
  | .idle | .done | .unassigned => false

/-- A post to input `i` of thread `k` (06, R191, R215). -/
def State.post (s : State) (k i : Nat) : State :=
  if (s.thr k).state.takesEvents then
    s.updThr k (fun t => { t with tevt := t.tevt ||| BitVec.ofNat 32 (2 ^ (i % 8)) })
  else s

/-! ## Rows -/

/-- Row `r`'s state. -/
def State.row (s : State) (r : Nat) : RowSt := tabGet {} r s.rows

/-- Changes row `r`'s state. -/
def State.updRow (s : State) (r : Nat) (f : RowSt → RowSt) : State :=
  { s with rows := tabSet {} r (f (s.row r)) s.rows }

/-! ## Routed events (17, R591, R592) -/

/-- Delivers an event to the destination of a routing word; the flag says that it was discarded under R592. -/
def State.deliver (s : State) (route : Word) : State × Bool :=
  let w := route.toNat
  let evt := if w / 4 % 8 < 6 then w / 4 % 8 else 5
  match w % 4 with
  | 1 => let code := w / 256 % 512
         if s.granted (4 + boughOf code) then (s.post code evt, false) else (s, true)
  | 2 => let vec := w / 256 % 32
         if s.granted 15 then
           (s.updRow (w / 2 ^ 16 % 8) (fun r => { r with msixPend := r.msixPend ||| BitVec.ofNat 32 (2 ^ vec) }), false)
         else (s, true)
  | 3 => (s.post (512 + w / 256 % 8) evt, false)
  | _ => (s, false)

/-! ## Fault blocks (17, Table 17.9) -/

/-- The offset of block `b`'s fault status register; _EN and _ROUTE follow it, but for row watchdogs. -/
def faultStatusOff (b : Nat) : Nat :=
  if b = 1 then R.TAP_FAULT_STATUS else if b = 2 then R.WDT_FAULT_STATUS else if b = 3 then R.FLT_SYS_STATUS
  else if b = 4 then R.SEC_FAULT_STATUS else if b < 9 then R.LOOP_FAULT_STATUS (b - 5)
  else if b = 9 then R.CNV_FAULT_STATUS else if b = 10 then R.GOV_FAULT_STATUS else if b = 11 then R.FAN_FAULT_STATUS
  else if b = 12 then R.BAT_FAULT_STATUS else if b = 13 then R.TW_FAULT_STATUS else if b = 14 then R.NV_FAULT_STATUS
  else if b = 15 then R.ESP_FAULT_STATUS else if b < 24 then R.ROW_FAULT_STATUS (b - 16)
  else if b < 32 then R.ROW_WDT_STAT (b - 24) else if b < 40 then R.BGH_FAULT_STATUS (b - 32)
  else if b < 76 then R.PORT_FAULT_STATUS (b - 40) else if b = 76 then R.PCIE_FAULT_STATUS
  else if b = 77 then R.USB_FAULT_STATUS else if b = 78 then R.GRAFT_FAULT_STATUS else R.RING_FAULT_STATUS

/-- The class of bit `bit` of block `b` (17, Table 17.2 and the field table of each block): 1 corrected, 2 contained, 3 fatal. -/
def faultClass (b bit : Nat) : Nat :=
  if b = 1 then (if bit = 1 then 3 else if bit = 3 then 1 else 2)
  else if b = 2 then (if bit = 0 then 3 else 2)
  else if b = 3 then (if bit < 3 then 3 else if bit = 4 then 2 else 1)
  else if b = 4 then (if bit = 0 then 3 else 2)
  else if b = 5 then (if bit = 0 then 3 else 2)
  else if b = 9 then (if bit = 2 then 1 else 2)
  else if b = 14 then (if bit = 2 then 1 else 2)
  else if 32 ≤ b ∧ b < 40 then (if bit % 2 = 0 then 1 else 2)
  else if 40 ≤ b ∧ b < 76 then (if bit = 2 then 1 else 2)
  else if b = 79 then (if bit = 3 then 1 else 2)
  else 2

/-- The routing word of block `b`'s events. -/
def State.faultRoute (s : State) (b : Nat) : Word :=
  if 24 ≤ b ∧ b < 32 then s.reg (R.ROW_WDT_ROUTE (b - 24)) else s.reg (faultStatusOff b + 8)

/-- Whether block `b`'s event for `bit` is enabled. A row watchdog has no enable (17, R622). -/
def State.faultEnabled (s : State) (b bit : Nat) : Bool :=
  if 24 ≤ b ∧ b < 32 then true else bitOf (s.reg (faultStatusOff b + 4)) bit

/-- R593, R594: the record set of block `b` after `n` faults, the lowest bit being `bit`. -/
def State.faultRecord (s : State) (b bit cls n : Nat) : State :=
  let w := BitVec.ofNat 32 (2 ^ 31 + cls * 2 ^ 8 + bit % 32)
  let t := BitVec.ofNat 32 s.faultTime
  let s := if s.flag (R.FLT_FIRST_VALID b) then s else (s.setReg (R.FLT_FIRST b) w).setReg (R.FLT_FIRST_T b) t
  ((s.setReg (R.FLT_LAST b) w).setReg (R.FLT_LAST_T b) t).satAdd (R.FLT_CNT_COUNT b) n 65535

/-- A store record up to its CRC (17, Table 17.4), SEQ still 0: it is numbered when it is programmed. -/
def State.storeRecord (s : State) (b bit cls : Nat) (status : Word) (detail : Bytes) : Bytes :=
  [0x46, 0x4C, 0x01, BitVec.ofNat 8 cls] ++ leBytes 4 0 ++ [BitVec.ofNat 8 b, BitVec.ofNat 8 bit, 0, 0]
    ++ leBytes 6 s.rtcSec ++ leBytes 2 (s.fld R.TAP_RTC_SUB_SUB)
    ++ leBytes 8 (if s.ready 30 then s.dtbNow else 0) ++ leBytes 4 status.toNat ++ (detail ++ List.replicate 28 0).take 28

/-- R596, R598, R661: offers a record to the fault store; the flag says that it was lost, the queue or the store being full. -/
def State.offerRecord (s : State) (cls : Nat) (rec : Bytes) : State × Bool :=
  let m := s.fld R.FLT_NV_CFG_MINCLASS
  if m = 0 ∨ cls < m then (s, false)
  else if s.fst.seq = 0xFFFFFFFF then (s.satAdd R.FLT_NV_STAT_DROP 1 65535, true)
  else if s.fst.queue.length < 16 then ({ s with fst := { s.fst with queue := s.fst.queue ++ [rec] } }, false)
  else (s.satAdd R.FLT_NV_STAT_DROP 1 65535, true)

/-- R600: a fatal fault of block `b` enters the safe state; FLT_SAFE names the first since the last reset. -/
def State.enterSafe (s : State) (b bit : Nat) : State :=
  let s := if s.fld R.FLT_SAFE_FATAL_CNT = 0 then (s.setFld R.FLT_SAFE_BLOCK b).setFld R.FLT_SAFE_BIT bit else s
  { (s.setFld R.FLT_SAFE_SAFE 1).satAdd R.FLT_SAFE_FATAL_CNT 1 255 with pins := { s.pins with faultLow := true } }

/-! ### Status bits that the PMBus latches (11, Table 11.4, R383, R386) -/

/-- The alert pin after a latched bit rose whose place in Table 11.4 is `i`. -/
def State.pmAlert (s : State) (i : Nat) : State :=
  if bitOf (s.reg R.TW_0_AMASK) i then s else { s with pm := { s.pm with alertLow := true } }

/-- The sources of the summary bits 15, 14, 5, 4, 2 and 1 of STATUS_WORD of page `x` (Table 11.4). -/
def PmSt.sources (p : PmSt) (x : Nat) : BitVec 16 :=
  let vout := tabGet 0 x p.latVout
  let iout := tabGet 0 x p.latIout
  (if vout = 0 then 0 else 0x8000) ||| (if iout = 0 then 0 else 0x4000) ||| (if vout.msb then 0x20 else 0)
    ||| (if iout.msb then 0x10 else 0) ||| (if tabGet 0 x p.latTemp = 0 then 0 else 4) ||| (if p.cml = 0 then 0 else 2)

/-- The source of bit 0 of page `x`: a bit of STATUS_WORD [15:8], of which bit 11 is live. -/
def State.noneSource (s : State) (x : Nat) : Bool :=
  tabGet 0 x s.pm.latSum &&& 0xC000 != 0 || !(tabGet {} x s.loops).pgoodHigh

/-- The latched summary bits with their places in Table 11.4 (log 82). -/
def sumBits : List (Nat × Nat) := [(5, 13), (4, 14), (2, 15), (1, 16), (0, 17), (15, 18), (14, 19)]

/-- The sources `up` of page `x` have risen, and that of bit 0 was `none` before: what rises with them is latched (R383). -/
def State.latchSums (s : State) (x : Nat) (up : BitVec 16) (none : Bool) : State :=
  let old := tabGet 0 x s.pm.latSum
  let t := { s with pm := { s.pm with latSum := tabSet 0 x (old ||| up) s.pm.latSum } }
  let new := if !none && t.noneSource x then old ||| up ||| 1 else old ||| up
  let t := { s with pm := { s.pm with latSum := tabSet 0 x new s.pm.latSum } }
  sumBits.foldl (fun t b => if new.getLsbD b.1 && !old.getLsbD b.1 then t.pmAlert b.2 else t) t

/-- A latched bit whose place in Table 11.4 is `i` takes the value that `f` gives it. Where it rises, the pin is driven and the summary bits
whose sources rise with it are latched (R383, R386). -/
def State.pmRaise (s : State) (f : PmSt → PmSt) (i : Nat) : State :=
  if f s.pm = s.pm then s
  else
    let t := ({ s with pm := f s.pm }).pmAlert i
    [0, 1, 2, 3].foldl (fun t x => t.latchSums x ((f s.pm).sources x &&& ~~~ s.pm.sources x) (s.noneSource x)) t

/-- Latches `bit` of STATUS_VOUT of page `x`. -/
def State.latchVout (s : State) (x bit i : Nat) : State :=
  s.pmRaise (fun p => { p with latVout := tabSet 0 x (tabGet 0 x p.latVout ||| BitVec.ofNat 8 (2 ^ bit)) p.latVout }) i

/-- Latches `bit` of STATUS_IOUT of page `x`. -/
def State.latchIout (s : State) (x bit i : Nat) : State :=
  s.pmRaise (fun p => { p with latIout := tabSet 0 x (tabGet 0 x p.latIout ||| BitVec.ofNat 8 (2 ^ bit)) p.latIout }) i

/-- Latches `bit` of STATUS_TEMPERATURE of page `x`. -/
def State.latchTemp (s : State) (x bit i : Nat) : State :=
  s.pmRaise (fun p => { p with latTemp := tabSet 0 x (tabGet 0 x p.latTemp ||| BitVec.ofNat 8 (2 ^ bit)) p.latTemp }) i

/-- Latches `bit` of STATUS_MFR_SPECIFIC of page `x`. -/
def State.latchMfr (s : State) (x bit i : Nat) : State :=
  s.pmRaise (fun p => { p with latMfr := tabSet 0 x (tabGet 0 x p.latMfr ||| BitVec.ofNat 8 (2 ^ bit)) p.latMfr }) i

/-- Sets `bit` of STATUS_CML, which is common to all pages. -/
def State.latchCml (s : State) (bit i : Nat) : State := s.pmRaise (fun p => { p with cml := p.cml ||| BitVec.ofNat 8 (2 ^ bit) }) i

/-- Latches BUSY. -/
def State.latchBusy (s : State) : State := s.pmRaise (fun p => { p with busy := true }) 12

/-- What a rise of fault bit `bit` of block `b` latches in the PMBus status. -/
def State.pmLatch (s : State) (b bit : Nat) : State :=
  if 5 ≤ b ∧ b < 9 then
    if bit = 0 then s.latchVout (b - 5) 7 0 else if bit = 2 then s.latchVout (b - 5) 4 1 else s
  else if b = 10 ∧ bit < 2 then (s.latchIout (2 + bit) 7 2).latchMfr (2 + bit) 0 10
  else if b = 11 ∧ bit = 12 then [0, 1, 2, 3].foldl (fun s x => s.latchTemp x 7 4) s
  else if b = 11 ∧ bit < 4 then [0, 1, 2, 3].foldl (fun s x => s.latchTemp x 6 5) s
  else s

/-! ### Raising faults -/

/-- R586-R600 for faults of block `b` on the status bits `bits` (ascending) in one cycle. The fuel bounds the chain
ROUTE_LOST, NV_DROP that a lost event or a lost record starts (R592, R598). -/
def State.raiseFuel : Nat → State → Nat → List Nat → Bytes → State
  | 0, s, _, _, _ => s
  | _ + 1, s, _, [], _ => s
  | fuel + 1, s, b, bit :: more, detail =>
    let bits := bit :: more
    let off := faultStatusOff b
    let old := s.reg off
    let s := bits.foldl (fun s i => s.setBit off i) s
    let risen := bits.filter (fun i => !bitOf old i)
    let s := s.faultRecord b bit (faultClass b bit) bits.length
    let s := risen.foldl (fun s i => s.pmLatch b i) s
    let s := bits.foldl (fun s i => if faultClass b i = 3 then s.enterSafe b i else s) s
    let s := bits.foldl (fun s i =>
      let r := s.offerRecord (faultClass b i) (s.storeRecord b i (faultClass b i) (s.reg off) detail)
      if r.2 && !(b == 3 && i == 7) then State.raiseFuel fuel r.1 3 [7] [] else r.1) s
    let events := if 24 ≤ b ∧ b < 32 then bits else risen.filter (fun i => s.faultEnabled b i)
    events.foldl (fun s i =>
      let r := s.deliver (s.faultRoute b)
      if r.2 && !(b == 3 && i == 6) then State.raiseFuel fuel r.1 3 [6] [] else r.1) s

/-- A fault of block `b` on the bits `bits` in one cycle, with the DETAIL of its store record. -/
def State.raiseD (s : State) (b : Nat) (bits : List Nat) (detail : Bytes) : State := State.raiseFuel 6 s b bits detail

/-- A fault of block `b` on one bit. -/
def State.fault (s : State) (b bit : Nat) : State := s.raiseD b [bit] []

/-- Posts an event to a routing word; a lost one raises ROUTE_LOST (R592). -/
def State.event (s : State) (route : Word) : State :=
  let r := s.deliver route
  if r.2 then r.1.fault 3 6 else r.1

/-! ## Readiness bits (01, R20, R21, R25) -/

/-- Sets readiness bit `n`; a rise sets its event bit and raises the event of IDR_READY_ROUTE. -/
def State.setReady (s : State) (n : Nat) : State :=
  if s.ready n then s
  else
    let s := s.setBit (if n < 32 then R.IDR_READY_0 else R.IDR_READY_1) (n % 32)
    let s := s.setBit (if n < 32 then R.IDR_READY_EVT_0 else R.IDR_READY_EVT_1) (n % 32)
    s.event (s.reg R.IDR_READY_ROUTE)

/-- Clears readiness bit `n`. -/
def State.clrReady (s : State) (n : Nat) : State :=
  s.clrBit (if n < 32 then R.IDR_READY_0 else R.IDR_READY_1) (n % 32)

/-! ## Refused accesses (01, R38-R40) -/

/-- The four kinds of refusal, in the order of IDR_ACC_STATUS. -/
inductive RefKind where
  | unmapped | nrdy | width | priv
  deriving DecidableEq, Repr

/-- The status bit of a kind. -/
def RefKind.bit : RefKind → Nat
  | .unmapped => 0
  | .nrdy => 1
  | .width => 2
  | .priv => 3

/-- The code of a requester (01, Table 1.8). -/
def reqCode : Req → Nat
  | .thread t => t.val
  | .bar0 pf => 0x200 + pf.val
  | .pf0Bar4 => 0x200
  | .rootstock => 0x210
  | .tw0 => 0x220
  | .tw1 => 0x221
  | .usb => 0x230
  | .debug => 0x240

/-- Counts, records and raises one refused access at `addr` (40 bits; an offset in a BAR where `bar` is not 0). -/
def State.refuse (s : State) (k : RefKind) (req : Req) (addr : Nat) (write : Bool) (bar : Nat) : State :=
  let held := (s.reg R.IDR_ACC_STATUS).toNat % 16 != 0
  let was := bitOf (s.reg R.IDR_ACC_STATUS) k.bit
  let s := s.satAdd R.IDR_ACC_CNT_COUNT 1 65535
  let s := if held then s.setFld R.IDR_ACC_STATUS_OVF 1
    else (s.setReg R.IDR_ACC_ADDR (BitVec.ofNat 32 addr)).setReg R.IDR_ACC_SRC
      (BitVec.ofNat 32 (addr / 2 ^ 32 % 256 + reqCode req * 2 ^ 8 + (if write then 2 ^ 18 else 0) + bar % 4 * 2 ^ 19))
  let s := s.setBit R.IDR_ACC_STATUS k.bit
  let s := s.faultRecord 0 k.bit 2 1
  let detail := leBytes 4 (s.reg R.IDR_ACC_ADDR).toNat ++ leBytes 4 (s.reg R.IDR_ACC_SRC).toNat
  let r := s.offerRecord 2 (s.storeRecord 0 k.bit 2 (s.reg R.IDR_ACC_STATUS) detail)
  let s := if r.2 then r.1.fault 3 7 else r.1
  if was then s else s.event (s.reg R.IDR_ACC_ROUTE)

/-! ## Privilege (03, Table 3.7; 12, Table 12.2) -/

/-- The level of a requester: none, the thread level or the row supervisor level of a row, warden. `svAll` is the level that
debug and Fankoec level 1 hold, row supervisor of rows 1-7. -/
inductive Level where
  | none
  | thread (row : Nat)
  | sv (row : Nat)
  | svAll
  | warden
  deriving DecidableEq, Repr

/-- TSR.PL of a status word. -/
def plOf (tsr : Word) : Nat := tsr.toNat / 2 ^ 10 % 4

/-- The level that a requester's access carries (R704, Table 12.2, R99, R555). -/
def State.level (s : State) : Req → Level
  | .thread t =>
    let th := s.thr t.val
    if plOf th.tsr = 2 then .warden else if plOf th.tsr = 1 then .sv th.row else .thread th.row
  | .bar0 pf => .sv pf.val
  | .pf0Bar4 => if s.flag R.PCIE_HOSTPRIV_PF0_WARDEN then .warden else .sv 0
  | .rootstock => .warden
  | .tw0 => if s.flag R.PCIE_HOSTPRIV_TW0_WARDEN then .warden else .none
  | .tw1 => .none
  | .usb => if s.fld R.USB_FK_LEVEL = 2 then .warden else if s.fld R.USB_FK_LEVEL = 1 then .svAll else .none
  | .debug => if s.fld R.SEC_DBG_LEVEL = 2 then .warden else if s.fld R.SEC_DBG_LEVEL = 1 then .svAll else .none

/-- Whether a level is row supervisor of row `r`, or above. -/
def Level.supervises : Level → Nat → Bool
  | .warden, _ => true
  | .sv r', r => r' == r
  | .svAll, r => 1 ≤ r && r < 8
  | _, _ => false

/-- Whether a level belongs to row `r` at thread level or above, or is warden (06, R192). -/
def Level.inRow : Level → Nat → Bool
  | .thread r', r => r' == r
  | l, r => l.supervises r

/-! ## Memories (01, Table 1.3, R12) and check bits (17, R604-R605, R705) -/

/-- A memory that a device address lies in. -/
inductive Mem where
  | buf
  | imem (b : Nat)
  | smem (b : Nat)
  | dmem (b : Nat)
  | regs
  deriving DecidableEq, Repr

/-- The memory that holds the `n` bytes from `addr`, if one memory holds them all (R706). -/
def memAt (addr n : Nat) : Option Mem :=
  if addr + n ≤ 0x4000000 then some .buf
  else if 0x100000000 ≤ addr ∧ addr < 0x108000000 then
    let b := (addr - 0x100000000) / 0x1000000
    let o := addr % 0x1000000
    if o + n ≤ 0x40000 then some (.imem b)
    else if 0x100000 ≤ o ∧ o + n ≤ 0x200000 then some (.smem b)
    else if 0x200000 ≤ o ∧ o + n ≤ 0x240000 ∧ o % 0x8000 + n ≤ 0x8000 then some (.dmem b)
    else none
  else if 0xF000000000 ≤ addr ∧ addr + n ≤ 0xF000068000 then some .regs
  else none

/-- The domain of a memory. -/
def Mem.domain : Mem → Nat
  | .buf => 12
  | .imem b | .smem b | .dmem b => 4 + b
  | .regs => 0

/-- The domain of the region that a single address lies in: judged before the checks of "At the edges" (R23). -/
def regionDomain (addr : Nat) : Option Nat :=
  if addr < 0x4000000 then some 12
  else if 0x100000000 ≤ addr ∧ addr < 0x108000000 then
    let o := addr % 0x1000000
    if o < 0x40000 ∨ 0x100000 ≤ o ∧ o < 0x240000 then some (4 + (addr - 0x100000000) / 0x1000000) else none
  else none

/-- The store of Table 17.5 that a memory is. -/
def Mem.store : Mem → Nat
  | .buf => 24
  | .imem b => b
  | .smem b => 8 + b
  | .dmem b => 16 + b
  | .regs => 28

/-- Reports a corrected error of a memory (Table 17.5). -/
def State.memCe (s : State) : Mem → State
  | .imem b => s.fault (32 + b) 0
  | .smem b => s.fault (32 + b) 2
  | .dmem b => s.fault (32 + b) 4
  | .buf | .regs => s

/-- Reports an uncorrected error of a memory. -/
def State.memUe (s : State) : Mem → State
  | .imem b => s.fault (32 + b) 1
  | .smem b => s.fault (32 + b) 3
  | .dmem b => s.fault (32 + b) 5
  | .buf => s.fault 15 1
  | .regs => s

/-- The check bits that a whole-word write to store `st` leaves: 0 good, 1 or 2 inverted; a one-shot injection is used up. -/
def State.inject (s : State) (st : Nat) : Nat × State :=
  let m := s.fld (R.FLT_INJ_MODE st)
  if m = 1 ∨ m = 2 then
    (if s.flag (R.FLT_INJ_DOUBLE st) then 2 else 1, if m = 1 then s.setFld (R.FLT_INJ_MODE st) 0 else s)
  else (0, s)

/-- What a word of retention RAM that is not listed reads as: 0, or a free value where the battery estimator keeps state of its
own (10, R349). -/
def rramDflt (fill w : Nat) : Word := if 8 ≤ w ∧ w < 256 ∧ fill ≠ 0 then Config.freeWord (2 ^ 64 * fill + w) else 0

/-- Word `w` of retention RAM (02, R52). -/
def State.rramWord (s : State) (w : Nat) : Word := tabGet (rramDflt s.batKeep.fill w) w s.rram

/-- Writes word `w` of retention RAM with check bits `n` inverted. -/
def State.rramPut (s : State) (w : Nat) (v : Word) (n : Nat) : State :=
  { s with rram := tabSet (rramDflt s.batKeep.fill w) w v s.rram, rramEcc := tabSet 0 w n s.rramEcc }

/-- A read meets the errors of word `i` of retention RAM (02, R53, R54). -/
def State.rramMeet (s : State) (i : Nat) : State :=
  match tabGet 0 i s.rramEcc with
  | 0 => s
  | 1 => (s.satAdd R.TAP_RRAM_ECC_CE_CNT 1 255).fault 1 3
  | _ => (if s.flag R.TAP_FAULT_STATUS_RRAM_UE then s else s.setFld R.TAP_RRAM_ECC_UE_IDX i).fault 1 4

/-- A write of word `w` of retention RAM, of which TAP_RRAM_ECC.INJ inverts one check bit: 1 of the next write alone, 2 of every write
(02, R55). -/
def State.rramStore (s : State) (w : Nat) (v : Word) : State :=
  let m := s.fld R.TAP_RRAM_ECC_INJ
  let s := s.rramPut w v (if m = 1 ∨ m = 2 then 1 else 0)
  if m = 1 then s.setFld R.TAP_RRAM_ECC_INJ 0 else s

/-- What a byte of memory that is not listed reads as: 0 where nothing has written it (log 6), a free value in a bough
whose memories BIST_BOUGH has overwritten (16, R569). -/
def memDflt (fill : Tab Nat) (addr : Nat) : Byte :=
  if 0x100000000 ≤ addr then
    match tabGet 0 ((addr - 0x100000000) / 0x1000000) fill with
    | 0 => 0
    | n + 1 => Config.freeByte (n * 0x1000000 + addr % 0x1000000)
  else 0

/-- One byte of memory. -/
def State.byteAt (s : State) (addr : Nat) : Byte := tabGet (memDflt s.fill addr) addr s.mem

/-- `n` bytes of memory as a little-endian number. -/
def State.peek (s : State) (addr : Nat) : Nat → Nat
  | 0 => 0
  | n + 1 => (s.byteAt addr).toNat + 256 * s.peek (addr + 1) n

/-- `n` bytes of memory. -/
def State.peekBytes (s : State) (addr n : Nat) : Bytes := (List.range n).map (fun i => s.byteAt (addr + i))

/-- Writes one byte of memory. -/
def State.pokeByte (s : State) (addr : Nat) (b : Byte) : State := { s with mem := tabSet (memDflt s.fill addr) addr b s.mem }

/-- Writes bytes of memory from `addr`. -/
def State.poke (s : State) (addr : Nat) : Bytes → State
  | [] => s
  | b :: bs => (s.pokeByte addr b).poke (addr + 1) bs

/-- The inverted check bits of the word that holds `addr`. -/
def State.eccAt (s : State) (addr : Nat) : Nat := tabGet 0 (addr / 4) s.ecc

/-- Sets the inverted check bits of the word that holds `addr`. -/
def State.setEcc (s : State) (addr n : Nat) : State := { s with ecc := tabSet 0 (addr / 4) n s.ecc }

/-- A read of `n` bytes inside one word: the errors it meets are reported, and an uncorrected one gives no value. -/
def State.memRead (s : State) (m : Mem) (addr n : Nat) : Option Nat × State :=
  match s.eccAt addr with
  | 0 => (some (s.peek addr n), s)
  | 1 => (some (s.peek addr n), s.memCe m)
  | _ => (none, s.memUe m)

/-- A write of the bytes `bs` inside one word (R705); `false` says that the merge read met an uncorrected error. -/
def State.memWrite (s : State) (m : Mem) (addr : Nat) (bs : Bytes) : Bool × State :=
  if bs.length = 4 then
    let r := s.inject m.store
    (true, (r.2.poke addr bs).setEcc addr r.1)
  else
    match s.eccAt addr with
    | 0 => let r := s.inject m.store
           (true, (r.2.poke addr bs).setEcc addr r.1)
    | 1 => let s := s.memCe m
           let r := s.inject m.store
           (true, (r.2.poke addr bs).setEcc addr r.1)
    | _ => (false, s.memUe m)

/-- Writes bytes of any length and place, word by word; words with an uncorrected merge read stay unchanged. -/
def State.memWriteAll (s : State) (m : Mem) : Nat → Nat → Bytes → State
  | 0, _, _ => s
  | _, _, [] => s
  | fuel + 1, addr, bs =>
    let n := 4 - addr % 4
    ((s.memWrite m addr (bs.take n)).2).memWriteAll m fuel (addr + n) (bs.drop n)

/-- The words that `n` bytes from `addr` touch. -/
def wordsOf (addr n : Nat) : List Nat :=
  if n = 0 then [] else (List.range ((addr + n - 1) / 4 + 1 - addr / 4)).map (fun i => 4 * (addr / 4 + i))

/-- A read of bytes of any length and place; `none` where a word has an uncorrected error. -/
def State.memReadAll (s : State) (m : Mem) (addr n : Nat) : Option Bytes × State :=
  let r := (wordsOf addr n).foldl (fun (a : Bool × State) w =>
    let x := a.2.memRead m w 4
    (a.1 && x.1.isSome, x.2)) (true, s)
  (if r.1 then some (s.peekBytes addr n) else none, r.2)

end Sys2Proof.Machine
end

