-- ==== Sys2Proof/Machine/Power.lean ====
section
/-! DEFINITION. Power domains and their clocks (02, R59-R69, R77-R79, R710): requests, the PLLs they need, draining; and the
wake sources (02, R47-R51, R74, R75). -/

namespace Sys2Proof.Machine

/-- The power domain that holds the register at window offset `off` (01, Table 1.4). -/
def domainOf (off : Nat) : Nat :=
  if off < 0x10000 then 0
  else if off < 0x18000 then 1
  else if off < 0x1A000 then 2
  else if off < 0x20000 then 1
  else if off < 0x24000 then 12
  else if off < 0x28000 then 1
  else if off < 0x30000 then 12
  else if off < 0x40000 then 4 + (off - 0x30000) / 0x2000
  else if off < 0x48000 then 13
  else if off < 0x50000 then 14
  else if off < 0x5C000 then 15
  else if off < 0x60000 then 13
  else if off < 0x64000 then 3
  else 1

/-- The readiness bits of the functions in domain `d` (01, Table 1.9, R709). -/
def readyOf (d : Nat) : List Nat :=
  match d with
  | 1 => [2, 3, 4, 5, 6, 9, 10, 11, 12, 13, 14, 15, 17, 18, 19, 63]
  | 2 => [7, 8]
  | 3 => [16]
  | 12 => [28, 29, 30]
  | 13 => [31, 32, 33, 34, 35, 36, 37, 38, 39]
  | 14 => [40, 41, 42, 43, 44, 45, 46, 47, 48, 49, 50, 51, 52, 53, 54, 55, 56, 61]
  | 15 => [57, 58, 59, 60]
  | d => if 4 ≤ d ∧ d < 12 then [16 + d] else []

/-- The PLL that domain `d` needs (Table 2.2): 0 PLL_CTL, 1 PLL_CORE, 2 PLL_SYS. -/
def pllOf (d : Nat) : Nat := if d < 4 then 0 else if d < 12 then 1 else 2

/-- Table 2.8: 0 OFF, 1 WAIT_CLOCK, 2 WAIT_BUD, 3 SWITCHING, 4 GRANTED, 5 DRAINING. -/
def State.domState (s : State) (d : Nat) : Nat := s.fld (R.PDC_DOM_STATE d)

/-- Sets PDC_DOM_d.STATE. -/
def State.setDomState (s : State) (d v : Nat) : State := s.setFld (R.PDC_DOM_STATE d) v

/-- Whether domain `d` is requested: its owner's request or its PDC_REQ bit (R59). -/
def State.requested (s : State) (d : Nat) : Bool := tabGet false d s.tap.hwReq || bitOf (s.reg R.PDC_REQ) d

/-- Sets or ends the owner's request of domain `d`. -/
def State.setHwReq (s : State) (d : Nat) (on : Bool) : State :=
  { s with tap := { s.tap with hwReq := tabSet false d on s.tap.hwReq } }

/-- The state of PLL `p`. -/
def State.pll (s : State) (p : Nat) : ClkState := tabGet .off p s.tap.plls

/-- Sets the state of PLL `p`. -/
def State.setPll (s : State) (p : Nat) (c : ClkState) : State :=
  { s with tap := { s.tap with plls := tabSet .off p c s.tap.plls } }

/-- Starts REF_SYS and PLL `p` unless they run (R60, R79). -/
def State.startClocks (s : State) (p : Nat) : State :=
  let s := if s.tap.refSys = .running then s else { s with tap := { s.tap with refSys := .starting } }
  if s.pll p = .running then s else s.setPll p .starting

/-- PLL `p` reports lock: the domains that waited for it alone close their switches (R60, R710). -/
def State.pllLocked (s : State) (p : Nat) : State :=
  (List.range 15).foldl (fun s i =>
    if s.domState (i + 1) = 1 ∧ pllOf (i + 1) = p then s.setDomState (i + 1) 3 else s) (s.setPll p .running)

/-- Stops every PLL that no granted or pending domain needs, unless KEEP holds it (R61, R64). -/
def State.settlePlls (s : State) : State :=
  (List.range 3).foldl (fun s p =>
    let need := (List.range 15).any (fun i => s.domState (i + 1) != 0 && pllOf (i + 1) == p)
    if need || bitOf (s.reg R.PDC_PLL) (8 + p) || s.pll p == .failed then s else s.setPll p .off) s

/-- R60, R63, R66: a request of domain `d` starts it from OFF; a domain granted, pending or draining is left as it is. While
the device is in standby, without VIO or under test nothing starts. -/
def State.requestDomain (s : State) (d : Nat) : State :=
  if d = 0 ∨ s.tap.mode ≠ .running ∨ s.tap.testEn = true ∨ s.domState d ≠ 0 then s
  else
    let locked := s.pll (pllOf d) == .running
    let s := (s.setFld (R.PDC_DOM_ERR d) 0).startClocks (pllOf d)
    s.setDomState d (if 4 ≤ d ∧ d < 12 then 2 else if locked then 3 else 1)

/-- The request of bough `b` that engine A still holds ends with the request itself (R67, R68). -/
def State.withdrawBough (s : State) (b : Nat) : State :=
  let l := tabGet {} 0 s.loops
  { s with loops := tabSet {} 0 { l with wakes := l.wakes.filter (· != b), wakeCancel := l.wakeCancel.filter (· != b), settling := l.settling.filter (fun c => c.1 != b) } s.loops }

/-- R64: a request that is not granted ends: the domain is OFF, with `err` in ERR, and its PLL is released. The owner's request ends with
it, but for the espalier's, which is a bit of ESP_BREQ and stays 1 until a warden clears it (13, R478, R479). -/
def State.endPending (s : State) (d err : Nat) : State :=
  let bough := decide (4 ≤ d) && decide (d < 12)
  let s := if bough then s.withdrawBough (d - 4) else s
  (((s.setHwReq d (bough && bitOf (s.reg R.ESP_BREQ) (d - 4))).setDomState d 0).setFld (R.PDC_DOM_ERR d) err).settlePlls

/-- R21: the readiness bits of domain `d` clear. -/
def State.unready (s : State) (d : Nat) : State := (readyOf d).foldl (fun s n => s.clrReady n) s

/-- A granted domain begins to drain: its readiness bits clear (R21, R62). -/
def State.drain (s : State) (d : Nat) : State := (s.unready d).setDomState d 5

/-- Judges domain `d` after its request may have changed (R59-R64). -/
def State.judgeDomain (s : State) (d : Nat) : State :=
  if d = 0 then s
  else if s.requested d then s.requestDomain d
  else match s.domState d with
    | 0 => s
    | 4 => s.drain d
    | 5 => s
    | _ => s.endPending d 0

/-! ## Restart and wake (R50, R51, R74, R75) -/

/-- R74: the device restarts from "REF_SYS started": PD1-PD3, and every domain that is still requested. -/
def State.restart (s : State) : State :=
  let s := { s with tap := { s.tap with mode := .running, refSys := if s.tap.refSys = .running then .running else .starting } }
  let s := [1, 2, 3].foldl (fun s d => s.setHwReq d true) s
  (List.range 16).foldl (fun s d => if s.requested d then s.requestDomain d else s) s

/-- R51: source `i` ends standby; a lower-numbered one that qualifies in the same slow-clock cycle still takes its place. -/
def State.firstWake (s : State) (i : Nat) : State :=
  let s := s.setFld R.TAP_WAKE_FIRST_SRC i
  { s with tap := { s.tap with firstOpen := true } }

/-- A wake source qualifies (R49-R51, R74, R75): its reason bit, its event, the end of standby or of an entry into it. The device
counts as running (R50) in mode running alone (log 59). -/
def State.wakeSource (s : State) (i : Nat) : State :=
  let was := bitOf (s.reg R.TAP_WAKE_REASON) i
  let s := s.setBit R.TAP_WAKE_REASON i
  let s := if !was && s.tap.mode == .running then s.event (s.reg R.TAP_WAKE_ROUTE) else s
  let enabled := bitOf (s.reg R.TAP_WAKE_EN) i
  let s := if enabled && s.tap.firstOpen && decide (i < s.fld R.TAP_WAKE_FIRST_SRC) then s.setFld R.TAP_WAKE_FIRST_SRC i else s
  match s.tap.mode with
  | .standby => if enabled then (s.firstWake i).restart else s
  | .standbyEntry => if enabled then (s.setFld R.TAP_STBY_ABORTED 1).restart else s
  | _ => s

/-- Whether wake input `n` is in a level that has qualified and still holds (R47). -/
def State.wakeHeld (s : State) (n : Nat) : Bool := tabGet false n s.tap.wakeQual

/-- Sets whether wake input `n` is qualified. -/
def State.setWakeHeld (s : State) (n : Nat) (b : Bool) : State :=
  { s with tap := { s.tap with wakeQual := tabSet false n b s.tap.wakeQual } }

end Sys2Proof.Machine
end

