-- ==== Sys2Proof/Machine/Loops.lean ====
section
/-! DEFINITION. Operations of the voltage loops and their phases (07) and of the harness governor where a loop's state touches
it (09): setpoints, starts, stops, phases at mid-level, the edges of a period, the control law. Loops A-D are 0-3. -/

namespace Sys2Proof.Machine

/-- The number of a loop. -/
def loopNum : Loop → Nat
  | .A => 0
  | .B => 1
  | .C => 2
  | .D => 3

/-- The number of a harness loop. -/
def hloopNum : HLoop → Nat
  | .C => 2
  | .D => 3

/-- Loop `x`'s engine. -/
def State.loop (s : State) (x : Nat) : LoopSt := tabGet {} x s.loops

/-- Changes loop `x`'s engine. -/
def State.updLoop (s : State) (x : Nat) (f : LoopSt → LoopSt) : State :=
  { s with loops := tabSet {} x (f (s.loop x)) s.loops }

/-- Phase `n`. -/
def State.phase (s : State) (n : Nat) : PhaseSt := tabGet {} n s.phases

/-- Changes phase `n`. -/
def State.updPhase (s : State) (n : Nat) (f : PhaseSt → PhaseSt) : State :=
  { s with phases := tabSet {} n (f (s.phase n)) s.phases }

/-- LOOP_x_STATUS.STATE: 0 OFF, 1 SOFTSTART, 2 REGULATING, 3 STOPPING, 4 FAULT. -/
def State.loopState (s : State) (x : Nat) : Nat := s.fld (R.LOOP_STATUS_STATE x)

/-- Whether a loop switches: it has periods and phase-safe points. -/
def State.switching (s : State) (x : Nat) : Bool := 1 ≤ s.loopState x && s.loopState x ≤ 3

/-- PH_n_STATE.STATE (Table 7.3): 0 OFF, 1 SHED, 2 ACTIVE, 3 PRUNING, 4 FENCED. -/
def State.phState (s : State) (n : Nat) : Nat := s.fld (R.PH_STATE_STATE n)

/-- Phase `n` enters state `st`; its pin does `pwm`. -/
def State.setPh (s : State) (n st : Nat) (pwm : Pwm) : State :=
  (s.setFld (R.PH_STATE_STATE n) st).updPhase n (fun p => { p with pwm := pwm, carry := if pwm = .edges then p.carry else none })

/-- The phases assigned to loop `x` (R217). -/
def State.mine (s : State) (x : Nat) : List Nat :=
  (List.range 16).filter (fun n => s.flag (R.PH_CFG_ASSIGN n) && s.fld (R.PH_CFG_LOOP n) == x)

/-- The phases of loop `x` in ACTIVE, ascending. -/
def State.active (s : State) (x : Nat) : List Nat := (s.mine x).filter (fun n => s.phState n == 2)

/-- The loop that phase `n` serves. -/
def State.servedBy (s : State) (n : Nat) : Option Nat :=
  if s.flag (R.PH_CFG_ASSIGN n) then some (s.fld (R.PH_CFG_LOOP n)) else none

/-- Whether any of PD4-PD15 is granted (R238, R612). -/
def State.loadOn (s : State) : Bool := (List.range 12).any (fun i => s.granted (4 + i))

/-- Whether unit `u` has adopted ADMIN = 1 and is not fenced (17, R607). -/
def State.carries (s : State) (u : Nat) : Bool := !tabGet false u s.admOff && !s.flag (R.OPS_FENCED u)

/-- Sets an event bit of LOOP_x_STATUS; a rise is posted through LOOP_x_EVT_ROUTE (07, after R253). -/
def State.loopEvt (s : State) (x : Nat) (f : Fld) : State :=
  if s.flag f then s else (s.setFld f 1).event (s.reg (R.LOOP_EVT_ROUTE x))

/-! ## Setpoint (R256) -/

/-- The output range of a loop in 0.25 mV (Table 7.2). -/
def loopRange (x : Nat) : Int × Int := if x = 0 then (2600, 3400) else if x = 1 then (2000, 6000) else (36000, 60000)

/-- The range of PERIOD of a loop (Table 7.2). -/
def periodRange (x : Nat) : Nat × Nat := if x < 2 then (400, 2666) else (1334, 8000)

/-- The most phases of a loop (Table 7.2). -/
def maxPhases (x : Nat) : Nat := if x = 0 then 6 else if x = 1 then 8 else 4

/-- VSET_ramp in units of 0.25 mV. -/
def State.vsetRamp (s : State) (x : Nat) : Int := divFree (s.loop x).vramp 250

/-- VSET_ramp inside VLIM, which is itself clamped to the loop's range. -/
def State.vsetClamped (s : State) (x : Nat) : Int :=
  let r := loopRange x
  clampX (clampI r.1 r.2 (s.fld (R.LOOP_VLIM_VMIN x))) (clampI r.1 r.2 (s.fld (R.LOOP_VLIM_VMAX x))) (s.vsetRamp x)

/-- VSET_eff in units of 0.25 mV. -/
def State.vsetEff (s : State) (x : Nat) : Int := s.vsetClamped x + (s.loop x).boost

/-! ## The governor's part of a loop's state (R303-R307, R311-R314) -/

/-- Governor channel of loop `x` (2 or 3). -/
def State.govOf (s : State) (x : Nat) : GovSt := tabGet {} x s.gov

/-- Changes governor channel `x`. -/
def State.updGov (s : State) (x : Nat) (f : GovSt → GovSt) : State := { s with gov := tabSet {} x (f (s.govOf x)) s.gov }

/-- R307: an event closes and is published. -/
def State.govClose (s : State) (x : Nat) : State :=
  let g := x - 2
  let v := s.govOf x
  let e := v.acc / 4000000
  let s := s.setReg (R.GOV_EVT_E g) (BitVec.ofNat 32 e)
  let s := s.setReg (R.GOV_EVT_T g) (BitVec.ofNat 32 (v.openT / 10))
  let s := s.satAdd (R.GOV_EVT_CNT_CNT g) 1 65535
  let s := s.setReg (R.GOV_EVT_SEQ g) (s.reg (R.GOV_EVT_SEQ g) + 1)
  let s := s.setReg (R.GOV_EVT_MAX g) (BitVec.ofNat 32 (max (s.fld (R.GOV_EVT_MAX_E g)) e))
  (s.setFld (R.GOV_STATUS_OPEN g) 0).updGov x (fun v => { v with isOpen := false, cut := false, cutPhases := [], below := 0 })

/-- An energy setting in mJ: below 100 acts as 100, above 20,000 as 20,000 (Table 9.5). -/
def clampMj (n : Nat) : Nat := max 100 (min 20000 n)

/-- R311: whether a start of loop `x` is refused for its declared precharge energy. -/
def State.preRefused (s : State) (x : Nat) : Bool :=
  let g := x - 2
  decide (2 ≤ x) && s.flag (R.GOV_CTL_PRE_EN g) &&
    decide (clampMj (s.fld (R.GOV_PMAX_PMAX g)) * 1000 * 32000000
      < s.fld (R.GOV_CDECL_CDECL g) * (s.fld (R.LOOP_VSET_VSET x) * s.fld (R.LOOP_VSET_VSET x)))

/-! ## States of a loop -/

/-- Loop `x` enters a state: readiness means REGULATING (Table 1.9), an open event of a loop that leaves REGULATING uncut closes
(R306), and the precharge energy is reported (R314). -/
def State.setLoopState (s : State) (x st : Nat) : State :=
  let old := s.loopState x
  let s := s.setFld (R.LOOP_STATUS_STATE x) st
  let s := if st = 2 then s.setReady (3 + x) else s.clrReady (3 + x)
  if x < 2 then s
  else
    let v := s.govOf x
    let s := if old = 2 ∧ st ≠ 2 ∧ v.isOpen = true ∧ v.cut = false then s.govClose x else s
    if st = 2 ∨ st = 4 then s.setReg (R.GOV_PRE_E (x - 2)) (BitVec.ofNat 32 ((s.govOf x).pre / 4000000)) else s

/-- PGOOD_x. A fall can be the rise of STATUS_BYTE bit 0 (11, Table 11.4). -/
def State.setPgood (s : State) (x : Nat) (high : Bool) : State :=
  (s.updLoop x (fun l => { l with pgoodHigh := high })).latchSums x 0 (s.noneSource x)

/-- Every phase of the loop goes to mid-level and the loop enters OFF (0) or FAULT (4): readiness and PGOOD_x fall first
(R236, R237, R265, R268). A phase of a loop in FAULT is assigned and not switching: SHED. -/
def State.stopLoop (s : State) (x final : Nat) : State :=
  let s := (s.clrReady (3 + x)).setPgood x false
  let s := (s.mine x).foldl (fun s n => if s.phState n = 4 then s else s.setPh n (if final = 4 then 1 else 0) .mid) s
  (s.setLoopState x final).updLoop x (fun l => { l with inPeriod := false, avsWrote := false, otherWrote := false })

/-- R232, R311: LOOP_x_CTL.EN has risen. While the boot is halted the loops stay off (03, R87). -/
def State.startLoop (s : State) (x : Nat) : State :=
  if s.fld R.BOOT_STATUS_STATE = 6 then s
  else if s.preRefused x then
    let s := s.loopEvt x (R.LOOP_STATUS_CFG_ERR x)
    if s.flag (R.GOV_STATUS_PRE_REFUSED (x - 2)) then s
    else (s.setFld (R.GOV_STATUS_PRE_REFUSED (x - 2)) 1).latchMfr x 1 11
  else if !s.carries (148 + x) then s
  else
    let stopping := s.loopState x == 3
    let u := s.nextFree.toNat % 65536
    let s := s.tookFree.updLoop x (fun l => { l with
      ramp := none, pgCount := 0, deCount := 0, u := if stopping then l.u else (u : Int),
      vramp := if stopping then l.vramp else 250 * (s.fld (R.LOOP_VSET_VSET x) : Int),
      inPeriod := stopping && l.inPeriod })
    let s := s.updGov x (fun v => { v with pre := 0, hold := false })
    let s := (s.mine x).foldl (fun s n =>
      if s.phState n = 4 then s
      else if s.carries (132 + n) then (if s.phState n = 2 then s else s.setPh n 2 .mid) else s.setPh n 1 .mid) s
    s.setLoopState x 1

/-- R237, R269: LOOP_x_CTL.EN has fallen, or 0 is written to it in FAULT. -/
def State.disableLoop (s : State) (x : Nat) : State :=
  if s.loopState x = 4 then
    (s.stopLoop x 0).updLoop x (fun l => { l with sigma := 0, ePrev := 0 })
  else if !s.switching x then s
  else if s.flag (R.LOOP_CTL_HARDOFF x) then s.stopLoop x 0
  else if s.loopState x = 3 then s
  else
    let s := if s.loopState x = 2 then s.updLoop x (fun l => { l with ramp := some (250 * s.vsetEff x) }) else s
    ((s.clrReady (3 + x)).setPgood x false).setLoopState x 3

/-! ## Writes of loop and phase registers (R217, R218, R222, R238, R257, R258, R267) -/

/-- PH_n_CFG has taken a new value over `old`. -/
def State.phCfgWritten (s : State) (n : Nat) (old : Word) : State :=
  let new := s.reg (R.PH_CFG n)
  if (old ^^^ new) &&& 7 = 0 then s
  else
    let x := s.fld (R.PH_CFG_LOOP n)
    if 1 < s.phState n ∨ (s.flag (R.PH_CFG_ASSIGN n) = true ∧ maxPhases x < (s.mine x).length) then
      (s.setReg (R.PH_CFG n) old).setFld (R.PH_STATE_CFG_ERR n) 1
    else
      let s := if s.flag (R.PH_CFG_ASSIGN n) && !s.flag (R.LOOP_BAL_MODE x) then s.setFld (R.PH_TRIM_TRIM n) 0 else s
      s.setPh n (if s.flag (R.PH_CFG_ASSIGN n) && s.loopState x != 0 then 1 else 0) .mid

/-- R257, R258: a write of LOOP_x_VSET, by AVSBus or by another path, over the value `old`. -/
def State.vsetWritten (s : State) (x : Nat) (avs : Bool) (old : Word) : State :=
  let l := s.loop x
  if !s.switching x then s
  else if avs then
    (if l.otherWrote then s.loopEvt x (R.LOOP_STATUS_CMD_LOST x) else s).updLoop x (fun l => { l with avsWrote := true })
  else if l.avsWrote then (s.setReg (R.LOOP_VSET x) old).loopEvt x (R.LOOP_STATUS_CMD_LOST x)
  else s.updLoop x (fun l => { l with otherWrote := true })

/-- R254: with BAL.MODE 0, TRIM is 0 for every phase of the loop. -/
def State.zeroTrims (s : State) (x : Nat) : State :=
  if s.flag (R.LOOP_BAL_MODE x) then s else (s.mine x).foldl (fun s n => s.setFld (R.PH_TRIM_TRIM n) 0) s

/-- What a write of a register of a loop block does beside its store: `wr` is the word written, `old` the value before. A loop in FAULT
starts again when EN is written 0 and then 1 (R269). -/
def State.loopHook (s : State) (off : Nat) (old wr : Word) : State :=
  let x := (off - 0x10000) / 0x2000
  let o := off % 0x2000
  let cfgErr := fun (s : State) => (s.setReg off old).loopEvt x (R.LOOP_STATUS_CFG_ERR x)
  if x = 0 ∧ 0x1000 ≤ o then (if o % 0x20 = 0 then s.phCfgWritten ((o - 0x1000) / 0x20) old else s)
  else if o = 0x00 then
    let was := bitOf old 0
    let now := s.flag (R.LOOP_CTL_EN x)
    if x = 0 && !now && s.loadOn then cfgErr s
    else if !was && now then (if s.loopState x = 4 then s else s.startLoop x)
    else if !now && (was || s.loopState x == 4) then s.disableLoop x
    else s
  else if o = 0x08 then
    let p := s.fld (R.LOOP_PERIOD_PERIOD x)
    if p < (periodRange x).1 ∨ (periodRange x).2 < p ∨ s.loopState x ≠ 0 then cfgErr s else s
  else if o = 0x10 then s.vsetWritten x false old
  else if o = 0x3C then s.zeroTrims x
  else if o = 0x40 then s.updLoop x (fun l => { l with cmdPend := true })
  else if o = 0x4C then (if bitOf wr 16 then s.updLoop x (fun l => { l with peakClr := true }) else s)
  else if 0x400 ≤ o ∧ o < 0x600 then (if (o - 0x400) / 0x100 = (s.loop x).bank then cfgErr s else s)
  else s

/-! ## Edges of a period (R223, R224, R229-R231) -/

/-- The on-time of phase `n` in ticks for duty `u`: off at least TOFF_MIN, then on at least TON_MIN. -/
def State.onTicks (s : State) (x n : Nat) (u : Int) : Nat :=
  let per := s.fld (R.LOOP_PERIOD_PERIOD x)
  let d := clampX (s.fld (R.LOOP_DLIM_DMIN x)) (s.fld (R.LOOP_DLIM_DMAX x)) (u + s.sfld (R.PH_TRIM_TRIM n))
  let on := (asr (d * per) 12).toNat
  max (16 * s.fld (R.LOOP_DLIM_T_TON_MIN x)) (min on (16 * per - 16 * s.fld (R.LOOP_DLIM_T_TOFF_MIN x)))

/-- Whether phase `n` is under diode emulation (R233, R239). -/
def State.emulating (s : State) (n : Nat) : Bool :=
  match s.servedBy n with
  | some x => s.loopState x == 1 || (s.flag (R.LOOP_STATUS_DE_ON x) && s.flag (R.PH_CFG_DE_EN n))
  | none => false

/-- The on-time of the period before, in ticks of the new one that begins `per` ticks later: its fall moves so that the phase has been on
for `ton` and is off for `toff` before its next rise, and never into the past (R224). -/
def PhaseSt.lastOn (p : PhaseSt) (per ton toff rise : Nat) : Int × Int :=
  let r : Int := (p.rise : Int) - per
  let f : Int := (p.fall : Int) - per
  (r, if f ≤ 0 then f else max (max 0 (r + ton)) (min f ((rise : Int) - toff)))

/-- Places the edges of phase `n`, whose computed rise is `rise`, in a period of loop `x`. An on-time that runs past the period start is
carried over. Where no fall edge can leave the phase off for TOFF_MIN, because a new rank brings the rise so early, the rise waits for
it (R224, log 79). Under diode emulation a phase at mid-level stays there until it rises (R233, R241). -/
def State.placePhase (s : State) (x n rise : Nat) : State :=
  let per := 16 * s.fld (R.LOOP_PERIOD_PERIOD x)
  let toff := 16 * s.fld (R.LOOP_DLIM_T_TOFF_MIN x)
  let p := s.phase n
  let c := p.lastOn per (16 * s.fld (R.LOOP_DLIM_T_TON_MIN x)) toff rise
  let rise := if p.pwm = .edges then max rise (c.2 + toff).toNat else rise
  s.updPhase n (fun _ => { p with
    pwm := .edges, rise := rise, fall := rise + s.onTicks x n (s.loop x).u,
    carry := if p.pwm = .edges ∧ 0 < c.2 then some c else none,
    startMid := s.emulating n && (p.pwm == .mid || (p.pwm == .edges && p.endMid && decide (c.2 ≤ 0))), endMid := false })

/-- Places the edges of every active phase at a period start: that of rank k rises at its k-th part of the period (R223). -/
def State.placeEdges (s : State) (x : Nat) : State :=
  let act := s.active x
  (List.range act.length).foldl (fun s k =>
    s.placePhase x (act.getD k 0) (16 * s.fld (R.LOOP_PERIOD_PERIOD x) * k / act.length)) s

/-- The ticks of 78.125 ps since the start of loop `x`'s period (R223, log 80). -/
def State.phaseTick (s : State) (x : Nat) : Nat := (s.clk - (s.loop x).startAt) * 64 / 5

/-- Where a switching phase stands in the period of its loop. -/
inductive Span where
  | before | on | after
  deriving DecidableEq, Repr

/-- Where phase `n` of loop `x` stands: off before its rise edge, on, or off after its fall edge. -/
def State.phaseSpan (s : State) (x n : Nat) : Span :=
  let t : Int := s.phaseTick x
  let p := s.phase n
  if p.carry.any (fun c => decide (t < c.2)) then .on else if t < p.rise then .before else if t < p.fall then .on else .after

/-- R264: the on-time of phase `n` of loop `x`, if it is on, ends one control cycle from now. -/
def State.endOnTime (s : State) (x n : Nat) : State :=
  let t := s.phaseTick x
  let lim : Int := t + 16
  if t < (s.phase n).rise then s.updPhase n (fun p => { p with carry := p.carry.map (fun c => (c.1, min c.2 lim)) })
  else s.updPhase n (fun p => { p with fall := min p.fall (t + 16), carry := p.carry.map (fun c => (c.1, min c.2 lim)) })

/-- R241, R244: the current of phase `n` crosses zero. A pruning phase is SHED; a phase under diode emulation that is off goes to
mid-level until its next rise edge. -/
def State.zeroCross (s : State) (n : Nat) : State :=
  if s.phState n = 3 then s.setPh n 1 .mid
  else if s.phState n = 2 ∧ s.emulating n = true then
    match s.servedBy n with
    | some x => match s.phaseSpan x n with
      | .before => s.updPhase n (fun p => { p with startMid := true })
      | .on => s
      | .after => s.updPhase n (fun p => { p with endMid := true })
    | none => s
  else s

/-- A fall edge after a new duty is written at `tw` (R230). -/
def movedFall (rise fall on tw : Int) : Int :=
  if fall ≤ tw then fall else if tw < rise then rise + on else if rise + on ≤ tw then tw + 16 else rise + on

/-- R230: in fixed mode the new duty moves the fall edges that lie after it is written; that of a carried on-time not so far that the phase
would be off for less than TOFF_MIN (R224). -/
def State.moveEdges (s : State) (x : Nat) : State :=
  let per := s.fld (R.LOOP_PERIOD_PERIOD x)
  let tw : Int := 16 * (min (s.fld (R.LOOP_TIMING_SPHASE x)) (per - 49) + 48 : Nat)
  (s.active x).foldl (fun s n =>
    let on : Int := s.onTicks x n (s.loop x).u
    s.updPhase n (fun p => { p with
      fall := (movedFall p.rise p.fall on tw).toNat,
      carry := p.carry.map (fun c =>
        (c.1, min (movedFall c.1 c.2 on tw) (max c.2 ((p.rise : Int) - 16 * s.fld (R.LOOP_DLIM_T_TOFF_MIN x))))) })) s

/-! ## The law (R225-R228, R232, R235, R237, R265, R266) -/

/-- Kp of the active bank for an error (R226). -/
def State.kpFor (s : State) (x : Nat) (e : Int) : Int :=
  let bank := (s.loop x).bank
  let t := fun i => s.sfld (R.LOOP_KP_T x bank i)
  let sh := min (s.fld (R.LOOP_LAW_ERR_SHIFT x)) 10
  let ae := e.natAbs
  let i := min (ae / 2 ^ sh) 63
  if s.flag (R.LOOP_LAW_INTERP x) && decide (i < 63) then
    t i + asr ((t (i + 1) - t i) * ((ae : Int) - (i * 2 ^ sh : Nat))) sh
  else t i

/-- R227: the duty before its clamp. -/
def State.rawDuty (s : State) (x : Nat) (e : Int) : Int :=
  let l := s.loop x
  let k := 12 + s.fld (R.LOOP_LAW_OSHIFT x)
  let sum := s.kpFor x e * e + asr (s.sfld (R.LOOP_KI_K x) * l.sigma) (s.fld (R.LOOP_LAW_KI_SHIFT x))
    + s.sfld (R.LOOP_KD_K x) * (e - l.ePrev)
  asr (sum + (2 ^ (k - 1) : Nat)) k + s.fld (R.LOOP_FF_FF x)

/-- R227, R228: the new duty, SIGMA and e_prev for error `e`. -/
def State.law (s : State) (x : Nat) (e : Int) : State :=
  let raw := s.rawDuty x e
  let dmin : Int := s.fld (R.LOOP_DLIM_DMIN x)
  let dmax : Int := s.fld (R.LOOP_DLIM_DMAX x)
  let lim : Int := 256 * s.fld (R.LOOP_IMAX_IMAX x)
  s.updLoop x (fun l => { l with
    u := clampX dmin dmax raw, ePrev := e,
    sigma := if (dmax < raw ∧ 0 < e) ∨ (raw < dmin ∧ e < 0) then l.sigma else clampI (-lim) lim (l.sigma + e) })

/-- `v` moved towards `goal` by at most `step`. -/
def approach (step v goal : Int) : Int := if v < goal then min (v + step) goal else max (v - step) goal

/-- R232, R237, R256, R312: VSET_ramp and the ramp target advance by one period. -/
def State.advanceRamps (s : State) (x : Nat) : State :=
  let per := s.fld (R.LOOP_PERIOD_PERIOD x)
  let step := divFree (s.fld (R.LOOP_SS_RATE x) * per : Nat) 800
  let slew := divFree (s.fld (R.LOOP_VSLEW_VSLEW x) * per : Nat) 800
  let s := s.updLoop x (fun l => { l with vramp := approach slew l.vramp (250 * (s.fld (R.LOOP_VSET_VSET x) : Int)) })
  let st := s.loopState x
  let target := 250 * s.vsetEff x
  s.updLoop x (fun l => { l with ramp := l.ramp.map (fun r =>
    if st = 1 then (if (s.govOf x).hold then r else approach step r target)
    else if st = 3 then max (r - step) 0 else r) })

/-- R300: at a period start of loop `x` the slots that name it, and the calibrations of its phases, take their written values. -/
def State.settleHeld (s : State) (x : Nat) : State :=
  { s with cnv := { s.cnv with held := tabKeep (fun off =>
      if 0x18100 ≤ off then (s.reg off).toNat / 32 % 4 != x else s.servedBy ((off - 0x18040) / 4) != some x) s.cnv.held } }

end Sys2Proof.Machine
end

