-- ==== Sys2Proof/Machine/Admin.lean ====
section
/-! DEFINITION. Admin and operational state of the units of Table 17.6 (17, R607-R612): adoption, fences, activity. -/

namespace Sys2Proof.Machine

/-- The power domain of unit `u` (Table 17.6). -/
def unitDomain (u : Nat) : Nat :=
  if u < 8 then 13 else if u < 36 then 14 else if u < 44 then 13 else if u < 60 then 14
  else if u < 68 then u - 56 else if u < 132 then 4 + (u - 68) / 8 else 1

/-- OPS_u.OPER (Table 17.6). -/
def State.oper (s : State) (u : Nat) : Bool :=
  if u < 24 then s.ready (32 + u)
  else if u < 36 then s.flag (R.PORT_CTL_EN u) && s.ready 56
  else if u < 60 then s.flag (R.PORT_STATUS_LOCK (u - 36))
  else if u < 68 then s.granted (u - 56) && s.ready (u - 40)
  else if u < 132 then s.granted (4 + (u - 68) / 8) && s.ready (20 + (u - 68) / 8)
  else if u < 148 then s.flag (R.PH_CFG_ASSIGN (u - 132)) && s.phState (u - 132) != 4
  else s.loopState (u - 148) != 4

/-- R607: whether unit `u` may carry traffic or current. -/
def State.inService (s : State) (u : Nat) : Bool := s.carries u && s.oper u

/-- R607, R611, R612: a loop out of service stops as under EN = 0 with HARDOFF = 1, but loop A only while no load is granted. -/
def State.stopOutOfService (s : State) (x : Nat) : State :=
  if s.switching x && !s.carries (148 + x) && !(x == 0 && s.loadOn) then s.stopLoop x 0 else s

/-- R611: what a fence does to its unit at once; a phase of a switching loop waits for the phase-safe point (R219). -/
def State.applyFence (s : State) (u : Nat) : State :=
  if 148 ≤ u then s.stopOutOfService (u - 148)
  else if 132 ≤ u then
    let n := u - 132
    match s.servedBy n with
    | some x => if s.switching x then s else s.setPh n 4 .mid
    | none => s.setPh n 4 .mid
  else s

/-- R610: fences unit `u` with KIND `kind`. -/
def State.fence (s : State) (u kind : Nat) : State :=
  if s.flag (R.OPS_FENCED u) then s
  else
    let oper := if s.oper u then 1 else 0
    let s := (s.setFld (R.OPS_FENCED u) 1).setFld (R.OPS_F_KIND u) kind
    let s := (s.setFld (R.OPS_F_ADMIN u) (s.fld (R.ADM_ADMIN u))).setFld (R.OPS_F_OPER u) oper
    let s := s.setFld (R.OPS_F_EPOCH u) (s.fld (R.ADM_EPOCH u))
    let s := s.raiseD 3 [4] (leBytes 4 ((s.reg (R.OPS u)).toNat / 2 * 2 + oper) ++ leBytes 4 (s.reg (R.ADM u)).toNat ++ leBytes 4 u)
    s.applyFence u

/-- R610: activity of unit `u` fences it when it has adopted ADMIN = 0. -/
def State.activity (s : State) (u : Nat) : State := if tabGet false u s.admOff then s.fence u 1 else s

/-- A phase that is no longer fenced, or not fenced at all, leaves FENCED (R608). -/
def State.unfencePhase (s : State) (n : Nat) : State :=
  if s.phState n = 4 ∧ s.flag (R.OPS_FENCED (132 + n)) = false then
    s.setPh n (match s.servedBy n with
      | some x => if s.loopState x = 0 then 0 else 1
      | none => 0) .mid
  else s

/-- ADM_u has taken a new value over `old` (R608, R609). -/
def State.admWritten (s : State) (u : Nat) (old : Word) : State :=
  if old.toNat / 2 ^ 16 = s.fld (R.ADM_EPOCH u) then (s.setReg (R.ADM u) old).fault 3 5
  else
    let s := (s.setFld (R.OPS_ADOPTED u) 0).setFld (R.OPS_FENCED u) 0
    if 132 ≤ u ∧ u < 148 then
      (match s.servedBy (u - 132) with
       | some x => if s.switching x then s else s.unfencePhase (u - 132)
       | none => s.unfencePhase (u - 132))
    else s

/-- Whether phase `n` is the last active phase of loop A while a load is granted (R612). -/
def State.lastOfA (s : State) (n : Nat) : Bool := s.loadOn && s.servedBy n == some 0 && s.active 0 == [n]

/-- R219, R607, R612: a phase out of service stops carrying current at a phase-safe point. -/
def State.servicePhase (s : State) (n : Nat) : State :=
  if s.lastOfA n then s
  else if s.flag (R.OPS_FENCED (132 + n)) then (if s.phState n = 4 then s else s.setPh n 4 .mid)
  else if s.phState n = 4 then s.unfencePhase n
  else if !s.carries (132 + n) && decide (2 ≤ s.phState n) then s.setPh n 1 .mid
  else s

/-- ADMIN_ADOPT (R608): at its adoption point unit `u` takes its ADMIN state. -/
def State.adopt (s : State) (u : Nat) : State :=
  if s.flag (R.OPS_ADOPTED u) || !s.granted (unitDomain u) then s
  else
    let off := !s.flag (R.ADM_ADMIN u)
    let s := { s with admOff := tabSet false u off s.admOff }
    let s := s.setFld (R.OPS_ADOPTED u) 1
    if 148 ≤ u then s.stopOutOfService (u - 148)
    else if 132 ≤ u then s.servicePhase (u - 132)
    else s

/-- R612: what had to wait while a load was granted is applied once no load is. -/
def State.applyDeferred (s : State) : State :=
  if s.loadOn then s
  else
    let s := s.stopOutOfService 0
    (s.mine 0).foldl (fun s n => if s.flag (R.OPS_FENCED (132 + n)) && !s.switching 0 then s.setPh n 4 .mid else s) s

/-- ADMIN_ADOPT. -/
def execAdminAdopt (u : Fin 152) (s : State) : Res := .next (s.adopt u.val)

/-- ADM_GRACE_TIMEOUT (R610): ADOPTED has stayed 0 for ADM_GRACE. -/
def execAdmGraceTimeout (u : Fin 152) (s : State) : Res :=
  .next (if s.flag (R.OPS_ADOPTED u.val) || !s.granted (unitDomain u.val) then s else s.fence u.val 0)

end Sys2Proof.Machine
end

