-- ==== Sys2Proof/Machine/Battery.lean ====
section
/-! DEFINITION. The battery estimator (10; 19, R659): measurements, the charge counter, first estimates, publications, restore
and learning legs. -/

namespace Sys2Proof.Machine

/-- Changes the estimator. -/
def State.updBat (s : State) (f : BatSt → BatSt) : State := { s with bat := f s.bat }

/-- Changes what the estimator keeps in retention RAM. -/
def State.updKeep (s : State) (f : BatKeep → BatKeep) : State := { s with batKeep := f s.batKeep }

/-- Whether the estimator is enabled. -/
def State.batOn (s : State) : Bool := s.flag R.BAT_CTL_EN

/-- A table or gain register as it is in force (R365). -/
def State.batReg (s : State) (off : Nat) : Word := (tabFind off s.bat.held).getD (s.reg off)

/-- Units of Q in one mAh (R336). -/
def mAh : Int := 3600000000

/-- R659: Q is held between 0 and FCC. -/
def State.clampQ (s : State) : State := s.updBat (fun b => { b with q := clampI 0 (b.fcc * mAh) b.q })

/-- Sets Q so that RC is `rc`. -/
def State.setRc (s : State) (rc : Nat) : State := (s.updBat (fun b => { b with q := rc * mAh })).clampQ

/-! ## Measurements (R333-R337) -/

/-- The last index below `n` that satisfies `p`. -/
def lastIdx (p : Nat → Bool) : Nat → Option Nat
  | 0 => none
  | n + 1 => if p n then some n else lastIdx p n

/-- R334, R335: the temperature of a BTEMP code, and whether the code lies outside the table. -/
def State.batTemp (s : State) (code : Nat) : Int × Bool :=
  let cd := fun i => (s.batReg (R.BAT_TTAB i)).toNat % 2 ^ 16
  let tp := fun i => toSigned 16 ((s.batReg (R.BAT_TTAB i)).toNat / 2 ^ 16)
  match lastIdx (fun i => decide (code ≤ cd i)) 8 with
  | none => (tp 0, true)
  | some 7 => (tp 7, decide (code < cd 7))
  | some i => (tp i + divFree ((tp (i + 1) - tp i) * ((cd i : Int) - code)) (cd i - cd (i + 1)), false)

/-- R336, R337: a new current result, `ovr` its OVR. The time since the one before it counts unless it was a gap (R362). -/
def State.batCurrent (s : State) (code : Int) (ovr : Bool) : State :=
  let i := asr ((code - toSigned 16 ((s.reg R.BAT_IOFFS).toNat % 2 ^ 16)) * ((s.batReg R.BAT_IGAIN).toNat : Int)) 16
  let now := s.clk / 1000
  let dt : Nat := match s.bat.lastI with
    | some t => if s.bat.paused then 0 else now - t
    | none => 0
  let gap := s.batKeep.lastUs.any (fun t => decide (1000000 < now - t))
  let long := decide (60 * s.fld R.BAT_REST_RELAX ≤ s.rtcSec - s.batKeep.lastSec) && s.bat.paused
  let rest := decide (i.natAbs ≤ s.fld R.BAT_REST_REST_I)
  let s := s.updBat (fun b => { b with
    i := i, q := b.q + i * dt, lastI := some now, paused := false,
    hist := b.hist.filter (fun c => decide (now ≤ c.1 + 60000000)) ++ [(now, i)],
    restSecs := if rest then b.restSecs else 0, resync := b.resync || long })
  let s := s.updKeep (fun k => { k with legQ := k.legQ + i * dt, legGap := k.legGap || gap, lastSec := s.rtcSec, lastUs := some now })
  let s := s.clampQ
  if ovr then s.fault 12 0 else s

/-- R358-R360: a leg ends; `dq` is the code of Table 10.4, 0 where it closed qualified. -/
def State.endLeg (s : State) (dq : Nat) : State :=
  let s := (s.setFld R.BAT_LEARN_OPEN 0).updKeep (fun k => { k with legOn := false })
  if dq = 0 then s else s.setFld R.BAT_LEARN_DQ dq

/-- R346, R347, R364: a new battery voltage. -/
def State.batVoltage (s : State) (code : Int) : State :=
  let v := asr (code * ((s.batReg R.BAT_VGAIN).toNat : Int)) 16
  let s := s.updBat (fun b => { b with vbat := v, vSeen := true })
  let s := if v < 3000 ∧ s.batKeep.legOn = true then s.endLeg 6 else s
  if v ≤ 6000 then s
  else if s.flag R.BAT_STATUS_ABSENT then
    let s := ((s.setFld R.BAT_STATUS_PRESENT 1).setFld R.BAT_STATUS_INSERTED 1).setFld R.BAT_STATUS_ABSENT 0
    let s := ((s.setFld R.BAT_LEARN_CNT 0).setFld R.BAT_STATUS_PROVISIONAL 0).setFld R.BAT_SOC_SOH 10000
    (s.updBat (fun b => { b with fcc := s.fld R.BAT_DESIGN_DESIGN % 2 ^ 31, firstDue := true, estDone := false })).clampQ
  else s.setFld R.BAT_STATUS_PRESENT 1

/-- A precision result of a battery channel (R333): `code` as the channel reads it. -/
def State.batResult (s : State) (chan : Nat) (code : Int) (ovr : Bool) : State :=
  if !s.batOn || !s.granted 1 then s
  else if chan = 0x10 then s.batCurrent code ovr
  else if chan = 0x11 then s.batVoltage code
  else if chan = 0x12 then
    let r := s.batTemp code.toNat
    (s.updBat (fun b => { b with t := r.1 })).setFld R.BAT_STATUS_TRANGE (if r.2 then 1 else 0)
  else s

/-! ## Estimates (R338-R344) -/

/-- R338: the compensated SOC. The voltage is taken in units of 0.1 uV, so that only the interpolation is rounded. -/
def State.socOcv (s : State) : Int :=
  let x := 10000 * s.bat.vbat + (s.bat.i.natAbs * (s.batReg R.BAT_RINT).toNat : Nat)
  let v := fun k : Nat => 10000 * (((s.batReg (R.BAT_OCV k)).toNat % 2 ^ 16 : Nat) : Int)
  match lastIdx (fun k => decide (v k ≤ x)) 11 with
  | none => 0
  | some 10 => 10000
  | some k => 1000 * k + divFree ((x - v k) * 1000) (v (k + 1) - v k).toNat

/-- R341: the first estimate, and R363's: Q from SOC_ocv. -/
def State.estimate (s : State) : State := s.setRc ((s.socOcv * s.bat.fcc).toNat / 10000)

/-- The words of a save block (Table 10.2). -/
def State.saveWords (s : State) (soh : Nat) : List Word :=
  let ws : List Word := [0xBA770001, s.fuses.uid.truncate 32, s.reg R.TAP_RTC_SEC_LO, BitVec.ofNat 32 s.bat.fcc, s.reg R.BAT_DESIGN,
    BitVec.ofNat 32 (soh + s.fld R.BAT_LEARN_CNT * 2 ^ 16), BitVec.ofNat 32 (s.fld R.BAT_LEARN_LEARNED)]
  ws ++ [BitVec.ofNat 32 (crc32Ieee (ws.flatMap (fun w => leBytes 4 w.toNat)))]

/-- Writes the save block to BAT_SAVE_n and to retention RAM words 0-7, in ascending order (R350); words 8-255 take what the spec does not
lay out. -/
def State.saveBlock (s : State) (ws : List Word) : State :=
  let s := (List.range 8).foldl (fun s n => (s.setReg (R.BAT_SAVE n) (ws.getD n 0)).rramStore n (ws.getD n 0)) s
  let ecc := tabKeep (fun w => !(decide (8 ≤ w) && decide (w < 256))) s.rramEcc
  let s := { s with
    rram := tabKeep (fun w => !(decide (8 ≤ w) && decide (w < 256))) s.rram,
    rramEcc := if s.fld R.TAP_RRAM_ECC_INJ = 2 then (List.range 248).foldl (fun t i => tabSet 0 (8 + i) 1 t) ecc else ecc }
  (s.updKeep (fun k => { k with fill := s.freeCtr + 1 })).tookFree

/-- R340: TTE, from the mean current of the last 60 s as an exact fraction. -/
def State.tte (s : State) (rc : Nat) : Nat :=
  let last := s.bat.hist.filter (fun c => decide (s.clk / 1000 ≤ c.1 + 60000000))
  let sum := (last.map (fun c => c.2)).sum
  let n := last.length
  if -((s.fld R.BAT_REST_REST_I * n : Nat) : Int) ≤ sum then 65535 else min 65534 (rc * 60 * n / sum.natAbs)

/-- R358: a leg opens. -/
def State.openLeg (s : State) : State :=
  (s.updKeep (fun k => { k with legOn := true, legSoc := s.socOcv, legQ := 0, legGap := false })).setFld R.BAT_LEARN_OPEN 1

/-- R359: the first condition of Table 10.4 that holds of the open leg. -/
def State.legFault (s : State) : Nat :=
  let rest := s.fld R.BAT_REST_REST_I
  let late := match s.batKeep.lastUs with
    | some t => decide (1000000 < s.clk / 1000 - t)
    | none => true
  if s.bat.t < 160 ∨ 640 < s.bat.t ∨ s.flag R.BAT_STATUS_TRANGE = true then 1
  else if (s.bat.fcc : Int) < -5 * s.bat.i then 2
  else if (rest : Int) < s.bat.i then 3
  else if 600 < s.bat.restSecs then 4
  else if s.batKeep.legGap || late then 5
  else 0

/-- R360: a leg closes; a SOC that has not fallen gives a capacity that the spec does not state (log 1). -/
def State.closeLeg (s : State) : State :=
  let d := s.batKeep.legSoc - s.socOcv
  let learned : Nat := if 0 < d then ((-s.batKeep.legQ) * 10000 / (mAh * d)).toNat else s.nextFree.toNat
  let s := if 0 < d then s else s.tookFree
  let design := s.fld R.BAT_DESIGN_DESIGN
  if 2 * learned < design ∨ 6 * design < 5 * learned then s.endLeg 7
  else
    let fcc := ((s.bat.fcc : Int) + asr (((learned : Int) - s.bat.fcc) * s.fld R.BAT_CTL_LEARN_W) 4).toNat % 2 ^ 31
    let s := ((s.updBat (fun b => { b with fcc := fcc })).clampQ).satAdd R.BAT_LEARN_CNT 1 65535
    (s.setFld R.BAT_LEARN_LEARNED 1).endLeg 0

/-- The learning leg at a publication of `soc` (R358-R360). -/
def State.legStep (s : State) (soc : Nat) : State :=
  if s.batKeep.legOn then
    match s.legFault with
    | 0 => if soc ≤ 3000 then s.closeLeg else s
    | c => s.endLeg c
  else if 9000 ≤ soc ∧ s.bat.i < -(s.fld R.BAT_REST_REST_I : Int) then s.openLeg
  else s

/-- R339, R342, R344, R350: a publication. -/
def State.batPublication (s : State) : State :=
  let s := s.updBat (fun b => { b with restSecs := b.restSecs + 1, held := [] })
  let fcc := s.bat.fcc
  let design := s.fld R.BAT_DESIGN_DESIGN
  let s := if fcc = 0 then s.updBat (fun b => { b with q := 0 }) else s
  let rc := min fcc (s.bat.q / mAh).toNat
  let soc := if fcc = 0 then 0 else rc * 10000 / fcc
  let soh := if design = 0 then 0 else min 10000 (fcc * 10000 / design)
  let tte := if fcc = 0 then 65535 else s.tte rc
  let s := (s.setFld R.BAT_RC_VALUE rc).setFld R.BAT_FCC_VALUE fcc
  let s := ((s.setFld R.BAT_SOC_SOC soc).setFld R.BAT_SOC_SOH soh).setFld R.BAT_TTE_TTE tte
  let s := (s.setFld R.BAT_MEAS_VBAT (ofSigned 16 s.bat.vbat)).setFld R.BAT_MEAS_T (ofSigned 16 s.bat.t)
  let s := (s.setFld R.BAT_I_I (ofSigned 32 s.bat.i)).setReg R.BAT_SEQ (s.reg R.BAT_SEQ + 1)
  let s := s.saveBlock (s.saveWords soh)
  let s := if s.bat.estDone then s.setFld R.BAT_STATUS_VALID 1 else s
  s.legStep soc

/-! ## Restore (R352-R355) -/

/-- The first check of Table 10.3 that fails on a block, or 1 OK. -/
def State.blockCheck (s : State) (w : Nat → Word) : Nat :=
  if w 0 ≠ 0xBA770001 then 3
  else if crc32Ieee ((List.range 7).flatMap (fun i => leBytes 4 (w i).toNat)) ≠ (w 7).toNat then 2
  else if w 1 ≠ s.fuses.uid.truncate 32 then 4
  else if s.flag R.BAT_STATUS_INSERTED then 6
  else if !s.flag R.BAT_STATUS_PROVISIONAL then 5
  else 1

/-- Takes FCC, DESIGN, SOH, the learned-leg count and LEARNED from a block (R354). -/
def State.takeBlock (s : State) (w : Nat → Word) : State :=
  let s := (s.updBat (fun b => { b with fcc := (w 3).toNat % 2 ^ 31 })).setReg R.BAT_DESIGN (w 4)
  let s := (s.setFld R.BAT_SOC_SOH ((w 5).toNat % 2 ^ 16)).setFld R.BAT_LEARN_CNT ((w 5).toNat / 2 ^ 16)
  (s.setFld R.BAT_LEARN_LEARNED ((w 6).toNat % 2)).clampQ

/-- R354: an accepted restore keeps SOC and clears PROVISIONAL. -/
def State.restoreBlock (s : State) (w : Nat → Word) : State :=
  let s := s.takeBlock w
  (s.setRc (s.fld R.BAT_SOC_SOC * s.bat.fcc / 10000)).setFld R.BAT_STATUS_PROVISIONAL 0

/-- R353: BAT_CTL.RESTORE has been written 1. -/
def State.batRestore (s : State) : State :=
  let w := fun n => s.reg (R.BAT_RESTORE n)
  let c := s.blockCheck w
  let s := s.setFld R.BAT_STATUS_RESULT c
  if c = 1 then s.restoreBlock w else s

/-- R341, R343, R352: BAT_CTL.EN has risen. The reads of words 0-7 meet their errors (02, R53), and the time before the first result counts
for nothing (R336). -/
def State.batStart (s : State) : State :=
  if s.fld R.BAT_DESIGN_DESIGN = 0 then (s.setFld R.BAT_CTL_EN 0).setFld R.BAT_STATUS_CFG_ERR 1
  else
    let w := fun n => s.rramWord n
    let ok := s.blockCheck w == 1
    let s := ((List.range 8).foldl State.rramMeet s).updBat (fun b =>
      { b with firstDue := true, estDone := false, lastI := none, held := [] })
    if ok then s.takeBlock w
    else
      let bad := (List.range 8).any (fun n => s.rramWord n != 0)
      let s := ((s.setFld R.BAT_STATUS_PROVISIONAL 1).setFld R.BAT_SOC_SOH 10000).updBat (fun b => { b with fcc := s.fld R.BAT_DESIGN_DESIGN % 2 ^ 31 })
      if bad then s.clampQ.fault 12 2 else s.clampQ

/-- What a write of a battery register does beside its store. -/
def State.batHook (s : State) (off : Nat) (old wr : Word) : State :=
  if off = R.BAT_CTL then
    let s := if bitOf wr 1 then s.batRestore else s
    if !bitOf old 0 && s.batOn then s.batStart else s
  else if s.batOn && (off == R.BAT_VGAIN || off == R.BAT_IGAIN || off == R.BAT_RINT || (decide (R.BAT_OCV 0 ≤ off) && decide (off < 0x1B0A0)))
      && (tabFind off s.bat.held).isNone then
    s.updBat (fun b => { b with held := tabPut off old b.held })
  else s

/-! ## Commands -/

/-- BATTERY_ABSENT (R345): VBAT has stayed below 3,000 mV for 2 s. -/
def execBatteryAbsent (s : State) : Res :=
  .next (if s.batOn && s.bat.vSeen && decide (s.bat.vbat < 3000) then
      ((s.setFld R.BAT_STATUS_PRESENT 0).setFld R.BAT_STATUS_VALID 0).setFld R.BAT_STATUS_ABSENT 1
    else s)

/-- FIRST_ESTIMATE (R341): 1 s after EN rose or a battery was inserted. -/
def execFirstEstimate (s : State) : Res :=
  .next (if s.batOn && s.bat.firstDue then
      s.estimate.updBat (fun b => { b with firstDue := false, estDone := true })
    else s)

/-- BAT_PUBLISH (R339): once a second; a battery found absent leaves the published values as they are (R345). -/
def execBatPublish (s : State) : Res :=
  .next (if s.batOn && !s.flag R.BAT_STATUS_ABSENT then s.batPublication else s)

/-- BAT_STALE (R362): no result for 100 ms. -/
def execBatStale (s : State) : Res :=
  .next (if s.batOn && !s.bat.paused then (s.updBat (fun b => { b with paused := true })).fault 12 1 else s)

/-- BAT_RELAX_RESYNC (R363): 1 s after results resumed from a gap of at least RELAX minutes. -/
def execBatRelaxResync (s : State) : Res :=
  .next (if s.batOn && s.bat.resync then s.estimate.updBat (fun b => { b with resync := false }) else s)

end Sys2Proof.Machine
end

