-- ==== Sys2Proof/Machine/Governor.lean ====
section
/-! DEFINITION. The harness energy governor, the fans and the shutdown comparator (09). -/

namespace Sys2Proof.Machine

/-! ## The governor (R301-R316) -/

/-- R301: I of loop `x`: the sum of PH_n_CUR over its phases in ACTIVE or PRUNING; after a cut, over those it shed (R306). -/
def State.govCurrent (s : State) (x : Nat) : Int :=
  let ps := (s.mine x).filter (fun n => s.phState n == 2 || s.phState n == 3 || (s.govOf x).cutPhases.contains n)
  (ps.map (fun n => s.sfld (R.PH_CUR_I n))).sum

/-- R268, R304, R305, R313: the governor cuts loop `x` with CAUSE `cause`. -/
def State.govShut (s : State) (x cause : Nat) : State :=
  let ps := (s.mine x).filter (fun n => s.phState n == 2 || s.phState n == 3)
  let s := s.updGov x (fun v => { v with cut := v.isOpen, cutPhases := if v.isOpen then ps else [] })
  let s := (s.updLoop x (fun l => { l with cmdPend := false })).stopLoop x 4
  s.setFld (R.GOV_STATUS_CAUSE (x - 2)) cause

/-- The bit of GOV_FAULT_STATUS of a cut (R304, R313). -/
def govBit (x cause : Nat) : Nat := if cause = 3 then x else x - 2

/-- A cut and its fault. -/
def State.govCut (s : State) (x cause : Nat) : State := (s.govShut x cause).fault 10 (govBit x cause)

/-- R303, R308: opens an event with the settings of that moment. -/
def State.govOpen (s : State) (x p : Nat) : State :=
  let g := x - 2
  (s.updGov x (fun v => { v with
    acc := p, isOpen := true, openT := 0, below := 0, cut := false, cutPhases := [],
    emax := clampMj (s.fld (R.GOV_EMAX_EMAX g)), itrip := s.fld (R.GOV_ITRIP_ITRIP g),
    close := max 1 (s.fld (R.GOV_WIN_CLOSE g)), wmax := s.fld (R.GOV_WIN_MAX g) })).setFld (R.GOV_STATUS_OPEN g) 1

/-- R312, R313: the precharge accumulator of a soft start, and the CAUSE of the cut that it calls for, 0 for none. The ramp is held by a tick
with PRE_EN = 1 alone. -/
def State.govPrecharge (s : State) (x p : Nat) (i : Int) : State × Nat :=
  let g := x - 2
  if s.loopState x ≠ 1 ∨ s.flag (R.GOV_CTL_PRE_EN g) = false then (s.updGov x (fun v => { v with hold := false }), 0)
  else
    let lim := s.fld (R.GOV_PMAX_ILIM g)
    let s := s.updGov x (fun v => { v with pre := v.pre + p, hold := decide (lim ≠ 0) && decide ((lim : Int) < i) })
    (s, if clampMj (s.fld (R.GOV_PMAX_PMAX g)) * 4000000000 ≤ (s.govOf x).pre then 3 else 0)

/-- One tick for loop `x` (R301, R303, R304, R312, R313), and the bits of GOV_FAULT_STATUS that it sets. -/
def State.govTick (s : State) (x : Nat) : State × List Nat :=
  let g := x - 2
  let i := s.govCurrent x
  let p := ((s.loop x).v * i).toNat
  let v := s.govOf x
  let s :=
    if v.isOpen then s.updGov x (fun v => { v with
      acc := min (2 ^ 48 - 1) (v.acc + p), openT := v.openT + 1, below := if i ≤ v.itrip then v.below + 1 else 0 })
    else if s.flag (R.GOV_CTL_EN g) && s.loopState x == 2 && decide ((s.fld (R.GOV_ITRIP_ITRIP g) : Int) < i) then s.govOpen x p
    else s
  let v := s.govOf x
  let s := if v.isOpen then s.setReg (R.GOV_ACC g) (BitVec.ofNat 32 (v.acc / 4000000)) else s
  let a := s.govPrecharge x p i
  let cause := if v.isOpen && !v.cut && decide (v.emax * 4000000000 ≤ v.acc) then 1 else a.2
  if cause = 0 then (a.1, []) else (a.1.govShut x cause, [govBit x cause])

/-- GOVERNOR_TICK (R301, R330): every 100 ns both harness loops are measured, each on its own. The bits that one tick sets are one fault of
the block (17, R594). -/
def execGovernorTick (s : State) : Res :=
  .next (
    if s.granted 1 then
      let a := s.govTick 2
      let b := a.1.govTick 3
      match a.2 ++ b.2 with
      | [] => b.1
      | bits => b.1.raiseD 10 bits []
    else s)

/-- GOV_WINDOW_TIMEOUT (R305). -/
def execGovWindowTimeout (x : HLoop) (s : State) : Res :=
  .next (
    let v := s.govOf (hloopNum x)
    if v.isOpen && !v.cut && decide (v.wmax ≠ 0) && decide (10000 * v.wmax ≤ v.openT) then s.govCut (hloopNum x) 2 else s)

/-- GOV_EVENT_CLOSE (R306, R307): I has stayed at or below ITRIP for CLOSE us. -/
def execGovEventClose (x : HLoop) (s : State) : Res :=
  .next (
    let v := s.govOf (hloopNum x)
    if v.isOpen && decide (10 * v.close < v.below) then s.govClose (hloopNum x) else s)

/-- What a write of a governor register does beside its store (R308, Table 9.5). -/
def State.govHook (s : State) (off : Nat) (old wr : Word) : State :=
  let g := (off - 0x1E000) / 0x100
  if off % 0x100 = 0 ∧ g < 2 then
    let s := if bitOf wr 2 then s.setReg (R.GOV_EVT_MAX g) 0 else s
    if bitOf old 0 && !s.flag (R.GOV_CTL_EN g) && (s.govOf (2 + g)).isOpen then s.govClose (2 + g) else s
  else s

/-! ## Fans (R317-R323) -/

/-- FAN_PWM_n at the duty `d`: it is active for 32 cycles of 32,000 per unit of duty, at the level that POL gives (R317). -/
def State.fanPin (s : State) (n d : Nat) : FanPin :=
  ⟨if s.flag (R.FAN_CFG_POL n) then 32 * d else 32000 - 32 * d, s.flag (R.FAN_CFG_OD n)⟩

/-- FAN_n_OUT and FAN_PWM_n of every channel (R317, R321). -/
def State.fanRefresh (s : State) : State :=
  (List.range 4).foldl (fun s n =>
    let on := s.flag (R.FAN_CFG_EN n)
    let d := if !on then 0 else if s.fanForced then 1000 else min 1000 (s.fld (R.FAN_DUTY_DUTY n))
    let s := (s.setFld (R.FAN_OUT_DUTY n) d).setFld (R.FAN_OUT_FORCED n) (if on && s.fanForced then 1 else 0)
    { s with pins := { s.pins with fan := tabSet none n (some (s.fanPin n d)) s.pins.fan } }) s

/-- R321: a forcing fault bit of the fan block is set. -/
def State.fanFault (s : State) (bits : List Nat) : State :=
  ({ s.raiseD 11 bits [] with fanForced := true }).fanRefresh

/-- What a write of a fan register does beside its store. -/
def State.fanHook (s : State) (off : Nat) : State := if off < 0x1A080 then s.fanRefresh else s

/-- TACH_EDGE (R318, R319): a falling edge `us` microseconds after the one before. An edge after a stall only restarts the
measurement. -/
def execTachEdge (n : Fin 4) (us : Nat) (s : State) : Res :=
  .next (
    let n := n.val
    if !s.granted 1 then s
    else if s.flag (R.FAN_TACH_STALL n) then s.setFld (R.FAN_TACH_STALL n) 0
    else if us = 0 ∨ 0xFFFFF ≤ us then s
    else (s.setFld (R.FAN_TACH_PERIOD n) us).setFld (R.FAN_RPM_RPM n)
      (min 65535 (60000000 / (us * (s.fld (R.FAN_CFG_PPR n) + 1)))))

/-- TACH_STALL (R319). -/
def execTachStall (n : Fin 4) (s : State) : Res :=
  .next (
    let n := n.val
    if !s.granted 1 then s
    else
      let s := ((s.setFld (R.FAN_TACH_PERIOD n) 0xFFFFF).setFld (R.FAN_TACH_STALL n) 1).setFld (R.FAN_RPM_RPM n) 0
      if s.flag (R.FAN_CFG_EN n) && s.fld (R.FAN_OUT_DUTY n) != 0 then s.fault 11 (8 + n) else s)

/-- Whole milliseconds since `t` (Table 9.2). -/
def State.msSince (s : State) (t : Nat) : Nat := (s.clk - t) / 1000000

/-- CNV_TEMP_k.AGE (R291), which saturates: 0 until a list has converted the sensor. -/
def State.tempAge (s : State) (k : Nat) : Nat :=
  match tabFind k s.cnv.tempAt with
  | some t => min 65535 (s.msSince t)
  | none => 0

/-- What monitor source `src` (0-8) holds: its value if there is one yet, how the source compares values, whether the result lay
above or below its range, and its age. A source that has never been written has no age: it is stale. -/
def State.monSource (s : State) (src : Nat) : Option Nat × (Nat → Int) × Bool × Bool × Option Nat :=
  let signed := fun v : Nat => toSigned 16 v
  if src < 4 then (some (s.fld (R.CNV_TEMP_TEMP src)), signed, false, false, some (s.tempAge src))
  else if src < 8 then
    (some (s.fld (R.CNV_XTEMP_TEMP (src - 4))), signed, false, false, (tabFind (src - 4) s.cnv.xtempAt).map s.msSince)
  else
    match s.cnv.thermX with
    | some (w, t) => (some (w.toNat % 2 ^ 16), fun v => (v : Int), bitOf w 16 && !bitOf w 17, bitOf w 17, some (s.msSince t))
    | none => (none, fun v => (v : Int), false, false, none)

/-- R320: the KIND and VALUE of one check: 0 good, 1 above HI, 2 below LO, 3 stale. -/
def State.monCheck (s : State) (j : Nat) : Nat × Nat :=
  let (v, f, above, below, age) := s.monSource (s.fld (R.FAN_MON_CFG_SRC j))
  let limit := s.fld (R.FAN_MON_CFG_STALE j)
  let stale := decide (limit ≠ 0) && (match age with
    | some a => decide (limit < a)
    | none => true)
  (if above || v.any (fun v => decide (f (s.fld (R.FAN_MON_THR_HI j)) < f v)) then 1
   else if below || v.any (fun v => decide (f v < f (s.fld (R.FAN_MON_THR_LO j)))) then 2
   else if stale then 3 else 0, v.getD (s.fld (R.FAN_MON_STAT_VALUE j)))

/-- FAN_MONITOR_CHECK (R320, R321, R323): each ms; forcing ends at the first check that finds every bit of R321 at 0. -/
def execFanMonitorCheck (s : State) : Res :=
  .next (
    if !s.granted 1 then s
    else
      let on := (List.range 4).filter (fun j => s.flag (R.FAN_MON_CFG_EN j) && decide (s.fld (R.FAN_MON_CFG_SRC j) < 9))
      let res := on.map (fun j => (j, s.monCheck j))
      let s := res.foldl (fun s c => (s.setFld (R.FAN_MON_STAT_KIND c.1) c.2.1).setFld (R.FAN_MON_STAT_VALUE c.1) c.2.2) s
      let bad := (res.filter (fun c => c.2.1 != 0)).map (fun c => c.1)
      if bad != [] then s.fanFault bad
      else
        let st := (s.reg R.FAN_FAULT_STATUS).toNat
        ({ s with fanForced := decide (st % 32 ≠ 0) || st.testBit 12 }).fanRefresh)

/-- FAN_KEEP_TIMEOUT (R322). -/
def execFanKeepTimeout (s : State) : Res :=
  .next (if s.granted 1 && s.fld R.FAN_CTL_KEEP != 0 then s.fanFault [4] else s)

/-! ## The shutdown comparator (R324-R328) -/

/-- R324: the junction temperature, in 1/16 °C, at which the comparator trips: what TSHD selects, within 3 °C (log 81). -/
def State.tsLimit (s : State) : Int := 16 * (105 + 10 * (s.fld R.TAP_STRAP_TSHD : Int)) + clampI (-48) 48 Config.tsShift

/-- R325: the voltage of THERM_X, in microvolts, below which the comparator trips: 0.300 V within 10 mV (log 81). -/
def thermLimit : Int := 300000 + clampI (-10000) 10000 Config.thermShift

/-- SHUTDOWN_ASSERT (R324-R328): TS_3, in 1/16 °C, and THERM_X, in microvolts, have stood for 20 us as measured; where one meets its trip
condition, SYS_SHDN_N goes low. The comparator works while VIO is good. -/
def execShutdownAssert (ts uV : Int) (s : State) : Res :=
  .next (
    let s := { s with pins := { s.pins with therm := some (ts, uV) } }
    let tripTs := decide (s.tsLimit ≤ ts)
    let tripX := decide (uV < thermLimit)
    if !s.tap.vioGood || !(tripTs || tripX) then s
    else
      let was := s.pins.shdnLow
      let s := { s with pins := { s.pins with shdnLow := true, tripTs := tripTs, tripX := tripX } }
      if was || !s.granted 1 then s else (s.setFld R.FAN_SHDN_LAT 1).fanFault [12])

/-- SHUTDOWN_RELEASE (R326): SYS_SHDN_N is released when TS_3 has fallen 15 °C below its threshold and THERM_X has risen above 0.350 V. -/
def execShutdownRelease (s : State) : Res :=
  .next (
    if s.tap.vioGood && s.pins.therm.any (fun x => decide (x.1 ≤ s.tsLimit - 240 ∧ 350000 < x.2)) then
      { s with pins := { s.pins with shdnLow := false, tripTs := false, tripX := false } }
    else s)

end Sys2Proof.Machine
end

