-- ==== Sys2Proof/Machine/Crypto.lean ====
section
/-! DEFINITION. The cryptography that the spec takes from published standards (log 20): SHA-256 (FIPS 180-4), ECDSA over P-256
(FIPS 186-5), AES (FIPS 197) and its GCM mode (SP 800-38D). -/

namespace Sys2Proof.Crypto

/-! ## Bytes and words -/

/-- The number that bytes hold, most significant first. -/
def beNum (bs : Bytes) : Nat := bs.foldl (fun a b => a * 256 + b.toNat) 0

/-- The `n` low bytes of a number, most significant first. -/
def beOf : Nat → Nat → Bytes
  | 0, _ => []
  | n + 1, v => beOf n (v / 256) ++ [BitVec.ofNat 8 v]

/-- Cuts a list into pieces of `n`; `fuel` bounds their number. -/
def chunks {α : Type} (n : Nat) : Nat → List α → List (List α)
  | 0, _ => []
  | _, [] => []
  | fuel + 1, l => l.take n :: chunks n fuel (l.drop n)

/-! ## SHA-256 -/

/-- The first 32 prime numbers. -/
def primesA : List Nat := [2, 3, 5, 7, 11, 13, 17, 19, 23, 29, 31, 37, 41, 43, 47, 53, 59, 61, 67, 71, 73, 79, 83, 89, 97, 101, 103,
  107, 109, 113, 127, 131]

/-- The next 32 prime numbers. -/
def primesB : List Nat := [137, 139, 149, 151, 157, 163, 167, 173, 179, 181, 191, 193, 197, 199, 211, 223, 227, 229, 233, 239, 241,
  251, 257, 263, 269, 271, 277, 281, 283, 293, 307, 311]

/-- The largest `x` below `2 ^ n` added to `acc` whose power `e` is at most `v`. -/
def rootBits (e v : Nat) : Nat → Nat → Nat
  | 0, acc => acc
  | n + 1, acc => rootBits e v n (if (acc + 2 ^ n) ^ e ≤ v then acc + 2 ^ n else acc)

/-- The first 32 bits of the fraction of the `e`-th root of `p`. -/
def rootFrac (e p : Nat) : BitVec 32 := BitVec.ofNat 32 (rootBits e (p * 2 ^ (32 * e)) 38 0)

/-- The 64 round constants: fractions of the cube roots of the first 64 primes. -/
def shaK : List (BitVec 32) := (primesA ++ primesB).map (rootFrac 3)

/-- The initial hash: fractions of the square roots of the first 8 primes. -/
def shaInit : List (BitVec 32) := (primesA.take 8).map (rootFrac 2)

/-- The message schedule, newest word first. -/
def shaSchedule : Nat → List (BitVec 32) → List (BitVec 32)
  | 0, w => w
  | n + 1, w =>
    let g := fun i => w.getD i 0
    let a := g 14
    let b := g 1
    let s0 := a.rotateRight 7 ^^^ a.rotateRight 18 ^^^ a >>> 3
    let s1 := b.rotateRight 17 ^^^ b.rotateRight 19 ^^^ b >>> 10
    shaSchedule n ((g 15 + s0 + g 6 + s1) :: w)

/-- One round over the eight working variables. -/
def shaRound (v : List (BitVec 32)) (kw : BitVec 32) : List (BitVec 32) :=
  match v with
  | [a, b, c, d, e, f, g, h] =>
    let s1 := e.rotateRight 6 ^^^ e.rotateRight 11 ^^^ e.rotateRight 25
    let t1 := h + s1 + ((e &&& f) ^^^ (~~~ e &&& g)) + kw
    let s0 := a.rotateRight 2 ^^^ a.rotateRight 13 ^^^ a.rotateRight 22
    let t2 := s0 + ((a &&& b) ^^^ (a &&& c) ^^^ (b &&& c))
    [t1 + t2, a, b, c, d + t1, e, f, g]
  | v => v

/-- One 64-byte block. -/
def shaBlock (h : List (BitVec 32)) (block : Bytes) : List (BitVec 32) :=
  let w := (chunks 4 16 block).map (fun c => BitVec.ofNat 32 (beNum c))
  let sched := (shaSchedule 48 w.reverse).reverse
  List.zipWith (· + ·) h ((List.zipWith (· + ·) shaK sched).foldl shaRound h)

/-- The SHA-256 digest. -/
def sha256 (m : Bytes) : BitVec 256 :=
  let n := m.length
  let padded := m ++ [0x80] ++ List.replicate ((119 - n % 64) % 64) 0 ++ beOf 8 (8 * n)
  BitVec.ofNat 256 (((chunks 64 (n / 64 + 2) padded).foldl shaBlock shaInit).foldl (fun a w => a * 2 ^ 32 + w.toNat) 0)

/-! ## ECDSA over P-256 -/

/-- The field's prime. -/
def p256 : Nat := 2 ^ 256 - 2 ^ 224 + 2 ^ 192 + 2 ^ 96 - 1

/-- The group's order. -/
def n256 : Nat := 0xFFFFFFFF00000000FFFFFFFFFFFFFFFFBCE6FAADA7179E84F3B9CAC2FC632551

/-- The curve's coefficient b. -/
def b256 : Nat := 0x5AC635D8AA3A93E7B3EBBD55769886BC651D06B0CC53B0F63BCE3C3E27D2604B

/-- The base point. -/
def g256 : Nat × Nat := (0x6B17D1F2E12C4247F8BCE6E563A440F277037D812DEB33A0F4A13945D898C296,
  0x4FE342E2FE1A7F9B8EE7EB4A7C0F9E162BCE33576B315ECECBB6406837BF51F5)

/-- Square and multiply from the highest of `k` bits. -/
def powTop (m b e : Nat) : Nat → Nat → Nat
  | 0, acc => acc
  | k + 1, acc => powTop m b e k (let x := acc * acc % m
                                  if e.testBit k then x * b % m else x)

/-- The inverse modulo a prime. -/
def invMod (m a : Nat) : Nat := powTop m (a % m) (m - 2) 256 1

/-- A point of the curve in affine coordinates; none is the point at infinity. -/
abbrev Point := Option (Nat × Nat)

/-- The sum of two points. -/
def ptAdd (a b : Point) : Point :=
  match a, b with
  | none, q => q
  | q, none => q
  | some (x1, y1), some (x2, y2) =>
    let l : Option Nat :=
      if x1 = x2 then
        (if (y1 + y2) % p256 = 0 then none else some ((3 * x1 * x1 + (p256 - 3)) * invMod p256 (2 * y1) % p256))
      else some ((y2 + p256 - y1) * invMod p256 (x2 + p256 - x1) % p256)
    l.map (fun l =>
      let x := (l * l + 2 * p256 - x1 - x2) % p256
      (x, (l * (x1 + p256 - x) + p256 - y1) % p256))

/-- A point in Jacobian coordinates: (X, Y, Z) stands for (X / Z^2, Y / Z^3), and for the point at infinity where Z is 0. -/
structure Jac where
  x : Nat
  y : Nat
  z : Nat

/-- Twice a point; the curve's coefficient a is -3. -/
def Jac.double (a : Jac) : Jac :=
  let zz := a.z * a.z % p256
  let yy := a.y * a.y % p256
  let s := 4 * a.x * yy % p256
  let m := 3 * (a.x + (p256 - zz)) * (a.x + zz) % p256
  let x := (m * m + 2 * (p256 - s)) % p256
  { x := x, y := (m * (s + (p256 - x)) + 8 * yy * (p256 - yy)) % p256, z := 2 * a.y * a.z % p256 }

/-- The sum of a point and the point (x, y). -/
def Jac.plus (a : Jac) (x y : Nat) : Jac :=
  if a.z = 0 then { x := x, y := y, z := 1 } else
    let zz := a.z * a.z % p256
    let h := (x * zz + (p256 - a.x)) % p256
    let r := (y * zz * a.z + (p256 - a.y)) % p256
    if h = 0 then (if r = 0 then a.double else { x := 1, y := 1, z := 0 }) else
      let hh := h * h % p256
      let v := a.x * hh % p256
      let hhh := h * hh % p256
      let x3 := (r * r + (p256 - hhh) + 2 * (p256 - v)) % p256
      { x := x3, y := (r * (v + (p256 - x3)) + a.y * (p256 - hhh)) % p256, z := a.z * h % p256 }

/-- `acc` doubled `n` times, with (x, y) added after each doubling whose bit of `k` is 1, from the highest of `n` bits. -/
def Jac.times (k x y : Nat) : Nat → Jac → Jac
  | 0, acc => acc
  | n + 1, acc => Jac.times k x y n (if k.testBit n then acc.double.plus x y else acc.double)

/-- `k` times a point, for `k` below `2 ^ 256`. -/
def ptMul (k : Nat) (q : Point) : Point :=
  q.bind (fun q =>
    let a := Jac.times k q.1 q.2 256 { x := 1, y := 1, z := 0 }
    if a.z = 0 then none
    else
      let i := invMod p256 a.z
      some (a.x * (i * i % p256) % p256, a.y * (i * i % p256) * i % p256))

/-- Whether a signature r || s by the public key X || Y verifies over the digest. -/
def ecdsaVerify (pub : BitVec 512) (digest : BitVec 256) (sig : BitVec 512) : Bool :=
  let x := pub.toNat / 2 ^ 256
  let y := pub.toNat % 2 ^ 256
  let r := sig.toNat / 2 ^ 256
  let t := sig.toNat % 2 ^ 256
  let onCurve := decide (x < p256) && decide (y < p256) && y * y % p256 == (x * x * x + (p256 - 3) * x + b256) % p256
  let inRange := decide (0 < r) && decide (r < n256) && decide (0 < t) && decide (t < n256)
  if onCurve && inRange then
    let w := invMod n256 t
    let u1 := digest.toNat * w % n256
    let u2 := r * w % n256
    match ptAdd (ptMul u1 (some g256)) (ptMul u2 (some (x, y))) with
    | some q => q.1 % n256 == r
    | none => false
  else false

/-- The signature r || s over the digest by the private key `d`, the secret number drawn being `k` (taken into 1 to n - 1). -/
def ecdsaSign (d : BitVec 256) (digest : BitVec 256) (k : BitVec 512) : BitVec 512 :=
  let k := k.toNat % (n256 - 1) + 1
  let r := match ptMul k (some g256) with
    | some q => q.1 % n256
    | none => 0
  BitVec.ofNat 512 (r * 2 ^ 256 + invMod n256 k * ((digest.toNat + r * d.toNat) % n256) % n256)

/-- The points whose x coordinate is `x`. -/
def ptsAt (x : Nat) : List Point :=
  let z := (x * x * x + (p256 - 3) * x + b256) % p256
  let y := powTop p256 z ((p256 + 1) / 4) 256 1
  if x < p256 ∧ y * y % p256 = z then [some (x, y), some (x, (p256 - y) % p256)] else []

/-- The public keys X || Y under which a signature r || s verifies over the digest. -/
def ecdsaSigners (digest : BitVec 256) (sig : BitVec 512) : List (BitVec 512) :=
  let r := sig.toNat / 2 ^ 256
  let t := sig.toNat % 2 ^ 256
  let w := invMod n256 r
  let base := ptMul ((n256 - digest.toNat * w % n256) % n256) (some g256)
  ((ptsAt r ++ ptsAt (r + n256)).filterMap (fun q =>
    (ptAdd (ptMul (t * w % n256) q) base).map (fun k => BitVec.ofNat 512 (k.1 * 2 ^ 256 + k.2)))).filter
      (fun pub => ecdsaVerify pub digest sig)

/-! ## AES -/

/-- Doubling in the field of AES. -/
def xtime (a : Byte) : Byte := if a.toNat < 128 then a <<< 1 else (a <<< 1) ^^^ 0x1B

/-- Multiplication in the field of AES, from the highest of the `k` low bits of `b`. -/
def gmul (a b : Byte) : Nat → Byte → Byte
  | 0, acc => acc
  | k + 1, acc => gmul a b k (if b.toNat.testBit k then xtime acc ^^^ a else xtime acc)

/-- The inverse in the field of AES: `a ^ 254`. -/
def ginv (a : Byte) : Byte :=
  let m := fun x y => gmul x y 8 0
  let a2 := m a a
  let a4 := m a2 a2
  let a8 := m a4 a4
  let a16 := m a8 a8
  let a32 := m a16 a16
  let a64 := m a32 a32
  m (m (m a2 a4) (m a8 a16)) (m (m a32 a64) (m a64 a64))

/-- The substitution of AES. -/
def sbox (a : Byte) : Byte :=
  let i := ginv a
  i ^^^ i.rotateLeft 1 ^^^ i.rotateLeft 2 ^^^ i.rotateLeft 3 ^^^ i.rotateLeft 4 ^^^ 0x63

/-- The exclusive or of two byte strings. -/
def xorBytes (a b : Bytes) : Bytes := List.zipWith (· ^^^ ·) a b

/-- Key expansion, newest word first: `n` more words of a key of `nk` words. -/
def expand (nk : Nat) : Nat → Nat → Byte → List Bytes → List Bytes
  | 0, _, _, w => w
  | n + 1, i, rcon, w =>
    let t := w.getD 0 []
    let first := i % nk == 0
    let t := if first then (xorBytes ((t.drop 1 ++ t.take 1).map sbox) [rcon, 0, 0, 0])
      else if nk = 8 ∧ i % nk = 4 then t.map sbox else t
    expand nk n (i + 1) (if first then xtime rcon else rcon) (xorBytes (w.getD (nk - 1) []) t :: w)

/-- The round keys of a 16- or 32-byte key. -/
def roundKeys (key : Bytes) : List Bytes :=
  let nk := key.length / 4
  let w := (expand nk (4 * (nk + 7) - nk) nk 1 (chunks 4 nk key).reverse).reverse
  (chunks 4 (nk + 7) w).map List.flatten

/-- The rows of the state shifted; the state's bytes stand column by column. -/
def shiftRows (s : Bytes) : Bytes := (List.range 16).map (fun i => s.getD ((i + 4 * (i % 4)) % 16) 0)

/-- One column mixed. -/
def mixColumn (c : Bytes) : Bytes :=
  (List.range 4).map (fun i =>
    let g := fun k => c.getD ((i + k) % 4) 0
    xtime (g 0) ^^^ (xtime (g 1) ^^^ g 1) ^^^ g 2 ^^^ g 3)

/-- The AES cipher of one block under its round keys. -/
def aesBlock (keys : List Bytes) (block : Bytes) : Bytes :=
  match keys with
  | [] => block
  | k0 :: rest =>
    let s := rest.dropLast.foldl (fun s k =>
      xorBytes (((chunks 4 4 (shiftRows (s.map sbox))).map mixColumn).flatten) k) (xorBytes block k0)
    xorBytes (shiftRows (s.map sbox)) (rest.getLastD [])

/-! ## GCM -/

/-- Multiplication in the field of GHASH; bit 127 is the coefficient of x^0. -/
def ghMul (x y : BitVec 128) : Nat → BitVec 128 → BitVec 128 → BitVec 128
  | 0, z, _ => z
  | n + 1, z, v =>
    ghMul x y n (if x.toNat.testBit n then z ^^^ v else z)
      (if v.toNat % 2 = 1 then v >>> 1 ^^^ BitVec.ofNat 128 (0xE1 * 2 ^ 120) else v >>> 1)

/-- GHASH over whole or zero-padded blocks. -/
def ghash (h : BitVec 128) (bs : Bytes) : BitVec 128 :=
  (chunks 16 (bs.length / 16 + 1) bs).foldl (fun y b =>
    ghMul (y ^^^ BitVec.ofNat 128 (beNum (b ++ List.replicate (16 - b.length) 0))) h 128 0 h) 0

/-- Zeros that fill the last block. -/
def padTo16 (bs : Bytes) : Bytes := bs ++ List.replicate ((16 - bs.length % 16) % 16) 0

/-- The counter block `i` of a 96-bit nonce. -/
def gcmCounter (nonce : Bytes) (i : Nat) : Bytes := nonce ++ beOf 4 i

/-- The counter mode over a text; it is its own inverse. -/
def gcmCtr (keys : List Bytes) (nonce : Bytes) (text : Bytes) : Bytes :=
  let bs := chunks 16 (text.length / 16 + 1) text
  ((List.range bs.length).map (fun i => xorBytes (bs.getD i []) (aesBlock keys (gcmCounter nonce (i + 2))))).flatten

/-- The 16-byte tag over the additional data and the ciphertext. -/
def gcmTag (keys : List Bytes) (nonce aad ct : Bytes) : Bytes :=
  let h := BitVec.ofNat 128 (beNum (aesBlock keys (List.replicate 16 0)))
  let y := ghash h (padTo16 aad ++ padTo16 ct ++ beOf 8 (8 * aad.length) ++ beOf 8 (8 * ct.length))
  xorBytes (beOf 16 y.toNat) (aesBlock keys (gcmCounter nonce 1))

end Sys2Proof.Crypto
end

