-- ==== Sys2Proof/Machine/Esp.lean ====
section
/-! DEFINITION. Operations of the espalier (13): cells and frame slots, tickets, voiding, waiting counts and hints. -/

namespace Sys2Proof.Machine

/-- Changes the espalier's state. -/
def State.updEsp (s : State) (f : EspSt → EspSt) : State := { s with esp := f s.esp }

/-- The frame in slot `k`, if the slot is taken (R455). -/
def State.frameOf (s : State) (k : Nat) : Option Frame := tabFind k s.esp.frames

/-- Puts a frame into slot `k`. -/
def State.setFrame (s : State) (k : Nat) (f : Frame) : State :=
  s.updEsp (fun e => { e with frames := tabPut k f e.frames })

/-- The generation of slot `k` (Table 13.4). -/
def State.genOf (s : State) (k : Nat) : Nat := tabGet 0 k s.esp.gens

/-- The tickets of domain `d`, head first. -/
def State.dom (s : State) (d : Nat) : List Ticket := tabGet [] d s.esp.doms

/-- Replaces the tickets of domain `d`. -/
def State.setDom (s : State) (d : Nat) (l : List Ticket) : State :=
  s.updEsp (fun e => { e with doms := tabSet [] d l e.doms })

/-- Cells in use, over all frames. -/
def State.usedCells (s : State) : List Nat := s.esp.frames.flatMap (fun c => c.2.cells)

/-- ROW_r_CELL_USE: the cells that row `r`'s frames hold (12, R422). -/
def State.cellUse (s : State) (r : Nat) : Nat :=
  (s.esp.frames.map (fun c => if c.2.row = r then c.2.cells.length else 0)).sum

/-- The cells that the device may grant: on a standby with GRAFT_CTL.EN = 1 the two shadow banks take theirs (R634). -/
def State.cellTotal (s : State) : Nat :=
  if s.granted 15 && s.flag R.GRAFT_CTL_EN && !s.flag R.GRAFT_STATUS_ROLE then 262144 - max 1 (min 8 (s.fld R.GRAFT_SHADOW_BANK_MIB)) * 8192
  else 262144

/-- CMIN of row `r`, at most 262,144 (12, Table 12.8). -/
def State.cmin (s : State) (r : Nat) : Nat := min 262144 (s.fld (R.ROW_CMIN_CELLS r))

/-- CMAX of row `r`; below CMIN it acts as CMIN (12, R421). -/
def State.cmax (s : State) (r : Nat) : Nat := max (s.cmin r) (min 262144 (s.fld (R.ROW_CMAX_CELLS r)))

/-- Whether row `r`, holding `extra` cells beyond those of its frames, is granted one more (12, R422). -/
def State.cellGrant (s : State) (r extra : Nat) : Bool :=
  let use := fun q => s.cellUse q + (if q = r then extra else 0)
  let shared := ((List.range 8).map (fun q => use q - s.cmin q)).sum
  let mins := ((List.range 8).map (fun q => s.cmin q)).sum
  decide (use r < s.cmin r) || (decide (use r < s.cmax r) && decide (shared + mins < s.cellTotal))

/-- The first free cell at or after `c`, cyclically. Which free cell the device takes is open (log 2): the search starts at a
free value. -/
def freeCell (total : Nat) (used : List Nat) : Nat → Nat → Nat
  | 0, c => c
  | fuel + 1, c => if used.contains c then freeCell total used fuel ((c + 1) % total) else c

/-- Takes cells for row `r` until it has `n` more or one is refused: the cells, whether all came, the state (R456, R457). -/
def State.takeCells (s : State) (r : Nat) : Nat → List Nat → List Nat × Bool × State
  | 0, got => (got, true, s)
  | n + 1, got =>
    if s.cellGrant r got.length then
      let used := got ++ s.usedCells
      let c := freeCell s.cellTotal used used.length (s.nextFree.toNat % s.cellTotal)
      s.tookFree.takeCells r n (got ++ [c])
    else (got, false, s)

/-- The first free slot at or after `k`, cyclically; the search starts at a free value (log 2). -/
def freeSlotFrom (frames : Tab Frame) : Nat → Nat → Nat
  | 0, k => k
  | fuel + 1, k => if (tabFind k frames).isSome then freeSlotFrom frames fuel ((k + 1) % 4096) else k

/-- The device address of byte `i` of a frame's contents (R456: 64 bytes of headroom lie before an unedited frame). -/
def Frame.addr (f : Frame) (i : Nat) : Nat := (f.cells.getD ((f.off + i) / 256) 0) * 256 + (f.off + i) % 256

/-- Writes frame bytes from position `i`, cell by cell. -/
def State.frameWrite (s : State) (f : Frame) : Nat → Nat → Bytes → State
  | 0, _, _ => s
  | _, _, [] => s
  | fuel + 1, i, bs =>
    let n := 256 - (f.off + i) % 256
    (s.memWriteAll .buf (n + 4) (f.addr i) (bs.take n)).frameWrite f fuel (i + n) (bs.drop n)

/-- Reads `n` frame bytes from position `i`; `none` where a cell word has an uncorrected error, which is reported. -/
def State.frameRead (s : State) (f : Frame) : Nat → Nat → Nat → Option Bytes × State
  | 0, _, _ => (some [], s)
  | fuel + 1, i, n =>
    if n = 0 then (some [], s)
    else
      let m := min n (256 - (f.off + i) % 256)
      let a := s.memReadAll .buf (f.addr i) m
      let b := a.2.frameRead f fuel (i + m) (n - m)
      (match a.1, b.1 with
       | some x, some y => some (x ++ y)
       | _, _ => none, b.2)

/-- Adds 1 to a 64-bit counter. -/
def State.count64 (s : State) (lo hi : Nat) : State := s.setPair lo hi ((s.pair lo hi + 1) % 2 ^ 64)

/-- Counts a dropped frame of row `r` under reason `k` (Table 13.10). -/
def State.countDrop (s : State) (r k : Nat) : State := s.count64 (R.ESP_ROW_DROP_LO r k) (R.ESP_ROW_DROP_HI r k)

/-- Ends the EGRESS_TS requests that wait for slot `k`: VOIDED, the frame having gone before its first byte left. -/
def State.endStamps (s : State) (k : Nat) : State :=
  let gone := s.helpers.filter (fun h => h.stamp == some k)
  let s := { s with helpers := s.helpers.filter (fun h => h.stamp != some k) }
  gone.foldl (fun s h => s.updThr h.t (fun t => { t with compl := tabSet .idle h.cn (.held (BitVec.ofNat 32 (2 * 2 ^ 29 + h.h * 2 ^ 26))) t.compl })) s

/-- Frees a slot and its cells: the slot's generation rises (R455, R459, Table 13.4). -/
def State.freeSlot (s : State) (k : Nat) : State :=
  (s.updEsp (fun e => { e with frames := tabDel k e.frames, gens := tabSet 0 k ((tabGet 0 k e.gens + 1) % 2 ^ 16) e.gens })).endStamps k

/-- WAITING: frames issued and not dispatched, device-wide (R477). -/
def State.waiting (s : State) : Nat := ((List.range 8).map (fun r => (s.row r).dispQ.length)).sum

/-- R477 after WAITING changed from `was`: HINT_UP at a rise to UP, HINT_DN at the fall to DN that follows. -/
def State.hints (s : State) (was : Nat) : State :=
  let up := s.fld R.ESP_HINT_UP
  let dn := s.fld R.ESP_HINT_DN
  let w := s.waiting
  if up ≤ dn then s
  else if !s.esp.hintSent && decide (was < w) && decide (up ≤ w) then s.updEsp (fun e => { e with hintSent := true, hintUpDue := true })
  else if s.esp.hintSent && decide (w < was) && decide (w ≤ dn) then s.updEsp (fun e => { e with hintSent := false, hintDnDue := true })
  else s

/-- R478 for row `r`: a powered-off bough of the row is requested when its waiting count has reached TH, unless a request made for the row
is still ungranted. -/
def State.rowWake (s : State) (r : Nat) : State :=
  let th := s.fld (R.ESP_ROW_WAKE_TH r)
  let maps := fun b => (s.reg (R.ROW_TMAP r (2 * b))).toNat != 0 || (s.reg (R.ROW_TMAP r (2 * b + 1))).toNat != 0
  let open_ := (List.range 8).any (fun b => bitOf (s.reg R.ESP_BREQ) b && tabFind b s.esp.reqRow == some r && !s.granted (4 + b))
  if th = 0 || decide ((s.row r).dispQ.length < th) || open_ then s
  else match (List.range 8).find? (fun b => maps b && s.domState (4 + b) == 0) with
    | some b =>
      let s := s.updEsp (fun e => { e with reqRow := tabPut b r e.reqRow })
      ((s.setHwReq (4 + b) true).setBit R.ESP_BREQ b).requestDomain (4 + b)
    | none => s

/-- Takes slot `k` out of every dispatch queue. -/
def State.undispatch (s : State) (k : Nat) : State :=
  let was := s.waiting
  ((List.range 8).foldl (fun s r => s.updRow r (fun x => { x with dispQ := x.dispQ.filter (· != k) })) s).hints was

/-- Voids the ticket of slot `k` in domain `d`, counted under reason `why`: cells and slot are free at once (R474, R476). -/
def State.voidTicket (s : State) (d k why : Nat) : State :=
  match s.frameOf k with
  | none => s
  | some f =>
    let s := s.setDom d ((s.dom d).map (fun t => if t.slot = k ∧ t.state ≠ .void then { t with state := .void, thr := none } else t))
    ((s.undispatch k).countDrop f.row why).freeSlot k

/-- The (domain, slot) of every ticket that is not yet void and satisfies `p`. -/
def State.ticketsWhere (s : State) (p : Ticket → Bool) : List (Nat × Nat) :=
  s.esp.doms.flatMap (fun c => (c.2.filter (fun t => t.state != .void && p t)).map (fun t => (c.1, t.slot)))

/-- R474: every HELD ticket of an ending thread is voided at once, VOID_THREAD. -/
def State.voidThread (s : State) (k : Nat) : State :=
  (s.ticketsWhere (fun t => t.state == .held && t.thr == some k)).foldl (fun s c => s.voidTicket c.1 c.2 4) s

/-- R474: every ticket of a resetting row is voided at once, VOID_ROW. -/
def State.voidRow (s : State) (r : Nat) : State :=
  (s.ticketsWhere (fun t => match s.frameOf t.slot with
    | some f => f.row == r
    | none => false)).foldl (fun s c => s.voidTicket c.1 c.2 5) s

/-- The token of a frame (Table 13.4). -/
def tokenOf (slot gen : Nat) : Nat := slot % 4096 + gen % 2 ^ 16 * 2 ^ 12

/-- The live frame that a token names by its SLOT and GEN, with its slot. -/
def State.tokenFrame (s : State) (tok : Nat) : Option (Nat × Frame) :=
  let k := tok % 4096
  match s.frameOf k with
  | some f => if s.genOf k = tok / 2 ^ 12 % 2 ^ 16 then some (k, f) else none
  | none => none

/-- Whether a frame's last byte is still to come (R473, Table 13.4). -/
def State.arriving (s : State) (f : Frame) : Bool := decide (s.clk < f.ends)

/-- Whether a frame is marked BAD by now: its FCS is judged when its last byte has arrived (R458). -/
def State.badNow (s : State) (f : Frame) : Bool := f.bad || (f.crcBad && !s.arriving f)

/-- The ticket of slot `k` in domain `d`, if it is outstanding. -/
def State.ticketOf (s : State) (d k : Nat) : Option Ticket := (s.dom d).find? (fun t => t.slot == k && t.state != .void)

end Sys2Proof.Machine
end

