-- ==== Sys2Proof/Machine/Threads.lean ====
section
/-! DEFINITION. Operations on hardware threads (04, 06): reset, start, end, the pool, exceptions and their entry, the return
from one, halting and its notice. -/

namespace Sys2Proof.Machine

/-! ## Registers of a thread -/

/-- General register `n`; g0 reads zero (R107). -/
def Thread.gr (t : Thread) (n : Nat) : Word := if n = 0 then 0 else tabGet 0 n t.g

/-- Writes general register `n`; a write to g0 is discarded (R107). -/
def Thread.setG (t : Thread) (n : Nat) (v : Word) : Thread := if n = 0 then t else { t with g := tabSet 0 n v t.g }

/-- Accumulator `n`. -/
def Thread.acc (t : Thread) (n : Nat) : BitVec 40 := tabGet 0 n t.a

/-- Writes accumulator `n`. -/
def Thread.setAcc (t : Thread) (n : Nat) (v : BitVec 40) : Thread := { t with a := tabSet 0 n v t.a }

/-- Address generator `n`. -/
def Thread.agen (t : Thread) (n : Nat) : AddrGen := tabGet {} n t.ag

/-- Writes address generator `n`. -/
def Thread.setAgen (t : Thread) (n : Nat) (v : AddrGen) : Thread := { t with ag := tabSet {} n v t.ag }

/-- The reset value of window `n` (Table 4.6). -/
def xarReset (n : Nat) : BitVec 10 := if n = 1 then 0x004 else if n = 2 then 0x3C0 else 0

/-- Window register `n`. -/
def Thread.xarOf (t : Thread) (n : Nat) : BitVec 10 := tabGet (xarReset n) n t.xar

/-- Writes window register `n`. -/
def Thread.setXar (t : Thread) (n : Nat) (v : BitVec 10) : Thread := { t with xar := tabSet (xarReset n) n v t.xar }

/-- Completion register `n`. -/
def Thread.completion (t : Thread) (n : Nat) : Compl := tabGet .idle n t.compl

/-- Writes completion register `n`. -/
def Thread.setCompletion (t : Thread) (n : Nat) (c : Compl) : Thread := { t with compl := tabSet .idle n c t.compl }

/-- TSR with its PL replaced. -/
def withPl (tsr : Word) (pl : Nat) : Word := (tsr &&& ~~~ 0xC00) ||| BitVec.ofNat 32 (pl % 4 * 2 ^ 10)

/-- TSR.EXL. -/
def exlOf (tsr : Word) : Bool := bitOf tsr 9

/-- Whether TEVT has ARMED. -/
def armedOf (tevt : Word) : Bool := bitOf tevt 9

/-! ## Helper requests of a thread -/

/-- Discards the helper requests of the threads that satisfy `p`. -/
def State.dropHelpers (s : State) (p : Nat → Bool) : State := { s with helpers := s.helpers.filter (fun h => !p h.t) }

/-! ## Start, reset and end -/

/-- The level at thread start (R132, R426): warden for the rootstock pair and for mapped WMAP threads of row 0. -/
def State.startPl (s : State) (k row : Nat) (borrowed : Bool) : Nat :=
  if 512 ≤ k then 2
  else if row = 0 && !borrowed && bitOf (s.reg (R.ROW_0_WMAP (k / 32))) (k % 32) && bitOf (s.reg (R.ROW_TMAP 0 (k / 32))) (k % 32) then 2
  else if s.fld (R.ROW_SUPV_CODE row) = k then 1
  else 0

/-- A thread reset (R17, R146): the listed registers take their reset values, the others stay. -/
def Thread.reset (t : Thread) : Thread :=
  { t with g := [], a := [], ag := [], tsr := 0x20, tpri := 0x31, rstk := [], rsTop := 0, rsWrapped := false,
           tevt := 0, tcmp := 0, compl := [], wait := .nothing }

/-- A row, warm, domain or cold reset of a thread's registers besides (Table 4.11). -/
def Thread.rowReset (t : Thread) : Thread :=
  { t.reset with etsr := 0, epc := 0, ecause := 0, eval := 0, tsp := 0, xar := [], haltq := [], haltOvf := false }

/-- A thread enters its pool: IDLE, or UNASSIGNED out of the row when it was borrowed (R419). -/
def Thread.toPool (t : Thread) : Thread :=
  if t.borrowed then { t with state := .unassigned, borrowed := false, row := 0, parent := none, wait := .nothing }
  else { t with state := .idle, parent := none, wait := .nothing }

/-- R205: the children of thread `k` in DONE go to the pool, the others lose their parent. -/
def State.orphan (s : State) (k : Nat) : State :=
  (List.range 520).foldl (fun s c =>
    let t := s.thr c
    if t.parent = some k then
      s.setThr c (if t.state = .done then t.toPool else { t with parent := none })
    else s) s

/-- A thread ends: DONE while a parent has not joined it, else back to its pool (R203, R211). -/
def Thread.finish (t : Thread) : Thread :=
  if t.parent.isSome then { t with state := .done, wait := .nothing } else t.toPool

/-- A thread ends by QUIT, RELEASE or a release of its domain (R203, R205, R211, R213, R474). -/
def State.endThread (s : State) (k : Nat) (clear : Thread → Thread) : State :=
  let s := (s.dropHelpers (· == k)).voidThread k
  (s.updThr k (fun t => (clear t).finish)).orphan k

/-- What QUIT discards (R203): pending events, the armed compare, completions; TEVT.STEP stays. -/
def Thread.quitClear (t : Thread) : Thread := { t with tevt := t.tevt &&& 0x100, compl := [] }

/-- The state a started thread takes (R201, R410). -/
def Thread.started (t : Thread) (row : Nat) (borrowed : Bool) (parent : Option Nat) (pc g1 : Word) (pl : Nat) : Thread :=
  let t := (t.reset).setG 1 g1
  { t with state := .run, row := row, borrowed := borrowed, parent := parent, pc := pc, tsr := withPl t.tsr pl }

/-! ## Halting (R207-R210) -/

/-- Puts a code on a supervisor's halt queue and posts event 7 (R208, R210). -/
def State.notify (s : State) (target code : Nat) : State :=
  (s.updThr target (fun t =>
    if t.haltq.length < 16 then { t with haltq := t.haltq ++ [code] } else { t with haltOvf := true })).post target 7

/-- Whether a supervisor can take a notice: it is in RUN or WAIT. -/
def State.available (s : State) (k : Nat) : Bool := (s.thr k).state == .run || (s.thr k).state == .wait

/-- Whether thread `k`, which ROW_r_SUPV names, is the supervisor of row `r` (it belongs to the row) and can take a notice. -/
def State.supervising (s : State) (r k : Nat) : Bool := s.available k && (s.thr k).row == r

/-- The notice target of a halted scion thread (R208). -/
def State.noticeTarget (s : State) (k : Nat) : Nat :=
  let row := (s.thr k).row
  let sv := s.fld (R.ROW_SUPV_CODE row)
  let sv0 := s.fld (R.ROW_SUPV_CODE 0)
  let toZero := row = 0 ∨ k = sv ∨ !s.supervising row sv
  if toZero then (if k = sv0 ∨ !s.supervising 0 sv0 then 512 else sv0) else sv

/-- A scion thread enters HALTED (R208). -/
def State.halt (s : State) (k cause : Nat) : State :=
  let s := s.updThr k (fun t => { t with state := .halted, cause := BitVec.ofNat 8 cause, wait := .nothing })
  s.notify (s.noticeTarget k) k

/-- R603: all eight rootstock threads stop, their readiness bit first (R21), and the engines run on under R263. -/
def State.stopRootstock (s : State) : State :=
  let s := s.clrReady 2
  let s := (List.range 8).foldl (fun s i => s.updThr (512 + i) (fun t => { t with state := .halted, wait := .nothing })) s
  (List.range 4).foldl (fun s x => s.setFld (R.LOOP_STATUS_AUTO x) 1) s

/-! ## Exceptions (R136-R140) -/

/-- The trap vector: the row's, or RTVEC on the rootstock pair (R138, R414). -/
def State.trapVec (s : State) (k : Nat) : Word :=
  if k < 512 then BitVec.ofNat 32 (2 * s.fld (R.ROW_TVEC_OFFS (s.thr k).row)) else (s.thr k).rtvec

/-- Steps 1-4 of R138. -/
def Thread.saveExc (t : Thread) (cause : Nat) (eval epc : Word) : Thread :=
  { t with etsr := t.tsr &&& ~~~ 0x200, epc := epc, eval := eval,
           ecause := (t.ecause &&& ~~~ 0xFF) ||| BitVec.ofNat 32 (cause % 256) }

/-- Taking an exception: entry (R138), the halt policy (R137, R207), or a second exception while EXL is 1 (R139). -/
def State.raiseExc (s : State) (k cause : Nat) (eval epc : Word) : State :=
  let t := s.thr k
  if exlOf t.tsr then
    let s := s.setThr k { t with
      ecause := (t.ecause &&& ~~~ 0x1FF00) ||| BitVec.ofNat 32 (2 ^ 16 + cause % 256 * 2 ^ 8) }
    if k < 512 then s.halt k cause else (s.fault 3 1).stopRootstock
  else if k < 512 && s.flag (R.ROW_POLICY_FPOL t.row) && cause != 0x10 && cause != 0x11 then
    (s.setThr k (t.saveExc cause eval epc)).halt k cause
  else
    let v := s.trapVec k
    let t := t.saveExc cause eval epc
    s.setThr k { t with tsr := withPl t.tsr (max (plOf t.tsr) 1) ||| 0x200, pc := v }

/-- The return from an exception: TSR from ETSR with EXL 0, PC from EPC (R140). -/
def Thread.returnExc (t : Thread) : Thread := { t with tsr := t.etsr &&& ~~~ 0x200, pc := t.epc }

/-! ## Issue (R124, R136, R147-R149, R707) -/

/-- The inverted check bits of the word that holds instruction offset `off` of thread `k`'s memory. -/
def State.fetchEcc (s : State) (k off : Nat) : Nat :=
  if k < 512 then s.eccAt (0x100000000 + boughOf k * 0x1000000 + off) else tabGet 0 (off / 4) s.rsEcc

/-- The exception that the fetch of the halfwords at `pc` meets: FETCH before MEM_UE (R124, R136, R149, R707). -/
def State.fetchExc (s : State) (k n : Nat) (pc : Word) : Option (Nat × Word) :=
  let p := pc.toNat
  if 0x40000 ≤ p ∨ p % 2 = 1 then some (0x03, pc)
  else if n = 4 ∧ 0x40000 ≤ p + 2 then some (0x03, BitVec.ofNat 32 (p + 2))
  else if s.fetchEcc k p = 2 then some (0x0C, pc)
  else if n = 4 ∧ s.fetchEcc k (p + 2) = 2 then some (0x0C, BitVec.ofNat 32 (p + 2))
  else none

/-- Whether code of thread `k` may run: a bough's once the boughs have started, after the fabric image has passed and, under 0b11,
after RELEASE (03, R80, R84, Table 3.2). -/
def State.mayRun (s : State) (k : Nat) : Bool := decide (512 ≤ k) || s.boot.boughsOn

/-- Issues one instruction of `n` bytes of thread `k`: only a thread in RUN whose bough has started issues; a fetch exception is taken
first; else `body` acts, given the instruction's address. -/
def State.issue (s : State) (k n : Nat) (body : Word → State → State) : State :=
  let t := s.thr k
  if t.state = .run ∧ s.mayRun k = true then
    match s.fetchExc k n t.pc with
    | some e => s.raiseExc k e.1 e.2 t.pc
    | none => body t.pc s
  else s

/-- An instruction that raises no exception of its own: the thread changes by `f` and goes on after the instruction. -/
def State.plain (s : State) (k n : Nat) (f : Thread → Thread) : State :=
  s.issue k n (fun pc s => s.updThr k (fun t => { f t with pc := pc + BitVec.ofNat 32 n }))

end Sys2Proof.Machine
end

