-- ==== Sys2Proof/Machine/Flags.lean ====
section
/-! DEFINITION. The flags of TSR (04, Table 4.4), rounding (Table 4.5), saturation (R115, R116) and the branch conditions
(05, Table 5.13). -/

namespace Sys2Proof.Machine

/-- TSR with bit `n` set to `b`. -/
def putBit (w : Word) (n : Nat) (b : Bool) : Word :=
  (w &&& ~~~ BitVec.ofNat 32 (2 ^ n)) ||| (if b then BitVec.ofNat 32 (2 ^ n) else 0)

/-- Sets Z and N. -/
def Thread.setZN (t : Thread) (z n : Bool) : Thread := { t with tsr := putBit (putBit t.tsr 0 z) 1 n }

/-- Sets Z, N, C and V. -/
def Thread.setZNCV (t : Thread) (z n c v : Bool) : Thread :=
  { t with tsr := putBit (putBit (putBit (putBit t.tsr 0 z) 1 n) 2 c) 3 v }

/-- Z and N of a 32-bit result. -/
def Thread.flagsZN (t : Thread) (r : Word) : Thread := t.setZN (r == 0) r.msb

/-- The flags. -/
def Thread.fz (t : Thread) : Bool := bitOf t.tsr 0
def Thread.fn (t : Thread) : Bool := bitOf t.tsr 1
def Thread.fc (t : Thread) : Bool := bitOf t.tsr 2
def Thread.fv (t : Thread) : Bool := bitOf t.tsr 3

/-- TSR.SATEN (R115). -/
def Thread.saten (t : Thread) : Bool := bitOf t.tsr 5

/-- TSR.RND (R113). -/
def Thread.rnd (t : Thread) : Nat := t.tsr.toNat / 2 ^ 6 % 4

/-- a + b + cin: the low 32 bits, the carry out and the signed overflow (Table 4.4). -/
def addCV (a b : Word) (cin : Bool) : Word × Bool × Bool :=
  let u := a.toNat + b.toNat + cin.toNat
  let i := a.toInt + b.toInt + (cin.toNat : Int)
  (BitVec.ofNat 32 u, decide (2 ^ 32 ≤ u), decide (i < -(2 ^ 31 : Int) ∨ (2 ^ 31 : Int) ≤ i))

/-- Writes a sum to `rd` and sets Z N C V. -/
def Thread.putSum (t : Thread) (rd : Nat) (r : Word × Bool × Bool) : Thread :=
  (t.setG rd r.1).setZNCV (r.1 == 0) r.1.msb r.2.1 r.2.2

/-- Writes a logic or shift result to `rd` and sets Z N. -/
def Thread.putZN (t : Thread) (rd : Nat) (r : Word) : Thread := (t.setG rd r).flagsZN r

/-- `x / 2^k` rounded to an integer under RND (Table 4.5). -/
def roundShift (rnd : Nat) (x : Int) (k : Nat) : Int :=
  let p : Int := ((2 ^ k : Nat) : Int)
  let q := x / p
  if rnd = 1 then (2 * x + p) / (2 * p)
  else if rnd = 2 then
    let r2 := 2 * (x - q * p)
    if r2 < p then q else if p < r2 then q + 1 else if q % 2 = 0 then q else q + 1
  else q

/-- Whether an integer fits in `w` signed bits. -/
def fits (w : Nat) (x : Int) : Bool := decide (-((2 ^ (w - 1) : Nat) : Int) ≤ x ∧ x < ((2 ^ (w - 1) : Nat) : Int))

/-- A fractional result in a `w`-bit format: saturated with SATEN, else its low bits (R115, R116). -/
def satTo (w : Nat) (saten : Bool) (x : Int) : BitVec w :=
  if fits w x || !saten then BitVec.ofInt w x
  else if x < 0 then BitVec.ofInt w (-((2 ^ (w - 1) : Nat) : Int)) else BitVec.ofInt w (((2 ^ (w - 1) : Nat) : Int) - 1)

/-- TSR.SAT after a result that did not fit (R115, R118). -/
def Thread.noteSat (t : Thread) (didFit : Bool) : Thread :=
  if !didFit && t.saten then { t with tsr := putBit t.tsr 4 true } else t

/-- Writes an exact integer to accumulator `ad`: saturation, SAT, and Z N C V with w = 40 (R112, R115, R167). -/
def Thread.putAcc (t : Thread) (ad : Nat) (x : Int) (c : Bool) : Thread :=
  let r := satTo 40 t.saten x
  (((t.setAcc ad r).noteSat (fits 40 x)).setZNCV (r == 0) r.msb c (!fits 40 x))

/-- Writes a Q1.31 result to `rd`: saturation, SAT, and Z N C V with w = 32. -/
def Thread.putFrac (t : Thread) (rd : Nat) (x : Int) (c : Bool) : Thread :=
  let r := satTo 32 t.saten x
  (((t.setG rd r).noteSat (fits 32 x)).setZNCV (r == 0) r.msb c (!fits 32 x))

/-- A Q1.31 product rounded to 31 fraction bits (R110). -/
def Thread.prodL (t : Thread) (a b : Word) : Int := roundShift t.rnd (a.toInt * b.toInt) 31

/-- Element `i` of a packed Q1.15 pair. -/
def elem (a : Word) (i : Nat) : BitVec 16 := BitVec.ofNat 16 (a.toNat / 2 ^ (16 * i))

/-- The product of element `i`: Q2.30 shifted left by one (R111). -/
def prodP (a b : Word) (i : Nat) : Int := (elem a i).toInt * (elem b i).toInt * 2

/-- An integer as an unsigned number of 40 bits. -/
def u40 (x : Int) : Nat := ofSigned 40 x

/-- Whether a branch condition holds (Table 5.13). -/
def Thread.holds (t : Thread) (c : Cond) : Bool :=
  let z := t.fz; let n := t.fn; let cy := t.fc; let v := t.fv
  match c.toNat with
  | 0 => true
  | 1 => z
  | 2 => !z
  | 3 => !cy
  | 4 => cy
  | 5 => cy && !z
  | 6 => !cy || z
  | 7 => n != v
  | 8 => n == v
  | 9 => !z && n == v
  | 10 => z || n != v
  | 11 => n
  | 12 => !n
  | 13 => v
  | 14 => !v
  | _ => bitOf t.tsr 4

end Sys2Proof.Machine
end

