-- ==== Sys2Proof/Machine/Operands.lean ====
section
/-! DEFINITION. The operand forms of the instructions (05, Tables 5.2, 5.5): the width in bytes, the destination register's number
and the source values of each form; branch targets (R153); address generators (Table 4.7). -/

namespace Sys2Proof.Machine

/-- Bytes of a form that is 16 or 32 bits wide. -/
def wdBytes : Wd → Nat
  | .c => 2
  | .w => 4

/-- Width, destination and the two source values of a register-register instruction. -/
def aluArgs (t : Thread) : AluForm → Nat × Nat × Word × Word
  | .c rd rs => (2, rd.toNat, t.gr rd.toNat, t.gr rs.toNat)
  | .w rd ra rb => (4, rd.toNat, t.gr ra.toNat, t.gr rb.toNat)

/-- Width, destination and source value of an instruction of one source. -/
def unaryArgs (t : Thread) : UnaryForm → Nat × Nat × Word
  | .c rd rs => (2, rd.toNat, t.gr rs.toNat)
  | .w rd ra => (4, rd.toNat, t.gr ra.toNat)

/-- Width, destination, source value and sign-extended immediate of ADDI. -/
def addiArgs (t : Thread) : AddiForm → Nat × Nat × Word × Word
  | .c rd imm => (2, rd.toNat, t.gr rd.toNat, imm.signExtend 32)
  | .w rd ra imm => (4, rd.toNat, t.gr ra.toNat, imm.signExtend 32)

/-- Width, destination, source value and count of a shift by an immediate. -/
def shiftArgs (t : Thread) : ShiftForm → Nat × Nat × Word × Nat
  | .c rd sh => (2, rd.toNat, t.gr rd.toNat, sh.toNat)
  | .w rd ra sh => (4, rd.toNat, t.gr ra.toNat, sh.toNat)

/-- Width, data register and effective address of LDW and STW (R160, Table 5.3). -/
def memArgs (t : Thread) : MemForm → Nat × Nat × Word
  | .c r rb off => (2, r.toNat, t.gr rb.toNat + BitVec.ofNat 32 (4 * off.toNat))
  | .w r ra imm => (4, r.toNat, t.gr ra.toNat + imm.signExtend 32)

/-- Width, data register, generator and update of an addressed access. -/
def agArgs : AgForm → Nat × Nat × Nat × Bool
  | .c r n u => (2, r.toNat, n.val, u)
  | .w r n u => (4, r.toNat, n.val, u)

/-- Width, condition and offset of a conditional branch. -/
def bccArgs : BccForm → Nat × Cond × Word
  | .c c off => (2, c, off.signExtend 32)
  | .w c off => (4, c, off.signExtend 32)

/-- Width, tested register and offset of BZ and BNZ. -/
def bzArgs : BzForm → Nat × Nat × Word
  | .c rs off => (2, rs.toNat, off.signExtend 32)
  | .w rs off => (4, rs.toNat, off.signExtend 32)

/-- The target of a PC-relative branch at `pc` (R153). -/
def target (pc off : Word) : Word := pc + off * 2

/-- The effective address of an addressed access (R125). -/
def AddrGen.ea (g : AddrGen) : Word := g.base + g.idx

/-- LEN, where 0 stands for 65,536. -/
def AddrGen.lenOf (g : AddrGen) : Nat := if g.len = 0 then 65536 else g.len.toNat

/-- The `k` low bits of a number in reverse order. -/
def revBits : Nat → Nat → Nat
  | 0, _ => 0
  | k + 1, x => x % 2 * 2 ^ k + revBits k (x / 2)

/-- The index after a post-update (Table 4.7, R142). -/
def AddrGen.next (g : AddrGen) : Word :=
  match g.mode.toNat with
  | 0 => g.idx + g.step.signExtend 32
  | 1 => BitVec.ofInt 32 (((g.idx.toNat : Int) + g.step.toInt) % (g.lenOf : Int))
  | _ =>
    let k := Nat.log2 g.lenOf
    let low := revBits k ((revBits k g.idx.toNat + revBits k g.step.toNat) % 2 ^ k)
    BitVec.ofNat 32 (g.idx.toNat / 2 ^ k * 2 ^ k + low)

/-- The generator after a post-update. -/
def AddrGen.bump (g : AddrGen) : AddrGen := { g with idx := g.next }

end Sys2Proof.Machine
end

