-- ==== Sys2Proof/Machine/IntAlu.lean ====
section
/-! DEFINITION. Meanings of the integer instructions (05, Tables 5.3, 5.7, 5.8), of the fractional and multiply-accumulate ones
(Table 5.11) and of the branches and jumps (Table 5.12). None of them raises an exception of its own. -/

namespace Sys2Proof.Machine

/-! ## Shared shapes -/

/-- A register-register instruction: `f` gives the thread from destination and sources. -/
def State.aluOp (s : State) (t : Thr) (fm : AluForm) (f : Thread → Nat → Word → Word → Thread) : State :=
  s.plain (thrKey t) (aluArgs (s.thr (thrKey t)) fm).1 (fun th => let a := aluArgs th fm; f th a.2.1 a.2.2.1 a.2.2.2)

/-- A 32-bit register-register instruction. -/
def State.rOp (s : State) (t : Thr) (rd ra rb : BitVec 5) (f : Thread → Nat → Word → Word → Thread) : State :=
  s.plain (thrKey t) 4 (fun th => f th rd.toNat (th.gr ra.toNat) (th.gr rb.toNat))

/-- A shift by an immediate. -/
def State.shiftOp (s : State) (t : Thr) (fm : ShiftForm) (f : Word → Nat → Word) : State :=
  s.plain (thrKey t) (shiftArgs (s.thr (thrKey t)) fm).1 (fun th =>
    let a := shiftArgs th fm; th.putZN a.2.1 (f a.2.2.1 a.2.2.2))

/-- A 32-bit instruction with a 16-bit immediate. -/
def State.immOp (s : State) (t : Thr) (rd ra : BitVec 5) (imm : BitVec 16) (f : Thread → Nat → Word → Word → Thread) : State :=
  s.plain (thrKey t) 4 (fun th => f th rd.toNat (th.gr ra.toNat) (imm.zeroExtend 32))

/-- The four bytes of a word reversed. -/
def bswap32 (a : Word) : Word := BitVec.ofNat 32 (beNat (leBytes 4 a.toNat))

/-- The number of 1 bits of a number of `n` bits. -/
def popNat : Nat → Nat → Nat
  | 0, _ => 0
  | n + 1, x => x % 2 + popNat n (x / 2)

/-- The leading zeros of a word. -/
def clz32 (a : Word) : Word := BitVec.ofNat 32 (if a = 0 then 32 else 31 - Nat.log2 a.toNat)

/-- EXTU (Table 5.7). -/
def extu32 (a b : Word) : Word :=
  let p := b.toNat % 32
  let w := b.toNat / 2 ^ 8 % 64
  BitVec.ofNat 32 (a.toNat / 2 ^ p % 2 ^ min w 32)

/-! ## Integer instructions -/

/-- MV (R155). -/
def execMv (t : Thr) (rd rs : BitVec 4) (s : State) : Res :=
  .next (s.plain (thrKey t) 2 (fun th => th.setG rd.toNat (th.gr rs.toNat)))

/-- ADD (R155, R157). -/
def execAdd (t : Thr) (f : AluForm) (s : State) : Res := .next (s.aluOp t f (fun th rd a b => th.putSum rd (addCV a b false)))

/-- SUB (R155, R157): a + NOT b + 1, so C = 1 means no borrow. -/
def execSub (t : Thr) (f : AluForm) (s : State) : Res := .next (s.aluOp t f (fun th rd a b => th.putSum rd (addCV a (~~~ b) true)))

/-- AND. -/
def execAnd (t : Thr) (f : AluForm) (s : State) : Res := .next (s.aluOp t f (fun th rd a b => th.putZN rd (a &&& b)))

/-- OR. -/
def execOr (t : Thr) (f : AluForm) (s : State) : Res := .next (s.aluOp t f (fun th rd a b => th.putZN rd (a ||| b)))

/-- XOR. -/
def execXor (t : Thr) (f : AluForm) (s : State) : Res := .next (s.aluOp t f (fun th rd a b => th.putZN rd (a ^^^ b)))

/-- SLL by rb[4:0] (R158). -/
def execSll (t : Thr) (f : AluForm) (s : State) : Res := .next (s.aluOp t f (fun th rd a b => th.putZN rd (a <<< (b.toNat % 32))))

/-- SRL by rb[4:0] (R158). -/
def execSrl (t : Thr) (f : AluForm) (s : State) : Res := .next (s.aluOp t f (fun th rd a b => th.putZN rd (a >>> (b.toNat % 32))))

/-- SRA by rb[4:0] (R158). -/
def execSra (t : Thr) (f : AluForm) (s : State) : Res :=
  .next (s.aluOp t f (fun th rd a b => th.putZN rd (a.sshiftRight (b.toNat % 32))))

/-- CMP: the flags of rd − rs, no register written (R155). -/
def execCmp (t : Thr) (rd rs : BitVec 4) (s : State) : Res :=
  .next (s.plain (thrKey t) 2 (fun th => th.putSum 0 (addCV (th.gr rd.toNat) (~~~ th.gr rs.toNat) true)))

/-- NEG: 0 − rs (R155). -/
def execNeg (t : Thr) (rd rs : BitVec 4) (s : State) : Res :=
  .next (s.plain (thrKey t) 2 (fun th => th.putSum rd.toNat (addCV 0 (~~~ th.gr rs.toNat) true)))

/-- NOT (R155). -/
def execNot (t : Thr) (rd rs : BitVec 4) (s : State) : Res :=
  .next (s.plain (thrKey t) 2 (fun th => th.putZN rd.toNat (~~~ th.gr rs.toNat)))

/-- BSWAP (R155, R157). -/
def execBswap (t : Thr) (f : UnaryForm) (s : State) : Res :=
  .next (s.plain (thrKey t) (unaryArgs (s.thr (thrKey t)) f).1 (fun th =>
    let a := unaryArgs th f; th.setG a.2.1 (bswap32 a.2.2)))

/-- ADDI (R155, R159). -/
def execAddi (t : Thr) (f : AddiForm) (s : State) : Res :=
  .next (s.plain (thrKey t) (addiArgs (s.thr (thrKey t)) f).1 (fun th =>
    let a := addiArgs th f; th.putSum a.2.1 (addCV a.2.2.1 a.2.2.2 false)))

/-- LI (R155). -/
def execLi (t : Thr) (rd : BitVec 4) (simm : BitVec 8) (s : State) : Res :=
  .next (s.plain (thrKey t) 2 (fun th => th.setG rd.toNat (simm.signExtend 32)))

/-- SLLI. -/
def execSlli (t : Thr) (f : ShiftForm) (s : State) : Res := .next (s.shiftOp t f (fun a n => a <<< n))

/-- SRLI. -/
def execSrli (t : Thr) (f : ShiftForm) (s : State) : Res := .next (s.shiftOp t f (fun a n => a >>> n))

/-- SRAI. -/
def execSrai (t : Thr) (f : ShiftForm) (s : State) : Res := .next (s.shiftOp t f (fun a n => a.sshiftRight n))

/-- CMPI (R155). -/
def execCmpi (t : Thr) (rs : BitVec 4) (simm : BitVec 8) (s : State) : Res :=
  .next (s.plain (thrKey t) 2 (fun th => th.putSum 0 (addCV (th.gr rs.toNat) (~~~ simm.signExtend 32) true)))

/-- MUL: the low 32 bits of the product (R157). -/
def execMul (t : Thr) (rd ra rb : BitVec 5) (s : State) : Res := .next (s.rOp t rd ra rb (fun th rd a b => th.setG rd (a * b)))

/-- MULHS: bits 63:32 of the signed product. -/
def execMulhs (t : Thr) (rd ra rb : BitVec 5) (s : State) : Res :=
  .next (s.rOp t rd ra rb (fun th rd a b => th.setG rd (BitVec.ofInt 32 (a.toInt * b.toInt / (2 ^ 32 : Int)))))

/-- MULHU: bits 63:32 of the unsigned product. -/
def execMulhu (t : Thr) (rd ra rb : BitVec 5) (s : State) : Res :=
  .next (s.rOp t rd ra rb (fun th rd a b => th.setG rd (BitVec.ofNat 32 (a.toNat * b.toNat / 2 ^ 32))))

/-- MIN, signed. -/
def execMin (t : Thr) (rd ra rb : BitVec 5) (s : State) : Res :=
  .next (s.rOp t rd ra rb (fun th rd a b => th.setG rd (if a.toInt ≤ b.toInt then a else b)))

/-- MAX, signed. -/
def execMax (t : Thr) (rd ra rb : BitVec 5) (s : State) : Res :=
  .next (s.rOp t rd ra rb (fun th rd a b => th.setG rd (if a.toInt ≤ b.toInt then b else a)))

/-- MINU. -/
def execMinu (t : Thr) (rd ra rb : BitVec 5) (s : State) : Res :=
  .next (s.rOp t rd ra rb (fun th rd a b => th.setG rd (if a.toNat ≤ b.toNat then a else b)))

/-- MAXU. -/
def execMaxu (t : Thr) (rd ra rb : BitVec 5) (s : State) : Res :=
  .next (s.rOp t rd ra rb (fun th rd a b => th.setG rd (if a.toNat ≤ b.toNat then b else a)))

/-- ADDC: ra + rb + C. -/
def execAddc (t : Thr) (rd ra rb : BitVec 5) (s : State) : Res :=
  .next (s.rOp t rd ra rb (fun th rd a b => th.putSum rd (addCV a b th.fc)))

/-- SUBC: ra + NOT rb + C. -/
def execSubc (t : Thr) (rd ra rb : BitVec 5) (s : State) : Res :=
  .next (s.rOp t rd ra rb (fun th rd a b => th.putSum rd (addCV a (~~~ b) th.fc)))

/-- CLZ. -/
def execClz (t : Thr) (rd ra : BitVec 5) (s : State) : Res := .next (s.rOp t rd ra 0 (fun th rd a _ => th.setG rd (clz32 a)))

/-- POPC. -/
def execPopc (t : Thr) (rd ra : BitVec 5) (s : State) : Res :=
  .next (s.rOp t rd ra 0 (fun th rd a _ => th.setG rd (BitVec.ofNat 32 (popNat 32 a.toNat))))

/-- EXTU. -/
def execExtu (t : Thr) (rd ra rb : BitVec 5) (s : State) : Res := .next (s.rOp t rd ra rb (fun th rd a b => th.setG rd (extu32 a b)))

/-- ANDI with a zero-extended immediate (R159). -/
def execAndi (t : Thr) (rd ra : BitVec 5) (imm : BitVec 16) (s : State) : Res :=
  .next (s.immOp t rd ra imm (fun th rd a i => th.putZN rd (a &&& i)))

/-- ORI with a zero-extended immediate. -/
def execOri (t : Thr) (rd ra : BitVec 5) (imm : BitVec 16) (s : State) : Res :=
  .next (s.immOp t rd ra imm (fun th rd a i => th.putZN rd (a ||| i)))

/-- LUI. -/
def execLui (t : Thr) (rd : BitVec 5) (imm : BitVec 16) (s : State) : Res :=
  .next (s.immOp t rd 0 imm (fun th rd _ i => th.setG rd (i <<< 16)))

/-! ## Fractional and multiply-accumulate (R167, R168) -/

/-- The carry out of a 40-bit addition; a subtraction a − b adds NOT b and 1. -/
def carry40 (a : BitVec 40) (x : Int) (sub : Bool) : Bool :=
  if sub then decide (u40 x ≤ a.toNat) else decide (2 ^ 40 ≤ a.toNat + u40 x)

/-- MACL: ad + P. -/
def execMacl (t : Thr) (ad : BitVec 2) (ra rb : BitVec 5) (s : State) : Res :=
  .next (s.rOp t 0 ra rb (fun th _ a b =>
    let p := th.prodL a b
    th.putAcc ad.toNat ((th.acc ad.toNat).toInt + p) (carry40 (th.acc ad.toNat) p false)))

/-- MSUL: ad − P. -/
def execMsul (t : Thr) (ad : BitVec 2) (ra rb : BitVec 5) (s : State) : Res :=
  .next (s.rOp t 0 ra rb (fun th _ a b =>
    let p := th.prodL a b
    th.putAcc ad.toNat ((th.acc ad.toNat).toInt - p) (carry40 (th.acc ad.toNat) p true)))

/-- MPYL: P, with C 0. -/
def execMpyl (t : Thr) (ad : BitVec 2) (ra rb : BitVec 5) (s : State) : Res :=
  .next (s.rOp t 0 ra rb (fun th _ a b => th.putAcc ad.toNat (th.prodL a b) false))

/-- MACP: ad + P0 + P1, saturated once (R168). -/
def execMacp (t : Thr) (ad : BitVec 2) (ra rb : BitVec 5) (s : State) : Res :=
  .next (s.rOp t 0 ra rb (fun th _ a b =>
    th.putAcc ad.toNat ((th.acc ad.toNat).toInt + prodP a b 0 + prodP a b 1)
      (decide (2 ^ 40 ≤ (th.acc ad.toNat).toNat + u40 (prodP a b 0) + u40 (prodP a b 1)))))

/-- MSUP: ad − P0 − P1. -/
def execMsup (t : Thr) (ad : BitVec 2) (ra rb : BitVec 5) (s : State) : Res :=
  .next (s.rOp t 0 ra rb (fun th _ a b =>
    th.putAcc ad.toNat ((th.acc ad.toNat).toInt - prodP a b 0 - prodP a b 1)
      (decide (u40 (prodP a b 0) + u40 (prodP a b 1) ≤ (th.acc ad.toNat).toNat))))

/-- EXT's exact result before saturation: a shift left by s, or a rounded shift right (R119). -/
def extValue (rnd : Nat) (a : BitVec 40) (sh : Int) : Int :=
  if 0 ≤ sh then a.toInt * ((2 ^ sh.toNat : Nat) : Int) else roundShift rnd a.toInt (-sh).toNat

/-- EXT: Z N V with w = 32; a shift outside −8 to +8 raises ILLEGAL (R119, R169). -/
def execExt (t : Thr) (rd : BitVec 5) (an : BitVec 2) (sh : BitVec 5) (s : State) : Res :=
  .next (s.issue (thrKey t) 4 (fun pc s =>
    if sh.toInt < -8 ∨ 8 < sh.toInt then
      s.raiseExc (thrKey t) 0x01 (firstHalf (.ext t rd an sh)) pc
    else s.updThr (thrKey t) (fun th =>
      { th.putFrac rd.toNat (extValue th.rnd (th.acc an.toNat) sh.toInt) th.fc with pc := pc + 4 })))

/-- ACLR. -/
def execAclr (t : Thr) (ad : BitVec 2) (s : State) : Res := .next (s.plain (thrKey t) 4 (fun th => th.setAcc ad.toNat 0))

/-- AMOV: sign extension into the guard bits (R109). -/
def execAmov (t : Thr) (ad : BitVec 2) (ra : BitVec 5) (s : State) : Res :=
  .next (s.plain (thrKey t) 4 (fun th => th.setAcc ad.toNat ((th.gr ra.toNat).signExtend 40)))

/-- AADD: ad + an. -/
def execAadd (t : Thr) (ad an : BitVec 2) (s : State) : Res :=
  .next (s.plain (thrKey t) 4 (fun th =>
    th.putAcc ad.toNat ((th.acc ad.toNat).toInt + (th.acc an.toNat).toInt)
      (carry40 (th.acc ad.toNat) (th.acc an.toNat).toInt false)))

/-- FADD: Q1.31 sum. -/
def execFadd (t : Thr) (rd ra rb : BitVec 5) (s : State) : Res :=
  .next (s.rOp t rd ra rb (fun th rd a b => th.putFrac rd (a.toInt + b.toInt) (addCV a b false).2.1))

/-- FSUB: Q1.31 difference. -/
def execFsub (t : Thr) (rd ra rb : BitVec 5) (s : State) : Res :=
  .next (s.rOp t rd ra rb (fun th rd a b => th.putFrac rd (a.toInt - b.toInt) (addCV a (~~~ b) true).2.1))

/-- The exact sum or difference of element `i`. -/
def packedExact (sub : Bool) (a b : Word) (i : Nat) : Int :=
  if sub then (elem a i).toInt - (elem b i).toInt else (elem a i).toInt + (elem b i).toInt

/-- PADD and PSUB: each element saturates on its own, the flags come from element 1 with w = 16 (R112, R115, R167). -/
def Thread.packed (t : Thread) (sub : Bool) (rd : Nat) (a b : Word) : Thread :=
  let x0 := packedExact sub a b 0
  let x1 := packedExact sub a b 1
  let r0 := satTo 16 t.saten x0
  let r1 := satTo 16 t.saten x1
  let c := if sub then decide ((elem b 1).toNat ≤ (elem a 1).toNat) else decide (2 ^ 16 ≤ (elem a 1).toNat + (elem b 1).toNat)
  (((t.setG rd (r1 ++ r0)).noteSat (fits 16 x0 && fits 16 x1)).setZNCV (r1 == 0) r1.msb c (!fits 16 x1))

/-- PADD. -/
def execPadd (t : Thr) (rd ra rb : BitVec 5) (s : State) : Res := .next (s.rOp t rd ra rb (fun th rd a b => th.packed false rd a b))

/-- PSUB. -/
def execPsub (t : Thr) (rd ra rb : BitVec 5) (s : State) : Res := .next (s.rOp t rd ra rb (fun th rd a b => th.packed true rd a b))

/-- FSRA: a fractional shift right, rounded; no flags (R114, Table 5.11). A rounded result always fits. -/
def execFsra (t : Thr) (rd ra rb : BitVec 5) (s : State) : Res :=
  .next (s.rOp t rd ra rb (fun th rd a b => th.setG rd (BitVec.ofInt 32 (roundShift th.rnd a.toInt (b.toNat % 32)))))

/-! ## Branches and jumps (R153, R154, R170) -/

/-- A branch: taken to its target, else on to the next instruction. -/
def State.branch (s : State) (k n : Nat) (off : Word) (cond : Thread → Bool) : State :=
  s.issue k n (fun pc s => s.updThr k (fun th =>
    { th with pc := if cond th then target pc off else pc + BitVec.ofNat 32 n }))

/-- B. -/
def execB (t : Thr) (off : BitVec 12) (s : State) : Res := .next (s.branch (thrKey t) 2 (off.signExtend 32) (fun _ => true))

/-- BCOND (Table 5.13). -/
def execBcond (t : Thr) (f : BccForm) (s : State) : Res :=
  .next (s.branch (thrKey t) (bccArgs f).1 (bccArgs f).2.2 (fun th => th.holds (bccArgs f).2.1))

/-- BZ. -/
def execBz (t : Thr) (f : BzForm) (s : State) : Res :=
  .next (s.branch (thrKey t) (bzArgs f).1 (bzArgs f).2.2 (fun th => th.gr (bzArgs f).2.1 == 0))

/-- BNZ. -/
def execBnz (t : Thr) (f : BzForm) (s : State) : Res :=
  .next (s.branch (thrKey t) (bzArgs f).1 (bzArgs f).2.2 (fun th => th.gr (bzArgs f).2.1 != 0))

/-- J. -/
def execJ (t : Thr) (off : BitVec 26) (s : State) : Res := .next (s.branch (thrKey t) 4 (off.signExtend 32) (fun _ => true))

/-- JR. -/
def execJr (t : Thr) (rs : BitVec 4) (s : State) : Res :=
  .next (s.issue (thrKey t) 2 (fun _ s => s.updThr (thrKey t) (fun th => { th with pc := th.gr rs.toNat })))

end Sys2Proof.Machine
end

