-- ==== Sys2Proof/Machine/IsaThread.lean ====
section
/-! DEFINITION. Meanings of the thread-control instructions and of the thread events (05, Table 5.14; 06), of the system
instructions (05, Table 5.16), and of the fetch exceptions and illegal words. -/

namespace Sys2Proof.Machine

/-! ## Fetching -/

/-- INSTRUCTION_FETCH: the memory that holds the `k`-th halfword at or after the PC reports the error it meets there (R707,
R179). A halfword outside the memory is not fetched. -/
def execInstructionFetch (t : Thr) (k : Fin 4) (s : State) : Res :=
  .next (
    let key := thrKey t
    let p := (s.thr key).pc.toNat + 2 * k.val
    if (s.thr key).state ≠ .run ∨ s.mayRun key = false ∨ 0x40000 ≤ p ∨ p % 2 = 1 then s
    else match t with
      | .scion _ =>
        (s.memRead (.imem (boughOf key)) (0x100000000 + boughOf key * 0x1000000 + p) 2).2
      | .rs _ => match s.fetchEcc key p with
        | 0 => s
        | 1 => s.fault 3 3
        | _ => s.fault 3 2)

/-- FETCH_FAULT: an issue from an odd offset or from 256 KiB or above raises FETCH (R124, R149, R154). -/
def execFetchFault (t : Thr) (s : State) : Res :=
  .next (
    let th := s.thr (thrKey t)
    if th.state = .run ∧ s.mayRun (thrKey t) = true then
      match s.fetchExc (thrKey t) 4 th.pc with
      | some (0x03, ev) => s.raiseExc (thrKey t) 0x03 ev th.pc
      | _ => s
    else s)

/-- Raises ILLEGAL or PRIV for an instruction whose first halfword is `h0`. -/
def State.raiseHalf (s : State) (k cause : Nat) (h0 pc : Word) : State := s.raiseExc k cause h0 pc

/-- ILLEGAL_ENCODING: an undefined word raises ILLEGAL and does nothing else (R150, R151, R185). A word that the reference
defines is no such command and leaves the state as it is. -/
def execIllegalEncoding (t : Thr) (w : Word) (s : State) : Res :=
  .next (
    if (decodeWord w).isSome then s
    else s.issue (thrKey t) (if isWide (wbits w 0 16) then 4 else 2) (fun pc s =>
      s.raiseHalf (thrKey t) 0x01 ((wbits w 0 16).zeroExtend 32) pc))

/-! ## FORK, JOIN, QUIT (R200-R206, R417-R419, R708) -/

/-- Whether row `r`'s TMAP maps thread `k` (12, R416). -/
def State.mapped (s : State) (r k : Nat) : Bool := bitOf (s.reg (R.ROW_TMAP r (k / 32))) (k % 32)

/-- The threads that row `r`'s TMAP maps. -/
def State.mappedCount (s : State) (r : Nat) : Nat := ((List.range 512).filter (fun k => s.mapped r k)).length

/-- The threads that row `r` has borrowed. -/
def State.borrowedCount (s : State) (r : Nat) : Nat :=
  ((List.range 512).filter (fun k => (s.thr k).borrowed && (s.thr k).row == r)).length

/-- TMAX of row `r`: at most 512, and the mapped count at least (R418, Table 12.8). -/
def State.tmax (s : State) (r : Nat) : Nat := max (s.mappedCount r) (min 512 (s.fld (R.ROW_THR_SHARE_TMAX r)))

/-- The codes of thread `k`'s search order (R200): own scion, own bough, then the other granted boughs ascending. -/
def State.forkOrder (s : State) (k : Nat) : List Nat :=
  let b := boughOf k
  (List.range 8).map (fun i => k / 8 * 8 + i) ++ (List.range 64).map (fun i => b * 64 + i)
    ++ ((List.range 8).filter (fun c => c != b && s.granted (4 + c))).flatMap (fun c => (List.range 64).map (fun i => c * 64 + i))

/-- The thread that a FORK of scion thread `k` takes, and whether it is borrowed (R200, R417). -/
def State.forkPick (s : State) (k : Nat) : Option (Nat × Bool) :=
  let r := (s.thr k).row
  match (s.forkOrder k).find? (fun c => (s.thr c).state == .idle && (s.thr c).row == r) with
  | some c => some (c, false)
  | none =>
    if s.flag (R.ROW_THR_SHARE_MODE r) && decide (s.mappedCount r + s.borrowedCount r < s.tmax r) then
      ((s.forkOrder k).find? (fun c => (s.thr c).state == .unassigned && (List.range 8).all (fun q => !s.mapped q c))).map
        (fun c => (c, true))
    else none

/-- The child of a FORK by thread `k` (R201, R708). -/
def State.startChild (s : State) (k c : Nat) (borrowed : Bool) (pc g1 : Word) : State :=
  let p := s.thr k
  let pl := s.startPl c p.row borrowed
  s.updThr c (fun t =>
    let t := t.started p.row borrowed (some k) pc g1 pl
    { t with xar := p.xar, tpri := p.tpri,
             tsp := if c < 512 then s.reg (R.BGH_TSP (boughOf c) (c % 64)) else t.tsp })

/-- FORK (R200-R202, R417-R420, R708). -/
def execFork (t : Thr) (rd ra rb : BitVec 5) (s : State) : Res :=
  .next (s.issue (thrKey t) 4 (fun pc s =>
    let k := thrKey t
    let th := s.thr k
    let done := fun (s : State) (v : Word) => s.updThr k (fun t => { t.setG rd.toNat v with pc := pc + 4 })
    let fail := fun (s : State) => done (if k < 512 then s.satAdd (R.BGH_FORK_FAIL_COUNT (boughOf k)) 1 65535 else s) 0xFFFFFFFF
    if bitOf (th.gr ra.toNat) 0 then fail s
    else if k < 512 then
      match s.forkPick k with
      | some (c, bor) => done (s.startChild k c bor (th.gr ra.toNat) (th.gr rb.toNat)) (BitVec.ofNat 32 c)
      | none => fail s
    else
      match (List.range 8).find? (fun i => (s.thr (512 + i)).state == .idle) with
      | some i => done (s.startChild k (512 + i) false (th.gr ra.toNat) (th.gr rb.toNat)) (BitVec.ofNat 32 i)
      | none => fail s))

/-- The thread that a JOIN by thread `k` names, if it is a child of `k` (R204, R708). -/
def State.joinChild (s : State) (k : Nat) (code : Word) : Option Nat :=
  let c := if k < 512 then code.toNat else 512 + code.toNat
  if (if k < 512 then decide (c < 512) else decide (code.toNat < 8)) && (s.thr c).parent == some k then some c else none

/-- JOIN (R204): a child in DONE goes to its pool at once; another child is waited for; any other code does not wait. -/
def execJoin (t : Thr) (ra : BitVec 5) (s : State) : Res :=
  .next (s.issue (thrKey t) 4 (fun pc s =>
    let k := thrKey t
    let s := s.updThr k (fun t => { t with pc := pc + 4 })
    match s.joinChild k ((s.thr k).gr ra.toNat) with
    | some c =>
      if (s.thr c).state = .done then s.updThr c Thread.toPool
      else s.updThr k (fun t => { t with state := .wait, wait := .join c })
    | none => s))

/-- Ends the wait of thread `k`. -/
def State.wakeThr (s : State) (k : Nat) : State := s.updThr k (fun t => { t with state := .run, wait := .nothing })

/-- JOIN_COMPLETE: the child is in DONE and goes to its pool, or has ended by another route (R204). -/
def execJoinComplete (t : Thr) (s : State) : Res :=
  .next (
    let k := thrKey t
    match (s.thr k).state, (s.thr k).wait with
    | .wait, .join c =>
      if (s.thr c).parent = some k then
        (if (s.thr c).state = .done then (s.updThr c Thread.toPool).wakeThr k else s)
      else s.wakeThr k
    | _, _ => s)

/-- Whether thread `k` may not QUIT: a row's supervisor or rootstock thread 0 (R206). -/
def State.quitBarred (s : State) (k : Nat) : Bool :=
  k == 512 || (decide (k < 512) && s.fld (R.ROW_SUPV_CODE (s.thr k).row) == k)

/-- QUIT (R203, R205, R206, R474). -/
def execQuit (t : Thr) (f : Wd) (s : State) : Res :=
  .next (s.issue (thrKey t) (wdBytes f) (fun pc s =>
    let k := thrKey t
    if s.quitBarred k then s.raiseHalf k 0x01 (firstHalf (.quit t f)) pc
    else s.endThread k Thread.quitClear))

/-! ## Waits (R193, R196-R198) -/

/-- Whether thread `k`'s compare is met at the present DTB (R196). -/
def State.cmpMet (s : State) (k : Nat) : Bool :=
  decide ((BitVec.ofNat 32 s.dtbNow - (s.thr k).tcmp).toNat < 2 ^ 31)

/-- WAITT (R172, R197, R198). -/
def execWaitt (t : Thr) (ra : BitVec 5) (s : State) : Res :=
  .next (s.issue (thrKey t) 4 (fun pc s =>
    let k := thrKey t
    let v := (s.thr k).gr ra.toNat
    if 0x80000000 < v.toNat then s.raiseExc k 0x0A v pc
    else s.updThr k (fun t =>
      let t := { t with pc := pc + 4, tcmp := BitVec.ofNat 32 s.dtbNow + v, tevt := t.tevt &&& ~~~ 0x200 }
      if v = 0 then t else { t with state := .wait, wait := .waitt })))

/-- WAITT_COMPLETE (R197). -/
def execWaittComplete (t : Thr) (s : State) : Res :=
  .next (
    let k := thrKey t
    if (s.thr k).state = .wait ∧ (s.thr k).wait = .waitt ∧ s.cmpMet k = true then s.wakeThr k else s)

/-- The consumption of a WAITE (R193): the pending events within the mask go to rd and are cleared. -/
def Thread.consume (t : Thread) (rd : Nat) (mask : Byte) : Thread :=
  let hit := t.tevt &&& mask.zeroExtend 32
  { t.setG rd hit with tevt := t.tevt &&& ~~~ hit }

/-- WAITE (R193). -/
def execWaite (t : Thr) (rd ra : BitVec 5) (s : State) : Res :=
  .next (s.plain (thrKey t) 4 (fun th =>
    let mask : Byte := (th.gr ra.toNat).truncate 8
    if mask = 0 ∨ th.tevt &&& mask.zeroExtend 32 ≠ 0 then th.consume rd.toNat mask
    else { th with state := .wait, wait := .waite rd mask }))

/-- WAITE_COMPLETE (R193, R194): a post counts from the next command on. -/
def execWaiteComplete (t : Thr) (s : State) : Res :=
  .next (
    let k := thrKey t
    match (s.thr k).state, (s.thr k).wait with
    | .wait, .waite rd mask =>
      if (s.thr k).tevt &&& mask.zeroExtend 32 ≠ 0 then (s.wakeThr k).updThr k (fun t => t.consume rd.toNat mask) else s
    | _, _ => s)

/-- TIMER_COMPARE_MET (R196): an armed compare that is met posts event 6 and clears ARMED. -/
def execTimerCompareMet (t : Thr) (s : State) : Res :=
  .next (
    let k := thrKey t
    if armedOf (s.thr k).tevt && s.cmpMet k then
      (s.updThr k (fun t => { t with tevt := t.tevt &&& ~~~ 0x200 })).post k 6
    else s)

/-! ## Completion registers (R171, R174, R175) -/

/-- Takes a held completion: rd gets the word, the register is idle, Z is 0. -/
def Thread.takeCompl (t : Thread) (rd cn : Nat) (w : Word) : Thread :=
  let t := (t.setCompletion cn .idle).setG rd w
  { t with tsr := putBit t.tsr 0 false }

/-- HWAIT (R171, R174, R175). -/
def execHwait (t : Thr) (rd : BitVec 5) (cn : BitVec 3) (s : State) : Res :=
  .next (s.issue (thrKey t) 4 (fun pc s =>
    let k := thrKey t
    if 512 ≤ k then s.raiseHalf k 0x01 (firstHalf (.hwait t rd cn)) pc
    else s.updThr k (fun t =>
      let t := { t with pc := pc + 4 }
      match t.completion cn.toNat with
      | .held w => t.takeCompl rd.toNat cn.toNat w
      | .idle => { t with tsr := putBit t.tsr 0 true }
      | .outstanding => { t with state := .wait, wait := .hwait rd cn })))

/-- HWAIT_COMPLETE: the completion waited for is held. -/
def execHwaitComplete (t : Thr) (s : State) : Res :=
  .next (
    let k := thrKey t
    match (s.thr k).state, (s.thr k).wait with
    | .wait, .hwait rd cn =>
      (match (s.thr k).completion cn.toNat with
       | .held w => (s.wakeThr k).updThr k (fun t => t.takeCompl rd.toNat cn.toNat w)
       | _ => s)
    | _, _ => s)

/-- HPOLL (R174, R175). -/
def execHpoll (t : Thr) (rd : BitVec 5) (cn : BitVec 3) (s : State) : Res :=
  .next (s.issue (thrKey t) 4 (fun pc s =>
    let k := thrKey t
    if 512 ≤ k then s.raiseHalf k 0x01 (firstHalf (.hpoll t rd cn)) pc
    else s.updThr k (fun t =>
      let t := { t with pc := pc + 4 }
      match t.completion cn.toNat with
      | .held w => t.takeCompl rd.toNat cn.toNat w
      | _ => { t with tsr := putBit t.tsr 0 true })))

/-! ## System registers (04, Table 4.11; 06, Table 6.5) -/

/-- Whether a number names a system register (R177). -/
def sysReg (n : Nat) : Bool := decide (n ≤ 0x0B) || (decide (0x10 ≤ n) && decide (n ≤ 0x1F)) || (decide (0x20 ≤ n) && decide (n ≤ 0x24))

/-- RSTAT (Table 4.14). -/
def Thread.rstat (t : Thread) : Word :=
  BitVec.ofNat 32 (t.rstk.length + t.rsTop % 16 * 2 ^ 8 + (if t.rsWrapped then 2 ^ 12 else 0))

/-- TID of thread `k` (R708). -/
def Thread.tid (t : Thread) (k : Nat) : Word :=
  if k < 512 then BitVec.ofNat 32 (k + t.row % 8 * 2 ^ 16 + k % 8 * 2 ^ 24)
  else BitVec.ofNat 32 (0x210 + k % 8 * 2 ^ 24 + 2 ^ 31)

/-- THALTQ as it reads at row supervisor level or above. -/
def Thread.thaltq (t : Thread) : Word :=
  match t.haltq with
  | [] => 0
  | c :: _ => BitVec.ofNat 32 (c + (if t.haltOvf then 2 ^ 30 else 0) + 2 ^ 31)

/-- What MFS reads from system register `n` of thread `k`. -/
def Thread.sysRead (t : Thread) (k n : Nat) : Word :=
  if n = 0 then t.tsr
  else if n = 1 then t.etsr &&& ~~~ 0x200
  else if n = 2 then t.epc
  else if n = 3 then t.ecause
  else if n = 4 then t.eval
  else if n = 5 then t.tsp
  else if n = 6 then t.rstat
  else if n = 7 then (if k < 512 then 0 else t.rtvec)
  else if n < 0x0C then (t.xarOf (n - 8)).zeroExtend 32
  else if n < 0x20 then
    let g := t.agen ((n - 0x10) / 4)
    if n % 4 = 0 then g.base
    else if n % 4 = 1 then g.idx
    else if n % 4 = 2 then g.len.zeroExtend 32
    else (g.mode ++ g.step).zeroExtend 32
  else if n = 0x20 then t.tpri
  else if n = 0x21 then t.tevt
  else if n = 0x22 then t.tcmp
  else if n = 0x23 then t.tid k
  else if plOf t.tsr = 0 then 0 else t.thaltq

/-- A read of THALTQ at row supervisor level or above pops the oldest entry (Table 6.6). -/
def Thread.sysPop (t : Thread) (n : Nat) : Thread :=
  if n = 0x24 ∧ plOf t.tsr ≠ 0 then
    { t with haltq := t.haltq.tail, haltOvf := t.haltOvf && !t.haltq.tail.isEmpty }
  else t

/-- MFS (R176, R177). -/
def execMfs (t : Thr) (rd : BitVec 5) (n : Byte) (s : State) : Res :=
  .next (s.issue (thrKey t) 4 (fun pc s =>
    let k := thrKey t
    if sysReg n.toNat then
      s.updThr k (fun t => { (t.sysPop n.toNat).setG rd.toNat (t.sysRead k n.toNat) with pc := pc + 4 })
    else s.raiseHalf k 0x01 (firstHalf (.mfs t rd n)) pc))

/-- Whether an MTS to register `n` at thread level raises PRIV (R144, R145). -/
def mtsPriv (n : Nat) : Bool :=
  n == 1 || n == 7 || (decide (8 ≤ n) && decide (n < 0x0C)) || n == 3 || n == 6 || n == 0x23 || n == 0x24

/-- ETSR as an MTS stores it (R135, Table 4.12). -/
def etsrWrite (tsr v : Word) : Word :=
  let pl := if plOf v = 3 then plOf tsr else min (plOf v) (plOf tsr)
  withPl (v &&& 0x1FF) pl

/-- TPRI as an MTS leaves it (R190). -/
def tpriWrite (tsr old v : Word) : Word :=
  let cap := if plOf tsr = 0 then old.toNat / 16 % 4 else v.toNat / 16 % 4
  BitVec.ofNat 32 (min (v.toNat % 4) cap + cap * 16)

/-- What MTS leaves of thread `k` after system register `n` takes `v` (R134, R135, R143-R145, R190, R195, R196). -/
def Thread.sysWrite (t : Thread) (k n : Nat) (v : Word) : Thread :=
  if n = 0 then { t with tsr := (t.tsr &&& ~~~ 0x1FF) ||| (v &&& 0x1FF) }
  else if n = 1 then { t with etsr := etsrWrite t.tsr v }
  else if n = 2 then { t with epc := v }
  else if n = 4 then { t with eval := v }
  else if n = 5 then { t with tsp := v }
  else if n = 7 then (if k < 512 then t else { t with rtvec := v &&& 0x3FFFE })
  else if 8 ≤ n ∧ n < 0x0C then t.setXar (n - 8) (v.truncate 10)
  else if 0x10 ≤ n ∧ n < 0x20 then
    let i := (n - 0x10) / 4
    let g := t.agen i
    t.setAgen i (
      if n % 4 = 0 then { g with base := v }
      else if n % 4 = 1 then { g with idx := v }
      else if n % 4 = 2 then { g with len := v.truncate 16 }
      else { g with step := v.truncate 16, mode := v.extractLsb' 16 2 })
  else if n = 0x20 then { t with tpri := tpriWrite t.tsr t.tpri v }
  else if n = 0x21 then { t with tevt := t.tevt &&& ~~~ (v &&& 0x1FF) }
  else if n = 0x22 then { t with tcmp := v, tevt := t.tevt ||| 0x200 }
  else t

/-- MTS (R176, R177, R133, R144, R145). -/
def execMts (t : Thr) (n : Byte) (ra : BitVec 5) (s : State) : Res :=
  .next (s.issue (thrKey t) 4 (fun pc s =>
    let k := thrKey t
    let th := s.thr k
    if !sysReg n.toNat then s.raiseHalf k 0x01 (firstHalf (.mts t n ra)) pc
    else if plOf th.tsr = 0 && mtsPriv n.toNat then s.raiseHalf k 0x02 (firstHalf (.mts t n ra)) pc
    else s.updThr k (fun t => { t.sysWrite k n.toNat (t.gr ra.toNat) with pc := pc + 4 })))

/-- ERET (R140); PRIV at thread level. -/
def execEret (t : Thr) (f : Wd) (s : State) : Res :=
  .next (s.issue (thrKey t) (wdBytes f) (fun pc s =>
    let k := thrKey t
    if plOf (s.thr k).tsr = 0 then s.raiseHalf k 0x02 (firstHalf (.eret t f)) pc
    else s.updThr k Thread.returnExc))

/-- SYSC (Table 4.9, R182). -/
def execSysc (t : Thr) (f : Wd) (imm : Byte) (s : State) : Res :=
  .next (s.issue (thrKey t) (wdBytes f) (fun pc s =>
    s.raiseExc (thrKey t) 0x10 (imm.zeroExtend 32) (pc + BitVec.ofNat 32 (wdBytes f))))

/-- BRK (Table 4.9, R182). -/
def execBrk (t : Thr) (f : Wd) (imm : Byte) (s : State) : Res :=
  .next (s.issue (thrKey t) (wdBytes f) (fun pc s =>
    s.raiseExc (thrKey t) 0x11 (imm.zeroExtend 32) (pc + BitVec.ofNat 32 (wdBytes f))))

/-- FENCE (R178): every earlier access of the thread has completed, since commands take effect one after another. -/
def execFence (t : Thr) (s : State) : Res := .next (s.plain (thrKey t) 4 id)

/-! ## Commands to threads (R192, R211) -/

/-- Whether a requester may post to thread `k` (R192): a warden, or a thread or the PCIe function of the thread's row. -/
def State.mayPost (s : State) (l : Level) (k : Nat) : Bool :=
  l == .warden || ((s.thr k).state != .unassigned && l.inRow (s.thr k).row && l != .svAll)

/-- The posts of a write of BGH_EVT_POST (R191, R192, R215). -/
def State.postMask (s : State) (k : Nat) (mask : Byte) : State :=
  (List.range 8).foldl (fun s i => if mask.toNat.testBit i then s.post k i else s) s

/-- RELEASE (R211, R205, R17, R146): a HALTED thread is reset and enters DONE or its pool. -/
def State.releaseThr (s : State) (k : Nat) : State :=
  if (s.thr k).state = .halted then s.endThread k Thread.reset else s

/-- RESUME (R211): a HALTED thread goes on at EPC with TSR from ETSR. -/
def State.resumeThr (s : State) (k : Nat) : State :=
  if (s.thr k).state = .halted then s.updThr k (fun t => { t.returnExc with state := .run }) else s

/-- Whether a level commands thread `k` (R211; Table 6.8 for its BGH_TSP): a warden, or a row supervisor of the thread's row. A
thread in UNASSIGNED is of no row. -/
def State.supervisesThr (s : State) (l : Level) (k : Nat) : Bool :=
  l == .warden || ((s.thr k).state != .unassigned && l.supervises (s.thr k).row)

/-- The command of a BGH_TSTATE write (R211). -/
def State.threadCmd (s : State) (k cmd : Nat) : State :=
  match cmd with
  | 1 => s.releaseThr k
  | 2 => s.resumeThr k
  | _ => s

end Sys2Proof.Machine
end

