-- ==== Sys2Proof/Machine/Store.lean ====
section
/-! DEFINITION. The non-volatile store (16, R574-R581) and the fault store in it (17, R596-R598): bytes and check bits, the
hold-up check, page programming, the two-slot records and their winner. -/

namespace Sys2Proof.Machine

/-- One byte of the store; an erased byte reads 0xFF (log 6). -/
def State.nvByte (s : State) (off : Nat) : Byte := tabGet 0xFF off s.nv

/-- `n` bytes of the store. -/
def State.nvBytes (s : State) (off n : Nat) : Bytes := (List.range n).map (fun i => s.nvByte (off + i))

/-- The inverted check bits of the store word at `off`. -/
def State.nvEccAt (s : State) (off : Nat) : Nat := tabGet 0 (off / 4) s.nvEcc

/-- Reads `n` bytes of the store; `none`, with NV_FAULT_STATUS.UE, where a word has an uncorrected error (Table 17.5). -/
def State.nvRead (s : State) (off n : Nat) : Option Bytes × State :=
  if (wordsOf off n).any (fun w => s.nvEccAt w == 2) then (none, s.fault 14 3) else (some (s.nvBytes off n), s)

/-- Whether one of the `n` bytes from `off` lies in a word with an uncorrected error. -/
def State.nvBad (s : State) (off n : Nat) : Bool :=
  s.nvEcc.any (fun c => c.2 == 2 && decide (off < 4 * c.1 + 4) && decide (4 * c.1 < off + n))

/-- What a read of `n` bytes of the store reports (R605). -/
def State.nvMeet (s : State) (off n : Nat) : State := if s.nvBad off n then s.fault 14 3 else s

/-- Writes bytes of the store from `off`. -/
def State.nvPoke (s : State) (off : Nat) : Bytes → State
  | [] => s
  | b :: bs => ({ s with nv := tabSet 0xFF off b s.nv }).nvPoke (off + 1) bs

/-- Writes the check bits of the `n` words from word `w`, with any armed injection (R604, R605, R705). -/
def State.nvCheck (s : State) : Nat → Nat → State
  | 0, _ => s
  | n + 1, w =>
    let r := s.inject 25
    ({ r.2 with nvEcc := tabSet 0 w r.1 r.2.nvEcc }).nvCheck n (w + 1)

/-- R577, R578: measures VHOLD with `code` and reports V and E; whether a page may be programmed. -/
def State.holdUp (s : State) (code : Nat) : Bool × State :=
  let v := code * (s.reg R.NV_HOLD_SCALE).toNat / 4096
  let vmin := (s.reg R.NV_HOLD_VMIN).toNat
  let c := (s.reg R.NV_HOLD_C).toNat
  let e := if c = 0 ∨ v ≤ vmin then 0 else c * (v * v - vmin * vmin) / 2000000
  let req := s.fld R.NV_HOLD_E_EFIX + 2 * s.fld R.NV_HOLD_E_EPAGE
  (decide (5 * req ≤ 4 * e), (s.setReg R.NV_HOLD_V (BitVec.ofNat 32 v)).setReg R.NV_HOLD_EN (BitVec.ofNat 32 e))

/-- `n` free bytes. -/
def freeBytes (ctr n : Nat) : Bytes := (List.range n).map (fun i => Config.freeByte (ctr * 0x1000000 + i))

/-- R575, R576: programs page `p` with 256 bytes, reads it back and compares. A page that does not compare holds bytes the
spec does not give (log 1), and PROG_FAIL is set. -/
def State.programPage (s : State) (p : Nat) (bs : Bytes) (mismatch : Bool) : State :=
  let n := tabGet 0 p s.nvCounts + 1
  let s := { s with nvCounts := tabSet 0 p n s.nvCounts }
  let s := if s.fld R.NV_STATUS_WEAR_MAX < n then s.setFld R.NV_STATUS_WEAR_MAX (min n 0xFFFFFF) else s
  let s := if 100000 < n then s.fault 14 2 else s
  if mismatch then
    let s := (s.nvPoke (256 * p) (freeBytes s.freeCtr 256)).tookFree
    (s.nvCheck 64 (64 * p)).fault 14 1
  else (s.nvPoke (256 * p) bs).nvCheck 64 (64 * p)

/-- A page merged with bytes that begin at `off` inside it (R575). -/
def mergePage (old : Bytes) (off : Nat) (bs : Bytes) : Bytes := (old.take off ++ bs ++ old.drop (off + bs.length)).take 256

/-! ## Two-slot records (Table 16.7, R579, R581) -/

/-- The store offset of slot `i` of record kind `k` (0 calibration, 1 configuration). -/
def recSlot (k i : Nat) : Nat := 0x180000 + 0x10000 * k + 0x8000 * i

/-- The SEQ and LEN of a slot, if it is valid (R579). -/
def State.recValid (s : State) (k i : Nat) : Option (Nat × Nat) :=
  let o := recSlot k i
  let h := s.nvBytes o 24
  let len := leNat (slice 12 4 h)
  let bad := (wordsOf o 24).any (fun w => s.nvEccAt w == 2)
  if !bad && h.take 4 == [0x44, 0x58, 0x52, 0x43] && leNat (slice 4 2 h) == k + 1 && leNat (slice 6 2 h) == 1
      && crc32Ieee (h.take 20) == leNat (slice 20 4 h) && decide (4 ≤ len) && decide (len ≤ 32512)
      && !(wordsOf (o + 256) len).any (fun w => s.nvEccAt w == 2)
      && crc32Ieee (s.nvBytes (o + 256) len) == leNat (slice 16 4 h)
  then some (leNat (slice 8 4 h), len) else none

/-- The winning slot of a kind: (slot, SEQ, LEN) (R581). -/
def State.recWinner (s : State) (k : Nat) : Option (Nat × Nat × Nat) :=
  match s.recValid k 0, s.recValid k 1 with
  | some a, some b => if a.1 < b.1 then some (1, b.1, b.2) else some (0, a.1, a.2)
  | some a, none => some (0, a.1, a.2)
  | none, some b => some (1, b.1, b.2)
  | none, none => none

/-- What the read of slot `i` of kind `k` reports: the header, and the data where the header gives them a length (R579, R605). -/
def State.recMeet (s : State) (k i : Nat) : State :=
  let o := recSlot k i
  let len := leNat (slice 12 4 (s.nvBytes o 24))
  if s.nvBad o 24 then s.nvMeet o 24
  else if 4 ≤ len ∧ len ≤ 32512 then s.nvMeet (o + 256) len else s

/-- Reads both slots of kind `k` and reports the winner in NV_REC_k and NV_REC_k_SEQ. -/
def State.reportWinner (s : State) (k : Nat) : State :=
  let s := (s.recMeet k 0).recMeet k 1
  match s.recWinner k with
  | some (i, q, len) =>
    ((((s.setFld (R.NV_REC_VALID k) 1).setFld (R.NV_REC_SLOT k) i).setFld (R.NV_REC_LEN k) len)).setReg (R.NV_REC_SEQ k) (BitVec.ofNat 32 q)
  | none => s.setFld (R.NV_REC_VALID k) 0

/-! ## The fault store (Table 17.4, R596-R598) -/

/-- The SEQ of fault record `i`, if the record is valid; one that cannot be read is not (R605). -/
def State.fltValid (s : State) (i : Nat) : Option Nat :=
  let r := s.nvBytes (0x1A0000 + 64 * i) 64
  if !s.nvBad (0x1A0000 + 64 * i) 64 && r.take 2 == [0x46, 0x4C] && slice 2 1 r == [1] && crc32Ieee (r.take 60) == leNat (slice 60 4 r)
  then some (leNat (slice 4 4 r)) else none

/-- The record after record `i` (R596). -/
def fltNext (i : Nat) : Nat := if i < 1023 then i + 1 else 256

/-- R597: the valid record with the highest SEQ decides where the next one goes; records that cannot be read are reported (R605). -/
def State.scanFaultStore (s : State) : State :=
  let best := (List.range 1024).foldl (fun (a : Nat × Nat) i =>
    match s.fltValid i with
    | some q => if a.1 < q then (q, fltNext i) else a
    | none => a) (0, 0)
  let s := { s.setFld R.FLT_NV_STAT_NEXT best.2 with fst := { s.fst with seq := best.1 } }
  (List.range 1024).foldl (fun s i => s.nvMeet (0x1A0000 + 64 * i) 64) s

/-- A waiting record with its SEQ and its CRC filled in. -/
def sealRecord (rec : Bytes) (seq : Nat) : Bytes :=
  let r := (rec.take 4 ++ leBytes 4 seq ++ rec.drop 8).take 60
  r ++ leBytes 4 (crc32Ieee r)

/-- A record is lost: DROP counts it and NV_DROP is set, but for a lost NV_DROP record (R598). -/
def State.dropRecord (s : State) (rec : Bytes) : State :=
  let s := s.satAdd R.FLT_NV_STAT_DROP 1 65535
  if slice 8 2 rec == [3, 7] then s else s.fault 3 7

/-- Programs the oldest waiting fault record (R598, R575, R577). -/
def State.programRecord (s : State) (rec : Bytes) (more : List Bytes) (code : Nat) (mismatch : Bool) : State :=
  let s := { s with fst := { s.fst with queue := more } }
  let h := s.holdUp code
  if s.fst.seq = 0xFFFFFFFF then s.dropRecord rec
  else if h.1 then
    let s := h.2
    let i := s.fld R.FLT_NV_STAT_NEXT
    let off := 0x1A0000 + 64 * i
    let r := s.nvRead (off / 256 * 256) 256
    match r.1 with
    | some old =>
      let q := r.2.fst.seq + 1
      let s := { r.2 with fst := { r.2.fst with seq := q } }
      (s.programPage (off / 256) (mergePage old (off % 256) (sealRecord rec q)) mismatch).setFld R.FLT_NV_STAT_NEXT (fltNext i)
    | none => r.2.dropRecord rec
  else (h.2.fault 14 0).dropRecord rec

/-- FLT_NV_CFG.CLEAR: erases all records (R599). -/
def State.clearFaultStore (s : State) : State :=
  let s := { s with nv := tabKeep (fun k => k < 0x1A0000 ∨ 0x1B0000 ≤ k) s.nv,
                    nvEcc := tabKeep (fun k => 4 * k < 0x1A0000 ∨ 0x1B0000 ≤ 4 * k) s.nvEcc,
                    fst := { s.fst with seq := 0 } }
  (s.setFld R.FLT_NV_STAT_BUSY 1).setFld R.FLT_NV_STAT_NEXT 0

end Sys2Proof.Machine
end

