-- ==== Sys2Proof/Machine/Packet.lean ====
section
/-! DEFINITION. The packet path (13): ingress, tickets, dispatch, release; egress and its gates (14, R484-R494); and the rows of
the table that they are. A frame arrives whole in one command (log 21). -/

namespace Sys2Proof.Machine

/-! ## Sources (R453, R454, Table 13.2) -/

/-- The source number of an ingress. -/
def srcNum : Ingress → Nat
  | .port p => p.val
  | .host r q => 36 + 8 * r.val + q.val

/-- Two bytes of a frame from position `i`, most significant first. -/
def be16 (d : Bytes) (i : Nat) : Nat := beNat (slice i 2 d)

/-- Whether an EtherType is that of a VLAN tag (IEEE 802.1Q, 802.1ad; log 22). -/
def vlanType (e : Nat) : Bool := e == 0x8100 || e == 0x88A8

/-- The priority of a frame's outer VLAN tag, 0 without a tag (R453). -/
def pcpOf (d : Bytes) : Nat := if decide (16 ≤ d.length) && vlanType (be16 d 12) then be16 d 14 / 2 ^ 13 else 0

/-- The order domain of a frame from source `src`. -/
def State.domOf (s : State) (src : Nat) (d : Bytes) : Nat :=
  if s.flag (R.ESP_SRC_DMODE src) then (s.fld (R.ESP_SRC_DOM src) + pcpOf d) % 64 else s.fld (R.ESP_SRC_DOM src)

/-- MAXLEN (Table 13.10). -/
def State.maxLen (s : State) : Nat := max 64 (min 16384 (s.fld R.ESP_CFG_MAXLEN))

/-! ## Ingress (R454-R460) -/

/-- ROW_r_CELL_PEAK keeps the highest USE. -/
def State.peakCells (s : State) (r use : Nat) : State :=
  s.setFld (R.ROW_CELL_PEAK_PEAK r) (max (s.fld (R.ROW_CELL_PEAK_PEAK r)) use)

/-- R460: issues ticket NEXT of domain `d` to the frame in slot `k` of row `r`, which waits for dispatch from then on (R477, R478). -/
def State.issueTicket (s : State) (r d k : Nat) : State :=
  let n := s.fld (R.ESP_DOM_IDX_NEXT d)
  let was := s.waiting
  let s := (s.setFld (R.ESP_DOM_IDX_NEXT d) (n + 1)).setDom d (s.dom d ++ [{ num := n, slot := k }])
  ((s.updRow r (fun x => { x with dispQ := x.dispQ ++ [k] })).hints was).rowWake r

/-- The time of one byte at port `p`'s line rate, in 0.01 ns. -/
def byteTime (p : Nat) : Nat := if p < 8 then 8 else if p < 24 then 80 else 80000

/-- The main-clock time at which the last byte of `n` bytes with FCS from source `src` has arrived when the first arrives now (R473); what
the host sends is there whole. -/
def State.arrivalEnd (s : State) (src n : Nat) : Nat := if src < 36 then s.clk + ((n + 4) * byteTime src + 99) / 100 else 0

/-- A frame reaches the espalier from source `src` (R453-R460). The flag says that a cell was refused. -/
def State.ingress (s : State) (src : Nat) (data : Bytes) (bad : Bool) (rxTime : Nat) : Bool × State :=
  let r := s.fld (R.ESP_SRC_ROW src)
  if !s.flag (R.ESP_SRC_EN src) then (false, s.count64 R.ESP_DISC_LO R.ESP_DISC_HI)
  else if 4096 ≤ s.esp.frames.length then (false, s.countDrop r 1)
  else
    let k := freeSlotFrom s.esp.frames s.esp.frames.length (s.nextFree.toNat % 4096)
    let s := s.tookFree
    let kept := data.take s.maxLen
    let c := s.takeCells r ((kept.length + 64 + 255) / 256) []
    let s := c.2.2.peakCells r (s.cellUse r + c.1.length)
    let f : Frame := { row := r, src := src, dom := s.domOf src data, cells := c.1, len := kept.length,
                       bad := decide (s.maxLen < data.length), crcBad := bad, ends := s.arrivalEnd src data.length,
                       rxTime := rxTime % 2 ^ 32 }
    if c.1.isEmpty then (true, s.countDrop r 0)
    else
      let s := (s.setFrame k f).frameWrite f (c.1.length + 1) 0 (kept.take (256 * c.1.length - 64))
      let s := s.issueTicket r f.dom k
      if c.2.1 then (false, s) else (true, s.voidTicket f.dom k 0)

/-! ## Ports (14, R484-R487, R494) -/

/-- The readiness bit of port `p` (Table 1.9): the T1S ports share one. -/
def portReady (p : Nat) : Nat := if p < 24 then 32 + p else 56

/-- Counts a frame of port `p` under `k` (Table 14.6). -/
def State.portCount (s : State) (p k : Nat) : State := s.count64 (R.PORT_CNT_LO p k) (R.PORT_CNT_HI p k)

/-- Port `p`. -/
def State.port (s : State) (p : Nat) : PortSt := tabGet {} p s.ports

/-- Changes port `p`. -/
def State.updPort (s : State) (p : Nat) (f : PortSt → PortSt) : State := { s with ports := tabSet {} p (f (s.port p)) s.ports }

/-- The power domain of port `p`. -/
def portDomain (p : Nat) : Nat := if p < 8 then 13 else 14

/-- Whether port `p` passes frames (R484, R485, R601, R607, R611). -/
def State.portUp (s : State) (p : Nat) : Bool :=
  s.flag (R.PORT_CTL_EN p) && s.ready (portReady p) && s.ready 28 && !s.safe
    && s.inService p && (decide (24 ≤ p) || s.inService (36 + p))

/-- The MAC address of port `p`, in the order of its bytes on the line: the number whose upper 16 bits PORT_MAC_HI and whose lower 32
PORT_MAC_LO hold, most significant byte first as 00, R5, sends a packet field (log 70). -/
def State.portMac (s : State) (p : Nat) : Bytes :=
  beBytes 6 ((s.reg (R.PORT_MAC_LO p)).toNat + (s.reg (R.PORT_MAC_HI p)).toNat % 2 ^ 16 * 2 ^ 32)

/-- The DTB with a signed correction in ns (R494). -/
def State.dtbPlus (s : State) (c : Int) : Nat := (((s.dtbNow : Int) + c) % ((2 ^ 64 : Nat) : Int)).toNat

/-- A frame of port `p`, FCS excluded (R484-R486, R610): its domain off, nothing is there to receive it. -/
def State.portReceive (s : State) (p : Nat) (data : Bytes) (fcsOk : Bool) : State :=
  if !s.granted (portDomain p) then s
  else
    let s := s.activity p
    if !s.portUp p then s.portCount p 2
    else if data.length + 4 < 64 then s.portCount p 3
    else ((s.portCount p 0).ingress p data (!fcsOk) (s.dtbPlus (s.sfld (R.PORT_TSCORR_RX p)))).2

/-- PAUSE_RECEIVE (R487): a PAUSE frame of quanta 0 ends the pause. -/
def execPauseReceive (e : Fin 16) (quanta : BitVec 16) (s : State) : Res :=
  .next (
    let p := 8 + e.val
    if !s.granted 14 then s
    else
      let s := s.activity p
      if !s.portUp p then s.portCount p 2
      else (s.portCount p 0).updPort p (fun x => { x with pause := quanta != 0 }))

/-- PAUSE_END (R487). -/
def execPauseEnd (e : Fin 16) (s : State) : Res := .next (s.updPort (8 + e.val) (fun x => { x with pause := false }))

/-! ## Release (R471-R473, R475) -/

/-- The egress queue of class `c` of port `p`, oldest first. -/
def State.egressQ (s : State) (p c : Nat) : List Nat := tabGet [] (8 * p + c) s.esp.egress

/-- Replaces an egress queue. -/
def State.setEgressQ (s : State) (p c : Nat) (l : List Nat) : State :=
  s.updEsp (fun e => { e with egress := tabSet [] (8 * p + c) l e.egress })

/-- The frames that wait for a descriptor of host queue `q` of row `r` (12, R436). -/
def State.hqWaiting (s : State) (r q : Nat) : List Nat := tabGet [] q (s.row r).hqWait

/-- Replaces them. -/
def State.setHqWaiting (s : State) (r q : Nat) (l : List Nat) : State :=
  s.updRow r (fun x => { x with hqWait := tabSet [] q l x.hqWait })

/-- Drops a frame that holds no ticket any more, counted under `k` (R459, R472). -/
def State.dropFrame (s : State) (slot k : Nat) : State :=
  match s.frameOf slot with
  | some f => (s.countDrop f.row k).freeSlot slot
  | none => s

/-- R472: what happens to a released frame. A destination that Table 13.2 does not list is no destination (log 23). -/
def State.releaseFrame (s : State) (slot : Nat) : State :=
  match s.frameOf slot with
  | none => s
  | some f =>
    if f.dest = 127 then s.dropFrame slot 6
    else if s.badNow f then s.dropFrame slot 2
    else if f.dest < 36 then s.setEgressQ f.dest f.cls (s.egressQ f.dest f.cls ++ [slot])
    else if f.dest < 100 then
      let r := (f.dest - 36) / 8
      let q := (f.dest - 36) % 8
      if s.flag (R.ROW_HQ_CFG_EN r q) && s.flag (R.ROW_HQ_CFG_DIR r q) && decide ((s.hqWaiting r q).length < 256) then
        s.setHqWaiting r q (s.hqWaiting r q ++ [slot])
      else s.dropFrame slot 7
    else s.dropFrame slot 7

/-- TICKET_RELEASE (R471, R472, R601): domain `d` advances past a READY or VOID head. -/
def execTicketRelease (d : Fin 64) (s : State) : Res :=
  .next (
    if s.safe then s
    else match s.dom d.val with
      | t :: rest =>
        let pass := fun (s : State) =>
          (s.setDom d.val rest).setFld (R.ESP_DOM_IDX_HEAD d.val) (s.fld (R.ESP_DOM_IDX_HEAD d.val) + 1)
        (match t.state with
         | .ready => ((pass s).count64 (R.ESP_DOM_REL_LO d.val) (R.ESP_DOM_REL_HI d.val)).releaseFrame t.slot
         | .void => pass s
         | _ => s)
      | [] => s)

/-- ORDER_TIMEOUT (R470, R475): ORDER_TMO has elapsed for the head of domain `d`. -/
def execOrderTimeout (d : Fin 64) (s : State) : Res :=
  .next (
    match s.dom d.val with
    | t :: _ =>
      if t.state = .issued ∨ t.state = .held then
        (((s.satAdd (R.ESP_DOM_VOID_COUNT d.val) 1 65535).fault 15 0).voidTicket d.val t.slot 3)
      else s
    | [] => s)

/-! ## Helpers: requests and completions (R464-R466, R173, R175) -/

/-- Completes a request: its completion register holds the word of Table 13.6. -/
def State.finish (s : State) (h : HelperReq) (status value : Nat) : State :=
  let w := BitVec.ofNat 32 (status * 2 ^ 29 + h.h % 8 * 2 ^ 26 + (if status = 0 then value % 2 ^ 16 else 0))
  { s with helpers := s.helpers.filter (fun g => !(g.t == h.t && g.cn == h.cn)) }.updThr h.t (fun t => t.setCompletion h.cn (.held w))

/-- The operation code of a request. -/
def HelperReq.op (h : HelperReq) : Nat := h.arg.toNat % 256

/-- The request that thread `t` has outstanding for register `cn`, if it is operation `op` of helper `h`. -/
def State.request (s : State) (t cn h op : Nat) : Option HelperReq :=
  s.helpers.find? (fun g => g.t == t && g.cn == cn && g.h == h && g.op == op)

/-- Whether `op` is an operation of helper `h` (Table 13.5). -/
def helperOp (h op : Nat) : Bool :=
  match h with
  | 0 => decide (1 ≤ op) && decide (op ≤ 3)
  | 1 => op == 1
  | 2 | 3 | 4 => op == 1 || op == 2
  | _ => false

/-- The device address of a data access of a scion thread (04, R120). -/
def Thread.eaMap (t : Thread) (ea : Word) : Nat := (t.xarOf (ea.toNat / 2 ^ 30)).toNat * 2 ^ 30 + ea.toNat % 2 ^ 30

/-- Whether `n` bytes from device address `a` lie in the data memory of thread `k`'s scion or in its bough's shared data memory. -/
def ownArea (k a n : Nat) : Bool :=
  let base := 0x100000000 + boughOf k * 0x1000000
  let dm := base + 0x200000 + k % 64 / 8 * 0x8000
  (decide (dm ≤ a) && decide (a + n ≤ dm + 0x8000)) || (decide (base + 0x100000 ≤ a) && decide (a + n ≤ base + 0x200000))

/-- KEYW, ENTW and the bytes of a bucket of lookup table `i` of bough `b` (Table 13.11, R467). -/
def State.lookup (s : State) (b i : Nat) : Nat × Nat × Nat :=
  let k := s.fld (R.BGH_LKP_CFG_KEYW b i) + 1
  let e := s.fld (R.BGH_LKP_CFG_ENTW b i) + 1
  (k, e, 16 * (1 + k + e))

/-- The bytes of a request's descriptor and result area (Table 13.5). -/
def State.areaBytes (s : State) (k h op a arg : Nat) : Nat :=
  match h, op with
  | 0, 1 => let hc := arg / 256 % 256
            if hc ≤ 128 ∧ hc % 16 = 0 then 32 + hc else 32
  | 0, 2 => 32 + (s.byteAt (a + 0x18)).toNat
  | 0, _ => 32
  | 1, _ => let t := s.lookup (boughOf k) (arg / 256 % 8)
            max (4 * t.1) (32 + 4 * t.2.1)
  | 2, _ => 12
  | 3, _ => 28
  | _, _ => 16

/-- The association that an AES-GCM request of bough `b` is accepted under (14, R505). -/
def State.saAt (s : State) (b a : Nat) : SaEntry := tabGet {} (s.peek (a + 4) 4 % 4096) (tabGet [] b s.saCopies)

/-- HREQ (R171, R173, R175, R464, R465, R610). -/
def execHreq (t : Thr) (h cn : BitVec 3) (ra rb : BitVec 5) (s : State) : Res :=
  .next (s.issue (thrKey t) 4 (fun pc s =>
    let k := thrKey t
    let th := s.thr k
    let ea := th.gr ra.toNat
    let arg := th.gr rb.toNat
    let a := th.eaMap ea
    let n := s.areaBytes k h.toNat (arg.toNat % 256) a arg.toNat
    if 512 ≤ k ∨ 5 ≤ h.toNat then s.raiseHalf k 0x01 (firstHalf (.hreq t h cn ra rb)) pc
    else if 32 ≤ (s.helpers.filter (fun g => g.h == h.toNat && boughOf g.t == boughOf k)).length then s
    else if th.completion cn.toNat ≠ .idle ∨ helperOp h.toNat (arg.toNat % 256) = false ∨ ea.toNat % 4 ≠ 0
        ∨ 2 ^ 30 < ea.toNat % 2 ^ 30 + n ∨ ownArea k a n = false then
      s.raiseExc k 0x0B (h.zeroExtend 32) pc
    else
      let s := (s.activity (60 + boughOf k)).activity (68 + k / 8)
      let g : HelperReq := { t := k, cn := cn.toNat, h := h.toNat, desc := a, arg := arg,
                             sa := if h = 3 then s.saAt (boughOf k) a else {} }
      { s with helpers := s.helpers ++ [g] }.updThr k (fun t => { t.setCompletion cn.toNat .outstanding with pc := pc + 4 })))

/-! ## Dispatch (R462, R463, R481) -/

/-- Whether a GET has a valid HCOPY (Table 13.5). -/
def HelperReq.hcopyOk (h : HelperReq) : Bool := decide (h.arg.toNat / 256 % 256 ≤ 128) && h.arg.toNat / 256 % 16 == 0

/-- The parse fields of Table 13.4: (PARSE, ETYPE, VID), parsing from frame offset `o`. The layouts are those of IEEE 802.3,
802.1Q, IPv4 and IPv6 (log 22). -/
def parseFrame (d : Bytes) (o : Nat) : Nat × Nat × Nat :=
  let tags : Nat → Nat × Nat × Nat × Nat × Nat → Nat × Nat × Nat × Nat × Nat := fun fuel st =>
    (List.range fuel).foldl (fun (a : Nat × Nat × Nat × Nat × Nat) _ =>
      let (et, p, pcp, vlan, vid) := a
      if vlanType et && decide (p + 4 ≤ d.length) then
        let tci := be16 d p
        (be16 d (p + 2), p + 4, if vlan = 1 then pcp else tci / 2 ^ 13, 1, if vlan = 1 then vid else tci % 2 ^ 12)
      else a) st
  if d.length < o + 14 then (0, 0, 0)
  else
    let (et, l3, pcp, vlan, vid) := tags (d.length / 4 + 1) (be16 d (o + 12), o + 14, 0, 0, 0)
    let at_ := fun i => (d.getD i 0).toNat
    let kind := fun p => if p = 6 then 1 else if p = 17 then 2 else 3
    let v4 := et == 0x0800 && decide (l3 + 20 ≤ d.length) && at_ l3 / 16 == 4 && decide (5 ≤ at_ l3 % 16)
    let v6 := et == 0x86DD && decide (l3 + 40 ≤ d.length) && at_ l3 / 16 == 6
    let l3t := if vlanType et then 0 else if v4 then 1 else if v6 then 2 else 3
    let l4 := if v4 && be16 d (l3 + 6) % 2 ^ 13 == 0 then l3 + at_ l3 % 16 * 4 else if v6 then l3 + 40 else 0
    let l4t := if l4 = 0 then 0 else if v4 then kind (at_ (l3 + 9)) else kind (at_ (l3 + 6))
    let l3ok := decide (l3 < 256) && l3t != 0
    let l4ok := l3ok && decide (l4 < 256)
    ((if l3ok then l3 + l3t * 2 ^ 20 else 0) + (if l4ok then l4 * 2 ^ 8 + l4t * 2 ^ 22 else 0) + pcp * 2 ^ 16 + vlan * 2 ^ 19, et, vid)

/-- The descriptor of a frame up to EDIT (Table 13.4). -/
def State.descriptor (s : State) (slot : Nat) (f : Frame) (num : Nat) (data : Bytes) : Bytes :=
  let p := parseFrame data 0
  leBytes 4 (tokenOf slot (s.genOf slot)) ++ leBytes 4 (num + f.dom * 2 ^ 16) ++ leBytes 2 f.len ++ leBytes 1 f.src
    ++ leBytes 1 (f.row % 8 + (if s.badNow f then 8 else 0) + (if s.arriving f then 16 else 0)) ++ leBytes 4 p.1 ++ leBytes 2 p.2.1 ++ leBytes 2 p.2.2 ++ leBytes 4 f.rxTime

/-- Writes a helper's result at a device address. -/
def State.putArea (s : State) (a : Nat) (bs : Bytes) : State :=
  match memAt a bs.length with
  | some m => s.memWriteAll m (bs.length + 4) a bs
  | none => s

/-- Reads a helper's descriptor. -/
def State.getArea (s : State) (a n : Nat) : Option Bytes × State :=
  match memAt a n with
  | some m => s.memReadAll m a n
  | none => (none, s)

/-- The oldest pending GET of a thread of row `r` whose bough and scion take dispatches (R462, R611). -/
def State.pendingGet (s : State) (r : Nat) : Option HelperReq :=
  s.helpers.find? (fun g => g.h == 0 && g.op == 1 && g.hcopyOk && (s.thr g.t).state != .unassigned && (s.thr g.t).row == r
    && s.inService (60 + boughOf g.t) && s.inService (68 + g.t / 8))

/-- The ticket of slot `k` becomes HELD by thread `t`. -/
def State.holdTicket (s : State) (d k t : Nat) : State :=
  s.setDom d ((s.dom d).map (fun x => if x.slot = k ∧ x.state = .issued then { x with state := .held, thr := some t } else x))

/-- R462: the frame in slot `k` goes to GET `g`. -/
def State.deliverGet (s : State) (g : HelperReq) (k : Nat) (f : Frame) : State :=
  let num := match s.ticketOf f.dom k with
    | some t => t.num
    | none => 0
  let s := s.holdTicket f.dom k g.t
  let s := s.undispatch k
  let whole := s.frameRead f (f.cells.length + 1) 0 f.len
  let s := whole.2
  let data := whole.1.getD (freeBytes s.freeCtr f.len)
  let edit := leBytes 4 s.nextFree.toNat ++ leBytes 4 s.tookFree.nextFree.toNat
  let s := s.tookFree.tookFree.putArea g.desc (s.descriptor k f num data ++ edit)
  let s := s.putArea (g.desc + 0x20) (data.take (g.arg.toNat / 256 % 256))
  s.finish g (if whole.1.isSome then 0 else 6) f.len

/-- The oldest frame that waits in row `r` goes to the row's oldest pending GET, where both are there (R462, R601). -/
def State.dispatchRow (s : State) (r : Nat) : State :=
  if s.safe || !s.ready 28 then s
  else match (s.row r).dispQ, s.pendingGet r with
    | k :: _, some g => (match s.frameOf k with
        | some f => s.deliverGet g k f
        | none => s)
    | _, _ => s

/-- DISPATCH. -/
def execDispatch (r : Fin 8) (s : State) : Res := .next (s.dispatchRow r.val)

/-- GET (R462, R463, R481): NOTREADY while the espalier is not ready, ERR_ARG for another HCOPY; otherwise a frame that waits in the
thread's row is dispatched at once, and with none the request waits. -/
def execGet (t : Fin 512) (cn : BitVec 3) (s : State) : Res :=
  .next (
    match s.request t.val cn.toNat 0 1 with
    | some g => if !s.ready 28 then s.finish g 5 0 else if !g.hcopyOk then s.finish g 3 0
      else s.dispatchRow (s.thr g.t).row
    | none => s)

/-! ## EMIT (R469) and the operations on frames -/

/-- Runs a helper operation: the request, if it is outstanding, is answered by `body`. -/
def State.serve (s : State) (t cn h op : Nat) (body : HelperReq → State → State) : State :=
  match s.request t cn h op with
  | some g => body g s
  | none => s

/-- Reads the `n` bytes of a request's descriptor: ERR_MEM where a word has an uncorrected error (log 24). -/
def State.withDesc (s : State) (g : HelperReq) (n : Nat) (body : Bytes → State → State) : State :=
  match s.getArea g.desc n with
  | (some d, s) => body d s
  | (none, s) => s.finish g 6 0

/-- Finds the live frame that a request's token names; VOIDED without one. A frame whose ticket is VOID is live no more. -/
def State.withFrame (s : State) (g : HelperReq) (tok : Nat) (body : Nat → Frame → State → State) : State :=
  match s.tokenFrame tok with
  | some (k, f) => body k f s
  | none => s.finish g 2 0

/-- An accepted EMIT: the header replaced, DEST recorded, the ticket READY. -/
def State.emitFrame (s : State) (g : HelperReq) (k : Nat) (f : Frame) (cut : Nat) (hdr : Bytes) (dest : Nat) : State :=
  let n := { f with off := f.off + cut - hdr.length, len := f.len - cut + hdr.length, dest := dest % 128, cls := dest / 256 % 8 }
  let s := (s.setFrame k n).frameWrite n (n.cells.length + 1) 0 hdr
  let s := s.setDom f.dom ((s.dom f.dom).map (fun x =>
    if x.slot = k ∧ x.state = .held then { x with state := .ready, thr := none } else x))
  s.finish g 0 n.len

/-- EMIT. -/
def execEmit (t : Fin 512) (cn : BitVec 3) (s : State) : Res :=
  .next (s.serve t.val cn.toNat 0 2 (fun g s => s.withDesc g 32 (fun d s => s.withFrame g (leNat (d.take 4)) (fun k f s =>
    let wb := leNat (slice 0x18 1 d)
    let cut := leNat (slice 0x19 1 d)
    let held := match s.ticketOf f.dom k with
      | some x => x.state == .held
      | none => false
    if (s.thr g.t).row ≠ f.row ∨ held = false ∨ 128 < wb ∨ 128 < cut ∨ 64 + cut < wb ∨ f.len < cut then s.finish g 3 0
    else match s.getArea (g.desc + 0x20) wb with
      | (some hdr, s) => s.emitFrame g k f cut hdr (leNat (slice 0x1C 4 d))
      | (none, s) => s.finish g 6 0))))

/-- PARSE (Table 13.5): rewrites PARSE, ETYPE and VID from frame offset rb[23:8]. -/
def execParse (t : Fin 512) (cn : BitVec 3) (s : State) : Res :=
  .next (s.serve t.val cn.toNat 0 3 (fun g s => s.withDesc g 32 (fun d s => s.withFrame g (leNat (d.take 4)) (fun _ f s =>
    match s.frameRead f (f.cells.length + 1) 0 f.len with
    | (some data, s) =>
      let p := parseFrame data (g.arg.toNat / 2 ^ 8 % 2 ^ 16)
      (s.putArea (g.desc + 0x0C) (leBytes 4 p.1 ++ leBytes 2 p.2.1 ++ leBytes 2 p.2.2)).finish g 0 0
    | (none, s) => s.finish g 6 0))))

/-- The search of a bucket: the entry number and the result words of the first match (R467, R468). -/
def State.searchBucket (s : State) (key : Bytes) (kw ew addr : Nat) : List Nat → Option (Option (Nat × Bytes)) × State
  | [] => (some none, s)
  | e :: more =>
    match s.getArea (addr + 4 * (1 + kw + ew) * e) (4 * (1 + kw + ew)) with
    | (some b, s) =>
      if leNat (b.take 4) % 2 = 1 ∧ slice 4 (4 * kw) b = key then (some (some (e, b.drop (4 + 4 * kw))), s)
      else s.searchBucket key kw ew addr more
    | (none, s) => (none, s)

/-- The table whose bucket holds a key, read and searched: a match answers its result words and entry number, no match answers 1 (R467, R468). -/
def State.findIn (s : State) (g : HelperReq) (kw ew bucket count table : Nat) : State :=
  s.withDesc g (4 * kw) (fun key s =>
    match s.searchBucket key kw ew (table + crc32Ieee key % count * bucket) [0, 1, 2, 3] with
    | (some (some r), s) => (s.putArea (g.desc + 0x20) r.2).finish g 0 (4 * (crc32Ieee key % count) + r.1)
    | (some none, s) => s.finish g 1 0
    | (none, s) => s.finish g 6 0)

/-- A lookup in table `i` of bough `b`, whose geometry is `w`: refused where the table is off or passes the bough's buffer (R467). -/
def State.find (s : State) (g : HelperReq) (b i : Nat) (w : Nat × Nat × Nat) (log2 base : Nat) : State :=
  if s.flag (R.BGH_LKP_CFG_EN b i) = false ∨ 0x100000 < base + 2 ^ log2 * w.2.2 then s.finish g 3 0
  else s.findIn g w.1 w.2.1 w.2.2 (2 ^ log2) (0x100100000 + b * 0x1000000 + base)

/-- FIND (R467, R468). -/
def execFind (t : Fin 512) (cn : BitVec 3) (s : State) : Res :=
  .next (s.serve t.val cn.toNat 1 1 (fun g s =>
    let b := boughOf g.t
    let i := g.arg.toNat / 256 % 8
    s.find g b i (s.lookup b i) (min 16 (s.fld (R.BGH_LKP_CFG_LOG2 b i))) (4 * s.fld (R.BGH_LKP_BASE_BASE b i))))

/-- The internet checksum (RFC 1071). -/
def inetSum (d : Bytes) : Nat :=
  let words := (List.range ((d.length + 1) / 2)).map (fun i => (d.getD (2 * i) 0).toNat * 256 + (d.getD (2 * i + 1) 0).toNat)
  let s := words.sum
  let fold := fun x => x % 2 ^ 16 + x / 2 ^ 16
  2 ^ 16 - 1 - fold (fold (fold s))

/-- A checksum over a frame range (Table 13.5); a range that passes the frame's end is an argument error (log 24). -/
def State.checksum (s : State) (g : HelperReq) (f : Bytes → Nat) : State :=
  s.withDesc g 8 (fun d s => s.withFrame g (leNat (d.take 4)) (fun _ fr s =>
    let off := leNat (slice 4 2 d)
    let len := leNat (slice 6 2 d)
    if fr.len < off + len then s.finish g 3 0
    else match s.frameRead fr (fr.cells.length + 1) off len with
      | (some bs, s) => (s.putArea (g.desc + 8) (leBytes 4 (f bs))).finish g 0 (f bs)
      | (none, s) => s.finish g 6 0))

/-- INET. -/
def execInet (t : Fin 512) (cn : BitVec 3) (s : State) : Res :=
  .next (s.serve t.val cn.toNat 2 1 (fun g s => s.checksum g inetSum))

/-- CRC32. -/
def execCrc32 (t : Fin 512) (cn : BitVec 3) (s : State) : Res :=
  .next (s.serve t.val cn.toNat 2 2 (fun g s => s.checksum g crc32Ieee))

/-- NOW; NOTREADY while the time base is not ready (01, R22). -/
def execNow (t : Fin 512) (cn : BitVec 3) (s : State) : Res :=
  .next (s.serve t.val cn.toNat 4 1 (fun g s =>
    if s.ready 30 then (s.putArea (g.desc + 8) (leBytes 8 s.dtbNow)).finish g 0 0 else s.finish g 5 0))

/-- EGRESS_TS: answered at once when the first byte has left; otherwise the request waits for it (log 24). -/
def execEgressTs (t : Fin 512) (cn : BitVec 3) (s : State) : Res :=
  .next (s.serve t.val cn.toNat 4 2 (fun g s => s.withDesc g 4 (fun d s => s.withFrame g (leNat d) (fun k f s =>
    match f.txTime with
    | some v => (s.putArea (g.desc + 8) (leBytes 8 v)).finish g 0 0
    | none => { s with helpers := s.helpers.map (fun x => if x.t = g.t ∧ x.cn = g.cn then { x with stamp := some k } else x) }))))

/-! ## AES-GCM (14, R508, R509) -/

/-- The round keys of an association. -/
def SaEntry.keys (e : SaEntry) : List Bytes :=
  let bs := Crypto.beOf 32 e.key.toNat
  Crypto.roundKeys (if e.suite.toNat % 2 = 1 then bs else bs.take 16)

/-- The nonce (R508): the IV as given, or IV XOR SALT for the XPN suites. -/
def SaEntry.nonce (e : SaEntry) (iv : Bytes) : Bytes :=
  if e.suite.toNat < 2 then iv else Crypto.xorBytes iv (Crypto.beOf 12 e.salt.toNat)

/-- The ranges of an AES-GCM request: (AAD offset, AAD length, payload offset, payload length). -/
def gcmRanges (d : Bytes) : Nat × Nat × Nat × Nat := (leNat (slice 8 2 d), leNat (slice 10 2 d), leNat (slice 12 2 d), leNat (slice 14 2 d))

/-- Reads the additional data and the payload of a request; ERR_ARG where a range passes the end. -/
def State.withGcm (s : State) (g : HelperReq) (tail : Nat) (body : Nat → Frame → Bytes → Bytes → Bytes → State → State) : State :=
  s.withDesc g 28 (fun d s => s.withFrame g (leNat (d.take 4)) (fun k f s =>
    let (ao, al, po, pl) := gcmRanges d
    if !g.sa.valid ∨ f.len < ao + al ∨ f.len < po + pl + tail then s.finish g 3 0
    else match s.frameRead f (f.cells.length + 1) ao al with
      | (some aad, s) => (match s.frameRead f (f.cells.length + 1) po (pl + tail) with
          | (some text, s) => body k f d aad text s
          | (none, s) => s.finish g 6 0)
      | (none, s) => s.finish g 6 0))

/-- SEAL (R508): encrypts in place and appends the tag after the payload. A frame that its cells cannot hold with the tag takes
another cell of its row, and the request is an argument error where that cell is refused (log 24). -/
def execAesSeal (t : Fin 512) (cn : BitVec 3) (s : State) : Res :=
  .next (s.serve t.val cn.toNat 3 1 (fun g s => s.withGcm g 0 (fun k f d aad text s =>
    let (_, _, po, pl) := gcmRanges d
    let need := (f.off + max f.len (po + pl + 16) + 255) / 256 - f.cells.length
    let c := s.takeCells f.row need []
    if c.2.1 then
      let keys := g.sa.keys
      let nonce := g.sa.nonce (slice 16 12 d)
      let ct := Crypto.gcmCtr keys nonce text
      let f := { f with cells := f.cells ++ c.1, len := max f.len (po + pl + 16) }
      let s := (c.2.2.setFrame k f).peakCells f.row (s.cellUse f.row + c.1.length)
      (s.frameWrite f (f.cells.length + 1) po (ct ++ Crypto.gcmTag keys nonce aad ct)).finish g 0 0
    else s.finish g 3 0)))

/-- OPEN (R508, R509): the 16 bytes after the payload are the tag; nothing is written when it fails. -/
def execAesOpen (t : Fin 512) (cn : BitVec 3) (s : State) : Res :=
  .next (s.serve t.val cn.toNat 3 2 (fun g s => s.withGcm g 16 (fun _ f d aad text s =>
    let (_, _, po, pl) := gcmRanges d
    let keys := g.sa.keys
    let nonce := g.sa.nonce (slice 16 12 d)
    let ct := text.take pl
    if Crypto.gcmTag keys nonce aad ct = text.drop pl then
      (s.frameWrite f (f.cells.length + 1) po (Crypto.gcmCtr keys nonce ct)).finish g 0 0
    else s.finish g 4 0)))

/-! ## Egress (14, R484, R488-R494) -/

/-- Whether port `p` is a ring port of a ring that is not OFF. -/
def State.ringPort (s : State) (p : Nat) : Bool :=
  s.fld R.RING_STATUS_STATE != 0 && (p == s.fld R.RING_CFG_PORT_E || p == s.fld R.RING_CFG_PORT_W)

/-- Whether a frame of `n` bytes with its FCS ends by DTB value `at_` when it starts now (R492). -/
def State.endsBy (s : State) (p n at_ : Nat) : Bool := decide (100 * s.dtbNow + n * byteTime p ≤ 100 * at_)

/-- Whether port `p` may start a frame of `len` bytes of class `c` (R489, R492, R518). -/
def State.mayStartFrame (s : State) (p c len : Nat) : Bool :=
  let n := max len 60 + 4
  if s.ringPort p && c == s.fld R.RING_CFG_CLASS then s.ring.windowOpen && s.endsBy p n s.ring.windowEnd
  else s.fld (R.PORT_GATE_OPEN p) / 2 ^ c % 2 == 1
    && (!s.flag (R.PORT_GATE_NEXT_VALID p) || s.fld (R.PORT_GATE_NEXT p) / 2 ^ c % 2 == 1
      || s.endsBy p n (s.pair (R.PORT_GATE_AT_LO p) (R.PORT_GATE_AT_HI p)))

/-- R473: a frame that is still arriving may start only where the egress line rate is at or below that of its ingress. -/
def State.rateOk (s : State) (p : Nat) (f : Frame) : Bool := !s.arriving f || decide (byteTime f.src ≤ byteTime p)

/-- The class that port `p` sends from: the highest that may start its oldest frame (R488). -/
def State.txClass (s : State) (p : Nat) : Option (Nat × Nat) :=
  ([7, 6, 5, 4, 3, 2, 1, 0].map (fun c => (c, (s.egressQ p c).head?))).findSome? (fun x =>
    match x.2 with
    | some k => (match s.frameOf k with
        | some f => if s.mayStartFrame p x.1 f.len && s.rateOk p f then some (x.1, k) else none
        | none => some (x.1, k))
    | none => none)

/-- The first byte of slot `k` leaves port `p`: its time is recorded and answers the EGRESS_TS requests that wait for it. -/
def State.stampFrame (s : State) (p k : Nat) (f : Frame) : State :=
  let v := s.dtbPlus (s.sfld (R.PORT_TSCORR_TX p))
  let due := s.helpers.filter (fun h => h.stamp == some k)
  due.foldl (fun s h => (s.putArea (h.desc + 8) (leBytes 8 v)).finish h 0 0) (s.setFrame k { f with txTime := some v })

/-- Whether port `p`'s medium is its own to start a frame (R501, R502): a 10BASE-T1S port that runs PLCA starts its frame after the
opportunities of the lower node IDs, TO bit times of 100 ns each, have passed since the BEACON, and each further frame of its burst within
BURST_TMR bit times of the one before (log 72). -/
def State.plcaTurn (s : State) (p : Nat) : Bool :=
  let i := p - 24
  let w := (s.port p).plcaNow.toNat
  let op := if w / 2 ^ 24 = 0 then 32 else w / 2 ^ 24
  if decide (p < 24) || w % 2 == 0 || !s.flag (R.T1S_STATUS2_PLCA_OK i) then true
  else match (s.port p).beaconAt with
    | none => false
    | some t =>
      if (s.port p).sent = 0 then decide (t + w / 2 ^ 8 % 256 * op * 100 ≤ s.clk)
      else decide ((s.port p).sent ≤ s.fld (R.T1S_PLCA_T_BURST_CNT i))
        && decide (s.clk ≤ (s.port p).lastEnd + s.fld (R.T1S_PLCA_T_BURST_TMR i) * 100)

/-- FRAME_TRANSMIT (R473, R484, R487-R489, R492, R501, R601, R607). -/
def execFrameTransmit (port : Fin 36) (s : State) : Res :=
  .next (
    let p := port.val
    if !s.portUp p || (s.port p).pause || (s.port p).tx.isSome || !s.plcaTurn p then s
    else match s.txClass p with
      | none => s
      | some (c, k) =>
        let s := s.setEgressQ p c (s.egressQ p c).tail
        (match s.frameOf k with
         | none => s
         | some f =>
           let s := s.stampFrame p k f
           let r := s.frameRead f (f.cells.length + 1) 0 f.len
           let data := r.1.getD (freeBytes r.2.freeCtr f.len)
           (if r.1.isSome then r.2 else r.2.tookFree).updPort p (fun x =>
             { x with tx := some { slot := k, gen := s.genOf k, data := data }, sent := x.sent + 1 })))

/-- FRAME_TRANSMIT_END (R459, R473, R484): the frame's last byte has left. A frame that has gone meanwhile, or that has become BAD since it
started, ends with an inverted FCS; the port that has ceased to transmit sends nothing of it (log 71). -/
def execFrameTransmitEnd (port : Fin 36) (s : State) : Res :=
  .next (
    let p := port.val
    match (s.port p).tx with
    | none => s
    | some x =>
      let frame := if s.genOf x.slot = x.gen then s.frameOf x.slot else none
      let up := s.portUp p
      let s := s.updPort p (fun y => { y with tx := none, lastEnd := s.clk })
      match frame with
      | some f =>
        let bad := f.bad || f.crcBad
        let s := if up then (s.portCount p 1).send (.frame p x.data bad) else s
        (if bad then s.countDrop f.row 2 else s).freeSlot x.slot
      | none => if up then (s.portCount p 1).send (.frame p x.data true) else s)

/-- GATE_CHANGE (R490). -/
def execGateChange (port : Fin 36) (s : State) : Res :=
  .next (
    let p := port.val
    if s.granted 12 && s.granted (portDomain p) && s.flag (R.PORT_GATE_NEXT_VALID p)
        && decide (s.pair (R.PORT_GATE_AT_LO p) (R.PORT_GATE_AT_HI p) ≤ s.dtbNow) then
      ((s.setFld (R.PORT_GATE_OPEN p) (s.fld (R.PORT_GATE_NEXT p))).setFld (R.PORT_GATE_NEXT_VALID p) 0).event
        (s.reg (R.PORT_GATE_ROUTE p))
    else s)

end Sys2Proof.Machine
end

