-- ==== Sys2Proof/Machine/Ports.lean ====
section
/-! DEFINITION. Ports (14): locks, transmitter equalisers, gates as registers, PLCA, the MACsec key port, and the steps and slews
of the device time base. -/

namespace Sys2Proof.Machine

/-! ## Equalisers (R495-R500) -/

/-- The coefficients of preset `n` (Table 14.3), in the layout of PORT_TXEQ_0. -/
def presetWord (n : Nat) : Word :=
  let w := fun (a b c d : Int) => BitVec.ofNat 32 (ofSigned 8 a + ofSigned 8 b * 2 ^ 8 + ofSigned 8 c * 2 ^ 16 + ofSigned 8 d * 2 ^ 24)
  match n with
  | 1 => w 0 0 (-16) (-8)
  | 2 => w 0 4 (-20) (-8)
  | 3 => w (-2) 6 (-28) (-12)
  | _ => 0

/-- c(0) of a coefficient word on port `p`: what is left of 128, or of 64 on an edge port. -/
def mainTap (p : Nat) (w : Word) : Int :=
  let c := fun i => ((toSigned 8 (w.toNat / 2 ^ (8 * i) % 256)).natAbs : Int)
  if p < 8 then 128 - c 0 - c 1 - c 2 - c 3 else 64 - c 2 - c 3

/-- The least c(0) of port `p`. -/
def mainTapMin (p : Nat) : Int := if p < 8 then 64 else 40

/-- The coefficients that registers set for port `p` (R498). -/
def State.txeqSet (s : State) (p : Nat) : Word :=
  if decide (p < 8) && s.flag (R.PORT_TXEQ_1_USE_PRESET p) then presetWord (s.fld (R.PORT_TXEQ_1_PRESET p)) else s.reg (R.PORT_TXEQ_0 p)

/-- Reports `w` as the coefficients in use (R499). -/
def State.txeqUse (s : State) (p : Nat) (w : Word) : State :=
  (s.setReg (R.PORT_TXEQ_ACT p) w).setFld (R.PORT_TXEQ_C0_C0 p) (mainTap p w).toNat

/-- Whether the coefficients of port `p` are those of link training: a backbone port in mode 1 or 2 with its lock (R499). -/
def State.trained (s : State) (p : Nat) : Bool :=
  decide (p < 8) && s.fld (R.PORT_CTL_MODE p) != 0 && s.flag (R.PORT_STATUS_LOCK p)

/-- Reports the registers' coefficients unless training has set others; 10BASE-T1S ports have no equaliser. -/
def State.txeqRefresh (s : State) (p : Nat) : State := if decide (24 ≤ p) || s.trained p then s else s.txeqUse p (s.txeqSet p)

/-! ## Locks (R20, R21, R486, R610) -/

/-- Port `p` stops: its readiness bit falls first, then its lock. -/
def State.portUnlock (s : State) (p : Nat) : State :=
  let s := if p < 24 then s.clrReady (32 + p) else s
  ((s.setFld (R.PORT_STATUS_LOCK p) 0).setFld (R.PORT_STATUS_LINK p) 0).txeqRefresh p

/-- A port that is locked loses its lock (R21, R682). -/
def State.portLost (s : State) (p : Nat) : State :=
  if s.granted (portDomain p) && s.flag (R.PORT_STATUS_LOCK p) then (s.portUnlock p).fault (40 + p) 0 else s

/-- PORT_LOCK_GAIN: an enabled backbone or edge port has its lock; in modes 1 and 2 training has left coefficients that the
device does not let below the limit of R496 (free, log 25). -/
def execPortLockGain (p : Fin 36) (s : State) : Res :=
  .next (
    let p := p.val
    if decide (24 ≤ p) || !s.granted (portDomain p) || !s.flag (R.PORT_CTL_EN p) || !s.tap.srdGood || !s.tap.srhGood
        || s.flag (R.PORT_STATUS_LOCK p) then s
    else
      let free := s.nextFree
      let s := (s.setFld (R.PORT_STATUS_LINK p) 1).setFld (R.PORT_STATUS_LOCK p) 1
      let s := if s.trained p then s.tookFree.txeqUse p (if mainTapMin p ≤ mainTap p free then free else s.txeqSet p) else s
      (s.setReady (32 + p)).activity (36 + p))

/-- PORT_LINK_LOST. -/
def execPortLinkLost (p : Fin 36) (s : State) : Res := .next (if p.val < 24 then s.portLost p.val else s)

/-! ## PLCA (R501-R503) -/

/-- Whether a PLCA word makes its port the coordinator. -/
def plcaCoordinator (w : Word) : Bool := bitOf w 0 && w.toNat / 2 ^ 8 % 256 == 0

/-- PLCA_BEACON (R501-R503): settings written since the last one take effect; a coordinator sends the BEACON with its node count CNT, a
follower returns to PLCA; the transmit opportunities begin anew. -/
def execPlcaBeacon (i : Fin 12) (s : State) : Res :=
  .next (
    let p := 24 + i.val
    if !s.portUp p then s
    else
      let old := (s.port p).plcaNow
      let w := s.reg (R.T1S_PLCA i.val)
      let s := if plcaCoordinator old || plcaCoordinator w then s.send (.plcaBeacon i.val (w.toNat / 2 ^ 16 % 256)) else s
      (s.updPort p (fun x => { x with plcaNow := w, beaconAt := some s.clk, sent := 0 })).setFld (R.T1S_STATUS2_PLCA_OK i.val) (if bitOf w 0 then 1 else 0))

/-- PLCA_BEACON_LOSS: a follower falls back to CSMA/CD. -/
def execPlcaBeaconLoss (i : Fin 12) (s : State) : Res :=
  .next (
    let w := (s.port (24 + i.val)).plcaNow
    if bitOf w 0 && !plcaCoordinator w then s.setFld (R.T1S_STATUS2_PLCA_OK i.val) 0 else s)

/-! ## MACsec keys (R504-R507) -/

/-- The entry that the staging registers hold. -/
def State.stagedSa (s : State) : SaEntry :=
  let bytes := fun (reg : Nat → Nat) (n : Nat) => beNat ((List.range n).flatMap (fun k => leBytes 4 (s.reg (reg k)).toNat))
  { key := BitVec.ofNat 256 (bytes R.MSEC_KEY 8), salt := BitVec.ofNat 96 (bytes R.MSEC_SALT 3),
    suite := BitVec.ofNat 2 (s.fld R.MSEC_CFG_SUITE), valid := s.flag R.MSEC_CFG_VALID }

/-- Entry `i` of the master table. -/
def State.saEntry (s : State) (i : Nat) : SaEntry := tabGet {} i s.saMaster

/-- The check bits of the 12 words of entry `i` (key, salt, settings) after a write of them all (17, R604, R705), word `w` at key 16 i + w. -/
def State.saCheck (s : State) (i : Nat) : State :=
  (List.range 12).foldl (fun s w =>
    let r := s.inject 27
    { r.2 with saEcc := tabSet 0 (16 * i + w) r.1 r.2.saEcc }) s

/-- The words of entry `i` whose check bits are inverted in `n` places. -/
def State.saErr (s : State) (i n : Nat) : List Nat := (List.range 12).filter (fun w => tabGet 0 (16 * i + w) s.saEcc == n)

/-- A COMMIT (R504, R506): the master takes the entry, with its check bits; the copies follow while BUSY is 1. -/
def State.commitSa (s : State) : State :=
  if s.flag R.MSEC_CMD_BUSY then s.setFld R.MSEC_CMD_LOST 1
  else
    let i := s.fld R.MSEC_SEL_SA
    let s := ({ s with saMaster := tabSet {} i s.stagedSa s.saMaster }).saCheck i
    let s := (List.range 8).foldl (fun s k => s.setReg (R.MSEC_KEY k) 0) s
    let s := (List.range 3).foldl (fun s k => s.setReg (R.MSEC_SALT k) 0) s
    { s.setFld R.MSEC_CMD_BUSY 1 with msecBusy := some i }

/-- 32 bits of `x` from bit `p` replaced by a word. -/
def putLane {n : Nat} (x : BitVec n) (p : Nat) (w : Word) : BitVec n :=
  (x &&& ~~~ ((0xFFFFFFFF : Word).zeroExtend n <<< p)) ||| (w.zeroExtend n <<< p)

/-- An entry with word `w` (0-7 key, 8-10 salt, 11 suite and VALID) replaced. -/
def SaEntry.putWord (e : SaEntry) (w : Nat) (v : Word) : SaEntry :=
  if w < 8 then { e with key := putLane e.key (32 * (7 - w)) v }
  else if w < 11 then { e with salt := putLane e.salt (32 * (10 - w)) v }
  else { e with suite := v.truncate 2, valid := bitOf v 2 }

/-- Copies entry `i` of the master into bough `b`'s helper; an entry with an error is reported in backbone port 0's CFG_ERR, and an
uncorrected word of it gives no value (free, log 26). -/
def State.copySa (s : State) (b i : Nat) : State :=
  let bad := s.saErr i 2
  let good := bad.isEmpty && (s.saErr i 1).isEmpty
  let r := bad.foldl (fun (a : SaEntry × State) w => (a.1.putWord w a.2.nextFree, a.2.tookFree)) (s.saEntry i, s)
  let s := { r.2 with saCopies := tabSet [] b (tabSet {} i r.1 (tabGet [] b r.2.saCopies)) r.2.saCopies }
  if good then s else s.fault 40 2

/-- R507: a newly granted bough loads the master table. -/
def State.loadSa (s : State) (b : Nat) : State :=
  let entries : List Nat := s.saMaster.map (fun c => c.1) ++ s.saEcc.map (fun c => c.1 / 16)
  entries.eraseDups.foldl (fun s i => s.copySa b i) { s with saCopies := tabDel b s.saCopies }

/-- MSEC_COMMIT_DONE (R504, R505): the last copy is written. -/
def execMsecCommitDone (s : State) : Res :=
  .next (
    match s.msecBusy with
    | some i =>
      let s := (List.range 8).foldl (fun s b => if s.granted (4 + b) then s.copySa b i else s) s
      { s.setFld R.MSEC_CMD_BUSY 0 with msecBusy := none }
    | none => s)

/-- R507: when PD14 is released every entry becomes invalid, in the master and in every helper. -/
def State.dropSa (s : State) : State :=
  { s with saMaster := [], saCopies := [], saEcc := [], msecBusy := none, helpers := s.helpers.map (fun h => { h with sa := {} }) }

/-! ## The device time base (R199, R512-R514) -/

/-- R199: what a step does to every thread. -/
def Thread.dtbStep (t : Thread) : Thread :=
  let t := if t.state = .wait ∧ t.wait = .waitt then { t with state := .run, wait := .nothing } else t
  let t := if armedOf t.tevt then
      { t with tevt := (t.tevt &&& ~~~ 0x200) ||| (if t.state.takesEvents then 0x40 else 0) }
    else t
  { t with tevt := t.tevt ||| 0x100 }

/-- DTB_CMD = 1 (R512, R514): the DTB moves by the signed DTB_ADJ, and a slew is cancelled. -/
def State.dtbStep (s : State) : State :=
  let s := s.setPair R.DTB_LO R.DTB_HI ((s.dtbNow + s.pair R.DTB_ADJ_LO R.DTB_ADJ_HI) % 2 ^ 64)
  let s := { s.setFld R.DTB_STATUS_SLEWING 0 with dtb := { s.dtb with slewLeft := 0, slewPhase := 0 } }
  (List.range 520).foldl (fun s k =>
    if k < 512 ∧ s.granted (4 + boughOf k) = false then s else s.updThr k Thread.dtbStep) s

/-- DTB_CMD = 2 (R513, R514). -/
def State.dtbSlew (s : State) : State :=
  { s.setFld R.DTB_STATUS_SLEWING 1 with
    dtb := { s.dtb with slewLeft := toSigned 32 (s.reg R.DTB_ADJ_LO).toNat, slewPhase := 0 } }

/-- SLEW_DONE. -/
def execSlewDone (s : State) : Res :=
  .next (if s.dtb.slewLeft = 0 then s.setFld R.DTB_STATUS_SLEWING 0 else s)

/-! ## Writes of port registers -/

/-- What a write of a port register does beside its store; `o` is its offset in port `p`. -/
def State.portHook (s : State) (p o off : Nat) (old wr : Word) : State :=
  let bad := fun (s : State) => (s.setReg off old).fault (40 + p) 2
  if o = 0x00 then
    let s := if p < 8 ∧ s.fld (R.PORT_CTL_MODE p) = 3 then
        (s.setFld (R.PORT_CTL_MODE p) (old.toNat / 2 % 4)).fault (40 + p) 2
      else s
    let s := if 24 ≤ p ∧ bitOf old 0 = false ∧ s.flag (R.PORT_CTL_EN p) = true then
        s.updPort p (fun x => { x with plcaNow := s.reg (R.T1S_PLCA (p - 24)) })
      else s
    if bitOf old 0 && !s.flag (R.PORT_CTL_EN p) then s.portUnlock p else s.txeqRefresh p
  else if o = 0x14 then
    if bitOf wr 16 && s.flag (R.PORT_GATE_NEXT_VALID p) && decide (s.pair (R.PORT_GATE_AT_LO p) (R.PORT_GATE_AT_HI p) < s.dtbNow) then
      s.setFld (R.PORT_GATE_LATE p) 1
    else s
  else if o = 0x24 ∧ p < 24 then (if mainTap p (s.reg off) < mainTapMin p then bad s else s.txeqRefresh p)
  else if o = 0x28 ∧ p < 24 then s.txeqRefresh p
  else if o = 0xC0 ∧ 24 ≤ p then
    (if s.flag (R.PORT_CTL_EN p) then s else s.updPort p (fun x => { x with plcaNow := s.reg off }))
  else s

/-- The port whose block holds window offset `off` (Table 14.6), with the offset in it. -/
def portAt (off : Nat) : Option (Nat × Nat) :=
  if 0x40000 ≤ off ∧ off < 0x48000 then some ((off - 0x40000) / 0x1000, off % 0x1000)
  else if 0x48000 ≤ off ∧ off < 0x4C000 then some (8 + (off - 0x48000) / 0x400, off % 0x400)
  else if 0x4C000 ≤ off ∧ off < 0x4CC00 then some (24 + (off - 0x4C000) / 0x100, off % 0x100)
  else none

end Sys2Proof.Machine
end

