-- ==== Sys2Proof/Machine/Image.lean ====
section
/-! DEFINITION. Program images (03, Tables 3.3-3.5): the header, the checks in their order, the slots of the store. -/

namespace Sys2Proof.Machine

/-- The fields of an image header (Table 3.4). -/
structure Header where
  magic : Bytes
  ver : Nat
  type : Nat
  keySlot : Nat
  secVer : Nat
  build : Nat
  len : Nat
  load : Nat
  entry : Nat
  target : Nat
  hash : BitVec 256
  pub : BitVec 512
  sig : BitVec 512
  zeros : Bytes
  pubBytes : Bytes
  signed : Bytes
  deriving DecidableEq, Repr

/-- Reads the 256 bytes of a header. -/
def headerOf (h : Bytes) : Header :=
  { magic := h.take 4, ver := leNat (slice 4 2 h), type := leNat (slice 6 1 h), keySlot := leNat (slice 7 1 h),
    secVer := leNat (slice 8 2 h), build := leNat (slice 10 2 h), len := leNat (slice 12 4 h), load := leNat (slice 16 8 h),
    entry := leNat (slice 24 4 h), target := leNat (slice 28 4 h), hash := BitVec.ofNat 256 (beNat (slice 32 32 h)),
    pub := BitVec.ofNat 512 (beNat (slice 64 64 h)), sig := BitVec.ofNat 512 (beNat (slice 128 64 h)), zeros := slice 192 64 h,
    pubBytes := slice 64 64 h, signed := h.take 128 }

/-- The memory range that an image of type `type` may fill, as (start, end) offsets: the rootstock private memory, or the
instruction or shared data memory of a bough (03, after Table 3.4). -/
def loadRange (type load : Nat) : Nat × Nat :=
  if type = 1 then (0, 0x40000) else if load < 0x40000 then (0, 0x40000) else (0x100000, 0x200000)

/-- Check 6: payload and ENTRY lie inside the target memory and the slot (R105). -/
def Header.layoutOk (h : Header) (room : Nat) : Bool :=
  let r := loadRange h.type h.load
  h.len % 16 == 0 && decide (256 + h.len ≤ room) && decide (r.1 ≤ h.load) && decide (h.load + h.len ≤ r.2)
    && decide (h.load + h.entry < r.2) && decide (256 + h.entry < room)

/-- R83, Table 3.5: the ERR code of the first check that fails, 0 when all pass. `types` are the types expected, `room` the
bytes of the slot, `payload n` the payload's first `n` bytes. -/
def State.imageErr (s : State) (h : Header) (types : List Nat) (room : Nat) (payload : Nat → Bytes) : Nat :=
  if h.magic ≠ [0x44, 0x58, 0x49, 0x4D] ∨ h.ver ≠ 1 ∨ types.contains h.type = false ∨ h.zeros ≠ List.replicate 64 0 then 1
  else if 3 < h.keySlot ∨ Crypto.sha256 h.pubBytes ≠ tabGet 0 h.keySlot s.fuses.keys then 2
  else if s.fuses.revoked.toNat.testBit h.keySlot then 3
  else if Crypto.ecdsaVerify h.pub (Crypto.sha256 h.signed) h.sig = false then 4
  else if h.secVer < s.fuses.minVer.toNat then 5
  else if h.layoutOk room = false then 6
  else if Crypto.sha256 (payload h.len) ≠ h.hash then 7
  else 0

/-- The owner key slots, revoked or not, whose key made a signature over the digest. A slot holds the digest of the public key
(Table 3.5, check 2), which the signature itself yields. -/
def State.ownerSlots (s : State) (digest : BitVec 256) (sig : BitVec 512) : List Nat :=
  let ks := (Crypto.ecdsaSigners digest sig).map (fun pub => Crypto.sha256 (Crypto.beOf 64 pub.toNat))
  (List.range 4).filter (fun i => ks.contains (tabGet 0 i s.fuses.keys))

/-- R99, R101, R555: whether a signature over SHA-256(nonce || UID || level) is of an owner key slot that is not revoked. -/
def State.ownerSigned (s : State) (nonce : Bytes) (level : Byte) (sig : BitVec 512) : Bool :=
  (s.ownerSlots (Crypto.sha256 (nonce ++ leBytes 8 s.fuses.uid.toNat ++ [level])) sig).any
    (fun i => !s.fuses.revoked.toNat.testBit i)

/-- A fresh 32-byte nonce: random, so a free value (log 1). -/
def State.freshNonce (s : State) : Bytes := beBytes 32 ((Config.freeBig s.freeCtr).toNat)

/-- An image slot of the store as (offset, size): 0, 1 rootstock, 2, 3 fabric (Table 3.3). -/
def imageSlot (i : Nat) : Nat × Nat := if i < 2 then (0x40000 * i, 0x40000) else (0x80000 * (i - 1), 0x80000)

/-- The header in an image slot. -/
def State.slotHeader (s : State) (i : Nat) : Header := headerOf (s.nvBytes (imageSlot i).1 256)

/-- The ERR code of the image in slot `i` (0-3). A header with an uncorrected error fails the first check and a payload with one the
last (log 67). -/
def State.slotErr (s : State) (i : Nat) : Nat :=
  let o := (imageSlot i).1
  if s.nvBad o 256 then 1
  else
    let e := s.imageErr (s.slotHeader i) [if i < 2 then 1 else 2] (imageSlot i).2 (fun n => s.nvBytes (o + 256) n)
    if e = 0 ∧ s.nvBad (o + 256) (s.slotHeader i).len = true then 7 else e

/-- What the verification of the image in slot `i` reports beside its header: an uncorrected error of the payload, where the checks come so
far (17, R605). -/
def State.slotMeet (s : State) (i : Nat) : State :=
  if s.slotErr i = 7 then s.nvMeet ((imageSlot i).1 + 256) (s.slotHeader i).len else s

/-- R82: of the two slots from `base` (0 or 2), the one to verify first: the higher (SEC_VER, BUILD), slot 0 when equal; a header that
cannot be read comes last (log 67). -/
def State.preferred (s : State) (base : Nat) : Nat :=
  let a := s.slotHeader base
  let b := s.slotHeader (base + 1)
  if s.nvBad (imageSlot base).1 256 then 1
  else if s.nvBad (imageSlot (base + 1)).1 256 then 0
  else if a.secVer < b.secVer ∨ (a.secVer = b.secVer ∧ a.build < b.build) then 1 else 0

/-- The ERR code of an image that bytes from outside hold. -/
def State.bytesErr (s : State) (img : Bytes) (types : List Nat) : Nat :=
  s.imageErr (headerOf (img.take 256 ++ List.replicate (256 - img.length) 0xFF)) types img.length (fun n => slice 256 n img)

/-- Whether the store range overlaps the slot of a running image (R574): an image that came from the flash or from the host lies in no
slot. -/
def State.hitsRunning (s : State) (off len : Nat) : Bool :=
  let hit := fun i => decide (off < (imageSlot i).1 + (imageSlot i).2) && decide ((imageSlot i).1 < off + len)
  s.boot.rsStore.any hit || s.boot.fabStore.any (fun i => hit (2 + i))

/-! ## The rootstock private memory (Table 17.5, store 26; R605, R705) -/

/-- The read of the word of private memory that holds `off`: its error is reported; code 5 where it is uncorrected. -/
def State.rsCheck (s : State) (off : Nat) : Nat × State :=
  match tabGet 0 (off / 4) s.rsEcc with
  | 0 => (0, s)
  | 1 => (0, s.fault 3 3)
  | _ => (5, s.fault 3 2)

/-- `n` bytes of private memory. -/
def State.rsBytes (s : State) (off n : Nat) : Bytes := (List.range n).map (fun i => tabGet 0 (off + i) s.rsMem)

/-- `n` bytes of private memory as a little-endian number. -/
def State.rsPeek (s : State) (off n : Nat) : Nat := leNat (s.rsBytes off n)

/-- Reads bytes of any length and place; `none` where a word has an uncorrected error. -/
def State.rsReadAll (s : State) (off n : Nat) : Option Bytes × State :=
  let r := (wordsOf off n).foldl (fun (a : Bool × State) w =>
    let x := a.2.rsCheck w
    (a.1 && x.1 == 0, x.2)) (true, s)
  (if r.1 then some (s.rsBytes off n) else none, r.2)

/-- Writes bytes inside one word with fresh check bits. -/
def State.rsStore (s : State) (off : Nat) (bs : Bytes) : State :=
  let r := s.inject 26
  { r.2 with
    rsEcc := tabSet 0 (off / 4) r.1 r.2.rsEcc
    rsMem := (List.range bs.length).foldl (fun m i => tabSet 0 (off + i) (bs.getD i 0) m) r.2.rsMem }

/-- Writes bytes inside one word: a part of a word is merged, and an uncorrected error in the merge read leaves the word as it was. -/
def State.rsMerge (s : State) (off : Nat) (bs : Bytes) : Nat × State :=
  let c := if bs.length = 4 then (0, s) else s.rsCheck off
  if c.1 = 0 then (0, c.2.rsStore off bs) else c

/-- Writes bytes of any length and place, word by word; the fuel bounds the number of words. -/
def State.rsPokeFuel : Nat → State → Nat → Bytes → State
  | 0, s, _, _ => s
  | _, s, _, [] => s
  | fuel + 1, s, off, b :: bs =>
    let n := 4 - off % 4
    State.rsPokeFuel fuel (s.rsMerge off ((b :: bs).take n)).2 (off + n) ((b :: bs).drop n)

/-- Writes bytes into the rootstock private memory from `off`. -/
def State.rsPoke (s : State) (off : Nat) (bs : Bytes) : State := State.rsPokeFuel bs.length s off bs

end Sys2Proof.Machine
end

