-- ==== Sys2Proof/Machine/Jobs.lean ====
section
/-! DEFINITION. The jobs engine (16): acceptance and refusal, starting in order, pages of store jobs, ends and completion
records, aborts. -/

namespace Sys2Proof.Machine

/-! ## Memory ranges that jobs read and write -/

/-- Whether a device range lies in one memory (R706), the register window not among them. -/
def memRange (addr n : Nat) : Bool :=
  match memAt addr n with
  | some .regs => false
  | some _ => true
  | none => false

/-- Reads a device range: `none` where it lies in no memory, its domain is off, or a word has an uncorrected error. -/
def State.devRead (s : State) (addr n : Nat) : Option Bytes × State :=
  match memAt addr n with
  | some m => if m != .regs && s.granted m.domain then s.memReadAll m addr n else (none, s)
  | none => (none, s)

/-- Writes a device range; nothing where it lies in no memory or its domain is off. -/
def State.devWrite (s : State) (addr : Nat) (bs : Bytes) : State :=
  match memAt addr bs.length with
  | some m => if m != .regs && s.granted m.domain then s.memWriteAll m (bs.length + 4) addr bs else s
  | none => s

/-- The read of `n` bytes by the device on behalf of `req`: refused under R23, R36 or R37 (the register window, which takes words only),
or the bytes, `none` where a word has an uncorrected error. -/
def State.reqRead (s : State) (req : Req) (addr n : Nat) : Option Bytes × State :=
  let window := decide (0xF000000000 ≤ addr) && decide (addr < 0xF000068000)
  let domain := if window then some (domainOf (addr - 0xF000000000)) else regionDomain addr
  if domain.any (fun d => !s.granted d) then (none, s.refuse .nrdy req addr false 0)
  else match memAt addr n with
    | none => (none, s.refuse .unmapped req addr false 0)
    | some .regs => (none, s.refuse .width req addr false 0)
    | some m => s.memReadAll m addr n

/-- Whether the function that holds a device range is ready: the packet buffer or a bough (01, Table 1.9). -/
def State.rangeReady (s : State) (addr n : Nat) : Bool :=
  match memAt addr n with
  | some .buf => s.ready 29
  | some .regs | none => true
  | some m => s.ready (16 + m.domain)

/-! ## The list of jobs -/

/-- The job that holds tag `t`. -/
def State.job (s : State) (t : Nat) : Option Job := s.jobs.list.find? (fun j => j.tag == t)

/-- Changes the job that holds tag `t`. -/
def State.updJob (s : State) (t : Nat) (f : Job → Job) : State :=
  { s with jobs := { s.jobs with list := s.jobs.list.map (fun j => if j.tag = t then f j else j) } }

/-- Whether a job uses the store (R569). -/
def Job.usesStore (j : Job) : Bool :=
  j.op == 1 || j.op == 2 || j.op == 3 || j.op == 9 || (j.op == 6 && j.arg0 == 2) || (j.op == 8 && decide (j.arg0 < 4))

/-- Whether two jobs may not run at once (R569). -/
def Job.excludes (a b : Job) : Bool :=
  if a.usesStore || b.usesStore then a.usesStore && b.usesStore else a.op == b.op

/-- TOTAL of a job (Table 16.3); for GRAFT_SYNC and IMAGE_VERIFY `len` holds it. -/
def Job.total (j : Job) : Nat :=
  match j.op with
  | 2 => j.len / 256
  | 5 => 5000
  | 6 => if j.arg0 = 0 then 0x1000000 else if j.arg0 = 1 then 8 * 0x60000 else 0x80000
  | 7 => 1536
  | _ => j.len

/-- POSITION of a job (R570): that of a running RING_START is the time since its START in us. -/
def State.jobPos (s : State) (j : Job) : Nat :=
  if j.op = 5 ∧ j.state = .running ∧ j.ended = false then min 5000 ((s.clk - s.ring.startAt) / 1000) else j.pos

/-- JOB_PROG_t.PCT (R570). -/
def State.jobPct (s : State) (j : Job) : Nat := if j.state = .done then 10000 else min 9999 (s.jobPos j * 10000 / j.total)

/-! ## Acceptance (R565-R568, R574, R637) -/

/-- The number of slots of an owner (R563). -/
def slotsOf (o : Nat) : Nat := if o = 8 then 128 else 16

/-- The next free tag (R564). -/
def freeTag (used : List Nat) : Nat → Nat → Nat
  | 0, t => t
  | n + 1, t => if used.contains t then freeTag used n ((t + 1) % 1024) else t

/-- The section entries of a GRAFT_SYNC table: (ADDR, LEN, KIND, MASK, whether the reserved bytes are 0) (Table 18.3). -/
def graftSections : Nat → Bytes → List (Nat × Nat × Nat × Nat × Bool)
  | 0, _ => []
  | n + 1, b =>
    (leNat (b.take 8), leNat (slice 8 4 b), leNat (slice 12 1 b), leNat (slice 13 1 b), leNat (slice 14 2 b) == 0)
      :: graftSections n (b.drop 16)

/-- Whether a section entry keeps Table 18.3 and R637. -/
def sectionOk (e : Nat × Nat × Nat × Nat × Bool) : Bool :=
  let (addr, len, kind, mask, rsv) := e
  rsv && decide (addr < 2 ^ 40) && len % 4 == 0 && decide (1 ≤ kind) && decide (kind ≤ 4) && memRange addr len
    && (kind == 2 || mask == 0) && (kind != 1 || len % 8 == 0) && (kind != 4 || len == 32)
    && (kind != 2 || (decide (0x100000 ≤ addr % 0x1000000) && decide (addr % 0x1000000 + len ≤ 0x200000)
        && decide (0x100000000 ≤ addr) && decide (addr < 0x108000000)))

/-- BANK bytes of a BANK_MIB code: 0 acts as 1, above 8 as 8 (Table 18.8). -/
def bankBytes (mib : Nat) : Nat := max 1 (min 8 mib) * 0x100000

/-- Whether every memory that the sections of a GRAFT_SYNC lie in is ready. -/
def State.graftReady (s : State) (n src : Nat) : Bool :=
  (graftSections n (s.peekBytes src (16 * n))).all (fun e => s.rangeReady e.1 e.2.1)

/-- The TOTAL of a GRAFT_SYNC that may run, from its section table (R637). -/
def State.graftTotal (s : State) (n src : Nat) : Option Nat :=
  if s.fld R.GRAFT_STATUS_ROLE = 0 ∨ n = 0 ∨ 32 < n ∨ memRange src (16 * n) = false then none
  else
    let secs := graftSections n (s.peekBytes src (16 * n))
    let total := 16 * n + (secs.map (fun e => e.2.1)).sum
    if secs.all sectionOk && decide (total + 64 ≤ bankBytes s.graft.pBank) then some total else none

/-- Whether a store range lies in one region that NV_WRITE and NV_ERASE may write (R574). -/
def nvWritable (off len : Nat) : Bool :=
  decide (off + len ≤ 0x180000) || (decide (0x1B0000 ≤ off) && decide (off + len ≤ 0x200000))

/-- The refusal code of a job that has a slot and the level it needs, 0 where it is accepted (R568, R574). -/
def State.jobRefusal (s : State) (j : Job) : Nat :=
  match j.op with
  | 1 => if j.len % 4 ≠ 0 ∨ nvWritable j.dst j.len = false ∨ memRange j.src j.len = false then 3
         else if s.hitsRunning j.dst j.len then 7
         else if s.ready 16 = true ∧ s.rangeReady j.src j.len = true then 0 else 6
  | 2 => if j.len % 256 ≠ 0 ∨ j.dst % 256 ≠ 0 ∨ nvWritable j.dst j.len = false then 3
         else if s.hitsRunning j.dst j.len then 7
         else if s.ready 16 then 0 else 6
  | 3 => if (j.arg0 ≠ 1 ∧ j.arg0 ≠ 2) ∨ j.len < 4 ∨ 32512 < j.len ∨ j.len % 4 ≠ 0 ∨ memRange j.src j.len = false
              ∨ (s.recWinner (j.arg0 - 1)).any (fun w => w.2.1 == 0xFFFFFFFF) = true then 3
         else if s.ready 16 = true ∧ s.rangeReady j.src j.len = true then 0 else 6
  | 4 => if j.dst ≠ 0 ∨ j.len ≠ 0 ∨ j.arg1 ≠ 0 ∨ s.fld R.GRAFT_STATUS_ROLE = 0 ∨ j.arg0 = 0 ∨ 32 < j.arg0
              ∨ memRange j.src (16 * j.arg0) = false then 3
         else if s.rangeReady j.src (16 * j.arg0) = false then 6
         else if (s.graftTotal j.arg0 j.src).isNone then 3
         else if s.ready 60 = true ∧ s.graftReady j.arg0 j.src = true then 0 else 6
  | 5 => if s.granted 13 then 0 else 6
  | 6 => if 2 < j.arg0 then 3
         else if j.arg0 = 0 then (if s.ready 29 then 0 else 6)
         else if j.arg0 = 1 then (if (List.range 8).any (fun b => s.ready (20 + b)) then 0 else 6)
         else if s.ready 16 then 0 else 6
  | 7 => if 7 < j.arg0 ∨ s.granted (4 + j.arg0) = false ∨ (List.range 64).any (fun i =>
              let st := (s.thr (64 * j.arg0 + i)).state
              st != .idle && st != .unassigned) then 3
         else if s.ready (20 + j.arg0) then 0 else 6
  | 8 => if 4 < j.arg0 ∨ (j.arg0 = 4 ∧ memRange j.src 256 = false) then 3
         else if (if j.arg0 = 4 then s.rangeReady j.src 256 else s.ready 16) && s.ready 18 then 0 else 6
  | 9 => if j.len < 1 ∨ 1024 < j.len ∨ 1024 < j.arg0 + j.len ∨ memRange j.dst (64 * j.len) = false then 3
         else if s.ready 16 = true ∧ s.rangeReady j.dst (64 * j.len) = true then 0 else 6
  | _ => 3

/-- The job that a descriptor asks for (Table 16.2). -/
def descJob (owner tag : Nat) (d : Bytes) : Job :=
  { tag := tag, owner := owner, op := leNat (d.take 1), arg0 := leNat (slice 4 4 d), src := leNat (slice 8 8 d),
    dst := leNat (slice 16 4 d), len := leNat (slice 20 4 d), arg1 := leNat (slice 24 4 d) }

/-- Whether a job type needs warden privilege (Table 16.3). -/
def wardenJob (op : Nat) : Bool := decide (1 ≤ op) && decide (op ≤ 9) && op != 8

/-- Accepts or refuses a job of owner `o`: the RESULT word and the state after it (R563-R565, R568). While the jobs engine itself is not
ready, every job is refused so (01, R22). -/
def State.submit (s : State) (o : Nat) (warden : Bool) (d : Bytes) : Word × State :=
  let used := s.jobs.list.map (fun j => j.tag)
  let tag := freeTag used 1024 s.jobs.nextTag
  let j := descJob o tag d
  let refuse := fun (c : Nat) => (BitVec.ofNat 32 (2 ^ 31 + c), s)
  if s.ready 17 = false then refuse 6
  else if slotsOf o ≤ (s.jobs.list.filter (fun j => j.owner == o)).length then refuse 4
  else if wardenJob j.op = true ∧ warden = false then refuse 5
  else if 2 ^ 40 ≤ j.src ∨ leNat (slice 1 3 d) ≠ 0 then refuse 3
  else match s.jobRefusal j with
    | 0 =>
      let j := if j.op = 4 then { j with len := (s.graftTotal j.arg0 j.src).getD 0 } else j
      (BitVec.ofNat 32 (2 ^ 31 + 2 ^ 30 + tag * 2 ^ 16),
       { s with jobs := { s.jobs with list := s.jobs.list ++ [j], nextTag := (tag + 1) % 1024 } })
    | c => refuse c

/-- A commit of JOB_o_SUBMIT by `req` (R565-R567): the descriptor is read, judged and answered in its RESULT word. A descriptor with an
uncorrected error, or in the register window, is one that cannot be read (log 69). -/
def State.submitAt (s : State) (o : Nat) (req : Req) (priv : Bool) (addr : Nat) : State :=
  let warden := s.level req == .warden
  let bad := fun (s : State) => s.setFld (R.JOB_STAT_BADSUB o) 1
  if addr % 32 ≠ 0 then bad s
  else if priv then
    if 0x40000 < addr + 32 then bad s
    else
      match s.rsReadAll addr 32 with
      | (some d, s) => let r := s.submit o warden d
                       r.2.rsPoke (addr + 28) (leBytes 4 r.1.toNat)
      | (none, s) => bad s
  else
    match s.reqRead req addr 32 with
    | (some d, s) => let r := s.submit o warden d
                     r.2.devWrite (addr + 28) (leBytes 4 r.1.toNat)
    | (none, s) => bad s

/-! ## Running (R569) -/

/-- Whether the job of tag `t` is the next of its kind to start. -/
def State.mayStart (s : State) (t : Nat) : Bool :=
  match s.job t with
  | none => false
  | some j => j.state == .queued
      && (s.jobs.list.takeWhile (fun k => k.tag != t)).all (fun k => k.state == .done || !k.excludes j)

/-- Starts the queued job of tag `t` and type `op`, if its turn has come: `body` acts on the state in which it runs. -/
def State.startJob (s : State) (t op : Nat) (body : Job → State → State) : State :=
  match s.job t with
  | some j => if j.op = op ∧ s.mayStart t = true then body j (s.updJob t (fun j => { j with state := .running })) else s
  | none => s

/-- A running job has ended; its completion record is still to be queued. -/
def State.endJob (s : State) (t status result pos : Nat) : State :=
  s.updJob t (fun j => { j with ended := true, status := status, result := result, pos := max j.pos pos })

/-- Ends the running job of type `op`, if there is one (GRAFT_SYNC, RING_START). -/
def State.endJobOf (s : State) (op status result : Nat) : State :=
  match s.jobs.list.find? (fun j => j.op == op && j.state == .running && !j.ended) with
  | some j => s.endJob j.tag status result (s.jobPos j)
  | none => s

/-- The completion record of a job (Table 16.5). -/
def State.cplWords (s : State) (j : Job) : List Word :=
  [BitVec.ofNat 32 (j.tag + j.op % 256 * 2 ^ 16 + j.status % 256 * 2 ^ 24), BitVec.ofNat 32 j.pos, BitVec.ofNat 32 j.result,
   BitVec.ofNat 32 s.dtbNow]

/-- Queues a job's completion record and raises its owner's event (R571); at the completion of a CAL_STORE both winners are selected anew
(R581). -/
def State.complete (s : State) (j : Job) : State :=
  let q := tabGet [] j.owner s.jobs.cpl ++ [{ words := s.cplWords j, tag := j.tag }]
  let s := s.updJob j.tag (fun k => { j with state := .done, ended := true, tag := k.tag })
  let s := ({ s with jobs := { s.jobs with cpl := tabSet [] j.owner q s.jobs.cpl } }).event (s.reg (R.JOB_ROUTE j.owner))
  if j.op = 3 ∧ s.granted 3 = true then (s.reportWinner 0).reportWinner 1 else s

/-- R582: aborts every job of row `r`; a CAL_STORE whose header has been programmed goes on. -/
def State.abortJobs (s : State) (r : Nat) : State :=
  (s.jobs.list.filter (fun j => j.owner == r && j.state != .done)).foldl (fun s j =>
    if j.op = 3 ∧ (j.len + 255) / 256 + 2 ≤ j.pages then s else s.complete { j with status := 2 }) s

/-! ## Pages of store jobs (R575, R577, R580) -/

/-- The data pages of a CAL_STORE. -/
def Job.dataPages (j : Job) : Nat := (j.len + 255) / 256

/-- The pages that a store job programs in all. -/
def Job.pageCount (j : Job) : Nat :=
  match j.op with
  | 1 => if j.len = 0 then 0 else (j.dst + j.len - 1) / 256 + 1 - j.dst / 256
  | 2 => j.len / 256
  | 3 => j.dataPages + 2
  | _ => 0

/-- The record header of a CAL_STORE with its CRCs (Table 16.7). -/
def State.recHeader (s : State) (j : Job) : Bytes :=
  let h := [0x44, 0x58, 0x52, 0x43] ++ leBytes 2 j.arg0 ++ leBytes 2 1 ++ leBytes 4 j.arg1 ++ leBytes 4 j.len
    ++ leBytes 4 (crc32Ieee (s.nvBytes (j.dst + 256) j.len))
  h ++ leBytes 4 (crc32Ieee h) ++ List.replicate 232 0

/-- The next page of a store job: its number, where in it the new bytes begin, and where they come from: fixed bytes, or
`n` bytes of the job's source from `src`. -/
def State.nextPage (s : State) (j : Job) : Nat × Nat × (Bytes ⊕ (Nat × Nat)) :=
  match j.op with
  | 1 =>
    let p := j.dst / 256 + j.pages
    let a := max j.dst (256 * p)
    let e := min (j.dst + j.len) (256 * p + 256)
    (p, a - 256 * p, .inr (j.src + (a - j.dst), e - a))
  | 2 => (j.dst / 256 + j.pages, 0, .inl (List.replicate 256 0xFF))
  | _ =>
    if j.pages = 0 then (j.dst / 256, 0, .inl (List.replicate 256 0))
    else if j.pages ≤ j.dataPages then
      (j.dst / 256 + j.pages, 0, .inr (j.src + 256 * (j.pages - 1), min 256 (j.len - 256 * (j.pages - 1))))
    else (j.dst / 256, 0, .inl (s.recHeader j))

/-- POSITION after `pages` pages of a store job. -/
def Job.posAfter (j : Job) (pages : Nat) : Nat :=
  match j.op with
  | 1 => min j.len (256 * (j.dst / 256 + pages) - j.dst)
  | 2 => pages
  | _ => min j.len (256 * (pages - 1))

/-- The end of a store job whose last page is programmed: a CAL_STORE is read back (R580). -/
def State.finishStore (s : State) (j : Job) : State :=
  if j.op = 3 then
    let k := j.arg0 - 1
    let i := if j.dst = recSlot k 0 then 0 else 1
    let good := (s.recValid k i).isSome
    (s.recMeet k i).endJob j.tag (if good then 0 else 8) (if good then j.arg1 else 0) j.len
  else s.endJob j.tag 0 0 0

/-- Programs the next page of running store job `j` with VHOLD code `code`. -/
def State.jobPage (s : State) (j : Job) (code : Nat) (mismatch : Bool) : State :=
  let h := s.holdUp code
  if !h.1 then (h.2.endJob j.tag 1 0 0).fault 14 0
  else
    let s := h.2
    let n := s.nextPage j
    let data : Option Bytes × State := match n.2.2 with
      | .inl bs => (some bs, s)
      | .inr a => s.devRead a.1 a.2
    match data with
    | (none, s) => s.endJob j.tag 8 0 0
    | (some bs, s) =>
      let old := if bs.length = 256 then (some bs, s) else s.nvRead (256 * n.1) 256
      match old with
      | (none, s) => s.endJob j.tag 8 0 0
      | (some o, s) =>
        let s := s.programPage n.1 (mergePage o n.2.1 bs) mismatch
        let s := s.updJob j.tag (fun k => { k with pages := j.pages + 1, pos := max k.pos (j.posAfter (j.pages + 1)) })
        if mismatch then s.endJob j.tag 8 0 0
        else if j.pages + 1 = j.pageCount then s.finishStore { j with pages := j.pages + 1 }
        else s

/-- STORE_PAGE_PROGRAM: the oldest waiting fault record, or else the next page of the running store job. In the safe state no
store job starts a page (R601). Nothing happens while PD3 is off. -/
def State.pageProgram (s : State) (code : Nat) (mismatch : Bool) : State :=
  if !s.granted 3 then s
  else match s.fst.queue with
    | rec :: more => if s.flag R.FLT_NV_STAT_BUSY then s else s.programRecord rec more code mismatch
    | [] =>
      match s.jobs.list.find? (fun j => j.state == .running && !j.ended && decide (0 < j.pageCount)) with
      | some j => if s.safe then s else s.jobPage j code mismatch
      | none => s

/-- NV_STATUS.BUSY: a store job runs. -/
def State.nvBusy (s : State) : Bool := s.jobs.list.any (fun j => j.usesStore && j.state == .running)

/-- A read of JOB_o_CPL_0 by the requester of key `q`: the oldest record goes to the requester's shadow, and its tag and slot
are free (R572). -/
def State.cplTake (s : State) (q o : Nat) : Word × State :=
  match tabGet [] o s.jobs.cpl with
  | [] => (0, s)
  | c :: cs =>
    (c.words.getD 0 0,
     { s with jobs := { s.jobs with
        list := s.jobs.list.filter (fun j => j.tag != c.tag),
        cpl := tabSet [] o cs s.jobs.cpl,
        cplShadow := tabSet [] q c.words s.jobs.cplShadow } })

end Sys2Proof.Machine
end

