-- ==== Sys2Proof/Machine/Ring.lean ====
section
/-! DEFINITION. The Riluenyx ring (14, R515-R527): its frames, coldstart, cycles, windows, and the ends of its waits. -/

namespace Sys2Proof.Machine

/-- Changes the ring engine. -/
def State.updRing (s : State) (f : RingSt → RingSt) : State := { s with ring := f s.ring }

/-- RING_STATUS.STATE: 0 OFF, 1 LISTEN, 2 BACKOFF, 3 CONFIRM, 4 FOLLOW, 5 RUN, 6 DEGRADED. -/
def State.ringState (s : State) : Nat := s.fld R.RING_STATUS_STATE

/-- Sets it. -/
def State.setRingState (s : State) (v : Nat) : State := s.setFld R.RING_STATUS_STATE v

/-- The node ID: STRAP_NODE as TAP_STRAP latched it (14, R524). -/
def State.nodeId (s : State) : Nat := s.fld R.TAP_STRAP_NODE

/-- The ring port on one side. -/
def State.ringSide (s : State) (east : Bool) : Nat := s.fld (if east then R.RING_CFG_PORT_E else R.RING_CFG_PORT_W)

/-! ## Frames (Table 14.4, R515, R516) -/

/-- A ring frame of the node's own, FCS excluded, padded to the least length that a port passes (R486). -/
def State.ringBytes (s : State) (port type cycle info : Nat) : Bytes :=
  [0x03, 0x52, 0x49, 0x4C, 0x00, 0x00] ++ s.portMac port ++ [0x88, 0xB5, BitVec.ofNat 8 (0x10 + type), BitVec.ofNat 8 s.nodeId]
    ++ beBytes 2 cycle ++ beBytes 2 0 ++ beBytes 2 (s.fld R.RING_STATUS_COLD) ++ beBytes 4 info ++ beBytes 4 s.ring.heardPrev
    ++ List.replicate 30 0

/-- Sends bytes out of one ring port, if that port transmits (R484, R601). -/
def State.ringOut (s : State) (east : Bool) (bs : Bytes) : State :=
  if s.portUp (s.ringSide east) then s.send (.ring east bs) else s

/-- Sends a frame of the node's own out of both ring ports. -/
def State.ringSend (s : State) (type cycle info : Nat) : State :=
  let e := s.ringBytes (s.ringSide true) type cycle info
  let w := s.ringBytes (s.ringSide false) type cycle info
  (s.ringOut true e).ringOut false w

/-- The node of a received frame. -/
def ringNode (d : Bytes) : Nat := (d.getD 15 0).toNat % 16

/-- Its type. -/
def ringType (d : Bytes) : Nat := (d.getD 14 0).toNat % 16

/-- Whether a received frame has a sound header: whole, version 1 and a type of 1-4 (R515). -/
def ringSound (d : Bytes) : Bool := decide (30 ≤ d.length) && (d.getD 14 0).toNat / 16 == 1 && decide (1 ≤ ringType d) && decide (ringType d ≤ 4)

/-- Whether a frame's source address is that of neither ring port. -/
def State.ringForeign (s : State) (d : Bytes) : Bool :=
  slice 6 6 d != s.portMac (s.ringSide true) && slice 6 6 d != s.portMac (s.ringSide false)

/-- The node has been heard in this cycle (R522). -/
def State.ringHear (s : State) (n : Nat) : State :=
  s.updRing (fun r => { r with heard := r.heard ||| 2 ^ n, everHeard := r.everHeard ||| 2 ^ n })

/-- A ring frame of type `type` arrives on one ring port: the port's checks, the engine's checks, forwarding, and then `body`
unless the frame is the node's own come back; a SLOT frame is passed on in any case (R515). A frame of another sound type is no command of
this kind. -/
def State.ringReceive (s : State) (type : Nat) (east : Bool) (d : Bytes) (body : State → State) : State :=
  let p := s.ringSide east
  if !s.granted 13 || (ringSound d && ringType d != type) then s
  else
    let s := s.activity p
    if !s.portUp p then s.portCount p 2
    else if d.length + 4 < 64 then s.portCount p 3
    else if !ringSound d then (s.portCount p 0).fault 79 3
    else
      let s := if type = 3 then s else s.portCount p 0
      let own := ringNode d == s.nodeId
      let s := if type = 3 || own then s else s.ringOut (!east) d
      let s := if own && s.ringForeign d then s.fault 79 0 else s
      if own && !s.ringForeign d && type != 3 then s else body s

/-! ## Coldstart and following (R519-R521, R526) -/

/-- R519: the node listens. -/
def State.ringListen (s : State) : State :=
  ((s.setRingState 1).setFld R.RING_STATUS_COLD 0).updRing (fun r =>
    { r with attempt := 0, wait := 0, collided := false, inCycle := false, windowOpen := false })

/-- An attempt begins: its back-off is drawn (R520). -/
def State.ringAttempt (s : State) (n : Nat) : State :=
  let w := if n ≤ 3 then s.nextFree.toNat % 1024 else s.nodeId * 25
  ((if n ≤ 3 then s.tookFree else s).setRingState 2).updRing (fun r => { r with attempt := n, wait := w })

/-- A new cycle begins at DTB value `at_`: nodes that have left are members no more, of the ring and of the header field (R527). -/
def State.ringCycle (s : State) (count at_ : Nat) : State :=
  let s := s.setReg R.RING_CYCLE (BitVec.ofNat 32 (count % 2 ^ 16))
  let s := s.setReg R.RING_MEMBERS (s.reg R.RING_MEMBERS &&& ~~~ BitVec.ofNat 32 s.ring.leaving)
  s.updRing (fun r => { r with inCycle := true, cycleAt := at_, heard := 2 ^ s.nodeId, everHeard := r.everHeard ||| 2 ^ s.nodeId,
                               heardPrev := r.heardPrev &&& (r.heardPrev ^^^ r.leaving), leaving := 0, windowOpen := false })

/-- The coldstart node sends the BEACON of cycle `count` (R517). -/
def State.ringBeacon (s : State) (count : Nat) : State :=
  (s.ringCycle count s.dtbNow).ringSend 2 (count % 2 ^ 16) (s.dtbNow % 2 ^ 32)

/-- Whether the node keeps cycles: FOLLOW, RUN or DEGRADED. -/
def State.ringOn (s : State) : Bool := decide (4 ≤ s.ringState) && decide (s.ringState ≤ 6)

/-- RING_CTL.START (R519). -/
def State.ringStart (s : State) : State :=
  ((s.setFld R.RING_STATUS_NODE s.nodeId).clrReady 31).ringListen.updRing (fun r =>
    { r with startAt := s.clk, heard := 0, heardPrev := 0, everHeard := 0, leaving := 0 })

/-- RING_CTL.STOP (R527): one LEAVE, then OFF. -/
def State.ringStop (s : State) : State :=
  let s := s.ringSend 4 (s.fld R.RING_CYCLE_VALUE) 0
  (((s.clrReady 31).setRingState 0).setFld R.RING_STATUS_COLD 0).updRing (fun r => { r with inCycle := false, windowOpen := false })

/-- What a CLAIM does to the node (R520, R521). -/
def State.heedClaim (s : State) : State :=
  if s.ringState = 2 then (s.setRingState 4).updRing (fun r => { r with inCycle := false })
  else if s.ringState = 3 then s.updRing (fun r => { r with collided := true })
  else s

/-- CLAIM (R516, R520, R521). -/
def execClaim (east : Bool) (data : Bytes) (s : State) : Res := .next (s.ringReceive 1 east data State.heedClaim)

/-- A BEACON is followed (R517, R519). -/
def State.ringFollow (s : State) (d : Bytes) : State :=
  let s := if s.ringOn then s else s.setRingState 4
  let s := (s.setFld R.RING_STATUS_COLD 0).setFld R.RING_STATUS_CNODE (ringNode d)
  (s.ringCycle (be16 d 16) ((s.dtbNow + 2 ^ 64 - s.fld R.RING_LDLY_LDLY) % 2 ^ 64)).ringHear (ringNode d)

/-- What a BEACON does to the node (R519, R526). A coldstart node yields only to a coldstart node of a lower ID. -/
def State.heedBeacon (s : State) (data : Bytes) : State :=
  if s.flag R.RING_STATUS_COLD then
    (if be16 data 20 % 2 = 1 ∧ ringNode data < s.nodeId then (s.fault 79 1).ringFollow data else s)
  else if s.ringState = 1 ∨ s.ringState = 2 ∨ s.ringOn = true then s.ringFollow data
  else s

/-- BEACON (R516, R517, R519, R526). -/
def execBeacon (east : Bool) (data : Bytes) (s : State) : Res := .next (s.ringReceive 2 east data (fun s => s.heedBeacon data))

/-- What a SLOT does (R515, R522): its sender has been heard, and the frame is ordinary ingress. -/
def State.heedSlot (s : State) (east : Bool) (data : Bytes) : State :=
  (if s.ringOn then s.ringHear (ringNode data) else s).portReceive (s.ringSide east) data true

/-- SLOT (R515, R522). -/
def execSlot (east : Bool) (data : Bytes) (s : State) : Res := .next (s.ringReceive 3 east data (fun s => s.heedSlot east data))

/-- What a LEAVE does (R527). -/
def State.heedLeave (s : State) (data : Bytes) : State := s.updRing (fun r => { r with leaving := r.leaving ||| 2 ^ ringNode data })

/-- LEAVE (R516, R527). -/
def execLeave (east : Bool) (data : Bytes) (s : State) : Res := .next (s.ringReceive 4 east data (fun s => s.heedLeave data))

/-- Whether bytes are those of a ring frame: its destination and its EtherType. -/
def isRingFrame (d : Bytes) : Bool := slice 0 6 d == [0x03, 0x52, 0x49, 0x4C, 0x00, 0x00] && slice 12 2 d == [0x88, 0xB5]

/-- A ring frame arrives on one ring port, whatever its type (R515). -/
def State.ringFrame (s : State) (east : Bool) (d : Bytes) : State :=
  match ringType d with
  | 2 => s.ringReceive 2 east d (fun s => s.heedBeacon d)
  | 3 => s.ringReceive 3 east d (fun s => s.heedSlot east d)
  | 4 => s.ringReceive 4 east d (fun s => s.heedLeave d)
  | _ => s.ringReceive 1 east d State.heedClaim

/-- FRAME_RECEIVE (13, R453-R460; 14, R484-R486): a ring frame that a ring port receives whole goes to the ring engine (R515). -/
def execFrameReceive (src : Ingress) (data : Bytes) (fcsOk : Bool) (s : State) : Res :=
  .next (match src with
    | .port p =>
      if fcsOk && isRingFrame data && (p.val == s.ringSide true || p.val == s.ringSide false) then
        s.ringFrame (p.val == s.ringSide true) data
      else s.portReceive p.val data fcsOk
    | .host _ _ => if s.granted 12 then (s.ingress (srcNum src) data (!fcsOk) s.dtbNow).2 else s)

/-- RING_LISTEN_END (R519): no BEACON has been heard. -/
def execRingListenEnd (s : State) : Res := .next (if s.granted 13 && s.ringState == 1 then s.ringAttempt 1 else s)

/-- RING_BACKOFF_END (R520): a CLAIM is sent, and the node waits CONF. -/
def execRingBackoffEnd (s : State) : Res :=
  .next (
    if s.granted 13 && s.ringState == 2 then
      ((s.ringSend 1 0 s.ring.attempt).setRingState 3).updRing (fun r => { r with collided := false })
    else s)

/-- RING_CONFIRM_END (R520). -/
def execRingConfirmEnd (s : State) : Res :=
  .next (
    if !(s.granted 13 && s.ringState == 3) then s
    else if s.ring.collided then
      let s := s.setFld R.RING_STATUS_COLL (s.fld R.RING_STATUS_COLL + 1)
      if 4 ≤ s.ring.attempt then (s.fault 79 0).ringListen else s.ringAttempt (s.ring.attempt + 1)
    else
      (((s.setRingState 4).setFld R.RING_STATUS_COLD 1).setFld R.RING_STATUS_CNODE s.nodeId).ringBeacon 0)

/-! ## Cycles (R517, R518, R522, R523, R526) -/

/-- RING_CYCLE_START: the coldstart node begins the next cycle. -/
def execRingCycleStart (s : State) : Res :=
  .next (if s.granted 13 && s.ringOn && s.flag R.RING_STATUS_COLD then s.ringBeacon (s.fld R.RING_CYCLE_VALUE + 1) else s)

/-- RING_WINDOW (R518): the node's window opens with one SLOT frame of LEN 0. -/
def execRingWindow (s : State) : Res :=
  .next (
    if s.granted 13 && s.ringOn && s.ring.inCycle then
      (s.ringSend 3 (s.fld R.RING_CYCLE_VALUE) 0).updRing (fun r =>
        { r with windowOpen := true, windowEnd := r.cycleAt + (15 + 7 * s.nodeId) * 1000 })
    else s)

/-- The ring has reached RUN or DEGRADED: bit 31 is set and a RING_START job ends (R522, R523; 16, Table 16.3). -/
def State.ringSettled (s : State) (st : Nat) : State :=
  ((s.setRingState st).setReady 31).endJobOf 5 (if st = 5 then 0 else 9) st

/-- RING_CYCLE_END (R522): the cycle is judged once, and the next one begins with its BEACON. -/
def execRingCycleEnd (s : State) : Res :=
  .next (
    if !(s.granted 13 && s.ringOn && s.ring.inCycle) then s
    else
      let all := s.fld R.RING_MEMBERS_MEMBERS &&& s.ring.heard == s.fld R.RING_MEMBERS_MEMBERS
      let s := s.updRing (fun r => { r with heardPrev := r.heard, heard := 0, inCycle := false, windowOpen := false })
      if all && s.ringState != 5 then
        (s.setReg R.RING_START_T (BitVec.ofNat 32 ((s.clk - s.ring.startAt) / 1000 % 2 ^ 16))).ringSettled 5
      else s)

/-- RING_START_TIMEOUT (R523). -/
def execRingStartTimeout (s : State) : Res :=
  .next (
    if s.granted 13 && decide (1 ≤ s.ringState) && decide (s.ringState ≤ 4) then
      let m := s.fld R.RING_MEMBERS_MEMBERS
      ((s.setFld R.RING_STATUS_MISSING (m &&& (2 ^ 16 - 1 - s.ring.everHeard % 2 ^ 16))).fault 79 2).ringSettled 6
    else s)

/-- RING_BEACON_MISS (R526): a follower has missed three consecutive BEACONs. -/
def execRingBeaconMiss (s : State) : Res :=
  .next (
    if s.granted 13 && s.ringOn && !s.flag R.RING_STATUS_COLD then (s.clrReady 31).ringListen.fault 79 1 else s)

/-! ## The job RING_START (16, Table 16.3) -/

/-- RING_START: writes RING_CTL.START; the job runs until RUN or DEGRADED. -/
def execRingStart (tag : BitVec 10) (s : State) : Res := .next (s.startJob tag.toNat 5 (fun _ s => s.ringStart))

end Sys2Proof.Machine
end

