-- ==== Sys2Proof/Machine/GraftLink.lean ====
section
/-! DEFINITION. The graft link's state, role and sending (18, Tables 18.2, 18.8), and the abort of a copy (R642). -/

namespace Sys2Proof.Machine

/-- Changes the graft state. -/
def State.updGraft (s : State) (f : GraftSt → GraftSt) : State := { s with graft := f s.graft }

/-- Whether the device is active. -/
def State.isActive (s : State) : Bool := s.flag R.GRAFT_STATUS_ROLE

/-- Sets GRAFT_STATUS.STATE (Table 18.8). -/
def State.graftTo (s : State) (st : Nat) : State := s.setFld R.GRAFT_STATUS_STATE st

/-- GRAFT_STATUS.STATE. -/
def State.graftState (s : State) : Nat := s.fld R.GRAFT_STATUS_STATE

/-- Whether the link works: enabled, powered, its rails good. -/
def State.graftUp (s : State) : Bool :=
  s.granted 15 && s.flag R.GRAFT_CTL_EN && s.tap.srdGood && s.tap.srhGood && s.tap.vio18Good

/-- Sends a frame. -/
def State.graftSend (s : State) (type epoch offset : Nat) (payload : Bytes) : State :=
  let flags := (if s.isActive then 1 else 0) + (if s.flag R.GRAFT_CTL_TAKE_EN then 2 else 0)
  let h := [BitVec.ofNat 8 type, BitVec.ofNat 8 flags] ++ beBytes 2 s.graft.seq ++ beBytes 4 epoch ++ beBytes 4 offset
    ++ beBytes 2 payload.length ++ [0, 0] ++ payload
  (s.updGraft (fun g => { g with seq := (g.seq + 1) % 2 ^ 16 })).send (.graft (h ++ beBytes 4 (crc32Ieee h)))

/-- R642: an aborted GRAFT_SYNC sends ABORT. -/
def State.graftAbort (s : State) : State :=
  match s.graft.txTag with
  | some t =>
    match s.job t with
    | some j =>
      if j.state = .done then
        let s := if s.graftUp then s.graftSend 7 s.graft.txEpoch 0 [] else s
        let s := s.updGraft (fun g => { g with txTag := none })
        if s.graftState = 3 then s.graftTo 2 else s
      else s
    | none => s
  | none => s

end Sys2Proof.Machine
end

