-- ==== Sys2Proof/Machine/Rows.lean ====
section
/-! DEFINITION. Rows (12): enabling, row reset, shares, host queues, doorbells, MSI-X, and the PCIe endpoint's link and functions. -/

namespace Sys2Proof.Machine

/-! ## Host queues (R431-R437) -/

/-- SIZE of host queue `q` of row `r` (Table 12.8). -/
def State.hqSize (s : State) (r q : Nat) : Nat := 2 ^ max 4 (min 12 (s.fld (R.ROW_HQ_CFG_LOG2SIZE r q)))

/-- R436: the frames still waiting when a queue's EN is cleared are dropped. -/
def State.dropWaiting (s : State) (r q : Nat) : State :=
  (s.hqWaiting r q).foldl (fun s k => s.dropFrame k 7) (s.setHqWaiting r q [])

/-- Clears the EN bit of every host queue of row `r`. -/
def State.stopQueues (s : State) (r : Nat) : State :=
  (List.range 8).foldl (fun s q => (s.setFld (R.ROW_HQ_CFG_EN r q) 0).dropWaiting r q) s

/-! ### Descriptors (Table 12.3, R431): byte i of the 16 is bits [8i+7:8i] -/

/-- ADDR of a host descriptor. -/
def descAddr (d : BitVec 128) : BitVec 64 := d.truncate 64

/-- LEN of a host descriptor. -/
def descLen (d : BitVec 128) : Nat := (d >>> 64).toNat % 2 ^ 16

/-- TAG of a host descriptor. -/
def descTag (d : BitVec 128) : Nat := (d >>> 80).toNat % 2 ^ 16

/-- The host address of the descriptor at HEAD of queue `q` of row `r`. -/
def State.descAt (s : State) (r q : Nat) : Nat :=
  s.pair (R.ROW_HQ_BASE_LO r q) (R.ROW_HQ_BASE_HI r q) + 16 * (s.fld (R.ROW_HQ_IDX_HEAD r q) % s.hqSize r q)

/-- The device reads `n` bytes of host memory. -/
def State.hostRead (s : State) (r addr n : Nat) : State := s.send (.hostRead r (BitVec.ofNat 64 addr) n)

/-- Whether host queue `q` of row `r` has a descriptor to process in direction `dir`. -/
def State.hqPosted (s : State) (r q : Nat) (dir : Bool) : Bool :=
  s.flag (R.ROW_HQ_CFG_EN r q) && s.flag (R.ROW_HQ_CFG_DIR r q) == dir
    && s.fld (R.ROW_HQ_IDX_HEAD r q) != s.fld (R.ROW_HQ_IDX_TAIL r q)

/-- R437: completes the descriptor at HEAD: LEN, TAG, STATUS and DONE are written, HEAD advances, the vector is raised. -/
def State.completeDesc (s : State) (r q len tag status : Nat) : State :=
  let head := s.fld (R.ROW_HQ_IDX_HEAD r q)
  let s := s.send (.hostWrite r (BitVec.ofNat 64 (s.descAt r q + 8)) (leBytes 2 len ++ leBytes 2 tag ++ [BitVec.ofNat 8 status, 1]))
  let s := s.setFld (R.ROW_HQ_IDX_HEAD r q) (head + 1)
  s.event (BitVec.ofNat 32 (2 + s.fld (R.ROW_HQ_CFG_VEC r q) * 2 ^ 8 + r * 2 ^ 16))

/-- A doorbell of PF `r`, queue `q` (R432, R433; during a row reset it is ignored, Table 12.4). -/
def State.doorbell (s : State) (r q : Nat) (v : Word) : State :=
  if !s.granted 15 then s
  else if !s.granted 12 then s.refuse .nrdy (.bar0 (Fin.ofNat 8 r)) (4 * q) true 2
  else if s.flag (R.ROW_STATUS_RST_BUSY r) then s
  else
    let tail := v.toNat % 2 ^ 16
    let span := (tail + 2 ^ 16 - s.fld (R.ROW_HQ_IDX_HEAD r q)) % 2 ^ 16
    if s.hqSize r q < span ∨ s.flag (R.ROW_HQ_CFG_EN r q) = false then
      (s.setFld (R.ROW_HQ_STAT_LAST_BAD r q) tail).fault (16 + r) 0
    else s.setFld (R.ROW_HQ_IDX_TAIL r q) tail

/-- DOORBELL. -/
def execDoorbell (r q : Fin 8) (v : Word) (s : State) : Res := .next (s.doorbell r.val q.val v)

/-- H2D_DESCRIPTOR (R431, R434, R437): the descriptor at HEAD, as the host memory holds it (its first eight bytes and its words 2
and 3), and the bytes at its address; `bad` is a poisoned or failed read. -/
def execH2dDescriptor (r q : Fin 8) (lo : BitVec 64) (w2 w3 : Word) (data : Bytes) (bad : Bool) (s : State) : Res :=
  .next (
    let desc := w3 ++ w2 ++ lo
    let len := descLen desc
    let done := fun (s : State) (st : Nat) => s.completeDesc r.val q.val len (descTag desc) st
    if !s.hqPosted r.val q.val false then s
    else if bad then (done (s.hostRead r.val (s.descAt r.val q.val) 16) 4).fault (16 + r.val) 1
    else if len < 1 ∨ 16384 < len then done (s.hostRead r.val (s.descAt r.val q.val) 16) 3
    else
      let s := (s.hostRead r.val (s.descAt r.val q.val) 16).hostRead r.val (descAddr desc).toNat len
      let i := s.ingress (srcNum (.host r q)) data false s.dtbNow
      done i.2 (if i.1 then 2 else 0))

/-- D2H_DELIVERY (R431, R435-R437, R459): the oldest waiting frame goes into the buffer that the descriptor at HEAD offers. -/
def execD2hDelivery (r q : Fin 8) (lo : BitVec 64) (w2 w3 : Word) (bad : Bool) (s : State) : Res :=
  .next (
    let desc := w3 ++ w2 ++ lo
    match s.hqPosted r.val q.val true, s.hqWaiting r.val q.val with
    | true, k :: rest =>
      let s := s.hostRead r.val (s.descAt r.val q.val) 16
      if bad then (s.completeDesc r.val q.val 0 (descTag desc) 4).fault (16 + r.val) 1
      else (match s.frameOf k with
        | some f =>
          let n := min f.len (descLen desc)
          let x := s.frameRead f (f.cells.length + 1) 0 n
          let bytes := x.1.getD (freeBytes x.2.freeCtr n)
          let s := (if x.1.isSome then x.2 else x.2.tookFree).send (.hostWrite r.val (descAddr desc) bytes)
          ((s.setHqWaiting r.val q.val rest).freeSlot k).completeDesc r.val q.val n (descTag desc) (if n < f.len then 1 else 0)
        | none => s.setHqWaiting r.val q.val rest)
    | _, _ => s)

/-! ## Interrupts (R428-R430) -/

/-- Entry `v` of PF `r`'s MSI-X table. -/
def State.msixEntry (s : State) (r v : Nat) : MsixEntry := tabGet {} v (s.row r).msix

/-- MSIX_MESSAGE. -/
def execMsixMessage (r : Fin 8) (v : Fin 32) (s : State) : Res :=
  .next (
    let x := s.row r.val
    let e := s.msixEntry r.val v.val
    if s.granted 15 && bitOf x.msixPend v.val && !e.masked && !x.fnMask && x.bme && x.d0 then
      (s.updRow r.val (fun x => { x with msixPend := x.msixPend &&& ~~~ BitVec.ofNat 32 (2 ^ v.val) })).send
        (.msix r.val v.val e.addr e.data)
    else s)

/-! ## Enabling (R409-R411) -/

/-- R410: the supervisor of row `r` starts. -/
def State.startSupervisor (s : State) (r : Nat) : State :=
  let k := s.fld (R.ROW_SUPV_CODE r)
  if 512 ≤ k ∨ s.mapped r k = false then s
  else
    let t := (s.thr k).started r false none (s.reg (R.ROW_ENTRY r)) (BitVec.ofNat 32 r) (s.startPl k r false)
    s.setThr k { t with tsp := s.reg (R.BGH_TSP (boughOf k) (k % 64)), xar := [] }

/-- R410: the mapped threads enter the row, and its supervisor starts. -/
def State.enableRow (s : State) (r : Nat) : State :=
  let s := (List.range 512).foldl (fun s k =>
    if s.mapped r k && (s.thr k).state == .unassigned then
      s.updThr k (fun t => { t with state := .idle, row := r, borrowed := false, parent := none })
    else s) s
  s.startSupervisor r

/-- The threads of row `r`. -/
def State.rowThreads (s : State) (r : Nat) : List Nat :=
  (List.range 512).filter (fun k => (s.thr k).state != .unassigned && (s.thr k).row == r)

/-- R411: every thread of row `r` becomes UNASSIGNED, and its helper requests end (13, R482). -/
def State.disbandRow (s : State) (r : Nat) : State :=
  let mine := s.rowThreads r
  mine.foldl (fun s k =>
    s.updThr k (fun t => { t with state := .unassigned, row := 0, borrowed := false, parent := none, wait := .nothing }))
    (s.dropHelpers (fun k => mine.contains k))

/-! ## Row reset (R441-R446, Table 12.4) -/

/-- The frames of row `r`. -/
def State.framesOf (s : State) (r : Nat) : List Nat := (s.esp.frames.filter (fun c => c.2.row == r)).map (fun c => c.1)

/-- Step 5: every queue gives up the row's frames, and their cells return. -/
def State.emptyRow (s : State) (r : Nat) : State :=
  let gone := s.framesOf r
  let s := s.updEsp (fun e => { e with egress :=
    (e.egress.map (fun c => (c.1, c.2.filter (fun k => !gone.contains k)))).filter (fun c => c.2 != []) })
  let s := (List.range 8).foldl (fun s q => s.updRow q (fun x => { x with hqWait :=
    (x.hqWait.map (fun c => (c.1, c.2.filter (fun k => !gone.contains k)))).filter (fun c => c.2 != []) })) s
  gone.foldl (fun s k => (s.undispatch k).freeSlot k) s

/-- Steps 1-6 of a row reset of row `r` with cause `src`; a reset in progress absorbs it (R444). -/
def State.rowReset (s : State) (r src : Nat) : State :=
  if s.flag (R.ROW_STATUS_RST_BUSY r) then s
  else
    let s := (s.setFld (R.ROW_STATUS_RST_BUSY r) 1).setFld (R.ROW_STATUS_RST_SRC r) src
    let s := s.stopQueues r
    let mine := s.rowThreads r
    let s := mine.foldl (fun s k => s.updThr k (fun t => t.rowReset.toPool)) s
    let s := s.dropHelpers (fun k => mine.contains k)
    (((s.voidRow r).emptyRow r).abortJobs r).graftAbort

/-- What a row reset of row `r` does while PD12, and the row's block with it, is off: the parts of Table 12.4 that other domains hold, the
row's jobs in PD1 and its mailbox and pending vectors in PD15 (R452). -/
def State.rowResetOff (s : State) (r : Nat) : State :=
  ((s.abortJobs r).graftAbort).updRow r (fun x => { x with msixPend := 0, mbCtl := x.mbCtl &&& ~~~ 0x1F })

/-- ROW_RESET_DONE: steps 7 and 8, once the posted writes have left; a row whose EN fell gives up its threads (R411). -/
def execRowResetDone (r : Fin 8) (s : State) : Res :=
  .next (
    let r := r.val
    if !s.flag (R.ROW_STATUS_RST_BUSY r) then s
    else
      let s := (List.range 8).foldl (fun s q => s.setReg (R.ROW_HQ_IDX r q) 0) s
      let s := s.updRow r (fun x => { x with msixPend := 0, mbCtl := x.mbCtl &&& ~~~ 0x1F })
      let s := (s.setFld (R.ROW_WDT_CTL_EN r) 0).setFld (R.ROW_WDT_STAT_COUNT r) 0
      let s := { s with slow := { s.slow with rowWdtCycles := tabDel r s.slow.rowWdtCycles } }
      let s := (s.setFld (R.ROW_STATUS_RST_BUSY r) 0).setFld (R.ROW_STATUS_RST_DONE r) 1
      if s.flag (R.ROW_CTL_EN r) then s.startSupervisor r else s.disbandRow r)

/-- Restarts row `r`'s watchdog count. -/
def State.rowWdtRestart (s : State) (r : Nat) : State :=
  { s with slow := { s.slow with rowWdtCycles := tabDel r s.slow.rowWdtCycles } }

/-- CFG_ERR of row `r`. -/
def State.rowCfgErr (s : State) (r : Nat) : State := s.setFld (R.ROW_STATUS_CFG_ERR r) 1

/-- What a write of a register of a row block does beside its store (R409-R413, R421, R436, R441, R446): `off` is the register's
window offset, `wr` the word written, `old` the value before. -/
def State.rowHook (s : State) (off : Nat) (old wr : Word) : State :=
  let r := (off - 0x28000) / 0x1000
  let o := off % 0x1000
  let undo := fun (s : State) => (s.setReg off old).rowCfgErr r
  let en := s.flag (R.ROW_CTL_EN r)
  if o = 0x000 then
    let s :=
      if !bitOf old 0 && en then
        let k := s.fld (R.ROW_SUPV_CODE r)
        if decide (512 ≤ k) || !s.mapped r k then undo s else s.enableRow r
      else if bitOf old 0 && !en then s.rowReset r 3
      else s
    if bitOf wr 1 then s.rowReset r 0 else s
  else if o = 0x100 then
    (if bitOf old 16 == s.flag (R.ROW_WDT_CTL_EN r) then s else s.rowWdtRestart r)
  else if o = 0x008 ∨ o = 0x00C ∨ o = 0x018 ∨ o = 0x024 then (if en then undo s else s)
  else if o = 0x020 then
    if en || decide (s.cellTotal < ((List.range 8).map (fun q => s.cmin q)).sum) then undo s else s
  else if o = 0x02C then
    if bitOf wr 31 then s.setFld (R.ROW_CELL_PEAK_PEAK r) (s.cellUse r) else s
  else if 0x040 ≤ o ∧ o < 0x080 then
    if en then undo s
    else
      let w := (o - 0x40) / 4
      let others := (List.range 8).foldl (fun m q => if q = r then m else m ||| s.reg (R.ROW_TMAP q w)) (0 : Word)
      if s.reg off &&& others = 0 then s else (s.setReg off (s.reg off &&& ~~~ others)).rowCfgErr r
  else if 0x200 ≤ o ∧ o < 0x300 then
    if s.flag (R.ROW_STATUS_RST_BUSY r) then undo s
    else if o % 0x20 = 0 ∧ bitOf old 0 = true ∧ s.flag (R.ROW_HQ_CFG_EN r ((o - 0x200) / 0x20)) = false then
      s.dropWaiting r ((o - 0x200) / 0x20)
    else s
  else s

/-! ## PCIe endpoint (R447, R451, R452, R673) -/

/-- The function reset that the standard requires, as far as the spec names what it touches (log 15). -/
def State.fnReset (s : State) (r : Nat) : State :=
  s.updRow r (fun x => { x with msix := [], msixPend := 0, bme := false, fnMask := false, d0 := true, bars := [] })

/-- A mailbox exchange in progress ends with ERR (R451). -/
def State.mailboxAbort (s : State) (r : Nat) : State :=
  s.updRow r (fun x => if bitOf x.mbCtl 1 then { x with mbCtl := (x.mbCtl &&& ~~~ 2) ||| 0xC } else x)

/-- R451: what a loss of the link or a hot reset does. -/
def State.linkDown (s : State) : State :=
  let s := s.clrReady 57
  let s := (List.range 8).foldl (fun s r => ((if s.granted 12 then s.stopQueues r else s).mailboxAbort r).fnReset r) s
  (s.setReg R.PCIE_STATUS 0).fault 76 0

/-- LINK_DOWN: only a link that is up can be lost; a hot reset reaches it the same way. -/
def execLinkDown (s : State) : Res := .next (if s.granted 15 && s.flag R.PCIE_STATUS_LINK_UP then s.linkDown else s)

/-- PERST_FALL (R673): acts as a loss of the link and holds the endpoint in reset. -/
def execPerstFall (s : State) : Res :=
  .next (
    if s.perst then s
    else
      let s := { s with perst := true }
      if s.granted 15 then s.linkDown else s)

/-- PERST_RISE (R673): the endpoint's fundamental reset ends; link training may begin. -/
def execPerstRise (s : State) : Res := .next { s with perst := false }

/-- PCIE_LINK_UP (R447): the link has trained; the endpoint becomes ready. -/
def execPcieLinkUp (speed width : Fin 16) (s : State) : Res :=
  .next (
    if s.granted 15 && !s.perst && s.tap.srdGood && s.tap.srhGood && s.tap.vio18Good then
      (((s.setFld R.PCIE_STATUS_LINK_UP 1).setFld R.PCIE_STATUS_SPEED speed.val).setFld R.PCIE_STATUS_WIDTH width.val).setReady 57
    else s)

/-- FUNCTION_LEVEL_RESET (R441, R452). -/
def execFunctionLevelReset (r : Fin 8) (s : State) : Res :=
  .next (
    if !s.granted 15 || s.perst then s
    else
      let s := s.fnReset r.val
      if s.granted 12 then s.rowReset r.val 1 else s.rowResetOff r.val)

/-- The writable bits of word `i` of PF `r`'s base address registers: BAR0 64 KiB, BAR2 4 KiB, BAR4 128 MiB of PF 0 alone (Table 12.6). -/
def barMask (r i : Nat) : Word :=
  if i = 0 then 0xFFFF0000 else if i = 2 then 0xFFFFF000 else if i = 4 then (if r = 0 then 0xF8000000 else 0)
  else if i = 5 then (if r = 0 then 0xFFFFFFFF else 0) else 0xFFFFFFFF

/-- What word `i` of PF `r`'s base address registers reads as: a 64-bit, non-prefetchable memory BAR (type bits 0b0100), or 0 where the BAR is
not implemented (R448). -/
def State.barWord (s : State) (r i : Nat) : Word :=
  if 4 ≤ i ∧ r ≠ 0 then 0
  else tabGet 0 i (s.row r).bars ||| (if i % 2 = 0 then 4 else 0)

/-- A configuration read of PF `r` at byte offset `off`, with the place of each field as PCI Express has it (log 75): the identifiers, Bus
Master Enable, class and revision, the base address registers; every other word is free (log 1). -/
def State.cfgRead (s : State) (r off : Nat) : Word × State :=
  let o := off / 4
  if o = 0 then (BitVec.ofNat 32 (s.fuses.vendor.toNat + 0x6416 * 2 ^ 16), s)
  else if o = 1 then
    ((s.nextFree &&& ~~~ 4) ||| (if (s.row r).bme then 4 else 0), s.tookFree)
  else if o = 2 then (BitVec.ofNat 32 (s.fld R.IDR_REV_MINOR + 0x028000 * 2 ^ 8), s)
  else if 4 ≤ o ∧ o < 10 then (s.barWord r (o - 4), s)
  else (s.nextFree, s.tookFree)

/-- CONFIG_REQUEST (R447, R448): retried until the endpoint is ready. -/
def execConfigRequest (pf : Fin 8) (op : CfgOp) (s : State) : Res :=
  .next (
    if !s.granted 15 || s.perst then s
    else if !s.ready 57 then s.send (.configRetry pf.val)
    else
      let a : Word × State := match op with
        | .read off => s.cfgRead pf.val off.toNat
        | .writeBar i v =>
          (0, s.updRow pf.val (fun x => { x with bars := tabSet 0 i.val (v &&& barMask pf.val i.val) x.bars }))
        | .setBme b => (0, s.updRow pf.val (fun x => { x with bme := b }))
        | .setFnMask b => (0, s.updRow pf.val (fun x => { x with fnMask := b }))
        | .setD0 b => (0, s.updRow pf.val (fun x => { x with d0 := b }))
      a.2.send (.configDone pf.val a.1))

end Sys2Proof.Machine
end

