-- ==== Sys2Proof/Machine/Usb.lean ====
section
/-! DEFINITION. USB (15): attach and speed, the function's endpoints, the hub's cabin ports, suspend, resume and remote wake,
notifications. The Fankoec opcodes stand in Fankoec.lean. -/

namespace Sys2Proof.Machine

/-- Changes the USB state. -/
def State.updUsb (s : State) (f : UsbSt → UsbSt) : State := { s with usb := f s.usb }

/-- USB_STATUS.STATE (Table 15.11). -/
def State.usbState (s : State) : Nat :=
  if s.usb.susp then 4 else if !s.usb.pullup then 0 else if s.usb.hubCfg then 3 else if s.usb.addressed then 2 else 1

/-- Whether the host reaches the device: attached and not suspended. -/
def State.usbLive (s : State) : Bool := s.usb.pullup && !s.usb.susp

/-- The highest packet length of the bulk endpoints (Table 15.3). -/
def State.maxPacket (s : State) : Nat := if s.flag R.USB_STATUS_SPEED then 512 else 64

/-! ## Attach, detach and bus reset (R528-R530, R541, R557, R560) -/

/-- Suspend and everything that belongs to it ends without a resume on record. -/
def UsbSt.awake (u : UsbSt) : UsbSt :=
  { u with susp := false, hostK := false, cancelled := false, droveK := false, driving := false, released := false,
           wakeTries := 0, retryDue := false, gaveUp := false }

/-- What a detach and a bus reset have in common: readiness bits 58 and 59, the Fankoec level, the remote-wake enables, the
buffered requests and the queued responses. -/
def State.usbDefault (s : State) : State :=
  let s := ((s.clrReady 58).clrReady 59).setFld R.USB_FK_LEVEL 0
  let s := (s.setFld R.USB_STATUS_RWE_FN 0).setFld R.USB_STATUS_RWE_HUB 0
  s.updUsb (fun u => { u.awake with
    addressed := false, hubCfg := false, fnCfg := false, port3Susp := false, bufs := [], rx := [], whole := false, resp := [] })

/-- R528: the pull-up follows USB_CTL.EN, the PD15 grant and VBUS. -/
def State.usbPullup (s : State) : State :=
  let want := s.flag R.USB_CTL_EN && s.granted 15 && s.usb.vbus
  if want = s.usb.pullup then s
  else (if want then s else s.usbDefault).updUsb (fun u => { u with pullup := want })

/-- USB_ATTACH: USB_VBUS rises above 4.0 V or falls below it. -/
def execUsbAttach (vbus : Bool) (s : State) : Res := .next (s.updUsb (fun u => { u with vbus := vbus })).usbPullup

/-- USB_BUS_RESET (R529, R541): the high-speed handshake, answered by the host or not. -/
def execUsbBusReset (hs : Bool) (s : State) : Res :=
  .next (if s.usb.pullup then s.usbDefault.setFld R.USB_STATUS_SPEED (if hs then 1 else 0) else s)

/-- SET_CONFIGURATION (R530, R557): a hub or function that is no longer configured is not ready (01, R21). -/
def execSetConfiguration (hub on : Bool) (s : State) : Res :=
  .next (
    if !s.usbLive then s
    else
      let s := s.updUsb (fun u => { u with addressed := true, hubCfg := if hub then on else u.hubCfg, fnCfg := if hub then u.fnCfg else on })
      if on then s.setReady (if hub then 58 else 59)
      else if hub then s.clrReady 58 else (s.clrReady 59).setFld R.USB_FK_LEVEL 0)

/-! ## EP1 OUT (R532-R534) -/

/-- The request engine takes packets from their buffers until it holds one whole transfer (R534, R535). -/
def UsbSt.drainFuel (maxp : Nat) : Nat → UsbSt → UsbSt
  | 0, u => u
  | n + 1, u =>
    if u.whole then u
    else match u.bufs with
      | [] => u
      | p :: more => UsbSt.drainFuel maxp n { u with bufs := more, rx := u.rx ++ p, whole := decide (p.length < maxp) }

/-- Takes what can be taken; there are four buffers. -/
def UsbSt.drain (maxp : Nat) (u : UsbSt) : UsbSt := UsbSt.drainFuel maxp 4 u

/-- Whether the function's endpoints take transactions. -/
def State.ep1Live (s : State) : Bool := s.usbLive && s.usb.fnCfg && !s.usb.port3Susp

/-- The packets of one bulk transfer: it ends with a short packet, or with one of length 0 (R534). -/
def packets (maxp : Nat) (d : Bytes) : List Bytes := (List.range (d.length / maxp + 1)).map (fun i => slice (i * maxp) maxp d)

/-- A poll of EP1 IN: the packet at the head of the queued responses goes out, and with none queued the answer is a NAK, which is not
recorded (R535, log 77). -/
def State.ep1In (s : State) : State :=
  match s.ep1Live, s.usb.resp with
  | true, p :: more => (s.updUsb (fun u => { u with resp := more })).send (.usbData 1 p)
  | _, _ => s

/-- BULK_OUT_PACKET (R532). Full speed has no NYET: there the last buffer is answered with ACK. -/
def execBulkOutPacket (data : Bytes) (s : State) : Res :=
  .next (
    if !s.ep1Live || decide (s.maxPacket < data.length) then s
    else if 4 ≤ s.usb.bufs.length then s.send .usbNak
    else
      let last := s.usb.bufs.length == 3 && s.flag R.USB_STATUS_SPEED
      (s.updUsb (fun u => { u with bufs := u.bufs ++ [data] }.drain s.maxPacket)).send (if last then .usbNyet else .usbAck))

/-- PING (R533). -/
def execPing (s : State) : Res :=
  .next (if s.ep1Live then s.send (if s.usb.bufs.length < 4 then .usbAck else .usbNak) else s)

/-! ## Notifications (R543, R544, R548) -/

/-- Sets pending reasons; a bit that is already set keeps the time of its first post. -/
def State.ntfRaise (s : State) (bits : Nat) : State :=
  let pend := s.fld R.USB_NTF_PEND_BITS
  let new := (List.range 18).filter (fun i => bits.testBit i && !pend.testBit i)
  (s.setFld R.USB_NTF_PEND_BITS (pend ||| bits % 2 ^ 18)).updUsb (fun u => { u with posted := u.posted ++ new.map (fun i => (i, s.dtbNow)) })

/-- PEND AND MASK. -/
def State.ntfReasons (s : State) : Nat := s.fld R.USB_NTF_PEND_BITS &&& s.fld R.USB_NTF_MASK_BITS

/-- The notification of Table 15.4 for the reasons `r`. -/
def State.ntfPacket (s : State) (r : Nat) : Bytes :=
  let at_ := match s.usb.posted.find? (fun p => r.testBit p.1) with
    | some p => p.2
    | none => 0
  [if r &&& s.usb.wakeBits = 0 then 1 else 2, 0] ++ leBytes 2 (s.usb.ntfSeq + 1) ++ leBytes 4 r ++ leBytes 8 at_

/-- NOTIFICATION_POLL. -/
def execNotificationPoll (s : State) : Res :=
  .next (
    if !s.ep1Live then s
    else match s.usb.fly with
      | some p => s.send (.usbData 2 p.1)
      | none =>
        if s.ntfReasons = 0 then s.send .usbNak
        else
          let p := s.ntfPacket s.ntfReasons
          (s.updUsb (fun u => { u with fly := some (p, s.ntfReasons), ntfSeq := (u.ntfSeq + 1) % 2 ^ 16 })).send (.usbData 2 p))

/-- NOTIFICATION_ACK. -/
def execNotificationAck (s : State) : Res :=
  .next (
    match s.ep1Live, s.usb.fly with
    | true, some p =>
      let keep := fun (m : Nat) => m &&& (2 ^ 18 - 1 - p.2 % 2 ^ 18)
      (s.setFld R.USB_NTF_PEND_BITS (keep (s.fld R.USB_NTF_PEND_BITS))).updUsb (fun u => { u with
        fly := none, wakeBits := keep u.wakeBits, posted := u.posted.filter (fun q => !p.2.testBit q.1) })
    | _, _ => s)

/-! ## Hub ports (R536-R538, R543) -/

/-- Sets change bit `b` of cabin port `n` (0 or 1); a change of the port is a notification reason. -/
def State.portChange (s : State) (n b : Nat) : State :=
  (s.updUsb (fun u => { u with change := tabSet 0 n (tabGet 0 n u.change ||| BitVec.ofNat 8 (2 ^ b)) u.change })).ntfRaise (2 ^ (16 + n))

/-- Drives USB_PWR_EN_n; an unpowered port is neither connected nor enabled. -/
def State.portPowerTo (s : State) (n : Nat) (on : Bool) : State :=
  let s := { s with pins := { s.pins with usbPwr := tabSet false n on s.pins.usbPwr } }
  let s := s.setFld (R.USB_PORT_POWER n) (if on then 1 else 0)
  if on then s.setFld (R.USB_PORT_OC n) 0 else (s.setFld (R.USB_PORT_CONN n) 0).setFld (R.USB_PORT_EN n) 0

/-- PORT_POWER (R536): the host sets or clears PORT_POWER of cabin port n + 1. -/
def execPortPower (n : Fin 2) (on : Bool) (s : State) : Res :=
  .next (if s.usbLive && s.usb.hubCfg then s.portPowerTo n.val on else s)

/-- USB_OVERCURRENT (R537). -/
def execUsbOvercurrent (n : Fin 2) (s : State) : Res :=
  .next (
    if s.granted 15 then
      (((s.portPowerTo n.val false).setFld (R.USB_PORT_OC n.val) 1).portChange n.val 3).fault 77 n.val
    else s)

/-- BABBLE (R538): a port that the hub repeats is still sending at EOF1. -/
def execBabble (n : Fin 2) (s : State) : Res :=
  .next (
    if s.usbLive && s.flag (R.USB_PORT_POWER n.val) then
      (((s.setFld (R.USB_PORT_EN n.val) 0).satAdd (R.USB_PORT_BABBLE n.val) 1 255).portChange n.val 1).fault 77 (2 + n.val)
    else s)

/-- PORT_CONNECT_CHANGE (R543). -/
def execPortConnectChange (n : Fin 2) (conn : Bool) (s : State) : Res :=
  .next (
    if s.granted 15 && s.flag (R.USB_PORT_POWER n.val) && s.flag (R.USB_PORT_CONN n.val) != conn then
      let s := s.setFld (R.USB_PORT_CONN n.val) (if conn then 1 else 0)
      (if conn then s else s.setFld (R.USB_PORT_EN n.val) 0).portChange n.val 0
    else s)

/-! ## Suspend, resume, remote wake (R539-R550) -/

/-- USB_SUSPEND: the upstream port has been idle for 3 ms (R539). -/
def execUsbSuspend (s : State) : Res :=
  .next (if s.usbLive then s.updUsb (fun u => { u.awake with susp := true, wakeBits := 0 }) else s)

/-- USB_RESUME_K. -/
def execUsbResumeK (s : State) : Res := .next (if s.usb.susp then s.updUsb (fun u => { u with hostK := true }) else s)

/-- Whether the device, or its function behind port 3 alone, is suspended. -/
def UsbSt.asleep (u : UsbSt) : Bool := u.susp || u.port3Susp

/-- USB_RESUME_END (R542): the end-of-packet of a resume that the host began or that followed the device's K. A resume of the upstream
port leaves port 3 as it is. -/
def execUsbResumeEnd (s : State) : Res :=
  .next (
    if s.usb.asleep && (s.usb.hostK || s.usb.released) && !s.usb.driving then
      (s.satAdd (if s.usb.droveK then R.USB_RESUME_CNT_REMOTE else R.USB_RESUME_CNT_HOST) 1 255).updUsb
        (fun u => { u.awake with port3Susp := u.port3Susp && u.susp })
    else s)

/-- The wake reasons whose remote wake the host has enabled (R545); those of the hub's ports wake a suspended upstream port alone. -/
def State.wakeReasons (s : State) : Nat :=
  (if s.flag R.USB_STATUS_RWE_FN then s.ntfReasons % 2 ^ 16 else 0)
    + (if s.flag R.USB_STATUS_RWE_HUB && s.usb.susp then s.ntfReasons / 2 ^ 16 * 2 ^ 16 else 0)

/-- REMOTE_WAKE_DECISION (R545, R546): the instant T_d, with the line in K or not. -/
def execRemoteWakeDecision (lineK : Bool) (s : State) : Res :=
  .next (
    let u := s.usb
    if !u.asleep || u.cancelled || u.driving || u.released || u.retryDue || u.gaveUp || s.wakeReasons == 0 then s
    else if lineK then
      (s.satAdd R.USB_RESUME_CNT_CANCEL 1 255).updUsb (fun u => { u with cancelled := true, hostK := true, wakeBits := s.ntfReasons })
    else (s.updUsb (fun u => { u with driving := true, droveK := true, wakeBits := s.ntfReasons })).send (.usbK true))

/-- REMOTE_WAKE_RELEASE (R547). -/
def execRemoteWakeRelease (s : State) : Res :=
  .next (if s.usb.driving then (s.updUsb (fun u => { u with driving := false, released := true })).send (.usbK false) else s)

/-- REMOTE_WAKE_FAIL (R549). -/
def execRemoteWakeFail (s : State) : Res :=
  .next (
    if s.usb.released && !s.usb.hostK then
      let s := (s.satAdd R.USB_RESUME_CNT_FAIL 1 127).updUsb (fun u => { u with released := false, wakeBits := 0 })
      if s.usb.wakeTries < s.fld R.USB_WAKE_CFG_RETRIES then
        s.updUsb (fun u => { u with wakeTries := u.wakeTries + 1, retryDue := true })
      else (s.updUsb (fun u => { u with gaveUp := true })).fault 77 4
    else s)

/-- REMOTE_WAKE_RETRY (R549): RETRY ms later the next REMOTE_WAKE_DECISION may come. -/
def execRemoteWakeRetry (s : State) : Res := .next (s.updUsb (fun u => { u with retryDue := false }))

/-- DEVICE_REMOTE_WAKEUP (R545): SetFeature or ClearFeature on the function or on the hub. -/
def execDeviceRemoteWakeup (fn on : Bool) (s : State) : Res :=
  .next (
    if s.usbLive then s.setFld (if fn then R.USB_STATUS_RWE_FN else R.USB_STATUS_RWE_HUB) (if on then 1 else 0) else s)

/-- CLEAR_PORT_SUSPEND (R550, log 78): the host's request on PORT_SUSPEND of port 3. Clearing it resumes the selectively suspended port; a
function wake in the same microframe joins it, and a wake of the function that has begun earlier is the one resume. -/
def execClearPortSuspend (rq : PortSuspend) (s : State) : Res :=
  .next (
    if s.usbLive && s.usb.hubCfg then
      (match rq with
      | .set => if s.usb.port3Susp then s else s.updUsb (fun u => { u with port3Susp := true, wakeBits := 0 })
      | .clear merge =>
        if s.usb.port3Susp && !(s.usb.driving || s.usb.released) then
          (s.satAdd R.USB_RESUME_CNT_HOST 1 255).updUsb (fun u =>
            { u.awake with port3Susp := false, wakeBits := if merge then s.ntfReasons % 2 ^ 16 else 0 })
        else s)
    else s)

/-- What a write of a register of the USB block does beside its store. -/
def State.usbHook (s : State) (off : Nat) (wr : Word) : State :=
  if off = R.USB_CTL then s.usbPullup
  else if off = R.USB_NTF_POST then s.ntfRaise (wr.toNat % 2 ^ 16)
  else if off = R.USB_RESUME_CNT then (if bitOf wr 31 then s.setReg R.USB_RESUME_CNT 0 else s)
  else if off = R.USB_PORT 0 ∨ off = R.USB_PORT 1 then
    (if bitOf wr 31 then s.setFld (R.USB_PORT_BABBLE ((off - R.USB_PORT 0) / 4)) 0 else s)
  else s

end Sys2Proof.Machine
end

