-- ==== Sys2Proof/Machine/Release.lean ====
section
/-! DEFINITION. What a release of a power domain, a warm reset and a cold reset lose (01, R17, R703, Tables 1.7 and 1.25), and what
the loss of a SerDes supply stops (21, R682). -/

namespace Sys2Proof.Machine

/-! ## Registers -/

/-- The bits of the register at `off` whose fields have the kinds of reset that `p` picks. -/
def kindBits (p : Kinds → Bool) (off : Nat) : Word :=
  match regRow off with
  | some r => r.bits (fun f => p (f.kindsIn r))
  | none => 0

/-- Restores bits `m off` of every register word at its cold value. -/
def State.coldBits (s : State) (m : Nat → Word) : State :=
  { s with regs := s.regs.filterMap (fun c =>
      let v := (c.2 &&& ~~~ m c.1) ||| (coldWord c.1 &&& m c.1)
      if v = coldWord c.1 then none else some (c.1, v)) }

/-- The registers of domain `d` take their cold values, but for the fields that taproot holds (R703, Table 1.25). -/
def State.dropRegs (s : State) (d : Nat) : State :=
  s.coldBits (fun off => if domainOf off = d then ~~~ kindBits (· == .held) off else 0)

/-- Whether a warm reset restores a field of these kinds. -/
def Kinds.warm : Kinds → Bool
  | .cw | .cwd | .cwdr => true
  | .c | .cd | .held => false

/-! ## State that no register holds -/

/-- The bytes from `lo` up to `hi` lose their contents. -/
def State.dropMem (s : State) (lo hi : Nat) : State :=
  { s with mem := tabKeep (fun k => k < lo ∨ hi ≤ k) s.mem, ecc := tabKeep (fun k => 4 * k < lo ∨ hi ≤ 4 * k) s.ecc }

/-- R213, R703: every thread of bough `b` ends, and holds its cold values from then on: UNASSIGNED, of no row. -/
def State.endBough (s : State) (b : Nat) : State :=
  (List.range 64).foldl (fun s i =>
    let k := 64 * b + i
    (((s.dropHelpers (· == k)).voidThread k).setThr k (threadDflt k)).orphan k) s

/-- What the rows keep in PD15: mailboxes, MSI-X tables, the functions' own state. -/
def RowSt.noHost (x : RowSt) : RowSt :=
  { x with mbIn := [], mbOut := [], mbCtl := 0, msix := [], msixPend := 0, bme := false, fnMask := false, d0 := true, bars := [] }

/-- The frames that the ports of `ps` are sending are lost, and what the ports hold with them. -/
def State.dropPorts (s : State) (ps : List Nat) : State :=
  ps.foldl (fun s p =>
    let s := match (s.port p).tx with
      | some x => if s.genOf x.slot = x.gen then s.freeSlot x.slot else s
      | none => s
    ({ s with ports := tabDel p s.ports } : State)) s

/-- R667: whether the serial-lane balls of domain `d`, if it has any, are terminated and driven. -/
def State.setLanes (s : State) (d : Nat) (on : Bool) : State :=
  if 13 ≤ d then { s with pins := { s.pins with lanes := tabSet false d on s.pins.lanes } } else s

/-- What domain `d` holds beside its registers (R703). -/
def State.dropState (s : State) (d : Nat) : State :=
  match d with
  | 1 =>
    { s with loops := [], phases := [], gov := [], fanForced := false, bat := {}, pm := {}, ctl := [], jobs := {}, boot := {},
             rsMem := [], rsEcc := [], threads := tabKeep (· < 512) s.threads, pins := { s.pins with fan := [] } }
  | 2 => { s with convs := [], cnv := {} }
  | 12 =>
    let s := (List.range 8).foldl (fun s r => s.disbandRow r) s
    { (s.dropMem 0 0x4000000) with
        esp := {}, dtb := {}, slow := { s.slow with rowWdtCycles := [] },
        rows := (s.rows.map (fun c => (c.1, { c.2 with hqWait := [], dispQ := [] }))).filter (fun c => decide (c.2 ≠ {})) }
  | 13 => { s.dropPorts (List.range 8) with ring := {} }
  | 14 => ((s.dropPorts ((List.range 28).map (· + 8)))).dropSa
  | 15 =>
    { s with usb := { vbus := s.usb.vbus }, graft := {}, pins := { s.pins with usbPwr := [] },
             rows := (s.rows.map (fun c => (c.1, c.2.noHost))).filter (fun c => decide (c.2 ≠ {})) }
  | d =>
    if 4 ≤ d ∧ d < 12 then
      let s := s.endBough (d - 4)
      let s := s.dropMem (0x100000000 + (d - 4) * 0x1000000) (0x100000000 + (d - 3) * 0x1000000)
      { s with fill := tabDel (d - 4) s.fill, saCopies := tabDel (d - 4) s.saCopies }
    else s

/-- The espalier's requests of boughs end with PD12: its ESP_BREQ has taken its cold value (13, R478). -/
def State.breqDrop (s : State) : State :=
  (List.range 8).foldl (fun s b =>
    let s := s.setHwReq (4 + b) false
    if s.tap.mode = .running then s.judgeDomain (4 + b) else s) s

/-- R62, R703: the switch of domain `d` opens, its grant clears and its state is lost; a bough's request that still waits for BUD_ACK
ends with it (R67). -/
def State.openSwitch (s : State) (d : Nat) : State :=
  let s := (if 4 ≤ d ∧ d < 12 then s.withdrawBough (d - 4) else s).setLanes d false
  let s := if s.granted d then ((s.unready d).dropState d).dropRegs d else s
  let s := (((s.clrBit R.PDC_GRANT d).setDomState d 0).settlePlls).applyDeferred
  if d = 12 then s.breqDrop else s

/-! ## SerDes supplies (R682, R451, R631) -/

/-- The graft link is gone: an epoch in transfer and a GRAFT_SYNC that runs end with it (R631, R641, R642). -/
def State.graftLost (s : State) : State :=
  if s.ready 60 then
    let s := (s.clrReady 60).endJobOf 4 9 0
    let s := if s.fld R.GRAFT_STATUS_STATE = 5 then s else s.setFld R.GRAFT_STATUS_STATE 1
    ({ s with graft := { s.graft with rx := none, txTag := none, pSeen := false, pActive := false } }).fault 78 0
  else s

/-- Every serial lane on the rail stops: each port that has lost its lock, the PCIe endpoint and the graft link. -/
def State.railDown (s : State) (ports : Bool) : State :=
  let s := if ports then (List.range 24).foldl (fun s p => s.portLost p) s else s
  let s := if s.granted 15 && s.flag R.PCIE_STATUS_LINK_UP then s.linkDown else s
  if s.granted 15 then s.graftLost else s

end Sys2Proof.Machine
end

