-- ==== Sys2Proof/Machine/Taproot.lean ====
section
/-! DEFINITION. Taproot (02): cold start and the resets, the slow clock, wake sources, retention RAM, domain grants and releases,
standby, the loss of VIO and of SerDes rails. -/

namespace Sys2Proof.Machine

/-- Changes taproot's state. -/
def State.updTap (s : State) (f : Taproot → Taproot) : State := { s with tap := f s.tap }

/-- Whether taproot has left power-on reset. -/
def State.tapOn (s : State) : Bool := s.tap.mode != .powerOnReset

/-! ## Cold start and loss of VKA (R41, R57, R70, R674, R627) -/

/-- COLD_START: the straps are sampled and PD1-PD3 start; under TEST_EN they stay off. -/
def execColdStart (straps : BitVec 12) (testEn : Bool) (s : State) : Res :=
  .next (
    if s.tapOn then s
    else
      let s := (s.setReg R.TAP_STRAP (straps.setWidth 32)).setFld R.GRAFT_STATUS_ROLE (if straps.toNat.testBit 11 then 0 else 1)
      let s := s.updTap (fun t => { t with mode := .running, vioGood := true, testEn := testEn, refSys := .starting })
      let s := [0, 1, 62].foldl (fun s n => s.setReady n) s
      if testEn then s else s.restart)

/-- VKA_LOSS: a cold reset. The store, the fuses, the log and what stands on the pins from outside remain (Table 1.7). -/
def execVkaLoss (s : State) : Res :=
  .next { State.reset with
    pending := s.pending, freeCtr := s.freeCtr, clk := s.clk, out := s.out, nv := s.nv, nvCounts := s.nvCounts, nvEcc := s.nvEcc,
    fuses := s.fuses, perst := s.perst, usb := { vbus := s.usb.vbus },
    tap := { srdGood := s.tap.srdGood, srhGood := s.tap.srhGood, vio18Good := s.tap.vio18Good, vioGood := s.tap.vioGood },
    pins := { shdnLow := s.pins.shdnLow, tripTs := s.pins.tripTs, tripX := s.pins.tripX, therm := s.pins.therm } }

/-! ## Warm reset (Table 1.7, R85, R263, R583, R602, R672) -/

/-- The start of a warm reset. -/
def State.warmReset (s : State) : State :=
  let s := (List.range 13).foldl (fun s i => s.openSwitch (15 - i)) s
  let s := s.coldBits (kindBits Kinds.warm)
  let s := { s with
    threads := tabKeep (· < 512) s.threads, pm := {}, ctl := [], jobs := {}, boot := {}, bat := {}, fanForced := false,
    pins := { s.pins with faultLow := false, wdTrip := false },
    slow := { s.slow with wdtCycles := 0, wdtArmed := none, wdtKeys := [], rowWdtCycles := [] },
    tap := { s.tap with mode := .running, hwReq := [(1, true), (2, true)], warmHeld := true } }
  ((List.range 4).foldl (fun s x => s.setFld (R.LOOP_STATUS_AUTO x) 1) s.settlePlls).fanRefresh

/-- The functions of PD1 that accept requests from its grant on. The start-up tests of the random number generator count as passed then, at
a warm reset too and whatever failure came before it (03, R97; log 74). -/
def State.readyPd1 (s : State) : State :=
  ([9, 10, 12, 13, 14, 15, 17, 18, 19, 63].foldl (fun s n => s.setReady n) s).setFld R.SEC_RNG_STATUS_VALID 1

/-- R602: a fatal fault that is still present after the reset enters the safe state again: a REF_SYS that has failed and does not run yet,
an over-voltage that has stopped loop A (log 73). -/
def State.fatalStays (s : State) : State :=
  let s := if s.flag R.TAP_FAULT_STATUS_OSC_FAIL && s.tap.refSys != .running then s.enterSafe 1 1 else s
  if bitOf (s.reg (R.LOOP_FAULT_STATUS 0)) 0 && s.fld (R.LOOP_STATUS_STATE 0) == 3 then s.enterSafe 5 0 else s

/-- The restart after a warm reset. -/
def State.warmRestart (s : State) : State :=
  let s := (s.updTap (fun t => { t with warmHeld := false })).fatalStays.setReady 62
  (if s.granted 1 then s.readyPd1 else s).restart

/-- WARM_RESET: RESET_N low for 500 ns; ignored in standby. -/
def execWarmReset (s : State) : Res :=
  .next (if (s.tap.mode = .running ∨ s.tap.mode = .standbyEntry) ∧ s.tap.warmHeld = false ∧ s.tap.testEn = false then s.warmReset else s)

/-- WARM_RESET_END: RESET_N high for 10 us. -/
def execWarmResetEnd (s : State) : Res := .next (if s.tap.warmHeld then s.warmRestart else s)

/-! ## Slow clock and RTC (R42-R46) -/

/-- XTAL_CHANGEOVER. -/
def execXtalChangeover (s : State) : Res := .next (if s.tapOn then s.setFld R.TAP_STATUS_XTAL_OK 1 else s)

/-- XTAL_FAIL. -/
def execXtalFail (s : State) : Res := .next (if s.tapOn then (s.setFld R.TAP_STATUS_XTAL_OK 0).fault 1 0 else s)

/-- RTC_ALARM: only a count step into the alarm value fires it (R46). -/
def execRtcAlarm (s : State) : Res :=
  .next (
    if s.slow.counted && s.reg R.TAP_RTC_SEC_LO == s.reg R.TAP_ALARM_SEC && s.fld R.TAP_RTC_SUB_SUB == s.fld R.TAP_ALARM_SUB_SUB then
      ({ s with slow := { s.slow with counted := false } }).wakeSource 10
    else s)

/-! ## Wake sources (R47-R51) -/

/-- WAKE_QUALIFY: input `n`, enabled, has been seen active often enough. A level that stays qualified does not qualify anew. -/
def execWakeQualify (n : Fin 8) (s : State) : Res :=
  .next (
    if !s.tapOn || !s.flag (R.TAP_WAKE_CFG_EN n.val) || s.wakeHeld n.val then s
    else (s.setWakeHeld n.val (!s.flag (R.TAP_WAKE_CFG_MODE n.val))).wakeSource n.val)

/-- WAKE_LEAVES_ACTIVE. -/
def execWakeLeavesActive (n : Fin 8) (s : State) : Res := .next (s.setWakeHeld n.val false)

/-- A slow-clock cycle: a level input that is still qualified counts as qualifying in it (R47). -/
def State.wakeCycle (s : State) : State := (List.range 8).foldl (fun s n => if s.wakeHeld n then s.wakeSource n else s) s

/-- VBAT_COMPARATOR_QUALIFY (R48). -/
def execVbatComparatorQualify (hi : Bool) (s : State) : Res :=
  .next (
    let armed := if hi then s.tap.vbatHiArmed else s.tap.vbatLoArmed
    let code := s.fld (if hi then R.TAP_VBAT_CMP_HI_CODE else R.TAP_VBAT_CMP_LO_CODE)
    if s.tapOn && armed && code != 0 then
      (s.updTap (fun t => if hi then { t with vbatHiArmed := false } else { t with vbatLoArmed := false })).wakeSource (if hi then 9 else 8)
    else s)

/-- VBAT_COMPARATOR_REARM (R48). -/
def execVbatComparatorRearm (hi : Bool) (s : State) : Res :=
  .next (s.updTap (fun t => if hi then { t with vbatHiArmed := true } else { t with vbatLoArmed := true }))

/-! ## Retention RAM (R52-R55) -/

/-- IDX after an access. -/
def State.rramStep (s : State) : State := s.setFld R.TAP_RRAM_IDX_IDX (s.fld R.TAP_RRAM_IDX_IDX + 1)

/-- A read of TAP_RRAM_DATA: a word with two errors comes as stored. -/
def State.rramRead (s : State) : Word × State :=
  let i := s.fld R.TAP_RRAM_IDX_IDX
  (s.rramWord i, (s.rramMeet i).rramStep)

/-- A write of TAP_RRAM_DATA. -/
def State.rramWrite (s : State) (v : Word) : State := (s.rramStore (s.fld R.TAP_RRAM_IDX_IDX) v).rramStep

/-! ## Domains (R59-R69, Table 2.2) -/

/-- Whether domain `d` is a bough whose espalier request is on: its bit of ESP_BREQ (13, R478). -/
def State.breqOn (s : State) (d : Nat) : Bool := decide (4 ≤ d) && decide (d < 12) && bitOf (s.reg R.ESP_BREQ) (d - 4)

/-- DOMAIN_REQUEST: the owner of domain `d` requests it; the espalier's request of a bough is its bit of ESP_BREQ (13, R478). -/
def execDomainRequest (d : Fin 16) (s : State) : Res :=
  .next (
    if s.tapOn then
      let s := if 4 ≤ d.val ∧ d.val < 12 ∧ s.granted 12 = true then s.setBit R.ESP_BREQ (d.val - 4) else s
      (s.setHwReq d.val true).requestDomain d.val
    else s)

/-- DOMAIN_REQUEST_END: the owner's request ends, before the grant (R64) or after it (R62). In every mode the domain is no longer
requested (R59), so that a restart does not start it again. The espalier's request of a bough lasts until a warden clears its bit (13,
R479). -/
def execDomainRequestEnd (d : Fin 16) (s : State) : Res :=
  .next (
    let s := s.setHwReq d.val (s.breqOn d.val)
    if s.tap.mode = .running then s.judgeDomain d.val else s)

/-- The extra conditions and supplies of Table 2.2 for domain `d`. -/
def State.grantable (s : State) (d : Nat) : Bool :=
  (if d = 12 ∨ d = 15 then s.ready 3 else true)
    && (if d = 13 ∨ d = 14 then s.granted 12 else true)
    && (if 13 ≤ d then s.tap.srdGood && s.tap.srhGood else true)
    && (if d = 15 then s.tap.vio18Good else true)

/-- R511: the DTB starts from the RTC. -/
def State.dtbStart (s : State) : State :=
  (s.setPair R.DTB_LO R.DTB_HI ((s.rtcSec * 1000000000 + s.fld R.TAP_RTC_SUB_SUB * 1000000000 / 32768) % 2 ^ 64)).setReady 30

/-- What the functions of domain `d` do at its grant (R20, R507, R511, R581, R597). -/
def State.onGrant (s : State) (d : Nat) : State :=
  match d with
  | 1 => (s.readyPd1.setReady 11).fanRefresh
  | 3 => ((s.scanFaultStore.reportWinner 0).reportWinner 1).setReady 16
  | 12 => ((s.setReady 28).setReady 29).dtbStart
  | 14 => (s.setReady 56).setReady 61
  | 15 => s.usbPullup
  | d => if 4 ≤ d ∧ d < 12 then (s.loadSa (d - 4)).setReady (16 + d) else s

/-- DOMAIN_GRANT: the switch of domain `d` has closed, its supply is good, its PLL reports lock and REF_SRD is qualified; the
grant follows if the extra condition holds. A bough needs BUD_ACK first (R67). -/
def execDomainGrant (d : Fin 16) (s : State) : Res :=
  .next (
    let d := d.val
    let pending := s.domState d == 3 || (s.domState d == 1 && !(decide (4 ≤ d) && decide (d < 12)))
    if s.tap.mode = .running ∧ 1 ≤ d ∧ pending = true ∧ s.grantable d = true then
      let s := (s.updTap (fun t => { t with refSys := .running })).pllLocked (pllOf d)
      ((s.setLanes d true).setBit R.PDC_GRANT d |>.setDomState d 4).onGrant d
    else s)

/-- BUD_TIMEOUT (R68). -/
def execBudTimeout (b : Fin 8) (s : State) : Res :=
  .next (if s.domState (4 + b.val) = 2 then (s.endPending (4 + b.val) 1).fault 1 5 else s)

/-- REF_SYS_TIMEOUT (R77): REF_SYS is started again and again. -/
def execRefSysTimeout (s : State) : Res := .next (if s.tap.refSys = .starting then s.fault 1 1 else s)

/-- The place of a PLL in PDC_PLL. -/
def pllNum : Pll → Nat
  | .ctl => 0
  | .core => 1
  | .sys => 2

/-- PLL_LOCK_TIMEOUT (R78). -/
def execPllLockTimeout (p : Pll) (s : State) : Res :=
  .next (
    let p := pllNum p
    if s.pll p = .starting then
      let s := s.setPll p .failed
      let s := (List.range 16).foldl (fun s d =>
        if 1 ≤ d ∧ pllOf d = p ∧ 1 ≤ s.domState d ∧ s.domState d ≤ 3 then s.endPending d 2 else s) s
      s.fault 1 2
    else s)

/-! ## Standby (R71-R75) -/

/-- Every PLL and REF_SYS stop, whatever KEEP says. -/
def State.stopClocks (s : State) : State := s.updTap (fun t => { t with refSys := .off, plls := [] })

/-- The next step of a standby entry: the highest domain that is still on drains; with none left the device is in standby, its
watchdog frozen, to count a full period on wake (R73). -/
def State.standbyNext (s : State) : State :=
  match ((List.range 15).map (15 - ·)).find? (fun d => s.domState d != 0) with
  | some d => if s.domState d = 4 then s.drain d else s
  | none =>
    let s := (s.stopClocks).updTap (fun t => { t with mode := .standby })
    { s with slow := { s.slow with wdtCycles := 0, wdtArmed := none, wdtKeys := [] } }

/-- A write of TAP_STBY.GO (R71, R72). Requests that are still pending stop with the entry and are taken up again when it ends. -/
def State.standbyGo (s : State) : State :=
  if s.fld R.TAP_WAKE_EN_SRC = 0 then s.setFld R.TAP_STBY_REFUSED 1
  else if s.tap.mode ≠ .running then s
  else
    let s := s.updTap (fun t => { t with mode := .standbyEntry })
    let s := (List.range 16).foldl (fun s d =>
      if 1 ≤ d ∧ 1 ≤ s.domState d ∧ s.domState d ≤ 3 then
        (if 4 ≤ d ∧ d < 12 then s.withdrawBough (d - 4) else s).setDomState d 0
      else s) s
    s.standbyNext.wakeCycle

/-- DOMAIN_RELEASE (R62, R63): domain `d` has drained. -/
def execDomainRelease (d : Fin 16) (s : State) : Res :=
  .next (
    let d := d.val
    if s.domState d = 5 then
      let s := s.openSwitch d
      if s.tap.mode = .standbyEntry then s.standbyNext else s.judgeDomain d
    else s)

/-! ## VIO and the SerDes rails (R76, R682) -/

/-- VIO_LOSS. SYS_SHDN_N is high impedance without VIO (09, R327). -/
def execVioLoss (s : State) : Res :=
  .next (
    let s := ({ s with pins := { s.pins with shdnLow := false, tripTs := false, tripX := false } }).updTap
      (fun t => { t with vioGood := false })
    if !s.tapOn || s.tap.mode == .vioLost then s
    else
      let s := s.updTap (fun t => { t with stby := t.mode == .standby, mode := .vioLost })
      let s := (List.range 15).foldl (fun s i => s.openSwitch (15 - i)) s
      s.stopClocks.fault 1 6)

/-- VIO_RETURN. -/
def execVioReturn (s : State) : Res :=
  .next (
    let s := s.updTap (fun t => { t with vioGood := true })
    if s.tap.mode = .vioLost then
      let s := s.setBit R.TAP_WAKE_REASON 11
      let s := if s.tap.stby then s.firstWake 11 else s
      (s.updTap (fun t => { t with stby := false })).restart
    else s)

/-- Sets whether a SerDes supply is good. -/
def State.setRail (s : State) (r : Rail) (good : Bool) : State :=
  s.updTap (fun t => match r with
    | .srd => { t with srdGood := good }
    | .srh => { t with srhGood := good }
    | .vio18 => { t with vio18Good := good })

/-- SERDES_RAIL_LOSS: PCIe and the graft link use all three rails, the ports the first two. -/
def execSerdesRailLoss (rail : Rail) (s : State) : Res := .next ((s.setRail rail false).railDown (rail != .vio18))

/-- SERDES_RAIL_RETURN: the lanes may lock again. -/
def execSerdesRailReturn (rail : Rail) (s : State) : Res := .next (s.setRail rail true)

/-! ## Register hooks -/

/-- What a write of a register of the taproot and power-domain blocks does beside its store. -/
def State.tapHook (s : State) (off : Nat) (wr : Word) : State :=
  if off = R.TAP_RTC_SEC_HI then { s.setFld R.TAP_RTC_SUB_SUB 0 with slow := { s.slow with counted := false } }
  else if off = R.TAP_ALARM_SEC ∨ off = R.TAP_ALARM_SUB then { s with slow := { s.slow with counted := false } }
  else if R.TAP_WAKE_CFG 0 ≤ off ∧ off ≤ R.TAP_WAKE_CFG 7 then s.setWakeHeld ((off - R.TAP_WAKE_CFG 0) / 4) false
  else if off = R.TAP_VBAT_CMP then s.updTap (fun t => { t with vbatLoArmed := true, vbatHiArmed := true })
  else if off = R.TAP_STBY then (if bitOf wr 0 then s.standbyGo else s)
  else if off = R.PDC_REQ then (List.range 16).foldl (fun s d => if s.domState d = 0 ∧ bitOf wr d = false then s else s.judgeDomain d) s
  else if off = R.PDC_PLL then s.settlePlls
  else s

end Sys2Proof.Machine
end

