-- ==== Sys2Proof/Machine/Boot.lean ====
section
/-! DEFINITION. Boot and trust (03): the boot ROM's choice and start of the rootstock and fabric images, staging, fuses, the
random number generator, the debug port. -/

namespace Sys2Proof.Machine

/-- TAP_STRAP.BOOT. -/
def State.strapBoot (s : State) : Nat := s.fld R.TAP_STRAP_BOOT

/-- Sets BOOT_STATUS.STATE (Table 3.10). -/
def State.bootTo (s : State) (st : Nat) : State := s.setFld R.BOOT_STATUS_STATE st

/-- Changes the boot state. -/
def State.updBoot (s : State) (f : Boot → Boot) : State := { s with boot := f s.boot }

/-! ## Loading (R84, Table 3.4) -/

/-- The boughs that a fabric image targets. -/
def Header.boughs (h : Header) : List Nat := (List.range 8).filter (fun b => h.target.testBit b)

/-- Writes the load area of an image: its payload, or zeros. -/
def State.fillArea (s : State) (h : Header) (bs : Bytes) : State :=
  if h.type = 1 then s.rsPoke h.load bs
  else h.boughs.foldl (fun s b => s.devWrite (0x100000000 + b * 0x1000000 + h.load) bs) s

/-- R83, R84: an image that fails leaves its ERR code, and its load area is cleared when it has one. -/
def State.imageFailed (s : State) (h : Header) (room err : Nat) : State :=
  let s := s.setFld R.BOOT_STATUS_ERR err
  if h.layoutOk room then s.fillArea h (List.replicate h.len 0) else s

/-- The rootstock cores start at ENTRY; the engines leave AUTO (R85, R263). RS_VER has 6 bits, which hold every SEC_VER of Table 3.4; of
a greater one it keeps the low 6 (log 60). -/
def State.startRootstock (s : State) (h : Header) : State :=
  let s := { s with threads := tabKeep (· < 512) s.threads }.setThr 512
    { threadDflt 512 with state := .run, pc := BitVec.ofNat 32 (h.load + h.entry) }
  let s := (List.range 4).foldl (fun s x => s.setFld (R.LOOP_STATUS_AUTO x) 0) s
  ((s.updBoot (fun b => { b with rsKey := some (Fin.ofNat 4 h.keySlot), rsStore := none })).setFld R.BOOT_STATUS_RS_VER h.secVer).setReady 2

/-- R86: loop A starts from the fused recovery profile, a list of register values. After a warm reset with loop A regulating the profile is
written all the same (log 61). -/
def State.recover (s : State) : State :=
  let s := s.fuses.recovProfile.foldl (fun s c => s.setReg c.1 c.2) s
  let s := if s.loopState 0 = 0 then (s.setFld (R.LOOP_CTL_EN 0) 1).startLoop 0 else s
  let s := [12, 15].foldl (fun s d => (s.setHwReq d true).requestDomain d) s
  (s.setFld R.BOOT_STATUS_RECOV 1).bootTo 5

/-- R87: the boot halts: STATE is HALT, loops A-D are off, and RS_FAIL is a fatal fault. -/
def State.bootHalt (s : State) : State :=
  ((List.range 4).foldl (fun s x => if s.loopState x = 0 then s else s.stopLoop x 0) (s.bootTo 6)).fault 4 0

/-- The boughs start (Table 3.2), and STATE is RUN. -/
def State.startBoughs (s : State) : State := (s.updBoot (fun b => { b with boughsOn := true })).bootTo 3

/-- Both headers of the images from slot `base` on are read (R82; 17, R605). -/
def State.headersRead (s : State) (base : Nat) : State := (s.nvMeet (imageSlot base).1 256).nvMeet (imageSlot (base + 1)).1 256

/-- Tries the store slots `l` of the images from slot `base` on in turn: the slot that passes. -/
def State.trySlots (s : State) (base : Nat) : List Nat → Option Nat × State
  | [] => (none, s)
  | i :: more =>
    match s.slotErr (base + i) with
    | 0 => (some i, s)
    | e => ((s.slotMeet (base + i)).imageFailed (s.slotHeader (base + i)) (imageSlot (base + i)).2 e).trySlots base more

/-- ROOTSTOCK_BOOT (R80, R82, R83, R85-R87): `xspi` is what flash answers from address 0, if it answers. -/
def execRootstockBoot (xspi : Option Bytes) (s : State) : Res :=
  .next (
    if !s.granted 1 || !s.granted 3 || s.tap.warmHeld || s.fld R.BOOT_STATUS_STATE != 0 then s
    else
      let p := s.preferred 0
      let r := (s.headersRead 0).trySlots 0 [p, 1 - p]
      match r with
      | (some i, s) =>
        let h := s.slotHeader i
        let s := s.fillArea h (s.nvBytes ((imageSlot i).1 + 256) h.len)
        (((s.startRootstock h).updBoot (fun b => { b with rsStore := some i })).setFld R.BOOT_STATUS_RS_SLOT i).bootTo 1
      | (none, s) =>
        let fail := fun (s : State) => if s.fuses.recovEn then s.recover else s.bootHalt
        if s.strapBoot ≠ 1 then fail s
        else match xspi with
          | none => fail (s.setFld R.BOOT_STATUS_ERR 8)
          | some img =>
            let h := headerOf (img.take 256 ++ List.replicate (256 - img.length) 0xFF)
            (match s.bytesErr img [1] with
             | 0 => ((s.fillArea h (slice 256 h.len img)).startRootstock h).bootTo 1
             | e => fail (s.imageFailed h img.length e)))

/-! ## The fabric image (R80, R82, R83, R88, Table 3.2) -/

/-- Whether every bough that an image targets is granted. -/
def State.targetsOn (s : State) (h : Header) : Bool := h.boughs.all (fun b => s.granted (4 + b))

/-- A fabric image that passed is loaded from a store slot, or under 0b01 from flash; the boughs start, or wait for RELEASE under 0b11. -/
def State.startFabric (s : State) (h : Header) (slot : Nat) (payload : Bytes) : State :=
  let s := ((s.fillArea h payload).setFld R.BOOT_STATUS_FAB_SLOT slot).setFld R.BOOT_STATUS_FAB_VER h.secVer
  let s := s.updBoot (fun b => { b with fabStore := if s.strapBoot = 1 then none else some slot })
  if s.strapBoot = 3 ∧ s.boot.released = false then s.bootTo 7 else s.startBoughs

/-- R88. -/
def State.fabricFailed (s : State) : State := ((((s.setHwReq 15 true).requestDomain 15).fault 4 1)).bootTo 4

/-- FABRIC_LOAD: `xspi` is what flash answers from address 0x080000, under 0b01. -/
def execFabricLoad (xspi : Bytes) (s : State) : Res :=
  .next (
    if s.fld R.BOOT_STATUS_STATE ≠ 1 ∨ s.granted 12 = false then s
    else if s.strapBoot = 2 then s.bootTo 4
    else if s.strapBoot = 1 then
      let h := headerOf (xspi.take 256 ++ List.replicate (256 - xspi.length) 0xFF)
      match s.bytesErr xspi [2] with
      | 0 => if s.targetsOn h then s.startFabric h 0 (slice 256 h.len xspi) else s
      | e => (s.imageFailed h xspi.length e).fabricFailed
    else
      let p := s.preferred 2
      match (s.headersRead 2).trySlots 2 [p, 1 - p] with
      | (some i, s') =>
        let h := s'.slotHeader (2 + i)
        if s'.targetsOn h then s'.startFabric h i (s'.nvBytes ((imageSlot (2 + i)).1 + 256) h.len) else s
      | (none, s') => s'.fabricFailed)

/-- XSPI_TIMEOUT (R88). -/
def execXspiTimeout (s : State) : Res :=
  .next (
    if s.fld R.BOOT_STATUS_STATE = 1 ∧ s.granted 12 = true ∧ s.strapBoot = 1 then (s.setFld R.BOOT_STATUS_ERR 8).fabricFailed else s)

/-! ## PCIe staging (R86, R89-R91) -/

/-- R89: whether PF 0 may write the staging registers and the packet buffer; what was open when a verification began stays open while it
runs, so that a second GO sets BUSY_HIT (R90). -/
def State.stagingOpen (s : State) : Bool :=
  s.fld R.BOOT_STATUS_STATE == 4 || s.fld R.BOOT_STATUS_STATE == 5 || s.strapBoot == 2 || (s.boot.verifying && s.boot.hostOpen)

/-- A write of 1 to BOOT_STAGE_GO (R90). STATE shows FAB_LOAD while the image is verified, and a GO counts in every STATE (log 62). -/
def State.stageGo (s : State) : State :=
  if s.boot.verifying then s.setFld R.BOOT_STATUS_BUSY_HIT 1
  else (s.updBoot (fun b => { b with verifying := true, hostOpen := s.stagingOpen })).bootTo 2

/-- The staged bytes: an address outside the packet buffer, or the buffer while PD12 is off, reads as ones (R23). -/
def State.stagedBytes (s : State) : Bytes :=
  (List.range (min (s.reg R.BOOT_STAGE_LEN).toNat 0x4000000)).map (fun i =>
    let a := (s.reg R.BOOT_STAGE_ADDR).toNat + i
    if s.granted 12 ∧ a < 0x4000000 then s.byteAt a else 0xFF)

/-- STAGED_IMAGE_DONE (R83, R84, R86, R91): in recovery, with no rootstock image running, a rootstock image is taken too. -/
def execStagedImageDone (s : State) : Res :=
  .next (
    if !s.boot.verifying then s
    else
      let img := s.stagedBytes
      let h := headerOf (img.take 256 ++ List.replicate (256 - img.length) 0xFF)
      let types := if s.boot.rsKey.isNone && s.flag R.BOOT_STATUS_RECOV then [1, 2] else [2]
      let done := fun (s : State) => s.updBoot (fun b => { b with verifying := false })
      let payload := slice 256 h.len img
      match s.bytesErr img types with
      | 0 =>
        if h.type = 1 then ((done (s.fillArea h payload)).startRootstock h).startBoughs
        else if s.targetsOn h then
          (((done (s.fillArea h payload)).updBoot (fun b => { b with fabStore := none })).setFld R.BOOT_STATUS_FAB_VER h.secVer).startBoughs
        else s
      | e => (done (s.imageFailed h img.length e)).bootTo 4)

/-! ## Fuses and the random number generator (R93-R97) -/

/-- A write of BOOT_FUSE_CMD. -/
def State.fuseCmd (s : State) (wr : Word) : State :=
  let slots := (List.range 4).filter (fun n => bitOf wr (4 + n))
  if slots.any (fun n => s.boot.rsKey == some (Fin.ofNat 4 n)) then s.fault 4 3
  else
    let f := { s.fuses with revoked := slots.foldl (fun m n => m ||| BitVec.ofNat 4 (2 ^ n)) s.fuses.revoked }
    let v := s.fld R.BOOT_STATUS_RS_VER
    { s with fuses := if bitOf wr 0 && s.boot.rsKey.isSome && decide (f.minVer.toNat < v) then { f with minVer := BitVec.ofNat 6 v } else f }

/-- A failed health test. -/
def State.rngFail (s : State) : State := ((s.setFld R.SEC_RNG_STATUS_VALID 0).setFld R.SEC_RNG_STATUS_HEALTH_FAIL 1).fault 4 2

/-- RNG_HEALTH_FAIL. -/
def execRngHealthFail (s : State) : Res := .next (if s.granted 1 then s.rngFail else s)

/-- The start-up tests run again; `pass` says how they end. -/
def State.rngRestart (s : State) (pass : Bool) : State := if pass then s.setFld R.SEC_RNG_STATUS_VALID 1 else s.rngFail

/-- A read of SEC_RNG_DATA: the word is random, so free (log 1). -/
def State.rngTake (s : State) : Word × State :=
  if s.flag R.SEC_RNG_STATUS_VALID then (s.nextFree, s.tookFree) else (0, s)

/-! ## The debug port (R98-R102, R674) -/

/-- The bypass register's bit, captured as 0. -/
def State.jtagBypass (s : State) : State := s.send (.jtag [0])

/-- R22: what the debug port answers while a function that the instruction needs is not ready; the spec gives no form of that answer, so
its `n` bytes are free (log 63). -/
def State.dbgNotReady (s : State) (n : Nat) : State := (s.tookFree).send (.jtag (freeBytes s.freeCtr n))

/-- IDCODE (Table 3.6). -/
def execIdcode (s : State) : Res :=
  .next (
    if s.tapOn && !s.ready 62 then s.dbgNotReady 4
    else if s.tapOn then
      s.send (.jtag (leBytes 4 (s.fld R.IDR_REV_MINOR % 16 * 2 ^ 28 + 0x6416 * 2 ^ 12 + s.fuses.mfrId.toNat * 2 + 1)))
    else s)

/-- CHALLENGE (R92): a nonce, which is random and so free (log 1), and the identity key's signature over SHA-256(nonce || UID); the
secret number that an ECDSA signature draws is free too. Under TEST_EN the code acts as BYPASS. -/
def execChallenge (s : State) : Res :=
  .next (
    if !s.tapOn then s
    else if s.tap.testEn then s.jtagBypass
    else if !s.ready 18 || !s.ready 62 then s.dbgNotReady 96
    else
      let n := s.freshNonce
      let s := s.tookFree
      let sig := Crypto.ecdsaSign s.fuses.idKey (Crypto.sha256 (n ++ leBytes 8 s.fuses.uid.toNat)) (Config.freeBig s.freeCtr)
      ((s.updBoot (fun b => { b with dbgNonce := some n })).tookFree).send (.jtag (n ++ beBytes 64 sig.toNat)))

/-- A RESPONSE that fails (R101). -/
def State.dbgFail (s : State) : State :=
  let n := min 3 (s.fld R.SEC_DBG_FAILS + 1)
  (if n = 3 then (s.setFld R.SEC_DBG_FAILS 3).setFld R.SEC_DBG_LOCKOUT 1 else s.setFld R.SEC_DBG_FAILS n).fault 4 4

/-- RESPONSE: the level it asks for is 0-3; which level a greater one leaves is free (log 1). -/
def execResponse (level : Byte) (sig : BitVec 512) (s : State) : Res :=
  .next (
    if !s.tapOn then s
    else if s.tap.testEn then s.jtagBypass
    else if !s.ready 18 || !s.ready 62 then s.dbgNotReady 1
    else
      let ok := match s.boot.dbgNonce with
        | some n => !s.flag R.SEC_DBG_LOCKOUT && s.ownerSigned n level sig
        | none => false
      let s := s.updBoot (fun b => { b with dbgNonce := none })
      if !ok then s.dbgFail
      else if s.fuses.dbgDis then s
      else if level.toNat < 4 then s.setFld R.SEC_DBG_LEVEL level.toNat
      else s.tookFree.setFld R.SEC_DBG_LEVEL s.nextFree.toNat)

/-- BYPASS, and every code that Table 3.6 does not list. -/
def execBypass (code : Byte) (s : State) : Res :=
  .next (if s.tapOn && code != 0x01 && code != 0x20 && code != 0x21 then (if s.ready 62 then s.jtagBypass else s.dbgNotReady 1) else s)

/-- What a write of a register of the security and boot block does beside its store; a RELEASE written before STATE is HOLD counts as the
release (log 64); the start-up tests that a write of RESTART
runs end as `pass` says. -/
def State.secHook (s : State) (off : Nat) (wr : Word) (pass : Bool) : State :=
  if off = R.BOOT_CTL then
    if bitOf wr 0 && s.strapBoot == 3 && !s.boot.released then
      let s := s.updBoot (fun b => { b with released := true })
      if s.fld R.BOOT_STATUS_STATE = 7 then s.startBoughs else s
    else s
  else if off = R.BOOT_STAGE_GO then (if bitOf wr 0 then s.stageGo else s)
  else if off = R.BOOT_FUSE_CMD then s.fuseCmd wr
  else if off = R.SEC_RNG_CTL then (if bitOf wr 0 then s.rngRestart pass else s)
  else s

end Sys2Proof.Machine
end

