-- ==== Sys2Proof/Machine/Converters.lean ====
section
/-! DEFINITION. Converters and sensing (08): codes and result words, slots and home samples, comparators, the result memory,
precision lists. -/

namespace Sys2Proof.Machine

/-- Fast converter `n`. -/
def State.conv (s : State) (n : Nat) : ConvSt := tabGet {} n s.convs

/-- Changes fast converter `n`. -/
def State.updConv (s : State) (n : Nat) (f : ConvSt → ConvSt) : State := { s with convs := tabSet {} n (f (s.conv n)) s.convs }

/-- Changes the state that the converters share. -/
def State.updCnv (s : State) (f : CnvSt → CnvSt) : State := { s with cnv := f s.cnv }

/-- A setting register as it is in force (R300). -/
def State.cnvReg (s : State) (off : Nat) : Word := (tabFind off s.cnv.held).getD (s.reg off)

/-! ## Codes and result words (R271, R273, R283, Table 8.3) -/

/-- A conversion: its code, and whether the input lay above or below the range. -/
structure Sample where
  code : Int
  above : Bool
  below : Bool
  deriving DecidableEq, Repr

/-- Codes `uV` on a range from `lo` to 1.2 V (in uV) with 1.2 V worth `full` codes: floored, clamped, and out of range by more
than half a code. -/
def sampleOf (lo : Int) (full : Nat) (uV : Int) : Sample :=
  { code := clampI (lo * full / 1200000) (full - 1) (uV * full / 1200000),
    above := decide (1200000 < 2 * full * (uV - 1200000)),
    below := decide (1200000 < 2 * full * (lo - uV)) }

/-- A fast conversion. -/
def fastSample (uV : Int) : Sample := sampleOf 0 4096 uV

/-- A fast conversion of the second converter of an interleaved pair, with its gain and offset trims (R283). -/
def trimmedSample (gtrim otrim uV : Int) : Sample :=
  { fastSample uV with
    code := clampI 0 4095 ((uV * 4096 * (65536 + gtrim) * 8 + otrim * 65536 * 1200000) / (1200000 * 65536 * 8)) }

/-- A precision conversion of channel `chan`; an on-die sensor's is its temperature in 1/16 C, given in millionths of a degree. -/
def precisionSample (chan : Nat) (uV : Int) : Sample :=
  if chan = 0x10 then sampleOf (-1200000) 32768 uV
  else if 0x18 ≤ chan then { code := clampI (-32768) 32767 (uV * 16 / 1000000), above := false, below := false }
  else sampleOf 0 65536 uV

/-- A result word (Table 8.3). -/
def resultWord (code : Nat) (above below : Bool) (chan : Nat) (ilv : Bool) (seq : Nat) : Word :=
  BitVec.ofNat 32 (code % 2 ^ 16 + (if above || below then 2 ^ 16 else 0) + (if below then 2 ^ 17 else 0) + chan % 32 * 2 ^ 18
    + (if ilv then 2 ^ 23 else 0) + seq % 256 * 2 ^ 24)

/-! ## Result memory and comparators (R292-R296) -/

/-- R294, R295: a result for the result memory. -/
def State.capture (s : State) (w : Word) : State :=
  if !s.flag R.CNV_CAP_CTL_EN then s
  else
    let p := s.fld R.CNV_CAP_PTR_PTR
    let s := (s.setReg (R.CNV_RMEM p) w).setFld R.CNV_CAP_PTR_PTR ((p + 1) % 1024)
    let s := if p = 1023 ∧ s.flag R.CNV_CAP_CTL_WRAP = false then s.setFld R.CNV_CAP_CTL_EN 0 else s
    match s.cnv.postLeft with
    | none => s
    | some k =>
      if k ≤ 1 then
        ((s.setFld R.CNV_CAP_CTL_EN 0).setFld R.CNV_CAP_PTR_FROZEN 1).updCnv (fun c => { c with postLeft := none })
      else s.updCnv (fun c => { c with postLeft := some (k - 1) })

/-- R295: the trigger comparator has hit. -/
def State.captureTrigger (s : State) (c : Nat) : State :=
  if s.flag R.CNV_CAP_CTL_EN && s.flag R.CNV_CAP_CTL_TARM && s.fld R.CNV_CAP_CTL_TCMP == c && s.cnv.postLeft.isNone then
    (if s.fld R.CNV_CAP_CTL_POST = 0 then (s.setFld R.CNV_CAP_CTL_EN 0).setFld R.CNV_CAP_PTR_FROZEN 1
     else s.updCnv (fun v => { v with postLeft := some (s.fld R.CNV_CAP_CTL_POST) }))
  else s

/-- R292: whether a result lies outside comparator `c`'s limits: codes of channel 0x10 are compared as signed, all others as unsigned. -/
def State.outside (s : State) (c chan : Nat) (code : Int) (above below : Bool) : Bool :=
  let lim := fun v : Nat => if chan = 0x10 then toSigned 16 v else (v : Int)
  let v := lim (ofSigned 16 code)
  above || below || decide (lim (s.fld (R.CNV_CMP_THR_HI c)) < v) || decide (v < lim (s.fld (R.CNV_CMP_THR_LO c)))

/-- R292, R293: one comparator takes a result of converter `src`. -/
def State.comparator (s : State) (src chan : Nat) (code : Int) (above below : Bool) (c : Nat) : State :=
  if !s.flag (R.CNV_CMP_CFG_EN c) || s.fld (R.CNV_CMP_CFG_SRC c) != src || s.fld (R.CNV_CMP_CFG_CHAN c) != chan then s
  else if !s.outside c chan code above below then s.updCnv (fun v => { v with cmpRun := tabSet 0 c 0 v.cmpRun })
  else
    let n := tabGet 0 c s.cnv.cmpRun + 1
    let s := s.updCnv (fun v => { v with cmpRun := tabSet 0 c n v.cmpRun })
    if n ≤ s.fld (R.CNV_CMP_CFG_CNT c) then s
    else
      let was := bitOf (s.reg R.CNV_CMP_HIT) c
      let s := s.setBit R.CNV_CMP_HIT c
      let s := if was then s else s.event (s.reg R.CNV_CMP_ROUTE)
      s.captureTrigger c

/-- All comparators take a result. -/
def State.comparators (s : State) (src chan : Nat) (code : Int) (above below : Bool) : State :=
  (List.range 32).foldl (fun s c => s.comparator src chan code above below c) s

/-! ## Fast converters (R275-R285) -/

/-- Whether the pair of converter `n` is interleaved. -/
def State.interleaved (s : State) (n : Nat) : Bool := s.flag (R.CNV_PAIR_ILV (n / 2))

/-- The conversion in progress has ended: the lowest waiting slot starts, else home sampling goes on (R279). -/
def State.nextConversion (s : State) (n : Nat) : State :=
  s.updConv n (fun c => { c with seq := (c.seq + 1) % 256, busy := c.waiting.head?, waiting := c.waiting.tail })

/-- R281: a home sample counts for the current of a phase in a period of its loop. -/
def State.countSample (s : State) (n : Nat) (i : Int) : State :=
  if (s.servedBy n).any (fun x => (s.loop x).inPeriod) then s.updPhase n (fun p => { p with sum := p.sum + i, cnt := p.cnt + 1 }) else s

/-- R264: a sample above PROT.IPK ends the on-time and counts; OC_CNT saturates, and the PMBus bit latches with its increment (11, Table
11.4). -/
def State.peakSample (s : State) (x n : Nat) (i : Int) : State :=
  if (s.fld (R.LOOP_PROT_I_IPK x) : Int) < i then
    let s := s.endOnTime x n
    if s.fld (R.PH_STATE_OC_CNT n) < 255 then (s.satAdd (R.PH_STATE_OC_CNT n) 1 255).latchIout x 5 3 else s
  else s

/-- R282: with ZSRC 1 the first home sample of 0 or less after a fall edge is the zero crossing. -/
def State.crossSample (s : State) (n : Nat) (i : Int) : State :=
  if s.flag (R.PH_CFG_ZSRC n) && decide (i ≤ 0) then s.zeroCross n else s

/-- R264, R281, R282: a home sample of phase `n`'s current. -/
def State.phaseSample (s : State) (n : Nat) (code : Int) : State :=
  let cal := (s.cnvReg (R.CNV_CS_CAL n)).toNat
  let i := asr ((code - (cal % 4096 : Nat)) * (cal / 2 ^ 16 : Nat)) 12
  let s := ((s.setFld (R.PH_CUR_I n) (ofSigned 16 i)).countSample n i).crossSample n i
  match s.servedBy n with
  | none => s
  | some x =>
    let s := s.peakSample x n i
    let total := ((s.mine x).map (fun m => s.sfld (R.PH_CUR_I m))).sum
    if s.flag (R.LOOP_STATUS_DE_ON x) && decide ((s.fld (R.LOOP_DE_EXIT x) : Int) < total) then
      s.updLoop x (fun l => { l with deLeave := true })
    else s

/-- The result of slot `sl` of converter `n` reaches its destinations. -/
def State.slotResult (s : State) (n sl : Nat) (v : Sample) : State :=
  let w := s.cnvReg (R.CNV_SLOT n sl)
  let chan := w.toNat / 2 % 8
  let res := resultWord v.code.toNat v.above v.below chan false (s.conv n).seq
  let s := if bitOf w 8 then s.updLoop (w.toNat / 32 % 4) (fun l => { l with sample := some v.code.toNat }) else s
  let s := if bitOf w 9 then s.capture res else s
  s.comparators n chan v.code v.above v.below

/-- A home sample, or a word of an interleaved stream (R283, R285). -/
def State.homeResult (s : State) (n : Nat) (v : Sample) : State :=
  if s.interleaved n then
    (s.capture (resultWord v.code.toNat v.above v.below 0 true (s.conv n).seq)).comparators n 0 v.code v.above v.below
  else (s.phaseSample n v.code).comparators n 0 v.code v.above v.below

/-- CONVERSION_RESULT (R275): the conversion in progress on converter `n` met an input of `uV` microvolts. -/
def execConversionResult (n : Fin 16) (uV : Int) (s : State) : Res :=
  .next (
    let n := n.val
    if !s.ready 7 then s
    else
      let s' := match (s.conv n).busy with
        | some sl => s.slotResult n sl (fastSample uV)
        | none =>
          let p := n / 2
          s.homeResult n (if s.interleaved n && n % 2 == 1 then
              trimmedSample (s.sfld (R.CNV_PAIR_GTRIM p)) (s.sfld (R.CNV_PAIR_OTRIM p)) uV
            else fastSample uV)
      s'.nextConversion n)

/-- Inserts a slot number into an ascending list without repeats. -/
def insertSlot (k : Nat) : List Nat → List Nat
  | [] => [k]
  | j :: l => if k < j then k :: j :: l else if k = j then j :: l else j :: insertSlot k l

/-- SLOT_FIRE (R276, R278-R280, R284, R298). -/
def execSlotFire (n : Fin 16) (sl : Fin 4) (s : State) : Res :=
  .next (
    let n := n.val
    let w := s.cnvReg (R.CNV_SLOT n sl.val)
    let x := w.toNat / 32 % 4
    let late := bitOf w 4 && decide (s.fld (R.LOOP_PERIOD_PERIOD x) ≤ w.toNat / 2 ^ 16 % 2 ^ 13)
    if !s.ready 7 || !bitOf w 0 || !s.switching x || late || (n % 2 == 1 && s.interleaved n) then s
    else if !bitOf w 8 then s.updConv n (fun c => { c with waiting := insertSlot sl.val c.waiting })
    else
      let engine := match (s.conv n).busy with
        | some b => bitOf (s.cnvReg (R.CNV_SLOT n b)) 8
        | none => false
      if engine then (s.satAdd (R.CNV_STAT_SLIP_CNT n) 1 255).fault 9 2
      else (s.satAdd (R.CNV_STAT_ABORT n) 1 255).updConv n (fun c => { c with busy := some sl.val }))

/-- CONVERTER_CALIBRATION (R297): the fast or the precision converters end their calibration. -/
def execConverterCalibration (fast ok : Bool) (s : State) : Res :=
  .next (if !s.granted 2 then s else if ok then s.setReady (if fast then 7 else 8) else s.fault 9 0)

/-! ## Precision converters (R286-R291, R299) -/

/-- The entry that list `m` is at; 8 when it has finished. -/
def State.listAt (s : State) (m : Nat) : Nat := tabGet 8 m s.cnv.listPos

/-- Entry `k` of list `m` as it is in force (R289). -/
def State.listEntry (s : State) (m k : Nat) : Word := tabGet 0 (8 * m + k) s.cnv.listAct

/-- Whether list `m` is enabled. -/
def State.listOn (s : State) (m : Nat) : Bool := bitOf (s.reg R.CNV_P_CTL) m

/-- Moves list `m` to its first enabled entry at or after `k`. -/
def State.listTo (s : State) (m k : Nat) : State :=
  let e := ((List.range 8).find? (fun i => decide (k ≤ i) && bitOf (s.listEntry m i) 0)).getD 8
  s.updCnv (fun c => { c with listPos := tabSet 8 m e c.listPos })

/-- Starts list `m` with its entries as they are written. -/
def State.startList (s : State) (m : Nat) : State :=
  let s := (List.range 8).foldl (fun s k => s.updCnv (fun c => { c with listAct := tabSet 0 (8 * m + k) (s.reg (R.CNV_P_LIST m k)) c.listAct })) s
  (s.updCnv (fun c => { c with listDue := tabSet false m false c.listDue })).listTo m 0

/-- Whether both lists run entry by entry together (R288). -/
def State.listsTied (s : State) : Bool := s.flag R.CNV_P_CTL_SYNC && s.listOn 0 && s.listOn 1

/-- Restarts list `m`, or both tied lists, if they have finished. -/
def State.restartLists (s : State) (m : Nat) : State :=
  if s.listsTied then (if s.listAt 0 = 8 ∧ s.listAt 1 = 8 then (s.startList 0).startList 1 else s)
  else if s.listAt m = 8 then s.startList m else s

/-- PRECISION_LIST_RESTART (R287): PERIOD has expired, or an enabled list starts for the first time. -/
def execPrecisionListRestart (m : Fin 2) (s : State) : Res :=
  .next (
    let m := m.val
    if !s.ready 8 || !s.listOn m then s
    else if s.listAt m = 8 ∧ (s.listsTied = false ∨ s.listAt (1 - m) = 8) then s.restartLists m
    else if s.fld R.CNV_P_CTL_PERIOD = 0 then s
    else s.updCnv (fun c => { c with listDue := tabSet false m true c.listDue }))

/-- The end of a list: with PERIOD 0, or a PERIOD that has expired meanwhile, it restarts at once (R287). -/
def State.listEnded (s : State) (m : Nat) : State :=
  if s.listAt m ≠ 8 then s
  else
    let due := tabGet false m s.cnv.listDue
    let s := if due then s.setFld R.CNV_P_CTL_OVERRUN 1 else s
    if due || s.fld R.CNV_P_CTL_PERIOD == 0 then s.restartLists m else s

/-- A mean rounded half up (R286). -/
def meanHalfUp (sum : Int) (n : Nat) : Int := (2 * sum + n) / (2 * n : Nat)

/-- What a precision result does beside its publication (R291, R299, R333, Table 9.2). -/
def State.precisionEffects (s : State) (chan : Nat) (code : Int) (ovr : Bool) (w : Word) : State :=
  if chan < 0x13 then s.batResult chan code ovr
  else if chan = 0x13 then s.updCnv (fun c => { c with thermX := some (w, s.clk) })
  else if chan = 0x14 then (if 54613 < 100 * (code - 54613).natAbs then s.fault 9 1 else s)
  else if 0x18 ≤ chan ∧ chan < 0x1C then
    (s.setFld (R.CNV_TEMP_TEMP (chan - 0x18)) (ofSigned 16 code)).updCnv (fun c => { c with tempAt := tabPut (chan - 0x18) s.clk c.tempAt })
  else s

/-- PRECISION_ENTRY_DONE (R286, R288, R290): entry `sl` of list `m` has made its 2^OSR conversions. Where some lay above the range
and some below, which of the two OVR_NEG reports is free (log 1). -/
def execPrecisionEntryDone (m : Fin 2) (sl : Fin 8) (uVs : List Int) (s : State) : Res :=
  .next (
    let m := m.val
    let sl := sl.val
    let w := s.listEntry m sl
    let n := 2 ^ (w.toNat / 2 ^ 8 % 8)
    if !s.ready 8 || !s.listOn m || s.listAt m != sl || uVs.length != n || (s.listsTied && decide (s.listAt (1 - m) < sl)) then s
    else
      let chan := w.toNat / 2 % 32
      let vs := uVs.map (precisionSample chan)
      let code := meanHalfUp ((vs.map (fun v => v.code)).sum) n
      let above := vs.any (fun v => v.above)
      let below := vs.any (fun v => v.below)
      let neg := below && (!above || bitOf s.nextFree 0)
      let s := if above && below then s.tookFree else s
      let res := resultWord (ofSigned 16 code) (above && !neg) neg chan false (tabGet 0 m s.cnv.pSeq)
      let s := s.updCnv (fun c => { c with pSeq := tabSet 0 m ((tabGet 0 m c.pSeq + 1) % 256) c.pSeq })
      let s := (s.setReg (R.CNV_P_RES m sl) res).setReg R.CNV_P_SEQ (s.reg R.CNV_P_SEQ + 1)
      let s := s.precisionEffects chan code (above || below) res
      let s := if bitOf w 12 then s.capture res else s
      let s := s.comparators (16 + m) chan code (above && !neg) neg
      (s.listTo m (sl + 1)).listEnded m)

/-! ## Writes of converter registers (R277, R284, R295, R300) -/

/-- R277: whether a slot's written word is refused. -/
def State.slotBad (s : State) (off : Nat) : Bool :=
  let w := s.reg off
  let eng := bitOf w 8
  decide (6 ≤ w.toNat / 2 % 8) || (eng && bitOf w 4)
    || (eng && bitOf w 0 && (List.range 64).any (fun i =>
        let o := R.CNV_SLOT (i / 4) (i % 4)
        o != off && bitOf (s.reg o) 0 && bitOf (s.reg o) 8 && (s.reg o).toNat / 32 % 4 == w.toNat / 32 % 4))

/-- Keeps the setting in force of a register that has taken a new value over `old`. -/
def State.holdSetting (s : State) (off : Nat) (old : Word) : State :=
  if (tabFind off s.cnv.held).isSome then s else s.updCnv (fun c => { c with held := tabPut off old c.held })

/-- What a write of a converter register does beside its store. A comparator that is given another source, channel or limit, or that is
disabled or enabled, counts its consecutive results anew (R293). -/
def State.cnvHook (s : State) (off : Nat) (old wr : Word) : State :=
  if 0x18010 ≤ off ∧ off < 0x18030 then
    let p := (off - 0x18010) / 4
    if s.flag (R.CNV_PAIR_ILV p) && !bitOf old 0 && decide (1 < s.phState (2 * p + 1)) then
      (s.setReg off old).setFld (R.CNV_STAT_CFG_ERR (2 * p + 1)) 1
    else s
  else if 0x18040 ≤ off ∧ off < 0x18080 then
    (if (s.servedBy ((off - 0x18040) / 4)).isSome then s.holdSetting off old
     else s.updCnv (fun c => { c with held := tabDel off c.held }))
  else if 0x18100 ≤ off ∧ off < 0x18200 then
    (if s.slotBad off then (s.setReg off old).setFld (R.CNV_STAT_CFG_ERR ((off - 0x18100) / 0x10)) 1 else s.holdSetting off old)
  else if off = R.CNV_P_CTL then
    (List.range 2).foldl (fun s m => if s.listOn m then s else
      s.updCnv (fun c => { c with listPos := tabSet 8 m 8 c.listPos, listDue := tabSet false m false c.listDue })) s
  else if 0x18410 ≤ off ∧ off < 0x18420 then
    s.updCnv (fun c => { c with xtempAt := tabPut ((off - 0x18410) / 4) s.clk c.xtempAt })
  else if 0x18500 ≤ off ∧ off < 0x18600 then
    let c := (off - 0x18500) / 8
    let f := R.CNV_CMP_CFG_CNT c
    if (if off % 8 = 0 then f.put 0 old = f.put 0 (s.reg off) else old = s.reg off) then s
    else s.updCnv (fun v => { v with cmpRun := tabSet 0 c 0 v.cmpRun })
  else if off = R.CNV_CAP_CTL then
    (if bitOf wr 0 then (s.setFld R.CNV_CAP_PTR_FROZEN 0).updCnv (fun c => { c with postLeft := none }) else s)
  else s

end Sys2Proof.Machine
end

