-- ==== Sys2Proof/Machine/Watchdog.lean ====
section
/-! DEFINITION. The system watchdog and the row watchdogs (17, R613-R626, R711), the lockstep fault, the fault store's clear, and
the register hooks of the identification, fault and watchdog registers. -/

namespace Sys2Proof.Machine

/-- The ms ticks in `c` slow-clock cycles: tick k ends ceil(32.768 k) cycles after the count last restarted (R711). -/
def msOf (c : Nat) : Nat := c * 1000 / 32768

/-- WDT_STATUS.COUNT. -/
def State.wdtCount (s : State) : Nat := msOf s.slow.wdtCycles

/-- Restarts the watchdog's count and forgets a first key. -/
def State.wdtRestart (s : State) : State := { s with slow := { s.slow with wdtCycles := 0, wdtArmed := none } }

/-- The watchdog's EN has changed: the count restarts, and a service in progress is abandoned with the writes that no edge has judged yet
(R613). -/
def State.wdtForget (s : State) : State := { s with slow := { s.slow with wdtCycles := 0, wdtArmed := none, wdtKeys := [] } }

/-- PERIOD in force: 0 acts as 1, above 64,000 as 64,000 (Table 17.10). -/
def State.wdtPeriod (s : State) : Nat := max 1 (min 64000 (s.fld R.WDT_PERIOD_PERIOD))

/-- R614: whether the window is open at count `n`. -/
def State.wdtOpen (s : State) (n : Nat) : Bool := decide (s.wdtPeriod * s.fld R.WDT_CTL_WIN / 8 ≤ n)

/-- R616: a bad write of WDT_KEY. -/
def State.wdtBad (s : State) : State :=
  ({ s with slow := { s.slow with wdtArmed := none } }.satAdd R.WDT_BAD_COUNT 1 65535).fault 2 1

/-- A write of WDT_KEY waits for the next slow-clock edge (R616, R617); `warden` is the writer's level. -/
def State.wdtKey (s : State) (warden : Bool) (v : Word) : State :=
  if s.flag R.WDT_CTL_EN then { s with slow := { s.slow with wdtKeys := s.slow.wdtKeys ++ [(warden, v)] } } else s

/-- The edge that ends slow-clock cycle `c` of the count judges a write of WDT_KEY (R615-R617). -/
def State.wdtJudge (s : State) (c : Nat) (warden : Bool) (v : Word) : State :=
  if !warden then s.wdtBad
  else if v = 0x5A3C then
    if s.slow.wdtArmed.isNone && s.wdtOpen (msOf c) then { s with slow := { s.slow with wdtArmed := some c } } else s.wdtBad
  else if v = 0xA5C3 then
    match s.slow.wdtArmed with
    | some a =>
      if 32768 < (c - a) * 1000 then s.wdtBad
      else if s.wdtPeriod ≤ msOf c then { s with slow := { s.slow with wdtArmed := none } }
      else s.wdtRestart
    | none => s.wdtBad
  else s.wdtBad

/-- The edge judges the writes that wait for it, oldest first. -/
def State.wdtEdge (s : State) : State :=
  s.slow.wdtKeys.foldl (fun t k => t.wdtJudge s.slow.wdtCycles k.1 k.2) { s with slow := { s.slow with wdtKeys := [] } }

/-- R73: the system watchdog is frozen in standby, and while VIO is missing in it. -/
def State.wdtFrozen (s : State) : Bool := s.tap.mode == .standby || (s.tap.mode == .vioLost && s.tap.stby)

/-- WDT_EXPIRY (R613, R618, R626). -/
def execWdtExpiry (s : State) : Res :=
  .next (
    if s.flag R.WDT_CTL_EN && !s.wdtFrozen && decide (s.wdtPeriod ≤ s.wdtCount) then
      let s := (s.fault 2 0).satAdd R.WDT_EXP_COUNT 1 65535
      { s.wdtRestart with pins := { s.wdtRestart.pins with wdTrip := true } }
    else s)

/-- WD_TRIP_RELEASE (R618, R619): PULSE ms have passed and no page is in progress. -/
def execWdTripRelease (s : State) : Res :=
  .next (
    if s.pins.wdTrip then
      let s := { s with pins := { s.pins with wdTrip := false } }
      if s.flag R.WDT_CTL_HOLD then s else (s.setFld R.WDT_EXP_LAST_WAS_WDT 1).warmReset.warmRestart
    else s)

/-! ## Row watchdogs (R621-R625) -/

/-- ROW_r_WDT_STAT.COUNT. -/
def State.rowWdtCount (s : State) (r : Nat) : Nat := msOf (tabGet 0 r s.slow.rowWdtCycles)

/-- Whether a requester may serve row `r`'s watchdog. -/
def State.mayServe (s : State) (req : Req) (r : Nat) : Bool :=
  s.level req == .warden || (match req with
    | .thread t => (s.thr t.val).state != .unassigned && (s.thr t.val).row == r
    | _ => false)

/-- A write of ROW_r_WDT_KEY by a requester that may serve it. -/
def State.rowWdtKey (s : State) (r : Nat) (v : Word) : State := if v = 0xA5C3 then s.rowWdtRestart r else s

/-- ROW_WDT_EXPIRY (R622, R625). -/
def execRowWdtExpiry (r : Fin 8) (s : State) : Res :=
  .next (
    let r := r.val
    if s.granted 12 && s.flag (R.ROW_WDT_CTL_EN r) && decide (max 1 (s.fld (R.ROW_WDT_CTL_PERIOD r)) ≤ s.rowWdtCount r) then
      (((s.rowWdtRestart r).satAdd (R.ROW_WDT_STAT_EXP r) 1 255).fault (24 + r) 31).rowReset r 2
    else s)

/-! ## Other faults -/

/-- RS_LOCKSTEP (R603). -/
def execRsLockstep (s : State) : Res := .next (if s.granted 1 then (s.fault 3 0).stopRootstock else s)

/-- FAULT_STORE_CLEAR_DONE (R599): the erase of 10.24 ms has ended. -/
def execFaultStoreClearDone (s : State) : Res := .next (s.setFld R.FLT_NV_STAT_BUSY 0)

/-! ## Register hooks -/

/-- What a write of a register of the identification, fault and watchdog blocks does beside its store. -/
def State.fltHook (s : State) (off : Nat) (old wr : Word) : State :=
  if off = R.IDR_ACC_CNT then (if bitOf wr 31 then s.setReg off 0 else s)
  else if off = R.FLT_NV_CFG then (if bitOf wr 31 && s.granted 3 then s.clearFaultStore else s)
  else if 0x400 ≤ off ∧ off < 0xE00 ∧ off % 0x20 = 0x10 then (if bitOf wr 31 then s.setReg off 0 else s)
  else if off = R.WDT_CTL then (if bitOf old 0 == bitOf (s.reg off) 0 then s else s.wdtForget)
  else if off = R.WDT_BAD then (if bitOf wr 31 then s.setReg off 0 else s)
  else if 0x3000 ≤ off ∧ off < 0x3000 + 152 * 8 ∧ off % 8 = 0 then s.admWritten ((off - 0x3000) / 8) old
  else s

end Sys2Proof.Machine
end

