-- ==== Sys2Proof/Machine/Graft.lean ====
section
/-! DEFINITION. The graft link (18): frames, HELLO, the copy of an epoch on both sides, the shadow banks, the trip of the partner.
The takeover itself stands in Takeover.lean. -/

namespace Sys2Proof.Machine

/-! ## Shadow banks (R634-R636, R643, Table 18.4) -/

/-- BANK bytes of this device. -/
def State.bankSize (s : State) : Nat := bankBytes (s.fld R.GRAFT_SHADOW_BANK_MIB)

/-- Where bank `k` begins (R634). -/
def State.bankAt (s : State) (k : Nat) : Nat := 0x4000000 - (2 - k) * s.bankSize

/-- The commit record of bank `k`, as bytes. -/
def State.commitRec (s : State) (k : Nat) : Bytes := s.peekBytes (s.bankAt k + s.bankSize - 64) 64

/-- Whether there are shadow banks: on a standby with EN = 1. -/
def State.banksOn (s : State) : Bool := s.granted 15 && s.flag R.GRAFT_CTL_EN && s.granted 12 && !s.isActive

/-- The EPOCH of bank `k`, if the bank is committed (R636). -/
def State.committed (s : State) (k : Nat) : Option Nat :=
  let r := s.commitRec k
  if s.banksOn && r.take 4 == [0x47, 0x52, 0x46, 0x54] && leNat (slice 4 2 r) == 1
      && crc32Ieee (r.take 28) == leNat (slice 28 4 r)
  then some (leNat (slice 8 4 r)) else none

/-- The bank of the current epoch with that epoch (R636). -/
def State.currentBank (s : State) : Option (Nat × Nat) :=
  match s.committed 0, s.committed 1 with
  | some a, some b =>
    let d := (a + 2 ^ 32 - b) % 2 ^ 32
    if 0 < d ∧ d < 2 ^ 31 then some (0, a) else some (1, b)
  | some a, none => some (0, a)
  | none, some b => some (1, b)
  | none, none => none

/-- GRAFT_AGE: us since the current epoch's BEGIN (R643). -/
def State.graftAge (s : State) : Nat :=
  match s.currentBank with
  | some (k, _) => min 0xFFFFFFFF ((s.dtbNow + 2 ^ 64 - leNat (slice 16 8 (s.commitRec k))) % 2 ^ 64 / 1000)
  | none => 0

/-! ## Frames (Table 18.2) -/

/-- A received frame: FLAGS, EPOCH, OFFSET and payload, if its CRC is right and it has type `type` (R633). -/
def graftFrame (type : Nat) (d : Bytes) : Option (Nat × Nat × Nat × Bytes) :=
  let n := d.length - 4
  if 20 ≤ d.length ∧ crc32Ieee (d.take n) = beNat (d.drop n) ∧ (d.getD 0 0).toNat = type ∧ beNat (slice 12 2 d) = n - 16 then
    some ((d.getD 1 0).toNat, beNat (slice 4 4 d), beNat (slice 8 4 d), slice 16 (n - 16) d)
  else none

/-- Acts on a received frame of type `type` while the link works. -/
def State.graftReceive (s : State) (type : Nat) (d : Bytes) (body : Nat → Nat → Nat → Bytes → State → State) : State :=
  match s.graftUp, graftFrame type d with
  | true, some (f, e, o, p) => body f e o p s
  | _, _ => s

/-- GRAFT_HELLO_SEND (R630). -/
def execGraftHelloSend (s : State) : Res :=
  .next (
    if s.graftUp then
      let e := match s.currentBank with
        | some b => b.2
        | none => 0
      s.graftSend 1 0 0 (beBytes 4 e ++ [BitVec.ofNat 8 (s.fld R.GRAFT_SHADOW_BANK_MIB), 0, 0, 0])
    else s)

/-- The GRAFT_SYNC that runs fails (R641). -/
def State.syncFailed (s : State) : State :=
  let s := (s.endJobOf 4 9 0).updGraft (fun g => { g with txTag := none })
  if s.graftState = 3 then s.graftTo 2 else s

/-- GRAFT_HELLO (R630, R632): both lanes have lock and a HELLO has arrived. -/
def execGraftHello (data : Bytes) (s : State) : Res :=
  .next (s.graftReceive 1 data (fun f _ _ p s =>
    let s := s.updGraft (fun g => { g with
      pSeen := true, pActive := f % 2 == 1, pEpoch := beNat (p.take 4), pBank := (p.getD 4 0).toNat })
    let s := if s.graftState < 2 then s.graftTo 2 else s
    let s := s.setReady 60
    if s.isActive && f % 2 == 1 then s.syncFailed.fault 78 3 else s))

/-- GRAFT_LINK_LOST (R631): no valid frame for 100 us. -/
def execGraftLinkLost (s : State) : Res := .next (if s.granted 15 then s.graftLost else s)

/-! ## The copy, active side (R638, R641, R642) -/

/-- Cuts bank bytes into DATA frames of at most 4,096 bytes. -/
def State.graftData (s : State) (epoch : Nat) : Nat → Nat → Bytes → State
  | 0, _, _ => s
  | _, _, [] => s
  | n + 1, off, bs => (s.graftSend 3 epoch off (bs.take 4096)).graftData epoch n (off + 4096) (bs.drop 4096)

/-- The bytes of a source as the copy reads them: ones where its domain is off (R23), free where a word is uncorrected (log 1). -/
def State.graftSource (s : State) (addr n : Nat) : Bytes × State :=
  match memAt addr n with
  | some m =>
    if s.granted m.domain then
      match s.memReadAll m addr n with
      | (some bs, s) => (bs, s)
      | (none, s) => (freeBytes s.freeCtr n, s.tookFree)
    else (List.replicate n 0xFF, s)
  | none => (List.replicate n 0, s)

/-- The epoch that the next copy sends (R638). -/
def State.nextEpoch (s : State) : Nat :=
  let e := (s.graft.pEpoch + 1) % 2 ^ 32
  if s.graft.pEpoch = 0 ∨ e = 0 then 1 else e

/-- GRAFT_SYNC: BEGIN, the bank bytes and END leave; an answer then ends the job. -/
def execGraftSync (tag : BitVec 10) (s : State) : Res :=
  .next (s.startJob tag.toNat 4 (fun j s =>
    if !s.isActive || s.graft.pActive || !s.ready 60 then s.endJob j.tag 9 0 0
    else
      let e := s.nextEpoch
      let t := s.graftSource j.src (16 * j.arg0)
      let r := (graftSections j.arg0 t.1).foldl (fun (a : Bytes × State) sec =>
        let x := a.2.graftSource sec.1 sec.2.1
        (a.1 ++ x.1, x.2)) t
      let bank := r.1.take j.len
      let s := r.2.graftSend 2 e 0 (beBytes 4 j.len ++ beBytes 4 j.arg0)
      let s := s.graftData e (bank.length / 4096 + 1) 0 bank
      let s := (s.graftSend 4 e 0 (beBytes 4 (crc32Ieee bank))).graftTo 3
      (s.updJob j.tag (fun k => { k with pos := j.len })).updGraft (fun g => { g with txTag := some j.tag, txEpoch := e })))

/-- ACK_FRAME (R641): the partner has committed the epoch. -/
def execAckFrame (data : Bytes) (s : State) : Res :=
  .next (s.graftReceive 5 data (fun _ _ _ p s =>
    if s.graft.txTag.isSome ∧ beNat (p.take 4) = s.graft.txEpoch then
      let s := (s.endJobOf 4 0 s.graft.txEpoch).updGraft (fun g => { g with txTag := none, pEpoch := g.txEpoch })
      if s.graftState = 3 then s.graftTo 2 else s
    else s))

/-- NAK_FRAME (R641). -/
def execNakFrame (data : Bytes) (s : State) : Res :=
  .next (s.graftReceive 6 data (fun _ _ _ _ s => if s.graft.txTag.isSome then s.syncFailed else s))

/-- GRAFT_ACK_TIMEOUT (R641): no answer within 1 ms of END. -/
def execGraftAckTimeout (s : State) : Res := .next (if s.graft.txTag.isSome then s.syncFailed else s)

/-! ## The copy, standby side (R639, R640, R642) -/

/-- The epoch in transfer is discarded; its target stays uncommitted. -/
def State.rxDiscard (s : State) : State :=
  let s := s.updGraft (fun g => { g with rx := none })
  if s.graftState = 4 then s.graftTo 2 else s

/-- BEGIN_FRAME (R632, R639): an active device, and an epoch that the bank cannot hold, are answered with NAK. -/
def execBeginFrame (data : Bytes) (s : State) : Res :=
  .next (s.graftReceive 2 data (fun _ e _ p s =>
    let total := beNat (p.take 4)
    if s.graftState = 5 then s
    else if s.isActive then s.graftSend 6 e 0 (beBytes 4 4)
    else
      let s := s.rxDiscard
      if s.bankSize < total + 64 ∨ s.granted 12 = false then s.graftSend 6 e 0 (beBytes 4 3)
      else
        let k := match s.currentBank with
          | some b => 1 - b.1
          | none => 0
        let s := s.devWrite (s.bankAt k + s.bankSize - 64) (List.replicate 64 0)
        let x : GraftRx := { epoch := e, total := total, nsec := beNat (slice 4 4 p), bank := k, got := [], start := s.dtbNow }
        (s.updGraft (fun g => { g with rx := some x })).graftTo 4))

/-- DATA_FRAME: bytes inside 0 to TOTAL - 1 are stored; every range that arrives is remembered. -/
def execDataFrame (data : Bytes) (s : State) : Res :=
  .next (s.graftReceive 3 data (fun _ e o p s =>
    match s.graft.rx with
    | some x =>
      if x.epoch = e then
        let s := if o + p.length ≤ x.total then s.devWrite (s.bankAt x.bank + o) p else s
        s.updGraft (fun g => { g with rx := some { x with got := x.got ++ [(o, p.length)] } })
      else s
    | none => s))

/-- Whether ranges cover 0 to `total` - 1 exactly once each. -/
def coversOnce (total : Nat) (l : List (Nat × Nat)) : Bool :=
  (l.map (fun r => r.2)).sum == total && l.all (fun r => decide (r.1 + r.2 ≤ total))
    && l.Pairwise (fun a b => a.1 + a.2 ≤ b.1 ∨ b.1 + b.2 ≤ a.1)

/-- The commit record of an epoch (Table 18.4). -/
def commitBytes (x : GraftRx) (icrc : Nat) : Bytes :=
  let h := [0x47, 0x52, 0x46, 0x54] ++ leBytes 2 1 ++ leBytes 2 x.nsec ++ leBytes 4 x.epoch ++ leBytes 4 x.total
    ++ leBytes 8 x.start ++ leBytes 4 icrc
  h ++ leBytes 4 (crc32Ieee h) ++ List.replicate 32 0

/-- END_FRAME (R640). -/
def execEndFrame (data : Bytes) (s : State) : Res :=
  .next (s.graftReceive 4 data (fun _ e _ p s =>
    match s.graft.rx with
    | some x =>
      if x.epoch ≠ e then s
      else
        let icrc := beNat (p.take 4)
        let whole := coversOnce x.total x.got
        let good := crc32Ieee (s.peekBytes (s.bankAt x.bank) x.total) == icrc
        let s := s.rxDiscard
        if whole && good && s.granted 12 then
          (s.devWrite (s.bankAt x.bank + s.bankSize - 64) (commitBytes x icrc)).graftSend 5 e 0 (beBytes 4 e)
        else (s.graftSend 6 e 0 (beBytes 4 (if whole then 1 else 2))).fault 78 1
    | none => s))

/-- ABORT_FRAME (R642). -/
def execAbortFrame (data : Bytes) (s : State) : Res :=
  .next (s.graftReceive 7 data (fun _ _ _ _ s => if s.graft.rx.isSome then s.rxDiscard else s))

/-- GRAFT_EPOCH_TIMEOUT (R642): 1 ms without a frame of the epoch in transfer. -/
def execGraftEpochTimeout (s : State) : Res := .next (if s.graft.rx.isSome then s.rxDiscard else s)

/-! ## Partner trip (R645, R651) and the register hooks -/

/-- PARTNER_TRIP: the input has stayed high for 50 us. -/
def execPartnerTrip (s : State) : Res :=
  .next (
    if !s.granted 15 || s.graftState == 5 then s
    else if s.isActive then s.fault 78 2
    else if s.flag R.GRAFT_CTL_TAKE_EN then ((s.rxDiscard).updGraft (fun g => { g with tripAt := s.clk })).graftTo 5
    else s)

/-- What a write of a register of the graft block does beside its store (R628, R630, R635). -/
def State.graftHook (s : State) (off : Nat) (old wr : Word) : State :=
  if off = R.GRAFT_CTL then
    let s := if bitOf wr 2 && s.isActive then s.setFld R.GRAFT_STATUS_ROLE 0 else s
    let on := s.flag R.GRAFT_CTL_EN
    if s.graftState = 5 then s
    else if bitOf old 0 && !on then ((s.clrReady 60).rxDiscard.updGraft (fun g => { g with pSeen := false, pActive := false })).graftTo 0
    else if !bitOf old 0 && on then s.graftTo 1
    else s
  else if off = R.GRAFT_SHADOW then
    if s.flag R.GRAFT_CTL_EN || (s.granted 12 && (List.range 8).any (fun r => s.flag (R.ROW_CTL_EN r))) then
      (s.setReg off old).setFld R.GRAFT_STATUS_CFG_ERR 1
    else s
  else s

end Sys2Proof.Machine
end

