-- ==== Sys2Proof/Machine/TwoWire.lean ====
section
/-! DEFINITION. The two-wire controllers, the mailbox of program-served PMBus commands, and AVSBus (11). -/

namespace Sys2Proof.Machine

/-- Changes the PMBus target. -/
def State.updPm (s : State) (f : PmSt → PmSt) : State := { s with pm := f s.pm }

/-- The 7-bit address of the TW_0 target (R366). -/
def State.pmAddr (s : State) : Nat := 0x58 + s.fld R.TAP_STRAP_TWADDR

/-! ## Bytes in registers -/

/-- The bytes of eight registers from `off` (Table 11.10). -/
def State.regBytes (s : State) (off n : Nat) : Bytes := ((List.range 8).flatMap (fun k => leBytes 4 (s.reg (off + 4 * k)).toNat)).take n

/-- Writes bytes into registers from `off`, word by word; the bytes after the last one stay. -/
def State.setRegBytes (s : State) (off : Nat) (bs : Bytes) : State :=
  (List.range ((bs.length + 3) / 4)).foldl (fun s k =>
    let old := leBytes 4 (s.reg (off + 4 * k)).toNat
    let new := slice (4 * k) 4 bs
    s.setReg (off + 4 * k) (BitVec.ofNat 32 (leNat (new ++ old.drop new.length)))) s

/-! ## Program-served commands (R393-R397) -/

/-- Sends `data` in answer to the held read `h`, with its PEC byte where the controller takes it (R392). -/
def State.holdSend (s : State) (h : PmHold) (data : Bytes) : State :=
  s.send (.pmbus (data ++ (if h.pec then [BitVec.ofNat 8 (crc8 (h.head ++ data))] else [])))

/-- What follows a held byte that is acknowledged (R381, R390, R391). -/
def State.afterHold (s : State) (h : PmHold) : State :=
  match h.rest with
  | .fine => s
  | .pecWrong => (s.latchCml 5 8).send .pmNack
  | .pecMissing => s.latchCml 5 8
  | .badCall => s.latchCml 6 7

/-- R395: a write of TW_0_MBX_RESP; without a held byte it comes too late (R396). -/
def State.mbxRespond (s : State) (wr : Word) : State :=
  match s.pm.hold with
  | none => s.setFld R.TW_0_MBX_STAT_LATE 1
  | some h =>
    let s := (s.setFld R.TW_0_MBX_CMD_VALID 0).updPm (fun p => { p with hold := none })
    if !bitOf wr 0 then s.send .pmNack
    else if !h.read then (s.send (.pmbus [])).afterHold h
    else
      let n := wr.toNat / 2 ^ 8 % 64
      let data := BitVec.ofNat 8 n :: s.regBytes (R.TW_0_MBX_DATA 0) n
      (s.holdSend h (if h.rest = .badCall then [1, 0xFF] else data)).afterHold h

/-- STRETCH_TIMEOUT (R396): a hold has lasted BYTE_MAX, or all holds TOTAL_MAX. -/
def execStretchTimeout (total : Bool) (s : State) : Res :=
  .next (
    let _ := total
    if s.pm.hold.isNone then s
    else
      let s := (s.setFld R.TW_0_MBX_CMD_VALID 0).updPm (fun p => { p with hold := none })
      (((s.setFld R.TW_0_MBX_STAT_TMO 1).latchBusy).latchCml 1 9).send .pmNack)

/-- Whether two-wire bus `n` is up (R405). -/
def State.twUp (s : State) (n : Nat) : Bool := s.ready (12 + n) && s.flag (R.TW_CFG_EN n)

/-- BUS_TIMEOUT (R372): the TW_0 target discards the transaction in progress. -/
def execBusTimeout (s : State) : Res :=
  .next (if s.twUp 0 then
      ((s.setFld R.TW_0_MBX_CMD_VALID 0).updPm (fun p => { p with hold := none })).latchCml 1 9
    else s)

/-! ## Controllers (R369-R374, R398-R400) -/

/-- The transaction of controller `n`. -/
def State.ctlOf (s : State) (n : Nat) : Option CtlSt := tabGet none n s.ctl

/-- Replaces it. -/
def State.setCtl (s : State) (n : Nat) (c : Option CtlSt) : State := { s with ctl := tabSet none n c s.ctl }

/-- What a transaction writes: with PEC = 1 the device appends the PEC of a write (R389, R398). -/
def CtlSt.written (c : CtlSt) : Bytes :=
  c.sent ++ (if c.pec && c.proto == 0 then [BitVec.ofNat 8 (crc8 (BitVec.ofNat 8 (2 * c.addr) :: c.sent))] else [])

/-- Whether the PEC byte of a transaction that reads `bs` is the right one (R389, R398). -/
def CtlSt.pecRight (c : CtlSt) (bs : Bytes) (pec : Byte) : Bool :=
  let addr := BitVec.ofNat 8 (2 * c.addr)
  let head := (if c.proto = 1 then addr :: c.sent else []) ++ [addr ||| 1] ++ (if c.proto = 3 then [BitVec.ofNat 8 bs.length] else [])
  BitVec.ofNat 8 (crc8 (head ++ bs)) == pec

/-- Sends what a transaction writes. -/
def State.ctlSend (s : State) (n : Nat) (c : CtlSt) : State := s.send (.twoWire n c.addr c.written)

/-- R374: the `k` clocks of SCL that bring SDA high, and the STOP after them. -/
def State.ctlClocks (s : State) (n k : Nat) : State := if k = 0 then s else s.send (.twClocks n k)

/-- R400: a transaction ends, with the field of its failure, if any, and the bytes received. -/
def State.ctlEnd (s : State) (n : Nat) (fail : Option Fld) (data : Bytes) : State :=
  let s := (s.setCtl n none).setRegBytes (R.TW_MDATA n 0) data
  let s := ((s.setFld (R.TW_MSTAT_BUSY n) 0).setFld (R.TW_MSTAT_DONE n) 1).setFld (R.TW_MSTAT_RCOUNT n) data.length
  let s := match fail with
    | some f => s.setFld f 1
    | none => s
  s.event (s.reg (R.TW_MROUTE n))

/-- R398, R399: TW_n_MCMD has been written with GO = 1. On a bus that is down nothing acknowledges, and the transaction ends at once with
NACK (01, R22; log 46). -/
def State.ctlGo (s : State) (n : Nat) : State :=
  if s.flag (R.TW_MSTAT_BUSY n) then s.setFld (R.TW_MSTAT_GO_LOST n) 1
  else if !s.twUp n then s.ctlEnd n (some (R.TW_MSTAT_NACK n)) []
  else
    let proto := s.fld (R.TW_MCMD_PROTO n)
    let wlen := min 32 (s.fld (R.TW_MCMD_WLEN n))
    let c : CtlSt := { proto := proto, addr := s.fld (R.TW_MCMD_ADDR n), wlen := wlen, rlen := min 32 (s.fld (R.TW_MCMD_RLEN n)),
                       pec := s.flag (R.TW_MCMD_PEC n), sent := if proto < 2 then s.regBytes (R.TW_MDATA n 0) wlen else [],
                       triesLeft := s.fld (R.TW_MCTL_RETRY n) }
    (s.setCtl n (some c)).setFld (R.TW_MSTAT_BUSY n) 1

/-- The bytes that a transaction may read. -/
def CtlSt.most (c : CtlSt) : Nat := if c.proto = 0 then 0 else if c.proto = 3 then 32 else c.rlen

/-- Whether `bs` is what a transaction reads that nothing cuts short. -/
def CtlSt.fits (c : CtlSt) (bs : Bytes) : Bool := if c.proto = 3 then decide (bs.length ≤ 32) else bs.length == c.most

/-- CONTROLLER_DONE (R369, R370, R374, R398, R400): what the transaction in progress met, after the clocks of R374; a
transaction that is STUCK has had nine clocks and sends nothing. -/
def execControllerDone (n : Fin 2) (res : BusEnd) (s : State) : Res :=
  .next (
    let n := n.val
    match s.ctlOf n with
    | none => s
    | some c =>
      let t := (s.ctlClocks n res.clocks.val).ctlSend n c
      if c.lost then s
      else match res.res with
        | .ok bs pec =>
          if !c.fits bs then s
          else t.ctlEnd n (if c.pec && c.proto != 0 && !c.pecRight bs pec then some (R.TW_MSTAT_PEC_ERR n) else none) bs
        | .nack => t.ctlEnd n (some (R.TW_MSTAT_NACK n)) []
        | .badLen bs => if c.proto = 3 ∧ bs.length = 32 then t.ctlEnd n (some (R.TW_MSTAT_NACK n)) bs else s
        | .stuck => ((s.ctlClocks n 9).ctlEnd n (some (R.TW_MSTAT_STUCK n)) []).fault 13 n
        | .arbLost bs =>
          if c.triesLeft = 0 then t.ctlEnd n (some (R.TW_MSTAT_ARB_LOST n)) (bs.take c.most)
          else (t.setFld (R.TW_MSTAT_ARB_LOST n) 1).setCtl n (some { c with lost := true }))

/-- CONTROLLER_RETRY (R370, R371): the bus is free again after a lost arbitration, and the target's own answer at TW_0 has ended (R408). -/
def execControllerRetry (n : Fin 2) (s : State) : Res :=
  .next (
    match s.ctlOf n.val with
    | some c =>
      if c.lost && !(n == 0 && s.pm.hold.isSome) then s.setCtl n.val (some { c with lost := false, triesLeft := c.triesLeft - 1 }) else s
    | none => s)

/-- CONTROLLER_TIMEOUT (R373, R400), after the bytes `x.read` have been received. -/
def execControllerTimeout (x : PartRead) (s : State) : Res :=
  .next (
    match s.ctlOf x.n.val with
    | some c => (if c.lost then s else s.ctlSend x.n.val c).ctlEnd x.n.val (some (R.TW_MSTAT_TIMEOUT x.n.val)) (x.read.take c.most)
    | none => s)

/-- What a write of a two-wire register does beside its store. -/
def State.twHook (s : State) (off : Nat) (wr : Word) : State :=
  if off = R.TW_MCMD 0 ∨ off = R.TW_MCMD 1 then (if bitOf wr 31 then s.ctlGo ((off - R.TW_MCMD 0) / 0x400) else s)
  else if off = R.TW_0_MBX_RESP then s.mbxRespond wr
  else s

/-! ## AVSBus (R401-R405) -/

/-- One step of the CRC-3 with polynomial x^3 + x + 1, most significant bit first. -/
def crc3Bit (c b : Nat) : Nat :=
  let t := c / 4 % 2
  let c := c * 2 % 8
  if t = b then c else c ^^^ 3

/-- The CRC-3 of bits 31:3 of a frame. -/
def crc3 (w : Nat) : Nat := (List.range 29).foldl (fun c i => crc3Bit c (w / 2 ^ (31 - i) % 2)) 0

/-- The loop of AVSBus interface `m` (R259). -/
def avsLoop (m : Nat) : Nat := 1 + m

/-- R404: STATUS of a response, in bits 4 and 3. -/
def State.avsStatus (s : State) (x : Nat) : Nat :=
  let done := s.loopState x == 2 && (s.loop x).vramp == 250 * (s.fld (R.LOOP_VSET_VSET x) : Int)
  let latched := tabGet 0 x s.pm.latVout != 0 || tabGet 0 x s.pm.latIout != 0 || tabGet 0 x s.pm.latTemp != 0 || tabGet 0 x s.pm.latMfr != 0
    || tabGet 0 x s.pm.latSum != 0
  (if done then 16 else 0) + (if latched then 8 else 0)

/-- The response frame. -/
def State.avsReply (s : State) (m ack data : Nat) : State :=
  let w := ack * 2 ^ 30 + s.avsStatus (avsLoop m) * 2 ^ 24 + data % 2 ^ 16 * 2 ^ 8
  s.send (.avs m (BitVec.ofNat 32 (w + crc3 w)))

/-- R402: AVSBus sets LOOP_x_VSET to `v`; a value that the field cannot hold leaves one the spec does not state (log 1). -/
def State.avsSetV (s : State) (x v : Nat) : State :=
  let old := s.reg (R.LOOP_VSET x)
  let s := if v < 65536 then s.setFld (R.LOOP_VSET_VSET x) v else (s.setFld (R.LOOP_VSET_VSET x) s.nextFree.toNat).tookFree
  s.vsetWritten x true old

/-- R402: a write-and-commit frame commits a held voltage. -/
def State.avsCommitHeld (s : State) (m : Nat) : State :=
  if s.flag (R.AVS_HOLD_VALID m) then
    (s.avsSetV (avsLoop m) (4 * s.fld (R.AVS_HOLD_V m))).setReg (R.AVS_HOLD m) 0
  else s

/-- What a read of data type `ty` returns (Table 11.7); none where it is not supported. -/
def State.avsRead (s : State) (x ty : Nat) : Option Nat :=
  match ty with
  | 0x0 => some (divFree (s.fld (R.LOOP_VSET_VSET x)) 4).toNat
  | 0x1 => let r := (divFree (s.fld (R.LOOP_VSLEW_VSLEW x)) 1000).toNat % 256
           some (r * 256 + r)
  | 0x2 => some (s.fld (R.LOOP_TLM_I_I x))
  | 0x3 => some (ofSigned 16 (Int.tdiv (s.sfld (R.LOOP_TLM_T_T x) * 10) 16))
  | 0xE => some (s.avsStatus x * 2 ^ 11)
  | 0xF => some 1
  | _ => none

/-- A write and commit of data type `ty` (Table 11.7); none where it is not supported. -/
def State.avsWrite (s : State) (m ty data : Nat) : Option State :=
  let x := avsLoop m
  match ty with
  | 0x0 => some ((s.avsCommitHeld m).avsSetV x (4 * data))
  | 0x1 => some ((s.avsCommitHeld m).setReg (R.LOOP_VSLEW x) (BitVec.ofNat 32 (data / 256 % 256 * 1000)))
  | 0x4 => some ((s.avsCommitHeld m).avsSetV x (coldWord (R.LOOP_VSET x)).toNat)
  | 0xE => some (s.avsCommitHeld m)
  | _ => none

/-- R401-R403: one command frame of interface `m`, answered in the next frame time. CMD 0b11 is a read. -/
def State.avsFrame (s : State) (m w : Nat) : State :=
  let cmd := w / 2 ^ 28 % 4
  let ty := w / 2 ^ 23 % 16
  let data := w / 2 ^ 3 % 2 ^ 16
  let served := fun (s : State) => s.setFld (R.AVS_STAT_LAST_TYPE m) ty
  if !s.ready (14 + m) || !s.flag (R.AVS_CFG_EN m) || w / 2 ^ 30 % 4 != 1 then s
  else if crc3 w ≠ w % 8 then (s.satAdd (R.AVS_STAT_CRC_CNT m) 1 255).avsReply m 2 0
  else if w / 2 ^ 27 % 2 ≠ 0 ∨ w / 2 ^ 19 % 16 ≠ 0 then s.avsReply m 3 0
  else
    let known := if cmd = 3 then (s.avsRead (avsLoop m) ty).isSome else if cmd = 0 then (s.avsWrite m ty data).isSome else cmd == 1 && ty == 0
    if !known then s.avsReply m 3 0
    else if s.loopState (avsLoop m) ≠ 2 then (served s).avsReply m 1 0
    else if cmd = 3 then (served s).avsReply m 0 ((s.avsRead (avsLoop m) ty).getD 0)
    else if cmd = 1 then
      (served (s.setReg (R.AVS_HOLD m) (BitVec.ofNat 32 (data + 2 ^ 16)))).avsReply m 0 0
    else (served ((s.avsWrite m ty data).getD s)).avsReply m 0 0

/-- A frame that is one of the row's: command `cmd` and data type `ty`, or any frame with a bad CRC. -/
def avsIs (cmd ty w : Nat) : Bool := (w / 2 ^ 28 % 4 == cmd && w / 2 ^ 23 % 16 == ty) || crc3 w != w % 8

/-- AVS_WRITE_COMMIT (R402). -/
def execAvsWriteCommit (m : Fin 2) (frame : BitVec 32) (s : State) : Res :=
  .next (if avsIs 0 0x0 frame.toNat then s.avsFrame m.val frame.toNat else s)

/-- AVS_WRITE_HOLD (R402). -/
def execAvsWriteHold (m : Fin 2) (frame : BitVec 32) (s : State) : Res :=
  .next (if frame.toNat / 2 ^ 28 % 4 = 1 then s.avsFrame m.val frame.toNat else s)

/-- AVS_VOLTAGE_READ. -/
def execAvsVoltageRead (m : Fin 2) (frame : BitVec 32) (s : State) : Res :=
  .next (if avsIs 3 0x0 frame.toNat then s.avsFrame m.val frame.toNat else s)

/-- AVS_RATE_READ. -/
def execAvsRateRead (m : Fin 2) (frame : BitVec 32) (s : State) : Res :=
  .next (if avsIs 3 0x1 frame.toNat then s.avsFrame m.val frame.toNat else s)

/-- AVS_RATE_WRITE. -/
def execAvsRateWrite (m : Fin 2) (frame : BitVec 32) (s : State) : Res :=
  .next (if avsIs 0 0x1 frame.toNat then s.avsFrame m.val frame.toNat else s)

/-- AVS_CURRENT_READ; a write of the type is answered with 0b11. -/
def execAvsCurrentRead (m : Fin 2) (frame : BitVec 32) (s : State) : Res :=
  .next (if avsIs 3 0x2 frame.toNat || avsIs 0 0x2 frame.toNat then s.avsFrame m.val frame.toNat else s)

/-- AVS_TEMPERATURE_READ; a write of the type is answered with 0b11. -/
def execAvsTemperatureRead (m : Fin 2) (frame : BitVec 32) (s : State) : Res :=
  .next (if avsIs 3 0x3 frame.toNat || avsIs 0 0x3 frame.toNat then s.avsFrame m.val frame.toNat else s)

/-- AVS_RESET_VOLTAGE; a read of the type is answered with 0b11. -/
def execAvsResetVoltage (m : Fin 2) (frame : BitVec 32) (s : State) : Res :=
  .next (if avsIs 0 0x4 frame.toNat || avsIs 3 0x4 frame.toNat then s.avsFrame m.val frame.toNat else s)

/-- AVS_STATUS_READ (R404); a write of the type is served and clears nothing. -/
def execAvsStatusRead (m : Fin 2) (frame : BitVec 32) (s : State) : Res :=
  .next (if avsIs 3 0xE frame.toNat || avsIs 0 0xE frame.toNat then s.avsFrame m.val frame.toNat else s)

/-- AVS_VERSION_READ; a frame of a data type that Table 11.7 does not list comes as this command too. -/
def execAvsVersionRead (m : Fin 2) (frame : BitVec 32) (s : State) : Res :=
  .next (
    let ty := frame.toNat / 2 ^ 23 % 16
    if ty = 0xF ∨ (5 ≤ ty ∧ ty ≤ 0xD) ∨ frame.toNat / 2 ^ 28 % 4 = 2 ∨ crc3 frame.toNat ≠ frame.toNat % 8 then
      s.avsFrame m.val frame.toNat
    else s)

end Sys2Proof.Machine
end

