-- ==== Sys2Proof/Machine/Bus.lean ====
section
/-! DEFINITION. Accesses to the register window and to the memories (01): what a register reads as, field by field privilege, the
64-bit pairs, refused accesses, and what a write does beside its store. -/

namespace Sys2Proof.Machine

/-! ## What registers read as -/

/-- A word with bit 31 set where the count in its low half is nonzero: the CLR bits (01, Table 1.24; 06, Table 6.8; 17, R595). -/
def withClr (w : Word) (n : Nat) : Word := if w.toNat % 2 ^ n = 0 then w else w ||| 0x80000000

/-- A flag as a number. -/
def b2n (b : Bool) : Nat := if b then 1 else 0

/-- Live registers of the domain PD0: fuses (01, Tables 1.14, 1.17), CLR bits, the watchdog's count and window (17, Table 17.10),
PLL locks (02, Table 2.8), operational states (17, R607). -/
def State.viewTap (s : State) (off : Nat) (w : Word) : Word :=
  if off = R.IDR_GRADE then (if s.fuses.gradeA1 then 0x04B00001 else w)
  else if off = R.IDR_UID_LO then s.fuses.uid.truncate 32
  else if off = R.IDR_UID_HI then (s.fuses.uid >>> 32).truncate 32
  else if off = R.IDR_ACC_CNT ∨ off = R.WDT_BAD ∨ (0x400 ≤ off ∧ off < 0xE00 ∧ off % 0x20 = 0x10) then withClr w 16
  else if off = R.WDT_STATUS then
    BitVec.ofNat 32 (min 65535 s.wdtCount + b2n (s.flag R.WDT_CTL_EN && s.wdtOpen s.wdtCount) * 2 ^ 16
      + b2n s.slow.wdtArmed.isSome * 2 ^ 17 + b2n s.pins.wdTrip * 2 ^ 18)
  else if off = R.PDC_PLL then
    (List.range 3).foldl (fun w p => if s.pll p = .running then w ||| BitVec.ofNat 32 (2 ^ p) else w) w
  else if 0x3000 ≤ off ∧ off < 0x3000 + 152 * 8 ∧ off % 8 = 4 then
    (R.OPS_OPER ((off - 0x3004) / 8)).put (b2n (s.oper ((off - 0x3004) / 8))) w
  else w

/-- Live registers of PD1-PD3: sensor ages (08, R291), the shutdown comparator (09, Table 9.8), PROV (10, R347), the PMBus address
(11, R366), fuses (03, Table 3.10), the store's BUSY (16, Table 16.11). -/
def State.viewRs (s : State) (off : Nat) (w : Word) : Word :=
  if 0x18400 ≤ off ∧ off < 0x18410 then (R.CNV_TEMP_AGE ((off - 0x18400) / 4)).put (s.tempAge ((off - 0x18400) / 4)) w
  else if off = R.FAN_SHDN then
    w ||| BitVec.ofNat 32 (b2n s.pins.tripTs + b2n s.pins.tripX * 2 + b2n s.pins.shdnLow * 4 + s.fld R.TAP_STRAP_TSHD * 16)
  else if R.BAT_SOC ≤ off ∧ off ≤ R.BAT_TTE then R.BAT_SOC_PROV.put (s.fld R.BAT_STATUS_PROVISIONAL) w
  else if off = R.TW_CFG 0 then (R.TW_CFG_ADDR 0).put s.pmAddr w
  else if off = R.NV_STATUS then R.NV_STATUS_BUSY.put (b2n s.nvBusy) w
  else if off = R.BOOT_FUSE then
    BitVec.ofNat 32 (s.fuses.minVer.toNat + s.fuses.revoked.toNat * 2 ^ 8 + b2n s.fuses.dbgDis * 2 ^ 12 + b2n s.fuses.recovEn * 2 ^ 13)
  else w

/-- The state word of thread `t` of bough `b` (06, Table 6.8). -/
def State.tstateWord (s : State) (b t : Nat) : Word :=
  let th := s.thr (64 * b + t)
  let code := match th.state with
    | .idle => 0
    | .run => 1
    | .wait => 2
    | .halted => 3
    | .done => 4
    | .unassigned => 5
  if th.state = .unassigned then BitVec.ofNat 32 (5 + th.cause.toNat * 2 ^ 16)
  else BitVec.ofNat 32 (code + th.row % 8 * 2 ^ 4 + th.tpri.toNat % 4 * 2 ^ 8 + th.cause.toNat * 2 ^ 16)

/-- Live registers of PD4-PD12: counts of the espalier (13, Table 13.13), shares of the rows (12, R418, R422, R436), row watchdogs,
threads. -/
def State.viewFabric (s : State) (off : Nat) (w : Word) : Word :=
  let r := (off - 0x28000) / 0x1000
  let o := off % 0x1000
  if off = R.ESP_STATUS then BitVec.ofNat 32 (s.esp.frames.length + s.waiting * 2 ^ 16)
  else if 0x20400 ≤ off ∧ off < 0x20800 ∧ off % 0x10 = 0xC then withClr w 16
  else if 0x20800 ≤ off ∧ off < 0x20880 ∧ off % 0x10 = 4 then BitVec.ofNat 32 (s.row ((off - 0x20800) / 0x10)).dispQ.length
  else if 0x28000 ≤ off ∧ off < 0x30000 then
    if o = 0x01C then BitVec.ofNat 32 (s.mappedCount r + s.borrowedCount r + s.mappedCount r * 2 ^ 16)
    else if o = 0x028 then BitVec.ofNat 32 (s.cellUse r)
    else if o = 0x108 then w ||| BitVec.ofNat 32 (min 65535 (s.rowWdtCount r))
    else if 0x200 ≤ o ∧ o < 0x300 ∧ o % 0x20 = 0x10 then
      (R.ROW_HQ_STAT_WAIT r ((o - 0x200) / 0x20)).put (s.hqWaiting r ((o - 0x200) / 0x20)).length w
    else w
  else if 0x30000 ≤ off ∧ off < 0x40000 then
    let b := (off - 0x30000) / 0x2000
    let o := off % 0x2000
    if o = 0x104 then withClr w 16
    else if 0x200 ≤ o ∧ o < 0x300 then s.tstateWord b ((o - 0x200) / 4)
    else w
  else w

/-- Live registers of PD13-PD15: USB state (15, Table 15.11), identifiers (12, Table 12.10), the current epoch (18, R643). -/
def State.viewLinks (s : State) (off : Nat) (w : Word) : Word :=
  if off = R.USB_STATUS then R.USB_STATUS_STATE.put s.usbState w
  else if off = R.USB_RESUME_CNT then withClr w 31
  else if off = R.PCIE_ID then R.PCIE_ID_VENDOR.put s.fuses.vendor.toNat w
  else if off = R.GRAFT_STATUS then
    match s.currentBank with
    | some (k, _) => R.GRAFT_STATUS_BANK.put k (R.GRAFT_STATUS_NONE.put 0 w)
    | none => R.GRAFT_STATUS_BANK.put 0 (R.GRAFT_STATUS_NONE.put 1 w)
  else if off = R.GRAFT_EPOCH then
    match s.currentBank with
    | some (_, e) => BitVec.ofNat 32 e
    | none => 0
  else if off = R.GRAFT_AGE then BitVec.ofNat 32 s.graftAge
  else w

/-- Whether a level is that of row `o`, or warden (16, R573). -/
def Level.mayRead (l : Level) (o : Nat) : Bool := l.inRow o

/-- The jobs registers (16, Table 16.11): slots held and records queued of an owner, progress and POSITION of a tag (R570, R573). -/
def State.viewJobs (s : State) (lvl : Level) (off : Nat) (w : Word) : Word :=
  if off < 0x24240 ∧ off % 0x40 = 0x20 then
    let o := (off - 0x24000) / 0x40
    w ||| BitVec.ofNat 32 ((s.jobs.list.filter (fun j => j.owner == o)).length % 2 ^ 8 + (tabGet [] o s.jobs.cpl).length % 2 ^ 8 * 2 ^ 8)
  else if 0x26000 ≤ off then
    match s.job ((off - 0x26000) / 8) with
    | some j =>
      if !lvl.mayRead j.owner then 0
      else if off % 8 = 4 then BitVec.ofNat 32 (s.jobPos j)
      else
        let st := match j.state with
          | .queued => 1
          | .running => 2
          | .done => 3
        BitVec.ofNat 32 (s.jobPct j % 2 ^ 14 + st * 2 ^ 16 + j.owner % 16 * 2 ^ 20 + j.op % 256 * 2 ^ 24)
    | none => 0
  else w

/-- The bits of a register that a read shows: RSV and WO fields read 0 (00, Table 0.6). -/
def RegRow.shown (r : RegRow) : Word := r.bits (fun f => f.acc != .wo && f.acc != .rsv)

/-- What the register at `off` reads as to a requester of level `lvl`, before the effects of the read. -/
def State.regView (s : State) (lvl : Level) (off : Nat) : Word :=
  let w := match regRow off with
    | some r => s.reg off &&& r.shown
    | none => 0
  if off < 0x10000 then s.viewTap off w
  else if off < 0x20000 then s.viewRs off w
  else if off < 0x24000 then s.viewFabric off w
  else if off < 0x28000 then s.viewJobs lvl off w
  else if off < 0x40000 then s.viewFabric off w
  else if off < 0x60000 then s.viewLinks off w
  else s.viewRs off w

/-! ## Reads of the register window -/

/-- The answer to an access: the result code of 11, R388 (0 OK, 1 PRIV, 2 NRDY, 3 UNMAPPED, 4 WIDTH; 5 an uncorrected memory
error), the value, and the state after it. -/
structure Ans where
  code : Nat
  val : Nat
  st : State

/-- A refused access to device address `addr`. -/
def State.refused (s : State) (k : RefKind) (req : Req) (addr : Nat) (write : Bool) (val : Nat) : Ans :=
  let code := match k with
    | .unmapped => 3
    | .nrdy => 2
    | .width => 4
    | .priv => 1
  ⟨code, val, s.refuse k req addr write 0⟩

/-- A read of NV_RD_DATA (16, "The store"): the word at ADDR, which advances by 4 with wrap; an uncorrected error gives a free
value. -/
def State.nvTake (s : State) : Word × State :=
  let a := 4 * s.fld R.NV_RD_ADDR_ADDR
  let r := s.nvRead a 4
  let v := match r.1 with
    | some bs => (BitVec.ofNat 32 (leNat bs), r.2)
    | none => (r.2.nextFree, r.2.tookFree)
  (v.1, v.2.setFld R.NV_RD_ADDR_ADDR (a / 4 + 1))

/-- A read of the defined register at `off`, with its effects: the pair shadows (R28, R29), the random word (03, R96), the retention
word (02, R52), the completion records (16, R572), the store's read window. -/
def State.readEffect (s : State) (req : Req) (h : Half) (off : Nat) : Word × State :=
  let v := s.regView (s.level req) off
  let q := reqCode req
  match h with
  | .lo => (v, { s with rdShadow := tabPut q (off, s.regView (s.level req) (off + 4)) s.rdShadow })
  | .hi => match tabFind q s.rdShadow with
    | some (o, w) => if o + 4 = off then (w, { s with rdShadow := tabDel q s.rdShadow }) else (v, s)
    | none => (v, s)
  | .whole =>
    if off = R.SEC_RNG_DATA then s.rngTake
    else if off = R.TAP_RRAM_DATA then s.rramRead
    else if off = R.NV_RD_DATA then s.nvTake
    else if 0x24000 ≤ off ∧ off < 0x24240 ∧ 0x10 ≤ off % 0x40 ∧ off % 0x40 < 0x20 then
      if off % 0x40 = 0x10 then s.cplTake q ((off - 0x24000) / 0x40)
      else ((tabGet [] q s.jobs.cplShadow).getD ((off % 0x40 - 0x10) / 4) 0, s)
    else (v, s)

/-- A read of the aligned word at window offset `off` (R23, R36). -/
def State.winRead (s : State) (req : Req) (off : Nat) : Ans :=
  if !s.granted (domainOf off) then s.refused .nrdy req (0xF000000000 + off) false 0xFFFFFFFF
  else match regRow off with
    | none => s.refused .unmapped req (0xF000000000 + off) false 0
    | some r => let x := s.readEffect req r.half off
                ⟨0, x.1.toNat, x.2⟩

/-! ## Privilege of writes -/

/-- The thread that a bough block's thread register at `off` names. -/
def thrAtReg (off base : Nat) : Nat := (off - 0x30000) / 0x2000 * 64 + (off % 0x2000 - base) / 4

/-- Whether a requester may write a field of privilege `p` of the register at `off` (R19, Table 3.7; the chapters' register
sections). -/
def State.mayWrite (s : State) (req : Req) (off : Nat) (p : Priv) : Bool :=
  let l := s.level req
  match p with
  | .warden => l == .warden
  | .anyone | .eventPost | .threadCmd => true
  | .rowSupv => l.supervises ((off - 0x28000) / 0x1000)
  | .rootstock => req == .rootstock
  | .batRestore => l == .warden || req == .pf0Bar4
  | .staging => l == .warden || ((req == .pf0Bar4 || req == .bar0 0) && s.stagingOpen)
  | .jobOwner =>
    let o := (off - 0x24000) / 0x40
    if o = 8 then req == .rootstock else l.supervises o
  | .threadTsp => s.supervisesThr l (thrAtReg off 0x300)
  | .gateRow => l == .warden || (match req, portAt off with
    | .thread t, some (p, _) => (s.thr t.val).state != .unassigned && (s.thr t.val).row == s.fld (R.PORT_CTL_GROW p)
    | _, _ => false)

/-- What a write does to a register by its access codes (00, Table 0.6; R19). -/
structure Judged where
  /-- The word after the write. -/
  new : Word
  /-- The written bits that the requester may write and that act. -/
  eff : Word
  /-- Whether any field may be written. -/
  any : Bool
  /-- Whether the write counts as refused. -/
  refused : Bool

/-- Judges a write of `wr` to a register of row `r` that holds `old`, `may` telling which fields the requester may write and
`locked` whether RWL fields are locked. The key registers keep what is written, though they read 0. -/
def RegRow.judge (r : RegRow) (may : Priv → Bool) (locked : Bool) (old wr : Word) : Judged :=
  let ok := r.bits (fun f => may (f.privIn r))
  let rw := r.bits (fun f => f.acc == .rw || f.acc == .rwl)
  let take := r.bits (fun f => f.acc == .rw || (f.acc == .rwl && !locked)
    || (f.acc == .wo && decide (0x4F000 ≤ r.base) && decide (r.base < 0x4F03C))) &&& ok
  let act := r.bits (fun f => f.acc == .w1c || f.acc == .w1s || f.acc == .wo)
  let eff := wr &&& (take ||| (act &&& ok))
  let v := (old &&& ~~~ take) ||| (wr &&& take)
  let v := (v &&& ~~~ (eff &&& r.bits (fun f => f.acc == .w1c))) ||| (eff &&& r.bits (fun f => f.acc == .w1s))
  ⟨v, eff, ok != 0, (((old ^^^ wr) &&& rw) ||| (wr &&& act)) &&& ~~~ ok != 0⟩

/-! ## What writes do beside their store -/

/-- Ends the espalier's request of each bough whose ESP_BREQ bit a write has cleared (13, R479). -/
def State.endBreq (s : State) (mask : Nat) : State :=
  (List.range 8).foldl (fun s b => if mask.testBit b then (s.setHwReq (4 + b) false).judgeDomain (4 + b) else s) s

/-- The espalier, the device time base and the key port. -/
def State.espHook (s : State) (off : Nat) (old eff : Word) : State :=
  if off = R.ESP_BREQ then s.endBreq (old &&& eff).toNat
  else if 0x20400 ≤ off ∧ off < 0x20800 ∧ off % 0x10 = 0xC then (if bitOf eff 31 then s.setReg off 0 else s)
  else if off = R.DTB_CMD then (if eff.toNat % 4 = 1 then s.dtbStep else if eff.toNat % 4 = 2 then s.dtbSlew else s)
  else s

/-- The block of Table 17.9 whose _FAULT_EN register lies at `off`. -/
def faultEnBlock (off : Nat) : Option Nat :=
  (List.range 80).find? (fun b => decide (1 ≤ b) && !(decide (24 ≤ b) && decide (b < 32)) && faultStatusOff b + 4 == off)

/-- R589: an EN bit that rises while its status bit is 1 posts one event. -/
def State.enRise (s : State) (off : Nat) (old : Word) : State :=
  match faultEnBlock off with
  | some b =>
    let up := s.reg off &&& ~~~ old &&& s.reg (faultStatusOff b)
    (List.range 32).foldl (fun s i => if bitOf up i then s.event (s.faultRoute b) else s) s
  | none => s

/-- What a write does beside its store: `old` is the word before it, `eff` the written bits that act, `pass` the result of a
restarted random number test. -/
def State.hook (s : State) (off : Nat) (old eff : Word) (pass : Bool) : State :=
  let s := s.enRise off old
  if off < 0x1000 then s.fltHook off old eff
  else if off < 0x1100 then s.tapHook off eff
  else if off < 0x2000 then s.fltHook off old eff
  else if off < 0x3000 then s.tapHook off eff
  else if off < 0x10000 then s.fltHook off old eff
  else if off < 0x18000 then s.loopHook off old eff
  else if off < 0x1A000 then s.cnvHook off old eff
  else if off < 0x1B000 then s.fanHook off
  else if off < 0x1C000 then s.batHook off old eff
  else if off < 0x1E000 then s.twHook off eff
  else if off < 0x20000 then s.govHook off old eff
  else if off < 0x28000 then s.espHook off old eff
  else if off < 0x30000 then s.rowHook off old eff
  else if off < 0x40000 then (if off % 0x2000 = 0x104 ∧ bitOf eff 31 = true then s.setReg off 0 else s)
  else if off = R.MSEC_CMD then (if bitOf eff 0 then s.commitSa else s)
  else if off < 0x50000 then
    match portAt off with
    | some (p, o) => s.portHook p o off old eff
    | none => s
  else if off < 0x54000 then s.usbHook off eff
  else if off < 0x58000 then s
  else if off < 0x5C000 then s.graftHook off old eff
  else if off < 0x60000 then
    if off = R.RING_CTL then
      let s := if bitOf eff 0 then s.ringStart else s
      if bitOf eff 1 then s.ringStop else s
    else s
  else if off < 0x64000 then s
  else s.secHook off eff pass

/-! ## Writes of the register window -/

/-- Whether the window offset is a row's WDT_KEY. -/
def isRowKey (off : Nat) : Bool := decide (0x28000 ≤ off) && decide (off < 0x30000) && off % 0x1000 == 0x104

/-- How a write of the register at `off` is judged (R19). -/
def State.judged (s : State) (req : Req) (r : RegRow) (off : Nat) (wr : Word) : Judged :=
  r.judge (s.mayWrite req off) (s.flag R.WDT_CTL_LOCK) (s.reg off) wr

/-- Whether a write counts as refused for privilege: R19, and the rules of the registers that judge a write as a whole (06, R192, R211;
16, R566; 17, R616, R621). -/
def State.writeRefused (s : State) (req : Req) (r : RegRow) (off : Nat) (wr : Word) : Bool :=
  let l := s.level req
  if off = R.WDT_KEY then l != .warden
  else if isRowKey off then !s.mayServe req ((off - 0x28000) / 0x1000)
  else if 0x24000 ≤ off ∧ off < 0x24240 ∧ off % 0x40 = 4 then
    !(s.mayWrite req off .jobOwner)
  else match r.priv with
    | .eventPost => !s.mayPost l ((off - 0x30000) / 0x2000 * 64 + wr.toNat % 64)
    | .threadCmd => wr.toNat / 2 ^ 30 != 0 && !s.supervisesThr l (thrAtReg off 0x200)
    | _ => (s.judged req r off wr).refused

/-- A write of a register that is no half of a pair: the fields the requester may write take their values, then the effects follow.
TAP_RRAM_DATA, the watchdog keys and the thread registers of a bough are written by their own rules. -/
def State.writeWhole (s : State) (req : Req) (r : RegRow) (off : Nat) (wr : Word) (pass : Bool) : State :=
  let refused := s.writeRefused req r off wr
  let old := s.reg off
  let j := s.judged req r off wr
  let s := if refused then s.refuse .priv req (0xF000000000 + off) true 0 else s
  if off = R.TAP_RRAM_DATA then s.rramWrite wr
  else if off = R.WDT_KEY then s.wdtKey (!refused) wr
  else if isRowKey off then (if refused then s else s.rowWdtKey ((off - 0x28000) / 0x1000) wr)
  else match r.priv with
    | .eventPost =>
      if refused then s else s.postMask ((off - 0x30000) / 0x2000 * 64 + wr.toNat % 64) ((wr >>> 8).truncate 8)
    | .threadCmd => if refused then s else s.threadCmd (thrAtReg off 0x200) (wr.toNat / 2 ^ 30)
    | _ => if j.any then (s.setReg off j.new).hook off old j.eff pass else s

/-- A write of the lower half of a pair is held (R30), that of a pair that cannot be written too where its field may be (log 68). -/
def State.writeLo (s : State) (req : Req) (r : RegRow) (off : Nat) (wr : Word) : State :=
  let refused := s.writeRefused req r off wr
  let j := s.judged req r off wr
  let s := if refused then s.refuse .priv req (0xF000000000 + off) true 0 else s
  if j.any then { s with wrShadow := tabPut (reqCode req) (off, wr) s.wrShadow } else s

/-- The word of the lower half at `lo` that a commit by `req` writes: the one held for the pair, else the current one (R30). -/
def State.heldLo (s : State) (req : Req) (lo : Nat) : Word :=
  match tabFind (reqCode req) s.wrShadow with
  | some (o, w) => if o = lo then w else s.reg lo
  | none => s.reg lo

/-- The write shadow after a commit of the pair at `lo`. -/
def State.dropLo (s : State) (req : Req) (lo : Nat) : State :=
  match tabFind (reqCode req) s.wrShadow with
  | some (o, _) => if o = lo then { s with wrShadow := tabDel (reqCode req) s.wrShadow } else s
  | none => s

/-- A write of the upper half of a pair commits both halves (R30); a commit of JOB_o_SUBMIT submits a job (16, R565). -/
def State.writeHi (s : State) (req : Req) (r : RegRow) (off : Nat) (wr : Word) : State :=
  let lo := off - 4
  let refused := s.writeRefused req r off wr
  let held := s.heldLo req lo
  let old := s.reg off
  let j := s.judged req r off wr
  let jl := match regRow lo with
    | some rl => (s.judged req rl lo held).new
    | none => s.reg lo
  let s := if refused then s.refuse .priv req (0xF000000000 + off) true 0 else s
  if 0x24000 ≤ off ∧ off < 0x24240 then
    if refused then s
    else (s.dropLo req lo).submitAt ((off - 0x24000) / 0x40) req (bitOf wr 31) (held.toNat + wr.toNat % 2 ^ 8 * 2 ^ 32)
  else if j.any then (((s.dropLo req lo).setReg lo jl).setReg off j.new).hook off old j.eff false
  else s

/-- Whether a write to a host queue register finds the row in reset (12, R446). -/
def State.hqBusy (s : State) (off : Nat) : Bool :=
  decide (0x28000 ≤ off ∧ off < 0x30000 ∧ 0x200 ≤ off % 0x1000 ∧ off % 0x1000 < 0x300)
    && s.flag (R.ROW_STATUS_RST_BUSY ((off - 0x28000) / 0x1000))

/-- A write of the aligned word at window offset `off` (R19, R23, R36). `pass` is the result of the tests that a write to
SEC_RNG_CTL restarts. -/
def State.winWriteWith (s : State) (req : Req) (off : Nat) (wr : Word) (pass : Bool) : Ans :=
  let addr := 0xF000000000 + off
  if !s.granted (domainOf off) then s.refused .nrdy req addr true 0
  else match regRow off with
    | none => s.refused .unmapped req addr true 0
    | some r =>
      let code := b2n (s.writeRefused req r off wr)
      if s.hqBusy off && s.mayWrite req off .rowSupv then ⟨0, 0, s.rowCfgErr ((off - 0x28000) / 0x1000)⟩
      else match r.half with
        | .whole => ⟨code, 0, s.writeWhole req r off wr pass⟩
        | .lo => ⟨code, 0, s.writeLo req r off wr⟩
        | .hi => ⟨code, 0, s.writeHi req r off wr⟩

/-- A write of the window by one of the general routes: a restart of the random number generator passes or fails as a free value
says. -/
def State.winWrite (s : State) (req : Req) (off : Nat) (wr : Word) : Ans :=
  if off = R.SEC_RNG_CTL then s.tookFree.winWriteWith req off wr (s.nextFree.toNat % 2 == 1) else s.winWriteWith req off wr false

/-! ## Accesses to device addresses (01, R11-R15, R23, R36, R37, R706; 12, R449) -/

/-- What every byte of an access to a domain that is off reads as. -/
def allOnes (n : Nat) : Nat := 2 ^ (8 * n) - 1

/-- Whether PF 0's BAR4 may not reach the packet buffer (12, R449; 03, R89). -/
def State.bufBarred (s : State) (req : Req) (write : Bool) : Bool :=
  req == .pf0Bar4 && s.level req != .warden && !(write && s.stagingOpen)

/-- The window offset that an access of `n` bytes at `addr` names, where it lies in the window. -/
def inWindow (addr : Nat) : Option Nat := if 0xF000000000 ≤ addr ∧ addr < 0xF000068000 then some (addr - 0xF000000000) else none

/-- Joins the answers of the two halves of a 64-bit access: the first refusal is the answer's code. -/
def Ans.join (a b : Ans) : Ans := ⟨if a.code = 0 then b.code else a.code, a.val + b.val * 2 ^ 32, b.st⟩

/-- A read of `n` bytes at device address `addr`. The checks of the register window come in the order NRDY, R706, R37, R36: an access of
wrong width or alignment is answered under R37 also where no register is defined (log 29). -/
def State.busRead (s : State) (req : Req) (addr n : Nat) : Ans :=
  match inWindow addr with
  | some off =>
    if n = 4 ∧ addr % 4 = 0 then s.winRead req off
    else if n = 8 ∧ addr % 8 = 0 then
      let a := s.winRead req off
      a.join (a.st.winRead req (off + 4))
    else if !s.granted (domainOf off) then s.refused .nrdy req addr false (allOnes n)
    else if (memAt addr n).isNone then s.refused .unmapped req addr false 0
    else s.refused .width req addr false 0
  | none =>
    if (regionDomain addr).any (fun d => !s.granted d) then s.refused .nrdy req addr false (allOnes n)
    else match memAt addr n with
      | none => s.refused .unmapped req addr false 0
      | some m =>
        if s.bufBarred req false then s.refused .priv req addr false 0
        else match s.memReadAll m addr n with
          | (some bs, t) => ⟨0, leNat bs, t⟩
          | (none, t) => ⟨5, 0, t⟩

/-- A write of the `n` low bytes of `v` at device address `addr`. -/
def State.busWrite (s : State) (req : Req) (addr n v : Nat) : Ans :=
  match inWindow addr with
  | some off =>
    if n = 4 ∧ addr % 4 = 0 then s.winWrite req off (BitVec.ofNat 32 v)
    else if n = 8 ∧ addr % 8 = 0 then
      let a := s.winWrite req off (BitVec.ofNat 32 v)
      a.join (a.st.winWrite req (off + 4) (BitVec.ofNat 32 (v / 2 ^ 32)))
    else if !s.granted (domainOf off) then s.refused .nrdy req addr true 0
    else if (memAt addr n).isNone then s.refused .unmapped req addr true 0
    else s.refused .width req addr true 0
  | none =>
    if (regionDomain addr).any (fun d => !s.granted d) then s.refused .nrdy req addr true 0
    else match memAt addr n with
      | none => s.refused .unmapped req addr true 0
      | some m =>
        if s.bufBarred req true then s.refused .priv req addr true 0
        else if addr % 4 + n ≤ 4 then
          let r := s.memWrite m addr (leBytes n v)
          ⟨if r.1 then 0 else 5, 0, r.2⟩
        else ⟨0, 0, s.memWriteAll m (n + 1) addr (leBytes n v)⟩

end Sys2Proof.Machine
end

