-- ==== Sys2Proof/Machine/Fankoec.lean ====
section
/-! DEFINITION. The Fankoec protocol (15, R551-R558) over USB and over the mailboxes, the parts of BAR0 that are no registers of the
window (12, Table 12.6: MSI-X table, pending bits, mailbox), and an access by any requester. -/

namespace Sys2Proof.Machine

/-! ## Frames (Table 15.5) -/

/-- A response to request `d` (R552). -/
def fkReply (d : Bytes) (status : Nat) (payload : Bytes) : Bytes :=
  let h : Bytes := [0x46, 0x4B, 1, d.getD 3 0, d.getD 4 0, d.getD 5 0] ++ leBytes 2 payload.length ++ [BitVec.ofNat 8 status, 1, 0, 0]
    ++ payload
  h ++ leBytes 4 (crc32Ieee h)

/-- LEN of a frame. -/
def fkLen (d : Bytes) : Nat := leNat (slice 6 2 d)

/-- The payload of a frame. -/
def fkPayload (d : Bytes) : Bytes := slice 12 (fkLen d) d

/-- Word `i` of the payload. -/
def fkWord (d : Bytes) (i : Nat) : Nat := leNat (slice (12 + 4 * i) 4 d)

/-- The opcodes of Table 15.6; those of authentication are defined on USB alone (R558). -/
def fkOpcodes (usb : Bool) : List Nat :=
  [0x01, 0x05, 0x10, 0x11, 0x30, 0x31] ++ (if usb then [0x02, 0x03, 0x04] else [])

/-- The level of a requester on the scale of Table 15.6 (R555, R558). -/
def State.fkLevel (s : State) (req : Req) : Nat :=
  match s.level req with
  | .warden => 2
  | .sv _ | .svAll => 1
  | _ => 0

/-- The first failing check of a request, 0 where none fails (R551). -/
def State.fkCheck (s : State) (req : Req) (d : Bytes) : Nat :=
  let op := (d.getD 3 0).toNat
  if d.take 3 ≠ [0x46, 0x4B, 1] then 1
  else if d.length ≠ 16 + fkLen d ∨ fkLen d % 4 ≠ 0 ∨ 1008 < fkLen d then 3
  else if crc32Ieee (d.take (12 + fkLen d)) ≠ leNat (slice (12 + fkLen d) 4 d) then 2
  else if !(fkOpcodes (req == .usb)).contains op then 4
  else if 0x10 ≤ op ∧ s.fkLevel req = 0 then 5
  else 0

/-- Whether a request's payload has the length that Table 15.6 gives its opcode. -/
def fkSized (d : Bytes) : Bool :=
  let n := fkLen d
  match (d.getD 3 0).toNat with
  | 0x03 => n == 68
  | 0x10 => n == 8 && decide (1 ≤ fkWord d 1 ∧ fkWord d 1 ≤ 252)
  | 0x11 => decide (8 ≤ n ∧ n ≤ 1008)
  | 0x30 => n == 36
  | 0x31 => n == 8
  | _ => n == 0

/-! ## The opcodes -/

/-- HELLO. -/
def State.fkHello (s : State) (req : Req) : Bytes :=
  let v := fun (off : Nat) => (s.regView (s.level req) off).toNat
  [v R.IDR_PART, v R.IDR_REV, v R.IDR_UID_LO, v R.IDR_UID_HI, s.fkLevel req, 1008].flatMap (leBytes 4)

/-- AUTH_CHALLENGE: a fresh nonce. -/
def State.fkChallenge (s : State) : Bytes × State :=
  (s.freshNonce, { s.tookFree with usb := { s.usb with nonce := some s.freshNonce } })

/-- A refused AUTH_RESPONSE (R556). -/
def State.fkRefused (s : State) : State :=
  let n := min 3 (s.fld R.USB_FK_FAILS + 1)
  let s := s.setFld R.USB_FK_FAILS n
  if n = 3 then (s.setFld R.USB_FK_LOCKOUT 1).fault 77 5 else s

/-- AUTH_RESPONSE (R555, R556): the status and the state after it. -/
def State.fkResponse (s : State) (d : Bytes) : Nat × State :=
  let level := d.getD 12 0
  let sig := BitVec.ofNat 512 (beNat (slice 16 64 d))
  if s.flag R.USB_FK_LOCKOUT then (8, s)
  else
    let ok := match s.usb.nonce with
      | some n => (level == 1 || level == 2) && s.ownerSigned n level sig
      | none => false
    let s := s.updUsb (fun u => { u with nonce := none })
    if ok then (0, s.setFld R.USB_FK_LEVEL level.toNat) else (7, s.fkRefused)

/-- REG_READ from word `i` on (R553, R554): the words, or the index and the code of the refused one. -/
def State.fkRead (s : State) (req : Req) (off : Nat) : Nat → Nat → Bytes → Nat × Bytes × State
  | 0, _, acc => (0, acc, s)
  | n + 1, i, acc =>
    let a := s.busRead req (0xF000000000 + off + 4 * i) 4
    if a.code = 0 then State.fkRead a.st req off n (i + 1) (acc ++ leBytes 4 a.val)
    else (6, leBytes 4 i ++ leBytes 4 a.code, a.st)

/-- REG_WRITE of the words of `ws` from index `i` on (R553, R554). -/
def State.fkWrite (s : State) (req : Req) (off : Nat) : List Nat → Nat → Nat × Bytes × State
  | [], _ => (0, [], s)
  | w :: ws, i =>
    let a := s.busWrite req (0xF000000000 + off + 4 * i) 4 w
    if a.code = 0 then State.fkWrite a.st req off ws (i + 1) else (6, leBytes 4 i ++ leBytes 4 a.code, a.st)

/-- Whether a requester may name row `r` (Table 15.6, R558). -/
def State.fkRowOk (s : State) (req : Req) (r : Nat) : Bool := decide (r < 8) && (s.level req).supervises r

/-- JOB_SUBMIT: the RESULT word of an accepted job (16, "The job interface"; log 76), the refusal's status of another. -/
def State.fkSubmit (s : State) (req : Req) (d : Bytes) : Nat × Bytes × State :=
  let r := fkWord d 0
  if !s.fkRowOk req r then (5, [], s)
  else if !s.ready 17 then (9, leBytes 4 6, s)
  else
    let x := s.submit r (s.level req == .warden) (slice 16 32 d)
    if bitOf x.1 30 then (0, leBytes 4 x.1.toNat, x.2) else (9, leBytes 4 (x.1.toNat % 256), x.2)

/-- JOB_READ: the completion record of a job that has ended, else its progress and POSITION (R573). -/
def State.fkJobRead (s : State) (req : Req) (d : Bytes) : Nat × Bytes :=
  let r := fkWord d 0
  let t := fkWord d 1
  if !s.fkRowOk req r then (5, [])
  else match (tabGet [] r s.jobs.cpl).find? (fun c => c.tag == t) with
    | some c => (0, (c.words.map (fun w => leBytes 4 w.toNat)).flatten)
    | none =>
      if (s.job t).any (fun j => j.owner == r) then
        (0, leBytes 4 (s.viewJobs .warden (R.JOB_PROG t) 0).toNat ++ leBytes 4 (s.viewJobs .warden (R.JOB_POS t) 0).toNat)
      else (0, List.replicate 8 0)

/-- Handles one request and gives its response. -/
def State.fankoec (s : State) (req : Req) (d : Bytes) : Bytes × State :=
  let c := s.fkCheck req d
  if c ≠ 0 then (fkReply d c [], s)
  else if !fkSized d then (fkReply d 3 [], s)
  else match (d.getD 3 0).toNat with
    | 0x01 => (fkReply d 0 (s.fkHello req), s)
    | 0x02 => let x := s.fkChallenge
              (fkReply d 0 x.1, x.2)
    | 0x03 => let x := s.fkResponse d
              (fkReply d x.1 [], x.2)
    | 0x04 => (fkReply d 0 [], s.setFld R.USB_FK_LEVEL 0)
    | 0x05 => (fkReply d 0 (leBytes 4 (s.reg R.IDR_READY_0).toNat ++ leBytes 4 (s.reg R.IDR_READY_1).toNat), s)
    | 0x10 => let x := s.fkRead req (fkWord d 0) (fkWord d 1) 0 []
              (fkReply d x.1 x.2.1, x.2.2)
    | 0x11 => let x := s.fkWrite req (fkWord d 0) ((List.range (fkLen d / 4 - 1)).map (fun i => fkWord d (i + 1))) 0
              (fkReply d x.1 x.2.1, x.2.2)
    | 0x30 => let x := s.fkSubmit req d
              (fkReply d x.1 x.2.1, x.2.2)
    | _ => let x := s.fkJobRead req d
           (fkReply d x.1 x.2, s)

/-! ## Requests over USB (R534, R535) -/

/-- The opcode of the request that waits at the head, if a whole one does. -/
def State.fkHead (s : State) : Option Nat := if s.usb.whole then some (s.usb.rx.getD 3 0).toNat else none

/-- Handles the request at the head, queues the packets of its response on EP1 IN and takes the next one from the buffers. A request that
detaches the device has its effects and no response (R560). -/
def State.fkServe (s : State) : State :=
  let x := s.fankoec .usb s.usb.rx
  if x.2.usb.pullup then
    x.2.updUsb (fun u => UsbSt.drain s.maxPacket { u with resp := u.resp ++ packets s.maxPacket x.1, rx := [], whole := false })
  else x.2

/-- HELLO. A request of an opcode that no command names is handled here too (R551). -/
def execFankoecHello (s : State) : Res :=
  .next (
    match s.fkHead with
    | some op => if op = 0x01 ∨ !(fkOpcodes true).contains op then s.fkServe else s
    | none => s)

/-- AUTH_CHALLENGE. -/
def execAuthChallenge (s : State) : Res := .next (if s.fkHead = some 0x02 then s.fkServe else s)

/-- AUTH_RESPONSE (R555, R556). -/
def execAuthResponse (s : State) : Res := .next (if s.fkHead = some 0x03 then s.fkServe else s)

/-- LOGOUT (R557). -/
def execLogout (s : State) : Res := .next (if s.fkHead = some 0x04 then s.fkServe else s)

/-- READY_MAP. -/
def execReadyMap (s : State) : Res := .next (if s.fkHead = some 0x05 then s.fkServe else s)

/-- REG_READ (R553, R554). -/
def execRegRead (s : State) : Res := .next (if s.fkHead = some 0x10 then s.fkServe else s)

/-- REG_WRITE (R553, R554). -/
def execRegWrite (s : State) : Res := .next (if s.fkHead = some 0x11 then s.fkServe else s)

/-- JOB_SUBMIT over Fankoec. -/
def execFankoecJobSubmit (s : State) : Res := .next (if s.fkHead = some 0x30 then s.fkServe else s)

/-- JOB_READ. -/
def execJobRead (s : State) : Res := .next (if s.fkHead = some 0x31 then s.fkServe else s)

/-! ## The mailbox (12, R438-R440) -/

/-- The requester of a frame in the mailbox of PF `r`: it takes the privilege of its function (12, Table 12.2; R558), and that of PF 0 is
warden while PCIE_HOSTPRIV.PF0_WARDEN is 1. -/
def mailReq (r : Fin 8) : Req := if r = 0 then .pf0Bar4 else .bar0 r

/-- The exchange that a GO with a good LEN starts: the response goes to OUT, its length in words to RLEN, DONE is set and the event
raised. -/
def State.mailbox (s : State) (r : Fin 8) (len : Nat) : State :=
  let req := List.take len ((List.range 1024).map (fun i => tabGet 0 i (s.row r.val).mbIn))
  let x := s.fankoec (mailReq r) req
  let vec := (x.2.row r.val).mbCtl.toNat / 2 ^ 16 % 32
  let s := x.2.updRow r.val (fun b => { b with
    mbOut := (List.range x.1.length).foldl (fun t i => tabSet 0 i (x.1.getD i 0) t) b.mbOut
    mbCtl := (b.mbCtl &&& ~~~ 0xFF00) ||| BitVec.ofNat 32 (x.1.length / 4 % 256 * 2 ^ 8 + 4) })
  s.event (BitVec.ofNat 32 (2 + vec * 2 ^ 8 + r.val * 2 ^ 16))

/-- A write of MBX_CTL by PF `r` (R438-R440, Table 12.10). -/
def State.mbxCtl (s : State) (r : Fin 8) (w : Word) : State :=
  let busy := bitOf (s.row r.val).mbCtl 1
  let s := s.updRow r.val (fun b => { b with mbCtl := (b.mbCtl &&& ~~~ (w &&& 0x1C) &&& 0xFFFF) ||| (w &&& 0xFFFF0000) })
  let len := w.toNat / 2 ^ 21
  if !bitOf w 0 then s
  else if busy then s.updRow r.val (fun b => { b with mbCtl := b.mbCtl ||| 0x10 })
  else if len = 0 ∨ 1024 < len then s.updRow r.val (fun b => { b with mbCtl := b.mbCtl ||| 0xC })
  else s.mailbox r len

/-- MAILBOX_GO: PF `r` writes MBX_CTL with GO = 1. -/
def execMailboxGo (r : Fin 8) (len : BitVec 11) (vec : BitVec 5) (s : State) : Res :=
  .next (if s.granted 15 then s.mbxCtl r (BitVec.ofNat 32 (1 + vec.toNat * 2 ^ 16 + len.toNat * 2 ^ 21)) else s)

/-! ## BAR0 beside the row block (12, Table 12.6) -/

/-- A word of the MSI-X table, the pending bits or the mailbox of PF `r`. -/
def State.boxRead (s : State) (r off : Nat) : Word :=
  let b := s.row r
  let bytes := fun (t : Tab Byte) (i : Nat) => BitVec.ofNat 32 (leNat ((List.range 4).map (fun k => tabGet 0 (i + k) t)))
  if off < 0x9000 then
    let e := s.msixEntry r ((off - 0x8000) / 16)
    match off / 4 % 4 with
    | 0 => e.addr.truncate 32
    | 1 => (e.addr >>> 32).truncate 32
    | 2 => e.data
    | _ => if e.masked then 1 else 0
  else if off < 0xA000 then (if off = 0x9000 then b.msixPend else 0)
  else if off < 0xA400 then bytes b.mbIn (off - 0xA000)
  else if off < 0xA800 then bytes b.mbOut (off - 0xA400)
  else b.mbCtl

/-- A write of such a word: the OUT buffer and the pending bits are the device's. -/
def State.boxWrite (s : State) (r : Fin 8) (off : Nat) (w : Word) : State :=
  if off < 0x9000 then
    let v := (off - 0x8000) / 16
    let e := s.msixEntry r.val v
    let e := match off / 4 % 4 with
      | 0 => { e with addr := (e.addr >>> 32 <<< 32) ||| w.zeroExtend 64 }
      | 1 => { e with addr := (e.addr.truncate 32 : Word).zeroExtend 64 ||| (w.zeroExtend 64 <<< 32) }
      | 2 => { e with data := w }
      | _ => { e with masked := bitOf w 0 }
    s.updRow r.val (fun b => { b with msix := tabSet {} v e b.msix })
  else if off < 0xA000 then s
  else if off < 0xA400 then
    if bitOf (s.row r.val).mbCtl 1 then s.updRow r.val (fun b => { b with mbCtl := b.mbCtl ||| 0x10 })
    else s.updRow r.val (fun b => { b with
      mbIn := (List.range 4).foldl (fun t k => tabSet 0 (off - 0xA000 + k) (BitVec.ofNat 8 (w.toNat / 2 ^ (8 * k))) t) b.mbIn })
  else if off < 0xA800 then s
  else s.mbxCtl r w

/-! ## Accesses of any requester -/

/-- Where an access goes: a device address, doorbell `q` of PF `r`, a word of BAR0 beside the row block, or a place in BAR0, BAR2 or
BAR4 (1, 2, 3) that Table 12.6 does not list. -/
inductive Place where
  | dev (addr : Nat)
  | bell (r : Fin 8) (off : Nat)
  | box (r : Fin 8) (off : Nat)
  | gone (bar off : Nat)
  deriving DecidableEq, Repr

/-- The place of a target; `none` where the requester has no such target. -/
def place (req : Req) (tgt : Target) : Option Place :=
  match req, tgt with
  | .bar0 r, .bar0 o =>
    let off := o.toNat
    if off < 0x1000 then some (.dev (0xF000028000 + r.val * 0x1000 + off))
    else if (0x8000 ≤ off ∧ off < 0x8200) ∨ (0x9000 ≤ off ∧ off < 0x9008) ∨ (0xA000 ≤ off ∧ off < 0xA804) then some (.box r off)
    else some (.gone 1 off)
  | .bar0 r, .bar2 o => if o.toNat < 0x20 then some (.bell r o.toNat) else some (.gone 2 o.toNat)
  | .pf0Bar4, .bar4 o =>
    let off := o.toNat
    if off < 0x4000000 then some (.dev off)
    else if off < 0x4068000 then some (.dev (0xF000000000 + (off - 0x4000000)))
    else some (.gone 3 off)
  | .bar0 _, _ | .pf0Bar4, _ => none
  | _, .dev a => some (.dev a.toNat)
  | _, _ => none

/-- Whether a requester is there to make an access (R704, R24): a thread that runs or waits, a path whose domain is granted, TW_0 while
it acknowledges its address (11, R405), the debug port once it is unlocked (03, R98). TW_1 acknowledges no address (11, R368). -/
def State.reqLive (s : State) : Req → Bool
  | .thread t => (s.thr t.val).state == .run || (s.thr t.val).state == .wait
  | .bar0 _ | .pf0Bar4 | .usb => s.granted 15
  | .rootstock => s.granted 1
  | .tw0 => s.granted 1 && s.ready 12
  | .tw1 => false
  | .debug => s.tap.mode != .powerOnReset && s.fld R.SEC_DBG_LEVEL != 0

/-- Whether `n` bytes at `off` are one or two aligned words. -/
def aligned (off n : Nat) : Bool := (n == 4 && off % 4 == 0) || (n == 8 && off % 8 == 0)

/-- Whether a request of `n` bytes at `addr` is one of more than 8 bytes to a register area (12, R450). -/
def tooWide (addr n : Nat) : Bool := decide (8 < n) && (inWindow addr).isSome

/-- A read of `n` bytes. Doorbells read 0. -/
def State.accRead (s : State) (req : Req) (tgt : Target) (n : Nat) : Ans :=
  match place req tgt with
  | some (.dev a) => if tooWide a n then s.refused .width req a false 0 else s.busRead req a n
  | some (.bell _ off) => if aligned off n then ⟨0, 0, s⟩ else ⟨4, 0, s.refuse .width req off false 2⟩
  | some (.box r off) =>
    if aligned off n then
      ⟨0, (s.boxRead r.val off).toNat + (if n = 8 then (s.boxRead r.val (off + 4)).toNat * 2 ^ 32 else 0), s⟩
    else ⟨4, 0, s.refuse .width req off false 1⟩
  | some (.gone bar off) => ⟨3, 0, s.refuse .unmapped req off false bar⟩
  | none => ⟨0, 0, s⟩

/-- A write of the `n` low bytes of `v`. -/
def State.accWrite (s : State) (req : Req) (tgt : Target) (n v : Nat) : Ans :=
  match place req tgt with
  | some (.dev a) => if tooWide a n then s.refused .width req a true 0 else s.busWrite req a n v
  | some (.bell r off) =>
    if aligned off n then
      let t := s.doorbell r.val (off / 4) (BitVec.ofNat 32 v)
      ⟨0, 0, if n = 8 then t.doorbell r.val (off / 4 + 1) (BitVec.ofNat 32 (v / 2 ^ 32)) else t⟩
    else ⟨4, 0, s.refuse .width req off true 2⟩
  | some (.box r off) =>
    if aligned off n then
      let t := s.boxWrite r off (BitVec.ofNat 32 v)
      ⟨0, 0, if n = 8 then t.boxWrite r (off + 4) (BitVec.ofNat 32 (v / 2 ^ 32)) else t⟩
    else ⟨4, 0, s.refuse .width req off true 1⟩
  | some (.gone bar off) => ⟨3, 0, s.refuse .unmapped req off true bar⟩
  | none => ⟨0, 0, s⟩

end Sys2Proof.Machine
end

