-- ==== Sys2Proof/Machine/IsaMem.lean ====
section
/-! DEFINITION. Loads, stores, atomics and addressed accesses (05, Tables 5.9, 5.10; 04, R120-R126), and CALLM and RETM (04,
R127-R130). -/

namespace Sys2Proof.Machine

/-! ## Data accesses -/

/-- The requester of a thread's accesses (01, Table 1.8). -/
def reqOf : Thr → Req
  | .scion t => .thread t
  | .rs _ => .rootstock

/-- Where a data access of a thread goes: a device address (R120), or an offset of the rootstock private memory, `none` where the
effective address names neither (R121). -/
def State.dataPlace (s : State) (t : Thr) (ea : Word) : Option (Nat ⊕ Nat) :=
  match t with
  | .scion k => some (.inl ((s.thr k.val).eaMap ea))
  | .rs k =>
    if ea.toNat / 2 ^ 30 = 3 then (if ea.toNat / 2 ^ 18 % 2 ^ 12 = 0 then some (.inr (ea.toNat % 2 ^ 18)) else none)
    else some (.inl ((s.thr (512 + k.val)).eaMap ea))

/-- A read of `n` bytes at an aligned effective address (R120, R121, R123). -/
def State.dataRead (s : State) (t : Thr) (ea : Word) (n : Nat) : Ans :=
  match s.dataPlace t ea with
  | none => ⟨3, 0, s⟩
  | some (.inl a) => s.busRead (reqOf t) a n
  | some (.inr off) =>
    let c := s.rsCheck off
    ⟨c.1, c.2.rsPeek off n, c.2⟩

/-- A write of the `n` low bytes of `v`. -/
def State.dataWrite (s : State) (t : Thr) (ea : Word) (n v : Nat) : Ans :=
  match s.dataPlace t ea with
  | none => ⟨3, 0, s⟩
  | some (.inl a) => s.busWrite (reqOf t) a n v
  | some (.inr off) =>
    let c := s.rsMerge off (leBytes n v)
    ⟨c.1, 0, c.2⟩

/-- An atomic read and write of a word (R162, R163): `f` gives the new word. An access to the register window is refused with
WIDTH. -/
def State.dataSwap (s : State) (t : Thr) (ea : Word) (f : Nat → Nat) : Ans :=
  match s.dataPlace t ea with
  | none => ⟨3, 0, s⟩
  | some (.inl a) =>
    match inWindow a with
    | some off =>
      if !s.granted (domainOf off) then s.refused .nrdy (reqOf t) a true 0 else s.refused .width (reqOf t) a true 0
    | none =>
      if (regionDomain a).any (fun d => !s.granted d) then s.refused .nrdy (reqOf t) a true 0
      else match memAt a 4 with
        | none => s.refused .unmapped (reqOf t) a true 0
        | some m => match s.memRead m a 4 with
          | (none, s) => ⟨5, 0, s⟩
          | (some v, s) => ⟨0, v, (s.memWrite m a (leBytes 4 (f v))).2⟩
  | some (.inr off) =>
    let c := s.rsCheck off
    let v := c.2.rsPeek off 4
    if c.1 = 0 then ⟨0, v, c.2.rsStore off (leBytes 4 (f v))⟩ else ⟨c.1, 0, c.2⟩

/-- The cause of a data access that gives an answer's code: ACCESS for a refusal (R121, R123), MEM_UE for an uncorrected error. -/
def accCause (code : Nat) : Nat := if code = 5 then 0x0C else 0x05

/-- R122: whether an effective address is aligned for `n` bytes. -/
def eaAligned (ea : Word) (n : Nat) : Bool := ea.toNat % n == 0

/-- A load of `n` bytes at `ea` by an instruction of `len` bytes at `pc`; `done` puts the value into the thread. -/
def State.load (s : State) (t : Thr) (pc : Word) (len : Nat) (ea : Word) (n : Nat) (done : Thread → Nat → Thread) : State :=
  let k := thrKey t
  if !eaAligned ea n then s.raiseExc k 0x04 ea pc
  else
    let a := s.dataRead t ea n
    if a.code = 0 then a.st.updThr k (fun th => { done th a.val with pc := pc + BitVec.ofNat 32 len })
    else a.st.raiseExc k (accCause a.code) ea pc

/-- A store of `n` bytes: the thread has gone on, changed by `post`, when the store takes effect; one that raises an exception
leaves the thread's registers as they were (R165). -/
def State.store (s : State) (t : Thr) (pc : Word) (len : Nat) (ea : Word) (n v : Nat) (post : Thread → Thread) : State :=
  let k := thrKey t
  if !eaAligned ea n then s.raiseExc k 0x04 ea pc
  else
    let th := s.thr k
    let a := (s.updThr k (fun th => { post th with pc := pc + BitVec.ofNat 32 len })).dataWrite t ea n v
    if a.code = 0 then a.st
    else (a.st.updThr k (fun x => { x with pc := pc, ag := th.ag })).raiseExc k (accCause a.code) ea pc

/-- An atomic. -/
def State.atomic (s : State) (t : Thr) (pc ea : Word) (f : Nat → Nat) (rd : Nat) : State :=
  let k := thrKey t
  if !eaAligned ea 4 then s.raiseExc k 0x04 ea pc
  else
    let a := s.dataSwap t ea f
    if a.code = 0 then a.st.updThr k (fun th => { th.setG rd (BitVec.ofNat 32 a.val) with pc := pc + 4 })
    else a.st.raiseExc k (accCause a.code) ea pc

/-- Bytes of a load. -/
def loadBytes : LoadKind → Nat
  | .word => 4
  | .half | .halfu => 2
  | .byte | .byteu => 1

/-- The register value of a load (Table 5.9). -/
def extendLoad (k : LoadKind) (v : Nat) : Word :=
  match k with
  | .word => BitVec.ofNat 32 v
  | .half => (BitVec.ofNat 16 v).signExtend 32
  | .halfu => (BitVec.ofNat 16 v).zeroExtend 32
  | .byte => (BitVec.ofNat 8 v).signExtend 32
  | .byteu => (BitVec.ofNat 8 v).zeroExtend 32

/-- Bytes of a store. -/
def storeBytes : StoreKind → Nat
  | .word => 4
  | .half => 2
  | .byte => 1

/-- The effective address of the M format (R160). -/
def Thread.eaM (t : Thread) (ra : BitVec 5) (imm : BitVec 13) : Word := t.gr ra.toNat + imm.signExtend 32

/-- A load in the M format. -/
def State.loadM (s : State) (t : Thr) (k : LoadKind) (rd ra : BitVec 5) (imm : BitVec 13) : State :=
  s.issue (thrKey t) 4 (fun pc s =>
    s.load t pc 4 ((s.thr (thrKey t)).eaM ra imm) (loadBytes k) (fun th v => th.setG rd.toNat (extendLoad k v)))

/-- A store in the M format. -/
def State.storeM (s : State) (t : Thr) (k : StoreKind) (rd ra : BitVec 5) (imm : BitVec 13) : State :=
  s.issue (thrKey t) 4 (fun pc s =>
    let th := s.thr (thrKey t)
    s.store t pc 4 (th.eaM ra imm) (storeBytes k) (th.gr rd.toNat).toNat id)

/-! ## Loads and stores (Tables 5.3, 5.9) -/

/-- LDW. -/
def execLdw (t : Thr) (f : MemForm) (s : State) : Res :=
  .next (
    let n := (memArgs (s.thr (thrKey t)) f).1
    s.issue (thrKey t) n (fun pc s =>
      let (_, rd, ea) := memArgs (s.thr (thrKey t)) f
      s.load t pc n ea 4 (fun th v => th.setG rd (BitVec.ofNat 32 v))))

/-- LDH. -/
def execLdh (t : Thr) (rd ra : BitVec 5) (imm : BitVec 13) (s : State) : Res := .next (s.loadM t .half rd ra imm)

/-- LDHU. -/
def execLdhu (t : Thr) (rd ra : BitVec 5) (imm : BitVec 13) (s : State) : Res := .next (s.loadM t .halfu rd ra imm)

/-- LDB. -/
def execLdb (t : Thr) (rd ra : BitVec 5) (imm : BitVec 13) (s : State) : Res := .next (s.loadM t .byte rd ra imm)

/-- LDBU. -/
def execLdbu (t : Thr) (rd ra : BitVec 5) (imm : BitVec 13) (s : State) : Res := .next (s.loadM t .byteu rd ra imm)

/-- XADD (R162, R163). -/
def execXadd (t : Thr) (rd ra : BitVec 5) (imm : BitVec 13) (s : State) : Res :=
  .next (s.issue (thrKey t) 4 (fun pc s =>
    let th := s.thr (thrKey t)
    s.atomic t pc (th.eaM ra imm) (fun v => (v + (th.gr rd.toNat).toNat) % 2 ^ 32) rd.toNat))

/-- XCHG (R162, R163). -/
def execXchg (t : Thr) (rd ra : BitVec 5) (imm : BitVec 13) (s : State) : Res :=
  .next (s.issue (thrKey t) 4 (fun pc s =>
    let th := s.thr (thrKey t)
    s.atomic t pc (th.eaM ra imm) (fun _ => (th.gr rd.toNat).toNat) rd.toNat))

/-- STW. -/
def execStw (t : Thr) (f : MemForm) (s : State) : Res :=
  .next (
    let n := (memArgs (s.thr (thrKey t)) f).1
    s.issue (thrKey t) n (fun pc s =>
      let th := s.thr (thrKey t)
      let (_, r, ea) := memArgs th f
      s.store t pc n ea 4 (th.gr r).toNat id))

/-- STH. -/
def execSth (t : Thr) (rd ra : BitVec 5) (imm : BitVec 13) (s : State) : Res := .next (s.storeM t .half rd ra imm)

/-- STB. -/
def execStb (t : Thr) (rd ra : BitVec 5) (imm : BitVec 13) (s : State) : Res := .next (s.storeM t .byte rd ra imm)

/-! ## Addressed accesses (R125, R126, R166) -/

/-- The check of MODE 0b11, which comes before the access. -/
def State.agIssue (s : State) (t : Thr) (f : AgForm) (body : Word → Nat → Nat → Nat → Bool → State → State) : State :=
  let k := thrKey t
  let (len, r, n, u) := agArgs f
  s.issue k len (fun pc s =>
    if ((s.thr k).agen n).mode = 3 then s.raiseExc k 0x09 (BitVec.ofNat 32 n) pc else body pc len r n u s)

/-- AG_LOAD. -/
def execAgLoad (t : Thr) (f : AgForm) (k : LoadKind) (s : State) : Res :=
  .next (s.agIssue t f (fun pc len r n u s =>
    let g := (s.thr (thrKey t)).agen n
    s.load t pc len g.ea (loadBytes k) (fun th v =>
      (if u then th.setAgen n g.bump else th).setG r (extendLoad k v))))

/-- AG_STORE. -/
def execAgStore (t : Thr) (f : AgForm) (k : StoreKind) (s : State) : Res :=
  .next (s.agIssue t f (fun pc len r n u s =>
    let th := s.thr (thrKey t)
    let g := th.agen n
    s.store t pc len g.ea (storeBytes k) (th.gr r).toNat (fun th => if u then th.setAgen n g.bump else th)))

/-! ## Calls and the return stack (R127-R130) -/

/-- The registers that a mask saves. -/
def maskRegs (mask : BitVec 16) : List Nat := (List.range 16).filter (fun i => mask.getLsbD i) |>.map (fun i => 16 + i)

/-- TSR.RSWRAP. -/
def Thread.rswrap (t : Thread) : Bool := bitOf t.tsr 8

/-- A push on the return stack, whose entries have 18 bits (04, Table 4.2): at depth 16 the oldest entry goes (R129). -/
def Thread.pushRet (t : Thread) (v : Word) : Thread :=
  let full := decide (16 ≤ t.rstk.length)
  { t with rstk := ((v &&& 0x3FFFF) :: t.rstk).take 16, rsTop := (t.rsTop + 1) % 16, rsWrapped := t.rsWrapped || full }

/-- Stores the words of a frame from `ea` on, the header first and then upwards, up to one that is refused (log 83); its code and address, if
one was (R128). -/
def State.storeFrame (s : State) (t : Thr) : List Word → Word → Nat × Word × State
  | [], ea => (0, ea, s)
  | w :: ws, ea =>
    let a := s.dataWrite t ea 4 w.toNat
    if a.code = 0 then State.storeFrame a.st t ws (ea + 4) else (a.code, ea, a.st)

/-- Reads `n` words of a frame from `ea` upwards, up to one that is refused (log 83); its code and address, if one was (R130). -/
def State.loadFrame (s : State) (t : Thr) : Nat → Word → List Word → Nat × Word × List Word × State
  | 0, ea, acc => (0, ea, acc, s)
  | n + 1, ea, acc =>
    let a := s.dataRead t ea 4
    if a.code = 0 then State.loadFrame a.st t n (ea + 4) (acc ++ [BitVec.ofNat 32 a.val]) else (a.code, ea, acc, a.st)

/-- The mask and the new PC of a CALLM at `pc` (Table 5.12). -/
def callArgs (t : Thread) (pc : Word) : CallForm → BitVec 16 × Word
  | .reg ra mask => (mask, t.gr ra.toNat)
  | .rel rm off => ((t.gr rm.toNat).truncate 16, target pc (off.signExtend 32))

/-- CALLM (R127-R129). -/
def execCallm (t : Thr) (f : CallForm) (s : State) : Res :=
  .next (s.issue (thrKey t) 4 (fun pc s =>
    let k := thrKey t
    let th := s.thr k
    let (mask, dest) := callArgs th pc f
    let regs := maskRegs mask
    let tsp := th.tsp - BitVec.ofNat 32 (4 * (1 + regs.length))
    if !th.rswrap && decide (16 ≤ th.rstk.length) then s.raiseExc k 0x06 0 pc
    else if !eaAligned th.tsp 4 then s.raiseExc k 0x04 th.tsp pc
    else
      let x := s.storeFrame t (((0xCA11 : BitVec 16) ++ mask) :: regs.map (fun r => th.gr r)) tsp
      if x.1 = 0 then x.2.2.updThr k (fun th => { (th.pushRet (pc + 4)) with tsp := tsp, pc := dest })
      else x.2.2.raiseExc k (accCause x.1) x.2.1 pc))

/-- RETM (R130). -/
def execRetm (t : Thr) (s : State) : Res :=
  .next (s.issue (thrKey t) 2 (fun pc s =>
    let k := thrKey t
    let th := s.thr k
    match th.rstk with
    | [] => s.raiseExc k 0x07 0 pc
    | ret :: rest =>
      if !eaAligned th.tsp 4 then s.raiseExc k 0x04 th.tsp pc
      else
        let h := s.dataRead t th.tsp 4
        if h.code ≠ 0 then h.st.raiseExc k (accCause h.code) th.tsp pc
        else if h.val / 2 ^ 16 ≠ 0xCA11 then h.st.raiseExc k 0x08 (BitVec.ofNat 32 h.val) pc
        else
          let regs := maskRegs (BitVec.ofNat 16 h.val)
          let x := h.st.loadFrame t regs.length (th.tsp + 4) []
          if x.1 ≠ 0 then x.2.2.2.raiseExc k (accCause x.1) x.2.1 pc
          else x.2.2.2.updThr k (fun th =>
            let th := (regs.zip x.2.2.1).foldl (fun th c => th.setG c.1 c.2) th
            { th with tsp := th.tsp + BitVec.ofNat 32 (4 * (1 + regs.length)), rstk := rest, rsTop := (th.rsTop + 15) % 16,
                      pc := ret })))

end Sys2Proof.Machine
end

