-- ==== Sys2Proof/Machine/JobCmds.lean ====
section
/-! DEFINITION. The jobs (16, Table 16.3): what each does when it starts, the store's pages, completion. -/

namespace Sys2Proof.Machine

/-- A store job with no page to program ends at once. -/
def State.endIfEmpty (s : State) (t : Nat) : State :=
  match s.job t with
  | some j => if j.pageCount = 0 then s.endJob t 0 0 0 else s
  | none => s

/-- NV_WRITE starts; its pages follow. -/
def execNvWrite (tag : BitVec 10) (s : State) : Res := .next (s.startJob tag.toNat 1 (fun j s => s.endIfEmpty j.tag))

/-- NV_ERASE starts; its pages follow. -/
def execNvErase (tag : BitVec 10) (s : State) : Res := .next (s.startJob tag.toNat 2 (fun j s => s.endIfEmpty j.tag))

/-- CAL_STORE (R580, R584): the target slot and SEQ are chosen when it starts. -/
def execCalStore (tag : BitVec 10) (s : State) : Res :=
  .next (s.startJob tag.toNat 3 (fun j s =>
    match s.recWinner (j.arg0 - 1) with
    | some (i, q, _) =>
      if q = 0xFFFFFFFF then s.endJob j.tag 3 0 0
      else s.updJob j.tag (fun j => { j with dst := recSlot (j.arg0 - 1) (1 - i), arg1 := q + 1 })
    | none => s.updJob j.tag (fun j => { j with dst := recSlot (j.arg0 - 1) 0, arg1 := 1 })))

/-! ## SCRUB -/

/-- Reads every word of the memories: corrected words are written back, uncorrected ones are reported. -/
def State.scrubMem (s : State) (inTarget : Nat → Bool) : Nat × State :=
  (s.ecc.filter (fun c => inTarget (4 * c.1))).foldl (fun (a : Nat × State) c =>
    match memAt (4 * c.1) 4, c.2 with
    | some m, 1 => (a.1 + 1, (a.2.memCe m).setEcc (4 * c.1) 0)
    | some m, _ => (a.1, a.2.memUe m)
    | none, _ => a) (0, s)

/-- SCRUB: the corrected words are counted; an uncorrected word of the store is NV_ERR. -/
def execScrub (tag : BitVec 10) (s : State) : Res :=
  .next (s.startJob tag.toNat 6 (fun j s =>
    if j.arg0 = 2 then
      let one := (s.nvEcc.filter (fun c => c.2 == 1)).length
      let bad := s.nvEcc.any (fun c => c.2 == 2)
      let s := { s with nvEcc := s.nvEcc.filter (fun c => c.2 != 1) }
      (if bad then s.fault 14 3 else s).endJob j.tag (if bad then 8 else 0) one j.total
    else
      let r := s.scrubMem (fun a => if j.arg0 = 0 then decide (a < 0x4000000) else decide (0x100000000 ≤ a))
      r.2.endJob j.tag 0 r.1 j.total))

/-! ## BIST_BOUGH, IMAGE_VERIFY, LOG_EXPORT -/

/-- BIST_BOUGH: every memory of the bough is overwritten, with contents that the spec does not give (log 1). -/
def execBistBough (tag : BitVec 10) (fails : Word) (s : State) : Res :=
  .next (s.startJob tag.toNat 7 (fun j s =>
    if s.granted (4 + j.arg0) then
      let t := s.dropMem (0x100000000 + j.arg0 * 0x1000000) (0x100000000 + j.arg0 * 0x1000000 + 0x1000000)
      let t := { t with fill := tabSet 0 j.arg0 (s.freeCtr + 1) s.fill }
      t.tookFree.endJob j.tag (if fails = 0 then 0 else 9) fails.toNat 1536
    else s.endJob j.tag 6 0 0))

/-- The bytes from device address `src` on that lie in one memory, as far as an image can reach. -/
def imageRoom (src : Nat) : Nat :=
  (List.range 27).foldl (fun n i => if memRange src (n + 2 ^ (26 - i)) then n + 2 ^ (26 - i) else n) 0

/-- The end of an IMAGE_VERIFY: the bytes hashed are the header's, and the payload's when the checks come so far. -/
def State.verdict (s : State) (t len err : Nat) : State :=
  (s.updJob t (fun j => { j with len := len + 256 })).endJob t (if err = 0 then 0 else 9) err
    (if err = 0 ∨ err = 7 then len + 256 else 256)

/-- IMAGE_VERIFY (R83). -/
def execImageVerify (tag : BitVec 10) (s : State) : Res :=
  .next (s.startJob tag.toNat 8 (fun j s =>
    if j.arg0 < 4 then
      let h := s.slotHeader j.arg0
      match s.nvRead (imageSlot j.arg0).1 (min (h.len + 256) (imageSlot j.arg0).2) with
      | (some _, s) => s.verdict j.tag h.len (s.slotErr j.arg0)
      | (none, s) => s.endJob j.tag 8 0 0
    else
      match s.devRead j.src 256 with
      | (none, s) => s.endJob j.tag 9 0 0
      | (some hd, s) =>
        let h := headerOf hd
        let room := imageRoom j.src
        let r := if 256 + h.len ≤ room then s.devRead (j.src + 256) h.len else (some [], s)
        match r with
        | (some p, s) => s.verdict j.tag h.len (s.imageErr h [1, 2] room (fun _ => p))
        | (none, s) => s.endJob j.tag 9 0 0))

/-- LOG_EXPORT: fault records go to the packet buffer at DST. -/
def execLogExport (tag : BitVec 10) (s : State) : Res :=
  .next (s.startJob tag.toNat 9 (fun j s =>
    match s.nvRead (0x1A0000 + 64 * j.arg0) (64 * j.len) with
    | (none, s) => s.endJob j.tag 8 0 0
    | (some bs, s) =>
      if s.granted 12 then (s.devWrite j.dst bs).endJob j.tag 0 0 j.len else s.endJob j.tag 6 0 0))

/-! ## Pages and completion -/

/-- STORE_PAGE_PROGRAM (R575-R578, R598): `code` is the VHOLD reading, `mismatch` that the page does not compare. -/
def execStorePageProgram (code : BitVec 12) (mismatch : Bool) (s : State) : Res := .next (s.pageProgram code.toNat mismatch)

/-- JOB_COMPLETE (R571): a job that has ended completes. -/
def execJobComplete (tag : BitVec 10) (s : State) : Res :=
  .next (
    match s.job tag.toNat with
    | some j => if j.state = .running ∧ j.ended = true then s.complete j else s
    | none => s)

end Sys2Proof.Machine
end

