-- ==== Sys2Proof/Machine/LoopCmds.lean ====
section
/-! DEFINITION. Meanings of the loops' events (07): phase-safe points, the law, wakes and hints, telemetry. The writes of loop
registers (LOOP_ENABLE, LOOP_DISABLE, PHCMD, PEAK_CLR) act through the register window. -/

namespace Sys2Proof.Machine

/-! ## Parts of a phase-safe point -/

/-- R281: the phase currents of the period that ends: the mean of its home samples, truncated. -/
def State.periodCurrents (s : State) (x : Nat) : State :=
  (s.mine x).foldl (fun s n => s.updPhase n (fun p => { p with iPer := if p.cnt = 0 then p.iPer else Int.tdiv p.sum p.cnt })) s

/-- The loop current: the sum of its phase currents. -/
def State.loopCurrent (s : State) (x : Nat) : Int := ((s.mine x).map (fun n => (s.phase n).iPer)).sum

/-- R239: counts the periods in which the loop current stays below DE.ENTER. -/
def State.countLight (s : State) (x : Nat) : State :=
  let low := decide (s.loopCurrent x < s.fld (R.LOOP_DE_ENTER x)) && !s.flag (R.LOOP_STATUS_DE_ON x)
  s.updLoop x (fun l => { l with deCount := if low then l.deCount + 1 else 0 })

/-- R254, R255: the balance trims. -/
def State.balance (s : State) (x : Nat) : State :=
  if !s.flag (R.LOOP_BAL_MODE x) then s.zeroTrims x
  else
    let act := s.active x
    let avg := divFree ((act.map (fun n => (s.phase n).iPer)).sum) act.length
    let top : Int := s.fld (R.LOOP_BAL_MAX x)
    act.foldl (fun s n =>
      let t := clampI (-top) top
        (s.sfld (R.PH_TRIM_TRIM n) + asr (s.fld (R.LOOP_BAL_GAIN x) * (avg - (s.phase n).iPer)) 8)
      s.setFld (R.PH_TRIM_TRIM n) (ofSigned 16 t)) s

/-- The temperature that TLM_CTL.TSRC selects; 8 to 15 act as 0 (08, after R291). -/
def State.telTemp (s : State) (x : Nat) : Int :=
  let k := s.fld (R.LOOP_TLM_CTL_TSRC x)
  if k < 4 then s.sfld (R.CNV_TEMP_TEMP k) else if k < 8 then s.sfld (R.CNV_XTEMP_TEMP (k - 4)) else s.sfld (R.CNV_TEMP_TEMP 0)

/-- R260, R261: one telemetry sample; a full block waits to be published. The power sum is in v x I, 1/400 mW. -/
def State.telSample (s : State) (x : Nat) : State :=
  if !s.flag (R.LOOP_TLM_CTL_MODE x) then s.updLoop x (fun l => { l with telN := 0, telV := 0, telI := 0, telP := 0, telT := 0 })
  else
    let i := s.loopCurrent x
    let t := s.telTemp x
    s.updLoop x (fun l => if 2 ^ s.fld (R.LOOP_TLM_CTL_K x) ≤ l.telN then l else
      { l with telN := l.telN + 1, telV := l.telV + l.v, telI := l.telI + i, telP := l.telP + l.v * i, telT := l.telT + t })

/-- What the end of a period computes from it. -/
def State.endPeriod (s : State) (x : Nat) : State :=
  if (s.loop x).inPeriod then ((((s.periodCurrents x).countLight x).balance x)).telSample x else s

/-- R245: a SHED phase in service enters ACTIVE with TRIM 0. -/
def State.bud (s : State) (n : Nat) : State :=
  if s.phState n = 1 ∧ s.carries (132 + n) = true then (s.setPh n 2 .mid).setFld (R.PH_TRIM_TRIM n) 0 else s

/-- Buds the `k` lowest-numbered SHED phases of loop `x`. -/
def State.budSome (s : State) (x k : Nat) : State :=
  (((s.mine x).filter (fun n => s.phState n == 1 && s.carries (132 + n))).take k).foldl State.bud s

/-- R247-R250: engine A serves the bough requests that have reached it. -/
def State.serveWakes (s : State) : State :=
  let l := s.loop 0
  if l.wakes = [] then s
  else
    let pruning := if l.wakeCancel ≠ [] then (s.mine 0).filter (fun n => s.phState n == 3) else []
    let s := if l.wakeCancel ≠ [] then
        (let s := if s.fld (R.LOOP_PHCMD_OP 0) = 2 then s.updLoop 0 (fun l => { l with cmdPend := false }) else s
         (pruning.foldl (fun s n => s.setPh n 2 .low) s).loopEvt 0 (R.LOOP_STATUS_PRUNE_CANCEL 0))
      else s
    let s := s.budSome 0 (l.wakes.length * s.fld R.LOOP_A_WAKE_PHASES - pruning.length)
    let settle := if s.fld R.LOOP_A_WAKE_SETTLE = 0 then 2 else s.fld R.LOOP_A_WAKE_SETTLE
    s.updLoop 0 (fun l => { l with
      boost := s.fld R.LOOP_A_WAKE_BOOST, settling := l.settling ++ l.wakes.map (fun b => (b, settle)),
      wakes := [], wakeCancel := [] })

/-- R243-R246: the pending prune or bud command of loop `x`. -/
def State.phaseCommand (s : State) (x : Nat) : State :=
  if !(s.loop x).cmdPend then s
  else
    let s := s.updLoop x (fun l => { l with cmdPend := false })
    let mask := s.fld (R.LOOP_PHCMD_MASK x)
    let named := (s.mine x).filter (fun n => mask.testBit n)
    if s.fld (R.LOOP_PHCMD_OP x) = 1 then named.foldl State.bud s
    else if s.fld (R.LOOP_PHCMD_OP x) = 2 then
      let victims := named.filter (fun n => s.phState n == 2)
      let all := s.loopState x == 2 && victims != [] && victims.length == (s.active x).length
      let s := if all then s.loopEvt x (R.LOOP_STATUS_CFG_ERR x) else s
      (if all then victims.tail else victims).foldl (fun s n =>
        (s.setPh n 3 .low).updPhase n (fun p => { p with pruneLeft := max 1 (s.fld (R.LOOP_PHCMD_PRUNE_TMO x)) })) s
    else s

/-- R252: the hints that have reached engine A. -/
def State.serveHints (s : State) : State :=
  let k := (s.loop 0).hints
  (s.budSome 0 (k * s.fld R.LOOP_A_HINT_PHASES)).updLoop 0 (fun l => { l with hints := 0 })

/-- What lapses with one more period start: counts of pruning phases and of BUD_ACKs, the samples of earlier periods (R281), R240, R258,
R267, R300. -/
def State.beginPeriod (s : State) (x : Nat) : State :=
  let s := (s.mine x).foldl (fun s n => if s.phState n = 3 then s.updPhase n (fun p => { p with pruneLeft := p.pruneLeft - 1 }) else s) s
  let s := (s.mine x).foldl (fun s n => s.updPhase n (fun p => { p with sum := 0, cnt := 0 })) s
  let s := if (s.loop x).deLeave then s.setFld (R.LOOP_STATUS_DE_ON x) 0 else s
  (s.settleHeld x).updLoop x (fun l => { l with
    settling := l.settling.map (fun c => (c.1, c.2 - 1)), deLeave := false, avsWrote := false, otherWrote := false,
    bank := s.fld (R.LOOP_LAW_BANK x), inPeriod := true, startAt := s.clk })

/-- R316: the stored-energy report of a harness loop. -/
def State.reportStored (s : State) (x : Nat) : State :=
  if x < 2 then s
  else
    let v := (s.loop x).v.toNat
    s.setReg (R.GOV_STORED (x - 2)) (BitVec.ofNat 32 (s.fld (R.GOV_CDECL_CDECL (x - 2)) * (v * v) / 32000000))

/-- PHASE_SAFE_POINT (R242): the start of a period of a loop that switches. -/
def execPhaseSafePoint (x : Loop) (s : State) : Res :=
  .next (
    let x := loopNum x
    if !s.switching x then s
    else
      let s := ((s.endPeriod x).beginPeriod x).stopOutOfService x
      if !s.switching x then s
      else
        let s := (s.mine x).foldl State.servicePhase s
        let s := if x = 0 then s.serveWakes else s
        let s := s.phaseCommand x
        let s := if x = 0 then s.serveHints else s
        let s := (s.placeEdges x).reportStored x
        let s := (s.active x).foldl (fun s n => s.activity (132 + n)) s
        if s.active x = [] then s else s.activity (148 + x))

/-! ## The law and what follows from a sample -/

/-- R265: an over-voltage. -/
def State.overVoltage (s : State) (x : Nat) : State := (s.stopLoop x 4).fault (5 + x) 0

/-- R234, R235: counts samples inside the power-good window, and drives PGOOD_x of a regulating loop. -/
def State.powerGood (s : State) (x : Nat) : State :=
  let inside := decide ((s.vsetEff x - (s.loop x).v).natAbs ≤ s.fld (R.LOOP_PG_WIN x))
  let s := s.updLoop x (fun l => { l with pgCount := if inside then l.pgCount + 1 else 0 })
  if s.loopState x ≠ 2 then s
  else if !inside then s.setPgood x false
  else if s.fld (R.LOOP_PG_DLY x) ≤ (s.loop x).pgCount then s.setPgood x true
  else s

/-- The law's target: VSET_eff while REGULATING, else the ramp target (R225, R232, R237). -/
def State.lawTarget (s : State) (x : Nat) : Int :=
  if s.loopState x = 2 then s.vsetEff x else divFree ((s.loop x).ramp.getD 0) 250

/-- LAW_COMPUTE (R225-R228, R230, R232, R235, R237, R256, R265, R266, R280, R298): once per period of a loop that switches. A
period without a sample repeats the law with the previous v. -/
def execLawCompute (x : Loop) (s : State) : Res :=
  .next (
    let x := loopNum x
    if !s.switching x then s
    else
      let v := match (s.loop x).sample with
        | some c => asr (((c : Int) - s.fld (R.LOOP_SENSE_OFFS x)) * s.fld (R.LOOP_SENSE_GAIN x)) 12
        | none => (s.loop x).v
      let s := s.updLoop x (fun l => { l with v := v, sample := none })
      if (s.fld (R.LOOP_PROT_OV x) : Int) < v then s.overVoltage x
      else
        let s := s.advanceRamps x
        let s := s.updLoop x (fun l => { l with ramp := some (l.ramp.getD (250 * v)) })
        if s.loopState x = 3 ∧ (s.loop x).ramp.getD 0 ≤ 0 then s.stopLoop x 0
        else
          let s := if s.vsetClamped x ≠ s.vsetRamp x then s.loopEvt x (R.LOOP_STATUS_VCLAMP x) else s
          let s := s.law x (clampI (-32768) 32767 (s.lawTarget x - v))
          let s := if s.flag (R.LOOP_TIMING_MODE x) then s.moveEdges x else s
          let s := if s.loopState x = 2 ∧ v < s.fld (R.LOOP_PROT_UV x) then s.fault (5 + x) 2 else s
          s.powerGood x)

/-- REGULATING_ENTRY (R234): the ramp target has reached VSET_eff, and PG.DLY consecutive samples lay inside the window. -/
def execRegulatingEntry (x : Loop) (s : State) : Res :=
  .next (
    let x := loopNum x
    if s.loopState x = 1 ∧ (s.loop x).ramp = some (250 * s.vsetEff x) ∧ s.fld (R.LOOP_PG_DLY x) ≤ (s.loop x).pgCount then
      (s.setLoopState x 2).setPgood x true
    else s)

/-- SOFTSTART_TIMEOUT (R236). -/
def execSoftstartTimeout (x : Loop) (s : State) : Res :=
  .next (if s.loopState (loopNum x) = 1 then (s.stopLoop (loopNum x) 4).fault (5 + loopNum x) 1 else s)

/-- DE_ENTER (R239, R240): CNT consecutive periods below DE.ENTER have passed; a CNT of 0 acts as 1. -/
def execDeEnter (x : Loop) (s : State) : Res :=
  .next (
    let x := loopNum x
    if s.switching x && decide (s.fld (R.LOOP_DE_ENTER x) < s.fld (R.LOOP_DE_EXIT x))
        && decide (max 1 (s.fld (R.LOOP_DE_CNT_CNT x)) ≤ (s.loop x).deCount) then
      (s.setFld (R.LOOP_STATUS_DE_ON x) 1).updLoop x (fun l => { l with deCount := 0 })
    else s)

/-! ## Pruning ends, zero crossings (R241, R244, R282) -/

/-- PRUNE_TIMEOUT (R244). -/
def execPruneTimeout (n : Fin 16) (s : State) : Res :=
  .next (if s.phState n.val = 3 ∧ (s.phase n.val).pruneLeft = 0 then s.setPh n.val 1 .mid else s)

/-- ZERO_CROSSING (R241, R244; 21, R689): a rising edge of ZCD_n, which PH_n_CFG.ZSRC = 0 selects; the converter's crossing comes with its
home sample (R282). -/
def execZeroCrossing (n : Fin 16) (s : State) : Res := .next (if s.flag (R.PH_CFG_ZSRC n.val) then s else s.zeroCross n.val)

/-! ## Wakes and hints (R247-R252) -/

/-- BOUGH_WAKE_REQUEST (R66, R247, R249, R250): a forwarded request reaches engine A. -/
def execBoughWakeRequest (b : Fin 8) (s : State) : Res :=
  .next (
    let b := b.val
    if !s.granted 1 || s.domState (4 + b) != 2 || (s.loop 0).wakes.contains b || (s.loop 0).settling.any (fun c => c.1 == b) then s
    else
      let cancel := (s.mine 0).any (fun n => s.phState n == 3) || ((s.loop 0).cmdPend && s.fld (R.LOOP_PHCMD_OP 0) == 2)
      s.updLoop 0 (fun l => { l with wakes := l.wakes ++ [b], wakeCancel := if cancel then l.wakeCancel ++ [b] else l.wakeCancel }))

/-- BUD_ACK (R67, R248, R251): SETTLE periods after its phase-safe point engine A acknowledges a request, while loop A
regulates; taproot then closes the switch. -/
def execBudAck (b : Fin 8) (s : State) : Res :=
  .next (
    if (s.loop 0).settling.contains (b.val, 0) && s.loopState 0 == 2 then
      let s := s.updLoop 0 (fun l => { l with settling := l.settling.filter (fun c => c.1 != b.val) })
      if s.domState (4 + b.val) = 2 then s.setDomState (4 + b.val) 3 else s
    else s)

/-- WAKE_BOOST_END (R247). -/
def execWakeBoostEnd (s : State) : Res := .next (s.updLoop 0 (fun l => { l with boost := 0 }))

/-- HINT_UP (R252): a hint that the espalier has sent reaches engine A. -/
def execHintUp (s : State) : Res :=
  .next (if s.esp.hintUpDue && s.granted 1 then
      ({ s with esp := { s.esp with hintUpDue := false } }).updLoop 0 (fun l => { l with hints := l.hints + 1 })
    else s)

/-- HINT_DN (R252). -/
def execHintDn (s : State) : Res :=
  .next (if s.esp.hintDnDue && s.granted 1 then
      ({ s with esp := { s.esp with hintDnDue := false } }).loopEvt 0 (R.LOOP_STATUS_HINT_DN 0)
    else s)

/-! ## Telemetry (R31, R261, R262, R379) -/

/-- A peak register's new value. -/
def peakOf (clr signed : Bool) (old new : Nat) : Nat :=
  if clr then new
  else if signed then (if toSigned 16 old < toSigned 16 new then new else old)
  else max old new

/-- LOOP_TELEMETRY_PUBLISH (R261, R262, R379): a full block is published and READ_EOUT accumulates. -/
def execLoopTelemetryPublish (x : Loop) (s : State) : Res :=
  .next (
    let x := loopNum x
    let l := s.loop x
    if !s.flag (R.LOOP_TLM_CTL_MODE x) || l.telN == 0 || decide (l.telN < 2 ^ s.fld (R.LOOP_TLM_CTL_K x)) then s
    else
      let v := ofSigned 16 (divFree l.telV l.telN)
      let i := ofSigned 16 (divFree l.telI l.telN)
      let p := divFree l.telP (400 * l.telN)
      let t := ofSigned 16 (divFree l.telT l.telN)
      let s := (s.setFld (R.LOOP_TLM_V_V x) v).setFld (R.LOOP_TLM_I_I x) i
      let s := (s.setFld (R.LOOP_TLM_P_P x) (ofSigned 32 p)).setFld (R.LOOP_TLM_T_T x) t
      let s := s.setReg (R.LOOP_TLM_SEQ x) (s.reg (R.LOOP_TLM_SEQ x) + 1)
      let s := s.setFld (R.LOOP_PEAK_V_V x) (peakOf l.peakClr false (s.fld (R.LOOP_PEAK_V_V x)) v)
      let s := s.setFld (R.LOOP_PEAK_I_I x) (peakOf l.peakClr true (s.fld (R.LOOP_PEAK_I_I x)) i)
      let s := s.setFld (R.LOOP_PEAK_T_T x) (peakOf l.peakClr true (s.fld (R.LOOP_PEAK_T_T x)) t)
      let acc := l.eoutAcc + s.sfld (R.LOOP_TLM_P_P x) / 1000
      s.updLoop x (fun l => { l with
        telN := 0, telV := 0, telI := 0, telP := 0, telT := 0, peakClr := false,
        eoutAcc := acc % 32768, eoutRoll := (l.eoutRoll + acc / 32768) % 256, eoutN := (l.eoutN + 1) % 2 ^ 24 }))

end Sys2Proof.Machine
end

