-- ==== Sys2Proof/Machine/Pmbus.lean ====
section
/-! DEFINITION. The PMBus target at TW_0 (11, Tables 11.3-11.5, R375-R397): one definition per command over a shared handling of
packet error checking, write protection, invalid data and pages. -/

namespace Sys2Proof.Machine

/-! ## Numbers -/

/-- The register value, in 0.25 mV, of a ULINEAR16 code (R377). -/
def voutOf (n : Nat) : Nat := (n * 1000 + 512) / 1024

/-- The ULINEAR16 code of a register value (R377). -/
def voutCode (v : Nat) : Nat := (v * 1024 + 500) / 1000

/-- `num / den / 2^(e - 16)`, rounded down. -/
def linFloor (num : Int) (den e : Nat) : Int := num * ((2 ^ 16 : Nat) : Int) / ((den * 2 ^ e : Nat) : Int)

/-- The LINEAR11 code of `num / den` (R378): the smallest exponent, counted from -16, whose mantissa fits; 31 stands for no such. -/
def linear11 (num : Int) (den : Nat) : Nat :=
  let e := ((List.range 32).find? (fun e => decide (-1024 ≤ linFloor num den e) && decide (linFloor num den e ≤ 1023))).getD 31
  ofSigned 5 ((e : Int) - 16) * 2 ^ 11 + ofSigned 11 (linFloor num den e)

/-- 1,000 times the value of a LINEAR11 code, where it lies from 0 to 65,535 (Table 11.3). -/
def milliOf (w : Nat) : Option Nat :=
  let y := toSigned 11 (w % 2 ^ 11) * 1000
  let e := toSigned 5 (w / 2 ^ 11 % 2 ^ 5)
  if y < 0 then none
  else if e < 0 then
    let d : Nat := 2 ^ e.natAbs
    if 65535 * (d : Int) < y then none else some (divFree y d).toNat
  else if 65535 < y * ((2 ^ e.natAbs : Nat) : Int) then none else some (y * ((2 ^ e.natAbs : Nat) : Int)).toNat

/-! ## Status (Table 11.4, R383-R386) -/

/-- Whether any latched bit is 1. -/
def State.pmAnyLatched (s : State) : Bool :=
  s.pm.cml != 0 || s.pm.busy || (List.range 4).any (fun x =>
    tabGet 0 x s.pm.latVout != 0 || tabGet 0 x s.pm.latIout != 0 || tabGet 0 x s.pm.latTemp != 0 || tabGet 0 x s.pm.latMfr != 0
      || tabGet 0 x s.pm.latSum != 0)

/-- R386: the alert pin is released when every latched bit is 0. -/
def State.pmSettle (s : State) : State := if s.pmAnyLatched then s else s.updPm (fun p => { p with alertLow := false })

/-- STATUS_WORD of page `x` (Table 11.4): the latched bits, and the live ones POWER_GOOD# and OFF. -/
def State.statusWordOf (s : State) (x : Nat) : Nat :=
  (tabGet 0 x s.pm.latSum).toNat + b2n (!(s.loop x).pgoodHigh) * 2 ^ 11 + b2n s.pm.busy * 2 ^ 7 + b2n (s.loopState x != 2) * 2 ^ 6

/-! ## Transfers -/

/-- The pages that a write acts on (R375). -/
def State.pmPages (s : State) : List Nat := if s.pm.page = 0xFF then [0, 1, 2, 3] else [s.pm.page]

/-- Whether the target takes transfers: the bus is up and no byte is held (R393, R405). -/
def State.pmUp (s : State) : Bool := s.twUp 0 && s.pm.hold.isNone

/-- R381: invalid data sets STATUS_CML bit 6. -/
def State.pmInvalid (s : State) : State := s.latchCml 6 7

/-- Whether a command needs a PEC byte (R389). -/
def State.pecNeeded (s : State) (code : Nat) : Bool :=
  s.flag (if 0xD0 ≤ code then R.TW_CFG_PEC_MFR 0 else R.TW_CFG_PEC_STD 0)

/-- Whether WRITE_PROTECT lets a write of a command pass (R382). -/
def State.wpAllows (s : State) (code : Nat) : Bool :=
  code == 0x10 || (match s.pm.wp.toNat with
    | 0x80 => false
    | 0x40 => code == 0x00 || code == 0x01
    | 0x20 => code == 0x00 || code == 0x01 || code == 0x02 || code == 0x21
    | _ => true)

/-- The bytes of a read that its PEC covers beside the data: both addresses, the code, what the call wrote (R389). -/
def State.pecHead (s : State) (code : Nat) (sent : Bytes) : Bytes :=
  [BitVec.ofNat 8 (2 * s.pmAddr), BitVec.ofNat 8 code] ++ sent ++ [BitVec.ofNat 8 (2 * s.pmAddr + 1)]

/-- Sends the data of a read, and its PEC byte where the controller takes it (R392). -/
def State.pmSend (s : State) (code : Nat) (sent data : Bytes) (pec : Bool) : State :=
  s.send (.pmbus (data ++ (if pec then [BitVec.ofNat 8 (crc8 (s.pecHead code sent ++ data))] else [])))

/-- What the PEC byte of a write of `data`, if one comes, makes of it: the PEC covers the address, the code and the data (R389-R391). -/
def State.pecRest (s : State) (code : Nat) (data : Bytes) (pec : Option Byte) : PmAfter :=
  match pec with
  | some b => if b = BitVec.ofNat 8 (crc8 ([BitVec.ofNat 8 (2 * s.pmAddr), BitVec.ofNat 8 code] ++ data)) then .fine else .pecWrong
  | none => if s.pecNeeded code then .pecMissing else .fine

/-- A write: the PEC rules (R390, R391), write protection, then `act`, which answers nothing for invalid data. -/
def State.pmWrite (s : State) (code : Nat) (data : Bytes) (pec : Option Byte) (act : State → Option State) : State :=
  match s.pecRest code data pec with
  | .pecWrong => (s.latchCml 5 8).send .pmNack
  | .pecMissing => s.latchCml 5 8
  | .badCall => s
  | .fine =>
    if !s.wpAllows code then s.pmInvalid
    else match act s with
      | some t => t
      | none => s.pmInvalid

/-- A block as a read sends it: the count, then the bytes. -/
def blockOf (bs : Bytes) : Bytes := BitVec.ofNat 8 bs.length :: bs

/-- An invalid read of `n` data bytes, a block's count byte before them (R381). -/
def State.pmBadRead (s : State) (code n : Nat) (block : Bool) (sent : Bytes) (pec : Bool) : State :=
  let ff := List.replicate n (0xFF : Byte)
  (s.pmSend code sent (if block then blockOf ff else ff) pec).pmInvalid

/-- One command of the target: `n` the data bytes of a read (`block` a block's), `rd` what a read gives (nothing for a write-only
command or a page without the command), `wr` what a write does. -/
def State.pmCommand (s : State) (code : Nat) (x : PmXfer) (n : Nat) (block : Bool) (rd : State → Option Bytes)
    (wr : Bytes → State → Option State) : State :=
  if !s.pmUp then s
  else match x with
    | .write data pec => s.pmWrite code data pec (wr data)
    | .read pec =>
      (match if s.pm.page = 0xFF then none else rd s with
        | some bs => s.pmSend code [] (if block then blockOf bs else bs) pec
        | none => s.pmBadRead code n block [] pec)
    | .call data pec => s.pmBadRead code n block data pec

/-- No write. -/
def noWrite : Bytes → State → Option State := fun _ _ => none

/-- No read. -/
def noRead : State → Option Bytes := fun _ => none

/-- A write of one byte. -/
def onByte (f : Nat → State → Option State) : Bytes → State → Option State := fun d s =>
  match d with
  | [b] => f b.toNat s
  | _ => none

/-- A write of one word. -/
def onWord (f : Nat → State → Option State) : Bytes → State → Option State := fun d s =>
  match d with
  | [a, b] => f (a.toNat + 256 * b.toNat) s
  | _ => none

/-- A write of a loop register by the command handler's own authority, on every page selected. -/
def State.loopReg (s : State) (reg : Nat → Nat) (f : Word → Word) : State :=
  s.pmPages.foldl (fun s x =>
    let old := s.reg (reg x)
    (s.setReg (reg x) (f old)).loopHook (reg x) old (f old)) s

/-! ## Standard commands (Table 11.3) -/

/-- PAGE (R375). -/
def execPage (x : PmXfer) (s : State) : Res :=
  .next (s.pmCommand 0x00 x 1 false (fun s => some [BitVec.ofNat 8 s.pm.page])
    (onByte (fun v s => if v < 4 ∨ v = 0xFF then some (s.updPm (fun p => { p with page := v })) else none)))

/-- OPERATION (R238, R406). -/
def execOperation (x : PmXfer) (s : State) : Res :=
  .next (s.pmCommand 0x01 x 1 false (fun s => some [if s.flag (R.LOOP_CTL_EN s.pm.page) then 0x80 else 0])
    (onByte (fun v s =>
      if v = 0x80 then some (s.loopReg R.LOOP_CTL (fun w => w ||| 1))
      else if v = 0x40 ∨ v = 0x00 then
        (if s.pmPages.contains 0 && s.loadOn then none
         else some (s.loopReg R.LOOP_CTL (fun w => (w &&& ~~~ 3) ||| (if v = 0 then 2 else 0))))
      else none)))

/-- ON_OFF_CONFIG. -/
def execOnOffConfig (x : PmXfer) (s : State) : Res :=
  .next (s.pmCommand 0x02 x 1 false (fun _ => some [0x18]) (onByte (fun v s => if v = 0x18 then some s else none)))

/-- CLEAR_FAULTS (R384). -/
def execClearFaults (x : PmXfer) (s : State) : Res :=
  .next (s.pmCommand 0x03 x 1 false noRead (fun d s =>
    if d ≠ [] then none
    else
      let s := s.pmPages.foldl (fun s k => s.updPm (fun p => { p with
        latVout := tabDel k p.latVout
        latIout := tabDel k p.latIout
        latTemp := tabDel k p.latTemp
        latMfr := tabDel k p.latMfr
        latSum := tabDel k p.latSum })) s
      some (s.updPm (fun p => { p with cml := 0, busy := false })).pmSettle))

/-- WRITE_PROTECT (R382). -/
def execWriteProtect (x : PmXfer) (s : State) : Res :=
  .next (s.pmCommand 0x10 x 1 false (fun s => some [s.pm.wp])
    (onByte (fun v s =>
      if v = 0x80 ∨ v = 0x40 ∨ v = 0x20 ∨ v = 0 then some (s.updPm (fun p => { p with wp := BitVec.ofNat 8 v })) else none)))

/-- CAPABILITY. -/
def execCapability (x : PmXfer) (s : State) : Res := .next (s.pmCommand 0x19 x 1 false (fun _ => some [0xD4]) noWrite)

/-- VOUT_MODE. -/
def execVoutMode (x : PmXfer) (s : State) : Res := .next (s.pmCommand 0x20 x 1 false (fun _ => some [0x14]) noWrite)

/-- A word that reads and writes a 16-bit voltage field of the loop (R377). -/
def State.pmVolts (s : State) (code : Nat) (x : PmXfer) (reg : Nat → Nat) (f : Nat → Fld) : State :=
  s.pmCommand code x 2 false (fun s => some (leBytes 2 (voutCode (s.fld (f s.pm.page)))))
    (onWord (fun v s => some (s.loopReg reg ((f 0).put (voutOf v)))))

/-- VOUT_COMMAND (R257, R258). -/
def execVoutCommand (x : PmXfer) (s : State) : Res := .next (s.pmVolts 0x21 x R.LOOP_VSET R.LOOP_VSET_VSET)

/-- VOUT_MAX. -/
def execVoutMax (x : PmXfer) (s : State) : Res := .next (s.pmVolts 0x24 x R.LOOP_VLIM R.LOOP_VLIM_VMAX)

/-- VOUT_MIN. -/
def execVoutMin (x : PmXfer) (s : State) : Res := .next (s.pmVolts 0x2B x R.LOOP_VLIM R.LOOP_VLIM_VMIN)

/-- VOUT_TRANSITION_RATE. -/
def execVoutTransitionRate (x : PmXfer) (s : State) : Res :=
  .next (s.pmCommand 0x27 x 2 false (fun s => some (leBytes 2 (linear11 (s.reg (R.LOOP_VSLEW s.pm.page)).toNat 1000)))
    (onWord (fun v s => (milliOf v).map (fun r => s.loopReg R.LOOP_VSLEW (fun _ => BitVec.ofNat 32 r)))))

/-- VOUT_OV_FAULT_LIMIT. -/
def execVoutOvFaultLimit (x : PmXfer) (s : State) : Res := .next (s.pmVolts 0x40 x R.LOOP_PROT R.LOOP_PROT_OV)

/-- VOUT_UV_FAULT_LIMIT. -/
def execVoutUvFaultLimit (x : PmXfer) (s : State) : Res := .next (s.pmVolts 0x44 x R.LOOP_PROT R.LOOP_PROT_UV)

/-- R385: the latched bits of STATUS_WORD that are written 1 clear on every page selected; BUSY is common to all. -/
def State.clearSums (s : State) (v : Nat) : State :=
  let s := s.pmPages.foldl (fun s k =>
    s.updPm (fun p => { p with latSum := tabSet 0 k (tabGet 0 k p.latSum &&& ~~~ BitVec.ofNat 16 v) p.latSum })) s
  (if v.testBit 7 then s.updPm (fun p => { p with busy := false }) else s).pmSettle

/-- STATUS_BYTE. -/
def execStatusByte (x : PmXfer) (s : State) : Res :=
  .next (s.pmCommand 0x78 x 1 false (fun s => some (leBytes 1 (s.statusWordOf s.pm.page))) (onByte (fun v s => some (s.clearSums v))))

/-- STATUS_WORD. -/
def execStatusWord (x : PmXfer) (s : State) : Res :=
  .next (s.pmCommand 0x79 x 2 false (fun s => some (leBytes 2 (s.statusWordOf s.pm.page)))
    (onWord (fun v s => some (s.clearSums v))))

/-- A status byte that each page latches; a write clears the bits written 1 (R385). -/
def State.pmStatus (s : State) (code : Nat) (x : PmXfer) (get : PmSt → Tab Byte) (put : PmSt → Tab Byte → PmSt) (extra : State → Byte) : State :=
  s.pmCommand code x 1 false (fun s => some [tabGet 0 s.pm.page (get s.pm) ||| extra s])
    (onByte (fun v s => some (s.pmPages.foldl (fun s k =>
      s.updPm (fun p => put p (tabSet 0 k (tabGet 0 k (get p) &&& ~~~ BitVec.ofNat 8 v) (get p)))) s).pmSettle))

/-- STATUS_VOUT. -/
def execStatusVout (x : PmXfer) (s : State) : Res :=
  .next (s.pmStatus 0x7A x (fun p => p.latVout) (fun p t => { p with latVout := t }) (fun _ => 0))

/-- STATUS_IOUT. -/
def execStatusIout (x : PmXfer) (s : State) : Res :=
  .next (s.pmStatus 0x7B x (fun p => p.latIout) (fun p t => { p with latIout := t }) (fun _ => 0))

/-- STATUS_TEMPERATURE. -/
def execStatusTemperature (x : PmXfer) (s : State) : Res :=
  .next (s.pmStatus 0x7D x (fun p => p.latTemp) (fun p t => { p with latTemp := t }) (fun _ => 0))

/-- STATUS_CML, common to all pages (R383). -/
def execStatusCml (x : PmXfer) (s : State) : Res :=
  .next (s.pmCommand 0x7E x 1 false (fun s => some [s.pm.cml])
    (onByte (fun v s => some (s.updPm (fun p => { p with cml := p.cml &&& ~~~ BitVec.ofNat 8 v })).pmSettle)))

/-- STATUS_MFR_SPECIFIC: bits 7:4 are the result of the last MFR_REG_WRITE (Table 11.5). -/
def execStatusMfrSpecific (x : PmXfer) (s : State) : Res :=
  .next (s.pmStatus 0x80 x (fun p => p.latMfr) (fun p t => { p with latMfr := t }) (fun s => BitVec.ofNat 8 (s.pm.regRes * 16)))

/-- READ_EOUT (R379). -/
def execReadEout (x : PmXfer) (s : State) : Res :=
  .next (s.pmCommand 0x87 x 6 true (fun s =>
    let l := s.loop s.pm.page
    some (leBytes 2 l.eoutAcc.toNat ++ leBytes 1 l.eoutRoll.toNat ++ leBytes 3 l.eoutN)) noWrite)

/-- READ_VOUT. -/
def execReadVout (x : PmXfer) (s : State) : Res :=
  .next (s.pmCommand 0x8B x 2 false (fun s => some (leBytes 2 (voutCode (s.fld (R.LOOP_TLM_V_V s.pm.page))))) noWrite)

/-- READ_IOUT: LOOP_x_TLM_I in 10 mA. -/
def execReadIout (x : PmXfer) (s : State) : Res :=
  .next (s.pmCommand 0x8C x 2 false (fun s => some (leBytes 2 (linear11 (s.sfld (R.LOOP_TLM_I_I s.pm.page)) 100))) noWrite)

/-- READ_TEMPERATURE_1: LOOP_x_TLM_T in 1/16 of a degree. -/
def execReadTemperature1 (x : PmXfer) (s : State) : Res :=
  .next (s.pmCommand 0x8D x 2 false (fun s => some (leBytes 2 (linear11 (s.sfld (R.LOOP_TLM_T_T s.pm.page)) 16))) noWrite)

/-- READ_POUT: LOOP_x_TLM_P in mW. -/
def execReadPout (x : PmXfer) (s : State) : Res :=
  .next (s.pmCommand 0x96 x 2 false (fun s => some (leBytes 2 (linear11 (s.sfld (R.LOOP_TLM_P_P s.pm.page)) 1000))) noWrite)

/-- PMBUS_REVISION. -/
def execPmbusRevision (x : PmXfer) (s : State) : Res := .next (s.pmCommand 0x98 x 1 false (fun _ => some [0x33]) noWrite)

/-- MFR_ID: "NARBEL". -/
def execMfrId (x : PmXfer) (s : State) : Res :=
  .next (s.pmCommand 0x99 x 6 true (fun _ => some [0x4E, 0x41, 0x52, 0x42, 0x45, 0x4C]) noWrite)

/-- MFR_MODEL: "DX9-6416". -/
def execMfrModel (x : PmXfer) (s : State) : Res :=
  .next (s.pmCommand 0x9A x 8 true (fun _ => some [0x44, 0x58, 0x39, 0x2D, 0x36, 0x34, 0x31, 0x36]) noWrite)

/-- MFR_REVISION. -/
def execMfrRevision (x : PmXfer) (s : State) : Res :=
  .next (s.pmCommand 0x9B x 2 true
    (fun s => some [BitVec.ofNat 8 (s.fld R.IDR_REV_MAJOR), BitVec.ofNat 8 (s.fld R.IDR_REV_MINOR)]) noWrite)

/-! ## Manufacturer commands (Table 11.5) -/

/-- MFR_REG_READ (R388): a process call that writes a count of 4 and a window offset. -/
def execMfrRegRead (x : PmXfer) (s : State) : Res :=
  .next (
    match x with
    | .call data pec =>
      if !s.pmUp then s
      else if s.pm.page = 0xFF ∨ data.length ≠ 5 ∨ data.head? ≠ some 4 then s.pmBadRead 0xD0 5 true data pec
      else
        let a := s.busRead .tw0 (0xF000000000 + leNat (data.drop 1)) 4
        a.st.pmSend 0xD0 data (blockOf (leBytes 1 a.code ++ leBytes 4 (if a.code = 0 then a.val else 0))) pec
    | _ => s.pmCommand 0xD0 x 5 true noRead noWrite)

/-- MFR_REG_WRITE (R388). -/
def execMfrRegWrite (x : PmXfer) (s : State) : Res :=
  .next (s.pmCommand 0xD1 x 8 true noRead (fun d s =>
    if d.length ≠ 9 ∨ d.head? ≠ some 8 then none
    else
      let a := s.busWrite .tw0 (0xF000000000 + leNat (slice 1 4 d)) 4 (leNat (slice 5 4 d))
      some (a.st.updPm (fun p => { p with regRes := a.code }))))

/-- MFR_GOV_EVENT: pages C and D only. -/
def execMfrGovEvent (x : PmXfer) (s : State) : Res :=
  .next (s.pmCommand 0xD2 x 12 true (fun s =>
    if s.pm.page < 2 then none
    else
      let g := s.pm.page - 2
      some (leBytes 4 (s.reg (R.GOV_EVT_E g)).toNat ++ leBytes 4 (s.reg (R.GOV_EVT_T g)).toNat
        ++ leBytes 2 (s.fld (R.GOV_EVT_CNT_CNT g)) ++ [BitVec.ofNat 8 (s.fld (R.GOV_STATUS_CAUSE g)), 0])) noWrite)

/-- MFR_BAT. -/
def execMfrBat (x : PmXfer) (s : State) : Res :=
  .next (s.pmCommand 0xD3 x 16 true (fun s =>
    some ([R.BAT_SOC, R.BAT_RC, R.BAT_FCC, R.BAT_TTE].flatMap (fun r => leBytes 4 (s.regView .warden r).toNat))) noWrite)

/-- MFR_PHASES. -/
def execMfrPhases (x : PmXfer) (s : State) : Res :=
  .next (s.pmCommand 0xD4 x 2 false (fun s => some (leBytes 2 ((s.mine s.pm.page).foldl (fun m n => m + 2 ^ n) 0))) noWrite)

/-- MFR_READY. -/
def execMfrReady (x : PmXfer) (s : State) : Res :=
  .next (s.pmCommand 0xD5 x 8 true (fun s =>
    some (leBytes 4 (s.reg R.IDR_READY_0).toNat ++ leBytes 4 (s.reg R.IDR_READY_1).toNat)) noWrite)

/-! ## Program-served commands (R393-R397) -/

/-- Posts a request, whose byte is then held. -/
def State.pmPost (s : State) (code : Nat) (data : Bytes) (h : PmHold) : State :=
  let page := if s.pm.page = 0xFF then 3 else s.pm.page
  let w := code + page * 2 ^ 8 + data.length % 64 * 2 ^ 10 + b2n h.read * 2 ^ 16 + b2n (s.pm.page == 0xFF) * 2 ^ 17 + 2 ^ 31
  let s := (s.setRegBytes (R.TW_0_MBX_DATA 0) data).setReg R.TW_0_MBX_CMD (BitVec.ofNat 32 w)
  (s.updPm (fun p => { p with hold := some h })).event (s.reg R.TW_0_MBX_ROUTE)

/-- The bytes of a counted block, if its count is 1-32 and right. -/
def counted (d : Bytes) : Option Bytes :=
  match d with
  | [] => none
  | c :: bs => if c.toNat = bs.length ∧ 1 ≤ bs.length ∧ bs.length ≤ 32 then some bs else none

/-- MFR_PROG_i: a write is posted at its last counted byte, before its PEC byte comes; a read and a process call are posted at their command
byte, before the bytes that the call writes (R393). -/
def execMfrProg (i : Fin 16) (x : PmXfer) (s : State) : Res :=
  .next (
    let code := 0xE0 + i.val
    if !s.pmUp then s
    else if !s.ready 2 then s.latchBusy.send .pmNack
    else match x with
      | .write data pec =>
        match s.wpAllows code, counted data with
        | true, some bs => s.pmPost code bs { read := false, pec := false, head := [], rest := s.pecRest code data pec }
        | _, _ => s.pmWrite code data pec (fun _ => none)
      | .read pec =>
        if s.pm.page = 0xFF then s.pmBadRead code 1 true [] pec
        else s.pmPost code [] { read := true, pec := pec, head := s.pecHead code [], rest := .fine }
      | .call data pec =>
        if s.pm.page = 0xFF then s.pmBadRead code 1 true data pec
        else s.pmPost code [] { read := true, pec := pec, head := s.pecHead code data,
                                rest := if (counted data).isSome then .fine else .badCall })

/-- The command codes of Tables 11.3 and 11.5. -/
def pmCodes : List Nat :=
  [0x00, 0x01, 0x02, 0x03, 0x10, 0x19, 0x20, 0x21, 0x24, 0x27, 0x2B, 0x40, 0x44, 0x78, 0x79, 0x7A, 0x7B, 0x7D, 0x7E, 0x80, 0x87,
   0x8B, 0x8C, 0x8D, 0x96, 0x98, 0x99, 0x9A, 0x9B] ++ [0xD0, 0xD1, 0xD2, 0xD3, 0xD4, 0xD5] ++ (List.range 16).map (fun i => 0xE0 + i)

/-- INVALID_COMMAND (R380). -/
def execInvalidCommand (code : Byte) (s : State) : Res :=
  .next (if s.pmUp && !pmCodes.contains code.toNat then (s.latchCml 7 6).send .pmNack else s)

/-- ALERT_RESPONSE (R367, R386). -/
def execAlertResponse (s : State) : Res :=
  .next (if s.pmUp && s.pm.alertLow then
      (s.updPm (fun p => { p with alertLow := false })).send (.pmbus [BitVec.ofNat 8 (2 * s.pmAddr)])
    else s)

end Sys2Proof.Machine
end

