-- ==== Sys2Proof/Machine/RegCmds.lean ====
section
/-! DEFINITION. The commands that are register accesses (01, R19, R28-R30) and those that are a write or a read of one named
register: each makes its access through the bus, so domain, privilege and access-code checks hold for it too. -/

namespace Sys2Proof.Machine

/-! ## Register accesses (01) -/

/-- REGISTER_WRITE (R14, R15, R19, R23, R36-R40, R706): a write of the low bytes of `v`. -/
def execRegisterWrite (req : Req) (tgt : Target) (bytes : Fin 513) (v : BitVec 4096) (s : State) : Res :=
  .next (
    if s.reqLive req then
      let a := s.accWrite req tgt bytes.val v.toNat
      if 8 < bytes.val ∧ a.code = 4 then a.st.send (.unsupported req) else a.st
    else s)

/-- A read of `n` bytes, whose value goes to the requester: a request of more than 8 bytes is completed with its bytes, or with
Unsupported Request (12, R450). -/
def State.readOut (s : State) (req : Req) (tgt : Target) (n : Nat) : State :=
  if s.reqLive req then
    let a := s.accRead req tgt n
    if n ≤ 8 then a.st.send (.regRead req (BitVec.ofNat 64 a.val))
    else a.st.send (if a.code = 4 then .unsupported req else .memRead req (leBytes n a.val))
  else s

/-- LO_READ (R28; 12, R450). -/
def execLoRead (req : Req) (x : Stretch) (s : State) : Res := .next (s.readOut req x.tgt x.bytes.val)

/-- HI_READ (R29). -/
def execHiRead (req : Req) (tgt : Target) (s : State) : Res := .next (s.readOut req tgt 4)

/-- A write of one word. -/
def State.writeIn (s : State) (req : Req) (tgt : Target) (v : Word) : State :=
  if s.reqLive req then (s.accWrite req tgt 4 v.toNat).st else s

/-- LO_WRITE (R30). -/
def execLoWrite (req : Req) (tgt : Target) (v : Word) (s : State) : Res := .next (s.writeIn req tgt v)

/-- HI_WRITE (R30). -/
def execHiWrite (req : Req) (tgt : Target) (v : Word) (s : State) : Res := .next (s.writeIn req tgt v)

/-! ## Writes of one named register -/

/-- Whether a requester's paths lead to window offset `off`: BAR0 of PF r shows the block of row r alone (12, Table 12.6). -/
def reaches (req : Req) (off : Nat) : Bool :=
  match req with
  | .bar0 r => decide (0x28000 + r.val * 0x1000 ≤ off ∧ off < 0x29000 + r.val * 0x1000)
  | _ => true

/-- A requester writes the register at `off`. -/
def State.regDo (s : State) (req : Req) (off : Nat) (w : Word) : State :=
  if s.reqLive req && reaches req off then (s.winWrite req off w).st else s

/-- The RW fields of the register at `off`, as a read-modify-write writes them back. -/
def State.keep (s : State) (off : Nat) : Word :=
  match regRow off with
  | some r => s.reg off &&& r.bits (fun f => f.acc == .rw || f.acc == .rwl)
  | none => 0

/-- A requester writes one field of the register at `off` and the other RW fields back. -/
def State.fldDo (s : State) (req : Req) (f : Fld) (v : Nat) : State := s.regDo req f.off (f.put v (s.keep f.off))

/-- A requester reads the register at `off`. -/
def State.regAsk (s : State) (req : Req) (off : Nat) : State :=
  if s.reqLive req && reaches req off then
    let a := s.winRead req off
    a.st.send (.regRead req (BitVec.ofNat 64 a.val))
  else s

/-! ### Taproot (02) -/

/-- RTC_SEC_WRITE (R45). -/
def execRtcSecWrite (req : Req) (lo hi : Word) (s : State) : Res :=
  .next ((s.regDo req R.TAP_RTC_SEC_LO lo).regDo req R.TAP_RTC_SEC_HI hi)

/-- WAKE_CFG_WRITE (R47). -/
def execWakeCfgWrite (req : Req) (n : Fin 8) (v : Word) (s : State) : Res := .next (s.regDo req (R.TAP_WAKE_CFG n.val) v)

/-- VBAT_CMP_WRITE (R48). -/
def execVbatCmpWrite (req : Req) (v : Word) (s : State) : Res := .next (s.regDo req R.TAP_VBAT_CMP v)

/-- STANDBY_ENTRY (R71, R72, R75). -/
def execStandbyEntry (req : Req) (s : State) : Res := .next (s.regDo req R.TAP_STBY 1)

/-- RRAM_DATA_ACCESS (R52-R55): a write of the word given, or a read. -/
def execRramDataAccess (req : Req) (wr : Option Word) (s : State) : Res :=
  .next (match wr with
    | some v => s.regDo req R.TAP_RRAM_DATA v
    | none => s.regAsk req R.TAP_RRAM_DATA)

/-- RRAM_ECC_INJ_ARM (R55). -/
def execRramEccInjArm (req : Req) (inj : BitVec 2) (s : State) : Res := .next (s.fldDo req R.TAP_RRAM_ECC_INJ inj.toNat)

/-! ### Boot and security (03) -/

/-- STAGE_GO (R89, R90). -/
def execStageGo (req : Req) (s : State) : Res := .next (s.regDo req R.BOOT_STAGE_GO 1)

/-- BOUGH_RELEASE (R87, R106). -/
def execBoughRelease (req : Req) (s : State) : Res := .next (s.regDo req R.BOOT_CTL 1)

/-- ADV_VER (R93). -/
def execAdvVer (req : Req) (s : State) : Res := .next (s.regDo req R.BOOT_FUSE_CMD 1)

/-- REVOKE (R94). -/
def execRevoke (req : Req) (n : Fin 4) (s : State) : Res := .next (s.regDo req R.BOOT_FUSE_CMD (BitVec.ofNat 32 (2 ^ (4 + n.val))))

/-- RNG_READ (R95, R96). -/
def execRngRead (req : Req) (s : State) : Res := .next (s.regAsk req R.SEC_RNG_DATA)

/-- RESTART (R97): the start-up tests end as `pass` says. -/
def execRestart (req : Req) (pass : Bool) (s : State) : Res :=
  .next (if s.reqLive req && reaches req R.SEC_RNG_CTL then (s.winWriteWith req R.SEC_RNG_CTL 1 pass).st else s)

/-! ### Threads (06) -/

/-- EVENT_POST (R191, R192). -/
def execEventPost (req : Req) (b : Fin 8) (t : Fin 64) (mask : Byte) (s : State) : Res :=
  .next (s.regDo req (R.BGH_EVT_POST b.val) (BitVec.ofNat 32 (t.val + mask.toNat * 2 ^ 8)))

/-- RELEASE (R211). -/
def execRelease (req : Req) (t : Fin 512) (s : State) : Res :=
  .next (s.regDo req (R.BGH_TSTATE (boughOf t.val) (t.val % 64)) 0x40000000)

/-- RESUME (R211). -/
def execResume (req : Req) (t : Fin 512) (s : State) : Res :=
  .next (s.regDo req (R.BGH_TSTATE (boughOf t.val) (t.val % 64)) 0x80000000)

/-! ### Loops (07) -/

/-- LOOP_ENABLE (R232, R313). -/
def execLoopEnable (req : Req) (x : Loop) (hard : Bool) (s : State) : Res :=
  .next (s.regDo req (R.LOOP_CTL (loopNum x)) (if hard then 3 else 1))

/-- LOOP_DISABLE (R237). -/
def execLoopDisable (req : Req) (x : Loop) (hard : Bool) (s : State) : Res :=
  .next (s.regDo req (R.LOOP_CTL (loopNum x)) (if hard then 2 else 0))

/-- PHCMD_BUD (R243). -/
def execPhcmdBud (req : Req) (x : Loop) (mask : BitVec 16) (tmo : Byte) (s : State) : Res :=
  .next (s.regDo req (R.LOOP_PHCMD (loopNum x)) (BitVec.ofNat 32 (mask.toNat + 1 * 2 ^ 16 + tmo.toNat * 2 ^ 24)))

/-- PHCMD_PRUNE (R243). -/
def execPhcmdPrune (req : Req) (x : Loop) (mask : BitVec 16) (tmo : Byte) (s : State) : Res :=
  .next (s.regDo req (R.LOOP_PHCMD (loopNum x)) (BitVec.ofNat 32 (mask.toNat + 2 * 2 ^ 16 + tmo.toNat * 2 ^ 24)))

/-- PEAK_CLR (R262). -/
def execPeakClr (req : Req) (x : Loop) (s : State) : Res := .next (s.fldDo req (R.LOOP_TLM_CTL_PEAK_CLR (loopNum x)) 1)

/-! ### Governor and battery (09, 10) -/

/-- GOV_DISABLE (R308). -/
def execGovDisable (req : Req) (x : HLoop) (s : State) : Res := .next (s.fldDo req (R.GOV_CTL_EN (hloopNum x - 2)) 0)

/-- MAX_CLR (R307). -/
def execMaxClr (req : Req) (x : HLoop) (s : State) : Res := .next (s.fldDo req (R.GOV_CTL_MAX_CLR (hloopNum x - 2)) 1)

/-- BAT_ENABLE (R350, R352). -/
def execBatEnable (req : Req) (s : State) : Res := .next (s.fldDo req R.BAT_CTL_EN 1)

/-- BAT_RESTORE (R353). -/
def execBatRestore (req : Req) (s : State) : Res := .next (s.fldDo req R.BAT_CTL_RESTORE 1)

/-! ### Two-wire buses (11) -/

/-- MBX_RESPONSE (R394, R395). -/
def execMbxResponse (req : Req) (v : Word) (s : State) : Res := .next (s.regDo req R.TW_0_MBX_RESP v)

/-- MCMD with GO = 1 and a PROTO. -/
def mcmdGo (v : Word) (proto : Nat) : Word := (R.TW_MCMD_PROTO 0).put proto v ||| 0x80000000

/-- CONTROLLER_WRITE (R398, PROTO 0). -/
def execControllerWrite (req : Req) (n : Fin 2) (v : Word) (s : State) : Res := .next (s.regDo req (R.TW_MCMD n.val) (mcmdGo v 0))

/-- CONTROLLER_WRITE_READ (R398, PROTO 1). -/
def execControllerWriteRead (req : Req) (n : Fin 2) (v : Word) (s : State) : Res := .next (s.regDo req (R.TW_MCMD n.val) (mcmdGo v 1))

/-- CONTROLLER_READ (R398, PROTO 2). -/
def execControllerRead (req : Req) (n : Fin 2) (v : Word) (s : State) : Res := .next (s.regDo req (R.TW_MCMD n.val) (mcmdGo v 2))

/-- CONTROLLER_BLOCK_READ (R398, PROTO 3). -/
def execControllerBlockRead (req : Req) (n : Fin 2) (v : Word) (s : State) : Res := .next (s.regDo req (R.TW_MCMD n.val) (mcmdGo v 3))

/-! ### Rows and packet path (12, 13, 14) -/

/-- ROW_ENABLE (R409, R410). -/
def execRowEnable (req : Req) (r : Fin 8) (s : State) : Res := .next (s.fldDo req (R.ROW_CTL_EN r.val) 1)

/-- ROW_DISABLE (R411). -/
def execRowDisable (req : Req) (r : Fin 8) (s : State) : Res := .next (s.fldDo req (R.ROW_CTL_EN r.val) 0)

/-- ROW_RESET by a write of RST (R441-R444). -/
def execRowReset (req : Req) (r : Fin 8) (s : State) : Res := .next (s.fldDo req (R.ROW_CTL_RST r.val) 1)

/-- BREQ_CLEAR (R479). -/
def execBreqClear (req : Req) (mask : Word) (s : State) : Res := .next (s.regDo req R.ESP_BREQ mask)

/-- COMMIT (R504, R506). -/
def execCommit (req : Req) (v : Word) (s : State) : Res := .next (s.regDo req R.MSEC_CMD (v ||| 1))

/-- STEP (R199, R512, R514). -/
def execStep (req : Req) (s : State) : Res := .next (s.regDo req R.DTB_CMD 1)

/-- SLEW (R513, R514). -/
def execSlew (req : Req) (s : State) : Res := .next (s.regDo req R.DTB_CMD 2)

/-- RING_CTL_START (R519). -/
def execRingCtlStart (req : Req) (s : State) : Res := .next (s.regDo req R.RING_CTL 1)

/-- STOP (R527). -/
def execStop (req : Req) (s : State) : Res := .next (s.regDo req R.RING_CTL 2)

/-! ### USB, jobs (15, 16) -/

/-- NTF_POST (R543, R559). -/
def execNtfPost (req : Req) (bits : Word) (s : State) : Res := .next (s.regDo req R.USB_NTF_POST bits)

/-- USB_DISABLE (R561). -/
def execUsbDisable (req : Req) (s : State) : Res := .next (s.regDo req R.USB_CTL 0)

/-- JOB_SUBMIT (R565-R568): the two writes of JOB_o_SUBMIT. -/
def execJobSubmit (req : Req) (o : Fin 9) (addr : BitVec 64) (s : State) : Res :=
  .next ((s.regDo req (R.JOB_SUBMIT_LO o.val) (addr.truncate 32)).regDo req (R.JOB_SUBMIT_HI o.val) ((addr >>> 32).truncate 32))

/-- CPL_READ (R572). -/
def execCplRead (req : Req) (o : Fin 9) (s : State) : Res := .next (s.regAsk req (R.JOB_CPL o.val 0))

/-! ### Faults and watchdogs (17) -/

/-- CLEAR (R599). -/
def execClear (req : Req) (s : State) : Res := .next (s.fldDo req R.FLT_NV_CFG_CLEAR 1)

/-- INJECTION_ARM (R604). -/
def execInjectionArm (req : Req) (st : Fin 32) (mode : BitVec 2) (dbl : Bool) (s : State) : Res :=
  .next (s.regDo req (R.FLT_INJ st.val) (BitVec.ofNat 32 (mode.toNat + b2n dbl * 4)))

/-- ADM_WRITE (R608, R609). -/
def execAdmWrite (req : Req) (u : Fin 152) (v : Word) (s : State) : Res := .next (s.regDo req (R.ADM u.val) v)

/-- WDT_KEY_FIRST (R615-R617). -/
def execWdtKeyFirst (req : Req) (v : Word) (s : State) : Res := .next (s.regDo req R.WDT_KEY v)

/-- WDT_KEY_SECOND (R615-R617). -/
def execWdtKeySecond (req : Req) (v : Word) (s : State) : Res := .next (s.regDo req R.WDT_KEY v)

/-- ROW_WDT_SERVICE (R621). -/
def execRowWdtService (req : Req) (r : Fin 8) (v : Word) (s : State) : Res := .next (s.regDo req (R.ROW_WDT_KEY r.val) v)

/-! ### Graft (18) -/

/-- DEMOTE (R628). -/
def execDemote (req : Req) (s : State) : Res := .next (s.fldDo req ⟨R.GRAFT_CTL, 2, 1⟩ 1)

end Sys2Proof.Machine
end

