-- ==== Sys2Proof/Machine/Takeover.lean ====
section
/-! DEFINITION. The takeover of a standby whose partner has tripped (18, R646-R651, Table 18.5). -/

namespace Sys2Proof.Machine

/-- Whether a calibration pair may name the register at `off` (R648). -/
def calOffset (off : Nat) : Bool :=
  decide (0x10000 ≤ off) && decide (off < 0x1A000)
    && !((List.range 4).any (fun x => R.LOOP_CTL x == off || R.LOOP_PHCMD x == off))

/-- Applies the pairs of a CAL section as writes by requester 0x210; tells whether one was skipped (R648). -/
def State.applyPairs (s : State) : Nat → Bytes → State × Bool
  | 0, _ => (s, false)
  | n + 1, bs =>
    let off := leNat (bs.take 4)
    let a := s.winWrite .rootstock off (BitVec.ofNat 32 (leNat (slice 4 4 bs)))
    if calOffset off && a.code == 0 then a.st.applyPairs n (bs.drop 8)
    else ((s.applyPairs n (bs.drop 8)).1, true)

/-- Copies bytes to a device address; tells whether the write was skipped (R23, R36). -/
def State.installAt (s : State) (addr : Nat) (bs : Bytes) : State × Bool :=
  match memAt addr bs.length with
  | some m => if m != .regs && s.granted m.domain then (s.devWrite addr bs, false) else (s, true)
  | none => (s, true)

/-- Copies a FLOW section into one bough of its mask; whether any copy was refused is kept beside the state. -/
def State.installBough (a : State × Bool) (addr mask b : Nat) (bs : Bytes) : State × Bool :=
  if mask.testBit b then
    ((a.1.installAt (0x100000000 + b * 0x1000000 + addr % 0x1000000) bs).1,
      a.2 || (a.1.installAt (0x100000000 + b * 0x1000000 + addr % 0x1000000) bs).2)
  else a

/-- Copies a FLOW section into every bough of its mask (Table 18.3, step 4). -/
def State.installFlow (s : State) (addr mask : Nat) (bs : Bytes) : State × Bool :=
  (List.range 8).foldl (fun a b => State.installBough a addr mask b bs) (s, false)

/-- The bytes of a section as the takeover reads them from its bank. -/
structure TakeSec where
  addr : Nat
  kind : Nat
  mask : Nat
  data : Bytes

/-- The sections of the epoch in bank bytes `bank`, whose data begins at `pos`. -/
def takeSecs (bank : Bytes) : Nat → List (Nat × Nat × Nat × Nat × Bool) → List TakeSec
  | _, [] => []
  | pos, e :: es => ⟨e.1, e.2.2.1, e.2.2.2.1, slice pos e.2.1 bank⟩ :: takeSecs bank (pos + e.2.1) es

/-- Does `f` on every section of kind in `kinds`, section `i` of the list being section `i` of the epoch; a skip sets the
section's bit of GRAFT_TAKE_SKIP (R648). -/
def State.eachSec (s : State) (kinds : List Nat) (f : TakeSec → State → State × Bool) : Nat → List TakeSec → State
  | _, [] => s
  | i, x :: xs =>
    if kinds.contains x.kind then
      let r := f x s
      let t := if r.2 then (if i < 32 then r.1.setBit R.GRAFT_TAKE_SKIP i else r.1).fault 78 5 else r.1
      t.eachSec kinds f (i + 1) xs
    else s.eachSec kinds f (i + 1) xs

/-- Step 5 (R650): the first BAT section with the right MAGIC, version and CRC-32 is applied. -/
def State.takeBattery (s : State) (secs : List TakeSec) : State :=
  let s := s.setFld R.BAT_STATUS_PROVISIONAL 1
  let ok := fun (x : TakeSec) =>
    let w := fun n => BitVec.ofNat 32 (leNat (slice (4 * n) 4 x.data))
    x.kind == 4 && w 0 == 0xBA770001 && crc32Ieee (x.data.take 28) == (w 7).toNat
  match secs.find? ok with
  | some x =>
    ((s.restoreBlock (fun n => BitVec.ofNat 32 (leNat (slice (4 * n) 4 x.data)))).setFld R.BAT_STATUS_RESULT 1).setFld
      R.GRAFT_TAKE_BAT 1
  | none => s

/-- Steps 2 to 5 on bank `k` (Table 18.5). -/
def State.takeBank (s : State) (k : Nat) : State :=
  let r := s.commitRec k
  let b := s.graftSource (s.bankAt k) (min (leNat (slice 12 4 r)) (s.bankSize - 64))
  let n := leNat (slice 6 2 r)
  let secs := takeSecs b.1 (16 * n) (graftSections n b.1)
  let s := b.2.eachSec [1] (fun x s => s.applyPairs (x.data.length / 8) x.data) 0 secs
  let s := s.eachSec [2, 3] (fun x s =>
    if x.kind = 2 then s.installFlow x.addr x.mask x.data else s.installAt x.addr x.data) 0 secs
  s.takeBattery secs

/-- TAKEOVER (R647, R649): the takeover that GRAFT_STATUS.STATE shows runs to its end. GRAFT_TAKE_T counts from the rise of
PARTNER_TRIP, 50 us before its qualification. -/
def execTakeover (s : State) : Res :=
  .next (
    if s.graftState = 5 then
      let s := (s.setReg R.GRAFT_TAKE 0).setReg R.GRAFT_TAKE_SKIP 0
      let s := match s.currentBank with
        | some b => s.takeBank b.1
        | none => ((s.setFld R.BAT_STATUS_PROVISIONAL 1).setFld R.GRAFT_TAKE_NO_EPOCH 1).fault 78 4
      let s := ((s.setFld R.GRAFT_STATUS_ROLE 1).graftTo 2).setFld R.GRAFT_TAKE_DONE 1
      let s := s.setReg R.GRAFT_TAKE_T (BitVec.ofNat 32 (50 + (s.clk - s.graft.tripAt) / 1000))
      s.event (s.reg R.GRAFT_ROUTE)
    else s)

end Sys2Proof.Machine
end

