-- ==== Sys2Proof/Machine/Dispatch.lean ====
section
/-! DEFINITION. The dispatch: one arm per command, each a direct call of its meaning. -/

namespace Sys2Proof.Machine

/-- The effect of a command on everything but the queue. -/
def exec (i : Instr) (s : State) : Host.Outcome State Fault Refusal :=
  match i with
  | .registerWrite req tgt bytes v => Sys2Proof.Machine.execRegisterWrite req tgt bytes v s
  | .loRead req tgt => Sys2Proof.Machine.execLoRead req tgt s
  | .hiRead req tgt => Sys2Proof.Machine.execHiRead req tgt s
  | .loWrite req tgt v => Sys2Proof.Machine.execLoWrite req tgt v s
  | .hiWrite req tgt v => Sys2Proof.Machine.execHiWrite req tgt v s
  | .rtcSecWrite req lo hi => Sys2Proof.Machine.execRtcSecWrite req lo hi s
  | .coldStart straps testEn => Sys2Proof.Machine.execColdStart straps testEn s
  | .vkaLoss => Sys2Proof.Machine.execVkaLoss s
  | .warmReset => Sys2Proof.Machine.execWarmReset s
  | .warmResetEnd => Sys2Proof.Machine.execWarmResetEnd s
  | .xtalChangeover => Sys2Proof.Machine.execXtalChangeover s
  | .xtalFail => Sys2Proof.Machine.execXtalFail s
  | .rtcAlarm => Sys2Proof.Machine.execRtcAlarm s
  | .wakeQualify n => Sys2Proof.Machine.execWakeQualify n s
  | .wakeCfgWrite req n v => Sys2Proof.Machine.execWakeCfgWrite req n v s
  | .vbatComparatorQualify hi => Sys2Proof.Machine.execVbatComparatorQualify hi s
  | .vbatCmpWrite req v => Sys2Proof.Machine.execVbatCmpWrite req v s
  | .standbyEntry req => Sys2Proof.Machine.execStandbyEntry req s
  | .rramDataAccess req wr => Sys2Proof.Machine.execRramDataAccess req wr s
  | .rramEccInjArm req inj => Sys2Proof.Machine.execRramEccInjArm req inj s
  | .domainRequest d => Sys2Proof.Machine.execDomainRequest d s
  | .domainGrant d => Sys2Proof.Machine.execDomainGrant d s
  | .domainRelease d => Sys2Proof.Machine.execDomainRelease d s
  | .domainRequestEnd d => Sys2Proof.Machine.execDomainRequestEnd d s
  | .budAck b => Sys2Proof.Machine.execBudAck b s
  | .budTimeout b => Sys2Proof.Machine.execBudTimeout b s
  | .vioLoss => Sys2Proof.Machine.execVioLoss s
  | .vioReturn => Sys2Proof.Machine.execVioReturn s
  | .refSysTimeout => Sys2Proof.Machine.execRefSysTimeout s
  | .pllLockTimeout p => Sys2Proof.Machine.execPllLockTimeout p s
  | .serdesRailLoss rail => Sys2Proof.Machine.execSerdesRailLoss rail s
  | .rootstockBoot xspi => Sys2Proof.Machine.execRootstockBoot xspi s
  | .fabricLoad xspi => Sys2Proof.Machine.execFabricLoad xspi s
  | .xspiTimeout => Sys2Proof.Machine.execXspiTimeout s
  | .stageGo req => Sys2Proof.Machine.execStageGo req s
  | .stagedImageDone => Sys2Proof.Machine.execStagedImageDone s
  | .boughRelease req => Sys2Proof.Machine.execBoughRelease req s
  | .advVer req => Sys2Proof.Machine.execAdvVer req s
  | .revoke req n => Sys2Proof.Machine.execRevoke req n s
  | .rngRead req => Sys2Proof.Machine.execRngRead req s
  | .rngHealthFail => Sys2Proof.Machine.execRngHealthFail s
  | .restart req pass => Sys2Proof.Machine.execRestart req pass s
  | .idcode => Sys2Proof.Machine.execIdcode s
  | .challenge => Sys2Proof.Machine.execChallenge s
  | .response level sig => Sys2Proof.Machine.execResponse level sig s
  | .bypass code => Sys2Proof.Machine.execBypass code s
  | .instructionFetch t k => Sys2Proof.Machine.execInstructionFetch t k s
  | .fetchFault t => Sys2Proof.Machine.execFetchFault t s
  | .illegalEncoding t w => Sys2Proof.Machine.execIllegalEncoding t w s
  | .mv t rd rs => Sys2Proof.Machine.execMv t rd rs s
  | .add t f => Sys2Proof.Machine.execAdd t f s
  | .sub t f => Sys2Proof.Machine.execSub t f s
  | .and t f => Sys2Proof.Machine.execAnd t f s
  | .or t f => Sys2Proof.Machine.execOr t f s
  | .xor t f => Sys2Proof.Machine.execXor t f s
  | .sll t f => Sys2Proof.Machine.execSll t f s
  | .srl t f => Sys2Proof.Machine.execSrl t f s
  | .sra t f => Sys2Proof.Machine.execSra t f s
  | .cmp t rd rs => Sys2Proof.Machine.execCmp t rd rs s
  | .neg t rd rs => Sys2Proof.Machine.execNeg t rd rs s
  | .not t rd rs => Sys2Proof.Machine.execNot t rd rs s
  | .bswap t f => Sys2Proof.Machine.execBswap t f s
  | .addi t f => Sys2Proof.Machine.execAddi t f s
  | .li t rd simm => Sys2Proof.Machine.execLi t rd simm s
  | .slli t f => Sys2Proof.Machine.execSlli t f s
  | .srli t f => Sys2Proof.Machine.execSrli t f s
  | .srai t f => Sys2Proof.Machine.execSrai t f s
  | .cmpi t rs simm => Sys2Proof.Machine.execCmpi t rs simm s
  | .mul t rd ra rb => Sys2Proof.Machine.execMul t rd ra rb s
  | .mulhs t rd ra rb => Sys2Proof.Machine.execMulhs t rd ra rb s
  | .mulhu t rd ra rb => Sys2Proof.Machine.execMulhu t rd ra rb s
  | .min t rd ra rb => Sys2Proof.Machine.execMin t rd ra rb s
  | .max t rd ra rb => Sys2Proof.Machine.execMax t rd ra rb s
  | .minu t rd ra rb => Sys2Proof.Machine.execMinu t rd ra rb s
  | .maxu t rd ra rb => Sys2Proof.Machine.execMaxu t rd ra rb s
  | .addc t rd ra rb => Sys2Proof.Machine.execAddc t rd ra rb s
  | .subc t rd ra rb => Sys2Proof.Machine.execSubc t rd ra rb s
  | .clz t rd ra => Sys2Proof.Machine.execClz t rd ra s
  | .popc t rd ra => Sys2Proof.Machine.execPopc t rd ra s
  | .extu t rd ra rb => Sys2Proof.Machine.execExtu t rd ra rb s
  | .andi t rd ra imm => Sys2Proof.Machine.execAndi t rd ra imm s
  | .ori t rd ra imm => Sys2Proof.Machine.execOri t rd ra imm s
  | .lui t rd imm => Sys2Proof.Machine.execLui t rd imm s
  | .ldw t f => Sys2Proof.Machine.execLdw t f s
  | .ldh t rd ra imm => Sys2Proof.Machine.execLdh t rd ra imm s
  | .ldhu t rd ra imm => Sys2Proof.Machine.execLdhu t rd ra imm s
  | .ldb t rd ra imm => Sys2Proof.Machine.execLdb t rd ra imm s
  | .ldbu t rd ra imm => Sys2Proof.Machine.execLdbu t rd ra imm s
  | .xadd t rd ra imm => Sys2Proof.Machine.execXadd t rd ra imm s
  | .xchg t rd ra imm => Sys2Proof.Machine.execXchg t rd ra imm s
  | .stw t f => Sys2Proof.Machine.execStw t f s
  | .sth t rd ra imm => Sys2Proof.Machine.execSth t rd ra imm s
  | .stb t rd ra imm => Sys2Proof.Machine.execStb t rd ra imm s
  | .agLoad t f k => Sys2Proof.Machine.execAgLoad t f k s
  | .agStore t f k => Sys2Proof.Machine.execAgStore t f k s
  | .b t off => Sys2Proof.Machine.execB t off s
  | .bcond t f => Sys2Proof.Machine.execBcond t f s
  | .bz t f => Sys2Proof.Machine.execBz t f s
  | .bnz t f => Sys2Proof.Machine.execBnz t f s
  | .callm t f => Sys2Proof.Machine.execCallm t f s
  | .retm t => Sys2Proof.Machine.execRetm t s
  | .j t off => Sys2Proof.Machine.execJ t off s
  | .jr t rs => Sys2Proof.Machine.execJr t rs s
  | .macl t ad ra rb => Sys2Proof.Machine.execMacl t ad ra rb s
  | .msul t ad ra rb => Sys2Proof.Machine.execMsul t ad ra rb s
  | .mpyl t ad ra rb => Sys2Proof.Machine.execMpyl t ad ra rb s
  | .macp t ad ra rb => Sys2Proof.Machine.execMacp t ad ra rb s
  | .msup t ad ra rb => Sys2Proof.Machine.execMsup t ad ra rb s
  | .ext t rd an sh => Sys2Proof.Machine.execExt t rd an sh s
  | .aclr t ad => Sys2Proof.Machine.execAclr t ad s
  | .amov t ad ra => Sys2Proof.Machine.execAmov t ad ra s
  | .aadd t ad an => Sys2Proof.Machine.execAadd t ad an s
  | .fadd t rd ra rb => Sys2Proof.Machine.execFadd t rd ra rb s
  | .fsub t rd ra rb => Sys2Proof.Machine.execFsub t rd ra rb s
  | .padd t rd ra rb => Sys2Proof.Machine.execPadd t rd ra rb s
  | .psub t rd ra rb => Sys2Proof.Machine.execPsub t rd ra rb s
  | .fsra t rd ra rb => Sys2Proof.Machine.execFsra t rd ra rb s
  | .fork t rd ra rb => Sys2Proof.Machine.execFork t rd ra rb s
  | .join t ra => Sys2Proof.Machine.execJoin t ra s
  | .joinComplete t => Sys2Proof.Machine.execJoinComplete t s
  | .quit t f => Sys2Proof.Machine.execQuit t f s
  | .waitt t ra => Sys2Proof.Machine.execWaitt t ra s
  | .waittComplete t => Sys2Proof.Machine.execWaittComplete t s
  | .waite t rd ra => Sys2Proof.Machine.execWaite t rd ra s
  | .waiteComplete t => Sys2Proof.Machine.execWaiteComplete t s
  | .timerCompareMet t => Sys2Proof.Machine.execTimerCompareMet t s
  | .hreq t h cn ra rb => Sys2Proof.Machine.execHreq t h cn ra rb s
  | .hwait t rd cn => Sys2Proof.Machine.execHwait t rd cn s
  | .hwaitComplete t => Sys2Proof.Machine.execHwaitComplete t s
  | .hpoll t rd cn => Sys2Proof.Machine.execHpoll t rd cn s
  | .mfs t rd n => Sys2Proof.Machine.execMfs t rd n s
  | .mts t n ra => Sys2Proof.Machine.execMts t n ra s
  | .eret t f => Sys2Proof.Machine.execEret t f s
  | .sysc t f imm => Sys2Proof.Machine.execSysc t f imm s
  | .brk t f imm => Sys2Proof.Machine.execBrk t f imm s
  | .fence t => Sys2Proof.Machine.execFence t s
  | .eventPost req b t mask => Sys2Proof.Machine.execEventPost req b t mask s
  | .release req t => Sys2Proof.Machine.execRelease req t s
  | .resume req t => Sys2Proof.Machine.execResume req t s
  | .loopEnable req x hard => Sys2Proof.Machine.execLoopEnable req x hard s
  | .loopDisable req x hard => Sys2Proof.Machine.execLoopDisable req x hard s
  | .regulatingEntry x => Sys2Proof.Machine.execRegulatingEntry x s
  | .softstartTimeout x => Sys2Proof.Machine.execSoftstartTimeout x s
  | .phaseSafePoint x => Sys2Proof.Machine.execPhaseSafePoint x s
  | .phcmdBud req x mask tmo => Sys2Proof.Machine.execPhcmdBud req x mask tmo s
  | .phcmdPrune req x mask tmo => Sys2Proof.Machine.execPhcmdPrune req x mask tmo s
  | .pruneTimeout n => Sys2Proof.Machine.execPruneTimeout n s
  | .zeroCrossing n => Sys2Proof.Machine.execZeroCrossing n s
  | .lawCompute x => Sys2Proof.Machine.execLawCompute x s
  | .deEnter x => Sys2Proof.Machine.execDeEnter x s
  | .boughWakeRequest b => Sys2Proof.Machine.execBoughWakeRequest b s
  | .wakeBoostEnd => Sys2Proof.Machine.execWakeBoostEnd s
  | .hintUp => Sys2Proof.Machine.execHintUp s
  | .hintDn => Sys2Proof.Machine.execHintDn s
  | .loopTelemetryPublish x => Sys2Proof.Machine.execLoopTelemetryPublish x s
  | .peakClr req x => Sys2Proof.Machine.execPeakClr req x s
  | .slotFire n sl => Sys2Proof.Machine.execSlotFire n sl s
  | .conversionResult n uV => Sys2Proof.Machine.execConversionResult n uV s
  | .precisionEntryDone m sl uVs => Sys2Proof.Machine.execPrecisionEntryDone m sl uVs s
  | .precisionListRestart m => Sys2Proof.Machine.execPrecisionListRestart m s
  | .converterCalibration fast ok => Sys2Proof.Machine.execConverterCalibration fast ok s
  | .governorTick => Sys2Proof.Machine.execGovernorTick s
  | .govWindowTimeout x => Sys2Proof.Machine.execGovWindowTimeout x s
  | .govEventClose x => Sys2Proof.Machine.execGovEventClose x s
  | .govDisable req x => Sys2Proof.Machine.execGovDisable req x s
  | .maxClr req x => Sys2Proof.Machine.execMaxClr req x s
  | .tachEdge n us => Sys2Proof.Machine.execTachEdge n us s
  | .tachStall n => Sys2Proof.Machine.execTachStall n s
  | .fanMonitorCheck => Sys2Proof.Machine.execFanMonitorCheck s
  | .fanKeepTimeout => Sys2Proof.Machine.execFanKeepTimeout s
  | .shutdownAssert ts uV => Sys2Proof.Machine.execShutdownAssert ts uV s
  | .shutdownRelease => Sys2Proof.Machine.execShutdownRelease s
  | .batteryAbsent => Sys2Proof.Machine.execBatteryAbsent s
  | .batEnable req => Sys2Proof.Machine.execBatEnable req s
  | .firstEstimate => Sys2Proof.Machine.execFirstEstimate s
  | .batPublish => Sys2Proof.Machine.execBatPublish s
  | .batRestore req => Sys2Proof.Machine.execBatRestore req s
  | .batStale => Sys2Proof.Machine.execBatStale s
  | .batRelaxResync => Sys2Proof.Machine.execBatRelaxResync s
  | .page x => Sys2Proof.Machine.execPage x s
  | .operation x => Sys2Proof.Machine.execOperation x s
  | .onOffConfig x => Sys2Proof.Machine.execOnOffConfig x s
  | .clearFaults x => Sys2Proof.Machine.execClearFaults x s
  | .writeProtect x => Sys2Proof.Machine.execWriteProtect x s
  | .capability x => Sys2Proof.Machine.execCapability x s
  | .voutMode x => Sys2Proof.Machine.execVoutMode x s
  | .voutCommand x => Sys2Proof.Machine.execVoutCommand x s
  | .voutMax x => Sys2Proof.Machine.execVoutMax x s
  | .voutMin x => Sys2Proof.Machine.execVoutMin x s
  | .voutTransitionRate x => Sys2Proof.Machine.execVoutTransitionRate x s
  | .voutOvFaultLimit x => Sys2Proof.Machine.execVoutOvFaultLimit x s
  | .voutUvFaultLimit x => Sys2Proof.Machine.execVoutUvFaultLimit x s
  | .statusByte x => Sys2Proof.Machine.execStatusByte x s
  | .statusWord x => Sys2Proof.Machine.execStatusWord x s
  | .statusVout x => Sys2Proof.Machine.execStatusVout x s
  | .statusIout x => Sys2Proof.Machine.execStatusIout x s
  | .statusTemperature x => Sys2Proof.Machine.execStatusTemperature x s
  | .statusCml x => Sys2Proof.Machine.execStatusCml x s
  | .statusMfrSpecific x => Sys2Proof.Machine.execStatusMfrSpecific x s
  | .readEout x => Sys2Proof.Machine.execReadEout x s
  | .readVout x => Sys2Proof.Machine.execReadVout x s
  | .readIout x => Sys2Proof.Machine.execReadIout x s
  | .readTemperature1 x => Sys2Proof.Machine.execReadTemperature1 x s
  | .readPout x => Sys2Proof.Machine.execReadPout x s
  | .pmbusRevision x => Sys2Proof.Machine.execPmbusRevision x s
  | .mfrId x => Sys2Proof.Machine.execMfrId x s
  | .mfrModel x => Sys2Proof.Machine.execMfrModel x s
  | .mfrRevision x => Sys2Proof.Machine.execMfrRevision x s
  | .mfrRegRead x => Sys2Proof.Machine.execMfrRegRead x s
  | .mfrRegWrite x => Sys2Proof.Machine.execMfrRegWrite x s
  | .mfrGovEvent x => Sys2Proof.Machine.execMfrGovEvent x s
  | .mfrBat x => Sys2Proof.Machine.execMfrBat x s
  | .mfrPhases x => Sys2Proof.Machine.execMfrPhases x s
  | .mfrReady x => Sys2Proof.Machine.execMfrReady x s
  | .mfrProg idx x => Sys2Proof.Machine.execMfrProg idx x s
  | .invalidCommand code => Sys2Proof.Machine.execInvalidCommand code s
  | .alertResponse => Sys2Proof.Machine.execAlertResponse s
  | .mbxResponse req v => Sys2Proof.Machine.execMbxResponse req v s
  | .stretchTimeout total => Sys2Proof.Machine.execStretchTimeout total s
  | .busTimeout => Sys2Proof.Machine.execBusTimeout s
  | .controllerWrite req n v => Sys2Proof.Machine.execControllerWrite req n v s
  | .controllerWriteRead req n v => Sys2Proof.Machine.execControllerWriteRead req n v s
  | .controllerRead req n v => Sys2Proof.Machine.execControllerRead req n v s
  | .controllerBlockRead req n v => Sys2Proof.Machine.execControllerBlockRead req n v s
  | .controllerRetry n => Sys2Proof.Machine.execControllerRetry n s
  | .controllerTimeout n => Sys2Proof.Machine.execControllerTimeout n s
  | .controllerDone n res => Sys2Proof.Machine.execControllerDone n res s
  | .avsWriteCommit m frame => Sys2Proof.Machine.execAvsWriteCommit m frame s
  | .avsWriteHold m frame => Sys2Proof.Machine.execAvsWriteHold m frame s
  | .avsVoltageRead m frame => Sys2Proof.Machine.execAvsVoltageRead m frame s
  | .avsRateRead m frame => Sys2Proof.Machine.execAvsRateRead m frame s
  | .avsRateWrite m frame => Sys2Proof.Machine.execAvsRateWrite m frame s
  | .avsCurrentRead m frame => Sys2Proof.Machine.execAvsCurrentRead m frame s
  | .avsTemperatureRead m frame => Sys2Proof.Machine.execAvsTemperatureRead m frame s
  | .avsResetVoltage m frame => Sys2Proof.Machine.execAvsResetVoltage m frame s
  | .avsStatusRead m frame => Sys2Proof.Machine.execAvsStatusRead m frame s
  | .avsVersionRead m frame => Sys2Proof.Machine.execAvsVersionRead m frame s
  | .rowEnable req r => Sys2Proof.Machine.execRowEnable req r s
  | .rowDisable req r => Sys2Proof.Machine.execRowDisable req r s
  | .rowReset req r => Sys2Proof.Machine.execRowReset req r s
  | .rowResetDone r => Sys2Proof.Machine.execRowResetDone r s
  | .msixMessage r v => Sys2Proof.Machine.execMsixMessage r v s
  | .doorbell r q v => Sys2Proof.Machine.execDoorbell r q v s
  | .h2dDescriptor r q lo w2 w3 data bad => Sys2Proof.Machine.execH2dDescriptor r q lo w2 w3 data bad s
  | .d2hDelivery r q lo w2 w3 bad => Sys2Proof.Machine.execD2hDelivery r q lo w2 w3 bad s
  | .mailboxGo r len vec => Sys2Proof.Machine.execMailboxGo r len vec s
  | .functionLevelReset r => Sys2Proof.Machine.execFunctionLevelReset r s
  | .linkDown => Sys2Proof.Machine.execLinkDown s
  | .perstFall => Sys2Proof.Machine.execPerstFall s
  | .configRequest pf op => Sys2Proof.Machine.execConfigRequest pf op s
  | .frameReceive src data fcsOk => Sys2Proof.Machine.execFrameReceive src data fcsOk s
  | .breqClear req mask => Sys2Proof.Machine.execBreqClear req mask s
  | .pauseReceive e quanta => Sys2Proof.Machine.execPauseReceive e quanta s
  | .pauseEnd e => Sys2Proof.Machine.execPauseEnd e s
  | .dispatch r => Sys2Proof.Machine.execDispatch r s
  | .get t cn => Sys2Proof.Machine.execGet t cn s
  | .emit t cn => Sys2Proof.Machine.execEmit t cn s
  | .parse t cn => Sys2Proof.Machine.execParse t cn s
  | .find t cn => Sys2Proof.Machine.execFind t cn s
  | .inet t cn => Sys2Proof.Machine.execInet t cn s
  | .crc32 t cn => Sys2Proof.Machine.execCrc32 t cn s
  | .aesSeal t cn => Sys2Proof.Machine.execAesSeal t cn s
  | .aesOpen t cn => Sys2Proof.Machine.execAesOpen t cn s
  | .now t cn => Sys2Proof.Machine.execNow t cn s
  | .egressTs t cn => Sys2Proof.Machine.execEgressTs t cn s
  | .ticketRelease d => Sys2Proof.Machine.execTicketRelease d s
  | .orderTimeout d => Sys2Proof.Machine.execOrderTimeout d s
  | .frameTransmit port => Sys2Proof.Machine.execFrameTransmit port s
  | .gateChange port => Sys2Proof.Machine.execGateChange port s
  | .plcaBeacon idx => Sys2Proof.Machine.execPlcaBeacon idx s
  | .plcaBeaconLoss idx => Sys2Proof.Machine.execPlcaBeaconLoss idx s
  | .commit req v => Sys2Proof.Machine.execCommit req v s
  | .msecCommitDone => Sys2Proof.Machine.execMsecCommitDone s
  | .step req => Sys2Proof.Machine.execStep req s
  | .slew req => Sys2Proof.Machine.execSlew req s
  | .slewDone => Sys2Proof.Machine.execSlewDone s
  | .claim east data => Sys2Proof.Machine.execClaim east data s
  | .beacon east data => Sys2Proof.Machine.execBeacon east data s
  | .slot east data => Sys2Proof.Machine.execSlot east data s
  | .leave east data => Sys2Proof.Machine.execLeave east data s
  | .ringCtlStart req => Sys2Proof.Machine.execRingCtlStart req s
  | .stop req => Sys2Proof.Machine.execStop req s
  | .ringListenEnd => Sys2Proof.Machine.execRingListenEnd s
  | .ringBackoffEnd => Sys2Proof.Machine.execRingBackoffEnd s
  | .ringConfirmEnd => Sys2Proof.Machine.execRingConfirmEnd s
  | .ringCycleStart => Sys2Proof.Machine.execRingCycleStart s
  | .ringWindow => Sys2Proof.Machine.execRingWindow s
  | .ringCycleEnd => Sys2Proof.Machine.execRingCycleEnd s
  | .ringStartTimeout => Sys2Proof.Machine.execRingStartTimeout s
  | .ringBeaconMiss => Sys2Proof.Machine.execRingBeaconMiss s
  | .usbAttach vbus => Sys2Proof.Machine.execUsbAttach vbus s
  | .usbBusReset hs => Sys2Proof.Machine.execUsbBusReset hs s
  | .setConfiguration hub on => Sys2Proof.Machine.execSetConfiguration hub on s
  | .bulkOutPacket data => Sys2Proof.Machine.execBulkOutPacket data s
  | .ping => Sys2Proof.Machine.execPing s
  | .fankoecHello => Sys2Proof.Machine.execFankoecHello s
  | .authChallenge => Sys2Proof.Machine.execAuthChallenge s
  | .authResponse => Sys2Proof.Machine.execAuthResponse s
  | .logout => Sys2Proof.Machine.execLogout s
  | .readyMap => Sys2Proof.Machine.execReadyMap s
  | .regRead => Sys2Proof.Machine.execRegRead s
  | .regWrite => Sys2Proof.Machine.execRegWrite s
  | .fankoecJobSubmit => Sys2Proof.Machine.execFankoecJobSubmit s
  | .jobRead => Sys2Proof.Machine.execJobRead s
  | .notificationPoll => Sys2Proof.Machine.execNotificationPoll s
  | .notificationAck => Sys2Proof.Machine.execNotificationAck s
  | .ntfPost req bits => Sys2Proof.Machine.execNtfPost req bits s
  | .portPower n on => Sys2Proof.Machine.execPortPower n on s
  | .usbOvercurrent n => Sys2Proof.Machine.execUsbOvercurrent n s
  | .babble n => Sys2Proof.Machine.execBabble n s
  | .usbSuspend => Sys2Proof.Machine.execUsbSuspend s
  | .usbResumeK => Sys2Proof.Machine.execUsbResumeK s
  | .usbResumeEnd => Sys2Proof.Machine.execUsbResumeEnd s
  | .remoteWakeDecision lineK => Sys2Proof.Machine.execRemoteWakeDecision lineK s
  | .remoteWakeRelease => Sys2Proof.Machine.execRemoteWakeRelease s
  | .remoteWakeFail => Sys2Proof.Machine.execRemoteWakeFail s
  | .remoteWakeRetry => Sys2Proof.Machine.execRemoteWakeRetry s
  | .usbDisable req => Sys2Proof.Machine.execUsbDisable req s
  | .jobSubmit req o addr => Sys2Proof.Machine.execJobSubmit req o addr s
  | .nvWrite tag => Sys2Proof.Machine.execNvWrite tag s
  | .nvErase tag => Sys2Proof.Machine.execNvErase tag s
  | .calStore tag => Sys2Proof.Machine.execCalStore tag s
  | .graftSync tag => Sys2Proof.Machine.execGraftSync tag s
  | .ringStart tag => Sys2Proof.Machine.execRingStart tag s
  | .scrub tag => Sys2Proof.Machine.execScrub tag s
  | .bistBough tag fails => Sys2Proof.Machine.execBistBough tag fails s
  | .imageVerify tag => Sys2Proof.Machine.execImageVerify tag s
  | .logExport tag => Sys2Proof.Machine.execLogExport tag s
  | .storePageProgram code mismatch => Sys2Proof.Machine.execStorePageProgram code mismatch s
  | .jobComplete tag => Sys2Proof.Machine.execJobComplete tag s
  | .cplRead req o => Sys2Proof.Machine.execCplRead req o s
  | .clear req => Sys2Proof.Machine.execClear req s
  | .faultStoreClearDone => Sys2Proof.Machine.execFaultStoreClearDone s
  | .injectionArm req st mode dbl => Sys2Proof.Machine.execInjectionArm req st mode dbl s
  | .rsLockstep => Sys2Proof.Machine.execRsLockstep s
  | .admWrite req u v => Sys2Proof.Machine.execAdmWrite req u v s
  | .adminAdopt u => Sys2Proof.Machine.execAdminAdopt u s
  | .admGraceTimeout u => Sys2Proof.Machine.execAdmGraceTimeout u s
  | .wdtKeyFirst req v => Sys2Proof.Machine.execWdtKeyFirst req v s
  | .wdtKeySecond req v => Sys2Proof.Machine.execWdtKeySecond req v s
  | .wdtExpiry => Sys2Proof.Machine.execWdtExpiry s
  | .wdTripRelease => Sys2Proof.Machine.execWdTripRelease s
  | .rowWdtService req r v => Sys2Proof.Machine.execRowWdtService req r v s
  | .rowWdtExpiry r => Sys2Proof.Machine.execRowWdtExpiry r s
  | .graftHelloSend => Sys2Proof.Machine.execGraftHelloSend s
  | .graftHello data => Sys2Proof.Machine.execGraftHello data s
  | .graftLinkLost => Sys2Proof.Machine.execGraftLinkLost s
  | .beginFrame data => Sys2Proof.Machine.execBeginFrame data s
  | .dataFrame data => Sys2Proof.Machine.execDataFrame data s
  | .endFrame data => Sys2Proof.Machine.execEndFrame data s
  | .ackFrame data => Sys2Proof.Machine.execAckFrame data s
  | .nakFrame data => Sys2Proof.Machine.execNakFrame data s
  | .abortFrame data => Sys2Proof.Machine.execAbortFrame data s
  | .graftAckTimeout => Sys2Proof.Machine.execGraftAckTimeout s
  | .graftEpochTimeout => Sys2Proof.Machine.execGraftEpochTimeout s
  | .demote req => Sys2Proof.Machine.execDemote req s
  | .partnerTrip => Sys2Proof.Machine.execPartnerTrip s
  | .takeover => Sys2Proof.Machine.execTakeover s
  | .vbatComparatorRearm hi => Sys2Proof.Machine.execVbatComparatorRearm hi s
  | .wakeLeavesActive n => Sys2Proof.Machine.execWakeLeavesActive n s
  | .serdesRailReturn rail => Sys2Proof.Machine.execSerdesRailReturn rail s
  | .portLockGain p => Sys2Proof.Machine.execPortLockGain p s
  | .portLinkLost p => Sys2Proof.Machine.execPortLinkLost p s
  | .pcieLinkUp speed width => Sys2Proof.Machine.execPcieLinkUp speed width s
  | .perstRise => Sys2Proof.Machine.execPerstRise s
  | .frameTransmitEnd port => Sys2Proof.Machine.execFrameTransmitEnd port s
  | .portConnectChange n conn => Sys2Proof.Machine.execPortConnectChange n conn s
  | .deviceRemoteWakeup fn on => Sys2Proof.Machine.execDeviceRemoteWakeup fn on s
  | .clearPortSuspend rq => Sys2Proof.Machine.execClearPortSuspend rq s

end Sys2Proof.Machine
end

