-- ==== Sys2Proof/Machine/Tick.lean ====
section
/-! DEFINITION. One nanosecond in which no command waits: what the clocks count (02, R44; 14, R510, R513; 15, R535; 17, R613, R621, R711). -/

namespace Sys2Proof.Machine

/-- What the DTB advances by in a cycle whose accumulator goes from `frac` to `frac + rate` (R510). -/
def dtbAdvance (frac : Nat) (rate : Int) : Nat :=
  if (2 : Int) ^ 32 ≤ frac + rate then 2 else if (frac : Int) + rate < 0 then 0 else 1

/-- DTB_RATE in force: a magnitude above 2^22 acts as 2^22 (R510). -/
def State.dtbRate (s : State) : Int := clampI (-(2 ^ 22)) (2 ^ 22) (toSigned 32 (s.reg R.DTB_RATE).toNat)

/-- What a slew adds in this cycle: 1 ns towards its goal in each 1,024 ns (R513). -/
def DtbSt.slewStep (d : DtbSt) : Int := if d.slewPhase = 1023 then d.slewLeft.sign else 0

/-- One cycle of PLL_SYS (R510, R513): the DTB runs while PD12 is granted. -/
def State.dtbTick (s : State) : State :=
  if s.granted 12 then
    let n : Int := s.dtbNow + dtbAdvance s.dtb.frac s.dtbRate + s.dtb.slewStep
    let d : DtbSt := {
      frac := ((s.dtb.frac + s.dtbRate) % (2 ^ 32 : Int)).toNat
      slewLeft := s.dtb.slewLeft - s.dtb.slewStep
      slewPhase := if s.dtb.slewLeft = 0 then 0 else (s.dtb.slewPhase + 1) % 1024 }
    { s.setPair R.DTB_LO R.DTB_HI (n % (2 ^ 64 : Int)).toNat with dtb := d }
  else s

/-- The RTC counts one slow-clock cycle (R44). -/
def State.rtcTick (s : State) : State :=
  let sub := s.fld R.TAP_RTC_SUB_SUB + 1
  let s := { s.setFld R.TAP_RTC_SUB_SUB (sub % 32768) with slow := { s.slow with counted := true } }
  if sub = 32768 then s.setPair R.TAP_RTC_SEC_LO R.TAP_RTC_SEC_HI ((s.pair R.TAP_RTC_SEC_LO R.TAP_RTC_SEC_HI + 1) % 2 ^ 48) else s

/-- The watchdogs count one slow-clock cycle: the system watchdog unless in standby, a row watchdog while PD12 is granted. -/
def State.wdtTick (s : State) : State :=
  let c := if s.flag R.WDT_CTL_EN && !s.wdtFrozen then s.slow.wdtCycles + 1 else s.slow.wdtCycles
  let r := (List.range 8).foldl (fun t r =>
    if s.granted 12 && s.flag (R.ROW_WDT_CTL_EN r) then tabPut r (tabGet 0 r t + 1) t else t) s.slow.rowWdtCycles
  { s with slow := { s.slow with wdtCycles := c, rowWdtCycles := r } }

/-- A slow-clock cycle ends: no further source becomes the first of it (R51). -/
def State.closeFirst (s : State) : State := { s with tap := { s.tap with firstOpen := false } }

/-- One cycle of the slow clock (R42, R44, R47, R51). -/
def State.slowTick (s : State) : State := s.rtcTick.wdtTick.wdtEdge.closeFirst.wakeCycle

/-- Whether REF_SYS or a PLL has been started and does not run yet. -/
def State.clocksStarting (s : State) : Bool := s.tap.refSys == .starting || (List.range 3).any (fun p => s.pll p == .starting)

/-- One nanosecond in which REF_SYS comes to run, or PLLs of a running REF_SYS lock (R60, R710). Table 2.1 bounds when they do and gives
no instant, so a free value says whether it is this one (log 65). -/
def State.lockTick (s : State) : State :=
  if s.clocksStarting then
    let w := s.nextFree
    let s := s.tookFree
    let s := if s.tap.refSys = .starting ∧ bitOf w 3 = true then s.updTap (fun t => { t with refSys := .running }) else s
    (List.range 3).foldl (fun s p =>
      if s.pll p = .starting ∧ s.tap.refSys = .running ∧ bitOf w p = true then s.pllLocked p else s) s
  else s

/-- The slow clock's phase advances by a nanosecond. A cycle lasts 1,953,125/64 ns, the time of 1/32,768 s, from TAP_XTAL and from LPRC
alike (log 66). -/
def State.slowClock (s : State) : State :=
  if s.tapOn then
    let p := s.slow.phase + 64
    if p < 1953125 then { s with slow := { s.slow with phase := p } }
    else ({ s with slow := { s.slow with phase := p - 1953125 } }).slowTick
  else s

/-- The main clock counts one nanosecond more. -/
def State.clkUp (s : State) : State := { s with clk := s.clk + 1 }

/-- One nanosecond: what step does when no command waits (log 3). The host polls EP1 IN in it (15, R535, log 77). -/
def State.tick (s : State) : State := s.dtbTick.clkUp.slowClock.lockTick.ep1In

end Sys2Proof.Machine
end

