-- ==== Sys2Proof/Safety.lean ====
section
/-! DEFINITION. What a safe run of the device is, in the terms that statements use. -/

namespace Sys2Proof

open Sys2Proof.Machine

/-- The canonical form of a memory whose unlisted addresses read as `d` says: addresses strictly rising, no entry equal to what
its address reads as when unlisted. Equal memories are then equal lists. -/
def Memory.wf (d : Nat → Byte) (m : List Host.Cell) : Bool := tabWf d m

/-- The canonical form of every memory of the device and of its register window: the memories of the boughs, the rootstock's
memory, the flow store, retention RAM and the registers. -/
def Machine.State.wf (s : State) : Bool :=
  Memory.wf (memDflt s.fill) s.mem && Memory.wf (fun _ => 0) s.rsMem && Memory.wf (fun _ => 0xFF) s.nv
    && tabWf (rramDflt s.batKeep.fill) s.rram && tabWf coldWord s.regs

/-- The log of what the device has sent begins with what it had sent before: nothing sent is taken back. -/
def LogGrows (s t : State) : Prop := ∃ l, t.out = l ++ s.out

/-- The fuses of two states, the later one with the same parts or more blown: a key once revoked stays revoked and the minimum
version does not fall. -/
def FusesGrow (s t : State) : Prop :=
  s.fuses.revoked &&& t.fuses.revoked = s.fuses.revoked ∧ s.fuses.minVer.toNat ≤ t.fuses.minVer.toNat

/-! ## What an instruction leaves of its thread and of everything else -/

/-- Thread `t` issues an instruction of `n` bytes: it is in RUN, its bough has started (03, Table 3.2), and the fetch at its PC meets no
exception. -/
def CanIssue (s : State) (t : Thr) (n : Nat) : Prop :=
  (s.thr (thrKey t)).state = .run ∧ s.mayRun (thrKey t) = true ∧ s.fetchExc (thrKey t) n (s.thr (thrKey t)).pc = none

/-- Thread `t` itself. -/
abbrev Machine.State.own (s : State) (t : Thr) : Thread := s.thr (thrKey t)

/-- Nothing but thread `k` differs: no other thread, no memory, no register of the window, nothing sent. -/
def OnlyThread (s u : State) (k : Nat) : Prop :=
  { u with threads := s.threads } = s ∧ ∀ j, j ≠ k → u.thr j = s.thr j

/-- An instruction of `n` bytes wrote `v` to general register `rd`, where a write to g0 is discarded, and the thread went on. Every
other register of the thread but TSR is as it was. -/
def WroteReg (a b : Thread) (n rd : Nat) (v : Word) : Prop :=
  b.gr rd = (if rd = 0 then 0 else v) ∧ (∀ i, i ≠ rd → b.gr i = a.gr i) ∧ b.pc = a.pc + BitVec.ofNat 32 n ∧
    { b with g := a.g, tsr := a.tsr, pc := a.pc } = a

/-- An instruction of 4 bytes wrote `v` to accumulator `ad`. -/
def WroteAcc (a b : Thread) (ad : Nat) (v : BitVec 40) : Prop :=
  b.acc ad = v ∧ (∀ i, i ≠ ad → b.acc i = a.acc i) ∧ b.pc = a.pc + 4 ∧ { b with a := a.a, tsr := a.tsr, pc := a.pc } = a

/-- A result `r` to `rd` and no flag changed. -/
def Gives (s u : State) (t : Thr) (n rd : Nat) (r : Word) : Prop :=
  OnlyThread s u (thrKey t) ∧ WroteReg (s.own t) (u.own t) n rd r ∧
    (u.own t).tsr = (s.own t).tsr

/-- A result `r` to `rd`, Z and N from it, and no other bit of TSR changed. -/
def GivesZN (s u : State) (t : Thr) (n rd : Nat) (r : Word) : Prop :=
  OnlyThread s u (thrKey t) ∧ WroteReg (s.own t) (u.own t) n rd r ∧
    (u.own t).fz = (r == 0) ∧ (u.own t).fn = r.msb ∧
    (u.own t).tsr &&& 0xFFFFFFFC = (s.own t).tsr &&& 0xFFFFFFFC

/-- A result `r` to `rd`, Z and N from it, C and V as given, and no other bit of TSR changed. -/
def GivesCV (s u : State) (t : Thr) (n rd : Nat) (r : Word) (c v : Bool) : Prop :=
  OnlyThread s u (thrKey t) ∧ WroteReg (s.own t) (u.own t) n rd r ∧
    (u.own t).fz = (r == 0) ∧ (u.own t).fn = r.msb ∧
    (u.own t).fc = c ∧ (u.own t).fv = v ∧
    (u.own t).tsr &&& 0xFFFFFFF0 = (s.own t).tsr &&& 0xFFFFFFF0

/-- TSR after a fractional result: Z, N, C and V as given; SAT is set where the exact result did not fit under SATEN; no other bit
changed. -/
def FracFlags (a b : Thread) (z n c : Bool) (didFit : Bool) (v : Bool) : Prop :=
  b.fz = z ∧ b.fn = n ∧ b.fc = c ∧ b.fv = v ∧ bitOf b.tsr 4 = (bitOf a.tsr 4 || (!didFit && a.saten)) ∧
    b.tsr &&& 0xFFFFFFE0 = a.tsr &&& 0xFFFFFFE0

/-- The exact result `x` cut to `w` bits: with SATEN the nearest value that fits, without it the low bits. -/
def cutTo (w : Nat) (saten : Bool) (x : Int) : BitVec w :=
  if saten then
    BitVec.ofInt w (max (-((2 ^ (w - 1) : Nat) : Int)) (min x (((2 ^ (w - 1) : Nat) : Int) - 1)))
  else BitVec.ofInt w x

/-- The exact result `x` to accumulator `ad`, with its flags. -/
def GivesAcc (s u : State) (t : Thr) (ad : Nat) (x : Int) (c : Bool) : Prop :=
  let a := s.own t
  let b := u.own t
  OnlyThread s u (thrKey t) ∧ WroteAcc a b ad (cutTo 40 a.saten x) ∧
    FracFlags a b (cutTo 40 a.saten x == 0) (cutTo 40 a.saten x).msb c (fits 40 x) (!fits 40 x)

/-- The exact Q1.31 result `x` to `rd`, with its flags. -/
def GivesFrac (s u : State) (t : Thr) (rd : Nat) (x : Int) (c : Bool) : Prop :=
  let a := s.own t
  let b := u.own t
  OnlyThread s u (thrKey t) ∧ WroteReg a b 4 rd (cutTo 32 a.saten x) ∧
    FracFlags a b (cutTo 32 a.saten x == 0) (cutTo 32 a.saten x).msb c (fits 32 x) (!fits 32 x)

/-- Requester `req` may write every field of the register at `off`: it is alive, its paths lead there, the register's domain is granted,
and it holds the privilege of each field (R15, R19, R23). -/
def CanWrite (s : State) (req : Req) (off : Nat) : Prop :=
  s.reqLive req = true ∧ reaches req off = true ∧ s.granted (domainOf off) = true ∧
    ∀ r ∈ regRow off, ∀ f ∈ r.fields, s.mayWrite req off (f.privIn r) = true

/-- Requester `req` may read the register at `off`: it is alive, its paths lead there, the register's domain is granted. -/
def CanRead (s : State) (req : Req) (off : Nat) : Prop :=
  s.reqLive req = true ∧ reaches req off = true ∧ s.granted (domainOf off) = true

/-- Whether a step goes on: the answer is a next state. -/
def Goes (s : State) : Prop := ∃ t, step s = .next t

end Sys2Proof
end

