-- ==== Sys2Proof/WellFormed.lean ====
section
/-! DEFINITION. Which commands are well formed: those whose operands name something the device can be given. Every other
operand is bounded by its type. -/

namespace Sys2Proof

/-- C.AGM has loads of the kinds ldw, ldh and ldhu only (05, Table 5.10); the 32-bit form has every kind. -/
def AgForm.loadOk : AgForm → LoadKind → Bool
  | .c .., .byte => false
  | .c .., .byteu => false
  | _, _ => true

/-- C.AGM has stores of the kinds stw and sth only (05, Table 5.10). -/
def AgForm.storeOk : AgForm → StoreKind → Bool
  | .c .., .byte => false
  | _, _ => true

/-- The widths of an access in bytes (01, R14, R15, R37): the device refuses those a region does not take. -/
def accessBytes (n : Nat) : Bool := n == 1 || n == 2 || n == 4 || n == 8

/-- Whether a target is one that PCIe memory requests reach, which may be of more than 8 bytes (12, R450). -/
def Target.isBar : Target → Bool
  | .dev _ => false
  | .bar0 _ | .bar2 _ | .bar4 _ => true

/-- Which target a requester has: an offset in a BAR for the host's paths, a device address for every other (12, Table 12.6). -/
def Req.hasTarget : Req → Target → Bool
  | .bar0 _, .bar0 _ | .bar0 _, .bar2 _ | .pf0Bar4, .bar4 _ => true
  | .bar0 _, _ | .pf0Bar4, _ => false
  | _, .dev _ => true
  | _, _ => false

/-- The data bytes of a PMBus transfer: at most 255 (11). -/
def PmXfer.ok : PmXfer → Bool
  | .write d _ => decide (d.length ≤ 255)
  | .read _ => true
  | .call d _ => decide (d.length ≤ 255)

/-- Whether the operands of a command are ones that it can carry. The word of MV 0, 0 is illegal (05, R151). -/
def Instr.wf : Instr → Bool
  | .registerWrite r t n _ => (accessBytes n.val || (t.isBar && decide (8 < n.val))) && r.hasTarget t
  | .loRead r x => (accessBytes x.bytes.val || (x.tgt.isBar && decide (8 < x.bytes.val))) && r.hasTarget x.tgt
  | .hiRead r t | .loWrite r t _ | .hiWrite r t _ => r.hasTarget t
  | .mv _ rd rs => rd != 0 || rs != 0
  | .agLoad _ f k => f.loadOk k
  | .agStore _ f k => f.storeOk k
  | .hreq _ h _ _ _ => decide (h.toNat < 5)
  | .h2dDescriptor _ _ _ w2 _ bs _ => bs.length == w2.toNat % 2 ^ 16
  | .bulkOutPacket d => decide (d.length ≤ 512)
  | .page x | .operation x | .onOffConfig x | .clearFaults x | .writeProtect x | .capability x | .voutMode x | .voutCommand x
  | .voutMax x | .voutMin x | .voutTransitionRate x | .voutOvFaultLimit x | .voutUvFaultLimit x | .statusByte x | .statusWord x
  | .statusVout x | .statusIout x | .statusTemperature x | .statusCml x | .statusMfrSpecific x | .readEout x | .readVout x
  | .readIout x | .readTemperature1 x | .readPout x | .pmbusRevision x | .mfrId x | .mfrModel x | .mfrRevision x | .mfrRegRead x
  | .mfrRegWrite x | .mfrGovEvent x | .mfrBat x | .mfrPhases x | .mfrReady x | .mfrProg _ x => x.ok
  | _ => true

end Sys2Proof
end

