-- ==== Sys2Proof/Certificates/Slice0/Obligations.lean ====
section
/-! DEFINITION. The statements for the provers: what the commands of the block do, and what every step keeps. -/

open Sys2Proof Sys2Proof.Machine

/-- R155, R157, R159 and Table 4.4: the sums and differences. Each writes the low 32 bits of its result, sets Z and N from them,
C from the carry out (of a difference: no borrow) and V where the exact signed result does not fit. CMP and CMPI write no register,
which is a write to g0. -/
def Obligations.SumsAndDifferences : Prop :=
  (∀ (t : Thr) (f : AluForm) (s : State) (n rd : Nat) (x y : Word), aluArgs (s.own t) f = (n, rd, x, y) → CanIssue s t n →
    ∃ u, Sys2Proof.Machine.exec (.add t f) s = .next u ∧
      GivesCV s u t n rd (x + y) (decide (2 ^ 32 ≤ x.toNat + y.toNat)) (!fits 32 (x.toInt + y.toInt))) ∧
  (∀ (t : Thr) (f : AluForm) (s : State) (n rd : Nat) (x y : Word), aluArgs (s.own t) f = (n, rd, x, y) → CanIssue s t n →
    ∃ u, Sys2Proof.Machine.exec (.sub t f) s = .next u ∧
      GivesCV s u t n rd (x - y) (decide (y.toNat ≤ x.toNat)) (!fits 32 (x.toInt - y.toInt))) ∧
  (∀ (t : Thr) (f : AddiForm) (s : State) (n rd : Nat) (x y : Word), addiArgs (s.own t) f = (n, rd, x, y) → CanIssue s t n →
    ∃ u, Sys2Proof.Machine.exec (.addi t f) s = .next u ∧
      GivesCV s u t n rd (x + y) (decide (2 ^ 32 ≤ x.toNat + y.toNat)) (!fits 32 (x.toInt + y.toInt))) ∧
  (∀ (t : Thr) (rd rs : BitVec 4) (s : State) (x y : Word), (s.own t).gr rd.toNat = x → (s.own t).gr rs.toNat = y →
    CanIssue s t 2 → ∃ u, Sys2Proof.Machine.exec (.cmp t rd rs) s = .next u ∧
      GivesCV s u t 2 0 (x - y) (decide (y.toNat ≤ x.toNat)) (!fits 32 (x.toInt - y.toInt))) ∧
  (∀ (t : Thr) (rs : BitVec 4) (imm : BitVec 8) (s : State) (x y : Word), (s.own t).gr rs.toNat = x → imm.signExtend 32 = y →
    CanIssue s t 2 → ∃ u, Sys2Proof.Machine.exec (.cmpi t rs imm) s = .next u ∧
      GivesCV s u t 2 0 (x - y) (decide (y.toNat ≤ x.toNat)) (!fits 32 (x.toInt - y.toInt))) ∧
  (∀ (t : Thr) (rd rs : BitVec 4) (s : State) (x : Word), (s.own t).gr rs.toNat = x → CanIssue s t 2 →
    ∃ u, Sys2Proof.Machine.exec (.neg t rd rs) s = .next u ∧
      GivesCV s u t 2 rd.toNat (-x) (decide (x = 0)) (!fits 32 (-x.toInt))) ∧
  (∀ (t : Thr) (rd ra rb : BitVec 5) (s : State) (x y : Word) (c : Bool), (s.own t).gr ra.toNat = x → (s.own t).gr rb.toNat = y →
    (s.own t).fc = c → CanIssue s t 4 → ∃ u, Sys2Proof.Machine.exec (.addc t rd ra rb) s = .next u ∧
      GivesCV s u t 4 rd.toNat (x + y + BitVec.ofNat 32 c.toNat) (decide (2 ^ 32 ≤ x.toNat + y.toNat + c.toNat))
        (!fits 32 (x.toInt + y.toInt + c.toNat))) ∧
  (∀ (t : Thr) (rd ra rb : BitVec 5) (s : State) (x y : Word) (c : Bool), (s.own t).gr ra.toNat = x → (s.own t).gr rb.toNat = y →
    (s.own t).fc = c → CanIssue s t 4 → ∃ u, Sys2Proof.Machine.exec (.subc t rd ra rb) s = .next u ∧
      GivesCV s u t 4 rd.toNat (x + ~~~ y + BitVec.ofNat 32 c.toNat) (decide (2 ^ 32 ≤ x.toNat + (~~~ y).toNat + c.toNat))
        (!fits 32 (x.toInt + (~~~ y).toInt + c.toNat)))

/-- R155, R157, R158, R159: the logic operations and the shifts write their result and set Z and N from it. A shift by a register
uses the low five bits of its count. -/
def Obligations.LogicAndShifts : Prop :=
  (∀ (t : Thr) (f : AluForm) (s : State) (n rd : Nat) (x y : Word), aluArgs (s.own t) f = (n, rd, x, y) → CanIssue s t n →
    (∃ u, Sys2Proof.Machine.exec (.and t f) s = .next u ∧ GivesZN s u t n rd (x &&& y)) ∧
    (∃ u, Sys2Proof.Machine.exec (.or t f) s = .next u ∧ GivesZN s u t n rd (x ||| y)) ∧
    (∃ u, Sys2Proof.Machine.exec (.xor t f) s = .next u ∧ GivesZN s u t n rd (x ^^^ y)) ∧
    (∃ u, Sys2Proof.Machine.exec (.sll t f) s = .next u ∧ GivesZN s u t n rd (x <<< (y &&& 31))) ∧
    (∃ u, Sys2Proof.Machine.exec (.srl t f) s = .next u ∧ GivesZN s u t n rd (x >>> (y &&& 31))) ∧
    (∃ u, Sys2Proof.Machine.exec (.sra t f) s = .next u ∧ GivesZN s u t n rd (x.sshiftRight' (y &&& 31)))) ∧
  (∀ (t : Thr) (f : ShiftForm) (s : State) (n rd : Nat) (x : Word) (m : Nat), shiftArgs (s.own t) f = (n, rd, x, m) →
    CanIssue s t n →
    (∃ u, Sys2Proof.Machine.exec (.slli t f) s = .next u ∧ GivesZN s u t n rd (x <<< m)) ∧
    (∃ u, Sys2Proof.Machine.exec (.srli t f) s = .next u ∧ GivesZN s u t n rd (x >>> m)) ∧
    (∃ u, Sys2Proof.Machine.exec (.srai t f) s = .next u ∧ GivesZN s u t n rd (x.sshiftRight m))) ∧
  (∀ (t : Thr) (rd rs : BitVec 4) (s : State), CanIssue s t 2 →
    ∃ u, Sys2Proof.Machine.exec (.not t rd rs) s = .next u ∧ GivesZN s u t 2 rd.toNat (~~~ (s.own t).gr rs.toNat)) ∧
  (∀ (t : Thr) (rd ra : BitVec 5) (imm : BitVec 16) (s : State), CanIssue s t 4 →
    (∃ u, Sys2Proof.Machine.exec (.andi t rd ra imm) s = .next u ∧
      GivesZN s u t 4 rd.toNat ((s.own t).gr ra.toNat &&& imm.zeroExtend 32)) ∧
    (∃ u, Sys2Proof.Machine.exec (.ori t rd ra imm) s = .next u ∧
      GivesZN s u t 4 rd.toNat ((s.own t).gr ra.toNat ||| imm.zeroExtend 32)))

/-- R155, R157, R159: the moves and the products write their result and change no flag. -/
def Obligations.MovesAndProducts : Prop :=
  (∀ (t : Thr) (rd rs : BitVec 4) (s : State), CanIssue s t 2 →
    ∃ u, Sys2Proof.Machine.exec (.mv t rd rs) s = .next u ∧ Gives s u t 2 rd.toNat ((s.own t).gr rs.toNat)) ∧
  (∀ (t : Thr) (rd : BitVec 4) (imm : BitVec 8) (s : State), CanIssue s t 2 →
    ∃ u, Sys2Proof.Machine.exec (.li t rd imm) s = .next u ∧ Gives s u t 2 rd.toNat (imm.signExtend 32)) ∧
  (∀ (t : Thr) (rd : BitVec 5) (imm : BitVec 16) (s : State), CanIssue s t 4 →
    ∃ u, Sys2Proof.Machine.exec (.lui t rd imm) s = .next u ∧ Gives s u t 4 rd.toNat (imm ++ (0 : BitVec 16))) ∧
  (∀ (t : Thr) (rd ra rb : BitVec 5) (s : State) (x y : Word), (s.own t).gr ra.toNat = x → (s.own t).gr rb.toNat = y →
    CanIssue s t 4 →
    (∃ u, Sys2Proof.Machine.exec (.mul t rd ra rb) s = .next u ∧ Gives s u t 4 rd.toNat (x * y)) ∧
    (∃ u, Sys2Proof.Machine.exec (.mulhs t rd ra rb) s = .next u ∧
      Gives s u t 4 rd.toNat ((x.signExtend 64 * y.signExtend 64).extractLsb' 32 32)) ∧
    (∃ u, Sys2Proof.Machine.exec (.mulhu t rd ra rb) s = .next u ∧
      Gives s u t 4 rd.toNat ((x.zeroExtend 64 * y.zeroExtend 64).extractLsb' 32 32)) ∧
    (∃ u, Sys2Proof.Machine.exec (.min t rd ra rb) s = .next u ∧ Gives s u t 4 rd.toNat (if x.slt y then x else y)) ∧
    (∃ u, Sys2Proof.Machine.exec (.max t rd ra rb) s = .next u ∧ Gives s u t 4 rd.toNat (if x.slt y then y else x)) ∧
    (∃ u, Sys2Proof.Machine.exec (.minu t rd ra rb) s = .next u ∧ Gives s u t 4 rd.toNat (if x.ult y then x else y)) ∧
    (∃ u, Sys2Proof.Machine.exec (.maxu t rd ra rb) s = .next u ∧ Gives s u t 4 rd.toNat (if x.ult y then y else x)))

/-- R155, R157: the byte reversal, the counts and the extract, each bit by bit, and no flag changed. -/
def Obligations.BitCountsAndExtracts : Prop :=
  (∀ (t : Thr) (f : UnaryForm) (s : State) (n rd : Nat) (x : Word), unaryArgs (s.own t) f = (n, rd, x) → CanIssue s t n →
    ∃ u, Sys2Proof.Machine.exec (.bswap t f) s = .next u ∧
      Gives s u t n rd (x.extractLsb' 0 8 ++ x.extractLsb' 8 8 ++ x.extractLsb' 16 8 ++ x.extractLsb' 24 8)) ∧
  (∀ (t : Thr) (rd ra rb : BitVec 5) (s : State) (x y : Word), (s.own t).gr ra.toNat = x → (s.own t).gr rb.toNat = y →
    CanIssue s t 4 →
    (∃ u c, Sys2Proof.Machine.exec (.clz t rd ra) s = .next u ∧ Gives s u t 4 rd.toNat (BitVec.ofNat 32 c) ∧ c ≤ 32 ∧
      (∀ i, 32 - c ≤ i → x.getLsbD i = false) ∧ (c < 32 → x.getLsbD (31 - c) = true)) ∧
    (∃ u, Sys2Proof.Machine.exec (.popc t rd ra) s = .next u ∧
      Gives s u t 4 rd.toNat (BitVec.ofNat 32 ((List.range 32).countP (fun i => x.getLsbD i)))) ∧
    (∃ u r, Sys2Proof.Machine.exec (.extu t rd ra rb) s = .next u ∧ Gives s u t 4 rd.toNat r ∧
      ∀ i, r.getLsbD i = (decide (i < y.toNat / 2 ^ 8 % 64) && x.getLsbD (y.toNat % 32 + i))))

/-- R110, R112, R115-R117, R167, R168 and the text after R169: the multiply-accumulate operations. The exact result is cut to 40 bits
once; Z and N come from what the accumulator holds, V from the exact result, C from the 40-bit sum or difference. `P` is the rounded
product of R110, `p0` and `p1` the products of R111. -/
def Obligations.MultiplyAccumulate : Prop :=
  (∀ (t : Thr) (ad : BitVec 2) (ra rb : BitVec 5) (s : State) (x y : Word) (acc : BitVec 40) (P p0 p1 : Int),
    (s.own t).gr ra.toNat = x → (s.own t).gr rb.toNat = y → (s.own t).acc ad.toNat = acc →
    P = roundShift (s.own t).rnd (x.toInt * y.toInt) 31 →
    p0 = (x.extractLsb' 0 16).toInt * (y.extractLsb' 0 16).toInt * 2 →
    p1 = (x.extractLsb' 16 16).toInt * (y.extractLsb' 16 16).toInt * 2 → CanIssue s t 4 →
    (∃ u, Sys2Proof.Machine.exec (.macl t ad ra rb) s = .next u ∧
      GivesAcc s u t ad.toNat (acc.toInt + P) (decide (2 ^ 40 ≤ acc.toNat + (BitVec.ofInt 40 P).toNat))) ∧
    (∃ u, Sys2Proof.Machine.exec (.msul t ad ra rb) s = .next u ∧
      GivesAcc s u t ad.toNat (acc.toInt - P) (decide ((BitVec.ofInt 40 P).toNat ≤ acc.toNat))) ∧
    (∃ u, Sys2Proof.Machine.exec (.mpyl t ad ra rb) s = .next u ∧ GivesAcc s u t ad.toNat P false) ∧
    (∃ u, Sys2Proof.Machine.exec (.macp t ad ra rb) s = .next u ∧
      GivesAcc s u t ad.toNat (acc.toInt + p0 + p1)
        (decide (2 ^ 40 ≤ acc.toNat + (BitVec.ofInt 40 p0).toNat + (BitVec.ofInt 40 p1).toNat))) ∧
    (∃ u, Sys2Proof.Machine.exec (.msup t ad ra rb) s = .next u ∧
      GivesAcc s u t ad.toNat (acc.toInt - p0 - p1)
        (decide ((BitVec.ofInt 40 p0).toNat + (BitVec.ofInt 40 p1).toNat ≤ acc.toNat)))) ∧
  (∀ (t : Thr) (ad an : BitVec 2) (s : State) (x y : BitVec 40), (s.own t).acc ad.toNat = x → (s.own t).acc an.toNat = y →
    CanIssue s t 4 → ∃ u, Sys2Proof.Machine.exec (.aadd t ad an) s = .next u ∧
      GivesAcc s u t ad.toNat (x.toInt + y.toInt) (decide (2 ^ 40 ≤ x.toNat + y.toNat))) ∧
  (∀ (t : Thr) (ad : BitVec 2) (s : State), CanIssue s t 4 → ∃ u, Sys2Proof.Machine.exec (.aclr t ad) s = .next u ∧
      OnlyThread s u (thrKey t) ∧ WroteAcc (s.own t) (u.own t) ad.toNat 0 ∧ (u.own t).tsr = (s.own t).tsr) ∧
  (∀ (t : Thr) (ad : BitVec 2) (ra : BitVec 5) (s : State), CanIssue s t 4 →
    ∃ u, Sys2Proof.Machine.exec (.amov t ad ra) s = .next u ∧ OnlyThread s u (thrKey t) ∧
      WroteAcc (s.own t) (u.own t) ad.toNat (((s.own t).gr ra.toNat).signExtend 40) ∧ (u.own t).tsr = (s.own t).tsr)

/-- R114-R116, R119, R167, R169: the fractional operations. A Q1.31 result is cut to 32 bits with Z, N, C and V; the packed ones cut
each element to 16 bits, with the flags of element 1; EXT leaves C and raises ILLEGAL for a shift outside −8 to +8, with nothing
else done; FSRA changes no flag. -/
def Obligations.FractionalOperations : Prop :=
  (∀ (t : Thr) (rd ra rb : BitVec 5) (s : State) (x y : Word), (s.own t).gr ra.toNat = x → (s.own t).gr rb.toNat = y →
    CanIssue s t 4 →
    (∃ u, Sys2Proof.Machine.exec (.fadd t rd ra rb) s = .next u ∧
      GivesFrac s u t rd.toNat (x.toInt + y.toInt) (decide (2 ^ 32 ≤ x.toNat + y.toNat))) ∧
    (∃ u, Sys2Proof.Machine.exec (.fsub t rd ra rb) s = .next u ∧
      GivesFrac s u t rd.toNat (x.toInt - y.toInt) (decide (y.toNat ≤ x.toNat))) ∧
    (∃ u, Sys2Proof.Machine.exec (.fsra t rd ra rb) s = .next u ∧
      Gives s u t 4 rd.toNat (BitVec.ofInt 32 (roundShift (s.own t).rnd x.toInt (y.toNat % 32))))) ∧
  (∀ (t : Thr) (rd ra rb : BitVec 5) (s : State) (x y : Word) (x0 x1 y0 y1 : BitVec 16), (s.own t).gr ra.toNat = x →
    (s.own t).gr rb.toNat = y → x.extractLsb' 0 16 = x0 → x.extractLsb' 16 16 = x1 → y.extractLsb' 0 16 = y0 →
    y.extractLsb' 16 16 = y1 → CanIssue s t 4 →
    (∃ u r1 r0, Sys2Proof.Machine.exec (.padd t rd ra rb) s = .next u ∧ OnlyThread s u (thrKey t) ∧
      r0 = cutTo 16 (s.own t).saten (x0.toInt + y0.toInt) ∧ r1 = cutTo 16 (s.own t).saten (x1.toInt + y1.toInt) ∧
      WroteReg (s.own t) (u.own t) 4 rd.toNat (r1 ++ r0) ∧
      FracFlags (s.own t) (u.own t) (r1 == 0) r1.msb (decide (2 ^ 16 ≤ x1.toNat + y1.toNat))
        (fits 16 (x0.toInt + y0.toInt) && fits 16 (x1.toInt + y1.toInt)) (!fits 16 (x1.toInt + y1.toInt))) ∧
    (∃ u r1 r0, Sys2Proof.Machine.exec (.psub t rd ra rb) s = .next u ∧ OnlyThread s u (thrKey t) ∧
      r0 = cutTo 16 (s.own t).saten (x0.toInt - y0.toInt) ∧ r1 = cutTo 16 (s.own t).saten (x1.toInt - y1.toInt) ∧
      WroteReg (s.own t) (u.own t) 4 rd.toNat (r1 ++ r0) ∧
      FracFlags (s.own t) (u.own t) (r1 == 0) r1.msb (decide (y1.toNat ≤ x1.toNat))
        (fits 16 (x0.toInt - y0.toInt) && fits 16 (x1.toInt - y1.toInt)) (!fits 16 (x1.toInt - y1.toInt)))) ∧
  (∀ (t : Thr) (rd : BitVec 5) (an : BitVec 2) (sh : BitVec 5) (s : State) (x : Int), -8 ≤ sh.toInt → sh.toInt ≤ 8 →
    x = (if 0 ≤ sh.toInt then ((s.own t).acc an.toNat).toInt * 2 ^ sh.toInt.toNat
      else roundShift (s.own t).rnd ((s.own t).acc an.toNat).toInt (-sh.toInt).toNat) → CanIssue s t 4 →
    ∃ u, Sys2Proof.Machine.exec (.ext t rd an sh) s = .next u ∧ GivesFrac s u t rd.toNat x (s.own t).fc) ∧
  (∀ (t : Thr) (rd : BitVec 5) (an : BitVec 2) (sh : BitVec 5) (s : State), sh.toInt < -8 ∨ 8 < sh.toInt → CanIssue s t 4 →
    Sys2Proof.Machine.exec (.ext t rd an sh) s =
      .next (s.raiseExc (thrKey t) 0x01 ((firstHalf (.ext t rd an sh))) (s.own t).pc))

/-- Table 4.5: the rounding modes. Truncation takes the floor, the nearest mode the nearest integer with halves upwards, the convergent
mode the nearest integer with halves to the even one; 0b11 acts as 0b00. -/
def Obligations.RoundingModes : Prop :=
  ∀ (x : Int) (k : Nat), 0 < k →
    ((roundShift 0 x k * 2 ^ k ≤ x ∧ x < (roundShift 0 x k + 1) * 2 ^ k) ∧
    (2 * x - 2 ^ k < 2 * (roundShift 1 x k * 2 ^ k) ∧ 2 * (roundShift 1 x k * 2 ^ k) ≤ 2 * x + 2 ^ k) ∧
    (2 * x - 2 ^ k ≤ 2 * (roundShift 2 x k * 2 ^ k) ∧ 2 * (roundShift 2 x k * 2 ^ k) ≤ 2 * x + 2 ^ k ∧
      (2 * (roundShift 2 x k * 2 ^ k) = 2 * x - 2 ^ k ∨ 2 * (roundShift 2 x k * 2 ^ k) = 2 * x + 2 ^ k →
        roundShift 2 x k % 2 = 0))) ∧
    roundShift 3 x k = roundShift 0 x k

/-- R153, R154, R170, Table 5.12 and C.MISC 0x5: the branches and jumps. Only the PC of the thread changes: to the target where the
condition holds, else past the instruction. -/
def Obligations.BranchesAndJumps : Prop :=
  (∀ (t : Thr) (off : BitVec 12) (s : State), CanIssue s t 2 →
    Sys2Proof.Machine.exec (.b t off) s =
      .next (s.setThr (thrKey t) { s.own t with pc := (s.own t).pc + off.signExtend 32 * 2 })) ∧
  (∀ (t : Thr) (off : BitVec 26) (s : State), CanIssue s t 4 →
    Sys2Proof.Machine.exec (.j t off) s =
      .next (s.setThr (thrKey t) { s.own t with pc := (s.own t).pc + off.signExtend 32 * 2 })) ∧
  (∀ (t : Thr) (rs : BitVec 4) (s : State), CanIssue s t 2 →
    Sys2Proof.Machine.exec (.jr t rs) s =
      .next (s.setThr (thrKey t) { s.own t with pc := (s.own t).gr rs.toNat })) ∧
  (∀ (t : Thr) (f : BccForm) (s : State) (n : Nat) (c : Cond) (off : Word), bccArgs f = (n, c, off) → CanIssue s t n →
    ((s.own t).holds c = true → Sys2Proof.Machine.exec (.bcond t f) s =
      .next (s.setThr (thrKey t) { s.own t with pc := (s.own t).pc + off * 2 })) ∧
    ((s.own t).holds c = false → Sys2Proof.Machine.exec (.bcond t f) s =
      .next (s.setThr (thrKey t) { s.own t with pc := (s.own t).pc + BitVec.ofNat 32 n }))) ∧
  (∀ (t : Thr) (f : BzForm) (s : State) (n r : Nat) (off : Word), bzArgs f = (n, r, off) → CanIssue s t n →
    ((s.own t).gr r = 0 →
      Sys2Proof.Machine.exec (.bz t f) s =
        .next (s.setThr (thrKey t) { s.own t with pc := (s.own t).pc + off * 2 }) ∧
      Sys2Proof.Machine.exec (.bnz t f) s =
        .next (s.setThr (thrKey t) { s.own t with pc := (s.own t).pc + BitVec.ofNat 32 n })) ∧
    ((s.own t).gr r ≠ 0 →
      Sys2Proof.Machine.exec (.bz t f) s =
        .next (s.setThr (thrKey t) { s.own t with pc := (s.own t).pc + BitVec.ofNat 32 n }) ∧
      Sys2Proof.Machine.exec (.bnz t f) s =
        .next (s.setThr (thrKey t) { s.own t with pc := (s.own t).pc + off * 2 })))

/-- Table 5.13: what each condition means after a comparison of `x` with `y`, whose flags are those of R155's CMP. -/
def Obligations.ConditionsAfterCompare : Prop :=
  ∀ (a : Thread) (x y : Word), a.fz = (x - y == 0) → a.fn = (x - y).msb → a.fc = decide (y.toNat ≤ x.toNat) →
    a.fv = !fits 32 (x.toInt - y.toInt) →
    a.holds 0x0 = true ∧ a.holds 0x1 = decide (x = y) ∧ a.holds 0x2 = decide (x ≠ y) ∧
    a.holds 0x3 = x.ult y ∧ a.holds 0x4 = y.ule x ∧ a.holds 0x5 = y.ult x ∧ a.holds 0x6 = x.ule y ∧
    a.holds 0x7 = x.slt y ∧ a.holds 0x8 = y.sle x ∧ a.holds 0x9 = y.slt x ∧ a.holds 0xA = x.sle y ∧
    a.holds 0xB = (x - y).msb ∧ a.holds 0xC = !(x - y).msb ∧
    a.holds 0xD = !fits 32 (x.toInt - y.toInt) ∧ a.holds 0xE = fits 32 (x.toInt - y.toInt) ∧
    a.holds 0xF = bitOf a.tsr 4

/-- R160, R161, R164, R166 and Table 5.9: a load whose address is aligned and whose read is answered writes the value read, extended
to 32 bits, and goes on. An addressed load with U moves its generator; the loaded register is written after that. -/
def Obligations.LoadsTakeTheirValue : Prop :=
  (∀ (t : Thr) (f : MemForm) (s : State) (n rd : Nat) (ea : Word) (v : Nat) (u : State), memArgs (s.own t) f = (n, rd, ea) →
    CanIssue s t n → ea.toNat % 4 = 0 → s.dataRead t ea 4 = ⟨0, v, u⟩ →
    Sys2Proof.Machine.exec (.ldw t f) s =
      .next (u.setThr (thrKey t) { (u.own t).setG rd (BitVec.ofNat 32 v) with pc := (s.own t).pc + BitVec.ofNat 32 n })) ∧
  (∀ (t : Thr) (rd ra : BitVec 5) (imm : BitVec 13) (s : State) (ea : Word), ea = (s.own t).gr ra.toNat + imm.signExtend 32 →
    CanIssue s t 4 →
    (∀ (v : Nat) (u : State), ea.toNat % 2 = 0 → s.dataRead t ea 2 = ⟨0, v, u⟩ →
      Sys2Proof.Machine.exec (.ldh t rd ra imm) s = .next (u.setThr (thrKey t)
        { (u.own t).setG rd.toNat ((BitVec.ofNat 16 v).signExtend 32) with pc := (s.own t).pc + 4 }) ∧
      Sys2Proof.Machine.exec (.ldhu t rd ra imm) s = .next (u.setThr (thrKey t)
        { (u.own t).setG rd.toNat ((BitVec.ofNat 16 v).zeroExtend 32) with pc := (s.own t).pc + 4 })) ∧
    (∀ (v : Nat) (u : State), s.dataRead t ea 1 = ⟨0, v, u⟩ →
      Sys2Proof.Machine.exec (.ldb t rd ra imm) s = .next (u.setThr (thrKey t)
        { (u.own t).setG rd.toNat ((BitVec.ofNat 8 v).signExtend 32) with pc := (s.own t).pc + 4 }) ∧
      Sys2Proof.Machine.exec (.ldbu t rd ra imm) s = .next (u.setThr (thrKey t)
        { (u.own t).setG rd.toNat ((BitVec.ofNat 8 v).zeroExtend 32) with pc := (s.own t).pc + 4 }))) ∧
  (∀ (t : Thr) (f : AgForm) (k : LoadKind) (s : State) (len r n : Nat) (upd : Bool) (ea : Word) (v : Nat) (u : State),
    agArgs f = (len, r, n, upd) → CanIssue s t len → ((s.own t).agen n).mode ≠ 3 →
    ea = ((s.own t).agen n).base + ((s.own t).agen n).idx → ea.toNat % loadBytes k = 0 →
    s.dataRead t ea (loadBytes k) = ⟨0, v, u⟩ →
    Sys2Proof.Machine.exec (.agLoad t f k) s = .next (u.setThr (thrKey t)
      { (if upd then (u.own t).setAgen n ((s.own t).agen n).bump else u.own t).setG r (extendLoad k v) with
        pc := (s.own t).pc + BitVec.ofNat 32 len }))

/-- R160-R166, R183: a store whose address is aligned and whose write is answered stores the low bytes of its register there; an atomic
returns the word read and leaves the new one. `go` is the state in which the thread has gone on. -/
def Obligations.StoresAndAtomics : Prop :=
  (∀ (t : Thr) (f : MemForm) (s go : State) (n r : Nat) (ea : Word) (v : Nat) (u : State), memArgs (s.own t) f = (n, r, ea) →
    CanIssue s t n → ea.toNat % 4 = 0 →
    go = s.setThr (thrKey t) { s.own t with pc := (s.own t).pc + BitVec.ofNat 32 n } →
    go.dataWrite t ea 4 ((s.own t).gr r).toNat = ⟨0, v, u⟩ → Sys2Proof.Machine.exec (.stw t f) s = .next u) ∧
  (∀ (t : Thr) (rd ra : BitVec 5) (imm : BitVec 13) (s go u : State) (ea : Word) (v : Nat),
    ea = (s.own t).gr ra.toNat + imm.signExtend 32 → CanIssue s t 4 →
    go = s.setThr (thrKey t) { s.own t with pc := (s.own t).pc + 4 } →
    (ea.toNat % 2 = 0 → go.dataWrite t ea 2 ((s.own t).gr rd.toNat).toNat = ⟨0, v, u⟩ →
      Sys2Proof.Machine.exec (.sth t rd ra imm) s = .next u) ∧
    (go.dataWrite t ea 1 ((s.own t).gr rd.toNat).toNat = ⟨0, v, u⟩ →
      Sys2Proof.Machine.exec (.stb t rd ra imm) s = .next u)) ∧
  (∀ (t : Thr) (f : AgForm) (k : StoreKind) (s go : State) (len r n : Nat) (upd : Bool) (ea : Word) (v : Nat) (u : State),
    agArgs f = (len, r, n, upd) → CanIssue s t len → ((s.own t).agen n).mode ≠ 3 →
    ea = ((s.own t).agen n).base + ((s.own t).agen n).idx → ea.toNat % storeBytes k = 0 →
    go = s.setThr (thrKey t) { (if upd then (s.own t).setAgen n ((s.own t).agen n).bump else s.own t) with
      pc := (s.own t).pc + BitVec.ofNat 32 len } →
    go.dataWrite t ea (storeBytes k) ((s.own t).gr r).toNat = ⟨0, v, u⟩ →
    Sys2Proof.Machine.exec (.agStore t f k) s = .next u) ∧
  (∀ (t : Thr) (rd ra : BitVec 5) (imm : BitVec 13) (s : State) (ea : Word),
    ea = (s.own t).gr ra.toNat + imm.signExtend 32 → CanIssue s t 4 → ea.toNat % 4 = 0 →
    (∀ (v : Nat) (u : State), s.dataSwap t ea (fun w => (w + ((s.own t).gr rd.toNat).toNat) % 2 ^ 32) = ⟨0, v, u⟩ →
      Sys2Proof.Machine.exec (.xadd t rd ra imm) s = .next (u.setThr (thrKey t)
        { (u.own t).setG rd.toNat (BitVec.ofNat 32 v) with pc := (s.own t).pc + 4 })) ∧
    (∀ (v : Nat) (u : State), s.dataSwap t ea (fun _ => ((s.own t).gr rd.toNat).toNat) = ⟨0, v, u⟩ →
      Sys2Proof.Machine.exec (.xchg t rd ra imm) s = .next (u.setThr (thrKey t)
        { (u.own t).setG rd.toNat (BitVec.ofNat 32 v) with pc := (s.own t).pc + 4 })))

/-- R120, R121, R160, R705, R706: an access of a thread to a memory of the device (`dataPlace`: where its address leads), inside one word whose check bits are good. A read gives
the bytes and changes nothing. A write leaves those bytes there and every other byte of memory as it was; no thread changes, no other
memory, and no register but the injection register of that memory (R605), which a one-shot injection uses up. An atomic does
both. -/
def Obligations.MemoryAccesses : Prop :=
  ∀ (s : State) (t : Thr) (ea : Word) (a n : Nat) (m : Mem), s.dataPlace t ea = some (.inl a) → a % 4 + n ≤ 4 → 0 < n →
    memAt a n = some m → m ≠ .regs → s.granted m.domain = true → s.eccAt a = 0 →
    s.dataRead t ea n = ⟨0, s.peek a n, s⟩ ∧
    (∀ v : Nat, ∃ u, s.dataWrite t ea n v = ⟨0, 0, u⟩ ∧
      (∀ i, i < n → u.byteAt (a + i) = BitVec.ofNat 8 (v / 2 ^ (8 * i))) ∧
      (∀ i, i < a ∨ a + n ≤ i → u.byteAt i = s.byteAt i) ∧
      (∀ q, q ≠ (R.FLT_INJ_MODE m.store).off → u.reg q = s.reg q) ∧
      { u with mem := s.mem, ecc := s.ecc, regs := s.regs } = s) ∧
    (n = 4 → ∀ f : Nat → Nat, ∃ u, s.dataSwap t ea f = ⟨0, s.peek a 4, u⟩ ∧
      s.dataWrite t ea 4 (f (s.peek a 4)) = ⟨0, 0, u⟩)

/-- R122, R126, R165, R166: an access whose address is not aligned raises ALIGN with EVAL the address, and one through a generator whose
MODE is 3 raises AG_MODE; nothing is read or written, and the thread's registers are those that taking the exception writes. -/
def Obligations.AlignmentAndModeExceptions : Prop :=
  (∀ (t : Thr) (f : MemForm) (s : State) (n rd : Nat) (ea : Word), memArgs (s.own t) f = (n, rd, ea) → CanIssue s t n →
    ea.toNat % 4 ≠ 0 →
    Sys2Proof.Machine.exec (.ldw t f) s = .next (s.raiseExc (thrKey t) 0x04 ea (s.own t).pc) ∧
    Sys2Proof.Machine.exec (.stw t f) s = .next (s.raiseExc (thrKey t) 0x04 ea (s.own t).pc)) ∧
  (∀ (t : Thr) (rd ra : BitVec 5) (imm : BitVec 13) (s : State) (ea : Word), ea = (s.own t).gr ra.toNat + imm.signExtend 32 →
    CanIssue s t 4 →
    (ea.toNat % 2 ≠ 0 →
      Sys2Proof.Machine.exec (.ldh t rd ra imm) s = .next (s.raiseExc (thrKey t) 0x04 ea (s.own t).pc) ∧
      Sys2Proof.Machine.exec (.ldhu t rd ra imm) s = .next (s.raiseExc (thrKey t) 0x04 ea (s.own t).pc) ∧
      Sys2Proof.Machine.exec (.sth t rd ra imm) s = .next (s.raiseExc (thrKey t) 0x04 ea (s.own t).pc)) ∧
    (ea.toNat % 4 ≠ 0 →
      Sys2Proof.Machine.exec (.xadd t rd ra imm) s = .next (s.raiseExc (thrKey t) 0x04 ea (s.own t).pc) ∧
      Sys2Proof.Machine.exec (.xchg t rd ra imm) s = .next (s.raiseExc (thrKey t) 0x04 ea (s.own t).pc))) ∧
  (∀ (t : Thr) (f : AgForm) (s : State) (len r n : Nat) (upd : Bool) (lk : LoadKind) (sk : StoreKind),
    agArgs f = (len, r, n, upd) → CanIssue s t len → ((s.own t).agen n).mode = 3 →
    Sys2Proof.Machine.exec (.agLoad t f lk) s = .next (s.raiseExc (thrKey t) 0x09 (BitVec.ofNat 32 n) (s.own t).pc) ∧
    Sys2Proof.Machine.exec (.agStore t f sk) s = .next (s.raiseExc (thrKey t) 0x09 (BitVec.ofNat 32 n) (s.own t).pc))

/-- R127-R130: CALLM stores its frame, lowers TSP, pushes the return address and jumps; RETM reads the frame back, restores the registers
of its mask and TSP, and pops. `storeFrame` and `loadFrame` are the accesses of R128 and R130 in their order. A full stack without
RSWRAP raises RS_OVF, an empty one RS_UDF, and then nothing is stored or read. -/
def Obligations.CallsAndReturns : Prop :=
  (∀ (t : Thr) (f : CallForm) (s u : State) (mask : BitVec 16) (dest tsp e : Word) (regs : List Nat),
    callArgs (s.own t) (s.own t).pc f = (mask, dest) → regs = maskRegs mask →
    tsp = (s.own t).tsp - BitVec.ofNat 32 (4 * (1 + regs.length)) → CanIssue s t 4 →
    (s.own t).rswrap = true ∨ (s.own t).rstk.length < 16 → (s.own t).tsp.toNat % 4 = 0 →
    s.storeFrame t (((0xCA11 : BitVec 16) ++ mask) :: regs.map (fun r => (s.own t).gr r)) tsp = (0, e, u) →
    Sys2Proof.Machine.exec (.callm t f) s = .next (u.setThr (thrKey t)
      { (u.own t) with
        tsp := tsp, pc := dest,
        rstk := ((((s.own t).pc + 4) &&& 0x3FFFF) :: (u.own t).rstk).take 16,
        rsTop := ((u.own t).rsTop + 1) % 16,
        rsWrapped := (u.own t).rsWrapped || decide (16 ≤ (u.own t).rstk.length) })) ∧
  (∀ (t : Thr) (f : CallForm) (s : State), CanIssue s t 4 → (s.own t).rswrap = false → 16 ≤ (s.own t).rstk.length →
    Sys2Proof.Machine.exec (.callm t f) s = .next (s.raiseExc (thrKey t) 0x06 0 (s.own t).pc)) ∧
  (∀ (t : Thr) (s w u : State) (ret : Word) (rest : List Word) (v : Nat) (regs : List Nat) (e : Word) (ws : List Word),
    CanIssue s t 2 → (s.own t).rstk = ret :: rest → (s.own t).tsp.toNat % 4 = 0 → s.dataRead t (s.own t).tsp 4 = ⟨0, v, w⟩ →
    v / 2 ^ 16 = 0xCA11 → regs = maskRegs (BitVec.ofNat 16 v) →
    w.loadFrame t regs.length ((s.own t).tsp + 4) [] = (0, e, ws, u) →
    Sys2Proof.Machine.exec (.retm t) s = .next (u.updThr (thrKey t) (fun th =>
      { (regs.zip ws).foldl (fun a c => a.setG c.1 c.2) th with
        tsp := ((regs.zip ws).foldl (fun a c => a.setG c.1 c.2) th).tsp + BitVec.ofNat 32 (4 * (1 + regs.length)),
        rstk := rest, rsTop := (((regs.zip ws).foldl (fun a c => a.setG c.1 c.2) th).rsTop + 15) % 16, pc := ret }))) ∧
  (∀ (t : Thr) (s : State), CanIssue s t 2 → (s.own t).rstk = [] →
    Sys2Proof.Machine.exec (.retm t) s = .next (s.raiseExc (thrKey t) 0x07 0 (s.own t).pc))

/-- R200-R204, R708: FORK starts the thread that its search finds with PC and g1 as given, in the parent's row, and returns its code;
with none to be had, or an odd PC, it returns 0xFFFFFFFF. JOIN of a child in DONE returns it to its pool, of another child waits, of
any other code goes on; JOIN_COMPLETE ends the wait when the child is in DONE or is a child no more. -/
def Obligations.ForkAndJoin : Prop :=
  (∀ (t : Fin 512) (rd ra rb : BitVec 5) (s : State) (c : Nat) (bor : Bool) (pc g1 : Word), CanIssue s (.scion t) 4 →
    (s.own (.scion t)).gr ra.toNat = pc → (s.own (.scion t)).gr rb.toNat = g1 → bitOf pc 0 = false →
    s.forkPick t.val = some (c, bor) →
    ∃ u, Sys2Proof.Machine.exec (.fork (.scion t) rd ra rb) s = .next u ∧ c ≠ t.val ∧
      (u.thr c).state = .run ∧ (u.thr c).pc = pc ∧ (u.thr c).gr 1 = g1 ∧ (u.thr c).row = (s.own (.scion t)).row ∧
      (u.thr c).parent = some t.val ∧ (u.thr c).borrowed = bor ∧ (u.thr c).tpri = (s.own (.scion t)).tpri ∧
      u.own (.scion t) = { (s.own (.scion t)).setG rd.toNat (BitVec.ofNat 32 c) with pc := (s.own (.scion t)).pc + 4 } ∧
      (∀ j, j ≠ c → j ≠ t.val → u.thr j = s.thr j) ∧ { u with threads := s.threads } = s) ∧
  (∀ (t : Fin 512) (rd ra rb : BitVec 5) (s : State), CanIssue s (.scion t) 4 →
    bitOf ((s.own (.scion t)).gr ra.toNat) 0 = true ∨ s.forkPick t.val = none →
    Sys2Proof.Machine.exec (.fork (.scion t) rd ra rb) s =
      .next ((s.satAdd (R.BGH_FORK_FAIL_COUNT (boughOf t.val)) 1 65535).setThr t.val
        { (s.own (.scion t)).setG rd.toNat 0xFFFFFFFF with pc := (s.own (.scion t)).pc + 4 })) ∧
  (∀ (t : Thr) (ra : BitVec 5) (s : State) (c : Nat), CanIssue s t 4 → s.joinChild (thrKey t) ((s.own t).gr ra.toNat) = some c →
    c ≠ thrKey t →
    ((s.thr c).state = .done → Sys2Proof.Machine.exec (.join t ra) s =
      .next ((s.setThr (thrKey t) { s.own t with pc := (s.own t).pc + 4 }).setThr c (s.thr c).toPool)) ∧
    ((s.thr c).state ≠ .done → Sys2Proof.Machine.exec (.join t ra) s =
      .next (s.setThr (thrKey t) { s.own t with pc := (s.own t).pc + 4, state := .wait, wait := .join c }))) ∧
  (∀ (t : Thr) (ra : BitVec 5) (s : State), CanIssue s t 4 → s.joinChild (thrKey t) ((s.own t).gr ra.toNat) = none →
    Sys2Proof.Machine.exec (.join t ra) s = .next (s.setThr (thrKey t) { s.own t with pc := (s.own t).pc + 4 })) ∧
  (∀ (t : Thr) (s : State) (c : Nat), (s.own t).state = .wait → (s.own t).wait = .join c → c ≠ thrKey t →
    ((s.thr c).parent = some (thrKey t) → (s.thr c).state = .done → Sys2Proof.Machine.exec (.joinComplete t) s =
      .next ((s.setThr c (s.thr c).toPool).setThr (thrKey t) { s.own t with state := .run, wait := .nothing })) ∧
    ((s.thr c).parent ≠ some (thrKey t) → Sys2Proof.Machine.exec (.joinComplete t) s =
      .next (s.setThr (thrKey t) { s.own t with state := .run, wait := .nothing })))

/-- R172, R193, R196, R197, R198: WAITT sets the compare and waits for it, WAITE takes the pending events of its mask or waits for
one; the completions wake the thread; a compare that is met posts event 6. -/
def Obligations.WaitsAndEvents : Prop :=
  (∀ (t : Thr) (ra : BitVec 5) (s : State) (v : Word), CanIssue s t 4 → (s.own t).gr ra.toNat = v → v.toNat ≤ 0x80000000 →
    Sys2Proof.Machine.exec (.waitt t ra) s = .next (s.setThr (thrKey t)
      { s.own t with
        pc := (s.own t).pc + 4, tcmp := BitVec.ofNat 32 s.dtbNow + v, tevt := (s.own t).tevt &&& 0xFFFFFDFF,
        state := if v = 0 then (s.own t).state else .wait, wait := if v = 0 then (s.own t).wait else .waitt })) ∧
  (∀ (t : Thr) (ra : BitVec 5) (s : State), CanIssue s t 4 → 0x80000000 < ((s.own t).gr ra.toNat).toNat →
    Sys2Proof.Machine.exec (.waitt t ra) s =
      .next (s.raiseExc (thrKey t) 0x0A ((s.own t).gr ra.toNat) (s.own t).pc)) ∧
  (∀ (t : Thr) (s : State), (s.own t).state = .wait → (s.own t).wait = .waitt →
    (BitVec.ofNat 32 s.dtbNow - (s.own t).tcmp).msb = false →
    Sys2Proof.Machine.exec (.waittComplete t) s =
      .next (s.setThr (thrKey t) { s.own t with state := .run, wait := .nothing })) ∧
  (∀ (t : Thr) (rd ra : BitVec 5) (s : State) (mask : Byte), CanIssue s t 4 → ((s.own t).gr ra.toNat).truncate 8 = mask →
    (mask = 0 ∨ (s.own t).tevt &&& mask.zeroExtend 32 ≠ 0 → Sys2Proof.Machine.exec (.waite t rd ra) s =
      .next (s.setThr (thrKey t) { (s.own t).setG rd.toNat ((s.own t).tevt &&& mask.zeroExtend 32) with
        tevt := (s.own t).tevt &&& ~~~ ((s.own t).tevt &&& mask.zeroExtend 32), pc := (s.own t).pc + 4 })) ∧
    (mask ≠ 0 → (s.own t).tevt &&& mask.zeroExtend 32 = 0 → Sys2Proof.Machine.exec (.waite t rd ra) s =
      .next (s.setThr (thrKey t) { s.own t with state := .wait, wait := .waite rd mask, pc := (s.own t).pc + 4 }))) ∧
  (∀ (t : Thr) (s : State) (rd : BitVec 5) (mask : Byte), (s.own t).state = .wait → (s.own t).wait = .waite rd mask →
    (s.own t).tevt &&& mask.zeroExtend 32 ≠ 0 →
    Sys2Proof.Machine.exec (.waiteComplete t) s = .next (s.setThr (thrKey t)
      { (s.own t).setG rd.toNat ((s.own t).tevt &&& mask.zeroExtend 32) with
        state := .run, wait := .nothing, tevt := (s.own t).tevt &&& ~~~ ((s.own t).tevt &&& mask.zeroExtend 32) })) ∧
  (∀ (t : Thr) (s : State), bitOf (s.own t).tevt 9 = true → (BitVec.ofNat 32 s.dtbNow - (s.own t).tcmp).msb = false →
    Sys2Proof.Machine.exec (.timerCompareMet t) s = .next (s.setThr (thrKey t)
      { s.own t with tevt := (s.own t).tevt &&& 0xFFFFFDFF ||| (if (s.own t).state.takesEvents then 0x40 else 0) }))

/-- R171, R173-R175, R464, R465: HREQ appends the request to the helpers' queue and its completion register is outstanding; HWAIT and
HPOLL take a completion that is held, with Z 0; on an idle register, and HPOLL on an outstanding one, they set Z and go on;
HWAIT waits for an outstanding one. -/
def Obligations.HelperRequestsAndCompletions : Prop :=
  (∀ (t : Fin 512) (h cn : BitVec 3) (ra rb : BitVec 5) (s : State) (ea arg : Word) (a n : Nat), CanIssue s (.scion t) 4 →
    (s.own (.scion t)).gr ra.toNat = ea → (s.own (.scion t)).gr rb.toNat = arg → (s.own (.scion t)).eaMap ea = a →
    s.areaBytes t.val h.toNat (arg.toNat % 256) a arg.toNat = n → h.toNat < 5 →
    (s.helpers.filter (fun g => g.h == h.toNat && boughOf g.t == boughOf t.val)).length < 32 →
    (s.own (.scion t)).completion cn.toNat = .idle → helperOp h.toNat (arg.toNat % 256) = true → ea.toNat % 4 = 0 →
    ea.toNat % 2 ^ 30 + n ≤ 2 ^ 30 → ownArea t.val a n = true →
    tabGet false (60 + boughOf t.val) s.admOff = false → tabGet false (68 + t.val / 8) s.admOff = false →
    ∃ sa, Sys2Proof.Machine.exec (.hreq (.scion t) h cn ra rb) s = .next (State.setThr
      { s with helpers := s.helpers ++ [{ t := t.val, cn := cn.toNat, h := h.toNat, desc := a, arg := arg, sa := sa }] } t.val
      { (s.own (.scion t)).setCompletion cn.toNat .outstanding with pc := (s.own (.scion t)).pc + 4 })) ∧
  (∀ (t : Fin 512) (rd : BitVec 5) (cn : BitVec 3) (s : State) (w : Word), CanIssue s (.scion t) 4 →
    (s.own (.scion t)).completion cn.toNat = .held w →
    ∃ u, (Sys2Proof.Machine.exec (.hwait (.scion t) rd cn) s = .next u ∧ Sys2Proof.Machine.exec (.hpoll (.scion t) rd cn) s = .next u) ∧
      OnlyThread s u t.val ∧ (u.own (.scion t)).gr rd.toNat = (if rd.toNat = 0 then 0 else w) ∧
      (∀ i, i ≠ rd.toNat → (u.own (.scion t)).gr i = (s.own (.scion t)).gr i) ∧
      (u.own (.scion t)).completion cn.toNat = .idle ∧ (u.own (.scion t)).fz = false ∧
      (u.own (.scion t)).tsr &&& 0xFFFFFFFE = (s.own (.scion t)).tsr &&& 0xFFFFFFFE ∧
      (u.own (.scion t)).pc = (s.own (.scion t)).pc + 4) ∧
  (∀ (t : Fin 512) (rd : BitVec 5) (cn : BitVec 3) (s : State) (n : State), CanIssue s (.scion t) 4 →
    n = s.setThr t.val { s.own (.scion t) with tsr := putBit (s.own (.scion t)).tsr 0 true, pc := (s.own (.scion t)).pc + 4 } →
    ((s.own (.scion t)).completion cn.toNat = .idle →
      Sys2Proof.Machine.exec (.hwait (.scion t) rd cn) s = .next n ∧ Sys2Proof.Machine.exec (.hpoll (.scion t) rd cn) s = .next n) ∧
    ((s.own (.scion t)).completion cn.toNat = .outstanding →
      Sys2Proof.Machine.exec (.hpoll (.scion t) rd cn) s = .next n ∧
      Sys2Proof.Machine.exec (.hwait (.scion t) rd cn) s = .next (s.setThr t.val
        { s.own (.scion t) with state := .wait, wait := .hwait rd cn, pc := (s.own (.scion t)).pc + 4 }))) ∧
  (∀ (t : Thr) (rd : BitVec 5) (cn : BitVec 3) (s : State) (w : Word), (s.own t).state = .wait → (s.own t).wait = .hwait rd cn →
    (s.own t).completion cn.toNat = .held w →
    Sys2Proof.Machine.exec (.hwaitComplete t) s = .next (s.setThr (thrKey t)
      { (s.own t).takeCompl rd.toNat cn.toNat w with state := .run, wait := .nothing })) ∧
  (∀ (t : Fin 8) (h cn : BitVec 3) (rd ra rb : BitVec 5) (s : State), CanIssue s (.rs t) 4 →
    Sys2Proof.Machine.exec (.hreq (.rs t) h cn ra rb) s =
      .next (s.raiseExc (512 + t.val) 0x01 (firstHalf (.hreq (.rs t) h cn ra rb)) (s.own (.rs t)).pc) ∧
    Sys2Proof.Machine.exec (.hwait (.rs t) rd cn) s =
      .next (s.raiseExc (512 + t.val) 0x01 (firstHalf (.hwait (.rs t) rd cn)) (s.own (.rs t)).pc) ∧
    Sys2Proof.Machine.exec (.hpoll (.rs t) rd cn) s =
      .next (s.raiseExc (512 + t.val) 0x01 (firstHalf (.hpoll (.rs t) rd cn)) (s.own (.rs t)).pc))

/-- R138, R139, R140, R182: taking an exception outside a handler saves TSR, PC, cause and value, enters the handler at row supervisor
level or above with EXL set, and nothing else changes; the return takes TSR and PC back with EXL 0. A second exception inside a handler
records itself in ECAUSE[16:8] and halts a scion thread. -/
def Obligations.ExceptionEntryAndReturn : Prop :=
  (∀ (s : State) (t : Thr) (cause : Nat) (ev epc : Word), bitOf (s.own t).tsr 9 = false →
    (∀ k, t = .scion k → s.flag (R.ROW_POLICY_FPOL (s.own t).row) = false ∨ cause = 0x10 ∨ cause = 0x11) →
    ∃ u, s.raiseExc (thrKey t) cause ev epc = u ∧ OnlyThread s u (thrKey t) ∧
      (u.own t).etsr = (s.own t).tsr ∧ (u.own t).epc = epc ∧ (u.own t).eval = ev ∧
      (u.own t).ecause = ((s.own t).ecause &&& 0xFFFFFF00) ||| BitVec.ofNat 32 (cause % 256) ∧
      (u.own t).pc = (match t with
        | .scion _ => BitVec.ofNat 32 (2 * s.fld (R.ROW_TVEC_OFFS (s.own t).row))
        | .rs _ => (s.own t).rtvec) ∧
      bitOf (u.own t).tsr 9 = true ∧ plOf (u.own t).tsr = max (plOf (s.own t).tsr) 1 ∧
      (u.own t).tsr &&& 0xFFFFF1FF = (s.own t).tsr &&& 0xFFFFF1FF ∧
      { u.own t with
        etsr := (s.own t).etsr, epc := (s.own t).epc, eval := (s.own t).eval, ecause := (s.own t).ecause, pc := (s.own t).pc,
        tsr := (s.own t).tsr } = s.own t) ∧
  (∀ (t : Thr) (f : Wd) (imm : Byte) (s : State) (n : Nat), n = wdBytes f → CanIssue s t n →
    Sys2Proof.Machine.exec (.sysc t f imm) s =
      .next (s.raiseExc (thrKey t) 0x10 (imm.zeroExtend 32) ((s.own t).pc + BitVec.ofNat 32 n)) ∧
    Sys2Proof.Machine.exec (.brk t f imm) s =
      .next (s.raiseExc (thrKey t) 0x11 (imm.zeroExtend 32) ((s.own t).pc + BitVec.ofNat 32 n))) ∧
  (∀ (t : Thr) (f : Wd) (s : State), CanIssue s t (wdBytes f) → plOf (s.own t).tsr ≠ 0 →
    Sys2Proof.Machine.exec (.eret t f) s =
      .next (s.setThr (thrKey t) { s.own t with tsr := (s.own t).etsr &&& 0xFFFFFDFF, pc := (s.own t).epc })) ∧
  (∀ (t : Thr) (f : Wd) (s : State), CanIssue s t (wdBytes f) → plOf (s.own t).tsr = 0 →
    Sys2Proof.Machine.exec (.eret t f) s =
      .next (s.raiseExc (thrKey t) 0x02 (firstHalf (.eret t f)) (s.own t).pc)) ∧
  (∀ (s : State) (k cause : Nat) (ev epc : Word), k < 512 → bitOf (s.thr k).tsr 9 = true →
    s.raiseExc k cause ev epc = (s.setThr k { s.thr k with
      ecause := ((s.thr k).ecause &&& 0xFFFE00FF) ||| BitVec.ofNat 32 (2 ^ 16 + cause % 256 * 2 ^ 8) }).halt k cause)

/-- R133-R135, R143-R145, R176, R177: MFS reads a system register and writes a general one; MTS writes a system register at the level it
needs. A number that names none raises ILLEGAL, a level below the one needed PRIV, with nothing else done. -/
def Obligations.SystemRegisterMoves : Prop :=
  (∀ (t : Thr) (rd : BitVec 5) (n : Byte) (s : State), CanIssue s t 4 → sysReg n.toNat = true →
    Sys2Proof.Machine.exec (.mfs t rd n) s = .next (s.setThr (thrKey t)
      { ((s.own t).sysPop n.toNat).setG rd.toNat ((s.own t).sysRead (thrKey t) n.toNat) with pc := (s.own t).pc + 4 })) ∧
  (∀ (t : Thr) (rd ra : BitVec 5) (n : Byte) (s : State), CanIssue s t 4 → sysReg n.toNat = false →
    Sys2Proof.Machine.exec (.mfs t rd n) s = .next (s.raiseExc (thrKey t) 0x01 (firstHalf (.mfs t rd n)) (s.own t).pc) ∧
    Sys2Proof.Machine.exec (.mts t n ra) s = .next (s.raiseExc (thrKey t) 0x01 (firstHalf (.mts t n ra)) (s.own t).pc)) ∧
  (∀ (t : Thr) (n : Byte) (ra : BitVec 5) (s : State), CanIssue s t 4 → sysReg n.toNat = true →
    (plOf (s.own t).tsr ≠ 0 ∨ mtsPriv n.toNat = false →
      Sys2Proof.Machine.exec (.mts t n ra) s = .next (s.setThr (thrKey t)
        { (s.own t).sysWrite (thrKey t) n.toNat ((s.own t).gr ra.toNat) with pc := (s.own t).pc + 4 })) ∧
    (plOf (s.own t).tsr = 0 → mtsPriv n.toNat = true →
      Sys2Proof.Machine.exec (.mts t n ra) s = .next (s.raiseExc (thrKey t) 0x02 (firstHalf (.mts t n ra)) (s.own t).pc))) ∧
  (∀ (a : Thread) (k : Nat) (v : Word),
    (a.sysWrite k 0 v).tsr = (a.tsr &&& 0xFFFFFE00) ||| (v &&& 0x1FF) ∧ (a.sysWrite k 2 v).sysRead k 2 = v ∧
    (a.sysWrite k 4 v).sysRead k 4 = v ∧ (a.sysWrite k 5 v).sysRead k 5 = v ∧ (a.sysWrite k 0x10 v).sysRead k 0x10 = v ∧
    (a.sysWrite k 0x22 v).sysRead k 0x22 = v ∧ bitOf (a.sysWrite k 0x22 v).tevt 9 = true ∧
    plOf (a.sysWrite k 1 v).etsr ≤ plOf a.tsr)

/-- R124, R136, R149, R150, R151, R178, R179, R185, R203, R206, R707: the fetch events and QUIT, FENCE. A fetch outside the memory or
from an odd offset raises FETCH; an undefined word raises ILLEGAL with its first halfword; a halfword read ahead with a corrected error
reports it; FENCE only goes on; QUIT of a thread that is not barred ends it, of a supervisor raises ILLEGAL. -/
def Obligations.FetchFenceAndQuit : Prop :=
  (∀ (t : Thr) (s : State), (s.own t).state = .run → s.mayRun (thrKey t) = true → 0x40000 ≤ (s.own t).pc.toNat ∨ (s.own t).pc.toNat % 2 = 1 →
    Sys2Proof.Machine.exec (.fetchFault t) s = .next (s.raiseExc (thrKey t) 0x03 (s.own t).pc (s.own t).pc)) ∧
  (∀ (t : Thr) (w : Word) (s : State), decodeWord w = none →
    CanIssue s t (if isWide (w.extractLsb' 0 16) then 4 else 2) →
    Sys2Proof.Machine.exec (.illegalEncoding t w) s =
      .next (s.raiseExc (thrKey t) 0x01 ((w.extractLsb' 0 16).zeroExtend 32) (s.own t).pc)) ∧
  (∀ (t : Fin 512) (k : Fin 4) (s : State) (p : Nat), (s.own (.scion t)).state = .run → s.boot.boughsOn = true →
    p = (s.own (.scion t)).pc.toNat + 2 * k.val → p < 0x40000 → p % 2 = 0 →
    (s.eccAt (0x100000000 + boughOf t.val * 0x1000000 + p) = 0 →
      Sys2Proof.Machine.exec (.instructionFetch (.scion t) k) s = .next s) ∧
    (s.eccAt (0x100000000 + boughOf t.val * 0x1000000 + p) = 1 →
      Sys2Proof.Machine.exec (.instructionFetch (.scion t) k) s = .next (s.fault (32 + boughOf t.val) 0)) ∧
    (2 ≤ s.eccAt (0x100000000 + boughOf t.val * 0x1000000 + p) →
      Sys2Proof.Machine.exec (.instructionFetch (.scion t) k) s = .next (s.fault (32 + boughOf t.val) 1))) ∧
  (∀ (t : Thr) (s : State), CanIssue s t 4 →
    Sys2Proof.Machine.exec (.fence t) s = .next (s.setThr (thrKey t) { s.own t with pc := (s.own t).pc + 4 })) ∧
  (∀ (t : Thr) (f : Wd) (s : State), CanIssue s t (wdBytes f) →
    (s.quitBarred (thrKey t) = false →
      Sys2Proof.Machine.exec (.quit t f) s = .next (s.endThread (thrKey t) Thread.quitClear)) ∧
    (s.quitBarred (thrKey t) = true →
      Sys2Proof.Machine.exec (.quit t f) s = .next (s.raiseExc (thrKey t) 0x01 (firstHalf (.quit t f)) (s.own t).pc)))

/-- R15, R19, R28-R30, R37: register accesses of one word or of a pair. A read of a lower half keeps the upper half for the requester; a
read of the upper half takes it; a write of a lower half is held; a write of the upper half commits both. A write of a register takes
what its access codes allow, then the register's own effect (`hook`) follows. -/
def Obligations.RegisterAccesses : Prop :=
  ∀ (req : Req) (tgt : Target) (off : Nat) (r : RegRow) (s : State), place req tgt = some (.dev (0xF000000000 + off)) → off % 4 = 0 →
    off < 0x68000 → regRow off = some r → reaches req off = true → s.reqLive req = true → s.granted (domainOf off) = true →
    (r.half = .lo → Sys2Proof.Machine.exec (.loRead req ⟨tgt, 4⟩) s = .next
      (State.send { s with rdShadow := tabPut (reqCode req) (off, s.regView (s.level req) (off + 4)) s.rdShadow }
        (.regRead req (BitVec.ofNat 64 (s.regView (s.level req) off).toNat)))) ∧
    (∀ lo w, r.half = .hi → off = lo + 4 → tabFind (reqCode req) s.rdShadow = some (lo, w) →
      Sys2Proof.Machine.exec (.hiRead req tgt) s = .next
        (State.send { s with rdShadow := tabDel (reqCode req) s.rdShadow } (.regRead req (BitVec.ofNat 64 w.toNat)))) ∧
    (r.half = .hi → (∀ lo w, tabFind (reqCode req) s.rdShadow = some (lo, w) → off ≠ lo + 4) →
      Sys2Proof.Machine.exec (.hiRead req tgt) s =
        .next (s.send (.regRead req (BitVec.ofNat 64 (s.regView (s.level req) off).toNat)))) ∧
    (∀ v, r.half = .lo → CanWrite s req off → (off < 0x24000 ∨ 0x24240 ≤ off) → s.hqBusy off = false →
      Sys2Proof.Machine.exec (.loWrite req tgt v) s = .next { s with wrShadow := tabPut (reqCode req) (off, v) s.wrShadow }) ∧
    (∀ rl lo held v, r.half = .hi → off = lo + 4 → CanWrite s req off → regRow lo = some rl →
      (∀ f ∈ rl.fields, s.mayWrite req lo (f.privIn rl) = true) → (off < 0x24000 ∨ 0x24240 ≤ off) →
      s.hqBusy off = false → tabFind (reqCode req) s.wrShadow = some (lo, held) →
      Sys2Proof.Machine.exec (.hiWrite req tgt v) s = .next (State.hook
        ((State.setReg { s with wrShadow := tabDel (reqCode req) s.wrShadow } lo
          (rl.judge (fun _ => true) (s.flag R.WDT_CTL_LOCK) (s.reg lo) held).new).setReg off
            (r.judge (fun _ => true) (s.flag R.WDT_CTL_LOCK) (s.reg off) v).new)
        off (s.reg off) (r.judge (fun _ => true) (s.flag R.WDT_CTL_LOCK) (s.reg off) v).eff false)) ∧
    (∀ v, CanWrite s req off → r.half = .whole → r.priv ≠ .eventPost → r.priv ≠ .threadCmd → off ≠ R.TAP_RRAM_DATA → off ≠ R.WDT_KEY →
      isRowKey off = false → off ≠ R.SEC_RNG_CTL → s.hqBusy off = false →
      Sys2Proof.Machine.exec (.registerWrite req tgt 4 v) s = .next (State.hook
        (s.setReg off (r.judge (fun _ => true) (s.flag R.WDT_CTL_LOCK) (s.reg off) (BitVec.ofNat 32 v.toNat)).new) off (s.reg off)
        (r.judge (fun _ => true) (s.flag R.WDT_CTL_LOCK) (s.reg off) (BitVec.ofNat 32 v.toNat)).eff false))

/-- R41, R57, R70, R74, R76, R602, Table 1.7: cold start, loss of VKA, warm reset and its end, loss and return of VIO. A cold start latches
the straps, sets readiness bits 0, 1 and 62 and restarts the device, but for TEST_EN. A loss of VKA leaves the store, the fuses, what
stands on the pins from outside, and nothing else. A warm reset opens the switches from PD15 down to PD3 (`v`), then restores the bits of every register that a
warm reset restores and leaves the others, ends the state of PD1 that no register holds, and holds; its end restarts the device.
A loss of VIO opens the switches from PD15 down to PD1, stops the clocks and raises fault 1 6; its return restarts the device. -/
def Obligations.ColdStartAndResets : Prop :=
  (∀ (straps : BitVec 12) (te : Bool) (s u : State), s.tap.mode = .powerOnReset →
    u = [0, 1, 62].foldl (fun s n => s.setReady n) (State.updTap
      ((s.setReg R.TAP_STRAP (straps.setWidth 32)).setFld R.GRAFT_STATUS_ROLE (if straps.toNat.testBit 11 then 0 else 1))
      (fun t => { t with mode := .running, vioGood := true, testEn := te, refSys := .starting })) →
    Sys2Proof.Machine.exec (.coldStart straps te) s = .next (if te then u else u.restart)) ∧
  (∀ (s : State), Sys2Proof.Machine.exec .vkaLoss s = .next { State.reset with
    pending := s.pending, freeCtr := s.freeCtr, clk := s.clk, out := s.out, nv := s.nv, nvCounts := s.nvCounts, nvEcc := s.nvEcc,
    fuses := s.fuses, perst := s.perst, usb := { vbus := s.usb.vbus },
    tap := { srdGood := s.tap.srdGood, srhGood := s.tap.srhGood, vio18Good := s.tap.vio18Good, vioGood := s.tap.vioGood },
    pins := { shdnLow := s.pins.shdnLow, tripTs := s.pins.tripTs, tripX := s.pins.tripX, therm := s.pins.therm } }) ∧
  (∀ (s v : State), s.tap.mode = .running ∨ s.tap.mode = .standbyEntry → s.tap.warmHeld = false → s.tap.testEn = false →
    v = (List.range 13).foldl (fun s i => s.openSwitch (15 - i)) s →
    ∃ u, Sys2Proof.Machine.exec .warmReset s = .next u ∧ u.tap.warmHeld = true ∧ u.tap.mode = .running ∧
      u.tap.hwReq = [(1, true), (2, true)] ∧ u.jobs = {} ∧ u.pm = {} ∧ u.boot = {} ∧ u.ctl = [] ∧ u.bat = {} ∧
      u.threads = tabKeep (· < 512) v.threads ∧ u.mem = v.mem ∧ u.rsMem = v.rsMem ∧ u.rram = v.rram ∧ u.nv = v.nv ∧
      u.fuses = v.fuses ∧ u.fanForced = false ∧ u.pins.faultLow = false ∧ u.pins.wdTrip = false ∧
      u.slow.wdtCycles = 0 ∧ u.slow.wdtArmed = none ∧
      (∀ x, x < 4 → u.flag (R.LOOP_STATUS_AUTO x) = true) ∧
      (s.wf = true → ∀ off, (∀ x, x < 4 → off ≠ R.LOOP_STATUS x ∧ off ≠ R.FAN_OUT x) →
        u.reg off = (v.reg off &&& ~~~ kindBits Kinds.warm off) ||| (coldWord off &&& kindBits Kinds.warm off))) ∧
  (∀ (s u : State), s.tap.warmHeld = true → u = (s.updTap (fun t => { t with warmHeld := false })).fatalStays.setReady 62 →
    Sys2Proof.Machine.exec .warmResetEnd s = .next ((if u.granted 1 then u.readyPd1 else u).restart)) ∧
  (∀ (s u v : State), s.tap.mode ≠ .powerOnReset → s.tap.mode ≠ .vioLost →
    v = { s with
      pins := { s.pins with shdnLow := false, tripTs := false, tripX := false }
      tap := { s.tap with vioGood := false, stby := s.tap.mode == .standby, mode := .vioLost } } →
    u = (List.range 15).foldl (fun s i => s.openSwitch (15 - i)) v →
    Sys2Proof.Machine.exec .vioLoss s = .next ((u.updTap (fun t => { t with refSys := .off, plls := [] })).fault 1 6)) ∧
  (∀ (s u : State), s.tap.mode = .vioLost → u = (s.updTap (fun t => { t with vioGood := true })).setBit R.TAP_WAKE_REASON 11 →
    Sys2Proof.Machine.exec .vioReturn s = .next (State.restart (State.updTap
      (if s.tap.stby then u.firstWake 11 else u) (fun t => { t with stby := false }))))

/-- R42-R51, R74, R75: the crystal, the RTC and its alarm, the wake inputs and the battery comparators. A wake source sets its bit in
TAP_WAKE_REASON; a rise of the bit in operation raises the event of TAP_WAKE_ROUTE; an enabled source ends standby. -/
def Obligations.ClockAndWakeSources : Prop :=
  (∀ (s : State), s.tap.mode ≠ .powerOnReset →
    Sys2Proof.Machine.exec .xtalChangeover s = .next (s.setFld R.TAP_STATUS_XTAL_OK 1) ∧
    Sys2Proof.Machine.exec .xtalFail s = .next ((s.setFld R.TAP_STATUS_XTAL_OK 0).fault 1 0)) ∧
  (∀ (s : State), s.slow.counted = true → s.reg R.TAP_RTC_SEC_LO = s.reg R.TAP_ALARM_SEC →
    s.fld R.TAP_RTC_SUB_SUB = s.fld R.TAP_ALARM_SUB_SUB →
    Sys2Proof.Machine.exec .rtcAlarm s =
      .next (State.wakeSource { s with slow := { s.slow with counted := false } } 10)) ∧
  (∀ (n : Fin 8) (s : State), s.tap.mode ≠ .powerOnReset → s.fld (R.TAP_WAKE_CFG_EN n.val) ≠ 0 → s.wakeHeld n.val = false →
    Sys2Proof.Machine.exec (.wakeQualify n) s =
      .next ((s.setWakeHeld n.val (decide (s.fld (R.TAP_WAKE_CFG_MODE n.val) = 0))).wakeSource n.val)) ∧
  (∀ (n : Fin 8) (s : State), Sys2Proof.Machine.exec (.wakeLeavesActive n) s = .next (s.setWakeHeld n.val false)) ∧
  (∀ (s : State), s.tap.mode ≠ .powerOnReset →
    (s.tap.vbatHiArmed = true → s.fld R.TAP_VBAT_CMP_HI_CODE ≠ 0 → Sys2Proof.Machine.exec (.vbatComparatorQualify true) s =
      .next ((s.updTap (fun t => { t with vbatHiArmed := false })).wakeSource 9)) ∧
    (s.tap.vbatLoArmed = true → s.fld R.TAP_VBAT_CMP_LO_CODE ≠ 0 → Sys2Proof.Machine.exec (.vbatComparatorQualify false) s =
      .next ((s.updTap (fun t => { t with vbatLoArmed := false })).wakeSource 8))) ∧
  (∀ (s : State), Sys2Proof.Machine.exec (.vbatComparatorRearm true) s = .next (s.updTap (fun t => { t with vbatHiArmed := true })) ∧
    Sys2Proof.Machine.exec (.vbatComparatorRearm false) s = .next (s.updTap (fun t => { t with vbatLoArmed := true }))) ∧
  (∀ (s u : State) (i : Nat), s.tap.mode = .running → bitOf (s.reg R.TAP_WAKE_REASON) i = false → s.tap.firstOpen = false →
    u = (s.setBit R.TAP_WAKE_REASON i).event (s.reg R.TAP_WAKE_ROUTE) → u.tap.mode = .running → u.tap.firstOpen = false →
    s.wakeSource i = u) ∧
  (∀ (s u : State) (i : Nat), s.tap.mode = .running → bitOf (s.reg R.TAP_WAKE_REASON) i = true → s.tap.firstOpen = true →
    u = s.setBit R.TAP_WAKE_REASON i → s.wakeSource i =
      if bitOf (s.reg R.TAP_WAKE_EN) i = true ∧ i < s.fld R.TAP_WAKE_FIRST_SRC then u.setFld R.TAP_WAKE_FIRST_SRC i else u) ∧
  (∀ (s : State) (i : Nat), s.tap.mode = .standby → s.tap.firstOpen = false → s.wakeSource i =
    if bitOf (s.reg R.TAP_WAKE_EN) i then ((s.setBit R.TAP_WAKE_REASON i).firstWake i).restart
    else s.setBit R.TAP_WAKE_REASON i)

/-- R45, R47, R48, R52-R55, R71, R72: the taproot registers that commands write and read. The RTC pair sets SUB to 0; a wake input that
is configured anew has not qualified; the comparators are armed anew; standby starts only with a source enabled; retention RAM takes
and gives the word at IDX, which then advances by one. -/
def Obligations.TaprootRegisters : Prop :=
  (∀ (req : Req) (lo hi : Word) (s : State), CanWrite s req R.TAP_RTC_SEC_LO → CanWrite s req R.TAP_RTC_SEC_HI →
    Sys2Proof.Machine.exec (.rtcSecWrite req lo hi) s = .next
      { ((State.setReg { s with wrShadow := tabDel (reqCode req) s.wrShadow } R.TAP_RTC_SEC_LO lo).setReg R.TAP_RTC_SEC_HI
          ((s.reg R.TAP_RTC_SEC_HI &&& 0xFFFF0000) ||| (hi &&& 0xFFFF))).setFld
          R.TAP_RTC_SUB_SUB 0 with slow := { s.slow with counted := false } }) ∧
  (∀ (req : Req) (n : Fin 8) (v : Word) (s : State), CanWrite s req (R.TAP_WAKE_CFG n.val) →
    Sys2Proof.Machine.exec (.wakeCfgWrite req n v) s = .next ((s.setReg (R.TAP_WAKE_CFG n.val)
      ((s.reg (R.TAP_WAKE_CFG n.val) &&& 0xFFFF00F8) ||| (v &&& 0xFF07))).setWakeHeld n.val false)) ∧
  (∀ (req : Req) (v : Word) (s : State), CanWrite s req R.TAP_VBAT_CMP →
    Sys2Proof.Machine.exec (.vbatCmpWrite req v) s = .next ((s.setReg R.TAP_VBAT_CMP
      ((s.reg R.TAP_VBAT_CMP &&& 0xFFFFC0C0) ||| (v &&& 0x3F3F))).updTap (fun t => { t with vbatLoArmed := true, vbatHiArmed := true }))) ∧
  (∀ (req : Req) (s u : State), CanWrite s req R.TAP_STBY → u = s.setReg R.TAP_STBY (s.reg R.TAP_STBY) →
    Sys2Proof.Machine.exec (.standbyEntry req) s = .next u.standbyGo ∧
    (s.fld R.TAP_WAKE_EN_SRC = 0 → u.standbyGo = u.setFld R.TAP_STBY_REFUSED 1)) ∧
  (∀ (req : Req) (v : Word) (s : State) (m i : Nat), CanWrite s req R.TAP_RRAM_DATA → s.fld R.TAP_RRAM_ECC_INJ = m →
    s.fld R.TAP_RRAM_IDX_IDX = i →
    Sys2Proof.Machine.exec (.rramDataAccess req (some v)) s = .next (State.rramStep
      (if m = 1 then (s.rramPut i v 1).setFld R.TAP_RRAM_ECC_INJ 0 else s.rramPut i v (if m = 2 then 1 else 0)))) ∧
  (∀ (req : Req) (s : State) (i : Nat) (w : Word), CanRead s req R.TAP_RRAM_DATA → s.fld R.TAP_RRAM_IDX_IDX = i → s.rramWord i = w →
    (tabGet 0 i s.rramEcc = 0 → Sys2Proof.Machine.exec (.rramDataAccess req none) s =
      .next (s.rramStep.send (.regRead req (BitVec.ofNat 64 w.toNat)))) ∧
    (tabGet 0 i s.rramEcc = 1 → Sys2Proof.Machine.exec (.rramDataAccess req none) s =
      .next ((((s.satAdd R.TAP_RRAM_ECC_CE_CNT 1 255).fault 1 3).rramStep).send (.regRead req (BitVec.ofNat 64 w.toNat)))) ∧
    (2 ≤ tabGet 0 i s.rramEcc → Sys2Proof.Machine.exec (.rramDataAccess req none) s = .next (State.send (State.rramStep
      (State.fault (if s.flag R.TAP_FAULT_STATUS_RRAM_UE then s else s.setFld R.TAP_RRAM_ECC_UE_IDX i) 1 4))
      (.regRead req (BitVec.ofNat 64 w.toNat))))) ∧
  (∀ (req : Req) (inj : BitVec 2) (s : State), CanWrite s req R.TAP_RRAM_ECC_INJ.off →
    Sys2Proof.Machine.exec (.rramEccInjArm req inj) s = .next (s.setFld R.TAP_RRAM_ECC_INJ inj.toNat))

/-- R59-R69, R76-R79, R682, Table 2.2: requests, grants and releases of power domains, and what a clock or a rail that fails does. -/
def Obligations.PowerDomains : Prop :=
  (∀ (d : Fin 16) (s t u : State), s.tap.mode ≠ .powerOnReset →
    t = (if 4 ≤ d.val ∧ d.val < 12 ∧ s.granted 12 = true then s.setBit R.ESP_BREQ (d.val - 4) else s) → u = t.setHwReq d.val true →
    Sys2Proof.Machine.exec (.domainRequest d) s = .next (u.requestDomain d.val) ∧
    (d.val ≠ 0 → s.tap.mode = .running → s.tap.testEn = false → s.domState d.val = 0 →
      u.requestDomain d.val = ((u.setFld (R.PDC_DOM_ERR d.val) 0).startClocks (pllOf d.val)).setDomState d.val
        (if 4 ≤ d.val ∧ d.val < 12 then 2 else if u.pll (pllOf d.val) = .running then 3 else 1)) ∧
    (s.domState d.val ≠ 0 → u.requestDomain d.val = u)) ∧
  (∀ (d : Fin 16) (s u : State), s.tap.mode = .running → u = s.setHwReq d.val false → d.val ≠ 0 →
    bitOf (s.reg R.PDC_REQ) d.val = false → (d.val < 4 ∨ 12 ≤ d.val ∨ bitOf (s.reg R.ESP_BREQ) (d.val - 4) = false) →
    (s.domState d.val = 4 → Sys2Proof.Machine.exec (.domainRequestEnd d) s = .next (u.drain d.val)) ∧
    (s.domState d.val = 0 ∨ s.domState d.val = 5 → Sys2Proof.Machine.exec (.domainRequestEnd d) s = .next u) ∧
    (1 ≤ s.domState d.val → s.domState d.val ≤ 3 → Sys2Proof.Machine.exec (.domainRequestEnd d) s = .next (u.endPending d.val 0))) ∧
  (∀ (d : Fin 16) (s : State), s.tap.mode = .running → d.val ≠ 0 → s.grantable d.val = true →
    s.domState d.val = 3 ∨ (s.domState d.val = 1 ∧ ¬ (4 ≤ d.val ∧ d.val < 12)) →
    Sys2Proof.Machine.exec (.domainGrant d) s = .next ((State.setDomState (State.setBit
      (((s.updTap (fun t => { t with refSys := .running })).pllLocked (pllOf d.val)).setLanes d.val true) R.PDC_GRANT d.val) d.val
      4).onGrant d.val)) ∧
  (∀ (d : Fin 16) (s u : State), s.domState d.val = 5 → u = s.openSwitch d.val →
    Sys2Proof.Machine.exec (.domainRelease d) s =
      .next (if u.tap.mode = .standbyEntry then u.standbyNext else u.judgeDomain d.val)) ∧
  (∀ (b : Fin 8) (s u : State), (b.val, 0) ∈ (s.loop 0).settling → s.loopState 0 = 2 →
    u = s.updLoop 0 (fun l => { l with settling := l.settling.filter (fun c => c.1 != b.val) }) →
    Sys2Proof.Machine.exec (.budAck b) s = .next (if s.domState (4 + b.val) = 2 then u.setDomState (4 + b.val) 3 else u)) ∧
  (∀ (b : Fin 8) (s : State), s.domState (4 + b.val) = 2 →
    Sys2Proof.Machine.exec (.budTimeout b) s = .next ((s.endPending (4 + b.val) 1).fault 1 5)) ∧
  (∀ (s : State), s.tap.refSys = .starting → Sys2Proof.Machine.exec .refSysTimeout s = .next (s.fault 1 1)) ∧
  (∀ (p : Pll) (s : State), s.pll (pllNum p) = .starting → Sys2Proof.Machine.exec (.pllLockTimeout p) s =
    .next (State.fault ((List.range 16).foldl (fun s d =>
      if 1 ≤ d ∧ pllOf d = pllNum p ∧ 1 ≤ s.domState d ∧ s.domState d ≤ 3 then s.endPending d 2 else s)
      (s.setPll (pllNum p) .failed)) 1 2)) ∧
  (∀ (rail : Rail) (s : State),
    Sys2Proof.Machine.exec (.serdesRailLoss rail) s = .next ((s.setRail rail false).railDown (rail != .vio18)) ∧
    Sys2Proof.Machine.exec (.serdesRailReturn rail) s = .next (s.setRail rail true))

/-- R80, R82-R91: the boot ROM starts the rootstock image of the slot that passes, the preferred one first; with none it recovers or
fails. The fabric image is loaded once the packet path has power; a staged image is verified after GO. -/
def Obligations.BootAndStaging : Prop :=
  (∀ (xspi : Option Bytes) (s u : State) (i : Nat) (h : Header), s.granted 1 = true → s.granted 3 = true → s.tap.warmHeld = false →
    s.fld R.BOOT_STATUS_STATE = 0 → (s.headersRead 0).trySlots 0 [s.preferred 0, 1 - s.preferred 0] = (some i, u) → h = u.slotHeader i →
    Sys2Proof.Machine.exec (.rootstockBoot xspi) s = .next (State.bootTo (State.setFld (State.updBoot (State.startRootstock
      (u.fillArea h (u.nvBytes ((imageSlot i).1 + 256) h.len)) h) (fun b => { b with rsStore := some i })) R.BOOT_STATUS_RS_SLOT i) 1)) ∧
  (∀ (xspi : Option Bytes) (s u : State), s.granted 1 = true → s.granted 3 = true → s.tap.warmHeld = false →
    s.fld R.BOOT_STATUS_STATE = 0 → (s.headersRead 0).trySlots 0 [s.preferred 0, 1 - s.preferred 0] = (none, u) → u.strapBoot ≠ 1 →
    Sys2Proof.Machine.exec (.rootstockBoot xspi) s = .next (if u.fuses.recovEn then u.recover else State.fault
      ((List.range 4).foldl (fun s x => if s.loopState x = 0 then s else s.stopLoop x 0) (u.bootTo 6)) 4 0)) ∧
  (∀ (img : Bytes) (s u : State) (h : Header), s.granted 1 = true → s.granted 3 = true → s.tap.warmHeld = false →
    s.fld R.BOOT_STATUS_STATE = 0 → (s.headersRead 0).trySlots 0 [s.preferred 0, 1 - s.preferred 0] = (none, u) → u.strapBoot = 1 →
    h = headerOf (img.take 256 ++ List.replicate (256 - img.length) 0xFF) → u.bytesErr img [1] = 0 →
    Sys2Proof.Machine.exec (.rootstockBoot (some img)) s =
      .next (((u.fillArea h (slice 256 h.len img)).startRootstock h).bootTo 1)) ∧
  (∀ (xspi : Bytes) (s : State), s.fld R.BOOT_STATUS_STATE = 1 → s.granted 12 = true →
    (s.strapBoot = 2 → Sys2Proof.Machine.exec (.fabricLoad xspi) s = .next (s.bootTo 4)) ∧
    (∀ h, s.strapBoot = 1 → h = headerOf (xspi.take 256 ++ List.replicate (256 - xspi.length) 0xFF) → s.bytesErr xspi [2] = 0 →
      s.targetsOn h = true →
      Sys2Proof.Machine.exec (.fabricLoad xspi) s = .next (s.startFabric h 0 (slice 256 h.len xspi))) ∧
    (∀ i u h, s.strapBoot ≠ 1 → s.strapBoot ≠ 2 → (s.headersRead 2).trySlots 2 [s.preferred 2, 1 - s.preferred 2] = (some i, u) →
      h = u.slotHeader (2 + i) → u.targetsOn h = true → Sys2Proof.Machine.exec (.fabricLoad xspi) s =
        .next (u.startFabric h i (u.nvBytes ((imageSlot (2 + i)).1 + 256) h.len))) ∧
    (∀ u, s.strapBoot ≠ 1 → s.strapBoot ≠ 2 → (s.headersRead 2).trySlots 2 [s.preferred 2, 1 - s.preferred 2] = (none, u) →
      Sys2Proof.Machine.exec (.fabricLoad xspi) s = .next (State.bootTo
        ((((u.setHwReq 15 true).requestDomain 15).fault 4 1)) 4)) ∧
    (s.strapBoot = 1 → Sys2Proof.Machine.exec .xspiTimeout s = .next (State.bootTo
      (((((s.setFld R.BOOT_STATUS_ERR 8).setHwReq 15 true).requestDomain 15).fault 4 1)) 4))) ∧
  (∀ (req : Req) (s u : State), CanWrite s req R.BOOT_STAGE_GO → u = s.setReg R.BOOT_STAGE_GO (s.reg R.BOOT_STAGE_GO) →
    Sys2Proof.Machine.exec (.stageGo req) s = .next
      (if s.boot.verifying then u.setFld R.BOOT_STATUS_BUSY_HIT 1
       else (u.updBoot (fun b => { b with verifying := true, hostOpen := u.stagingOpen })).bootTo 2)) ∧
  (∀ (s : State) (img : Bytes) (h : Header) (types : List Nat), s.boot.verifying = true → img = s.stagedBytes →
    h = headerOf (img.take 256 ++ List.replicate (256 - img.length) 0xFF) →
    types = (if s.boot.rsKey.isNone && s.flag R.BOOT_STATUS_RECOV then [1, 2] else [2]) →
    (s.bytesErr img types = 0 → h.type = 1 → Sys2Proof.Machine.exec .stagedImageDone s = .next (State.startBoughs (State.startRootstock
      ((s.fillArea h (slice 256 h.len img)).updBoot (fun b => { b with verifying := false })) h))) ∧
    (s.bytesErr img types = 0 → h.type ≠ 1 → s.targetsOn h = true → Sys2Proof.Machine.exec .stagedImageDone s =
      .next (State.startBoughs (State.setFld ((s.fillArea h (slice 256 h.len img)).updBoot
        (fun b => { b with verifying := false, fabStore := none })) R.BOOT_STATUS_FAB_VER h.secVer))) ∧
    (s.bytesErr img types ≠ 0 → Sys2Proof.Machine.exec .stagedImageDone s = .next (State.bootTo
      ((s.imageFailed h img.length (s.bytesErr img types)).updBoot (fun b => { b with verifying := false })) 4))) ∧
  (∀ (req : Req) (s u : State), CanWrite s req R.BOOT_CTL → u = s.setReg R.BOOT_CTL (s.reg R.BOOT_CTL) → s.strapBoot = 3 →
    s.boot.released = false → Sys2Proof.Machine.exec (.boughRelease req) s = .next
      (if s.fld R.BOOT_STATUS_STATE = 7 then (u.updBoot (fun b => { b with released := true })).startBoughs
       else u.updBoot (fun b => { b with released := true }))) ∧
  (∀ s : State, s.startBoughs = (s.updBoot (fun b => { b with boughsOn := true })).bootTo 3)

/-- R93-R102, R674: fuses, the random number generator and the debug port. The minimum version only rises, to the version of the running
image; a slot in use is not revoked; a random word and a nonce are free values (log 1); three failed responses lock the port. -/
def Obligations.FusesRandomAndDebug : Prop :=
  (∀ (req : Req) (s u : State) (v : Nat), CanWrite s req R.BOOT_FUSE_CMD → u = s.setReg R.BOOT_FUSE_CMD (s.reg R.BOOT_FUSE_CMD) →
    v = s.fld R.BOOT_STATUS_RS_VER →
    (s.boot.rsKey.isSome = true → s.fuses.minVer.toNat < v → Sys2Proof.Machine.exec (.advVer req) s =
      .next { u with fuses := { s.fuses with minVer := BitVec.ofNat 6 v } }) ∧
    (s.boot.rsKey = none ∨ v ≤ s.fuses.minVer.toNat → Sys2Proof.Machine.exec (.advVer req) s = .next u) ∧
    (∀ n : Fin 4, s.boot.rsKey ≠ some n → Sys2Proof.Machine.exec (.revoke req n) s =
      .next { u with fuses := { s.fuses with revoked := s.fuses.revoked ||| BitVec.ofNat 4 (2 ^ n.val) } }) ∧
    (∀ n : Fin 4, s.boot.rsKey = some n → Sys2Proof.Machine.exec (.revoke req n) s = .next (u.fault 4 3))) ∧
  (∀ (req : Req) (s : State), CanRead s req R.SEC_RNG_DATA →
    (s.fld R.SEC_RNG_STATUS_VALID ≠ 0 → Sys2Proof.Machine.exec (.rngRead req) s =
      .next (State.send { s with freeCtr := s.freeCtr + 1 } (.regRead req (BitVec.ofNat 64 (Config.freeWord s.freeCtr).toNat)))) ∧
    (s.fld R.SEC_RNG_STATUS_VALID = 0 → Sys2Proof.Machine.exec (.rngRead req) s = .next (s.send (.regRead req 0)))) ∧
  (∀ (s : State), s.granted 1 = true → Sys2Proof.Machine.exec .rngHealthFail s =
    .next (State.fault ((s.setFld R.SEC_RNG_STATUS_VALID 0).setFld R.SEC_RNG_STATUS_HEALTH_FAIL 1) 4 2)) ∧
  (∀ (req : Req) (pass : Bool) (s u : State), CanWrite s req R.SEC_RNG_CTL → u = s.setReg R.SEC_RNG_CTL (s.reg R.SEC_RNG_CTL) →
    Sys2Proof.Machine.exec (.restart req pass) s = .next
      (if pass then u.setFld R.SEC_RNG_STATUS_VALID 1
       else State.fault ((u.setFld R.SEC_RNG_STATUS_VALID 0).setFld R.SEC_RNG_STATUS_HEALTH_FAIL 1) 4 2)) ∧
  (∀ (s : State), s.tap.mode ≠ .powerOnReset → s.ready 62 = true → Sys2Proof.Machine.exec .idcode s = .next (s.send (.jtag
    (leBytes 4 (s.fld R.IDR_REV_MINOR % 16 * 2 ^ 28 + 0x6416 * 2 ^ 12 + s.fuses.mfrId.toNat * 2 + 1))))) ∧
  (∀ (s : State) (n : Bytes) (k sig : Nat), s.tap.mode ≠ .powerOnReset → s.tap.testEn = false → s.ready 18 = true → s.ready 62 = true →
    n = beBytes 32 (Config.freeBig s.freeCtr).toNat → k = (Config.freeBig (s.freeCtr + 1)).toNat →
    sig = (Crypto.ecdsaSign s.fuses.idKey (Crypto.sha256 (n ++ leBytes 8 s.fuses.uid.toNat)) (Config.freeBig (s.freeCtr + 1))).toNat →
    Sys2Proof.Machine.exec .challenge s = .next (State.send
      { s with boot := { s.boot with dbgNonce := some n }, freeCtr := s.freeCtr + 2 } (.jtag (n ++ beBytes 64 sig)))) ∧
  (∀ (level : Byte) (sig : BitVec 512) (s u : State), s.tap.mode ≠ .powerOnReset → s.tap.testEn = false → s.ready 18 = true →
    s.ready 62 = true →
    u = s.updBoot (fun b => { b with dbgNonce := none }) →
    (∀ n, s.boot.dbgNonce = some n → s.fld R.SEC_DBG_LOCKOUT = 0 → s.ownerSigned n level sig = true → s.fuses.dbgDis = false →
      level.toNat < 4 → Sys2Proof.Machine.exec (.response level sig) s = .next (u.setFld R.SEC_DBG_LEVEL level.toNat)) ∧
    (s.boot.dbgNonce = none ∨ s.fld R.SEC_DBG_LOCKOUT ≠ 0 → s.fld R.SEC_DBG_FAILS < 2 →
      Sys2Proof.Machine.exec (.response level sig) s = .next ((u.setFld R.SEC_DBG_FAILS (s.fld R.SEC_DBG_FAILS + 1)).fault 4 4)) ∧
    (s.boot.dbgNonce = none ∨ s.fld R.SEC_DBG_LOCKOUT ≠ 0 → 2 ≤ s.fld R.SEC_DBG_FAILS →
      Sys2Proof.Machine.exec (.response level sig) s =
        .next (((u.setFld R.SEC_DBG_FAILS 3).setFld R.SEC_DBG_LOCKOUT 1).fault 4 4))) ∧
  (∀ (code : Byte) (s : State), s.tap.mode ≠ .powerOnReset → s.ready 62 = true → code ≠ 0x01 → code ≠ 0x20 → code ≠ 0x21 →
    Sys2Proof.Machine.exec (.bypass code) s = .next (s.send (.jtag [0])))

/-- R232-R241, R244, R247-R252, R265, R268: what starts, stops and changes the state of a loop and of its phases, and the requests that
reach engine A. -/
def Obligations.LoopStateChanges : Prop :=
  (∀ (req : Req) (x : Loop) (hard : Bool) (s u : State) (c old : Word) (n : Nat), n = loopNum x → CanWrite s req (R.LOOP_CTL n) →
    old = s.reg (R.LOOP_CTL n) → u = s.setReg (R.LOOP_CTL n) ((old &&& 0xFFFFFFFC) ||| c) →
    (c = (if hard then 3 else 1) → Sys2Proof.Machine.exec (.loopEnable req x hard) s =
      .next (if bitOf old 0 = true ∨ s.loopState n = 4 then u else u.startLoop n)) ∧
    (c = (if hard then 2 else 0) → Sys2Proof.Machine.exec (.loopDisable req x hard) s =
      .next (if n = 0 ∧ s.loadOn = true then (u.setReg (R.LOOP_CTL n) old).loopEvt n (R.LOOP_STATUS_CFG_ERR n)
        else if bitOf old 0 = true ∨ s.loopState n = 4 then u.disableLoop n else u))) ∧
  (∀ (x : Loop) (s : State) (n : Nat), n = loopNum x →
    (s.loopState n = 1 → (s.loop n).ramp = some (250 * s.vsetEff n) → s.fld (R.LOOP_PG_DLY n) ≤ (s.loop n).pgCount →
      Sys2Proof.Machine.exec (.regulatingEntry x) s = .next ((s.setLoopState n 2).setPgood n true)) ∧
    (s.loopState n = 1 → Sys2Proof.Machine.exec (.softstartTimeout x) s = .next ((s.stopLoop n 4).fault (5 + n) 1)) ∧
    (1 ≤ s.loopState n → s.loopState n ≤ 3 → s.fld (R.LOOP_DE_ENTER n) < s.fld (R.LOOP_DE_EXIT n) →
      max 1 (s.fld (R.LOOP_DE_CNT_CNT n)) ≤ (s.loop n).deCount → Sys2Proof.Machine.exec (.deEnter x) s =
        .next ((s.setFld (R.LOOP_STATUS_DE_ON n) 1).updLoop n (fun l => { l with deCount := 0 }))) ∧
    (∀ final, final ≠ 2 → final < 8 → (s.stopLoop n final).loopState n = final)) ∧
  (∀ (n : Fin 16) (s : State),
    (s.phState n.val = 3 → (s.phase n.val).pruneLeft = 0 →
      Sys2Proof.Machine.exec (.pruneTimeout n) s = .next (s.setPh n.val 1 .mid)) ∧
    (s.fld (R.PH_CFG_ZSRC n.val) = 0 → s.phState n.val = 3 →
      Sys2Proof.Machine.exec (.zeroCrossing n) s = .next (s.setPh n.val 1 .mid)) ∧
    (∀ x, s.fld (R.PH_CFG_ZSRC n.val) = 0 → s.phState n.val = 2 → s.emulating n.val = true → s.servedBy n.val = .some x →
      Sys2Proof.Machine.exec (.zeroCrossing n) s = .next (match s.phaseSpan x n.val with
        | .before => s.updPhase n.val (fun p => { p with startMid := true })
        | .on => s
        | .after => s.updPhase n.val (fun p => { p with endMid := true }))) ∧
    (s.fld (R.PH_CFG_ZSRC n.val) ≠ 0 → Sys2Proof.Machine.exec (.zeroCrossing n) s = .next s)) ∧
  (∀ (b : Fin 8) (s : State), s.granted 1 = true → s.domState (4 + b.val) = 2 → b.val ∉ (s.loop 0).wakes →
    (∀ c ∈ (s.loop 0).settling, c.1 ≠ b.val) → Sys2Proof.Machine.exec (.boughWakeRequest b) s =
      .next (s.updLoop 0 (fun l => { l with
        wakes := l.wakes ++ [b.val],
        wakeCancel := if (s.mine 0).any (fun n => s.phState n == 3) || ((s.loop 0).cmdPend && s.fld (R.LOOP_PHCMD_OP 0) == 2)
          then l.wakeCancel ++ [b.val] else l.wakeCancel }))) ∧
  (∀ (s : State), Sys2Proof.Machine.exec .wakeBoostEnd s = .next (s.updLoop 0 (fun l => { l with boost := 0 }))) ∧
  (∀ (s : State), s.granted 1 = true →
    (s.esp.hintUpDue = true → Sys2Proof.Machine.exec .hintUp s =
      .next (State.updLoop { s with esp := { s.esp with hintUpDue := false } } 0 (fun l => { l with hints := l.hints + 1 }))) ∧
    (s.esp.hintDnDue = true → Sys2Proof.Machine.exec .hintDn s =
      .next (State.loopEvt { s with esp := { s.esp with hintDnDue := false } } 0 (R.LOOP_STATUS_HINT_DN 0))))

/-- R225-R231, R242-R246, R254-R262: a phase-safe point does what the period that ends and the one that begins bring, in order; the law
takes the sample and gives the new duty; prune and bud commands wait for the next phase-safe point; a full telemetry block is
published. -/
def Obligations.LoopPeriods : Prop :=
  (∀ (x : Loop) (s u v w z : State) (n : Nat), n = loopNum x → 1 ≤ s.loopState n → s.loopState n ≤ 3 →
    u = ((s.endPeriod n).beginPeriod n).stopOutOfService n → v = (u.mine n).foldl State.servicePhase u →
    w = (if n = 0 then ((v.serveWakes).phaseCommand n).serveHints else v.phaseCommand n) →
    z = ((w.placeEdges n).reportStored n) →
    (u.switching n = false → Sys2Proof.Machine.exec (.phaseSafePoint x) s = .next u) ∧
    (u.switching n = true → Sys2Proof.Machine.exec (.phaseSafePoint x) s = .next (
      let t := (z.active n).foldl (fun s k => s.activity (132 + k)) z
      if t.active n = [] then t else t.activity (148 + n)))) ∧
  (∀ (x : Loop) (s u w y : State) (n : Nat) (v : Int), n = loopNum x → 1 ≤ s.loopState n → s.loopState n ≤ 3 →
    v = (match (s.loop n).sample with
      | some c => ((c : Int) - s.fld (R.LOOP_SENSE_OFFS n)) * s.fld (R.LOOP_SENSE_GAIN n) / 4096
      | none => (s.loop n).v) →
    u = s.updLoop n (fun l => { l with v := v, sample := none }) →
    w = (u.advanceRamps n).updLoop n (fun l => { l with ramp := some (l.ramp.getD (250 * v)) }) →
    y = (if w.vsetClamped n ≠ w.vsetRamp n then w.loopEvt n (R.LOOP_STATUS_VCLAMP n) else w) →
    Sys2Proof.Machine.exec (.lawCompute x) s = .next (
      if (u.fld (R.LOOP_PROT_OV n) : Int) < v then (u.stopLoop n 4).fault (5 + n) 0
      else if w.loopState n = 3 ∧ (w.loop n).ramp.getD 0 ≤ 0 then w.stopLoop n 0
      else
        let t := y.law n (clampI (-32768) 32767 (y.lawTarget n - v))
        let t := if t.flag (R.LOOP_TIMING_MODE n) then t.moveEdges n else t
        (if t.loopState n = 2 ∧ v < t.fld (R.LOOP_PROT_UV n) then t.fault (5 + n) 2 else t).powerGood n)) ∧
  (∀ (req : Req) (x : Loop) (mask : BitVec 16) (tmo : Byte) (s : State) (n : Nat) (c : Word), n = loopNum x →
    CanWrite s req (R.LOOP_PHCMD n) →
    (c = tmo ++ (0x01 : Byte) ++ mask → Sys2Proof.Machine.exec (.phcmdBud req x mask tmo) s =
      .next ((s.setReg (R.LOOP_PHCMD n) ((s.reg (R.LOOP_PHCMD n) &&& 0x00FC0000) ||| c)).updLoop n (fun l => { l with cmdPend := true }))) ∧
    (c = tmo ++ (0x02 : Byte) ++ mask → Sys2Proof.Machine.exec (.phcmdPrune req x mask tmo) s =
      .next ((s.setReg (R.LOOP_PHCMD n) ((s.reg (R.LOOP_PHCMD n) &&& 0x00FC0000) ||| c)).updLoop n (fun l => { l with cmdPend := true })))) ∧
  (∀ (req : Req) (x : Loop) (s : State) (n : Nat), n = loopNum x → CanWrite s req (R.LOOP_TLM_CTL_PEAK_CLR n).off →
    Sys2Proof.Machine.exec (.peakClr req x) s = .next
      ((s.setReg (R.LOOP_TLM_CTL_PEAK_CLR n).off (s.reg (R.LOOP_TLM_CTL_PEAK_CLR n).off)).updLoop n (fun l => { l with peakClr := true }))) ∧
  (∀ (x : Loop) (s : State) (n : Nat) (l : LoopSt), n = loopNum x → l = s.loop n → s.fld (R.LOOP_TLM_CTL_MODE n) ≠ 0 →
    2 ^ s.fld (R.LOOP_TLM_CTL_K n) ≤ l.telN →
    ∃ u, Sys2Proof.Machine.exec (.loopTelemetryPublish x) s = .next u ∧
      u.fld (R.LOOP_TLM_V_V n) = ofSigned 16 (divFree l.telV l.telN) ∧ u.fld (R.LOOP_TLM_I_I n) = ofSigned 16 (divFree l.telI l.telN) ∧
      u.fld (R.LOOP_TLM_P_P n) = ofSigned 32 (divFree l.telP (400 * l.telN)) ∧
      u.fld (R.LOOP_TLM_T_T n) = ofSigned 16 (divFree l.telT l.telN) ∧ u.reg (R.LOOP_TLM_SEQ n) = s.reg (R.LOOP_TLM_SEQ n) + 1 ∧
      (u.loop n).telN = 0 ∧ (u.loop n).peakClr = false ∧ (u.loop n).eoutN = (l.eoutN + 1) % 2 ^ 24)

/-- R191, R192, R211: a write of a bough's event post register posts each event of its mask to the thread; a write of a thread's command
register releases or resumes a HALTED thread. -/
def Obligations.PostsAndThreadCommands : Prop :=
  (∀ (req : Req) (b : Fin 8) (t : Fin 64) (mask : Byte) (s : State), s.reqLive req = true →
    reaches req (R.BGH_EVT_POST b.val) = true → s.granted (domainOf (R.BGH_EVT_POST b.val)) = true →
    s.mayPost (s.level req) (64 * b.val + t.val) = true →
    Sys2Proof.Machine.exec (.eventPost req b t mask) s =
      .next (((List.range 8).filter (fun i => mask.getLsbD i)).foldl (fun s i => s.post (64 * b.val + t.val) i) s)) ∧
  (∀ (req : Req) (k : Fin 512) (s : State), s.reqLive req = true →
    reaches req (R.BGH_TSTATE (k.val / 64) (k.val % 64)) = true → s.granted (domainOf (R.BGH_TSTATE (k.val / 64) (k.val % 64))) = true →
    s.supervisesThr (s.level req) k.val = true → (s.thr k.val).state = .halted →
    Sys2Proof.Machine.exec (.release req k) s = .next (s.endThread k.val Thread.reset) ∧
    Sys2Proof.Machine.exec (.resume req k) s =
      .next (s.updThr k.val (fun t => { t with pc := t.epc, tsr := t.etsr &&& ~~~ 0x200, state := .run })))

/-- R273-R300: slots fire, conversions end and their results go where their settings say, precision lists run entry by entry,
calibrations end. -/
def Obligations.ConverterCommands : Prop :=
  (∀ (n : Fin 16) (sl : Fin 4) (s : State) (w : Word) (x : Nat), w = s.cnvReg (R.CNV_SLOT n.val sl.val) → x = w.toNat / 32 % 4 →
    s.ready 7 = true → bitOf w 0 = true → s.switching x = true →
    (bitOf w 4 = false ∨ w.toNat / 2 ^ 16 % 2 ^ 13 < s.fld (R.LOOP_PERIOD_PERIOD x)) →
    (n.val % 2 = 0 ∨ s.interleaved n.val = false) →
    (bitOf w 8 = false → Sys2Proof.Machine.exec (.slotFire n sl) s =
      .next (s.updConv n.val (fun c => { c with waiting := insertSlot sl.val c.waiting }))) ∧
    (bitOf w 8 = true → (∀ b, (s.conv n.val).busy = some b → bitOf (s.cnvReg (R.CNV_SLOT n.val b)) 8 = false) →
      Sys2Proof.Machine.exec (.slotFire n sl) s =
        .next ((s.satAdd (R.CNV_STAT_ABORT n.val) 1 255).updConv n.val (fun c => { c with busy := some sl.val }))) ∧
    (∀ b, bitOf w 8 = true → (s.conv n.val).busy = some b → bitOf (s.cnvReg (R.CNV_SLOT n.val b)) 8 = true →
      Sys2Proof.Machine.exec (.slotFire n sl) s = .next ((s.satAdd (R.CNV_STAT_SLIP_CNT n.val) 1 255).fault 9 2))) ∧
  (∀ (n : Fin 16) (uV : Int) (s : State), s.ready 7 = true →
    (∀ sl, (s.conv n.val).busy = some sl → Sys2Proof.Machine.exec (.conversionResult n uV) s =
      .next ((s.slotResult n.val sl (fastSample uV)).nextConversion n.val)) ∧
    ((s.conv n.val).busy = none → s.interleaved n.val = false → Sys2Proof.Machine.exec (.conversionResult n uV) s =
      .next (((s.phaseSample n.val (fastSample uV).code).comparators n.val 0 (fastSample uV).code (fastSample uV).above
        (fastSample uV).below).nextConversion n.val)) ∧
    ((s.conv n.val).busy = none → s.interleaved n.val = true →
      ∃ v : Sample, v = (if n.val % 2 = 1 then
          trimmedSample (s.sfld (R.CNV_PAIR_GTRIM (n.val / 2))) (s.sfld (R.CNV_PAIR_OTRIM (n.val / 2))) uV else fastSample uV) ∧
        Sys2Proof.Machine.exec (.conversionResult n uV) s =
          .next (((s.capture (resultWord v.code.toNat v.above v.below 0 true (s.conv n.val).seq)).comparators n.val 0 v.code v.above
            v.below).nextConversion n.val))) ∧
  (∀ (fast ok : Bool) (s : State), s.granted 2 = true → Sys2Proof.Machine.exec (.converterCalibration fast ok) s =
    .next (if ok then s.setReady (if fast then 7 else 8) else s.fault 9 0)) ∧
  (∀ (m : Fin 2) (s : State), s.ready 8 = true → s.listOn m.val = true →
    (s.listAt m.val = 8 → s.listsTied = false → Sys2Proof.Machine.exec (.precisionListRestart m) s = .next (s.startList m.val)) ∧
    (s.listAt 0 = 8 → s.listAt 1 = 8 → s.listsTied = true →
      Sys2Proof.Machine.exec (.precisionListRestart m) s = .next ((s.startList 0).startList 1)) ∧
    (s.listAt m.val ≠ 8 → s.fld R.CNV_P_CTL_PERIOD ≠ 0 → Sys2Proof.Machine.exec (.precisionListRestart m) s =
      .next (s.updCnv (fun c => { c with listDue := tabSet false m.val true c.listDue })))) ∧
  (∀ (m : Fin 2) (sl : Fin 8) (uVs : List Int) (s t u : State) (w res : Word) (vs : List Sample) (code : Int) (above below : Bool),
    s.ready 8 = true → s.listOn m.val = true → s.listAt m.val = sl.val → w = s.listEntry m.val sl.val →
    uVs.length = 2 ^ (w.toNat / 2 ^ 8 % 8) → (s.listsTied = true → sl.val ≤ s.listAt (1 - m.val)) →
    vs = uVs.map (precisionSample (w.toNat / 2 % 32)) → code = meanHalfUp ((vs.map (fun v => v.code)).sum) uVs.length →
    above = vs.any (fun v => v.above) → below = vs.any (fun v => v.below) → (above && below) = false →
    res = resultWord (ofSigned 16 code) above below (w.toNat / 2 % 32) false (tabGet 0 m.val s.cnv.pSeq) →
    t = s.updCnv (fun c => { c with pSeq := tabSet 0 m.val ((tabGet 0 m.val c.pSeq + 1) % 256) c.pSeq }) →
    u = State.precisionEffects ((t.setReg (R.CNV_P_RES m.val sl.val) res).setReg R.CNV_P_SEQ (s.reg R.CNV_P_SEQ + 1))
      (w.toNat / 2 % 32) code (above || below) res →
    Sys2Proof.Machine.exec (.precisionEntryDone m sl uVs) s =
      .next (((State.comparators (if bitOf w 12 then u.capture res else u) (16 + m.val) (w.toNat / 2 % 32) code above below).listTo m.val
        (sl.val + 1)).listEnded m.val))

/-- R301, R303-R308: the governor accumulates the energy of an open event every tick, cuts the loop when its window has lasted too long,
closes the event, and takes its register commands. -/
def Obligations.GovernorCommands : Prop :=
  (∀ (s t u : State) (bits bits' : List Nat), s.granted 1 = true → s.govTick 2 = (t, bits) → t.govTick 3 = (u, bits') →
    Sys2Proof.Machine.exec .governorTick s = .next (if bits ++ bits' = [] then u else u.raiseD 10 (bits ++ bits') [])) ∧
  (∀ (x : HLoop) (s t : State) (n : Nat) (v : GovSt) (i : Int), n = hloopNum x → v = s.govOf n → i = s.govCurrent n → v.isOpen = true →
    s.loopState n ≠ 1 → t = s.updGov n (fun v => { v with
      acc := min (2 ^ 48 - 1) (v.acc + ((s.loop n).v * i).toNat), openT := v.openT + 1,
      below := if i ≤ v.itrip then v.below + 1 else 0 }) →
    (v.cut = true ∨ (t.govOf n).acc < v.emax * 4000000000 → s.govTick n =
      ((t.setReg (R.GOV_ACC (n - 2)) (BitVec.ofNat 32 ((t.govOf n).acc / 4000000))).updGov n (fun v => { v with hold := false }), []))) ∧
  (∀ (x : HLoop) (s : State) (n : Nat) (v : GovSt), n = hloopNum x → v = s.govOf n → v.isOpen = true →
    (v.cut = false → v.wmax ≠ 0 → 10000 * v.wmax ≤ v.openT →
      Sys2Proof.Machine.exec (.govWindowTimeout x) s = .next (s.govCut n 2)) ∧
    (10 * v.close < v.below → Sys2Proof.Machine.exec (.govEventClose x) s = .next (s.govClose n))) ∧
  (∀ (req : Req) (x : HLoop) (s : State) (n : Nat), n = hloopNum x → CanWrite s req (R.GOV_CTL (n - 2)) →
    Sys2Proof.Machine.exec (.govDisable req x) s = .next (
      if s.flag (R.GOV_CTL_EN (n - 2)) = true ∧ (s.govOf n).isOpen = true then (s.setFld (R.GOV_CTL_EN (n - 2)) 0).govClose n
      else s.setFld (R.GOV_CTL_EN (n - 2)) 0) ∧
    Sys2Proof.Machine.exec (.maxClr req x) s =
      .next ((s.setReg (R.GOV_CTL (n - 2)) (s.reg (R.GOV_CTL (n - 2)))).setReg (R.GOV_EVT_MAX (n - 2)) 0)) ∧
  (∀ (x : HLoop) (s : State) (n e : Nat), n = hloopNum x → e = (s.govOf n).acc / 4000000 → e < 2 ^ 32 →
    ((s.govClose n).govOf n).isOpen = false ∧ (s.govClose n).reg (R.GOV_EVT_E (n - 2)) = BitVec.ofNat 32 e ∧
    (s.govClose n).reg (R.GOV_EVT_SEQ (n - 2)) = s.reg (R.GOV_EVT_SEQ (n - 2)) + 1 ∧
    (s.govClose n).reg (R.GOV_EVT_MAX (n - 2)) = BitVec.ofNat 32 (max (s.fld (R.GOV_EVT_MAX_E (n - 2))) e))

/-- R318-R328: tachometers, the fan monitor, the keep timer and the shutdown comparator. -/
def Obligations.FanAndShutdownCommands : Prop :=
  (∀ (n : Fin 4) (us : Nat) (s : State), s.granted 1 = true →
    (s.flag (R.FAN_TACH_STALL n.val) = true →
      Sys2Proof.Machine.exec (.tachEdge n us) s = .next (s.setFld (R.FAN_TACH_STALL n.val) 0)) ∧
    (s.flag (R.FAN_TACH_STALL n.val) = false → 0 < us → us < 0xFFFFF → Sys2Proof.Machine.exec (.tachEdge n us) s =
      .next ((s.setFld (R.FAN_TACH_PERIOD n.val) us).setFld (R.FAN_RPM_RPM n.val)
        (min 65535 (60000000 / (us * (s.fld (R.FAN_CFG_PPR n.val) + 1))))))) ∧
  (∀ (n : Fin 4) (s t : State), s.granted 1 = true →
    t = ((s.setFld (R.FAN_TACH_PERIOD n.val) 0xFFFFF).setFld (R.FAN_TACH_STALL n.val) 1).setFld (R.FAN_RPM_RPM n.val) 0 →
    Sys2Proof.Machine.exec (.tachStall n) s = .next (
      if s.flag (R.FAN_CFG_EN n.val) = true ∧ s.fld (R.FAN_OUT_DUTY n.val) ≠ 0 then t.fault 11 (8 + n.val) else t)) ∧
  (∀ (s t : State) (on bad : List Nat), s.granted 1 = true →
    on = (List.range 4).filter (fun j => s.flag (R.FAN_MON_CFG_EN j) && decide (s.fld (R.FAN_MON_CFG_SRC j) < 9)) →
    bad = on.filter (fun j => (s.monCheck j).1 != 0) →
    t = on.foldl (fun t j => (t.setFld (R.FAN_MON_STAT_KIND j) (s.monCheck j).1).setFld (R.FAN_MON_STAT_VALUE j) (s.monCheck j).2) s →
    Sys2Proof.Machine.exec .fanMonitorCheck s = .next (
      let st := (t.reg R.FAN_FAULT_STATUS).toNat
      if bad = [] then State.fanRefresh { t with fanForced := decide (st % 32 ≠ 0) || st.testBit 12 }
      else t.fanFault bad)) ∧
  (∀ (s : State), s.granted 1 = true → s.fld R.FAN_CTL_KEEP ≠ 0 → Sys2Proof.Machine.exec .fanKeepTimeout s = .next (s.fanFault [4])) ∧
  (∀ (s : State) (ts uV : Int),
    (s.tap.vioGood = true → s.tsLimit ≤ ts ∨ uV < thermLimit → Sys2Proof.Machine.exec (.shutdownAssert ts uV) s = .next (
      let t := { s with pins := { s.pins with
        shdnLow := true, tripTs := decide (s.tsLimit ≤ ts), tripX := decide (uV < thermLimit), therm := .some (ts, uV) } }
      if s.pins.shdnLow = true ∨ s.granted 1 = false then t else (t.setFld R.FAN_SHDN_LAT 1).fanFault [12])) ∧
    (s.tap.vioGood = false ∨ (ts < s.tsLimit ∧ thermLimit ≤ uV) → Sys2Proof.Machine.exec (.shutdownAssert ts uV) s =
      .next { s with pins := { s.pins with therm := .some (ts, uV) } }) ∧
    (s.pins.therm = .some (ts, uV) → s.tap.vioGood = true → ts ≤ s.tsLimit - 240 → 350000 < uV →
      Sys2Proof.Machine.exec .shutdownRelease s =
      .next { s with pins := { s.pins with shdnLow := false, tripTs := false, tripX := false } }) ∧
    (s.pins.therm = none ∨ s.tap.vioGood = false → Sys2Proof.Machine.exec .shutdownRelease s = .next s) ∧
    (s.pins.therm = .some (ts, uV) → s.tsLimit - 240 < ts ∨ uV ≤ 350000 → Sys2Proof.Machine.exec .shutdownRelease s = .next s) ∧
    (16 * (105 + 10 * (s.fld R.TAP_STRAP_TSHD : Int)) - 48 ≤ s.tsLimit ∧ s.tsLimit ≤ 16 * (105 + 10 * (s.fld R.TAP_STRAP_TSHD : Int)) + 48 ∧
      290000 ≤ thermLimit ∧ thermLimit ≤ 310000))

/-- R338-R341, R345, R350-R354, R362, R363: what the battery estimator does on its events. -/
def Obligations.BatteryCommands : Prop :=
  (∀ (s : State), s.batOn = true → s.bat.vSeen = true → s.bat.vbat < 3000 → Sys2Proof.Machine.exec .batteryAbsent s =
    .next (((s.setFld R.BAT_STATUS_PRESENT 0).setFld R.BAT_STATUS_VALID 0).setFld R.BAT_STATUS_ABSENT 1)) ∧
  (∀ (s : State), s.batOn = true →
    (s.bat.firstDue = true → ∃ u, Sys2Proof.Machine.exec .firstEstimate s = .next u ∧
      u.bat.q = max 0 (min (s.bat.fcc * mAh) (((s.socOcv * s.bat.fcc).toNat / 10000 : Nat) * mAh)) ∧
      u.bat.firstDue = false ∧ u.bat.estDone = true) ∧
    (s.bat.resync = true → ∃ u, Sys2Proof.Machine.exec .batRelaxResync s = .next u ∧
      u.bat.q = max 0 (min (s.bat.fcc * mAh) (((s.socOcv * s.bat.fcc).toNat / 10000 : Nat) * mAh)) ∧ u.bat.resync = false) ∧
    (s.bat.paused = false → Sys2Proof.Machine.exec .batStale s =
      .next ((s.updBat (fun b => { b with paused := true })).fault 12 1)) ∧
    (s.flag R.BAT_STATUS_ABSENT = false → Sys2Proof.Machine.exec .batPublish s = .next s.batPublication)) ∧
  (∀ (req : Req) (s t : State), s.reqLive req = true → reaches req R.BAT_CTL = true → s.granted (domainOf R.BAT_CTL) = true →
    (s.level req = .warden ∨ req = .pf0Bar4) → t = s.setReg R.BAT_CTL (s.reg R.BAT_CTL) →
    Sys2Proof.Machine.exec (.batRestore req) s = .next (
      let c := t.blockCheck (fun n => t.reg (R.BAT_RESTORE n))
      let u := t.setFld R.BAT_STATUS_RESULT c
      if c = 1 then u.restoreBlock (fun n => t.reg (R.BAT_RESTORE n)) else u)) ∧
  (∀ (req : Req) (s t : State), CanWrite s req R.BAT_CTL → s.flag R.BAT_CTL_EN = false → t = s.setFld R.BAT_CTL_EN 1 →
    (s.fld R.BAT_DESIGN_DESIGN = 0 → Sys2Proof.Machine.exec (.batEnable req) s =
      .next ((t.setFld R.BAT_CTL_EN 0).setFld R.BAT_STATUS_CFG_ERR 1)) ∧
    (∀ u v : State, s.fld R.BAT_DESIGN_DESIGN ≠ 0 →
      u = ((List.range 8).foldl State.rramMeet t).updBat (fun b => { b with firstDue := true, estDone := false, lastI := none, held := [] }) →
      v = State.clampQ (((u.setFld R.BAT_STATUS_PROVISIONAL 1).setFld R.BAT_SOC_SOH 10000).updBat
        (fun b => { b with fcc := u.fld R.BAT_DESIGN_DESIGN % 2 ^ 31 })) →
      (t.blockCheck (fun n => t.rramWord n) = 1 → Sys2Proof.Machine.exec (.batEnable req) s = .next (u.takeBlock (fun n => t.rramWord n))) ∧
      ((∀ n, n < 8 → u.rramWord n = 0) → t.blockCheck (fun n => t.rramWord n) ≠ 1 → Sys2Proof.Machine.exec (.batEnable req) s = .next v) ∧
      (∀ n, n < 8 → u.rramWord n ≠ 0 → t.blockCheck (fun n => t.rramWord n) ≠ 1 →
        Sys2Proof.Machine.exec (.batEnable req) s = .next (v.fault 12 2))))

/-- R380, R381, R389-R391: what every PMBus command of the target does beside its own meaning: a transfer while the target is down or a
byte is held is no transfer; a write with a wrong PEC byte, without a PEC byte that is required, or against WRITE_PROTECT is refused; a
read of all pages sends FFh bytes and is invalid data. The list gives each command's code, its count of data bytes read and whether it
is a block. -/
def Obligations.PmbusTransferRules : Prop :=
  (∀ p ∈ ([(.page, 0x00, 1, false), (.operation, 0x01, 1, false), (.onOffConfig, 0x02, 1, false), (.clearFaults, 0x03, 1, false),
      (.writeProtect, 0x10, 1, false), (.capability, 0x19, 1, false), (.voutMode, 0x20, 1, false), (.voutCommand, 0x21, 2, false),
      (.voutMax, 0x24, 2, false), (.voutTransitionRate, 0x27, 2, false), (.voutMin, 0x2B, 2, false), (.voutOvFaultLimit, 0x40, 2, false),
      (.voutUvFaultLimit, 0x44, 2, false), (.statusByte, 0x78, 1, false), (.statusWord, 0x79, 2, false), (.statusVout, 0x7A, 1, false),
      (.statusIout, 0x7B, 1, false), (.statusTemperature, 0x7D, 1, false), (.statusCml, 0x7E, 1, false),
      (.statusMfrSpecific, 0x80, 1, false), (.readEout, 0x87, 6, true), (.readVout, 0x8B, 2, false), (.readIout, 0x8C, 2, false),
      (.readTemperature1, 0x8D, 2, false), (.readPout, 0x96, 2, false), (.pmbusRevision, 0x98, 1, false), (.mfrId, 0x99, 6, true),
      (.mfrModel, 0x9A, 8, true), (.mfrRevision, 0x9B, 2, true), (.mfrRegRead, 0xD0, 5, true), (.mfrRegWrite, 0xD1, 8, true),
      (.mfrGovEvent, 0xD2, 12, true), (.mfrBat, 0xD3, 16, true), (.mfrPhases, 0xD4, 2, false), (.mfrReady, 0xD5, 8, true)] :
      List ((PmXfer → Instr) × Nat × Nat × Bool)), ∀ (s : State),
    (∀ x, s.pmUp = false → Sys2Proof.Machine.exec (p.1 x) s = .next s) ∧
    (∀ data b, s.pmUp = true → b ≠ BitVec.ofNat 8 (crc8 (BitVec.ofNat 8 (2 * s.pmAddr) :: BitVec.ofNat 8 p.2.1 :: data)) →
      Sys2Proof.Machine.exec (p.1 (.write data (.some b))) s = .next ((s.latchCml 5 8).send .pmNack)) ∧
    (∀ data, s.pmUp = true → s.pecNeeded p.2.1 = true → Sys2Proof.Machine.exec (p.1 (.write data none)) s = .next (s.latchCml 5 8)) ∧
    (∀ data b, s.pmUp = true → s.wpAllows p.2.1 = false →
      (b = none ∧ s.pecNeeded p.2.1 = false ∨
        b = .some (BitVec.ofNat 8 (crc8 (BitVec.ofNat 8 (2 * s.pmAddr) :: BitVec.ofNat 8 p.2.1 :: data)))) →
      Sys2Proof.Machine.exec (p.1 (.write data b)) s = .next s.pmInvalid) ∧
    (∀ pec, s.pmUp = true → s.pm.page = 0xFF → Sys2Proof.Machine.exec (p.1 (.read pec)) s = .next (
      let ff : Bytes := List.replicate p.2.2.1 0xFF
      (s.pmSend p.2.1 [] (if p.2.2.2 then BitVec.ofNat 8 p.2.2.1 :: ff else ff) pec).pmInvalid))) ∧
  (∀ (code : Byte) (s : State), s.pmUp = true → code.toNat ∉ pmCodes →
    Sys2Proof.Machine.exec (.invalidCommand code) s = .next ((s.latchCml 7 6).send .pmNack)) ∧
  (∀ (s : State), s.pmUp = true → s.pm.alertLow = true → Sys2Proof.Machine.exec .alertResponse s =
    .next ((s.updPm (fun p => { p with alertLow := false })).send (.pmbus [BitVec.ofNat 8 (2 * s.pmAddr)])))

/-- R375-R388, R406: what a read of each PMBus command returns and what a write that nothing refuses does. -/
def Obligations.PmbusCommands : Prop :=
  (∀ (s : State) (pec : Bool) (x : Nat), s.pmUp = true → x = s.pm.page → x ≠ 0xFF →
    Sys2Proof.Machine.exec (.page (.read pec)) s = .next (s.pmSend 0x00 [] [BitVec.ofNat 8 x] pec) ∧
    Sys2Proof.Machine.exec (.operation (.read pec)) s =
      .next (s.pmSend 0x01 [] [if s.flag (R.LOOP_CTL_EN x) then 0x80 else 0] pec) ∧
    Sys2Proof.Machine.exec (.onOffConfig (.read pec)) s = .next (s.pmSend 0x02 [] [0x18] pec) ∧
    Sys2Proof.Machine.exec (.writeProtect (.read pec)) s = .next (s.pmSend 0x10 [] [s.pm.wp] pec) ∧
    Sys2Proof.Machine.exec (.capability (.read pec)) s = .next (s.pmSend 0x19 [] [0xD4] pec) ∧
    Sys2Proof.Machine.exec (.voutMode (.read pec)) s = .next (s.pmSend 0x20 [] [0x14] pec) ∧
    Sys2Proof.Machine.exec (.voutCommand (.read pec)) s =
      .next (s.pmSend 0x21 [] (leBytes 2 ((s.fld (R.LOOP_VSET_VSET x) * 1024 + 500) / 1000)) pec) ∧
    Sys2Proof.Machine.exec (.voutMax (.read pec)) s =
      .next (s.pmSend 0x24 [] (leBytes 2 ((s.fld (R.LOOP_VLIM_VMAX x) * 1024 + 500) / 1000)) pec) ∧
    Sys2Proof.Machine.exec (.voutMin (.read pec)) s =
      .next (s.pmSend 0x2B [] (leBytes 2 ((s.fld (R.LOOP_VLIM_VMIN x) * 1024 + 500) / 1000)) pec) ∧
    Sys2Proof.Machine.exec (.voutTransitionRate (.read pec)) s =
      .next (s.pmSend 0x27 [] (leBytes 2 (linear11 (s.reg (R.LOOP_VSLEW x)).toNat 1000)) pec) ∧
    Sys2Proof.Machine.exec (.voutOvFaultLimit (.read pec)) s =
      .next (s.pmSend 0x40 [] (leBytes 2 ((s.fld (R.LOOP_PROT_OV x) * 1024 + 500) / 1000)) pec) ∧
    Sys2Proof.Machine.exec (.voutUvFaultLimit (.read pec)) s =
      .next (s.pmSend 0x44 [] (leBytes 2 ((s.fld (R.LOOP_PROT_UV x) * 1024 + 500) / 1000)) pec) ∧
    Sys2Proof.Machine.exec (.statusByte (.read pec)) s = .next (s.pmSend 0x78 [] (leBytes 1 (s.statusWordOf x)) pec) ∧
    Sys2Proof.Machine.exec (.statusWord (.read pec)) s = .next (s.pmSend 0x79 [] (leBytes 2 (s.statusWordOf x)) pec) ∧
    Sys2Proof.Machine.exec (.statusVout (.read pec)) s = .next (s.pmSend 0x7A [] [tabGet 0 x s.pm.latVout] pec) ∧
    Sys2Proof.Machine.exec (.statusIout (.read pec)) s = .next (s.pmSend 0x7B [] [tabGet 0 x s.pm.latIout] pec) ∧
    Sys2Proof.Machine.exec (.statusTemperature (.read pec)) s = .next (s.pmSend 0x7D [] [tabGet 0 x s.pm.latTemp] pec) ∧
    Sys2Proof.Machine.exec (.statusCml (.read pec)) s = .next (s.pmSend 0x7E [] [s.pm.cml] pec) ∧
    Sys2Proof.Machine.exec (.statusMfrSpecific (.read pec)) s =
      .next (s.pmSend 0x80 [] [tabGet 0 x s.pm.latMfr ||| BitVec.ofNat 8 (s.pm.regRes * 16)] pec) ∧
    Sys2Proof.Machine.exec (.readEout (.read pec)) s = .next (s.pmSend 0x87 []
      (6 :: (leBytes 2 (s.loop x).eoutAcc.toNat ++ leBytes 1 (s.loop x).eoutRoll.toNat ++ leBytes 3 (s.loop x).eoutN)) pec) ∧
    Sys2Proof.Machine.exec (.readVout (.read pec)) s =
      .next (s.pmSend 0x8B [] (leBytes 2 ((s.fld (R.LOOP_TLM_V_V x) * 1024 + 500) / 1000)) pec) ∧
    Sys2Proof.Machine.exec (.readIout (.read pec)) s =
      .next (s.pmSend 0x8C [] (leBytes 2 (linear11 (s.sfld (R.LOOP_TLM_I_I x)) 100)) pec) ∧
    Sys2Proof.Machine.exec (.readTemperature1 (.read pec)) s =
      .next (s.pmSend 0x8D [] (leBytes 2 (linear11 (s.sfld (R.LOOP_TLM_T_T x)) 16)) pec) ∧
    Sys2Proof.Machine.exec (.readPout (.read pec)) s =
      .next (s.pmSend 0x96 [] (leBytes 2 (linear11 (s.sfld (R.LOOP_TLM_P_P x)) 1000)) pec) ∧
    Sys2Proof.Machine.exec (.pmbusRevision (.read pec)) s = .next (s.pmSend 0x98 [] [0x33] pec) ∧
    Sys2Proof.Machine.exec (.mfrId (.read pec)) s = .next (s.pmSend 0x99 [] [6, 0x4E, 0x41, 0x52, 0x42, 0x45, 0x4C] pec) ∧
    Sys2Proof.Machine.exec (.mfrModel (.read pec)) s =
      .next (s.pmSend 0x9A [] [8, 0x44, 0x58, 0x39, 0x2D, 0x36, 0x34, 0x31, 0x36] pec) ∧
    Sys2Proof.Machine.exec (.mfrRevision (.read pec)) s =
      .next (s.pmSend 0x9B [] [2, BitVec.ofNat 8 (s.fld R.IDR_REV_MAJOR), BitVec.ofNat 8 (s.fld R.IDR_REV_MINOR)] pec) ∧
    (2 ≤ x → Sys2Proof.Machine.exec (.mfrGovEvent (.read pec)) s = .next (s.pmSend 0xD2 [] (12 ::
      (leBytes 4 (s.reg (R.GOV_EVT_E (x - 2))).toNat ++ leBytes 4 (s.reg (R.GOV_EVT_T (x - 2))).toNat
        ++ leBytes 2 (s.fld (R.GOV_EVT_CNT_CNT (x - 2))) ++ [BitVec.ofNat 8 (s.fld (R.GOV_STATUS_CAUSE (x - 2))), 0])) pec)) ∧
    Sys2Proof.Machine.exec (.mfrBat (.read pec)) s = .next (s.pmSend 0xD3 [] (16 ::
      [R.BAT_SOC, R.BAT_RC, R.BAT_FCC, R.BAT_TTE].flatMap (fun r => leBytes 4 (s.regView .warden r).toNat)) pec) ∧
    Sys2Proof.Machine.exec (.mfrPhases (.read pec)) s =
      .next (s.pmSend 0xD4 [] (leBytes 2 ((s.mine x).foldl (fun m n => m + 2 ^ n) 0)) pec) ∧
    Sys2Proof.Machine.exec (.mfrReady (.read pec)) s = .next (s.pmSend 0xD5 []
      (8 :: (leBytes 4 (s.reg R.IDR_READY_0).toNat ++ leBytes 4 (s.reg R.IDR_READY_1).toNat)) pec) ∧
    (∀ a b c d : Byte, Sys2Proof.Machine.exec (.mfrRegRead (.call [4, a, b, c, d] pec)) s = .next (
      let r := s.busRead .tw0 (0xF000000000 + leNat [a, b, c, d]) 4
      r.st.pmSend 0xD0 [4, a, b, c, d] (5 :: (leBytes 1 r.code ++ leBytes 4 (if r.code = 0 then r.val else 0))) pec))) ∧
  (∀ (s : State) (pec : Option Byte), s.pmUp = true →
    (∀ v : Byte, v.toNat < 4 ∨ v = 0xFF → s.pecRest 0x00 [v] pec = .fine → s.wpAllows 0x00 = true →
      Sys2Proof.Machine.exec (.page (.write [v] pec)) s = .next (s.updPm (fun p => { p with page := v.toNat }))) ∧
    (s.pecRest 0x01 [0x80] pec = .fine → s.wpAllows 0x01 = true → Sys2Proof.Machine.exec (.operation (.write [0x80] pec)) s =
      .next (s.loopReg R.LOOP_CTL (fun w => w ||| 1))) ∧
    (∀ v : Byte, v = 0x40 ∨ v = 0x00 → s.pecRest 0x01 [v] pec = .fine → s.wpAllows 0x01 = true → ¬ (0 ∈ s.pmPages ∧ s.loadOn = true) →
      Sys2Proof.Machine.exec (.operation (.write [v] pec)) s =
        .next (s.loopReg R.LOOP_CTL (fun w => (w &&& 0xFFFFFFFC) ||| (if v = 0 then 2 else 0)))) ∧
    (s.pecRest 0x02 [0x18] pec = .fine → s.wpAllows 0x02 = true →
      Sys2Proof.Machine.exec (.onOffConfig (.write [0x18] pec)) s = .next s) ∧
    (s.pecRest 0x03 [] pec = .fine → s.wpAllows 0x03 = true → Sys2Proof.Machine.exec (.clearFaults (.write [] pec)) s = .next (
      let t := s.pmPages.foldl (fun s k => s.updPm (fun p => { p with
        latVout := tabDel k p.latVout
        latIout := tabDel k p.latIout
        latTemp := tabDel k p.latTemp
        latMfr := tabDel k p.latMfr
        latSum := tabDel k p.latSum })) s
      (t.updPm (fun p => { p with cml := 0, busy := false })).pmSettle)) ∧
    (∀ v : Byte, v = 0x80 ∨ v = 0x40 ∨ v = 0x20 ∨ v = 0 → s.pecRest 0x10 [v] pec = .fine →
      Sys2Proof.Machine.exec (.writeProtect (.write [v] pec)) s = .next (s.updPm (fun p => { p with wp := v }))) ∧
    (∀ p ∈ ([(.voutCommand, 0x21, R.LOOP_VSET, R.LOOP_VSET_VSET 0), (.voutMax, 0x24, R.LOOP_VLIM, R.LOOP_VLIM_VMAX 0),
        (.voutMin, 0x2B, R.LOOP_VLIM, R.LOOP_VLIM_VMIN 0), (.voutOvFaultLimit, 0x40, R.LOOP_PROT, R.LOOP_PROT_OV 0),
        (.voutUvFaultLimit, 0x44, R.LOOP_PROT, R.LOOP_PROT_UV 0)] : List ((PmXfer → Instr) × Nat × (Nat → Nat) × Fld)), ∀ a b : Byte,
      s.pecRest p.2.1 [a, b] pec = .fine → s.wpAllows p.2.1 = true → Sys2Proof.Machine.exec (p.1 (.write [a, b] pec)) s =
        .next (s.loopReg p.2.2.1 (p.2.2.2.put (((a.toNat + 256 * b.toNat) * 1000 + 512) / 1024)))) ∧
    (∀ (a b : Byte) (r : Nat), s.pecRest 0x27 [a, b] pec = .fine → s.wpAllows 0x27 = true → milliOf (a.toNat + 256 * b.toNat) = .some r →
      Sys2Proof.Machine.exec (.voutTransitionRate (.write [a, b] pec)) s =
        .next (s.loopReg R.LOOP_VSLEW (fun _ => BitVec.ofNat 32 r))) ∧
    (∀ p ∈ ([(.statusVout, 0x7A, fun p => p.latVout, fun p t => { p with latVout := t }),
        (.statusIout, 0x7B, fun p => p.latIout, fun p t => { p with latIout := t }),
        (.statusTemperature, 0x7D, fun p => p.latTemp, fun p t => { p with latTemp := t }),
        (.statusMfrSpecific, 0x80, fun p => p.latMfr, fun p t => { p with latMfr := t })] :
        List ((PmXfer → Instr) × Nat × (PmSt → Tab Byte) × (PmSt → Tab Byte → PmSt))), ∀ v : Byte,
      s.pecRest p.2.1 [v] pec = .fine → s.wpAllows p.2.1 = true →
      Sys2Proof.Machine.exec (p.1 (.write [v] pec)) s = .next (s.pmPages.foldl (fun s k =>
        s.updPm (fun q => p.2.2.2 q (tabSet 0 k (tabGet 0 k (p.2.2.1 q) &&& ~~~ v) (p.2.2.1 q)))) s).pmSettle) ∧
    (∀ (v : Nat) (t : State), t = s.pmPages.foldl (fun s k => s.updPm (fun p =>
        { p with latSum := tabSet 0 k (tabGet 0 k p.latSum &&& ~~~ BitVec.ofNat 16 v) p.latSum })) s →
      (∀ a b : Byte, v = a.toNat + 256 * b.toNat → s.pecRest 0x79 [a, b] pec = .fine → s.wpAllows 0x79 = true →
        Sys2Proof.Machine.exec (.statusWord (.write [a, b] pec)) s =
          .next (if a.getLsbD 7 then t.updPm (fun p => { p with busy := false }) else t).pmSettle) ∧
      (∀ a : Byte, v = a.toNat → s.pecRest 0x78 [a] pec = .fine → s.wpAllows 0x78 = true →
        Sys2Proof.Machine.exec (.statusByte (.write [a] pec)) s =
          .next (if a.getLsbD 7 then t.updPm (fun p => { p with busy := false }) else t).pmSettle)) ∧
    (∀ v : Byte, s.pecRest 0x7E [v] pec = .fine → s.wpAllows 0x7E = true → Sys2Proof.Machine.exec (.statusCml (.write [v] pec)) s =
      .next (s.updPm (fun p => { p with cml := p.cml &&& ~~~ v })).pmSettle) ∧
    (∀ (o v : Word) (d : Bytes), d = 8 :: (leBytes 4 o.toNat ++ leBytes 4 v.toNat) → s.pecRest 0xD1 d pec = .fine →
      s.wpAllows 0xD1 = true → Sys2Proof.Machine.exec (.mfrRegWrite (.write d pec)) s = .next (
        let r := s.busWrite .tw0 (0xF000000000 + o.toNat) 4 v.toNat
        r.st.updPm (fun p => { p with regRes := r.code }))))

/-- R371-R374, R389-R400, R408: the mailbox of program-served commands and its timeouts, and the two bus controllers. -/
def Obligations.MailboxAndControllers : Prop :=
  (∀ (i : Fin 16) (s : State) (page : Nat), s.pmUp = true → s.ready 2 = true →
    page = (if s.pm.page = 0xFF then 3 else s.pm.page) →
    (∀ (bs d : Bytes) (pec : Option Byte), s.wpAllows (0xE0 + i.val) = true → 1 ≤ bs.length → bs.length ≤ 32 →
      d = BitVec.ofNat 8 bs.length :: bs → Sys2Proof.Machine.exec (.mfrProg i (.write d pec)) s = .next (
        let t := (s.setRegBytes (R.TW_0_MBX_DATA 0) bs).setReg R.TW_0_MBX_CMD (BitVec.ofNat 32
          (0xE0 + i.val + page * 2 ^ 8 + bs.length * 2 ^ 10 + (if s.pm.page = 0xFF then 2 ^ 17 else 0) + 2 ^ 31))
        (t.updPm (fun p => { p with
          hold := .some { read := false, pec := false, head := [], rest := s.pecRest (0xE0 + i.val) d pec } })).event
            (t.reg R.TW_0_MBX_ROUTE))) ∧
    (∀ pec, s.pm.page ≠ 0xFF → Sys2Proof.Machine.exec (.mfrProg i (.read pec)) s = .next (
        let t := s.setReg R.TW_0_MBX_CMD (BitVec.ofNat 32 (0xE0 + i.val + page * 2 ^ 8 + 2 ^ 16 + 2 ^ 31))
        (t.updPm (fun p => { p with hold := .some { read := true, pec := pec, head := s.pecHead (0xE0 + i.val) [], rest := .fine } })).event
          (t.reg R.TW_0_MBX_ROUTE)))) ∧
  (∀ (i : Fin 16) (x : PmXfer) (s : State), s.pmUp = true → s.ready 2 = false →
    Sys2Proof.Machine.exec (.mfrProg i x) s = .next (s.latchBusy.send .pmNack)) ∧
  (∀ (req : Req) (v : Word) (s t : State), CanWrite s req R.TW_0_MBX_RESP → t = s.setReg R.TW_0_MBX_RESP (s.reg R.TW_0_MBX_RESP) →
    (s.pm.hold = none → Sys2Proof.Machine.exec (.mbxResponse req v) s = .next (t.setFld R.TW_0_MBX_STAT_LATE 1)) ∧
    (∀ h u, s.pm.hold = .some h → u = (t.setFld R.TW_0_MBX_CMD_VALID 0).updPm (fun p => { p with hold := none }) →
      (bitOf v 0 = false → Sys2Proof.Machine.exec (.mbxResponse req v) s = .next (u.send .pmNack)) ∧
      (bitOf v 0 = true → h.read = false →
        (h.rest = .fine → Sys2Proof.Machine.exec (.mbxResponse req v) s = .next (u.send (.pmbus []))) ∧
        (h.rest = .pecWrong →
          Sys2Proof.Machine.exec (.mbxResponse req v) s = .next (((u.send (.pmbus [])).latchCml 5 8).send .pmNack)) ∧
        (h.rest = .pecMissing → Sys2Proof.Machine.exec (.mbxResponse req v) s = .next ((u.send (.pmbus [])).latchCml 5 8))) ∧
      (∀ data, bitOf v 0 = true → h.read = true → h.rest = .fine →
        data = BitVec.ofNat 8 (v.toNat / 2 ^ 8 % 64) :: u.regBytes (R.TW_0_MBX_DATA 0) (v.toNat / 2 ^ 8 % 64) →
        Sys2Proof.Machine.exec (.mbxResponse req v) s = .next (u.send (.pmbus
          (if h.pec then data ++ [BitVec.ofNat 8 (crc8 (h.head ++ data))] else data)))))) ∧
  (∀ (total : Bool) (h : PmHold) (s u : State), s.pm.hold = .some h →
    u = (s.setFld R.TW_0_MBX_CMD_VALID 0).updPm (fun p => { p with hold := none }) →
    Sys2Proof.Machine.exec (.stretchTimeout total) s =
      .next ((((u.setFld R.TW_0_MBX_STAT_TMO 1).latchBusy).latchCml 1 9).send .pmNack)) ∧
  (∀ (s : State), s.twUp 0 = true → Sys2Proof.Machine.exec .busTimeout s =
    .next (((s.setFld R.TW_0_MBX_CMD_VALID 0).updPm (fun p => { p with hold := none })).latchCml 1 9)) ∧
  (∀ p ∈ ([(.controllerWrite, 0), (.controllerWriteRead, 1), (.controllerRead, 2), (.controllerBlockRead, 3)] :
      List ((Req → Fin 2 → Word → Instr) × Nat)), ∀ (req : Req) (n : Fin 2) (v w : Word) (s t : State),
    CanWrite s req (R.TW_MCMD n.val) → w = (R.TW_MCMD_PROTO 0).put p.2 v &&& 0x013FFF7F →
    t = s.setReg (R.TW_MCMD n.val) ((s.reg (R.TW_MCMD n.val) &&& 0xFEC00080) ||| w) →
    (s.flag (R.TW_MSTAT_BUSY n.val) = true → Sys2Proof.Machine.exec (p.1 req n v) s = .next (t.setFld (R.TW_MSTAT_GO_LOST n.val) 1)) ∧
    (s.flag (R.TW_MSTAT_BUSY n.val) = false → s.twUp n.val = false →
      Sys2Proof.Machine.exec (p.1 req n v) s = .next (t.ctlEnd n.val (.some (R.TW_MSTAT_NACK n.val)) [])) ∧
    (∀ c : CtlSt, s.flag (R.TW_MSTAT_BUSY n.val) = false → s.twUp n.val = true →
      c = { proto := p.2, addr := v.toNat % 2 ^ 7, wlen := min 32 (v.toNat / 2 ^ 10 % 2 ^ 6), rlen := min 32 (v.toNat / 2 ^ 16 % 2 ^ 6),
            pec := v.getLsbD 24,
            sent := if p.2 < 2 then t.regBytes (R.TW_MDATA n.val 0) (min 32 (v.toNat / 2 ^ 10 % 2 ^ 6)) else [],
            triesLeft := s.fld (R.TW_MCTL_RETRY n.val) } →
      Sys2Proof.Machine.exec (p.1 req n v) s = .next ((t.setCtl n.val (.some c)).setFld (R.TW_MSTAT_BUSY n.val) 1))) ∧
  (∀ (n : Fin 2) (clocks : Fin 10) (s t : State) (c : CtlSt), s.ctlOf n.val = .some c →
    t = (s.ctlClocks n.val clocks.val).send (.twoWire n.val c.addr (c.sent ++ (if c.pec = true ∧ c.proto = 0 then
      [BitVec.ofNat 8 (crc8 (BitVec.ofNat 8 (2 * c.addr) :: c.sent))] else []))) →
    (c.lost = true → (n.val = 0 → s.pm.hold = none) → Sys2Proof.Machine.exec (.controllerRetry n) s =
      .next (s.setCtl n.val (.some { c with lost := false, triesLeft := c.triesLeft - 1 }))) ∧
    (c.lost = false →
      (∀ (bs : Bytes) (pec : Byte),
        (if c.proto = 0 then bs = [] else if c.proto = 3 then bs.length ≤ 32 else bs.length = c.rlen) →
        (c.pec = false ∨ c.proto = 0 ∨ c.pecRight bs pec = true →
          Sys2Proof.Machine.exec (.controllerDone n ⟨clocks, .ok bs pec⟩) s = .next (t.ctlEnd n.val none bs)) ∧
        (c.pec = true → c.proto ≠ 0 → c.pecRight bs pec = false →
          Sys2Proof.Machine.exec (.controllerDone n ⟨clocks, .ok bs pec⟩) s =
            .next (t.ctlEnd n.val (.some (R.TW_MSTAT_PEC_ERR n.val)) bs))) ∧
      Sys2Proof.Machine.exec (.controllerDone n ⟨clocks, .nack⟩) s = .next (t.ctlEnd n.val (.some (R.TW_MSTAT_NACK n.val)) []) ∧
      (∀ bs : Bytes, c.proto = 3 → bs.length = 32 → Sys2Proof.Machine.exec (.controllerDone n ⟨clocks, .badLen bs⟩) s =
        .next (t.ctlEnd n.val (.some (R.TW_MSTAT_NACK n.val)) bs)) ∧
      Sys2Proof.Machine.exec (.controllerDone n ⟨clocks, .stuck⟩) s =
        .next (((s.ctlClocks n.val 9).ctlEnd n.val (.some (R.TW_MSTAT_STUCK n.val)) []).fault 13 n.val) ∧
      (∀ bs : Bytes, Sys2Proof.Machine.exec (.controllerDone n ⟨clocks, .arbLost bs⟩) s = .next (
        if c.triesLeft = 0 then t.ctlEnd n.val (.some (R.TW_MSTAT_ARB_LOST n.val)) (bs.take c.most)
        else (t.setFld (R.TW_MSTAT_ARB_LOST n.val) 1).setCtl n.val (.some { c with lost := true }))) ∧
      (∀ bs : Bytes, clocks.val = 0 → Sys2Proof.Machine.exec (.controllerTimeout ⟨n, bs⟩) s =
        .next (t.ctlEnd n.val (.some (R.TW_MSTAT_TIMEOUT n.val)) (bs.take c.most)))))

/-- R401-R405: AVSBus frames of an enabled interface. A frame with a bad CRC is counted and answered 0b10; one of the wrong form 0b11; one
for a loop that does not regulate 0b01; any other does what its command and data type say and is answered 0b00 with the data of a
read. -/
def Obligations.AvsBusFrames : Prop :=
  (∀ (m : Fin 2) (frame : BitVec 32) (s : State) (f x ty data : Nat) (srv : State → State), f = frame.toNat → x = 1 + m.val →
    ty = f / 2 ^ 23 % 16 → data = f / 2 ^ 3 % 2 ^ 16 → srv = (fun s => s.setFld (R.AVS_STAT_LAST_TYPE m.val) ty) →
    s.ready (14 + m.val) = true → s.flag (R.AVS_CFG_EN m.val) = true → f / 2 ^ 30 % 4 = 1 →
    (crc3 f ≠ f % 8 → ∀ c ∈ ([.avsWriteCommit, .avsVoltageRead, .avsRateRead, .avsRateWrite, .avsCurrentRead, .avsTemperatureRead,
        .avsResetVoltage, .avsStatusRead, .avsVersionRead] : List (Fin 2 → BitVec 32 → Instr)),
      Sys2Proof.Machine.exec (c m frame) s = .next ((s.satAdd (R.AVS_STAT_CRC_CNT m.val) 1 255).avsReply m.val 2 0)) ∧
    (crc3 f ≠ f % 8 → f / 2 ^ 28 % 4 = 1 →
      Sys2Proof.Machine.exec (.avsWriteHold m frame) s = .next ((s.satAdd (R.AVS_STAT_CRC_CNT m.val) 1 255).avsReply m.val 2 0)) ∧
    (crc3 f = f % 8 → ∀ c ∈ ([(.avsWriteCommit, 0, 0), (.avsWriteHold, 1, 0), (.avsVoltageRead, 3, 0), (.avsRateRead, 3, 1),
        (.avsRateWrite, 0, 1), (.avsCurrentRead, 3, 2), (.avsTemperatureRead, 3, 3), (.avsResetVoltage, 0, 4), (.avsStatusRead, 3, 14),
        (.avsVersionRead, 3, 15)] : List ((Fin 2 → BitVec 32 → Instr) × Nat × Nat)), f / 2 ^ 28 % 4 = c.2.1 → ty = c.2.2 →
      (f / 2 ^ 27 % 2 ≠ 0 ∨ f / 2 ^ 19 % 16 ≠ 0 → Sys2Proof.Machine.exec (c.1 m frame) s = .next (s.avsReply m.val 3 0)) ∧
      (f / 2 ^ 27 % 2 = 0 → f / 2 ^ 19 % 16 = 0 → s.loopState x ≠ 2 →
        Sys2Proof.Machine.exec (c.1 m frame) s = .next ((srv s).avsReply m.val 1 0))) ∧
    (crc3 f = f % 8 → 5 ≤ ty → ty ≤ 13 → Sys2Proof.Machine.exec (.avsVersionRead m frame) s = .next (s.avsReply m.val 3 0)) ∧
    (crc3 f = f % 8 → f / 2 ^ 27 % 2 = 0 → f / 2 ^ 19 % 16 = 0 → s.loopState x = 2 →
      (f / 2 ^ 28 % 4 = 0 → ty = 0 → Sys2Proof.Machine.exec (.avsWriteCommit m frame) s =
        .next ((srv ((s.avsCommitHeld m.val).avsSetV x (4 * data))).avsReply m.val 0 0)) ∧
      (f / 2 ^ 28 % 4 = 1 → ty = 0 → Sys2Proof.Machine.exec (.avsWriteHold m frame) s =
        .next ((srv (s.setReg (R.AVS_HOLD m.val) (BitVec.ofNat 32 (data + 2 ^ 16)))).avsReply m.val 0 0)) ∧
      (f / 2 ^ 28 % 4 = 3 → ty = 0 → Sys2Proof.Machine.exec (.avsVoltageRead m frame) s =
        .next ((srv s).avsReply m.val 0 (divFree (s.fld (R.LOOP_VSET_VSET x)) 4).toNat)) ∧
      (∀ r, f / 2 ^ 28 % 4 = 3 → ty = 1 → r = (divFree (s.fld (R.LOOP_VSLEW_VSLEW x)) 1000).toNat % 256 →
        Sys2Proof.Machine.exec (.avsRateRead m frame) s = .next ((srv s).avsReply m.val 0 (r * 256 + r))) ∧
      (f / 2 ^ 28 % 4 = 0 → ty = 1 → Sys2Proof.Machine.exec (.avsRateWrite m frame) s = .next ((srv
        ((s.avsCommitHeld m.val).setReg (R.LOOP_VSLEW x) (BitVec.ofNat 32 (data / 256 % 256 * 1000)))).avsReply m.val 0 0)) ∧
      (f / 2 ^ 28 % 4 = 3 → ty = 2 → Sys2Proof.Machine.exec (.avsCurrentRead m frame) s =
        .next ((srv s).avsReply m.val 0 (s.fld (R.LOOP_TLM_I_I x)))) ∧
      (f / 2 ^ 28 % 4 = 3 → ty = 3 → Sys2Proof.Machine.exec (.avsTemperatureRead m frame) s =
        .next ((srv s).avsReply m.val 0 (ofSigned 16 (Int.tdiv (s.sfld (R.LOOP_TLM_T_T x) * 10) 16)))) ∧
      (f / 2 ^ 28 % 4 = 0 → ty = 4 → Sys2Proof.Machine.exec (.avsResetVoltage m frame) s = .next ((srv
        ((s.avsCommitHeld m.val).avsSetV x (coldWord (R.LOOP_VSET x)).toNat)).avsReply m.val 0 0)) ∧
      (f / 2 ^ 28 % 4 = 3 → ty = 14 → Sys2Proof.Machine.exec (.avsStatusRead m frame) s =
        .next ((srv s).avsReply m.val 0 (s.avsStatus x * 2 ^ 11))) ∧
      (f / 2 ^ 28 % 4 = 3 → ty = 15 → Sys2Proof.Machine.exec (.avsVersionRead m frame) s = .next ((srv s).avsReply m.val 0 1))))

/-- R409-R411, R428-R446: enabling, disabling and reset of a row, doorbells, host queues, interrupts and the mailbox. -/
def Obligations.RowCommands : Prop :=
  (∀ (req : Req) (r : Fin 8) (s t : State) (k : Nat), CanWrite s req (R.ROW_CTL r.val) → k = s.fld (R.ROW_SUPV_CODE r.val) →
    (s.flag (R.ROW_CTL_EN r.val) = false → t = s.setFld (R.ROW_CTL_EN r.val) 1 →
      (k < 512 → s.mapped r.val k = true → Sys2Proof.Machine.exec (.rowEnable req r) s = .next (t.enableRow r.val)) ∧
      (512 ≤ k ∨ s.mapped r.val k = false → Sys2Proof.Machine.exec (.rowEnable req r) s =
        .next ((t.setReg (R.ROW_CTL r.val) (s.reg (R.ROW_CTL r.val))).rowCfgErr r.val))) ∧
    (s.flag (R.ROW_CTL_EN r.val) = true → t = s.setFld (R.ROW_CTL_EN r.val) 0 →
      Sys2Proof.Machine.exec (.rowDisable req r) s = .next (t.rowReset r.val 3))) ∧
  (∀ (req : Req) (r : Fin 8) (s : State), s.reqLive req = true → reaches req (R.ROW_CTL r.val) = true →
    s.granted (domainOf (R.ROW_CTL r.val)) = true → (s.level req).supervises r.val = true →
    Sys2Proof.Machine.exec (.rowReset req r) s =
      .next ((s.setReg (R.ROW_CTL r.val) (s.reg (R.ROW_CTL r.val))).rowReset r.val 0)) ∧
  (∀ (r : Fin 8) (s : State), s.flag (R.ROW_STATUS_RST_BUSY r.val) = true →
    ∃ u : State, Sys2Proof.Machine.exec (.rowResetDone r) s = .next (if u.flag (R.ROW_CTL_EN r.val) then u.startSupervisor r.val else u.disbandRow r.val) ∧
      u.flag (R.ROW_STATUS_RST_BUSY r.val) = false ∧ u.flag (R.ROW_STATUS_RST_DONE r.val) = true ∧
      u.flag (R.ROW_WDT_CTL_EN r.val) = false ∧ (∀ q : Fin 8, u.reg (R.ROW_HQ_IDX r.val q.val) = 0) ∧
      (u.row r.val).msixPend = 0 ∧ (∀ k, u.thr k = s.thr k) ∧ u.flag (R.ROW_CTL_EN r.val) = s.flag (R.ROW_CTL_EN r.val)) ∧
  (∀ (r q : Fin 8) (v : Word) (s : State) (tail : Nat), s.granted 15 = true → s.granted 12 = true →
    s.flag (R.ROW_STATUS_RST_BUSY r.val) = false → tail = v.toNat % 2 ^ 16 →
    (s.flag (R.ROW_HQ_CFG_EN r.val q.val) = true →
      (tail + 2 ^ 16 - s.fld (R.ROW_HQ_IDX_HEAD r.val q.val)) % 2 ^ 16 ≤ s.hqSize r.val q.val →
      Sys2Proof.Machine.exec (.doorbell r q v) s = .next (s.setFld (R.ROW_HQ_IDX_TAIL r.val q.val) tail)) ∧
    (s.flag (R.ROW_HQ_CFG_EN r.val q.val) = false ∨
      s.hqSize r.val q.val < (tail + 2 ^ 16 - s.fld (R.ROW_HQ_IDX_HEAD r.val q.val)) % 2 ^ 16 →
      Sys2Proof.Machine.exec (.doorbell r q v) s =
        .next ((s.setFld (R.ROW_HQ_STAT_LAST_BAD r.val q.val) tail).fault (16 + r.val) 0))) ∧
  (∀ (r q : Fin 8) (addr : BitVec 64) (len tag : BitVec 16) (w3 : Word) (data : Bytes) (s u : State), s.hqPosted r.val q.val false = true →
    u = s.send (.hostRead r.val (BitVec.ofNat 64 (s.descAt r.val q.val)) 16) →
    Sys2Proof.Machine.exec (.h2dDescriptor r q addr (tag ++ len) w3 data true) s =
      .next ((u.completeDesc r.val q.val len.toNat tag.toNat 4).fault (16 + r.val) 1) ∧
    (len.toNat = 0 ∨ 16384 < len.toNat → Sys2Proof.Machine.exec (.h2dDescriptor r q addr (tag ++ len) w3 data false) s =
      .next (u.completeDesc r.val q.val len.toNat tag.toNat 3)) ∧
    (∀ full t, 1 ≤ len.toNat → len.toNat ≤ 16384 →
      (u.send (.hostRead r.val addr len.toNat)).ingress (srcNum (.host r q)) data false s.dtbNow = (full, t) →
      Sys2Proof.Machine.exec (.h2dDescriptor r q addr (tag ++ len) w3 data false) s =
        .next (t.completeDesc r.val q.val len.toNat tag.toNat (if full then 2 else 0)))) ∧
  (∀ (r q : Fin 8) (addr : BitVec 64) (size tag : BitVec 16) (w3 : Word) (s u t : State) (k n : Nat) (rest : List Nat) (f : Frame)
      (bs : Bytes), s.hqPosted r.val q.val true = true → s.hqWaiting r.val q.val = k :: rest →
    u = s.send (.hostRead r.val (BitVec.ofNat 64 (s.descAt r.val q.val)) 16) →
    Sys2Proof.Machine.exec (.d2hDelivery r q addr (tag ++ size) w3 true) s =
      .next ((u.completeDesc r.val q.val 0 tag.toNat 4).fault (16 + r.val) 1) ∧
    (s.frameOf k = .some f → n = min f.len size.toNat → u.frameRead f (f.cells.length + 1) 0 n = (.some bs, t) →
      Sys2Proof.Machine.exec (.d2hDelivery r q addr (tag ++ size) w3 false) s =
        .next ((((t.send (.hostWrite r.val addr bs)).setHqWaiting r.val q.val rest).freeSlot k).completeDesc r.val q.val n tag.toNat
          (if n < f.len then 1 else 0)))) ∧
  (∀ (r : Fin 8) (v : Fin 32) (s : State) (x : RowSt) (e : MsixEntry), x = s.row r.val → e = s.msixEntry r.val v.val →
    s.granted 15 = true → x.msixPend.getLsbD v.val = true → e.masked = false → x.fnMask = false → x.bme = true → x.d0 = true →
    Sys2Proof.Machine.exec (.msixMessage r v) s =
      .next ((s.updRow r.val (fun x => { x with msixPend := x.msixPend &&& ~~~ BitVec.ofNat 32 (2 ^ v.val) })).send
        (.msix r.val v.val e.addr e.data))) ∧
  (∀ (r : Fin 8) (len : BitVec 11) (vec : BitVec 5) (s u : State), s.granted 15 = true →
    u = s.updRow r.val (fun b => { b with mbCtl := (b.mbCtl &&& 0xFFFF) ||| (len ++ vec ++ (0 : BitVec 16)) }) →
    bitOf (s.row r.val).mbCtl 1 = false →
    (1 ≤ len.toNat → len.toNat ≤ 1024 → Sys2Proof.Machine.exec (.mailboxGo r len vec) s = .next (u.mailbox r len.toNat)) ∧
    (len.toNat = 0 ∨ 1024 < len.toNat → Sys2Proof.Machine.exec (.mailboxGo r len vec) s =
      .next (u.updRow r.val (fun b => { b with mbCtl := b.mbCtl ||| 0xC }))))

/-- R441, R447, R451, R452, R673: link, PERST_N, function resets and configuration requests of the PCIe endpoint. -/
def Obligations.PcieCommands : Prop :=
  (∀ (s : State), s.granted 15 = true → s.flag R.PCIE_STATUS_LINK_UP = true →
    Sys2Proof.Machine.exec .linkDown s = .next s.linkDown) ∧
  (∀ (s : State), s.perst = false → Sys2Proof.Machine.exec .perstFall s =
    .next (if s.granted 15 then State.linkDown { s with perst := true } else { s with perst := true })) ∧
  (∀ (s : State), Sys2Proof.Machine.exec .perstRise s = .next { s with perst := false }) ∧
  (∀ (s : State) (speed width : Fin 16), s.granted 15 = true → s.perst = false → s.tap.srdGood = true → s.tap.srhGood = true →
    s.tap.vio18Good = true → Sys2Proof.Machine.exec (.pcieLinkUp speed width) s =
      .next ((((s.setFld R.PCIE_STATUS_LINK_UP 1).setFld R.PCIE_STATUS_SPEED speed.val).setFld R.PCIE_STATUS_WIDTH width.val).setReady 57)) ∧
  (∀ (r : Fin 8) (s : State), s.granted 15 = true → s.perst = false → Sys2Proof.Machine.exec (.functionLevelReset r) s =
    .next (if s.granted 12 then (s.fnReset r.val).rowReset r.val 1 else (s.fnReset r.val).rowResetOff r.val)) ∧
  (∀ (pf : Fin 8) (op : CfgOp) (s : State), s.granted 15 = true → s.perst = false →
    (s.ready 57 = false → Sys2Proof.Machine.exec (.configRequest pf op) s = .next (s.send (.configRetry pf.val))) ∧
    (s.ready 57 = true →
      (∀ off, Sys2Proof.Machine.exec (.configRequest pf (.read off)) s =
        .next ((s.cfgRead pf.val off.toNat).2.send (.configDone pf.val (s.cfgRead pf.val off.toNat).1))) ∧
      (0 < pf.val → ∀ off : BitVec 12, off.toNat / 4 = 8 ∨ off.toNat / 4 = 9 → s.cfgRead pf.val off.toNat = (0, s)) ∧
      (∀ i v, Sys2Proof.Machine.exec (.configRequest pf (.writeBar i v)) s = .next
        ((s.updRow pf.val (fun x => { x with bars := tabSet 0 i.val (v &&& barMask pf.val i.val) x.bars })).send (.configDone pf.val 0))) ∧
      (∀ b, Sys2Proof.Machine.exec (.configRequest pf (.setBme b)) s =
        .next ((s.updRow pf.val (fun x => { x with bme := b })).send (.configDone pf.val 0))) ∧
      (∀ b, Sys2Proof.Machine.exec (.configRequest pf (.setFnMask b)) s =
        .next ((s.updRow pf.val (fun x => { x with fnMask := b })).send (.configDone pf.val 0))) ∧
      (∀ b, Sys2Proof.Machine.exec (.configRequest pf (.setD0 b)) s =
        .next ((s.updRow pf.val (fun x => { x with d0 := b })).send (.configDone pf.val 0)))))

/-- R453-R462, R470-R475, R479, R484-R494: frames arrive, wait, are dispatched, released and sent; pauses, gates and bough requests. -/
def Obligations.PacketFlow : Prop :=
  (∀ (p : Fin 36) (data : Bytes) (fcsOk : Bool) (s t : State), s.granted (portDomain p.val) = true → t = s.activity p.val →
    fcsOk = false ∨ isRingFrame data = false ∨ (p.val ≠ s.ringSide true ∧ p.val ≠ s.ringSide false) →
    (t.portUp p.val = false → Sys2Proof.Machine.exec (.frameReceive (.port p) data fcsOk) s = .next (t.portCount p.val 2)) ∧
    (t.portUp p.val = true → data.length < 60 →
      Sys2Proof.Machine.exec (.frameReceive (.port p) data fcsOk) s = .next (t.portCount p.val 3)) ∧
    (t.portUp p.val = true → 60 ≤ data.length → Sys2Proof.Machine.exec (.frameReceive (.port p) data fcsOk) s =
      .next ((t.portCount p.val 0).ingress p.val data (!fcsOk) (t.dtbPlus (t.sfld (R.PORT_TSCORR_RX p.val)))).2)) ∧
  (∀ (p : Fin 36) (data : Bytes) (s : State), isRingFrame data = true → p.val = s.ringSide true ∨ p.val = s.ringSide false →
    Sys2Proof.Machine.exec (.frameReceive (.port p) data true) s = .next (s.ringFrame (p.val == s.ringSide true) data)) ∧
  (∀ (r q : Fin 8) (data : Bytes) (fcsOk : Bool) (s : State), s.granted 12 = true →
    Sys2Proof.Machine.exec (.frameReceive (.host r q) data fcsOk) s =
      .next (s.ingress (36 + 8 * r.val + q.val) data (!fcsOk) s.dtbNow).2) ∧
  (∀ (e : Fin 16) (quanta : BitVec 16) (s t : State), s.granted 14 = true → t = s.activity (8 + e.val) →
    (t.portUp (8 + e.val) = true → Sys2Proof.Machine.exec (.pauseReceive e quanta) s =
      .next ((t.portCount (8 + e.val) 0).updPort (8 + e.val) (fun x => { x with pause := quanta != 0 }))) ∧
    (t.portUp (8 + e.val) = false → Sys2Proof.Machine.exec (.pauseReceive e quanta) s = .next (t.portCount (8 + e.val) 2))) ∧
  (∀ (e : Fin 16) (s : State), Sys2Proof.Machine.exec (.pauseEnd e) s =
    .next (s.updPort (8 + e.val) (fun x => { x with pause := false }))) ∧
  (∀ (req : Req) (mask : Word) (s : State), CanWrite s req R.ESP_BREQ → Sys2Proof.Machine.exec (.breqClear req mask) s =
    .next ((s.setReg R.ESP_BREQ (s.reg R.ESP_BREQ &&& ~~~ (mask &&& 0xFF))).endBreq (s.reg R.ESP_BREQ &&& (mask &&& 0xFF)).toNat)) ∧
  (∀ (r : Fin 8) (s : State) (k : Nat) (rest : List Nat) (g : HelperReq) (f : Frame), s.safe = false → s.ready 28 = true →
    (s.row r.val).dispQ = k :: rest → s.pendingGet r.val = .some g → s.frameOf k = .some f →
    Sys2Proof.Machine.exec (.dispatch r) s = .next (s.deliverGet g k f)) ∧
  (∀ (d : Fin 64) (s t : State) (x : Ticket) (rest : List Ticket), s.dom d.val = x :: rest →
    t = (s.setDom d.val rest).setFld (R.ESP_DOM_IDX_HEAD d.val) (s.fld (R.ESP_DOM_IDX_HEAD d.val) + 1) →
    (s.safe = false → x.state = .ready → Sys2Proof.Machine.exec (.ticketRelease d) s =
      .next ((t.count64 (R.ESP_DOM_REL_LO d.val) (R.ESP_DOM_REL_HI d.val)).releaseFrame x.slot)) ∧
    (s.safe = false → x.state = .void → Sys2Proof.Machine.exec (.ticketRelease d) s = .next t) ∧
    (x.state = .issued ∨ x.state = .held → Sys2Proof.Machine.exec (.orderTimeout d) s =
      .next (((s.satAdd (R.ESP_DOM_VOID_COUNT d.val) 1 65535).fault 15 0).voidTicket d.val x.slot 3))) ∧
  (∀ (p : Fin 36) (s t u : State) (c k : Nat) (f : Frame) (data : Bytes), s.portUp p.val = true → (s.port p.val).pause = false →
    (s.port p.val).tx = none → s.plcaTurn p.val = true → s.txClass p.val = .some (c, k) → s.frameOf k = .some f →
    t = (s.setEgressQ p.val c (s.egressQ p.val c).tail).stampFrame p.val k f →
    t.frameRead f (f.cells.length + 1) 0 f.len = (.some data, u) → Sys2Proof.Machine.exec (.frameTransmit p) s =
      .next (u.updPort p.val (fun x =>
        { x with tx := .some { slot := k, gen := t.genOf k, data := data }, sent := x.sent + 1 }))) ∧
  (∀ (p : Fin 36) (s t u : State) (x : TxSt), (s.port p.val).tx = .some x →
    t = s.updPort p.val (fun y => { y with tx := none, lastEnd := s.clk }) →
    (∀ f : Frame, s.frameOf x.slot = .some f → s.genOf x.slot = x.gen →
      u = (if s.portUp p.val then (t.portCount p.val 1).send (.frame p.val x.data (f.bad || f.crcBad)) else t) →
      Sys2Proof.Machine.exec (.frameTransmitEnd p) s =
        .next ((if f.bad || f.crcBad then u.countDrop f.row 2 else u).freeSlot x.slot)) ∧
    (s.frameOf x.slot = none ∨ s.genOf x.slot ≠ x.gen → Sys2Proof.Machine.exec (.frameTransmitEnd p) s =
      .next (if s.portUp p.val then (t.portCount p.val 1).send (.frame p.val x.data true) else t))) ∧
  (∀ (p : Fin 36) (s t : State), s.granted 12 = true → s.granted (portDomain p.val) = true →
    s.flag (R.PORT_GATE_NEXT_VALID p.val) = true → s.pair (R.PORT_GATE_AT_LO p.val) (R.PORT_GATE_AT_HI p.val) ≤ s.dtbNow →
    t = (s.setFld (R.PORT_GATE_OPEN p.val) (s.fld (R.PORT_GATE_NEXT p.val))).setFld (R.PORT_GATE_NEXT_VALID p.val) 0 →
    Sys2Proof.Machine.exec (.gateChange p) s = .next (t.event (t.reg (R.PORT_GATE_ROUTE p.val))))

/-- R462-R469, R505, R508, R509: what each helper operation does for the request that a thread has outstanding. -/
def Obligations.PacketHelpers : Prop :=
  ∀ (t : Fin 512) (cn : BitVec 3) (s : State) (g : HelperReq),
    (s.request t.val cn.toNat 0 1 = .some g →
      (s.ready 28 = false → Sys2Proof.Machine.exec (.get t cn) s = .next (s.finish g 5 0)) ∧
      (s.ready 28 = true → g.hcopyOk = false → Sys2Proof.Machine.exec (.get t cn) s = .next (s.finish g 3 0)) ∧
      (s.ready 28 = true → g.hcopyOk = true → ∀ r, r = (s.thr g.t).row →
        ((s.row r).dispQ = [] ∨ s.safe = true → Sys2Proof.Machine.exec (.get t cn) s = .next s) ∧
        (∀ k rest h f, s.safe = false → (s.row r).dispQ = k :: rest → s.pendingGet r = .some h → s.frameOf k = .some f →
          Sys2Proof.Machine.exec (.get t cn) s = .next (s.deliverGet h k f)) ∧
        (∀ k rest, (s.row r).dispQ = k :: rest → s.pendingGet r = none ∨ s.frameOf k = none →
          Sys2Proof.Machine.exec (.get t cn) s = .next s))) ∧
    (s.request t.val cn.toNat 0 2 = .some g → ∀ d u k f wb cut hdr v x, s.getArea g.desc 32 = (.some d, u) →
      u.tokenFrame (leNat (d.take 4)) = .some (k, f) → u.ticketOf f.dom k = .some x → wb = leNat (slice 0x18 1 d) →
      cut = leNat (slice 0x19 1 d) →
      ((u.thr g.t).row ≠ f.row ∨ x.state ≠ .held ∨ 128 < wb ∨ 128 < cut ∨ 64 + cut < wb ∨ f.len < cut →
        Sys2Proof.Machine.exec (.emit t cn) s = .next (u.finish g 3 0)) ∧
      ((u.thr g.t).row = f.row → x.state = .held → wb ≤ 128 → cut ≤ 128 → wb ≤ 64 + cut → cut ≤ f.len →
        u.getArea (g.desc + 0x20) wb = (.some hdr, v) →
        Sys2Proof.Machine.exec (.emit t cn) s = .next (v.emitFrame g k f cut hdr (leNat (slice 0x1C 4 d))))) ∧
    (s.request t.val cn.toNat 0 3 = .some g → ∀ d u k f data v p, s.getArea g.desc 32 = (.some d, u) →
      u.tokenFrame (leNat (d.take 4)) = .some (k, f) → u.frameRead f (f.cells.length + 1) 0 f.len = (.some data, v) →
      p = parseFrame data (g.arg.toNat / 2 ^ 8 % 2 ^ 16) → Sys2Proof.Machine.exec (.parse t cn) s =
        .next ((v.putArea (g.desc + 0x0C) (leBytes 4 p.1 ++ leBytes 2 p.2.1 ++ leBytes 2 p.2.2)).finish g 0 0)) ∧
    (s.request t.val cn.toNat 1 1 = .some g → ∀ b i kw ew bucket, b = boughOf g.t → i = g.arg.toNat / 256 % 8 →
      s.lookup b i = (kw, ew, bucket) → ∀ log2 base, log2 = min 16 (s.fld (R.BGH_LKP_CFG_LOG2 b i)) → base = 4 * s.fld (R.BGH_LKP_BASE_BASE b i) →
      (s.flag (R.BGH_LKP_CFG_EN b i) = false ∨ 0x100000 < base + 2 ^ log2 * bucket →
        Sys2Proof.Machine.exec (.find t cn) s = .next (s.finish g 3 0)) ∧
      (s.flag (R.BGH_LKP_CFG_EN b i) = true → base + 2 ^ log2 * bucket ≤ 0x100000 → ∀ key n u v, s.getArea g.desc (4 * kw) = (.some key, u) →
        n = crc32Ieee key % 2 ^ log2 →
        (∀ r, u.searchBucket key kw ew (0x100100000 + b * 0x1000000 + base + n * bucket) [0, 1, 2, 3] = (.some (.some r), v) →
          Sys2Proof.Machine.exec (.find t cn) s = .next ((v.putArea (g.desc + 0x20) r.2).finish g 0 (4 * n + r.1))) ∧
        (u.searchBucket key kw ew (0x100100000 + b * 0x1000000 + base + n * bucket) [0, 1, 2, 3] = (.some none, v) →
          Sys2Proof.Machine.exec (.find t cn) s = .next (v.finish g 1 0)))) ∧
    (∀ d u k f off len, s.getArea g.desc 8 = (.some d, u) → u.tokenFrame (leNat (d.take 4)) = .some (k, f) →
      off = leNat (slice 4 2 d) → len = leNat (slice 6 2 d) →
      (s.request t.val cn.toNat 2 1 = .some g →
        (f.len < off + len → Sys2Proof.Machine.exec (.inet t cn) s = .next (u.finish g 3 0)) ∧
        (∀ bs v, off + len ≤ f.len → u.frameRead f (f.cells.length + 1) off len = (.some bs, v) →
          Sys2Proof.Machine.exec (.inet t cn) s =
            .next ((v.putArea (g.desc + 8) (leBytes 4 (inetSum bs))).finish g 0 (inetSum bs)))) ∧
      (s.request t.val cn.toNat 2 2 = .some g →
        (f.len < off + len → Sys2Proof.Machine.exec (.crc32 t cn) s = .next (u.finish g 3 0)) ∧
        (∀ bs v, off + len ≤ f.len → u.frameRead f (f.cells.length + 1) off len = (.some bs, v) →
          Sys2Proof.Machine.exec (.crc32 t cn) s =
            .next ((v.putArea (g.desc + 8) (leBytes 4 (crc32Ieee bs))).finish g 0 (crc32Ieee bs))))) ∧
    (∀ d u k f ao al po pl aad v nonce, s.getArea g.desc 28 = (.some d, u) → u.tokenFrame (leNat (d.take 4)) = .some (k, f) →
      gcmRanges d = (ao, al, po, pl) → g.sa.valid = true → u.frameRead f (f.cells.length + 1) ao al = (.some aad, v) →
      nonce = g.sa.nonce (slice 16 12 d) →
      (s.request t.val cn.toNat 3 1 = .some g → ∀ text w cells y ct h, ao + al ≤ f.len → po + pl ≤ f.len →
        v.frameRead f (f.cells.length + 1) po pl = (.some text, w) →
        w.takeCells f.row ((f.off + max f.len (po + pl + 16) + 255) / 256 - f.cells.length) [] = (cells, true, y) →
        ct = Crypto.gcmCtr g.sa.keys nonce text →
        h = { f with cells := f.cells ++ cells, len := max f.len (po + pl + 16) } →
        Sys2Proof.Machine.exec (.aesSeal t cn) s = .next
          ((((y.setFrame k h).peakCells f.row (w.cellUse f.row + cells.length)).frameWrite h (h.cells.length + 1) po
            (ct ++ Crypto.gcmTag g.sa.keys nonce aad ct)).finish g 0 0)) ∧
      (s.request t.val cn.toNat 3 2 = .some g → ∀ text w ct, ao + al ≤ f.len → po + pl + 16 ≤ f.len →
        v.frameRead f (f.cells.length + 1) po (pl + 16) = (.some text, w) → ct = text.take pl →
        (Crypto.gcmTag g.sa.keys nonce aad ct = text.drop pl → Sys2Proof.Machine.exec (.aesOpen t cn) s =
          .next ((w.frameWrite f (f.cells.length + 1) po (Crypto.gcmCtr g.sa.keys nonce ct)).finish g 0 0)) ∧
        (Crypto.gcmTag g.sa.keys nonce aad ct ≠ text.drop pl →
          Sys2Proof.Machine.exec (.aesOpen t cn) s = .next (w.finish g 4 0)))) ∧
    (s.request t.val cn.toNat 4 1 = .some g → Sys2Proof.Machine.exec (.now t cn) s = .next
      (if s.ready 30 then (s.putArea (g.desc + 8) (leBytes 8 s.dtbNow)).finish g 0 0 else s.finish g 5 0)) ∧
    (s.request t.val cn.toNat 4 2 = .some g → ∀ d u k f, s.getArea g.desc 4 = (.some d, u) → u.tokenFrame (leNat d) = .some (k, f) →
      (∀ v, f.txTime = .some v →
        Sys2Proof.Machine.exec (.egressTs t cn) s = .next ((u.putArea (g.desc + 8) (leBytes 8 v)).finish g 0 0)) ∧
      (f.txTime = none → Sys2Proof.Machine.exec (.egressTs t cn) s = .next
        { u with helpers := u.helpers.map (fun x => if x.t = g.t ∧ x.cn = g.cn then { x with stamp := .some k } else x) })) ∧
    (s.request t.val cn.toNat 0 2 = .some g → ∀ d u, s.getArea g.desc 32 = (.some d, u) → u.tokenFrame (leNat (d.take 4)) = none →
      Sys2Proof.Machine.exec (.emit t cn) s = .next (u.finish g 2 0))

/-- R199, R486, R499-R507, R512-R514: PLCA, MACsec keys, steps and slews of the time base, and the locks of ports. -/
def Obligations.PortCommands : Prop :=
  (∀ (i : Fin 12) (s : State) (w : Word) (t : State), s.portUp (24 + i.val) = true → w = s.reg (R.T1S_PLCA i.val) →
    t = (if plcaCoordinator (s.port (24 + i.val)).plcaNow || plcaCoordinator w then
        s.send (.plcaBeacon i.val (w.toNat / 2 ^ 16 % 256)) else s) →
    Sys2Proof.Machine.exec (.plcaBeacon i) s = .next
      ((t.updPort (24 + i.val) (fun x => { x with plcaNow := w, beaconAt := .some s.clk, sent := 0 })).setFld (R.T1S_STATUS2_PLCA_OK i.val) (if bitOf w 0 then 1 else 0))) ∧
  (∀ (i : Fin 12) (s : State), bitOf (s.port (24 + i.val)).plcaNow 0 = true → plcaCoordinator (s.port (24 + i.val)).plcaNow = false →
    Sys2Proof.Machine.exec (.plcaBeaconLoss i) s = .next (s.setFld (R.T1S_STATUS2_PLCA_OK i.val) 0)) ∧
  (∀ (req : Req) (v : Word) (s t : State), CanWrite s req R.MSEC_CMD →
    t = s.setReg R.MSEC_CMD (s.reg R.MSEC_CMD &&& ~~~ (v &&& 4)) →
    (t.flag R.MSEC_CMD_BUSY = true → Sys2Proof.Machine.exec (.commit req v) s = .next (t.setFld R.MSEC_CMD_LOST 1)) ∧
    (t.flag R.MSEC_CMD_BUSY = false → ∀ i u x, i = t.fld R.MSEC_SEL_SA →
      u = (List.range 12).foldl (fun s w => { (s.inject 27).2 with saEcc := tabSet 0 (16 * i + w) (s.inject 27).1 (s.inject 27).2.saEcc })
        { t with saMaster := tabSet {} i t.stagedSa t.saMaster } →
      x = (List.range 3).foldl (fun s k => s.setReg (R.MSEC_SALT k) 0) ((List.range 8).foldl (fun s k => s.setReg (R.MSEC_KEY k) 0) u) →
      Sys2Proof.Machine.exec (.commit req v) s = .next { x.setFld R.MSEC_CMD_BUSY 1 with msecBusy := .some i })) ∧
  (∀ (s : State) (i : Nat), s.msecBusy = .some i → Sys2Proof.Machine.exec .msecCommitDone s = .next
    { ((List.range 8).foldl (fun s b => if s.granted (4 + b) then s.copySa b i else s) s).setFld R.MSEC_CMD_BUSY 0 with msecBusy := none }) ∧
  (∀ (req : Req) (s t u v : State), CanWrite s req R.DTB_CMD → t = s.setReg R.DTB_CMD (s.reg R.DTB_CMD) →
    u = (t.setPair R.DTB_LO R.DTB_HI ((t.dtbNow + t.pair R.DTB_ADJ_LO R.DTB_ADJ_HI) % 2 ^ 64)).setFld R.DTB_STATUS_SLEWING 0 →
    v = { u with dtb := { u.dtb with slewLeft := 0, slewPhase := 0 } } →
    Sys2Proof.Machine.exec (.step req) s = .next ((List.range 520).foldl (fun s k =>
      if k < 512 ∧ s.granted (4 + boughOf k) = false then s else s.updThr k Thread.dtbStep) v) ∧
    Sys2Proof.Machine.exec (.slew req) s = .next { t.setFld R.DTB_STATUS_SLEWING 1 with
      dtb := { t.dtb with slewLeft := toSigned 32 (t.reg R.DTB_ADJ_LO).toNat, slewPhase := 0 } }) ∧
  (∀ s : State, s.dtb.slewLeft = 0 → Sys2Proof.Machine.exec .slewDone s = .next (s.setFld R.DTB_STATUS_SLEWING 0)) ∧
  (∀ (p : Fin 36) (s t u : State), p.val < 24 → s.granted (portDomain p.val) = true → s.flag (R.PORT_CTL_EN p.val) = true →
    s.tap.srdGood = true → s.tap.srhGood = true → s.flag (R.PORT_STATUS_LOCK p.val) = false →
    t = (s.setFld (R.PORT_STATUS_LINK p.val) 1).setFld (R.PORT_STATUS_LOCK p.val) 1 →
    u = (if t.trained p.val then t.tookFree.txeqUse p.val
        (if mainTapMin p.val ≤ mainTap p.val s.nextFree then s.nextFree else t.txeqSet p.val) else t) →
    Sys2Proof.Machine.exec (.portLockGain p) s = .next ((u.setReady (32 + p.val)).activity (36 + p.val))) ∧
  (∀ (p : Fin 36) (s : State), p.val < 24 → s.granted (portDomain p.val) = true → s.flag (R.PORT_STATUS_LOCK p.val) = true →
    Sys2Proof.Machine.exec (.portLinkLost p) s = .next (((((s.clrReady (32 + p.val)).setFld (R.PORT_STATUS_LOCK p.val) 0).setFld
      (R.PORT_STATUS_LINK p.val) 0).txeqRefresh p.val).fault (40 + p.val) 0))

/-- R515-R523, R526, R527: the ring engine: coldstart, its frames, cycles, windows and what ends its waits. -/
def Obligations.RingCommands : Prop :=
  (∀ (req : Req) (s t : State), CanWrite s req R.RING_CTL → t = s.setReg R.RING_CTL (s.reg R.RING_CTL) →
    Sys2Proof.Machine.exec (.ringCtlStart req) s = .next
      (((t.setFld R.RING_STATUS_NODE t.nodeId).clrReady 31).ringListen.updRing (fun r =>
        { r with startAt := t.clk, heard := 0, heardPrev := 0, everHeard := 0, leaving := 0 })) ∧
    Sys2Proof.Machine.exec (.stop req) s = .next
      (((((t.ringSend 4 (t.fld R.RING_CYCLE_VALUE) 0).clrReady 31).setRingState 0).setFld R.RING_STATUS_COLD 0).updRing
        (fun r => { r with inCycle := false, windowOpen := false }))) ∧
  (∀ (east : Bool) (data : Bytes) (s t : State) (p : Nat), s.granted 13 = true → p = s.ringSide east → t = s.activity p →
    (ringSound data = true → ringType data = 1) →
    (t.portUp p = false → Sys2Proof.Machine.exec (.claim east data) s = .next (t.portCount p 2)) ∧
    (t.portUp p = true → data.length < 60 → Sys2Proof.Machine.exec (.claim east data) s = .next (t.portCount p 3)) ∧
    (t.portUp p = true → 60 ≤ data.length → ringSound data = false →
      Sys2Proof.Machine.exec (.claim east data) s = .next ((t.portCount p 0).fault 79 3))) ∧
  (∀ (east : Bool) (data : Bytes) (s t u : State) (p : Nat), s.granted 13 = true → p = s.ringSide east → ringSound data = true →
    60 ≤ data.length → (s.activity p).portUp p = true → t = (s.activity p).portCount p 0 → u = t.ringOut (!east) data →
    (ringType data ≠ 3 → ringNode data = t.nodeId → t.ringForeign data = false →
      (ringType data = 1 → Sys2Proof.Machine.exec (.claim east data) s = .next t) ∧
      (ringType data = 2 → Sys2Proof.Machine.exec (.beacon east data) s = .next t) ∧
      (ringType data = 4 → Sys2Proof.Machine.exec (.leave east data) s = .next t)) ∧
    (ringNode data ≠ t.nodeId →
      (ringType data = 1 →
        (u.ringState = 2 → Sys2Proof.Machine.exec (.claim east data) s = .next
          ((u.setRingState 4).updRing (fun r => { r with inCycle := false }))) ∧
        (u.ringState = 3 → Sys2Proof.Machine.exec (.claim east data) s = .next (u.updRing (fun r => { r with collided := true }))) ∧
        (u.ringState ≠ 2 → u.ringState ≠ 3 → Sys2Proof.Machine.exec (.claim east data) s = .next u)) ∧
      (ringType data = 2 →
        (u.flag R.RING_STATUS_COLD = true → be16 data 20 % 2 = 1 → ringNode data < u.nodeId →
          Sys2Proof.Machine.exec (.beacon east data) s = .next ((u.fault 79 1).ringFollow data)) ∧
        (u.flag R.RING_STATUS_COLD = true → be16 data 20 % 2 = 0 ∨ u.nodeId ≤ ringNode data →
          Sys2Proof.Machine.exec (.beacon east data) s = .next u) ∧
        (u.flag R.RING_STATUS_COLD = false → u.ringState = 1 ∨ u.ringState = 2 ∨ u.ringOn = true →
          Sys2Proof.Machine.exec (.beacon east data) s = .next (u.ringFollow data))) ∧
      (ringType data = 4 → Sys2Proof.Machine.exec (.leave east data) s = .next
        (u.updRing (fun r => { r with leaving := r.leaving ||| 2 ^ ringNode data })))) ∧
    (∀ v w, ringType data = 3 → v = (if ringNode data = (s.activity p).nodeId ∧ (s.activity p).ringForeign data = true then
        (s.activity p).fault 79 0 else s.activity p) → w = (if v.ringOn then v.ringHear (ringNode data) else v) →
      Sys2Proof.Machine.exec (.slot east data) s = .next (w.portReceive (v.ringSide east) data true))) ∧
  (∀ s : State, s.granted 13 = true →
    (s.ringState = 1 → Sys2Proof.Machine.exec .ringListenEnd s = .next (s.ringAttempt 1)) ∧
    (s.ringState = 2 → Sys2Proof.Machine.exec .ringBackoffEnd s = .next
      (((s.ringSend 1 0 s.ring.attempt).setRingState 3).updRing (fun r => { r with collided := false }))) ∧
    (s.ringState = 3 → s.ring.collided = false → Sys2Proof.Machine.exec .ringConfirmEnd s = .next
      ((((s.setRingState 4).setFld R.RING_STATUS_COLD 1).setFld R.RING_STATUS_CNODE s.nodeId).ringBeacon 0)) ∧
    (∀ t, s.ringState = 3 → s.ring.collided = true → t = s.setFld R.RING_STATUS_COLL (s.fld R.RING_STATUS_COLL + 1) →
      (4 ≤ t.ring.attempt → Sys2Proof.Machine.exec .ringConfirmEnd s = .next (t.fault 79 0).ringListen) ∧
      (t.ring.attempt < 4 → Sys2Proof.Machine.exec .ringConfirmEnd s = .next (t.ringAttempt (t.ring.attempt + 1)))) ∧
    (s.ringOn = true → s.flag R.RING_STATUS_COLD = true →
      Sys2Proof.Machine.exec .ringCycleStart s = .next (s.ringBeacon (s.fld R.RING_CYCLE_VALUE + 1))) ∧
    (s.ringOn = true → s.ring.inCycle = true → Sys2Proof.Machine.exec .ringWindow s = .next
      ((s.ringSend 3 (s.fld R.RING_CYCLE_VALUE) 0).updRing (fun r =>
        { r with windowOpen := true, windowEnd := r.cycleAt + (15 + 7 * s.nodeId) * 1000 }))) ∧
    (s.ringOn = true → s.ring.inCycle = true → ∀ m t, m = s.fld R.RING_MEMBERS_MEMBERS →
      t = s.updRing (fun r => { r with heardPrev := r.heard, heard := 0, inCycle := false, windowOpen := false }) →
      (m &&& s.ring.heard = m → t.ringState ≠ 5 → Sys2Proof.Machine.exec .ringCycleEnd s = .next
        ((((t.setReg R.RING_START_T (BitVec.ofNat 32 ((t.clk - t.ring.startAt) / 1000 % 2 ^ 16))).setRingState 5).setReady 31).endJobOf 5 0 5)) ∧
      (m &&& s.ring.heard ≠ m ∨ t.ringState = 5 → Sys2Proof.Machine.exec .ringCycleEnd s = .next t)) ∧
    (1 ≤ s.ringState → s.ringState ≤ 4 → Sys2Proof.Machine.exec .ringStartTimeout s = .next
      (((((s.setFld R.RING_STATUS_MISSING (s.fld R.RING_MEMBERS_MEMBERS &&& (2 ^ 16 - 1 - s.ring.everHeard % 2 ^ 16))).fault 79 2).setRingState
        6).setReady 31).endJobOf 5 9 6)) ∧
    (s.ringOn = true → s.flag R.RING_STATUS_COLD = false →
      Sys2Proof.Machine.exec .ringBeaconMiss s = .next (((s.clrReady 31).ringListen).fault 79 1)))

/-- R528-R533, R536-R550, R557, R559-R561: attach, reset, configuration, packets, hub ports, suspend, resume and remote wake. -/
def Obligations.UsbCommands : Prop :=
  (∀ (vbus : Bool) (s t : State), t = s.updUsb (fun u => { u with vbus := vbus }) →
    ((t.flag R.USB_CTL_EN && t.granted 15 && vbus) = t.usb.pullup → Sys2Proof.Machine.exec (.usbAttach vbus) s = .next t) ∧
    ((t.flag R.USB_CTL_EN && t.granted 15 && vbus) = true → t.usb.pullup = false →
      Sys2Proof.Machine.exec (.usbAttach vbus) s = .next (t.updUsb (fun u => { u with pullup := true }))) ∧
    ((t.flag R.USB_CTL_EN && t.granted 15 && vbus) = false → t.usb.pullup = true →
      Sys2Proof.Machine.exec (.usbAttach vbus) s = .next (t.usbDefault.updUsb (fun u => { u with pullup := false })))) ∧
  (∀ (hs : Bool) (s : State), s.usb.pullup = true →
    Sys2Proof.Machine.exec (.usbBusReset hs) s = .next (s.usbDefault.setFld R.USB_STATUS_SPEED (if hs then 1 else 0))) ∧
  (∀ s : State, s.usbLive = true →
    (∀ on : Bool, Sys2Proof.Machine.exec (.setConfiguration true on) s = .next
      (if on then (s.updUsb (fun u => { u with addressed := true, hubCfg := true })).setReady 58
       else (s.updUsb (fun u => { u with addressed := true, hubCfg := false })).clrReady 58)) ∧
    (∀ on : Bool, Sys2Proof.Machine.exec (.setConfiguration false on) s = .next
      (if on then (s.updUsb (fun u => { u with addressed := true, fnCfg := true })).setReady 59
       else ((s.updUsb (fun u => { u with addressed := true, fnCfg := false })).clrReady 59).setFld R.USB_FK_LEVEL 0)) ∧
    Sys2Proof.Machine.exec .usbSuspend s = .next (s.updUsb (fun u => { u.awake with susp := true, wakeBits := 0 })) ∧
    (s.usb.hubCfg = true → s.usb.port3Susp = false → Sys2Proof.Machine.exec (.clearPortSuspend .set) s =
      .next (s.updUsb (fun u => { u with port3Susp := true, wakeBits := 0 }))) ∧
    (∀ fn on : Bool, Sys2Proof.Machine.exec (.deviceRemoteWakeup fn on) s = .next
      (s.setFld (if fn then R.USB_STATUS_RWE_FN else R.USB_STATUS_RWE_HUB) (if on then 1 else 0))) ∧
    (∀ n : Fin 2, s.flag (R.USB_PORT_POWER n.val) = true → Sys2Proof.Machine.exec (.babble n) s = .next
      ((((s.setFld (R.USB_PORT_EN n.val) 0).satAdd (R.USB_PORT_BABBLE n.val) 1 255).portChange n.val 1).fault 77 (2 + n.val))) ∧
    (s.usb.hubCfg = true →
      (∀ (n : Fin 2) (on : Bool), Sys2Proof.Machine.exec (.portPower n on) s = .next (s.portPowerTo n.val on)) ∧
      (∀ merge : Bool, s.usb.port3Susp = true → s.usb.driving = false → s.usb.released = false →
        Sys2Proof.Machine.exec (.clearPortSuspend (.clear merge)) s = .next ((s.satAdd R.USB_RESUME_CNT_HOST 1 255).updUsb
          (fun u => { u.awake with port3Susp := false, wakeBits := if merge then s.ntfReasons % 2 ^ 16 else 0 }))))) ∧
  (∀ s : State, s.ep1Live = true →
    (∀ data : Bytes, data.length ≤ s.maxPacket →
      (4 ≤ s.usb.bufs.length → Sys2Proof.Machine.exec (.bulkOutPacket data) s = .next (s.send .usbNak)) ∧
      (s.usb.bufs.length = 3 → s.flag R.USB_STATUS_SPEED = true → Sys2Proof.Machine.exec (.bulkOutPacket data) s = .next
        ((s.updUsb (fun u => { u with bufs := u.bufs ++ [data] }.drain s.maxPacket)).send .usbNyet)) ∧
      (s.usb.bufs.length < 3 ∨ s.usb.bufs.length = 3 ∧ s.flag R.USB_STATUS_SPEED = false →
        Sys2Proof.Machine.exec (.bulkOutPacket data) s = .next
          ((s.updUsb (fun u => { u with bufs := u.bufs ++ [data] }.drain s.maxPacket)).send .usbAck))) ∧
    (s.usb.bufs.length < 4 → Sys2Proof.Machine.exec .ping s = .next (s.send .usbAck)) ∧
    (4 ≤ s.usb.bufs.length → Sys2Proof.Machine.exec .ping s = .next (s.send .usbNak)) ∧
    (∀ p, s.usb.fly = .some p →
      Sys2Proof.Machine.exec .notificationPoll s = .next (s.send (.usbData 2 p.1)) ∧
      Sys2Proof.Machine.exec .notificationAck s = .next
        ((s.setFld R.USB_NTF_PEND_BITS (s.fld R.USB_NTF_PEND_BITS &&& (2 ^ 18 - 1 - p.2 % 2 ^ 18))).updUsb (fun u =>
          { u with fly := none, wakeBits := u.wakeBits &&& (2 ^ 18 - 1 - p.2 % 2 ^ 18),
                   posted := u.posted.filter (fun q => !p.2.testBit q.1) }))) ∧
    (s.usb.fly = none → s.ntfReasons = 0 → Sys2Proof.Machine.exec .notificationPoll s = .next (s.send .usbNak)) ∧
    (s.usb.fly = none → s.ntfReasons ≠ 0 → Sys2Proof.Machine.exec .notificationPoll s = .next
      ((s.updUsb (fun u => { u with fly := .some (s.ntfPacket s.ntfReasons, s.ntfReasons), ntfSeq := (u.ntfSeq + 1) % 2 ^ 16 })).send
        (.usbData 2 (s.ntfPacket s.ntfReasons))))) ∧
  (∀ (req : Req) (bits : Word) (s : State), CanWrite s req R.USB_NTF_POST → Sys2Proof.Machine.exec (.ntfPost req bits) s =
    .next ((s.setReg R.USB_NTF_POST (s.reg R.USB_NTF_POST)).ntfRaise (bits.toNat % 2 ^ 16))) ∧
  (∀ (req : Req) (s t : State), CanWrite s req R.USB_CTL → t = s.setReg R.USB_CTL (s.reg R.USB_CTL &&& ~~~ 1) →
    t.flag R.USB_CTL_EN = false ∧
    (t.usb.pullup = false → Sys2Proof.Machine.exec (.usbDisable req) s = .next t) ∧
    (t.usb.pullup = true →
      Sys2Proof.Machine.exec (.usbDisable req) s = .next (t.usbDefault.updUsb (fun u => { u with pullup := false })))) ∧
  (∀ (n : Fin 2) (s : State), s.granted 15 = true →
    Sys2Proof.Machine.exec (.usbOvercurrent n) s =
      .next ((((s.portPowerTo n.val false).setFld (R.USB_PORT_OC n.val) 1).portChange n.val 3).fault 77 n.val) ∧
    (s.flag (R.USB_PORT_POWER n.val) = true →
      (s.flag (R.USB_PORT_CONN n.val) = false → Sys2Proof.Machine.exec (.portConnectChange n true) s =
        .next ((s.setFld (R.USB_PORT_CONN n.val) 1).portChange n.val 0)) ∧
      (s.flag (R.USB_PORT_CONN n.val) = true → Sys2Proof.Machine.exec (.portConnectChange n false) s =
        .next (((s.setFld (R.USB_PORT_CONN n.val) 0).setFld (R.USB_PORT_EN n.val) 0).portChange n.val 0)))) ∧
  (∀ s : State, s.usb.susp = true →
    Sys2Proof.Machine.exec .usbResumeK s = .next (s.updUsb (fun u => { u with hostK := true }))) ∧
  (∀ s : State, s.usb.susp = true ∨ s.usb.port3Susp = true →
    (s.usb.hostK = true ∨ s.usb.released = true → s.usb.driving = false → Sys2Proof.Machine.exec .usbResumeEnd s = .next
      ((s.satAdd (if s.usb.droveK then R.USB_RESUME_CNT_REMOTE else R.USB_RESUME_CNT_HOST) 1 255).updUsb
        (fun u => { u.awake with port3Susp := u.port3Susp && u.susp }))) ∧
    (s.usb.cancelled = false → s.usb.driving = false → s.usb.released = false → s.usb.retryDue = false → s.usb.gaveUp = false →
      s.wakeReasons ≠ 0 →
      Sys2Proof.Machine.exec (.remoteWakeDecision true) s = .next ((s.satAdd R.USB_RESUME_CNT_CANCEL 1 255).updUsb
        (fun u => { u with cancelled := true, hostK := true, wakeBits := s.ntfReasons })) ∧
      Sys2Proof.Machine.exec (.remoteWakeDecision false) s = .next
        ((s.updUsb (fun u => { u with driving := true, droveK := true, wakeBits := s.ntfReasons })).send (.usbK true)))) ∧
  (∀ s : State, s.usb.driving = true → Sys2Proof.Machine.exec .remoteWakeRelease s = .next
    ((s.updUsb (fun u => { u with driving := false, released := true })).send (.usbK false))) ∧
  (∀ s t : State, s.usb.released = true → s.usb.hostK = false →
    t = (s.satAdd R.USB_RESUME_CNT_FAIL 1 127).updUsb (fun u => { u with released := false, wakeBits := 0 }) →
    (t.usb.wakeTries < t.fld R.USB_WAKE_CFG_RETRIES → Sys2Proof.Machine.exec .remoteWakeFail s =
      .next (t.updUsb (fun u => { u with wakeTries := u.wakeTries + 1, retryDue := true }))) ∧
    (t.fld R.USB_WAKE_CFG_RETRIES ≤ t.usb.wakeTries → Sys2Proof.Machine.exec .remoteWakeFail s =
      .next ((t.updUsb (fun u => { u with gaveUp := true })).fault 77 4))) ∧
  (∀ s : State, Sys2Proof.Machine.exec .remoteWakeRetry s = .next (s.updUsb (fun u => { u with retryDue := false })))

/-- R534, R535, R551-R558: the request at the head of the Fankoec interface is handled and its response queued. -/
def Obligations.FankoecCommands : Prop :=
  ∀ (s : State) (d : Bytes) (op : Nat) (done : Bytes × State → State), s.usb.whole = true → d = s.usb.rx → op = (d.getD 3 0).toNat →
    done = (fun x => if x.2.usb.pullup then
        x.2.updUsb (fun u => UsbSt.drain s.maxPacket { u with resp := u.resp ++ packets s.maxPacket x.1, rx := [], whole := false })
      else x.2) →
    (s.fkCheck .usb d ≠ 0 → fkOpcodes true = [0x01, 0x05, 0x10, 0x11, 0x30, 0x31, 0x02, 0x03, 0x04] ∧
      (op = 0x01 ∨ (fkOpcodes true).contains op = false →
        Sys2Proof.Machine.exec .fankoecHello s = .next (done (fkReply d (s.fkCheck .usb d) [], s))) ∧
      (∀ p ∈ ([(.authChallenge, 0x02), (.authResponse, 0x03), (.logout, 0x04), (.readyMap, 0x05), (.regRead, 0x10), (.regWrite, 0x11),
          (.fankoecJobSubmit, 0x30), (.jobRead, 0x31)] : List (Instr × Nat)),
        op = p.2 → Sys2Proof.Machine.exec p.1 s = .next (done (fkReply d (s.fkCheck .usb d) [], s)))) ∧
    (s.fkCheck .usb d = 0 → fkSized d = true →
      (op = 0x01 → Sys2Proof.Machine.exec .fankoecHello s = .next (done (fkReply d 0 (s.fkHello .usb), s))) ∧
      (op = 0x02 → Sys2Proof.Machine.exec .authChallenge s = .next (done (fkReply d 0 s.freshNonce,
        { s.tookFree with usb := { s.usb with nonce := .some s.freshNonce } }))) ∧
      (op = 0x03 → ∀ level sig t, level = d.getD 12 0 → sig = BitVec.ofNat 512 (beNat (slice 16 64 d)) →
        t = s.updUsb (fun u => { u with nonce := none }) →
        (s.flag R.USB_FK_LOCKOUT = true → Sys2Proof.Machine.exec .authResponse s = .next (done (fkReply d 8 [], s))) ∧
        (∀ n, s.flag R.USB_FK_LOCKOUT = false → s.usb.nonce = .some n → level = 1 ∨ level = 2 → s.ownerSigned n level sig = true →
          Sys2Proof.Machine.exec .authResponse s = .next (done (fkReply d 0 [], t.setFld R.USB_FK_LEVEL level.toNat))) ∧
        (s.flag R.USB_FK_LOCKOUT = false →
          (∀ n, s.usb.nonce = .some n → (level ≠ 1 ∧ level ≠ 2) ∨ s.ownerSigned n level sig = false) →
          Sys2Proof.Machine.exec .authResponse s = .next (done (fkReply d 7 [], t.fkRefused)))) ∧
      (op = 0x04 → Sys2Proof.Machine.exec .logout s = .next (done (fkReply d 0 [], s.setFld R.USB_FK_LEVEL 0))) ∧
      (op = 0x05 → Sys2Proof.Machine.exec .readyMap s = .next (done (fkReply d 0
        (leBytes 4 (s.reg R.IDR_READY_0).toNat ++ leBytes 4 (s.reg R.IDR_READY_1).toNat), s))) ∧
      (op = 0x10 → ∀ st bs t, s.fkRead .usb (fkWord d 0) (fkWord d 1) 0 [] = (st, bs, t) →
        Sys2Proof.Machine.exec .regRead s = .next (done (fkReply d st bs, t))) ∧
      (op = 0x11 → ∀ st bs t, s.fkWrite .usb (fkWord d 0) ((List.range (fkLen d / 4 - 1)).map (fun i => fkWord d (i + 1))) 0 = (st, bs, t) →
        Sys2Proof.Machine.exec .regWrite s = .next (done (fkReply d st bs, t))) ∧
      (op = 0x30 → ∀ r, r = fkWord d 0 →
        (s.fkRowOk .usb r = false → Sys2Proof.Machine.exec .fankoecJobSubmit s = .next (done (fkReply d 5 [], s))) ∧
        (s.fkRowOk .usb r = true → s.ready 17 = false →
          Sys2Proof.Machine.exec .fankoecJobSubmit s = .next (done (fkReply d 9 (leBytes 4 6), s))) ∧
        (∀ w t, s.fkRowOk .usb r = true → s.ready 17 = true → s.submit r (s.level .usb == .warden) (slice 16 32 d) = (w, t) →
          (bitOf w 30 = true → Sys2Proof.Machine.exec .fankoecJobSubmit s = .next (done (fkReply d 0 (leBytes 4 w.toNat), t))) ∧
          (bitOf w 30 = false →
            Sys2Proof.Machine.exec .fankoecJobSubmit s = .next (done (fkReply d 9 (leBytes 4 (w.toNat % 256)), t))))) ∧
      (op = 0x31 → Sys2Proof.Machine.exec .jobRead s =
        .next (done (fkReply d (s.fkJobRead .usb d).1 (s.fkJobRead .usb d).2, s))))

/-- R563-R568, R571-R578, R601: a submission, the pages of store jobs, completion and its record. -/
def Obligations.JobQueue : Prop :=
  (∀ (req : Req) (o : Fin 9) (addr : BitVec 64) (s t : State) (lo hi : Word) (a : Nat), CanWrite s req (R.JOB_SUBMIT_LO o.val) →
    CanWrite s req (R.JOB_SUBMIT_HI o.val) → lo = addr.truncate 32 → hi = (addr >>> 32).truncate 32 →
    a = lo.toNat + hi.toNat % 2 ^ 8 * 2 ^ 32 →
    t = { s with wrShadow := tabDel (reqCode req) s.wrShadow } →
    (a % 32 ≠ 0 ∨ (bitOf hi 31 = true ∧ 0x40000 < a + 32) →
      Sys2Proof.Machine.exec (.jobSubmit req o addr) s = .next (t.setFld (R.JOB_STAT_BADSUB o.val) 1)) ∧
    (a % 32 = 0 → bitOf hi 31 = true → a + 32 ≤ 0x40000 →
      (∀ x, t.rsReadAll a 32 = (none, x) → Sys2Proof.Machine.exec (.jobSubmit req o addr) s = .next (x.setFld (R.JOB_STAT_BADSUB o.val) 1)) ∧
      (∀ d x w u, t.rsReadAll a 32 = (.some d, x) → x.submit o.val (s.level req == .warden) d = (w, u) →
        Sys2Proof.Machine.exec (.jobSubmit req o addr) s = .next (u.rsPoke (a + 28) (leBytes 4 w.toNat)))) ∧
    (a % 32 = 0 → bitOf hi 31 = false →
      (∀ x, t.reqRead req a 32 = (none, x) → Sys2Proof.Machine.exec (.jobSubmit req o addr) s = .next (x.setFld (R.JOB_STAT_BADSUB o.val) 1)) ∧
      (∀ d x w u, t.reqRead req a 32 = (.some d, x) → x.submit o.val (s.level req == .warden) d = (w, u) →
        Sys2Proof.Machine.exec (.jobSubmit req o addr) s = .next (u.devWrite (a + 28) (leBytes 4 w.toNat))))) ∧
  (∀ (req : Req) (o : Fin 9) (s : State), CanRead s req (R.JOB_CPL o.val 0) →
    (tabGet [] o.val s.jobs.cpl = [] → Sys2Proof.Machine.exec (.cplRead req o) s = .next (s.send (.regRead req 0))) ∧
    (∀ c cs, tabGet [] o.val s.jobs.cpl = c :: cs → Sys2Proof.Machine.exec (.cplRead req o) s = .next
      (State.send { s with jobs := { s.jobs with
          list := s.jobs.list.filter (fun j => j.tag != c.tag)
          cpl := tabSet [] o.val cs s.jobs.cpl
          cplShadow := tabSet [] (reqCode req) c.words s.jobs.cplShadow } }
        (.regRead req (BitVec.ofNat 64 (c.words.getD 0 0).toNat))))) ∧
  (∀ (tag : BitVec 10) (s t u : State) (j : Job), s.job tag.toNat = .some j → j.state = .running → j.ended = true →
    t = s.updJob j.tag (fun k => { j with state := .done, ended := true, tag := k.tag }) →
    u = State.event { t with jobs := { t.jobs with
      cpl := tabSet [] j.owner (tabGet [] j.owner s.jobs.cpl ++ [{ words := s.cplWords j, tag := j.tag }]) t.jobs.cpl } }
        (t.reg (R.JOB_ROUTE j.owner)) →
    (j.op = 3 → u.granted 3 = true →
      Sys2Proof.Machine.exec (.jobComplete tag) s = .next ((u.reportWinner 0).reportWinner 1)) ∧
    (j.op ≠ 3 ∨ u.granted 3 = false → Sys2Proof.Machine.exec (.jobComplete tag) s = .next u)) ∧
  (∀ (code : BitVec 12) (mismatch : Bool) (s : State), s.granted 3 = true →
    (∀ rec more, s.fst.queue = rec :: more →
      (s.flag R.FLT_NV_STAT_BUSY = true → Sys2Proof.Machine.exec (.storePageProgram code mismatch) s = .next s) ∧
      (s.flag R.FLT_NV_STAT_BUSY = false →
        Sys2Proof.Machine.exec (.storePageProgram code mismatch) s = .next (s.programRecord rec more code.toNat mismatch))) ∧
    (∀ j, s.fst.queue = [] → s.jobs.list.find? (fun j => j.state == .running && !j.ended && decide (0 < j.pageCount)) = .some j →
      (s.safe = true → Sys2Proof.Machine.exec (.storePageProgram code mismatch) s = .next s) ∧
      (∀ u, s.safe = false → s.holdUp code.toNat = (false, u) →
        Sys2Proof.Machine.exec (.storePageProgram code mismatch) s = .next ((u.endJob j.tag 1 0 0).fault 14 0)) ∧
      (∀ u p at_ bs v x, s.safe = false → s.holdUp code.toNat = (true, u) → bs.length = 256 →
        (u.nextPage j = (p, at_, .inl bs) ∧ v = u ∨ ∃ src n, u.nextPage j = (p, at_, .inr (src, n)) ∧ u.devRead src n = (.some bs, v)) →
        x = (v.programPage p (mergePage bs at_ bs) mismatch).updJob j.tag
          (fun k => { k with pages := j.pages + 1, pos := max k.pos (j.posAfter (j.pages + 1)) }) →
        Sys2Proof.Machine.exec (.storePageProgram code mismatch) s = .next (if mismatch then x.endJob j.tag 8 0 0
          else if j.pages + 1 = j.pageCount then x.finishStore { j with pages := j.pages + 1 } else x))))

/-- R569, R570, R579-R585, R519, R638: what a job does when its turn comes. -/
def Obligations.JobStarts : Prop :=
  ∀ (tag : BitVec 10) (s u : State) (j : Job), s.job tag.toNat = .some j → s.mayStart tag.toNat = true →
    u = s.updJob tag.toNat (fun k => { k with state := .running }) →
    (j.op = 1 → Sys2Proof.Machine.exec (.nvWrite tag) s = .next (u.endIfEmpty j.tag)) ∧
    (j.op = 2 → Sys2Proof.Machine.exec (.nvErase tag) s = .next (u.endIfEmpty j.tag)) ∧
    (j.op = 3 →
      (u.recWinner (j.arg0 - 1) = none → Sys2Proof.Machine.exec (.calStore tag) s =
        .next (u.updJob j.tag (fun k => { k with dst := recSlot (k.arg0 - 1) 0, arg1 := 1 }))) ∧
      (∀ i q w, u.recWinner (j.arg0 - 1) = .some (i, q, w) →
        (q = 0xFFFFFFFF → Sys2Proof.Machine.exec (.calStore tag) s = .next (u.endJob j.tag 3 0 0)) ∧
        (q ≠ 0xFFFFFFFF → Sys2Proof.Machine.exec (.calStore tag) s =
          .next (u.updJob j.tag (fun k => { k with dst := recSlot (k.arg0 - 1) (1 - i), arg1 := q + 1 }))))) ∧
    (j.op = 4 →
      (u.isActive = false ∨ u.graft.pActive = true ∨ u.ready 60 = false →
        Sys2Proof.Machine.exec (.graftSync tag) s = .next (u.endJob j.tag 9 0 0)) ∧
      (∀ e r bank v, u.isActive = true → u.graft.pActive = false → u.ready 60 = true → e = u.nextEpoch →
        r = (graftSections j.arg0 (u.graftSource j.src (16 * j.arg0)).1).foldl (fun (a : Bytes × State) sec =>
          (a.1 ++ (a.2.graftSource sec.1 sec.2.1).1, (a.2.graftSource sec.1 sec.2.1).2)) (u.graftSource j.src (16 * j.arg0)) →
        bank = r.1.take j.len →
        v = (r.2.graftSend 2 e 0 (beBytes 4 j.len ++ beBytes 4 j.arg0)).graftData e (bank.length / 4096 + 1) 0 bank →
        Sys2Proof.Machine.exec (.graftSync tag) s = .next
          ((((v.graftSend 4 e 0 (beBytes 4 (crc32Ieee bank))).graftTo 3).updJob j.tag (fun k => { k with pos := j.len })).updGraft
            (fun g => { g with txTag := .some j.tag, txEpoch := e })))) ∧
    (j.op = 5 → Sys2Proof.Machine.exec (.ringStart tag) s = .next u.ringStart) ∧
    (j.op = 6 →
      (∀ v n, j.arg0 = 2 → v = { u with nvEcc := u.nvEcc.filter (fun c => c.2 != 1) } →
        n = (u.nvEcc.filter (fun c => c.2 == 1)).length →
        (u.nvEcc.any (fun c => c.2 == 2) = false → Sys2Proof.Machine.exec (.scrub tag) s = .next (v.endJob j.tag 0 n j.total)) ∧
        (u.nvEcc.any (fun c => c.2 == 2) = true →
          Sys2Proof.Machine.exec (.scrub tag) s = .next ((v.fault 14 3).endJob j.tag 8 n j.total))) ∧
      (∀ n v, j.arg0 ≠ 2 → u.scrubMem (fun a => if j.arg0 = 0 then decide (a < 0x4000000) else decide (0x100000000 ≤ a)) = (n, v) →
        Sys2Proof.Machine.exec (.scrub tag) s = .next (v.endJob j.tag 0 n j.total))) ∧
    (j.op = 7 → ∀ fails : Word,
      (u.granted (4 + j.arg0) = false → Sys2Proof.Machine.exec (.bistBough tag fails) s = .next (u.endJob j.tag 6 0 0)) ∧
      (∀ v, u.granted (4 + j.arg0) = true →
        v = u.dropMem (0x100000000 + j.arg0 * 0x1000000) (0x100000000 + j.arg0 * 0x1000000 + 0x1000000) →
        Sys2Proof.Machine.exec (.bistBough tag fails) s = .next
          ((State.tookFree { v with fill := tabSet 0 j.arg0 (u.freeCtr + 1) u.fill }).endJob j.tag (if fails = 0 then 0 else 9)
            fails.toNat 1536))) ∧
    (j.op = 8 →
      (∀ h bs v, j.arg0 < 4 → h = u.slotHeader j.arg0 →
        u.nvRead (imageSlot j.arg0).1 (min (h.len + 256) (imageSlot j.arg0).2) = (.some bs, v) →
        Sys2Proof.Machine.exec (.imageVerify tag) s = .next (v.verdict j.tag h.len (v.slotErr j.arg0))) ∧
      (∀ h v, j.arg0 < 4 → h = u.slotHeader j.arg0 →
        u.nvRead (imageSlot j.arg0).1 (min (h.len + 256) (imageSlot j.arg0).2) = (none, v) →
        Sys2Proof.Machine.exec (.imageVerify tag) s = .next (v.endJob j.tag 8 0 0)) ∧
      (∀ v, 4 ≤ j.arg0 → u.devRead j.src 256 = (none, v) →
        Sys2Proof.Machine.exec (.imageVerify tag) s = .next (v.endJob j.tag 9 0 0)) ∧
      (∀ hd h v, 4 ≤ j.arg0 → u.devRead j.src 256 = (.some hd, v) → h = headerOf hd →
        (imageRoom j.src < 256 + h.len → Sys2Proof.Machine.exec (.imageVerify tag) s =
          .next (v.verdict j.tag h.len (v.imageErr h [1, 2] (imageRoom j.src) (fun _ => [])))) ∧
        (∀ p w, 256 + h.len ≤ imageRoom j.src → v.devRead (j.src + 256) h.len = (.some p, w) →
          Sys2Proof.Machine.exec (.imageVerify tag) s =
            .next (w.verdict j.tag h.len (w.imageErr h [1, 2] (imageRoom j.src) (fun _ => p)))))) ∧
    (j.op = 9 → ∀ r v, u.nvRead (0x1A0000 + 64 * j.arg0) (64 * j.len) = (r, v) →
      (r = none → Sys2Proof.Machine.exec (.logExport tag) s = .next (v.endJob j.tag 8 0 0)) ∧
      (∀ bs, r = .some bs → v.granted 12 = true →
        Sys2Proof.Machine.exec (.logExport tag) s = .next ((v.devWrite j.dst bs).endJob j.tag 0 0 j.len)) ∧
      (∀ bs, r = .some bs → v.granted 12 = false → Sys2Proof.Machine.exec (.logExport tag) s = .next (v.endJob j.tag 6 0 0)))

/-- R599, R603, R604, R608-R626: the fault store, injection, administration, and the watchdogs. -/
def Obligations.FaultsAdminAndWatchdogs : Prop :=
  (∀ (req : Req) (s t : State), CanWrite s req R.FLT_NV_CFG → t = s.setReg R.FLT_NV_CFG (s.reg R.FLT_NV_CFG) →
    (t.granted 3 = false → Sys2Proof.Machine.exec (.clear req) s = .next t) ∧
    (t.granted 3 = true → Sys2Proof.Machine.exec (.clear req) s = .next
      ((State.setFld { t with
          nv := tabKeep (fun k => k < 0x1A0000 ∨ 0x1B0000 ≤ k) t.nv
          nvEcc := tabKeep (fun k => 4 * k < 0x1A0000 ∨ 0x1B0000 ≤ 4 * k) t.nvEcc
          fst := { t.fst with seq := 0 } }
        R.FLT_NV_STAT_BUSY 1).setFld R.FLT_NV_STAT_NEXT 0))) ∧
  (∀ s : State, Sys2Proof.Machine.exec .faultStoreClearDone s = .next (s.setFld R.FLT_NV_STAT_BUSY 0)) ∧
  (∀ (req : Req) (st : Fin 32) (mode : BitVec 2) (dbl : Bool) (s : State), CanWrite s req (R.FLT_INJ st.val) →
    Sys2Proof.Machine.exec (.injectionArm req st mode dbl) s = .next (s.setReg (R.FLT_INJ st.val)
      ((s.reg (R.FLT_INJ st.val) &&& ~~~ 7) ||| BitVec.ofNat 32 (mode.toNat + b2n dbl * 4)))) ∧
  (∀ s : State, s.granted 1 = true → Sys2Proof.Machine.exec .rsLockstep s = .next (s.fault 3 0).stopRootstock) ∧
  (∀ (req : Req) (u : Fin 152) (v : Word) (s t x : State), CanWrite s req (R.ADM u.val) →
    t = s.setReg (R.ADM u.val) ((s.reg (R.ADM u.val) &&& ~~~ 0xFFFF0001) ||| (v &&& 0xFFFF0001)) →
    x = (t.setFld (R.OPS_ADOPTED u.val) 0).setFld (R.OPS_FENCED u.val) 0 →
    ((s.reg (R.ADM u.val)).toNat / 2 ^ 16 = t.fld (R.ADM_EPOCH u.val) → Sys2Proof.Machine.exec (.admWrite req u v) s = .next
      ((t.setReg (R.ADM u.val) (s.reg (R.ADM u.val))).fault 3 5)) ∧
    ((s.reg (R.ADM u.val)).toNat / 2 ^ 16 ≠ t.fld (R.ADM_EPOCH u.val) →
      (u.val < 132 ∨ 148 ≤ u.val → Sys2Proof.Machine.exec (.admWrite req u v) s = .next x) ∧
      (∀ l, 132 ≤ u.val → u.val < 148 → x.servedBy (u.val - 132) = .some l → x.switching l = true →
        Sys2Proof.Machine.exec (.admWrite req u v) s = .next x) ∧
      (132 ≤ u.val → u.val < 148 → (∀ l, x.servedBy (u.val - 132) = .some l → x.switching l = false) →
        Sys2Proof.Machine.exec (.admWrite req u v) s = .next (x.unfencePhase (u.val - 132))))) ∧
  (∀ (u : Fin 152) (s t : State), s.flag (R.OPS_ADOPTED u.val) = false → s.granted (unitDomain u.val) = true →
    t = State.setFld { s with admOff := tabSet false u.val (!s.flag (R.ADM_ADMIN u.val)) s.admOff } (R.OPS_ADOPTED u.val) 1 →
    Sys2Proof.Machine.exec (.adminAdopt u) s = .next (if 148 ≤ u.val then t.stopOutOfService (u.val - 148)
      else if 132 ≤ u.val then t.servicePhase (u.val - 132) else t) ∧
    Sys2Proof.Machine.exec (.admGraceTimeout u) s = .next (s.fence u.val 0)) ∧
  (∀ (req : Req) (v : Word) (s t u : State) (ok : Bool), s.reqLive req = true → reaches req R.WDT_KEY = true →
    s.granted (domainOf R.WDT_KEY) = true → ok = (s.level req == .warden) →
    t = (if ok then s else s.refuse .priv req (0xF000000000 + R.WDT_KEY) true 0) →
    u = (if t.flag R.WDT_CTL_EN then { t with slow := { t.slow with wdtKeys := t.slow.wdtKeys ++ [(ok, v)] } } else t) →
    Sys2Proof.Machine.exec (.wdtKeyFirst req v) s = .next u ∧ Sys2Proof.Machine.exec (.wdtKeySecond req v) s = .next u) ∧
  (∀ (v : Word) (s : State) (c : Nat), s.wdtJudge c false v = s.wdtBad ∧
    (v ≠ 0x5A3C → v ≠ 0xA5C3 → s.wdtJudge c true v = s.wdtBad) ∧
    (s.slow.wdtArmed = none → s.wdtOpen (msOf c) = true →
      s.wdtJudge c true 0x5A3C = { s with slow := { s.slow with wdtArmed := .some c } }) ∧
    (s.slow.wdtArmed.isSome = true ∨ s.wdtOpen (msOf c) = false → s.wdtJudge c true 0x5A3C = s.wdtBad) ∧
    (s.slow.wdtArmed = none → s.wdtJudge c true 0xA5C3 = s.wdtBad) ∧
    (∀ a, s.slow.wdtArmed = .some a →
      (32768 < (c - a) * 1000 → s.wdtJudge c true 0xA5C3 = s.wdtBad) ∧
      ((c - a) * 1000 ≤ 32768 → msOf c < s.wdtPeriod →
        s.wdtJudge c true 0xA5C3 = { s with slow := { s.slow with wdtCycles := 0, wdtArmed := none } }) ∧
      ((c - a) * 1000 ≤ 32768 → s.wdtPeriod ≤ msOf c →
        s.wdtJudge c true 0xA5C3 = { s with slow := { s.slow with wdtArmed := none } }))) ∧
  (∀ s t : State, s.flag R.WDT_CTL_EN = true → s.wdtFrozen = false → s.wdtPeriod ≤ s.wdtCount →
    t = ((s.fault 2 0).satAdd R.WDT_EXP_COUNT 1 65535).wdtRestart →
    Sys2Proof.Machine.exec .wdtExpiry s = .next { t with pins := { t.pins with wdTrip := true } }) ∧
  (∀ s t : State, s.pins.wdTrip = true → t = { s with pins := { s.pins with wdTrip := false } } →
    (t.flag R.WDT_CTL_HOLD = true → Sys2Proof.Machine.exec .wdTripRelease s = .next t) ∧
    (t.flag R.WDT_CTL_HOLD = false → Sys2Proof.Machine.exec .wdTripRelease s =
      .next ((t.setFld R.WDT_EXP_LAST_WAS_WDT 1).warmReset).warmRestart)) ∧
  (∀ (req : Req) (r : Fin 8) (v : Word) (s : State), s.reqLive req = true → reaches req (R.ROW_WDT_KEY r.val) = true →
    s.granted (domainOf (R.ROW_WDT_KEY r.val)) = true →
    (s.mayServe req r.val = true → v = 0xA5C3 → Sys2Proof.Machine.exec (.rowWdtService req r v) s = .next
      { s with slow := { s.slow with rowWdtCycles := tabDel r.val s.slow.rowWdtCycles } }) ∧
    (s.mayServe req r.val = true → v ≠ 0xA5C3 → Sys2Proof.Machine.exec (.rowWdtService req r v) s = .next s) ∧
    (s.mayServe req r.val = false → Sys2Proof.Machine.exec (.rowWdtService req r v) s =
      .next (s.refuse .priv req (0xF000000000 + R.ROW_WDT_KEY r.val) true 0))) ∧
  (∀ (r : Fin 8) (s : State), s.granted 12 = true → s.flag (R.ROW_WDT_CTL_EN r.val) = true →
    max 1 (s.fld (R.ROW_WDT_CTL_PERIOD r.val)) ≤ s.rowWdtCount r.val →
    Sys2Proof.Machine.exec (.rowWdtExpiry r) s = .next
      ((((s.rowWdtRestart r.val).satAdd (R.ROW_WDT_STAT_EXP r.val) 1 255).fault (24 + r.val) 31).rowReset r.val 2))

/-- R628-R633, R638-R642, R645-R651: the graft link's frames, the copy of an epoch, role changes and the takeover. -/
def Obligations.GraftCommands : Prop :=
  (∀ (s : State), s.graftUp = true →
    (s.currentBank = none → Sys2Proof.Machine.exec .graftHelloSend s = .next
      (s.graftSend 1 0 0 (beBytes 4 0 ++ [BitVec.ofNat 8 (s.fld R.GRAFT_SHADOW_BANK_MIB), 0, 0, 0]))) ∧
    (∀ b, s.currentBank = .some b → Sys2Proof.Machine.exec .graftHelloSend s = .next
      (s.graftSend 1 0 0 (beBytes 4 b.2 ++ [BitVec.ofNat 8 (s.fld R.GRAFT_SHADOW_BANK_MIB), 0, 0, 0])))) ∧
  (∀ (data : Bytes) (s : State) (f e o : Nat) (p : Bytes), s.graftUp = true →
    (graftFrame 1 data = .some (f, e, o, p) → ∀ t u, t = s.updGraft (fun g =>
        { g with pSeen := true, pActive := f % 2 == 1, pEpoch := beNat (p.take 4), pBank := (p.getD 4 0).toNat }) →
      u = (if t.graftState < 2 then t.graftTo 2 else t).setReady 60 →
      (u.isActive = true → f % 2 = 1 → Sys2Proof.Machine.exec (.graftHello data) s = .next (u.syncFailed.fault 78 3)) ∧
      (u.isActive = false ∨ f % 2 = 0 → Sys2Proof.Machine.exec (.graftHello data) s = .next u)) ∧
    (graftFrame 2 data = .some (f, e, o, p) → s.graftState ≠ 5 →
      (s.isActive = true → Sys2Proof.Machine.exec (.beginFrame data) s = .next (s.graftSend 6 e 0 (beBytes 4 4))) ∧
      (∀ t total, s.isActive = false → t = s.rxDiscard → total = beNat (p.take 4) →
        (t.bankSize < total + 64 ∨ t.granted 12 = false →
          Sys2Proof.Machine.exec (.beginFrame data) s = .next (t.graftSend 6 e 0 (beBytes 4 3))) ∧
        (∀ k u, total + 64 ≤ t.bankSize → t.granted 12 = true →
          (t.currentBank = none ∧ k = 0 ∨ ∃ b, t.currentBank = .some b ∧ k = 1 - b.1) →
          u = t.devWrite (t.bankAt k + t.bankSize - 64) (List.replicate 64 0) →
          ∀ x : GraftRx, x = { epoch := e, total := total, nsec := beNat (slice 4 4 p), bank := k, got := [], start := u.dtbNow } →
          Sys2Proof.Machine.exec (.beginFrame data) s = .next ((u.updGraft (fun g => { g with rx := .some x })).graftTo 4)))) ∧
    (∀ x, s.graft.rx = .some x →
      (graftFrame 3 data = .some (f, e, o, p) → x.epoch = e → Sys2Proof.Machine.exec (.dataFrame data) s = .next
        ((if o + p.length ≤ x.total then s.devWrite (s.bankAt x.bank + o) p else s).updGraft
          (fun g => { g with rx := .some { x with got := x.got ++ [(o, p.length)] } }))) ∧
      (graftFrame 4 data = .some (f, e, o, p) → x.epoch = e → ∀ t icrc, t = s.rxDiscard → icrc = beNat (p.take 4) →
        (coversOnce x.total x.got = true → crc32Ieee (s.peekBytes (s.bankAt x.bank) x.total) = icrc → t.granted 12 = true →
          Sys2Proof.Machine.exec (.endFrame data) s = .next
            ((t.devWrite (t.bankAt x.bank + t.bankSize - 64) (commitBytes x icrc)).graftSend 5 e 0 (beBytes 4 e))) ∧
        (coversOnce x.total x.got = true → crc32Ieee (s.peekBytes (s.bankAt x.bank) x.total) ≠ icrc →
          Sys2Proof.Machine.exec (.endFrame data) s = .next ((t.graftSend 6 e 0 (beBytes 4 1)).fault 78 1)) ∧
        (coversOnce x.total x.got = false →
          Sys2Proof.Machine.exec (.endFrame data) s = .next ((t.graftSend 6 e 0 (beBytes 4 2)).fault 78 1))) ∧
      (graftFrame 7 data = .some (f, e, o, p) → Sys2Proof.Machine.exec (.abortFrame data) s = .next s.rxDiscard)) ∧
    (s.graft.txTag.isSome = true →
      (graftFrame 5 data = .some (f, e, o, p) → beNat (p.take 4) = s.graft.txEpoch →
        ∀ t, t = (s.endJobOf 4 0 s.graft.txEpoch).updGraft (fun g => { g with txTag := none, pEpoch := g.txEpoch }) →
        Sys2Proof.Machine.exec (.ackFrame data) s = .next (if t.graftState = 3 then t.graftTo 2 else t)) ∧
      (graftFrame 6 data = .some (f, e, o, p) → Sys2Proof.Machine.exec (.nakFrame data) s = .next s.syncFailed))) ∧
  (∀ s : State, s.granted 15 = true → Sys2Proof.Machine.exec .graftLinkLost s = .next s.graftLost) ∧
  (∀ s : State, s.graft.txTag.isSome = true → Sys2Proof.Machine.exec .graftAckTimeout s = .next s.syncFailed) ∧
  (∀ s : State, s.graft.rx.isSome = true → Sys2Proof.Machine.exec .graftEpochTimeout s = .next s.rxDiscard) ∧
  (∀ (req : Req) (s t : State), CanWrite s req R.GRAFT_CTL → t = s.setReg R.GRAFT_CTL (s.reg R.GRAFT_CTL) →
    (t.isActive = true → Sys2Proof.Machine.exec (.demote req) s = .next (t.setFld R.GRAFT_STATUS_ROLE 0)) ∧
    (t.isActive = false → Sys2Proof.Machine.exec (.demote req) s = .next t)) ∧
  (∀ s : State, s.granted 15 = true → s.graftState ≠ 5 →
    (s.isActive = true → Sys2Proof.Machine.exec .partnerTrip s = .next (s.fault 78 2)) ∧
    (s.isActive = false → s.flag R.GRAFT_CTL_TAKE_EN = false → Sys2Proof.Machine.exec .partnerTrip s = .next s) ∧
    (s.isActive = false → s.flag R.GRAFT_CTL_TAKE_EN = true →
      Sys2Proof.Machine.exec .partnerTrip s = .next (((s.rxDiscard).updGraft (fun g => { g with tripAt := s.rxDiscard.clk })).graftTo 5))) ∧
  (∀ s t u v : State, s.graftState = 5 → t = (s.setReg R.GRAFT_TAKE 0).setReg R.GRAFT_TAKE_SKIP 0 →
    (t.currentBank = none ∧ u = ((t.setFld R.BAT_STATUS_PROVISIONAL 1).setFld R.GRAFT_TAKE_NO_EPOCH 1).fault 78 4 ∨
      ∃ b, t.currentBank = .some b ∧ u = t.takeBank b.1) →
    v = ((u.setFld R.GRAFT_STATUS_ROLE 1).graftTo 2).setFld R.GRAFT_TAKE_DONE 1 →
    Sys2Proof.Machine.exec .takeover s = .next (let x := v.setReg R.GRAFT_TAKE_T (BitVec.ofNat 32 (50 + (v.clk - v.graft.tripAt) / 1000))
      x.event (x.reg R.GRAFT_ROUTE)))

/-- A step with a command at the front of the queue is that command's effect on the state with the queue's rest. -/
def Obligations.StepRunsFrontCommand : Prop :=
  ∀ (c : Instr) (rest : List Instr) (s : State), s.pending = c :: rest →
    Sys2Proof.Machine.step s = Sys2Proof.Machine.exec c { s with pending := rest }

/-- R510, R535, with logs 3, 65 and 77: a step on an empty queue is one nanosecond. The main clock counts it, the queue stays empty, nothing
sent is taken back, the device time base moves by its rate while PD12 is granted, and a queued response packet leaves on EP1 IN. -/
def Obligations.IdleStepCountsTime : Prop :=
  ∀ (s t : State), s.pending = [] → Sys2Proof.Machine.step s = .next t →
    t = s.dtbTick.clkUp.slowClock.lockTick.ep1In ∧ t.pending = [] ∧ t.clk = s.clk + 1 ∧ LogGrows s t ∧
    (s.granted 12 = false → s.dtbTick = s) ∧
    (∀ p more, s.ep1Live = true → s.usb.resp = p :: more →
      s.ep1In = (s.updUsb (fun u => { u with resp := more })).send (.usbData 1 p)) ∧
    (s.ep1Live = false ∨ s.usb.resp = [] → s.ep1In = s) ∧
    (∀ (rate acc : Int), s.granted 12 = true → s.dtb.slewLeft = 0 → rate = max (-(2 ^ 22)) (min (2 ^ 22) (s.reg R.DTB_RATE).toInt) →
      acc = s.dtb.frac + rate →
      s.dtbTick.dtbNow = (s.dtbNow + (if (2 : Int) ^ 32 ≤ acc then 2 else if acc < 0 then 0 else 1)) % 2 ^ 64 ∧
      s.dtbTick.dtb.frac = (acc % 2 ^ 32).toNat)

/-- Every step keeps the canonical form of every memory and of the register window. -/
def Obligations.StepKeepsCanonicalForm : Prop :=
  ∀ s t : State, s.wf = true → Sys2Proof.Machine.step s = .next t → t.wf = true

/-- What reset leaves: no command waits, nothing has been sent, every register at its cold value, the canonical form holds, the device
is in taproot power-on reset, no domain but PD0 is granted, no readiness bit is 1, and no thread runs. -/
def Obligations.ResetState : Prop :=
  State.reset.pending = [] ∧ State.reset.out = [] ∧ State.reset.wf = true ∧ State.reset.tap.mode = .powerOnReset ∧
  (∀ off : Nat, State.reset.reg off = coldWord off) ∧ (∀ d : Fin 16, State.reset.granted d.val = (d == 0)) ∧
  (∀ n : Fin 64, State.reset.ready n.val = false) ∧ State.reset.safe = false ∧
  (∀ k : Nat, (State.reset.thr k).state = (if k < 512 then .unassigned else .idle))

/-- No command touches the queue or the clock, no command takes back what was sent or the count of the free values used. -/
def Obligations.CommandsKeepQueueAndClock : Prop :=
  ∀ (c : Instr) (s t : State), Sys2Proof.Machine.exec c s = .next t →
    t.pending = s.pending ∧ t.clk = s.clk ∧ LogGrows s t ∧ s.freeCtr ≤ t.freeCtr

/-- A fuse once blown stays blown: no step unrevokes a key or lowers the minimum version. -/
def Obligations.FusesOnlyGrow : Prop :=
  ∀ s t : State, Sys2Proof.Machine.step s = .next t → FusesGrow s t

/-- The decoder reads back every well-formed instruction from the word that the encoder gives it, with every operand. -/
def Obligations.EncodedWordsDecode : Prop :=
  ∀ (i : Instr) (w : Word), i.wf = true → encodeWord i = .some w → ∃ (op : Op) (t : Thr), decodeWord w = .some op ∧ op t = i

/-- R191, R215: an event post to a thread that is IDLE, DONE or UNASSIGNED changes nothing; to any other thread it sets the input's
bit and nothing else, and a bit that is already 1 stays 1 without a count. -/
def Obligations.EventPosts : Prop :=
  ∀ (s : State) (k i : Nat), i < 8 →
    ((s.thr k).state = .idle ∨ (s.thr k).state = .done ∨ (s.thr k).state = .unassigned → s.post k i = s) ∧
    ((s.thr k).state = .run ∨ (s.thr k).state = .wait ∨ (s.thr k).state = .halted →
      OnlyThread s (s.post k i) k ∧ { (s.post k i).thr k with tevt := (s.thr k).tevt } = s.thr k ∧
      (∀ j, j < 32 → ((s.post k i).thr k).tevt.getLsbD j = (decide (j = i) || (s.thr k).tevt.getLsbD j)) ∧
      ((s.thr k).tevt.getLsbD i = true → ((s.post k i).thr k) = s.thr k))

/-- R38, R39: every refused access is counted, up to 65,535; the first is recorded while no status bit is 1, and a later one sets OVF and
leaves the record unchanged; every one sets the status bit of its kind. -/
def Obligations.RefusedAccesses : Prop :=
  ∀ (s t : State) (k : RefKind) (req : Req) (addr : Nat) (write : Bool) (bar : Nat), t = s.refuse k req addr write bar →
    t.fld R.IDR_ACC_CNT_COUNT = min 65535 (s.fld R.IDR_ACC_CNT_COUNT + 1) ∧
    bitOf (t.reg R.IDR_ACC_STATUS) k.bit = true ∧
    ((s.reg R.IDR_ACC_STATUS).toNat % 16 = 0 →
      t.reg R.IDR_ACC_ADDR = BitVec.ofNat 32 addr ∧
      t.reg R.IDR_ACC_SRC = BitVec.ofNat 32 (addr / 2 ^ 32 % 256 + reqCode req * 2 ^ 8 + (if write then 2 ^ 18 else 0) + bar % 4 * 2 ^ 19)) ∧
    ((s.reg R.IDR_ACC_STATUS).toNat % 16 ≠ 0 →
      t.flag R.IDR_ACC_STATUS_OVF = true ∧ t.reg R.IDR_ACC_ADDR = s.reg R.IDR_ACC_ADDR ∧ t.reg R.IDR_ACC_SRC = s.reg R.IDR_ACC_SRC)

/-- What a store writes is what its bytes then read as, and every other byte of memory reads as before. -/
def Obligations.MemoryReadsBack : Prop :=
  ∀ (s : State) (addr : Nat) (bs : Bytes), s.wf = true →
    (s.poke addr bs).wf = true ∧ (s.poke addr bs).peekBytes addr bs.length = bs ∧
    (∀ a, a < addr ∨ addr + bs.length ≤ a → (s.poke addr bs).byteAt a = s.byteAt a)
end

