-- ==== Sys2Proof/Laws/Closed.lean ====
section
/-! SUPPORT. What commands can do to the parts of the state that global rules speak of: the queue, the clock, the log, the
registers, the memories, the fuses. A property that the updates of `Closed` keep is kept by every command but for the queue. -/

namespace Sys2Proof.Machine

/-- The parts of the state that only the named updates of `Closed` change. -/
def State.heart (s : State) : List Instr × Nat × Nat × List Out × Tab Word × List Host.Cell × List Host.Cell × List Host.Cell × Tab Nat
    × Tab Word × Nat × Fuses :=
  (s.pending, s.freeCtr, s.clk, s.out, s.regs, s.mem, s.rsMem, s.nv, s.fill, s.rram, s.batKeep.fill, s.fuses)

/-- A property of states that every update of the parts named by `heart` keeps, and that depends on nothing else. -/
structure Closed (P : State → Prop) : Prop where
  same : ∀ {s t : State}, t.heart = s.heart → P s → P t
  setReg : ∀ {s : State} (off : Nat) (v : Word), P s → P (s.setReg off v)
  coldBits : ∀ {s : State} (m : Nat → Word), P s → P (s.coldBits m)
  pokeByte : ∀ {s : State} (addr : Nat) (b : Byte), P s → P (s.pokeByte addr b)
  dropMem : ∀ {s : State} (lo hi : Nat), P s → P (s.dropMem lo hi)
  wipe : ∀ {s t : State} (b lo hi : Nat), lo = 0x100000000 + b * 0x1000000 → hi = lo + 0x1000000 →
    t.heart = (s.pending, s.freeCtr, s.clk, s.out, s.regs, (s.dropMem lo hi).mem, s.rsMem, s.nv, tabDel b s.fill, s.rram,
      s.batKeep.fill, s.fuses) → P s → P t
  refill : ∀ {s t : State} (b lo hi n : Nat), lo = 0x100000000 + b * 0x1000000 → hi = lo + 0x1000000 →
    t.heart = (s.pending, s.freeCtr, s.clk, s.out, s.regs, (s.dropMem lo hi).mem, s.rsMem, s.nv, tabSet 0 b (n + 1) s.fill, s.rram,
      s.batKeep.fill, s.fuses) → P s → P t
  rsPut : ∀ {s : State} (off : Nat) (b : Byte), P s → P { s with rsMem := tabSet 0 off b s.rsMem }
  rsClear : ∀ {s : State}, P s → P { s with rsMem := [] }
  nvPut : ∀ {s : State} (off : Nat) (b : Byte), P s → P { s with nv := tabSet 0xFF off b s.nv }
  nvKeep : ∀ {s : State} (p : Nat → Bool), P s → P { s with nv := tabKeep p s.nv }
  rramPut : ∀ {s : State} (w : Nat) (v : Word), P s →
    P { s with rram := tabSet (rramDflt s.batKeep.fill w) w v s.rram }
  rramRefill : ∀ {s : State} (n : Nat), P s →
    P { s with rram := tabKeep (fun w => !(decide (8 ≤ w) && decide (w < 256))) s.rram, batKeep := { s.batKeep with fill := n } }
  tookFree : ∀ {s : State}, P s → P s.tookFree
  send : ∀ {s : State} (o : Out), P s → P (s.send o)
  fuse : ∀ {s : State} (r : BitVec 4) (v : BitVec 6), s.fuses.revoked &&& r = s.fuses.revoked →
    (v = s.fuses.minVer ∨ s.fuses.minVer.toNat < v.toNat) → P s → P { s with fuses := { s.fuses with revoked := r, minVer := v } }
  cold : ∀ {s t : State}, t.pending = s.pending → t.freeCtr = s.freeCtr → t.clk = s.clk → t.out = s.out → t.nv = s.nv →
    t.fuses = s.fuses → t.regs = [] → t.mem = [] → t.rsMem = [] → t.fill = [] → t.rram = [] → t.batKeep.fill = 0 → P s → P t

section

variable {P : State → Prop}

/-- An update of fields that no global rule speaks of. -/
theorem Closed.mk_kept (h : Closed P) {s : State} {x_rdShadow : Tab (Nat × Word)} {x_wrShadow : Tab (Nat × Word)} {x_nvCounts : Tab Nat} {x_ecc : Tab Nat} {x_rsEcc : Tab Nat} {x_rramEcc : Tab Nat} {x_nvEcc : Tab Nat} {x_saEcc : Tab Nat} {x_threads : Tab Thread} {x_helpers : List HelperReq} {x_tap : Taproot} {x_slow : Slow} {x_admOff : Tab Bool} {x_boot : Boot} {x_loops : Tab LoopSt} {x_phases : Tab PhaseSt} {x_convs : Tab ConvSt} {x_cnv : CnvSt} {x_gov : Tab GovSt} {x_fanForced : Bool} {x_bat : BatSt} {x_batKeep : BatKeep} {x_pm : PmSt} {x_ctl : Tab (Option CtlSt)} {x_rows : Tab RowSt} {x_perst : Bool} {x_esp : EspSt} {x_ports : Tab PortSt} {x_saMaster : Tab SaEntry} {x_saCopies : Tab (Tab SaEntry)} {x_msecBusy : Option Nat} {x_dtb : DtbSt} {x_ring : RingSt} {x_usb : UsbSt} {x_jobs : JobsSt} {x_fst : FstSt} {x_pins : Pins} {x_graft : GraftSt}
    (hb : x_batKeep.fill = s.batKeep.fill) (hs : P s) : P (State.mk s.pending s.freeCtr s.clk s.out s.regs x_rdShadow x_wrShadow s.mem s.rsMem s.nv x_nvCounts s.fill s.rram x_ecc x_rsEcc x_rramEcc x_nvEcc x_saEcc x_threads x_helpers x_tap x_slow x_admOff s.fuses x_boot x_loops x_phases x_convs x_cnv x_gov x_fanForced x_bat x_batKeep x_pm x_ctl x_rows x_perst x_esp x_ports x_saMaster x_saCopies x_msecBusy x_dtb x_ring x_usb x_jobs x_fst x_pins x_graft) := by
  refine h.same ?_ hs
  simp only [State.heart, hb]

/-- The state of a pair that is known in parts. -/
theorem pair_snd_kept {α : Type} {p : α × State} {a : α} {t : State} (e : p = (a, t)) (hp : P p.2) : P t := by
  subst e; exact hp

theorem pair_fst_kept {α : Type} {p : State × α} {a : α} {t : State} (e : p = (t, a)) (hp : P p.1) : P t := by
  subst e; exact hp

theorem trip_kept {α β : Type} {p : α × β × State} {a : α} {b : β} {t : State} (e : p = (a, b, t)) (hp : P p.2.2) : P t := by
  subst e; exact hp

/-- A state that may be there has the property if it is. -/
structure OptKeeps (P : State → Prop) (o : Option State) : Prop where
  out : ∀ t, o = some t → P t

theorem optKeeps_none : OptKeeps P none := ⟨by intro t h; cases h⟩

theorem optKeeps_some {t : State} (h : P t) : OptKeeps P (some t) := ⟨by intro u hu; cases hu; exact h⟩

theorem optKeeps_map {α : Type} {o : Option α} {f : α → State} (h : ∀ a, P (f a)) : OptKeeps P (o.map f) := by
  cases o with
  | none => exact optKeeps_none
  | some a => exact optKeeps_some (h a)

theorem OptKeeps.getD {o : Option State} {s : State} (h : OptKeeps P o) (hs : P s) : P (o.getD s) := by
  cases o with
  | none => exact hs
  | some t => exact h.out t rfl

theorem optKeeps_ite {c : Prop} [Decidable c] {a b : Option State} (ha : OptKeeps P a) (hb : OptKeeps P b) :
    OptKeeps P (if c then a else b) := by
  split <;> assumption

theorem OptKeeps.kept {o : Option State} {t : State} (e : o = some t) (h : OptKeeps P o) : P t := h.out t e

theorem mk_fst_kept {α : Type} {t : State} {b : α} (h : P t) : P (t, b).1 := h

/-- Either branch. -/
theorem ite_kept {c : Prop} [Decidable c] {a b : State} (ha : P a) (hb : P b) : P (if c then a else b) := by
  split <;> assumption

theorem ite_snd_kept {α : Type} {c : Prop} [Decidable c] {a b : α × State} (ha : P a.2) (hb : P b.2) :
    P (if c then a else b).2 := by
  split <;> assumption

theorem ite_fst_kept {α : Type} {c : Prop} [Decidable c] {a b : State × α} (ha : P a.1) (hb : P b.1) :
    P (if c then a else b).1 := by
  split <;> assumption

/-- A loop keeps what its body keeps. -/
theorem foldl_kept {α : Type} {f : State → α → State} (hf : ∀ a x, P a → P (f a x)) :
    ∀ (l : List α) {s : State}, P s → P (l.foldl f s)
  | [], _, hs => hs
  | x :: l, _, hs => foldl_kept hf l (hf _ x hs)

/-- A loop over a pair whose second part is the state. -/
theorem foldl_snd_kept {α β : Type} {f : β × State → α → β × State} (hf : ∀ a x, P a.2 → P (f a x).2) :
    ∀ (l : List α) {a : β × State}, P a.2 → P (l.foldl f a).2
  | [], _, hs => hs
  | x :: l, _, hs => foldl_snd_kept hf l (hf _ x hs)

/-- A loop over a pair whose first part is the state. -/
theorem foldl_fst_kept {α β : Type} {f : State × β → α → State × β} (hf : ∀ a x, P a.1 → P (f a x).1) :
    ∀ (l : List α) {a : State × β}, P a.1 → P (l.foldl f a).1
  | [], _, hs => hs
  | x :: l, _, hs => foldl_fst_kept hf l (hf _ x hs)

end

/-- What a command's answer leaves, if it is a next state, has the property. -/
def Res.Keeps (P : State → Prop) : Res → Prop
  | .next t => P t
  | _ => True

theorem Res.keeps_next {P : State → Prop} {t : State} (h : P t) : Res.Keeps P (.next t) := h

end Sys2Proof.Machine
end

