-- ==== Sys2Proof/Laws/KeptOps.lean ====
section
/-! SUPPORT. The definitions of Machine/Ops.lean keep every property that `Closed` describes. -/

namespace Sys2Proof.Machine

theorem State.setFld_kept {P : State → Prop} (hC : Closed P) {s : State} (f : Fld) (v : Nat)  (hP : P s) :
    P (State.setFld s f v) := by
  unfold State.setFld
  repeat' first
    | with_reducible assumption
    | (intro _)
    | with_reducible apply hC.setReg
    | dsimp only
    | split
    | fail_if_no_progress (with_reducible refine hC.mk_kept rfl ?_)
    | rfl

theorem State.satAdd_kept {P : State → Prop} (hC : Closed P) {s : State} (f : Fld) (k : Nat) (top : Nat)  (hP : P s) :
    P (State.satAdd s f k top) := by
  unfold State.satAdd
  repeat' first
    | with_reducible assumption
    | (intro _)
    | with_reducible apply State.setFld_kept hC
    | dsimp only
    | split
    | fail_if_no_progress (with_reducible refine hC.mk_kept rfl ?_)
    | rfl

theorem State.when_kept {P : State → Prop} (hC : Closed P) {s : State} (c : Bool) (f : State → State)  (hf : ∀ y0, P y0 →  P (f y0)) (hP : P s) :
    P (State.when s c f) := by
  unfold State.when
  repeat' first
    | with_reducible assumption
    | (intro _)
    | with_reducible apply hf
    | with_reducible apply ite_kept
    | dsimp only
    | split
    | fail_if_no_progress (with_reducible refine hC.mk_kept rfl ?_)
    | rfl

theorem State.setPair_kept {P : State → Prop} (hC : Closed P) {s : State} (lo : Nat) (hi : Nat) (v : Nat)  (hP : P s) :
    P (State.setPair s lo hi v) := by
  unfold State.setPair
  repeat' first
    | with_reducible assumption
    | (intro _)
    | with_reducible apply hC.setReg
    | dsimp only
    | split
    | fail_if_no_progress (with_reducible refine hC.mk_kept rfl ?_)
    | rfl

theorem State.setBit_kept {P : State → Prop} (hC : Closed P) {s : State} (off : Nat) (n : Nat)  (hP : P s) :
    P (State.setBit s off n) := by
  unfold State.setBit
  repeat' first
    | with_reducible assumption
    | (intro _)
    | with_reducible apply hC.setReg
    | dsimp only
    | split
    | fail_if_no_progress (with_reducible refine hC.mk_kept rfl ?_)
    | rfl

theorem State.clrBit_kept {P : State → Prop} (hC : Closed P) {s : State} (off : Nat) (n : Nat)  (hP : P s) :
    P (State.clrBit s off n) := by
  unfold State.clrBit
  repeat' first
    | with_reducible assumption
    | (intro _)
    | with_reducible apply hC.setReg
    | dsimp only
    | split
    | fail_if_no_progress (with_reducible refine hC.mk_kept rfl ?_)
    | rfl

theorem State.setThr_kept {P : State → Prop} (hC : Closed P) {s : State} (k : Nat) (t : Thread)  (hP : P s) :
    P (State.setThr s k t) := by
  unfold State.setThr
  repeat' first
    | with_reducible assumption
    | (intro _)
    | dsimp only
    | split
    | fail_if_no_progress (with_reducible refine hC.mk_kept rfl ?_)
    | rfl

theorem State.updThr_kept {P : State → Prop} (hC : Closed P) {s : State} (k : Nat) (f : Thread → Thread)  (hP : P s) :
    P (State.updThr s k f) := by
  unfold State.updThr
  repeat' first
    | with_reducible assumption
    | (intro _)
    | with_reducible apply State.setThr_kept hC
    | dsimp only
    | split
    | fail_if_no_progress (with_reducible refine hC.mk_kept rfl ?_)
    | rfl

theorem State.post_kept {P : State → Prop} (hC : Closed P) {s : State} (k : Nat) (i : Nat)  (hP : P s) :
    P (State.post s k i) := by
  unfold State.post
  repeat' first
    | with_reducible assumption
    | (intro _)
    | with_reducible apply State.updThr_kept hC
    | with_reducible apply ite_kept
    | dsimp only
    | split
    | fail_if_no_progress (with_reducible refine hC.mk_kept rfl ?_)
    | rfl

theorem State.updRow_kept {P : State → Prop} (hC : Closed P) {s : State} (r : Nat) (f : RowSt → RowSt)  (hP : P s) :
    P (State.updRow s r f) := by
  unfold State.updRow
  repeat' first
    | with_reducible assumption
    | (intro _)
    | dsimp only
    | split
    | fail_if_no_progress (with_reducible refine hC.mk_kept rfl ?_)
    | rfl

theorem State.deliver_kept {P : State → Prop} (hC : Closed P) {s : State} (route : Word)  (hP : P s) :
    P (((State.deliver s route)).1) := by
  unfold State.deliver
  repeat' first
    | with_reducible assumption
    | (intro _)
    | with_reducible apply State.post_kept hC
    | with_reducible apply State.updRow_kept hC
    | with_reducible apply ite_kept
    | with_reducible apply ite_snd_kept
    | with_reducible apply ite_fst_kept
    | dsimp only
    | split
    | fail_if_no_progress (with_reducible refine hC.mk_kept rfl ?_)
    | rfl

theorem State.faultRecord_kept {P : State → Prop} (hC : Closed P) {s : State} (b : Nat) (bit : Nat) (cls : Nat) (n : Nat)  (hP : P s) :
    P (State.faultRecord s b bit cls n) := by
  unfold State.faultRecord
  repeat' first
    | with_reducible assumption
    | (intro _)
    | with_reducible apply hC.setReg
    | with_reducible apply State.satAdd_kept hC
    | with_reducible apply ite_kept
    | dsimp only
    | split
    | fail_if_no_progress (with_reducible refine hC.mk_kept rfl ?_)
    | rfl

theorem State.offerRecord_kept {P : State → Prop} (hC : Closed P) {s : State} (cls : Nat) (rec : Bytes)  (hP : P s) :
    P (((State.offerRecord s cls rec)).1) := by
  unfold State.offerRecord
  repeat' first
    | with_reducible assumption
    | (intro _)
    | with_reducible apply State.satAdd_kept hC
    | with_reducible apply ite_kept
    | with_reducible apply ite_snd_kept
    | with_reducible apply ite_fst_kept
    | dsimp only
    | split
    | fail_if_no_progress (with_reducible refine hC.mk_kept rfl ?_)
    | rfl

theorem State.enterSafe_kept {P : State → Prop} (hC : Closed P) {s : State} (b : Nat) (bit : Nat)  (hP : P s) :
    P (State.enterSafe s b bit) := by
  unfold State.enterSafe
  repeat' first
    | with_reducible assumption
    | (intro _)
    | with_reducible apply State.setFld_kept hC
    | with_reducible apply State.satAdd_kept hC
    | with_reducible apply ite_kept
    | dsimp only
    | split
    | fail_if_no_progress (with_reducible refine hC.mk_kept rfl ?_)
    | rfl

theorem State.pmAlert_kept {P : State → Prop} (hC : Closed P) {s : State} (i : Nat)  (hP : P s) :
    P (State.pmAlert s i) := by
  unfold State.pmAlert
  repeat' first
    | with_reducible assumption
    | (intro _)
    | with_reducible apply ite_kept
    | dsimp only
    | split
    | fail_if_no_progress (with_reducible refine hC.mk_kept rfl ?_)
    | rfl

theorem State.latchSums_kept {P : State → Prop} (hC : Closed P) {s : State} (x : Nat) (up : BitVec 16) (none : Bool)  (hP : P s) :
    P (State.latchSums s x up none) := by
  unfold State.latchSums
  repeat' first
    | with_reducible assumption
    | (intro _)
    | with_reducible apply State.pmAlert_kept hC
    | with_reducible apply foldl_kept
    | with_reducible apply foldl_snd_kept
    | with_reducible apply foldl_fst_kept
    | with_reducible apply ite_kept
    | with_reducible apply ite_snd_kept
    | with_reducible apply ite_fst_kept
    | dsimp only
    | split
    | fail_if_no_progress (with_reducible refine hC.mk_kept rfl ?_)
    | rfl

theorem State.pmRaise_kept {P : State → Prop} (hC : Closed P) {s : State} (f : PmSt → PmSt) (i : Nat)  (hP : P s) :
    P (State.pmRaise s f i) := by
  unfold State.pmRaise
  repeat' first
    | with_reducible assumption
    | (intro _)
    | with_reducible apply State.pmAlert_kept hC
    | with_reducible apply State.latchSums_kept hC
    | with_reducible apply foldl_kept
    | with_reducible apply foldl_snd_kept
    | with_reducible apply foldl_fst_kept
    | with_reducible apply ite_kept
    | dsimp only
    | split
    | fail_if_no_progress (with_reducible refine hC.mk_kept rfl ?_)
    | rfl

theorem State.latchVout_kept {P : State → Prop} (hC : Closed P) {s : State} (x : Nat) (bit : Nat) (i : Nat)  (hP : P s) :
    P (State.latchVout s x bit i) := by
  unfold State.latchVout
  repeat' first
    | with_reducible assumption
    | (intro _)
    | with_reducible apply State.pmRaise_kept hC
    | with_reducible apply State.pmAlert_kept hC
    | with_reducible apply ite_kept
    | dsimp only
    | split
    | fail_if_no_progress (with_reducible refine hC.mk_kept rfl ?_)
    | rfl

theorem State.latchIout_kept {P : State → Prop} (hC : Closed P) {s : State} (x : Nat) (bit : Nat) (i : Nat)  (hP : P s) :
    P (State.latchIout s x bit i) := by
  unfold State.latchIout
  repeat' first
    | with_reducible assumption
    | (intro _)
    | with_reducible apply State.pmRaise_kept hC
    | with_reducible apply State.pmAlert_kept hC
    | with_reducible apply ite_kept
    | dsimp only
    | split
    | fail_if_no_progress (with_reducible refine hC.mk_kept rfl ?_)
    | rfl

theorem State.latchTemp_kept {P : State → Prop} (hC : Closed P) {s : State} (x : Nat) (bit : Nat) (i : Nat)  (hP : P s) :
    P (State.latchTemp s x bit i) := by
  unfold State.latchTemp
  repeat' first
    | with_reducible assumption
    | (intro _)
    | with_reducible apply State.pmRaise_kept hC
    | with_reducible apply State.pmAlert_kept hC
    | with_reducible apply ite_kept
    | dsimp only
    | split
    | fail_if_no_progress (with_reducible refine hC.mk_kept rfl ?_)
    | rfl

theorem State.latchMfr_kept {P : State → Prop} (hC : Closed P) {s : State} (x : Nat) (bit : Nat) (i : Nat)  (hP : P s) :
    P (State.latchMfr s x bit i) := by
  unfold State.latchMfr
  repeat' first
    | with_reducible assumption
    | (intro _)
    | with_reducible apply State.pmRaise_kept hC
    | with_reducible apply State.pmAlert_kept hC
    | with_reducible apply ite_kept
    | dsimp only
    | split
    | fail_if_no_progress (with_reducible refine hC.mk_kept rfl ?_)
    | rfl

theorem State.latchCml_kept {P : State → Prop} (hC : Closed P) {s : State} (bit : Nat) (i : Nat)  (hP : P s) :
    P (State.latchCml s bit i) := by
  unfold State.latchCml
  repeat' first
    | with_reducible assumption
    | (intro _)
    | with_reducible apply State.pmRaise_kept hC
    | with_reducible apply State.pmAlert_kept hC
    | with_reducible apply ite_kept
    | dsimp only
    | split
    | fail_if_no_progress (with_reducible refine hC.mk_kept rfl ?_)
    | rfl

theorem State.latchBusy_kept {P : State → Prop} (hC : Closed P) {s : State}  (hP : P s) :
    P (State.latchBusy s) := by
  unfold State.latchBusy
  repeat' first
    | with_reducible assumption
    | (intro _)
    | with_reducible apply State.pmRaise_kept hC
    | with_reducible apply State.pmAlert_kept hC
    | with_reducible apply ite_kept
    | dsimp only
    | split
    | fail_if_no_progress (with_reducible refine hC.mk_kept rfl ?_)
    | rfl

theorem State.pmLatch_kept {P : State → Prop} (hC : Closed P) {s : State} (b : Nat) (bit : Nat)  (hP : P s) :
    P (State.pmLatch s b bit) := by
  unfold State.pmLatch
  repeat' first
    | with_reducible assumption
    | (intro _)
    | with_reducible apply State.latchVout_kept hC
    | with_reducible apply State.latchIout_kept hC
    | with_reducible apply State.latchMfr_kept hC
    | with_reducible apply State.latchTemp_kept hC
    | with_reducible apply foldl_kept
    | with_reducible apply foldl_snd_kept
    | with_reducible apply foldl_fst_kept
    | with_reducible apply ite_kept
    | dsimp only
    | split
    | fail_if_no_progress (with_reducible refine hC.mk_kept rfl ?_)
    | rfl

theorem State.raiseFuel_kept {P : State → Prop} (hC : Closed P)  (e0 : Nat) (e1 : State) (e2 : Nat) (e3 : List Nat) (e4 : Bytes) (hP : P e1) :
    P (State.raiseFuel e0 e1 e2 e3 e4) := by
  induction e0 generalizing e1 e2 e3 e4 with
  | zero => exact hP
  | succ n ih =>
    cases e3 with
    | nil => exact hP
    | cons bit more =>
      unfold State.raiseFuel
      refine foldl_kept (fun a x ha => ?_) _ (foldl_kept (fun a x ha => ?_) _ (foldl_kept (fun a x ha => ?_) _
        (foldl_kept (fun a x ha => ?_) _ (State.faultRecord_kept hC _ _ _ _ (foldl_kept (fun a x ha => ?_) _ hP)))))
      · refine ite_kept (ih _ _ _ _ (State.deliver_kept hC _ ha)) (State.deliver_kept hC _ ha)
      · refine ite_kept (ih _ _ _ _ (State.offerRecord_kept hC _ _ ha)) (State.offerRecord_kept hC _ _ ha)
      · exact ite_kept (State.enterSafe_kept hC _ _ ha) ha
      · exact State.pmLatch_kept hC _ _ ha
      · exact State.setBit_kept hC _ _ ha

theorem State.raiseD_kept {P : State → Prop} (hC : Closed P) {s : State} (b : Nat) (bits : List Nat) (detail : Bytes)  (hP : P s) :
    P (State.raiseD s b bits detail) := by
  unfold State.raiseD
  repeat' first
    | with_reducible assumption
    | (intro _)
    | with_reducible apply State.raiseFuel_kept hC
    | dsimp only
    | split
    | fail_if_no_progress (with_reducible refine hC.mk_kept rfl ?_)
    | rfl

theorem State.fault_kept {P : State → Prop} (hC : Closed P) {s : State} (b : Nat) (bit : Nat)  (hP : P s) :
    P (State.fault s b bit) := by
  unfold State.fault
  repeat' first
    | with_reducible assumption
    | (intro _)
    | with_reducible apply State.raiseD_kept hC
    | dsimp only
    | split
    | fail_if_no_progress (with_reducible refine hC.mk_kept rfl ?_)
    | rfl

theorem State.event_kept {P : State → Prop} (hC : Closed P) {s : State} (route : Word)  (hP : P s) :
    P (State.event s route) := by
  unfold State.event
  repeat' first
    | with_reducible assumption
    | (intro _)
    | with_reducible apply State.deliver_kept hC
    | with_reducible apply State.fault_kept hC
    | with_reducible apply ite_kept
    | (with_reducible refine pair_snd_kept (by with_reducible assumption) ?_)
    | (with_reducible refine pair_fst_kept (by with_reducible assumption) ?_)
    | (with_reducible refine trip_kept (by with_reducible assumption) ?_)
    | dsimp only
    | split
    | fail_if_no_progress (with_reducible refine hC.mk_kept rfl ?_)
    | rfl

theorem State.setReady_kept {P : State → Prop} (hC : Closed P) {s : State} (n : Nat)  (hP : P s) :
    P (State.setReady s n) := by
  unfold State.setReady
  repeat' first
    | with_reducible assumption
    | (intro _)
    | with_reducible apply State.setBit_kept hC
    | with_reducible apply State.event_kept hC
    | with_reducible apply ite_kept
    | dsimp only
    | split
    | fail_if_no_progress (with_reducible refine hC.mk_kept rfl ?_)
    | rfl

theorem State.clrReady_kept {P : State → Prop} (hC : Closed P) {s : State} (n : Nat)  (hP : P s) :
    P (State.clrReady s n) := by
  unfold State.clrReady
  repeat' first
    | with_reducible assumption
    | (intro _)
    | with_reducible apply State.clrBit_kept hC
    | with_reducible apply ite_kept
    | dsimp only
    | split
    | fail_if_no_progress (with_reducible refine hC.mk_kept rfl ?_)
    | rfl

theorem State.refuse_kept {P : State → Prop} (hC : Closed P) {s : State} (k : RefKind) (req : Req) (addr : Nat) (write : Bool) (bar : Nat)  (hP : P s) :
    P (State.refuse s k req addr write bar) := by
  unfold State.refuse
  repeat' first
    | with_reducible assumption
    | (intro _)
    | with_reducible apply State.satAdd_kept hC
    | with_reducible apply State.setFld_kept hC
    | with_reducible apply hC.setReg
    | with_reducible apply State.setBit_kept hC
    | with_reducible apply State.faultRecord_kept hC
    | with_reducible apply State.offerRecord_kept hC
    | with_reducible apply State.fault_kept hC
    | with_reducible apply State.event_kept hC
    | with_reducible apply ite_kept
    | (with_reducible refine pair_snd_kept (by with_reducible assumption) ?_)
    | (with_reducible refine pair_fst_kept (by with_reducible assumption) ?_)
    | (with_reducible refine trip_kept (by with_reducible assumption) ?_)
    | dsimp only
    | split
    | fail_if_no_progress (with_reducible refine hC.mk_kept rfl ?_)
    | rfl

theorem State.memCe_kept {P : State → Prop} (hC : Closed P) {s : State} (e0 : Mem) (hP : P s) :
    P (State.memCe s e0) := by
  unfold State.memCe
  repeat' first
    | with_reducible assumption
    | (intro _)
    | with_reducible apply State.fault_kept hC
    | dsimp only
    | split
    | fail_if_no_progress (with_reducible refine hC.mk_kept rfl ?_)
    | rfl

theorem State.memUe_kept {P : State → Prop} (hC : Closed P) {s : State} (e0 : Mem) (hP : P s) :
    P (State.memUe s e0) := by
  unfold State.memUe
  repeat' first
    | with_reducible assumption
    | (intro _)
    | with_reducible apply State.fault_kept hC
    | dsimp only
    | split
    | fail_if_no_progress (with_reducible refine hC.mk_kept rfl ?_)
    | rfl

theorem State.inject_kept {P : State → Prop} (hC : Closed P) {s : State} (st : Nat)  (hP : P s) :
    P (((State.inject s st)).2) := by
  unfold State.inject
  repeat' first
    | with_reducible assumption
    | (intro _)
    | with_reducible apply State.setFld_kept hC
    | with_reducible apply ite_kept
    | with_reducible apply ite_snd_kept
    | with_reducible apply ite_fst_kept
    | dsimp only
    | split
    | fail_if_no_progress (with_reducible refine hC.mk_kept rfl ?_)
    | rfl

theorem State.rramPut_kept {P : State → Prop} (hC : Closed P) {s : State} (w : Nat) (v : Word) (n : Nat)  (hP : P s) :
    P (State.rramPut s w v n) := by
  unfold State.rramPut
  exact hC.same (s := { s with rram := tabSet (rramDflt s.batKeep.fill w) w v s.rram }) rfl (hC.rramPut w v hP)

theorem State.poke_kept {P : State → Prop} (hC : Closed P) {s : State} (addr : Nat) (e0 : Bytes) (hP : P s) :
    P (State.poke s addr e0) := by
  revert hP
  fun_induction State.poke s addr e0
  all_goals
    intro hP
    repeat' first
      | with_reducible assumption
      | (intro _)
      | with_reducible apply hC.pokeByte
      | (with_reducible apply_assumption)
      | dsimp only
      | split
      | fail_if_no_progress (with_reducible refine hC.mk_kept rfl ?_)
      | rfl

theorem State.rramMeet_kept {P : State → Prop} (hC : Closed P) {s : State} (i : Nat)  (hP : P s) :
    P (State.rramMeet s i) := by
  unfold State.rramMeet
  repeat' first
    | with_reducible assumption
    | (intro _)
    | with_reducible apply State.satAdd_kept hC
    | with_reducible apply State.fault_kept hC
    | with_reducible apply State.setFld_kept hC
    | with_reducible apply ite_kept
    | (with_reducible refine pair_snd_kept (by with_reducible assumption) ?_)
    | (with_reducible refine pair_fst_kept (by with_reducible assumption) ?_)
    | (with_reducible refine trip_kept (by with_reducible assumption) ?_)
    | dsimp only
    | split
    | fail_if_no_progress (with_reducible refine hC.mk_kept rfl ?_)
    | rfl

theorem State.rramStore_kept {P : State → Prop} (hC : Closed P) {s : State} (w : Nat) (v : Word)  (hP : P s) :
    P (State.rramStore s w v) := by
  unfold State.rramStore
  repeat' first
    | with_reducible assumption
    | (intro _)
    | with_reducible apply State.rramPut_kept hC
    | with_reducible apply State.setFld_kept hC
    | with_reducible apply ite_kept
    | dsimp only
    | split
    | fail_if_no_progress (with_reducible refine hC.mk_kept rfl ?_)
    | rfl

theorem State.setEcc_kept {P : State → Prop} (hC : Closed P) {s : State} (addr : Nat) (n : Nat)  (hP : P s) :
    P (State.setEcc s addr n) := by
  unfold State.setEcc
  repeat' first
    | with_reducible assumption
    | (intro _)
    | dsimp only
    | split
    | fail_if_no_progress (with_reducible refine hC.mk_kept rfl ?_)
    | rfl

theorem State.memRead_kept {P : State → Prop} (hC : Closed P) {s : State} (m : Mem) (addr : Nat) (n : Nat)  (hP : P s) :
    P (((State.memRead s m addr n)).2) := by
  unfold State.memRead
  repeat' first
    | with_reducible assumption
    | (intro _)
    | with_reducible apply State.memCe_kept hC
    | with_reducible apply State.memUe_kept hC
    | dsimp only
    | split
    | fail_if_no_progress (with_reducible refine hC.mk_kept rfl ?_)
    | rfl

theorem State.memWrite_kept {P : State → Prop} (hC : Closed P) {s : State} (m : Mem) (addr : Nat) (bs : Bytes)  (hP : P s) :
    P (((State.memWrite s m addr bs)).2) := by
  unfold State.memWrite
  repeat' first
    | with_reducible assumption
    | (intro _)
    | with_reducible apply State.inject_kept hC
    | with_reducible apply State.store_kept hC
    | with_reducible apply State.poke_kept hC
    | with_reducible apply State.setEcc_kept hC
    | with_reducible apply State.memCe_kept hC
    | with_reducible apply State.memUe_kept hC
    | with_reducible apply ite_kept
    | with_reducible apply ite_snd_kept
    | with_reducible apply ite_fst_kept
    | (with_reducible refine pair_snd_kept (by with_reducible assumption) ?_)
    | (with_reducible refine pair_fst_kept (by with_reducible assumption) ?_)
    | (with_reducible refine trip_kept (by with_reducible assumption) ?_)
    | dsimp only
    | split
    | fail_if_no_progress (with_reducible refine hC.mk_kept rfl ?_)
    | rfl

theorem State.memWriteAll_kept {P : State → Prop} (hC : Closed P) {s : State} (m : Mem) (e0 : Nat) (e1 : Nat) (e2 : Bytes) (hP : P s) :
    P (State.memWriteAll s m e0 e1 e2) := by
  revert hP
  fun_induction State.memWriteAll s m e0 e1 e2
  all_goals
    intro hP
    repeat' first
      | with_reducible assumption
      | (intro _)
      | with_reducible apply State.memWrite_kept hC
      | (with_reducible refine pair_snd_kept (by with_reducible assumption) ?_)
      | (with_reducible refine pair_fst_kept (by with_reducible assumption) ?_)
      | (with_reducible refine trip_kept (by with_reducible assumption) ?_)
      | (with_reducible apply_assumption)
      | dsimp only
      | split
      | fail_if_no_progress (with_reducible refine hC.mk_kept rfl ?_)
      | rfl

theorem State.memReadAll_kept {P : State → Prop} (hC : Closed P) {s : State} (m : Mem) (addr : Nat) (n : Nat)  (hP : P s) :
    P (((State.memReadAll s m addr n)).2) := by
  unfold State.memReadAll
  repeat' first
    | with_reducible assumption
    | (intro _)
    | with_reducible apply State.memRead_kept hC
    | with_reducible apply foldl_kept
    | with_reducible apply foldl_snd_kept
    | with_reducible apply foldl_fst_kept
    | with_reducible apply ite_kept
    | with_reducible apply ite_snd_kept
    | with_reducible apply ite_fst_kept
    | (with_reducible refine pair_snd_kept (by with_reducible assumption) ?_)
    | (with_reducible refine pair_fst_kept (by with_reducible assumption) ?_)
    | (with_reducible refine trip_kept (by with_reducible assumption) ?_)
    | dsimp only
    | split
    | fail_if_no_progress (with_reducible refine hC.mk_kept rfl ?_)
    | rfl

end Sys2Proof.Machine
end

