-- ==== Sys2Proof/Laws/KeptPower.lean ====
section
/-! SUPPORT. The definitions of Machine/Power.lean keep every property that `Closed` describes. -/

namespace Sys2Proof.Machine

theorem State.setDomState_kept {P : State → Prop} (hC : Closed P) {s : State} (d : Nat) (v : Nat)  (hP : P s) :
    P (State.setDomState s d v) := by
  unfold State.setDomState
  repeat' first
    | with_reducible assumption
    | (intro _)
    | with_reducible apply State.setFld_kept hC
    | dsimp only
    | split
    | fail_if_no_progress (with_reducible refine hC.mk_kept rfl ?_)
    | rfl

theorem State.setHwReq_kept {P : State → Prop} (hC : Closed P) {s : State} (d : Nat) (on : Bool)  (hP : P s) :
    P (State.setHwReq s d on) := by
  unfold State.setHwReq
  repeat' first
    | with_reducible assumption
    | (intro _)
    | dsimp only
    | split
    | fail_if_no_progress (with_reducible refine hC.mk_kept rfl ?_)
    | rfl

theorem State.setPll_kept {P : State → Prop} (hC : Closed P) {s : State} (p : Nat) (c : ClkState)  (hP : P s) :
    P (State.setPll s p c) := by
  unfold State.setPll
  repeat' first
    | with_reducible assumption
    | (intro _)
    | dsimp only
    | split
    | fail_if_no_progress (with_reducible refine hC.mk_kept rfl ?_)
    | rfl

theorem State.startClocks_kept {P : State → Prop} (hC : Closed P) {s : State} (p : Nat)  (hP : P s) :
    P (State.startClocks s p) := by
  unfold State.startClocks
  repeat' first
    | with_reducible assumption
    | (intro _)
    | with_reducible apply State.setPll_kept hC
    | with_reducible apply ite_kept
    | dsimp only
    | split
    | fail_if_no_progress (with_reducible refine hC.mk_kept rfl ?_)
    | rfl

theorem State.pllLocked_kept {P : State → Prop} (hC : Closed P) {s : State} (p : Nat)  (hP : P s) :
    P (State.pllLocked s p) := by
  unfold State.pllLocked
  repeat' first
    | with_reducible assumption
    | (intro _)
    | with_reducible apply State.setDomState_kept hC
    | with_reducible apply State.setPll_kept hC
    | with_reducible apply foldl_kept
    | with_reducible apply foldl_snd_kept
    | with_reducible apply foldl_fst_kept
    | with_reducible apply ite_kept
    | dsimp only
    | split
    | fail_if_no_progress (with_reducible refine hC.mk_kept rfl ?_)
    | rfl

theorem State.settlePlls_kept {P : State → Prop} (hC : Closed P) {s : State}  (hP : P s) :
    P (State.settlePlls s) := by
  unfold State.settlePlls
  repeat' first
    | with_reducible assumption
    | (intro _)
    | with_reducible apply State.setPll_kept hC
    | with_reducible apply foldl_kept
    | with_reducible apply foldl_snd_kept
    | with_reducible apply foldl_fst_kept
    | with_reducible apply ite_kept
    | dsimp only
    | split
    | fail_if_no_progress (with_reducible refine hC.mk_kept rfl ?_)
    | rfl

theorem State.requestDomain_kept {P : State → Prop} (hC : Closed P) {s : State} (d : Nat)  (hP : P s) :
    P (State.requestDomain s d) := by
  unfold State.requestDomain
  repeat' first
    | with_reducible assumption
    | (intro _)
    | with_reducible apply State.setFld_kept hC
    | with_reducible apply State.startClocks_kept hC
    | with_reducible apply State.setDomState_kept hC
    | with_reducible apply ite_kept
    | dsimp only
    | split
    | fail_if_no_progress (with_reducible refine hC.mk_kept rfl ?_)
    | rfl

theorem State.withdrawBough_kept {P : State → Prop} (hC : Closed P) {s : State} (b : Nat)  (hP : P s) :
    P (State.withdrawBough s b) := by
  unfold State.withdrawBough
  repeat' first
    | with_reducible assumption
    | (intro _)
    | dsimp only
    | split
    | fail_if_no_progress (with_reducible refine hC.mk_kept rfl ?_)
    | rfl

theorem State.endPending_kept {P : State → Prop} (hC : Closed P) {s : State} (d : Nat) (err : Nat)  (hP : P s) :
    P (State.endPending s d err) := by
  unfold State.endPending
  repeat' first
    | with_reducible assumption
    | (intro _)
    | with_reducible apply State.withdrawBough_kept hC
    | with_reducible apply State.setHwReq_kept hC
    | with_reducible apply State.setDomState_kept hC
    | with_reducible apply State.setFld_kept hC
    | with_reducible apply State.settlePlls_kept hC
    | with_reducible apply ite_kept
    | dsimp only
    | split
    | fail_if_no_progress (with_reducible refine hC.mk_kept rfl ?_)
    | rfl

theorem State.unready_kept {P : State → Prop} (hC : Closed P) {s : State} (d : Nat)  (hP : P s) :
    P (State.unready s d) := by
  unfold State.unready
  repeat' first
    | with_reducible assumption
    | (intro _)
    | with_reducible apply State.clrReady_kept hC
    | with_reducible apply foldl_kept
    | with_reducible apply foldl_snd_kept
    | with_reducible apply foldl_fst_kept
    | dsimp only
    | split
    | fail_if_no_progress (with_reducible refine hC.mk_kept rfl ?_)
    | rfl

theorem State.drain_kept {P : State → Prop} (hC : Closed P) {s : State} (d : Nat)  (hP : P s) :
    P (State.drain s d) := by
  unfold State.drain
  repeat' first
    | with_reducible assumption
    | (intro _)
    | with_reducible apply State.unready_kept hC
    | with_reducible apply State.setDomState_kept hC
    | dsimp only
    | split
    | fail_if_no_progress (with_reducible refine hC.mk_kept rfl ?_)
    | rfl

theorem State.judgeDomain_kept {P : State → Prop} (hC : Closed P) {s : State} (d : Nat)  (hP : P s) :
    P (State.judgeDomain s d) := by
  unfold State.judgeDomain
  repeat' first
    | with_reducible assumption
    | (intro _)
    | with_reducible apply State.requestDomain_kept hC
    | with_reducible apply State.drain_kept hC
    | with_reducible apply State.endPending_kept hC
    | with_reducible apply ite_kept
    | dsimp only
    | split
    | fail_if_no_progress (with_reducible refine hC.mk_kept rfl ?_)
    | rfl

theorem State.restart_kept {P : State → Prop} (hC : Closed P) {s : State}  (hP : P s) :
    P (State.restart s) := by
  unfold State.restart
  repeat' first
    | with_reducible assumption
    | (intro _)
    | with_reducible apply State.setHwReq_kept hC
    | with_reducible apply State.requestDomain_kept hC
    | with_reducible apply foldl_kept
    | with_reducible apply foldl_snd_kept
    | with_reducible apply foldl_fst_kept
    | with_reducible apply ite_kept
    | dsimp only
    | split
    | fail_if_no_progress (with_reducible refine hC.mk_kept rfl ?_)
    | rfl

theorem State.firstWake_kept {P : State → Prop} (hC : Closed P) {s : State} (i : Nat)  (hP : P s) :
    P (State.firstWake s i) := by
  unfold State.firstWake
  repeat' first
    | with_reducible assumption
    | (intro _)
    | with_reducible apply State.setFld_kept hC
    | with_reducible apply ite_kept
    | dsimp only
    | split
    | fail_if_no_progress (with_reducible refine hC.mk_kept rfl ?_)
    | rfl

theorem State.wakeSource_kept {P : State → Prop} (hC : Closed P) {s : State} (i : Nat)  (hP : P s) :
    P (State.wakeSource s i) := by
  unfold State.wakeSource
  repeat' first
    | with_reducible assumption
    | (intro _)
    | with_reducible apply State.firstWake_kept hC
    | with_reducible apply State.setBit_kept hC
    | with_reducible apply State.event_kept hC
    | with_reducible apply State.setFld_kept hC
    | with_reducible apply State.restart_kept hC
    | with_reducible apply ite_kept
    | (with_reducible refine pair_snd_kept (by with_reducible assumption) ?_)
    | (with_reducible refine pair_fst_kept (by with_reducible assumption) ?_)
    | (with_reducible refine trip_kept (by with_reducible assumption) ?_)
    | dsimp only
    | split
    | fail_if_no_progress (with_reducible refine hC.mk_kept rfl ?_)
    | rfl

theorem State.setWakeHeld_kept {P : State → Prop} (hC : Closed P) {s : State} (n : Nat) (b : Bool)  (hP : P s) :
    P (State.setWakeHeld s n b) := by
  unfold State.setWakeHeld
  repeat' first
    | with_reducible assumption
    | (intro _)
    | dsimp only
    | split
    | fail_if_no_progress (with_reducible refine hC.mk_kept rfl ?_)
    | rfl

end Sys2Proof.Machine
end

