-- ==== Sys2Proof/Laws/KeptLoops.lean ====
section
/-! SUPPORT. The definitions of Machine/Loops.lean keep every property that `Closed` describes. -/

namespace Sys2Proof.Machine

theorem State.updLoop_kept {P : State → Prop} (hC : Closed P) {s : State} (x : Nat) (f : LoopSt → LoopSt)  (hP : P s) :
    P (State.updLoop s x f) := by
  unfold State.updLoop
  repeat' first
    | with_reducible assumption
    | (intro _)
    | dsimp only
    | split
    | fail_if_no_progress (with_reducible refine hC.mk_kept rfl ?_)
    | rfl

theorem State.updPhase_kept {P : State → Prop} (hC : Closed P) {s : State} (n : Nat) (f : PhaseSt → PhaseSt)  (hP : P s) :
    P (State.updPhase s n f) := by
  unfold State.updPhase
  repeat' first
    | with_reducible assumption
    | (intro _)
    | dsimp only
    | split
    | fail_if_no_progress (with_reducible refine hC.mk_kept rfl ?_)
    | rfl

theorem State.setPh_kept {P : State → Prop} (hC : Closed P) {s : State} (n : Nat) (st : Nat) (pwm : Pwm)  (hP : P s) :
    P (State.setPh s n st pwm) := by
  unfold State.setPh
  repeat' first
    | with_reducible assumption
    | (intro _)
    | with_reducible apply State.setFld_kept hC
    | with_reducible apply State.updPhase_kept hC
    | with_reducible apply ite_kept
    | dsimp only
    | split
    | fail_if_no_progress (with_reducible refine hC.mk_kept rfl ?_)
    | rfl

theorem State.loopEvt_kept {P : State → Prop} (hC : Closed P) {s : State} (x : Nat) (f : Fld)  (hP : P s) :
    P (State.loopEvt s x f) := by
  unfold State.loopEvt
  repeat' first
    | with_reducible assumption
    | (intro _)
    | with_reducible apply State.setFld_kept hC
    | with_reducible apply State.event_kept hC
    | with_reducible apply ite_kept
    | dsimp only
    | split
    | fail_if_no_progress (with_reducible refine hC.mk_kept rfl ?_)
    | rfl

theorem State.updGov_kept {P : State → Prop} (hC : Closed P) {s : State} (x : Nat) (f : GovSt → GovSt)  (hP : P s) :
    P (State.updGov s x f) := by
  unfold State.updGov
  repeat' first
    | with_reducible assumption
    | (intro _)
    | dsimp only
    | split
    | fail_if_no_progress (with_reducible refine hC.mk_kept rfl ?_)
    | rfl

theorem State.govClose_kept {P : State → Prop} (hC : Closed P) {s : State} (x : Nat)  (hP : P s) :
    P (State.govClose s x) := by
  unfold State.govClose
  repeat' first
    | with_reducible assumption
    | (intro _)
    | with_reducible apply hC.setReg
    | with_reducible apply State.satAdd_kept hC
    | with_reducible apply State.setFld_kept hC
    | with_reducible apply State.updGov_kept hC
    | dsimp only
    | split
    | fail_if_no_progress (with_reducible refine hC.mk_kept rfl ?_)
    | rfl

theorem State.setLoopState_kept {P : State → Prop} (hC : Closed P) {s : State} (x : Nat) (st : Nat)  (hP : P s) :
    P (State.setLoopState s x st) := by
  unfold State.setLoopState
  repeat' first
    | with_reducible assumption
    | (intro _)
    | with_reducible apply State.setFld_kept hC
    | with_reducible apply State.setReady_kept hC
    | with_reducible apply State.clrReady_kept hC
    | with_reducible apply State.govClose_kept hC
    | with_reducible apply hC.setReg
    | with_reducible apply ite_kept
    | dsimp only
    | split
    | fail_if_no_progress (with_reducible refine hC.mk_kept rfl ?_)
    | rfl

theorem State.setPgood_kept {P : State → Prop} (hC : Closed P) {s : State} (x : Nat) (high : Bool)  (hP : P s) :
    P (State.setPgood s x high) := by
  unfold State.setPgood
  repeat' first
    | with_reducible assumption
    | (intro _)
    | with_reducible apply State.latchSums_kept hC
    | with_reducible apply State.updLoop_kept hC
    | with_reducible apply ite_kept
    | dsimp only
    | split
    | fail_if_no_progress (with_reducible refine hC.mk_kept rfl ?_)
    | rfl

theorem State.stopLoop_kept {P : State → Prop} (hC : Closed P) {s : State} (x : Nat) (final : Nat)  (hP : P s) :
    P (State.stopLoop s x final) := by
  unfold State.stopLoop
  repeat' first
    | with_reducible assumption
    | (intro _)
    | with_reducible apply State.clrReady_kept hC
    | with_reducible apply State.setPgood_kept hC
    | with_reducible apply State.setPh_kept hC
    | with_reducible apply State.setLoopState_kept hC
    | with_reducible apply State.updLoop_kept hC
    | with_reducible apply foldl_kept
    | with_reducible apply foldl_snd_kept
    | with_reducible apply foldl_fst_kept
    | with_reducible apply ite_kept
    | dsimp only
    | split
    | fail_if_no_progress (with_reducible refine hC.mk_kept rfl ?_)
    | rfl

theorem State.startLoop_kept {P : State → Prop} (hC : Closed P) {s : State} (x : Nat)  (hP : P s) :
    P (State.startLoop s x) := by
  unfold State.startLoop
  repeat' first
    | with_reducible assumption
    | (intro _)
    | with_reducible apply State.loopEvt_kept hC
    | with_reducible apply State.setFld_kept hC
    | with_reducible apply State.latchMfr_kept hC
    | with_reducible apply hC.tookFree
    | with_reducible apply State.updLoop_kept hC
    | with_reducible apply State.updGov_kept hC
    | with_reducible apply State.setPh_kept hC
    | with_reducible apply State.setLoopState_kept hC
    | with_reducible apply foldl_kept
    | with_reducible apply foldl_snd_kept
    | with_reducible apply foldl_fst_kept
    | with_reducible apply ite_kept
    | dsimp only
    | split
    | fail_if_no_progress (with_reducible refine hC.mk_kept rfl ?_)
    | rfl

theorem State.disableLoop_kept {P : State → Prop} (hC : Closed P) {s : State} (x : Nat)  (hP : P s) :
    P (State.disableLoop s x) := by
  unfold State.disableLoop
  repeat' first
    | with_reducible assumption
    | (intro _)
    | with_reducible apply State.stopLoop_kept hC
    | with_reducible apply State.updLoop_kept hC
    | with_reducible apply State.clrReady_kept hC
    | with_reducible apply State.setPgood_kept hC
    | with_reducible apply State.setLoopState_kept hC
    | with_reducible apply ite_kept
    | dsimp only
    | split
    | fail_if_no_progress (with_reducible refine hC.mk_kept rfl ?_)
    | rfl

theorem State.phCfgWritten_kept {P : State → Prop} (hC : Closed P) {s : State} (n : Nat) (old : Word)  (hP : P s) :
    P (State.phCfgWritten s n old) := by
  unfold State.phCfgWritten
  repeat' first
    | with_reducible assumption
    | (intro _)
    | with_reducible apply hC.setReg
    | with_reducible apply State.setFld_kept hC
    | with_reducible apply State.setPh_kept hC
    | with_reducible apply ite_kept
    | dsimp only
    | split
    | fail_if_no_progress (with_reducible refine hC.mk_kept rfl ?_)
    | rfl

theorem State.vsetWritten_kept {P : State → Prop} (hC : Closed P) {s : State} (x : Nat) (avs : Bool) (old : Word)  (hP : P s) :
    P (State.vsetWritten s x avs old) := by
  unfold State.vsetWritten
  repeat' first
    | with_reducible assumption
    | (intro _)
    | with_reducible apply State.loopEvt_kept hC
    | with_reducible apply State.updLoop_kept hC
    | with_reducible apply hC.setReg
    | with_reducible apply ite_kept
    | dsimp only
    | split
    | fail_if_no_progress (with_reducible refine hC.mk_kept rfl ?_)
    | rfl

theorem State.zeroTrims_kept {P : State → Prop} (hC : Closed P) {s : State} (x : Nat)  (hP : P s) :
    P (State.zeroTrims s x) := by
  unfold State.zeroTrims
  repeat' first
    | with_reducible assumption
    | (intro _)
    | with_reducible apply State.setFld_kept hC
    | with_reducible apply foldl_kept
    | with_reducible apply foldl_snd_kept
    | with_reducible apply foldl_fst_kept
    | with_reducible apply ite_kept
    | dsimp only
    | split
    | fail_if_no_progress (with_reducible refine hC.mk_kept rfl ?_)
    | rfl

theorem State.loopHook_kept {P : State → Prop} (hC : Closed P) {s : State} (off : Nat) (old : Word) (wr : Word)  (hP : P s) :
    P (State.loopHook s off old wr) := by
  unfold State.loopHook
  repeat' first
    | with_reducible assumption
    | (intro _)
    | with_reducible apply State.zeroTrims_kept hC
    | with_reducible apply hC.setReg
    | with_reducible apply State.loopEvt_kept hC
    | with_reducible apply State.phCfgWritten_kept hC
    | with_reducible apply State.startLoop_kept hC
    | with_reducible apply State.disableLoop_kept hC
    | with_reducible apply State.vsetWritten_kept hC
    | with_reducible apply State.updLoop_kept hC
    | with_reducible apply ite_kept
    | with_reducible apply ite_snd_kept
    | with_reducible apply ite_fst_kept
    | dsimp only
    | split
    | fail_if_no_progress (with_reducible refine hC.mk_kept rfl ?_)
    | rfl

theorem State.placePhase_kept {P : State → Prop} (hC : Closed P) {s : State} (x : Nat) (n : Nat) (rise : Nat)  (hP : P s) :
    P (State.placePhase s x n rise) := by
  unfold State.placePhase
  repeat' first
    | with_reducible assumption
    | (intro _)
    | with_reducible apply State.updPhase_kept hC
    | with_reducible apply ite_kept
    | with_reducible apply ite_snd_kept
    | with_reducible apply ite_fst_kept
    | dsimp only
    | split
    | fail_if_no_progress (with_reducible refine hC.mk_kept rfl ?_)
    | rfl

theorem State.placeEdges_kept {P : State → Prop} (hC : Closed P) {s : State} (x : Nat)  (hP : P s) :
    P (State.placeEdges s x) := by
  unfold State.placeEdges
  repeat' first
    | with_reducible assumption
    | (intro _)
    | with_reducible apply State.placePhase_kept hC
    | with_reducible apply State.updPhase_kept hC
    | with_reducible apply foldl_kept
    | with_reducible apply foldl_snd_kept
    | with_reducible apply foldl_fst_kept
    | with_reducible apply ite_kept
    | dsimp only
    | split
    | fail_if_no_progress (with_reducible refine hC.mk_kept rfl ?_)
    | rfl

theorem State.endOnTime_kept {P : State → Prop} (hC : Closed P) {s : State} (x : Nat) (n : Nat)  (hP : P s) :
    P (State.endOnTime s x n) := by
  unfold State.endOnTime
  repeat' first
    | with_reducible assumption
    | (intro _)
    | with_reducible apply State.updPhase_kept hC
    | with_reducible apply ite_kept
    | with_reducible apply ite_snd_kept
    | with_reducible apply ite_fst_kept
    | dsimp only
    | split
    | fail_if_no_progress (with_reducible refine hC.mk_kept rfl ?_)
    | rfl

theorem State.zeroCross_kept {P : State → Prop} (hC : Closed P) {s : State} (n : Nat)  (hP : P s) :
    P (State.zeroCross s n) := by
  unfold State.zeroCross
  repeat' first
    | with_reducible assumption
    | (intro _)
    | with_reducible apply State.setPh_kept hC
    | with_reducible apply State.updPhase_kept hC
    | with_reducible apply ite_kept
    | (with_reducible refine pair_snd_kept (by with_reducible assumption) ?_)
    | (with_reducible refine pair_fst_kept (by with_reducible assumption) ?_)
    | (with_reducible refine trip_kept (by with_reducible assumption) ?_)
    | dsimp only
    | split
    | fail_if_no_progress (with_reducible refine hC.mk_kept rfl ?_)
    | rfl

theorem State.moveEdges_kept {P : State → Prop} (hC : Closed P) {s : State} (x : Nat)  (hP : P s) :
    P (State.moveEdges s x) := by
  unfold State.moveEdges
  repeat' first
    | with_reducible assumption
    | (intro _)
    | with_reducible apply State.updPhase_kept hC
    | with_reducible apply foldl_kept
    | with_reducible apply foldl_snd_kept
    | with_reducible apply foldl_fst_kept
    | dsimp only
    | split
    | fail_if_no_progress (with_reducible refine hC.mk_kept rfl ?_)
    | rfl

theorem State.law_kept {P : State → Prop} (hC : Closed P) {s : State} (x : Nat) (e : Int)  (hP : P s) :
    P (State.law s x e) := by
  unfold State.law
  repeat' first
    | with_reducible assumption
    | (intro _)
    | with_reducible apply State.updLoop_kept hC
    | with_reducible apply ite_kept
    | dsimp only
    | split
    | fail_if_no_progress (with_reducible refine hC.mk_kept rfl ?_)
    | rfl

theorem State.advanceRamps_kept {P : State → Prop} (hC : Closed P) {s : State} (x : Nat)  (hP : P s) :
    P (State.advanceRamps s x) := by
  unfold State.advanceRamps
  repeat' first
    | with_reducible assumption
    | (intro _)
    | with_reducible apply State.updLoop_kept hC
    | with_reducible apply ite_kept
    | dsimp only
    | split
    | fail_if_no_progress (with_reducible refine hC.mk_kept rfl ?_)
    | rfl

theorem State.settleHeld_kept {P : State → Prop} (hC : Closed P) {s : State} (x : Nat)  (hP : P s) :
    P (State.settleHeld s x) := by
  unfold State.settleHeld
  repeat' first
    | with_reducible assumption
    | (intro _)
    | with_reducible apply ite_kept
    | dsimp only
    | split
    | fail_if_no_progress (with_reducible refine hC.mk_kept rfl ?_)
    | rfl

end Sys2Proof.Machine
end

