-- ==== Sys2Proof/Laws/KeptAdmin.lean ====
section
/-! SUPPORT. The definitions of Machine/Admin.lean keep every property that `Closed` describes. -/

namespace Sys2Proof.Machine

theorem State.stopOutOfService_kept {P : State → Prop} (hC : Closed P) {s : State} (x : Nat)  (hP : P s) :
    P (State.stopOutOfService s x) := by
  unfold State.stopOutOfService
  repeat' first
    | with_reducible assumption
    | (intro _)
    | with_reducible apply State.stopLoop_kept hC
    | with_reducible apply ite_kept
    | dsimp only
    | split
    | fail_if_no_progress (with_reducible refine hC.mk_kept rfl ?_)
    | rfl

theorem State.applyFence_kept {P : State → Prop} (hC : Closed P) {s : State} (u : Nat)  (hP : P s) :
    P (State.applyFence s u) := by
  unfold State.applyFence
  repeat' first
    | with_reducible assumption
    | (intro _)
    | with_reducible apply State.stopOutOfService_kept hC
    | with_reducible apply State.setPh_kept hC
    | with_reducible apply ite_kept
    | dsimp only
    | split
    | fail_if_no_progress (with_reducible refine hC.mk_kept rfl ?_)
    | rfl

theorem State.fence_kept {P : State → Prop} (hC : Closed P) {s : State} (u : Nat) (kind : Nat)  (hP : P s) :
    P (State.fence s u kind) := by
  unfold State.fence
  repeat' first
    | with_reducible assumption
    | (intro _)
    | with_reducible apply State.setFld_kept hC
    | with_reducible apply State.raiseD_kept hC
    | with_reducible apply State.applyFence_kept hC
    | with_reducible apply ite_kept
    | dsimp only
    | split
    | fail_if_no_progress (with_reducible refine hC.mk_kept rfl ?_)
    | rfl

theorem State.activity_kept {P : State → Prop} (hC : Closed P) {s : State} (u : Nat)  (hP : P s) :
    P (State.activity s u) := by
  unfold State.activity
  repeat' first
    | with_reducible assumption
    | (intro _)
    | with_reducible apply State.fence_kept hC
    | with_reducible apply ite_kept
    | dsimp only
    | split
    | fail_if_no_progress (with_reducible refine hC.mk_kept rfl ?_)
    | rfl

theorem State.unfencePhase_kept {P : State → Prop} (hC : Closed P) {s : State} (n : Nat)  (hP : P s) :
    P (State.unfencePhase s n) := by
  unfold State.unfencePhase
  repeat' first
    | with_reducible assumption
    | (intro _)
    | with_reducible apply State.setPh_kept hC
    | with_reducible apply ite_kept
    | dsimp only
    | split
    | fail_if_no_progress (with_reducible refine hC.mk_kept rfl ?_)
    | rfl

theorem State.admWritten_kept {P : State → Prop} (hC : Closed P) {s : State} (u : Nat) (old : Word)  (hP : P s) :
    P (State.admWritten s u old) := by
  unfold State.admWritten
  repeat' first
    | with_reducible assumption
    | (intro _)
    | with_reducible apply hC.setReg
    | with_reducible apply State.fault_kept hC
    | with_reducible apply State.setFld_kept hC
    | with_reducible apply State.unfencePhase_kept hC
    | with_reducible apply ite_kept
    | dsimp only
    | split
    | fail_if_no_progress (with_reducible refine hC.mk_kept rfl ?_)
    | rfl

theorem State.servicePhase_kept {P : State → Prop} (hC : Closed P) {s : State} (n : Nat)  (hP : P s) :
    P (State.servicePhase s n) := by
  unfold State.servicePhase
  repeat' first
    | with_reducible assumption
    | (intro _)
    | with_reducible apply State.setPh_kept hC
    | with_reducible apply State.unfencePhase_kept hC
    | with_reducible apply ite_kept
    | dsimp only
    | split
    | fail_if_no_progress (with_reducible refine hC.mk_kept rfl ?_)
    | rfl

theorem State.adopt_kept {P : State → Prop} (hC : Closed P) {s : State} (u : Nat)  (hP : P s) :
    P (State.adopt s u) := by
  unfold State.adopt
  repeat' first
    | with_reducible assumption
    | (intro _)
    | with_reducible apply State.setFld_kept hC
    | with_reducible apply State.stopOutOfService_kept hC
    | with_reducible apply State.servicePhase_kept hC
    | with_reducible apply ite_kept
    | dsimp only
    | split
    | fail_if_no_progress (with_reducible refine hC.mk_kept rfl ?_)
    | rfl

theorem State.applyDeferred_kept {P : State → Prop} (hC : Closed P) {s : State}  (hP : P s) :
    P (State.applyDeferred s) := by
  unfold State.applyDeferred
  repeat' first
    | with_reducible assumption
    | (intro _)
    | with_reducible apply State.stopOutOfService_kept hC
    | with_reducible apply State.setPh_kept hC
    | with_reducible apply foldl_kept
    | with_reducible apply foldl_snd_kept
    | with_reducible apply foldl_fst_kept
    | with_reducible apply ite_kept
    | dsimp only
    | split
    | fail_if_no_progress (with_reducible refine hC.mk_kept rfl ?_)
    | rfl

theorem execAdminAdopt_kept {P : State → Prop} (hC : Closed P) (u : Fin 152) {s : State}  (hP : P s) :
    Res.Keeps P (execAdminAdopt u s) := by
  unfold execAdminAdopt
  repeat' first
    | with_reducible assumption
    | (intro _)
    | with_reducible apply Res.keeps_next
    | with_reducible apply State.adopt_kept hC
    | dsimp only
    | split
    | fail_if_no_progress (with_reducible refine hC.mk_kept rfl ?_)
    | rfl

theorem execAdmGraceTimeout_kept {P : State → Prop} (hC : Closed P) (u : Fin 152) {s : State}  (hP : P s) :
    Res.Keeps P (execAdmGraceTimeout u s) := by
  unfold execAdmGraceTimeout
  repeat' first
    | with_reducible assumption
    | (intro _)
    | with_reducible apply Res.keeps_next
    | with_reducible apply State.fence_kept hC
    | with_reducible apply ite_kept
    | dsimp only
    | split
    | fail_if_no_progress (with_reducible refine hC.mk_kept rfl ?_)
    | rfl

end Sys2Proof.Machine
end

