-- ==== Sys2Proof/Laws/KeptBattery.lean ====
section
/-! SUPPORT. The definitions of Machine/Battery.lean keep every property that `Closed` describes. -/

namespace Sys2Proof.Machine

theorem State.updBat_kept {P : State → Prop} (hC : Closed P) {s : State} (f : BatSt → BatSt)  (hP : P s) :
    P (State.updBat s f) := by
  unfold State.updBat
  repeat' first
    | with_reducible assumption
    | (intro _)
    | dsimp only
    | split
    | fail_if_no_progress (with_reducible refine hC.mk_kept rfl ?_)
    | rfl

theorem State.updKeep_kept {P : State → Prop} (hC : Closed P) {s : State} (f : BatKeep → BatKeep)
    (hf : ∀ b, (f b).fill = b.fill) (hP : P s) : P (State.updKeep s f) := hC.mk_kept (hf _) hP

theorem State.clampQ_kept {P : State → Prop} (hC : Closed P) {s : State}  (hP : P s) :
    P (State.clampQ s) := by
  unfold State.clampQ
  repeat' first
    | with_reducible assumption
    | (intro _)
    | with_reducible apply State.updBat_kept hC
    | dsimp only
    | split
    | fail_if_no_progress (with_reducible refine hC.mk_kept rfl ?_)
    | rfl

theorem State.setRc_kept {P : State → Prop} (hC : Closed P) {s : State} (rc : Nat)  (hP : P s) :
    P (State.setRc s rc) := by
  unfold State.setRc
  repeat' first
    | with_reducible assumption
    | (intro _)
    | with_reducible apply State.updBat_kept hC
    | with_reducible apply State.clampQ_kept hC
    | dsimp only
    | split
    | fail_if_no_progress (with_reducible refine hC.mk_kept rfl ?_)
    | rfl

theorem State.batCurrent_kept {P : State → Prop} (hC : Closed P) {s : State} (code : Int) (ovr : Bool)  (hP : P s) :
    P (State.batCurrent s code ovr) := by
  unfold State.batCurrent
  repeat' first
    | with_reducible assumption
    | (intro _)
    | with_reducible apply State.updBat_kept hC
    | with_reducible apply State.updKeep_kept hC
    | with_reducible apply State.clampQ_kept hC
    | with_reducible apply State.fault_kept hC
    | with_reducible apply ite_kept
    | dsimp only
    | split
    | fail_if_no_progress (with_reducible refine hC.mk_kept rfl ?_)
    | rfl

theorem State.endLeg_kept {P : State → Prop} (hC : Closed P) {s : State} (dq : Nat)  (hP : P s) :
    P (State.endLeg s dq) := by
  unfold State.endLeg
  repeat' first
    | with_reducible assumption
    | (intro _)
    | with_reducible apply State.setFld_kept hC
    | with_reducible apply State.updKeep_kept hC
    | with_reducible apply ite_kept
    | dsimp only
    | split
    | fail_if_no_progress (with_reducible refine hC.mk_kept rfl ?_)
    | rfl

theorem State.batVoltage_kept {P : State → Prop} (hC : Closed P) {s : State} (code : Int)  (hP : P s) :
    P (State.batVoltage s code) := by
  unfold State.batVoltage
  repeat' first
    | with_reducible assumption
    | (intro _)
    | with_reducible apply State.updBat_kept hC
    | with_reducible apply State.endLeg_kept hC
    | with_reducible apply State.setFld_kept hC
    | with_reducible apply State.clampQ_kept hC
    | with_reducible apply ite_kept
    | dsimp only
    | split
    | fail_if_no_progress (with_reducible refine hC.mk_kept rfl ?_)
    | rfl

theorem State.batResult_kept {P : State → Prop} (hC : Closed P) {s : State} (chan : Nat) (code : Int) (ovr : Bool)  (hP : P s) :
    P (State.batResult s chan code ovr) := by
  unfold State.batResult
  repeat' first
    | with_reducible assumption
    | (intro _)
    | with_reducible apply State.batCurrent_kept hC
    | with_reducible apply State.batVoltage_kept hC
    | with_reducible apply State.updBat_kept hC
    | with_reducible apply State.setFld_kept hC
    | with_reducible apply ite_kept
    | dsimp only
    | split
    | fail_if_no_progress (with_reducible refine hC.mk_kept rfl ?_)
    | rfl

theorem State.estimate_kept {P : State → Prop} (hC : Closed P) {s : State}  (hP : P s) :
    P (State.estimate s) := by
  unfold State.estimate
  repeat' first
    | with_reducible assumption
    | (intro _)
    | with_reducible apply State.setRc_kept hC
    | dsimp only
    | split
    | fail_if_no_progress (with_reducible refine hC.mk_kept rfl ?_)
    | rfl

theorem State.saveBlock_kept {P : State → Prop} (hC : Closed P) {s : State} (ws : List Word)  (hP : P s) :
    P (State.saveBlock s ws) := by
  unfold State.saveBlock
  have h1 : P ((List.range 8).foldl (fun s n => (s.setReg (R.BAT_SAVE n) (ws.getD n 0)).rramStore n (ws.getD n 0)) s) :=
    foldl_kept (fun a x ha => State.rramStore_kept hC _ _ (hC.setReg _ _ ha)) _ hP
  generalize (List.range 8).foldl (fun s n => (s.setReg (R.BAT_SAVE n) (ws.getD n 0)).rramStore n (ws.getD n 0)) s = t at h1
  exact hC.tookFree (hC.same (s := { t with
    rram := tabKeep (fun w => !(decide (8 ≤ w) && decide (w < 256))) t.rram
    batKeep := { t.batKeep with fill := t.freeCtr + 1 } }) rfl (hC.rramRefill _ h1))

theorem State.openLeg_kept {P : State → Prop} (hC : Closed P) {s : State}  (hP : P s) :
    P (State.openLeg s) := by
  unfold State.openLeg
  repeat' first
    | with_reducible assumption
    | (intro _)
    | with_reducible apply State.updKeep_kept hC
    | with_reducible apply State.setFld_kept hC
    | dsimp only
    | split
    | fail_if_no_progress (with_reducible refine hC.mk_kept rfl ?_)
    | rfl

theorem State.closeLeg_kept {P : State → Prop} (hC : Closed P) {s : State}  (hP : P s) :
    P (State.closeLeg s) := by
  unfold State.closeLeg
  repeat' first
    | with_reducible assumption
    | (intro _)
    | with_reducible apply hC.tookFree
    | with_reducible apply State.endLeg_kept hC
    | with_reducible apply State.updBat_kept hC
    | with_reducible apply State.clampQ_kept hC
    | with_reducible apply State.satAdd_kept hC
    | with_reducible apply State.setFld_kept hC
    | with_reducible apply ite_kept
    | dsimp only
    | split
    | fail_if_no_progress (with_reducible refine hC.mk_kept rfl ?_)
    | rfl

theorem State.legStep_kept {P : State → Prop} (hC : Closed P) {s : State} (soc : Nat)  (hP : P s) :
    P (State.legStep s soc) := by
  unfold State.legStep
  repeat' first
    | with_reducible assumption
    | (intro _)
    | with_reducible apply State.closeLeg_kept hC
    | with_reducible apply State.endLeg_kept hC
    | with_reducible apply State.openLeg_kept hC
    | with_reducible apply ite_kept
    | dsimp only
    | split
    | fail_if_no_progress (with_reducible refine hC.mk_kept rfl ?_)
    | rfl

theorem State.batPublication_kept {P : State → Prop} (hC : Closed P) {s : State}  (hP : P s) :
    P (State.batPublication s) := by
  unfold State.batPublication
  repeat' first
    | with_reducible assumption
    | (intro _)
    | with_reducible apply State.updBat_kept hC
    | with_reducible apply State.setFld_kept hC
    | with_reducible apply hC.setReg
    | with_reducible apply State.saveBlock_kept hC
    | with_reducible apply State.legStep_kept hC
    | with_reducible apply ite_kept
    | dsimp only
    | split
    | fail_if_no_progress (with_reducible refine hC.mk_kept rfl ?_)
    | rfl

theorem State.takeBlock_kept {P : State → Prop} (hC : Closed P) {s : State} (w : Nat → Word)  (hP : P s) :
    P (State.takeBlock s w) := by
  unfold State.takeBlock
  repeat' first
    | with_reducible assumption
    | (intro _)
    | with_reducible apply State.updBat_kept hC
    | with_reducible apply hC.setReg
    | with_reducible apply State.setFld_kept hC
    | with_reducible apply State.clampQ_kept hC
    | dsimp only
    | split
    | fail_if_no_progress (with_reducible refine hC.mk_kept rfl ?_)
    | rfl

theorem State.restoreBlock_kept {P : State → Prop} (hC : Closed P) {s : State} (w : Nat → Word)  (hP : P s) :
    P (State.restoreBlock s w) := by
  unfold State.restoreBlock
  repeat' first
    | with_reducible assumption
    | (intro _)
    | with_reducible apply State.takeBlock_kept hC
    | with_reducible apply State.setRc_kept hC
    | with_reducible apply State.setFld_kept hC
    | dsimp only
    | split
    | fail_if_no_progress (with_reducible refine hC.mk_kept rfl ?_)
    | rfl

theorem State.batRestore_kept {P : State → Prop} (hC : Closed P) {s : State}  (hP : P s) :
    P (State.batRestore s) := by
  unfold State.batRestore
  repeat' first
    | with_reducible assumption
    | (intro _)
    | with_reducible apply State.setFld_kept hC
    | with_reducible apply State.restoreBlock_kept hC
    | with_reducible apply ite_kept
    | dsimp only
    | split
    | fail_if_no_progress (with_reducible refine hC.mk_kept rfl ?_)
    | rfl

theorem State.batStart_kept {P : State → Prop} (hC : Closed P) {s : State}  (hP : P s) :
    P (State.batStart s) := by
  unfold State.batStart
  repeat' first
    | with_reducible assumption
    | (intro _)
    | with_reducible apply State.rramMeet_kept hC
    | with_reducible apply State.setFld_kept hC
    | with_reducible apply State.updBat_kept hC
    | with_reducible apply State.takeBlock_kept hC
    | with_reducible apply State.clampQ_kept hC
    | with_reducible apply State.fault_kept hC
    | with_reducible apply ite_kept
    | with_reducible apply foldl_kept
    | with_reducible apply foldl_snd_kept
    | with_reducible apply foldl_fst_kept
    | dsimp only
    | split
    | fail_if_no_progress (with_reducible refine hC.mk_kept rfl ?_)
    | rfl

theorem State.batHook_kept {P : State → Prop} (hC : Closed P) {s : State} (off : Nat) (old : Word) (wr : Word)  (hP : P s) :
    P (State.batHook s off old wr) := by
  unfold State.batHook
  repeat' first
    | with_reducible assumption
    | (intro _)
    | with_reducible apply State.batRestore_kept hC
    | with_reducible apply State.batStart_kept hC
    | with_reducible apply State.updBat_kept hC
    | with_reducible apply ite_kept
    | dsimp only
    | split
    | fail_if_no_progress (with_reducible refine hC.mk_kept rfl ?_)
    | rfl

theorem execBatteryAbsent_kept {P : State → Prop} (hC : Closed P) {s : State}  (hP : P s) :
    Res.Keeps P (execBatteryAbsent s) := by
  unfold execBatteryAbsent
  repeat' first
    | with_reducible assumption
    | (intro _)
    | with_reducible apply Res.keeps_next
    | with_reducible apply State.setFld_kept hC
    | with_reducible apply ite_kept
    | dsimp only
    | split
    | fail_if_no_progress (with_reducible refine hC.mk_kept rfl ?_)
    | rfl

theorem execFirstEstimate_kept {P : State → Prop} (hC : Closed P) {s : State}  (hP : P s) :
    Res.Keeps P (execFirstEstimate s) := by
  unfold execFirstEstimate
  repeat' first
    | with_reducible assumption
    | (intro _)
    | with_reducible apply Res.keeps_next
    | with_reducible apply State.estimate_kept hC
    | with_reducible apply State.updBat_kept hC
    | with_reducible apply ite_kept
    | dsimp only
    | split
    | fail_if_no_progress (with_reducible refine hC.mk_kept rfl ?_)
    | rfl

theorem execBatPublish_kept {P : State → Prop} (hC : Closed P) {s : State}  (hP : P s) :
    Res.Keeps P (execBatPublish s) := by
  unfold execBatPublish
  repeat' first
    | with_reducible assumption
    | (intro _)
    | with_reducible apply Res.keeps_next
    | with_reducible apply State.batPublication_kept hC
    | with_reducible apply ite_kept
    | dsimp only
    | split
    | fail_if_no_progress (with_reducible refine hC.mk_kept rfl ?_)
    | rfl

theorem execBatStale_kept {P : State → Prop} (hC : Closed P) {s : State}  (hP : P s) :
    Res.Keeps P (execBatStale s) := by
  unfold execBatStale
  repeat' first
    | with_reducible assumption
    | (intro _)
    | with_reducible apply Res.keeps_next
    | with_reducible apply State.updBat_kept hC
    | with_reducible apply State.fault_kept hC
    | with_reducible apply ite_kept
    | dsimp only
    | split
    | fail_if_no_progress (with_reducible refine hC.mk_kept rfl ?_)
    | rfl

theorem execBatRelaxResync_kept {P : State → Prop} (hC : Closed P) {s : State}  (hP : P s) :
    Res.Keeps P (execBatRelaxResync s) := by
  unfold execBatRelaxResync
  repeat' first
    | with_reducible assumption
    | (intro _)
    | with_reducible apply Res.keeps_next
    | with_reducible apply State.estimate_kept hC
    | with_reducible apply State.updBat_kept hC
    | with_reducible apply ite_kept
    | dsimp only
    | split
    | fail_if_no_progress (with_reducible refine hC.mk_kept rfl ?_)
    | rfl

end Sys2Proof.Machine
end

