-- ==== Sys2Proof/Laws/KeptEsp.lean ====
section
/-! SUPPORT. The definitions of Machine/Esp.lean keep every property that `Closed` describes. -/

namespace Sys2Proof.Machine

theorem State.updEsp_kept {P : State → Prop} (hC : Closed P) {s : State} (f : EspSt → EspSt)  (hP : P s) :
    P (State.updEsp s f) := by
  unfold State.updEsp
  repeat' first
    | with_reducible assumption
    | (intro _)
    | dsimp only
    | split
    | fail_if_no_progress (with_reducible refine hC.mk_kept rfl ?_)
    | rfl

theorem State.setFrame_kept {P : State → Prop} (hC : Closed P) {s : State} (k : Nat) (f : Frame)  (hP : P s) :
    P (State.setFrame s k f) := by
  unfold State.setFrame
  repeat' first
    | with_reducible assumption
    | (intro _)
    | with_reducible apply State.updEsp_kept hC
    | dsimp only
    | split
    | fail_if_no_progress (with_reducible refine hC.mk_kept rfl ?_)
    | rfl

theorem State.setDom_kept {P : State → Prop} (hC : Closed P) {s : State} (d : Nat) (l : List Ticket)  (hP : P s) :
    P (State.setDom s d l) := by
  unfold State.setDom
  repeat' first
    | with_reducible assumption
    | (intro _)
    | with_reducible apply State.updEsp_kept hC
    | dsimp only
    | split
    | fail_if_no_progress (with_reducible refine hC.mk_kept rfl ?_)
    | rfl

theorem State.takeCells_kept {P : State → Prop} (hC : Closed P) {s : State} (r : Nat) (e0 : Nat) (e1 : List Nat) (hP : P s) :
    P (((State.takeCells s r e0 e1)).2.2) := by
  revert hP
  fun_induction State.takeCells s r e0 e1
  all_goals
    intro hP
    repeat' first
      | with_reducible assumption
      | (intro _)
      | with_reducible apply hC.tookFree
      | with_reducible apply ite_kept
      | with_reducible apply ite_snd_kept
      | with_reducible apply ite_fst_kept
      | (with_reducible apply_assumption)
      | dsimp only
      | split
      | fail_if_no_progress (with_reducible refine hC.mk_kept rfl ?_)
      | rfl

theorem State.frameWrite_kept {P : State → Prop} (hC : Closed P) {s : State} (f : Frame) (e0 : Nat) (e1 : Nat) (e2 : Bytes) (hP : P s) :
    P (State.frameWrite s f e0 e1 e2) := by
  revert hP
  fun_induction State.frameWrite s f e0 e1 e2
  all_goals
    intro hP
    repeat' first
      | with_reducible assumption
      | (intro _)
      | with_reducible apply State.memWriteAll_kept hC
      | (with_reducible apply_assumption)
      | dsimp only
      | split
      | fail_if_no_progress (with_reducible refine hC.mk_kept rfl ?_)
      | rfl

theorem State.frameRead_kept {P : State → Prop} (hC : Closed P) {s : State} (f : Frame) (e0 : Nat) (e1 : Nat) (e2 : Nat) (hP : P s) :
    P (((State.frameRead s f e0 e1 e2)).2) := by
  revert hP
  fun_induction State.frameRead s f e0 e1 e2
  all_goals
    intro hP
    repeat' first
      | with_reducible assumption
      | (intro _)
      | with_reducible apply State.memReadAll_kept hC
      | with_reducible apply ite_kept
      | with_reducible apply ite_snd_kept
      | with_reducible apply ite_fst_kept
      | (with_reducible refine pair_snd_kept (by with_reducible assumption) ?_)
      | (with_reducible refine pair_fst_kept (by with_reducible assumption) ?_)
      | (with_reducible refine trip_kept (by with_reducible assumption) ?_)
      | (with_reducible apply_assumption)
      | dsimp only
      | split
      | fail_if_no_progress (with_reducible refine hC.mk_kept rfl ?_)
      | rfl

theorem State.count64_kept {P : State → Prop} (hC : Closed P) {s : State} (lo : Nat) (hi : Nat)  (hP : P s) :
    P (State.count64 s lo hi) := by
  unfold State.count64
  repeat' first
    | with_reducible assumption
    | (intro _)
    | with_reducible apply State.setPair_kept hC
    | dsimp only
    | split
    | fail_if_no_progress (with_reducible refine hC.mk_kept rfl ?_)
    | rfl

theorem State.countDrop_kept {P : State → Prop} (hC : Closed P) {s : State} (r : Nat) (k : Nat)  (hP : P s) :
    P (State.countDrop s r k) := by
  unfold State.countDrop
  repeat' first
    | with_reducible assumption
    | (intro _)
    | with_reducible apply State.count64_kept hC
    | dsimp only
    | split
    | fail_if_no_progress (with_reducible refine hC.mk_kept rfl ?_)
    | rfl

theorem State.endStamps_kept {P : State → Prop} (hC : Closed P) {s : State} (k : Nat)  (hP : P s) :
    P (State.endStamps s k) := by
  unfold State.endStamps
  repeat' first
    | with_reducible assumption
    | (intro _)
    | with_reducible apply State.updThr_kept hC
    | with_reducible apply foldl_kept
    | with_reducible apply foldl_snd_kept
    | with_reducible apply foldl_fst_kept
    | dsimp only
    | split
    | fail_if_no_progress (with_reducible refine hC.mk_kept rfl ?_)
    | rfl

theorem State.freeSlot_kept {P : State → Prop} (hC : Closed P) {s : State} (k : Nat)  (hP : P s) :
    P (State.freeSlot s k) := by
  unfold State.freeSlot
  repeat' first
    | with_reducible assumption
    | (intro _)
    | with_reducible apply State.updEsp_kept hC
    | with_reducible apply State.endStamps_kept hC
    | dsimp only
    | split
    | fail_if_no_progress (with_reducible refine hC.mk_kept rfl ?_)
    | rfl

theorem State.hints_kept {P : State → Prop} (hC : Closed P) {s : State} (was : Nat)  (hP : P s) :
    P (State.hints s was) := by
  unfold State.hints
  repeat' first
    | with_reducible assumption
    | (intro _)
    | with_reducible apply State.updEsp_kept hC
    | with_reducible apply ite_kept
    | dsimp only
    | split
    | fail_if_no_progress (with_reducible refine hC.mk_kept rfl ?_)
    | rfl

theorem State.rowWake_kept {P : State → Prop} (hC : Closed P) {s : State} (r : Nat)  (hP : P s) :
    P (State.rowWake s r) := by
  unfold State.rowWake
  repeat' first
    | with_reducible assumption
    | (intro _)
    | with_reducible apply State.updEsp_kept hC
    | with_reducible apply State.setHwReq_kept hC
    | with_reducible apply State.setBit_kept hC
    | with_reducible apply State.requestDomain_kept hC
    | with_reducible apply ite_kept
    | (with_reducible refine pair_snd_kept (by with_reducible assumption) ?_)
    | (with_reducible refine pair_fst_kept (by with_reducible assumption) ?_)
    | (with_reducible refine trip_kept (by with_reducible assumption) ?_)
    | dsimp only
    | split
    | fail_if_no_progress (with_reducible refine hC.mk_kept rfl ?_)
    | rfl

theorem State.undispatch_kept {P : State → Prop} (hC : Closed P) {s : State} (k : Nat)  (hP : P s) :
    P (State.undispatch s k) := by
  unfold State.undispatch
  repeat' first
    | with_reducible assumption
    | (intro _)
    | with_reducible apply State.updRow_kept hC
    | with_reducible apply State.hints_kept hC
    | with_reducible apply foldl_kept
    | with_reducible apply foldl_snd_kept
    | with_reducible apply foldl_fst_kept
    | dsimp only
    | split
    | fail_if_no_progress (with_reducible refine hC.mk_kept rfl ?_)
    | rfl

theorem State.voidTicket_kept {P : State → Prop} (hC : Closed P) {s : State} (d : Nat) (k : Nat) (why : Nat)  (hP : P s) :
    P (State.voidTicket s d k why) := by
  unfold State.voidTicket
  repeat' first
    | with_reducible assumption
    | (intro _)
    | with_reducible apply State.setDom_kept hC
    | with_reducible apply State.undispatch_kept hC
    | with_reducible apply State.countDrop_kept hC
    | with_reducible apply State.freeSlot_kept hC
    | with_reducible apply ite_kept
    | dsimp only
    | split
    | fail_if_no_progress (with_reducible refine hC.mk_kept rfl ?_)
    | rfl

theorem State.voidThread_kept {P : State → Prop} (hC : Closed P) {s : State} (k : Nat)  (hP : P s) :
    P (State.voidThread s k) := by
  unfold State.voidThread
  repeat' first
    | with_reducible assumption
    | (intro _)
    | with_reducible apply State.voidTicket_kept hC
    | with_reducible apply foldl_kept
    | with_reducible apply foldl_snd_kept
    | with_reducible apply foldl_fst_kept
    | dsimp only
    | split
    | fail_if_no_progress (with_reducible refine hC.mk_kept rfl ?_)
    | rfl

theorem State.voidRow_kept {P : State → Prop} (hC : Closed P) {s : State} (r : Nat)  (hP : P s) :
    P (State.voidRow s r) := by
  unfold State.voidRow
  repeat' first
    | with_reducible assumption
    | (intro _)
    | with_reducible apply State.voidTicket_kept hC
    | with_reducible apply foldl_kept
    | with_reducible apply foldl_snd_kept
    | with_reducible apply foldl_fst_kept
    | dsimp only
    | split
    | fail_if_no_progress (with_reducible refine hC.mk_kept rfl ?_)
    | rfl

end Sys2Proof.Machine
end

