-- ==== Sys2Proof/Laws/KeptThreads.lean ====
section
/-! SUPPORT. The definitions of Machine/Threads.lean keep every property that `Closed` describes. -/

namespace Sys2Proof.Machine

theorem State.dropHelpers_kept {P : State → Prop} (hC : Closed P) {s : State} (p : Nat → Bool)  (hP : P s) :
    P (State.dropHelpers s p) := by
  unfold State.dropHelpers
  repeat' first
    | with_reducible assumption
    | (intro _)
    | dsimp only
    | split
    | fail_if_no_progress (with_reducible refine hC.mk_kept rfl ?_)
    | rfl

theorem State.orphan_kept {P : State → Prop} (hC : Closed P) {s : State} (k : Nat)  (hP : P s) :
    P (State.orphan s k) := by
  unfold State.orphan
  repeat' first
    | with_reducible assumption
    | (intro _)
    | with_reducible apply State.setThr_kept hC
    | with_reducible apply foldl_kept
    | with_reducible apply foldl_snd_kept
    | with_reducible apply foldl_fst_kept
    | with_reducible apply ite_kept
    | dsimp only
    | split
    | fail_if_no_progress (with_reducible refine hC.mk_kept rfl ?_)
    | rfl

theorem State.endThread_kept {P : State → Prop} (hC : Closed P) {s : State} (k : Nat) (clear : Thread → Thread)  (hP : P s) :
    P (State.endThread s k clear) := by
  unfold State.endThread
  repeat' first
    | with_reducible assumption
    | (intro _)
    | with_reducible apply State.dropHelpers_kept hC
    | with_reducible apply State.voidThread_kept hC
    | with_reducible apply State.updThr_kept hC
    | with_reducible apply State.finish_kept hC
    | with_reducible apply State.orphan_kept hC
    | dsimp only
    | split
    | fail_if_no_progress (with_reducible refine hC.mk_kept rfl ?_)
    | rfl

theorem State.notify_kept {P : State → Prop} (hC : Closed P) {s : State} (target : Nat) (code : Nat)  (hP : P s) :
    P (State.notify s target code) := by
  unfold State.notify
  repeat' first
    | with_reducible assumption
    | (intro _)
    | with_reducible apply State.updThr_kept hC
    | with_reducible apply State.post_kept hC
    | with_reducible apply ite_kept
    | dsimp only
    | split
    | fail_if_no_progress (with_reducible refine hC.mk_kept rfl ?_)
    | rfl

theorem State.halt_kept {P : State → Prop} (hC : Closed P) {s : State} (k : Nat) (cause : Nat)  (hP : P s) :
    P (State.halt s k cause) := by
  unfold State.halt
  repeat' first
    | with_reducible assumption
    | (intro _)
    | with_reducible apply State.updThr_kept hC
    | with_reducible apply State.notify_kept hC
    | dsimp only
    | split
    | fail_if_no_progress (with_reducible refine hC.mk_kept rfl ?_)
    | rfl

theorem State.stopRootstock_kept {P : State → Prop} (hC : Closed P) {s : State}  (hP : P s) :
    P (State.stopRootstock s) := by
  unfold State.stopRootstock
  repeat' first
    | with_reducible assumption
    | (intro _)
    | with_reducible apply State.clrReady_kept hC
    | with_reducible apply State.updThr_kept hC
    | with_reducible apply State.setFld_kept hC
    | with_reducible apply foldl_kept
    | with_reducible apply foldl_snd_kept
    | with_reducible apply foldl_fst_kept
    | with_reducible apply ite_kept
    | dsimp only
    | split
    | fail_if_no_progress (with_reducible refine hC.mk_kept rfl ?_)
    | rfl

theorem State.raiseExc_kept {P : State → Prop} (hC : Closed P) {s : State} (k : Nat) (cause : Nat) (eval : Word) (epc : Word)  (hP : P s) :
    P (State.raiseExc s k cause eval epc) := by
  unfold State.raiseExc
  repeat' first
    | with_reducible assumption
    | (intro _)
    | with_reducible apply State.setThr_kept hC
    | with_reducible apply State.halt_kept hC
    | with_reducible apply State.fault_kept hC
    | with_reducible apply State.stopRootstock_kept hC
    | with_reducible apply ite_kept
    | dsimp only
    | split
    | fail_if_no_progress (with_reducible refine hC.mk_kept rfl ?_)
    | rfl

theorem State.issue_kept {P : State → Prop} (hC : Closed P) {s : State} (k : Nat) (n : Nat) (body : Word → State → State)  (hbody : ∀ y0 y1, P y1 →  P (body y0 y1)) (hP : P s) :
    P (State.issue s k n body) := by
  unfold State.issue
  repeat' first
    | with_reducible assumption
    | (intro _)
    | with_reducible apply State.raiseExc_kept hC
    | with_reducible apply hbody
    | with_reducible apply ite_kept
    | dsimp only
    | split
    | fail_if_no_progress (with_reducible refine hC.mk_kept rfl ?_)
    | rfl

theorem State.plain_kept {P : State → Prop} (hC : Closed P) {s : State} (k : Nat) (n : Nat) (f : Thread → Thread)  (hP : P s) :
    P (State.plain s k n f) := by
  unfold State.plain
  repeat' first
    | with_reducible assumption
    | (intro _)
    | with_reducible apply State.issue_kept hC
    | with_reducible apply State.updThr_kept hC
    | dsimp only
    | split
    | fail_if_no_progress (with_reducible refine hC.mk_kept rfl ?_)
    | rfl

end Sys2Proof.Machine
end

