-- ==== Sys2Proof/Laws/KeptIntAlu.lean ====
section
/-! SUPPORT. The definitions of Machine/IntAlu.lean keep every property that `Closed` describes. -/

namespace Sys2Proof.Machine

theorem State.aluOp_kept {P : State → Prop} (hC : Closed P) {s : State} (t : Thr) (fm : AluForm) (f : Thread → Nat → Word → Word → Thread)  (hP : P s) :
    P (State.aluOp s t fm f) := by
  unfold State.aluOp
  repeat' first
    | with_reducible assumption
    | (intro _)
    | with_reducible apply State.plain_kept hC
    | dsimp only
    | split
    | fail_if_no_progress (with_reducible refine hC.mk_kept rfl ?_)
    | rfl

theorem State.rOp_kept {P : State → Prop} (hC : Closed P) {s : State} (t : Thr) (rd : BitVec 5) (ra : BitVec 5) (rb : BitVec 5) (f : Thread → Nat → Word → Word → Thread)  (hP : P s) :
    P (State.rOp s t rd ra rb f) := by
  unfold State.rOp
  repeat' first
    | with_reducible assumption
    | (intro _)
    | with_reducible apply State.plain_kept hC
    | dsimp only
    | split
    | fail_if_no_progress (with_reducible refine hC.mk_kept rfl ?_)
    | rfl

theorem State.shiftOp_kept {P : State → Prop} (hC : Closed P) {s : State} (t : Thr) (fm : ShiftForm) (f : Word → Nat → Word)  (hP : P s) :
    P (State.shiftOp s t fm f) := by
  unfold State.shiftOp
  repeat' first
    | with_reducible assumption
    | (intro _)
    | with_reducible apply State.plain_kept hC
    | dsimp only
    | split
    | fail_if_no_progress (with_reducible refine hC.mk_kept rfl ?_)
    | rfl

theorem State.immOp_kept {P : State → Prop} (hC : Closed P) {s : State} (t : Thr) (rd : BitVec 5) (ra : BitVec 5) (imm : BitVec 16) (f : Thread → Nat → Word → Word → Thread)  (hP : P s) :
    P (State.immOp s t rd ra imm f) := by
  unfold State.immOp
  repeat' first
    | with_reducible assumption
    | (intro _)
    | with_reducible apply State.plain_kept hC
    | dsimp only
    | split
    | fail_if_no_progress (with_reducible refine hC.mk_kept rfl ?_)
    | rfl

theorem execMv_kept {P : State → Prop} (hC : Closed P) (t : Thr) (rd : BitVec 4) (rs : BitVec 4) {s : State}  (hP : P s) :
    Res.Keeps P (execMv t rd rs s) := by
  unfold execMv
  repeat' first
    | with_reducible assumption
    | (intro _)
    | with_reducible apply Res.keeps_next
    | with_reducible apply State.plain_kept hC
    | dsimp only
    | split
    | fail_if_no_progress (with_reducible refine hC.mk_kept rfl ?_)
    | rfl

theorem execAdd_kept {P : State → Prop} (hC : Closed P) (t : Thr) (f : AluForm) {s : State}  (hP : P s) :
    Res.Keeps P (execAdd t f s) := by
  unfold execAdd
  repeat' first
    | with_reducible assumption
    | (intro _)
    | with_reducible apply Res.keeps_next
    | with_reducible apply State.aluOp_kept hC
    | dsimp only
    | split
    | fail_if_no_progress (with_reducible refine hC.mk_kept rfl ?_)
    | rfl

theorem execSub_kept {P : State → Prop} (hC : Closed P) (t : Thr) (f : AluForm) {s : State}  (hP : P s) :
    Res.Keeps P (execSub t f s) := by
  unfold execSub
  repeat' first
    | with_reducible assumption
    | (intro _)
    | with_reducible apply Res.keeps_next
    | with_reducible apply State.aluOp_kept hC
    | dsimp only
    | split
    | fail_if_no_progress (with_reducible refine hC.mk_kept rfl ?_)
    | rfl

theorem execAnd_kept {P : State → Prop} (hC : Closed P) (t : Thr) (f : AluForm) {s : State}  (hP : P s) :
    Res.Keeps P (execAnd t f s) := by
  unfold execAnd
  repeat' first
    | with_reducible assumption
    | (intro _)
    | with_reducible apply Res.keeps_next
    | with_reducible apply State.aluOp_kept hC
    | dsimp only
    | split
    | fail_if_no_progress (with_reducible refine hC.mk_kept rfl ?_)
    | rfl

theorem execOr_kept {P : State → Prop} (hC : Closed P) (t : Thr) (f : AluForm) {s : State}  (hP : P s) :
    Res.Keeps P (execOr t f s) := by
  unfold execOr
  repeat' first
    | with_reducible assumption
    | (intro _)
    | with_reducible apply Res.keeps_next
    | with_reducible apply State.aluOp_kept hC
    | dsimp only
    | split
    | fail_if_no_progress (with_reducible refine hC.mk_kept rfl ?_)
    | rfl

theorem execXor_kept {P : State → Prop} (hC : Closed P) (t : Thr) (f : AluForm) {s : State}  (hP : P s) :
    Res.Keeps P (execXor t f s) := by
  unfold execXor
  repeat' first
    | with_reducible assumption
    | (intro _)
    | with_reducible apply Res.keeps_next
    | with_reducible apply State.aluOp_kept hC
    | dsimp only
    | split
    | fail_if_no_progress (with_reducible refine hC.mk_kept rfl ?_)
    | rfl

theorem execSll_kept {P : State → Prop} (hC : Closed P) (t : Thr) (f : AluForm) {s : State}  (hP : P s) :
    Res.Keeps P (execSll t f s) := by
  unfold execSll
  repeat' first
    | with_reducible assumption
    | (intro _)
    | with_reducible apply Res.keeps_next
    | with_reducible apply State.aluOp_kept hC
    | dsimp only
    | split
    | fail_if_no_progress (with_reducible refine hC.mk_kept rfl ?_)
    | rfl

theorem execSrl_kept {P : State → Prop} (hC : Closed P) (t : Thr) (f : AluForm) {s : State}  (hP : P s) :
    Res.Keeps P (execSrl t f s) := by
  unfold execSrl
  repeat' first
    | with_reducible assumption
    | (intro _)
    | with_reducible apply Res.keeps_next
    | with_reducible apply State.aluOp_kept hC
    | dsimp only
    | split
    | fail_if_no_progress (with_reducible refine hC.mk_kept rfl ?_)
    | rfl

theorem execSra_kept {P : State → Prop} (hC : Closed P) (t : Thr) (f : AluForm) {s : State}  (hP : P s) :
    Res.Keeps P (execSra t f s) := by
  unfold execSra
  repeat' first
    | with_reducible assumption
    | (intro _)
    | with_reducible apply Res.keeps_next
    | with_reducible apply State.aluOp_kept hC
    | dsimp only
    | split
    | fail_if_no_progress (with_reducible refine hC.mk_kept rfl ?_)
    | rfl

theorem execCmp_kept {P : State → Prop} (hC : Closed P) (t : Thr) (rd : BitVec 4) (rs : BitVec 4) {s : State}  (hP : P s) :
    Res.Keeps P (execCmp t rd rs s) := by
  unfold execCmp
  repeat' first
    | with_reducible assumption
    | (intro _)
    | with_reducible apply Res.keeps_next
    | with_reducible apply State.plain_kept hC
    | dsimp only
    | split
    | fail_if_no_progress (with_reducible refine hC.mk_kept rfl ?_)
    | rfl

theorem execNeg_kept {P : State → Prop} (hC : Closed P) (t : Thr) (rd : BitVec 4) (rs : BitVec 4) {s : State}  (hP : P s) :
    Res.Keeps P (execNeg t rd rs s) := by
  unfold execNeg
  repeat' first
    | with_reducible assumption
    | (intro _)
    | with_reducible apply Res.keeps_next
    | with_reducible apply State.plain_kept hC
    | dsimp only
    | split
    | fail_if_no_progress (with_reducible refine hC.mk_kept rfl ?_)
    | rfl

theorem execNot_kept {P : State → Prop} (hC : Closed P) (t : Thr) (rd : BitVec 4) (rs : BitVec 4) {s : State}  (hP : P s) :
    Res.Keeps P (execNot t rd rs s) := by
  unfold execNot
  repeat' first
    | with_reducible assumption
    | (intro _)
    | with_reducible apply Res.keeps_next
    | with_reducible apply State.plain_kept hC
    | dsimp only
    | split
    | fail_if_no_progress (with_reducible refine hC.mk_kept rfl ?_)
    | rfl

theorem execBswap_kept {P : State → Prop} (hC : Closed P) (t : Thr) (f : UnaryForm) {s : State}  (hP : P s) :
    Res.Keeps P (execBswap t f s) := by
  unfold execBswap
  repeat' first
    | with_reducible assumption
    | (intro _)
    | with_reducible apply Res.keeps_next
    | with_reducible apply State.plain_kept hC
    | dsimp only
    | split
    | fail_if_no_progress (with_reducible refine hC.mk_kept rfl ?_)
    | rfl

theorem execAddi_kept {P : State → Prop} (hC : Closed P) (t : Thr) (f : AddiForm) {s : State}  (hP : P s) :
    Res.Keeps P (execAddi t f s) := by
  unfold execAddi
  repeat' first
    | with_reducible assumption
    | (intro _)
    | with_reducible apply Res.keeps_next
    | with_reducible apply State.plain_kept hC
    | dsimp only
    | split
    | fail_if_no_progress (with_reducible refine hC.mk_kept rfl ?_)
    | rfl

theorem execLi_kept {P : State → Prop} (hC : Closed P) (t : Thr) (rd : BitVec 4) (simm : BitVec 8) {s : State}  (hP : P s) :
    Res.Keeps P (execLi t rd simm s) := by
  unfold execLi
  repeat' first
    | with_reducible assumption
    | (intro _)
    | with_reducible apply Res.keeps_next
    | with_reducible apply State.plain_kept hC
    | dsimp only
    | split
    | fail_if_no_progress (with_reducible refine hC.mk_kept rfl ?_)
    | rfl

theorem execSlli_kept {P : State → Prop} (hC : Closed P) (t : Thr) (f : ShiftForm) {s : State}  (hP : P s) :
    Res.Keeps P (execSlli t f s) := by
  unfold execSlli
  repeat' first
    | with_reducible assumption
    | (intro _)
    | with_reducible apply Res.keeps_next
    | with_reducible apply State.shiftOp_kept hC
    | dsimp only
    | split
    | fail_if_no_progress (with_reducible refine hC.mk_kept rfl ?_)
    | rfl

theorem execSrli_kept {P : State → Prop} (hC : Closed P) (t : Thr) (f : ShiftForm) {s : State}  (hP : P s) :
    Res.Keeps P (execSrli t f s) := by
  unfold execSrli
  repeat' first
    | with_reducible assumption
    | (intro _)
    | with_reducible apply Res.keeps_next
    | with_reducible apply State.shiftOp_kept hC
    | dsimp only
    | split
    | fail_if_no_progress (with_reducible refine hC.mk_kept rfl ?_)
    | rfl

theorem execSrai_kept {P : State → Prop} (hC : Closed P) (t : Thr) (f : ShiftForm) {s : State}  (hP : P s) :
    Res.Keeps P (execSrai t f s) := by
  unfold execSrai
  repeat' first
    | with_reducible assumption
    | (intro _)
    | with_reducible apply Res.keeps_next
    | with_reducible apply State.shiftOp_kept hC
    | dsimp only
    | split
    | fail_if_no_progress (with_reducible refine hC.mk_kept rfl ?_)
    | rfl

theorem execCmpi_kept {P : State → Prop} (hC : Closed P) (t : Thr) (rs : BitVec 4) (simm : BitVec 8) {s : State}  (hP : P s) :
    Res.Keeps P (execCmpi t rs simm s) := by
  unfold execCmpi
  repeat' first
    | with_reducible assumption
    | (intro _)
    | with_reducible apply Res.keeps_next
    | with_reducible apply State.plain_kept hC
    | dsimp only
    | split
    | fail_if_no_progress (with_reducible refine hC.mk_kept rfl ?_)
    | rfl

theorem execMul_kept {P : State → Prop} (hC : Closed P) (t : Thr) (rd : BitVec 5) (ra : BitVec 5) (rb : BitVec 5) {s : State}  (hP : P s) :
    Res.Keeps P (execMul t rd ra rb s) := by
  unfold execMul
  repeat' first
    | with_reducible assumption
    | (intro _)
    | with_reducible apply Res.keeps_next
    | with_reducible apply State.rOp_kept hC
    | dsimp only
    | split
    | fail_if_no_progress (with_reducible refine hC.mk_kept rfl ?_)
    | rfl

theorem execMulhs_kept {P : State → Prop} (hC : Closed P) (t : Thr) (rd : BitVec 5) (ra : BitVec 5) (rb : BitVec 5) {s : State}  (hP : P s) :
    Res.Keeps P (execMulhs t rd ra rb s) := by
  unfold execMulhs
  repeat' first
    | with_reducible assumption
    | (intro _)
    | with_reducible apply Res.keeps_next
    | with_reducible apply State.rOp_kept hC
    | dsimp only
    | split
    | fail_if_no_progress (with_reducible refine hC.mk_kept rfl ?_)
    | rfl

theorem execMulhu_kept {P : State → Prop} (hC : Closed P) (t : Thr) (rd : BitVec 5) (ra : BitVec 5) (rb : BitVec 5) {s : State}  (hP : P s) :
    Res.Keeps P (execMulhu t rd ra rb s) := by
  unfold execMulhu
  repeat' first
    | with_reducible assumption
    | (intro _)
    | with_reducible apply Res.keeps_next
    | with_reducible apply State.rOp_kept hC
    | dsimp only
    | split
    | fail_if_no_progress (with_reducible refine hC.mk_kept rfl ?_)
    | rfl

theorem execMin_kept {P : State → Prop} (hC : Closed P) (t : Thr) (rd : BitVec 5) (ra : BitVec 5) (rb : BitVec 5) {s : State}  (hP : P s) :
    Res.Keeps P (execMin t rd ra rb s) := by
  unfold execMin
  repeat' first
    | with_reducible assumption
    | (intro _)
    | with_reducible apply Res.keeps_next
    | with_reducible apply State.rOp_kept hC
    | with_reducible apply ite_kept
    | dsimp only
    | split
    | fail_if_no_progress (with_reducible refine hC.mk_kept rfl ?_)
    | rfl

theorem execMax_kept {P : State → Prop} (hC : Closed P) (t : Thr) (rd : BitVec 5) (ra : BitVec 5) (rb : BitVec 5) {s : State}  (hP : P s) :
    Res.Keeps P (execMax t rd ra rb s) := by
  unfold execMax
  repeat' first
    | with_reducible assumption
    | (intro _)
    | with_reducible apply Res.keeps_next
    | with_reducible apply State.rOp_kept hC
    | with_reducible apply ite_kept
    | dsimp only
    | split
    | fail_if_no_progress (with_reducible refine hC.mk_kept rfl ?_)
    | rfl

theorem execMinu_kept {P : State → Prop} (hC : Closed P) (t : Thr) (rd : BitVec 5) (ra : BitVec 5) (rb : BitVec 5) {s : State}  (hP : P s) :
    Res.Keeps P (execMinu t rd ra rb s) := by
  unfold execMinu
  repeat' first
    | with_reducible assumption
    | (intro _)
    | with_reducible apply Res.keeps_next
    | with_reducible apply State.rOp_kept hC
    | with_reducible apply ite_kept
    | dsimp only
    | split
    | fail_if_no_progress (with_reducible refine hC.mk_kept rfl ?_)
    | rfl

theorem execMaxu_kept {P : State → Prop} (hC : Closed P) (t : Thr) (rd : BitVec 5) (ra : BitVec 5) (rb : BitVec 5) {s : State}  (hP : P s) :
    Res.Keeps P (execMaxu t rd ra rb s) := by
  unfold execMaxu
  repeat' first
    | with_reducible assumption
    | (intro _)
    | with_reducible apply Res.keeps_next
    | with_reducible apply State.rOp_kept hC
    | with_reducible apply ite_kept
    | dsimp only
    | split
    | fail_if_no_progress (with_reducible refine hC.mk_kept rfl ?_)
    | rfl

theorem execAddc_kept {P : State → Prop} (hC : Closed P) (t : Thr) (rd : BitVec 5) (ra : BitVec 5) (rb : BitVec 5) {s : State}  (hP : P s) :
    Res.Keeps P (execAddc t rd ra rb s) := by
  unfold execAddc
  repeat' first
    | with_reducible assumption
    | (intro _)
    | with_reducible apply Res.keeps_next
    | with_reducible apply State.rOp_kept hC
    | dsimp only
    | split
    | fail_if_no_progress (with_reducible refine hC.mk_kept rfl ?_)
    | rfl

theorem execSubc_kept {P : State → Prop} (hC : Closed P) (t : Thr) (rd : BitVec 5) (ra : BitVec 5) (rb : BitVec 5) {s : State}  (hP : P s) :
    Res.Keeps P (execSubc t rd ra rb s) := by
  unfold execSubc
  repeat' first
    | with_reducible assumption
    | (intro _)
    | with_reducible apply Res.keeps_next
    | with_reducible apply State.rOp_kept hC
    | dsimp only
    | split
    | fail_if_no_progress (with_reducible refine hC.mk_kept rfl ?_)
    | rfl

theorem execClz_kept {P : State → Prop} (hC : Closed P) (t : Thr) (rd : BitVec 5) (ra : BitVec 5) {s : State}  (hP : P s) :
    Res.Keeps P (execClz t rd ra s) := by
  unfold execClz
  repeat' first
    | with_reducible assumption
    | (intro _)
    | with_reducible apply Res.keeps_next
    | with_reducible apply State.rOp_kept hC
    | dsimp only
    | split
    | fail_if_no_progress (with_reducible refine hC.mk_kept rfl ?_)
    | rfl

theorem execPopc_kept {P : State → Prop} (hC : Closed P) (t : Thr) (rd : BitVec 5) (ra : BitVec 5) {s : State}  (hP : P s) :
    Res.Keeps P (execPopc t rd ra s) := by
  unfold execPopc
  repeat' first
    | with_reducible assumption
    | (intro _)
    | with_reducible apply Res.keeps_next
    | with_reducible apply State.rOp_kept hC
    | dsimp only
    | split
    | fail_if_no_progress (with_reducible refine hC.mk_kept rfl ?_)
    | rfl

theorem execExtu_kept {P : State → Prop} (hC : Closed P) (t : Thr) (rd : BitVec 5) (ra : BitVec 5) (rb : BitVec 5) {s : State}  (hP : P s) :
    Res.Keeps P (execExtu t rd ra rb s) := by
  unfold execExtu
  repeat' first
    | with_reducible assumption
    | (intro _)
    | with_reducible apply Res.keeps_next
    | with_reducible apply State.rOp_kept hC
    | dsimp only
    | split
    | fail_if_no_progress (with_reducible refine hC.mk_kept rfl ?_)
    | rfl

theorem execAndi_kept {P : State → Prop} (hC : Closed P) (t : Thr) (rd : BitVec 5) (ra : BitVec 5) (imm : BitVec 16) {s : State}  (hP : P s) :
    Res.Keeps P (execAndi t rd ra imm s) := by
  unfold execAndi
  repeat' first
    | with_reducible assumption
    | (intro _)
    | with_reducible apply Res.keeps_next
    | with_reducible apply State.immOp_kept hC
    | dsimp only
    | split
    | fail_if_no_progress (with_reducible refine hC.mk_kept rfl ?_)
    | rfl

theorem execOri_kept {P : State → Prop} (hC : Closed P) (t : Thr) (rd : BitVec 5) (ra : BitVec 5) (imm : BitVec 16) {s : State}  (hP : P s) :
    Res.Keeps P (execOri t rd ra imm s) := by
  unfold execOri
  repeat' first
    | with_reducible assumption
    | (intro _)
    | with_reducible apply Res.keeps_next
    | with_reducible apply State.immOp_kept hC
    | dsimp only
    | split
    | fail_if_no_progress (with_reducible refine hC.mk_kept rfl ?_)
    | rfl

theorem execLui_kept {P : State → Prop} (hC : Closed P) (t : Thr) (rd : BitVec 5) (imm : BitVec 16) {s : State}  (hP : P s) :
    Res.Keeps P (execLui t rd imm s) := by
  unfold execLui
  repeat' first
    | with_reducible assumption
    | (intro _)
    | with_reducible apply Res.keeps_next
    | with_reducible apply State.immOp_kept hC
    | dsimp only
    | split
    | fail_if_no_progress (with_reducible refine hC.mk_kept rfl ?_)
    | rfl

theorem execMacl_kept {P : State → Prop} (hC : Closed P) (t : Thr) (ad : BitVec 2) (ra : BitVec 5) (rb : BitVec 5) {s : State}  (hP : P s) :
    Res.Keeps P (execMacl t ad ra rb s) := by
  unfold execMacl
  repeat' first
    | with_reducible assumption
    | (intro _)
    | with_reducible apply Res.keeps_next
    | with_reducible apply State.rOp_kept hC
    | dsimp only
    | split
    | fail_if_no_progress (with_reducible refine hC.mk_kept rfl ?_)
    | rfl

theorem execMsul_kept {P : State → Prop} (hC : Closed P) (t : Thr) (ad : BitVec 2) (ra : BitVec 5) (rb : BitVec 5) {s : State}  (hP : P s) :
    Res.Keeps P (execMsul t ad ra rb s) := by
  unfold execMsul
  repeat' first
    | with_reducible assumption
    | (intro _)
    | with_reducible apply Res.keeps_next
    | with_reducible apply State.rOp_kept hC
    | dsimp only
    | split
    | fail_if_no_progress (with_reducible refine hC.mk_kept rfl ?_)
    | rfl

theorem execMpyl_kept {P : State → Prop} (hC : Closed P) (t : Thr) (ad : BitVec 2) (ra : BitVec 5) (rb : BitVec 5) {s : State}  (hP : P s) :
    Res.Keeps P (execMpyl t ad ra rb s) := by
  unfold execMpyl
  repeat' first
    | with_reducible assumption
    | (intro _)
    | with_reducible apply Res.keeps_next
    | with_reducible apply State.rOp_kept hC
    | dsimp only
    | split
    | fail_if_no_progress (with_reducible refine hC.mk_kept rfl ?_)
    | rfl

theorem execMacp_kept {P : State → Prop} (hC : Closed P) (t : Thr) (ad : BitVec 2) (ra : BitVec 5) (rb : BitVec 5) {s : State}  (hP : P s) :
    Res.Keeps P (execMacp t ad ra rb s) := by
  unfold execMacp
  repeat' first
    | with_reducible assumption
    | (intro _)
    | with_reducible apply Res.keeps_next
    | with_reducible apply State.rOp_kept hC
    | dsimp only
    | split
    | fail_if_no_progress (with_reducible refine hC.mk_kept rfl ?_)
    | rfl

theorem execMsup_kept {P : State → Prop} (hC : Closed P) (t : Thr) (ad : BitVec 2) (ra : BitVec 5) (rb : BitVec 5) {s : State}  (hP : P s) :
    Res.Keeps P (execMsup t ad ra rb s) := by
  unfold execMsup
  repeat' first
    | with_reducible assumption
    | (intro _)
    | with_reducible apply Res.keeps_next
    | with_reducible apply State.rOp_kept hC
    | dsimp only
    | split
    | fail_if_no_progress (with_reducible refine hC.mk_kept rfl ?_)
    | rfl

theorem execExt_kept {P : State → Prop} (hC : Closed P) (t : Thr) (rd : BitVec 5) (an : BitVec 2) (sh : BitVec 5) {s : State}  (hP : P s) :
    Res.Keeps P (execExt t rd an sh s) := by
  unfold execExt
  repeat' first
    | with_reducible assumption
    | (intro _)
    | with_reducible apply Res.keeps_next
    | with_reducible apply State.issue_kept hC
    | with_reducible apply State.raiseExc_kept hC
    | with_reducible apply State.updThr_kept hC
    | with_reducible apply ite_kept
    | dsimp only
    | split
    | fail_if_no_progress (with_reducible refine hC.mk_kept rfl ?_)
    | rfl

theorem execAclr_kept {P : State → Prop} (hC : Closed P) (t : Thr) (ad : BitVec 2) {s : State}  (hP : P s) :
    Res.Keeps P (execAclr t ad s) := by
  unfold execAclr
  repeat' first
    | with_reducible assumption
    | (intro _)
    | with_reducible apply Res.keeps_next
    | with_reducible apply State.plain_kept hC
    | dsimp only
    | split
    | fail_if_no_progress (with_reducible refine hC.mk_kept rfl ?_)
    | rfl

theorem execAmov_kept {P : State → Prop} (hC : Closed P) (t : Thr) (ad : BitVec 2) (ra : BitVec 5) {s : State}  (hP : P s) :
    Res.Keeps P (execAmov t ad ra s) := by
  unfold execAmov
  repeat' first
    | with_reducible assumption
    | (intro _)
    | with_reducible apply Res.keeps_next
    | with_reducible apply State.plain_kept hC
    | dsimp only
    | split
    | fail_if_no_progress (with_reducible refine hC.mk_kept rfl ?_)
    | rfl

theorem execAadd_kept {P : State → Prop} (hC : Closed P) (t : Thr) (ad : BitVec 2) (an : BitVec 2) {s : State}  (hP : P s) :
    Res.Keeps P (execAadd t ad an s) := by
  unfold execAadd
  repeat' first
    | with_reducible assumption
    | (intro _)
    | with_reducible apply Res.keeps_next
    | with_reducible apply State.plain_kept hC
    | dsimp only
    | split
    | fail_if_no_progress (with_reducible refine hC.mk_kept rfl ?_)
    | rfl

theorem execFadd_kept {P : State → Prop} (hC : Closed P) (t : Thr) (rd : BitVec 5) (ra : BitVec 5) (rb : BitVec 5) {s : State}  (hP : P s) :
    Res.Keeps P (execFadd t rd ra rb s) := by
  unfold execFadd
  repeat' first
    | with_reducible assumption
    | (intro _)
    | with_reducible apply Res.keeps_next
    | with_reducible apply State.rOp_kept hC
    | dsimp only
    | split
    | fail_if_no_progress (with_reducible refine hC.mk_kept rfl ?_)
    | rfl

theorem execFsub_kept {P : State → Prop} (hC : Closed P) (t : Thr) (rd : BitVec 5) (ra : BitVec 5) (rb : BitVec 5) {s : State}  (hP : P s) :
    Res.Keeps P (execFsub t rd ra rb s) := by
  unfold execFsub
  repeat' first
    | with_reducible assumption
    | (intro _)
    | with_reducible apply Res.keeps_next
    | with_reducible apply State.rOp_kept hC
    | dsimp only
    | split
    | fail_if_no_progress (with_reducible refine hC.mk_kept rfl ?_)
    | rfl

theorem execPadd_kept {P : State → Prop} (hC : Closed P) (t : Thr) (rd : BitVec 5) (ra : BitVec 5) (rb : BitVec 5) {s : State}  (hP : P s) :
    Res.Keeps P (execPadd t rd ra rb s) := by
  unfold execPadd
  repeat' first
    | with_reducible assumption
    | (intro _)
    | with_reducible apply Res.keeps_next
    | with_reducible apply State.rOp_kept hC
    | dsimp only
    | split
    | fail_if_no_progress (with_reducible refine hC.mk_kept rfl ?_)
    | rfl

theorem execPsub_kept {P : State → Prop} (hC : Closed P) (t : Thr) (rd : BitVec 5) (ra : BitVec 5) (rb : BitVec 5) {s : State}  (hP : P s) :
    Res.Keeps P (execPsub t rd ra rb s) := by
  unfold execPsub
  repeat' first
    | with_reducible assumption
    | (intro _)
    | with_reducible apply Res.keeps_next
    | with_reducible apply State.rOp_kept hC
    | dsimp only
    | split
    | fail_if_no_progress (with_reducible refine hC.mk_kept rfl ?_)
    | rfl

theorem execFsra_kept {P : State → Prop} (hC : Closed P) (t : Thr) (rd : BitVec 5) (ra : BitVec 5) (rb : BitVec 5) {s : State}  (hP : P s) :
    Res.Keeps P (execFsra t rd ra rb s) := by
  unfold execFsra
  repeat' first
    | with_reducible assumption
    | (intro _)
    | with_reducible apply Res.keeps_next
    | with_reducible apply State.rOp_kept hC
    | dsimp only
    | split
    | fail_if_no_progress (with_reducible refine hC.mk_kept rfl ?_)
    | rfl

theorem State.branch_kept {P : State → Prop} (hC : Closed P) {s : State} (k : Nat) (n : Nat) (off : Word) (cond : Thread → Bool)  (hP : P s) :
    P (State.branch s k n off cond) := by
  unfold State.branch
  repeat' first
    | with_reducible assumption
    | (intro _)
    | with_reducible apply State.issue_kept hC
    | with_reducible apply State.updThr_kept hC
    | with_reducible apply ite_kept
    | dsimp only
    | split
    | fail_if_no_progress (with_reducible refine hC.mk_kept rfl ?_)
    | rfl

theorem execB_kept {P : State → Prop} (hC : Closed P) (t : Thr) (off : BitVec 12) {s : State}  (hP : P s) :
    Res.Keeps P (execB t off s) := by
  unfold execB
  repeat' first
    | with_reducible assumption
    | (intro _)
    | with_reducible apply Res.keeps_next
    | with_reducible apply State.branch_kept hC
    | dsimp only
    | split
    | fail_if_no_progress (with_reducible refine hC.mk_kept rfl ?_)
    | rfl

theorem execBcond_kept {P : State → Prop} (hC : Closed P) (t : Thr) (f : BccForm) {s : State}  (hP : P s) :
    Res.Keeps P (execBcond t f s) := by
  unfold execBcond
  repeat' first
    | with_reducible assumption
    | (intro _)
    | with_reducible apply Res.keeps_next
    | with_reducible apply State.branch_kept hC
    | dsimp only
    | split
    | fail_if_no_progress (with_reducible refine hC.mk_kept rfl ?_)
    | rfl

theorem execBz_kept {P : State → Prop} (hC : Closed P) (t : Thr) (f : BzForm) {s : State}  (hP : P s) :
    Res.Keeps P (execBz t f s) := by
  unfold execBz
  repeat' first
    | with_reducible assumption
    | (intro _)
    | with_reducible apply Res.keeps_next
    | with_reducible apply State.branch_kept hC
    | dsimp only
    | split
    | fail_if_no_progress (with_reducible refine hC.mk_kept rfl ?_)
    | rfl

theorem execBnz_kept {P : State → Prop} (hC : Closed P) (t : Thr) (f : BzForm) {s : State}  (hP : P s) :
    Res.Keeps P (execBnz t f s) := by
  unfold execBnz
  repeat' first
    | with_reducible assumption
    | (intro _)
    | with_reducible apply Res.keeps_next
    | with_reducible apply State.branch_kept hC
    | dsimp only
    | split
    | fail_if_no_progress (with_reducible refine hC.mk_kept rfl ?_)
    | rfl

theorem execJ_kept {P : State → Prop} (hC : Closed P) (t : Thr) (off : BitVec 26) {s : State}  (hP : P s) :
    Res.Keeps P (execJ t off s) := by
  unfold execJ
  repeat' first
    | with_reducible assumption
    | (intro _)
    | with_reducible apply Res.keeps_next
    | with_reducible apply State.branch_kept hC
    | dsimp only
    | split
    | fail_if_no_progress (with_reducible refine hC.mk_kept rfl ?_)
    | rfl

theorem execJr_kept {P : State → Prop} (hC : Closed P) (t : Thr) (rs : BitVec 4) {s : State}  (hP : P s) :
    Res.Keeps P (execJr t rs s) := by
  unfold execJr
  repeat' first
    | with_reducible assumption
    | (intro _)
    | with_reducible apply Res.keeps_next
    | with_reducible apply State.issue_kept hC
    | with_reducible apply State.updThr_kept hC
    | dsimp only
    | split
    | fail_if_no_progress (with_reducible refine hC.mk_kept rfl ?_)
    | rfl

end Sys2Proof.Machine
end

