-- ==== Sys2Proof/Laws/KeptIsaThread.lean ====
section
/-! SUPPORT. The definitions of Machine/IsaThread.lean keep every property that `Closed` describes. -/

namespace Sys2Proof.Machine

theorem execInstructionFetch_kept {P : State → Prop} (hC : Closed P) (t : Thr) (k : Fin 4) {s : State}  (hP : P s) :
    Res.Keeps P (execInstructionFetch t k s) := by
  unfold execInstructionFetch
  repeat' first
    | with_reducible assumption
    | (intro _)
    | with_reducible apply Res.keeps_next
    | with_reducible apply State.memRead_kept hC
    | with_reducible apply State.fault_kept hC
    | with_reducible apply ite_kept
    | (with_reducible refine pair_snd_kept (by with_reducible assumption) ?_)
    | (with_reducible refine pair_fst_kept (by with_reducible assumption) ?_)
    | (with_reducible refine trip_kept (by with_reducible assumption) ?_)
    | dsimp only
    | split
    | fail_if_no_progress (with_reducible refine hC.mk_kept rfl ?_)
    | rfl

theorem execFetchFault_kept {P : State → Prop} (hC : Closed P) (t : Thr) {s : State}  (hP : P s) :
    Res.Keeps P (execFetchFault t s) := by
  unfold execFetchFault
  repeat' first
    | with_reducible assumption
    | (intro _)
    | with_reducible apply Res.keeps_next
    | with_reducible apply State.raiseExc_kept hC
    | with_reducible apply ite_kept
    | dsimp only
    | split
    | fail_if_no_progress (with_reducible refine hC.mk_kept rfl ?_)
    | rfl

theorem State.raiseHalf_kept {P : State → Prop} (hC : Closed P) {s : State} (k : Nat) (cause : Nat) (h0 : Word) (pc : Word)  (hP : P s) :
    P (State.raiseHalf s k cause h0 pc) := by
  unfold State.raiseHalf
  repeat' first
    | with_reducible assumption
    | (intro _)
    | with_reducible apply State.raiseExc_kept hC
    | dsimp only
    | split
    | fail_if_no_progress (with_reducible refine hC.mk_kept rfl ?_)
    | rfl

theorem execIllegalEncoding_kept {P : State → Prop} (hC : Closed P) (t : Thr) (w : Word) {s : State}  (hP : P s) :
    Res.Keeps P (execIllegalEncoding t w s) := by
  unfold execIllegalEncoding
  repeat' first
    | with_reducible assumption
    | (intro _)
    | with_reducible apply Res.keeps_next
    | with_reducible apply State.issue_kept hC
    | with_reducible apply State.raiseHalf_kept hC
    | with_reducible apply ite_kept
    | dsimp only
    | split
    | fail_if_no_progress (with_reducible refine hC.mk_kept rfl ?_)
    | rfl

theorem State.startChild_kept {P : State → Prop} (hC : Closed P) {s : State} (k : Nat) (c : Nat) (borrowed : Bool) (pc : Word) (g1 : Word)  (hP : P s) :
    P (State.startChild s k c borrowed pc g1) := by
  unfold State.startChild
  repeat' first
    | with_reducible assumption
    | (intro _)
    | with_reducible apply State.updThr_kept hC
    | with_reducible apply ite_kept
    | dsimp only
    | split
    | fail_if_no_progress (with_reducible refine hC.mk_kept rfl ?_)
    | rfl

theorem execFork_kept {P : State → Prop} (hC : Closed P) (t : Thr) (rd : BitVec 5) (ra : BitVec 5) (rb : BitVec 5) {s : State}  (hP : P s) :
    Res.Keeps P (execFork t rd ra rb s) := by
  unfold execFork
  repeat' first
    | with_reducible assumption
    | (intro _)
    | with_reducible apply Res.keeps_next
    | with_reducible apply State.issue_kept hC
    | with_reducible apply State.updThr_kept hC
    | with_reducible apply State.satAdd_kept hC
    | with_reducible apply State.startChild_kept hC
    | with_reducible apply ite_kept
    | dsimp only
    | split
    | fail_if_no_progress (with_reducible refine hC.mk_kept rfl ?_)
    | rfl

theorem execJoin_kept {P : State → Prop} (hC : Closed P) (t : Thr) (ra : BitVec 5) {s : State}  (hP : P s) :
    Res.Keeps P (execJoin t ra s) := by
  unfold execJoin
  repeat' first
    | with_reducible assumption
    | (intro _)
    | with_reducible apply Res.keeps_next
    | with_reducible apply State.issue_kept hC
    | with_reducible apply State.updThr_kept hC
    | with_reducible apply Ans.join_kept hC
    | with_reducible apply ite_kept
    | dsimp only
    | split
    | fail_if_no_progress (with_reducible refine hC.mk_kept rfl ?_)
    | rfl

theorem State.wakeThr_kept {P : State → Prop} (hC : Closed P) {s : State} (k : Nat)  (hP : P s) :
    P (State.wakeThr s k) := by
  unfold State.wakeThr
  repeat' first
    | with_reducible assumption
    | (intro _)
    | with_reducible apply State.updThr_kept hC
    | dsimp only
    | split
    | fail_if_no_progress (with_reducible refine hC.mk_kept rfl ?_)
    | rfl

theorem execJoinComplete_kept {P : State → Prop} (hC : Closed P) (t : Thr) {s : State}  (hP : P s) :
    Res.Keeps P (execJoinComplete t s) := by
  unfold execJoinComplete
  repeat' first
    | with_reducible assumption
    | (intro _)
    | with_reducible apply Res.keeps_next
    | with_reducible apply Ans.join_kept hC
    | with_reducible apply State.updThr_kept hC
    | with_reducible apply State.wakeThr_kept hC
    | with_reducible apply ite_kept
    | dsimp only
    | split
    | fail_if_no_progress (with_reducible refine hC.mk_kept rfl ?_)
    | rfl

theorem execQuit_kept {P : State → Prop} (hC : Closed P) (t : Thr) (f : Wd) {s : State}  (hP : P s) :
    Res.Keeps P (execQuit t f s) := by
  unfold execQuit
  repeat' first
    | with_reducible assumption
    | (intro _)
    | with_reducible apply Res.keeps_next
    | with_reducible apply State.issue_kept hC
    | with_reducible apply State.raiseHalf_kept hC
    | with_reducible apply State.endThread_kept hC
    | with_reducible apply ite_kept
    | dsimp only
    | split
    | fail_if_no_progress (with_reducible refine hC.mk_kept rfl ?_)
    | rfl

theorem execWaitt_kept {P : State → Prop} (hC : Closed P) (t : Thr) (ra : BitVec 5) {s : State}  (hP : P s) :
    Res.Keeps P (execWaitt t ra s) := by
  unfold execWaitt
  repeat' first
    | with_reducible assumption
    | (intro _)
    | with_reducible apply Res.keeps_next
    | with_reducible apply State.issue_kept hC
    | with_reducible apply State.raiseExc_kept hC
    | with_reducible apply State.updThr_kept hC
    | with_reducible apply ite_kept
    | dsimp only
    | split
    | fail_if_no_progress (with_reducible refine hC.mk_kept rfl ?_)
    | rfl

theorem execWaittComplete_kept {P : State → Prop} (hC : Closed P) (t : Thr) {s : State}  (hP : P s) :
    Res.Keeps P (execWaittComplete t s) := by
  unfold execWaittComplete
  repeat' first
    | with_reducible assumption
    | (intro _)
    | with_reducible apply Res.keeps_next
    | with_reducible apply State.wakeThr_kept hC
    | with_reducible apply ite_kept
    | dsimp only
    | split
    | fail_if_no_progress (with_reducible refine hC.mk_kept rfl ?_)
    | rfl

theorem execWaite_kept {P : State → Prop} (hC : Closed P) (t : Thr) (rd : BitVec 5) (ra : BitVec 5) {s : State}  (hP : P s) :
    Res.Keeps P (execWaite t rd ra s) := by
  unfold execWaite
  repeat' first
    | with_reducible assumption
    | (intro _)
    | with_reducible apply Res.keeps_next
    | with_reducible apply State.plain_kept hC
    | with_reducible apply ite_kept
    | dsimp only
    | split
    | fail_if_no_progress (with_reducible refine hC.mk_kept rfl ?_)
    | rfl

theorem execWaiteComplete_kept {P : State → Prop} (hC : Closed P) (t : Thr) {s : State}  (hP : P s) :
    Res.Keeps P (execWaiteComplete t s) := by
  unfold execWaiteComplete
  repeat' first
    | with_reducible assumption
    | (intro _)
    | with_reducible apply Res.keeps_next
    | with_reducible apply State.wakeThr_kept hC
    | with_reducible apply State.updThr_kept hC
    | with_reducible apply ite_kept
    | dsimp only
    | split
    | fail_if_no_progress (with_reducible refine hC.mk_kept rfl ?_)
    | rfl

theorem execTimerCompareMet_kept {P : State → Prop} (hC : Closed P) (t : Thr) {s : State}  (hP : P s) :
    Res.Keeps P (execTimerCompareMet t s) := by
  unfold execTimerCompareMet
  repeat' first
    | with_reducible assumption
    | (intro _)
    | with_reducible apply Res.keeps_next
    | with_reducible apply State.updThr_kept hC
    | with_reducible apply State.post_kept hC
    | with_reducible apply ite_kept
    | dsimp only
    | split
    | fail_if_no_progress (with_reducible refine hC.mk_kept rfl ?_)
    | rfl

theorem execHwait_kept {P : State → Prop} (hC : Closed P) (t : Thr) (rd : BitVec 5) (cn : BitVec 3) {s : State}  (hP : P s) :
    Res.Keeps P (execHwait t rd cn s) := by
  unfold execHwait
  repeat' first
    | with_reducible assumption
    | (intro _)
    | with_reducible apply Res.keeps_next
    | with_reducible apply State.issue_kept hC
    | with_reducible apply State.raiseHalf_kept hC
    | with_reducible apply State.updThr_kept hC
    | with_reducible apply ite_kept
    | dsimp only
    | split
    | fail_if_no_progress (with_reducible refine hC.mk_kept rfl ?_)
    | rfl

theorem execHwaitComplete_kept {P : State → Prop} (hC : Closed P) (t : Thr) {s : State}  (hP : P s) :
    Res.Keeps P (execHwaitComplete t s) := by
  unfold execHwaitComplete
  repeat' first
    | with_reducible assumption
    | (intro _)
    | with_reducible apply Res.keeps_next
    | with_reducible apply State.wakeThr_kept hC
    | with_reducible apply State.updThr_kept hC
    | dsimp only
    | split
    | fail_if_no_progress (with_reducible refine hC.mk_kept rfl ?_)
    | rfl

theorem execHpoll_kept {P : State → Prop} (hC : Closed P) (t : Thr) (rd : BitVec 5) (cn : BitVec 3) {s : State}  (hP : P s) :
    Res.Keeps P (execHpoll t rd cn s) := by
  unfold execHpoll
  repeat' first
    | with_reducible assumption
    | (intro _)
    | with_reducible apply Res.keeps_next
    | with_reducible apply State.issue_kept hC
    | with_reducible apply State.raiseHalf_kept hC
    | with_reducible apply State.updThr_kept hC
    | with_reducible apply ite_kept
    | dsimp only
    | split
    | fail_if_no_progress (with_reducible refine hC.mk_kept rfl ?_)
    | rfl

theorem execMfs_kept {P : State → Prop} (hC : Closed P) (t : Thr) (rd : BitVec 5) (n : Byte) {s : State}  (hP : P s) :
    Res.Keeps P (execMfs t rd n s) := by
  unfold execMfs
  repeat' first
    | with_reducible assumption
    | (intro _)
    | with_reducible apply Res.keeps_next
    | with_reducible apply State.issue_kept hC
    | with_reducible apply State.updThr_kept hC
    | with_reducible apply State.raiseHalf_kept hC
    | with_reducible apply ite_kept
    | dsimp only
    | split
    | fail_if_no_progress (with_reducible refine hC.mk_kept rfl ?_)
    | rfl

theorem execMts_kept {P : State → Prop} (hC : Closed P) (t : Thr) (n : Byte) (ra : BitVec 5) {s : State}  (hP : P s) :
    Res.Keeps P (execMts t n ra s) := by
  unfold execMts
  repeat' first
    | with_reducible assumption
    | (intro _)
    | with_reducible apply Res.keeps_next
    | with_reducible apply State.issue_kept hC
    | with_reducible apply State.raiseHalf_kept hC
    | with_reducible apply State.updThr_kept hC
    | with_reducible apply ite_kept
    | dsimp only
    | split
    | fail_if_no_progress (with_reducible refine hC.mk_kept rfl ?_)
    | rfl

theorem execEret_kept {P : State → Prop} (hC : Closed P) (t : Thr) (f : Wd) {s : State}  (hP : P s) :
    Res.Keeps P (execEret t f s) := by
  unfold execEret
  repeat' first
    | with_reducible assumption
    | (intro _)
    | with_reducible apply Res.keeps_next
    | with_reducible apply State.issue_kept hC
    | with_reducible apply State.raiseHalf_kept hC
    | with_reducible apply State.updThr_kept hC
    | with_reducible apply ite_kept
    | dsimp only
    | split
    | fail_if_no_progress (with_reducible refine hC.mk_kept rfl ?_)
    | rfl

theorem execSysc_kept {P : State → Prop} (hC : Closed P) (t : Thr) (f : Wd) (imm : Byte) {s : State}  (hP : P s) :
    Res.Keeps P (execSysc t f imm s) := by
  unfold execSysc
  repeat' first
    | with_reducible assumption
    | (intro _)
    | with_reducible apply Res.keeps_next
    | with_reducible apply State.issue_kept hC
    | with_reducible apply State.raiseExc_kept hC
    | dsimp only
    | split
    | fail_if_no_progress (with_reducible refine hC.mk_kept rfl ?_)
    | rfl

theorem execBrk_kept {P : State → Prop} (hC : Closed P) (t : Thr) (f : Wd) (imm : Byte) {s : State}  (hP : P s) :
    Res.Keeps P (execBrk t f imm s) := by
  unfold execBrk
  repeat' first
    | with_reducible assumption
    | (intro _)
    | with_reducible apply Res.keeps_next
    | with_reducible apply State.issue_kept hC
    | with_reducible apply State.raiseExc_kept hC
    | dsimp only
    | split
    | fail_if_no_progress (with_reducible refine hC.mk_kept rfl ?_)
    | rfl

theorem execFence_kept {P : State → Prop} (hC : Closed P) (t : Thr) {s : State}  (hP : P s) :
    Res.Keeps P (execFence t s) := by
  unfold execFence
  repeat' first
    | with_reducible assumption
    | (intro _)
    | with_reducible apply Res.keeps_next
    | with_reducible apply State.plain_kept hC
    | dsimp only
    | split
    | fail_if_no_progress (with_reducible refine hC.mk_kept rfl ?_)
    | rfl

theorem State.postMask_kept {P : State → Prop} (hC : Closed P) {s : State} (k : Nat) (mask : Byte)  (hP : P s) :
    P (State.postMask s k mask) := by
  unfold State.postMask
  repeat' first
    | with_reducible assumption
    | (intro _)
    | with_reducible apply State.post_kept hC
    | with_reducible apply foldl_kept
    | with_reducible apply foldl_snd_kept
    | with_reducible apply foldl_fst_kept
    | with_reducible apply ite_kept
    | dsimp only
    | split
    | fail_if_no_progress (with_reducible refine hC.mk_kept rfl ?_)
    | rfl

theorem State.releaseThr_kept {P : State → Prop} (hC : Closed P) {s : State} (k : Nat)  (hP : P s) :
    P (State.releaseThr s k) := by
  unfold State.releaseThr
  repeat' first
    | with_reducible assumption
    | (intro _)
    | with_reducible apply State.endThread_kept hC
    | with_reducible apply ite_kept
    | dsimp only
    | split
    | fail_if_no_progress (with_reducible refine hC.mk_kept rfl ?_)
    | rfl

theorem State.resumeThr_kept {P : State → Prop} (hC : Closed P) {s : State} (k : Nat)  (hP : P s) :
    P (State.resumeThr s k) := by
  unfold State.resumeThr
  repeat' first
    | with_reducible assumption
    | (intro _)
    | with_reducible apply State.updThr_kept hC
    | with_reducible apply ite_kept
    | dsimp only
    | split
    | fail_if_no_progress (with_reducible refine hC.mk_kept rfl ?_)
    | rfl

theorem State.threadCmd_kept {P : State → Prop} (hC : Closed P) {s : State} (k : Nat) (cmd : Nat)  (hP : P s) :
    P (State.threadCmd s k cmd) := by
  unfold State.threadCmd
  repeat' first
    | with_reducible assumption
    | (intro _)
    | with_reducible apply State.releaseThr_kept hC
    | with_reducible apply State.resumeThr_kept hC
    | dsimp only
    | split
    | fail_if_no_progress (with_reducible refine hC.mk_kept rfl ?_)
    | rfl

end Sys2Proof.Machine
end

