-- ==== Sys2Proof/Laws/KeptStore.lean ====
section
/-! SUPPORT. The definitions of Machine/Store.lean keep every property that `Closed` describes. -/

namespace Sys2Proof.Machine

theorem State.nvRead_kept {P : State → Prop} (hC : Closed P) {s : State} (off : Nat) (n : Nat)  (hP : P s) :
    P (((State.nvRead s off n)).2) := by
  unfold State.nvRead
  repeat' first
    | with_reducible assumption
    | (intro _)
    | with_reducible apply State.fault_kept hC
    | with_reducible apply ite_kept
    | with_reducible apply ite_snd_kept
    | with_reducible apply ite_fst_kept
    | dsimp only
    | split
    | fail_if_no_progress (with_reducible refine hC.mk_kept rfl ?_)
    | rfl

theorem State.nvPoke_kept {P : State → Prop} (hC : Closed P) {s : State} (off : Nat) (e0 : Bytes) (hP : P s) :
    P (State.nvPoke s off e0) := by
  induction e0 generalizing s off with
  | nil => exact hP
  | cons b bs ih => exact ih _ (hC.nvPut _ _ hP)

theorem State.nvCheck_kept {P : State → Prop} (hC : Closed P) {s : State} (e0 : Nat) (e1 : Nat) (hP : P s) :
    P (State.nvCheck s e0 e1) := by
  revert hP
  fun_induction State.nvCheck s e0 e1
  all_goals
    intro hP
    repeat' first
      | with_reducible assumption
      | (intro _)
      | with_reducible apply State.inject_kept hC
      | (with_reducible refine pair_snd_kept (by with_reducible assumption) ?_)
      | (with_reducible refine pair_fst_kept (by with_reducible assumption) ?_)
      | (with_reducible refine trip_kept (by with_reducible assumption) ?_)
      | (with_reducible apply_assumption)
      | dsimp only
      | split
      | fail_if_no_progress (with_reducible refine hC.mk_kept rfl ?_)
      | rfl

theorem State.nvMeet_kept {P : State → Prop} (hC : Closed P) {s : State} (off : Nat) (n : Nat)  (hP : P s) :
    P (State.nvMeet s off n) := by
  unfold State.nvMeet
  repeat' first
    | with_reducible assumption
    | (intro _)
    | with_reducible apply State.fault_kept hC
    | with_reducible apply ite_kept
    | dsimp only
    | split
    | fail_if_no_progress (with_reducible refine hC.mk_kept rfl ?_)
    | rfl

theorem State.holdUp_kept {P : State → Prop} (hC : Closed P) {s : State} (code : Nat)  (hP : P s) :
    P (((State.holdUp s code)).2) := by
  unfold State.holdUp
  repeat' first
    | with_reducible assumption
    | (intro _)
    | with_reducible apply hC.setReg
    | with_reducible apply ite_kept
    | with_reducible apply ite_snd_kept
    | with_reducible apply ite_fst_kept
    | dsimp only
    | split
    | fail_if_no_progress (with_reducible refine hC.mk_kept rfl ?_)
    | rfl

theorem State.programPage_kept {P : State → Prop} (hC : Closed P) {s : State} (p : Nat) (bs : Bytes) (mismatch : Bool)  (hP : P s) :
    P (State.programPage s p bs mismatch) := by
  unfold State.programPage
  repeat' first
    | with_reducible assumption
    | (intro _)
    | with_reducible apply State.setFld_kept hC
    | with_reducible apply State.fault_kept hC
    | with_reducible apply State.nvPoke_kept hC
    | with_reducible apply hC.tookFree
    | with_reducible apply State.nvCheck_kept hC
    | with_reducible apply ite_kept
    | dsimp only
    | split
    | fail_if_no_progress (with_reducible refine hC.mk_kept rfl ?_)
    | rfl

theorem State.recMeet_kept {P : State → Prop} (hC : Closed P) {s : State} (k : Nat) (i : Nat)  (hP : P s) :
    P (State.recMeet s k i) := by
  unfold State.recMeet
  repeat' first
    | with_reducible assumption
    | (intro _)
    | with_reducible apply State.nvMeet_kept hC
    | with_reducible apply ite_kept
    | dsimp only
    | split
    | fail_if_no_progress (with_reducible refine hC.mk_kept rfl ?_)
    | rfl

theorem State.reportWinner_kept {P : State → Prop} (hC : Closed P) {s : State} (k : Nat)  (hP : P s) :
    P (State.reportWinner s k) := by
  unfold State.reportWinner
  repeat' first
    | with_reducible assumption
    | (intro _)
    | with_reducible apply State.recMeet_kept hC
    | with_reducible apply State.setFld_kept hC
    | with_reducible apply hC.setReg
    | with_reducible apply ite_kept
    | (with_reducible refine pair_snd_kept (by with_reducible assumption) ?_)
    | (with_reducible refine pair_fst_kept (by with_reducible assumption) ?_)
    | (with_reducible refine trip_kept (by with_reducible assumption) ?_)
    | dsimp only
    | split
    | fail_if_no_progress (with_reducible refine hC.mk_kept rfl ?_)
    | rfl

theorem State.scanFaultStore_kept {P : State → Prop} (hC : Closed P) {s : State}  (hP : P s) :
    P (State.scanFaultStore s) := by
  unfold State.scanFaultStore
  repeat' first
    | with_reducible assumption
    | (intro _)
    | with_reducible apply State.nvMeet_kept hC
    | with_reducible apply State.setFld_kept hC
    | with_reducible apply foldl_kept
    | with_reducible apply foldl_snd_kept
    | with_reducible apply foldl_fst_kept
    | with_reducible apply ite_kept
    | with_reducible apply ite_snd_kept
    | with_reducible apply ite_fst_kept
    | (with_reducible refine pair_snd_kept (by with_reducible assumption) ?_)
    | (with_reducible refine pair_fst_kept (by with_reducible assumption) ?_)
    | (with_reducible refine trip_kept (by with_reducible assumption) ?_)
    | dsimp only
    | split
    | fail_if_no_progress (with_reducible refine hC.mk_kept rfl ?_)
    | rfl

theorem State.dropRecord_kept {P : State → Prop} (hC : Closed P) {s : State} (rec : Bytes)  (hP : P s) :
    P (State.dropRecord s rec) := by
  unfold State.dropRecord
  repeat' first
    | with_reducible assumption
    | (intro _)
    | with_reducible apply State.satAdd_kept hC
    | with_reducible apply State.fault_kept hC
    | with_reducible apply ite_kept
    | dsimp only
    | split
    | fail_if_no_progress (with_reducible refine hC.mk_kept rfl ?_)
    | rfl

theorem State.programRecord_kept {P : State → Prop} (hC : Closed P) {s : State} (rec : Bytes) (more : List Bytes) (code : Nat) (mismatch : Bool)  (hP : P s) :
    P (State.programRecord s rec more code mismatch) := by
  unfold State.programRecord
  repeat' first
    | with_reducible assumption
    | (intro _)
    | with_reducible apply State.holdUp_kept hC
    | with_reducible apply State.dropRecord_kept hC
    | with_reducible apply State.nvRead_kept hC
    | with_reducible apply State.programPage_kept hC
    | with_reducible apply State.setFld_kept hC
    | with_reducible apply State.fault_kept hC
    | with_reducible apply ite_kept
    | (with_reducible refine pair_snd_kept (by with_reducible assumption) ?_)
    | (with_reducible refine pair_fst_kept (by with_reducible assumption) ?_)
    | (with_reducible refine trip_kept (by with_reducible assumption) ?_)
    | dsimp only
    | split
    | fail_if_no_progress (with_reducible refine hC.mk_kept rfl ?_)
    | rfl

theorem State.clearFaultStore_kept {P : State → Prop} (hC : Closed P) {s : State}  (hP : P s) :
    P (State.clearFaultStore s) := by
  unfold State.clearFaultStore
  exact State.setFld_kept hC _ _ (State.setFld_kept hC _ _
    (hC.same (s := { s with nv := tabKeep (fun k => k < 0x1A0000 ∨ 0x1B0000 ≤ k) s.nv }) rfl (hC.nvKeep _ hP)))

end Sys2Proof.Machine
end

