-- ==== Sys2Proof/Laws/KeptPacket.lean ====
section
/-! SUPPORT. The definitions of Machine/Packet.lean keep every property that `Closed` describes. -/

namespace Sys2Proof.Machine

theorem State.peakCells_kept {P : State → Prop} (hC : Closed P) {s : State} (r : Nat) (use : Nat)  (hP : P s) :
    P (State.peakCells s r use) := by
  unfold State.peakCells
  repeat' first
    | with_reducible assumption
    | (intro _)
    | with_reducible apply State.setFld_kept hC
    | dsimp only
    | split
    | fail_if_no_progress (with_reducible refine hC.mk_kept rfl ?_)
    | rfl

theorem State.issueTicket_kept {P : State → Prop} (hC : Closed P) {s : State} (r : Nat) (d : Nat) (k : Nat)  (hP : P s) :
    P (State.issueTicket s r d k) := by
  unfold State.issueTicket
  repeat' first
    | with_reducible assumption
    | (intro _)
    | with_reducible apply State.setFld_kept hC
    | with_reducible apply State.setDom_kept hC
    | with_reducible apply State.updRow_kept hC
    | with_reducible apply State.hints_kept hC
    | with_reducible apply State.rowWake_kept hC
    | dsimp only
    | split
    | fail_if_no_progress (with_reducible refine hC.mk_kept rfl ?_)
    | rfl

theorem State.ingress_kept {P : State → Prop} (hC : Closed P) {s : State} (src : Nat) (data : Bytes) (bad : Bool) (rxTime : Nat)  (hP : P s) :
    P (((State.ingress s src data bad rxTime)).2) := by
  unfold State.ingress
  repeat' first
    | with_reducible assumption
    | (intro _)
    | with_reducible apply State.count64_kept hC
    | with_reducible apply State.countDrop_kept hC
    | with_reducible apply hC.tookFree
    | with_reducible apply State.takeCells_kept hC
    | with_reducible apply State.peakCells_kept hC
    | with_reducible apply State.setFrame_kept hC
    | with_reducible apply State.frameWrite_kept hC
    | with_reducible apply State.issueTicket_kept hC
    | with_reducible apply State.voidTicket_kept hC
    | with_reducible apply ite_kept
    | with_reducible apply ite_snd_kept
    | with_reducible apply ite_fst_kept
    | (with_reducible refine pair_snd_kept (by with_reducible assumption) ?_)
    | (with_reducible refine pair_fst_kept (by with_reducible assumption) ?_)
    | (with_reducible refine trip_kept (by with_reducible assumption) ?_)
    | dsimp only
    | split
    | fail_if_no_progress (with_reducible refine hC.mk_kept rfl ?_)
    | rfl

theorem State.portCount_kept {P : State → Prop} (hC : Closed P) {s : State} (p : Nat) (k : Nat)  (hP : P s) :
    P (State.portCount s p k) := by
  unfold State.portCount
  repeat' first
    | with_reducible assumption
    | (intro _)
    | with_reducible apply State.count64_kept hC
    | dsimp only
    | split
    | fail_if_no_progress (with_reducible refine hC.mk_kept rfl ?_)
    | rfl

theorem State.updPort_kept {P : State → Prop} (hC : Closed P) {s : State} (p : Nat) (f : PortSt → PortSt)  (hP : P s) :
    P (State.updPort s p f) := by
  unfold State.updPort
  repeat' first
    | with_reducible assumption
    | (intro _)
    | dsimp only
    | split
    | fail_if_no_progress (with_reducible refine hC.mk_kept rfl ?_)
    | rfl

theorem State.portReceive_kept {P : State → Prop} (hC : Closed P) {s : State} (p : Nat) (data : Bytes) (fcsOk : Bool)  (hP : P s) :
    P (State.portReceive s p data fcsOk) := by
  unfold State.portReceive
  repeat' first
    | with_reducible assumption
    | (intro _)
    | with_reducible apply State.activity_kept hC
    | with_reducible apply State.portCount_kept hC
    | with_reducible apply State.ingress_kept hC
    | with_reducible apply ite_kept
    | (with_reducible refine pair_snd_kept (by with_reducible assumption) ?_)
    | (with_reducible refine pair_fst_kept (by with_reducible assumption) ?_)
    | (with_reducible refine trip_kept (by with_reducible assumption) ?_)
    | dsimp only
    | split
    | fail_if_no_progress (with_reducible refine hC.mk_kept rfl ?_)
    | rfl

theorem execPauseReceive_kept {P : State → Prop} (hC : Closed P) (e : Fin 16) (quanta : BitVec 16) {s : State}  (hP : P s) :
    Res.Keeps P (execPauseReceive e quanta s) := by
  unfold execPauseReceive
  repeat' first
    | with_reducible assumption
    | (intro _)
    | with_reducible apply Res.keeps_next
    | with_reducible apply State.activity_kept hC
    | with_reducible apply State.portCount_kept hC
    | with_reducible apply State.updPort_kept hC
    | with_reducible apply ite_kept
    | dsimp only
    | split
    | fail_if_no_progress (with_reducible refine hC.mk_kept rfl ?_)
    | rfl

theorem execPauseEnd_kept {P : State → Prop} (hC : Closed P) (e : Fin 16) {s : State}  (hP : P s) :
    Res.Keeps P (execPauseEnd e s) := by
  unfold execPauseEnd
  repeat' first
    | with_reducible assumption
    | (intro _)
    | with_reducible apply Res.keeps_next
    | with_reducible apply State.updPort_kept hC
    | dsimp only
    | split
    | fail_if_no_progress (with_reducible refine hC.mk_kept rfl ?_)
    | rfl

theorem State.setEgressQ_kept {P : State → Prop} (hC : Closed P) {s : State} (p : Nat) (c : Nat) (l : List Nat)  (hP : P s) :
    P (State.setEgressQ s p c l) := by
  unfold State.setEgressQ
  repeat' first
    | with_reducible assumption
    | (intro _)
    | with_reducible apply State.updEsp_kept hC
    | dsimp only
    | split
    | fail_if_no_progress (with_reducible refine hC.mk_kept rfl ?_)
    | rfl

theorem State.setHqWaiting_kept {P : State → Prop} (hC : Closed P) {s : State} (r : Nat) (q : Nat) (l : List Nat)  (hP : P s) :
    P (State.setHqWaiting s r q l) := by
  unfold State.setHqWaiting
  repeat' first
    | with_reducible assumption
    | (intro _)
    | with_reducible apply State.updRow_kept hC
    | dsimp only
    | split
    | fail_if_no_progress (with_reducible refine hC.mk_kept rfl ?_)
    | rfl

theorem State.dropFrame_kept {P : State → Prop} (hC : Closed P) {s : State} (slot : Nat) (k : Nat)  (hP : P s) :
    P (State.dropFrame s slot k) := by
  unfold State.dropFrame
  repeat' first
    | with_reducible assumption
    | (intro _)
    | with_reducible apply State.countDrop_kept hC
    | with_reducible apply State.freeSlot_kept hC
    | dsimp only
    | split
    | fail_if_no_progress (with_reducible refine hC.mk_kept rfl ?_)
    | rfl

theorem State.releaseFrame_kept {P : State → Prop} (hC : Closed P) {s : State} (slot : Nat)  (hP : P s) :
    P (State.releaseFrame s slot) := by
  unfold State.releaseFrame
  repeat' first
    | with_reducible assumption
    | (intro _)
    | with_reducible apply State.dropFrame_kept hC
    | with_reducible apply State.setEgressQ_kept hC
    | with_reducible apply State.setHqWaiting_kept hC
    | with_reducible apply ite_kept
    | dsimp only
    | split
    | fail_if_no_progress (with_reducible refine hC.mk_kept rfl ?_)
    | rfl

theorem execTicketRelease_kept {P : State → Prop} (hC : Closed P) (d : Fin 64) {s : State}  (hP : P s) :
    Res.Keeps P (execTicketRelease d s) := by
  unfold execTicketRelease
  repeat' first
    | with_reducible assumption
    | (intro _)
    | with_reducible apply Res.keeps_next
    | with_reducible apply State.setDom_kept hC
    | with_reducible apply State.setFld_kept hC
    | with_reducible apply State.count64_kept hC
    | with_reducible apply State.releaseFrame_kept hC
    | with_reducible apply ite_kept
    | dsimp only
    | split
    | fail_if_no_progress (with_reducible refine hC.mk_kept rfl ?_)
    | rfl

theorem execOrderTimeout_kept {P : State → Prop} (hC : Closed P) (d : Fin 64) {s : State}  (hP : P s) :
    Res.Keeps P (execOrderTimeout d s) := by
  unfold execOrderTimeout
  repeat' first
    | with_reducible assumption
    | (intro _)
    | with_reducible apply Res.keeps_next
    | with_reducible apply State.satAdd_kept hC
    | with_reducible apply State.fault_kept hC
    | with_reducible apply State.voidTicket_kept hC
    | with_reducible apply ite_kept
    | dsimp only
    | split
    | fail_if_no_progress (with_reducible refine hC.mk_kept rfl ?_)
    | rfl

theorem State.finish_kept {P : State → Prop} (hC : Closed P) {s : State} (h : HelperReq) (status : Nat) (value : Nat)  (hP : P s) :
    P (State.finish s h status value) := by
  unfold State.finish
  repeat' first
    | with_reducible assumption
    | (intro _)
    | with_reducible apply State.updThr_kept hC
    | with_reducible apply ite_kept
    | dsimp only
    | split
    | fail_if_no_progress (with_reducible refine hC.mk_kept rfl ?_)
    | rfl

theorem execHreq_kept {P : State → Prop} (hC : Closed P) (t : Thr) (h : BitVec 3) (cn : BitVec 3) (ra : BitVec 5) (rb : BitVec 5) {s : State}  (hP : P s) :
    Res.Keeps P (execHreq t h cn ra rb s) := by
  unfold execHreq
  repeat' first
    | with_reducible assumption
    | (intro _)
    | with_reducible apply Res.keeps_next
    | with_reducible apply State.issue_kept hC
    | with_reducible apply State.raiseHalf_kept hC
    | with_reducible apply State.raiseExc_kept hC
    | with_reducible apply State.activity_kept hC
    | with_reducible apply State.updThr_kept hC
    | with_reducible apply ite_kept
    | dsimp only
    | split
    | fail_if_no_progress (with_reducible refine hC.mk_kept rfl ?_)
    | rfl

theorem State.putArea_kept {P : State → Prop} (hC : Closed P) {s : State} (a : Nat) (bs : Bytes)  (hP : P s) :
    P (State.putArea s a bs) := by
  unfold State.putArea
  repeat' first
    | with_reducible assumption
    | (intro _)
    | with_reducible apply State.memWriteAll_kept hC
    | dsimp only
    | split
    | fail_if_no_progress (with_reducible refine hC.mk_kept rfl ?_)
    | rfl

theorem State.getArea_kept {P : State → Prop} (hC : Closed P) {s : State} (a : Nat) (n : Nat)  (hP : P s) :
    P (((State.getArea s a n)).2) := by
  unfold State.getArea
  repeat' first
    | with_reducible assumption
    | (intro _)
    | with_reducible apply State.memReadAll_kept hC
    | (with_reducible refine pair_snd_kept (by with_reducible assumption) ?_)
    | (with_reducible refine pair_fst_kept (by with_reducible assumption) ?_)
    | (with_reducible refine trip_kept (by with_reducible assumption) ?_)
    | dsimp only
    | split
    | fail_if_no_progress (with_reducible refine hC.mk_kept rfl ?_)
    | rfl

theorem State.holdTicket_kept {P : State → Prop} (hC : Closed P) {s : State} (d : Nat) (k : Nat) (t : Nat)  (hP : P s) :
    P (State.holdTicket s d k t) := by
  unfold State.holdTicket
  repeat' first
    | with_reducible assumption
    | (intro _)
    | with_reducible apply State.setDom_kept hC
    | with_reducible apply ite_kept
    | dsimp only
    | split
    | fail_if_no_progress (with_reducible refine hC.mk_kept rfl ?_)
    | rfl

theorem State.deliverGet_kept {P : State → Prop} (hC : Closed P) {s : State} (g : HelperReq) (k : Nat) (f : Frame)  (hP : P s) :
    P (State.deliverGet s g k f) := by
  unfold State.deliverGet
  repeat' first
    | with_reducible assumption
    | (intro _)
    | with_reducible apply State.holdTicket_kept hC
    | with_reducible apply State.undispatch_kept hC
    | with_reducible apply State.frameRead_kept hC
    | with_reducible apply hC.tookFree
    | with_reducible apply State.putArea_kept hC
    | with_reducible apply State.finish_kept hC
    | with_reducible apply ite_kept
    | (with_reducible refine pair_snd_kept (by with_reducible assumption) ?_)
    | (with_reducible refine pair_fst_kept (by with_reducible assumption) ?_)
    | (with_reducible refine trip_kept (by with_reducible assumption) ?_)
    | dsimp only
    | split
    | fail_if_no_progress (with_reducible refine hC.mk_kept rfl ?_)
    | rfl

theorem State.dispatchRow_kept {P : State → Prop} (hC : Closed P) {s : State} (r : Nat)  (hP : P s) :
    P (State.dispatchRow s r) := by
  unfold State.dispatchRow
  repeat' first
    | with_reducible assumption
    | (intro _)
    | with_reducible apply State.deliverGet_kept hC
    | with_reducible apply ite_kept
    | (with_reducible refine pair_snd_kept (by with_reducible assumption) ?_)
    | (with_reducible refine pair_fst_kept (by with_reducible assumption) ?_)
    | (with_reducible refine trip_kept (by with_reducible assumption) ?_)
    | dsimp only
    | split
    | fail_if_no_progress (with_reducible refine hC.mk_kept rfl ?_)
    | rfl

theorem execDispatch_kept {P : State → Prop} (hC : Closed P) (r : Fin 8) {s : State}  (hP : P s) :
    Res.Keeps P (execDispatch r s) := by
  unfold execDispatch
  repeat' first
    | with_reducible assumption
    | (intro _)
    | with_reducible apply Res.keeps_next
    | with_reducible apply State.dispatchRow_kept hC
    | with_reducible apply State.deliverGet_kept hC
    | with_reducible apply ite_kept
    | dsimp only
    | split
    | fail_if_no_progress (with_reducible refine hC.mk_kept rfl ?_)
    | rfl

theorem execGet_kept {P : State → Prop} (hC : Closed P) (t : Fin 512) (cn : BitVec 3) {s : State}  (hP : P s) :
    Res.Keeps P (execGet t cn s) := by
  unfold execGet
  repeat' first
    | with_reducible assumption
    | (intro _)
    | with_reducible apply Res.keeps_next
    | with_reducible apply State.dispatchRow_kept hC
    | with_reducible apply State.finish_kept hC
    | with_reducible apply ite_kept
    | (with_reducible refine pair_snd_kept (by with_reducible assumption) ?_)
    | (with_reducible refine pair_fst_kept (by with_reducible assumption) ?_)
    | (with_reducible refine trip_kept (by with_reducible assumption) ?_)
    | dsimp only
    | split
    | fail_if_no_progress (with_reducible refine hC.mk_kept rfl ?_)
    | rfl

theorem State.serve_kept {P : State → Prop} (hC : Closed P) {s : State} (t : Nat) (cn : Nat) (h : Nat) (op : Nat) (body : HelperReq → State → State)  (hbody : ∀ y0 y1, P y1 →  P (body y0 y1)) (hP : P s) :
    P (State.serve s t cn h op body) := by
  unfold State.serve
  repeat' first
    | with_reducible assumption
    | (intro _)
    | with_reducible apply hbody
    | dsimp only
    | split
    | fail_if_no_progress (with_reducible refine hC.mk_kept rfl ?_)
    | rfl

theorem State.withDesc_kept {P : State → Prop} (hC : Closed P) {s : State} (g : HelperReq) (n : Nat) (body : Bytes → State → State)  (hbody : ∀ y0 y1, P y1 →  P (body y0 y1)) (hP : P s) :
    P (State.withDesc s g n body) := by
  unfold State.withDesc
  repeat' first
    | with_reducible assumption
    | (intro _)
    | with_reducible apply State.getArea_kept hC
    | with_reducible apply State.finish_kept hC
    | with_reducible apply hbody
    | (with_reducible refine pair_snd_kept (by with_reducible assumption) ?_)
    | (with_reducible refine pair_fst_kept (by with_reducible assumption) ?_)
    | (with_reducible refine trip_kept (by with_reducible assumption) ?_)
    | dsimp only
    | split
    | fail_if_no_progress (with_reducible refine hC.mk_kept rfl ?_)
    | rfl

theorem State.withFrame_kept {P : State → Prop} (hC : Closed P) {s : State} (g : HelperReq) (tok : Nat) (body : Nat → Frame → State → State)  (hbody : ∀ y0 y1 y2, P y2 →  P (body y0 y1 y2)) (hP : P s) :
    P (State.withFrame s g tok body) := by
  unfold State.withFrame
  repeat' first
    | with_reducible assumption
    | (intro _)
    | with_reducible apply State.finish_kept hC
    | with_reducible apply hbody
    | dsimp only
    | split
    | fail_if_no_progress (with_reducible refine hC.mk_kept rfl ?_)
    | rfl

theorem State.emitFrame_kept {P : State → Prop} (hC : Closed P) {s : State} (g : HelperReq) (k : Nat) (f : Frame) (cut : Nat) (hdr : Bytes) (dest : Nat)  (hP : P s) :
    P (State.emitFrame s g k f cut hdr dest) := by
  unfold State.emitFrame
  repeat' first
    | with_reducible assumption
    | (intro _)
    | with_reducible apply State.setFrame_kept hC
    | with_reducible apply State.frameWrite_kept hC
    | with_reducible apply State.setDom_kept hC
    | with_reducible apply State.finish_kept hC
    | with_reducible apply ite_kept
    | dsimp only
    | split
    | fail_if_no_progress (with_reducible refine hC.mk_kept rfl ?_)
    | rfl

theorem execEmit_kept {P : State → Prop} (hC : Closed P) (t : Fin 512) (cn : BitVec 3) {s : State}  (hP : P s) :
    Res.Keeps P (execEmit t cn s) := by
  unfold execEmit
  repeat' first
    | with_reducible assumption
    | (intro _)
    | with_reducible apply Res.keeps_next
    | with_reducible apply State.serve_kept hC
    | with_reducible apply State.withDesc_kept hC
    | with_reducible apply State.withFrame_kept hC
    | with_reducible apply State.finish_kept hC
    | with_reducible apply State.getArea_kept hC
    | with_reducible apply State.emitFrame_kept hC
    | with_reducible apply ite_kept
    | (with_reducible refine pair_snd_kept (by with_reducible assumption) ?_)
    | (with_reducible refine pair_fst_kept (by with_reducible assumption) ?_)
    | (with_reducible refine trip_kept (by with_reducible assumption) ?_)
    | dsimp only
    | split
    | fail_if_no_progress (with_reducible refine hC.mk_kept rfl ?_)
    | rfl

theorem execParse_kept {P : State → Prop} (hC : Closed P) (t : Fin 512) (cn : BitVec 3) {s : State}  (hP : P s) :
    Res.Keeps P (execParse t cn s) := by
  unfold execParse
  repeat' first
    | with_reducible assumption
    | (intro _)
    | with_reducible apply Res.keeps_next
    | with_reducible apply State.serve_kept hC
    | with_reducible apply State.withDesc_kept hC
    | with_reducible apply State.withFrame_kept hC
    | with_reducible apply State.frameRead_kept hC
    | with_reducible apply State.putArea_kept hC
    | with_reducible apply State.finish_kept hC
    | (with_reducible refine pair_snd_kept (by with_reducible assumption) ?_)
    | (with_reducible refine pair_fst_kept (by with_reducible assumption) ?_)
    | (with_reducible refine trip_kept (by with_reducible assumption) ?_)
    | dsimp only
    | split
    | fail_if_no_progress (with_reducible refine hC.mk_kept rfl ?_)
    | rfl

theorem State.searchBucket_kept {P : State → Prop} (hC : Closed P) {s : State} (key : Bytes) (kw : Nat) (ew : Nat) (addr : Nat) (e0 : List Nat) (hP : P s) :
    P (((State.searchBucket s key kw ew addr e0)).2) := by
  revert hP
  fun_induction State.searchBucket s key kw ew addr e0
  all_goals
    intro hP
    repeat' first
      | with_reducible assumption
      | (intro _)
      | with_reducible apply State.getArea_kept hC
      | with_reducible apply ite_kept
      | with_reducible apply ite_snd_kept
      | with_reducible apply ite_fst_kept
      | (with_reducible refine pair_snd_kept (by with_reducible assumption) ?_)
      | (with_reducible refine pair_fst_kept (by with_reducible assumption) ?_)
      | (with_reducible refine trip_kept (by with_reducible assumption) ?_)
      | (with_reducible apply_assumption)
      | dsimp only
      | split
      | fail_if_no_progress (with_reducible refine hC.mk_kept rfl ?_)
      | rfl

theorem State.findIn_kept {P : State → Prop} (hC : Closed P) {s : State} (g : HelperReq) (kw ew bucket count table : Nat) (hP : P s) :
    P (s.findIn g kw ew bucket count table) := by
  unfold State.findIn
  refine State.withDesc_kept hC _ _ _ (fun key s hP => ?_) hP
  beta_reduce
  split
  · exact State.finish_kept hC _ _ _ (State.putArea_kept hC _ _
      (pair_snd_kept (by with_reducible assumption) (State.searchBucket_kept hC _ _ _ _ _ hP)))
  · exact State.finish_kept hC _ _ _
      (pair_snd_kept (by with_reducible assumption) (State.searchBucket_kept hC _ _ _ _ _ hP))
  · exact State.finish_kept hC _ _ _
      (pair_snd_kept (by with_reducible assumption) (State.searchBucket_kept hC _ _ _ _ _ hP))

theorem execFind_kept {P : State → Prop} (hC : Closed P) (t : Fin 512) (cn : BitVec 3) {s : State}  (hP : P s) :
    Res.Keeps P (execFind t cn s) := by
  unfold execFind State.find
  refine Res.keeps_next (State.serve_kept hC _ _ _ _ _ (fun g s hP => ?_) hP)
  exact ite_kept (State.finish_kept hC _ _ _ hP) (State.findIn_kept hC _ _ _ _ _ _ hP)

theorem State.checksum_kept {P : State → Prop} (hC : Closed P) {s : State} (g : HelperReq) (f : Bytes → Nat)  (hP : P s) :
    P (State.checksum s g f) := by
  unfold State.checksum
  repeat' first
    | with_reducible assumption
    | (intro _)
    | with_reducible apply State.withDesc_kept hC
    | with_reducible apply State.withFrame_kept hC
    | with_reducible apply State.finish_kept hC
    | with_reducible apply State.frameRead_kept hC
    | with_reducible apply State.putArea_kept hC
    | with_reducible apply ite_kept
    | (with_reducible refine pair_snd_kept (by with_reducible assumption) ?_)
    | (with_reducible refine pair_fst_kept (by with_reducible assumption) ?_)
    | (with_reducible refine trip_kept (by with_reducible assumption) ?_)
    | dsimp only
    | split
    | fail_if_no_progress (with_reducible refine hC.mk_kept rfl ?_)
    | rfl

theorem execInet_kept {P : State → Prop} (hC : Closed P) (t : Fin 512) (cn : BitVec 3) {s : State}  (hP : P s) :
    Res.Keeps P (execInet t cn s) := by
  unfold execInet
  repeat' first
    | with_reducible assumption
    | (intro _)
    | with_reducible apply Res.keeps_next
    | with_reducible apply State.serve_kept hC
    | with_reducible apply State.checksum_kept hC
    | dsimp only
    | split
    | fail_if_no_progress (with_reducible refine hC.mk_kept rfl ?_)
    | rfl

theorem execCrc32_kept {P : State → Prop} (hC : Closed P) (t : Fin 512) (cn : BitVec 3) {s : State}  (hP : P s) :
    Res.Keeps P (execCrc32 t cn s) := by
  unfold execCrc32
  repeat' first
    | with_reducible assumption
    | (intro _)
    | with_reducible apply Res.keeps_next
    | with_reducible apply State.serve_kept hC
    | with_reducible apply State.checksum_kept hC
    | dsimp only
    | split
    | fail_if_no_progress (with_reducible refine hC.mk_kept rfl ?_)
    | rfl

theorem execNow_kept {P : State → Prop} (hC : Closed P) (t : Fin 512) (cn : BitVec 3) {s : State}  (hP : P s) :
    Res.Keeps P (execNow t cn s) := by
  unfold execNow
  repeat' first
    | with_reducible assumption
    | (intro _)
    | with_reducible apply Res.keeps_next
    | with_reducible apply State.serve_kept hC
    | with_reducible apply State.putArea_kept hC
    | with_reducible apply State.finish_kept hC
    | with_reducible apply ite_kept
    | dsimp only
    | split
    | fail_if_no_progress (with_reducible refine hC.mk_kept rfl ?_)
    | rfl

theorem execEgressTs_kept {P : State → Prop} (hC : Closed P) (t : Fin 512) (cn : BitVec 3) {s : State}  (hP : P s) :
    Res.Keeps P (execEgressTs t cn s) := by
  unfold execEgressTs
  repeat' first
    | with_reducible assumption
    | (intro _)
    | with_reducible apply Res.keeps_next
    | with_reducible apply State.serve_kept hC
    | with_reducible apply State.withDesc_kept hC
    | with_reducible apply State.withFrame_kept hC
    | with_reducible apply State.putArea_kept hC
    | with_reducible apply State.finish_kept hC
    | with_reducible apply ite_kept
    | dsimp only
    | split
    | fail_if_no_progress (with_reducible refine hC.mk_kept rfl ?_)
    | rfl

theorem State.withGcm_kept {P : State → Prop} (hC : Closed P) {s : State} (g : HelperReq) (tail : Nat) (body : Nat → Frame → Bytes → Bytes → Bytes → State → State)  (hbody : ∀ y0 y1 y2 y3 y4 y5, P y5 →  P (body y0 y1 y2 y3 y4 y5)) (hP : P s) :
    P (State.withGcm s g tail body) := by
  unfold State.withGcm
  repeat' first
    | with_reducible assumption
    | (intro _)
    | with_reducible apply State.withDesc_kept hC
    | with_reducible apply State.withFrame_kept hC
    | with_reducible apply State.finish_kept hC
    | with_reducible apply State.frameRead_kept hC
    | with_reducible apply hbody
    | with_reducible apply ite_kept
    | (with_reducible refine pair_snd_kept (by with_reducible assumption) ?_)
    | (with_reducible refine pair_fst_kept (by with_reducible assumption) ?_)
    | (with_reducible refine trip_kept (by with_reducible assumption) ?_)
    | dsimp only
    | split
    | fail_if_no_progress (with_reducible refine hC.mk_kept rfl ?_)
    | rfl

theorem execAesSeal_kept {P : State → Prop} (hC : Closed P) (t : Fin 512) (cn : BitVec 3) {s : State}  (hP : P s) :
    Res.Keeps P (execAesSeal t cn s) := by
  unfold execAesSeal
  repeat' first
    | with_reducible assumption
    | (intro _)
    | with_reducible apply Res.keeps_next
    | with_reducible apply State.serve_kept hC
    | with_reducible apply State.withGcm_kept hC
    | with_reducible apply State.takeCells_kept hC
    | with_reducible apply State.setFrame_kept hC
    | with_reducible apply State.peakCells_kept hC
    | with_reducible apply State.frameWrite_kept hC
    | with_reducible apply State.finish_kept hC
    | with_reducible apply ite_kept
    | (with_reducible refine pair_snd_kept (by with_reducible assumption) ?_)
    | (with_reducible refine pair_fst_kept (by with_reducible assumption) ?_)
    | (with_reducible refine trip_kept (by with_reducible assumption) ?_)
    | dsimp only
    | split
    | fail_if_no_progress (with_reducible refine hC.mk_kept rfl ?_)
    | rfl

theorem execAesOpen_kept {P : State → Prop} (hC : Closed P) (t : Fin 512) (cn : BitVec 3) {s : State}  (hP : P s) :
    Res.Keeps P (execAesOpen t cn s) := by
  unfold execAesOpen
  repeat' first
    | with_reducible assumption
    | (intro _)
    | with_reducible apply Res.keeps_next
    | with_reducible apply State.serve_kept hC
    | with_reducible apply State.withGcm_kept hC
    | with_reducible apply State.frameWrite_kept hC
    | with_reducible apply State.finish_kept hC
    | with_reducible apply ite_kept
    | dsimp only
    | split
    | fail_if_no_progress (with_reducible refine hC.mk_kept rfl ?_)
    | rfl

theorem State.stampFrame_kept {P : State → Prop} (hC : Closed P) {s : State} (p : Nat) (k : Nat) (f : Frame)  (hP : P s) :
    P (State.stampFrame s p k f) := by
  unfold State.stampFrame
  repeat' first
    | with_reducible assumption
    | (intro _)
    | with_reducible apply State.putArea_kept hC
    | with_reducible apply State.finish_kept hC
    | with_reducible apply State.setFrame_kept hC
    | with_reducible apply foldl_kept
    | with_reducible apply foldl_snd_kept
    | with_reducible apply foldl_fst_kept
    | dsimp only
    | split
    | fail_if_no_progress (with_reducible refine hC.mk_kept rfl ?_)
    | rfl

theorem execFrameTransmit_kept {P : State → Prop} (hC : Closed P) (port : Fin 36) {s : State}  (hP : P s) :
    Res.Keeps P (execFrameTransmit port s) := by
  unfold execFrameTransmit
  repeat' first
    | with_reducible assumption
    | (intro _)
    | with_reducible apply Res.keeps_next
    | with_reducible apply State.setEgressQ_kept hC
    | with_reducible apply State.stampFrame_kept hC
    | with_reducible apply State.frameRead_kept hC
    | with_reducible apply hC.tookFree
    | with_reducible apply State.updPort_kept hC
    | with_reducible apply ite_kept
    | (with_reducible refine pair_snd_kept (by with_reducible assumption) ?_)
    | (with_reducible refine pair_fst_kept (by with_reducible assumption) ?_)
    | (with_reducible refine trip_kept (by with_reducible assumption) ?_)
    | dsimp only
    | split
    | fail_if_no_progress (with_reducible refine hC.mk_kept rfl ?_)
    | rfl

theorem execFrameTransmitEnd_kept {P : State → Prop} (hC : Closed P) (port : Fin 36) {s : State}  (hP : P s) :
    Res.Keeps P (execFrameTransmitEnd port s) := by
  unfold execFrameTransmitEnd
  repeat' first
    | with_reducible assumption
    | (intro _)
    | with_reducible apply Res.keeps_next
    | with_reducible apply State.countDrop_kept hC
    | with_reducible apply State.updPort_kept hC
    | with_reducible apply State.portCount_kept hC
    | with_reducible apply hC.send
    | with_reducible apply State.freeSlot_kept hC
    | with_reducible apply ite_kept
    | (with_reducible refine pair_snd_kept (by with_reducible assumption) ?_)
    | (with_reducible refine pair_fst_kept (by with_reducible assumption) ?_)
    | (with_reducible refine trip_kept (by with_reducible assumption) ?_)
    | dsimp only
    | split
    | fail_if_no_progress (with_reducible refine hC.mk_kept rfl ?_)
    | rfl

theorem execGateChange_kept {P : State → Prop} (hC : Closed P) (port : Fin 36) {s : State}  (hP : P s) :
    Res.Keeps P (execGateChange port s) := by
  unfold execGateChange
  repeat' first
    | with_reducible assumption
    | (intro _)
    | with_reducible apply Res.keeps_next
    | with_reducible apply State.setFld_kept hC
    | with_reducible apply State.event_kept hC
    | with_reducible apply ite_kept
    | dsimp only
    | split
    | fail_if_no_progress (with_reducible refine hC.mk_kept rfl ?_)
    | rfl

end Sys2Proof.Machine
end

