-- ==== Sys2Proof/Laws/KeptPorts.lean ====
section
/-! SUPPORT. The definitions of Machine/Ports.lean keep every property that `Closed` describes. -/

namespace Sys2Proof.Machine

theorem State.txeqUse_kept {P : State → Prop} (hC : Closed P) {s : State} (p : Nat) (w : Word)  (hP : P s) :
    P (State.txeqUse s p w) := by
  unfold State.txeqUse
  repeat' first
    | with_reducible assumption
    | (intro _)
    | with_reducible apply hC.setReg
    | with_reducible apply State.setFld_kept hC
    | dsimp only
    | split
    | fail_if_no_progress (with_reducible refine hC.mk_kept rfl ?_)
    | rfl

theorem State.txeqRefresh_kept {P : State → Prop} (hC : Closed P) {s : State} (p : Nat)  (hP : P s) :
    P (State.txeqRefresh s p) := by
  unfold State.txeqRefresh
  repeat' first
    | with_reducible assumption
    | (intro _)
    | with_reducible apply State.txeqUse_kept hC
    | with_reducible apply ite_kept
    | dsimp only
    | split
    | fail_if_no_progress (with_reducible refine hC.mk_kept rfl ?_)
    | rfl

theorem State.portUnlock_kept {P : State → Prop} (hC : Closed P) {s : State} (p : Nat)  (hP : P s) :
    P (State.portUnlock s p) := by
  unfold State.portUnlock
  repeat' first
    | with_reducible assumption
    | (intro _)
    | with_reducible apply State.clrReady_kept hC
    | with_reducible apply State.setFld_kept hC
    | with_reducible apply State.txeqRefresh_kept hC
    | with_reducible apply ite_kept
    | dsimp only
    | split
    | fail_if_no_progress (with_reducible refine hC.mk_kept rfl ?_)
    | rfl

theorem State.portLost_kept {P : State → Prop} (hC : Closed P) {s : State} (p : Nat)  (hP : P s) :
    P (State.portLost s p) := by
  unfold State.portLost
  repeat' first
    | with_reducible assumption
    | (intro _)
    | with_reducible apply State.portUnlock_kept hC
    | with_reducible apply State.fault_kept hC
    | with_reducible apply ite_kept
    | dsimp only
    | split
    | fail_if_no_progress (with_reducible refine hC.mk_kept rfl ?_)
    | rfl

theorem execPortLockGain_kept {P : State → Prop} (hC : Closed P) (p : Fin 36) {s : State}  (hP : P s) :
    Res.Keeps P (execPortLockGain p s) := by
  unfold execPortLockGain
  repeat' first
    | with_reducible assumption
    | (intro _)
    | with_reducible apply Res.keeps_next
    | with_reducible apply State.setFld_kept hC
    | with_reducible apply hC.tookFree
    | with_reducible apply State.txeqUse_kept hC
    | with_reducible apply State.setReady_kept hC
    | with_reducible apply State.activity_kept hC
    | with_reducible apply ite_kept
    | dsimp only
    | split
    | fail_if_no_progress (with_reducible refine hC.mk_kept rfl ?_)
    | rfl

theorem execPortLinkLost_kept {P : State → Prop} (hC : Closed P) (p : Fin 36) {s : State}  (hP : P s) :
    Res.Keeps P (execPortLinkLost p s) := by
  unfold execPortLinkLost
  repeat' first
    | with_reducible assumption
    | (intro _)
    | with_reducible apply Res.keeps_next
    | with_reducible apply State.portLost_kept hC
    | with_reducible apply ite_kept
    | dsimp only
    | split
    | fail_if_no_progress (with_reducible refine hC.mk_kept rfl ?_)
    | rfl

theorem execPlcaBeacon_kept {P : State → Prop} (hC : Closed P) (i : Fin 12) {s : State}  (hP : P s) :
    Res.Keeps P (execPlcaBeacon i s) := by
  unfold execPlcaBeacon
  repeat' first
    | with_reducible assumption
    | (intro _)
    | with_reducible apply Res.keeps_next
    | with_reducible apply hC.send
    | with_reducible apply State.updPort_kept hC
    | with_reducible apply State.setFld_kept hC
    | with_reducible apply ite_kept
    | dsimp only
    | split
    | fail_if_no_progress (with_reducible refine hC.mk_kept rfl ?_)
    | rfl

theorem execPlcaBeaconLoss_kept {P : State → Prop} (hC : Closed P) (i : Fin 12) {s : State}  (hP : P s) :
    Res.Keeps P (execPlcaBeaconLoss i s) := by
  unfold execPlcaBeaconLoss
  repeat' first
    | with_reducible assumption
    | (intro _)
    | with_reducible apply Res.keeps_next
    | with_reducible apply State.setFld_kept hC
    | with_reducible apply ite_kept
    | dsimp only
    | split
    | fail_if_no_progress (with_reducible refine hC.mk_kept rfl ?_)
    | rfl

theorem State.saCheck_kept {P : State → Prop} (hC : Closed P) {s : State} (i : Nat)  (hP : P s) :
    P (State.saCheck s i) := by
  unfold State.saCheck
  repeat' first
    | with_reducible assumption
    | (intro _)
    | with_reducible apply State.inject_kept hC
    | with_reducible apply foldl_kept
    | with_reducible apply foldl_snd_kept
    | with_reducible apply foldl_fst_kept
    | with_reducible apply ite_kept
    | with_reducible apply ite_snd_kept
    | with_reducible apply ite_fst_kept
    | dsimp only
    | split
    | fail_if_no_progress (with_reducible refine hC.mk_kept rfl ?_)
    | rfl

theorem State.commitSa_kept {P : State → Prop} (hC : Closed P) {s : State}  (hP : P s) :
    P (State.commitSa s) := by
  unfold State.commitSa
  repeat' first
    | with_reducible assumption
    | (intro _)
    | with_reducible apply State.saCheck_kept hC
    | with_reducible apply State.setFld_kept hC
    | with_reducible apply State.inject_kept hC
    | with_reducible apply hC.setReg
    | with_reducible apply foldl_kept
    | with_reducible apply foldl_snd_kept
    | with_reducible apply foldl_fst_kept
    | with_reducible apply ite_kept
    | (with_reducible refine pair_snd_kept (by with_reducible assumption) ?_)
    | (with_reducible refine pair_fst_kept (by with_reducible assumption) ?_)
    | (with_reducible refine trip_kept (by with_reducible assumption) ?_)
    | dsimp only
    | split
    | fail_if_no_progress (with_reducible refine hC.mk_kept rfl ?_)
    | rfl

theorem State.copySa_kept {P : State → Prop} (hC : Closed P) {s : State} (b : Nat) (i : Nat)  (hP : P s) :
    P (State.copySa s b i) := by
  unfold State.copySa
  repeat' first
    | with_reducible assumption
    | (intro _)
    | with_reducible apply hC.tookFree
    | with_reducible apply State.fault_kept hC
    | with_reducible apply foldl_snd_kept
    | with_reducible apply ite_kept
    | dsimp only
    | split
    | fail_if_no_progress (with_reducible refine hC.mk_kept rfl ?_)
    | rfl

theorem State.loadSa_kept {P : State → Prop} (hC : Closed P) {s : State} (b : Nat)  (hP : P s) :
    P (State.loadSa s b) := by
  unfold State.loadSa
  repeat' first
    | with_reducible assumption
    | (intro _)
    | with_reducible apply State.copySa_kept hC
    | with_reducible apply foldl_kept
    | with_reducible apply foldl_snd_kept
    | with_reducible apply foldl_fst_kept
    | dsimp only
    | split
    | fail_if_no_progress (with_reducible refine hC.mk_kept rfl ?_)
    | rfl

theorem execMsecCommitDone_kept {P : State → Prop} (hC : Closed P) {s : State}  (hP : P s) :
    Res.Keeps P (execMsecCommitDone s) := by
  unfold execMsecCommitDone
  repeat' first
    | with_reducible assumption
    | (intro _)
    | with_reducible apply Res.keeps_next
    | with_reducible apply State.copySa_kept hC
    | with_reducible apply State.setFld_kept hC
    | with_reducible apply foldl_kept
    | with_reducible apply foldl_snd_kept
    | with_reducible apply foldl_fst_kept
    | with_reducible apply ite_kept
    | dsimp only
    | split
    | fail_if_no_progress (with_reducible refine hC.mk_kept rfl ?_)
    | rfl

theorem State.dropSa_kept {P : State → Prop} (hC : Closed P) {s : State}  (hP : P s) :
    P (State.dropSa s) := by
  unfold State.dropSa
  repeat' first
    | with_reducible assumption
    | (intro _)
    | dsimp only
    | split
    | fail_if_no_progress (with_reducible refine hC.mk_kept rfl ?_)
    | rfl

theorem State.dtbStep_kept {P : State → Prop} (hC : Closed P) {s : State}  (hP : P s) :
    P (State.dtbStep s) := by
  unfold State.dtbStep
  repeat' first
    | with_reducible assumption
    | (intro _)
    | with_reducible apply State.setPair_kept hC
    | with_reducible apply State.setFld_kept hC
    | with_reducible apply State.updThr_kept hC
    | with_reducible apply foldl_kept
    | with_reducible apply foldl_snd_kept
    | with_reducible apply foldl_fst_kept
    | with_reducible apply ite_kept
    | dsimp only
    | split
    | fail_if_no_progress (with_reducible refine hC.mk_kept rfl ?_)
    | rfl

theorem State.dtbSlew_kept {P : State → Prop} (hC : Closed P) {s : State}  (hP : P s) :
    P (State.dtbSlew s) := by
  unfold State.dtbSlew
  repeat' first
    | with_reducible assumption
    | (intro _)
    | with_reducible apply State.setFld_kept hC
    | dsimp only
    | split
    | fail_if_no_progress (with_reducible refine hC.mk_kept rfl ?_)
    | rfl

theorem execSlewDone_kept {P : State → Prop} (hC : Closed P) {s : State}  (hP : P s) :
    Res.Keeps P (execSlewDone s) := by
  unfold execSlewDone
  repeat' first
    | with_reducible assumption
    | (intro _)
    | with_reducible apply Res.keeps_next
    | with_reducible apply State.setFld_kept hC
    | with_reducible apply ite_kept
    | dsimp only
    | split
    | fail_if_no_progress (with_reducible refine hC.mk_kept rfl ?_)
    | rfl

theorem State.portHook_kept {P : State → Prop} (hC : Closed P) {s : State} (p : Nat) (o : Nat) (off : Nat) (old : Word) (wr : Word)  (hP : P s) :
    P (State.portHook s p o off old wr) := by
  unfold State.portHook
  repeat' first
    | with_reducible assumption
    | (intro _)
    | with_reducible apply hC.setReg
    | with_reducible apply State.fault_kept hC
    | with_reducible apply State.setFld_kept hC
    | with_reducible apply State.updPort_kept hC
    | with_reducible apply State.portUnlock_kept hC
    | with_reducible apply State.txeqRefresh_kept hC
    | with_reducible apply ite_kept
    | dsimp only
    | split
    | fail_if_no_progress (with_reducible refine hC.mk_kept rfl ?_)
    | rfl

end Sys2Proof.Machine
end

