-- ==== Sys2Proof/Laws/KeptImage.lean ====
section
/-! SUPPORT. The definitions of Machine/Image.lean keep every property that `Closed` describes. -/

namespace Sys2Proof.Machine

theorem State.slotMeet_kept {P : State → Prop} (hC : Closed P) {s : State} (i : Nat)  (hP : P s) :
    P (State.slotMeet s i) := by
  unfold State.slotMeet
  repeat' first
    | with_reducible assumption
    | (intro _)
    | with_reducible apply State.nvMeet_kept hC
    | with_reducible apply ite_kept
    | with_reducible apply ite_snd_kept
    | with_reducible apply ite_fst_kept
    | dsimp only
    | split
    | fail_if_no_progress (with_reducible refine hC.mk_kept rfl ?_)
    | rfl

theorem State.rsCheck_kept {P : State → Prop} (hC : Closed P) {s : State} (off : Nat)  (hP : P s) :
    P (((State.rsCheck s off)).2) := by
  unfold State.rsCheck
  repeat' first
    | with_reducible assumption
    | (intro _)
    | with_reducible apply State.fault_kept hC
    | dsimp only
    | split
    | fail_if_no_progress (with_reducible refine hC.mk_kept rfl ?_)
    | rfl

theorem rsFill_kept {P : State → Prop} (hC : Closed P) (bs : Bytes) (off : Nat) : ∀ (l : List Nat) {s : State}, P s →
    P { s with rsMem := l.foldl (fun m i => tabSet 0 (off + i) (bs.getD i 0) m) s.rsMem }
  | [], _, hP => hP
  | i :: l, s, hP => rsFill_kept hC bs off l (s := { s with rsMem := tabSet 0 (off + i) (bs.getD i 0) s.rsMem }) (hC.rsPut _ _ hP)

theorem State.rsStore_kept {P : State → Prop} (hC : Closed P) {s : State} (off : Nat) (bs : Bytes) (hP : P s) :
    P (State.rsStore s off bs) := by
  unfold State.rsStore
  exact hC.same (s := { (s.inject 26).2 with
    rsMem := (List.range bs.length).foldl (fun m i => tabSet 0 (off + i) (bs.getD i 0) m) (s.inject 26).2.rsMem }) rfl (rsFill_kept hC bs off (List.range bs.length) (State.inject_kept hC 26 hP))

theorem State.rsReadAll_kept {P : State → Prop} (hC : Closed P) {s : State} (off : Nat) (n : Nat)  (hP : P s) :
    P (((State.rsReadAll s off n)).2) := by
  unfold State.rsReadAll
  repeat' first
    | with_reducible assumption
    | (intro _)
    | with_reducible apply State.rsCheck_kept hC
    | with_reducible apply foldl_kept
    | with_reducible apply foldl_snd_kept
    | with_reducible apply foldl_fst_kept
    | with_reducible apply ite_kept
    | with_reducible apply ite_snd_kept
    | with_reducible apply ite_fst_kept
    | dsimp only
    | split
    | fail_if_no_progress (with_reducible refine hC.mk_kept rfl ?_)
    | rfl

theorem State.rsMerge_kept {P : State → Prop} (hC : Closed P) {s : State} (off : Nat) (bs : Bytes)  (hP : P s) :
    P (((State.rsMerge s off bs)).2) := by
  unfold State.rsMerge
  repeat' first
    | with_reducible assumption
    | (intro _)
    | with_reducible apply State.rsCheck_kept hC
    | with_reducible apply State.rsStore_kept hC
    | with_reducible apply ite_kept
    | with_reducible apply ite_snd_kept
    | with_reducible apply ite_fst_kept
    | dsimp only
    | split
    | fail_if_no_progress (with_reducible refine hC.mk_kept rfl ?_)
    | rfl

theorem State.rsPokeFuel_kept {P : State → Prop} (hC : Closed P) : ∀ (fuel : Nat) {s : State} (off : Nat) (bs : Bytes), P s →
    P (State.rsPokeFuel fuel s off bs)
  | 0, _, _, _, hP => hP
  | _ + 1, _, _, [], hP => hP
  | fuel + 1, _, _, _ :: _, hP => State.rsPokeFuel_kept hC fuel _ _ (State.rsMerge_kept hC _ _ hP)

theorem State.rsPoke_kept {P : State → Prop} (hC : Closed P) {s : State} (off : Nat) (bs : Bytes) (hP : P s) :
    P (State.rsPoke s off bs) := State.rsPokeFuel_kept hC _ _ _ hP

end Sys2Proof.Machine
end

