-- ==== Sys2Proof/Laws/KeptJobs.lean ====
section
/-! SUPPORT. The definitions of Machine/Jobs.lean keep every property that `Closed` describes. -/

namespace Sys2Proof.Machine

theorem State.devRead_kept {P : State → Prop} (hC : Closed P) {s : State} (addr : Nat) (n : Nat)  (hP : P s) :
    P (((State.devRead s addr n)).2) := by
  unfold State.devRead
  repeat' first
    | with_reducible assumption
    | (intro _)
    | with_reducible apply State.memReadAll_kept hC
    | with_reducible apply ite_kept
    | with_reducible apply ite_snd_kept
    | with_reducible apply ite_fst_kept
    | (with_reducible refine pair_snd_kept (by with_reducible assumption) ?_)
    | (with_reducible refine pair_fst_kept (by with_reducible assumption) ?_)
    | (with_reducible refine trip_kept (by with_reducible assumption) ?_)
    | dsimp only
    | split
    | fail_if_no_progress (with_reducible refine hC.mk_kept rfl ?_)
    | rfl

theorem State.devWrite_kept {P : State → Prop} (hC : Closed P) {s : State} (addr : Nat) (bs : Bytes)  (hP : P s) :
    P (State.devWrite s addr bs) := by
  unfold State.devWrite
  repeat' first
    | with_reducible assumption
    | (intro _)
    | with_reducible apply State.memWriteAll_kept hC
    | with_reducible apply ite_kept
    | dsimp only
    | split
    | fail_if_no_progress (with_reducible refine hC.mk_kept rfl ?_)
    | rfl

theorem State.reqRead_kept {P : State → Prop} (hC : Closed P) {s : State} (req : Req) (addr : Nat) (n : Nat)  (hP : P s) :
    P (((State.reqRead s req addr n)).2) := by
  unfold State.reqRead
  repeat' first
    | with_reducible assumption
    | (intro _)
    | with_reducible apply State.refuse_kept hC
    | with_reducible apply State.memReadAll_kept hC
    | with_reducible apply ite_kept
    | with_reducible apply ite_snd_kept
    | with_reducible apply ite_fst_kept
    | (with_reducible refine pair_snd_kept (by with_reducible assumption) ?_)
    | (with_reducible refine pair_fst_kept (by with_reducible assumption) ?_)
    | (with_reducible refine trip_kept (by with_reducible assumption) ?_)
    | dsimp only
    | split
    | fail_if_no_progress (with_reducible refine hC.mk_kept rfl ?_)
    | rfl

theorem State.updJob_kept {P : State → Prop} (hC : Closed P) {s : State} (t : Nat) (f : Job → Job)  (hP : P s) :
    P (State.updJob s t f) := by
  unfold State.updJob
  repeat' first
    | with_reducible assumption
    | (intro _)
    | with_reducible apply ite_kept
    | dsimp only
    | split
    | fail_if_no_progress (with_reducible refine hC.mk_kept rfl ?_)
    | rfl

theorem State.submit_kept {P : State → Prop} (hC : Closed P) {s : State} (o : Nat) (warden : Bool) (d : Bytes)  (hP : P s) :
    P (((State.submit s o warden d)).2) := by
  unfold State.submit
  repeat' first
    | with_reducible assumption
    | (intro _)
    | with_reducible apply ite_kept
    | with_reducible apply ite_snd_kept
    | with_reducible apply ite_fst_kept
    | dsimp only
    | split
    | fail_if_no_progress (with_reducible refine hC.mk_kept rfl ?_)
    | rfl

theorem State.submitAt_kept {P : State → Prop} (hC : Closed P) {s : State} (o : Nat) (req : Req) (priv : Bool) (addr : Nat)  (hP : P s) :
    P (State.submitAt s o req priv addr) := by
  unfold State.submitAt
  repeat' first
    | with_reducible assumption
    | (intro _)
    | with_reducible apply State.rsReadAll_kept hC
    | with_reducible apply State.reqRead_kept hC
    | with_reducible apply State.setFld_kept hC
    | with_reducible apply State.submit_kept hC
    | with_reducible apply State.rsPoke_kept hC
    | with_reducible apply State.devRead_kept hC
    | with_reducible apply State.devWrite_kept hC
    | with_reducible apply ite_kept
    | (with_reducible refine pair_snd_kept (by with_reducible assumption) ?_)
    | (with_reducible refine pair_fst_kept (by with_reducible assumption) ?_)
    | (with_reducible refine trip_kept (by with_reducible assumption) ?_)
    | with_reducible apply ite_snd_kept
    | with_reducible apply ite_fst_kept
    | dsimp only
    | split
    | fail_if_no_progress (with_reducible refine hC.mk_kept rfl ?_)
    | rfl

theorem State.startJob_kept {P : State → Prop} (hC : Closed P) {s : State} (t : Nat) (op : Nat) (body : Job → State → State)  (hbody : ∀ y0 y1, P y1 →  P (body y0 y1)) (hP : P s) :
    P (State.startJob s t op body) := by
  unfold State.startJob
  repeat' first
    | with_reducible assumption
    | (intro _)
    | with_reducible apply State.updJob_kept hC
    | with_reducible apply hbody
    | with_reducible apply ite_kept
    | dsimp only
    | split
    | fail_if_no_progress (with_reducible refine hC.mk_kept rfl ?_)
    | rfl

theorem State.endJob_kept {P : State → Prop} (hC : Closed P) {s : State} (t : Nat) (status : Nat) (result : Nat) (pos : Nat)  (hP : P s) :
    P (State.endJob s t status result pos) := by
  unfold State.endJob
  repeat' first
    | with_reducible assumption
    | (intro _)
    | with_reducible apply State.updJob_kept hC
    | dsimp only
    | split
    | fail_if_no_progress (with_reducible refine hC.mk_kept rfl ?_)
    | rfl

theorem State.endJobOf_kept {P : State → Prop} (hC : Closed P) {s : State} (op : Nat) (status : Nat) (result : Nat)  (hP : P s) :
    P (State.endJobOf s op status result) := by
  unfold State.endJobOf
  repeat' first
    | with_reducible assumption
    | (intro _)
    | with_reducible apply State.endJob_kept hC
    | dsimp only
    | split
    | fail_if_no_progress (with_reducible refine hC.mk_kept rfl ?_)
    | rfl

theorem State.complete_kept {P : State → Prop} (hC : Closed P) {s : State} (j : Job)  (hP : P s) :
    P (State.complete s j) := by
  unfold State.complete
  repeat' first
    | with_reducible assumption
    | (intro _)
    | with_reducible apply State.reportWinner_kept hC
    | with_reducible apply State.updJob_kept hC
    | with_reducible apply State.event_kept hC
    | with_reducible apply ite_kept
    | dsimp only
    | split
    | fail_if_no_progress (with_reducible refine hC.mk_kept rfl ?_)
    | rfl

theorem State.abortJobs_kept {P : State → Prop} (hC : Closed P) {s : State} (r : Nat)  (hP : P s) :
    P (State.abortJobs s r) := by
  unfold State.abortJobs
  repeat' first
    | with_reducible assumption
    | (intro _)
    | with_reducible apply State.complete_kept hC
    | with_reducible apply foldl_kept
    | with_reducible apply foldl_snd_kept
    | with_reducible apply foldl_fst_kept
    | with_reducible apply ite_kept
    | dsimp only
    | split
    | fail_if_no_progress (with_reducible refine hC.mk_kept rfl ?_)
    | rfl

theorem State.finishStore_kept {P : State → Prop} (hC : Closed P) {s : State} (j : Job)  (hP : P s) :
    P (State.finishStore s j) := by
  unfold State.finishStore
  repeat' first
    | with_reducible assumption
    | (intro _)
    | with_reducible apply State.recMeet_kept hC
    | with_reducible apply State.endJob_kept hC
    | with_reducible apply State.reportWinner_kept hC
    | with_reducible apply ite_kept
    | dsimp only
    | split
    | fail_if_no_progress (with_reducible refine hC.mk_kept rfl ?_)
    | rfl

theorem State.jobPage_kept {P : State → Prop} (hC : Closed P) {s : State} (j : Job) (code : Nat) (mismatch : Bool)  (hP : P s) :
    P (State.jobPage s j code mismatch) := by
  unfold State.jobPage
  repeat' first
    | with_reducible assumption
    | (intro _)
    | with_reducible apply State.holdUp_kept hC
    | with_reducible apply State.endJob_kept hC
    | with_reducible apply State.fault_kept hC
    | with_reducible apply State.devRead_kept hC
    | with_reducible apply State.nvRead_kept hC
    | with_reducible apply State.programPage_kept hC
    | with_reducible apply State.updJob_kept hC
    | with_reducible apply State.finishStore_kept hC
    | with_reducible apply ite_kept
    | (with_reducible refine pair_snd_kept (by with_reducible assumption) ?_)
    | (with_reducible refine pair_fst_kept (by with_reducible assumption) ?_)
    | (with_reducible refine trip_kept (by with_reducible assumption) ?_)
    | dsimp only
    | split
    | fail_if_no_progress (with_reducible refine hC.mk_kept rfl ?_)
    | rfl

theorem State.pageProgram_kept {P : State → Prop} (hC : Closed P) {s : State} (code : Nat) (mismatch : Bool)  (hP : P s) :
    P (State.pageProgram s code mismatch) := by
  unfold State.pageProgram
  repeat' first
    | with_reducible assumption
    | (intro _)
    | with_reducible apply State.programRecord_kept hC
    | with_reducible apply State.jobPage_kept hC
    | with_reducible apply ite_kept
    | dsimp only
    | split
    | fail_if_no_progress (with_reducible refine hC.mk_kept rfl ?_)
    | rfl

theorem State.cplTake_kept {P : State → Prop} (hC : Closed P) {s : State} (q : Nat) (o : Nat)  (hP : P s) :
    P (((State.cplTake s q o)).2) := by
  unfold State.cplTake
  repeat' first
    | with_reducible assumption
    | (intro _)
    | dsimp only
    | split
    | fail_if_no_progress (with_reducible refine hC.mk_kept rfl ?_)
    | rfl

end Sys2Proof.Machine
end

