-- ==== Sys2Proof/Laws/KeptRing.lean ====
section
/-! SUPPORT. The definitions of Machine/Ring.lean keep every property that `Closed` describes. -/

namespace Sys2Proof.Machine

theorem State.updRing_kept {P : State → Prop} (hC : Closed P) {s : State} (f : RingSt → RingSt)  (hP : P s) :
    P (State.updRing s f) := by
  unfold State.updRing
  repeat' first
    | with_reducible assumption
    | (intro _)
    | dsimp only
    | split
    | fail_if_no_progress (with_reducible refine hC.mk_kept rfl ?_)
    | rfl

theorem State.setRingState_kept {P : State → Prop} (hC : Closed P) {s : State} (v : Nat)  (hP : P s) :
    P (State.setRingState s v) := by
  unfold State.setRingState
  repeat' first
    | with_reducible assumption
    | (intro _)
    | with_reducible apply State.setFld_kept hC
    | dsimp only
    | split
    | fail_if_no_progress (with_reducible refine hC.mk_kept rfl ?_)
    | rfl

theorem State.ringOut_kept {P : State → Prop} (hC : Closed P) {s : State} (east : Bool) (bs : Bytes)  (hP : P s) :
    P (State.ringOut s east bs) := by
  unfold State.ringOut
  repeat' first
    | with_reducible assumption
    | (intro _)
    | with_reducible apply hC.send
    | with_reducible apply ite_kept
    | dsimp only
    | split
    | fail_if_no_progress (with_reducible refine hC.mk_kept rfl ?_)
    | rfl

theorem State.ringSend_kept {P : State → Prop} (hC : Closed P) {s : State} (type : Nat) (cycle : Nat) (info : Nat)  (hP : P s) :
    P (State.ringSend s type cycle info) := by
  unfold State.ringSend
  repeat' first
    | with_reducible assumption
    | (intro _)
    | with_reducible apply State.ringOut_kept hC
    | dsimp only
    | split
    | fail_if_no_progress (with_reducible refine hC.mk_kept rfl ?_)
    | rfl

theorem State.ringHear_kept {P : State → Prop} (hC : Closed P) {s : State} (n : Nat)  (hP : P s) :
    P (State.ringHear s n) := by
  unfold State.ringHear
  repeat' first
    | with_reducible assumption
    | (intro _)
    | with_reducible apply State.updRing_kept hC
    | dsimp only
    | split
    | fail_if_no_progress (with_reducible refine hC.mk_kept rfl ?_)
    | rfl

theorem State.ringReceive_kept {P : State → Prop} (hC : Closed P) {s : State} (type : Nat) (east : Bool) (d : Bytes) (body : State → State)  (hbody : ∀ y0, P y0 →  P (body y0)) (hP : P s) :
    P (State.ringReceive s type east d body) := by
  unfold State.ringReceive
  repeat' first
    | with_reducible assumption
    | (intro _)
    | with_reducible apply State.activity_kept hC
    | with_reducible apply State.portCount_kept hC
    | with_reducible apply State.fault_kept hC
    | with_reducible apply State.ringOut_kept hC
    | with_reducible apply hbody
    | with_reducible apply ite_kept
    | dsimp only
    | split
    | fail_if_no_progress (with_reducible refine hC.mk_kept rfl ?_)
    | rfl

theorem State.ringListen_kept {P : State → Prop} (hC : Closed P) {s : State}  (hP : P s) :
    P (State.ringListen s) := by
  unfold State.ringListen
  repeat' first
    | with_reducible assumption
    | (intro _)
    | with_reducible apply State.setRingState_kept hC
    | with_reducible apply State.setFld_kept hC
    | with_reducible apply State.updRing_kept hC
    | dsimp only
    | split
    | fail_if_no_progress (with_reducible refine hC.mk_kept rfl ?_)
    | rfl

theorem State.ringAttempt_kept {P : State → Prop} (hC : Closed P) {s : State} (n : Nat)  (hP : P s) :
    P (State.ringAttempt s n) := by
  unfold State.ringAttempt
  repeat' first
    | with_reducible assumption
    | (intro _)
    | with_reducible apply hC.tookFree
    | with_reducible apply State.setRingState_kept hC
    | with_reducible apply State.updRing_kept hC
    | with_reducible apply ite_kept
    | dsimp only
    | split
    | fail_if_no_progress (with_reducible refine hC.mk_kept rfl ?_)
    | rfl

theorem State.ringCycle_kept {P : State → Prop} (hC : Closed P) {s : State} (count : Nat) (at_ : Nat)  (hP : P s) :
    P (State.ringCycle s count at_) := by
  unfold State.ringCycle
  repeat' first
    | with_reducible assumption
    | (intro _)
    | with_reducible apply hC.setReg
    | with_reducible apply State.updRing_kept hC
    | dsimp only
    | split
    | fail_if_no_progress (with_reducible refine hC.mk_kept rfl ?_)
    | rfl

theorem State.ringBeacon_kept {P : State → Prop} (hC : Closed P) {s : State} (count : Nat)  (hP : P s) :
    P (State.ringBeacon s count) := by
  unfold State.ringBeacon
  repeat' first
    | with_reducible assumption
    | (intro _)
    | with_reducible apply State.ringCycle_kept hC
    | with_reducible apply State.ringSend_kept hC
    | dsimp only
    | split
    | fail_if_no_progress (with_reducible refine hC.mk_kept rfl ?_)
    | rfl

theorem State.ringStart_kept {P : State → Prop} (hC : Closed P) {s : State}  (hP : P s) :
    P (State.ringStart s) := by
  unfold State.ringStart
  repeat' first
    | with_reducible assumption
    | (intro _)
    | with_reducible apply State.setFld_kept hC
    | with_reducible apply State.clrReady_kept hC
    | with_reducible apply State.ringListen_kept hC
    | with_reducible apply State.updRing_kept hC
    | dsimp only
    | split
    | fail_if_no_progress (with_reducible refine hC.mk_kept rfl ?_)
    | rfl

theorem State.ringStop_kept {P : State → Prop} (hC : Closed P) {s : State}  (hP : P s) :
    P (State.ringStop s) := by
  unfold State.ringStop
  repeat' first
    | with_reducible assumption
    | (intro _)
    | with_reducible apply State.ringSend_kept hC
    | with_reducible apply State.clrReady_kept hC
    | with_reducible apply State.setRingState_kept hC
    | with_reducible apply State.setFld_kept hC
    | with_reducible apply State.updRing_kept hC
    | with_reducible apply ite_kept
    | dsimp only
    | split
    | fail_if_no_progress (with_reducible refine hC.mk_kept rfl ?_)
    | rfl

theorem State.heedClaim_kept {P : State → Prop} (hC : Closed P) {s : State}   (hP : P s) :
    P (State.heedClaim s) := by
  unfold State.heedClaim
  repeat' first
    | with_reducible assumption
    | (intro _)
    | with_reducible apply State.setRingState_kept hC
    | with_reducible apply State.updRing_kept hC
    | with_reducible apply ite_kept
    | dsimp only
    | split
    | fail_if_no_progress (with_reducible refine hC.mk_kept rfl ?_)
    | rfl

theorem execClaim_kept {P : State → Prop} (hC : Closed P) (east : Bool) (data : Bytes) {s : State}  (hP : P s) :
    Res.Keeps P (execClaim east data s) := by
  unfold execClaim
  repeat' first
    | with_reducible assumption
    | (intro _)
    | with_reducible apply Res.keeps_next
    | with_reducible apply State.heedClaim_kept hC
    | with_reducible apply State.ringReceive_kept hC
    | with_reducible apply State.setRingState_kept hC
    | with_reducible apply State.updRing_kept hC
    | with_reducible apply ite_kept
    | dsimp only
    | split
    | fail_if_no_progress (with_reducible refine hC.mk_kept rfl ?_)
    | rfl

theorem State.ringFollow_kept {P : State → Prop} (hC : Closed P) {s : State} (d : Bytes)  (hP : P s) :
    P (State.ringFollow s d) := by
  unfold State.ringFollow
  repeat' first
    | with_reducible assumption
    | (intro _)
    | with_reducible apply State.setRingState_kept hC
    | with_reducible apply State.setFld_kept hC
    | with_reducible apply State.ringCycle_kept hC
    | with_reducible apply State.ringHear_kept hC
    | with_reducible apply ite_kept
    | dsimp only
    | split
    | fail_if_no_progress (with_reducible refine hC.mk_kept rfl ?_)
    | rfl

theorem State.heedBeacon_kept {P : State → Prop} (hC : Closed P) {s : State} (data : Bytes)  (hP : P s) :
    P (State.heedBeacon s data) := by
  unfold State.heedBeacon
  repeat' first
    | with_reducible assumption
    | (intro _)
    | with_reducible apply State.fault_kept hC
    | with_reducible apply State.ringFollow_kept hC
    | with_reducible apply ite_kept
    | dsimp only
    | split
    | fail_if_no_progress (with_reducible refine hC.mk_kept rfl ?_)
    | rfl

theorem execBeacon_kept {P : State → Prop} (hC : Closed P) (east : Bool) (data : Bytes) {s : State}  (hP : P s) :
    Res.Keeps P (execBeacon east data s) := by
  unfold execBeacon
  repeat' first
    | with_reducible assumption
    | (intro _)
    | with_reducible apply Res.keeps_next
    | with_reducible apply State.heedBeacon_kept hC
    | with_reducible apply State.ringReceive_kept hC
    | with_reducible apply State.fault_kept hC
    | with_reducible apply State.ringFollow_kept hC
    | with_reducible apply ite_kept
    | dsimp only
    | split
    | fail_if_no_progress (with_reducible refine hC.mk_kept rfl ?_)
    | rfl

theorem State.heedSlot_kept {P : State → Prop} (hC : Closed P) {s : State} (east : Bool) (data : Bytes)  (hP : P s) :
    P (State.heedSlot s east data) := by
  unfold State.heedSlot
  repeat' first
    | with_reducible assumption
    | (intro _)
    | with_reducible apply State.ringHear_kept hC
    | with_reducible apply State.portReceive_kept hC
    | with_reducible apply ite_kept
    | dsimp only
    | split
    | fail_if_no_progress (with_reducible refine hC.mk_kept rfl ?_)
    | rfl

theorem execSlot_kept {P : State → Prop} (hC : Closed P) (east : Bool) (data : Bytes) {s : State}  (hP : P s) :
    Res.Keeps P (execSlot east data s) := by
  unfold execSlot
  repeat' first
    | with_reducible assumption
    | (intro _)
    | with_reducible apply Res.keeps_next
    | with_reducible apply State.heedSlot_kept hC
    | with_reducible apply State.ringReceive_kept hC
    | with_reducible apply State.ringHear_kept hC
    | with_reducible apply State.portReceive_kept hC
    | with_reducible apply ite_kept
    | dsimp only
    | split
    | fail_if_no_progress (with_reducible refine hC.mk_kept rfl ?_)
    | rfl

theorem State.heedLeave_kept {P : State → Prop} (hC : Closed P) {s : State} (data : Bytes)  (hP : P s) :
    P (State.heedLeave s data) := by
  unfold State.heedLeave
  repeat' first
    | with_reducible assumption
    | (intro _)
    | with_reducible apply State.updRing_kept hC
    | with_reducible apply ite_kept
    | dsimp only
    | split
    | fail_if_no_progress (with_reducible refine hC.mk_kept rfl ?_)
    | rfl

theorem execLeave_kept {P : State → Prop} (hC : Closed P) (east : Bool) (data : Bytes) {s : State}  (hP : P s) :
    Res.Keeps P (execLeave east data s) := by
  unfold execLeave
  repeat' first
    | with_reducible assumption
    | (intro _)
    | with_reducible apply Res.keeps_next
    | with_reducible apply State.heedLeave_kept hC
    | with_reducible apply State.ringReceive_kept hC
    | with_reducible apply State.updRing_kept hC
    | with_reducible apply ite_kept
    | dsimp only
    | split
    | fail_if_no_progress (with_reducible refine hC.mk_kept rfl ?_)
    | rfl

theorem State.ringFrame_kept {P : State → Prop} (hC : Closed P) {s : State} (east : Bool) (d : Bytes)  (hP : P s) :
    P (State.ringFrame s east d) := by
  unfold State.ringFrame
  repeat' first
    | with_reducible assumption
    | (intro _)
    | with_reducible apply State.ringReceive_kept hC
    | with_reducible apply State.heedBeacon_kept hC
    | with_reducible apply State.heedSlot_kept hC
    | with_reducible apply State.heedLeave_kept hC
    | with_reducible apply State.heedClaim_kept hC
    | with_reducible apply ite_kept
    | (with_reducible refine pair_snd_kept (by with_reducible assumption) ?_)
    | (with_reducible refine pair_fst_kept (by with_reducible assumption) ?_)
    | (with_reducible refine trip_kept (by with_reducible assumption) ?_)
    | dsimp only
    | split
    | fail_if_no_progress (with_reducible refine hC.mk_kept rfl ?_)
    | rfl

theorem execFrameReceive_kept {P : State → Prop} (hC : Closed P) (src : Ingress) (data : Bytes) (fcsOk : Bool) {s : State}  (hP : P s) :
    Res.Keeps P (execFrameReceive src data fcsOk s) := by
  unfold execFrameReceive
  repeat' first
    | with_reducible assumption
    | (intro _)
    | with_reducible apply Res.keeps_next
    | with_reducible apply State.ringFrame_kept hC
    | with_reducible apply State.portReceive_kept hC
    | with_reducible apply State.ingress_kept hC
    | with_reducible apply ite_kept
    | (with_reducible refine pair_snd_kept (by with_reducible assumption) ?_)
    | (with_reducible refine pair_fst_kept (by with_reducible assumption) ?_)
    | (with_reducible refine trip_kept (by with_reducible assumption) ?_)
    | with_reducible apply ite_snd_kept
    | with_reducible apply ite_fst_kept
    | dsimp only
    | split
    | fail_if_no_progress (with_reducible refine hC.mk_kept rfl ?_)
    | rfl

theorem execRingListenEnd_kept {P : State → Prop} (hC : Closed P) {s : State}  (hP : P s) :
    Res.Keeps P (execRingListenEnd s) := by
  unfold execRingListenEnd
  repeat' first
    | with_reducible assumption
    | (intro _)
    | with_reducible apply Res.keeps_next
    | with_reducible apply State.ringAttempt_kept hC
    | with_reducible apply ite_kept
    | dsimp only
    | split
    | fail_if_no_progress (with_reducible refine hC.mk_kept rfl ?_)
    | rfl

theorem execRingBackoffEnd_kept {P : State → Prop} (hC : Closed P) {s : State}  (hP : P s) :
    Res.Keeps P (execRingBackoffEnd s) := by
  unfold execRingBackoffEnd
  repeat' first
    | with_reducible assumption
    | (intro _)
    | with_reducible apply Res.keeps_next
    | with_reducible apply State.ringSend_kept hC
    | with_reducible apply State.setRingState_kept hC
    | with_reducible apply State.updRing_kept hC
    | with_reducible apply ite_kept
    | dsimp only
    | split
    | fail_if_no_progress (with_reducible refine hC.mk_kept rfl ?_)
    | rfl

theorem execRingConfirmEnd_kept {P : State → Prop} (hC : Closed P) {s : State}  (hP : P s) :
    Res.Keeps P (execRingConfirmEnd s) := by
  unfold execRingConfirmEnd
  repeat' first
    | with_reducible assumption
    | (intro _)
    | with_reducible apply Res.keeps_next
    | with_reducible apply State.setFld_kept hC
    | with_reducible apply State.fault_kept hC
    | with_reducible apply State.ringListen_kept hC
    | with_reducible apply State.ringAttempt_kept hC
    | with_reducible apply State.setRingState_kept hC
    | with_reducible apply State.ringBeacon_kept hC
    | with_reducible apply ite_kept
    | dsimp only
    | split
    | fail_if_no_progress (with_reducible refine hC.mk_kept rfl ?_)
    | rfl

theorem execRingCycleStart_kept {P : State → Prop} (hC : Closed P) {s : State}  (hP : P s) :
    Res.Keeps P (execRingCycleStart s) := by
  unfold execRingCycleStart
  repeat' first
    | with_reducible assumption
    | (intro _)
    | with_reducible apply Res.keeps_next
    | with_reducible apply State.ringBeacon_kept hC
    | with_reducible apply ite_kept
    | dsimp only
    | split
    | fail_if_no_progress (with_reducible refine hC.mk_kept rfl ?_)
    | rfl

theorem execRingWindow_kept {P : State → Prop} (hC : Closed P) {s : State}  (hP : P s) :
    Res.Keeps P (execRingWindow s) := by
  unfold execRingWindow
  repeat' first
    | with_reducible assumption
    | (intro _)
    | with_reducible apply Res.keeps_next
    | with_reducible apply State.ringSend_kept hC
    | with_reducible apply State.updRing_kept hC
    | with_reducible apply ite_kept
    | dsimp only
    | split
    | fail_if_no_progress (with_reducible refine hC.mk_kept rfl ?_)
    | rfl

theorem State.ringSettled_kept {P : State → Prop} (hC : Closed P) {s : State} (st : Nat)  (hP : P s) :
    P (State.ringSettled s st) := by
  unfold State.ringSettled
  repeat' first
    | with_reducible assumption
    | (intro _)
    | with_reducible apply State.setRingState_kept hC
    | with_reducible apply State.setReady_kept hC
    | with_reducible apply State.endJobOf_kept hC
    | with_reducible apply ite_kept
    | dsimp only
    | split
    | fail_if_no_progress (with_reducible refine hC.mk_kept rfl ?_)
    | rfl

theorem execRingCycleEnd_kept {P : State → Prop} (hC : Closed P) {s : State}  (hP : P s) :
    Res.Keeps P (execRingCycleEnd s) := by
  unfold execRingCycleEnd
  repeat' first
    | with_reducible assumption
    | (intro _)
    | with_reducible apply Res.keeps_next
    | with_reducible apply State.updRing_kept hC
    | with_reducible apply hC.setReg
    | with_reducible apply State.ringSettled_kept hC
    | with_reducible apply ite_kept
    | dsimp only
    | split
    | fail_if_no_progress (with_reducible refine hC.mk_kept rfl ?_)
    | rfl

theorem execRingStartTimeout_kept {P : State → Prop} (hC : Closed P) {s : State}  (hP : P s) :
    Res.Keeps P (execRingStartTimeout s) := by
  unfold execRingStartTimeout
  repeat' first
    | with_reducible assumption
    | (intro _)
    | with_reducible apply Res.keeps_next
    | with_reducible apply State.setFld_kept hC
    | with_reducible apply State.fault_kept hC
    | with_reducible apply State.ringSettled_kept hC
    | with_reducible apply ite_kept
    | dsimp only
    | split
    | fail_if_no_progress (with_reducible refine hC.mk_kept rfl ?_)
    | rfl

theorem execRingBeaconMiss_kept {P : State → Prop} (hC : Closed P) {s : State}  (hP : P s) :
    Res.Keeps P (execRingBeaconMiss s) := by
  unfold execRingBeaconMiss
  repeat' first
    | with_reducible assumption
    | (intro _)
    | with_reducible apply Res.keeps_next
    | with_reducible apply State.clrReady_kept hC
    | with_reducible apply State.ringListen_kept hC
    | with_reducible apply State.fault_kept hC
    | with_reducible apply ite_kept
    | dsimp only
    | split
    | fail_if_no_progress (with_reducible refine hC.mk_kept rfl ?_)
    | rfl

theorem execRingStart_kept {P : State → Prop} (hC : Closed P) (tag : BitVec 10) {s : State}  (hP : P s) :
    Res.Keeps P (execRingStart tag s) := by
  unfold execRingStart
  repeat' first
    | with_reducible assumption
    | (intro _)
    | with_reducible apply Res.keeps_next
    | with_reducible apply State.startJob_kept hC
    | with_reducible apply State.ringStart_kept hC
    | dsimp only
    | split
    | fail_if_no_progress (with_reducible refine hC.mk_kept rfl ?_)
    | rfl

end Sys2Proof.Machine
end

