-- ==== Sys2Proof/Laws/KeptGraftLink.lean ====
section
/-! SUPPORT. The definitions of Machine/GraftLink.lean keep every property that `Closed` describes. -/

namespace Sys2Proof.Machine

theorem State.updGraft_kept {P : State → Prop} (hC : Closed P) {s : State} (f : GraftSt → GraftSt)  (hP : P s) :
    P (State.updGraft s f) := by
  unfold State.updGraft
  repeat' first
    | with_reducible assumption
    | (intro _)
    | dsimp only
    | split
    | fail_if_no_progress (with_reducible refine hC.mk_kept rfl ?_)
    | rfl

theorem State.graftTo_kept {P : State → Prop} (hC : Closed P) {s : State} (st : Nat)  (hP : P s) :
    P (State.graftTo s st) := by
  unfold State.graftTo
  repeat' first
    | with_reducible assumption
    | (intro _)
    | with_reducible apply State.setFld_kept hC
    | dsimp only
    | split
    | fail_if_no_progress (with_reducible refine hC.mk_kept rfl ?_)
    | rfl

theorem State.graftSend_kept {P : State → Prop} (hC : Closed P) {s : State} (type : Nat) (epoch : Nat) (offset : Nat) (payload : Bytes)  (hP : P s) :
    P (State.graftSend s type epoch offset payload) := by
  unfold State.graftSend
  repeat' first
    | with_reducible assumption
    | (intro _)
    | with_reducible apply State.updGraft_kept hC
    | with_reducible apply hC.send
    | with_reducible apply ite_kept
    | dsimp only
    | split
    | fail_if_no_progress (with_reducible refine hC.mk_kept rfl ?_)
    | rfl

theorem State.graftAbort_kept {P : State → Prop} (hC : Closed P) {s : State}  (hP : P s) :
    P (State.graftAbort s) := by
  unfold State.graftAbort
  repeat' first
    | with_reducible assumption
    | (intro _)
    | with_reducible apply State.graftSend_kept hC
    | with_reducible apply State.updGraft_kept hC
    | with_reducible apply State.graftTo_kept hC
    | with_reducible apply ite_kept
    | dsimp only
    | split
    | fail_if_no_progress (with_reducible refine hC.mk_kept rfl ?_)
    | rfl

end Sys2Proof.Machine
end

