-- ==== Sys2Proof/Laws/KeptRows.lean ====
section
/-! SUPPORT. The definitions of Machine/Rows.lean keep every property that `Closed` describes. -/

namespace Sys2Proof.Machine

theorem State.dropWaiting_kept {P : State → Prop} (hC : Closed P) {s : State} (r : Nat) (q : Nat)  (hP : P s) :
    P (State.dropWaiting s r q) := by
  unfold State.dropWaiting
  repeat' first
    | with_reducible assumption
    | (intro _)
    | with_reducible apply State.dropFrame_kept hC
    | with_reducible apply State.setHqWaiting_kept hC
    | with_reducible apply foldl_kept
    | with_reducible apply foldl_snd_kept
    | with_reducible apply foldl_fst_kept
    | dsimp only
    | split
    | fail_if_no_progress (with_reducible refine hC.mk_kept rfl ?_)
    | rfl

theorem State.stopQueues_kept {P : State → Prop} (hC : Closed P) {s : State} (r : Nat)  (hP : P s) :
    P (State.stopQueues s r) := by
  unfold State.stopQueues
  repeat' first
    | with_reducible assumption
    | (intro _)
    | with_reducible apply State.setFld_kept hC
    | with_reducible apply State.dropWaiting_kept hC
    | with_reducible apply foldl_kept
    | with_reducible apply foldl_snd_kept
    | with_reducible apply foldl_fst_kept
    | dsimp only
    | split
    | fail_if_no_progress (with_reducible refine hC.mk_kept rfl ?_)
    | rfl

theorem State.hostRead_kept {P : State → Prop} (hC : Closed P) {s : State} (r : Nat) (addr : Nat) (n : Nat)  (hP : P s) :
    P (State.hostRead s r addr n) := by
  unfold State.hostRead
  repeat' first
    | with_reducible assumption
    | (intro _)
    | with_reducible apply hC.send
    | with_reducible apply ite_kept
    | dsimp only
    | split
    | fail_if_no_progress (with_reducible refine hC.mk_kept rfl ?_)
    | rfl

theorem State.completeDesc_kept {P : State → Prop} (hC : Closed P) {s : State} (r : Nat) (q : Nat) (len : Nat) (tag : Nat) (status : Nat)  (hP : P s) :
    P (State.completeDesc s r q len tag status) := by
  unfold State.completeDesc
  repeat' first
    | with_reducible assumption
    | (intro _)
    | with_reducible apply hC.send
    | with_reducible apply State.setFld_kept hC
    | with_reducible apply State.event_kept hC
    | dsimp only
    | split
    | fail_if_no_progress (with_reducible refine hC.mk_kept rfl ?_)
    | rfl

theorem State.doorbell_kept {P : State → Prop} (hC : Closed P) {s : State} (r : Nat) (q : Nat) (v : Word)  (hP : P s) :
    P (State.doorbell s r q v) := by
  unfold State.doorbell
  repeat' first
    | with_reducible assumption
    | (intro _)
    | with_reducible apply State.refuse_kept hC
    | with_reducible apply State.setFld_kept hC
    | with_reducible apply State.fault_kept hC
    | with_reducible apply ite_kept
    | dsimp only
    | split
    | fail_if_no_progress (with_reducible refine hC.mk_kept rfl ?_)
    | rfl

theorem execDoorbell_kept {P : State → Prop} (hC : Closed P) (r : Fin 8) (q : Fin 8) (v : Word) {s : State}  (hP : P s) :
    Res.Keeps P (execDoorbell r q v s) := by
  unfold execDoorbell
  repeat' first
    | with_reducible assumption
    | (intro _)
    | with_reducible apply Res.keeps_next
    | with_reducible apply State.doorbell_kept hC
    | dsimp only
    | split
    | fail_if_no_progress (with_reducible refine hC.mk_kept rfl ?_)
    | rfl

theorem execH2dDescriptor_kept {P : State → Prop} (hC : Closed P) (r : Fin 8) (q : Fin 8) (lo : BitVec 64) (w2 w3 : Word) (data : Bytes) (bad : Bool) {s : State}  (hP : P s) :
    Res.Keeps P (execH2dDescriptor r q lo w2 w3 data bad s) := by
  unfold execH2dDescriptor
  repeat' first
    | with_reducible assumption
    | (intro _)
    | with_reducible apply Res.keeps_next
    | with_reducible apply State.hostRead_kept hC
    | with_reducible apply State.completeDesc_kept hC
    | with_reducible apply State.fault_kept hC
    | with_reducible apply State.ingress_kept hC
    | with_reducible apply ite_kept
    | (with_reducible refine pair_snd_kept (by with_reducible assumption) ?_)
    | (with_reducible refine pair_fst_kept (by with_reducible assumption) ?_)
    | (with_reducible refine trip_kept (by with_reducible assumption) ?_)
    | with_reducible apply ite_snd_kept
    | with_reducible apply ite_fst_kept
    | dsimp only
    | split
    | fail_if_no_progress (with_reducible refine hC.mk_kept rfl ?_)
    | rfl

theorem execD2hDelivery_kept {P : State → Prop} (hC : Closed P) (r : Fin 8) (q : Fin 8) (lo : BitVec 64) (w2 w3 : Word) (bad : Bool) {s : State}  (hP : P s) :
    Res.Keeps P (execD2hDelivery r q lo w2 w3 bad s) := by
  unfold execD2hDelivery
  repeat' first
    | with_reducible assumption
    | (intro _)
    | with_reducible apply Res.keeps_next
    | with_reducible apply State.hostRead_kept hC
    | with_reducible apply State.completeDesc_kept hC
    | with_reducible apply State.fault_kept hC
    | with_reducible apply State.frameRead_kept hC
    | with_reducible apply hC.tookFree
    | with_reducible apply hC.send
    | with_reducible apply State.setHqWaiting_kept hC
    | with_reducible apply State.freeSlot_kept hC
    | with_reducible apply ite_kept
    | (with_reducible refine pair_snd_kept (by with_reducible assumption) ?_)
    | (with_reducible refine pair_fst_kept (by with_reducible assumption) ?_)
    | (with_reducible refine trip_kept (by with_reducible assumption) ?_)
    | with_reducible apply ite_snd_kept
    | with_reducible apply ite_fst_kept
    | dsimp only
    | split
    | fail_if_no_progress (with_reducible refine hC.mk_kept rfl ?_)
    | rfl

theorem execMsixMessage_kept {P : State → Prop} (hC : Closed P) (r : Fin 8) (v : Fin 32) {s : State}  (hP : P s) :
    Res.Keeps P (execMsixMessage r v s) := by
  unfold execMsixMessage
  repeat' first
    | with_reducible assumption
    | (intro _)
    | with_reducible apply Res.keeps_next
    | with_reducible apply State.updRow_kept hC
    | with_reducible apply hC.send
    | with_reducible apply ite_kept
    | dsimp only
    | split
    | fail_if_no_progress (with_reducible refine hC.mk_kept rfl ?_)
    | rfl

theorem State.startSupervisor_kept {P : State → Prop} (hC : Closed P) {s : State} (r : Nat)  (hP : P s) :
    P (State.startSupervisor s r) := by
  unfold State.startSupervisor
  repeat' first
    | with_reducible assumption
    | (intro _)
    | with_reducible apply State.setThr_kept hC
    | with_reducible apply ite_kept
    | dsimp only
    | split
    | fail_if_no_progress (with_reducible refine hC.mk_kept rfl ?_)
    | rfl

theorem State.enableRow_kept {P : State → Prop} (hC : Closed P) {s : State} (r : Nat)  (hP : P s) :
    P (State.enableRow s r) := by
  unfold State.enableRow
  repeat' first
    | with_reducible assumption
    | (intro _)
    | with_reducible apply State.updThr_kept hC
    | with_reducible apply State.startSupervisor_kept hC
    | with_reducible apply foldl_kept
    | with_reducible apply foldl_snd_kept
    | with_reducible apply foldl_fst_kept
    | with_reducible apply ite_kept
    | dsimp only
    | split
    | fail_if_no_progress (with_reducible refine hC.mk_kept rfl ?_)
    | rfl

theorem State.disbandRow_kept {P : State → Prop} (hC : Closed P) {s : State} (r : Nat)  (hP : P s) :
    P (State.disbandRow s r) := by
  unfold State.disbandRow
  repeat' first
    | with_reducible assumption
    | (intro _)
    | with_reducible apply State.dropHelpers_kept hC
    | with_reducible apply State.updThr_kept hC
    | with_reducible apply foldl_kept
    | with_reducible apply foldl_snd_kept
    | with_reducible apply foldl_fst_kept
    | with_reducible apply ite_kept
    | dsimp only
    | split
    | fail_if_no_progress (with_reducible refine hC.mk_kept rfl ?_)
    | rfl

theorem State.emptyRow_kept {P : State → Prop} (hC : Closed P) {s : State} (r : Nat)  (hP : P s) :
    P (State.emptyRow s r) := by
  unfold State.emptyRow
  repeat' first
    | with_reducible assumption
    | (intro _)
    | with_reducible apply State.updEsp_kept hC
    | with_reducible apply State.updRow_kept hC
    | with_reducible apply State.undispatch_kept hC
    | with_reducible apply State.freeSlot_kept hC
    | with_reducible apply foldl_kept
    | with_reducible apply foldl_snd_kept
    | with_reducible apply foldl_fst_kept
    | dsimp only
    | split
    | fail_if_no_progress (with_reducible refine hC.mk_kept rfl ?_)
    | rfl

theorem State.rowReset_kept {P : State → Prop} (hC : Closed P) {s : State} (r : Nat) (src : Nat)  (hP : P s) :
    P (State.rowReset s r src) := by
  unfold State.rowReset
  repeat' first
    | with_reducible assumption
    | (intro _)
    | with_reducible apply State.setFld_kept hC
    | with_reducible apply State.stopQueues_kept hC
    | with_reducible apply State.updThr_kept hC
    | with_reducible apply State.dropHelpers_kept hC
    | with_reducible apply State.voidRow_kept hC
    | with_reducible apply State.emptyRow_kept hC
    | with_reducible apply State.abortJobs_kept hC
    | with_reducible apply State.graftAbort_kept hC
    | with_reducible apply foldl_kept
    | with_reducible apply foldl_snd_kept
    | with_reducible apply foldl_fst_kept
    | with_reducible apply ite_kept
    | dsimp only
    | split
    | fail_if_no_progress (with_reducible refine hC.mk_kept rfl ?_)
    | rfl

theorem State.rowResetOff_kept {P : State → Prop} (hC : Closed P) {s : State} (r : Nat)  (hP : P s) :
    P (State.rowResetOff s r) := by
  unfold State.rowResetOff
  repeat' first
    | with_reducible assumption
    | (intro _)
    | with_reducible apply State.abortJobs_kept hC
    | with_reducible apply State.graftAbort_kept hC
    | with_reducible apply State.updRow_kept hC
    | with_reducible apply ite_kept
    | dsimp only
    | split
    | fail_if_no_progress (with_reducible refine hC.mk_kept rfl ?_)
    | rfl

theorem execRowResetDone_kept {P : State → Prop} (hC : Closed P) (r : Fin 8) {s : State}  (hP : P s) :
    Res.Keeps P (execRowResetDone r s) := by
  unfold execRowResetDone
  repeat' first
    | with_reducible assumption
    | (intro _)
    | with_reducible apply Res.keeps_next
    | with_reducible apply hC.setReg
    | with_reducible apply State.updRow_kept hC
    | with_reducible apply State.setFld_kept hC
    | with_reducible apply State.startSupervisor_kept hC
    | with_reducible apply State.disbandRow_kept hC
    | with_reducible apply foldl_kept
    | with_reducible apply foldl_snd_kept
    | with_reducible apply foldl_fst_kept
    | with_reducible apply ite_kept
    | dsimp only
    | split
    | fail_if_no_progress (with_reducible refine hC.mk_kept rfl ?_)
    | rfl

theorem State.rowWdtRestart_kept {P : State → Prop} (hC : Closed P) {s : State} (r : Nat)  (hP : P s) :
    P (State.rowWdtRestart s r) := by
  unfold State.rowWdtRestart
  repeat' first
    | with_reducible assumption
    | (intro _)
    | dsimp only
    | split
    | fail_if_no_progress (with_reducible refine hC.mk_kept rfl ?_)
    | rfl

theorem State.rowCfgErr_kept {P : State → Prop} (hC : Closed P) {s : State} (r : Nat)  (hP : P s) :
    P (State.rowCfgErr s r) := by
  unfold State.rowCfgErr
  repeat' first
    | with_reducible assumption
    | (intro _)
    | with_reducible apply State.setFld_kept hC
    | dsimp only
    | split
    | fail_if_no_progress (with_reducible refine hC.mk_kept rfl ?_)
    | rfl

theorem State.rowHook_kept {P : State → Prop} (hC : Closed P) {s : State} (off : Nat) (old : Word) (wr : Word)  (hP : P s) :
    P (State.rowHook s off old wr) := by
  unfold State.rowHook
  repeat' first
    | with_reducible assumption
    | (intro _)
    | with_reducible apply State.rowWdtRestart_kept hC
    | with_reducible apply hC.setReg
    | with_reducible apply State.rowCfgErr_kept hC
    | with_reducible apply State.enableRow_kept hC
    | with_reducible apply State.rowReset_kept hC
    | with_reducible apply State.setFld_kept hC
    | with_reducible apply State.dropWaiting_kept hC
    | with_reducible apply foldl_kept
    | with_reducible apply foldl_snd_kept
    | with_reducible apply foldl_fst_kept
    | with_reducible apply ite_kept
    | dsimp only
    | split
    | fail_if_no_progress (with_reducible refine hC.mk_kept rfl ?_)
    | rfl

theorem State.fnReset_kept {P : State → Prop} (hC : Closed P) {s : State} (r : Nat)  (hP : P s) :
    P (State.fnReset s r) := by
  unfold State.fnReset
  repeat' first
    | with_reducible assumption
    | (intro _)
    | with_reducible apply State.updRow_kept hC
    | dsimp only
    | split
    | fail_if_no_progress (with_reducible refine hC.mk_kept rfl ?_)
    | rfl

theorem State.mailboxAbort_kept {P : State → Prop} (hC : Closed P) {s : State} (r : Nat)  (hP : P s) :
    P (State.mailboxAbort s r) := by
  unfold State.mailboxAbort
  repeat' first
    | with_reducible assumption
    | (intro _)
    | with_reducible apply State.updRow_kept hC
    | with_reducible apply ite_kept
    | dsimp only
    | split
    | fail_if_no_progress (with_reducible refine hC.mk_kept rfl ?_)
    | rfl

theorem State.linkDown_kept {P : State → Prop} (hC : Closed P) {s : State}  (hP : P s) :
    P (State.linkDown s) := by
  unfold State.linkDown
  repeat' first
    | with_reducible assumption
    | (intro _)
    | with_reducible apply State.clrReady_kept hC
    | with_reducible apply State.stopQueues_kept hC
    | with_reducible apply State.mailboxAbort_kept hC
    | with_reducible apply State.fnReset_kept hC
    | with_reducible apply hC.setReg
    | with_reducible apply State.fault_kept hC
    | with_reducible apply foldl_kept
    | with_reducible apply foldl_snd_kept
    | with_reducible apply foldl_fst_kept
    | with_reducible apply ite_kept
    | dsimp only
    | split
    | fail_if_no_progress (with_reducible refine hC.mk_kept rfl ?_)
    | rfl

theorem execLinkDown_kept {P : State → Prop} (hC : Closed P) {s : State}  (hP : P s) :
    Res.Keeps P (execLinkDown s) := by
  unfold execLinkDown
  repeat' first
    | with_reducible assumption
    | (intro _)
    | with_reducible apply Res.keeps_next
    | with_reducible apply State.linkDown_kept hC
    | with_reducible apply ite_kept
    | dsimp only
    | split
    | fail_if_no_progress (with_reducible refine hC.mk_kept rfl ?_)
    | rfl

theorem execPerstFall_kept {P : State → Prop} (hC : Closed P) {s : State}  (hP : P s) :
    Res.Keeps P (execPerstFall s) := by
  unfold execPerstFall
  repeat' first
    | with_reducible assumption
    | (intro _)
    | with_reducible apply Res.keeps_next
    | with_reducible apply State.linkDown_kept hC
    | with_reducible apply ite_kept
    | dsimp only
    | split
    | fail_if_no_progress (with_reducible refine hC.mk_kept rfl ?_)
    | rfl

theorem execPerstRise_kept {P : State → Prop} (hC : Closed P) {s : State}  (hP : P s) :
    Res.Keeps P (execPerstRise s) := by
  unfold execPerstRise
  repeat' first
    | with_reducible assumption
    | (intro _)
    | with_reducible apply Res.keeps_next
    | dsimp only
    | split
    | fail_if_no_progress (with_reducible refine hC.mk_kept rfl ?_)
    | rfl

theorem execPcieLinkUp_kept {P : State → Prop} (hC : Closed P) (speed : Fin 16) (width : Fin 16) {s : State}  (hP : P s) :
    Res.Keeps P (execPcieLinkUp speed width s) := by
  unfold execPcieLinkUp
  repeat' first
    | with_reducible assumption
    | (intro _)
    | with_reducible apply Res.keeps_next
    | with_reducible apply State.setFld_kept hC
    | with_reducible apply State.setReady_kept hC
    | with_reducible apply ite_kept
    | dsimp only
    | split
    | fail_if_no_progress (with_reducible refine hC.mk_kept rfl ?_)
    | rfl

theorem execFunctionLevelReset_kept {P : State → Prop} (hC : Closed P) (r : Fin 8) {s : State}  (hP : P s) :
    Res.Keeps P (execFunctionLevelReset r s) := by
  unfold execFunctionLevelReset
  repeat' first
    | with_reducible assumption
    | (intro _)
    | with_reducible apply Res.keeps_next
    | with_reducible apply State.rowResetOff_kept hC
    | with_reducible apply State.fnReset_kept hC
    | with_reducible apply State.rowReset_kept hC
    | with_reducible apply ite_kept
    | dsimp only
    | split
    | fail_if_no_progress (with_reducible refine hC.mk_kept rfl ?_)
    | rfl

theorem State.cfgRead_kept {P : State → Prop} (hC : Closed P) {s : State} (r : Nat) (off : Nat)  (hP : P s) :
    P (((State.cfgRead s r off)).2) := by
  unfold State.cfgRead
  repeat' first
    | with_reducible assumption
    | (intro _)
    | with_reducible apply hC.tookFree
    | with_reducible apply ite_kept
    | with_reducible apply ite_snd_kept
    | with_reducible apply ite_fst_kept
    | dsimp only
    | split
    | fail_if_no_progress (with_reducible refine hC.mk_kept rfl ?_)
    | rfl

theorem execConfigRequest_kept {P : State → Prop} (hC : Closed P) (pf : Fin 8) (op : CfgOp) {s : State}  (hP : P s) :
    Res.Keeps P (execConfigRequest pf op s) := by
  unfold execConfigRequest
  repeat' first
    | with_reducible assumption
    | (intro _)
    | with_reducible apply Res.keeps_next
    | with_reducible apply State.cfgRead_kept hC
    | with_reducible apply hC.send
    | with_reducible apply State.updRow_kept hC
    | with_reducible apply ite_kept
    | with_reducible apply ite_snd_kept
    | with_reducible apply ite_fst_kept
    | (with_reducible refine pair_snd_kept (by with_reducible assumption) ?_)
    | (with_reducible refine pair_fst_kept (by with_reducible assumption) ?_)
    | (with_reducible refine trip_kept (by with_reducible assumption) ?_)
    | dsimp only
    | split
    | fail_if_no_progress (with_reducible refine hC.mk_kept rfl ?_)
    | rfl

end Sys2Proof.Machine
end

