-- ==== Sys2Proof/Laws/KeptUsb.lean ====
section
/-! SUPPORT. The definitions of Machine/Usb.lean keep every property that `Closed` describes. -/

namespace Sys2Proof.Machine

theorem State.updUsb_kept {P : State → Prop} (hC : Closed P) {s : State} (f : UsbSt → UsbSt)  (hP : P s) :
    P (State.updUsb s f) := by
  unfold State.updUsb
  repeat' first
    | with_reducible assumption
    | (intro _)
    | dsimp only
    | split
    | fail_if_no_progress (with_reducible refine hC.mk_kept rfl ?_)
    | rfl

theorem State.usbDefault_kept {P : State → Prop} (hC : Closed P) {s : State}  (hP : P s) :
    P (State.usbDefault s) := by
  unfold State.usbDefault
  repeat' first
    | with_reducible assumption
    | (intro _)
    | with_reducible apply State.clrReady_kept hC
    | with_reducible apply State.setFld_kept hC
    | with_reducible apply State.updUsb_kept hC
    | dsimp only
    | split
    | fail_if_no_progress (with_reducible refine hC.mk_kept rfl ?_)
    | rfl

theorem State.usbPullup_kept {P : State → Prop} (hC : Closed P) {s : State}  (hP : P s) :
    P (State.usbPullup s) := by
  unfold State.usbPullup
  repeat' first
    | with_reducible assumption
    | (intro _)
    | with_reducible apply State.usbDefault_kept hC
    | with_reducible apply State.updUsb_kept hC
    | with_reducible apply ite_kept
    | dsimp only
    | split
    | fail_if_no_progress (with_reducible refine hC.mk_kept rfl ?_)
    | rfl

theorem execUsbAttach_kept {P : State → Prop} (hC : Closed P) (vbus : Bool) {s : State}  (hP : P s) :
    Res.Keeps P (execUsbAttach vbus s) := by
  unfold execUsbAttach
  repeat' first
    | with_reducible assumption
    | (intro _)
    | with_reducible apply Res.keeps_next
    | with_reducible apply State.updUsb_kept hC
    | with_reducible apply State.usbPullup_kept hC
    | dsimp only
    | split
    | fail_if_no_progress (with_reducible refine hC.mk_kept rfl ?_)
    | rfl

theorem execUsbBusReset_kept {P : State → Prop} (hC : Closed P) (hs : Bool) {s : State}  (hP : P s) :
    Res.Keeps P (execUsbBusReset hs s) := by
  unfold execUsbBusReset
  repeat' first
    | with_reducible assumption
    | (intro _)
    | with_reducible apply Res.keeps_next
    | with_reducible apply State.usbDefault_kept hC
    | with_reducible apply State.setFld_kept hC
    | with_reducible apply ite_kept
    | dsimp only
    | split
    | fail_if_no_progress (with_reducible refine hC.mk_kept rfl ?_)
    | rfl

theorem execSetConfiguration_kept {P : State → Prop} (hC : Closed P) (hub : Bool) (on : Bool) {s : State}  (hP : P s) :
    Res.Keeps P (execSetConfiguration hub on s) := by
  unfold execSetConfiguration
  repeat' first
    | with_reducible assumption
    | (intro _)
    | with_reducible apply Res.keeps_next
    | with_reducible apply State.clrReady_kept hC
    | with_reducible apply State.updUsb_kept hC
    | with_reducible apply State.setReady_kept hC
    | with_reducible apply State.setFld_kept hC
    | with_reducible apply ite_kept
    | dsimp only
    | split
    | fail_if_no_progress (with_reducible refine hC.mk_kept rfl ?_)
    | rfl

theorem State.ep1In_kept {P : State → Prop} (hC : Closed P) {s : State}   (hP : P s) :
    P (State.ep1In s) := by
  unfold State.ep1In
  repeat' first
    | with_reducible assumption
    | (intro _)
    | with_reducible apply State.updUsb_kept hC
    | with_reducible apply hC.send
    | with_reducible apply ite_kept
    | (with_reducible refine pair_snd_kept (by with_reducible assumption) ?_)
    | (with_reducible refine pair_fst_kept (by with_reducible assumption) ?_)
    | (with_reducible refine trip_kept (by with_reducible assumption) ?_)
    | dsimp only
    | split
    | fail_if_no_progress (with_reducible refine hC.mk_kept rfl ?_)
    | rfl

theorem execBulkOutPacket_kept {P : State → Prop} (hC : Closed P) (data : Bytes) {s : State}  (hP : P s) :
    Res.Keeps P (execBulkOutPacket data s) := by
  unfold execBulkOutPacket
  repeat' first
    | with_reducible assumption
    | (intro _)
    | with_reducible apply Res.keeps_next
    | with_reducible apply hC.send
    | with_reducible apply State.updUsb_kept hC
    | with_reducible apply State.drain_kept hC
    | with_reducible apply ite_kept
    | dsimp only
    | split
    | fail_if_no_progress (with_reducible refine hC.mk_kept rfl ?_)
    | rfl

theorem execPing_kept {P : State → Prop} (hC : Closed P) {s : State}  (hP : P s) :
    Res.Keeps P (execPing s) := by
  unfold execPing
  repeat' first
    | with_reducible assumption
    | (intro _)
    | with_reducible apply Res.keeps_next
    | with_reducible apply hC.send
    | with_reducible apply ite_kept
    | dsimp only
    | split
    | fail_if_no_progress (with_reducible refine hC.mk_kept rfl ?_)
    | rfl

theorem State.ntfRaise_kept {P : State → Prop} (hC : Closed P) {s : State} (bits : Nat)  (hP : P s) :
    P (State.ntfRaise s bits) := by
  unfold State.ntfRaise
  repeat' first
    | with_reducible assumption
    | (intro _)
    | with_reducible apply State.setFld_kept hC
    | with_reducible apply State.updUsb_kept hC
    | dsimp only
    | split
    | fail_if_no_progress (with_reducible refine hC.mk_kept rfl ?_)
    | rfl

theorem execNotificationPoll_kept {P : State → Prop} (hC : Closed P) {s : State}  (hP : P s) :
    Res.Keeps P (execNotificationPoll s) := by
  unfold execNotificationPoll
  repeat' first
    | with_reducible assumption
    | (intro _)
    | with_reducible apply Res.keeps_next
    | with_reducible apply hC.send
    | with_reducible apply State.updUsb_kept hC
    | with_reducible apply ite_kept
    | dsimp only
    | split
    | fail_if_no_progress (with_reducible refine hC.mk_kept rfl ?_)
    | rfl

theorem execNotificationAck_kept {P : State → Prop} (hC : Closed P) {s : State}  (hP : P s) :
    Res.Keeps P (execNotificationAck s) := by
  unfold execNotificationAck
  repeat' first
    | with_reducible assumption
    | (intro _)
    | with_reducible apply Res.keeps_next
    | with_reducible apply State.setFld_kept hC
    | with_reducible apply State.updUsb_kept hC
    | dsimp only
    | split
    | fail_if_no_progress (with_reducible refine hC.mk_kept rfl ?_)
    | rfl

theorem State.portChange_kept {P : State → Prop} (hC : Closed P) {s : State} (n : Nat) (b : Nat)  (hP : P s) :
    P (State.portChange s n b) := by
  unfold State.portChange
  repeat' first
    | with_reducible assumption
    | (intro _)
    | with_reducible apply State.updUsb_kept hC
    | with_reducible apply State.ntfRaise_kept hC
    | dsimp only
    | split
    | fail_if_no_progress (with_reducible refine hC.mk_kept rfl ?_)
    | rfl

theorem State.portPowerTo_kept {P : State → Prop} (hC : Closed P) {s : State} (n : Nat) (on : Bool)  (hP : P s) :
    P (State.portPowerTo s n on) := by
  unfold State.portPowerTo
  repeat' first
    | with_reducible assumption
    | (intro _)
    | with_reducible apply State.setFld_kept hC
    | with_reducible apply ite_kept
    | dsimp only
    | split
    | fail_if_no_progress (with_reducible refine hC.mk_kept rfl ?_)
    | rfl

theorem execPortPower_kept {P : State → Prop} (hC : Closed P) (n : Fin 2) (on : Bool) {s : State}  (hP : P s) :
    Res.Keeps P (execPortPower n on s) := by
  unfold execPortPower
  repeat' first
    | with_reducible assumption
    | (intro _)
    | with_reducible apply Res.keeps_next
    | with_reducible apply State.portPowerTo_kept hC
    | with_reducible apply ite_kept
    | dsimp only
    | split
    | fail_if_no_progress (with_reducible refine hC.mk_kept rfl ?_)
    | rfl

theorem execUsbOvercurrent_kept {P : State → Prop} (hC : Closed P) (n : Fin 2) {s : State}  (hP : P s) :
    Res.Keeps P (execUsbOvercurrent n s) := by
  unfold execUsbOvercurrent
  repeat' first
    | with_reducible assumption
    | (intro _)
    | with_reducible apply Res.keeps_next
    | with_reducible apply State.portPowerTo_kept hC
    | with_reducible apply State.setFld_kept hC
    | with_reducible apply State.portChange_kept hC
    | with_reducible apply State.fault_kept hC
    | with_reducible apply ite_kept
    | dsimp only
    | split
    | fail_if_no_progress (with_reducible refine hC.mk_kept rfl ?_)
    | rfl

theorem execBabble_kept {P : State → Prop} (hC : Closed P) (n : Fin 2) {s : State}  (hP : P s) :
    Res.Keeps P (execBabble n s) := by
  unfold execBabble
  repeat' first
    | with_reducible assumption
    | (intro _)
    | with_reducible apply Res.keeps_next
    | with_reducible apply State.setFld_kept hC
    | with_reducible apply State.satAdd_kept hC
    | with_reducible apply State.portChange_kept hC
    | with_reducible apply State.fault_kept hC
    | with_reducible apply ite_kept
    | dsimp only
    | split
    | fail_if_no_progress (with_reducible refine hC.mk_kept rfl ?_)
    | rfl

theorem execPortConnectChange_kept {P : State → Prop} (hC : Closed P) (n : Fin 2) (conn : Bool) {s : State}  (hP : P s) :
    Res.Keeps P (execPortConnectChange n conn s) := by
  unfold execPortConnectChange
  repeat' first
    | with_reducible assumption
    | (intro _)
    | with_reducible apply Res.keeps_next
    | with_reducible apply State.setFld_kept hC
    | with_reducible apply State.portChange_kept hC
    | with_reducible apply ite_kept
    | dsimp only
    | split
    | fail_if_no_progress (with_reducible refine hC.mk_kept rfl ?_)
    | rfl

theorem execUsbSuspend_kept {P : State → Prop} (hC : Closed P) {s : State}  (hP : P s) :
    Res.Keeps P (execUsbSuspend s) := by
  unfold execUsbSuspend
  repeat' first
    | with_reducible assumption
    | (intro _)
    | with_reducible apply Res.keeps_next
    | with_reducible apply State.updUsb_kept hC
    | with_reducible apply ite_kept
    | dsimp only
    | split
    | fail_if_no_progress (with_reducible refine hC.mk_kept rfl ?_)
    | rfl

theorem execUsbResumeK_kept {P : State → Prop} (hC : Closed P) {s : State}  (hP : P s) :
    Res.Keeps P (execUsbResumeK s) := by
  unfold execUsbResumeK
  repeat' first
    | with_reducible assumption
    | (intro _)
    | with_reducible apply Res.keeps_next
    | with_reducible apply State.updUsb_kept hC
    | with_reducible apply ite_kept
    | dsimp only
    | split
    | fail_if_no_progress (with_reducible refine hC.mk_kept rfl ?_)
    | rfl

theorem execUsbResumeEnd_kept {P : State → Prop} (hC : Closed P) {s : State}  (hP : P s) :
    Res.Keeps P (execUsbResumeEnd s) := by
  unfold execUsbResumeEnd
  repeat' first
    | with_reducible assumption
    | (intro _)
    | with_reducible apply Res.keeps_next
    | with_reducible apply State.satAdd_kept hC
    | with_reducible apply State.updUsb_kept hC
    | with_reducible apply ite_kept
    | dsimp only
    | split
    | fail_if_no_progress (with_reducible refine hC.mk_kept rfl ?_)
    | rfl

theorem execRemoteWakeDecision_kept {P : State → Prop} (hC : Closed P) (lineK : Bool) {s : State}  (hP : P s) :
    Res.Keeps P (execRemoteWakeDecision lineK s) := by
  unfold execRemoteWakeDecision
  repeat' first
    | with_reducible assumption
    | (intro _)
    | with_reducible apply Res.keeps_next
    | with_reducible apply State.satAdd_kept hC
    | with_reducible apply State.updUsb_kept hC
    | with_reducible apply hC.send
    | with_reducible apply ite_kept
    | dsimp only
    | split
    | fail_if_no_progress (with_reducible refine hC.mk_kept rfl ?_)
    | rfl

theorem execRemoteWakeRelease_kept {P : State → Prop} (hC : Closed P) {s : State}  (hP : P s) :
    Res.Keeps P (execRemoteWakeRelease s) := by
  unfold execRemoteWakeRelease
  repeat' first
    | with_reducible assumption
    | (intro _)
    | with_reducible apply Res.keeps_next
    | with_reducible apply State.updUsb_kept hC
    | with_reducible apply hC.send
    | with_reducible apply ite_kept
    | dsimp only
    | split
    | fail_if_no_progress (with_reducible refine hC.mk_kept rfl ?_)
    | rfl

theorem execRemoteWakeFail_kept {P : State → Prop} (hC : Closed P) {s : State}  (hP : P s) :
    Res.Keeps P (execRemoteWakeFail s) := by
  unfold execRemoteWakeFail
  repeat' first
    | with_reducible assumption
    | (intro _)
    | with_reducible apply Res.keeps_next
    | with_reducible apply State.satAdd_kept hC
    | with_reducible apply State.updUsb_kept hC
    | with_reducible apply State.fault_kept hC
    | with_reducible apply ite_kept
    | dsimp only
    | split
    | fail_if_no_progress (with_reducible refine hC.mk_kept rfl ?_)
    | rfl

theorem execRemoteWakeRetry_kept {P : State → Prop} (hC : Closed P) {s : State}  (hP : P s) :
    Res.Keeps P (execRemoteWakeRetry s) := by
  unfold execRemoteWakeRetry
  repeat' first
    | with_reducible assumption
    | (intro _)
    | with_reducible apply Res.keeps_next
    | with_reducible apply State.updUsb_kept hC
    | dsimp only
    | split
    | fail_if_no_progress (with_reducible refine hC.mk_kept rfl ?_)
    | rfl

theorem execDeviceRemoteWakeup_kept {P : State → Prop} (hC : Closed P) (fn : Bool) (on : Bool) {s : State}  (hP : P s) :
    Res.Keeps P (execDeviceRemoteWakeup fn on s) := by
  unfold execDeviceRemoteWakeup
  repeat' first
    | with_reducible assumption
    | (intro _)
    | with_reducible apply Res.keeps_next
    | with_reducible apply State.setFld_kept hC
    | with_reducible apply ite_kept
    | dsimp only
    | split
    | fail_if_no_progress (with_reducible refine hC.mk_kept rfl ?_)
    | rfl

theorem execClearPortSuspend_kept {P : State → Prop} (hC : Closed P) (rq : PortSuspend) {s : State}  (hP : P s) :
    Res.Keeps P (execClearPortSuspend rq s) := by
  unfold execClearPortSuspend
  repeat' first
    | with_reducible assumption
    | (intro _)
    | with_reducible apply Res.keeps_next
    | with_reducible apply State.satAdd_kept hC
    | with_reducible apply State.updUsb_kept hC
    | with_reducible apply ite_kept
    | dsimp only
    | split
    | fail_if_no_progress (with_reducible refine hC.mk_kept rfl ?_)
    | rfl

theorem State.usbHook_kept {P : State → Prop} (hC : Closed P) {s : State} (off : Nat) (wr : Word)  (hP : P s) :
    P (State.usbHook s off wr) := by
  unfold State.usbHook
  repeat' first
    | with_reducible assumption
    | (intro _)
    | with_reducible apply State.usbPullup_kept hC
    | with_reducible apply State.ntfRaise_kept hC
    | with_reducible apply hC.setReg
    | with_reducible apply State.setFld_kept hC
    | with_reducible apply ite_kept
    | dsimp only
    | split
    | fail_if_no_progress (with_reducible refine hC.mk_kept rfl ?_)
    | rfl

end Sys2Proof.Machine
end

