-- ==== Sys2Proof/Laws/KeptRelease.lean ====
section
/-! SUPPORT. The definitions of Machine/Release.lean keep every property that `Closed` describes. -/

namespace Sys2Proof.Machine

theorem State.dropRegs_kept {P : State → Prop} (hC : Closed P) {s : State} (d : Nat)  (hP : P s) :
    P (State.dropRegs s d) := by
  unfold State.dropRegs
  repeat' first
    | with_reducible assumption
    | (intro _)
    | with_reducible apply hC.coldBits
    | with_reducible apply ite_kept
    | dsimp only
    | split
    | fail_if_no_progress (with_reducible refine hC.mk_kept rfl ?_)
    | rfl

theorem State.endBough_kept {P : State → Prop} (hC : Closed P) {s : State} (b : Nat)  (hP : P s) :
    P (State.endBough s b) := by
  unfold State.endBough
  repeat' first
    | with_reducible assumption
    | (intro _)
    | with_reducible apply State.dropHelpers_kept hC
    | with_reducible apply State.voidThread_kept hC
    | with_reducible apply State.setThr_kept hC
    | with_reducible apply State.orphan_kept hC
    | with_reducible apply State.endThread_kept hC
    | with_reducible apply State.updThr_kept hC
    | with_reducible apply foldl_kept
    | with_reducible apply foldl_snd_kept
    | with_reducible apply foldl_fst_kept
    | with_reducible apply ite_kept
    | dsimp only
    | split
    | fail_if_no_progress (with_reducible refine hC.mk_kept rfl ?_)
    | rfl

theorem State.dropPorts_kept {P : State → Prop} (hC : Closed P) {s : State} (ps : List Nat)  (hP : P s) :
    P (State.dropPorts s ps) := by
  unfold State.dropPorts
  repeat' first
    | with_reducible assumption
    | (intro _)
    | with_reducible apply State.freeSlot_kept hC
    | with_reducible apply foldl_kept
    | with_reducible apply foldl_snd_kept
    | with_reducible apply foldl_fst_kept
    | with_reducible apply ite_kept
    | dsimp only
    | split
    | fail_if_no_progress (with_reducible refine hC.mk_kept rfl ?_)
    | rfl

theorem State.setLanes_kept {P : State → Prop} (hC : Closed P) {s : State} (d : Nat) (on : Bool)  (hP : P s) :
    P (State.setLanes s d on) := by
  unfold State.setLanes
  repeat' first
    | with_reducible assumption
    | (intro _)
    | with_reducible apply ite_kept
    | dsimp only
    | split
    | fail_if_no_progress (with_reducible refine hC.mk_kept rfl ?_)
    | rfl

theorem State.dropState_kept {P : State → Prop} (hC : Closed P) {s : State} (d : Nat)  (hP : P s) :
    P (State.dropState s d) := by
  unfold State.dropState
  split
  · exact hC.same (s := { s with rsMem := [] }) rfl (hC.rsClear hP)
  · exact hC.mk_kept rfl hP
  · exact hC.mk_kept rfl (hC.dropMem _ _ (foldl_kept (fun a x ha => State.disbandRow_kept hC _ ha) _ hP))
  · exact hC.mk_kept rfl (State.dropPorts_kept hC _ hP)
  · exact State.dropSa_kept hC (State.dropPorts_kept hC _ hP)
  · exact hC.mk_kept rfl hP
  · split
    next hd =>
      have ht := State.endBough_kept hC (d - 4) hP
      refine hC.wipe (s := s.endBough (d - 4)) (d - 4) (0x100000000 + (d - 4) * 0x1000000) (0x100000000 + (d - 3) * 0x1000000) rfl
        (by omega) ?_ ht
      simp only [State.heart, State.dropMem]
    next => exact hP

theorem State.breqDrop_kept {P : State → Prop} (hC : Closed P) {s : State}   (hP : P s) :
    P (State.breqDrop s) := by
  unfold State.breqDrop
  repeat' first
    | with_reducible assumption
    | (intro _)
    | with_reducible apply State.setHwReq_kept hC
    | with_reducible apply State.judgeDomain_kept hC
    | with_reducible apply foldl_kept
    | with_reducible apply foldl_snd_kept
    | with_reducible apply foldl_fst_kept
    | with_reducible apply ite_kept
    | dsimp only
    | split
    | fail_if_no_progress (with_reducible refine hC.mk_kept rfl ?_)
    | rfl

theorem State.openSwitch_kept {P : State → Prop} (hC : Closed P) {s : State} (d : Nat)  (hP : P s) :
    P (State.openSwitch s d) := by
  unfold State.openSwitch
  repeat' first
    | with_reducible assumption
    | (intro _)
    | with_reducible apply State.withdrawBough_kept hC
    | with_reducible apply State.setLanes_kept hC
    | with_reducible apply State.breqDrop_kept hC
    | with_reducible apply State.unready_kept hC
    | with_reducible apply State.dropState_kept hC
    | with_reducible apply State.dropRegs_kept hC
    | with_reducible apply State.clrBit_kept hC
    | with_reducible apply State.setDomState_kept hC
    | with_reducible apply State.settlePlls_kept hC
    | with_reducible apply State.applyDeferred_kept hC
    | with_reducible apply ite_kept
    | dsimp only
    | split
    | fail_if_no_progress (with_reducible refine hC.mk_kept rfl ?_)
    | rfl

theorem State.graftLost_kept {P : State → Prop} (hC : Closed P) {s : State}  (hP : P s) :
    P (State.graftLost s) := by
  unfold State.graftLost
  repeat' first
    | with_reducible assumption
    | (intro _)
    | with_reducible apply State.clrReady_kept hC
    | with_reducible apply State.endJobOf_kept hC
    | with_reducible apply State.setFld_kept hC
    | with_reducible apply State.fault_kept hC
    | with_reducible apply ite_kept
    | dsimp only
    | split
    | fail_if_no_progress (with_reducible refine hC.mk_kept rfl ?_)
    | rfl

theorem State.railDown_kept {P : State → Prop} (hC : Closed P) {s : State} (ports : Bool)  (hP : P s) :
    P (State.railDown s ports) := by
  unfold State.railDown
  repeat' first
    | with_reducible assumption
    | (intro _)
    | with_reducible apply State.portLost_kept hC
    | with_reducible apply State.linkDown_kept hC
    | with_reducible apply State.graftLost_kept hC
    | with_reducible apply foldl_kept
    | with_reducible apply foldl_snd_kept
    | with_reducible apply foldl_fst_kept
    | with_reducible apply ite_kept
    | dsimp only
    | split
    | fail_if_no_progress (with_reducible refine hC.mk_kept rfl ?_)
    | rfl

end Sys2Proof.Machine
end

