-- ==== Sys2Proof/Laws/KeptConverters.lean ====
section
/-! SUPPORT. The definitions of Machine/Converters.lean keep every property that `Closed` describes. -/

namespace Sys2Proof.Machine

theorem State.updConv_kept {P : State → Prop} (hC : Closed P) {s : State} (n : Nat) (f : ConvSt → ConvSt)  (hP : P s) :
    P (State.updConv s n f) := by
  unfold State.updConv
  repeat' first
    | with_reducible assumption
    | (intro _)
    | dsimp only
    | split
    | fail_if_no_progress (with_reducible refine hC.mk_kept rfl ?_)
    | rfl

theorem State.updCnv_kept {P : State → Prop} (hC : Closed P) {s : State} (f : CnvSt → CnvSt)  (hP : P s) :
    P (State.updCnv s f) := by
  unfold State.updCnv
  repeat' first
    | with_reducible assumption
    | (intro _)
    | dsimp only
    | split
    | fail_if_no_progress (with_reducible refine hC.mk_kept rfl ?_)
    | rfl

theorem State.capture_kept {P : State → Prop} (hC : Closed P) {s : State} (w : Word)  (hP : P s) :
    P (State.capture s w) := by
  unfold State.capture
  repeat' first
    | with_reducible assumption
    | (intro _)
    | with_reducible apply hC.setReg
    | with_reducible apply State.setFld_kept hC
    | with_reducible apply State.updCnv_kept hC
    | with_reducible apply ite_kept
    | dsimp only
    | split
    | fail_if_no_progress (with_reducible refine hC.mk_kept rfl ?_)
    | rfl

theorem State.captureTrigger_kept {P : State → Prop} (hC : Closed P) {s : State} (c : Nat)  (hP : P s) :
    P (State.captureTrigger s c) := by
  unfold State.captureTrigger
  repeat' first
    | with_reducible assumption
    | (intro _)
    | with_reducible apply State.setFld_kept hC
    | with_reducible apply State.updCnv_kept hC
    | with_reducible apply ite_kept
    | dsimp only
    | split
    | fail_if_no_progress (with_reducible refine hC.mk_kept rfl ?_)
    | rfl

theorem State.comparator_kept {P : State → Prop} (hC : Closed P) {s : State} (src : Nat) (chan : Nat) (code : Int) (above : Bool) (below : Bool) (c : Nat)  (hP : P s) :
    P (State.comparator s src chan code above below c) := by
  unfold State.comparator
  repeat' first
    | with_reducible assumption
    | (intro _)
    | with_reducible apply State.updCnv_kept hC
    | with_reducible apply State.setBit_kept hC
    | with_reducible apply State.event_kept hC
    | with_reducible apply State.captureTrigger_kept hC
    | with_reducible apply ite_kept
    | dsimp only
    | split
    | fail_if_no_progress (with_reducible refine hC.mk_kept rfl ?_)
    | rfl

theorem State.comparators_kept {P : State → Prop} (hC : Closed P) {s : State} (src : Nat) (chan : Nat) (code : Int) (above : Bool) (below : Bool)  (hP : P s) :
    P (State.comparators s src chan code above below) := by
  unfold State.comparators
  repeat' first
    | with_reducible assumption
    | (intro _)
    | with_reducible apply State.comparator_kept hC
    | with_reducible apply foldl_kept
    | with_reducible apply foldl_snd_kept
    | with_reducible apply foldl_fst_kept
    | dsimp only
    | split
    | fail_if_no_progress (with_reducible refine hC.mk_kept rfl ?_)
    | rfl

theorem State.nextConversion_kept {P : State → Prop} (hC : Closed P) {s : State} (n : Nat)  (hP : P s) :
    P (State.nextConversion s n) := by
  unfold State.nextConversion
  repeat' first
    | with_reducible assumption
    | (intro _)
    | with_reducible apply State.updConv_kept hC
    | dsimp only
    | split
    | fail_if_no_progress (with_reducible refine hC.mk_kept rfl ?_)
    | rfl

theorem State.countSample_kept {P : State → Prop} (hC : Closed P) {s : State} (n : Nat) (i : Int)  (hP : P s) :
    P (State.countSample s n i) := by
  unfold State.countSample
  repeat' first
    | with_reducible assumption
    | (intro _)
    | with_reducible apply State.updPhase_kept hC
    | with_reducible apply ite_kept
    | dsimp only
    | split
    | fail_if_no_progress (with_reducible refine hC.mk_kept rfl ?_)
    | rfl

theorem State.peakSample_kept {P : State → Prop} (hC : Closed P) {s : State} (x : Nat) (n : Nat) (i : Int)  (hP : P s) :
    P (State.peakSample s x n i) := by
  unfold State.peakSample
  repeat' first
    | with_reducible assumption
    | (intro _)
    | with_reducible apply State.endOnTime_kept hC
    | with_reducible apply State.satAdd_kept hC
    | with_reducible apply State.latchIout_kept hC
    | with_reducible apply ite_kept
    | dsimp only
    | split
    | fail_if_no_progress (with_reducible refine hC.mk_kept rfl ?_)
    | rfl

theorem State.crossSample_kept {P : State → Prop} (hC : Closed P) {s : State} (n : Nat) (i : Int)  (hP : P s) :
    P (State.crossSample s n i) := by
  unfold State.crossSample
  repeat' first
    | with_reducible assumption
    | (intro _)
    | with_reducible apply State.zeroCross_kept hC
    | with_reducible apply ite_kept
    | dsimp only
    | split
    | fail_if_no_progress (with_reducible refine hC.mk_kept rfl ?_)
    | rfl

theorem State.phaseSample_kept {P : State → Prop} (hC : Closed P) {s : State} (n : Nat) (code : Int)  (hP : P s) :
    P (State.phaseSample s n code) := by
  unfold State.phaseSample
  repeat' first
    | with_reducible assumption
    | (intro _)
    | with_reducible apply State.countSample_kept hC
    | with_reducible apply State.crossSample_kept hC
    | with_reducible apply State.peakSample_kept hC
    | with_reducible apply State.setFld_kept hC
    | with_reducible apply State.updPhase_kept hC
    | with_reducible apply State.satAdd_kept hC
    | with_reducible apply State.latchIout_kept hC
    | with_reducible apply State.updLoop_kept hC
    | with_reducible apply ite_kept
    | (with_reducible refine pair_snd_kept (by with_reducible assumption) ?_)
    | (with_reducible refine pair_fst_kept (by with_reducible assumption) ?_)
    | (with_reducible refine trip_kept (by with_reducible assumption) ?_)
    | dsimp only
    | split
    | fail_if_no_progress (with_reducible refine hC.mk_kept rfl ?_)
    | rfl

theorem State.slotResult_kept {P : State → Prop} (hC : Closed P) {s : State} (n : Nat) (sl : Nat) (v : Sample)  (hP : P s) :
    P (State.slotResult s n sl v) := by
  unfold State.slotResult
  repeat' first
    | with_reducible assumption
    | (intro _)
    | with_reducible apply State.updLoop_kept hC
    | with_reducible apply State.capture_kept hC
    | with_reducible apply State.comparators_kept hC
    | with_reducible apply ite_kept
    | dsimp only
    | split
    | fail_if_no_progress (with_reducible refine hC.mk_kept rfl ?_)
    | rfl

theorem State.homeResult_kept {P : State → Prop} (hC : Closed P) {s : State} (n : Nat) (v : Sample)  (hP : P s) :
    P (State.homeResult s n v) := by
  unfold State.homeResult
  repeat' first
    | with_reducible assumption
    | (intro _)
    | with_reducible apply State.capture_kept hC
    | with_reducible apply State.comparators_kept hC
    | with_reducible apply State.phaseSample_kept hC
    | with_reducible apply ite_kept
    | dsimp only
    | split
    | fail_if_no_progress (with_reducible refine hC.mk_kept rfl ?_)
    | rfl

theorem execConversionResult_kept {P : State → Prop} (hC : Closed P) (n : Fin 16) (uV : Int) {s : State}  (hP : P s) :
    Res.Keeps P (execConversionResult n uV s) := by
  unfold execConversionResult
  repeat' first
    | with_reducible assumption
    | (intro _)
    | with_reducible apply Res.keeps_next
    | with_reducible apply State.slotResult_kept hC
    | with_reducible apply State.homeResult_kept hC
    | with_reducible apply State.nextConversion_kept hC
    | with_reducible apply ite_kept
    | dsimp only
    | split
    | fail_if_no_progress (with_reducible refine hC.mk_kept rfl ?_)
    | rfl

theorem execSlotFire_kept {P : State → Prop} (hC : Closed P) (n : Fin 16) (sl : Fin 4) {s : State}  (hP : P s) :
    Res.Keeps P (execSlotFire n sl s) := by
  unfold execSlotFire
  repeat' first
    | with_reducible assumption
    | (intro _)
    | with_reducible apply Res.keeps_next
    | with_reducible apply State.updConv_kept hC
    | with_reducible apply State.satAdd_kept hC
    | with_reducible apply State.fault_kept hC
    | with_reducible apply ite_kept
    | dsimp only
    | split
    | fail_if_no_progress (with_reducible refine hC.mk_kept rfl ?_)
    | rfl

theorem execConverterCalibration_kept {P : State → Prop} (hC : Closed P) (fast : Bool) (ok : Bool) {s : State}  (hP : P s) :
    Res.Keeps P (execConverterCalibration fast ok s) := by
  unfold execConverterCalibration
  repeat' first
    | with_reducible assumption
    | (intro _)
    | with_reducible apply Res.keeps_next
    | with_reducible apply State.setReady_kept hC
    | with_reducible apply State.fault_kept hC
    | with_reducible apply ite_kept
    | dsimp only
    | split
    | fail_if_no_progress (with_reducible refine hC.mk_kept rfl ?_)
    | rfl

theorem State.listTo_kept {P : State → Prop} (hC : Closed P) {s : State} (m : Nat) (k : Nat)  (hP : P s) :
    P (State.listTo s m k) := by
  unfold State.listTo
  repeat' first
    | with_reducible assumption
    | (intro _)
    | with_reducible apply State.updCnv_kept hC
    | dsimp only
    | split
    | fail_if_no_progress (with_reducible refine hC.mk_kept rfl ?_)
    | rfl

theorem State.startList_kept {P : State → Prop} (hC : Closed P) {s : State} (m : Nat)  (hP : P s) :
    P (State.startList s m) := by
  unfold State.startList
  repeat' first
    | with_reducible assumption
    | (intro _)
    | with_reducible apply State.updCnv_kept hC
    | with_reducible apply State.listTo_kept hC
    | with_reducible apply foldl_kept
    | with_reducible apply foldl_snd_kept
    | with_reducible apply foldl_fst_kept
    | dsimp only
    | split
    | fail_if_no_progress (with_reducible refine hC.mk_kept rfl ?_)
    | rfl

theorem State.restartLists_kept {P : State → Prop} (hC : Closed P) {s : State} (m : Nat)  (hP : P s) :
    P (State.restartLists s m) := by
  unfold State.restartLists
  repeat' first
    | with_reducible assumption
    | (intro _)
    | with_reducible apply State.startList_kept hC
    | with_reducible apply ite_kept
    | dsimp only
    | split
    | fail_if_no_progress (with_reducible refine hC.mk_kept rfl ?_)
    | rfl

theorem execPrecisionListRestart_kept {P : State → Prop} (hC : Closed P) (m : Fin 2) {s : State}  (hP : P s) :
    Res.Keeps P (execPrecisionListRestart m s) := by
  unfold execPrecisionListRestart
  repeat' first
    | with_reducible assumption
    | (intro _)
    | with_reducible apply Res.keeps_next
    | with_reducible apply State.restartLists_kept hC
    | with_reducible apply State.updCnv_kept hC
    | with_reducible apply ite_kept
    | dsimp only
    | split
    | fail_if_no_progress (with_reducible refine hC.mk_kept rfl ?_)
    | rfl

theorem State.listEnded_kept {P : State → Prop} (hC : Closed P) {s : State} (m : Nat)  (hP : P s) :
    P (State.listEnded s m) := by
  unfold State.listEnded
  repeat' first
    | with_reducible assumption
    | (intro _)
    | with_reducible apply State.setFld_kept hC
    | with_reducible apply State.restartLists_kept hC
    | with_reducible apply ite_kept
    | dsimp only
    | split
    | fail_if_no_progress (with_reducible refine hC.mk_kept rfl ?_)
    | rfl

theorem State.precisionEffects_kept {P : State → Prop} (hC : Closed P) {s : State} (chan : Nat) (code : Int) (ovr : Bool) (w : Word)  (hP : P s) :
    P (State.precisionEffects s chan code ovr w) := by
  unfold State.precisionEffects
  repeat' first
    | with_reducible assumption
    | (intro _)
    | with_reducible apply State.batResult_kept hC
    | with_reducible apply State.updCnv_kept hC
    | with_reducible apply State.fault_kept hC
    | with_reducible apply State.setFld_kept hC
    | with_reducible apply ite_kept
    | dsimp only
    | split
    | fail_if_no_progress (with_reducible refine hC.mk_kept rfl ?_)
    | rfl

theorem execPrecisionEntryDone_kept {P : State → Prop} (hC : Closed P) (m : Fin 2) (sl : Fin 8) (uVs : List Int) {s : State}  (hP : P s) :
    Res.Keeps P (execPrecisionEntryDone m sl uVs s) := by
  unfold execPrecisionEntryDone
  repeat' first
    | with_reducible assumption
    | (intro _)
    | with_reducible apply Res.keeps_next
    | with_reducible apply hC.tookFree
    | with_reducible apply State.updCnv_kept hC
    | with_reducible apply hC.setReg
    | with_reducible apply State.precisionEffects_kept hC
    | with_reducible apply State.capture_kept hC
    | with_reducible apply State.comparators_kept hC
    | with_reducible apply State.listTo_kept hC
    | with_reducible apply State.listEnded_kept hC
    | with_reducible apply ite_kept
    | dsimp only
    | split
    | fail_if_no_progress (with_reducible refine hC.mk_kept rfl ?_)
    | rfl

theorem State.holdSetting_kept {P : State → Prop} (hC : Closed P) {s : State} (off : Nat) (old : Word)  (hP : P s) :
    P (State.holdSetting s off old) := by
  unfold State.holdSetting
  repeat' first
    | with_reducible assumption
    | (intro _)
    | with_reducible apply State.updCnv_kept hC
    | with_reducible apply ite_kept
    | dsimp only
    | split
    | fail_if_no_progress (with_reducible refine hC.mk_kept rfl ?_)
    | rfl

theorem State.cnvHook_kept {P : State → Prop} (hC : Closed P) {s : State} (off : Nat) (old : Word) (wr : Word)  (hP : P s) :
    P (State.cnvHook s off old wr) := by
  unfold State.cnvHook
  repeat' first
    | with_reducible assumption
    | (intro _)
    | with_reducible apply hC.setReg
    | with_reducible apply State.setFld_kept hC
    | with_reducible apply State.holdSetting_kept hC
    | with_reducible apply State.updCnv_kept hC
    | with_reducible apply foldl_kept
    | with_reducible apply foldl_snd_kept
    | with_reducible apply foldl_fst_kept
    | with_reducible apply ite_kept
    | dsimp only
    | split
    | fail_if_no_progress (with_reducible refine hC.mk_kept rfl ?_)
    | rfl

end Sys2Proof.Machine
end

