-- ==== Sys2Proof/Laws/KeptGovernor.lean ====
section
/-! SUPPORT. The definitions of Machine/Governor.lean keep every property that `Closed` describes. -/

namespace Sys2Proof.Machine

theorem State.govShut_kept {P : State → Prop} (hC : Closed P) {s : State} (x : Nat) (cause : Nat)  (hP : P s) :
    P (State.govShut s x cause) := by
  unfold State.govShut
  repeat' first
    | with_reducible assumption
    | (intro _)
    | with_reducible apply State.updGov_kept hC
    | with_reducible apply State.updLoop_kept hC
    | with_reducible apply State.stopLoop_kept hC
    | with_reducible apply State.setFld_kept hC
    | with_reducible apply ite_kept
    | dsimp only
    | split
    | fail_if_no_progress (with_reducible refine hC.mk_kept rfl ?_)
    | rfl

theorem State.govCut_kept {P : State → Prop} (hC : Closed P) {s : State} (x : Nat) (cause : Nat)  (hP : P s) :
    P (State.govCut s x cause) := by
  unfold State.govCut
  repeat' first
    | with_reducible assumption
    | (intro _)
    | with_reducible apply State.govShut_kept hC
    | with_reducible apply State.updGov_kept hC
    | with_reducible apply State.updLoop_kept hC
    | with_reducible apply State.stopLoop_kept hC
    | with_reducible apply State.setFld_kept hC
    | with_reducible apply State.fault_kept hC
    | with_reducible apply ite_kept
    | dsimp only
    | split
    | fail_if_no_progress (with_reducible refine hC.mk_kept rfl ?_)
    | rfl

theorem State.govOpen_kept {P : State → Prop} (hC : Closed P) {s : State} (x : Nat) (p : Nat)  (hP : P s) :
    P (State.govOpen s x p) := by
  unfold State.govOpen
  repeat' first
    | with_reducible assumption
    | (intro _)
    | with_reducible apply State.updGov_kept hC
    | with_reducible apply State.setFld_kept hC
    | dsimp only
    | split
    | fail_if_no_progress (with_reducible refine hC.mk_kept rfl ?_)
    | rfl

theorem State.govPrecharge_kept {P : State → Prop} (hC : Closed P) {s : State} (x : Nat) (p : Nat) (i : Int)  (hP : P s) :
    P (State.govPrecharge s x p i).1 := by
  unfold State.govPrecharge
  repeat' first
    | with_reducible assumption
    | (intro _)
    | with_reducible apply State.updGov_kept hC
    | with_reducible apply State.govCut_kept hC
    | with_reducible apply ite_fst_kept
    | with_reducible apply ite_kept
    | dsimp only
    | split
    | fail_if_no_progress (with_reducible refine hC.mk_kept rfl ?_)
    | rfl

theorem State.govTick_kept {P : State → Prop} (hC : Closed P) {s : State} (x : Nat)  (hP : P s) :
    P (State.govTick s x).1 := by
  unfold State.govTick
  repeat' first
    | with_reducible assumption
    | (intro _)
    | with_reducible apply State.govShut_kept hC
    | with_reducible apply State.updGov_kept hC
    | with_reducible apply State.govOpen_kept hC
    | with_reducible apply hC.setReg
    | with_reducible apply State.govCut_kept hC
    | with_reducible apply State.govPrecharge_kept hC
    | with_reducible apply ite_kept
    | with_reducible apply ite_snd_kept
    | with_reducible apply ite_fst_kept
    | dsimp only
    | split
    | fail_if_no_progress (with_reducible refine hC.mk_kept rfl ?_)
    | rfl

theorem execGovernorTick_kept {P : State → Prop} (hC : Closed P) {s : State}  (hP : P s) :
    Res.Keeps P (execGovernorTick s) := by
  unfold execGovernorTick
  repeat' first
    | with_reducible assumption
    | (intro _)
    | with_reducible apply Res.keeps_next
    | with_reducible apply State.raiseD_kept hC
    | with_reducible apply State.govTick_kept hC
    | with_reducible apply ite_kept
    | with_reducible apply ite_snd_kept
    | with_reducible apply ite_fst_kept
    | (with_reducible refine pair_snd_kept (by with_reducible assumption) ?_)
    | (with_reducible refine pair_fst_kept (by with_reducible assumption) ?_)
    | (with_reducible refine trip_kept (by with_reducible assumption) ?_)
    | dsimp only
    | split
    | fail_if_no_progress (with_reducible refine hC.mk_kept rfl ?_)
    | rfl

theorem execGovWindowTimeout_kept {P : State → Prop} (hC : Closed P) (x : HLoop) {s : State}  (hP : P s) :
    Res.Keeps P (execGovWindowTimeout x s) := by
  unfold execGovWindowTimeout
  repeat' first
    | with_reducible assumption
    | (intro _)
    | with_reducible apply Res.keeps_next
    | with_reducible apply State.govCut_kept hC
    | with_reducible apply ite_kept
    | dsimp only
    | split
    | fail_if_no_progress (with_reducible refine hC.mk_kept rfl ?_)
    | rfl

theorem execGovEventClose_kept {P : State → Prop} (hC : Closed P) (x : HLoop) {s : State}  (hP : P s) :
    Res.Keeps P (execGovEventClose x s) := by
  unfold execGovEventClose
  repeat' first
    | with_reducible assumption
    | (intro _)
    | with_reducible apply Res.keeps_next
    | with_reducible apply State.govClose_kept hC
    | with_reducible apply ite_kept
    | dsimp only
    | split
    | fail_if_no_progress (with_reducible refine hC.mk_kept rfl ?_)
    | rfl

theorem State.govHook_kept {P : State → Prop} (hC : Closed P) {s : State} (off : Nat) (old : Word) (wr : Word)  (hP : P s) :
    P (State.govHook s off old wr) := by
  unfold State.govHook
  repeat' first
    | with_reducible assumption
    | (intro _)
    | with_reducible apply hC.setReg
    | with_reducible apply State.govClose_kept hC
    | with_reducible apply ite_kept
    | dsimp only
    | split
    | fail_if_no_progress (with_reducible refine hC.mk_kept rfl ?_)
    | rfl

theorem State.fanRefresh_kept {P : State → Prop} (hC : Closed P) {s : State}  (hP : P s) :
    P (State.fanRefresh s) := by
  unfold State.fanRefresh
  repeat' first
    | with_reducible assumption
    | (intro _)
    | with_reducible apply State.setFld_kept hC
    | with_reducible apply foldl_kept
    | with_reducible apply foldl_snd_kept
    | with_reducible apply foldl_fst_kept
    | with_reducible apply ite_kept
    | dsimp only
    | split
    | fail_if_no_progress (with_reducible refine hC.mk_kept rfl ?_)
    | rfl

theorem State.fanFault_kept {P : State → Prop} (hC : Closed P) {s : State} (bits : List Nat)  (hP : P s) :
    P (State.fanFault s bits) := by
  unfold State.fanFault
  repeat' first
    | with_reducible assumption
    | (intro _)
    | with_reducible apply State.raiseD_kept hC
    | with_reducible apply State.fanRefresh_kept hC
    | dsimp only
    | split
    | fail_if_no_progress (with_reducible refine hC.mk_kept rfl ?_)
    | rfl

theorem State.fanHook_kept {P : State → Prop} (hC : Closed P) {s : State} (off : Nat)  (hP : P s) :
    P (State.fanHook s off) := by
  unfold State.fanHook
  repeat' first
    | with_reducible assumption
    | (intro _)
    | with_reducible apply State.fanRefresh_kept hC
    | with_reducible apply ite_kept
    | dsimp only
    | split
    | fail_if_no_progress (with_reducible refine hC.mk_kept rfl ?_)
    | rfl

theorem execTachEdge_kept {P : State → Prop} (hC : Closed P) (n : Fin 4) (us : Nat) {s : State}  (hP : P s) :
    Res.Keeps P (execTachEdge n us s) := by
  unfold execTachEdge
  repeat' first
    | with_reducible assumption
    | (intro _)
    | with_reducible apply Res.keeps_next
    | with_reducible apply State.setFld_kept hC
    | with_reducible apply ite_kept
    | dsimp only
    | split
    | fail_if_no_progress (with_reducible refine hC.mk_kept rfl ?_)
    | rfl

theorem execTachStall_kept {P : State → Prop} (hC : Closed P) (n : Fin 4) {s : State}  (hP : P s) :
    Res.Keeps P (execTachStall n s) := by
  unfold execTachStall
  repeat' first
    | with_reducible assumption
    | (intro _)
    | with_reducible apply Res.keeps_next
    | with_reducible apply State.setFld_kept hC
    | with_reducible apply State.fault_kept hC
    | with_reducible apply ite_kept
    | dsimp only
    | split
    | fail_if_no_progress (with_reducible refine hC.mk_kept rfl ?_)
    | rfl

theorem execFanMonitorCheck_kept {P : State → Prop} (hC : Closed P) {s : State}  (hP : P s) :
    Res.Keeps P (execFanMonitorCheck s) := by
  unfold execFanMonitorCheck
  repeat' first
    | with_reducible assumption
    | (intro _)
    | with_reducible apply Res.keeps_next
    | with_reducible apply State.setFld_kept hC
    | with_reducible apply State.fanFault_kept hC
    | with_reducible apply State.fanRefresh_kept hC
    | with_reducible apply foldl_kept
    | with_reducible apply foldl_snd_kept
    | with_reducible apply foldl_fst_kept
    | with_reducible apply ite_kept
    | dsimp only
    | split
    | fail_if_no_progress (with_reducible refine hC.mk_kept rfl ?_)
    | rfl

theorem execFanKeepTimeout_kept {P : State → Prop} (hC : Closed P) {s : State}  (hP : P s) :
    Res.Keeps P (execFanKeepTimeout s) := by
  unfold execFanKeepTimeout
  repeat' first
    | with_reducible assumption
    | (intro _)
    | with_reducible apply Res.keeps_next
    | with_reducible apply State.fanFault_kept hC
    | with_reducible apply ite_kept
    | dsimp only
    | split
    | fail_if_no_progress (with_reducible refine hC.mk_kept rfl ?_)
    | rfl

theorem execShutdownAssert_kept {P : State → Prop} (hC : Closed P) (ts : Int) (uV : Int) {s : State}  (hP : P s) :
    Res.Keeps P (execShutdownAssert ts uV s) := by
  unfold execShutdownAssert
  repeat' first
    | with_reducible assumption
    | (intro _)
    | with_reducible apply Res.keeps_next
    | with_reducible apply State.setFld_kept hC
    | with_reducible apply State.fanFault_kept hC
    | with_reducible apply ite_kept
    | dsimp only
    | split
    | fail_if_no_progress (with_reducible refine hC.mk_kept rfl ?_)
    | rfl

theorem execShutdownRelease_kept {P : State → Prop} (hC : Closed P) {s : State}  (hP : P s) :
    Res.Keeps P (execShutdownRelease s) := by
  unfold execShutdownRelease
  repeat' first
    | with_reducible assumption
    | (intro _)
    | with_reducible apply Res.keeps_next
    | with_reducible apply ite_kept
    | dsimp only
    | split
    | fail_if_no_progress (with_reducible refine hC.mk_kept rfl ?_)
    | rfl

end Sys2Proof.Machine
end

