-- ==== Sys2Proof/Laws/KeptTaproot.lean ====
section
/-! SUPPORT. The definitions of Machine/Taproot.lean keep every property that `Closed` describes. -/

namespace Sys2Proof.Machine

theorem State.updTap_kept {P : State → Prop} (hC : Closed P) {s : State} (f : Taproot → Taproot)  (hP : P s) :
    P (State.updTap s f) := by
  unfold State.updTap
  repeat' first
    | with_reducible assumption
    | (intro _)
    | dsimp only
    | split
    | fail_if_no_progress (with_reducible refine hC.mk_kept rfl ?_)
    | rfl

theorem execColdStart_kept {P : State → Prop} (hC : Closed P) (straps : BitVec 12) (testEn : Bool) {s : State}  (hP : P s) :
    Res.Keeps P (execColdStart straps testEn s) := by
  unfold execColdStart
  repeat' first
    | with_reducible assumption
    | (intro _)
    | with_reducible apply Res.keeps_next
    | with_reducible apply hC.setReg
    | with_reducible apply State.setFld_kept hC
    | with_reducible apply State.updTap_kept hC
    | with_reducible apply State.setReady_kept hC
    | with_reducible apply State.restart_kept hC
    | with_reducible apply foldl_kept
    | with_reducible apply foldl_snd_kept
    | with_reducible apply foldl_fst_kept
    | with_reducible apply ite_kept
    | dsimp only
    | split
    | fail_if_no_progress (with_reducible refine hC.mk_kept rfl ?_)
    | rfl

theorem execVkaLoss_kept {P : State → Prop} (hC : Closed P) {s : State}  (hP : P s) :
    Res.Keeps P (execVkaLoss s) :=
  hC.cold (s := s) rfl rfl rfl rfl rfl rfl rfl rfl rfl rfl rfl rfl hP

theorem State.warmReset_kept {P : State → Prop} (hC : Closed P) {s : State}  (hP : P s) :
    P (State.warmReset s) := by
  unfold State.warmReset
  repeat' first
    | with_reducible assumption
    | (intro _)
    | with_reducible apply State.fanRefresh_kept hC
    | with_reducible apply State.openSwitch_kept hC
    | with_reducible apply hC.coldBits
    | with_reducible apply State.setFld_kept hC
    | with_reducible apply State.settlePlls_kept hC
    | with_reducible apply foldl_kept
    | with_reducible apply foldl_snd_kept
    | with_reducible apply foldl_fst_kept
    | with_reducible apply ite_kept
    | dsimp only
    | split
    | fail_if_no_progress (with_reducible refine hC.mk_kept rfl ?_)
    | rfl

theorem State.readyPd1_kept {P : State → Prop} (hC : Closed P) {s : State}  (hP : P s) :
    P (State.readyPd1 s) := by
  unfold State.readyPd1
  repeat' first
    | with_reducible assumption
    | (intro _)
    | with_reducible apply State.setReady_kept hC
    | with_reducible apply State.setFld_kept hC
    | with_reducible apply foldl_kept
    | with_reducible apply foldl_snd_kept
    | with_reducible apply foldl_fst_kept
    | dsimp only
    | split
    | fail_if_no_progress (with_reducible refine hC.mk_kept rfl ?_)
    | rfl

theorem State.fatalStays_kept {P : State → Prop} (hC : Closed P) {s : State}   (hP : P s) :
    P (State.fatalStays s) := by
  unfold State.fatalStays
  repeat' first
    | with_reducible assumption
    | (intro _)
    | with_reducible apply State.enterSafe_kept hC
    | with_reducible apply ite_kept
    | dsimp only
    | split
    | fail_if_no_progress (with_reducible refine hC.mk_kept rfl ?_)
    | rfl

theorem State.warmRestart_kept {P : State → Prop} (hC : Closed P) {s : State}  (hP : P s) :
    P (State.warmRestart s) := by
  unfold State.warmRestart
  repeat' first
    | with_reducible assumption
    | (intro _)
    | with_reducible apply State.fatalStays_kept hC
    | with_reducible apply State.updTap_kept hC
    | with_reducible apply State.setReady_kept hC
    | with_reducible apply State.readyPd1_kept hC
    | with_reducible apply State.restart_kept hC
    | with_reducible apply ite_kept
    | dsimp only
    | split
    | fail_if_no_progress (with_reducible refine hC.mk_kept rfl ?_)
    | rfl

theorem execWarmReset_kept {P : State → Prop} (hC : Closed P) {s : State}  (hP : P s) :
    Res.Keeps P (execWarmReset s) := by
  unfold execWarmReset
  repeat' first
    | with_reducible assumption
    | (intro _)
    | with_reducible apply Res.keeps_next
    | with_reducible apply State.warmReset_kept hC
    | with_reducible apply ite_kept
    | dsimp only
    | split
    | fail_if_no_progress (with_reducible refine hC.mk_kept rfl ?_)
    | rfl

theorem execWarmResetEnd_kept {P : State → Prop} (hC : Closed P) {s : State}  (hP : P s) :
    Res.Keeps P (execWarmResetEnd s) := by
  unfold execWarmResetEnd
  repeat' first
    | with_reducible assumption
    | (intro _)
    | with_reducible apply Res.keeps_next
    | with_reducible apply State.warmRestart_kept hC
    | with_reducible apply ite_kept
    | dsimp only
    | split
    | fail_if_no_progress (with_reducible refine hC.mk_kept rfl ?_)
    | rfl

theorem execXtalChangeover_kept {P : State → Prop} (hC : Closed P) {s : State}  (hP : P s) :
    Res.Keeps P (execXtalChangeover s) := by
  unfold execXtalChangeover
  repeat' first
    | with_reducible assumption
    | (intro _)
    | with_reducible apply Res.keeps_next
    | with_reducible apply State.setFld_kept hC
    | with_reducible apply ite_kept
    | dsimp only
    | split
    | fail_if_no_progress (with_reducible refine hC.mk_kept rfl ?_)
    | rfl

theorem execXtalFail_kept {P : State → Prop} (hC : Closed P) {s : State}  (hP : P s) :
    Res.Keeps P (execXtalFail s) := by
  unfold execXtalFail
  repeat' first
    | with_reducible assumption
    | (intro _)
    | with_reducible apply Res.keeps_next
    | with_reducible apply State.setFld_kept hC
    | with_reducible apply State.fault_kept hC
    | with_reducible apply ite_kept
    | dsimp only
    | split
    | fail_if_no_progress (with_reducible refine hC.mk_kept rfl ?_)
    | rfl

theorem execRtcAlarm_kept {P : State → Prop} (hC : Closed P) {s : State}  (hP : P s) :
    Res.Keeps P (execRtcAlarm s) := by
  unfold execRtcAlarm
  repeat' first
    | with_reducible assumption
    | (intro _)
    | with_reducible apply Res.keeps_next
    | with_reducible apply State.wakeSource_kept hC
    | with_reducible apply ite_kept
    | dsimp only
    | split
    | fail_if_no_progress (with_reducible refine hC.mk_kept rfl ?_)
    | rfl

theorem execWakeQualify_kept {P : State → Prop} (hC : Closed P) (n : Fin 8) {s : State}  (hP : P s) :
    Res.Keeps P (execWakeQualify n s) := by
  unfold execWakeQualify
  repeat' first
    | with_reducible assumption
    | (intro _)
    | with_reducible apply Res.keeps_next
    | with_reducible apply State.setWakeHeld_kept hC
    | with_reducible apply State.wakeSource_kept hC
    | with_reducible apply ite_kept
    | dsimp only
    | split
    | fail_if_no_progress (with_reducible refine hC.mk_kept rfl ?_)
    | rfl

theorem execWakeLeavesActive_kept {P : State → Prop} (hC : Closed P) (n : Fin 8) {s : State}  (hP : P s) :
    Res.Keeps P (execWakeLeavesActive n s) := by
  unfold execWakeLeavesActive
  repeat' first
    | with_reducible assumption
    | (intro _)
    | with_reducible apply Res.keeps_next
    | with_reducible apply State.setWakeHeld_kept hC
    | dsimp only
    | split
    | fail_if_no_progress (with_reducible refine hC.mk_kept rfl ?_)
    | rfl

theorem State.wakeCycle_kept {P : State → Prop} (hC : Closed P) {s : State}  (hP : P s) :
    P (State.wakeCycle s) := by
  unfold State.wakeCycle
  repeat' first
    | with_reducible assumption
    | (intro _)
    | with_reducible apply State.wakeSource_kept hC
    | with_reducible apply foldl_kept
    | with_reducible apply foldl_snd_kept
    | with_reducible apply foldl_fst_kept
    | with_reducible apply ite_kept
    | dsimp only
    | split
    | fail_if_no_progress (with_reducible refine hC.mk_kept rfl ?_)
    | rfl

theorem execVbatComparatorQualify_kept {P : State → Prop} (hC : Closed P) (hi : Bool) {s : State}  (hP : P s) :
    Res.Keeps P (execVbatComparatorQualify hi s) := by
  unfold execVbatComparatorQualify
  repeat' first
    | with_reducible assumption
    | (intro _)
    | with_reducible apply Res.keeps_next
    | with_reducible apply State.updTap_kept hC
    | with_reducible apply State.wakeSource_kept hC
    | with_reducible apply ite_kept
    | dsimp only
    | split
    | fail_if_no_progress (with_reducible refine hC.mk_kept rfl ?_)
    | rfl

theorem execVbatComparatorRearm_kept {P : State → Prop} (hC : Closed P) (hi : Bool) {s : State}  (hP : P s) :
    Res.Keeps P (execVbatComparatorRearm hi s) := by
  unfold execVbatComparatorRearm
  repeat' first
    | with_reducible assumption
    | (intro _)
    | with_reducible apply Res.keeps_next
    | with_reducible apply State.updTap_kept hC
    | with_reducible apply ite_kept
    | dsimp only
    | split
    | fail_if_no_progress (with_reducible refine hC.mk_kept rfl ?_)
    | rfl

theorem State.rramStep_kept {P : State → Prop} (hC : Closed P) {s : State}  (hP : P s) :
    P (State.rramStep s) := by
  unfold State.rramStep
  repeat' first
    | with_reducible assumption
    | (intro _)
    | with_reducible apply State.setFld_kept hC
    | dsimp only
    | split
    | fail_if_no_progress (with_reducible refine hC.mk_kept rfl ?_)
    | rfl

theorem State.rramRead_kept {P : State → Prop} (hC : Closed P) {s : State}  (hP : P s) :
    P (((State.rramRead s)).2) := by
  unfold State.rramRead
  repeat' first
    | with_reducible assumption
    | (intro _)
    | with_reducible apply State.rramMeet_kept hC
    | with_reducible apply State.satAdd_kept hC
    | with_reducible apply State.fault_kept hC
    | with_reducible apply State.setFld_kept hC
    | with_reducible apply State.rramStep_kept hC
    | with_reducible apply ite_kept
    | with_reducible apply ite_snd_kept
    | with_reducible apply ite_fst_kept
    | dsimp only
    | split
    | fail_if_no_progress (with_reducible refine hC.mk_kept rfl ?_)
    | rfl

theorem State.rramWrite_kept {P : State → Prop} (hC : Closed P) {s : State} (v : Word)  (hP : P s) :
    P (State.rramWrite s v) := by
  unfold State.rramWrite
  repeat' first
    | with_reducible assumption
    | (intro _)
    | with_reducible apply State.rramStore_kept hC
    | with_reducible apply State.rramPut_kept hC
    | with_reducible apply State.setFld_kept hC
    | with_reducible apply State.rramStep_kept hC
    | with_reducible apply ite_kept
    | dsimp only
    | split
    | fail_if_no_progress (with_reducible refine hC.mk_kept rfl ?_)
    | rfl

theorem execDomainRequest_kept {P : State → Prop} (hC : Closed P) (d : Fin 16) {s : State}  (hP : P s) :
    Res.Keeps P (execDomainRequest d s) := by
  unfold execDomainRequest
  repeat' first
    | with_reducible assumption
    | (intro _)
    | with_reducible apply Res.keeps_next
    | with_reducible apply State.setBit_kept hC
    | with_reducible apply State.setHwReq_kept hC
    | with_reducible apply State.requestDomain_kept hC
    | with_reducible apply ite_kept
    | dsimp only
    | split
    | fail_if_no_progress (with_reducible refine hC.mk_kept rfl ?_)
    | rfl

theorem execDomainRequestEnd_kept {P : State → Prop} (hC : Closed P) (d : Fin 16) {s : State}  (hP : P s) :
    Res.Keeps P (execDomainRequestEnd d s) := by
  unfold execDomainRequestEnd
  repeat' first
    | with_reducible assumption
    | (intro _)
    | with_reducible apply Res.keeps_next
    | with_reducible apply State.setHwReq_kept hC
    | with_reducible apply State.judgeDomain_kept hC
    | with_reducible apply ite_kept
    | dsimp only
    | split
    | fail_if_no_progress (with_reducible refine hC.mk_kept rfl ?_)
    | rfl

theorem State.dtbStart_kept {P : State → Prop} (hC : Closed P) {s : State}  (hP : P s) :
    P (State.dtbStart s) := by
  unfold State.dtbStart
  repeat' first
    | with_reducible assumption
    | (intro _)
    | with_reducible apply State.setPair_kept hC
    | with_reducible apply State.setReady_kept hC
    | dsimp only
    | split
    | fail_if_no_progress (with_reducible refine hC.mk_kept rfl ?_)
    | rfl

theorem State.onGrant_kept {P : State → Prop} (hC : Closed P) {s : State} (d : Nat)  (hP : P s) :
    P (State.onGrant s d) := by
  unfold State.onGrant
  repeat' first
    | with_reducible assumption
    | (intro _)
    | with_reducible apply State.fanRefresh_kept hC
    | with_reducible apply State.readyPd1_kept hC
    | with_reducible apply State.setReady_kept hC
    | with_reducible apply State.scanFaultStore_kept hC
    | with_reducible apply State.reportWinner_kept hC
    | with_reducible apply State.dtbStart_kept hC
    | with_reducible apply State.usbPullup_kept hC
    | with_reducible apply State.loadSa_kept hC
    | with_reducible apply ite_kept
    | (with_reducible refine pair_snd_kept (by with_reducible assumption) ?_)
    | (with_reducible refine pair_fst_kept (by with_reducible assumption) ?_)
    | (with_reducible refine trip_kept (by with_reducible assumption) ?_)
    | dsimp only
    | split
    | fail_if_no_progress (with_reducible refine hC.mk_kept rfl ?_)
    | rfl

theorem execDomainGrant_kept {P : State → Prop} (hC : Closed P) (d : Fin 16) {s : State}  (hP : P s) :
    Res.Keeps P (execDomainGrant d s) := by
  unfold execDomainGrant
  repeat' first
    | with_reducible assumption
    | (intro _)
    | with_reducible apply Res.keeps_next
    | with_reducible apply State.pllLocked_kept hC
    | with_reducible apply State.setLanes_kept hC
    | with_reducible apply State.updTap_kept hC
    | with_reducible apply State.setPll_kept hC
    | with_reducible apply State.setBit_kept hC
    | with_reducible apply State.setDomState_kept hC
    | with_reducible apply State.onGrant_kept hC
    | with_reducible apply ite_kept
    | dsimp only
    | split
    | fail_if_no_progress (with_reducible refine hC.mk_kept rfl ?_)
    | rfl

theorem execBudTimeout_kept {P : State → Prop} (hC : Closed P) (b : Fin 8) {s : State}  (hP : P s) :
    Res.Keeps P (execBudTimeout b s) := by
  unfold execBudTimeout
  repeat' first
    | with_reducible assumption
    | (intro _)
    | with_reducible apply Res.keeps_next
    | with_reducible apply State.endPending_kept hC
    | with_reducible apply State.fault_kept hC
    | with_reducible apply ite_kept
    | dsimp only
    | split
    | fail_if_no_progress (with_reducible refine hC.mk_kept rfl ?_)
    | rfl

theorem execRefSysTimeout_kept {P : State → Prop} (hC : Closed P) {s : State}  (hP : P s) :
    Res.Keeps P (execRefSysTimeout s) := by
  unfold execRefSysTimeout
  repeat' first
    | with_reducible assumption
    | (intro _)
    | with_reducible apply Res.keeps_next
    | with_reducible apply State.fault_kept hC
    | with_reducible apply ite_kept
    | dsimp only
    | split
    | fail_if_no_progress (with_reducible refine hC.mk_kept rfl ?_)
    | rfl

theorem execPllLockTimeout_kept {P : State → Prop} (hC : Closed P) (p : Pll) {s : State}  (hP : P s) :
    Res.Keeps P (execPllLockTimeout p s) := by
  unfold execPllLockTimeout
  repeat' first
    | with_reducible assumption
    | (intro _)
    | with_reducible apply Res.keeps_next
    | with_reducible apply State.setPll_kept hC
    | with_reducible apply State.endPending_kept hC
    | with_reducible apply State.fault_kept hC
    | with_reducible apply foldl_kept
    | with_reducible apply foldl_snd_kept
    | with_reducible apply foldl_fst_kept
    | with_reducible apply ite_kept
    | dsimp only
    | split
    | fail_if_no_progress (with_reducible refine hC.mk_kept rfl ?_)
    | rfl

theorem State.stopClocks_kept {P : State → Prop} (hC : Closed P) {s : State}  (hP : P s) :
    P (State.stopClocks s) := by
  unfold State.stopClocks
  repeat' first
    | with_reducible assumption
    | (intro _)
    | with_reducible apply State.updTap_kept hC
    | dsimp only
    | split
    | fail_if_no_progress (with_reducible refine hC.mk_kept rfl ?_)
    | rfl

theorem State.standbyNext_kept {P : State → Prop} (hC : Closed P) {s : State}  (hP : P s) :
    P (State.standbyNext s) := by
  unfold State.standbyNext
  repeat' first
    | with_reducible assumption
    | (intro _)
    | with_reducible apply State.drain_kept hC
    | with_reducible apply State.stopClocks_kept hC
    | with_reducible apply State.updTap_kept hC
    | with_reducible apply ite_kept
    | dsimp only
    | split
    | fail_if_no_progress (with_reducible refine hC.mk_kept rfl ?_)
    | rfl

theorem State.standbyGo_kept {P : State → Prop} (hC : Closed P) {s : State}  (hP : P s) :
    P (State.standbyGo s) := by
  unfold State.standbyGo
  repeat' first
    | with_reducible assumption
    | (intro _)
    | with_reducible apply State.setFld_kept hC
    | with_reducible apply State.updTap_kept hC
    | with_reducible apply State.withdrawBough_kept hC
    | with_reducible apply State.setDomState_kept hC
    | with_reducible apply State.standbyNext_kept hC
    | with_reducible apply State.wakeCycle_kept hC
    | with_reducible apply foldl_kept
    | with_reducible apply foldl_snd_kept
    | with_reducible apply foldl_fst_kept
    | with_reducible apply ite_kept
    | dsimp only
    | split
    | fail_if_no_progress (with_reducible refine hC.mk_kept rfl ?_)
    | rfl

theorem execDomainRelease_kept {P : State → Prop} (hC : Closed P) (d : Fin 16) {s : State}  (hP : P s) :
    Res.Keeps P (execDomainRelease d s) := by
  unfold execDomainRelease
  repeat' first
    | with_reducible assumption
    | (intro _)
    | with_reducible apply Res.keeps_next
    | with_reducible apply State.openSwitch_kept hC
    | with_reducible apply State.standbyNext_kept hC
    | with_reducible apply State.judgeDomain_kept hC
    | with_reducible apply ite_kept
    | dsimp only
    | split
    | fail_if_no_progress (with_reducible refine hC.mk_kept rfl ?_)
    | rfl

theorem execVioLoss_kept {P : State → Prop} (hC : Closed P) {s : State}  (hP : P s) :
    Res.Keeps P (execVioLoss s) := by
  unfold execVioLoss
  repeat' first
    | with_reducible assumption
    | (intro _)
    | with_reducible apply Res.keeps_next
    | with_reducible apply State.updTap_kept hC
    | with_reducible apply State.openSwitch_kept hC
    | with_reducible apply State.stopClocks_kept hC
    | with_reducible apply State.fault_kept hC
    | with_reducible apply foldl_kept
    | with_reducible apply foldl_snd_kept
    | with_reducible apply foldl_fst_kept
    | with_reducible apply ite_kept
    | dsimp only
    | split
    | fail_if_no_progress (with_reducible refine hC.mk_kept rfl ?_)
    | rfl

theorem execVioReturn_kept {P : State → Prop} (hC : Closed P) {s : State}  (hP : P s) :
    Res.Keeps P (execVioReturn s) := by
  unfold execVioReturn
  repeat' first
    | with_reducible assumption
    | (intro _)
    | with_reducible apply Res.keeps_next
    | with_reducible apply State.firstWake_kept hC
    | with_reducible apply State.setBit_kept hC
    | with_reducible apply State.setFld_kept hC
    | with_reducible apply State.updTap_kept hC
    | with_reducible apply State.restart_kept hC
    | with_reducible apply ite_kept
    | dsimp only
    | split
    | fail_if_no_progress (with_reducible refine hC.mk_kept rfl ?_)
    | rfl

theorem State.setRail_kept {P : State → Prop} (hC : Closed P) {s : State} (r : Rail) (good : Bool)  (hP : P s) :
    P (State.setRail s r good) := by
  unfold State.setRail
  repeat' first
    | with_reducible assumption
    | (intro _)
    | with_reducible apply State.updTap_kept hC
    | dsimp only
    | split
    | fail_if_no_progress (with_reducible refine hC.mk_kept rfl ?_)
    | rfl

theorem execSerdesRailLoss_kept {P : State → Prop} (hC : Closed P) (rail : Rail) {s : State}  (hP : P s) :
    Res.Keeps P (execSerdesRailLoss rail s) := by
  unfold execSerdesRailLoss
  repeat' first
    | with_reducible assumption
    | (intro _)
    | with_reducible apply Res.keeps_next
    | with_reducible apply State.setRail_kept hC
    | with_reducible apply State.railDown_kept hC
    | dsimp only
    | split
    | fail_if_no_progress (with_reducible refine hC.mk_kept rfl ?_)
    | rfl

theorem execSerdesRailReturn_kept {P : State → Prop} (hC : Closed P) (rail : Rail) {s : State}  (hP : P s) :
    Res.Keeps P (execSerdesRailReturn rail s) := by
  unfold execSerdesRailReturn
  repeat' first
    | with_reducible assumption
    | (intro _)
    | with_reducible apply Res.keeps_next
    | with_reducible apply State.setRail_kept hC
    | dsimp only
    | split
    | fail_if_no_progress (with_reducible refine hC.mk_kept rfl ?_)
    | rfl

theorem State.tapHook_kept {P : State → Prop} (hC : Closed P) {s : State} (off : Nat) (wr : Word)  (hP : P s) :
    P (State.tapHook s off wr) := by
  unfold State.tapHook
  repeat' first
    | with_reducible assumption
    | (intro _)
    | with_reducible apply State.setFld_kept hC
    | with_reducible apply State.setWakeHeld_kept hC
    | with_reducible apply State.updTap_kept hC
    | with_reducible apply State.standbyGo_kept hC
    | with_reducible apply State.judgeDomain_kept hC
    | with_reducible apply State.settlePlls_kept hC
    | with_reducible apply foldl_kept
    | with_reducible apply foldl_snd_kept
    | with_reducible apply foldl_fst_kept
    | with_reducible apply ite_kept
    | dsimp only
    | split
    | fail_if_no_progress (with_reducible refine hC.mk_kept rfl ?_)
    | rfl

end Sys2Proof.Machine
end

