-- ==== Sys2Proof/Laws/KeptBoot.lean ====
section
/-! SUPPORT. The definitions of Machine/Boot.lean keep every property that `Closed` describes. -/

namespace Sys2Proof.Machine

theorem State.bootTo_kept {P : State → Prop} (hC : Closed P) {s : State} (st : Nat)  (hP : P s) :
    P (State.bootTo s st) := by
  unfold State.bootTo
  repeat' first
    | with_reducible assumption
    | (intro _)
    | with_reducible apply State.setFld_kept hC
    | dsimp only
    | split
    | fail_if_no_progress (with_reducible refine hC.mk_kept rfl ?_)
    | rfl

theorem State.updBoot_kept {P : State → Prop} (hC : Closed P) {s : State} (f : Boot → Boot)  (hP : P s) :
    P (State.updBoot s f) := by
  unfold State.updBoot
  repeat' first
    | with_reducible assumption
    | (intro _)
    | dsimp only
    | split
    | fail_if_no_progress (with_reducible refine hC.mk_kept rfl ?_)
    | rfl

theorem State.fillArea_kept {P : State → Prop} (hC : Closed P) {s : State} (h : Header) (bs : Bytes)  (hP : P s) :
    P (State.fillArea s h bs) := by
  unfold State.fillArea
  repeat' first
    | with_reducible assumption
    | (intro _)
    | with_reducible apply State.rsPoke_kept hC
    | with_reducible apply State.load_kept hC
    | with_reducible apply State.devWrite_kept hC
    | with_reducible apply foldl_kept
    | with_reducible apply foldl_snd_kept
    | with_reducible apply foldl_fst_kept
    | with_reducible apply ite_kept
    | dsimp only
    | split
    | fail_if_no_progress (with_reducible refine hC.mk_kept rfl ?_)
    | rfl

theorem State.imageFailed_kept {P : State → Prop} (hC : Closed P) {s : State} (h : Header) (room : Nat) (err : Nat)  (hP : P s) :
    P (State.imageFailed s h room err) := by
  unfold State.imageFailed
  repeat' first
    | with_reducible assumption
    | (intro _)
    | with_reducible apply State.setFld_kept hC
    | with_reducible apply State.fillArea_kept hC
    | with_reducible apply ite_kept
    | dsimp only
    | split
    | fail_if_no_progress (with_reducible refine hC.mk_kept rfl ?_)
    | rfl

theorem State.startRootstock_kept {P : State → Prop} (hC : Closed P) {s : State} (h : Header)  (hP : P s) :
    P (State.startRootstock s h) := by
  unfold State.startRootstock
  repeat' first
    | with_reducible assumption
    | (intro _)
    | with_reducible apply State.setThr_kept hC
    | with_reducible apply State.load_kept hC
    | with_reducible apply State.setFld_kept hC
    | with_reducible apply State.updBoot_kept hC
    | with_reducible apply State.setReady_kept hC
    | with_reducible apply foldl_kept
    | with_reducible apply foldl_snd_kept
    | with_reducible apply foldl_fst_kept
    | dsimp only
    | split
    | fail_if_no_progress (with_reducible refine hC.mk_kept rfl ?_)
    | rfl

theorem State.recover_kept {P : State → Prop} (hC : Closed P) {s : State}  (hP : P s) :
    P (State.recover s) := by
  unfold State.recover
  repeat' first
    | with_reducible assumption
    | (intro _)
    | with_reducible apply hC.setReg
    | with_reducible apply State.setFld_kept hC
    | with_reducible apply State.startLoop_kept hC
    | with_reducible apply State.setHwReq_kept hC
    | with_reducible apply State.requestDomain_kept hC
    | with_reducible apply State.bootTo_kept hC
    | with_reducible apply foldl_kept
    | with_reducible apply foldl_snd_kept
    | with_reducible apply foldl_fst_kept
    | with_reducible apply ite_kept
    | dsimp only
    | split
    | fail_if_no_progress (with_reducible refine hC.mk_kept rfl ?_)
    | rfl

theorem State.trySlots_kept {P : State → Prop} (hC : Closed P) (base : Nat) : ∀ (l : List Nat) {s : State}, P s →
    P (s.trySlots base l).2
  | [], _, hP => hP
  | i :: more, s, hP => by
    unfold State.trySlots
    split
    · exact hP
    · exact State.trySlots_kept hC base more (State.imageFailed_kept hC _ _ _ (State.slotMeet_kept hC _ hP))

theorem State.bootHalt_kept {P : State → Prop} (hC : Closed P) {s : State}   (hP : P s) :
    P (State.bootHalt s) := by
  unfold State.bootHalt
  repeat' first
    | with_reducible assumption
    | (intro _)
    | with_reducible apply State.stopLoop_kept hC
    | with_reducible apply State.bootTo_kept hC
    | with_reducible apply State.fault_kept hC
    | with_reducible apply foldl_kept
    | with_reducible apply foldl_snd_kept
    | with_reducible apply foldl_fst_kept
    | with_reducible apply ite_kept
    | dsimp only
    | split
    | fail_if_no_progress (with_reducible refine hC.mk_kept rfl ?_)
    | rfl

theorem State.startBoughs_kept {P : State → Prop} (hC : Closed P) {s : State}   (hP : P s) :
    P (State.startBoughs s) := by
  unfold State.startBoughs
  repeat' first
    | with_reducible assumption
    | (intro _)
    | with_reducible apply State.updBoot_kept hC
    | with_reducible apply State.bootTo_kept hC
    | with_reducible apply ite_kept
    | dsimp only
    | split
    | fail_if_no_progress (with_reducible refine hC.mk_kept rfl ?_)
    | rfl

theorem State.headersRead_kept {P : State → Prop} (hC : Closed P) {s : State} (base : Nat)  (hP : P s) :
    P (State.headersRead s base) := by
  unfold State.headersRead
  repeat' first
    | with_reducible assumption
    | (intro _)
    | with_reducible apply State.nvMeet_kept hC
    | with_reducible apply ite_kept
    | with_reducible apply ite_snd_kept
    | with_reducible apply ite_fst_kept
    | dsimp only
    | split
    | fail_if_no_progress (with_reducible refine hC.mk_kept rfl ?_)
    | rfl

theorem execRootstockBoot_kept {P : State → Prop} (hC : Closed P) (xspi : Option Bytes) {s : State}  (hP : P s) :
    Res.Keeps P (execRootstockBoot xspi s) := by
  unfold execRootstockBoot
  repeat' first
    | with_reducible assumption
    | (intro _)
    | with_reducible apply Res.keeps_next
    | with_reducible apply State.headersRead_kept hC
    | with_reducible apply State.updBoot_kept hC
    | with_reducible apply State.bootHalt_kept hC
    | with_reducible apply State.trySlots_kept hC
    | with_reducible apply State.fillArea_kept hC
    | with_reducible apply State.startRootstock_kept hC
    | with_reducible apply State.setFld_kept hC
    | with_reducible apply State.bootTo_kept hC
    | with_reducible apply State.recover_kept hC
    | with_reducible apply State.fault_kept hC
    | with_reducible apply State.imageFailed_kept hC
    | with_reducible apply ite_kept
    | (with_reducible refine pair_snd_kept (by with_reducible assumption) ?_)
    | (with_reducible refine pair_fst_kept (by with_reducible assumption) ?_)
    | (with_reducible refine trip_kept (by with_reducible assumption) ?_)
    | with_reducible apply ite_snd_kept
    | with_reducible apply ite_fst_kept
    | dsimp only
    | split
    | fail_if_no_progress (with_reducible refine hC.mk_kept rfl ?_)
    | rfl

theorem State.startFabric_kept {P : State → Prop} (hC : Closed P) {s : State} (h : Header) (slot : Nat) (payload : Bytes)  (hP : P s) :
    P (State.startFabric s h slot payload) := by
  unfold State.startFabric
  repeat' first
    | with_reducible assumption
    | (intro _)
    | with_reducible apply State.updBoot_kept hC
    | with_reducible apply State.startBoughs_kept hC
    | with_reducible apply State.fillArea_kept hC
    | with_reducible apply State.setFld_kept hC
    | with_reducible apply State.bootTo_kept hC
    | with_reducible apply ite_kept
    | dsimp only
    | split
    | fail_if_no_progress (with_reducible refine hC.mk_kept rfl ?_)
    | rfl

theorem State.fabricFailed_kept {P : State → Prop} (hC : Closed P) {s : State}  (hP : P s) :
    P (State.fabricFailed s) := by
  unfold State.fabricFailed
  repeat' first
    | with_reducible assumption
    | (intro _)
    | with_reducible apply State.setHwReq_kept hC
    | with_reducible apply State.requestDomain_kept hC
    | with_reducible apply State.fault_kept hC
    | with_reducible apply State.bootTo_kept hC
    | dsimp only
    | split
    | fail_if_no_progress (with_reducible refine hC.mk_kept rfl ?_)
    | rfl

theorem execFabricLoad_kept {P : State → Prop} (hC : Closed P) (xspi : Bytes) {s : State}  (hP : P s) :
    Res.Keeps P (execFabricLoad xspi s) := by
  unfold execFabricLoad
  repeat' first
    | with_reducible assumption
    | (intro _)
    | with_reducible apply Res.keeps_next
    | with_reducible apply State.headersRead_kept hC
    | with_reducible apply State.bootTo_kept hC
    | with_reducible apply State.startFabric_kept hC
    | with_reducible apply State.imageFailed_kept hC
    | with_reducible apply State.fabricFailed_kept hC
    | with_reducible apply State.trySlots_kept hC
    | with_reducible apply ite_kept
    | (with_reducible refine pair_snd_kept (by with_reducible assumption) ?_)
    | (with_reducible refine pair_fst_kept (by with_reducible assumption) ?_)
    | (with_reducible refine trip_kept (by with_reducible assumption) ?_)
    | with_reducible apply ite_snd_kept
    | with_reducible apply ite_fst_kept
    | dsimp only
    | split
    | fail_if_no_progress (with_reducible refine hC.mk_kept rfl ?_)
    | rfl

theorem execXspiTimeout_kept {P : State → Prop} (hC : Closed P) {s : State}  (hP : P s) :
    Res.Keeps P (execXspiTimeout s) := by
  unfold execXspiTimeout
  repeat' first
    | with_reducible assumption
    | (intro _)
    | with_reducible apply Res.keeps_next
    | with_reducible apply State.setFld_kept hC
    | with_reducible apply State.fabricFailed_kept hC
    | with_reducible apply ite_kept
    | dsimp only
    | split
    | fail_if_no_progress (with_reducible refine hC.mk_kept rfl ?_)
    | rfl

theorem State.stageGo_kept {P : State → Prop} (hC : Closed P) {s : State}  (hP : P s) :
    P (State.stageGo s) := by
  unfold State.stageGo
  repeat' first
    | with_reducible assumption
    | (intro _)
    | with_reducible apply State.setFld_kept hC
    | with_reducible apply State.updBoot_kept hC
    | with_reducible apply State.bootTo_kept hC
    | with_reducible apply ite_kept
    | dsimp only
    | split
    | fail_if_no_progress (with_reducible refine hC.mk_kept rfl ?_)
    | rfl

theorem execStagedImageDone_kept {P : State → Prop} (hC : Closed P) {s : State}  (hP : P s) :
    Res.Keeps P (execStagedImageDone s) := by
  unfold execStagedImageDone
  repeat' first
    | with_reducible assumption
    | (intro _)
    | with_reducible apply Res.keeps_next
    | with_reducible apply State.startBoughs_kept hC
    | with_reducible apply State.updBoot_kept hC
    | with_reducible apply State.fillArea_kept hC
    | with_reducible apply State.startRootstock_kept hC
    | with_reducible apply State.bootTo_kept hC
    | with_reducible apply State.setFld_kept hC
    | with_reducible apply State.imageFailed_kept hC
    | with_reducible apply ite_kept
    | (with_reducible refine pair_snd_kept (by with_reducible assumption) ?_)
    | (with_reducible refine pair_fst_kept (by with_reducible assumption) ?_)
    | (with_reducible refine trip_kept (by with_reducible assumption) ?_)
    | dsimp only
    | split
    | fail_if_no_progress (with_reducible refine hC.mk_kept rfl ?_)
    | rfl

theorem State.fuseCmd_kept {P : State → Prop} (hC : Closed P) {s : State} (wr : Word)  (hP : P s) :
    P (State.fuseCmd s wr) := by
  unfold State.fuseCmd
  refine ite_kept (State.fault_kept hC _ _ hP) ?_
  have hor : ∀ (l : List Nat) (m : BitVec 4), m &&& l.foldl (fun m n => m ||| BitVec.ofNat 4 (2 ^ n)) m = m := by
    intro l
    induction l with
    | nil => intro m; exact BitVec.and_self
    | cons n l ih =>
      intro m
      have e := ih (m ||| BitVec.ofNat 4 (2 ^ n))
      rw [List.foldl_cons]
      generalize l.foldl (fun m n => m ||| BitVec.ofNat 4 (2 ^ n)) (m ||| BitVec.ofNat 4 (2 ^ n)) = z at e
      ext i hi
      have := congrArg (fun w => w.getLsbD i) e
      simp only [BitVec.getLsbD_and, BitVec.getLsbD_or] at this
      simp only [BitVec.getElem_and, ← BitVec.getLsbD_eq_getElem]
      cases hm : m.getLsbD i <;> simp_all
  dsimp only
  split
  next hc =>
    refine hC.same (s := { s with fuses := { s.fuses with revoked := _, minVer := _ } }) rfl
      (hC.fuse _ (BitVec.ofNat 6 (s.fld R.BOOT_STATUS_RS_VER)) (hor _ _) (Or.inr ?_) hP)
    simp only [Bool.and_eq_true, decide_eq_true_eq] at hc
    have h6 : s.fld R.BOOT_STATUS_RS_VER < 2 ^ 6 := Nat.mod_lt _ (by decide)
    rw [BitVec.toNat_ofNat, Nat.mod_eq_of_lt h6]
    exact hc.2
  next =>
    exact hC.same (s := { s with fuses := { s.fuses with revoked := _, minVer := s.fuses.minVer } }) rfl
      (hC.fuse _ _ (hor _ _) (Or.inl rfl) hP)

theorem State.rngFail_kept {P : State → Prop} (hC : Closed P) {s : State}  (hP : P s) :
    P (State.rngFail s) := by
  unfold State.rngFail
  repeat' first
    | with_reducible assumption
    | (intro _)
    | with_reducible apply State.setFld_kept hC
    | with_reducible apply State.fault_kept hC
    | dsimp only
    | split
    | fail_if_no_progress (with_reducible refine hC.mk_kept rfl ?_)
    | rfl

theorem execRngHealthFail_kept {P : State → Prop} (hC : Closed P) {s : State}  (hP : P s) :
    Res.Keeps P (execRngHealthFail s) := by
  unfold execRngHealthFail
  repeat' first
    | with_reducible assumption
    | (intro _)
    | with_reducible apply Res.keeps_next
    | with_reducible apply State.rngFail_kept hC
    | with_reducible apply ite_kept
    | dsimp only
    | split
    | fail_if_no_progress (with_reducible refine hC.mk_kept rfl ?_)
    | rfl

theorem State.rngRestart_kept {P : State → Prop} (hC : Closed P) {s : State} (pass : Bool)  (hP : P s) :
    P (State.rngRestart s pass) := by
  unfold State.rngRestart
  repeat' first
    | with_reducible assumption
    | (intro _)
    | with_reducible apply State.setFld_kept hC
    | with_reducible apply State.rngFail_kept hC
    | with_reducible apply ite_kept
    | dsimp only
    | split
    | fail_if_no_progress (with_reducible refine hC.mk_kept rfl ?_)
    | rfl

theorem State.rngTake_kept {P : State → Prop} (hC : Closed P) {s : State}  (hP : P s) :
    P (((State.rngTake s)).2) := by
  unfold State.rngTake
  repeat' first
    | with_reducible assumption
    | (intro _)
    | with_reducible apply hC.tookFree
    | with_reducible apply ite_kept
    | with_reducible apply ite_snd_kept
    | with_reducible apply ite_fst_kept
    | dsimp only
    | split
    | fail_if_no_progress (with_reducible refine hC.mk_kept rfl ?_)
    | rfl

theorem State.jtagBypass_kept {P : State → Prop} (hC : Closed P) {s : State}  (hP : P s) :
    P (State.jtagBypass s) := by
  unfold State.jtagBypass
  repeat' first
    | with_reducible assumption
    | (intro _)
    | with_reducible apply hC.send
    | dsimp only
    | split
    | fail_if_no_progress (with_reducible refine hC.mk_kept rfl ?_)
    | rfl

theorem State.dbgNotReady_kept {P : State → Prop} (hC : Closed P) {s : State} (n : Nat)  (hP : P s) :
    P (State.dbgNotReady s n) := by
  unfold State.dbgNotReady
  repeat' first
    | with_reducible assumption
    | (intro _)
    | with_reducible apply hC.tookFree
    | with_reducible apply hC.send
    | with_reducible apply ite_kept
    | dsimp only
    | split
    | fail_if_no_progress (with_reducible refine hC.mk_kept rfl ?_)
    | rfl

theorem execIdcode_kept {P : State → Prop} (hC : Closed P) {s : State}  (hP : P s) :
    Res.Keeps P (execIdcode s) := by
  unfold execIdcode
  repeat' first
    | with_reducible assumption
    | (intro _)
    | with_reducible apply Res.keeps_next
    | with_reducible apply State.dbgNotReady_kept hC
    | with_reducible apply hC.send
    | with_reducible apply ite_kept
    | dsimp only
    | split
    | fail_if_no_progress (with_reducible refine hC.mk_kept rfl ?_)
    | rfl

theorem execChallenge_kept {P : State → Prop} (hC : Closed P) {s : State}  (hP : P s) :
    Res.Keeps P (execChallenge s) := by
  unfold execChallenge
  repeat' first
    | with_reducible assumption
    | (intro _)
    | with_reducible apply Res.keeps_next
    | with_reducible apply State.dbgNotReady_kept hC
    | with_reducible apply State.jtagBypass_kept hC
    | with_reducible apply hC.tookFree
    | with_reducible apply State.updBoot_kept hC
    | with_reducible apply hC.send
    | with_reducible apply ite_kept
    | dsimp only
    | split
    | fail_if_no_progress (with_reducible refine hC.mk_kept rfl ?_)
    | rfl

theorem State.dbgFail_kept {P : State → Prop} (hC : Closed P) {s : State}  (hP : P s) :
    P (State.dbgFail s) := by
  unfold State.dbgFail
  repeat' first
    | with_reducible assumption
    | (intro _)
    | with_reducible apply State.setFld_kept hC
    | with_reducible apply State.fault_kept hC
    | with_reducible apply ite_kept
    | dsimp only
    | split
    | fail_if_no_progress (with_reducible refine hC.mk_kept rfl ?_)
    | rfl

theorem execResponse_kept {P : State → Prop} (hC : Closed P) (level : Byte) (sig : BitVec 512) {s : State}  (hP : P s) :
    Res.Keeps P (execResponse level sig s) := by
  unfold execResponse
  repeat' first
    | with_reducible assumption
    | (intro _)
    | with_reducible apply Res.keeps_next
    | with_reducible apply State.dbgNotReady_kept hC
    | with_reducible apply State.jtagBypass_kept hC
    | with_reducible apply State.updBoot_kept hC
    | with_reducible apply State.dbgFail_kept hC
    | with_reducible apply State.setFld_kept hC
    | with_reducible apply hC.tookFree
    | with_reducible apply ite_kept
    | (with_reducible refine pair_snd_kept (by with_reducible assumption) ?_)
    | (with_reducible refine pair_fst_kept (by with_reducible assumption) ?_)
    | (with_reducible refine trip_kept (by with_reducible assumption) ?_)
    | dsimp only
    | split
    | fail_if_no_progress (with_reducible refine hC.mk_kept rfl ?_)
    | rfl

theorem execBypass_kept {P : State → Prop} (hC : Closed P) (code : Byte) {s : State}  (hP : P s) :
    Res.Keeps P (execBypass code s) := by
  unfold execBypass
  repeat' first
    | with_reducible assumption
    | (intro _)
    | with_reducible apply Res.keeps_next
    | with_reducible apply State.dbgNotReady_kept hC
    | with_reducible apply State.jtagBypass_kept hC
    | with_reducible apply ite_kept
    | dsimp only
    | split
    | fail_if_no_progress (with_reducible refine hC.mk_kept rfl ?_)
    | rfl

theorem State.secHook_kept {P : State → Prop} (hC : Closed P) {s : State} (off : Nat) (wr : Word) (pass : Bool)  (hP : P s) :
    P (State.secHook s off wr pass) := by
  unfold State.secHook
  repeat' first
    | with_reducible assumption
    | (intro _)
    | with_reducible apply State.startBoughs_kept hC
    | with_reducible apply State.updBoot_kept hC
    | with_reducible apply State.bootTo_kept hC
    | with_reducible apply State.stageGo_kept hC
    | with_reducible apply State.fuseCmd_kept hC
    | with_reducible apply State.rngRestart_kept hC
    | with_reducible apply ite_kept
    | dsimp only
    | split
    | fail_if_no_progress (with_reducible refine hC.mk_kept rfl ?_)
    | rfl

end Sys2Proof.Machine
end

