-- ==== Sys2Proof/Laws/KeptWatchdog.lean ====
section
/-! SUPPORT. The definitions of Machine/Watchdog.lean keep every property that `Closed` describes. -/

namespace Sys2Proof.Machine

theorem State.wdtRestart_kept {P : State → Prop} (hC : Closed P) {s : State}  (hP : P s) :
    P (State.wdtRestart s) := by
  unfold State.wdtRestart
  repeat' first
    | with_reducible assumption
    | (intro _)
    | dsimp only
    | split
    | fail_if_no_progress (with_reducible refine hC.mk_kept rfl ?_)
    | rfl

theorem State.wdtForget_kept {P : State → Prop} (hC : Closed P) {s : State}   (hP : P s) :
    P (State.wdtForget s) := by
  unfold State.wdtForget
  repeat' first
    | with_reducible assumption
    | (intro _)
    | with_reducible apply ite_kept
    | dsimp only
    | split
    | fail_if_no_progress (with_reducible refine hC.mk_kept rfl ?_)
    | rfl

theorem State.wdtBad_kept {P : State → Prop} (hC : Closed P) {s : State}  (hP : P s) :
    P (State.wdtBad s) := by
  unfold State.wdtBad
  repeat' first
    | with_reducible assumption
    | (intro _)
    | with_reducible apply State.satAdd_kept hC
    | with_reducible apply State.fault_kept hC
    | dsimp only
    | split
    | fail_if_no_progress (with_reducible refine hC.mk_kept rfl ?_)
    | rfl

theorem State.wdtKey_kept {P : State → Prop} (hC : Closed P) {s : State} (warden : Bool) (v : Word)  (hP : P s) :
    P (State.wdtKey s warden v) := by
  unfold State.wdtKey
  repeat' first
    | with_reducible assumption
    | (intro _)
    | with_reducible apply State.wdtBad_kept hC
    | with_reducible apply State.wdtRestart_kept hC
    | with_reducible apply ite_kept
    | dsimp only
    | split
    | fail_if_no_progress (with_reducible refine hC.mk_kept rfl ?_)
    | rfl

theorem State.wdtJudge_kept {P : State → Prop} (hC : Closed P) {s : State} (c : Nat) (warden : Bool) (v : Word)  (hP : P s) :
    P (State.wdtJudge s c warden v) := by
  unfold State.wdtJudge
  repeat' first
    | with_reducible assumption
    | (intro _)
    | with_reducible apply State.wdtBad_kept hC
    | with_reducible apply State.wdtRestart_kept hC
    | with_reducible apply ite_kept
    | (with_reducible refine pair_snd_kept (by with_reducible assumption) ?_)
    | (with_reducible refine pair_fst_kept (by with_reducible assumption) ?_)
    | (with_reducible refine trip_kept (by with_reducible assumption) ?_)
    | dsimp only
    | split
    | fail_if_no_progress (with_reducible refine hC.mk_kept rfl ?_)
    | rfl

theorem State.wdtEdge_kept {P : State → Prop} (hC : Closed P) {s : State}   (hP : P s) :
    P (State.wdtEdge s) := by
  unfold State.wdtEdge
  repeat' first
    | with_reducible assumption
    | (intro _)
    | with_reducible apply State.wdtJudge_kept hC
    | with_reducible apply foldl_kept
    | with_reducible apply foldl_snd_kept
    | with_reducible apply foldl_fst_kept
    | with_reducible apply ite_kept
    | with_reducible apply ite_snd_kept
    | with_reducible apply ite_fst_kept
    | dsimp only
    | split
    | fail_if_no_progress (with_reducible refine hC.mk_kept rfl ?_)
    | rfl

theorem execWdtExpiry_kept {P : State → Prop} (hC : Closed P) {s : State}  (hP : P s) :
    Res.Keeps P (execWdtExpiry s) := by
  unfold execWdtExpiry
  repeat' first
    | with_reducible assumption
    | (intro _)
    | with_reducible apply Res.keeps_next
    | with_reducible apply State.fault_kept hC
    | with_reducible apply State.satAdd_kept hC
    | with_reducible apply State.wdtRestart_kept hC
    | with_reducible apply ite_kept
    | dsimp only
    | split
    | fail_if_no_progress (with_reducible refine hC.mk_kept rfl ?_)
    | rfl

theorem execWdTripRelease_kept {P : State → Prop} (hC : Closed P) {s : State}  (hP : P s) :
    Res.Keeps P (execWdTripRelease s) := by
  unfold execWdTripRelease
  repeat' first
    | with_reducible assumption
    | (intro _)
    | with_reducible apply Res.keeps_next
    | with_reducible apply State.setFld_kept hC
    | with_reducible apply State.warmReset_kept hC
    | with_reducible apply State.warmRestart_kept hC
    | with_reducible apply ite_kept
    | dsimp only
    | split
    | fail_if_no_progress (with_reducible refine hC.mk_kept rfl ?_)
    | rfl

theorem State.rowWdtKey_kept {P : State → Prop} (hC : Closed P) {s : State} (r : Nat) (v : Word)  (hP : P s) :
    P (State.rowWdtKey s r v) := by
  unfold State.rowWdtKey
  repeat' first
    | with_reducible assumption
    | (intro _)
    | with_reducible apply State.rowWdtRestart_kept hC
    | with_reducible apply ite_kept
    | dsimp only
    | split
    | fail_if_no_progress (with_reducible refine hC.mk_kept rfl ?_)
    | rfl

theorem execRowWdtExpiry_kept {P : State → Prop} (hC : Closed P) (r : Fin 8) {s : State}  (hP : P s) :
    Res.Keeps P (execRowWdtExpiry r s) := by
  unfold execRowWdtExpiry
  repeat' first
    | with_reducible assumption
    | (intro _)
    | with_reducible apply Res.keeps_next
    | with_reducible apply State.rowWdtRestart_kept hC
    | with_reducible apply State.satAdd_kept hC
    | with_reducible apply State.fault_kept hC
    | with_reducible apply State.rowReset_kept hC
    | with_reducible apply ite_kept
    | dsimp only
    | split
    | fail_if_no_progress (with_reducible refine hC.mk_kept rfl ?_)
    | rfl

theorem execRsLockstep_kept {P : State → Prop} (hC : Closed P) {s : State}  (hP : P s) :
    Res.Keeps P (execRsLockstep s) := by
  unfold execRsLockstep
  repeat' first
    | with_reducible assumption
    | (intro _)
    | with_reducible apply Res.keeps_next
    | with_reducible apply State.fault_kept hC
    | with_reducible apply State.stopRootstock_kept hC
    | with_reducible apply ite_kept
    | dsimp only
    | split
    | fail_if_no_progress (with_reducible refine hC.mk_kept rfl ?_)
    | rfl

theorem execFaultStoreClearDone_kept {P : State → Prop} (hC : Closed P) {s : State}  (hP : P s) :
    Res.Keeps P (execFaultStoreClearDone s) := by
  unfold execFaultStoreClearDone
  repeat' first
    | with_reducible assumption
    | (intro _)
    | with_reducible apply Res.keeps_next
    | with_reducible apply State.setFld_kept hC
    | dsimp only
    | split
    | fail_if_no_progress (with_reducible refine hC.mk_kept rfl ?_)
    | rfl

theorem State.fltHook_kept {P : State → Prop} (hC : Closed P) {s : State} (off : Nat) (old : Word) (wr : Word)  (hP : P s) :
    P (State.fltHook s off old wr) := by
  unfold State.fltHook
  repeat' first
    | with_reducible assumption
    | (intro _)
    | with_reducible apply State.wdtForget_kept hC
    | with_reducible apply hC.setReg
    | with_reducible apply State.clearFaultStore_kept hC
    | with_reducible apply State.wdtRestart_kept hC
    | with_reducible apply State.admWritten_kept hC
    | with_reducible apply ite_kept
    | dsimp only
    | split
    | fail_if_no_progress (with_reducible refine hC.mk_kept rfl ?_)
    | rfl

end Sys2Proof.Machine
end

