-- ==== Sys2Proof/Laws/KeptGraft.lean ====
section
/-! SUPPORT. The definitions of Machine/Graft.lean keep every property that `Closed` describes. -/

namespace Sys2Proof.Machine

theorem State.graftReceive_kept {P : State → Prop} (hC : Closed P) {s : State} (type : Nat) (d : Bytes) (body : Nat → Nat → Nat → Bytes → State → State)  (hbody : ∀ y0 y1 y2 y3 y4, P y4 →  P (body y0 y1 y2 y3 y4)) (hP : P s) :
    P (State.graftReceive s type d body) := by
  unfold State.graftReceive
  repeat' first
    | with_reducible assumption
    | (intro _)
    | with_reducible apply hbody
    | dsimp only
    | split
    | fail_if_no_progress (with_reducible refine hC.mk_kept rfl ?_)
    | rfl

theorem execGraftHelloSend_kept {P : State → Prop} (hC : Closed P) {s : State}  (hP : P s) :
    Res.Keeps P (execGraftHelloSend s) := by
  unfold execGraftHelloSend
  repeat' first
    | with_reducible assumption
    | (intro _)
    | with_reducible apply Res.keeps_next
    | with_reducible apply State.graftSend_kept hC
    | with_reducible apply ite_kept
    | dsimp only
    | split
    | fail_if_no_progress (with_reducible refine hC.mk_kept rfl ?_)
    | rfl

theorem State.syncFailed_kept {P : State → Prop} (hC : Closed P) {s : State}  (hP : P s) :
    P (State.syncFailed s) := by
  unfold State.syncFailed
  repeat' first
    | with_reducible assumption
    | (intro _)
    | with_reducible apply State.endJobOf_kept hC
    | with_reducible apply State.updGraft_kept hC
    | with_reducible apply State.graftTo_kept hC
    | with_reducible apply ite_kept
    | dsimp only
    | split
    | fail_if_no_progress (with_reducible refine hC.mk_kept rfl ?_)
    | rfl

theorem execGraftHello_kept {P : State → Prop} (hC : Closed P) (data : Bytes) {s : State}  (hP : P s) :
    Res.Keeps P (execGraftHello data s) := by
  unfold execGraftHello
  repeat' first
    | with_reducible assumption
    | (intro _)
    | with_reducible apply Res.keeps_next
    | with_reducible apply State.graftReceive_kept hC
    | with_reducible apply State.updGraft_kept hC
    | with_reducible apply State.graftTo_kept hC
    | with_reducible apply State.setReady_kept hC
    | with_reducible apply State.syncFailed_kept hC
    | with_reducible apply State.fault_kept hC
    | with_reducible apply ite_kept
    | dsimp only
    | split
    | fail_if_no_progress (with_reducible refine hC.mk_kept rfl ?_)
    | rfl

theorem execGraftLinkLost_kept {P : State → Prop} (hC : Closed P) {s : State}  (hP : P s) :
    Res.Keeps P (execGraftLinkLost s) := by
  unfold execGraftLinkLost
  repeat' first
    | with_reducible assumption
    | (intro _)
    | with_reducible apply Res.keeps_next
    | with_reducible apply State.graftLost_kept hC
    | with_reducible apply ite_kept
    | dsimp only
    | split
    | fail_if_no_progress (with_reducible refine hC.mk_kept rfl ?_)
    | rfl

theorem State.graftData_kept {P : State → Prop} (hC : Closed P) {s : State} (epoch : Nat) (e0 : Nat) (e1 : Nat) (e2 : Bytes) (hP : P s) :
    P (State.graftData s epoch e0 e1 e2) := by
  revert hP
  fun_induction State.graftData s epoch e0 e1 e2
  all_goals
    intro hP
    repeat' first
      | with_reducible assumption
      | (intro _)
      | with_reducible apply State.graftSend_kept hC
      | (with_reducible apply_assumption)
      | dsimp only
      | split
      | fail_if_no_progress (with_reducible refine hC.mk_kept rfl ?_)
      | rfl

theorem State.graftSource_kept {P : State → Prop} (hC : Closed P) {s : State} (addr : Nat) (n : Nat)  (hP : P s) :
    P (((State.graftSource s addr n)).2) := by
  unfold State.graftSource
  repeat' first
    | with_reducible assumption
    | (intro _)
    | with_reducible apply State.memReadAll_kept hC
    | with_reducible apply hC.tookFree
    | with_reducible apply ite_kept
    | with_reducible apply ite_snd_kept
    | with_reducible apply ite_fst_kept
    | (with_reducible refine pair_snd_kept (by with_reducible assumption) ?_)
    | (with_reducible refine pair_fst_kept (by with_reducible assumption) ?_)
    | (with_reducible refine trip_kept (by with_reducible assumption) ?_)
    | dsimp only
    | split
    | fail_if_no_progress (with_reducible refine hC.mk_kept rfl ?_)
    | rfl

theorem execGraftSync_kept {P : State → Prop} (hC : Closed P) (tag : BitVec 10) {s : State}  (hP : P s) :
    Res.Keeps P (execGraftSync tag s) := by
  unfold execGraftSync
  repeat' first
    | with_reducible assumption
    | (intro _)
    | with_reducible apply Res.keeps_next
    | with_reducible apply State.startJob_kept hC
    | with_reducible apply State.endJob_kept hC
    | with_reducible apply State.graftSource_kept hC
    | with_reducible apply State.graftSend_kept hC
    | with_reducible apply State.graftData_kept hC
    | with_reducible apply State.graftTo_kept hC
    | with_reducible apply State.updJob_kept hC
    | with_reducible apply State.updGraft_kept hC
    | with_reducible apply foldl_kept
    | with_reducible apply foldl_snd_kept
    | with_reducible apply foldl_fst_kept
    | with_reducible apply ite_kept
    | (with_reducible refine pair_snd_kept (by with_reducible assumption) ?_)
    | (with_reducible refine pair_fst_kept (by with_reducible assumption) ?_)
    | (with_reducible refine trip_kept (by with_reducible assumption) ?_)
    | dsimp only
    | split
    | fail_if_no_progress (with_reducible refine hC.mk_kept rfl ?_)
    | rfl

theorem execAckFrame_kept {P : State → Prop} (hC : Closed P) (data : Bytes) {s : State}  (hP : P s) :
    Res.Keeps P (execAckFrame data s) := by
  unfold execAckFrame
  repeat' first
    | with_reducible assumption
    | (intro _)
    | with_reducible apply Res.keeps_next
    | with_reducible apply State.graftReceive_kept hC
    | with_reducible apply State.endJobOf_kept hC
    | with_reducible apply State.updGraft_kept hC
    | with_reducible apply State.graftTo_kept hC
    | with_reducible apply ite_kept
    | dsimp only
    | split
    | fail_if_no_progress (with_reducible refine hC.mk_kept rfl ?_)
    | rfl

theorem execNakFrame_kept {P : State → Prop} (hC : Closed P) (data : Bytes) {s : State}  (hP : P s) :
    Res.Keeps P (execNakFrame data s) := by
  unfold execNakFrame
  repeat' first
    | with_reducible assumption
    | (intro _)
    | with_reducible apply Res.keeps_next
    | with_reducible apply State.graftReceive_kept hC
    | with_reducible apply State.syncFailed_kept hC
    | with_reducible apply ite_kept
    | dsimp only
    | split
    | fail_if_no_progress (with_reducible refine hC.mk_kept rfl ?_)
    | rfl

theorem execGraftAckTimeout_kept {P : State → Prop} (hC : Closed P) {s : State}  (hP : P s) :
    Res.Keeps P (execGraftAckTimeout s) := by
  unfold execGraftAckTimeout
  repeat' first
    | with_reducible assumption
    | (intro _)
    | with_reducible apply Res.keeps_next
    | with_reducible apply State.syncFailed_kept hC
    | with_reducible apply ite_kept
    | dsimp only
    | split
    | fail_if_no_progress (with_reducible refine hC.mk_kept rfl ?_)
    | rfl

theorem State.rxDiscard_kept {P : State → Prop} (hC : Closed P) {s : State}  (hP : P s) :
    P (State.rxDiscard s) := by
  unfold State.rxDiscard
  repeat' first
    | with_reducible assumption
    | (intro _)
    | with_reducible apply State.updGraft_kept hC
    | with_reducible apply State.graftTo_kept hC
    | with_reducible apply ite_kept
    | dsimp only
    | split
    | fail_if_no_progress (with_reducible refine hC.mk_kept rfl ?_)
    | rfl

theorem execBeginFrame_kept {P : State → Prop} (hC : Closed P) (data : Bytes) {s : State}  (hP : P s) :
    Res.Keeps P (execBeginFrame data s) := by
  unfold execBeginFrame
  repeat' first
    | with_reducible assumption
    | (intro _)
    | with_reducible apply Res.keeps_next
    | with_reducible apply State.graftReceive_kept hC
    | with_reducible apply State.graftSend_kept hC
    | with_reducible apply State.rxDiscard_kept hC
    | with_reducible apply State.devWrite_kept hC
    | with_reducible apply State.updGraft_kept hC
    | with_reducible apply State.graftTo_kept hC
    | with_reducible apply ite_kept
    | dsimp only
    | split
    | fail_if_no_progress (with_reducible refine hC.mk_kept rfl ?_)
    | rfl

theorem execDataFrame_kept {P : State → Prop} (hC : Closed P) (data : Bytes) {s : State}  (hP : P s) :
    Res.Keeps P (execDataFrame data s) := by
  unfold execDataFrame
  repeat' first
    | with_reducible assumption
    | (intro _)
    | with_reducible apply Res.keeps_next
    | with_reducible apply State.graftReceive_kept hC
    | with_reducible apply State.devWrite_kept hC
    | with_reducible apply State.updGraft_kept hC
    | with_reducible apply ite_kept
    | dsimp only
    | split
    | fail_if_no_progress (with_reducible refine hC.mk_kept rfl ?_)
    | rfl

theorem execEndFrame_kept {P : State → Prop} (hC : Closed P) (data : Bytes) {s : State}  (hP : P s) :
    Res.Keeps P (execEndFrame data s) := by
  unfold execEndFrame
  repeat' first
    | with_reducible assumption
    | (intro _)
    | with_reducible apply Res.keeps_next
    | with_reducible apply State.graftReceive_kept hC
    | with_reducible apply State.rxDiscard_kept hC
    | with_reducible apply State.devWrite_kept hC
    | with_reducible apply State.graftSend_kept hC
    | with_reducible apply State.fault_kept hC
    | with_reducible apply ite_kept
    | dsimp only
    | split
    | fail_if_no_progress (with_reducible refine hC.mk_kept rfl ?_)
    | rfl

theorem execAbortFrame_kept {P : State → Prop} (hC : Closed P) (data : Bytes) {s : State}  (hP : P s) :
    Res.Keeps P (execAbortFrame data s) := by
  unfold execAbortFrame
  repeat' first
    | with_reducible assumption
    | (intro _)
    | with_reducible apply Res.keeps_next
    | with_reducible apply State.graftReceive_kept hC
    | with_reducible apply State.rxDiscard_kept hC
    | with_reducible apply ite_kept
    | dsimp only
    | split
    | fail_if_no_progress (with_reducible refine hC.mk_kept rfl ?_)
    | rfl

theorem execGraftEpochTimeout_kept {P : State → Prop} (hC : Closed P) {s : State}  (hP : P s) :
    Res.Keeps P (execGraftEpochTimeout s) := by
  unfold execGraftEpochTimeout
  repeat' first
    | with_reducible assumption
    | (intro _)
    | with_reducible apply Res.keeps_next
    | with_reducible apply State.rxDiscard_kept hC
    | with_reducible apply ite_kept
    | dsimp only
    | split
    | fail_if_no_progress (with_reducible refine hC.mk_kept rfl ?_)
    | rfl

theorem execPartnerTrip_kept {P : State → Prop} (hC : Closed P) {s : State}  (hP : P s) :
    Res.Keeps P (execPartnerTrip s) := by
  unfold execPartnerTrip
  repeat' first
    | with_reducible assumption
    | (intro _)
    | with_reducible apply Res.keeps_next
    | with_reducible apply State.fault_kept hC
    | with_reducible apply State.rxDiscard_kept hC
    | with_reducible apply State.updGraft_kept hC
    | with_reducible apply State.graftTo_kept hC
    | with_reducible apply ite_kept
    | dsimp only
    | split
    | fail_if_no_progress (with_reducible refine hC.mk_kept rfl ?_)
    | rfl

theorem State.graftHook_kept {P : State → Prop} (hC : Closed P) {s : State} (off : Nat) (old : Word) (wr : Word)  (hP : P s) :
    P (State.graftHook s off old wr) := by
  unfold State.graftHook
  repeat' first
    | with_reducible assumption
    | (intro _)
    | with_reducible apply State.setFld_kept hC
    | with_reducible apply State.clrReady_kept hC
    | with_reducible apply State.rxDiscard_kept hC
    | with_reducible apply State.updGraft_kept hC
    | with_reducible apply State.graftTo_kept hC
    | with_reducible apply hC.setReg
    | with_reducible apply ite_kept
    | dsimp only
    | split
    | fail_if_no_progress (with_reducible refine hC.mk_kept rfl ?_)
    | rfl

end Sys2Proof.Machine
end

