-- ==== Sys2Proof/Laws/KeptTwoWire.lean ====
section
/-! SUPPORT. The definitions of Machine/TwoWire.lean keep every property that `Closed` describes. -/

namespace Sys2Proof.Machine

theorem State.updPm_kept {P : State → Prop} (hC : Closed P) {s : State} (f : PmSt → PmSt)  (hP : P s) :
    P (State.updPm s f) := by
  unfold State.updPm
  repeat' first
    | with_reducible assumption
    | (intro _)
    | dsimp only
    | split
    | fail_if_no_progress (with_reducible refine hC.mk_kept rfl ?_)
    | rfl

theorem State.setRegBytes_kept {P : State → Prop} (hC : Closed P) {s : State} (off : Nat) (bs : Bytes)  (hP : P s) :
    P (State.setRegBytes s off bs) := by
  unfold State.setRegBytes
  repeat' first
    | with_reducible assumption
    | (intro _)
    | with_reducible apply hC.setReg
    | with_reducible apply foldl_kept
    | with_reducible apply foldl_snd_kept
    | with_reducible apply foldl_fst_kept
    | dsimp only
    | split
    | fail_if_no_progress (with_reducible refine hC.mk_kept rfl ?_)
    | rfl

theorem State.holdSend_kept {P : State → Prop} (hC : Closed P) {s : State} (h : PmHold) (data : Bytes)  (hP : P s) :
    P (State.holdSend s h data) := by
  unfold State.holdSend
  repeat' first
    | with_reducible assumption
    | (intro _)
    | with_reducible apply hC.send
    | with_reducible apply ite_kept
    | dsimp only
    | split
    | fail_if_no_progress (with_reducible refine hC.mk_kept rfl ?_)
    | rfl

theorem State.afterHold_kept {P : State → Prop} (hC : Closed P) {s : State} (h : PmHold)  (hP : P s) :
    P (State.afterHold s h) := by
  unfold State.afterHold
  repeat' first
    | with_reducible assumption
    | (intro _)
    | with_reducible apply State.latchCml_kept hC
    | with_reducible apply hC.send
    | with_reducible apply ite_kept
    | (with_reducible refine pair_snd_kept (by with_reducible assumption) ?_)
    | (with_reducible refine pair_fst_kept (by with_reducible assumption) ?_)
    | (with_reducible refine trip_kept (by with_reducible assumption) ?_)
    | dsimp only
    | split
    | fail_if_no_progress (with_reducible refine hC.mk_kept rfl ?_)
    | rfl

theorem State.mbxRespond_kept {P : State → Prop} (hC : Closed P) {s : State} (wr : Word)  (hP : P s) :
    P (State.mbxRespond s wr) := by
  unfold State.mbxRespond
  repeat' first
    | with_reducible assumption
    | (intro _)
    | with_reducible apply State.afterHold_kept hC
    | with_reducible apply State.holdSend_kept hC
    | with_reducible apply State.setFld_kept hC
    | with_reducible apply State.updPm_kept hC
    | with_reducible apply hC.send
    | with_reducible apply ite_kept
    | (with_reducible refine pair_snd_kept (by with_reducible assumption) ?_)
    | (with_reducible refine pair_fst_kept (by with_reducible assumption) ?_)
    | (with_reducible refine trip_kept (by with_reducible assumption) ?_)
    | dsimp only
    | split
    | fail_if_no_progress (with_reducible refine hC.mk_kept rfl ?_)
    | rfl

theorem execStretchTimeout_kept {P : State → Prop} (hC : Closed P) (total : Bool) {s : State}  (hP : P s) :
    Res.Keeps P (execStretchTimeout total s) := by
  unfold execStretchTimeout
  repeat' first
    | with_reducible assumption
    | (intro _)
    | with_reducible apply Res.keeps_next
    | with_reducible apply State.setFld_kept hC
    | with_reducible apply State.updPm_kept hC
    | with_reducible apply State.latchBusy_kept hC
    | with_reducible apply State.latchCml_kept hC
    | with_reducible apply hC.send
    | with_reducible apply ite_kept
    | dsimp only
    | split
    | fail_if_no_progress (with_reducible refine hC.mk_kept rfl ?_)
    | rfl

theorem execBusTimeout_kept {P : State → Prop} (hC : Closed P) {s : State}  (hP : P s) :
    Res.Keeps P (execBusTimeout s) := by
  unfold execBusTimeout
  repeat' first
    | with_reducible assumption
    | (intro _)
    | with_reducible apply Res.keeps_next
    | with_reducible apply State.setFld_kept hC
    | with_reducible apply State.updPm_kept hC
    | with_reducible apply State.latchCml_kept hC
    | with_reducible apply ite_kept
    | dsimp only
    | split
    | fail_if_no_progress (with_reducible refine hC.mk_kept rfl ?_)
    | rfl

theorem State.setCtl_kept {P : State → Prop} (hC : Closed P) {s : State} (n : Nat) (c : Option CtlSt)  (hP : P s) :
    P (State.setCtl s n c) := by
  unfold State.setCtl
  repeat' first
    | with_reducible assumption
    | (intro _)
    | dsimp only
    | split
    | fail_if_no_progress (with_reducible refine hC.mk_kept rfl ?_)
    | rfl

theorem State.ctlSend_kept {P : State → Prop} (hC : Closed P) {s : State} (n : Nat) (c : CtlSt)  (hP : P s) :
    P (State.ctlSend s n c) := by
  unfold State.ctlSend
  repeat' first
    | with_reducible assumption
    | (intro _)
    | with_reducible apply hC.send
    | with_reducible apply ite_kept
    | dsimp only
    | split
    | fail_if_no_progress (with_reducible refine hC.mk_kept rfl ?_)
    | rfl

theorem State.ctlEnd_kept {P : State → Prop} (hC : Closed P) {s : State} (n : Nat) (fail : Option Fld) (data : Bytes)  (hP : P s) :
    P (State.ctlEnd s n fail data) := by
  unfold State.ctlEnd
  repeat' first
    | with_reducible assumption
    | (intro _)
    | with_reducible apply State.setCtl_kept hC
    | with_reducible apply State.setRegBytes_kept hC
    | with_reducible apply State.setFld_kept hC
    | with_reducible apply State.event_kept hC
    | dsimp only
    | split
    | fail_if_no_progress (with_reducible refine hC.mk_kept rfl ?_)
    | rfl

theorem State.ctlGo_kept {P : State → Prop} (hC : Closed P) {s : State} (n : Nat)  (hP : P s) :
    P (State.ctlGo s n) := by
  unfold State.ctlGo
  repeat' first
    | with_reducible assumption
    | (intro _)
    | with_reducible apply State.ctlEnd_kept hC
    | with_reducible apply State.setFld_kept hC
    | with_reducible apply State.setCtl_kept hC
    | with_reducible apply State.ctlSend_kept hC
    | with_reducible apply ite_kept
    | dsimp only
    | split
    | fail_if_no_progress (with_reducible refine hC.mk_kept rfl ?_)
    | rfl

theorem State.ctlClocks_kept {P : State → Prop} (hC : Closed P) {s : State} (n : Nat) (k : Nat)  (hP : P s) :
    P (State.ctlClocks s n k) := by
  unfold State.ctlClocks
  repeat' first
    | with_reducible assumption
    | (intro _)
    | with_reducible apply hC.send
    | with_reducible apply ite_kept
    | dsimp only
    | split
    | fail_if_no_progress (with_reducible refine hC.mk_kept rfl ?_)
    | rfl

theorem execControllerDone_kept {P : State → Prop} (hC : Closed P) (n : Fin 2) (res : BusEnd) {s : State}  (hP : P s) :
    Res.Keeps P (execControllerDone n res s) := by
  unfold execControllerDone
  repeat' first
    | with_reducible assumption
    | (intro _)
    | with_reducible apply Res.keeps_next
    | with_reducible apply State.ctlClocks_kept hC
    | with_reducible apply State.ctlSend_kept hC
    | with_reducible apply State.ctlEnd_kept hC
    | with_reducible apply State.fault_kept hC
    | with_reducible apply State.setFld_kept hC
    | with_reducible apply State.setCtl_kept hC
    | with_reducible apply ite_kept
    | (with_reducible refine pair_snd_kept (by with_reducible assumption) ?_)
    | (with_reducible refine pair_fst_kept (by with_reducible assumption) ?_)
    | (with_reducible refine trip_kept (by with_reducible assumption) ?_)
    | dsimp only
    | split
    | fail_if_no_progress (with_reducible refine hC.mk_kept rfl ?_)
    | rfl

theorem execControllerRetry_kept {P : State → Prop} (hC : Closed P) (n : Fin 2) {s : State}  (hP : P s) :
    Res.Keeps P (execControllerRetry n s) := by
  unfold execControllerRetry
  repeat' first
    | with_reducible assumption
    | (intro _)
    | with_reducible apply Res.keeps_next
    | with_reducible apply State.setCtl_kept hC
    | with_reducible apply State.ctlSend_kept hC
    | with_reducible apply ite_kept
    | dsimp only
    | split
    | fail_if_no_progress (with_reducible refine hC.mk_kept rfl ?_)
    | rfl

theorem execControllerTimeout_kept {P : State → Prop} (hC : Closed P) (x : PartRead) {s : State}  (hP : P s) :
    Res.Keeps P (execControllerTimeout x s) := by
  unfold execControllerTimeout
  repeat' first
    | with_reducible assumption
    | (intro _)
    | with_reducible apply Res.keeps_next
    | with_reducible apply State.ctlSend_kept hC
    | with_reducible apply State.ctlEnd_kept hC
    | with_reducible apply ite_kept
    | (with_reducible refine pair_snd_kept (by with_reducible assumption) ?_)
    | (with_reducible refine pair_fst_kept (by with_reducible assumption) ?_)
    | (with_reducible refine trip_kept (by with_reducible assumption) ?_)
    | dsimp only
    | split
    | fail_if_no_progress (with_reducible refine hC.mk_kept rfl ?_)
    | rfl

theorem State.twHook_kept {P : State → Prop} (hC : Closed P) {s : State} (off : Nat) (wr : Word)  (hP : P s) :
    P (State.twHook s off wr) := by
  unfold State.twHook
  repeat' first
    | with_reducible assumption
    | (intro _)
    | with_reducible apply State.ctlGo_kept hC
    | with_reducible apply State.mbxRespond_kept hC
    | with_reducible apply ite_kept
    | dsimp only
    | split
    | fail_if_no_progress (with_reducible refine hC.mk_kept rfl ?_)
    | rfl

theorem State.avsReply_kept {P : State → Prop} (hC : Closed P) {s : State} (m : Nat) (ack : Nat) (data : Nat)  (hP : P s) :
    P (State.avsReply s m ack data) := by
  unfold State.avsReply
  repeat' first
    | with_reducible assumption
    | (intro _)
    | with_reducible apply hC.send
    | dsimp only
    | split
    | fail_if_no_progress (with_reducible refine hC.mk_kept rfl ?_)
    | rfl

theorem State.avsSetV_kept {P : State → Prop} (hC : Closed P) {s : State} (x : Nat) (v : Nat)  (hP : P s) :
    P (State.avsSetV s x v) := by
  unfold State.avsSetV
  repeat' first
    | with_reducible assumption
    | (intro _)
    | with_reducible apply State.setFld_kept hC
    | with_reducible apply hC.tookFree
    | with_reducible apply State.vsetWritten_kept hC
    | with_reducible apply ite_kept
    | dsimp only
    | split
    | fail_if_no_progress (with_reducible refine hC.mk_kept rfl ?_)
    | rfl

theorem State.avsCommitHeld_kept {P : State → Prop} (hC : Closed P) {s : State} (m : Nat)  (hP : P s) :
    P (State.avsCommitHeld s m) := by
  unfold State.avsCommitHeld
  repeat' first
    | with_reducible assumption
    | (intro _)
    | with_reducible apply State.avsSetV_kept hC
    | with_reducible apply hC.setReg
    | with_reducible apply ite_kept
    | dsimp only
    | split
    | fail_if_no_progress (with_reducible refine hC.mk_kept rfl ?_)
    | rfl

theorem State.avsWrite_kept {P : State → Prop} (hC : Closed P) {s : State} (m : Nat) (ty : Nat) (data : Nat)  (hP : P s) :
    OptKeeps P (State.avsWrite s m ty data) := by
  unfold State.avsWrite
  repeat' first
    | with_reducible assumption
    | (intro _)
    | with_reducible apply State.avsCommitHeld_kept hC
    | with_reducible apply State.avsSetV_kept hC
    | with_reducible apply hC.setReg
    | with_reducible exact optKeeps_none
    | with_reducible apply optKeeps_some
    | with_reducible apply optKeeps_map
    | with_reducible apply optKeeps_ite
    | with_reducible apply OptKeeps.getD
    | (with_reducible refine OptKeeps.kept (by with_reducible assumption) ?_)
    | dsimp only
    | split
    | fail_if_no_progress (with_reducible refine hC.mk_kept rfl ?_)
    | rfl

theorem State.avsFrame_kept {P : State → Prop} (hC : Closed P) {s : State} (m : Nat) (w : Nat)  (hP : P s) :
    P (State.avsFrame s m w) := by
  unfold State.avsFrame
  repeat' first
    | with_reducible assumption
    | (intro _)
    | with_reducible apply State.setFld_kept hC
    | with_reducible apply State.satAdd_kept hC
    | with_reducible apply State.avsReply_kept hC
    | with_reducible apply State.avsWrite_kept hC
    | with_reducible apply hC.setReg
    | with_reducible exact optKeeps_none
    | with_reducible apply optKeeps_some
    | with_reducible apply optKeeps_map
    | with_reducible apply optKeeps_ite
    | with_reducible apply OptKeeps.getD
    | (with_reducible refine OptKeeps.kept (by with_reducible assumption) ?_)
    | with_reducible apply ite_kept
    | dsimp only
    | split
    | fail_if_no_progress (with_reducible refine hC.mk_kept rfl ?_)
    | rfl

theorem execAvsWriteCommit_kept {P : State → Prop} (hC : Closed P) (m : Fin 2) (frame : BitVec 32) {s : State}  (hP : P s) :
    Res.Keeps P (execAvsWriteCommit m frame s) := by
  unfold execAvsWriteCommit
  repeat' first
    | with_reducible assumption
    | (intro _)
    | with_reducible apply Res.keeps_next
    | with_reducible apply State.avsFrame_kept hC
    | with_reducible apply ite_kept
    | dsimp only
    | split
    | fail_if_no_progress (with_reducible refine hC.mk_kept rfl ?_)
    | rfl

theorem execAvsWriteHold_kept {P : State → Prop} (hC : Closed P) (m : Fin 2) (frame : BitVec 32) {s : State}  (hP : P s) :
    Res.Keeps P (execAvsWriteHold m frame s) := by
  unfold execAvsWriteHold
  repeat' first
    | with_reducible assumption
    | (intro _)
    | with_reducible apply Res.keeps_next
    | with_reducible apply State.avsFrame_kept hC
    | with_reducible apply ite_kept
    | dsimp only
    | split
    | fail_if_no_progress (with_reducible refine hC.mk_kept rfl ?_)
    | rfl

theorem execAvsVoltageRead_kept {P : State → Prop} (hC : Closed P) (m : Fin 2) (frame : BitVec 32) {s : State}  (hP : P s) :
    Res.Keeps P (execAvsVoltageRead m frame s) := by
  unfold execAvsVoltageRead
  repeat' first
    | with_reducible assumption
    | (intro _)
    | with_reducible apply Res.keeps_next
    | with_reducible apply State.avsFrame_kept hC
    | with_reducible apply ite_kept
    | dsimp only
    | split
    | fail_if_no_progress (with_reducible refine hC.mk_kept rfl ?_)
    | rfl

theorem execAvsRateRead_kept {P : State → Prop} (hC : Closed P) (m : Fin 2) (frame : BitVec 32) {s : State}  (hP : P s) :
    Res.Keeps P (execAvsRateRead m frame s) := by
  unfold execAvsRateRead
  repeat' first
    | with_reducible assumption
    | (intro _)
    | with_reducible apply Res.keeps_next
    | with_reducible apply State.avsFrame_kept hC
    | with_reducible apply ite_kept
    | dsimp only
    | split
    | fail_if_no_progress (with_reducible refine hC.mk_kept rfl ?_)
    | rfl

theorem execAvsRateWrite_kept {P : State → Prop} (hC : Closed P) (m : Fin 2) (frame : BitVec 32) {s : State}  (hP : P s) :
    Res.Keeps P (execAvsRateWrite m frame s) := by
  unfold execAvsRateWrite
  repeat' first
    | with_reducible assumption
    | (intro _)
    | with_reducible apply Res.keeps_next
    | with_reducible apply State.avsFrame_kept hC
    | with_reducible apply ite_kept
    | dsimp only
    | split
    | fail_if_no_progress (with_reducible refine hC.mk_kept rfl ?_)
    | rfl

theorem execAvsCurrentRead_kept {P : State → Prop} (hC : Closed P) (m : Fin 2) (frame : BitVec 32) {s : State}  (hP : P s) :
    Res.Keeps P (execAvsCurrentRead m frame s) := by
  unfold execAvsCurrentRead
  repeat' first
    | with_reducible assumption
    | (intro _)
    | with_reducible apply Res.keeps_next
    | with_reducible apply State.avsFrame_kept hC
    | with_reducible apply ite_kept
    | dsimp only
    | split
    | fail_if_no_progress (with_reducible refine hC.mk_kept rfl ?_)
    | rfl

theorem execAvsTemperatureRead_kept {P : State → Prop} (hC : Closed P) (m : Fin 2) (frame : BitVec 32) {s : State}  (hP : P s) :
    Res.Keeps P (execAvsTemperatureRead m frame s) := by
  unfold execAvsTemperatureRead
  repeat' first
    | with_reducible assumption
    | (intro _)
    | with_reducible apply Res.keeps_next
    | with_reducible apply State.avsFrame_kept hC
    | with_reducible apply ite_kept
    | dsimp only
    | split
    | fail_if_no_progress (with_reducible refine hC.mk_kept rfl ?_)
    | rfl

theorem execAvsResetVoltage_kept {P : State → Prop} (hC : Closed P) (m : Fin 2) (frame : BitVec 32) {s : State}  (hP : P s) :
    Res.Keeps P (execAvsResetVoltage m frame s) := by
  unfold execAvsResetVoltage
  repeat' first
    | with_reducible assumption
    | (intro _)
    | with_reducible apply Res.keeps_next
    | with_reducible apply State.avsFrame_kept hC
    | with_reducible apply ite_kept
    | dsimp only
    | split
    | fail_if_no_progress (with_reducible refine hC.mk_kept rfl ?_)
    | rfl

theorem execAvsStatusRead_kept {P : State → Prop} (hC : Closed P) (m : Fin 2) (frame : BitVec 32) {s : State}  (hP : P s) :
    Res.Keeps P (execAvsStatusRead m frame s) := by
  unfold execAvsStatusRead
  repeat' first
    | with_reducible assumption
    | (intro _)
    | with_reducible apply Res.keeps_next
    | with_reducible apply State.avsFrame_kept hC
    | with_reducible apply ite_kept
    | dsimp only
    | split
    | fail_if_no_progress (with_reducible refine hC.mk_kept rfl ?_)
    | rfl

theorem execAvsVersionRead_kept {P : State → Prop} (hC : Closed P) (m : Fin 2) (frame : BitVec 32) {s : State}  (hP : P s) :
    Res.Keeps P (execAvsVersionRead m frame s) := by
  unfold execAvsVersionRead
  repeat' first
    | with_reducible assumption
    | (intro _)
    | with_reducible apply Res.keeps_next
    | with_reducible apply State.avsFrame_kept hC
    | with_reducible apply ite_kept
    | dsimp only
    | split
    | fail_if_no_progress (with_reducible refine hC.mk_kept rfl ?_)
    | rfl

end Sys2Proof.Machine
end

