-- ==== Sys2Proof/Laws/KeptBus.lean ====
section
/-! SUPPORT. The definitions of Machine/Bus.lean keep every property that `Closed` describes. -/

namespace Sys2Proof.Machine

theorem State.refused_kept {P : State → Prop} (hC : Closed P) {s : State} (k : RefKind) (req : Req) (addr : Nat) (write : Bool) (val : Nat)  (hP : P s) :
    P (((State.refused s k req addr write val)).st) := by
  unfold State.refused
  repeat' first
    | with_reducible assumption
    | (intro _)
    | with_reducible apply State.refuse_kept hC
    | dsimp only
    | split
    | fail_if_no_progress (with_reducible refine hC.mk_kept rfl ?_)
    | rfl

theorem State.nvTake_kept {P : State → Prop} (hC : Closed P) {s : State}  (hP : P s) :
    P (((State.nvTake s)).2) := by
  unfold State.nvTake
  repeat' first
    | with_reducible assumption
    | (intro _)
    | with_reducible apply State.nvRead_kept hC
    | with_reducible apply hC.tookFree
    | with_reducible apply State.setFld_kept hC
    | (with_reducible refine pair_snd_kept (by with_reducible assumption) ?_)
    | (with_reducible refine pair_fst_kept (by with_reducible assumption) ?_)
    | (with_reducible refine trip_kept (by with_reducible assumption) ?_)
    | dsimp only
    | split
    | fail_if_no_progress (with_reducible refine hC.mk_kept rfl ?_)
    | rfl

theorem State.readEffect_kept {P : State → Prop} (hC : Closed P) {s : State} (req : Req) (h : Half) (off : Nat)  (hP : P s) :
    P (((State.readEffect s req h off)).2) := by
  unfold State.readEffect
  repeat' first
    | with_reducible assumption
    | (intro _)
    | with_reducible apply State.rngTake_kept hC
    | with_reducible apply State.rramRead_kept hC
    | with_reducible apply State.nvTake_kept hC
    | with_reducible apply State.cplTake_kept hC
    | with_reducible apply ite_kept
    | with_reducible apply ite_snd_kept
    | with_reducible apply ite_fst_kept
    | (with_reducible refine pair_snd_kept (by with_reducible assumption) ?_)
    | (with_reducible refine pair_fst_kept (by with_reducible assumption) ?_)
    | (with_reducible refine trip_kept (by with_reducible assumption) ?_)
    | dsimp only
    | split
    | fail_if_no_progress (with_reducible refine hC.mk_kept rfl ?_)
    | rfl

theorem State.winRead_kept {P : State → Prop} (hC : Closed P) {s : State} (req : Req) (off : Nat)  (hP : P s) :
    P (((State.winRead s req off)).st) := by
  unfold State.winRead
  repeat' first
    | with_reducible assumption
    | (intro _)
    | with_reducible apply State.refused_kept hC
    | with_reducible apply State.readEffect_kept hC
    | with_reducible apply ite_kept
    | (with_reducible refine pair_snd_kept (by with_reducible assumption) ?_)
    | (with_reducible refine pair_fst_kept (by with_reducible assumption) ?_)
    | (with_reducible refine trip_kept (by with_reducible assumption) ?_)
    | dsimp only
    | split
    | fail_if_no_progress (with_reducible refine hC.mk_kept rfl ?_)
    | rfl

theorem State.endBreq_kept {P : State → Prop} (hC : Closed P) {s : State} (mask : Nat)  (hP : P s) :
    P (State.endBreq s mask) := by
  unfold State.endBreq
  repeat' first
    | with_reducible assumption
    | (intro _)
    | with_reducible apply State.setHwReq_kept hC
    | with_reducible apply State.judgeDomain_kept hC
    | with_reducible apply foldl_kept
    | with_reducible apply foldl_snd_kept
    | with_reducible apply foldl_fst_kept
    | with_reducible apply ite_kept
    | dsimp only
    | split
    | fail_if_no_progress (with_reducible refine hC.mk_kept rfl ?_)
    | rfl

theorem State.espHook_kept {P : State → Prop} (hC : Closed P) {s : State} (off : Nat) (old : Word) (eff : Word)  (hP : P s) :
    P (State.espHook s off old eff) := by
  unfold State.espHook
  repeat' first
    | with_reducible assumption
    | (intro _)
    | with_reducible apply State.endBreq_kept hC
    | with_reducible apply hC.setReg
    | with_reducible apply State.dtbStep_kept hC
    | with_reducible apply State.dtbSlew_kept hC
    | with_reducible apply ite_kept
    | dsimp only
    | split
    | fail_if_no_progress (with_reducible refine hC.mk_kept rfl ?_)
    | rfl

theorem State.enRise_kept {P : State → Prop} (hC : Closed P) {s : State} (off : Nat) (old : Word)  (hP : P s) :
    P (State.enRise s off old) := by
  unfold State.enRise
  repeat' first
    | with_reducible assumption
    | (intro _)
    | with_reducible apply State.event_kept hC
    | with_reducible apply foldl_kept
    | with_reducible apply foldl_snd_kept
    | with_reducible apply foldl_fst_kept
    | with_reducible apply ite_kept
    | dsimp only
    | split
    | fail_if_no_progress (with_reducible refine hC.mk_kept rfl ?_)
    | rfl

theorem State.hook_kept {P : State → Prop} (hC : Closed P) {s : State} (off : Nat) (old : Word) (eff : Word) (pass : Bool)  (hP : P s) :
    P (State.hook s off old eff pass) := by
  unfold State.hook
  repeat' first
    | with_reducible assumption
    | (intro _)
    | with_reducible apply State.enRise_kept hC
    | with_reducible apply State.fltHook_kept hC
    | with_reducible apply State.tapHook_kept hC
    | with_reducible apply State.loopHook_kept hC
    | with_reducible apply State.cnvHook_kept hC
    | with_reducible apply State.fanHook_kept hC
    | with_reducible apply State.batHook_kept hC
    | with_reducible apply State.twHook_kept hC
    | with_reducible apply State.govHook_kept hC
    | with_reducible apply State.espHook_kept hC
    | with_reducible apply State.rowHook_kept hC
    | with_reducible apply hC.setReg
    | with_reducible apply State.commitSa_kept hC
    | with_reducible apply State.portHook_kept hC
    | with_reducible apply State.usbHook_kept hC
    | with_reducible apply State.graftHook_kept hC
    | with_reducible apply State.ringStart_kept hC
    | with_reducible apply State.ringStop_kept hC
    | with_reducible apply State.secHook_kept hC
    | with_reducible apply ite_kept
    | dsimp only
    | split
    | fail_if_no_progress (with_reducible refine hC.mk_kept rfl ?_)
    | rfl

theorem State.writeWhole_kept {P : State → Prop} (hC : Closed P) {s : State} (req : Req) (r : RegRow) (off : Nat) (wr : Word) (pass : Bool)  (hP : P s) :
    P (State.writeWhole s req r off wr pass) := by
  unfold State.writeWhole
  repeat' first
    | with_reducible assumption
    | (intro _)
    | with_reducible apply State.refuse_kept hC
    | with_reducible apply State.rramWrite_kept hC
    | with_reducible apply State.wdtKey_kept hC
    | with_reducible apply State.rowWdtKey_kept hC
    | with_reducible apply State.postMask_kept hC
    | with_reducible apply State.threadCmd_kept hC
    | with_reducible apply hC.setReg
    | with_reducible apply State.hook_kept hC
    | with_reducible apply ite_kept
    | dsimp only
    | split
    | fail_if_no_progress (with_reducible refine hC.mk_kept rfl ?_)
    | rfl

theorem State.writeLo_kept {P : State → Prop} (hC : Closed P) {s : State} (req : Req) (r : RegRow) (off : Nat) (wr : Word)  (hP : P s) :
    P (State.writeLo s req r off wr) := by
  unfold State.writeLo
  repeat' first
    | with_reducible assumption
    | (intro _)
    | with_reducible apply State.refuse_kept hC
    | with_reducible apply ite_kept
    | dsimp only
    | split
    | fail_if_no_progress (with_reducible refine hC.mk_kept rfl ?_)
    | rfl

theorem State.dropLo_kept {P : State → Prop} (hC : Closed P) {s : State} (req : Req) (lo : Nat)  (hP : P s) :
    P (State.dropLo s req lo) := by
  unfold State.dropLo
  repeat' first
    | with_reducible assumption
    | (intro _)
    | with_reducible apply ite_kept
    | dsimp only
    | split
    | fail_if_no_progress (with_reducible refine hC.mk_kept rfl ?_)
    | rfl

theorem State.writeHi_kept {P : State → Prop} (hC : Closed P) {s : State} (req : Req) (r : RegRow) (off : Nat) (wr : Word)  (hP : P s) :
    P (State.writeHi s req r off wr) := by
  unfold State.writeHi
  repeat' first
    | with_reducible assumption
    | (intro _)
    | with_reducible apply State.refuse_kept hC
    | with_reducible apply State.dropLo_kept hC
    | with_reducible apply State.submitAt_kept hC
    | with_reducible apply hC.setReg
    | with_reducible apply State.hook_kept hC
    | with_reducible apply ite_kept
    | dsimp only
    | split
    | fail_if_no_progress (with_reducible refine hC.mk_kept rfl ?_)
    | rfl

theorem State.winWriteWith_kept {P : State → Prop} (hC : Closed P) {s : State} (req : Req) (off : Nat) (wr : Word) (pass : Bool)  (hP : P s) :
    P (((State.winWriteWith s req off wr pass)).st) := by
  unfold State.winWriteWith
  repeat' first
    | with_reducible assumption
    | (intro _)
    | with_reducible apply State.refused_kept hC
    | with_reducible apply State.rowCfgErr_kept hC
    | with_reducible apply State.writeWhole_kept hC
    | with_reducible apply State.writeLo_kept hC
    | with_reducible apply State.writeHi_kept hC
    | with_reducible apply ite_kept
    | dsimp only
    | split
    | fail_if_no_progress (with_reducible refine hC.mk_kept rfl ?_)
    | rfl

theorem State.winWrite_kept {P : State → Prop} (hC : Closed P) {s : State} (req : Req) (off : Nat) (wr : Word)  (hP : P s) :
    P (((State.winWrite s req off wr)).st) := by
  unfold State.winWrite
  repeat' first
    | with_reducible assumption
    | (intro _)
    | with_reducible apply hC.tookFree
    | with_reducible apply State.winWriteWith_kept hC
    | with_reducible apply ite_kept
    | dsimp only
    | split
    | fail_if_no_progress (with_reducible refine hC.mk_kept rfl ?_)
    | rfl

theorem Ans.join_kept {P : State → Prop} (_hC : Closed P) (a b : Ans) (hP : P b.st) : P (Ans.join a b).st := hP

theorem State.busRead_kept {P : State → Prop} (hC : Closed P) {s : State} (req : Req) (addr : Nat) (n : Nat)  (hP : P s) :
    P (((State.busRead s req addr n)).st) := by
  unfold State.busRead
  repeat' first
    | with_reducible assumption
    | (intro _)
    | with_reducible apply State.refused_kept hC
    | with_reducible apply State.winRead_kept hC
    | with_reducible apply Ans.join_kept hC
    | with_reducible apply State.memReadAll_kept hC
    | with_reducible apply ite_kept
    | (with_reducible refine pair_snd_kept (by with_reducible assumption) ?_)
    | (with_reducible refine pair_fst_kept (by with_reducible assumption) ?_)
    | (with_reducible refine trip_kept (by with_reducible assumption) ?_)
    | dsimp only
    | split
    | fail_if_no_progress (with_reducible refine hC.mk_kept rfl ?_)
    | rfl

theorem State.busWrite_kept {P : State → Prop} (hC : Closed P) {s : State} (req : Req) (addr : Nat) (n : Nat) (v : Nat)  (hP : P s) :
    P (((State.busWrite s req addr n v)).st) := by
  unfold State.busWrite
  repeat' first
    | with_reducible assumption
    | (intro _)
    | with_reducible apply State.refused_kept hC
    | with_reducible apply State.winWrite_kept hC
    | with_reducible apply Ans.join_kept hC
    | with_reducible apply State.memWrite_kept hC
    | with_reducible apply State.memWriteAll_kept hC
    | with_reducible apply ite_kept
    | (with_reducible refine pair_snd_kept (by with_reducible assumption) ?_)
    | (with_reducible refine pair_fst_kept (by with_reducible assumption) ?_)
    | (with_reducible refine trip_kept (by with_reducible assumption) ?_)
    | dsimp only
    | split
    | fail_if_no_progress (with_reducible refine hC.mk_kept rfl ?_)
    | rfl

end Sys2Proof.Machine
end

