-- ==== Sys2Proof/Laws/KeptFankoec.lean ====
section
/-! SUPPORT. The definitions of Machine/Fankoec.lean keep every property that `Closed` describes. -/

namespace Sys2Proof.Machine

theorem State.fkChallenge_kept {P : State → Prop} (hC : Closed P) {s : State}  (hP : P s) :
    P (((State.fkChallenge s)).2) := by
  unfold State.fkChallenge
  repeat' first
    | with_reducible assumption
    | (intro _)
    | with_reducible apply hC.tookFree
    | dsimp only
    | split
    | fail_if_no_progress (with_reducible refine hC.mk_kept rfl ?_)
    | rfl

theorem State.fkRefused_kept {P : State → Prop} (hC : Closed P) {s : State}  (hP : P s) :
    P (State.fkRefused s) := by
  unfold State.fkRefused
  repeat' first
    | with_reducible assumption
    | (intro _)
    | with_reducible apply State.setFld_kept hC
    | with_reducible apply State.fault_kept hC
    | with_reducible apply ite_kept
    | dsimp only
    | split
    | fail_if_no_progress (with_reducible refine hC.mk_kept rfl ?_)
    | rfl

theorem State.fkResponse_kept {P : State → Prop} (hC : Closed P) {s : State} (d : Bytes)  (hP : P s) :
    P (((State.fkResponse s d)).2) := by
  unfold State.fkResponse
  repeat' first
    | with_reducible assumption
    | (intro _)
    | with_reducible apply State.updUsb_kept hC
    | with_reducible apply State.setFld_kept hC
    | with_reducible apply State.fkRefused_kept hC
    | with_reducible apply ite_kept
    | with_reducible apply ite_snd_kept
    | with_reducible apply ite_fst_kept
    | dsimp only
    | split
    | fail_if_no_progress (with_reducible refine hC.mk_kept rfl ?_)
    | rfl

theorem State.fkRead_kept {P : State → Prop} (hC : Closed P) {s : State} (req : Req) (off : Nat) (e0 : Nat) (e1 : Nat) (e2 : Bytes) (hP : P s) :
    P (((State.fkRead s req off e0 e1 e2)).2.2) := by
  revert hP
  fun_induction State.fkRead s req off e0 e1 e2
  all_goals
    intro hP
    repeat' first
      | with_reducible assumption
      | (intro _)
      | with_reducible apply State.busRead_kept hC
      | with_reducible apply ite_kept
      | with_reducible apply ite_snd_kept
      | with_reducible apply ite_fst_kept
      | (with_reducible apply_assumption)
      | dsimp only
      | split
      | fail_if_no_progress (with_reducible refine hC.mk_kept rfl ?_)
      | rfl

theorem State.fkWrite_kept {P : State → Prop} (hC : Closed P) {s : State} (req : Req) (off : Nat) (e0 : List Nat) (e1 : Nat) (hP : P s) :
    P (((State.fkWrite s req off e0 e1)).2.2) := by
  revert hP
  fun_induction State.fkWrite s req off e0 e1
  all_goals
    intro hP
    repeat' first
      | with_reducible assumption
      | (intro _)
      | with_reducible apply State.busWrite_kept hC
      | with_reducible apply ite_kept
      | with_reducible apply ite_snd_kept
      | with_reducible apply ite_fst_kept
      | (with_reducible apply_assumption)
      | dsimp only
      | split
      | fail_if_no_progress (with_reducible refine hC.mk_kept rfl ?_)
      | rfl

theorem State.fkSubmit_kept {P : State → Prop} (hC : Closed P) {s : State} (req : Req) (d : Bytes)  (hP : P s) :
    P (((State.fkSubmit s req d)).2.2) := by
  unfold State.fkSubmit
  repeat' first
    | with_reducible assumption
    | (intro _)
    | with_reducible apply State.submit_kept hC
    | with_reducible apply ite_kept
    | with_reducible apply ite_snd_kept
    | with_reducible apply ite_fst_kept
    | (with_reducible refine pair_snd_kept (by with_reducible assumption) ?_)
    | (with_reducible refine pair_fst_kept (by with_reducible assumption) ?_)
    | (with_reducible refine trip_kept (by with_reducible assumption) ?_)
    | dsimp only
    | split
    | fail_if_no_progress (with_reducible refine hC.mk_kept rfl ?_)
    | rfl

theorem State.fankoec_kept {P : State → Prop} (hC : Closed P) {s : State} (req : Req) (d : Bytes)  (hP : P s) :
    P (((State.fankoec s req d)).2) := by
  unfold State.fankoec
  repeat' first
    | with_reducible assumption
    | (intro _)
    | with_reducible apply State.fkChallenge_kept hC
    | with_reducible apply State.fkResponse_kept hC
    | with_reducible apply State.setFld_kept hC
    | with_reducible apply State.fkRead_kept hC
    | with_reducible apply State.fkWrite_kept hC
    | with_reducible apply State.fkSubmit_kept hC
    | with_reducible apply ite_kept
    | with_reducible apply ite_snd_kept
    | with_reducible apply ite_fst_kept
    | (with_reducible refine pair_snd_kept (by with_reducible assumption) ?_)
    | (with_reducible refine pair_fst_kept (by with_reducible assumption) ?_)
    | (with_reducible refine trip_kept (by with_reducible assumption) ?_)
    | dsimp only
    | split
    | fail_if_no_progress (with_reducible refine hC.mk_kept rfl ?_)
    | rfl

theorem State.fkServe_kept {P : State → Prop} (hC : Closed P) {s : State}  (hP : P s) :
    P (State.fkServe s) := by
  unfold State.fkServe
  repeat' first
    | with_reducible assumption
    | (intro _)
    | with_reducible apply State.fankoec_kept hC
    | with_reducible apply State.updUsb_kept hC
    | with_reducible apply State.drain_kept hC
    | (with_reducible refine pair_snd_kept (by with_reducible assumption) ?_)
    | (with_reducible refine pair_fst_kept (by with_reducible assumption) ?_)
    | (with_reducible refine trip_kept (by with_reducible assumption) ?_)
    | dsimp only
    | split
    | fail_if_no_progress (with_reducible refine hC.mk_kept rfl ?_)
    | rfl

theorem execFankoecHello_kept {P : State → Prop} (hC : Closed P) {s : State}  (hP : P s) :
    Res.Keeps P (execFankoecHello s) := by
  unfold execFankoecHello
  repeat' first
    | with_reducible assumption
    | (intro _)
    | with_reducible apply Res.keeps_next
    | with_reducible apply State.fkServe_kept hC
    | with_reducible apply ite_kept
    | dsimp only
    | split
    | fail_if_no_progress (with_reducible refine hC.mk_kept rfl ?_)
    | rfl

theorem execAuthChallenge_kept {P : State → Prop} (hC : Closed P) {s : State}  (hP : P s) :
    Res.Keeps P (execAuthChallenge s) := by
  unfold execAuthChallenge
  repeat' first
    | with_reducible assumption
    | (intro _)
    | with_reducible apply Res.keeps_next
    | with_reducible apply State.fkServe_kept hC
    | with_reducible apply ite_kept
    | dsimp only
    | split
    | fail_if_no_progress (with_reducible refine hC.mk_kept rfl ?_)
    | rfl

theorem execAuthResponse_kept {P : State → Prop} (hC : Closed P) {s : State}  (hP : P s) :
    Res.Keeps P (execAuthResponse s) := by
  unfold execAuthResponse
  repeat' first
    | with_reducible assumption
    | (intro _)
    | with_reducible apply Res.keeps_next
    | with_reducible apply State.fkServe_kept hC
    | with_reducible apply ite_kept
    | dsimp only
    | split
    | fail_if_no_progress (with_reducible refine hC.mk_kept rfl ?_)
    | rfl

theorem execLogout_kept {P : State → Prop} (hC : Closed P) {s : State}  (hP : P s) :
    Res.Keeps P (execLogout s) := by
  unfold execLogout
  repeat' first
    | with_reducible assumption
    | (intro _)
    | with_reducible apply Res.keeps_next
    | with_reducible apply State.fkServe_kept hC
    | with_reducible apply ite_kept
    | dsimp only
    | split
    | fail_if_no_progress (with_reducible refine hC.mk_kept rfl ?_)
    | rfl

theorem execReadyMap_kept {P : State → Prop} (hC : Closed P) {s : State}  (hP : P s) :
    Res.Keeps P (execReadyMap s) := by
  unfold execReadyMap
  repeat' first
    | with_reducible assumption
    | (intro _)
    | with_reducible apply Res.keeps_next
    | with_reducible apply State.fkServe_kept hC
    | with_reducible apply ite_kept
    | dsimp only
    | split
    | fail_if_no_progress (with_reducible refine hC.mk_kept rfl ?_)
    | rfl

theorem execRegRead_kept {P : State → Prop} (hC : Closed P) {s : State}  (hP : P s) :
    Res.Keeps P (execRegRead s) := by
  unfold execRegRead
  repeat' first
    | with_reducible assumption
    | (intro _)
    | with_reducible apply Res.keeps_next
    | with_reducible apply State.fkServe_kept hC
    | with_reducible apply ite_kept
    | dsimp only
    | split
    | fail_if_no_progress (with_reducible refine hC.mk_kept rfl ?_)
    | rfl

theorem execRegWrite_kept {P : State → Prop} (hC : Closed P) {s : State}  (hP : P s) :
    Res.Keeps P (execRegWrite s) := by
  unfold execRegWrite
  repeat' first
    | with_reducible assumption
    | (intro _)
    | with_reducible apply Res.keeps_next
    | with_reducible apply State.fkServe_kept hC
    | with_reducible apply ite_kept
    | dsimp only
    | split
    | fail_if_no_progress (with_reducible refine hC.mk_kept rfl ?_)
    | rfl

theorem execFankoecJobSubmit_kept {P : State → Prop} (hC : Closed P) {s : State}  (hP : P s) :
    Res.Keeps P (execFankoecJobSubmit s) := by
  unfold execFankoecJobSubmit
  repeat' first
    | with_reducible assumption
    | (intro _)
    | with_reducible apply Res.keeps_next
    | with_reducible apply State.fkServe_kept hC
    | with_reducible apply ite_kept
    | dsimp only
    | split
    | fail_if_no_progress (with_reducible refine hC.mk_kept rfl ?_)
    | rfl

theorem execJobRead_kept {P : State → Prop} (hC : Closed P) {s : State}  (hP : P s) :
    Res.Keeps P (execJobRead s) := by
  unfold execJobRead
  repeat' first
    | with_reducible assumption
    | (intro _)
    | with_reducible apply Res.keeps_next
    | with_reducible apply State.fkServe_kept hC
    | with_reducible apply ite_kept
    | dsimp only
    | split
    | fail_if_no_progress (with_reducible refine hC.mk_kept rfl ?_)
    | rfl

theorem State.mailbox_kept {P : State → Prop} (hC : Closed P) {s : State} (r : Fin 8) (len : Nat)  (hP : P s) :
    P (State.mailbox s r len) := by
  unfold State.mailbox
  repeat' first
    | with_reducible assumption
    | (intro _)
    | with_reducible apply State.fankoec_kept hC
    | with_reducible apply State.updRow_kept hC
    | with_reducible apply State.event_kept hC
    | with_reducible apply foldl_kept
    | with_reducible apply foldl_snd_kept
    | with_reducible apply foldl_fst_kept
    | (with_reducible refine pair_snd_kept (by with_reducible assumption) ?_)
    | (with_reducible refine pair_fst_kept (by with_reducible assumption) ?_)
    | (with_reducible refine trip_kept (by with_reducible assumption) ?_)
    | dsimp only
    | split
    | fail_if_no_progress (with_reducible refine hC.mk_kept rfl ?_)
    | rfl

theorem State.mbxCtl_kept {P : State → Prop} (hC : Closed P) {s : State} (r : Fin 8) (w : Word)  (hP : P s) :
    P (State.mbxCtl s r w) := by
  unfold State.mbxCtl
  repeat' first
    | with_reducible assumption
    | (intro _)
    | with_reducible apply State.updRow_kept hC
    | with_reducible apply State.mailbox_kept hC
    | with_reducible apply ite_kept
    | dsimp only
    | split
    | fail_if_no_progress (with_reducible refine hC.mk_kept rfl ?_)
    | rfl

theorem execMailboxGo_kept {P : State → Prop} (hC : Closed P) (r : Fin 8) (len : BitVec 11) (vec : BitVec 5) {s : State}  (hP : P s) :
    Res.Keeps P (execMailboxGo r len vec s) := by
  unfold execMailboxGo
  repeat' first
    | with_reducible assumption
    | (intro _)
    | with_reducible apply Res.keeps_next
    | with_reducible apply State.mbxCtl_kept hC
    | with_reducible apply ite_kept
    | dsimp only
    | split
    | fail_if_no_progress (with_reducible refine hC.mk_kept rfl ?_)
    | rfl

theorem State.boxWrite_kept {P : State → Prop} (hC : Closed P) {s : State} (r : Fin 8) (off : Nat) (w : Word)  (hP : P s) :
    P (State.boxWrite s r off w) := by
  unfold State.boxWrite
  repeat' first
    | with_reducible assumption
    | (intro _)
    | with_reducible apply State.updRow_kept hC
    | with_reducible apply State.mbxCtl_kept hC
    | with_reducible apply foldl_kept
    | with_reducible apply foldl_snd_kept
    | with_reducible apply foldl_fst_kept
    | with_reducible apply ite_kept
    | dsimp only
    | split
    | fail_if_no_progress (with_reducible refine hC.mk_kept rfl ?_)
    | rfl

theorem State.accRead_kept {P : State → Prop} (hC : Closed P) {s : State} (req : Req) (tgt : Target) (n : Nat)  (hP : P s) :
    P (((State.accRead s req tgt n)).st) := by
  unfold State.accRead
  repeat' first
    | with_reducible assumption
    | (intro _)
    | with_reducible apply State.refused_kept hC
    | with_reducible apply State.busRead_kept hC
    | with_reducible apply State.refuse_kept hC
    | with_reducible apply ite_kept
    | (with_reducible refine pair_snd_kept (by with_reducible assumption) ?_)
    | (with_reducible refine pair_fst_kept (by with_reducible assumption) ?_)
    | (with_reducible refine trip_kept (by with_reducible assumption) ?_)
    | dsimp only
    | split
    | fail_if_no_progress (with_reducible refine hC.mk_kept rfl ?_)
    | rfl

theorem State.accWrite_kept {P : State → Prop} (hC : Closed P) {s : State} (req : Req) (tgt : Target) (n : Nat) (v : Nat)  (hP : P s) :
    P (((State.accWrite s req tgt n v)).st) := by
  unfold State.accWrite
  repeat' first
    | with_reducible assumption
    | (intro _)
    | with_reducible apply State.refused_kept hC
    | with_reducible apply State.busWrite_kept hC
    | with_reducible apply State.doorbell_kept hC
    | with_reducible apply State.refuse_kept hC
    | with_reducible apply State.boxWrite_kept hC
    | with_reducible apply ite_kept
    | (with_reducible refine pair_snd_kept (by with_reducible assumption) ?_)
    | (with_reducible refine pair_fst_kept (by with_reducible assumption) ?_)
    | (with_reducible refine trip_kept (by with_reducible assumption) ?_)
    | dsimp only
    | split
    | fail_if_no_progress (with_reducible refine hC.mk_kept rfl ?_)
    | rfl

end Sys2Proof.Machine
end

