-- ==== Sys2Proof/Laws/KeptIsaMem.lean ====
section
/-! SUPPORT. The definitions of Machine/IsaMem.lean keep every property that `Closed` describes. -/

namespace Sys2Proof.Machine

theorem State.dataRead_kept {P : State → Prop} (hC : Closed P) {s : State} (t : Thr) (ea : Word) (n : Nat)  (hP : P s) :
    P (((State.dataRead s t ea n)).st) := by
  unfold State.dataRead
  repeat' first
    | with_reducible assumption
    | (intro _)
    | with_reducible apply State.busRead_kept hC
    | with_reducible apply State.rsCheck_kept hC
    | (with_reducible refine pair_snd_kept (by with_reducible assumption) ?_)
    | (with_reducible refine pair_fst_kept (by with_reducible assumption) ?_)
    | (with_reducible refine trip_kept (by with_reducible assumption) ?_)
    | dsimp only
    | split
    | fail_if_no_progress (with_reducible refine hC.mk_kept rfl ?_)
    | rfl

theorem State.dataWrite_kept {P : State → Prop} (hC : Closed P) {s : State} (t : Thr) (ea : Word) (n : Nat) (v : Nat)  (hP : P s) :
    P (((State.dataWrite s t ea n v)).st) := by
  unfold State.dataWrite
  repeat' first
    | with_reducible assumption
    | (intro _)
    | with_reducible apply State.rsMerge_kept hC
    | with_reducible apply State.busWrite_kept hC
    | with_reducible apply State.rsCheck_kept hC
    | with_reducible apply State.rsStore_kept hC
    | with_reducible apply ite_kept
    | (with_reducible refine pair_snd_kept (by with_reducible assumption) ?_)
    | (with_reducible refine pair_fst_kept (by with_reducible assumption) ?_)
    | (with_reducible refine trip_kept (by with_reducible assumption) ?_)
    | with_reducible apply ite_snd_kept
    | with_reducible apply ite_fst_kept
    | dsimp only
    | split
    | fail_if_no_progress (with_reducible refine hC.mk_kept rfl ?_)
    | rfl

theorem State.dataSwap_kept {P : State → Prop} (hC : Closed P) {s : State} (t : Thr) (ea : Word) (f : Nat → Nat)  (hP : P s) :
    P (((State.dataSwap s t ea f)).st) := by
  unfold State.dataSwap
  repeat' first
    | with_reducible assumption
    | (intro _)
    | with_reducible apply State.refused_kept hC
    | with_reducible apply State.memRead_kept hC
    | with_reducible apply State.memWrite_kept hC
    | with_reducible apply State.rsCheck_kept hC
    | with_reducible apply State.rsStore_kept hC
    | with_reducible apply ite_kept
    | (with_reducible refine pair_snd_kept (by with_reducible assumption) ?_)
    | (with_reducible refine pair_fst_kept (by with_reducible assumption) ?_)
    | (with_reducible refine trip_kept (by with_reducible assumption) ?_)
    | dsimp only
    | split
    | fail_if_no_progress (with_reducible refine hC.mk_kept rfl ?_)
    | rfl

theorem State.load_kept {P : State → Prop} (hC : Closed P) {s : State} (t : Thr) (pc : Word) (len : Nat) (ea : Word) (n : Nat) (done : Thread → Nat → Thread)  (hP : P s) :
    P (State.load s t pc len ea n done) := by
  unfold State.load
  repeat' first
    | with_reducible assumption
    | (intro _)
    | with_reducible apply State.raiseExc_kept hC
    | with_reducible apply State.dataRead_kept hC
    | with_reducible apply State.updThr_kept hC
    | with_reducible apply ite_kept
    | dsimp only
    | split
    | fail_if_no_progress (with_reducible refine hC.mk_kept rfl ?_)
    | rfl

theorem State.store_kept {P : State → Prop} (hC : Closed P) {s : State} (t : Thr) (pc : Word) (len : Nat) (ea : Word) (n : Nat) (v : Nat) (post : Thread → Thread)  (hP : P s) :
    P (State.store s t pc len ea n v post) := by
  unfold State.store
  repeat' first
    | with_reducible assumption
    | (intro _)
    | with_reducible apply State.raiseExc_kept hC
    | with_reducible apply State.updThr_kept hC
    | with_reducible apply State.dataWrite_kept hC
    | with_reducible apply ite_kept
    | dsimp only
    | split
    | fail_if_no_progress (with_reducible refine hC.mk_kept rfl ?_)
    | rfl

theorem State.atomic_kept {P : State → Prop} (hC : Closed P) {s : State} (t : Thr) (pc : Word) (ea : Word) (f : Nat → Nat) (rd : Nat)  (hP : P s) :
    P (State.atomic s t pc ea f rd) := by
  unfold State.atomic
  repeat' first
    | with_reducible assumption
    | (intro _)
    | with_reducible apply State.raiseExc_kept hC
    | with_reducible apply State.dataSwap_kept hC
    | with_reducible apply State.updThr_kept hC
    | with_reducible apply ite_kept
    | dsimp only
    | split
    | fail_if_no_progress (with_reducible refine hC.mk_kept rfl ?_)
    | rfl

theorem State.loadM_kept {P : State → Prop} (hC : Closed P) {s : State} (t : Thr) (k : LoadKind) (rd : BitVec 5) (ra : BitVec 5) (imm : BitVec 13)  (hP : P s) :
    P (State.loadM s t k rd ra imm) := by
  unfold State.loadM
  repeat' first
    | with_reducible assumption
    | (intro _)
    | with_reducible apply State.issue_kept hC
    | with_reducible apply State.load_kept hC
    | dsimp only
    | split
    | fail_if_no_progress (with_reducible refine hC.mk_kept rfl ?_)
    | rfl

theorem State.storeM_kept {P : State → Prop} (hC : Closed P) {s : State} (t : Thr) (k : StoreKind) (rd : BitVec 5) (ra : BitVec 5) (imm : BitVec 13)  (hP : P s) :
    P (State.storeM s t k rd ra imm) := by
  unfold State.storeM
  repeat' first
    | with_reducible assumption
    | (intro _)
    | with_reducible apply State.issue_kept hC
    | with_reducible apply State.store_kept hC
    | dsimp only
    | split
    | fail_if_no_progress (with_reducible refine hC.mk_kept rfl ?_)
    | rfl

theorem execLdw_kept {P : State → Prop} (hC : Closed P) (t : Thr) (f : MemForm) {s : State}  (hP : P s) :
    Res.Keeps P (execLdw t f s) := by
  unfold execLdw
  repeat' first
    | with_reducible assumption
    | (intro _)
    | with_reducible apply Res.keeps_next
    | with_reducible apply State.issue_kept hC
    | with_reducible apply State.load_kept hC
    | dsimp only
    | split
    | fail_if_no_progress (with_reducible refine hC.mk_kept rfl ?_)
    | rfl

theorem execLdh_kept {P : State → Prop} (hC : Closed P) (t : Thr) (rd : BitVec 5) (ra : BitVec 5) (imm : BitVec 13) {s : State}  (hP : P s) :
    Res.Keeps P (execLdh t rd ra imm s) := by
  unfold execLdh
  repeat' first
    | with_reducible assumption
    | (intro _)
    | with_reducible apply Res.keeps_next
    | with_reducible apply State.loadM_kept hC
    | dsimp only
    | split
    | fail_if_no_progress (with_reducible refine hC.mk_kept rfl ?_)
    | rfl

theorem execLdhu_kept {P : State → Prop} (hC : Closed P) (t : Thr) (rd : BitVec 5) (ra : BitVec 5) (imm : BitVec 13) {s : State}  (hP : P s) :
    Res.Keeps P (execLdhu t rd ra imm s) := by
  unfold execLdhu
  repeat' first
    | with_reducible assumption
    | (intro _)
    | with_reducible apply Res.keeps_next
    | with_reducible apply State.loadM_kept hC
    | dsimp only
    | split
    | fail_if_no_progress (with_reducible refine hC.mk_kept rfl ?_)
    | rfl

theorem execLdb_kept {P : State → Prop} (hC : Closed P) (t : Thr) (rd : BitVec 5) (ra : BitVec 5) (imm : BitVec 13) {s : State}  (hP : P s) :
    Res.Keeps P (execLdb t rd ra imm s) := by
  unfold execLdb
  repeat' first
    | with_reducible assumption
    | (intro _)
    | with_reducible apply Res.keeps_next
    | with_reducible apply State.loadM_kept hC
    | dsimp only
    | split
    | fail_if_no_progress (with_reducible refine hC.mk_kept rfl ?_)
    | rfl

theorem execLdbu_kept {P : State → Prop} (hC : Closed P) (t : Thr) (rd : BitVec 5) (ra : BitVec 5) (imm : BitVec 13) {s : State}  (hP : P s) :
    Res.Keeps P (execLdbu t rd ra imm s) := by
  unfold execLdbu
  repeat' first
    | with_reducible assumption
    | (intro _)
    | with_reducible apply Res.keeps_next
    | with_reducible apply State.loadM_kept hC
    | dsimp only
    | split
    | fail_if_no_progress (with_reducible refine hC.mk_kept rfl ?_)
    | rfl

theorem execXadd_kept {P : State → Prop} (hC : Closed P) (t : Thr) (rd : BitVec 5) (ra : BitVec 5) (imm : BitVec 13) {s : State}  (hP : P s) :
    Res.Keeps P (execXadd t rd ra imm s) := by
  unfold execXadd
  repeat' first
    | with_reducible assumption
    | (intro _)
    | with_reducible apply Res.keeps_next
    | with_reducible apply State.issue_kept hC
    | with_reducible apply State.atomic_kept hC
    | dsimp only
    | split
    | fail_if_no_progress (with_reducible refine hC.mk_kept rfl ?_)
    | rfl

theorem execXchg_kept {P : State → Prop} (hC : Closed P) (t : Thr) (rd : BitVec 5) (ra : BitVec 5) (imm : BitVec 13) {s : State}  (hP : P s) :
    Res.Keeps P (execXchg t rd ra imm s) := by
  unfold execXchg
  repeat' first
    | with_reducible assumption
    | (intro _)
    | with_reducible apply Res.keeps_next
    | with_reducible apply State.issue_kept hC
    | with_reducible apply State.atomic_kept hC
    | dsimp only
    | split
    | fail_if_no_progress (with_reducible refine hC.mk_kept rfl ?_)
    | rfl

theorem execStw_kept {P : State → Prop} (hC : Closed P) (t : Thr) (f : MemForm) {s : State}  (hP : P s) :
    Res.Keeps P (execStw t f s) := by
  unfold execStw
  repeat' first
    | with_reducible assumption
    | (intro _)
    | with_reducible apply Res.keeps_next
    | with_reducible apply State.issue_kept hC
    | with_reducible apply State.store_kept hC
    | dsimp only
    | split
    | fail_if_no_progress (with_reducible refine hC.mk_kept rfl ?_)
    | rfl

theorem execSth_kept {P : State → Prop} (hC : Closed P) (t : Thr) (rd : BitVec 5) (ra : BitVec 5) (imm : BitVec 13) {s : State}  (hP : P s) :
    Res.Keeps P (execSth t rd ra imm s) := by
  unfold execSth
  repeat' first
    | with_reducible assumption
    | (intro _)
    | with_reducible apply Res.keeps_next
    | with_reducible apply State.storeM_kept hC
    | dsimp only
    | split
    | fail_if_no_progress (with_reducible refine hC.mk_kept rfl ?_)
    | rfl

theorem execStb_kept {P : State → Prop} (hC : Closed P) (t : Thr) (rd : BitVec 5) (ra : BitVec 5) (imm : BitVec 13) {s : State}  (hP : P s) :
    Res.Keeps P (execStb t rd ra imm s) := by
  unfold execStb
  repeat' first
    | with_reducible assumption
    | (intro _)
    | with_reducible apply Res.keeps_next
    | with_reducible apply State.storeM_kept hC
    | dsimp only
    | split
    | fail_if_no_progress (with_reducible refine hC.mk_kept rfl ?_)
    | rfl

theorem State.agIssue_kept {P : State → Prop} (hC : Closed P) {s : State} (t : Thr) (f : AgForm) (body : Word → Nat → Nat → Nat → Bool → State → State)  (hbody : ∀ y0 y1 y2 y3 y4 y5, P y5 →  P (body y0 y1 y2 y3 y4 y5)) (hP : P s) :
    P (State.agIssue s t f body) := by
  unfold State.agIssue
  repeat' first
    | with_reducible assumption
    | (intro _)
    | with_reducible apply State.issue_kept hC
    | with_reducible apply State.raiseExc_kept hC
    | with_reducible apply hbody
    | with_reducible apply ite_kept
    | dsimp only
    | split
    | fail_if_no_progress (with_reducible refine hC.mk_kept rfl ?_)
    | rfl

theorem execAgLoad_kept {P : State → Prop} (hC : Closed P) (t : Thr) (f : AgForm) (k : LoadKind) {s : State}  (hP : P s) :
    Res.Keeps P (execAgLoad t f k s) := by
  unfold execAgLoad
  repeat' first
    | with_reducible assumption
    | (intro _)
    | with_reducible apply Res.keeps_next
    | with_reducible apply State.agIssue_kept hC
    | with_reducible apply State.load_kept hC
    | with_reducible apply ite_kept
    | dsimp only
    | split
    | fail_if_no_progress (with_reducible refine hC.mk_kept rfl ?_)
    | rfl

theorem execAgStore_kept {P : State → Prop} (hC : Closed P) (t : Thr) (f : AgForm) (k : StoreKind) {s : State}  (hP : P s) :
    Res.Keeps P (execAgStore t f k s) := by
  unfold execAgStore
  repeat' first
    | with_reducible assumption
    | (intro _)
    | with_reducible apply Res.keeps_next
    | with_reducible apply State.agIssue_kept hC
    | with_reducible apply State.store_kept hC
    | with_reducible apply ite_kept
    | dsimp only
    | split
    | fail_if_no_progress (with_reducible refine hC.mk_kept rfl ?_)
    | rfl

theorem State.storeFrame_kept {P : State → Prop} (hC : Closed P) {s : State} (t : Thr) (e0 : List Word) (e1 : Word) (hP : P s) :
    P (((State.storeFrame s t e0 e1)).2.2) := by
  revert hP
  fun_induction State.storeFrame s t e0 e1
  all_goals
    intro hP
    repeat' first
      | with_reducible assumption
      | (intro _)
      | with_reducible apply State.dataWrite_kept hC
      | with_reducible apply ite_kept
      | with_reducible apply ite_snd_kept
      | with_reducible apply ite_fst_kept
      | (with_reducible apply_assumption)
      | dsimp only
      | split
      | fail_if_no_progress (with_reducible refine hC.mk_kept rfl ?_)
      | rfl

theorem State.loadFrame_kept {P : State → Prop} (hC : Closed P) {s : State} (t : Thr) (e0 : Nat) (e1 : Word) (e2 : List Word) (hP : P s) :
    P (((State.loadFrame s t e0 e1 e2)).2.2.2) := by
  revert hP
  fun_induction State.loadFrame s t e0 e1 e2
  all_goals
    intro hP
    repeat' first
      | with_reducible assumption
      | (intro _)
      | with_reducible apply State.dataRead_kept hC
      | with_reducible apply ite_kept
      | with_reducible apply ite_snd_kept
      | with_reducible apply ite_fst_kept
      | (with_reducible apply_assumption)
      | dsimp only
      | split
      | fail_if_no_progress (with_reducible refine hC.mk_kept rfl ?_)
      | rfl

theorem execCallm_kept {P : State → Prop} (hC : Closed P) (t : Thr) (f : CallForm) {s : State}  (hP : P s) :
    Res.Keeps P (execCallm t f s) := by
  unfold execCallm
  repeat' first
    | with_reducible assumption
    | (intro _)
    | with_reducible apply Res.keeps_next
    | with_reducible apply State.issue_kept hC
    | with_reducible apply State.raiseExc_kept hC
    | with_reducible apply State.storeFrame_kept hC
    | with_reducible apply State.updThr_kept hC
    | with_reducible apply ite_kept
    | (with_reducible refine pair_snd_kept (by with_reducible assumption) ?_)
    | (with_reducible refine pair_fst_kept (by with_reducible assumption) ?_)
    | (with_reducible refine trip_kept (by with_reducible assumption) ?_)
    | dsimp only
    | split
    | fail_if_no_progress (with_reducible refine hC.mk_kept rfl ?_)
    | rfl

theorem execRetm_kept {P : State → Prop} (hC : Closed P) (t : Thr) {s : State}  (hP : P s) :
    Res.Keeps P (execRetm t s) := by
  unfold execRetm
  repeat' first
    | with_reducible assumption
    | (intro _)
    | with_reducible apply Res.keeps_next
    | with_reducible apply State.issue_kept hC
    | with_reducible apply State.raiseExc_kept hC
    | with_reducible apply State.dataRead_kept hC
    | with_reducible apply State.loadFrame_kept hC
    | with_reducible apply State.updThr_kept hC
    | with_reducible apply foldl_kept
    | with_reducible apply foldl_snd_kept
    | with_reducible apply foldl_fst_kept
    | with_reducible apply ite_kept
    | (with_reducible refine pair_snd_kept (by with_reducible assumption) ?_)
    | (with_reducible refine pair_fst_kept (by with_reducible assumption) ?_)
    | (with_reducible refine trip_kept (by with_reducible assumption) ?_)
    | dsimp only
    | split
    | fail_if_no_progress (with_reducible refine hC.mk_kept rfl ?_)
    | rfl

end Sys2Proof.Machine
end

