-- ==== Sys2Proof/Laws/KeptJobCmds.lean ====
section
/-! SUPPORT. The definitions of Machine/JobCmds.lean keep every property that `Closed` describes. -/

namespace Sys2Proof.Machine

theorem State.endIfEmpty_kept {P : State → Prop} (hC : Closed P) {s : State} (t : Nat)  (hP : P s) :
    P (State.endIfEmpty s t) := by
  unfold State.endIfEmpty
  repeat' first
    | with_reducible assumption
    | (intro _)
    | with_reducible apply State.endJob_kept hC
    | with_reducible apply ite_kept
    | dsimp only
    | split
    | fail_if_no_progress (with_reducible refine hC.mk_kept rfl ?_)
    | rfl

theorem execNvWrite_kept {P : State → Prop} (hC : Closed P) (tag : BitVec 10) {s : State}  (hP : P s) :
    Res.Keeps P (execNvWrite tag s) := by
  unfold execNvWrite
  repeat' first
    | with_reducible assumption
    | (intro _)
    | with_reducible apply Res.keeps_next
    | with_reducible apply State.startJob_kept hC
    | with_reducible apply State.endIfEmpty_kept hC
    | dsimp only
    | split
    | fail_if_no_progress (with_reducible refine hC.mk_kept rfl ?_)
    | rfl

theorem execNvErase_kept {P : State → Prop} (hC : Closed P) (tag : BitVec 10) {s : State}  (hP : P s) :
    Res.Keeps P (execNvErase tag s) := by
  unfold execNvErase
  repeat' first
    | with_reducible assumption
    | (intro _)
    | with_reducible apply Res.keeps_next
    | with_reducible apply State.startJob_kept hC
    | with_reducible apply State.endIfEmpty_kept hC
    | dsimp only
    | split
    | fail_if_no_progress (with_reducible refine hC.mk_kept rfl ?_)
    | rfl

theorem execCalStore_kept {P : State → Prop} (hC : Closed P) (tag : BitVec 10) {s : State}  (hP : P s) :
    Res.Keeps P (execCalStore tag s) := by
  unfold execCalStore
  repeat' first
    | with_reducible assumption
    | (intro _)
    | with_reducible apply Res.keeps_next
    | with_reducible apply State.startJob_kept hC
    | with_reducible apply State.endJob_kept hC
    | with_reducible apply State.updJob_kept hC
    | with_reducible apply ite_kept
    | dsimp only
    | split
    | fail_if_no_progress (with_reducible refine hC.mk_kept rfl ?_)
    | rfl

theorem State.scrubMem_kept {P : State → Prop} (hC : Closed P) {s : State} (inTarget : Nat → Bool)  (hP : P s) :
    P (((State.scrubMem s inTarget)).2) := by
  unfold State.scrubMem
  repeat' first
    | with_reducible assumption
    | (intro _)
    | with_reducible apply State.memCe_kept hC
    | with_reducible apply State.setEcc_kept hC
    | with_reducible apply State.memUe_kept hC
    | with_reducible apply foldl_kept
    | with_reducible apply foldl_snd_kept
    | with_reducible apply foldl_fst_kept
    | dsimp only
    | split
    | fail_if_no_progress (with_reducible refine hC.mk_kept rfl ?_)
    | rfl

theorem execScrub_kept {P : State → Prop} (hC : Closed P) (tag : BitVec 10) {s : State}  (hP : P s) :
    Res.Keeps P (execScrub tag s) := by
  unfold execScrub
  repeat' first
    | with_reducible assumption
    | (intro _)
    | with_reducible apply Res.keeps_next
    | with_reducible apply State.startJob_kept hC
    | with_reducible apply State.fault_kept hC
    | with_reducible apply State.endJob_kept hC
    | with_reducible apply State.scrubMem_kept hC
    | with_reducible apply ite_kept
    | (with_reducible refine pair_snd_kept (by with_reducible assumption) ?_)
    | (with_reducible refine pair_fst_kept (by with_reducible assumption) ?_)
    | (with_reducible refine trip_kept (by with_reducible assumption) ?_)
    | dsimp only
    | split
    | fail_if_no_progress (with_reducible refine hC.mk_kept rfl ?_)
    | rfl

theorem execBistBough_kept {P : State → Prop} (hC : Closed P) (tag : BitVec 10) (fails : Word) {s : State}  (hP : P s) :
    Res.Keeps P (execBistBough tag fails s) := by
  unfold execBistBough
  refine Res.keeps_next (State.startJob_kept hC _ _ _ (fun j s hP => ?_) hP)
  beta_reduce
  split
  · exact State.endJob_kept hC _ _ _ _ (hC.tookFree (hC.refill j.arg0 _ _ s.freeCtr rfl rfl rfl hP))
  · exact State.endJob_kept hC _ _ _ _ hP

theorem State.verdict_kept {P : State → Prop} (hC : Closed P) {s : State} (t len err : Nat) (hP : P s) : P (s.verdict t len err) := by
  unfold State.verdict
  exact State.endJob_kept hC _ _ _ _ (State.updJob_kept hC _ _ hP)

theorem execImageVerify_kept {P : State → Prop} (hC : Closed P) (tag : BitVec 10) {s : State}  (hP : P s) :
    Res.Keeps P (execImageVerify tag s) := by
  unfold execImageVerify
  repeat' first
    | with_reducible assumption
    | (intro _)
    | with_reducible apply Res.keeps_next
    | with_reducible apply State.startJob_kept hC
    | with_reducible apply State.verdict_kept hC
    | with_reducible apply State.endJob_kept hC
    | with_reducible apply State.nvRead_kept hC
    | with_reducible apply State.devRead_kept hC
    | with_reducible apply foldl_kept
    | with_reducible apply foldl_snd_kept
    | with_reducible apply foldl_fst_kept
    | with_reducible apply ite_kept
    | (with_reducible refine pair_snd_kept (by with_reducible assumption) ?_)
    | (with_reducible refine pair_fst_kept (by with_reducible assumption) ?_)
    | (with_reducible refine trip_kept (by with_reducible assumption) ?_)
    | dsimp only
    | split
    | fail_if_no_progress (with_reducible refine hC.mk_kept rfl ?_)
    | rfl

theorem execLogExport_kept {P : State → Prop} (hC : Closed P) (tag : BitVec 10) {s : State}  (hP : P s) :
    Res.Keeps P (execLogExport tag s) := by
  unfold execLogExport
  repeat' first
    | with_reducible assumption
    | (intro _)
    | with_reducible apply Res.keeps_next
    | with_reducible apply State.startJob_kept hC
    | with_reducible apply State.nvRead_kept hC
    | with_reducible apply State.endJob_kept hC
    | with_reducible apply State.devWrite_kept hC
    | with_reducible apply ite_kept
    | (with_reducible refine pair_snd_kept (by with_reducible assumption) ?_)
    | (with_reducible refine pair_fst_kept (by with_reducible assumption) ?_)
    | (with_reducible refine trip_kept (by with_reducible assumption) ?_)
    | dsimp only
    | split
    | fail_if_no_progress (with_reducible refine hC.mk_kept rfl ?_)
    | rfl

theorem execStorePageProgram_kept {P : State → Prop} (hC : Closed P) (code : BitVec 12) (mismatch : Bool) {s : State}  (hP : P s) :
    Res.Keeps P (execStorePageProgram code mismatch s) := by
  unfold execStorePageProgram
  repeat' first
    | with_reducible assumption
    | (intro _)
    | with_reducible apply Res.keeps_next
    | with_reducible apply State.pageProgram_kept hC
    | dsimp only
    | split
    | fail_if_no_progress (with_reducible refine hC.mk_kept rfl ?_)
    | rfl

theorem execJobComplete_kept {P : State → Prop} (hC : Closed P) (tag : BitVec 10) {s : State}  (hP : P s) :
    Res.Keeps P (execJobComplete tag s) := by
  unfold execJobComplete
  repeat' first
    | with_reducible assumption
    | (intro _)
    | with_reducible apply Res.keeps_next
    | with_reducible apply State.complete_kept hC
    | with_reducible apply ite_kept
    | dsimp only
    | split
    | fail_if_no_progress (with_reducible refine hC.mk_kept rfl ?_)
    | rfl

end Sys2Proof.Machine
end

