-- ==== Sys2Proof/Laws/KeptLoopCmds.lean ====
section
/-! SUPPORT. The definitions of Machine/LoopCmds.lean keep every property that `Closed` describes. -/

namespace Sys2Proof.Machine

theorem State.periodCurrents_kept {P : State → Prop} (hC : Closed P) {s : State} (x : Nat)  (hP : P s) :
    P (State.periodCurrents s x) := by
  unfold State.periodCurrents
  repeat' first
    | with_reducible assumption
    | (intro _)
    | with_reducible apply State.updPhase_kept hC
    | with_reducible apply foldl_kept
    | with_reducible apply foldl_snd_kept
    | with_reducible apply foldl_fst_kept
    | with_reducible apply ite_kept
    | dsimp only
    | split
    | fail_if_no_progress (with_reducible refine hC.mk_kept rfl ?_)
    | rfl

theorem State.countLight_kept {P : State → Prop} (hC : Closed P) {s : State} (x : Nat)  (hP : P s) :
    P (State.countLight s x) := by
  unfold State.countLight
  repeat' first
    | with_reducible assumption
    | (intro _)
    | with_reducible apply State.updLoop_kept hC
    | with_reducible apply ite_kept
    | dsimp only
    | split
    | fail_if_no_progress (with_reducible refine hC.mk_kept rfl ?_)
    | rfl

theorem State.balance_kept {P : State → Prop} (hC : Closed P) {s : State} (x : Nat)  (hP : P s) :
    P (State.balance s x) := by
  unfold State.balance
  repeat' first
    | with_reducible assumption
    | (intro _)
    | with_reducible apply State.zeroTrims_kept hC
    | with_reducible apply State.setFld_kept hC
    | with_reducible apply foldl_kept
    | with_reducible apply foldl_snd_kept
    | with_reducible apply foldl_fst_kept
    | with_reducible apply ite_kept
    | dsimp only
    | split
    | fail_if_no_progress (with_reducible refine hC.mk_kept rfl ?_)
    | rfl

theorem State.telSample_kept {P : State → Prop} (hC : Closed P) {s : State} (x : Nat)  (hP : P s) :
    P (State.telSample s x) := by
  unfold State.telSample
  repeat' first
    | with_reducible assumption
    | (intro _)
    | with_reducible apply State.updLoop_kept hC
    | with_reducible apply ite_kept
    | dsimp only
    | split
    | fail_if_no_progress (with_reducible refine hC.mk_kept rfl ?_)
    | rfl

theorem State.endPeriod_kept {P : State → Prop} (hC : Closed P) {s : State} (x : Nat)  (hP : P s) :
    P (State.endPeriod s x) := by
  unfold State.endPeriod
  repeat' first
    | with_reducible assumption
    | (intro _)
    | with_reducible apply State.periodCurrents_kept hC
    | with_reducible apply State.countLight_kept hC
    | with_reducible apply State.balance_kept hC
    | with_reducible apply State.telSample_kept hC
    | with_reducible apply ite_kept
    | dsimp only
    | split
    | fail_if_no_progress (with_reducible refine hC.mk_kept rfl ?_)
    | rfl

theorem State.bud_kept {P : State → Prop} (hC : Closed P) {s : State} (n : Nat)  (hP : P s) :
    P (State.bud s n) := by
  unfold State.bud
  repeat' first
    | with_reducible assumption
    | (intro _)
    | with_reducible apply State.setPh_kept hC
    | with_reducible apply State.setFld_kept hC
    | with_reducible apply ite_kept
    | dsimp only
    | split
    | fail_if_no_progress (with_reducible refine hC.mk_kept rfl ?_)
    | rfl

theorem State.budSome_kept {P : State → Prop} (hC : Closed P) {s : State} (x : Nat) (k : Nat)  (hP : P s) :
    P (State.budSome s x k) := by
  unfold State.budSome
  repeat' first
    | with_reducible assumption
    | (intro _)
    | with_reducible apply State.bud_kept hC
    | with_reducible apply foldl_kept
    | with_reducible apply foldl_snd_kept
    | with_reducible apply foldl_fst_kept
    | dsimp only
    | split
    | fail_if_no_progress (with_reducible refine hC.mk_kept rfl ?_)
    | rfl

theorem State.serveWakes_kept {P : State → Prop} (hC : Closed P) {s : State}  (hP : P s) :
    P (State.serveWakes s) := by
  unfold State.serveWakes
  repeat' first
    | with_reducible assumption
    | (intro _)
    | with_reducible apply State.updLoop_kept hC
    | with_reducible apply State.setPh_kept hC
    | with_reducible apply State.loopEvt_kept hC
    | with_reducible apply State.budSome_kept hC
    | with_reducible apply foldl_kept
    | with_reducible apply foldl_snd_kept
    | with_reducible apply foldl_fst_kept
    | with_reducible apply ite_kept
    | dsimp only
    | split
    | fail_if_no_progress (with_reducible refine hC.mk_kept rfl ?_)
    | rfl

theorem State.phaseCommand_kept {P : State → Prop} (hC : Closed P) {s : State} (x : Nat)  (hP : P s) :
    P (State.phaseCommand s x) := by
  unfold State.phaseCommand
  repeat' first
    | with_reducible assumption
    | (intro _)
    | with_reducible apply State.bud_kept hC
    | with_reducible apply State.updLoop_kept hC
    | with_reducible apply State.loopEvt_kept hC
    | with_reducible apply State.setPh_kept hC
    | with_reducible apply State.updPhase_kept hC
    | with_reducible apply foldl_kept
    | with_reducible apply foldl_snd_kept
    | with_reducible apply foldl_fst_kept
    | with_reducible apply ite_kept
    | dsimp only
    | split
    | fail_if_no_progress (with_reducible refine hC.mk_kept rfl ?_)
    | rfl

theorem State.serveHints_kept {P : State → Prop} (hC : Closed P) {s : State}  (hP : P s) :
    P (State.serveHints s) := by
  unfold State.serveHints
  repeat' first
    | with_reducible assumption
    | (intro _)
    | with_reducible apply State.hints_kept hC
    | with_reducible apply State.budSome_kept hC
    | with_reducible apply State.updLoop_kept hC
    | dsimp only
    | split
    | fail_if_no_progress (with_reducible refine hC.mk_kept rfl ?_)
    | rfl

theorem State.beginPeriod_kept {P : State → Prop} (hC : Closed P) {s : State} (x : Nat)  (hP : P s) :
    P (State.beginPeriod s x) := by
  unfold State.beginPeriod
  repeat' first
    | with_reducible assumption
    | (intro _)
    | with_reducible apply State.updPhase_kept hC
    | with_reducible apply State.setFld_kept hC
    | with_reducible apply State.settleHeld_kept hC
    | with_reducible apply State.updLoop_kept hC
    | with_reducible apply foldl_kept
    | with_reducible apply foldl_snd_kept
    | with_reducible apply foldl_fst_kept
    | with_reducible apply ite_kept
    | dsimp only
    | split
    | fail_if_no_progress (with_reducible refine hC.mk_kept rfl ?_)
    | rfl

theorem State.reportStored_kept {P : State → Prop} (hC : Closed P) {s : State} (x : Nat)  (hP : P s) :
    P (State.reportStored s x) := by
  unfold State.reportStored
  repeat' first
    | with_reducible assumption
    | (intro _)
    | with_reducible apply hC.setReg
    | with_reducible apply ite_kept
    | dsimp only
    | split
    | fail_if_no_progress (with_reducible refine hC.mk_kept rfl ?_)
    | rfl

theorem execPhaseSafePoint_kept {P : State → Prop} (hC : Closed P) (x : Loop) {s : State}  (hP : P s) :
    Res.Keeps P (execPhaseSafePoint x s) := by
  unfold execPhaseSafePoint
  repeat' first
    | with_reducible assumption
    | (intro _)
    | with_reducible apply Res.keeps_next
    | with_reducible apply State.servicePhase_kept hC
    | with_reducible apply State.endPeriod_kept hC
    | with_reducible apply State.beginPeriod_kept hC
    | with_reducible apply State.stopOutOfService_kept hC
    | with_reducible apply State.serveWakes_kept hC
    | with_reducible apply State.phaseCommand_kept hC
    | with_reducible apply State.serveHints_kept hC
    | with_reducible apply State.placeEdges_kept hC
    | with_reducible apply State.reportStored_kept hC
    | with_reducible apply State.activity_kept hC
    | with_reducible apply foldl_kept
    | with_reducible apply foldl_snd_kept
    | with_reducible apply foldl_fst_kept
    | with_reducible apply ite_kept
    | dsimp only
    | split
    | fail_if_no_progress (with_reducible refine hC.mk_kept rfl ?_)
    | rfl

theorem State.overVoltage_kept {P : State → Prop} (hC : Closed P) {s : State} (x : Nat)  (hP : P s) :
    P (State.overVoltage s x) := by
  unfold State.overVoltage
  repeat' first
    | with_reducible assumption
    | (intro _)
    | with_reducible apply State.stopLoop_kept hC
    | with_reducible apply State.fault_kept hC
    | dsimp only
    | split
    | fail_if_no_progress (with_reducible refine hC.mk_kept rfl ?_)
    | rfl

theorem State.powerGood_kept {P : State → Prop} (hC : Closed P) {s : State} (x : Nat)  (hP : P s) :
    P (State.powerGood s x) := by
  unfold State.powerGood
  repeat' first
    | with_reducible assumption
    | (intro _)
    | with_reducible apply State.updLoop_kept hC
    | with_reducible apply State.setPgood_kept hC
    | with_reducible apply ite_kept
    | dsimp only
    | split
    | fail_if_no_progress (with_reducible refine hC.mk_kept rfl ?_)
    | rfl

theorem execLawCompute_kept {P : State → Prop} (hC : Closed P) (x : Loop) {s : State}  (hP : P s) :
    Res.Keeps P (execLawCompute x s) := by
  unfold execLawCompute
  repeat' first
    | with_reducible assumption
    | (intro _)
    | with_reducible apply Res.keeps_next
    | with_reducible apply State.updLoop_kept hC
    | with_reducible apply State.overVoltage_kept hC
    | with_reducible apply State.advanceRamps_kept hC
    | with_reducible apply State.stopLoop_kept hC
    | with_reducible apply State.loopEvt_kept hC
    | with_reducible apply State.law_kept hC
    | with_reducible apply State.moveEdges_kept hC
    | with_reducible apply State.fault_kept hC
    | with_reducible apply State.powerGood_kept hC
    | with_reducible apply ite_kept
    | dsimp only
    | split
    | fail_if_no_progress (with_reducible refine hC.mk_kept rfl ?_)
    | rfl

theorem execRegulatingEntry_kept {P : State → Prop} (hC : Closed P) (x : Loop) {s : State}  (hP : P s) :
    Res.Keeps P (execRegulatingEntry x s) := by
  unfold execRegulatingEntry
  repeat' first
    | with_reducible assumption
    | (intro _)
    | with_reducible apply Res.keeps_next
    | with_reducible apply State.setLoopState_kept hC
    | with_reducible apply State.setPgood_kept hC
    | with_reducible apply ite_kept
    | dsimp only
    | split
    | fail_if_no_progress (with_reducible refine hC.mk_kept rfl ?_)
    | rfl

theorem execSoftstartTimeout_kept {P : State → Prop} (hC : Closed P) (x : Loop) {s : State}  (hP : P s) :
    Res.Keeps P (execSoftstartTimeout x s) := by
  unfold execSoftstartTimeout
  repeat' first
    | with_reducible assumption
    | (intro _)
    | with_reducible apply Res.keeps_next
    | with_reducible apply State.stopLoop_kept hC
    | with_reducible apply State.fault_kept hC
    | with_reducible apply ite_kept
    | dsimp only
    | split
    | fail_if_no_progress (with_reducible refine hC.mk_kept rfl ?_)
    | rfl

theorem execDeEnter_kept {P : State → Prop} (hC : Closed P) (x : Loop) {s : State}  (hP : P s) :
    Res.Keeps P (execDeEnter x s) := by
  unfold execDeEnter
  repeat' first
    | with_reducible assumption
    | (intro _)
    | with_reducible apply Res.keeps_next
    | with_reducible apply State.setFld_kept hC
    | with_reducible apply State.updLoop_kept hC
    | with_reducible apply ite_kept
    | dsimp only
    | split
    | fail_if_no_progress (with_reducible refine hC.mk_kept rfl ?_)
    | rfl

theorem execPruneTimeout_kept {P : State → Prop} (hC : Closed P) (n : Fin 16) {s : State}  (hP : P s) :
    Res.Keeps P (execPruneTimeout n s) := by
  unfold execPruneTimeout
  repeat' first
    | with_reducible assumption
    | (intro _)
    | with_reducible apply Res.keeps_next
    | with_reducible apply State.setPh_kept hC
    | with_reducible apply ite_kept
    | dsimp only
    | split
    | fail_if_no_progress (with_reducible refine hC.mk_kept rfl ?_)
    | rfl

theorem execZeroCrossing_kept {P : State → Prop} (hC : Closed P) (n : Fin 16) {s : State}  (hP : P s) :
    Res.Keeps P (execZeroCrossing n s) := by
  unfold execZeroCrossing
  repeat' first
    | with_reducible assumption
    | (intro _)
    | with_reducible apply Res.keeps_next
    | with_reducible apply State.zeroCross_kept hC
    | with_reducible apply State.setPh_kept hC
    | with_reducible apply ite_kept
    | dsimp only
    | split
    | fail_if_no_progress (with_reducible refine hC.mk_kept rfl ?_)
    | rfl

theorem execBoughWakeRequest_kept {P : State → Prop} (hC : Closed P) (b : Fin 8) {s : State}  (hP : P s) :
    Res.Keeps P (execBoughWakeRequest b s) := by
  unfold execBoughWakeRequest
  repeat' first
    | with_reducible assumption
    | (intro _)
    | with_reducible apply Res.keeps_next
    | with_reducible apply State.updLoop_kept hC
    | with_reducible apply ite_kept
    | dsimp only
    | split
    | fail_if_no_progress (with_reducible refine hC.mk_kept rfl ?_)
    | rfl

theorem execBudAck_kept {P : State → Prop} (hC : Closed P) (b : Fin 8) {s : State}  (hP : P s) :
    Res.Keeps P (execBudAck b s) := by
  unfold execBudAck
  repeat' first
    | with_reducible assumption
    | (intro _)
    | with_reducible apply Res.keeps_next
    | with_reducible apply State.updLoop_kept hC
    | with_reducible apply State.setDomState_kept hC
    | with_reducible apply ite_kept
    | dsimp only
    | split
    | fail_if_no_progress (with_reducible refine hC.mk_kept rfl ?_)
    | rfl

theorem execWakeBoostEnd_kept {P : State → Prop} (hC : Closed P) {s : State}  (hP : P s) :
    Res.Keeps P (execWakeBoostEnd s) := by
  unfold execWakeBoostEnd
  repeat' first
    | with_reducible assumption
    | (intro _)
    | with_reducible apply Res.keeps_next
    | with_reducible apply State.updLoop_kept hC
    | dsimp only
    | split
    | fail_if_no_progress (with_reducible refine hC.mk_kept rfl ?_)
    | rfl

theorem execHintUp_kept {P : State → Prop} (hC : Closed P) {s : State}  (hP : P s) :
    Res.Keeps P (execHintUp s) := by
  unfold execHintUp
  repeat' first
    | with_reducible assumption
    | (intro _)
    | with_reducible apply Res.keeps_next
    | with_reducible apply State.updLoop_kept hC
    | with_reducible apply State.hints_kept hC
    | with_reducible apply ite_kept
    | dsimp only
    | split
    | fail_if_no_progress (with_reducible refine hC.mk_kept rfl ?_)
    | rfl

theorem execHintDn_kept {P : State → Prop} (hC : Closed P) {s : State}  (hP : P s) :
    Res.Keeps P (execHintDn s) := by
  unfold execHintDn
  repeat' first
    | with_reducible assumption
    | (intro _)
    | with_reducible apply Res.keeps_next
    | with_reducible apply State.loopEvt_kept hC
    | with_reducible apply ite_kept
    | dsimp only
    | split
    | fail_if_no_progress (with_reducible refine hC.mk_kept rfl ?_)
    | rfl

theorem execLoopTelemetryPublish_kept {P : State → Prop} (hC : Closed P) (x : Loop) {s : State}  (hP : P s) :
    Res.Keeps P (execLoopTelemetryPublish x s) := by
  unfold execLoopTelemetryPublish
  repeat' first
    | with_reducible assumption
    | (intro _)
    | with_reducible apply Res.keeps_next
    | with_reducible apply State.setFld_kept hC
    | with_reducible apply hC.setReg
    | with_reducible apply State.updLoop_kept hC
    | with_reducible apply ite_kept
    | dsimp only
    | split
    | fail_if_no_progress (with_reducible refine hC.mk_kept rfl ?_)
    | rfl

end Sys2Proof.Machine
end

