-- ==== Sys2Proof/Laws/KeptPmbus.lean ====
section
/-! SUPPORT. The definitions of Machine/Pmbus.lean keep every property that `Closed` describes. -/

namespace Sys2Proof.Machine

theorem State.pmSettle_kept {P : State → Prop} (hC : Closed P) {s : State}  (hP : P s) :
    P (State.pmSettle s) := by
  unfold State.pmSettle
  repeat' first
    | with_reducible assumption
    | (intro _)
    | with_reducible apply State.updPm_kept hC
    | with_reducible apply ite_kept
    | dsimp only
    | split
    | fail_if_no_progress (with_reducible refine hC.mk_kept rfl ?_)
    | rfl

theorem State.pmInvalid_kept {P : State → Prop} (hC : Closed P) {s : State}  (hP : P s) :
    P (State.pmInvalid s) := by
  unfold State.pmInvalid
  repeat' first
    | with_reducible assumption
    | (intro _)
    | with_reducible apply State.latchCml_kept hC
    | dsimp only
    | split
    | fail_if_no_progress (with_reducible refine hC.mk_kept rfl ?_)
    | rfl

theorem State.pmSend_kept {P : State → Prop} (hC : Closed P) {s : State} (code : Nat) (sent : Bytes) (data : Bytes) (pec : Bool)  (hP : P s) :
    P (State.pmSend s code sent data pec) := by
  unfold State.pmSend
  repeat' first
    | with_reducible assumption
    | (intro _)
    | with_reducible apply hC.send
    | with_reducible apply ite_kept
    | dsimp only
    | split
    | fail_if_no_progress (with_reducible refine hC.mk_kept rfl ?_)
    | rfl

theorem State.pmWrite_kept {P : State → Prop} (hC : Closed P) {s : State} (code : Nat) (data : Bytes) (pec : Option Byte) (act : State → Option State)  (hact : ∀ y0, P y0 → OptKeeps P (act y0)) (hP : P s) :
    P (State.pmWrite s code data pec act) := by
  unfold State.pmWrite
  repeat' first
    | with_reducible assumption
    | (intro _)
    | with_reducible apply State.latchCml_kept hC
    | with_reducible apply hC.send
    | with_reducible apply State.pmInvalid_kept hC
    | with_reducible exact optKeeps_none
    | with_reducible apply optKeeps_some
    | with_reducible apply optKeeps_map
    | with_reducible apply optKeeps_ite
    | with_reducible apply OptKeeps.getD
    | (with_reducible refine OptKeeps.kept (by with_reducible assumption) ?_)
    | with_reducible apply hact
    | with_reducible apply ite_kept
    | dsimp only
    | split
    | fail_if_no_progress (with_reducible refine hC.mk_kept rfl ?_)
    | rfl

theorem State.pmBadRead_kept {P : State → Prop} (hC : Closed P) {s : State} (code : Nat) (n : Nat) (block : Bool) (sent : Bytes) (pec : Bool)  (hP : P s) :
    P (State.pmBadRead s code n block sent pec) := by
  unfold State.pmBadRead
  repeat' first
    | with_reducible assumption
    | (intro _)
    | with_reducible apply State.pmSend_kept hC
    | with_reducible apply State.pmInvalid_kept hC
    | with_reducible apply ite_kept
    | dsimp only
    | split
    | fail_if_no_progress (with_reducible refine hC.mk_kept rfl ?_)
    | rfl

theorem State.pmCommand_kept {P : State → Prop} (hC : Closed P) {s : State} (code : Nat) (x : PmXfer) (n : Nat) (block : Bool) (rd : State → Option Bytes) (wr : Bytes → State → Option State)  (hwr : ∀ y0 y1, P y1 → OptKeeps P (wr y0 y1)) (hP : P s) :
    P (State.pmCommand s code x n block rd wr) := by
  unfold State.pmCommand
  repeat' first
    | with_reducible assumption
    | (intro _)
    | with_reducible apply State.pmWrite_kept hC
    | with_reducible apply State.pmSend_kept hC
    | with_reducible apply State.pmBadRead_kept hC
    | with_reducible exact optKeeps_none
    | with_reducible apply optKeeps_some
    | with_reducible apply optKeeps_map
    | with_reducible apply optKeeps_ite
    | with_reducible apply OptKeeps.getD
    | (with_reducible refine OptKeeps.kept (by with_reducible assumption) ?_)
    | with_reducible apply hrd
    | with_reducible apply hwr
    | with_reducible apply ite_kept
    | dsimp only
    | split
    | fail_if_no_progress (with_reducible refine hC.mk_kept rfl ?_)
    | rfl

theorem noWrite_kept {P : State → Prop} (hC : Closed P)  (e0 : Bytes) (e1 : State) (hP : P e1) :
    OptKeeps P (noWrite e0 e1) := by
  unfold noWrite
  repeat' first
    | with_reducible assumption
    | (intro _)
    | with_reducible exact optKeeps_none
    | with_reducible apply optKeeps_some
    | with_reducible apply optKeeps_map
    | with_reducible apply optKeeps_ite
    | with_reducible apply OptKeeps.getD
    | (with_reducible refine OptKeeps.kept (by with_reducible assumption) ?_)
    | dsimp only
    | split
    | fail_if_no_progress (with_reducible refine hC.mk_kept rfl ?_)
    | rfl

theorem onByte_kept {P : State → Prop} (hC : Closed P) (f : Nat → State → Option State) (e0 : Bytes) (e1 : State) (hf : ∀ y0 y1, P y1 → OptKeeps P (f y0 y1)) (hP : P e1) :
    OptKeeps P (onByte f e0 e1) := by
  unfold onByte
  repeat' first
    | with_reducible assumption
    | (intro _)
    | with_reducible exact optKeeps_none
    | with_reducible apply optKeeps_some
    | with_reducible apply optKeeps_map
    | with_reducible apply optKeeps_ite
    | with_reducible apply OptKeeps.getD
    | (with_reducible refine OptKeeps.kept (by with_reducible assumption) ?_)
    | with_reducible apply hf
    | dsimp only
    | split
    | fail_if_no_progress (with_reducible refine hC.mk_kept rfl ?_)
    | rfl

theorem onWord_kept {P : State → Prop} (hC : Closed P) (f : Nat → State → Option State) (e0 : Bytes) (e1 : State) (hf : ∀ y0 y1, P y1 → OptKeeps P (f y0 y1)) (hP : P e1) :
    OptKeeps P (onWord f e0 e1) := by
  unfold onWord
  repeat' first
    | with_reducible assumption
    | (intro _)
    | with_reducible exact optKeeps_none
    | with_reducible apply optKeeps_some
    | with_reducible apply optKeeps_map
    | with_reducible apply optKeeps_ite
    | with_reducible apply OptKeeps.getD
    | (with_reducible refine OptKeeps.kept (by with_reducible assumption) ?_)
    | with_reducible apply hf
    | dsimp only
    | split
    | fail_if_no_progress (with_reducible refine hC.mk_kept rfl ?_)
    | rfl

theorem State.loopReg_kept {P : State → Prop} (hC : Closed P) {s : State} (reg : Nat → Nat) (f : Word → Word)  (hP : P s) :
    P (State.loopReg s reg f) := by
  unfold State.loopReg
  repeat' first
    | with_reducible assumption
    | (intro _)
    | with_reducible apply hC.setReg
    | with_reducible apply State.loopHook_kept hC
    | with_reducible apply foldl_kept
    | with_reducible apply foldl_snd_kept
    | with_reducible apply foldl_fst_kept
    | dsimp only
    | split
    | fail_if_no_progress (with_reducible refine hC.mk_kept rfl ?_)
    | rfl

theorem execPage_kept {P : State → Prop} (hC : Closed P) (x : PmXfer) {s : State}  (hP : P s) :
    Res.Keeps P (execPage x s) := by
  unfold execPage
  repeat' first
    | with_reducible assumption
    | (intro _)
    | with_reducible apply Res.keeps_next
    | with_reducible apply onByte_kept hC
    | with_reducible apply State.pmCommand_kept hC
    | with_reducible apply State.updPm_kept hC
    | with_reducible exact optKeeps_none
    | with_reducible apply optKeeps_some
    | with_reducible apply optKeeps_map
    | with_reducible apply optKeeps_ite
    | with_reducible apply OptKeeps.getD
    | (with_reducible refine OptKeeps.kept (by with_reducible assumption) ?_)
    | with_reducible apply ite_kept
    | dsimp only
    | split
    | fail_if_no_progress (with_reducible refine hC.mk_kept rfl ?_)
    | rfl

theorem execOperation_kept {P : State → Prop} (hC : Closed P) (x : PmXfer) {s : State}  (hP : P s) :
    Res.Keeps P (execOperation x s) := by
  unfold execOperation
  repeat' first
    | with_reducible assumption
    | (intro _)
    | with_reducible apply Res.keeps_next
    | with_reducible apply onByte_kept hC
    | with_reducible apply State.pmCommand_kept hC
    | with_reducible apply State.loopReg_kept hC
    | with_reducible exact optKeeps_none
    | with_reducible apply optKeeps_some
    | with_reducible apply optKeeps_map
    | with_reducible apply optKeeps_ite
    | with_reducible apply OptKeeps.getD
    | (with_reducible refine OptKeeps.kept (by with_reducible assumption) ?_)
    | with_reducible apply ite_kept
    | dsimp only
    | split
    | fail_if_no_progress (with_reducible refine hC.mk_kept rfl ?_)
    | rfl

theorem execOnOffConfig_kept {P : State → Prop} (hC : Closed P) (x : PmXfer) {s : State}  (hP : P s) :
    Res.Keeps P (execOnOffConfig x s) := by
  unfold execOnOffConfig
  repeat' first
    | with_reducible assumption
    | (intro _)
    | with_reducible apply Res.keeps_next
    | with_reducible apply onByte_kept hC
    | with_reducible apply State.pmCommand_kept hC
    | with_reducible exact optKeeps_none
    | with_reducible apply optKeeps_some
    | with_reducible apply optKeeps_map
    | with_reducible apply optKeeps_ite
    | with_reducible apply OptKeeps.getD
    | (with_reducible refine OptKeeps.kept (by with_reducible assumption) ?_)
    | with_reducible apply ite_kept
    | dsimp only
    | split
    | fail_if_no_progress (with_reducible refine hC.mk_kept rfl ?_)
    | rfl

theorem execClearFaults_kept {P : State → Prop} (hC : Closed P) (x : PmXfer) {s : State}  (hP : P s) :
    Res.Keeps P (execClearFaults x s) := by
  unfold execClearFaults
  repeat' first
    | with_reducible assumption
    | (intro _)
    | with_reducible apply Res.keeps_next
    | with_reducible apply State.pmCommand_kept hC
    | with_reducible apply State.updPm_kept hC
    | with_reducible apply State.pmSettle_kept hC
    | with_reducible exact optKeeps_none
    | with_reducible apply optKeeps_some
    | with_reducible apply optKeeps_map
    | with_reducible apply optKeeps_ite
    | with_reducible apply OptKeeps.getD
    | (with_reducible refine OptKeeps.kept (by with_reducible assumption) ?_)
    | with_reducible apply foldl_kept
    | with_reducible apply foldl_snd_kept
    | with_reducible apply foldl_fst_kept
    | with_reducible apply ite_kept
    | dsimp only
    | split
    | fail_if_no_progress (with_reducible refine hC.mk_kept rfl ?_)
    | rfl

theorem execWriteProtect_kept {P : State → Prop} (hC : Closed P) (x : PmXfer) {s : State}  (hP : P s) :
    Res.Keeps P (execWriteProtect x s) := by
  unfold execWriteProtect
  repeat' first
    | with_reducible assumption
    | (intro _)
    | with_reducible apply Res.keeps_next
    | with_reducible apply onByte_kept hC
    | with_reducible apply State.pmCommand_kept hC
    | with_reducible apply State.updPm_kept hC
    | with_reducible exact optKeeps_none
    | with_reducible apply optKeeps_some
    | with_reducible apply optKeeps_map
    | with_reducible apply optKeeps_ite
    | with_reducible apply OptKeeps.getD
    | (with_reducible refine OptKeeps.kept (by with_reducible assumption) ?_)
    | with_reducible apply ite_kept
    | dsimp only
    | split
    | fail_if_no_progress (with_reducible refine hC.mk_kept rfl ?_)
    | rfl

theorem execCapability_kept {P : State → Prop} (hC : Closed P) (x : PmXfer) {s : State}  (hP : P s) :
    Res.Keeps P (execCapability x s) := by
  unfold execCapability
  repeat' first
    | with_reducible assumption
    | (intro _)
    | with_reducible apply Res.keeps_next
    | with_reducible apply noWrite_kept hC
    | with_reducible apply State.pmCommand_kept hC
    | with_reducible exact optKeeps_none
    | with_reducible apply optKeeps_some
    | with_reducible apply optKeeps_map
    | with_reducible apply optKeeps_ite
    | with_reducible apply OptKeeps.getD
    | (with_reducible refine OptKeeps.kept (by with_reducible assumption) ?_)
    | dsimp only
    | split
    | fail_if_no_progress (with_reducible refine hC.mk_kept rfl ?_)
    | rfl

theorem execVoutMode_kept {P : State → Prop} (hC : Closed P) (x : PmXfer) {s : State}  (hP : P s) :
    Res.Keeps P (execVoutMode x s) := by
  unfold execVoutMode
  repeat' first
    | with_reducible assumption
    | (intro _)
    | with_reducible apply Res.keeps_next
    | with_reducible apply noWrite_kept hC
    | with_reducible apply State.pmCommand_kept hC
    | with_reducible exact optKeeps_none
    | with_reducible apply optKeeps_some
    | with_reducible apply optKeeps_map
    | with_reducible apply optKeeps_ite
    | with_reducible apply OptKeeps.getD
    | (with_reducible refine OptKeeps.kept (by with_reducible assumption) ?_)
    | dsimp only
    | split
    | fail_if_no_progress (with_reducible refine hC.mk_kept rfl ?_)
    | rfl

theorem State.pmVolts_kept {P : State → Prop} (hC : Closed P) {s : State} (code : Nat) (x : PmXfer) (reg : Nat → Nat) (f : Nat → Fld)  (hP : P s) :
    P (State.pmVolts s code x reg f) := by
  unfold State.pmVolts
  repeat' first
    | with_reducible assumption
    | (intro _)
    | with_reducible apply onWord_kept hC
    | with_reducible apply State.pmCommand_kept hC
    | with_reducible apply State.loopReg_kept hC
    | with_reducible exact optKeeps_none
    | with_reducible apply optKeeps_some
    | with_reducible apply optKeeps_map
    | with_reducible apply optKeeps_ite
    | with_reducible apply OptKeeps.getD
    | (with_reducible refine OptKeeps.kept (by with_reducible assumption) ?_)
    | dsimp only
    | split
    | fail_if_no_progress (with_reducible refine hC.mk_kept rfl ?_)
    | rfl

theorem execVoutCommand_kept {P : State → Prop} (hC : Closed P) (x : PmXfer) {s : State}  (hP : P s) :
    Res.Keeps P (execVoutCommand x s) := by
  unfold execVoutCommand
  repeat' first
    | with_reducible assumption
    | (intro _)
    | with_reducible apply Res.keeps_next
    | with_reducible apply State.pmVolts_kept hC
    | dsimp only
    | split
    | fail_if_no_progress (with_reducible refine hC.mk_kept rfl ?_)
    | rfl

theorem execVoutMax_kept {P : State → Prop} (hC : Closed P) (x : PmXfer) {s : State}  (hP : P s) :
    Res.Keeps P (execVoutMax x s) := by
  unfold execVoutMax
  repeat' first
    | with_reducible assumption
    | (intro _)
    | with_reducible apply Res.keeps_next
    | with_reducible apply State.pmVolts_kept hC
    | dsimp only
    | split
    | fail_if_no_progress (with_reducible refine hC.mk_kept rfl ?_)
    | rfl

theorem execVoutMin_kept {P : State → Prop} (hC : Closed P) (x : PmXfer) {s : State}  (hP : P s) :
    Res.Keeps P (execVoutMin x s) := by
  unfold execVoutMin
  repeat' first
    | with_reducible assumption
    | (intro _)
    | with_reducible apply Res.keeps_next
    | with_reducible apply State.pmVolts_kept hC
    | dsimp only
    | split
    | fail_if_no_progress (with_reducible refine hC.mk_kept rfl ?_)
    | rfl

theorem execVoutTransitionRate_kept {P : State → Prop} (hC : Closed P) (x : PmXfer) {s : State}  (hP : P s) :
    Res.Keeps P (execVoutTransitionRate x s) := by
  unfold execVoutTransitionRate
  repeat' first
    | with_reducible assumption
    | (intro _)
    | with_reducible apply Res.keeps_next
    | with_reducible apply onWord_kept hC
    | with_reducible apply State.pmCommand_kept hC
    | with_reducible apply State.loopReg_kept hC
    | with_reducible exact optKeeps_none
    | with_reducible apply optKeeps_some
    | with_reducible apply optKeeps_map
    | with_reducible apply optKeeps_ite
    | with_reducible apply OptKeeps.getD
    | (with_reducible refine OptKeeps.kept (by with_reducible assumption) ?_)
    | dsimp only
    | split
    | fail_if_no_progress (with_reducible refine hC.mk_kept rfl ?_)
    | rfl

theorem execVoutOvFaultLimit_kept {P : State → Prop} (hC : Closed P) (x : PmXfer) {s : State}  (hP : P s) :
    Res.Keeps P (execVoutOvFaultLimit x s) := by
  unfold execVoutOvFaultLimit
  repeat' first
    | with_reducible assumption
    | (intro _)
    | with_reducible apply Res.keeps_next
    | with_reducible apply State.pmVolts_kept hC
    | dsimp only
    | split
    | fail_if_no_progress (with_reducible refine hC.mk_kept rfl ?_)
    | rfl

theorem execVoutUvFaultLimit_kept {P : State → Prop} (hC : Closed P) (x : PmXfer) {s : State}  (hP : P s) :
    Res.Keeps P (execVoutUvFaultLimit x s) := by
  unfold execVoutUvFaultLimit
  repeat' first
    | with_reducible assumption
    | (intro _)
    | with_reducible apply Res.keeps_next
    | with_reducible apply State.pmVolts_kept hC
    | dsimp only
    | split
    | fail_if_no_progress (with_reducible refine hC.mk_kept rfl ?_)
    | rfl

theorem State.clearSums_kept {P : State → Prop} (hC : Closed P) {s : State} (v : Nat)  (hP : P s) :
    P (State.clearSums s v) := by
  unfold State.clearSums
  repeat' first
    | with_reducible assumption
    | (intro _)
    | with_reducible apply State.updPm_kept hC
    | with_reducible apply State.pmSettle_kept hC
    | with_reducible apply foldl_kept
    | with_reducible apply foldl_snd_kept
    | with_reducible apply foldl_fst_kept
    | with_reducible apply ite_kept
    | dsimp only
    | split
    | fail_if_no_progress (with_reducible refine hC.mk_kept rfl ?_)
    | rfl

theorem execStatusByte_kept {P : State → Prop} (hC : Closed P) (x : PmXfer) {s : State}  (hP : P s) :
    Res.Keeps P (execStatusByte x s) := by
  unfold execStatusByte
  repeat' first
    | with_reducible assumption
    | (intro _)
    | with_reducible apply Res.keeps_next
    | with_reducible apply State.clearSums_kept hC
    | with_reducible apply onByte_kept hC
    | with_reducible apply State.pmCommand_kept hC
    | with_reducible apply State.updPm_kept hC
    | with_reducible apply State.pmSettle_kept hC
    | with_reducible exact optKeeps_none
    | with_reducible apply optKeeps_some
    | with_reducible apply optKeeps_map
    | with_reducible apply optKeeps_ite
    | with_reducible apply OptKeeps.getD
    | (with_reducible refine OptKeeps.kept (by with_reducible assumption) ?_)
    | with_reducible apply ite_kept
    | dsimp only
    | split
    | fail_if_no_progress (with_reducible refine hC.mk_kept rfl ?_)
    | rfl

theorem execStatusWord_kept {P : State → Prop} (hC : Closed P) (x : PmXfer) {s : State}  (hP : P s) :
    Res.Keeps P (execStatusWord x s) := by
  unfold execStatusWord
  repeat' first
    | with_reducible assumption
    | (intro _)
    | with_reducible apply Res.keeps_next
    | with_reducible apply State.clearSums_kept hC
    | with_reducible apply onWord_kept hC
    | with_reducible apply State.pmCommand_kept hC
    | with_reducible apply State.updPm_kept hC
    | with_reducible apply State.pmSettle_kept hC
    | with_reducible exact optKeeps_none
    | with_reducible apply optKeeps_some
    | with_reducible apply optKeeps_map
    | with_reducible apply optKeeps_ite
    | with_reducible apply OptKeeps.getD
    | (with_reducible refine OptKeeps.kept (by with_reducible assumption) ?_)
    | with_reducible apply ite_kept
    | dsimp only
    | split
    | fail_if_no_progress (with_reducible refine hC.mk_kept rfl ?_)
    | rfl

theorem State.pmStatus_kept {P : State → Prop} (hC : Closed P) {s : State} (code : Nat) (x : PmXfer) (get : PmSt → Tab Byte) (put : PmSt → Tab Byte → PmSt) (extra : State → Byte)  (hP : P s) :
    P (State.pmStatus s code x get put extra) := by
  unfold State.pmStatus
  repeat' first
    | with_reducible assumption
    | (intro _)
    | with_reducible apply onByte_kept hC
    | with_reducible apply State.pmCommand_kept hC
    | with_reducible apply State.updPm_kept hC
    | with_reducible apply State.pmSettle_kept hC
    | with_reducible exact optKeeps_none
    | with_reducible apply optKeeps_some
    | with_reducible apply optKeeps_map
    | with_reducible apply optKeeps_ite
    | with_reducible apply OptKeeps.getD
    | (with_reducible refine OptKeeps.kept (by with_reducible assumption) ?_)
    | with_reducible apply foldl_kept
    | with_reducible apply foldl_snd_kept
    | with_reducible apply foldl_fst_kept
    | with_reducible apply hextra
    | dsimp only
    | split
    | fail_if_no_progress (with_reducible refine hC.mk_kept rfl ?_)
    | rfl

theorem execStatusVout_kept {P : State → Prop} (hC : Closed P) (x : PmXfer) {s : State}  (hP : P s) :
    Res.Keeps P (execStatusVout x s) := by
  unfold execStatusVout
  repeat' first
    | with_reducible assumption
    | (intro _)
    | with_reducible apply Res.keeps_next
    | with_reducible apply State.pmStatus_kept hC
    | dsimp only
    | split
    | fail_if_no_progress (with_reducible refine hC.mk_kept rfl ?_)
    | rfl

theorem execStatusIout_kept {P : State → Prop} (hC : Closed P) (x : PmXfer) {s : State}  (hP : P s) :
    Res.Keeps P (execStatusIout x s) := by
  unfold execStatusIout
  repeat' first
    | with_reducible assumption
    | (intro _)
    | with_reducible apply Res.keeps_next
    | with_reducible apply State.pmStatus_kept hC
    | dsimp only
    | split
    | fail_if_no_progress (with_reducible refine hC.mk_kept rfl ?_)
    | rfl

theorem execStatusTemperature_kept {P : State → Prop} (hC : Closed P) (x : PmXfer) {s : State}  (hP : P s) :
    Res.Keeps P (execStatusTemperature x s) := by
  unfold execStatusTemperature
  repeat' first
    | with_reducible assumption
    | (intro _)
    | with_reducible apply Res.keeps_next
    | with_reducible apply State.pmStatus_kept hC
    | dsimp only
    | split
    | fail_if_no_progress (with_reducible refine hC.mk_kept rfl ?_)
    | rfl

theorem execStatusCml_kept {P : State → Prop} (hC : Closed P) (x : PmXfer) {s : State}  (hP : P s) :
    Res.Keeps P (execStatusCml x s) := by
  unfold execStatusCml
  repeat' first
    | with_reducible assumption
    | (intro _)
    | with_reducible apply Res.keeps_next
    | with_reducible apply onByte_kept hC
    | with_reducible apply State.pmCommand_kept hC
    | with_reducible apply State.updPm_kept hC
    | with_reducible apply State.pmSettle_kept hC
    | with_reducible exact optKeeps_none
    | with_reducible apply optKeeps_some
    | with_reducible apply optKeeps_map
    | with_reducible apply optKeeps_ite
    | with_reducible apply OptKeeps.getD
    | (with_reducible refine OptKeeps.kept (by with_reducible assumption) ?_)
    | dsimp only
    | split
    | fail_if_no_progress (with_reducible refine hC.mk_kept rfl ?_)
    | rfl

theorem execStatusMfrSpecific_kept {P : State → Prop} (hC : Closed P) (x : PmXfer) {s : State}  (hP : P s) :
    Res.Keeps P (execStatusMfrSpecific x s) := by
  unfold execStatusMfrSpecific
  repeat' first
    | with_reducible assumption
    | (intro _)
    | with_reducible apply Res.keeps_next
    | with_reducible apply State.pmStatus_kept hC
    | dsimp only
    | split
    | fail_if_no_progress (with_reducible refine hC.mk_kept rfl ?_)
    | rfl

theorem execReadEout_kept {P : State → Prop} (hC : Closed P) (x : PmXfer) {s : State}  (hP : P s) :
    Res.Keeps P (execReadEout x s) := by
  unfold execReadEout
  repeat' first
    | with_reducible assumption
    | (intro _)
    | with_reducible apply Res.keeps_next
    | with_reducible apply noWrite_kept hC
    | with_reducible apply State.pmCommand_kept hC
    | with_reducible exact optKeeps_none
    | with_reducible apply optKeeps_some
    | with_reducible apply optKeeps_map
    | with_reducible apply optKeeps_ite
    | with_reducible apply OptKeeps.getD
    | (with_reducible refine OptKeeps.kept (by with_reducible assumption) ?_)
    | dsimp only
    | split
    | fail_if_no_progress (with_reducible refine hC.mk_kept rfl ?_)
    | rfl

theorem execReadVout_kept {P : State → Prop} (hC : Closed P) (x : PmXfer) {s : State}  (hP : P s) :
    Res.Keeps P (execReadVout x s) := by
  unfold execReadVout
  repeat' first
    | with_reducible assumption
    | (intro _)
    | with_reducible apply Res.keeps_next
    | with_reducible apply noWrite_kept hC
    | with_reducible apply State.pmCommand_kept hC
    | with_reducible exact optKeeps_none
    | with_reducible apply optKeeps_some
    | with_reducible apply optKeeps_map
    | with_reducible apply optKeeps_ite
    | with_reducible apply OptKeeps.getD
    | (with_reducible refine OptKeeps.kept (by with_reducible assumption) ?_)
    | dsimp only
    | split
    | fail_if_no_progress (with_reducible refine hC.mk_kept rfl ?_)
    | rfl

theorem execReadIout_kept {P : State → Prop} (hC : Closed P) (x : PmXfer) {s : State}  (hP : P s) :
    Res.Keeps P (execReadIout x s) := by
  unfold execReadIout
  repeat' first
    | with_reducible assumption
    | (intro _)
    | with_reducible apply Res.keeps_next
    | with_reducible apply noWrite_kept hC
    | with_reducible apply State.pmCommand_kept hC
    | with_reducible exact optKeeps_none
    | with_reducible apply optKeeps_some
    | with_reducible apply optKeeps_map
    | with_reducible apply optKeeps_ite
    | with_reducible apply OptKeeps.getD
    | (with_reducible refine OptKeeps.kept (by with_reducible assumption) ?_)
    | dsimp only
    | split
    | fail_if_no_progress (with_reducible refine hC.mk_kept rfl ?_)
    | rfl

theorem execReadTemperature1_kept {P : State → Prop} (hC : Closed P) (x : PmXfer) {s : State}  (hP : P s) :
    Res.Keeps P (execReadTemperature1 x s) := by
  unfold execReadTemperature1
  repeat' first
    | with_reducible assumption
    | (intro _)
    | with_reducible apply Res.keeps_next
    | with_reducible apply noWrite_kept hC
    | with_reducible apply State.pmCommand_kept hC
    | with_reducible exact optKeeps_none
    | with_reducible apply optKeeps_some
    | with_reducible apply optKeeps_map
    | with_reducible apply optKeeps_ite
    | with_reducible apply OptKeeps.getD
    | (with_reducible refine OptKeeps.kept (by with_reducible assumption) ?_)
    | dsimp only
    | split
    | fail_if_no_progress (with_reducible refine hC.mk_kept rfl ?_)
    | rfl

theorem execReadPout_kept {P : State → Prop} (hC : Closed P) (x : PmXfer) {s : State}  (hP : P s) :
    Res.Keeps P (execReadPout x s) := by
  unfold execReadPout
  repeat' first
    | with_reducible assumption
    | (intro _)
    | with_reducible apply Res.keeps_next
    | with_reducible apply noWrite_kept hC
    | with_reducible apply State.pmCommand_kept hC
    | with_reducible exact optKeeps_none
    | with_reducible apply optKeeps_some
    | with_reducible apply optKeeps_map
    | with_reducible apply optKeeps_ite
    | with_reducible apply OptKeeps.getD
    | (with_reducible refine OptKeeps.kept (by with_reducible assumption) ?_)
    | dsimp only
    | split
    | fail_if_no_progress (with_reducible refine hC.mk_kept rfl ?_)
    | rfl

theorem execPmbusRevision_kept {P : State → Prop} (hC : Closed P) (x : PmXfer) {s : State}  (hP : P s) :
    Res.Keeps P (execPmbusRevision x s) := by
  unfold execPmbusRevision
  repeat' first
    | with_reducible assumption
    | (intro _)
    | with_reducible apply Res.keeps_next
    | with_reducible apply noWrite_kept hC
    | with_reducible apply State.pmCommand_kept hC
    | with_reducible exact optKeeps_none
    | with_reducible apply optKeeps_some
    | with_reducible apply optKeeps_map
    | with_reducible apply optKeeps_ite
    | with_reducible apply OptKeeps.getD
    | (with_reducible refine OptKeeps.kept (by with_reducible assumption) ?_)
    | dsimp only
    | split
    | fail_if_no_progress (with_reducible refine hC.mk_kept rfl ?_)
    | rfl

theorem execMfrId_kept {P : State → Prop} (hC : Closed P) (x : PmXfer) {s : State}  (hP : P s) :
    Res.Keeps P (execMfrId x s) := by
  unfold execMfrId
  repeat' first
    | with_reducible assumption
    | (intro _)
    | with_reducible apply Res.keeps_next
    | with_reducible apply noWrite_kept hC
    | with_reducible apply State.pmCommand_kept hC
    | with_reducible exact optKeeps_none
    | with_reducible apply optKeeps_some
    | with_reducible apply optKeeps_map
    | with_reducible apply optKeeps_ite
    | with_reducible apply OptKeeps.getD
    | (with_reducible refine OptKeeps.kept (by with_reducible assumption) ?_)
    | dsimp only
    | split
    | fail_if_no_progress (with_reducible refine hC.mk_kept rfl ?_)
    | rfl

theorem execMfrModel_kept {P : State → Prop} (hC : Closed P) (x : PmXfer) {s : State}  (hP : P s) :
    Res.Keeps P (execMfrModel x s) := by
  unfold execMfrModel
  repeat' first
    | with_reducible assumption
    | (intro _)
    | with_reducible apply Res.keeps_next
    | with_reducible apply noWrite_kept hC
    | with_reducible apply State.pmCommand_kept hC
    | with_reducible exact optKeeps_none
    | with_reducible apply optKeeps_some
    | with_reducible apply optKeeps_map
    | with_reducible apply optKeeps_ite
    | with_reducible apply OptKeeps.getD
    | (with_reducible refine OptKeeps.kept (by with_reducible assumption) ?_)
    | dsimp only
    | split
    | fail_if_no_progress (with_reducible refine hC.mk_kept rfl ?_)
    | rfl

theorem execMfrRevision_kept {P : State → Prop} (hC : Closed P) (x : PmXfer) {s : State}  (hP : P s) :
    Res.Keeps P (execMfrRevision x s) := by
  unfold execMfrRevision
  repeat' first
    | with_reducible assumption
    | (intro _)
    | with_reducible apply Res.keeps_next
    | with_reducible apply noWrite_kept hC
    | with_reducible apply State.pmCommand_kept hC
    | with_reducible exact optKeeps_none
    | with_reducible apply optKeeps_some
    | with_reducible apply optKeeps_map
    | with_reducible apply optKeeps_ite
    | with_reducible apply OptKeeps.getD
    | (with_reducible refine OptKeeps.kept (by with_reducible assumption) ?_)
    | dsimp only
    | split
    | fail_if_no_progress (with_reducible refine hC.mk_kept rfl ?_)
    | rfl

theorem execMfrRegRead_kept {P : State → Prop} (hC : Closed P) (x : PmXfer) {s : State}  (hP : P s) :
    Res.Keeps P (execMfrRegRead x s) := by
  unfold execMfrRegRead
  repeat' first
    | with_reducible assumption
    | (intro _)
    | with_reducible apply Res.keeps_next
    | with_reducible apply noWrite_kept hC
    | with_reducible apply State.pmBadRead_kept hC
    | with_reducible apply State.busRead_kept hC
    | with_reducible apply State.pmSend_kept hC
    | with_reducible apply State.pmCommand_kept hC
    | with_reducible exact optKeeps_none
    | with_reducible apply optKeeps_some
    | with_reducible apply optKeeps_map
    | with_reducible apply optKeeps_ite
    | with_reducible apply OptKeeps.getD
    | (with_reducible refine OptKeeps.kept (by with_reducible assumption) ?_)
    | with_reducible apply ite_kept
    | dsimp only
    | split
    | fail_if_no_progress (with_reducible refine hC.mk_kept rfl ?_)
    | rfl

theorem execMfrRegWrite_kept {P : State → Prop} (hC : Closed P) (x : PmXfer) {s : State}  (hP : P s) :
    Res.Keeps P (execMfrRegWrite x s) := by
  unfold execMfrRegWrite
  repeat' first
    | with_reducible assumption
    | (intro _)
    | with_reducible apply Res.keeps_next
    | with_reducible apply State.pmCommand_kept hC
    | with_reducible apply State.busWrite_kept hC
    | with_reducible apply State.updPm_kept hC
    | with_reducible exact optKeeps_none
    | with_reducible apply optKeeps_some
    | with_reducible apply optKeeps_map
    | with_reducible apply optKeeps_ite
    | with_reducible apply OptKeeps.getD
    | (with_reducible refine OptKeeps.kept (by with_reducible assumption) ?_)
    | with_reducible apply ite_kept
    | dsimp only
    | split
    | fail_if_no_progress (with_reducible refine hC.mk_kept rfl ?_)
    | rfl

theorem execMfrGovEvent_kept {P : State → Prop} (hC : Closed P) (x : PmXfer) {s : State}  (hP : P s) :
    Res.Keeps P (execMfrGovEvent x s) := by
  unfold execMfrGovEvent
  repeat' first
    | with_reducible assumption
    | (intro _)
    | with_reducible apply Res.keeps_next
    | with_reducible apply noWrite_kept hC
    | with_reducible apply State.pmCommand_kept hC
    | with_reducible exact optKeeps_none
    | with_reducible apply optKeeps_some
    | with_reducible apply optKeeps_map
    | with_reducible apply optKeeps_ite
    | with_reducible apply OptKeeps.getD
    | (with_reducible refine OptKeeps.kept (by with_reducible assumption) ?_)
    | with_reducible apply ite_kept
    | dsimp only
    | split
    | fail_if_no_progress (with_reducible refine hC.mk_kept rfl ?_)
    | rfl

theorem execMfrBat_kept {P : State → Prop} (hC : Closed P) (x : PmXfer) {s : State}  (hP : P s) :
    Res.Keeps P (execMfrBat x s) := by
  unfold execMfrBat
  repeat' first
    | with_reducible assumption
    | (intro _)
    | with_reducible apply Res.keeps_next
    | with_reducible apply noWrite_kept hC
    | with_reducible apply State.pmCommand_kept hC
    | with_reducible exact optKeeps_none
    | with_reducible apply optKeeps_some
    | with_reducible apply optKeeps_map
    | with_reducible apply optKeeps_ite
    | with_reducible apply OptKeeps.getD
    | (with_reducible refine OptKeeps.kept (by with_reducible assumption) ?_)
    | dsimp only
    | split
    | fail_if_no_progress (with_reducible refine hC.mk_kept rfl ?_)
    | rfl

theorem execMfrPhases_kept {P : State → Prop} (hC : Closed P) (x : PmXfer) {s : State}  (hP : P s) :
    Res.Keeps P (execMfrPhases x s) := by
  unfold execMfrPhases
  repeat' first
    | with_reducible assumption
    | (intro _)
    | with_reducible apply Res.keeps_next
    | with_reducible apply noWrite_kept hC
    | with_reducible apply State.pmCommand_kept hC
    | with_reducible exact optKeeps_none
    | with_reducible apply optKeeps_some
    | with_reducible apply optKeeps_map
    | with_reducible apply optKeeps_ite
    | with_reducible apply OptKeeps.getD
    | (with_reducible refine OptKeeps.kept (by with_reducible assumption) ?_)
    | with_reducible apply foldl_kept
    | with_reducible apply foldl_snd_kept
    | with_reducible apply foldl_fst_kept
    | dsimp only
    | split
    | fail_if_no_progress (with_reducible refine hC.mk_kept rfl ?_)
    | rfl

theorem execMfrReady_kept {P : State → Prop} (hC : Closed P) (x : PmXfer) {s : State}  (hP : P s) :
    Res.Keeps P (execMfrReady x s) := by
  unfold execMfrReady
  repeat' first
    | with_reducible assumption
    | (intro _)
    | with_reducible apply Res.keeps_next
    | with_reducible apply noWrite_kept hC
    | with_reducible apply State.pmCommand_kept hC
    | with_reducible exact optKeeps_none
    | with_reducible apply optKeeps_some
    | with_reducible apply optKeeps_map
    | with_reducible apply optKeeps_ite
    | with_reducible apply OptKeeps.getD
    | (with_reducible refine OptKeeps.kept (by with_reducible assumption) ?_)
    | dsimp only
    | split
    | fail_if_no_progress (with_reducible refine hC.mk_kept rfl ?_)
    | rfl

theorem State.pmPost_kept {P : State → Prop} (hC : Closed P) {s : State} (code : Nat) (data : Bytes) (h : PmHold)  (hP : P s) :
    P (State.pmPost s code data h) := by
  unfold State.pmPost
  repeat' first
    | with_reducible assumption
    | (intro _)
    | with_reducible apply State.setRegBytes_kept hC
    | with_reducible apply hC.setReg
    | with_reducible apply State.updPm_kept hC
    | with_reducible apply State.event_kept hC
    | with_reducible apply ite_kept
    | dsimp only
    | split
    | fail_if_no_progress (with_reducible refine hC.mk_kept rfl ?_)
    | rfl

theorem execMfrProg_kept {P : State → Prop} (hC : Closed P) (i : Fin 16) (x : PmXfer) {s : State}  (hP : P s) :
    Res.Keeps P (execMfrProg i x s) := by
  unfold execMfrProg
  repeat' first
    | with_reducible assumption
    | (intro _)
    | with_reducible apply Res.keeps_next
    | with_reducible apply State.latchBusy_kept hC
    | with_reducible apply hC.send
    | with_reducible apply State.pmWrite_kept hC
    | with_reducible apply State.pmPost_kept hC
    | with_reducible apply State.pmBadRead_kept hC
    | with_reducible exact optKeeps_none
    | with_reducible apply optKeeps_some
    | with_reducible apply optKeeps_map
    | with_reducible apply optKeeps_ite
    | with_reducible apply OptKeeps.getD
    | (with_reducible refine OptKeeps.kept (by with_reducible assumption) ?_)
    | with_reducible apply ite_kept
    | dsimp only
    | split
    | fail_if_no_progress (with_reducible refine hC.mk_kept rfl ?_)
    | rfl

theorem execInvalidCommand_kept {P : State → Prop} (hC : Closed P) (code : Byte) {s : State}  (hP : P s) :
    Res.Keeps P (execInvalidCommand code s) := by
  unfold execInvalidCommand
  repeat' first
    | with_reducible assumption
    | (intro _)
    | with_reducible apply Res.keeps_next
    | with_reducible apply State.latchCml_kept hC
    | with_reducible apply hC.send
    | with_reducible apply ite_kept
    | dsimp only
    | split
    | fail_if_no_progress (with_reducible refine hC.mk_kept rfl ?_)
    | rfl

theorem execAlertResponse_kept {P : State → Prop} (hC : Closed P) {s : State}  (hP : P s) :
    Res.Keeps P (execAlertResponse s) := by
  unfold execAlertResponse
  repeat' first
    | with_reducible assumption
    | (intro _)
    | with_reducible apply Res.keeps_next
    | with_reducible apply State.updPm_kept hC
    | with_reducible apply hC.send
    | with_reducible apply ite_kept
    | dsimp only
    | split
    | fail_if_no_progress (with_reducible refine hC.mk_kept rfl ?_)
    | rfl

end Sys2Proof.Machine
end

