-- ==== Sys2Proof/Laws/KeptRegCmds.lean ====
section
/-! SUPPORT. The definitions of Machine/RegCmds.lean keep every property that `Closed` describes. -/

namespace Sys2Proof.Machine

theorem execRegisterWrite_kept {P : State → Prop} (hC : Closed P) (req : Req) (tgt : Target) (bytes : Fin 513) (v : BitVec 4096) {s : State}  (hP : P s) :
    Res.Keeps P (execRegisterWrite req tgt bytes v s) := by
  unfold execRegisterWrite
  repeat' first
    | with_reducible assumption
    | (intro _)
    | with_reducible apply Res.keeps_next
    | with_reducible apply hC.send
    | with_reducible apply State.accWrite_kept hC
    | with_reducible apply ite_kept
    | dsimp only
    | split
    | fail_if_no_progress (with_reducible refine hC.mk_kept rfl ?_)
    | rfl

theorem State.readOut_kept {P : State → Prop} (hC : Closed P) {s : State} (req : Req) (tgt : Target) (n : Nat)  (hP : P s) :
    P (State.readOut s req tgt n) := by
  unfold State.readOut
  repeat' first
    | with_reducible assumption
    | (intro _)
    | with_reducible apply State.memRead_kept hC
    | with_reducible apply State.accRead_kept hC
    | with_reducible apply hC.send
    | with_reducible apply ite_kept
    | dsimp only
    | split
    | fail_if_no_progress (with_reducible refine hC.mk_kept rfl ?_)
    | rfl

theorem execLoRead_kept {P : State → Prop} (hC : Closed P) (req : Req) (x : Stretch) {s : State}  (hP : P s) :
    Res.Keeps P (execLoRead req x s) := by
  unfold execLoRead
  repeat' first
    | with_reducible assumption
    | (intro _)
    | with_reducible apply Res.keeps_next
    | with_reducible apply State.readOut_kept hC
    | dsimp only
    | split
    | fail_if_no_progress (with_reducible refine hC.mk_kept rfl ?_)
    | rfl

theorem execHiRead_kept {P : State → Prop} (hC : Closed P) (req : Req) (tgt : Target) {s : State}  (hP : P s) :
    Res.Keeps P (execHiRead req tgt s) := by
  unfold execHiRead
  repeat' first
    | with_reducible assumption
    | (intro _)
    | with_reducible apply Res.keeps_next
    | with_reducible apply State.readOut_kept hC
    | dsimp only
    | split
    | fail_if_no_progress (with_reducible refine hC.mk_kept rfl ?_)
    | rfl

theorem State.writeIn_kept {P : State → Prop} (hC : Closed P) {s : State} (req : Req) (tgt : Target) (v : Word)  (hP : P s) :
    P (State.writeIn s req tgt v) := by
  unfold State.writeIn
  repeat' first
    | with_reducible assumption
    | (intro _)
    | with_reducible apply State.accWrite_kept hC
    | with_reducible apply ite_kept
    | dsimp only
    | split
    | fail_if_no_progress (with_reducible refine hC.mk_kept rfl ?_)
    | rfl

theorem execLoWrite_kept {P : State → Prop} (hC : Closed P) (req : Req) (tgt : Target) (v : Word) {s : State}  (hP : P s) :
    Res.Keeps P (execLoWrite req tgt v s) := by
  unfold execLoWrite
  repeat' first
    | with_reducible assumption
    | (intro _)
    | with_reducible apply Res.keeps_next
    | with_reducible apply State.writeIn_kept hC
    | dsimp only
    | split
    | fail_if_no_progress (with_reducible refine hC.mk_kept rfl ?_)
    | rfl

theorem execHiWrite_kept {P : State → Prop} (hC : Closed P) (req : Req) (tgt : Target) (v : Word) {s : State}  (hP : P s) :
    Res.Keeps P (execHiWrite req tgt v s) := by
  unfold execHiWrite
  repeat' first
    | with_reducible assumption
    | (intro _)
    | with_reducible apply Res.keeps_next
    | with_reducible apply State.writeIn_kept hC
    | dsimp only
    | split
    | fail_if_no_progress (with_reducible refine hC.mk_kept rfl ?_)
    | rfl

theorem State.regDo_kept {P : State → Prop} (hC : Closed P) {s : State} (req : Req) (off : Nat) (w : Word)  (hP : P s) :
    P (State.regDo s req off w) := by
  unfold State.regDo
  repeat' first
    | with_reducible assumption
    | (intro _)
    | with_reducible apply State.winWrite_kept hC
    | with_reducible apply ite_kept
    | dsimp only
    | split
    | fail_if_no_progress (with_reducible refine hC.mk_kept rfl ?_)
    | rfl

theorem State.fldDo_kept {P : State → Prop} (hC : Closed P) {s : State} (req : Req) (f : Fld) (v : Nat)  (hP : P s) :
    P (State.fldDo s req f v) := by
  unfold State.fldDo
  repeat' first
    | with_reducible assumption
    | (intro _)
    | with_reducible apply State.regDo_kept hC
    | dsimp only
    | split
    | fail_if_no_progress (with_reducible refine hC.mk_kept rfl ?_)
    | rfl

theorem State.regAsk_kept {P : State → Prop} (hC : Closed P) {s : State} (req : Req) (off : Nat)  (hP : P s) :
    P (State.regAsk s req off) := by
  unfold State.regAsk
  repeat' first
    | with_reducible assumption
    | (intro _)
    | with_reducible apply State.winRead_kept hC
    | with_reducible apply hC.send
    | with_reducible apply ite_kept
    | dsimp only
    | split
    | fail_if_no_progress (with_reducible refine hC.mk_kept rfl ?_)
    | rfl

theorem execRtcSecWrite_kept {P : State → Prop} (hC : Closed P) (req : Req) (lo : Word) (hi : Word) {s : State}  (hP : P s) :
    Res.Keeps P (execRtcSecWrite req lo hi s) := by
  unfold execRtcSecWrite
  repeat' first
    | with_reducible assumption
    | (intro _)
    | with_reducible apply Res.keeps_next
    | with_reducible apply State.regDo_kept hC
    | dsimp only
    | split
    | fail_if_no_progress (with_reducible refine hC.mk_kept rfl ?_)
    | rfl

theorem execWakeCfgWrite_kept {P : State → Prop} (hC : Closed P) (req : Req) (n : Fin 8) (v : Word) {s : State}  (hP : P s) :
    Res.Keeps P (execWakeCfgWrite req n v s) := by
  unfold execWakeCfgWrite
  repeat' first
    | with_reducible assumption
    | (intro _)
    | with_reducible apply Res.keeps_next
    | with_reducible apply State.regDo_kept hC
    | dsimp only
    | split
    | fail_if_no_progress (with_reducible refine hC.mk_kept rfl ?_)
    | rfl

theorem execVbatCmpWrite_kept {P : State → Prop} (hC : Closed P) (req : Req) (v : Word) {s : State}  (hP : P s) :
    Res.Keeps P (execVbatCmpWrite req v s) := by
  unfold execVbatCmpWrite
  repeat' first
    | with_reducible assumption
    | (intro _)
    | with_reducible apply Res.keeps_next
    | with_reducible apply State.regDo_kept hC
    | dsimp only
    | split
    | fail_if_no_progress (with_reducible refine hC.mk_kept rfl ?_)
    | rfl

theorem execStandbyEntry_kept {P : State → Prop} (hC : Closed P) (req : Req) {s : State}  (hP : P s) :
    Res.Keeps P (execStandbyEntry req s) := by
  unfold execStandbyEntry
  repeat' first
    | with_reducible assumption
    | (intro _)
    | with_reducible apply Res.keeps_next
    | with_reducible apply State.regDo_kept hC
    | dsimp only
    | split
    | fail_if_no_progress (with_reducible refine hC.mk_kept rfl ?_)
    | rfl

theorem execRramDataAccess_kept {P : State → Prop} (hC : Closed P) (req : Req) (wr : Option Word) {s : State}  (hP : P s) :
    Res.Keeps P (execRramDataAccess req wr s) := by
  unfold execRramDataAccess
  repeat' first
    | with_reducible assumption
    | (intro _)
    | with_reducible apply Res.keeps_next
    | with_reducible apply State.regDo_kept hC
    | with_reducible apply State.regAsk_kept hC
    | dsimp only
    | split
    | fail_if_no_progress (with_reducible refine hC.mk_kept rfl ?_)
    | rfl

theorem execRramEccInjArm_kept {P : State → Prop} (hC : Closed P) (req : Req) (inj : BitVec 2) {s : State}  (hP : P s) :
    Res.Keeps P (execRramEccInjArm req inj s) := by
  unfold execRramEccInjArm
  repeat' first
    | with_reducible assumption
    | (intro _)
    | with_reducible apply Res.keeps_next
    | with_reducible apply State.fldDo_kept hC
    | dsimp only
    | split
    | fail_if_no_progress (with_reducible refine hC.mk_kept rfl ?_)
    | rfl

theorem execStageGo_kept {P : State → Prop} (hC : Closed P) (req : Req) {s : State}  (hP : P s) :
    Res.Keeps P (execStageGo req s) := by
  unfold execStageGo
  repeat' first
    | with_reducible assumption
    | (intro _)
    | with_reducible apply Res.keeps_next
    | with_reducible apply State.regDo_kept hC
    | dsimp only
    | split
    | fail_if_no_progress (with_reducible refine hC.mk_kept rfl ?_)
    | rfl

theorem execBoughRelease_kept {P : State → Prop} (hC : Closed P) (req : Req) {s : State}  (hP : P s) :
    Res.Keeps P (execBoughRelease req s) := by
  unfold execBoughRelease
  repeat' first
    | with_reducible assumption
    | (intro _)
    | with_reducible apply Res.keeps_next
    | with_reducible apply State.regDo_kept hC
    | dsimp only
    | split
    | fail_if_no_progress (with_reducible refine hC.mk_kept rfl ?_)
    | rfl

theorem execAdvVer_kept {P : State → Prop} (hC : Closed P) (req : Req) {s : State}  (hP : P s) :
    Res.Keeps P (execAdvVer req s) := by
  unfold execAdvVer
  repeat' first
    | with_reducible assumption
    | (intro _)
    | with_reducible apply Res.keeps_next
    | with_reducible apply State.regDo_kept hC
    | dsimp only
    | split
    | fail_if_no_progress (with_reducible refine hC.mk_kept rfl ?_)
    | rfl

theorem execRevoke_kept {P : State → Prop} (hC : Closed P) (req : Req) (n : Fin 4) {s : State}  (hP : P s) :
    Res.Keeps P (execRevoke req n s) := by
  unfold execRevoke
  repeat' first
    | with_reducible assumption
    | (intro _)
    | with_reducible apply Res.keeps_next
    | with_reducible apply State.regDo_kept hC
    | dsimp only
    | split
    | fail_if_no_progress (with_reducible refine hC.mk_kept rfl ?_)
    | rfl

theorem execRngRead_kept {P : State → Prop} (hC : Closed P) (req : Req) {s : State}  (hP : P s) :
    Res.Keeps P (execRngRead req s) := by
  unfold execRngRead
  repeat' first
    | with_reducible assumption
    | (intro _)
    | with_reducible apply Res.keeps_next
    | with_reducible apply State.regAsk_kept hC
    | dsimp only
    | split
    | fail_if_no_progress (with_reducible refine hC.mk_kept rfl ?_)
    | rfl

theorem execRestart_kept {P : State → Prop} (hC : Closed P) (req : Req) (pass : Bool) {s : State}  (hP : P s) :
    Res.Keeps P (execRestart req pass s) := by
  unfold execRestart
  repeat' first
    | with_reducible assumption
    | (intro _)
    | with_reducible apply Res.keeps_next
    | with_reducible apply State.winWriteWith_kept hC
    | with_reducible apply ite_kept
    | dsimp only
    | split
    | fail_if_no_progress (with_reducible refine hC.mk_kept rfl ?_)
    | rfl

theorem execEventPost_kept {P : State → Prop} (hC : Closed P) (req : Req) (b : Fin 8) (t : Fin 64) (mask : Byte) {s : State}  (hP : P s) :
    Res.Keeps P (execEventPost req b t mask s) := by
  unfold execEventPost
  repeat' first
    | with_reducible assumption
    | (intro _)
    | with_reducible apply Res.keeps_next
    | with_reducible apply State.regDo_kept hC
    | dsimp only
    | split
    | fail_if_no_progress (with_reducible refine hC.mk_kept rfl ?_)
    | rfl

theorem execRelease_kept {P : State → Prop} (hC : Closed P) (req : Req) (t : Fin 512) {s : State}  (hP : P s) :
    Res.Keeps P (execRelease req t s) := by
  unfold execRelease
  repeat' first
    | with_reducible assumption
    | (intro _)
    | with_reducible apply Res.keeps_next
    | with_reducible apply State.regDo_kept hC
    | dsimp only
    | split
    | fail_if_no_progress (with_reducible refine hC.mk_kept rfl ?_)
    | rfl

theorem execResume_kept {P : State → Prop} (hC : Closed P) (req : Req) (t : Fin 512) {s : State}  (hP : P s) :
    Res.Keeps P (execResume req t s) := by
  unfold execResume
  repeat' first
    | with_reducible assumption
    | (intro _)
    | with_reducible apply Res.keeps_next
    | with_reducible apply State.regDo_kept hC
    | dsimp only
    | split
    | fail_if_no_progress (with_reducible refine hC.mk_kept rfl ?_)
    | rfl

theorem execLoopEnable_kept {P : State → Prop} (hC : Closed P) (req : Req) (x : Loop) (hard : Bool) {s : State}  (hP : P s) :
    Res.Keeps P (execLoopEnable req x hard s) := by
  unfold execLoopEnable
  repeat' first
    | with_reducible assumption
    | (intro _)
    | with_reducible apply Res.keeps_next
    | with_reducible apply State.regDo_kept hC
    | with_reducible apply ite_kept
    | dsimp only
    | split
    | fail_if_no_progress (with_reducible refine hC.mk_kept rfl ?_)
    | rfl

theorem execLoopDisable_kept {P : State → Prop} (hC : Closed P) (req : Req) (x : Loop) (hard : Bool) {s : State}  (hP : P s) :
    Res.Keeps P (execLoopDisable req x hard s) := by
  unfold execLoopDisable
  repeat' first
    | with_reducible assumption
    | (intro _)
    | with_reducible apply Res.keeps_next
    | with_reducible apply State.regDo_kept hC
    | with_reducible apply ite_kept
    | dsimp only
    | split
    | fail_if_no_progress (with_reducible refine hC.mk_kept rfl ?_)
    | rfl

theorem execPhcmdBud_kept {P : State → Prop} (hC : Closed P) (req : Req) (x : Loop) (mask : BitVec 16) (tmo : Byte) {s : State}  (hP : P s) :
    Res.Keeps P (execPhcmdBud req x mask tmo s) := by
  unfold execPhcmdBud
  repeat' first
    | with_reducible assumption
    | (intro _)
    | with_reducible apply Res.keeps_next
    | with_reducible apply State.regDo_kept hC
    | dsimp only
    | split
    | fail_if_no_progress (with_reducible refine hC.mk_kept rfl ?_)
    | rfl

theorem execPhcmdPrune_kept {P : State → Prop} (hC : Closed P) (req : Req) (x : Loop) (mask : BitVec 16) (tmo : Byte) {s : State}  (hP : P s) :
    Res.Keeps P (execPhcmdPrune req x mask tmo s) := by
  unfold execPhcmdPrune
  repeat' first
    | with_reducible assumption
    | (intro _)
    | with_reducible apply Res.keeps_next
    | with_reducible apply State.regDo_kept hC
    | dsimp only
    | split
    | fail_if_no_progress (with_reducible refine hC.mk_kept rfl ?_)
    | rfl

theorem execPeakClr_kept {P : State → Prop} (hC : Closed P) (req : Req) (x : Loop) {s : State}  (hP : P s) :
    Res.Keeps P (execPeakClr req x s) := by
  unfold execPeakClr
  repeat' first
    | with_reducible assumption
    | (intro _)
    | with_reducible apply Res.keeps_next
    | with_reducible apply State.fldDo_kept hC
    | dsimp only
    | split
    | fail_if_no_progress (with_reducible refine hC.mk_kept rfl ?_)
    | rfl

theorem execGovDisable_kept {P : State → Prop} (hC : Closed P) (req : Req) (x : HLoop) {s : State}  (hP : P s) :
    Res.Keeps P (execGovDisable req x s) := by
  unfold execGovDisable
  repeat' first
    | with_reducible assumption
    | (intro _)
    | with_reducible apply Res.keeps_next
    | with_reducible apply State.fldDo_kept hC
    | dsimp only
    | split
    | fail_if_no_progress (with_reducible refine hC.mk_kept rfl ?_)
    | rfl

theorem execMaxClr_kept {P : State → Prop} (hC : Closed P) (req : Req) (x : HLoop) {s : State}  (hP : P s) :
    Res.Keeps P (execMaxClr req x s) := by
  unfold execMaxClr
  repeat' first
    | with_reducible assumption
    | (intro _)
    | with_reducible apply Res.keeps_next
    | with_reducible apply State.fldDo_kept hC
    | dsimp only
    | split
    | fail_if_no_progress (with_reducible refine hC.mk_kept rfl ?_)
    | rfl

theorem execBatEnable_kept {P : State → Prop} (hC : Closed P) (req : Req) {s : State}  (hP : P s) :
    Res.Keeps P (execBatEnable req s) := by
  unfold execBatEnable
  repeat' first
    | with_reducible assumption
    | (intro _)
    | with_reducible apply Res.keeps_next
    | with_reducible apply State.fldDo_kept hC
    | dsimp only
    | split
    | fail_if_no_progress (with_reducible refine hC.mk_kept rfl ?_)
    | rfl

theorem execBatRestore_kept {P : State → Prop} (hC : Closed P) (req : Req) {s : State}  (hP : P s) :
    Res.Keeps P (execBatRestore req s) := by
  unfold execBatRestore
  repeat' first
    | with_reducible assumption
    | (intro _)
    | with_reducible apply Res.keeps_next
    | with_reducible apply State.fldDo_kept hC
    | dsimp only
    | split
    | fail_if_no_progress (with_reducible refine hC.mk_kept rfl ?_)
    | rfl

theorem execMbxResponse_kept {P : State → Prop} (hC : Closed P) (req : Req) (v : Word) {s : State}  (hP : P s) :
    Res.Keeps P (execMbxResponse req v s) := by
  unfold execMbxResponse
  repeat' first
    | with_reducible assumption
    | (intro _)
    | with_reducible apply Res.keeps_next
    | with_reducible apply State.regDo_kept hC
    | dsimp only
    | split
    | fail_if_no_progress (with_reducible refine hC.mk_kept rfl ?_)
    | rfl

theorem execControllerWrite_kept {P : State → Prop} (hC : Closed P) (req : Req) (n : Fin 2) (v : Word) {s : State}  (hP : P s) :
    Res.Keeps P (execControllerWrite req n v s) := by
  unfold execControllerWrite
  repeat' first
    | with_reducible assumption
    | (intro _)
    | with_reducible apply Res.keeps_next
    | with_reducible apply State.regDo_kept hC
    | dsimp only
    | split
    | fail_if_no_progress (with_reducible refine hC.mk_kept rfl ?_)
    | rfl

theorem execControllerWriteRead_kept {P : State → Prop} (hC : Closed P) (req : Req) (n : Fin 2) (v : Word) {s : State}  (hP : P s) :
    Res.Keeps P (execControllerWriteRead req n v s) := by
  unfold execControllerWriteRead
  repeat' first
    | with_reducible assumption
    | (intro _)
    | with_reducible apply Res.keeps_next
    | with_reducible apply State.regDo_kept hC
    | dsimp only
    | split
    | fail_if_no_progress (with_reducible refine hC.mk_kept rfl ?_)
    | rfl

theorem execControllerRead_kept {P : State → Prop} (hC : Closed P) (req : Req) (n : Fin 2) (v : Word) {s : State}  (hP : P s) :
    Res.Keeps P (execControllerRead req n v s) := by
  unfold execControllerRead
  repeat' first
    | with_reducible assumption
    | (intro _)
    | with_reducible apply Res.keeps_next
    | with_reducible apply State.regDo_kept hC
    | dsimp only
    | split
    | fail_if_no_progress (with_reducible refine hC.mk_kept rfl ?_)
    | rfl

theorem execControllerBlockRead_kept {P : State → Prop} (hC : Closed P) (req : Req) (n : Fin 2) (v : Word) {s : State}  (hP : P s) :
    Res.Keeps P (execControllerBlockRead req n v s) := by
  unfold execControllerBlockRead
  repeat' first
    | with_reducible assumption
    | (intro _)
    | with_reducible apply Res.keeps_next
    | with_reducible apply State.regDo_kept hC
    | dsimp only
    | split
    | fail_if_no_progress (with_reducible refine hC.mk_kept rfl ?_)
    | rfl

theorem execRowEnable_kept {P : State → Prop} (hC : Closed P) (req : Req) (r : Fin 8) {s : State}  (hP : P s) :
    Res.Keeps P (execRowEnable req r s) := by
  unfold execRowEnable
  repeat' first
    | with_reducible assumption
    | (intro _)
    | with_reducible apply Res.keeps_next
    | with_reducible apply State.fldDo_kept hC
    | dsimp only
    | split
    | fail_if_no_progress (with_reducible refine hC.mk_kept rfl ?_)
    | rfl

theorem execRowDisable_kept {P : State → Prop} (hC : Closed P) (req : Req) (r : Fin 8) {s : State}  (hP : P s) :
    Res.Keeps P (execRowDisable req r s) := by
  unfold execRowDisable
  repeat' first
    | with_reducible assumption
    | (intro _)
    | with_reducible apply Res.keeps_next
    | with_reducible apply State.fldDo_kept hC
    | dsimp only
    | split
    | fail_if_no_progress (with_reducible refine hC.mk_kept rfl ?_)
    | rfl

theorem execRowReset_kept {P : State → Prop} (hC : Closed P) (req : Req) (r : Fin 8) {s : State}  (hP : P s) :
    Res.Keeps P (execRowReset req r s) := by
  unfold execRowReset
  repeat' first
    | with_reducible assumption
    | (intro _)
    | with_reducible apply Res.keeps_next
    | with_reducible apply State.fldDo_kept hC
    | dsimp only
    | split
    | fail_if_no_progress (with_reducible refine hC.mk_kept rfl ?_)
    | rfl

theorem execBreqClear_kept {P : State → Prop} (hC : Closed P) (req : Req) (mask : Word) {s : State}  (hP : P s) :
    Res.Keeps P (execBreqClear req mask s) := by
  unfold execBreqClear
  repeat' first
    | with_reducible assumption
    | (intro _)
    | with_reducible apply Res.keeps_next
    | with_reducible apply State.regDo_kept hC
    | dsimp only
    | split
    | fail_if_no_progress (with_reducible refine hC.mk_kept rfl ?_)
    | rfl

theorem execCommit_kept {P : State → Prop} (hC : Closed P) (req : Req) (v : Word) {s : State}  (hP : P s) :
    Res.Keeps P (execCommit req v s) := by
  unfold execCommit
  repeat' first
    | with_reducible assumption
    | (intro _)
    | with_reducible apply Res.keeps_next
    | with_reducible apply State.regDo_kept hC
    | dsimp only
    | split
    | fail_if_no_progress (with_reducible refine hC.mk_kept rfl ?_)
    | rfl

theorem execStep_kept {P : State → Prop} (hC : Closed P) (req : Req) {s : State}  (hP : P s) :
    Res.Keeps P (execStep req s) := by
  unfold execStep
  repeat' first
    | with_reducible assumption
    | (intro _)
    | with_reducible apply Res.keeps_next
    | with_reducible apply State.regDo_kept hC
    | dsimp only
    | split
    | fail_if_no_progress (with_reducible refine hC.mk_kept rfl ?_)
    | rfl

theorem execSlew_kept {P : State → Prop} (hC : Closed P) (req : Req) {s : State}  (hP : P s) :
    Res.Keeps P (execSlew req s) := by
  unfold execSlew
  repeat' first
    | with_reducible assumption
    | (intro _)
    | with_reducible apply Res.keeps_next
    | with_reducible apply State.regDo_kept hC
    | dsimp only
    | split
    | fail_if_no_progress (with_reducible refine hC.mk_kept rfl ?_)
    | rfl

theorem execRingCtlStart_kept {P : State → Prop} (hC : Closed P) (req : Req) {s : State}  (hP : P s) :
    Res.Keeps P (execRingCtlStart req s) := by
  unfold execRingCtlStart
  repeat' first
    | with_reducible assumption
    | (intro _)
    | with_reducible apply Res.keeps_next
    | with_reducible apply State.regDo_kept hC
    | dsimp only
    | split
    | fail_if_no_progress (with_reducible refine hC.mk_kept rfl ?_)
    | rfl

theorem execStop_kept {P : State → Prop} (hC : Closed P) (req : Req) {s : State}  (hP : P s) :
    Res.Keeps P (execStop req s) := by
  unfold execStop
  repeat' first
    | with_reducible assumption
    | (intro _)
    | with_reducible apply Res.keeps_next
    | with_reducible apply State.regDo_kept hC
    | dsimp only
    | split
    | fail_if_no_progress (with_reducible refine hC.mk_kept rfl ?_)
    | rfl

theorem execNtfPost_kept {P : State → Prop} (hC : Closed P) (req : Req) (bits : Word) {s : State}  (hP : P s) :
    Res.Keeps P (execNtfPost req bits s) := by
  unfold execNtfPost
  repeat' first
    | with_reducible assumption
    | (intro _)
    | with_reducible apply Res.keeps_next
    | with_reducible apply State.regDo_kept hC
    | dsimp only
    | split
    | fail_if_no_progress (with_reducible refine hC.mk_kept rfl ?_)
    | rfl

theorem execUsbDisable_kept {P : State → Prop} (hC : Closed P) (req : Req) {s : State}  (hP : P s) :
    Res.Keeps P (execUsbDisable req s) := by
  unfold execUsbDisable
  repeat' first
    | with_reducible assumption
    | (intro _)
    | with_reducible apply Res.keeps_next
    | with_reducible apply State.regDo_kept hC
    | dsimp only
    | split
    | fail_if_no_progress (with_reducible refine hC.mk_kept rfl ?_)
    | rfl

theorem execJobSubmit_kept {P : State → Prop} (hC : Closed P) (req : Req) (o : Fin 9) (addr : BitVec 64) {s : State}  (hP : P s) :
    Res.Keeps P (execJobSubmit req o addr s) := by
  unfold execJobSubmit
  repeat' first
    | with_reducible assumption
    | (intro _)
    | with_reducible apply Res.keeps_next
    | with_reducible apply State.regDo_kept hC
    | dsimp only
    | split
    | fail_if_no_progress (with_reducible refine hC.mk_kept rfl ?_)
    | rfl

theorem execCplRead_kept {P : State → Prop} (hC : Closed P) (req : Req) (o : Fin 9) {s : State}  (hP : P s) :
    Res.Keeps P (execCplRead req o s) := by
  unfold execCplRead
  repeat' first
    | with_reducible assumption
    | (intro _)
    | with_reducible apply Res.keeps_next
    | with_reducible apply State.regAsk_kept hC
    | dsimp only
    | split
    | fail_if_no_progress (with_reducible refine hC.mk_kept rfl ?_)
    | rfl

theorem execClear_kept {P : State → Prop} (hC : Closed P) (req : Req) {s : State}  (hP : P s) :
    Res.Keeps P (execClear req s) := by
  unfold execClear
  repeat' first
    | with_reducible assumption
    | (intro _)
    | with_reducible apply Res.keeps_next
    | with_reducible apply State.fldDo_kept hC
    | dsimp only
    | split
    | fail_if_no_progress (with_reducible refine hC.mk_kept rfl ?_)
    | rfl

theorem execInjectionArm_kept {P : State → Prop} (hC : Closed P) (req : Req) (st : Fin 32) (mode : BitVec 2) (dbl : Bool) {s : State}  (hP : P s) :
    Res.Keeps P (execInjectionArm req st mode dbl s) := by
  unfold execInjectionArm
  repeat' first
    | with_reducible assumption
    | (intro _)
    | with_reducible apply Res.keeps_next
    | with_reducible apply State.regDo_kept hC
    | dsimp only
    | split
    | fail_if_no_progress (with_reducible refine hC.mk_kept rfl ?_)
    | rfl

theorem execAdmWrite_kept {P : State → Prop} (hC : Closed P) (req : Req) (u : Fin 152) (v : Word) {s : State}  (hP : P s) :
    Res.Keeps P (execAdmWrite req u v s) := by
  unfold execAdmWrite
  repeat' first
    | with_reducible assumption
    | (intro _)
    | with_reducible apply Res.keeps_next
    | with_reducible apply State.regDo_kept hC
    | dsimp only
    | split
    | fail_if_no_progress (with_reducible refine hC.mk_kept rfl ?_)
    | rfl

theorem execWdtKeyFirst_kept {P : State → Prop} (hC : Closed P) (req : Req) (v : Word) {s : State}  (hP : P s) :
    Res.Keeps P (execWdtKeyFirst req v s) := by
  unfold execWdtKeyFirst
  repeat' first
    | with_reducible assumption
    | (intro _)
    | with_reducible apply Res.keeps_next
    | with_reducible apply State.regDo_kept hC
    | dsimp only
    | split
    | fail_if_no_progress (with_reducible refine hC.mk_kept rfl ?_)
    | rfl

theorem execWdtKeySecond_kept {P : State → Prop} (hC : Closed P) (req : Req) (v : Word) {s : State}  (hP : P s) :
    Res.Keeps P (execWdtKeySecond req v s) := by
  unfold execWdtKeySecond
  repeat' first
    | with_reducible assumption
    | (intro _)
    | with_reducible apply Res.keeps_next
    | with_reducible apply State.regDo_kept hC
    | dsimp only
    | split
    | fail_if_no_progress (with_reducible refine hC.mk_kept rfl ?_)
    | rfl

theorem execRowWdtService_kept {P : State → Prop} (hC : Closed P) (req : Req) (r : Fin 8) (v : Word) {s : State}  (hP : P s) :
    Res.Keeps P (execRowWdtService req r v s) := by
  unfold execRowWdtService
  repeat' first
    | with_reducible assumption
    | (intro _)
    | with_reducible apply Res.keeps_next
    | with_reducible apply State.regDo_kept hC
    | dsimp only
    | split
    | fail_if_no_progress (with_reducible refine hC.mk_kept rfl ?_)
    | rfl

theorem execDemote_kept {P : State → Prop} (hC : Closed P) (req : Req) {s : State}  (hP : P s) :
    Res.Keeps P (execDemote req s) := by
  unfold execDemote
  repeat' first
    | with_reducible assumption
    | (intro _)
    | with_reducible apply Res.keeps_next
    | with_reducible apply State.fldDo_kept hC
    | dsimp only
    | split
    | fail_if_no_progress (with_reducible refine hC.mk_kept rfl ?_)
    | rfl

end Sys2Proof.Machine
end

