-- ==== Sys2Proof/Laws/KeptTakeover.lean ====
section
/-! SUPPORT. The definitions of Machine/Takeover.lean keep every property that `Closed` describes. -/

namespace Sys2Proof.Machine

theorem State.applyPairs_kept {P : State → Prop} (hC : Closed P) {s : State} (e0 : Nat) (e1 : Bytes) (hP : P s) :
    P (((State.applyPairs s e0 e1)).1) := by
  revert hP
  fun_induction State.applyPairs s e0 e1
  all_goals
    intro hP
    repeat' first
      | with_reducible assumption
      | (intro _)
      | with_reducible apply State.winWrite_kept hC
      | with_reducible apply ite_kept
      | with_reducible apply ite_snd_kept
      | with_reducible apply ite_fst_kept
      | (with_reducible apply_assumption)
      | dsimp only
      | split
      | fail_if_no_progress (with_reducible refine hC.mk_kept rfl ?_)
      | rfl

theorem State.installAt_kept {P : State → Prop} (hC : Closed P) {s : State} (addr : Nat) (bs : Bytes)  (hP : P s) :
    P (((State.installAt s addr bs)).1) := by
  unfold State.installAt
  repeat' first
    | with_reducible assumption
    | (intro _)
    | with_reducible apply State.devWrite_kept hC
    | with_reducible apply ite_kept
    | with_reducible apply ite_snd_kept
    | with_reducible apply ite_fst_kept
    | dsimp only
    | split
    | fail_if_no_progress (with_reducible refine hC.mk_kept rfl ?_)
    | rfl

theorem State.installBough_kept {P : State → Prop} (hC : Closed P) {a : State × Bool} (addr mask b : Nat) (bs : Bytes)
    (hP : P a.1) : P (State.installBough a addr mask b bs).1 := by
  have h := State.installAt_kept hC (0x100000000 + b * 0x1000000 + addr % 0x1000000) bs hP
  unfold State.installBough
  exact ite_fst_kept (mk_fst_kept h) hP

theorem State.installFlow_kept {P : State → Prop} (hC : Closed P) {s : State} (addr : Nat) (mask : Nat) (bs : Bytes) (hP : P s) :
    P (State.installFlow s addr mask bs).1 :=
  foldl_fst_kept (f := fun a b => State.installBough a addr mask b bs) (fun _ _ ha => State.installBough_kept hC _ _ _ _ ha)
    (List.range 8) (a := (s, false)) hP

theorem State.eachSec_kept {P : State → Prop} (hC : Closed P) {s : State} (kinds : List Nat) (f : TakeSec → State → State × Bool) (e0 : Nat) (e1 : List TakeSec) (hf : ∀ y0 y1, P y1 →  P ((f y0 y1).1)) (hP : P s) :
    P (State.eachSec s kinds f e0 e1) := by
  revert hP
  fun_induction State.eachSec s kinds f e0 e1
  all_goals
    intro hP
    repeat' first
      | with_reducible assumption
      | (intro _)
      | with_reducible apply State.setBit_kept hC
      | with_reducible apply State.fault_kept hC
      | with_reducible apply hf
      | with_reducible apply ite_kept
      | (with_reducible apply_assumption)
      | dsimp only
      | split
      | fail_if_no_progress (with_reducible refine hC.mk_kept rfl ?_)
      | rfl

theorem State.takeBattery_kept {P : State → Prop} (hC : Closed P) {s : State} (secs : List TakeSec)  (hP : P s) :
    P (State.takeBattery s secs) := by
  unfold State.takeBattery
  repeat' first
    | with_reducible assumption
    | (intro _)
    | with_reducible apply State.setFld_kept hC
    | with_reducible apply State.restoreBlock_kept hC
    | dsimp only
    | split
    | fail_if_no_progress (with_reducible refine hC.mk_kept rfl ?_)
    | rfl

theorem State.takeBank_kept {P : State → Prop} (hC : Closed P) {s : State} (k : Nat)  (hP : P s) :
    P (State.takeBank s k) := by
  unfold State.takeBank
  repeat' first
    | with_reducible assumption
    | (intro _)
    | with_reducible apply State.graftSource_kept hC
    | with_reducible apply State.eachSec_kept hC
    | with_reducible apply State.applyPairs_kept hC
    | with_reducible apply State.installFlow_kept hC
    | with_reducible apply State.installAt_kept hC
    | with_reducible apply State.takeBattery_kept hC
    | with_reducible apply ite_kept
    | (with_reducible refine pair_snd_kept (by with_reducible assumption) ?_)
    | (with_reducible refine pair_fst_kept (by with_reducible assumption) ?_)
    | (with_reducible refine trip_kept (by with_reducible assumption) ?_)
    | dsimp only
    | split
    | fail_if_no_progress (with_reducible refine hC.mk_kept rfl ?_)
    | rfl

theorem execTakeover_kept {P : State → Prop} (hC : Closed P) {s : State}  (hP : P s) :
    Res.Keeps P (execTakeover s) := by
  unfold execTakeover
  repeat' first
    | with_reducible assumption
    | (intro _)
    | with_reducible apply Res.keeps_next
    | with_reducible apply hC.setReg
    | with_reducible apply State.takeBank_kept hC
    | with_reducible apply State.setFld_kept hC
    | with_reducible apply State.fault_kept hC
    | with_reducible apply State.graftTo_kept hC
    | with_reducible apply State.event_kept hC
    | with_reducible apply ite_kept
    | dsimp only
    | split
    | fail_if_no_progress (with_reducible refine hC.mk_kept rfl ?_)
    | rfl

end Sys2Proof.Machine
end

