-- ==== Sys2Proof/Laws/KeptTick.lean ====
section
/-! SUPPORT. The definitions of Machine/Tick.lean keep every property that `Closed` describes. -/

namespace Sys2Proof.Machine

theorem State.dtbTick_kept {P : State → Prop} (hC : Closed P) {s : State}  (hP : P s) :
    P (State.dtbTick s) := by
  unfold State.dtbTick
  repeat' first
    | with_reducible assumption
    | (intro _)
    | with_reducible apply State.setPair_kept hC
    | with_reducible apply ite_kept
    | dsimp only
    | split
    | fail_if_no_progress (with_reducible refine hC.mk_kept rfl ?_)
    | rfl

theorem State.rtcTick_kept {P : State → Prop} (hC : Closed P) {s : State}  (hP : P s) :
    P (State.rtcTick s) := by
  unfold State.rtcTick
  repeat' first
    | with_reducible assumption
    | (intro _)
    | with_reducible apply State.setFld_kept hC
    | with_reducible apply State.setPair_kept hC
    | with_reducible apply ite_kept
    | dsimp only
    | split
    | fail_if_no_progress (with_reducible refine hC.mk_kept rfl ?_)
    | rfl

theorem State.wdtTick_kept {P : State → Prop} (hC : Closed P) {s : State}  (hP : P s) :
    P (State.wdtTick s) := by
  unfold State.wdtTick
  repeat' first
    | with_reducible assumption
    | (intro _)
    | with_reducible apply foldl_kept
    | with_reducible apply foldl_snd_kept
    | with_reducible apply foldl_fst_kept
    | with_reducible apply ite_kept
    | dsimp only
    | split
    | fail_if_no_progress (with_reducible refine hC.mk_kept rfl ?_)
    | rfl

theorem State.closeFirst_kept {P : State → Prop} (hC : Closed P) {s : State}   (hP : P s) :
    P (State.closeFirst s) := by
  unfold State.closeFirst
  repeat' first
    | with_reducible assumption
    | (intro _)
    | with_reducible apply ite_kept
    | dsimp only
    | split
    | fail_if_no_progress (with_reducible refine hC.mk_kept rfl ?_)
    | rfl

theorem State.slowTick_kept {P : State → Prop} (hC : Closed P) {s : State}  (hP : P s) :
    P (State.slowTick s) := by
  unfold State.slowTick
  repeat' first
    | with_reducible assumption
    | (intro _)
    | with_reducible apply State.wdtEdge_kept hC
    | with_reducible apply State.closeFirst_kept hC
    | with_reducible apply State.rtcTick_kept hC
    | with_reducible apply State.wdtTick_kept hC
    | with_reducible apply State.wakeCycle_kept hC
    | with_reducible apply ite_kept
    | dsimp only
    | split
    | fail_if_no_progress (with_reducible refine hC.mk_kept rfl ?_)
    | rfl

theorem State.lockTick_kept {P : State → Prop} (hC : Closed P) {s : State}   (hP : P s) :
    P (State.lockTick s) := by
  unfold State.lockTick
  repeat' first
    | with_reducible assumption
    | (intro _)
    | with_reducible apply hC.tookFree
    | with_reducible apply State.updTap_kept hC
    | with_reducible apply State.pllLocked_kept hC
    | with_reducible apply foldl_kept
    | with_reducible apply foldl_snd_kept
    | with_reducible apply foldl_fst_kept
    | with_reducible apply ite_kept
    | dsimp only
    | split
    | fail_if_no_progress (with_reducible refine hC.mk_kept rfl ?_)
    | rfl

theorem State.slowClock_kept {P : State → Prop} (hC : Closed P) {s : State}  (hP : P s) :
    P (State.slowClock s) := by
  unfold State.slowClock
  repeat' first
    | with_reducible assumption
    | (intro _)
    | with_reducible apply State.slowTick_kept hC
    | with_reducible apply ite_kept
    | dsimp only
    | split
    | fail_if_no_progress (with_reducible refine hC.mk_kept rfl ?_)
    | rfl



theorem State.tick_kept {P : State → Prop} (hC : Closed P) (hclk : ∀ t, P t → P t.clkUp) {s : State} (hP : P s) :
    P (State.tick s) := 
    State.ep1In_kept hC (State.lockTick_kept hC (State.slowClock_kept hC (hclk _ (State.dtbTick_kept hC hP))))

end Sys2Proof.Machine
end

