-- ==== Sys2Proof/Laws/Exec.lean ====
section
/-! SUPPORT. Every command keeps every property that `Closed` describes, and so does every step that the clock allows. -/

namespace Sys2Proof.Machine

theorem exec_kept {P : State → Prop} (hC : Closed P) (i : Instr) {s : State} (hP : P s) : Res.Keeps P (exec i s) := by
  cases i with
  | registerWrite req tgt bytes v => exact execRegisterWrite_kept hC req tgt bytes v hP
  | loRead req tgt => exact execLoRead_kept hC req tgt hP
  | hiRead req tgt => exact execHiRead_kept hC req tgt hP
  | loWrite req tgt v => exact execLoWrite_kept hC req tgt v hP
  | hiWrite req tgt v => exact execHiWrite_kept hC req tgt v hP
  | rtcSecWrite req lo hi => exact execRtcSecWrite_kept hC req lo hi hP
  | coldStart straps testEn => exact execColdStart_kept hC straps testEn hP
  | vkaLoss => exact execVkaLoss_kept hC hP
  | warmReset => exact execWarmReset_kept hC hP
  | warmResetEnd => exact execWarmResetEnd_kept hC hP
  | xtalChangeover => exact execXtalChangeover_kept hC hP
  | xtalFail => exact execXtalFail_kept hC hP
  | rtcAlarm => exact execRtcAlarm_kept hC hP
  | wakeQualify n => exact execWakeQualify_kept hC n hP
  | wakeCfgWrite req n v => exact execWakeCfgWrite_kept hC req n v hP
  | vbatComparatorQualify hi => exact execVbatComparatorQualify_kept hC hi hP
  | vbatCmpWrite req v => exact execVbatCmpWrite_kept hC req v hP
  | standbyEntry req => exact execStandbyEntry_kept hC req hP
  | rramDataAccess req wr => exact execRramDataAccess_kept hC req wr hP
  | rramEccInjArm req inj => exact execRramEccInjArm_kept hC req inj hP
  | domainRequest d => exact execDomainRequest_kept hC d hP
  | domainGrant d => exact execDomainGrant_kept hC d hP
  | domainRelease d => exact execDomainRelease_kept hC d hP
  | domainRequestEnd d => exact execDomainRequestEnd_kept hC d hP
  | budAck b => exact execBudAck_kept hC b hP
  | budTimeout b => exact execBudTimeout_kept hC b hP
  | vioLoss => exact execVioLoss_kept hC hP
  | vioReturn => exact execVioReturn_kept hC hP
  | refSysTimeout => exact execRefSysTimeout_kept hC hP
  | pllLockTimeout p => exact execPllLockTimeout_kept hC p hP
  | serdesRailLoss rail => exact execSerdesRailLoss_kept hC rail hP
  | rootstockBoot xspi => exact execRootstockBoot_kept hC xspi hP
  | fabricLoad xspi => exact execFabricLoad_kept hC xspi hP
  | xspiTimeout => exact execXspiTimeout_kept hC hP
  | stageGo req => exact execStageGo_kept hC req hP
  | stagedImageDone => exact execStagedImageDone_kept hC hP
  | boughRelease req => exact execBoughRelease_kept hC req hP
  | advVer req => exact execAdvVer_kept hC req hP
  | revoke req n => exact execRevoke_kept hC req n hP
  | rngRead req => exact execRngRead_kept hC req hP
  | rngHealthFail => exact execRngHealthFail_kept hC hP
  | restart req pass => exact execRestart_kept hC req pass hP
  | idcode => exact execIdcode_kept hC hP
  | challenge => exact execChallenge_kept hC hP
  | response level sig => exact execResponse_kept hC level sig hP
  | bypass code => exact execBypass_kept hC code hP
  | instructionFetch t k => exact execInstructionFetch_kept hC t k hP
  | fetchFault t => exact execFetchFault_kept hC t hP
  | illegalEncoding t w => exact execIllegalEncoding_kept hC t w hP
  | mv t rd rs => exact execMv_kept hC t rd rs hP
  | add t f => exact execAdd_kept hC t f hP
  | sub t f => exact execSub_kept hC t f hP
  | and t f => exact execAnd_kept hC t f hP
  | or t f => exact execOr_kept hC t f hP
  | xor t f => exact execXor_kept hC t f hP
  | sll t f => exact execSll_kept hC t f hP
  | srl t f => exact execSrl_kept hC t f hP
  | sra t f => exact execSra_kept hC t f hP
  | cmp t rd rs => exact execCmp_kept hC t rd rs hP
  | neg t rd rs => exact execNeg_kept hC t rd rs hP
  | not t rd rs => exact execNot_kept hC t rd rs hP
  | bswap t f => exact execBswap_kept hC t f hP
  | addi t f => exact execAddi_kept hC t f hP
  | li t rd simm => exact execLi_kept hC t rd simm hP
  | slli t f => exact execSlli_kept hC t f hP
  | srli t f => exact execSrli_kept hC t f hP
  | srai t f => exact execSrai_kept hC t f hP
  | cmpi t rs simm => exact execCmpi_kept hC t rs simm hP
  | mul t rd ra rb => exact execMul_kept hC t rd ra rb hP
  | mulhs t rd ra rb => exact execMulhs_kept hC t rd ra rb hP
  | mulhu t rd ra rb => exact execMulhu_kept hC t rd ra rb hP
  | min t rd ra rb => exact execMin_kept hC t rd ra rb hP
  | max t rd ra rb => exact execMax_kept hC t rd ra rb hP
  | minu t rd ra rb => exact execMinu_kept hC t rd ra rb hP
  | maxu t rd ra rb => exact execMaxu_kept hC t rd ra rb hP
  | addc t rd ra rb => exact execAddc_kept hC t rd ra rb hP
  | subc t rd ra rb => exact execSubc_kept hC t rd ra rb hP
  | clz t rd ra => exact execClz_kept hC t rd ra hP
  | popc t rd ra => exact execPopc_kept hC t rd ra hP
  | extu t rd ra rb => exact execExtu_kept hC t rd ra rb hP
  | andi t rd ra imm => exact execAndi_kept hC t rd ra imm hP
  | ori t rd ra imm => exact execOri_kept hC t rd ra imm hP
  | lui t rd imm => exact execLui_kept hC t rd imm hP
  | ldw t f => exact execLdw_kept hC t f hP
  | ldh t rd ra imm => exact execLdh_kept hC t rd ra imm hP
  | ldhu t rd ra imm => exact execLdhu_kept hC t rd ra imm hP
  | ldb t rd ra imm => exact execLdb_kept hC t rd ra imm hP
  | ldbu t rd ra imm => exact execLdbu_kept hC t rd ra imm hP
  | xadd t rd ra imm => exact execXadd_kept hC t rd ra imm hP
  | xchg t rd ra imm => exact execXchg_kept hC t rd ra imm hP
  | stw t f => exact execStw_kept hC t f hP
  | sth t rd ra imm => exact execSth_kept hC t rd ra imm hP
  | stb t rd ra imm => exact execStb_kept hC t rd ra imm hP
  | agLoad t f k => exact execAgLoad_kept hC t f k hP
  | agStore t f k => exact execAgStore_kept hC t f k hP
  | b t off => exact execB_kept hC t off hP
  | bcond t f => exact execBcond_kept hC t f hP
  | bz t f => exact execBz_kept hC t f hP
  | bnz t f => exact execBnz_kept hC t f hP
  | callm t f => exact execCallm_kept hC t f hP
  | retm t => exact execRetm_kept hC t hP
  | j t off => exact execJ_kept hC t off hP
  | jr t rs => exact execJr_kept hC t rs hP
  | macl t ad ra rb => exact execMacl_kept hC t ad ra rb hP
  | msul t ad ra rb => exact execMsul_kept hC t ad ra rb hP
  | mpyl t ad ra rb => exact execMpyl_kept hC t ad ra rb hP
  | macp t ad ra rb => exact execMacp_kept hC t ad ra rb hP
  | msup t ad ra rb => exact execMsup_kept hC t ad ra rb hP
  | ext t rd an sh => exact execExt_kept hC t rd an sh hP
  | aclr t ad => exact execAclr_kept hC t ad hP
  | amov t ad ra => exact execAmov_kept hC t ad ra hP
  | aadd t ad an => exact execAadd_kept hC t ad an hP
  | fadd t rd ra rb => exact execFadd_kept hC t rd ra rb hP
  | fsub t rd ra rb => exact execFsub_kept hC t rd ra rb hP
  | padd t rd ra rb => exact execPadd_kept hC t rd ra rb hP
  | psub t rd ra rb => exact execPsub_kept hC t rd ra rb hP
  | fsra t rd ra rb => exact execFsra_kept hC t rd ra rb hP
  | fork t rd ra rb => exact execFork_kept hC t rd ra rb hP
  | join t ra => exact execJoin_kept hC t ra hP
  | joinComplete t => exact execJoinComplete_kept hC t hP
  | quit t f => exact execQuit_kept hC t f hP
  | waitt t ra => exact execWaitt_kept hC t ra hP
  | waittComplete t => exact execWaittComplete_kept hC t hP
  | waite t rd ra => exact execWaite_kept hC t rd ra hP
  | waiteComplete t => exact execWaiteComplete_kept hC t hP
  | timerCompareMet t => exact execTimerCompareMet_kept hC t hP
  | hreq t h cn ra rb => exact execHreq_kept hC t h cn ra rb hP
  | hwait t rd cn => exact execHwait_kept hC t rd cn hP
  | hwaitComplete t => exact execHwaitComplete_kept hC t hP
  | hpoll t rd cn => exact execHpoll_kept hC t rd cn hP
  | mfs t rd n => exact execMfs_kept hC t rd n hP
  | mts t n ra => exact execMts_kept hC t n ra hP
  | eret t f => exact execEret_kept hC t f hP
  | sysc t f imm => exact execSysc_kept hC t f imm hP
  | brk t f imm => exact execBrk_kept hC t f imm hP
  | fence t => exact execFence_kept hC t hP
  | eventPost req b t mask => exact execEventPost_kept hC req b t mask hP
  | release req t => exact execRelease_kept hC req t hP
  | resume req t => exact execResume_kept hC req t hP
  | loopEnable req x hard => exact execLoopEnable_kept hC req x hard hP
  | loopDisable req x hard => exact execLoopDisable_kept hC req x hard hP
  | regulatingEntry x => exact execRegulatingEntry_kept hC x hP
  | softstartTimeout x => exact execSoftstartTimeout_kept hC x hP
  | phaseSafePoint x => exact execPhaseSafePoint_kept hC x hP
  | phcmdBud req x mask tmo => exact execPhcmdBud_kept hC req x mask tmo hP
  | phcmdPrune req x mask tmo => exact execPhcmdPrune_kept hC req x mask tmo hP
  | pruneTimeout n => exact execPruneTimeout_kept hC n hP
  | zeroCrossing n => exact execZeroCrossing_kept hC n hP
  | lawCompute x => exact execLawCompute_kept hC x hP
  | deEnter x => exact execDeEnter_kept hC x hP
  | boughWakeRequest b => exact execBoughWakeRequest_kept hC b hP
  | wakeBoostEnd => exact execWakeBoostEnd_kept hC hP
  | hintUp => exact execHintUp_kept hC hP
  | hintDn => exact execHintDn_kept hC hP
  | loopTelemetryPublish x => exact execLoopTelemetryPublish_kept hC x hP
  | peakClr req x => exact execPeakClr_kept hC req x hP
  | slotFire n sl => exact execSlotFire_kept hC n sl hP
  | conversionResult n uV => exact execConversionResult_kept hC n uV hP
  | precisionEntryDone m sl uVs => exact execPrecisionEntryDone_kept hC m sl uVs hP
  | precisionListRestart m => exact execPrecisionListRestart_kept hC m hP
  | converterCalibration fast ok => exact execConverterCalibration_kept hC fast ok hP
  | governorTick => exact execGovernorTick_kept hC hP
  | govWindowTimeout x => exact execGovWindowTimeout_kept hC x hP
  | govEventClose x => exact execGovEventClose_kept hC x hP
  | govDisable req x => exact execGovDisable_kept hC req x hP
  | maxClr req x => exact execMaxClr_kept hC req x hP
  | tachEdge n us => exact execTachEdge_kept hC n us hP
  | tachStall n => exact execTachStall_kept hC n hP
  | fanMonitorCheck => exact execFanMonitorCheck_kept hC hP
  | fanKeepTimeout => exact execFanKeepTimeout_kept hC hP
  | shutdownAssert ts uV => exact execShutdownAssert_kept hC ts uV hP
  | shutdownRelease => exact execShutdownRelease_kept hC hP
  | batteryAbsent => exact execBatteryAbsent_kept hC hP
  | batEnable req => exact execBatEnable_kept hC req hP
  | firstEstimate => exact execFirstEstimate_kept hC hP
  | batPublish => exact execBatPublish_kept hC hP
  | batRestore req => exact execBatRestore_kept hC req hP
  | batStale => exact execBatStale_kept hC hP
  | batRelaxResync => exact execBatRelaxResync_kept hC hP
  | page x => exact execPage_kept hC x hP
  | operation x => exact execOperation_kept hC x hP
  | onOffConfig x => exact execOnOffConfig_kept hC x hP
  | clearFaults x => exact execClearFaults_kept hC x hP
  | writeProtect x => exact execWriteProtect_kept hC x hP
  | capability x => exact execCapability_kept hC x hP
  | voutMode x => exact execVoutMode_kept hC x hP
  | voutCommand x => exact execVoutCommand_kept hC x hP
  | voutMax x => exact execVoutMax_kept hC x hP
  | voutMin x => exact execVoutMin_kept hC x hP
  | voutTransitionRate x => exact execVoutTransitionRate_kept hC x hP
  | voutOvFaultLimit x => exact execVoutOvFaultLimit_kept hC x hP
  | voutUvFaultLimit x => exact execVoutUvFaultLimit_kept hC x hP
  | statusByte x => exact execStatusByte_kept hC x hP
  | statusWord x => exact execStatusWord_kept hC x hP
  | statusVout x => exact execStatusVout_kept hC x hP
  | statusIout x => exact execStatusIout_kept hC x hP
  | statusTemperature x => exact execStatusTemperature_kept hC x hP
  | statusCml x => exact execStatusCml_kept hC x hP
  | statusMfrSpecific x => exact execStatusMfrSpecific_kept hC x hP
  | readEout x => exact execReadEout_kept hC x hP
  | readVout x => exact execReadVout_kept hC x hP
  | readIout x => exact execReadIout_kept hC x hP
  | readTemperature1 x => exact execReadTemperature1_kept hC x hP
  | readPout x => exact execReadPout_kept hC x hP
  | pmbusRevision x => exact execPmbusRevision_kept hC x hP
  | mfrId x => exact execMfrId_kept hC x hP
  | mfrModel x => exact execMfrModel_kept hC x hP
  | mfrRevision x => exact execMfrRevision_kept hC x hP
  | mfrRegRead x => exact execMfrRegRead_kept hC x hP
  | mfrRegWrite x => exact execMfrRegWrite_kept hC x hP
  | mfrGovEvent x => exact execMfrGovEvent_kept hC x hP
  | mfrBat x => exact execMfrBat_kept hC x hP
  | mfrPhases x => exact execMfrPhases_kept hC x hP
  | mfrReady x => exact execMfrReady_kept hC x hP
  | mfrProg idx x => exact execMfrProg_kept hC idx x hP
  | invalidCommand code => exact execInvalidCommand_kept hC code hP
  | alertResponse => exact execAlertResponse_kept hC hP
  | mbxResponse req v => exact execMbxResponse_kept hC req v hP
  | stretchTimeout total => exact execStretchTimeout_kept hC total hP
  | busTimeout => exact execBusTimeout_kept hC hP
  | controllerWrite req n v => exact execControllerWrite_kept hC req n v hP
  | controllerWriteRead req n v => exact execControllerWriteRead_kept hC req n v hP
  | controllerRead req n v => exact execControllerRead_kept hC req n v hP
  | controllerBlockRead req n v => exact execControllerBlockRead_kept hC req n v hP
  | controllerRetry n => exact execControllerRetry_kept hC n hP
  | controllerTimeout n => exact execControllerTimeout_kept hC n hP
  | controllerDone n res => exact execControllerDone_kept hC n res hP
  | avsWriteCommit m frame => exact execAvsWriteCommit_kept hC m frame hP
  | avsWriteHold m frame => exact execAvsWriteHold_kept hC m frame hP
  | avsVoltageRead m frame => exact execAvsVoltageRead_kept hC m frame hP
  | avsRateRead m frame => exact execAvsRateRead_kept hC m frame hP
  | avsRateWrite m frame => exact execAvsRateWrite_kept hC m frame hP
  | avsCurrentRead m frame => exact execAvsCurrentRead_kept hC m frame hP
  | avsTemperatureRead m frame => exact execAvsTemperatureRead_kept hC m frame hP
  | avsResetVoltage m frame => exact execAvsResetVoltage_kept hC m frame hP
  | avsStatusRead m frame => exact execAvsStatusRead_kept hC m frame hP
  | avsVersionRead m frame => exact execAvsVersionRead_kept hC m frame hP
  | rowEnable req r => exact execRowEnable_kept hC req r hP
  | rowDisable req r => exact execRowDisable_kept hC req r hP
  | rowReset req r => exact execRowReset_kept hC req r hP
  | rowResetDone r => exact execRowResetDone_kept hC r hP
  | msixMessage r v => exact execMsixMessage_kept hC r v hP
  | doorbell r q v => exact execDoorbell_kept hC r q v hP
  | h2dDescriptor r q lo w2 w3 data bad => exact execH2dDescriptor_kept hC r q lo w2 w3 data bad hP
  | d2hDelivery r q lo w2 w3 bad => exact execD2hDelivery_kept hC r q lo w2 w3 bad hP
  | mailboxGo r len vec => exact execMailboxGo_kept hC r len vec hP
  | functionLevelReset r => exact execFunctionLevelReset_kept hC r hP
  | linkDown => exact execLinkDown_kept hC hP
  | perstFall => exact execPerstFall_kept hC hP
  | configRequest pf op => exact execConfigRequest_kept hC pf op hP
  | frameReceive src data fcsOk => exact execFrameReceive_kept hC src data fcsOk hP
  | breqClear req mask => exact execBreqClear_kept hC req mask hP
  | pauseReceive e quanta => exact execPauseReceive_kept hC e quanta hP
  | pauseEnd e => exact execPauseEnd_kept hC e hP
  | dispatch r => exact execDispatch_kept hC r hP
  | get t cn => exact execGet_kept hC t cn hP
  | emit t cn => exact execEmit_kept hC t cn hP
  | parse t cn => exact execParse_kept hC t cn hP
  | find t cn => exact execFind_kept hC t cn hP
  | inet t cn => exact execInet_kept hC t cn hP
  | crc32 t cn => exact execCrc32_kept hC t cn hP
  | aesSeal t cn => exact execAesSeal_kept hC t cn hP
  | aesOpen t cn => exact execAesOpen_kept hC t cn hP
  | now t cn => exact execNow_kept hC t cn hP
  | egressTs t cn => exact execEgressTs_kept hC t cn hP
  | ticketRelease d => exact execTicketRelease_kept hC d hP
  | orderTimeout d => exact execOrderTimeout_kept hC d hP
  | frameTransmit port => exact execFrameTransmit_kept hC port hP
  | gateChange port => exact execGateChange_kept hC port hP
  | plcaBeacon idx => exact execPlcaBeacon_kept hC idx hP
  | plcaBeaconLoss idx => exact execPlcaBeaconLoss_kept hC idx hP
  | commit req v => exact execCommit_kept hC req v hP
  | msecCommitDone => exact execMsecCommitDone_kept hC hP
  | step req => exact execStep_kept hC req hP
  | slew req => exact execSlew_kept hC req hP
  | slewDone => exact execSlewDone_kept hC hP
  | claim east data => exact execClaim_kept hC east data hP
  | beacon east data => exact execBeacon_kept hC east data hP
  | slot east data => exact execSlot_kept hC east data hP
  | leave east data => exact execLeave_kept hC east data hP
  | ringCtlStart req => exact execRingCtlStart_kept hC req hP
  | stop req => exact execStop_kept hC req hP
  | ringListenEnd => exact execRingListenEnd_kept hC hP
  | ringBackoffEnd => exact execRingBackoffEnd_kept hC hP
  | ringConfirmEnd => exact execRingConfirmEnd_kept hC hP
  | ringCycleStart => exact execRingCycleStart_kept hC hP
  | ringWindow => exact execRingWindow_kept hC hP
  | ringCycleEnd => exact execRingCycleEnd_kept hC hP
  | ringStartTimeout => exact execRingStartTimeout_kept hC hP
  | ringBeaconMiss => exact execRingBeaconMiss_kept hC hP
  | usbAttach vbus => exact execUsbAttach_kept hC vbus hP
  | usbBusReset hs => exact execUsbBusReset_kept hC hs hP
  | setConfiguration hub on => exact execSetConfiguration_kept hC hub on hP
  | bulkOutPacket data => exact execBulkOutPacket_kept hC data hP
  | ping => exact execPing_kept hC hP
  | fankoecHello => exact execFankoecHello_kept hC hP
  | authChallenge => exact execAuthChallenge_kept hC hP
  | authResponse => exact execAuthResponse_kept hC hP
  | logout => exact execLogout_kept hC hP
  | readyMap => exact execReadyMap_kept hC hP
  | regRead => exact execRegRead_kept hC hP
  | regWrite => exact execRegWrite_kept hC hP
  | fankoecJobSubmit => exact execFankoecJobSubmit_kept hC hP
  | jobRead => exact execJobRead_kept hC hP
  | notificationPoll => exact execNotificationPoll_kept hC hP
  | notificationAck => exact execNotificationAck_kept hC hP
  | ntfPost req bits => exact execNtfPost_kept hC req bits hP
  | portPower n on => exact execPortPower_kept hC n on hP
  | usbOvercurrent n => exact execUsbOvercurrent_kept hC n hP
  | babble n => exact execBabble_kept hC n hP
  | usbSuspend => exact execUsbSuspend_kept hC hP
  | usbResumeK => exact execUsbResumeK_kept hC hP
  | usbResumeEnd => exact execUsbResumeEnd_kept hC hP
  | remoteWakeDecision lineK => exact execRemoteWakeDecision_kept hC lineK hP
  | remoteWakeRelease => exact execRemoteWakeRelease_kept hC hP
  | remoteWakeFail => exact execRemoteWakeFail_kept hC hP
  | remoteWakeRetry => exact execRemoteWakeRetry_kept hC hP
  | usbDisable req => exact execUsbDisable_kept hC req hP
  | jobSubmit req o addr => exact execJobSubmit_kept hC req o addr hP
  | nvWrite tag => exact execNvWrite_kept hC tag hP
  | nvErase tag => exact execNvErase_kept hC tag hP
  | calStore tag => exact execCalStore_kept hC tag hP
  | graftSync tag => exact execGraftSync_kept hC tag hP
  | ringStart tag => exact execRingStart_kept hC tag hP
  | scrub tag => exact execScrub_kept hC tag hP
  | bistBough tag fails => exact execBistBough_kept hC tag fails hP
  | imageVerify tag => exact execImageVerify_kept hC tag hP
  | logExport tag => exact execLogExport_kept hC tag hP
  | storePageProgram code mismatch => exact execStorePageProgram_kept hC code mismatch hP
  | jobComplete tag => exact execJobComplete_kept hC tag hP
  | cplRead req o => exact execCplRead_kept hC req o hP
  | clear req => exact execClear_kept hC req hP
  | faultStoreClearDone => exact execFaultStoreClearDone_kept hC hP
  | injectionArm req st mode dbl => exact execInjectionArm_kept hC req st mode dbl hP
  | rsLockstep => exact execRsLockstep_kept hC hP
  | admWrite req u v => exact execAdmWrite_kept hC req u v hP
  | adminAdopt u => exact execAdminAdopt_kept hC u hP
  | admGraceTimeout u => exact execAdmGraceTimeout_kept hC u hP
  | wdtKeyFirst req v => exact execWdtKeyFirst_kept hC req v hP
  | wdtKeySecond req v => exact execWdtKeySecond_kept hC req v hP
  | wdtExpiry => exact execWdtExpiry_kept hC hP
  | wdTripRelease => exact execWdTripRelease_kept hC hP
  | rowWdtService req r v => exact execRowWdtService_kept hC req r v hP
  | rowWdtExpiry r => exact execRowWdtExpiry_kept hC r hP
  | graftHelloSend => exact execGraftHelloSend_kept hC hP
  | graftHello data => exact execGraftHello_kept hC data hP
  | graftLinkLost => exact execGraftLinkLost_kept hC hP
  | beginFrame data => exact execBeginFrame_kept hC data hP
  | dataFrame data => exact execDataFrame_kept hC data hP
  | endFrame data => exact execEndFrame_kept hC data hP
  | ackFrame data => exact execAckFrame_kept hC data hP
  | nakFrame data => exact execNakFrame_kept hC data hP
  | abortFrame data => exact execAbortFrame_kept hC data hP
  | graftAckTimeout => exact execGraftAckTimeout_kept hC hP
  | graftEpochTimeout => exact execGraftEpochTimeout_kept hC hP
  | demote req => exact execDemote_kept hC req hP
  | partnerTrip => exact execPartnerTrip_kept hC hP
  | takeover => exact execTakeover_kept hC hP
  | vbatComparatorRearm hi => exact execVbatComparatorRearm_kept hC hi hP
  | wakeLeavesActive n => exact execWakeLeavesActive_kept hC n hP
  | serdesRailReturn rail => exact execSerdesRailReturn_kept hC rail hP
  | portLockGain p => exact execPortLockGain_kept hC p hP
  | portLinkLost p => exact execPortLinkLost_kept hC p hP
  | pcieLinkUp speed width => exact execPcieLinkUp_kept hC speed width hP
  | perstRise => exact execPerstRise_kept hC hP
  | frameTransmitEnd port => exact execFrameTransmitEnd_kept hC port hP
  | portConnectChange n conn => exact execPortConnectChange_kept hC n conn hP
  | deviceRemoteWakeup fn on => exact execDeviceRemoteWakeup_kept hC fn on hP
  | clearPortSuspend rq => exact execClearPortSuspend_kept hC rq hP

/-- Every command answers a next state. -/
theorem exec_next (i : Instr) (s : State) : ∃ t, exec i s = .next t := by
  cases i <;> exact ⟨_, rfl⟩

/-- The next state of a command has every property that `Closed` describes. -/
theorem exec_closed {P : State → Prop} (hC : Closed P) {i : Instr} {s t : State} (h : exec i s = .next t) (hP : P s) : P t := by
  have k := exec_kept hC i hP
  rw [h] at k
  exact k

end Sys2Proof.Machine
end

