-- ==== Sys2Proof/Laws/Tab.lean ====
section
/-! SUPPORT. The laws of sparse tables: what a read gives after a write, and that every operation keeps the canonical form. -/

namespace Sys2Proof.Machine

variable {α : Type}

@[simp] theorem tabFind_put_same (k : Nat) (v : α) (t : Tab α) : tabFind k (tabPut k v t) = some v := by
  induction t with
  | nil => simp [tabPut, tabFind]
  | cons c t ih =>
    obtain ⟨j, w⟩ := c
    simp only [tabPut]
    split
    · simp [tabFind]
    · split
      · simp [tabFind]
      · simp only [tabFind]
        rw [if_neg (by omega), ih]

theorem tabFind_put_other {k i : Nat} (v : α) (t : Tab α) (h : i ≠ k) : tabFind i (tabPut k v t) = tabFind i t := by
  induction t with
  | nil => simp [tabPut, tabFind, h.symm]
  | cons c t ih =>
    obtain ⟨j, w⟩ := c
    simp only [tabPut]
    split
    · simp [tabFind, h.symm]
    · split
      next e => subst e; simp [tabFind, h.symm]
      · simp only [tabFind, ih]

@[simp] theorem tabFind_del_same (k : Nat) (t : Tab α) : tabFind k (tabDel k t) = none := by
  induction t with
  | nil => rfl
  | cons c t ih =>
    obtain ⟨j, w⟩ := c
    simp only [tabDel]
    split
    · exact ih
    next e => simp [tabFind, e, ih]

theorem tabFind_del_other {k i : Nat} (t : Tab α) (h : i ≠ k) : tabFind i (tabDel k t) = tabFind i t := by
  induction t with
  | nil => rfl
  | cons c t ih =>
    obtain ⟨j, w⟩ := c
    simp only [tabDel]
    split
    next e => subst e; simp [tabFind, h.symm, ih]
    · simp only [tabFind, ih]

/-- A read of the key just written gives what was written. -/
@[simp] theorem tabGet_set_same [DecidableEq α] (d : α) (k : Nat) (v : α) (t : Tab α) : tabGet d k (tabSet d k v t) = v := by
  unfold tabGet tabSet
  split
  next e => simp [e]
  · simp

/-- A write leaves what every other key reads as. -/
theorem tabGet_set_other [DecidableEq α] {k i : Nat} (d e v : α) (t : Tab α) (h : i ≠ k) : tabGet e i (tabSet d k v t) = tabGet e i t := by
  unfold tabGet tabSet
  split
  · rw [tabFind_del_other t h]
  · rw [tabFind_put_other v t h]

theorem tabPut_put (k : Nat) (v w : α) : ∀ t : Tab α, tabPut k v (tabPut k w t) = tabPut k v t
  | [] => by simp [tabPut]
  | (j, x) :: t => by
    by_cases h1 : k < j
    · simp [tabPut, h1]
    · by_cases h2 : k = j
      · simp [tabPut, h2]
      · simp [tabPut, h1, h2, tabPut_put k v w t]

theorem tabDel_put (k : Nat) (w : α) : ∀ t : Tab α, tabDel k (tabPut k w t) = tabDel k t
  | [] => by simp [tabPut, tabDel]
  | (j, x) :: t => by
    by_cases h1 : k < j
    · simp [tabPut, h1, tabDel]
    · by_cases h2 : k = j
      · simp [tabPut, h2, tabDel]
      · simp [tabPut, h1, h2, tabDel, tabDel_put k w t]

/-- A second write of a key replaces the first, which listed it. -/
theorem tabSet_set [DecidableEq α] {d w : α} (h : w ≠ d) (k : Nat) (v : α) (t : Tab α) :
    tabSet d k v (tabSet d k w t) = tabSet d k v t := by
  unfold tabSet
  rw [if_neg h]
  split
  · exact tabDel_put k w t
  · exact tabPut_put k v w t

theorem tabFind_keep (p : Nat → Bool) (k : Nat) (t : Tab α) : tabFind k (tabKeep p t) = if p k then tabFind k t else none := by
  induction t with
  | nil => simp [tabKeep, tabFind]
  | cons c t ih =>
    obtain ⟨j, w⟩ := c
    simp only [tabKeep, List.filter_cons] at ih ⊢
    by_cases e : j = k
    · subst e
      by_cases hp : p j <;> simp [hp, tabFind, ih]
    · by_cases hp : p j <;> simp [hp, tabFind, ih, e]

theorem tabAbove_trans {i j : Nat} {t : Tab α} (h : i ≤ j) (ht : tabAbove j t = true) : tabAbove i t = true := by
  induction t with
  | nil => rfl
  | cons c t ih =>
    obtain ⟨k, w⟩ := c
    simp only [tabAbove, Bool.and_eq_true, decide_eq_true_eq] at ht ⊢
    exact ⟨by omega, ih ht.2⟩

theorem tabAbove_put {i k : Nat} (v : α) {t : Tab α} (h : i < k) (ht : tabAbove i t = true) : tabAbove i (tabPut k v t) = true := by
  induction t with
  | nil => simp [tabPut, tabAbove, h]
  | cons c t ih =>
    obtain ⟨j, w⟩ := c
    simp only [tabAbove, Bool.and_eq_true, decide_eq_true_eq] at ht
    simp only [tabPut]
    split
    · simp [tabAbove, h, ht]
    · split
      · simp [tabAbove, h, ht]
      · simp [tabAbove, ht.1, ih ht.2]

theorem tabAbove_del {i : Nat} (k : Nat) {t : Tab α} (ht : tabAbove i t = true) : tabAbove i (tabDel k t) = true := by
  induction t with
  | nil => rfl
  | cons c t ih =>
    obtain ⟨j, w⟩ := c
    simp only [tabAbove, Bool.and_eq_true, decide_eq_true_eq] at ht
    simp only [tabDel]
    split
    · exact ih ht.2
    · simp [tabAbove, ht.1, ih ht.2]

theorem tabAbove_keep {i : Nat} (p : Nat → Bool) {t : Tab α} (ht : tabAbove i t = true) : tabAbove i (tabKeep p t) = true := by
  induction t with
  | nil => rfl
  | cons c t ih =>
    obtain ⟨j, w⟩ := c
    simp only [tabAbove, Bool.and_eq_true, decide_eq_true_eq] at ht
    simp only [tabKeep, List.filter_cons] at ih ⊢
    split
    · simp [tabAbove, ht.1, ih ht.2]
    · exact ih ht.2

theorem tabWf_put [DecidableEq α] {d : Nat → α} {k : Nat} {v : α} {t : Tab α} (hv : v ≠ d k) (ht : tabWf d t = true) :
    tabWf d (tabPut k v t) = true := by
  induction t with
  | nil => simp [tabPut, tabWf, tabAbove, hv]
  | cons c t ih =>
    obtain ⟨j, w⟩ := c
    simp only [tabWf, Bool.and_eq_true, decide_eq_true_eq] at ht
    simp only [tabPut]
    split
    next h => simp [tabWf, tabAbove, hv, h, ht, tabAbove_trans (Nat.le_of_lt h) ht.1.2]
    · split
      next e => subst e; simp [tabWf, hv, ht]
      · simp only [tabWf, Bool.and_eq_true, decide_eq_true_eq]
        exact ⟨⟨ht.1.1, tabAbove_put v (by omega) ht.1.2⟩, ih ht.2⟩

theorem tabWf_del [DecidableEq α] {d : Nat → α} (k : Nat) {t : Tab α} (ht : tabWf d t = true) : tabWf d (tabDel k t) = true := by
  induction t with
  | nil => rfl
  | cons c t ih =>
    obtain ⟨j, w⟩ := c
    simp only [tabWf, Bool.and_eq_true, decide_eq_true_eq] at ht
    simp only [tabDel]
    split
    · exact ih ht.2
    · simp only [tabWf, Bool.and_eq_true, decide_eq_true_eq]
      exact ⟨⟨ht.1.1, tabAbove_del k ht.1.2⟩, ih ht.2⟩

theorem tabWf_set [DecidableEq α] {d : Nat → α} (k : Nat) (v : α) {t : Tab α} (ht : tabWf d t = true) : tabWf d (tabSet (d k) k v t) = true := by
  unfold tabSet
  split
  · exact tabWf_del k ht
  next hv => exact tabWf_put hv ht

/-- Dropping entries keeps the form for every default that agrees with the old one on the keys kept. -/
theorem tabWf_keep [DecidableEq α] {d e : Nat → α} (p : Nat → Bool) {t : Tab α} (h : ∀ k, p k = true → e k = d k) (ht : tabWf d t = true) :
    tabWf e (tabKeep p t) = true := by
  induction t with
  | nil => rfl
  | cons c t ih =>
    obtain ⟨j, w⟩ := c
    simp only [tabWf, Bool.and_eq_true, decide_eq_true_eq] at ht
    have hk := ih ht.2
    have ha := tabAbove_keep p ht.1.2
    simp only [tabKeep, List.filter_cons] at hk ha ⊢
    split
    next hp =>
      simp only [tabWf, Bool.and_eq_true, decide_eq_true_eq]
      exact ⟨⟨by rw [h j hp]; exact ht.1.1, ha⟩, hk⟩
    · exact hk

theorem tabAbove_find {i k : Nat} {t : Tab α} (h : k ≤ i) (ht : tabAbove i t = true) : tabFind k t = none := by
  induction t with
  | nil => rfl
  | cons c t ih =>
    obtain ⟨j, w⟩ := c
    simp only [tabAbove, Bool.and_eq_true, decide_eq_true_eq] at ht
    simp [tabFind, ih ht.2, show j ≠ k by omega]

theorem tabWf_find_ne [DecidableEq α] {d : Nat → α} {t : Tab α} (ht : tabWf d t = true) {k : Nat} {v : α} (h : tabFind k t = some v) : v ≠ d k := by
  induction t with
  | nil => simp [tabFind] at h
  | cons c t ih =>
    obtain ⟨j, w⟩ := c
    simp only [tabWf, Bool.and_eq_true, decide_eq_true_eq] at ht
    simp only [tabFind] at h
    split at h
    next e => subst e; cases h; exact ht.1.1
    · exact ih ht.2 h

/-- In canonical form, tables that read alike are equal: equal memories are equal data. -/
theorem tabWf_ext [DecidableEq α] {d : Nat → α} : ∀ {t u : Tab α}, tabWf d t = true → tabWf d u = true →
    (∀ k, tabGet (d k) k t = tabGet (d k) k u) → t = u
  | [], [], _, _, _ => rfl
  | [], (j, v) :: u, _, hu, h => by
    have := h j
    simp only [tabWf, Bool.and_eq_true, decide_eq_true_eq] at hu
    simp [tabGet, tabFind] at this
    exact absurd this.symm hu.1.1
  | (j, v) :: t, [], ht, _, h => by
    have := h j
    simp only [tabWf, Bool.and_eq_true, decide_eq_true_eq] at ht
    simp [tabGet, tabFind] at this
    exact absurd this ht.1.1
  | (j, v) :: t, (k, w) :: u, ht, hu, h => by
    have ht' := ht
    have hu' := hu
    simp only [tabWf, Bool.and_eq_true, decide_eq_true_eq] at ht hu
    have hjk : j = k := by
      rcases Nat.lt_trichotomy j k with hl | he | hl
      · have := h j
        simp [tabGet, tabFind, show k ≠ j by omega, tabAbove_find (Nat.le_of_lt hl) hu.1.2] at this
        exact absurd this ht.1.1
      · exact he
      · have := h k
        simp [tabGet, tabFind, show j ≠ k by omega, tabAbove_find (Nat.le_of_lt hl) ht.1.2] at this
        exact absurd this.symm hu.1.1
    subst hjk
    have hv : v = w := by simpa [tabGet, tabFind] using h j
    subst hv
    have : t = u := tabWf_ext ht.2 hu.2 (fun i => by
      by_cases e : j = i
      · subst e
        simp [tabGet, tabAbove_find (Nat.le_refl j) ht.1.2, tabAbove_find (Nat.le_refl j) hu.1.2]
      · have := h i
        simpa [tabGet, tabFind, e] using this)
    rw [this]

end Sys2Proof.Machine
end

