-- ==== Sys2Proof/Laws/State.lean ====
section
/-! SUPPORT. What each update of the state leaves of each field: one lemma per update and field, and per update and reader. -/

namespace Sys2Proof.Machine

@[simp] theorem State.setReg_pending (s : State) (off : Nat) (v : Word) : (s.setReg off v).pending = s.pending := rfl
@[simp] theorem State.setReg_freeCtr (s : State) (off : Nat) (v : Word) : (s.setReg off v).freeCtr = s.freeCtr := rfl
@[simp] theorem State.setReg_clk (s : State) (off : Nat) (v : Word) : (s.setReg off v).clk = s.clk := rfl
@[simp] theorem State.setReg_out (s : State) (off : Nat) (v : Word) : (s.setReg off v).out = s.out := rfl
@[simp] theorem State.setReg_rdShadow (s : State) (off : Nat) (v : Word) : (s.setReg off v).rdShadow = s.rdShadow := rfl
@[simp] theorem State.setReg_wrShadow (s : State) (off : Nat) (v : Word) : (s.setReg off v).wrShadow = s.wrShadow := rfl
@[simp] theorem State.setReg_mem (s : State) (off : Nat) (v : Word) : (s.setReg off v).mem = s.mem := rfl
@[simp] theorem State.setReg_rsMem (s : State) (off : Nat) (v : Word) : (s.setReg off v).rsMem = s.rsMem := rfl
@[simp] theorem State.setReg_nv (s : State) (off : Nat) (v : Word) : (s.setReg off v).nv = s.nv := rfl
@[simp] theorem State.setReg_nvCounts (s : State) (off : Nat) (v : Word) : (s.setReg off v).nvCounts = s.nvCounts := rfl
@[simp] theorem State.setReg_fill (s : State) (off : Nat) (v : Word) : (s.setReg off v).fill = s.fill := rfl
@[simp] theorem State.setReg_rram (s : State) (off : Nat) (v : Word) : (s.setReg off v).rram = s.rram := rfl
@[simp] theorem State.setReg_ecc (s : State) (off : Nat) (v : Word) : (s.setReg off v).ecc = s.ecc := rfl
@[simp] theorem State.setReg_rsEcc (s : State) (off : Nat) (v : Word) : (s.setReg off v).rsEcc = s.rsEcc := rfl
@[simp] theorem State.setReg_rramEcc (s : State) (off : Nat) (v : Word) : (s.setReg off v).rramEcc = s.rramEcc := rfl
@[simp] theorem State.setReg_nvEcc (s : State) (off : Nat) (v : Word) : (s.setReg off v).nvEcc = s.nvEcc := rfl
@[simp] theorem State.setReg_saEcc (s : State) (off : Nat) (v : Word) : (s.setReg off v).saEcc = s.saEcc := rfl
@[simp] theorem State.setReg_threads (s : State) (off : Nat) (v : Word) : (s.setReg off v).threads = s.threads := rfl
@[simp] theorem State.setReg_helpers (s : State) (off : Nat) (v : Word) : (s.setReg off v).helpers = s.helpers := rfl
@[simp] theorem State.setReg_tap (s : State) (off : Nat) (v : Word) : (s.setReg off v).tap = s.tap := rfl
@[simp] theorem State.setReg_slow (s : State) (off : Nat) (v : Word) : (s.setReg off v).slow = s.slow := rfl
@[simp] theorem State.setReg_admOff (s : State) (off : Nat) (v : Word) : (s.setReg off v).admOff = s.admOff := rfl
@[simp] theorem State.setReg_fuses (s : State) (off : Nat) (v : Word) : (s.setReg off v).fuses = s.fuses := rfl
@[simp] theorem State.setReg_boot (s : State) (off : Nat) (v : Word) : (s.setReg off v).boot = s.boot := rfl
@[simp] theorem State.setReg_loops (s : State) (off : Nat) (v : Word) : (s.setReg off v).loops = s.loops := rfl
@[simp] theorem State.setReg_phases (s : State) (off : Nat) (v : Word) : (s.setReg off v).phases = s.phases := rfl
@[simp] theorem State.setReg_convs (s : State) (off : Nat) (v : Word) : (s.setReg off v).convs = s.convs := rfl
@[simp] theorem State.setReg_cnv (s : State) (off : Nat) (v : Word) : (s.setReg off v).cnv = s.cnv := rfl
@[simp] theorem State.setReg_gov (s : State) (off : Nat) (v : Word) : (s.setReg off v).gov = s.gov := rfl
@[simp] theorem State.setReg_fanForced (s : State) (off : Nat) (v : Word) : (s.setReg off v).fanForced = s.fanForced := rfl
@[simp] theorem State.setReg_bat (s : State) (off : Nat) (v : Word) : (s.setReg off v).bat = s.bat := rfl
@[simp] theorem State.setReg_batKeep (s : State) (off : Nat) (v : Word) : (s.setReg off v).batKeep = s.batKeep := rfl
@[simp] theorem State.setReg_pm (s : State) (off : Nat) (v : Word) : (s.setReg off v).pm = s.pm := rfl
@[simp] theorem State.setReg_ctl (s : State) (off : Nat) (v : Word) : (s.setReg off v).ctl = s.ctl := rfl
@[simp] theorem State.setReg_rows (s : State) (off : Nat) (v : Word) : (s.setReg off v).rows = s.rows := rfl
@[simp] theorem State.setReg_perst (s : State) (off : Nat) (v : Word) : (s.setReg off v).perst = s.perst := rfl
@[simp] theorem State.setReg_esp (s : State) (off : Nat) (v : Word) : (s.setReg off v).esp = s.esp := rfl
@[simp] theorem State.setReg_ports (s : State) (off : Nat) (v : Word) : (s.setReg off v).ports = s.ports := rfl
@[simp] theorem State.setReg_saMaster (s : State) (off : Nat) (v : Word) : (s.setReg off v).saMaster = s.saMaster := rfl
@[simp] theorem State.setReg_saCopies (s : State) (off : Nat) (v : Word) : (s.setReg off v).saCopies = s.saCopies := rfl
@[simp] theorem State.setReg_msecBusy (s : State) (off : Nat) (v : Word) : (s.setReg off v).msecBusy = s.msecBusy := rfl
@[simp] theorem State.setReg_dtb (s : State) (off : Nat) (v : Word) : (s.setReg off v).dtb = s.dtb := rfl
@[simp] theorem State.setReg_ring (s : State) (off : Nat) (v : Word) : (s.setReg off v).ring = s.ring := rfl
@[simp] theorem State.setReg_usb (s : State) (off : Nat) (v : Word) : (s.setReg off v).usb = s.usb := rfl
@[simp] theorem State.setReg_jobs (s : State) (off : Nat) (v : Word) : (s.setReg off v).jobs = s.jobs := rfl
@[simp] theorem State.setReg_fst (s : State) (off : Nat) (v : Word) : (s.setReg off v).fst = s.fst := rfl
@[simp] theorem State.setReg_pins (s : State) (off : Nat) (v : Word) : (s.setReg off v).pins = s.pins := rfl
@[simp] theorem State.setReg_graft (s : State) (off : Nat) (v : Word) : (s.setReg off v).graft = s.graft := rfl
theorem State.setReg_regs (s : State) (off : Nat) (v : Word) : (s.setReg off v).regs = tabSet (coldWord off) off v s.regs := rfl
@[simp] theorem State.setReg_thr (s : State) (off : Nat) (v : Word) (j : Nat) : (s.setReg off v).thr j = s.thr j := rfl
@[simp] theorem State.setReg_row (s : State) (off : Nat) (v : Word) (i : Nat) : (s.setReg off v).row i = s.row i := rfl
@[simp] theorem State.setReg_loop (s : State) (off : Nat) (v : Word) (i : Nat) : (s.setReg off v).loop i = s.loop i := rfl
@[simp] theorem State.setReg_phase (s : State) (off : Nat) (v : Word) (i : Nat) : (s.setReg off v).phase i = s.phase i := rfl
@[simp] theorem State.setReg_conv (s : State) (off : Nat) (v : Word) (i : Nat) : (s.setReg off v).conv i = s.conv i := rfl
@[simp] theorem State.setReg_govOf (s : State) (off : Nat) (v : Word) (i : Nat) : (s.setReg off v).govOf i = s.govOf i := rfl
@[simp] theorem State.setReg_port (s : State) (off : Nat) (v : Word) (i : Nat) : (s.setReg off v).port i = s.port i := rfl

@[simp] theorem State.setFld_pending (s : State) (f : Fld) (v : Nat) : (s.setFld f v).pending = s.pending := rfl
@[simp] theorem State.setFld_freeCtr (s : State) (f : Fld) (v : Nat) : (s.setFld f v).freeCtr = s.freeCtr := rfl
@[simp] theorem State.setFld_clk (s : State) (f : Fld) (v : Nat) : (s.setFld f v).clk = s.clk := rfl
@[simp] theorem State.setFld_out (s : State) (f : Fld) (v : Nat) : (s.setFld f v).out = s.out := rfl
@[simp] theorem State.setFld_rdShadow (s : State) (f : Fld) (v : Nat) : (s.setFld f v).rdShadow = s.rdShadow := rfl
@[simp] theorem State.setFld_wrShadow (s : State) (f : Fld) (v : Nat) : (s.setFld f v).wrShadow = s.wrShadow := rfl
@[simp] theorem State.setFld_mem (s : State) (f : Fld) (v : Nat) : (s.setFld f v).mem = s.mem := rfl
@[simp] theorem State.setFld_rsMem (s : State) (f : Fld) (v : Nat) : (s.setFld f v).rsMem = s.rsMem := rfl
@[simp] theorem State.setFld_nv (s : State) (f : Fld) (v : Nat) : (s.setFld f v).nv = s.nv := rfl
@[simp] theorem State.setFld_nvCounts (s : State) (f : Fld) (v : Nat) : (s.setFld f v).nvCounts = s.nvCounts := rfl
@[simp] theorem State.setFld_fill (s : State) (f : Fld) (v : Nat) : (s.setFld f v).fill = s.fill := rfl
@[simp] theorem State.setFld_rram (s : State) (f : Fld) (v : Nat) : (s.setFld f v).rram = s.rram := rfl
@[simp] theorem State.setFld_ecc (s : State) (f : Fld) (v : Nat) : (s.setFld f v).ecc = s.ecc := rfl
@[simp] theorem State.setFld_rsEcc (s : State) (f : Fld) (v : Nat) : (s.setFld f v).rsEcc = s.rsEcc := rfl
@[simp] theorem State.setFld_rramEcc (s : State) (f : Fld) (v : Nat) : (s.setFld f v).rramEcc = s.rramEcc := rfl
@[simp] theorem State.setFld_nvEcc (s : State) (f : Fld) (v : Nat) : (s.setFld f v).nvEcc = s.nvEcc := rfl
@[simp] theorem State.setFld_saEcc (s : State) (f : Fld) (v : Nat) : (s.setFld f v).saEcc = s.saEcc := rfl
@[simp] theorem State.setFld_threads (s : State) (f : Fld) (v : Nat) : (s.setFld f v).threads = s.threads := rfl
@[simp] theorem State.setFld_helpers (s : State) (f : Fld) (v : Nat) : (s.setFld f v).helpers = s.helpers := rfl
@[simp] theorem State.setFld_tap (s : State) (f : Fld) (v : Nat) : (s.setFld f v).tap = s.tap := rfl
@[simp] theorem State.setFld_slow (s : State) (f : Fld) (v : Nat) : (s.setFld f v).slow = s.slow := rfl
@[simp] theorem State.setFld_admOff (s : State) (f : Fld) (v : Nat) : (s.setFld f v).admOff = s.admOff := rfl
@[simp] theorem State.setFld_fuses (s : State) (f : Fld) (v : Nat) : (s.setFld f v).fuses = s.fuses := rfl
@[simp] theorem State.setFld_boot (s : State) (f : Fld) (v : Nat) : (s.setFld f v).boot = s.boot := rfl
@[simp] theorem State.setFld_loops (s : State) (f : Fld) (v : Nat) : (s.setFld f v).loops = s.loops := rfl
@[simp] theorem State.setFld_phases (s : State) (f : Fld) (v : Nat) : (s.setFld f v).phases = s.phases := rfl
@[simp] theorem State.setFld_convs (s : State) (f : Fld) (v : Nat) : (s.setFld f v).convs = s.convs := rfl
@[simp] theorem State.setFld_cnv (s : State) (f : Fld) (v : Nat) : (s.setFld f v).cnv = s.cnv := rfl
@[simp] theorem State.setFld_gov (s : State) (f : Fld) (v : Nat) : (s.setFld f v).gov = s.gov := rfl
@[simp] theorem State.setFld_fanForced (s : State) (f : Fld) (v : Nat) : (s.setFld f v).fanForced = s.fanForced := rfl
@[simp] theorem State.setFld_bat (s : State) (f : Fld) (v : Nat) : (s.setFld f v).bat = s.bat := rfl
@[simp] theorem State.setFld_batKeep (s : State) (f : Fld) (v : Nat) : (s.setFld f v).batKeep = s.batKeep := rfl
@[simp] theorem State.setFld_pm (s : State) (f : Fld) (v : Nat) : (s.setFld f v).pm = s.pm := rfl
@[simp] theorem State.setFld_ctl (s : State) (f : Fld) (v : Nat) : (s.setFld f v).ctl = s.ctl := rfl
@[simp] theorem State.setFld_rows (s : State) (f : Fld) (v : Nat) : (s.setFld f v).rows = s.rows := rfl
@[simp] theorem State.setFld_perst (s : State) (f : Fld) (v : Nat) : (s.setFld f v).perst = s.perst := rfl
@[simp] theorem State.setFld_esp (s : State) (f : Fld) (v : Nat) : (s.setFld f v).esp = s.esp := rfl
@[simp] theorem State.setFld_ports (s : State) (f : Fld) (v : Nat) : (s.setFld f v).ports = s.ports := rfl
@[simp] theorem State.setFld_saMaster (s : State) (f : Fld) (v : Nat) : (s.setFld f v).saMaster = s.saMaster := rfl
@[simp] theorem State.setFld_saCopies (s : State) (f : Fld) (v : Nat) : (s.setFld f v).saCopies = s.saCopies := rfl
@[simp] theorem State.setFld_msecBusy (s : State) (f : Fld) (v : Nat) : (s.setFld f v).msecBusy = s.msecBusy := rfl
@[simp] theorem State.setFld_dtb (s : State) (f : Fld) (v : Nat) : (s.setFld f v).dtb = s.dtb := rfl
@[simp] theorem State.setFld_ring (s : State) (f : Fld) (v : Nat) : (s.setFld f v).ring = s.ring := rfl
@[simp] theorem State.setFld_usb (s : State) (f : Fld) (v : Nat) : (s.setFld f v).usb = s.usb := rfl
@[simp] theorem State.setFld_jobs (s : State) (f : Fld) (v : Nat) : (s.setFld f v).jobs = s.jobs := rfl
@[simp] theorem State.setFld_fst (s : State) (f : Fld) (v : Nat) : (s.setFld f v).fst = s.fst := rfl
@[simp] theorem State.setFld_pins (s : State) (f : Fld) (v : Nat) : (s.setFld f v).pins = s.pins := rfl
@[simp] theorem State.setFld_graft (s : State) (f : Fld) (v : Nat) : (s.setFld f v).graft = s.graft := rfl
@[simp] theorem State.setFld_thr (s : State) (f : Fld) (v : Nat) (j : Nat) : (s.setFld f v).thr j = s.thr j := rfl
@[simp] theorem State.setFld_row (s : State) (f : Fld) (v : Nat) (i : Nat) : (s.setFld f v).row i = s.row i := rfl
@[simp] theorem State.setFld_loop (s : State) (f : Fld) (v : Nat) (i : Nat) : (s.setFld f v).loop i = s.loop i := rfl
@[simp] theorem State.setFld_phase (s : State) (f : Fld) (v : Nat) (i : Nat) : (s.setFld f v).phase i = s.phase i := rfl
@[simp] theorem State.setFld_conv (s : State) (f : Fld) (v : Nat) (i : Nat) : (s.setFld f v).conv i = s.conv i := rfl
@[simp] theorem State.setFld_govOf (s : State) (f : Fld) (v : Nat) (i : Nat) : (s.setFld f v).govOf i = s.govOf i := rfl
@[simp] theorem State.setFld_port (s : State) (f : Fld) (v : Nat) (i : Nat) : (s.setFld f v).port i = s.port i := rfl

@[simp] theorem State.setPair_pending (s : State) (lo hi v : Nat) : (s.setPair lo hi v).pending = s.pending := rfl
@[simp] theorem State.setPair_freeCtr (s : State) (lo hi v : Nat) : (s.setPair lo hi v).freeCtr = s.freeCtr := rfl
@[simp] theorem State.setPair_clk (s : State) (lo hi v : Nat) : (s.setPair lo hi v).clk = s.clk := rfl
@[simp] theorem State.setPair_out (s : State) (lo hi v : Nat) : (s.setPair lo hi v).out = s.out := rfl
@[simp] theorem State.setPair_rdShadow (s : State) (lo hi v : Nat) : (s.setPair lo hi v).rdShadow = s.rdShadow := rfl
@[simp] theorem State.setPair_wrShadow (s : State) (lo hi v : Nat) : (s.setPair lo hi v).wrShadow = s.wrShadow := rfl
@[simp] theorem State.setPair_mem (s : State) (lo hi v : Nat) : (s.setPair lo hi v).mem = s.mem := rfl
@[simp] theorem State.setPair_rsMem (s : State) (lo hi v : Nat) : (s.setPair lo hi v).rsMem = s.rsMem := rfl
@[simp] theorem State.setPair_nv (s : State) (lo hi v : Nat) : (s.setPair lo hi v).nv = s.nv := rfl
@[simp] theorem State.setPair_nvCounts (s : State) (lo hi v : Nat) : (s.setPair lo hi v).nvCounts = s.nvCounts := rfl
@[simp] theorem State.setPair_fill (s : State) (lo hi v : Nat) : (s.setPair lo hi v).fill = s.fill := rfl
@[simp] theorem State.setPair_rram (s : State) (lo hi v : Nat) : (s.setPair lo hi v).rram = s.rram := rfl
@[simp] theorem State.setPair_ecc (s : State) (lo hi v : Nat) : (s.setPair lo hi v).ecc = s.ecc := rfl
@[simp] theorem State.setPair_rsEcc (s : State) (lo hi v : Nat) : (s.setPair lo hi v).rsEcc = s.rsEcc := rfl
@[simp] theorem State.setPair_rramEcc (s : State) (lo hi v : Nat) : (s.setPair lo hi v).rramEcc = s.rramEcc := rfl
@[simp] theorem State.setPair_nvEcc (s : State) (lo hi v : Nat) : (s.setPair lo hi v).nvEcc = s.nvEcc := rfl
@[simp] theorem State.setPair_saEcc (s : State) (lo hi v : Nat) : (s.setPair lo hi v).saEcc = s.saEcc := rfl
@[simp] theorem State.setPair_threads (s : State) (lo hi v : Nat) : (s.setPair lo hi v).threads = s.threads := rfl
@[simp] theorem State.setPair_helpers (s : State) (lo hi v : Nat) : (s.setPair lo hi v).helpers = s.helpers := rfl
@[simp] theorem State.setPair_tap (s : State) (lo hi v : Nat) : (s.setPair lo hi v).tap = s.tap := rfl
@[simp] theorem State.setPair_slow (s : State) (lo hi v : Nat) : (s.setPair lo hi v).slow = s.slow := rfl
@[simp] theorem State.setPair_admOff (s : State) (lo hi v : Nat) : (s.setPair lo hi v).admOff = s.admOff := rfl
@[simp] theorem State.setPair_fuses (s : State) (lo hi v : Nat) : (s.setPair lo hi v).fuses = s.fuses := rfl
@[simp] theorem State.setPair_boot (s : State) (lo hi v : Nat) : (s.setPair lo hi v).boot = s.boot := rfl
@[simp] theorem State.setPair_loops (s : State) (lo hi v : Nat) : (s.setPair lo hi v).loops = s.loops := rfl
@[simp] theorem State.setPair_phases (s : State) (lo hi v : Nat) : (s.setPair lo hi v).phases = s.phases := rfl
@[simp] theorem State.setPair_convs (s : State) (lo hi v : Nat) : (s.setPair lo hi v).convs = s.convs := rfl
@[simp] theorem State.setPair_cnv (s : State) (lo hi v : Nat) : (s.setPair lo hi v).cnv = s.cnv := rfl
@[simp] theorem State.setPair_gov (s : State) (lo hi v : Nat) : (s.setPair lo hi v).gov = s.gov := rfl
@[simp] theorem State.setPair_fanForced (s : State) (lo hi v : Nat) : (s.setPair lo hi v).fanForced = s.fanForced := rfl
@[simp] theorem State.setPair_bat (s : State) (lo hi v : Nat) : (s.setPair lo hi v).bat = s.bat := rfl
@[simp] theorem State.setPair_batKeep (s : State) (lo hi v : Nat) : (s.setPair lo hi v).batKeep = s.batKeep := rfl
@[simp] theorem State.setPair_pm (s : State) (lo hi v : Nat) : (s.setPair lo hi v).pm = s.pm := rfl
@[simp] theorem State.setPair_ctl (s : State) (lo hi v : Nat) : (s.setPair lo hi v).ctl = s.ctl := rfl
@[simp] theorem State.setPair_rows (s : State) (lo hi v : Nat) : (s.setPair lo hi v).rows = s.rows := rfl
@[simp] theorem State.setPair_perst (s : State) (lo hi v : Nat) : (s.setPair lo hi v).perst = s.perst := rfl
@[simp] theorem State.setPair_esp (s : State) (lo hi v : Nat) : (s.setPair lo hi v).esp = s.esp := rfl
@[simp] theorem State.setPair_ports (s : State) (lo hi v : Nat) : (s.setPair lo hi v).ports = s.ports := rfl
@[simp] theorem State.setPair_saMaster (s : State) (lo hi v : Nat) : (s.setPair lo hi v).saMaster = s.saMaster := rfl
@[simp] theorem State.setPair_saCopies (s : State) (lo hi v : Nat) : (s.setPair lo hi v).saCopies = s.saCopies := rfl
@[simp] theorem State.setPair_msecBusy (s : State) (lo hi v : Nat) : (s.setPair lo hi v).msecBusy = s.msecBusy := rfl
@[simp] theorem State.setPair_dtb (s : State) (lo hi v : Nat) : (s.setPair lo hi v).dtb = s.dtb := rfl
@[simp] theorem State.setPair_ring (s : State) (lo hi v : Nat) : (s.setPair lo hi v).ring = s.ring := rfl
@[simp] theorem State.setPair_usb (s : State) (lo hi v : Nat) : (s.setPair lo hi v).usb = s.usb := rfl
@[simp] theorem State.setPair_jobs (s : State) (lo hi v : Nat) : (s.setPair lo hi v).jobs = s.jobs := rfl
@[simp] theorem State.setPair_fst (s : State) (lo hi v : Nat) : (s.setPair lo hi v).fst = s.fst := rfl
@[simp] theorem State.setPair_pins (s : State) (lo hi v : Nat) : (s.setPair lo hi v).pins = s.pins := rfl
@[simp] theorem State.setPair_graft (s : State) (lo hi v : Nat) : (s.setPair lo hi v).graft = s.graft := rfl
@[simp] theorem State.setPair_thr (s : State) (lo hi v : Nat) (j : Nat) : (s.setPair lo hi v).thr j = s.thr j := rfl
@[simp] theorem State.setPair_row (s : State) (lo hi v : Nat) (i : Nat) : (s.setPair lo hi v).row i = s.row i := rfl
@[simp] theorem State.setPair_loop (s : State) (lo hi v : Nat) (i : Nat) : (s.setPair lo hi v).loop i = s.loop i := rfl
@[simp] theorem State.setPair_phase (s : State) (lo hi v : Nat) (i : Nat) : (s.setPair lo hi v).phase i = s.phase i := rfl
@[simp] theorem State.setPair_conv (s : State) (lo hi v : Nat) (i : Nat) : (s.setPair lo hi v).conv i = s.conv i := rfl
@[simp] theorem State.setPair_govOf (s : State) (lo hi v : Nat) (i : Nat) : (s.setPair lo hi v).govOf i = s.govOf i := rfl
@[simp] theorem State.setPair_port (s : State) (lo hi v : Nat) (i : Nat) : (s.setPair lo hi v).port i = s.port i := rfl

@[simp] theorem State.setBit_pending (s : State) (off n : Nat) : (s.setBit off n).pending = s.pending := rfl
@[simp] theorem State.setBit_freeCtr (s : State) (off n : Nat) : (s.setBit off n).freeCtr = s.freeCtr := rfl
@[simp] theorem State.setBit_clk (s : State) (off n : Nat) : (s.setBit off n).clk = s.clk := rfl
@[simp] theorem State.setBit_out (s : State) (off n : Nat) : (s.setBit off n).out = s.out := rfl
@[simp] theorem State.setBit_rdShadow (s : State) (off n : Nat) : (s.setBit off n).rdShadow = s.rdShadow := rfl
@[simp] theorem State.setBit_wrShadow (s : State) (off n : Nat) : (s.setBit off n).wrShadow = s.wrShadow := rfl
@[simp] theorem State.setBit_mem (s : State) (off n : Nat) : (s.setBit off n).mem = s.mem := rfl
@[simp] theorem State.setBit_rsMem (s : State) (off n : Nat) : (s.setBit off n).rsMem = s.rsMem := rfl
@[simp] theorem State.setBit_nv (s : State) (off n : Nat) : (s.setBit off n).nv = s.nv := rfl
@[simp] theorem State.setBit_nvCounts (s : State) (off n : Nat) : (s.setBit off n).nvCounts = s.nvCounts := rfl
@[simp] theorem State.setBit_fill (s : State) (off n : Nat) : (s.setBit off n).fill = s.fill := rfl
@[simp] theorem State.setBit_rram (s : State) (off n : Nat) : (s.setBit off n).rram = s.rram := rfl
@[simp] theorem State.setBit_ecc (s : State) (off n : Nat) : (s.setBit off n).ecc = s.ecc := rfl
@[simp] theorem State.setBit_rsEcc (s : State) (off n : Nat) : (s.setBit off n).rsEcc = s.rsEcc := rfl
@[simp] theorem State.setBit_rramEcc (s : State) (off n : Nat) : (s.setBit off n).rramEcc = s.rramEcc := rfl
@[simp] theorem State.setBit_nvEcc (s : State) (off n : Nat) : (s.setBit off n).nvEcc = s.nvEcc := rfl
@[simp] theorem State.setBit_saEcc (s : State) (off n : Nat) : (s.setBit off n).saEcc = s.saEcc := rfl
@[simp] theorem State.setBit_threads (s : State) (off n : Nat) : (s.setBit off n).threads = s.threads := rfl
@[simp] theorem State.setBit_helpers (s : State) (off n : Nat) : (s.setBit off n).helpers = s.helpers := rfl
@[simp] theorem State.setBit_tap (s : State) (off n : Nat) : (s.setBit off n).tap = s.tap := rfl
@[simp] theorem State.setBit_slow (s : State) (off n : Nat) : (s.setBit off n).slow = s.slow := rfl
@[simp] theorem State.setBit_admOff (s : State) (off n : Nat) : (s.setBit off n).admOff = s.admOff := rfl
@[simp] theorem State.setBit_fuses (s : State) (off n : Nat) : (s.setBit off n).fuses = s.fuses := rfl
@[simp] theorem State.setBit_boot (s : State) (off n : Nat) : (s.setBit off n).boot = s.boot := rfl
@[simp] theorem State.setBit_loops (s : State) (off n : Nat) : (s.setBit off n).loops = s.loops := rfl
@[simp] theorem State.setBit_phases (s : State) (off n : Nat) : (s.setBit off n).phases = s.phases := rfl
@[simp] theorem State.setBit_convs (s : State) (off n : Nat) : (s.setBit off n).convs = s.convs := rfl
@[simp] theorem State.setBit_cnv (s : State) (off n : Nat) : (s.setBit off n).cnv = s.cnv := rfl
@[simp] theorem State.setBit_gov (s : State) (off n : Nat) : (s.setBit off n).gov = s.gov := rfl
@[simp] theorem State.setBit_fanForced (s : State) (off n : Nat) : (s.setBit off n).fanForced = s.fanForced := rfl
@[simp] theorem State.setBit_bat (s : State) (off n : Nat) : (s.setBit off n).bat = s.bat := rfl
@[simp] theorem State.setBit_batKeep (s : State) (off n : Nat) : (s.setBit off n).batKeep = s.batKeep := rfl
@[simp] theorem State.setBit_pm (s : State) (off n : Nat) : (s.setBit off n).pm = s.pm := rfl
@[simp] theorem State.setBit_ctl (s : State) (off n : Nat) : (s.setBit off n).ctl = s.ctl := rfl
@[simp] theorem State.setBit_rows (s : State) (off n : Nat) : (s.setBit off n).rows = s.rows := rfl
@[simp] theorem State.setBit_perst (s : State) (off n : Nat) : (s.setBit off n).perst = s.perst := rfl
@[simp] theorem State.setBit_esp (s : State) (off n : Nat) : (s.setBit off n).esp = s.esp := rfl
@[simp] theorem State.setBit_ports (s : State) (off n : Nat) : (s.setBit off n).ports = s.ports := rfl
@[simp] theorem State.setBit_saMaster (s : State) (off n : Nat) : (s.setBit off n).saMaster = s.saMaster := rfl
@[simp] theorem State.setBit_saCopies (s : State) (off n : Nat) : (s.setBit off n).saCopies = s.saCopies := rfl
@[simp] theorem State.setBit_msecBusy (s : State) (off n : Nat) : (s.setBit off n).msecBusy = s.msecBusy := rfl
@[simp] theorem State.setBit_dtb (s : State) (off n : Nat) : (s.setBit off n).dtb = s.dtb := rfl
@[simp] theorem State.setBit_ring (s : State) (off n : Nat) : (s.setBit off n).ring = s.ring := rfl
@[simp] theorem State.setBit_usb (s : State) (off n : Nat) : (s.setBit off n).usb = s.usb := rfl
@[simp] theorem State.setBit_jobs (s : State) (off n : Nat) : (s.setBit off n).jobs = s.jobs := rfl
@[simp] theorem State.setBit_fst (s : State) (off n : Nat) : (s.setBit off n).fst = s.fst := rfl
@[simp] theorem State.setBit_pins (s : State) (off n : Nat) : (s.setBit off n).pins = s.pins := rfl
@[simp] theorem State.setBit_graft (s : State) (off n : Nat) : (s.setBit off n).graft = s.graft := rfl
@[simp] theorem State.setBit_thr (s : State) (off n : Nat) (j : Nat) : (s.setBit off n).thr j = s.thr j := rfl
@[simp] theorem State.setBit_row (s : State) (off n : Nat) (i : Nat) : (s.setBit off n).row i = s.row i := rfl
@[simp] theorem State.setBit_loop (s : State) (off n : Nat) (i : Nat) : (s.setBit off n).loop i = s.loop i := rfl
@[simp] theorem State.setBit_phase (s : State) (off n : Nat) (i : Nat) : (s.setBit off n).phase i = s.phase i := rfl
@[simp] theorem State.setBit_conv (s : State) (off n : Nat) (i : Nat) : (s.setBit off n).conv i = s.conv i := rfl
@[simp] theorem State.setBit_govOf (s : State) (off n : Nat) (i : Nat) : (s.setBit off n).govOf i = s.govOf i := rfl
@[simp] theorem State.setBit_port (s : State) (off n : Nat) (i : Nat) : (s.setBit off n).port i = s.port i := rfl

@[simp] theorem State.clrBit_pending (s : State) (off n : Nat) : (s.clrBit off n).pending = s.pending := rfl
@[simp] theorem State.clrBit_freeCtr (s : State) (off n : Nat) : (s.clrBit off n).freeCtr = s.freeCtr := rfl
@[simp] theorem State.clrBit_clk (s : State) (off n : Nat) : (s.clrBit off n).clk = s.clk := rfl
@[simp] theorem State.clrBit_out (s : State) (off n : Nat) : (s.clrBit off n).out = s.out := rfl
@[simp] theorem State.clrBit_rdShadow (s : State) (off n : Nat) : (s.clrBit off n).rdShadow = s.rdShadow := rfl
@[simp] theorem State.clrBit_wrShadow (s : State) (off n : Nat) : (s.clrBit off n).wrShadow = s.wrShadow := rfl
@[simp] theorem State.clrBit_mem (s : State) (off n : Nat) : (s.clrBit off n).mem = s.mem := rfl
@[simp] theorem State.clrBit_rsMem (s : State) (off n : Nat) : (s.clrBit off n).rsMem = s.rsMem := rfl
@[simp] theorem State.clrBit_nv (s : State) (off n : Nat) : (s.clrBit off n).nv = s.nv := rfl
@[simp] theorem State.clrBit_nvCounts (s : State) (off n : Nat) : (s.clrBit off n).nvCounts = s.nvCounts := rfl
@[simp] theorem State.clrBit_fill (s : State) (off n : Nat) : (s.clrBit off n).fill = s.fill := rfl
@[simp] theorem State.clrBit_rram (s : State) (off n : Nat) : (s.clrBit off n).rram = s.rram := rfl
@[simp] theorem State.clrBit_ecc (s : State) (off n : Nat) : (s.clrBit off n).ecc = s.ecc := rfl
@[simp] theorem State.clrBit_rsEcc (s : State) (off n : Nat) : (s.clrBit off n).rsEcc = s.rsEcc := rfl
@[simp] theorem State.clrBit_rramEcc (s : State) (off n : Nat) : (s.clrBit off n).rramEcc = s.rramEcc := rfl
@[simp] theorem State.clrBit_nvEcc (s : State) (off n : Nat) : (s.clrBit off n).nvEcc = s.nvEcc := rfl
@[simp] theorem State.clrBit_saEcc (s : State) (off n : Nat) : (s.clrBit off n).saEcc = s.saEcc := rfl
@[simp] theorem State.clrBit_threads (s : State) (off n : Nat) : (s.clrBit off n).threads = s.threads := rfl
@[simp] theorem State.clrBit_helpers (s : State) (off n : Nat) : (s.clrBit off n).helpers = s.helpers := rfl
@[simp] theorem State.clrBit_tap (s : State) (off n : Nat) : (s.clrBit off n).tap = s.tap := rfl
@[simp] theorem State.clrBit_slow (s : State) (off n : Nat) : (s.clrBit off n).slow = s.slow := rfl
@[simp] theorem State.clrBit_admOff (s : State) (off n : Nat) : (s.clrBit off n).admOff = s.admOff := rfl
@[simp] theorem State.clrBit_fuses (s : State) (off n : Nat) : (s.clrBit off n).fuses = s.fuses := rfl
@[simp] theorem State.clrBit_boot (s : State) (off n : Nat) : (s.clrBit off n).boot = s.boot := rfl
@[simp] theorem State.clrBit_loops (s : State) (off n : Nat) : (s.clrBit off n).loops = s.loops := rfl
@[simp] theorem State.clrBit_phases (s : State) (off n : Nat) : (s.clrBit off n).phases = s.phases := rfl
@[simp] theorem State.clrBit_convs (s : State) (off n : Nat) : (s.clrBit off n).convs = s.convs := rfl
@[simp] theorem State.clrBit_cnv (s : State) (off n : Nat) : (s.clrBit off n).cnv = s.cnv := rfl
@[simp] theorem State.clrBit_gov (s : State) (off n : Nat) : (s.clrBit off n).gov = s.gov := rfl
@[simp] theorem State.clrBit_fanForced (s : State) (off n : Nat) : (s.clrBit off n).fanForced = s.fanForced := rfl
@[simp] theorem State.clrBit_bat (s : State) (off n : Nat) : (s.clrBit off n).bat = s.bat := rfl
@[simp] theorem State.clrBit_batKeep (s : State) (off n : Nat) : (s.clrBit off n).batKeep = s.batKeep := rfl
@[simp] theorem State.clrBit_pm (s : State) (off n : Nat) : (s.clrBit off n).pm = s.pm := rfl
@[simp] theorem State.clrBit_ctl (s : State) (off n : Nat) : (s.clrBit off n).ctl = s.ctl := rfl
@[simp] theorem State.clrBit_rows (s : State) (off n : Nat) : (s.clrBit off n).rows = s.rows := rfl
@[simp] theorem State.clrBit_perst (s : State) (off n : Nat) : (s.clrBit off n).perst = s.perst := rfl
@[simp] theorem State.clrBit_esp (s : State) (off n : Nat) : (s.clrBit off n).esp = s.esp := rfl
@[simp] theorem State.clrBit_ports (s : State) (off n : Nat) : (s.clrBit off n).ports = s.ports := rfl
@[simp] theorem State.clrBit_saMaster (s : State) (off n : Nat) : (s.clrBit off n).saMaster = s.saMaster := rfl
@[simp] theorem State.clrBit_saCopies (s : State) (off n : Nat) : (s.clrBit off n).saCopies = s.saCopies := rfl
@[simp] theorem State.clrBit_msecBusy (s : State) (off n : Nat) : (s.clrBit off n).msecBusy = s.msecBusy := rfl
@[simp] theorem State.clrBit_dtb (s : State) (off n : Nat) : (s.clrBit off n).dtb = s.dtb := rfl
@[simp] theorem State.clrBit_ring (s : State) (off n : Nat) : (s.clrBit off n).ring = s.ring := rfl
@[simp] theorem State.clrBit_usb (s : State) (off n : Nat) : (s.clrBit off n).usb = s.usb := rfl
@[simp] theorem State.clrBit_jobs (s : State) (off n : Nat) : (s.clrBit off n).jobs = s.jobs := rfl
@[simp] theorem State.clrBit_fst (s : State) (off n : Nat) : (s.clrBit off n).fst = s.fst := rfl
@[simp] theorem State.clrBit_pins (s : State) (off n : Nat) : (s.clrBit off n).pins = s.pins := rfl
@[simp] theorem State.clrBit_graft (s : State) (off n : Nat) : (s.clrBit off n).graft = s.graft := rfl
@[simp] theorem State.clrBit_thr (s : State) (off n : Nat) (j : Nat) : (s.clrBit off n).thr j = s.thr j := rfl
@[simp] theorem State.clrBit_row (s : State) (off n : Nat) (i : Nat) : (s.clrBit off n).row i = s.row i := rfl
@[simp] theorem State.clrBit_loop (s : State) (off n : Nat) (i : Nat) : (s.clrBit off n).loop i = s.loop i := rfl
@[simp] theorem State.clrBit_phase (s : State) (off n : Nat) (i : Nat) : (s.clrBit off n).phase i = s.phase i := rfl
@[simp] theorem State.clrBit_conv (s : State) (off n : Nat) (i : Nat) : (s.clrBit off n).conv i = s.conv i := rfl
@[simp] theorem State.clrBit_govOf (s : State) (off n : Nat) (i : Nat) : (s.clrBit off n).govOf i = s.govOf i := rfl
@[simp] theorem State.clrBit_port (s : State) (off n : Nat) (i : Nat) : (s.clrBit off n).port i = s.port i := rfl

@[simp] theorem State.satAdd_pending (s : State) (f : Fld) (k top : Nat) : (s.satAdd f k top).pending = s.pending := rfl
@[simp] theorem State.satAdd_freeCtr (s : State) (f : Fld) (k top : Nat) : (s.satAdd f k top).freeCtr = s.freeCtr := rfl
@[simp] theorem State.satAdd_clk (s : State) (f : Fld) (k top : Nat) : (s.satAdd f k top).clk = s.clk := rfl
@[simp] theorem State.satAdd_out (s : State) (f : Fld) (k top : Nat) : (s.satAdd f k top).out = s.out := rfl
@[simp] theorem State.satAdd_rdShadow (s : State) (f : Fld) (k top : Nat) : (s.satAdd f k top).rdShadow = s.rdShadow := rfl
@[simp] theorem State.satAdd_wrShadow (s : State) (f : Fld) (k top : Nat) : (s.satAdd f k top).wrShadow = s.wrShadow := rfl
@[simp] theorem State.satAdd_mem (s : State) (f : Fld) (k top : Nat) : (s.satAdd f k top).mem = s.mem := rfl
@[simp] theorem State.satAdd_rsMem (s : State) (f : Fld) (k top : Nat) : (s.satAdd f k top).rsMem = s.rsMem := rfl
@[simp] theorem State.satAdd_nv (s : State) (f : Fld) (k top : Nat) : (s.satAdd f k top).nv = s.nv := rfl
@[simp] theorem State.satAdd_nvCounts (s : State) (f : Fld) (k top : Nat) : (s.satAdd f k top).nvCounts = s.nvCounts := rfl
@[simp] theorem State.satAdd_fill (s : State) (f : Fld) (k top : Nat) : (s.satAdd f k top).fill = s.fill := rfl
@[simp] theorem State.satAdd_rram (s : State) (f : Fld) (k top : Nat) : (s.satAdd f k top).rram = s.rram := rfl
@[simp] theorem State.satAdd_ecc (s : State) (f : Fld) (k top : Nat) : (s.satAdd f k top).ecc = s.ecc := rfl
@[simp] theorem State.satAdd_rsEcc (s : State) (f : Fld) (k top : Nat) : (s.satAdd f k top).rsEcc = s.rsEcc := rfl
@[simp] theorem State.satAdd_rramEcc (s : State) (f : Fld) (k top : Nat) : (s.satAdd f k top).rramEcc = s.rramEcc := rfl
@[simp] theorem State.satAdd_nvEcc (s : State) (f : Fld) (k top : Nat) : (s.satAdd f k top).nvEcc = s.nvEcc := rfl
@[simp] theorem State.satAdd_saEcc (s : State) (f : Fld) (k top : Nat) : (s.satAdd f k top).saEcc = s.saEcc := rfl
@[simp] theorem State.satAdd_threads (s : State) (f : Fld) (k top : Nat) : (s.satAdd f k top).threads = s.threads := rfl
@[simp] theorem State.satAdd_helpers (s : State) (f : Fld) (k top : Nat) : (s.satAdd f k top).helpers = s.helpers := rfl
@[simp] theorem State.satAdd_tap (s : State) (f : Fld) (k top : Nat) : (s.satAdd f k top).tap = s.tap := rfl
@[simp] theorem State.satAdd_slow (s : State) (f : Fld) (k top : Nat) : (s.satAdd f k top).slow = s.slow := rfl
@[simp] theorem State.satAdd_admOff (s : State) (f : Fld) (k top : Nat) : (s.satAdd f k top).admOff = s.admOff := rfl
@[simp] theorem State.satAdd_fuses (s : State) (f : Fld) (k top : Nat) : (s.satAdd f k top).fuses = s.fuses := rfl
@[simp] theorem State.satAdd_boot (s : State) (f : Fld) (k top : Nat) : (s.satAdd f k top).boot = s.boot := rfl
@[simp] theorem State.satAdd_loops (s : State) (f : Fld) (k top : Nat) : (s.satAdd f k top).loops = s.loops := rfl
@[simp] theorem State.satAdd_phases (s : State) (f : Fld) (k top : Nat) : (s.satAdd f k top).phases = s.phases := rfl
@[simp] theorem State.satAdd_convs (s : State) (f : Fld) (k top : Nat) : (s.satAdd f k top).convs = s.convs := rfl
@[simp] theorem State.satAdd_cnv (s : State) (f : Fld) (k top : Nat) : (s.satAdd f k top).cnv = s.cnv := rfl
@[simp] theorem State.satAdd_gov (s : State) (f : Fld) (k top : Nat) : (s.satAdd f k top).gov = s.gov := rfl
@[simp] theorem State.satAdd_fanForced (s : State) (f : Fld) (k top : Nat) : (s.satAdd f k top).fanForced = s.fanForced := rfl
@[simp] theorem State.satAdd_bat (s : State) (f : Fld) (k top : Nat) : (s.satAdd f k top).bat = s.bat := rfl
@[simp] theorem State.satAdd_batKeep (s : State) (f : Fld) (k top : Nat) : (s.satAdd f k top).batKeep = s.batKeep := rfl
@[simp] theorem State.satAdd_pm (s : State) (f : Fld) (k top : Nat) : (s.satAdd f k top).pm = s.pm := rfl
@[simp] theorem State.satAdd_ctl (s : State) (f : Fld) (k top : Nat) : (s.satAdd f k top).ctl = s.ctl := rfl
@[simp] theorem State.satAdd_rows (s : State) (f : Fld) (k top : Nat) : (s.satAdd f k top).rows = s.rows := rfl
@[simp] theorem State.satAdd_perst (s : State) (f : Fld) (k top : Nat) : (s.satAdd f k top).perst = s.perst := rfl
@[simp] theorem State.satAdd_esp (s : State) (f : Fld) (k top : Nat) : (s.satAdd f k top).esp = s.esp := rfl
@[simp] theorem State.satAdd_ports (s : State) (f : Fld) (k top : Nat) : (s.satAdd f k top).ports = s.ports := rfl
@[simp] theorem State.satAdd_saMaster (s : State) (f : Fld) (k top : Nat) : (s.satAdd f k top).saMaster = s.saMaster := rfl
@[simp] theorem State.satAdd_saCopies (s : State) (f : Fld) (k top : Nat) : (s.satAdd f k top).saCopies = s.saCopies := rfl
@[simp] theorem State.satAdd_msecBusy (s : State) (f : Fld) (k top : Nat) : (s.satAdd f k top).msecBusy = s.msecBusy := rfl
@[simp] theorem State.satAdd_dtb (s : State) (f : Fld) (k top : Nat) : (s.satAdd f k top).dtb = s.dtb := rfl
@[simp] theorem State.satAdd_ring (s : State) (f : Fld) (k top : Nat) : (s.satAdd f k top).ring = s.ring := rfl
@[simp] theorem State.satAdd_usb (s : State) (f : Fld) (k top : Nat) : (s.satAdd f k top).usb = s.usb := rfl
@[simp] theorem State.satAdd_jobs (s : State) (f : Fld) (k top : Nat) : (s.satAdd f k top).jobs = s.jobs := rfl
@[simp] theorem State.satAdd_fst (s : State) (f : Fld) (k top : Nat) : (s.satAdd f k top).fst = s.fst := rfl
@[simp] theorem State.satAdd_pins (s : State) (f : Fld) (k top : Nat) : (s.satAdd f k top).pins = s.pins := rfl
@[simp] theorem State.satAdd_graft (s : State) (f : Fld) (k top : Nat) : (s.satAdd f k top).graft = s.graft := rfl
@[simp] theorem State.satAdd_thr (s : State) (f : Fld) (k top : Nat) (j : Nat) : (s.satAdd f k top).thr j = s.thr j := rfl
@[simp] theorem State.satAdd_row (s : State) (f : Fld) (k top : Nat) (i : Nat) : (s.satAdd f k top).row i = s.row i := rfl
@[simp] theorem State.satAdd_loop (s : State) (f : Fld) (k top : Nat) (i : Nat) : (s.satAdd f k top).loop i = s.loop i := rfl
@[simp] theorem State.satAdd_phase (s : State) (f : Fld) (k top : Nat) (i : Nat) : (s.satAdd f k top).phase i = s.phase i := rfl
@[simp] theorem State.satAdd_conv (s : State) (f : Fld) (k top : Nat) (i : Nat) : (s.satAdd f k top).conv i = s.conv i := rfl
@[simp] theorem State.satAdd_govOf (s : State) (f : Fld) (k top : Nat) (i : Nat) : (s.satAdd f k top).govOf i = s.govOf i := rfl
@[simp] theorem State.satAdd_port (s : State) (f : Fld) (k top : Nat) (i : Nat) : (s.satAdd f k top).port i = s.port i := rfl

@[simp] theorem State.send_pending (s : State) (o : Out) : (s.send o).pending = s.pending := rfl
@[simp] theorem State.send_freeCtr (s : State) (o : Out) : (s.send o).freeCtr = s.freeCtr := rfl
@[simp] theorem State.send_clk (s : State) (o : Out) : (s.send o).clk = s.clk := rfl
@[simp] theorem State.send_regs (s : State) (o : Out) : (s.send o).regs = s.regs := rfl
@[simp] theorem State.send_rdShadow (s : State) (o : Out) : (s.send o).rdShadow = s.rdShadow := rfl
@[simp] theorem State.send_wrShadow (s : State) (o : Out) : (s.send o).wrShadow = s.wrShadow := rfl
@[simp] theorem State.send_mem (s : State) (o : Out) : (s.send o).mem = s.mem := rfl
@[simp] theorem State.send_rsMem (s : State) (o : Out) : (s.send o).rsMem = s.rsMem := rfl
@[simp] theorem State.send_nv (s : State) (o : Out) : (s.send o).nv = s.nv := rfl
@[simp] theorem State.send_nvCounts (s : State) (o : Out) : (s.send o).nvCounts = s.nvCounts := rfl
@[simp] theorem State.send_fill (s : State) (o : Out) : (s.send o).fill = s.fill := rfl
@[simp] theorem State.send_rram (s : State) (o : Out) : (s.send o).rram = s.rram := rfl
@[simp] theorem State.send_ecc (s : State) (o : Out) : (s.send o).ecc = s.ecc := rfl
@[simp] theorem State.send_rsEcc (s : State) (o : Out) : (s.send o).rsEcc = s.rsEcc := rfl
@[simp] theorem State.send_rramEcc (s : State) (o : Out) : (s.send o).rramEcc = s.rramEcc := rfl
@[simp] theorem State.send_nvEcc (s : State) (o : Out) : (s.send o).nvEcc = s.nvEcc := rfl
@[simp] theorem State.send_saEcc (s : State) (o : Out) : (s.send o).saEcc = s.saEcc := rfl
@[simp] theorem State.send_threads (s : State) (o : Out) : (s.send o).threads = s.threads := rfl
@[simp] theorem State.send_helpers (s : State) (o : Out) : (s.send o).helpers = s.helpers := rfl
@[simp] theorem State.send_tap (s : State) (o : Out) : (s.send o).tap = s.tap := rfl
@[simp] theorem State.send_slow (s : State) (o : Out) : (s.send o).slow = s.slow := rfl
@[simp] theorem State.send_admOff (s : State) (o : Out) : (s.send o).admOff = s.admOff := rfl
@[simp] theorem State.send_fuses (s : State) (o : Out) : (s.send o).fuses = s.fuses := rfl
@[simp] theorem State.send_boot (s : State) (o : Out) : (s.send o).boot = s.boot := rfl
@[simp] theorem State.send_loops (s : State) (o : Out) : (s.send o).loops = s.loops := rfl
@[simp] theorem State.send_phases (s : State) (o : Out) : (s.send o).phases = s.phases := rfl
@[simp] theorem State.send_convs (s : State) (o : Out) : (s.send o).convs = s.convs := rfl
@[simp] theorem State.send_cnv (s : State) (o : Out) : (s.send o).cnv = s.cnv := rfl
@[simp] theorem State.send_gov (s : State) (o : Out) : (s.send o).gov = s.gov := rfl
@[simp] theorem State.send_fanForced (s : State) (o : Out) : (s.send o).fanForced = s.fanForced := rfl
@[simp] theorem State.send_bat (s : State) (o : Out) : (s.send o).bat = s.bat := rfl
@[simp] theorem State.send_batKeep (s : State) (o : Out) : (s.send o).batKeep = s.batKeep := rfl
@[simp] theorem State.send_pm (s : State) (o : Out) : (s.send o).pm = s.pm := rfl
@[simp] theorem State.send_ctl (s : State) (o : Out) : (s.send o).ctl = s.ctl := rfl
@[simp] theorem State.send_rows (s : State) (o : Out) : (s.send o).rows = s.rows := rfl
@[simp] theorem State.send_perst (s : State) (o : Out) : (s.send o).perst = s.perst := rfl
@[simp] theorem State.send_esp (s : State) (o : Out) : (s.send o).esp = s.esp := rfl
@[simp] theorem State.send_ports (s : State) (o : Out) : (s.send o).ports = s.ports := rfl
@[simp] theorem State.send_saMaster (s : State) (o : Out) : (s.send o).saMaster = s.saMaster := rfl
@[simp] theorem State.send_saCopies (s : State) (o : Out) : (s.send o).saCopies = s.saCopies := rfl
@[simp] theorem State.send_msecBusy (s : State) (o : Out) : (s.send o).msecBusy = s.msecBusy := rfl
@[simp] theorem State.send_dtb (s : State) (o : Out) : (s.send o).dtb = s.dtb := rfl
@[simp] theorem State.send_ring (s : State) (o : Out) : (s.send o).ring = s.ring := rfl
@[simp] theorem State.send_usb (s : State) (o : Out) : (s.send o).usb = s.usb := rfl
@[simp] theorem State.send_jobs (s : State) (o : Out) : (s.send o).jobs = s.jobs := rfl
@[simp] theorem State.send_fst (s : State) (o : Out) : (s.send o).fst = s.fst := rfl
@[simp] theorem State.send_pins (s : State) (o : Out) : (s.send o).pins = s.pins := rfl
@[simp] theorem State.send_graft (s : State) (o : Out) : (s.send o).graft = s.graft := rfl
theorem State.send_out (s : State) (o : Out) : (s.send o).out = o :: s.out := rfl
@[simp] theorem State.send_reg (s : State) (o : Out) (q : Nat) : (s.send o).reg q = s.reg q := rfl
@[simp] theorem State.send_fld (s : State) (o : Out) (g : Fld) : (s.send o).fld g = s.fld g := rfl
@[simp] theorem State.send_flag (s : State) (o : Out) (g : Fld) : (s.send o).flag g = s.flag g := rfl
@[simp] theorem State.send_granted (s : State) (o : Out) (d : Nat) : (s.send o).granted d = s.granted d := rfl
@[simp] theorem State.send_ready (s : State) (o : Out) (i : Nat) : (s.send o).ready i = s.ready i := rfl
@[simp] theorem State.send_safe (s : State) (o : Out) : (s.send o).safe = s.safe := rfl
@[simp] theorem State.send_thr (s : State) (o : Out) (j : Nat) : (s.send o).thr j = s.thr j := rfl
@[simp] theorem State.send_row (s : State) (o : Out) (i : Nat) : (s.send o).row i = s.row i := rfl
@[simp] theorem State.send_loop (s : State) (o : Out) (i : Nat) : (s.send o).loop i = s.loop i := rfl
@[simp] theorem State.send_phase (s : State) (o : Out) (i : Nat) : (s.send o).phase i = s.phase i := rfl
@[simp] theorem State.send_conv (s : State) (o : Out) (i : Nat) : (s.send o).conv i = s.conv i := rfl
@[simp] theorem State.send_govOf (s : State) (o : Out) (i : Nat) : (s.send o).govOf i = s.govOf i := rfl
@[simp] theorem State.send_port (s : State) (o : Out) (i : Nat) : (s.send o).port i = s.port i := rfl

@[simp] theorem State.tookFree_pending (s : State) : (s.tookFree).pending = s.pending := rfl
@[simp] theorem State.tookFree_clk (s : State) : (s.tookFree).clk = s.clk := rfl
@[simp] theorem State.tookFree_out (s : State) : (s.tookFree).out = s.out := rfl
@[simp] theorem State.tookFree_regs (s : State) : (s.tookFree).regs = s.regs := rfl
@[simp] theorem State.tookFree_rdShadow (s : State) : (s.tookFree).rdShadow = s.rdShadow := rfl
@[simp] theorem State.tookFree_wrShadow (s : State) : (s.tookFree).wrShadow = s.wrShadow := rfl
@[simp] theorem State.tookFree_mem (s : State) : (s.tookFree).mem = s.mem := rfl
@[simp] theorem State.tookFree_rsMem (s : State) : (s.tookFree).rsMem = s.rsMem := rfl
@[simp] theorem State.tookFree_nv (s : State) : (s.tookFree).nv = s.nv := rfl
@[simp] theorem State.tookFree_nvCounts (s : State) : (s.tookFree).nvCounts = s.nvCounts := rfl
@[simp] theorem State.tookFree_fill (s : State) : (s.tookFree).fill = s.fill := rfl
@[simp] theorem State.tookFree_rram (s : State) : (s.tookFree).rram = s.rram := rfl
@[simp] theorem State.tookFree_ecc (s : State) : (s.tookFree).ecc = s.ecc := rfl
@[simp] theorem State.tookFree_rsEcc (s : State) : (s.tookFree).rsEcc = s.rsEcc := rfl
@[simp] theorem State.tookFree_rramEcc (s : State) : (s.tookFree).rramEcc = s.rramEcc := rfl
@[simp] theorem State.tookFree_nvEcc (s : State) : (s.tookFree).nvEcc = s.nvEcc := rfl
@[simp] theorem State.tookFree_saEcc (s : State) : (s.tookFree).saEcc = s.saEcc := rfl
@[simp] theorem State.tookFree_threads (s : State) : (s.tookFree).threads = s.threads := rfl
@[simp] theorem State.tookFree_helpers (s : State) : (s.tookFree).helpers = s.helpers := rfl
@[simp] theorem State.tookFree_tap (s : State) : (s.tookFree).tap = s.tap := rfl
@[simp] theorem State.tookFree_slow (s : State) : (s.tookFree).slow = s.slow := rfl
@[simp] theorem State.tookFree_admOff (s : State) : (s.tookFree).admOff = s.admOff := rfl
@[simp] theorem State.tookFree_fuses (s : State) : (s.tookFree).fuses = s.fuses := rfl
@[simp] theorem State.tookFree_boot (s : State) : (s.tookFree).boot = s.boot := rfl
@[simp] theorem State.tookFree_loops (s : State) : (s.tookFree).loops = s.loops := rfl
@[simp] theorem State.tookFree_phases (s : State) : (s.tookFree).phases = s.phases := rfl
@[simp] theorem State.tookFree_convs (s : State) : (s.tookFree).convs = s.convs := rfl
@[simp] theorem State.tookFree_cnv (s : State) : (s.tookFree).cnv = s.cnv := rfl
@[simp] theorem State.tookFree_gov (s : State) : (s.tookFree).gov = s.gov := rfl
@[simp] theorem State.tookFree_fanForced (s : State) : (s.tookFree).fanForced = s.fanForced := rfl
@[simp] theorem State.tookFree_bat (s : State) : (s.tookFree).bat = s.bat := rfl
@[simp] theorem State.tookFree_batKeep (s : State) : (s.tookFree).batKeep = s.batKeep := rfl
@[simp] theorem State.tookFree_pm (s : State) : (s.tookFree).pm = s.pm := rfl
@[simp] theorem State.tookFree_ctl (s : State) : (s.tookFree).ctl = s.ctl := rfl
@[simp] theorem State.tookFree_rows (s : State) : (s.tookFree).rows = s.rows := rfl
@[simp] theorem State.tookFree_perst (s : State) : (s.tookFree).perst = s.perst := rfl
@[simp] theorem State.tookFree_esp (s : State) : (s.tookFree).esp = s.esp := rfl
@[simp] theorem State.tookFree_ports (s : State) : (s.tookFree).ports = s.ports := rfl
@[simp] theorem State.tookFree_saMaster (s : State) : (s.tookFree).saMaster = s.saMaster := rfl
@[simp] theorem State.tookFree_saCopies (s : State) : (s.tookFree).saCopies = s.saCopies := rfl
@[simp] theorem State.tookFree_msecBusy (s : State) : (s.tookFree).msecBusy = s.msecBusy := rfl
@[simp] theorem State.tookFree_dtb (s : State) : (s.tookFree).dtb = s.dtb := rfl
@[simp] theorem State.tookFree_ring (s : State) : (s.tookFree).ring = s.ring := rfl
@[simp] theorem State.tookFree_usb (s : State) : (s.tookFree).usb = s.usb := rfl
@[simp] theorem State.tookFree_jobs (s : State) : (s.tookFree).jobs = s.jobs := rfl
@[simp] theorem State.tookFree_fst (s : State) : (s.tookFree).fst = s.fst := rfl
@[simp] theorem State.tookFree_pins (s : State) : (s.tookFree).pins = s.pins := rfl
@[simp] theorem State.tookFree_graft (s : State) : (s.tookFree).graft = s.graft := rfl
theorem State.tookFree_freeCtr (s : State) : (s.tookFree).freeCtr = s.freeCtr + 1 := rfl
@[simp] theorem State.tookFree_reg (s : State) (q : Nat) : (s.tookFree).reg q = s.reg q := rfl
@[simp] theorem State.tookFree_fld (s : State) (g : Fld) : (s.tookFree).fld g = s.fld g := rfl
@[simp] theorem State.tookFree_flag (s : State) (g : Fld) : (s.tookFree).flag g = s.flag g := rfl
@[simp] theorem State.tookFree_granted (s : State) (d : Nat) : (s.tookFree).granted d = s.granted d := rfl
@[simp] theorem State.tookFree_ready (s : State) (i : Nat) : (s.tookFree).ready i = s.ready i := rfl
@[simp] theorem State.tookFree_safe (s : State) : (s.tookFree).safe = s.safe := rfl
@[simp] theorem State.tookFree_thr (s : State) (j : Nat) : (s.tookFree).thr j = s.thr j := rfl
@[simp] theorem State.tookFree_row (s : State) (i : Nat) : (s.tookFree).row i = s.row i := rfl
@[simp] theorem State.tookFree_loop (s : State) (i : Nat) : (s.tookFree).loop i = s.loop i := rfl
@[simp] theorem State.tookFree_phase (s : State) (i : Nat) : (s.tookFree).phase i = s.phase i := rfl
@[simp] theorem State.tookFree_conv (s : State) (i : Nat) : (s.tookFree).conv i = s.conv i := rfl
@[simp] theorem State.tookFree_govOf (s : State) (i : Nat) : (s.tookFree).govOf i = s.govOf i := rfl
@[simp] theorem State.tookFree_port (s : State) (i : Nat) : (s.tookFree).port i = s.port i := rfl

@[simp] theorem State.setThr_pending (s : State) (k : Nat) (t : Thread) : (s.setThr k t).pending = s.pending := rfl
@[simp] theorem State.setThr_freeCtr (s : State) (k : Nat) (t : Thread) : (s.setThr k t).freeCtr = s.freeCtr := rfl
@[simp] theorem State.setThr_clk (s : State) (k : Nat) (t : Thread) : (s.setThr k t).clk = s.clk := rfl
@[simp] theorem State.setThr_out (s : State) (k : Nat) (t : Thread) : (s.setThr k t).out = s.out := rfl
@[simp] theorem State.setThr_regs (s : State) (k : Nat) (t : Thread) : (s.setThr k t).regs = s.regs := rfl
@[simp] theorem State.setThr_rdShadow (s : State) (k : Nat) (t : Thread) : (s.setThr k t).rdShadow = s.rdShadow := rfl
@[simp] theorem State.setThr_wrShadow (s : State) (k : Nat) (t : Thread) : (s.setThr k t).wrShadow = s.wrShadow := rfl
@[simp] theorem State.setThr_mem (s : State) (k : Nat) (t : Thread) : (s.setThr k t).mem = s.mem := rfl
@[simp] theorem State.setThr_rsMem (s : State) (k : Nat) (t : Thread) : (s.setThr k t).rsMem = s.rsMem := rfl
@[simp] theorem State.setThr_nv (s : State) (k : Nat) (t : Thread) : (s.setThr k t).nv = s.nv := rfl
@[simp] theorem State.setThr_nvCounts (s : State) (k : Nat) (t : Thread) : (s.setThr k t).nvCounts = s.nvCounts := rfl
@[simp] theorem State.setThr_fill (s : State) (k : Nat) (t : Thread) : (s.setThr k t).fill = s.fill := rfl
@[simp] theorem State.setThr_rram (s : State) (k : Nat) (t : Thread) : (s.setThr k t).rram = s.rram := rfl
@[simp] theorem State.setThr_ecc (s : State) (k : Nat) (t : Thread) : (s.setThr k t).ecc = s.ecc := rfl
@[simp] theorem State.setThr_rsEcc (s : State) (k : Nat) (t : Thread) : (s.setThr k t).rsEcc = s.rsEcc := rfl
@[simp] theorem State.setThr_rramEcc (s : State) (k : Nat) (t : Thread) : (s.setThr k t).rramEcc = s.rramEcc := rfl
@[simp] theorem State.setThr_nvEcc (s : State) (k : Nat) (t : Thread) : (s.setThr k t).nvEcc = s.nvEcc := rfl
@[simp] theorem State.setThr_saEcc (s : State) (k : Nat) (t : Thread) : (s.setThr k t).saEcc = s.saEcc := rfl
@[simp] theorem State.setThr_helpers (s : State) (k : Nat) (t : Thread) : (s.setThr k t).helpers = s.helpers := rfl
@[simp] theorem State.setThr_tap (s : State) (k : Nat) (t : Thread) : (s.setThr k t).tap = s.tap := rfl
@[simp] theorem State.setThr_slow (s : State) (k : Nat) (t : Thread) : (s.setThr k t).slow = s.slow := rfl
@[simp] theorem State.setThr_admOff (s : State) (k : Nat) (t : Thread) : (s.setThr k t).admOff = s.admOff := rfl
@[simp] theorem State.setThr_fuses (s : State) (k : Nat) (t : Thread) : (s.setThr k t).fuses = s.fuses := rfl
@[simp] theorem State.setThr_boot (s : State) (k : Nat) (t : Thread) : (s.setThr k t).boot = s.boot := rfl
@[simp] theorem State.setThr_loops (s : State) (k : Nat) (t : Thread) : (s.setThr k t).loops = s.loops := rfl
@[simp] theorem State.setThr_phases (s : State) (k : Nat) (t : Thread) : (s.setThr k t).phases = s.phases := rfl
@[simp] theorem State.setThr_convs (s : State) (k : Nat) (t : Thread) : (s.setThr k t).convs = s.convs := rfl
@[simp] theorem State.setThr_cnv (s : State) (k : Nat) (t : Thread) : (s.setThr k t).cnv = s.cnv := rfl
@[simp] theorem State.setThr_gov (s : State) (k : Nat) (t : Thread) : (s.setThr k t).gov = s.gov := rfl
@[simp] theorem State.setThr_fanForced (s : State) (k : Nat) (t : Thread) : (s.setThr k t).fanForced = s.fanForced := rfl
@[simp] theorem State.setThr_bat (s : State) (k : Nat) (t : Thread) : (s.setThr k t).bat = s.bat := rfl
@[simp] theorem State.setThr_batKeep (s : State) (k : Nat) (t : Thread) : (s.setThr k t).batKeep = s.batKeep := rfl
@[simp] theorem State.setThr_pm (s : State) (k : Nat) (t : Thread) : (s.setThr k t).pm = s.pm := rfl
@[simp] theorem State.setThr_ctl (s : State) (k : Nat) (t : Thread) : (s.setThr k t).ctl = s.ctl := rfl
@[simp] theorem State.setThr_rows (s : State) (k : Nat) (t : Thread) : (s.setThr k t).rows = s.rows := rfl
@[simp] theorem State.setThr_perst (s : State) (k : Nat) (t : Thread) : (s.setThr k t).perst = s.perst := rfl
@[simp] theorem State.setThr_esp (s : State) (k : Nat) (t : Thread) : (s.setThr k t).esp = s.esp := rfl
@[simp] theorem State.setThr_ports (s : State) (k : Nat) (t : Thread) : (s.setThr k t).ports = s.ports := rfl
@[simp] theorem State.setThr_saMaster (s : State) (k : Nat) (t : Thread) : (s.setThr k t).saMaster = s.saMaster := rfl
@[simp] theorem State.setThr_saCopies (s : State) (k : Nat) (t : Thread) : (s.setThr k t).saCopies = s.saCopies := rfl
@[simp] theorem State.setThr_msecBusy (s : State) (k : Nat) (t : Thread) : (s.setThr k t).msecBusy = s.msecBusy := rfl
@[simp] theorem State.setThr_dtb (s : State) (k : Nat) (t : Thread) : (s.setThr k t).dtb = s.dtb := rfl
@[simp] theorem State.setThr_ring (s : State) (k : Nat) (t : Thread) : (s.setThr k t).ring = s.ring := rfl
@[simp] theorem State.setThr_usb (s : State) (k : Nat) (t : Thread) : (s.setThr k t).usb = s.usb := rfl
@[simp] theorem State.setThr_jobs (s : State) (k : Nat) (t : Thread) : (s.setThr k t).jobs = s.jobs := rfl
@[simp] theorem State.setThr_fst (s : State) (k : Nat) (t : Thread) : (s.setThr k t).fst = s.fst := rfl
@[simp] theorem State.setThr_pins (s : State) (k : Nat) (t : Thread) : (s.setThr k t).pins = s.pins := rfl
@[simp] theorem State.setThr_graft (s : State) (k : Nat) (t : Thread) : (s.setThr k t).graft = s.graft := rfl
theorem State.setThr_threads (s : State) (k : Nat) (t : Thread) : (s.setThr k t).threads = tabSet (threadDflt k) k t s.threads := rfl
@[simp] theorem State.setThr_reg (s : State) (k : Nat) (t : Thread) (q : Nat) : (s.setThr k t).reg q = s.reg q := rfl
@[simp] theorem State.setThr_fld (s : State) (k : Nat) (t : Thread) (g : Fld) : (s.setThr k t).fld g = s.fld g := rfl
@[simp] theorem State.setThr_flag (s : State) (k : Nat) (t : Thread) (g : Fld) : (s.setThr k t).flag g = s.flag g := rfl
@[simp] theorem State.setThr_granted (s : State) (k : Nat) (t : Thread) (d : Nat) : (s.setThr k t).granted d = s.granted d := rfl
@[simp] theorem State.setThr_ready (s : State) (k : Nat) (t : Thread) (i : Nat) : (s.setThr k t).ready i = s.ready i := rfl
@[simp] theorem State.setThr_safe (s : State) (k : Nat) (t : Thread) : (s.setThr k t).safe = s.safe := rfl
@[simp] theorem State.setThr_row (s : State) (k : Nat) (t : Thread) (i : Nat) : (s.setThr k t).row i = s.row i := rfl
@[simp] theorem State.setThr_loop (s : State) (k : Nat) (t : Thread) (i : Nat) : (s.setThr k t).loop i = s.loop i := rfl
@[simp] theorem State.setThr_phase (s : State) (k : Nat) (t : Thread) (i : Nat) : (s.setThr k t).phase i = s.phase i := rfl
@[simp] theorem State.setThr_conv (s : State) (k : Nat) (t : Thread) (i : Nat) : (s.setThr k t).conv i = s.conv i := rfl
@[simp] theorem State.setThr_govOf (s : State) (k : Nat) (t : Thread) (i : Nat) : (s.setThr k t).govOf i = s.govOf i := rfl
@[simp] theorem State.setThr_port (s : State) (k : Nat) (t : Thread) (i : Nat) : (s.setThr k t).port i = s.port i := rfl

@[simp] theorem State.updThr_pending (s : State) (k : Nat) (f : Thread → Thread) : (s.updThr k f).pending = s.pending := rfl
@[simp] theorem State.updThr_freeCtr (s : State) (k : Nat) (f : Thread → Thread) : (s.updThr k f).freeCtr = s.freeCtr := rfl
@[simp] theorem State.updThr_clk (s : State) (k : Nat) (f : Thread → Thread) : (s.updThr k f).clk = s.clk := rfl
@[simp] theorem State.updThr_out (s : State) (k : Nat) (f : Thread → Thread) : (s.updThr k f).out = s.out := rfl
@[simp] theorem State.updThr_regs (s : State) (k : Nat) (f : Thread → Thread) : (s.updThr k f).regs = s.regs := rfl
@[simp] theorem State.updThr_rdShadow (s : State) (k : Nat) (f : Thread → Thread) : (s.updThr k f).rdShadow = s.rdShadow := rfl
@[simp] theorem State.updThr_wrShadow (s : State) (k : Nat) (f : Thread → Thread) : (s.updThr k f).wrShadow = s.wrShadow := rfl
@[simp] theorem State.updThr_mem (s : State) (k : Nat) (f : Thread → Thread) : (s.updThr k f).mem = s.mem := rfl
@[simp] theorem State.updThr_rsMem (s : State) (k : Nat) (f : Thread → Thread) : (s.updThr k f).rsMem = s.rsMem := rfl
@[simp] theorem State.updThr_nv (s : State) (k : Nat) (f : Thread → Thread) : (s.updThr k f).nv = s.nv := rfl
@[simp] theorem State.updThr_nvCounts (s : State) (k : Nat) (f : Thread → Thread) : (s.updThr k f).nvCounts = s.nvCounts := rfl
@[simp] theorem State.updThr_fill (s : State) (k : Nat) (f : Thread → Thread) : (s.updThr k f).fill = s.fill := rfl
@[simp] theorem State.updThr_rram (s : State) (k : Nat) (f : Thread → Thread) : (s.updThr k f).rram = s.rram := rfl
@[simp] theorem State.updThr_ecc (s : State) (k : Nat) (f : Thread → Thread) : (s.updThr k f).ecc = s.ecc := rfl
@[simp] theorem State.updThr_rsEcc (s : State) (k : Nat) (f : Thread → Thread) : (s.updThr k f).rsEcc = s.rsEcc := rfl
@[simp] theorem State.updThr_rramEcc (s : State) (k : Nat) (f : Thread → Thread) : (s.updThr k f).rramEcc = s.rramEcc := rfl
@[simp] theorem State.updThr_nvEcc (s : State) (k : Nat) (f : Thread → Thread) : (s.updThr k f).nvEcc = s.nvEcc := rfl
@[simp] theorem State.updThr_saEcc (s : State) (k : Nat) (f : Thread → Thread) : (s.updThr k f).saEcc = s.saEcc := rfl
@[simp] theorem State.updThr_helpers (s : State) (k : Nat) (f : Thread → Thread) : (s.updThr k f).helpers = s.helpers := rfl
@[simp] theorem State.updThr_tap (s : State) (k : Nat) (f : Thread → Thread) : (s.updThr k f).tap = s.tap := rfl
@[simp] theorem State.updThr_slow (s : State) (k : Nat) (f : Thread → Thread) : (s.updThr k f).slow = s.slow := rfl
@[simp] theorem State.updThr_admOff (s : State) (k : Nat) (f : Thread → Thread) : (s.updThr k f).admOff = s.admOff := rfl
@[simp] theorem State.updThr_fuses (s : State) (k : Nat) (f : Thread → Thread) : (s.updThr k f).fuses = s.fuses := rfl
@[simp] theorem State.updThr_boot (s : State) (k : Nat) (f : Thread → Thread) : (s.updThr k f).boot = s.boot := rfl
@[simp] theorem State.updThr_loops (s : State) (k : Nat) (f : Thread → Thread) : (s.updThr k f).loops = s.loops := rfl
@[simp] theorem State.updThr_phases (s : State) (k : Nat) (f : Thread → Thread) : (s.updThr k f).phases = s.phases := rfl
@[simp] theorem State.updThr_convs (s : State) (k : Nat) (f : Thread → Thread) : (s.updThr k f).convs = s.convs := rfl
@[simp] theorem State.updThr_cnv (s : State) (k : Nat) (f : Thread → Thread) : (s.updThr k f).cnv = s.cnv := rfl
@[simp] theorem State.updThr_gov (s : State) (k : Nat) (f : Thread → Thread) : (s.updThr k f).gov = s.gov := rfl
@[simp] theorem State.updThr_fanForced (s : State) (k : Nat) (f : Thread → Thread) : (s.updThr k f).fanForced = s.fanForced := rfl
@[simp] theorem State.updThr_bat (s : State) (k : Nat) (f : Thread → Thread) : (s.updThr k f).bat = s.bat := rfl
@[simp] theorem State.updThr_batKeep (s : State) (k : Nat) (f : Thread → Thread) : (s.updThr k f).batKeep = s.batKeep := rfl
@[simp] theorem State.updThr_pm (s : State) (k : Nat) (f : Thread → Thread) : (s.updThr k f).pm = s.pm := rfl
@[simp] theorem State.updThr_ctl (s : State) (k : Nat) (f : Thread → Thread) : (s.updThr k f).ctl = s.ctl := rfl
@[simp] theorem State.updThr_rows (s : State) (k : Nat) (f : Thread → Thread) : (s.updThr k f).rows = s.rows := rfl
@[simp] theorem State.updThr_perst (s : State) (k : Nat) (f : Thread → Thread) : (s.updThr k f).perst = s.perst := rfl
@[simp] theorem State.updThr_esp (s : State) (k : Nat) (f : Thread → Thread) : (s.updThr k f).esp = s.esp := rfl
@[simp] theorem State.updThr_ports (s : State) (k : Nat) (f : Thread → Thread) : (s.updThr k f).ports = s.ports := rfl
@[simp] theorem State.updThr_saMaster (s : State) (k : Nat) (f : Thread → Thread) : (s.updThr k f).saMaster = s.saMaster := rfl
@[simp] theorem State.updThr_saCopies (s : State) (k : Nat) (f : Thread → Thread) : (s.updThr k f).saCopies = s.saCopies := rfl
@[simp] theorem State.updThr_msecBusy (s : State) (k : Nat) (f : Thread → Thread) : (s.updThr k f).msecBusy = s.msecBusy := rfl
@[simp] theorem State.updThr_dtb (s : State) (k : Nat) (f : Thread → Thread) : (s.updThr k f).dtb = s.dtb := rfl
@[simp] theorem State.updThr_ring (s : State) (k : Nat) (f : Thread → Thread) : (s.updThr k f).ring = s.ring := rfl
@[simp] theorem State.updThr_usb (s : State) (k : Nat) (f : Thread → Thread) : (s.updThr k f).usb = s.usb := rfl
@[simp] theorem State.updThr_jobs (s : State) (k : Nat) (f : Thread → Thread) : (s.updThr k f).jobs = s.jobs := rfl
@[simp] theorem State.updThr_fst (s : State) (k : Nat) (f : Thread → Thread) : (s.updThr k f).fst = s.fst := rfl
@[simp] theorem State.updThr_pins (s : State) (k : Nat) (f : Thread → Thread) : (s.updThr k f).pins = s.pins := rfl
@[simp] theorem State.updThr_graft (s : State) (k : Nat) (f : Thread → Thread) : (s.updThr k f).graft = s.graft := rfl
@[simp] theorem State.updThr_reg (s : State) (k : Nat) (f : Thread → Thread) (q : Nat) : (s.updThr k f).reg q = s.reg q := rfl
@[simp] theorem State.updThr_fld (s : State) (k : Nat) (f : Thread → Thread) (g : Fld) : (s.updThr k f).fld g = s.fld g := rfl
@[simp] theorem State.updThr_flag (s : State) (k : Nat) (f : Thread → Thread) (g : Fld) : (s.updThr k f).flag g = s.flag g := rfl
@[simp] theorem State.updThr_granted (s : State) (k : Nat) (f : Thread → Thread) (d : Nat) : (s.updThr k f).granted d = s.granted d := rfl
@[simp] theorem State.updThr_ready (s : State) (k : Nat) (f : Thread → Thread) (i : Nat) : (s.updThr k f).ready i = s.ready i := rfl
@[simp] theorem State.updThr_safe (s : State) (k : Nat) (f : Thread → Thread) : (s.updThr k f).safe = s.safe := rfl
@[simp] theorem State.updThr_row (s : State) (k : Nat) (f : Thread → Thread) (i : Nat) : (s.updThr k f).row i = s.row i := rfl
@[simp] theorem State.updThr_loop (s : State) (k : Nat) (f : Thread → Thread) (i : Nat) : (s.updThr k f).loop i = s.loop i := rfl
@[simp] theorem State.updThr_phase (s : State) (k : Nat) (f : Thread → Thread) (i : Nat) : (s.updThr k f).phase i = s.phase i := rfl
@[simp] theorem State.updThr_conv (s : State) (k : Nat) (f : Thread → Thread) (i : Nat) : (s.updThr k f).conv i = s.conv i := rfl
@[simp] theorem State.updThr_govOf (s : State) (k : Nat) (f : Thread → Thread) (i : Nat) : (s.updThr k f).govOf i = s.govOf i := rfl
@[simp] theorem State.updThr_port (s : State) (k : Nat) (f : Thread → Thread) (i : Nat) : (s.updThr k f).port i = s.port i := rfl

@[simp] theorem State.updRow_pending (s : State) (r : Nat) (f : RowSt → RowSt) : (s.updRow r f).pending = s.pending := rfl
@[simp] theorem State.updRow_freeCtr (s : State) (r : Nat) (f : RowSt → RowSt) : (s.updRow r f).freeCtr = s.freeCtr := rfl
@[simp] theorem State.updRow_clk (s : State) (r : Nat) (f : RowSt → RowSt) : (s.updRow r f).clk = s.clk := rfl
@[simp] theorem State.updRow_out (s : State) (r : Nat) (f : RowSt → RowSt) : (s.updRow r f).out = s.out := rfl
@[simp] theorem State.updRow_regs (s : State) (r : Nat) (f : RowSt → RowSt) : (s.updRow r f).regs = s.regs := rfl
@[simp] theorem State.updRow_rdShadow (s : State) (r : Nat) (f : RowSt → RowSt) : (s.updRow r f).rdShadow = s.rdShadow := rfl
@[simp] theorem State.updRow_wrShadow (s : State) (r : Nat) (f : RowSt → RowSt) : (s.updRow r f).wrShadow = s.wrShadow := rfl
@[simp] theorem State.updRow_mem (s : State) (r : Nat) (f : RowSt → RowSt) : (s.updRow r f).mem = s.mem := rfl
@[simp] theorem State.updRow_rsMem (s : State) (r : Nat) (f : RowSt → RowSt) : (s.updRow r f).rsMem = s.rsMem := rfl
@[simp] theorem State.updRow_nv (s : State) (r : Nat) (f : RowSt → RowSt) : (s.updRow r f).nv = s.nv := rfl
@[simp] theorem State.updRow_nvCounts (s : State) (r : Nat) (f : RowSt → RowSt) : (s.updRow r f).nvCounts = s.nvCounts := rfl
@[simp] theorem State.updRow_fill (s : State) (r : Nat) (f : RowSt → RowSt) : (s.updRow r f).fill = s.fill := rfl
@[simp] theorem State.updRow_rram (s : State) (r : Nat) (f : RowSt → RowSt) : (s.updRow r f).rram = s.rram := rfl
@[simp] theorem State.updRow_ecc (s : State) (r : Nat) (f : RowSt → RowSt) : (s.updRow r f).ecc = s.ecc := rfl
@[simp] theorem State.updRow_rsEcc (s : State) (r : Nat) (f : RowSt → RowSt) : (s.updRow r f).rsEcc = s.rsEcc := rfl
@[simp] theorem State.updRow_rramEcc (s : State) (r : Nat) (f : RowSt → RowSt) : (s.updRow r f).rramEcc = s.rramEcc := rfl
@[simp] theorem State.updRow_nvEcc (s : State) (r : Nat) (f : RowSt → RowSt) : (s.updRow r f).nvEcc = s.nvEcc := rfl
@[simp] theorem State.updRow_saEcc (s : State) (r : Nat) (f : RowSt → RowSt) : (s.updRow r f).saEcc = s.saEcc := rfl
@[simp] theorem State.updRow_threads (s : State) (r : Nat) (f : RowSt → RowSt) : (s.updRow r f).threads = s.threads := rfl
@[simp] theorem State.updRow_helpers (s : State) (r : Nat) (f : RowSt → RowSt) : (s.updRow r f).helpers = s.helpers := rfl
@[simp] theorem State.updRow_tap (s : State) (r : Nat) (f : RowSt → RowSt) : (s.updRow r f).tap = s.tap := rfl
@[simp] theorem State.updRow_slow (s : State) (r : Nat) (f : RowSt → RowSt) : (s.updRow r f).slow = s.slow := rfl
@[simp] theorem State.updRow_admOff (s : State) (r : Nat) (f : RowSt → RowSt) : (s.updRow r f).admOff = s.admOff := rfl
@[simp] theorem State.updRow_fuses (s : State) (r : Nat) (f : RowSt → RowSt) : (s.updRow r f).fuses = s.fuses := rfl
@[simp] theorem State.updRow_boot (s : State) (r : Nat) (f : RowSt → RowSt) : (s.updRow r f).boot = s.boot := rfl
@[simp] theorem State.updRow_loops (s : State) (r : Nat) (f : RowSt → RowSt) : (s.updRow r f).loops = s.loops := rfl
@[simp] theorem State.updRow_phases (s : State) (r : Nat) (f : RowSt → RowSt) : (s.updRow r f).phases = s.phases := rfl
@[simp] theorem State.updRow_convs (s : State) (r : Nat) (f : RowSt → RowSt) : (s.updRow r f).convs = s.convs := rfl
@[simp] theorem State.updRow_cnv (s : State) (r : Nat) (f : RowSt → RowSt) : (s.updRow r f).cnv = s.cnv := rfl
@[simp] theorem State.updRow_gov (s : State) (r : Nat) (f : RowSt → RowSt) : (s.updRow r f).gov = s.gov := rfl
@[simp] theorem State.updRow_fanForced (s : State) (r : Nat) (f : RowSt → RowSt) : (s.updRow r f).fanForced = s.fanForced := rfl
@[simp] theorem State.updRow_bat (s : State) (r : Nat) (f : RowSt → RowSt) : (s.updRow r f).bat = s.bat := rfl
@[simp] theorem State.updRow_batKeep (s : State) (r : Nat) (f : RowSt → RowSt) : (s.updRow r f).batKeep = s.batKeep := rfl
@[simp] theorem State.updRow_pm (s : State) (r : Nat) (f : RowSt → RowSt) : (s.updRow r f).pm = s.pm := rfl
@[simp] theorem State.updRow_ctl (s : State) (r : Nat) (f : RowSt → RowSt) : (s.updRow r f).ctl = s.ctl := rfl
@[simp] theorem State.updRow_perst (s : State) (r : Nat) (f : RowSt → RowSt) : (s.updRow r f).perst = s.perst := rfl
@[simp] theorem State.updRow_esp (s : State) (r : Nat) (f : RowSt → RowSt) : (s.updRow r f).esp = s.esp := rfl
@[simp] theorem State.updRow_ports (s : State) (r : Nat) (f : RowSt → RowSt) : (s.updRow r f).ports = s.ports := rfl
@[simp] theorem State.updRow_saMaster (s : State) (r : Nat) (f : RowSt → RowSt) : (s.updRow r f).saMaster = s.saMaster := rfl
@[simp] theorem State.updRow_saCopies (s : State) (r : Nat) (f : RowSt → RowSt) : (s.updRow r f).saCopies = s.saCopies := rfl
@[simp] theorem State.updRow_msecBusy (s : State) (r : Nat) (f : RowSt → RowSt) : (s.updRow r f).msecBusy = s.msecBusy := rfl
@[simp] theorem State.updRow_dtb (s : State) (r : Nat) (f : RowSt → RowSt) : (s.updRow r f).dtb = s.dtb := rfl
@[simp] theorem State.updRow_ring (s : State) (r : Nat) (f : RowSt → RowSt) : (s.updRow r f).ring = s.ring := rfl
@[simp] theorem State.updRow_usb (s : State) (r : Nat) (f : RowSt → RowSt) : (s.updRow r f).usb = s.usb := rfl
@[simp] theorem State.updRow_jobs (s : State) (r : Nat) (f : RowSt → RowSt) : (s.updRow r f).jobs = s.jobs := rfl
@[simp] theorem State.updRow_fst (s : State) (r : Nat) (f : RowSt → RowSt) : (s.updRow r f).fst = s.fst := rfl
@[simp] theorem State.updRow_pins (s : State) (r : Nat) (f : RowSt → RowSt) : (s.updRow r f).pins = s.pins := rfl
@[simp] theorem State.updRow_graft (s : State) (r : Nat) (f : RowSt → RowSt) : (s.updRow r f).graft = s.graft := rfl
theorem State.updRow_rows (s : State) (r : Nat) (f : RowSt → RowSt) : (s.updRow r f).rows = tabSet {} r (f (s.row r)) s.rows := rfl
@[simp] theorem State.updRow_reg (s : State) (r : Nat) (f : RowSt → RowSt) (q : Nat) : (s.updRow r f).reg q = s.reg q := rfl
@[simp] theorem State.updRow_fld (s : State) (r : Nat) (f : RowSt → RowSt) (g : Fld) : (s.updRow r f).fld g = s.fld g := rfl
@[simp] theorem State.updRow_flag (s : State) (r : Nat) (f : RowSt → RowSt) (g : Fld) : (s.updRow r f).flag g = s.flag g := rfl
@[simp] theorem State.updRow_granted (s : State) (r : Nat) (f : RowSt → RowSt) (d : Nat) : (s.updRow r f).granted d = s.granted d := rfl
@[simp] theorem State.updRow_ready (s : State) (r : Nat) (f : RowSt → RowSt) (i : Nat) : (s.updRow r f).ready i = s.ready i := rfl
@[simp] theorem State.updRow_safe (s : State) (r : Nat) (f : RowSt → RowSt) : (s.updRow r f).safe = s.safe := rfl
@[simp] theorem State.updRow_thr (s : State) (r : Nat) (f : RowSt → RowSt) (j : Nat) : (s.updRow r f).thr j = s.thr j := rfl
@[simp] theorem State.updRow_loop (s : State) (r : Nat) (f : RowSt → RowSt) (i : Nat) : (s.updRow r f).loop i = s.loop i := rfl
@[simp] theorem State.updRow_phase (s : State) (r : Nat) (f : RowSt → RowSt) (i : Nat) : (s.updRow r f).phase i = s.phase i := rfl
@[simp] theorem State.updRow_conv (s : State) (r : Nat) (f : RowSt → RowSt) (i : Nat) : (s.updRow r f).conv i = s.conv i := rfl
@[simp] theorem State.updRow_govOf (s : State) (r : Nat) (f : RowSt → RowSt) (i : Nat) : (s.updRow r f).govOf i = s.govOf i := rfl
@[simp] theorem State.updRow_port (s : State) (r : Nat) (f : RowSt → RowSt) (i : Nat) : (s.updRow r f).port i = s.port i := rfl

@[simp] theorem State.updTap_pending (s : State) (f : Taproot → Taproot) : (s.updTap f).pending = s.pending := rfl
@[simp] theorem State.updTap_freeCtr (s : State) (f : Taproot → Taproot) : (s.updTap f).freeCtr = s.freeCtr := rfl
@[simp] theorem State.updTap_clk (s : State) (f : Taproot → Taproot) : (s.updTap f).clk = s.clk := rfl
@[simp] theorem State.updTap_out (s : State) (f : Taproot → Taproot) : (s.updTap f).out = s.out := rfl
@[simp] theorem State.updTap_regs (s : State) (f : Taproot → Taproot) : (s.updTap f).regs = s.regs := rfl
@[simp] theorem State.updTap_rdShadow (s : State) (f : Taproot → Taproot) : (s.updTap f).rdShadow = s.rdShadow := rfl
@[simp] theorem State.updTap_wrShadow (s : State) (f : Taproot → Taproot) : (s.updTap f).wrShadow = s.wrShadow := rfl
@[simp] theorem State.updTap_mem (s : State) (f : Taproot → Taproot) : (s.updTap f).mem = s.mem := rfl
@[simp] theorem State.updTap_rsMem (s : State) (f : Taproot → Taproot) : (s.updTap f).rsMem = s.rsMem := rfl
@[simp] theorem State.updTap_nv (s : State) (f : Taproot → Taproot) : (s.updTap f).nv = s.nv := rfl
@[simp] theorem State.updTap_nvCounts (s : State) (f : Taproot → Taproot) : (s.updTap f).nvCounts = s.nvCounts := rfl
@[simp] theorem State.updTap_fill (s : State) (f : Taproot → Taproot) : (s.updTap f).fill = s.fill := rfl
@[simp] theorem State.updTap_rram (s : State) (f : Taproot → Taproot) : (s.updTap f).rram = s.rram := rfl
@[simp] theorem State.updTap_ecc (s : State) (f : Taproot → Taproot) : (s.updTap f).ecc = s.ecc := rfl
@[simp] theorem State.updTap_rsEcc (s : State) (f : Taproot → Taproot) : (s.updTap f).rsEcc = s.rsEcc := rfl
@[simp] theorem State.updTap_rramEcc (s : State) (f : Taproot → Taproot) : (s.updTap f).rramEcc = s.rramEcc := rfl
@[simp] theorem State.updTap_nvEcc (s : State) (f : Taproot → Taproot) : (s.updTap f).nvEcc = s.nvEcc := rfl
@[simp] theorem State.updTap_saEcc (s : State) (f : Taproot → Taproot) : (s.updTap f).saEcc = s.saEcc := rfl
@[simp] theorem State.updTap_threads (s : State) (f : Taproot → Taproot) : (s.updTap f).threads = s.threads := rfl
@[simp] theorem State.updTap_helpers (s : State) (f : Taproot → Taproot) : (s.updTap f).helpers = s.helpers := rfl
@[simp] theorem State.updTap_slow (s : State) (f : Taproot → Taproot) : (s.updTap f).slow = s.slow := rfl
@[simp] theorem State.updTap_admOff (s : State) (f : Taproot → Taproot) : (s.updTap f).admOff = s.admOff := rfl
@[simp] theorem State.updTap_fuses (s : State) (f : Taproot → Taproot) : (s.updTap f).fuses = s.fuses := rfl
@[simp] theorem State.updTap_boot (s : State) (f : Taproot → Taproot) : (s.updTap f).boot = s.boot := rfl
@[simp] theorem State.updTap_loops (s : State) (f : Taproot → Taproot) : (s.updTap f).loops = s.loops := rfl
@[simp] theorem State.updTap_phases (s : State) (f : Taproot → Taproot) : (s.updTap f).phases = s.phases := rfl
@[simp] theorem State.updTap_convs (s : State) (f : Taproot → Taproot) : (s.updTap f).convs = s.convs := rfl
@[simp] theorem State.updTap_cnv (s : State) (f : Taproot → Taproot) : (s.updTap f).cnv = s.cnv := rfl
@[simp] theorem State.updTap_gov (s : State) (f : Taproot → Taproot) : (s.updTap f).gov = s.gov := rfl
@[simp] theorem State.updTap_fanForced (s : State) (f : Taproot → Taproot) : (s.updTap f).fanForced = s.fanForced := rfl
@[simp] theorem State.updTap_bat (s : State) (f : Taproot → Taproot) : (s.updTap f).bat = s.bat := rfl
@[simp] theorem State.updTap_batKeep (s : State) (f : Taproot → Taproot) : (s.updTap f).batKeep = s.batKeep := rfl
@[simp] theorem State.updTap_pm (s : State) (f : Taproot → Taproot) : (s.updTap f).pm = s.pm := rfl
@[simp] theorem State.updTap_ctl (s : State) (f : Taproot → Taproot) : (s.updTap f).ctl = s.ctl := rfl
@[simp] theorem State.updTap_rows (s : State) (f : Taproot → Taproot) : (s.updTap f).rows = s.rows := rfl
@[simp] theorem State.updTap_perst (s : State) (f : Taproot → Taproot) : (s.updTap f).perst = s.perst := rfl
@[simp] theorem State.updTap_esp (s : State) (f : Taproot → Taproot) : (s.updTap f).esp = s.esp := rfl
@[simp] theorem State.updTap_ports (s : State) (f : Taproot → Taproot) : (s.updTap f).ports = s.ports := rfl
@[simp] theorem State.updTap_saMaster (s : State) (f : Taproot → Taproot) : (s.updTap f).saMaster = s.saMaster := rfl
@[simp] theorem State.updTap_saCopies (s : State) (f : Taproot → Taproot) : (s.updTap f).saCopies = s.saCopies := rfl
@[simp] theorem State.updTap_msecBusy (s : State) (f : Taproot → Taproot) : (s.updTap f).msecBusy = s.msecBusy := rfl
@[simp] theorem State.updTap_dtb (s : State) (f : Taproot → Taproot) : (s.updTap f).dtb = s.dtb := rfl
@[simp] theorem State.updTap_ring (s : State) (f : Taproot → Taproot) : (s.updTap f).ring = s.ring := rfl
@[simp] theorem State.updTap_usb (s : State) (f : Taproot → Taproot) : (s.updTap f).usb = s.usb := rfl
@[simp] theorem State.updTap_jobs (s : State) (f : Taproot → Taproot) : (s.updTap f).jobs = s.jobs := rfl
@[simp] theorem State.updTap_fst (s : State) (f : Taproot → Taproot) : (s.updTap f).fst = s.fst := rfl
@[simp] theorem State.updTap_pins (s : State) (f : Taproot → Taproot) : (s.updTap f).pins = s.pins := rfl
@[simp] theorem State.updTap_graft (s : State) (f : Taproot → Taproot) : (s.updTap f).graft = s.graft := rfl
theorem State.updTap_tap (s : State) (f : Taproot → Taproot) : (s.updTap f).tap = f s.tap := rfl
@[simp] theorem State.updTap_reg (s : State) (f : Taproot → Taproot) (q : Nat) : (s.updTap f).reg q = s.reg q := rfl
@[simp] theorem State.updTap_fld (s : State) (f : Taproot → Taproot) (g : Fld) : (s.updTap f).fld g = s.fld g := rfl
@[simp] theorem State.updTap_flag (s : State) (f : Taproot → Taproot) (g : Fld) : (s.updTap f).flag g = s.flag g := rfl
@[simp] theorem State.updTap_granted (s : State) (f : Taproot → Taproot) (d : Nat) : (s.updTap f).granted d = s.granted d := rfl
@[simp] theorem State.updTap_ready (s : State) (f : Taproot → Taproot) (i : Nat) : (s.updTap f).ready i = s.ready i := rfl
@[simp] theorem State.updTap_safe (s : State) (f : Taproot → Taproot) : (s.updTap f).safe = s.safe := rfl
@[simp] theorem State.updTap_thr (s : State) (f : Taproot → Taproot) (j : Nat) : (s.updTap f).thr j = s.thr j := rfl
@[simp] theorem State.updTap_row (s : State) (f : Taproot → Taproot) (i : Nat) : (s.updTap f).row i = s.row i := rfl
@[simp] theorem State.updTap_loop (s : State) (f : Taproot → Taproot) (i : Nat) : (s.updTap f).loop i = s.loop i := rfl
@[simp] theorem State.updTap_phase (s : State) (f : Taproot → Taproot) (i : Nat) : (s.updTap f).phase i = s.phase i := rfl
@[simp] theorem State.updTap_conv (s : State) (f : Taproot → Taproot) (i : Nat) : (s.updTap f).conv i = s.conv i := rfl
@[simp] theorem State.updTap_govOf (s : State) (f : Taproot → Taproot) (i : Nat) : (s.updTap f).govOf i = s.govOf i := rfl
@[simp] theorem State.updTap_port (s : State) (f : Taproot → Taproot) (i : Nat) : (s.updTap f).port i = s.port i := rfl

@[simp] theorem State.updBoot_pending (s : State) (f : Boot → Boot) : (s.updBoot f).pending = s.pending := rfl
@[simp] theorem State.updBoot_freeCtr (s : State) (f : Boot → Boot) : (s.updBoot f).freeCtr = s.freeCtr := rfl
@[simp] theorem State.updBoot_clk (s : State) (f : Boot → Boot) : (s.updBoot f).clk = s.clk := rfl
@[simp] theorem State.updBoot_out (s : State) (f : Boot → Boot) : (s.updBoot f).out = s.out := rfl
@[simp] theorem State.updBoot_regs (s : State) (f : Boot → Boot) : (s.updBoot f).regs = s.regs := rfl
@[simp] theorem State.updBoot_rdShadow (s : State) (f : Boot → Boot) : (s.updBoot f).rdShadow = s.rdShadow := rfl
@[simp] theorem State.updBoot_wrShadow (s : State) (f : Boot → Boot) : (s.updBoot f).wrShadow = s.wrShadow := rfl
@[simp] theorem State.updBoot_mem (s : State) (f : Boot → Boot) : (s.updBoot f).mem = s.mem := rfl
@[simp] theorem State.updBoot_rsMem (s : State) (f : Boot → Boot) : (s.updBoot f).rsMem = s.rsMem := rfl
@[simp] theorem State.updBoot_nv (s : State) (f : Boot → Boot) : (s.updBoot f).nv = s.nv := rfl
@[simp] theorem State.updBoot_nvCounts (s : State) (f : Boot → Boot) : (s.updBoot f).nvCounts = s.nvCounts := rfl
@[simp] theorem State.updBoot_fill (s : State) (f : Boot → Boot) : (s.updBoot f).fill = s.fill := rfl
@[simp] theorem State.updBoot_rram (s : State) (f : Boot → Boot) : (s.updBoot f).rram = s.rram := rfl
@[simp] theorem State.updBoot_ecc (s : State) (f : Boot → Boot) : (s.updBoot f).ecc = s.ecc := rfl
@[simp] theorem State.updBoot_rsEcc (s : State) (f : Boot → Boot) : (s.updBoot f).rsEcc = s.rsEcc := rfl
@[simp] theorem State.updBoot_rramEcc (s : State) (f : Boot → Boot) : (s.updBoot f).rramEcc = s.rramEcc := rfl
@[simp] theorem State.updBoot_nvEcc (s : State) (f : Boot → Boot) : (s.updBoot f).nvEcc = s.nvEcc := rfl
@[simp] theorem State.updBoot_saEcc (s : State) (f : Boot → Boot) : (s.updBoot f).saEcc = s.saEcc := rfl
@[simp] theorem State.updBoot_threads (s : State) (f : Boot → Boot) : (s.updBoot f).threads = s.threads := rfl
@[simp] theorem State.updBoot_helpers (s : State) (f : Boot → Boot) : (s.updBoot f).helpers = s.helpers := rfl
@[simp] theorem State.updBoot_tap (s : State) (f : Boot → Boot) : (s.updBoot f).tap = s.tap := rfl
@[simp] theorem State.updBoot_slow (s : State) (f : Boot → Boot) : (s.updBoot f).slow = s.slow := rfl
@[simp] theorem State.updBoot_admOff (s : State) (f : Boot → Boot) : (s.updBoot f).admOff = s.admOff := rfl
@[simp] theorem State.updBoot_fuses (s : State) (f : Boot → Boot) : (s.updBoot f).fuses = s.fuses := rfl
@[simp] theorem State.updBoot_loops (s : State) (f : Boot → Boot) : (s.updBoot f).loops = s.loops := rfl
@[simp] theorem State.updBoot_phases (s : State) (f : Boot → Boot) : (s.updBoot f).phases = s.phases := rfl
@[simp] theorem State.updBoot_convs (s : State) (f : Boot → Boot) : (s.updBoot f).convs = s.convs := rfl
@[simp] theorem State.updBoot_cnv (s : State) (f : Boot → Boot) : (s.updBoot f).cnv = s.cnv := rfl
@[simp] theorem State.updBoot_gov (s : State) (f : Boot → Boot) : (s.updBoot f).gov = s.gov := rfl
@[simp] theorem State.updBoot_fanForced (s : State) (f : Boot → Boot) : (s.updBoot f).fanForced = s.fanForced := rfl
@[simp] theorem State.updBoot_bat (s : State) (f : Boot → Boot) : (s.updBoot f).bat = s.bat := rfl
@[simp] theorem State.updBoot_batKeep (s : State) (f : Boot → Boot) : (s.updBoot f).batKeep = s.batKeep := rfl
@[simp] theorem State.updBoot_pm (s : State) (f : Boot → Boot) : (s.updBoot f).pm = s.pm := rfl
@[simp] theorem State.updBoot_ctl (s : State) (f : Boot → Boot) : (s.updBoot f).ctl = s.ctl := rfl
@[simp] theorem State.updBoot_rows (s : State) (f : Boot → Boot) : (s.updBoot f).rows = s.rows := rfl
@[simp] theorem State.updBoot_perst (s : State) (f : Boot → Boot) : (s.updBoot f).perst = s.perst := rfl
@[simp] theorem State.updBoot_esp (s : State) (f : Boot → Boot) : (s.updBoot f).esp = s.esp := rfl
@[simp] theorem State.updBoot_ports (s : State) (f : Boot → Boot) : (s.updBoot f).ports = s.ports := rfl
@[simp] theorem State.updBoot_saMaster (s : State) (f : Boot → Boot) : (s.updBoot f).saMaster = s.saMaster := rfl
@[simp] theorem State.updBoot_saCopies (s : State) (f : Boot → Boot) : (s.updBoot f).saCopies = s.saCopies := rfl
@[simp] theorem State.updBoot_msecBusy (s : State) (f : Boot → Boot) : (s.updBoot f).msecBusy = s.msecBusy := rfl
@[simp] theorem State.updBoot_dtb (s : State) (f : Boot → Boot) : (s.updBoot f).dtb = s.dtb := rfl
@[simp] theorem State.updBoot_ring (s : State) (f : Boot → Boot) : (s.updBoot f).ring = s.ring := rfl
@[simp] theorem State.updBoot_usb (s : State) (f : Boot → Boot) : (s.updBoot f).usb = s.usb := rfl
@[simp] theorem State.updBoot_jobs (s : State) (f : Boot → Boot) : (s.updBoot f).jobs = s.jobs := rfl
@[simp] theorem State.updBoot_fst (s : State) (f : Boot → Boot) : (s.updBoot f).fst = s.fst := rfl
@[simp] theorem State.updBoot_pins (s : State) (f : Boot → Boot) : (s.updBoot f).pins = s.pins := rfl
@[simp] theorem State.updBoot_graft (s : State) (f : Boot → Boot) : (s.updBoot f).graft = s.graft := rfl
theorem State.updBoot_boot (s : State) (f : Boot → Boot) : (s.updBoot f).boot = f s.boot := rfl
@[simp] theorem State.updBoot_reg (s : State) (f : Boot → Boot) (q : Nat) : (s.updBoot f).reg q = s.reg q := rfl
@[simp] theorem State.updBoot_fld (s : State) (f : Boot → Boot) (g : Fld) : (s.updBoot f).fld g = s.fld g := rfl
@[simp] theorem State.updBoot_flag (s : State) (f : Boot → Boot) (g : Fld) : (s.updBoot f).flag g = s.flag g := rfl
@[simp] theorem State.updBoot_granted (s : State) (f : Boot → Boot) (d : Nat) : (s.updBoot f).granted d = s.granted d := rfl
@[simp] theorem State.updBoot_ready (s : State) (f : Boot → Boot) (i : Nat) : (s.updBoot f).ready i = s.ready i := rfl
@[simp] theorem State.updBoot_safe (s : State) (f : Boot → Boot) : (s.updBoot f).safe = s.safe := rfl
@[simp] theorem State.updBoot_thr (s : State) (f : Boot → Boot) (j : Nat) : (s.updBoot f).thr j = s.thr j := rfl
@[simp] theorem State.updBoot_row (s : State) (f : Boot → Boot) (i : Nat) : (s.updBoot f).row i = s.row i := rfl
@[simp] theorem State.updBoot_loop (s : State) (f : Boot → Boot) (i : Nat) : (s.updBoot f).loop i = s.loop i := rfl
@[simp] theorem State.updBoot_phase (s : State) (f : Boot → Boot) (i : Nat) : (s.updBoot f).phase i = s.phase i := rfl
@[simp] theorem State.updBoot_conv (s : State) (f : Boot → Boot) (i : Nat) : (s.updBoot f).conv i = s.conv i := rfl
@[simp] theorem State.updBoot_govOf (s : State) (f : Boot → Boot) (i : Nat) : (s.updBoot f).govOf i = s.govOf i := rfl
@[simp] theorem State.updBoot_port (s : State) (f : Boot → Boot) (i : Nat) : (s.updBoot f).port i = s.port i := rfl

@[simp] theorem State.updLoop_pending (s : State) (x : Nat) (f : LoopSt → LoopSt) : (s.updLoop x f).pending = s.pending := rfl
@[simp] theorem State.updLoop_freeCtr (s : State) (x : Nat) (f : LoopSt → LoopSt) : (s.updLoop x f).freeCtr = s.freeCtr := rfl
@[simp] theorem State.updLoop_clk (s : State) (x : Nat) (f : LoopSt → LoopSt) : (s.updLoop x f).clk = s.clk := rfl
@[simp] theorem State.updLoop_out (s : State) (x : Nat) (f : LoopSt → LoopSt) : (s.updLoop x f).out = s.out := rfl
@[simp] theorem State.updLoop_regs (s : State) (x : Nat) (f : LoopSt → LoopSt) : (s.updLoop x f).regs = s.regs := rfl
@[simp] theorem State.updLoop_rdShadow (s : State) (x : Nat) (f : LoopSt → LoopSt) : (s.updLoop x f).rdShadow = s.rdShadow := rfl
@[simp] theorem State.updLoop_wrShadow (s : State) (x : Nat) (f : LoopSt → LoopSt) : (s.updLoop x f).wrShadow = s.wrShadow := rfl
@[simp] theorem State.updLoop_mem (s : State) (x : Nat) (f : LoopSt → LoopSt) : (s.updLoop x f).mem = s.mem := rfl
@[simp] theorem State.updLoop_rsMem (s : State) (x : Nat) (f : LoopSt → LoopSt) : (s.updLoop x f).rsMem = s.rsMem := rfl
@[simp] theorem State.updLoop_nv (s : State) (x : Nat) (f : LoopSt → LoopSt) : (s.updLoop x f).nv = s.nv := rfl
@[simp] theorem State.updLoop_nvCounts (s : State) (x : Nat) (f : LoopSt → LoopSt) : (s.updLoop x f).nvCounts = s.nvCounts := rfl
@[simp] theorem State.updLoop_fill (s : State) (x : Nat) (f : LoopSt → LoopSt) : (s.updLoop x f).fill = s.fill := rfl
@[simp] theorem State.updLoop_rram (s : State) (x : Nat) (f : LoopSt → LoopSt) : (s.updLoop x f).rram = s.rram := rfl
@[simp] theorem State.updLoop_ecc (s : State) (x : Nat) (f : LoopSt → LoopSt) : (s.updLoop x f).ecc = s.ecc := rfl
@[simp] theorem State.updLoop_rsEcc (s : State) (x : Nat) (f : LoopSt → LoopSt) : (s.updLoop x f).rsEcc = s.rsEcc := rfl
@[simp] theorem State.updLoop_rramEcc (s : State) (x : Nat) (f : LoopSt → LoopSt) : (s.updLoop x f).rramEcc = s.rramEcc := rfl
@[simp] theorem State.updLoop_nvEcc (s : State) (x : Nat) (f : LoopSt → LoopSt) : (s.updLoop x f).nvEcc = s.nvEcc := rfl
@[simp] theorem State.updLoop_saEcc (s : State) (x : Nat) (f : LoopSt → LoopSt) : (s.updLoop x f).saEcc = s.saEcc := rfl
@[simp] theorem State.updLoop_threads (s : State) (x : Nat) (f : LoopSt → LoopSt) : (s.updLoop x f).threads = s.threads := rfl
@[simp] theorem State.updLoop_helpers (s : State) (x : Nat) (f : LoopSt → LoopSt) : (s.updLoop x f).helpers = s.helpers := rfl
@[simp] theorem State.updLoop_tap (s : State) (x : Nat) (f : LoopSt → LoopSt) : (s.updLoop x f).tap = s.tap := rfl
@[simp] theorem State.updLoop_slow (s : State) (x : Nat) (f : LoopSt → LoopSt) : (s.updLoop x f).slow = s.slow := rfl
@[simp] theorem State.updLoop_admOff (s : State) (x : Nat) (f : LoopSt → LoopSt) : (s.updLoop x f).admOff = s.admOff := rfl
@[simp] theorem State.updLoop_fuses (s : State) (x : Nat) (f : LoopSt → LoopSt) : (s.updLoop x f).fuses = s.fuses := rfl
@[simp] theorem State.updLoop_boot (s : State) (x : Nat) (f : LoopSt → LoopSt) : (s.updLoop x f).boot = s.boot := rfl
@[simp] theorem State.updLoop_phases (s : State) (x : Nat) (f : LoopSt → LoopSt) : (s.updLoop x f).phases = s.phases := rfl
@[simp] theorem State.updLoop_convs (s : State) (x : Nat) (f : LoopSt → LoopSt) : (s.updLoop x f).convs = s.convs := rfl
@[simp] theorem State.updLoop_cnv (s : State) (x : Nat) (f : LoopSt → LoopSt) : (s.updLoop x f).cnv = s.cnv := rfl
@[simp] theorem State.updLoop_gov (s : State) (x : Nat) (f : LoopSt → LoopSt) : (s.updLoop x f).gov = s.gov := rfl
@[simp] theorem State.updLoop_fanForced (s : State) (x : Nat) (f : LoopSt → LoopSt) : (s.updLoop x f).fanForced = s.fanForced := rfl
@[simp] theorem State.updLoop_bat (s : State) (x : Nat) (f : LoopSt → LoopSt) : (s.updLoop x f).bat = s.bat := rfl
@[simp] theorem State.updLoop_batKeep (s : State) (x : Nat) (f : LoopSt → LoopSt) : (s.updLoop x f).batKeep = s.batKeep := rfl
@[simp] theorem State.updLoop_pm (s : State) (x : Nat) (f : LoopSt → LoopSt) : (s.updLoop x f).pm = s.pm := rfl
@[simp] theorem State.updLoop_ctl (s : State) (x : Nat) (f : LoopSt → LoopSt) : (s.updLoop x f).ctl = s.ctl := rfl
@[simp] theorem State.updLoop_rows (s : State) (x : Nat) (f : LoopSt → LoopSt) : (s.updLoop x f).rows = s.rows := rfl
@[simp] theorem State.updLoop_perst (s : State) (x : Nat) (f : LoopSt → LoopSt) : (s.updLoop x f).perst = s.perst := rfl
@[simp] theorem State.updLoop_esp (s : State) (x : Nat) (f : LoopSt → LoopSt) : (s.updLoop x f).esp = s.esp := rfl
@[simp] theorem State.updLoop_ports (s : State) (x : Nat) (f : LoopSt → LoopSt) : (s.updLoop x f).ports = s.ports := rfl
@[simp] theorem State.updLoop_saMaster (s : State) (x : Nat) (f : LoopSt → LoopSt) : (s.updLoop x f).saMaster = s.saMaster := rfl
@[simp] theorem State.updLoop_saCopies (s : State) (x : Nat) (f : LoopSt → LoopSt) : (s.updLoop x f).saCopies = s.saCopies := rfl
@[simp] theorem State.updLoop_msecBusy (s : State) (x : Nat) (f : LoopSt → LoopSt) : (s.updLoop x f).msecBusy = s.msecBusy := rfl
@[simp] theorem State.updLoop_dtb (s : State) (x : Nat) (f : LoopSt → LoopSt) : (s.updLoop x f).dtb = s.dtb := rfl
@[simp] theorem State.updLoop_ring (s : State) (x : Nat) (f : LoopSt → LoopSt) : (s.updLoop x f).ring = s.ring := rfl
@[simp] theorem State.updLoop_usb (s : State) (x : Nat) (f : LoopSt → LoopSt) : (s.updLoop x f).usb = s.usb := rfl
@[simp] theorem State.updLoop_jobs (s : State) (x : Nat) (f : LoopSt → LoopSt) : (s.updLoop x f).jobs = s.jobs := rfl
@[simp] theorem State.updLoop_fst (s : State) (x : Nat) (f : LoopSt → LoopSt) : (s.updLoop x f).fst = s.fst := rfl
@[simp] theorem State.updLoop_pins (s : State) (x : Nat) (f : LoopSt → LoopSt) : (s.updLoop x f).pins = s.pins := rfl
@[simp] theorem State.updLoop_graft (s : State) (x : Nat) (f : LoopSt → LoopSt) : (s.updLoop x f).graft = s.graft := rfl
theorem State.updLoop_loops (s : State) (x : Nat) (f : LoopSt → LoopSt) : (s.updLoop x f).loops = tabSet {} x (f (s.loop x)) s.loops := rfl
@[simp] theorem State.updLoop_reg (s : State) (x : Nat) (f : LoopSt → LoopSt) (q : Nat) : (s.updLoop x f).reg q = s.reg q := rfl
@[simp] theorem State.updLoop_fld (s : State) (x : Nat) (f : LoopSt → LoopSt) (g : Fld) : (s.updLoop x f).fld g = s.fld g := rfl
@[simp] theorem State.updLoop_flag (s : State) (x : Nat) (f : LoopSt → LoopSt) (g : Fld) : (s.updLoop x f).flag g = s.flag g := rfl
@[simp] theorem State.updLoop_granted (s : State) (x : Nat) (f : LoopSt → LoopSt) (d : Nat) : (s.updLoop x f).granted d = s.granted d := rfl
@[simp] theorem State.updLoop_ready (s : State) (x : Nat) (f : LoopSt → LoopSt) (i : Nat) : (s.updLoop x f).ready i = s.ready i := rfl
@[simp] theorem State.updLoop_safe (s : State) (x : Nat) (f : LoopSt → LoopSt) : (s.updLoop x f).safe = s.safe := rfl
@[simp] theorem State.updLoop_thr (s : State) (x : Nat) (f : LoopSt → LoopSt) (j : Nat) : (s.updLoop x f).thr j = s.thr j := rfl
@[simp] theorem State.updLoop_row (s : State) (x : Nat) (f : LoopSt → LoopSt) (i : Nat) : (s.updLoop x f).row i = s.row i := rfl
@[simp] theorem State.updLoop_phase (s : State) (x : Nat) (f : LoopSt → LoopSt) (i : Nat) : (s.updLoop x f).phase i = s.phase i := rfl
@[simp] theorem State.updLoop_conv (s : State) (x : Nat) (f : LoopSt → LoopSt) (i : Nat) : (s.updLoop x f).conv i = s.conv i := rfl
@[simp] theorem State.updLoop_govOf (s : State) (x : Nat) (f : LoopSt → LoopSt) (i : Nat) : (s.updLoop x f).govOf i = s.govOf i := rfl
@[simp] theorem State.updLoop_port (s : State) (x : Nat) (f : LoopSt → LoopSt) (i : Nat) : (s.updLoop x f).port i = s.port i := rfl

@[simp] theorem State.updPhase_pending (s : State) (n : Nat) (f : PhaseSt → PhaseSt) : (s.updPhase n f).pending = s.pending := rfl
@[simp] theorem State.updPhase_freeCtr (s : State) (n : Nat) (f : PhaseSt → PhaseSt) : (s.updPhase n f).freeCtr = s.freeCtr := rfl
@[simp] theorem State.updPhase_clk (s : State) (n : Nat) (f : PhaseSt → PhaseSt) : (s.updPhase n f).clk = s.clk := rfl
@[simp] theorem State.updPhase_out (s : State) (n : Nat) (f : PhaseSt → PhaseSt) : (s.updPhase n f).out = s.out := rfl
@[simp] theorem State.updPhase_regs (s : State) (n : Nat) (f : PhaseSt → PhaseSt) : (s.updPhase n f).regs = s.regs := rfl
@[simp] theorem State.updPhase_rdShadow (s : State) (n : Nat) (f : PhaseSt → PhaseSt) : (s.updPhase n f).rdShadow = s.rdShadow := rfl
@[simp] theorem State.updPhase_wrShadow (s : State) (n : Nat) (f : PhaseSt → PhaseSt) : (s.updPhase n f).wrShadow = s.wrShadow := rfl
@[simp] theorem State.updPhase_mem (s : State) (n : Nat) (f : PhaseSt → PhaseSt) : (s.updPhase n f).mem = s.mem := rfl
@[simp] theorem State.updPhase_rsMem (s : State) (n : Nat) (f : PhaseSt → PhaseSt) : (s.updPhase n f).rsMem = s.rsMem := rfl
@[simp] theorem State.updPhase_nv (s : State) (n : Nat) (f : PhaseSt → PhaseSt) : (s.updPhase n f).nv = s.nv := rfl
@[simp] theorem State.updPhase_nvCounts (s : State) (n : Nat) (f : PhaseSt → PhaseSt) : (s.updPhase n f).nvCounts = s.nvCounts := rfl
@[simp] theorem State.updPhase_fill (s : State) (n : Nat) (f : PhaseSt → PhaseSt) : (s.updPhase n f).fill = s.fill := rfl
@[simp] theorem State.updPhase_rram (s : State) (n : Nat) (f : PhaseSt → PhaseSt) : (s.updPhase n f).rram = s.rram := rfl
@[simp] theorem State.updPhase_ecc (s : State) (n : Nat) (f : PhaseSt → PhaseSt) : (s.updPhase n f).ecc = s.ecc := rfl
@[simp] theorem State.updPhase_rsEcc (s : State) (n : Nat) (f : PhaseSt → PhaseSt) : (s.updPhase n f).rsEcc = s.rsEcc := rfl
@[simp] theorem State.updPhase_rramEcc (s : State) (n : Nat) (f : PhaseSt → PhaseSt) : (s.updPhase n f).rramEcc = s.rramEcc := rfl
@[simp] theorem State.updPhase_nvEcc (s : State) (n : Nat) (f : PhaseSt → PhaseSt) : (s.updPhase n f).nvEcc = s.nvEcc := rfl
@[simp] theorem State.updPhase_saEcc (s : State) (n : Nat) (f : PhaseSt → PhaseSt) : (s.updPhase n f).saEcc = s.saEcc := rfl
@[simp] theorem State.updPhase_threads (s : State) (n : Nat) (f : PhaseSt → PhaseSt) : (s.updPhase n f).threads = s.threads := rfl
@[simp] theorem State.updPhase_helpers (s : State) (n : Nat) (f : PhaseSt → PhaseSt) : (s.updPhase n f).helpers = s.helpers := rfl
@[simp] theorem State.updPhase_tap (s : State) (n : Nat) (f : PhaseSt → PhaseSt) : (s.updPhase n f).tap = s.tap := rfl
@[simp] theorem State.updPhase_slow (s : State) (n : Nat) (f : PhaseSt → PhaseSt) : (s.updPhase n f).slow = s.slow := rfl
@[simp] theorem State.updPhase_admOff (s : State) (n : Nat) (f : PhaseSt → PhaseSt) : (s.updPhase n f).admOff = s.admOff := rfl
@[simp] theorem State.updPhase_fuses (s : State) (n : Nat) (f : PhaseSt → PhaseSt) : (s.updPhase n f).fuses = s.fuses := rfl
@[simp] theorem State.updPhase_boot (s : State) (n : Nat) (f : PhaseSt → PhaseSt) : (s.updPhase n f).boot = s.boot := rfl
@[simp] theorem State.updPhase_loops (s : State) (n : Nat) (f : PhaseSt → PhaseSt) : (s.updPhase n f).loops = s.loops := rfl
@[simp] theorem State.updPhase_convs (s : State) (n : Nat) (f : PhaseSt → PhaseSt) : (s.updPhase n f).convs = s.convs := rfl
@[simp] theorem State.updPhase_cnv (s : State) (n : Nat) (f : PhaseSt → PhaseSt) : (s.updPhase n f).cnv = s.cnv := rfl
@[simp] theorem State.updPhase_gov (s : State) (n : Nat) (f : PhaseSt → PhaseSt) : (s.updPhase n f).gov = s.gov := rfl
@[simp] theorem State.updPhase_fanForced (s : State) (n : Nat) (f : PhaseSt → PhaseSt) : (s.updPhase n f).fanForced = s.fanForced := rfl
@[simp] theorem State.updPhase_bat (s : State) (n : Nat) (f : PhaseSt → PhaseSt) : (s.updPhase n f).bat = s.bat := rfl
@[simp] theorem State.updPhase_batKeep (s : State) (n : Nat) (f : PhaseSt → PhaseSt) : (s.updPhase n f).batKeep = s.batKeep := rfl
@[simp] theorem State.updPhase_pm (s : State) (n : Nat) (f : PhaseSt → PhaseSt) : (s.updPhase n f).pm = s.pm := rfl
@[simp] theorem State.updPhase_ctl (s : State) (n : Nat) (f : PhaseSt → PhaseSt) : (s.updPhase n f).ctl = s.ctl := rfl
@[simp] theorem State.updPhase_rows (s : State) (n : Nat) (f : PhaseSt → PhaseSt) : (s.updPhase n f).rows = s.rows := rfl
@[simp] theorem State.updPhase_perst (s : State) (n : Nat) (f : PhaseSt → PhaseSt) : (s.updPhase n f).perst = s.perst := rfl
@[simp] theorem State.updPhase_esp (s : State) (n : Nat) (f : PhaseSt → PhaseSt) : (s.updPhase n f).esp = s.esp := rfl
@[simp] theorem State.updPhase_ports (s : State) (n : Nat) (f : PhaseSt → PhaseSt) : (s.updPhase n f).ports = s.ports := rfl
@[simp] theorem State.updPhase_saMaster (s : State) (n : Nat) (f : PhaseSt → PhaseSt) : (s.updPhase n f).saMaster = s.saMaster := rfl
@[simp] theorem State.updPhase_saCopies (s : State) (n : Nat) (f : PhaseSt → PhaseSt) : (s.updPhase n f).saCopies = s.saCopies := rfl
@[simp] theorem State.updPhase_msecBusy (s : State) (n : Nat) (f : PhaseSt → PhaseSt) : (s.updPhase n f).msecBusy = s.msecBusy := rfl
@[simp] theorem State.updPhase_dtb (s : State) (n : Nat) (f : PhaseSt → PhaseSt) : (s.updPhase n f).dtb = s.dtb := rfl
@[simp] theorem State.updPhase_ring (s : State) (n : Nat) (f : PhaseSt → PhaseSt) : (s.updPhase n f).ring = s.ring := rfl
@[simp] theorem State.updPhase_usb (s : State) (n : Nat) (f : PhaseSt → PhaseSt) : (s.updPhase n f).usb = s.usb := rfl
@[simp] theorem State.updPhase_jobs (s : State) (n : Nat) (f : PhaseSt → PhaseSt) : (s.updPhase n f).jobs = s.jobs := rfl
@[simp] theorem State.updPhase_fst (s : State) (n : Nat) (f : PhaseSt → PhaseSt) : (s.updPhase n f).fst = s.fst := rfl
@[simp] theorem State.updPhase_pins (s : State) (n : Nat) (f : PhaseSt → PhaseSt) : (s.updPhase n f).pins = s.pins := rfl
@[simp] theorem State.updPhase_graft (s : State) (n : Nat) (f : PhaseSt → PhaseSt) : (s.updPhase n f).graft = s.graft := rfl
theorem State.updPhase_phases (s : State) (n : Nat) (f : PhaseSt → PhaseSt) : (s.updPhase n f).phases = tabSet {} n (f (s.phase n)) s.phases := rfl
@[simp] theorem State.updPhase_reg (s : State) (n : Nat) (f : PhaseSt → PhaseSt) (q : Nat) : (s.updPhase n f).reg q = s.reg q := rfl
@[simp] theorem State.updPhase_fld (s : State) (n : Nat) (f : PhaseSt → PhaseSt) (g : Fld) : (s.updPhase n f).fld g = s.fld g := rfl
@[simp] theorem State.updPhase_flag (s : State) (n : Nat) (f : PhaseSt → PhaseSt) (g : Fld) : (s.updPhase n f).flag g = s.flag g := rfl
@[simp] theorem State.updPhase_granted (s : State) (n : Nat) (f : PhaseSt → PhaseSt) (d : Nat) : (s.updPhase n f).granted d = s.granted d := rfl
@[simp] theorem State.updPhase_ready (s : State) (n : Nat) (f : PhaseSt → PhaseSt) (i : Nat) : (s.updPhase n f).ready i = s.ready i := rfl
@[simp] theorem State.updPhase_safe (s : State) (n : Nat) (f : PhaseSt → PhaseSt) : (s.updPhase n f).safe = s.safe := rfl
@[simp] theorem State.updPhase_thr (s : State) (n : Nat) (f : PhaseSt → PhaseSt) (j : Nat) : (s.updPhase n f).thr j = s.thr j := rfl
@[simp] theorem State.updPhase_row (s : State) (n : Nat) (f : PhaseSt → PhaseSt) (i : Nat) : (s.updPhase n f).row i = s.row i := rfl
@[simp] theorem State.updPhase_loop (s : State) (n : Nat) (f : PhaseSt → PhaseSt) (i : Nat) : (s.updPhase n f).loop i = s.loop i := rfl
@[simp] theorem State.updPhase_conv (s : State) (n : Nat) (f : PhaseSt → PhaseSt) (i : Nat) : (s.updPhase n f).conv i = s.conv i := rfl
@[simp] theorem State.updPhase_govOf (s : State) (n : Nat) (f : PhaseSt → PhaseSt) (i : Nat) : (s.updPhase n f).govOf i = s.govOf i := rfl
@[simp] theorem State.updPhase_port (s : State) (n : Nat) (f : PhaseSt → PhaseSt) (i : Nat) : (s.updPhase n f).port i = s.port i := rfl

@[simp] theorem State.updConv_pending (s : State) (n : Nat) (f : ConvSt → ConvSt) : (s.updConv n f).pending = s.pending := rfl
@[simp] theorem State.updConv_freeCtr (s : State) (n : Nat) (f : ConvSt → ConvSt) : (s.updConv n f).freeCtr = s.freeCtr := rfl
@[simp] theorem State.updConv_clk (s : State) (n : Nat) (f : ConvSt → ConvSt) : (s.updConv n f).clk = s.clk := rfl
@[simp] theorem State.updConv_out (s : State) (n : Nat) (f : ConvSt → ConvSt) : (s.updConv n f).out = s.out := rfl
@[simp] theorem State.updConv_regs (s : State) (n : Nat) (f : ConvSt → ConvSt) : (s.updConv n f).regs = s.regs := rfl
@[simp] theorem State.updConv_rdShadow (s : State) (n : Nat) (f : ConvSt → ConvSt) : (s.updConv n f).rdShadow = s.rdShadow := rfl
@[simp] theorem State.updConv_wrShadow (s : State) (n : Nat) (f : ConvSt → ConvSt) : (s.updConv n f).wrShadow = s.wrShadow := rfl
@[simp] theorem State.updConv_mem (s : State) (n : Nat) (f : ConvSt → ConvSt) : (s.updConv n f).mem = s.mem := rfl
@[simp] theorem State.updConv_rsMem (s : State) (n : Nat) (f : ConvSt → ConvSt) : (s.updConv n f).rsMem = s.rsMem := rfl
@[simp] theorem State.updConv_nv (s : State) (n : Nat) (f : ConvSt → ConvSt) : (s.updConv n f).nv = s.nv := rfl
@[simp] theorem State.updConv_nvCounts (s : State) (n : Nat) (f : ConvSt → ConvSt) : (s.updConv n f).nvCounts = s.nvCounts := rfl
@[simp] theorem State.updConv_fill (s : State) (n : Nat) (f : ConvSt → ConvSt) : (s.updConv n f).fill = s.fill := rfl
@[simp] theorem State.updConv_rram (s : State) (n : Nat) (f : ConvSt → ConvSt) : (s.updConv n f).rram = s.rram := rfl
@[simp] theorem State.updConv_ecc (s : State) (n : Nat) (f : ConvSt → ConvSt) : (s.updConv n f).ecc = s.ecc := rfl
@[simp] theorem State.updConv_rsEcc (s : State) (n : Nat) (f : ConvSt → ConvSt) : (s.updConv n f).rsEcc = s.rsEcc := rfl
@[simp] theorem State.updConv_rramEcc (s : State) (n : Nat) (f : ConvSt → ConvSt) : (s.updConv n f).rramEcc = s.rramEcc := rfl
@[simp] theorem State.updConv_nvEcc (s : State) (n : Nat) (f : ConvSt → ConvSt) : (s.updConv n f).nvEcc = s.nvEcc := rfl
@[simp] theorem State.updConv_saEcc (s : State) (n : Nat) (f : ConvSt → ConvSt) : (s.updConv n f).saEcc = s.saEcc := rfl
@[simp] theorem State.updConv_threads (s : State) (n : Nat) (f : ConvSt → ConvSt) : (s.updConv n f).threads = s.threads := rfl
@[simp] theorem State.updConv_helpers (s : State) (n : Nat) (f : ConvSt → ConvSt) : (s.updConv n f).helpers = s.helpers := rfl
@[simp] theorem State.updConv_tap (s : State) (n : Nat) (f : ConvSt → ConvSt) : (s.updConv n f).tap = s.tap := rfl
@[simp] theorem State.updConv_slow (s : State) (n : Nat) (f : ConvSt → ConvSt) : (s.updConv n f).slow = s.slow := rfl
@[simp] theorem State.updConv_admOff (s : State) (n : Nat) (f : ConvSt → ConvSt) : (s.updConv n f).admOff = s.admOff := rfl
@[simp] theorem State.updConv_fuses (s : State) (n : Nat) (f : ConvSt → ConvSt) : (s.updConv n f).fuses = s.fuses := rfl
@[simp] theorem State.updConv_boot (s : State) (n : Nat) (f : ConvSt → ConvSt) : (s.updConv n f).boot = s.boot := rfl
@[simp] theorem State.updConv_loops (s : State) (n : Nat) (f : ConvSt → ConvSt) : (s.updConv n f).loops = s.loops := rfl
@[simp] theorem State.updConv_phases (s : State) (n : Nat) (f : ConvSt → ConvSt) : (s.updConv n f).phases = s.phases := rfl
@[simp] theorem State.updConv_cnv (s : State) (n : Nat) (f : ConvSt → ConvSt) : (s.updConv n f).cnv = s.cnv := rfl
@[simp] theorem State.updConv_gov (s : State) (n : Nat) (f : ConvSt → ConvSt) : (s.updConv n f).gov = s.gov := rfl
@[simp] theorem State.updConv_fanForced (s : State) (n : Nat) (f : ConvSt → ConvSt) : (s.updConv n f).fanForced = s.fanForced := rfl
@[simp] theorem State.updConv_bat (s : State) (n : Nat) (f : ConvSt → ConvSt) : (s.updConv n f).bat = s.bat := rfl
@[simp] theorem State.updConv_batKeep (s : State) (n : Nat) (f : ConvSt → ConvSt) : (s.updConv n f).batKeep = s.batKeep := rfl
@[simp] theorem State.updConv_pm (s : State) (n : Nat) (f : ConvSt → ConvSt) : (s.updConv n f).pm = s.pm := rfl
@[simp] theorem State.updConv_ctl (s : State) (n : Nat) (f : ConvSt → ConvSt) : (s.updConv n f).ctl = s.ctl := rfl
@[simp] theorem State.updConv_rows (s : State) (n : Nat) (f : ConvSt → ConvSt) : (s.updConv n f).rows = s.rows := rfl
@[simp] theorem State.updConv_perst (s : State) (n : Nat) (f : ConvSt → ConvSt) : (s.updConv n f).perst = s.perst := rfl
@[simp] theorem State.updConv_esp (s : State) (n : Nat) (f : ConvSt → ConvSt) : (s.updConv n f).esp = s.esp := rfl
@[simp] theorem State.updConv_ports (s : State) (n : Nat) (f : ConvSt → ConvSt) : (s.updConv n f).ports = s.ports := rfl
@[simp] theorem State.updConv_saMaster (s : State) (n : Nat) (f : ConvSt → ConvSt) : (s.updConv n f).saMaster = s.saMaster := rfl
@[simp] theorem State.updConv_saCopies (s : State) (n : Nat) (f : ConvSt → ConvSt) : (s.updConv n f).saCopies = s.saCopies := rfl
@[simp] theorem State.updConv_msecBusy (s : State) (n : Nat) (f : ConvSt → ConvSt) : (s.updConv n f).msecBusy = s.msecBusy := rfl
@[simp] theorem State.updConv_dtb (s : State) (n : Nat) (f : ConvSt → ConvSt) : (s.updConv n f).dtb = s.dtb := rfl
@[simp] theorem State.updConv_ring (s : State) (n : Nat) (f : ConvSt → ConvSt) : (s.updConv n f).ring = s.ring := rfl
@[simp] theorem State.updConv_usb (s : State) (n : Nat) (f : ConvSt → ConvSt) : (s.updConv n f).usb = s.usb := rfl
@[simp] theorem State.updConv_jobs (s : State) (n : Nat) (f : ConvSt → ConvSt) : (s.updConv n f).jobs = s.jobs := rfl
@[simp] theorem State.updConv_fst (s : State) (n : Nat) (f : ConvSt → ConvSt) : (s.updConv n f).fst = s.fst := rfl
@[simp] theorem State.updConv_pins (s : State) (n : Nat) (f : ConvSt → ConvSt) : (s.updConv n f).pins = s.pins := rfl
@[simp] theorem State.updConv_graft (s : State) (n : Nat) (f : ConvSt → ConvSt) : (s.updConv n f).graft = s.graft := rfl
theorem State.updConv_convs (s : State) (n : Nat) (f : ConvSt → ConvSt) : (s.updConv n f).convs = tabSet {} n (f (s.conv n)) s.convs := rfl
@[simp] theorem State.updConv_reg (s : State) (n : Nat) (f : ConvSt → ConvSt) (q : Nat) : (s.updConv n f).reg q = s.reg q := rfl
@[simp] theorem State.updConv_fld (s : State) (n : Nat) (f : ConvSt → ConvSt) (g : Fld) : (s.updConv n f).fld g = s.fld g := rfl
@[simp] theorem State.updConv_flag (s : State) (n : Nat) (f : ConvSt → ConvSt) (g : Fld) : (s.updConv n f).flag g = s.flag g := rfl
@[simp] theorem State.updConv_granted (s : State) (n : Nat) (f : ConvSt → ConvSt) (d : Nat) : (s.updConv n f).granted d = s.granted d := rfl
@[simp] theorem State.updConv_ready (s : State) (n : Nat) (f : ConvSt → ConvSt) (i : Nat) : (s.updConv n f).ready i = s.ready i := rfl
@[simp] theorem State.updConv_safe (s : State) (n : Nat) (f : ConvSt → ConvSt) : (s.updConv n f).safe = s.safe := rfl
@[simp] theorem State.updConv_thr (s : State) (n : Nat) (f : ConvSt → ConvSt) (j : Nat) : (s.updConv n f).thr j = s.thr j := rfl
@[simp] theorem State.updConv_row (s : State) (n : Nat) (f : ConvSt → ConvSt) (i : Nat) : (s.updConv n f).row i = s.row i := rfl
@[simp] theorem State.updConv_loop (s : State) (n : Nat) (f : ConvSt → ConvSt) (i : Nat) : (s.updConv n f).loop i = s.loop i := rfl
@[simp] theorem State.updConv_phase (s : State) (n : Nat) (f : ConvSt → ConvSt) (i : Nat) : (s.updConv n f).phase i = s.phase i := rfl
@[simp] theorem State.updConv_govOf (s : State) (n : Nat) (f : ConvSt → ConvSt) (i : Nat) : (s.updConv n f).govOf i = s.govOf i := rfl
@[simp] theorem State.updConv_port (s : State) (n : Nat) (f : ConvSt → ConvSt) (i : Nat) : (s.updConv n f).port i = s.port i := rfl

@[simp] theorem State.updCnv_pending (s : State) (f : CnvSt → CnvSt) : (s.updCnv f).pending = s.pending := rfl
@[simp] theorem State.updCnv_freeCtr (s : State) (f : CnvSt → CnvSt) : (s.updCnv f).freeCtr = s.freeCtr := rfl
@[simp] theorem State.updCnv_clk (s : State) (f : CnvSt → CnvSt) : (s.updCnv f).clk = s.clk := rfl
@[simp] theorem State.updCnv_out (s : State) (f : CnvSt → CnvSt) : (s.updCnv f).out = s.out := rfl
@[simp] theorem State.updCnv_regs (s : State) (f : CnvSt → CnvSt) : (s.updCnv f).regs = s.regs := rfl
@[simp] theorem State.updCnv_rdShadow (s : State) (f : CnvSt → CnvSt) : (s.updCnv f).rdShadow = s.rdShadow := rfl
@[simp] theorem State.updCnv_wrShadow (s : State) (f : CnvSt → CnvSt) : (s.updCnv f).wrShadow = s.wrShadow := rfl
@[simp] theorem State.updCnv_mem (s : State) (f : CnvSt → CnvSt) : (s.updCnv f).mem = s.mem := rfl
@[simp] theorem State.updCnv_rsMem (s : State) (f : CnvSt → CnvSt) : (s.updCnv f).rsMem = s.rsMem := rfl
@[simp] theorem State.updCnv_nv (s : State) (f : CnvSt → CnvSt) : (s.updCnv f).nv = s.nv := rfl
@[simp] theorem State.updCnv_nvCounts (s : State) (f : CnvSt → CnvSt) : (s.updCnv f).nvCounts = s.nvCounts := rfl
@[simp] theorem State.updCnv_fill (s : State) (f : CnvSt → CnvSt) : (s.updCnv f).fill = s.fill := rfl
@[simp] theorem State.updCnv_rram (s : State) (f : CnvSt → CnvSt) : (s.updCnv f).rram = s.rram := rfl
@[simp] theorem State.updCnv_ecc (s : State) (f : CnvSt → CnvSt) : (s.updCnv f).ecc = s.ecc := rfl
@[simp] theorem State.updCnv_rsEcc (s : State) (f : CnvSt → CnvSt) : (s.updCnv f).rsEcc = s.rsEcc := rfl
@[simp] theorem State.updCnv_rramEcc (s : State) (f : CnvSt → CnvSt) : (s.updCnv f).rramEcc = s.rramEcc := rfl
@[simp] theorem State.updCnv_nvEcc (s : State) (f : CnvSt → CnvSt) : (s.updCnv f).nvEcc = s.nvEcc := rfl
@[simp] theorem State.updCnv_saEcc (s : State) (f : CnvSt → CnvSt) : (s.updCnv f).saEcc = s.saEcc := rfl
@[simp] theorem State.updCnv_threads (s : State) (f : CnvSt → CnvSt) : (s.updCnv f).threads = s.threads := rfl
@[simp] theorem State.updCnv_helpers (s : State) (f : CnvSt → CnvSt) : (s.updCnv f).helpers = s.helpers := rfl
@[simp] theorem State.updCnv_tap (s : State) (f : CnvSt → CnvSt) : (s.updCnv f).tap = s.tap := rfl
@[simp] theorem State.updCnv_slow (s : State) (f : CnvSt → CnvSt) : (s.updCnv f).slow = s.slow := rfl
@[simp] theorem State.updCnv_admOff (s : State) (f : CnvSt → CnvSt) : (s.updCnv f).admOff = s.admOff := rfl
@[simp] theorem State.updCnv_fuses (s : State) (f : CnvSt → CnvSt) : (s.updCnv f).fuses = s.fuses := rfl
@[simp] theorem State.updCnv_boot (s : State) (f : CnvSt → CnvSt) : (s.updCnv f).boot = s.boot := rfl
@[simp] theorem State.updCnv_loops (s : State) (f : CnvSt → CnvSt) : (s.updCnv f).loops = s.loops := rfl
@[simp] theorem State.updCnv_phases (s : State) (f : CnvSt → CnvSt) : (s.updCnv f).phases = s.phases := rfl
@[simp] theorem State.updCnv_convs (s : State) (f : CnvSt → CnvSt) : (s.updCnv f).convs = s.convs := rfl
@[simp] theorem State.updCnv_gov (s : State) (f : CnvSt → CnvSt) : (s.updCnv f).gov = s.gov := rfl
@[simp] theorem State.updCnv_fanForced (s : State) (f : CnvSt → CnvSt) : (s.updCnv f).fanForced = s.fanForced := rfl
@[simp] theorem State.updCnv_bat (s : State) (f : CnvSt → CnvSt) : (s.updCnv f).bat = s.bat := rfl
@[simp] theorem State.updCnv_batKeep (s : State) (f : CnvSt → CnvSt) : (s.updCnv f).batKeep = s.batKeep := rfl
@[simp] theorem State.updCnv_pm (s : State) (f : CnvSt → CnvSt) : (s.updCnv f).pm = s.pm := rfl
@[simp] theorem State.updCnv_ctl (s : State) (f : CnvSt → CnvSt) : (s.updCnv f).ctl = s.ctl := rfl
@[simp] theorem State.updCnv_rows (s : State) (f : CnvSt → CnvSt) : (s.updCnv f).rows = s.rows := rfl
@[simp] theorem State.updCnv_perst (s : State) (f : CnvSt → CnvSt) : (s.updCnv f).perst = s.perst := rfl
@[simp] theorem State.updCnv_esp (s : State) (f : CnvSt → CnvSt) : (s.updCnv f).esp = s.esp := rfl
@[simp] theorem State.updCnv_ports (s : State) (f : CnvSt → CnvSt) : (s.updCnv f).ports = s.ports := rfl
@[simp] theorem State.updCnv_saMaster (s : State) (f : CnvSt → CnvSt) : (s.updCnv f).saMaster = s.saMaster := rfl
@[simp] theorem State.updCnv_saCopies (s : State) (f : CnvSt → CnvSt) : (s.updCnv f).saCopies = s.saCopies := rfl
@[simp] theorem State.updCnv_msecBusy (s : State) (f : CnvSt → CnvSt) : (s.updCnv f).msecBusy = s.msecBusy := rfl
@[simp] theorem State.updCnv_dtb (s : State) (f : CnvSt → CnvSt) : (s.updCnv f).dtb = s.dtb := rfl
@[simp] theorem State.updCnv_ring (s : State) (f : CnvSt → CnvSt) : (s.updCnv f).ring = s.ring := rfl
@[simp] theorem State.updCnv_usb (s : State) (f : CnvSt → CnvSt) : (s.updCnv f).usb = s.usb := rfl
@[simp] theorem State.updCnv_jobs (s : State) (f : CnvSt → CnvSt) : (s.updCnv f).jobs = s.jobs := rfl
@[simp] theorem State.updCnv_fst (s : State) (f : CnvSt → CnvSt) : (s.updCnv f).fst = s.fst := rfl
@[simp] theorem State.updCnv_pins (s : State) (f : CnvSt → CnvSt) : (s.updCnv f).pins = s.pins := rfl
@[simp] theorem State.updCnv_graft (s : State) (f : CnvSt → CnvSt) : (s.updCnv f).graft = s.graft := rfl
theorem State.updCnv_cnv (s : State) (f : CnvSt → CnvSt) : (s.updCnv f).cnv = f s.cnv := rfl
@[simp] theorem State.updCnv_reg (s : State) (f : CnvSt → CnvSt) (q : Nat) : (s.updCnv f).reg q = s.reg q := rfl
@[simp] theorem State.updCnv_fld (s : State) (f : CnvSt → CnvSt) (g : Fld) : (s.updCnv f).fld g = s.fld g := rfl
@[simp] theorem State.updCnv_flag (s : State) (f : CnvSt → CnvSt) (g : Fld) : (s.updCnv f).flag g = s.flag g := rfl
@[simp] theorem State.updCnv_granted (s : State) (f : CnvSt → CnvSt) (d : Nat) : (s.updCnv f).granted d = s.granted d := rfl
@[simp] theorem State.updCnv_ready (s : State) (f : CnvSt → CnvSt) (i : Nat) : (s.updCnv f).ready i = s.ready i := rfl
@[simp] theorem State.updCnv_safe (s : State) (f : CnvSt → CnvSt) : (s.updCnv f).safe = s.safe := rfl
@[simp] theorem State.updCnv_thr (s : State) (f : CnvSt → CnvSt) (j : Nat) : (s.updCnv f).thr j = s.thr j := rfl
@[simp] theorem State.updCnv_row (s : State) (f : CnvSt → CnvSt) (i : Nat) : (s.updCnv f).row i = s.row i := rfl
@[simp] theorem State.updCnv_loop (s : State) (f : CnvSt → CnvSt) (i : Nat) : (s.updCnv f).loop i = s.loop i := rfl
@[simp] theorem State.updCnv_phase (s : State) (f : CnvSt → CnvSt) (i : Nat) : (s.updCnv f).phase i = s.phase i := rfl
@[simp] theorem State.updCnv_conv (s : State) (f : CnvSt → CnvSt) (i : Nat) : (s.updCnv f).conv i = s.conv i := rfl
@[simp] theorem State.updCnv_govOf (s : State) (f : CnvSt → CnvSt) (i : Nat) : (s.updCnv f).govOf i = s.govOf i := rfl
@[simp] theorem State.updCnv_port (s : State) (f : CnvSt → CnvSt) (i : Nat) : (s.updCnv f).port i = s.port i := rfl

@[simp] theorem State.updGov_pending (s : State) (x : Nat) (f : GovSt → GovSt) : (s.updGov x f).pending = s.pending := rfl
@[simp] theorem State.updGov_freeCtr (s : State) (x : Nat) (f : GovSt → GovSt) : (s.updGov x f).freeCtr = s.freeCtr := rfl
@[simp] theorem State.updGov_clk (s : State) (x : Nat) (f : GovSt → GovSt) : (s.updGov x f).clk = s.clk := rfl
@[simp] theorem State.updGov_out (s : State) (x : Nat) (f : GovSt → GovSt) : (s.updGov x f).out = s.out := rfl
@[simp] theorem State.updGov_regs (s : State) (x : Nat) (f : GovSt → GovSt) : (s.updGov x f).regs = s.regs := rfl
@[simp] theorem State.updGov_rdShadow (s : State) (x : Nat) (f : GovSt → GovSt) : (s.updGov x f).rdShadow = s.rdShadow := rfl
@[simp] theorem State.updGov_wrShadow (s : State) (x : Nat) (f : GovSt → GovSt) : (s.updGov x f).wrShadow = s.wrShadow := rfl
@[simp] theorem State.updGov_mem (s : State) (x : Nat) (f : GovSt → GovSt) : (s.updGov x f).mem = s.mem := rfl
@[simp] theorem State.updGov_rsMem (s : State) (x : Nat) (f : GovSt → GovSt) : (s.updGov x f).rsMem = s.rsMem := rfl
@[simp] theorem State.updGov_nv (s : State) (x : Nat) (f : GovSt → GovSt) : (s.updGov x f).nv = s.nv := rfl
@[simp] theorem State.updGov_nvCounts (s : State) (x : Nat) (f : GovSt → GovSt) : (s.updGov x f).nvCounts = s.nvCounts := rfl
@[simp] theorem State.updGov_fill (s : State) (x : Nat) (f : GovSt → GovSt) : (s.updGov x f).fill = s.fill := rfl
@[simp] theorem State.updGov_rram (s : State) (x : Nat) (f : GovSt → GovSt) : (s.updGov x f).rram = s.rram := rfl
@[simp] theorem State.updGov_ecc (s : State) (x : Nat) (f : GovSt → GovSt) : (s.updGov x f).ecc = s.ecc := rfl
@[simp] theorem State.updGov_rsEcc (s : State) (x : Nat) (f : GovSt → GovSt) : (s.updGov x f).rsEcc = s.rsEcc := rfl
@[simp] theorem State.updGov_rramEcc (s : State) (x : Nat) (f : GovSt → GovSt) : (s.updGov x f).rramEcc = s.rramEcc := rfl
@[simp] theorem State.updGov_nvEcc (s : State) (x : Nat) (f : GovSt → GovSt) : (s.updGov x f).nvEcc = s.nvEcc := rfl
@[simp] theorem State.updGov_saEcc (s : State) (x : Nat) (f : GovSt → GovSt) : (s.updGov x f).saEcc = s.saEcc := rfl
@[simp] theorem State.updGov_threads (s : State) (x : Nat) (f : GovSt → GovSt) : (s.updGov x f).threads = s.threads := rfl
@[simp] theorem State.updGov_helpers (s : State) (x : Nat) (f : GovSt → GovSt) : (s.updGov x f).helpers = s.helpers := rfl
@[simp] theorem State.updGov_tap (s : State) (x : Nat) (f : GovSt → GovSt) : (s.updGov x f).tap = s.tap := rfl
@[simp] theorem State.updGov_slow (s : State) (x : Nat) (f : GovSt → GovSt) : (s.updGov x f).slow = s.slow := rfl
@[simp] theorem State.updGov_admOff (s : State) (x : Nat) (f : GovSt → GovSt) : (s.updGov x f).admOff = s.admOff := rfl
@[simp] theorem State.updGov_fuses (s : State) (x : Nat) (f : GovSt → GovSt) : (s.updGov x f).fuses = s.fuses := rfl
@[simp] theorem State.updGov_boot (s : State) (x : Nat) (f : GovSt → GovSt) : (s.updGov x f).boot = s.boot := rfl
@[simp] theorem State.updGov_loops (s : State) (x : Nat) (f : GovSt → GovSt) : (s.updGov x f).loops = s.loops := rfl
@[simp] theorem State.updGov_phases (s : State) (x : Nat) (f : GovSt → GovSt) : (s.updGov x f).phases = s.phases := rfl
@[simp] theorem State.updGov_convs (s : State) (x : Nat) (f : GovSt → GovSt) : (s.updGov x f).convs = s.convs := rfl
@[simp] theorem State.updGov_cnv (s : State) (x : Nat) (f : GovSt → GovSt) : (s.updGov x f).cnv = s.cnv := rfl
@[simp] theorem State.updGov_fanForced (s : State) (x : Nat) (f : GovSt → GovSt) : (s.updGov x f).fanForced = s.fanForced := rfl
@[simp] theorem State.updGov_bat (s : State) (x : Nat) (f : GovSt → GovSt) : (s.updGov x f).bat = s.bat := rfl
@[simp] theorem State.updGov_batKeep (s : State) (x : Nat) (f : GovSt → GovSt) : (s.updGov x f).batKeep = s.batKeep := rfl
@[simp] theorem State.updGov_pm (s : State) (x : Nat) (f : GovSt → GovSt) : (s.updGov x f).pm = s.pm := rfl
@[simp] theorem State.updGov_ctl (s : State) (x : Nat) (f : GovSt → GovSt) : (s.updGov x f).ctl = s.ctl := rfl
@[simp] theorem State.updGov_rows (s : State) (x : Nat) (f : GovSt → GovSt) : (s.updGov x f).rows = s.rows := rfl
@[simp] theorem State.updGov_perst (s : State) (x : Nat) (f : GovSt → GovSt) : (s.updGov x f).perst = s.perst := rfl
@[simp] theorem State.updGov_esp (s : State) (x : Nat) (f : GovSt → GovSt) : (s.updGov x f).esp = s.esp := rfl
@[simp] theorem State.updGov_ports (s : State) (x : Nat) (f : GovSt → GovSt) : (s.updGov x f).ports = s.ports := rfl
@[simp] theorem State.updGov_saMaster (s : State) (x : Nat) (f : GovSt → GovSt) : (s.updGov x f).saMaster = s.saMaster := rfl
@[simp] theorem State.updGov_saCopies (s : State) (x : Nat) (f : GovSt → GovSt) : (s.updGov x f).saCopies = s.saCopies := rfl
@[simp] theorem State.updGov_msecBusy (s : State) (x : Nat) (f : GovSt → GovSt) : (s.updGov x f).msecBusy = s.msecBusy := rfl
@[simp] theorem State.updGov_dtb (s : State) (x : Nat) (f : GovSt → GovSt) : (s.updGov x f).dtb = s.dtb := rfl
@[simp] theorem State.updGov_ring (s : State) (x : Nat) (f : GovSt → GovSt) : (s.updGov x f).ring = s.ring := rfl
@[simp] theorem State.updGov_usb (s : State) (x : Nat) (f : GovSt → GovSt) : (s.updGov x f).usb = s.usb := rfl
@[simp] theorem State.updGov_jobs (s : State) (x : Nat) (f : GovSt → GovSt) : (s.updGov x f).jobs = s.jobs := rfl
@[simp] theorem State.updGov_fst (s : State) (x : Nat) (f : GovSt → GovSt) : (s.updGov x f).fst = s.fst := rfl
@[simp] theorem State.updGov_pins (s : State) (x : Nat) (f : GovSt → GovSt) : (s.updGov x f).pins = s.pins := rfl
@[simp] theorem State.updGov_graft (s : State) (x : Nat) (f : GovSt → GovSt) : (s.updGov x f).graft = s.graft := rfl
theorem State.updGov_gov (s : State) (x : Nat) (f : GovSt → GovSt) : (s.updGov x f).gov = tabSet {} x (f (s.govOf x)) s.gov := rfl
@[simp] theorem State.updGov_reg (s : State) (x : Nat) (f : GovSt → GovSt) (q : Nat) : (s.updGov x f).reg q = s.reg q := rfl
@[simp] theorem State.updGov_fld (s : State) (x : Nat) (f : GovSt → GovSt) (g : Fld) : (s.updGov x f).fld g = s.fld g := rfl
@[simp] theorem State.updGov_flag (s : State) (x : Nat) (f : GovSt → GovSt) (g : Fld) : (s.updGov x f).flag g = s.flag g := rfl
@[simp] theorem State.updGov_granted (s : State) (x : Nat) (f : GovSt → GovSt) (d : Nat) : (s.updGov x f).granted d = s.granted d := rfl
@[simp] theorem State.updGov_ready (s : State) (x : Nat) (f : GovSt → GovSt) (i : Nat) : (s.updGov x f).ready i = s.ready i := rfl
@[simp] theorem State.updGov_safe (s : State) (x : Nat) (f : GovSt → GovSt) : (s.updGov x f).safe = s.safe := rfl
@[simp] theorem State.updGov_thr (s : State) (x : Nat) (f : GovSt → GovSt) (j : Nat) : (s.updGov x f).thr j = s.thr j := rfl
@[simp] theorem State.updGov_row (s : State) (x : Nat) (f : GovSt → GovSt) (i : Nat) : (s.updGov x f).row i = s.row i := rfl
@[simp] theorem State.updGov_loop (s : State) (x : Nat) (f : GovSt → GovSt) (i : Nat) : (s.updGov x f).loop i = s.loop i := rfl
@[simp] theorem State.updGov_phase (s : State) (x : Nat) (f : GovSt → GovSt) (i : Nat) : (s.updGov x f).phase i = s.phase i := rfl
@[simp] theorem State.updGov_conv (s : State) (x : Nat) (f : GovSt → GovSt) (i : Nat) : (s.updGov x f).conv i = s.conv i := rfl
@[simp] theorem State.updGov_port (s : State) (x : Nat) (f : GovSt → GovSt) (i : Nat) : (s.updGov x f).port i = s.port i := rfl

@[simp] theorem State.updBat_pending (s : State) (f : BatSt → BatSt) : (s.updBat f).pending = s.pending := rfl
@[simp] theorem State.updBat_freeCtr (s : State) (f : BatSt → BatSt) : (s.updBat f).freeCtr = s.freeCtr := rfl
@[simp] theorem State.updBat_clk (s : State) (f : BatSt → BatSt) : (s.updBat f).clk = s.clk := rfl
@[simp] theorem State.updBat_out (s : State) (f : BatSt → BatSt) : (s.updBat f).out = s.out := rfl
@[simp] theorem State.updBat_regs (s : State) (f : BatSt → BatSt) : (s.updBat f).regs = s.regs := rfl
@[simp] theorem State.updBat_rdShadow (s : State) (f : BatSt → BatSt) : (s.updBat f).rdShadow = s.rdShadow := rfl
@[simp] theorem State.updBat_wrShadow (s : State) (f : BatSt → BatSt) : (s.updBat f).wrShadow = s.wrShadow := rfl
@[simp] theorem State.updBat_mem (s : State) (f : BatSt → BatSt) : (s.updBat f).mem = s.mem := rfl
@[simp] theorem State.updBat_rsMem (s : State) (f : BatSt → BatSt) : (s.updBat f).rsMem = s.rsMem := rfl
@[simp] theorem State.updBat_nv (s : State) (f : BatSt → BatSt) : (s.updBat f).nv = s.nv := rfl
@[simp] theorem State.updBat_nvCounts (s : State) (f : BatSt → BatSt) : (s.updBat f).nvCounts = s.nvCounts := rfl
@[simp] theorem State.updBat_fill (s : State) (f : BatSt → BatSt) : (s.updBat f).fill = s.fill := rfl
@[simp] theorem State.updBat_rram (s : State) (f : BatSt → BatSt) : (s.updBat f).rram = s.rram := rfl
@[simp] theorem State.updBat_ecc (s : State) (f : BatSt → BatSt) : (s.updBat f).ecc = s.ecc := rfl
@[simp] theorem State.updBat_rsEcc (s : State) (f : BatSt → BatSt) : (s.updBat f).rsEcc = s.rsEcc := rfl
@[simp] theorem State.updBat_rramEcc (s : State) (f : BatSt → BatSt) : (s.updBat f).rramEcc = s.rramEcc := rfl
@[simp] theorem State.updBat_nvEcc (s : State) (f : BatSt → BatSt) : (s.updBat f).nvEcc = s.nvEcc := rfl
@[simp] theorem State.updBat_saEcc (s : State) (f : BatSt → BatSt) : (s.updBat f).saEcc = s.saEcc := rfl
@[simp] theorem State.updBat_threads (s : State) (f : BatSt → BatSt) : (s.updBat f).threads = s.threads := rfl
@[simp] theorem State.updBat_helpers (s : State) (f : BatSt → BatSt) : (s.updBat f).helpers = s.helpers := rfl
@[simp] theorem State.updBat_tap (s : State) (f : BatSt → BatSt) : (s.updBat f).tap = s.tap := rfl
@[simp] theorem State.updBat_slow (s : State) (f : BatSt → BatSt) : (s.updBat f).slow = s.slow := rfl
@[simp] theorem State.updBat_admOff (s : State) (f : BatSt → BatSt) : (s.updBat f).admOff = s.admOff := rfl
@[simp] theorem State.updBat_fuses (s : State) (f : BatSt → BatSt) : (s.updBat f).fuses = s.fuses := rfl
@[simp] theorem State.updBat_boot (s : State) (f : BatSt → BatSt) : (s.updBat f).boot = s.boot := rfl
@[simp] theorem State.updBat_loops (s : State) (f : BatSt → BatSt) : (s.updBat f).loops = s.loops := rfl
@[simp] theorem State.updBat_phases (s : State) (f : BatSt → BatSt) : (s.updBat f).phases = s.phases := rfl
@[simp] theorem State.updBat_convs (s : State) (f : BatSt → BatSt) : (s.updBat f).convs = s.convs := rfl
@[simp] theorem State.updBat_cnv (s : State) (f : BatSt → BatSt) : (s.updBat f).cnv = s.cnv := rfl
@[simp] theorem State.updBat_gov (s : State) (f : BatSt → BatSt) : (s.updBat f).gov = s.gov := rfl
@[simp] theorem State.updBat_fanForced (s : State) (f : BatSt → BatSt) : (s.updBat f).fanForced = s.fanForced := rfl
@[simp] theorem State.updBat_batKeep (s : State) (f : BatSt → BatSt) : (s.updBat f).batKeep = s.batKeep := rfl
@[simp] theorem State.updBat_pm (s : State) (f : BatSt → BatSt) : (s.updBat f).pm = s.pm := rfl
@[simp] theorem State.updBat_ctl (s : State) (f : BatSt → BatSt) : (s.updBat f).ctl = s.ctl := rfl
@[simp] theorem State.updBat_rows (s : State) (f : BatSt → BatSt) : (s.updBat f).rows = s.rows := rfl
@[simp] theorem State.updBat_perst (s : State) (f : BatSt → BatSt) : (s.updBat f).perst = s.perst := rfl
@[simp] theorem State.updBat_esp (s : State) (f : BatSt → BatSt) : (s.updBat f).esp = s.esp := rfl
@[simp] theorem State.updBat_ports (s : State) (f : BatSt → BatSt) : (s.updBat f).ports = s.ports := rfl
@[simp] theorem State.updBat_saMaster (s : State) (f : BatSt → BatSt) : (s.updBat f).saMaster = s.saMaster := rfl
@[simp] theorem State.updBat_saCopies (s : State) (f : BatSt → BatSt) : (s.updBat f).saCopies = s.saCopies := rfl
@[simp] theorem State.updBat_msecBusy (s : State) (f : BatSt → BatSt) : (s.updBat f).msecBusy = s.msecBusy := rfl
@[simp] theorem State.updBat_dtb (s : State) (f : BatSt → BatSt) : (s.updBat f).dtb = s.dtb := rfl
@[simp] theorem State.updBat_ring (s : State) (f : BatSt → BatSt) : (s.updBat f).ring = s.ring := rfl
@[simp] theorem State.updBat_usb (s : State) (f : BatSt → BatSt) : (s.updBat f).usb = s.usb := rfl
@[simp] theorem State.updBat_jobs (s : State) (f : BatSt → BatSt) : (s.updBat f).jobs = s.jobs := rfl
@[simp] theorem State.updBat_fst (s : State) (f : BatSt → BatSt) : (s.updBat f).fst = s.fst := rfl
@[simp] theorem State.updBat_pins (s : State) (f : BatSt → BatSt) : (s.updBat f).pins = s.pins := rfl
@[simp] theorem State.updBat_graft (s : State) (f : BatSt → BatSt) : (s.updBat f).graft = s.graft := rfl
theorem State.updBat_bat (s : State) (f : BatSt → BatSt) : (s.updBat f).bat = f s.bat := rfl
@[simp] theorem State.updBat_reg (s : State) (f : BatSt → BatSt) (q : Nat) : (s.updBat f).reg q = s.reg q := rfl
@[simp] theorem State.updBat_fld (s : State) (f : BatSt → BatSt) (g : Fld) : (s.updBat f).fld g = s.fld g := rfl
@[simp] theorem State.updBat_flag (s : State) (f : BatSt → BatSt) (g : Fld) : (s.updBat f).flag g = s.flag g := rfl
@[simp] theorem State.updBat_granted (s : State) (f : BatSt → BatSt) (d : Nat) : (s.updBat f).granted d = s.granted d := rfl
@[simp] theorem State.updBat_ready (s : State) (f : BatSt → BatSt) (i : Nat) : (s.updBat f).ready i = s.ready i := rfl
@[simp] theorem State.updBat_safe (s : State) (f : BatSt → BatSt) : (s.updBat f).safe = s.safe := rfl
@[simp] theorem State.updBat_thr (s : State) (f : BatSt → BatSt) (j : Nat) : (s.updBat f).thr j = s.thr j := rfl
@[simp] theorem State.updBat_row (s : State) (f : BatSt → BatSt) (i : Nat) : (s.updBat f).row i = s.row i := rfl
@[simp] theorem State.updBat_loop (s : State) (f : BatSt → BatSt) (i : Nat) : (s.updBat f).loop i = s.loop i := rfl
@[simp] theorem State.updBat_phase (s : State) (f : BatSt → BatSt) (i : Nat) : (s.updBat f).phase i = s.phase i := rfl
@[simp] theorem State.updBat_conv (s : State) (f : BatSt → BatSt) (i : Nat) : (s.updBat f).conv i = s.conv i := rfl
@[simp] theorem State.updBat_govOf (s : State) (f : BatSt → BatSt) (i : Nat) : (s.updBat f).govOf i = s.govOf i := rfl
@[simp] theorem State.updBat_port (s : State) (f : BatSt → BatSt) (i : Nat) : (s.updBat f).port i = s.port i := rfl

@[simp] theorem State.updKeep_pending (s : State) (f : BatKeep → BatKeep) : (s.updKeep f).pending = s.pending := rfl
@[simp] theorem State.updKeep_freeCtr (s : State) (f : BatKeep → BatKeep) : (s.updKeep f).freeCtr = s.freeCtr := rfl
@[simp] theorem State.updKeep_clk (s : State) (f : BatKeep → BatKeep) : (s.updKeep f).clk = s.clk := rfl
@[simp] theorem State.updKeep_out (s : State) (f : BatKeep → BatKeep) : (s.updKeep f).out = s.out := rfl
@[simp] theorem State.updKeep_regs (s : State) (f : BatKeep → BatKeep) : (s.updKeep f).regs = s.regs := rfl
@[simp] theorem State.updKeep_rdShadow (s : State) (f : BatKeep → BatKeep) : (s.updKeep f).rdShadow = s.rdShadow := rfl
@[simp] theorem State.updKeep_wrShadow (s : State) (f : BatKeep → BatKeep) : (s.updKeep f).wrShadow = s.wrShadow := rfl
@[simp] theorem State.updKeep_mem (s : State) (f : BatKeep → BatKeep) : (s.updKeep f).mem = s.mem := rfl
@[simp] theorem State.updKeep_rsMem (s : State) (f : BatKeep → BatKeep) : (s.updKeep f).rsMem = s.rsMem := rfl
@[simp] theorem State.updKeep_nv (s : State) (f : BatKeep → BatKeep) : (s.updKeep f).nv = s.nv := rfl
@[simp] theorem State.updKeep_nvCounts (s : State) (f : BatKeep → BatKeep) : (s.updKeep f).nvCounts = s.nvCounts := rfl
@[simp] theorem State.updKeep_fill (s : State) (f : BatKeep → BatKeep) : (s.updKeep f).fill = s.fill := rfl
@[simp] theorem State.updKeep_rram (s : State) (f : BatKeep → BatKeep) : (s.updKeep f).rram = s.rram := rfl
@[simp] theorem State.updKeep_ecc (s : State) (f : BatKeep → BatKeep) : (s.updKeep f).ecc = s.ecc := rfl
@[simp] theorem State.updKeep_rsEcc (s : State) (f : BatKeep → BatKeep) : (s.updKeep f).rsEcc = s.rsEcc := rfl
@[simp] theorem State.updKeep_rramEcc (s : State) (f : BatKeep → BatKeep) : (s.updKeep f).rramEcc = s.rramEcc := rfl
@[simp] theorem State.updKeep_nvEcc (s : State) (f : BatKeep → BatKeep) : (s.updKeep f).nvEcc = s.nvEcc := rfl
@[simp] theorem State.updKeep_saEcc (s : State) (f : BatKeep → BatKeep) : (s.updKeep f).saEcc = s.saEcc := rfl
@[simp] theorem State.updKeep_threads (s : State) (f : BatKeep → BatKeep) : (s.updKeep f).threads = s.threads := rfl
@[simp] theorem State.updKeep_helpers (s : State) (f : BatKeep → BatKeep) : (s.updKeep f).helpers = s.helpers := rfl
@[simp] theorem State.updKeep_tap (s : State) (f : BatKeep → BatKeep) : (s.updKeep f).tap = s.tap := rfl
@[simp] theorem State.updKeep_slow (s : State) (f : BatKeep → BatKeep) : (s.updKeep f).slow = s.slow := rfl
@[simp] theorem State.updKeep_admOff (s : State) (f : BatKeep → BatKeep) : (s.updKeep f).admOff = s.admOff := rfl
@[simp] theorem State.updKeep_fuses (s : State) (f : BatKeep → BatKeep) : (s.updKeep f).fuses = s.fuses := rfl
@[simp] theorem State.updKeep_boot (s : State) (f : BatKeep → BatKeep) : (s.updKeep f).boot = s.boot := rfl
@[simp] theorem State.updKeep_loops (s : State) (f : BatKeep → BatKeep) : (s.updKeep f).loops = s.loops := rfl
@[simp] theorem State.updKeep_phases (s : State) (f : BatKeep → BatKeep) : (s.updKeep f).phases = s.phases := rfl
@[simp] theorem State.updKeep_convs (s : State) (f : BatKeep → BatKeep) : (s.updKeep f).convs = s.convs := rfl
@[simp] theorem State.updKeep_cnv (s : State) (f : BatKeep → BatKeep) : (s.updKeep f).cnv = s.cnv := rfl
@[simp] theorem State.updKeep_gov (s : State) (f : BatKeep → BatKeep) : (s.updKeep f).gov = s.gov := rfl
@[simp] theorem State.updKeep_fanForced (s : State) (f : BatKeep → BatKeep) : (s.updKeep f).fanForced = s.fanForced := rfl
@[simp] theorem State.updKeep_bat (s : State) (f : BatKeep → BatKeep) : (s.updKeep f).bat = s.bat := rfl
@[simp] theorem State.updKeep_pm (s : State) (f : BatKeep → BatKeep) : (s.updKeep f).pm = s.pm := rfl
@[simp] theorem State.updKeep_ctl (s : State) (f : BatKeep → BatKeep) : (s.updKeep f).ctl = s.ctl := rfl
@[simp] theorem State.updKeep_rows (s : State) (f : BatKeep → BatKeep) : (s.updKeep f).rows = s.rows := rfl
@[simp] theorem State.updKeep_perst (s : State) (f : BatKeep → BatKeep) : (s.updKeep f).perst = s.perst := rfl
@[simp] theorem State.updKeep_esp (s : State) (f : BatKeep → BatKeep) : (s.updKeep f).esp = s.esp := rfl
@[simp] theorem State.updKeep_ports (s : State) (f : BatKeep → BatKeep) : (s.updKeep f).ports = s.ports := rfl
@[simp] theorem State.updKeep_saMaster (s : State) (f : BatKeep → BatKeep) : (s.updKeep f).saMaster = s.saMaster := rfl
@[simp] theorem State.updKeep_saCopies (s : State) (f : BatKeep → BatKeep) : (s.updKeep f).saCopies = s.saCopies := rfl
@[simp] theorem State.updKeep_msecBusy (s : State) (f : BatKeep → BatKeep) : (s.updKeep f).msecBusy = s.msecBusy := rfl
@[simp] theorem State.updKeep_dtb (s : State) (f : BatKeep → BatKeep) : (s.updKeep f).dtb = s.dtb := rfl
@[simp] theorem State.updKeep_ring (s : State) (f : BatKeep → BatKeep) : (s.updKeep f).ring = s.ring := rfl
@[simp] theorem State.updKeep_usb (s : State) (f : BatKeep → BatKeep) : (s.updKeep f).usb = s.usb := rfl
@[simp] theorem State.updKeep_jobs (s : State) (f : BatKeep → BatKeep) : (s.updKeep f).jobs = s.jobs := rfl
@[simp] theorem State.updKeep_fst (s : State) (f : BatKeep → BatKeep) : (s.updKeep f).fst = s.fst := rfl
@[simp] theorem State.updKeep_pins (s : State) (f : BatKeep → BatKeep) : (s.updKeep f).pins = s.pins := rfl
@[simp] theorem State.updKeep_graft (s : State) (f : BatKeep → BatKeep) : (s.updKeep f).graft = s.graft := rfl
theorem State.updKeep_batKeep (s : State) (f : BatKeep → BatKeep) : (s.updKeep f).batKeep = f s.batKeep := rfl
@[simp] theorem State.updKeep_reg (s : State) (f : BatKeep → BatKeep) (q : Nat) : (s.updKeep f).reg q = s.reg q := rfl
@[simp] theorem State.updKeep_fld (s : State) (f : BatKeep → BatKeep) (g : Fld) : (s.updKeep f).fld g = s.fld g := rfl
@[simp] theorem State.updKeep_flag (s : State) (f : BatKeep → BatKeep) (g : Fld) : (s.updKeep f).flag g = s.flag g := rfl
@[simp] theorem State.updKeep_granted (s : State) (f : BatKeep → BatKeep) (d : Nat) : (s.updKeep f).granted d = s.granted d := rfl
@[simp] theorem State.updKeep_ready (s : State) (f : BatKeep → BatKeep) (i : Nat) : (s.updKeep f).ready i = s.ready i := rfl
@[simp] theorem State.updKeep_safe (s : State) (f : BatKeep → BatKeep) : (s.updKeep f).safe = s.safe := rfl
@[simp] theorem State.updKeep_thr (s : State) (f : BatKeep → BatKeep) (j : Nat) : (s.updKeep f).thr j = s.thr j := rfl
@[simp] theorem State.updKeep_row (s : State) (f : BatKeep → BatKeep) (i : Nat) : (s.updKeep f).row i = s.row i := rfl
@[simp] theorem State.updKeep_loop (s : State) (f : BatKeep → BatKeep) (i : Nat) : (s.updKeep f).loop i = s.loop i := rfl
@[simp] theorem State.updKeep_phase (s : State) (f : BatKeep → BatKeep) (i : Nat) : (s.updKeep f).phase i = s.phase i := rfl
@[simp] theorem State.updKeep_conv (s : State) (f : BatKeep → BatKeep) (i : Nat) : (s.updKeep f).conv i = s.conv i := rfl
@[simp] theorem State.updKeep_govOf (s : State) (f : BatKeep → BatKeep) (i : Nat) : (s.updKeep f).govOf i = s.govOf i := rfl
@[simp] theorem State.updKeep_port (s : State) (f : BatKeep → BatKeep) (i : Nat) : (s.updKeep f).port i = s.port i := rfl

@[simp] theorem State.updPm_pending (s : State) (f : PmSt → PmSt) : (s.updPm f).pending = s.pending := rfl
@[simp] theorem State.updPm_freeCtr (s : State) (f : PmSt → PmSt) : (s.updPm f).freeCtr = s.freeCtr := rfl
@[simp] theorem State.updPm_clk (s : State) (f : PmSt → PmSt) : (s.updPm f).clk = s.clk := rfl
@[simp] theorem State.updPm_out (s : State) (f : PmSt → PmSt) : (s.updPm f).out = s.out := rfl
@[simp] theorem State.updPm_regs (s : State) (f : PmSt → PmSt) : (s.updPm f).regs = s.regs := rfl
@[simp] theorem State.updPm_rdShadow (s : State) (f : PmSt → PmSt) : (s.updPm f).rdShadow = s.rdShadow := rfl
@[simp] theorem State.updPm_wrShadow (s : State) (f : PmSt → PmSt) : (s.updPm f).wrShadow = s.wrShadow := rfl
@[simp] theorem State.updPm_mem (s : State) (f : PmSt → PmSt) : (s.updPm f).mem = s.mem := rfl
@[simp] theorem State.updPm_rsMem (s : State) (f : PmSt → PmSt) : (s.updPm f).rsMem = s.rsMem := rfl
@[simp] theorem State.updPm_nv (s : State) (f : PmSt → PmSt) : (s.updPm f).nv = s.nv := rfl
@[simp] theorem State.updPm_nvCounts (s : State) (f : PmSt → PmSt) : (s.updPm f).nvCounts = s.nvCounts := rfl
@[simp] theorem State.updPm_fill (s : State) (f : PmSt → PmSt) : (s.updPm f).fill = s.fill := rfl
@[simp] theorem State.updPm_rram (s : State) (f : PmSt → PmSt) : (s.updPm f).rram = s.rram := rfl
@[simp] theorem State.updPm_ecc (s : State) (f : PmSt → PmSt) : (s.updPm f).ecc = s.ecc := rfl
@[simp] theorem State.updPm_rsEcc (s : State) (f : PmSt → PmSt) : (s.updPm f).rsEcc = s.rsEcc := rfl
@[simp] theorem State.updPm_rramEcc (s : State) (f : PmSt → PmSt) : (s.updPm f).rramEcc = s.rramEcc := rfl
@[simp] theorem State.updPm_nvEcc (s : State) (f : PmSt → PmSt) : (s.updPm f).nvEcc = s.nvEcc := rfl
@[simp] theorem State.updPm_saEcc (s : State) (f : PmSt → PmSt) : (s.updPm f).saEcc = s.saEcc := rfl
@[simp] theorem State.updPm_threads (s : State) (f : PmSt → PmSt) : (s.updPm f).threads = s.threads := rfl
@[simp] theorem State.updPm_helpers (s : State) (f : PmSt → PmSt) : (s.updPm f).helpers = s.helpers := rfl
@[simp] theorem State.updPm_tap (s : State) (f : PmSt → PmSt) : (s.updPm f).tap = s.tap := rfl
@[simp] theorem State.updPm_slow (s : State) (f : PmSt → PmSt) : (s.updPm f).slow = s.slow := rfl
@[simp] theorem State.updPm_admOff (s : State) (f : PmSt → PmSt) : (s.updPm f).admOff = s.admOff := rfl
@[simp] theorem State.updPm_fuses (s : State) (f : PmSt → PmSt) : (s.updPm f).fuses = s.fuses := rfl
@[simp] theorem State.updPm_boot (s : State) (f : PmSt → PmSt) : (s.updPm f).boot = s.boot := rfl
@[simp] theorem State.updPm_loops (s : State) (f : PmSt → PmSt) : (s.updPm f).loops = s.loops := rfl
@[simp] theorem State.updPm_phases (s : State) (f : PmSt → PmSt) : (s.updPm f).phases = s.phases := rfl
@[simp] theorem State.updPm_convs (s : State) (f : PmSt → PmSt) : (s.updPm f).convs = s.convs := rfl
@[simp] theorem State.updPm_cnv (s : State) (f : PmSt → PmSt) : (s.updPm f).cnv = s.cnv := rfl
@[simp] theorem State.updPm_gov (s : State) (f : PmSt → PmSt) : (s.updPm f).gov = s.gov := rfl
@[simp] theorem State.updPm_fanForced (s : State) (f : PmSt → PmSt) : (s.updPm f).fanForced = s.fanForced := rfl
@[simp] theorem State.updPm_bat (s : State) (f : PmSt → PmSt) : (s.updPm f).bat = s.bat := rfl
@[simp] theorem State.updPm_batKeep (s : State) (f : PmSt → PmSt) : (s.updPm f).batKeep = s.batKeep := rfl
@[simp] theorem State.updPm_ctl (s : State) (f : PmSt → PmSt) : (s.updPm f).ctl = s.ctl := rfl
@[simp] theorem State.updPm_rows (s : State) (f : PmSt → PmSt) : (s.updPm f).rows = s.rows := rfl
@[simp] theorem State.updPm_perst (s : State) (f : PmSt → PmSt) : (s.updPm f).perst = s.perst := rfl
@[simp] theorem State.updPm_esp (s : State) (f : PmSt → PmSt) : (s.updPm f).esp = s.esp := rfl
@[simp] theorem State.updPm_ports (s : State) (f : PmSt → PmSt) : (s.updPm f).ports = s.ports := rfl
@[simp] theorem State.updPm_saMaster (s : State) (f : PmSt → PmSt) : (s.updPm f).saMaster = s.saMaster := rfl
@[simp] theorem State.updPm_saCopies (s : State) (f : PmSt → PmSt) : (s.updPm f).saCopies = s.saCopies := rfl
@[simp] theorem State.updPm_msecBusy (s : State) (f : PmSt → PmSt) : (s.updPm f).msecBusy = s.msecBusy := rfl
@[simp] theorem State.updPm_dtb (s : State) (f : PmSt → PmSt) : (s.updPm f).dtb = s.dtb := rfl
@[simp] theorem State.updPm_ring (s : State) (f : PmSt → PmSt) : (s.updPm f).ring = s.ring := rfl
@[simp] theorem State.updPm_usb (s : State) (f : PmSt → PmSt) : (s.updPm f).usb = s.usb := rfl
@[simp] theorem State.updPm_jobs (s : State) (f : PmSt → PmSt) : (s.updPm f).jobs = s.jobs := rfl
@[simp] theorem State.updPm_fst (s : State) (f : PmSt → PmSt) : (s.updPm f).fst = s.fst := rfl
@[simp] theorem State.updPm_pins (s : State) (f : PmSt → PmSt) : (s.updPm f).pins = s.pins := rfl
@[simp] theorem State.updPm_graft (s : State) (f : PmSt → PmSt) : (s.updPm f).graft = s.graft := rfl
theorem State.updPm_pm (s : State) (f : PmSt → PmSt) : (s.updPm f).pm = f s.pm := rfl
@[simp] theorem State.updPm_reg (s : State) (f : PmSt → PmSt) (q : Nat) : (s.updPm f).reg q = s.reg q := rfl
@[simp] theorem State.updPm_fld (s : State) (f : PmSt → PmSt) (g : Fld) : (s.updPm f).fld g = s.fld g := rfl
@[simp] theorem State.updPm_flag (s : State) (f : PmSt → PmSt) (g : Fld) : (s.updPm f).flag g = s.flag g := rfl
@[simp] theorem State.updPm_granted (s : State) (f : PmSt → PmSt) (d : Nat) : (s.updPm f).granted d = s.granted d := rfl
@[simp] theorem State.updPm_ready (s : State) (f : PmSt → PmSt) (i : Nat) : (s.updPm f).ready i = s.ready i := rfl
@[simp] theorem State.updPm_safe (s : State) (f : PmSt → PmSt) : (s.updPm f).safe = s.safe := rfl
@[simp] theorem State.updPm_thr (s : State) (f : PmSt → PmSt) (j : Nat) : (s.updPm f).thr j = s.thr j := rfl
@[simp] theorem State.updPm_row (s : State) (f : PmSt → PmSt) (i : Nat) : (s.updPm f).row i = s.row i := rfl
@[simp] theorem State.updPm_loop (s : State) (f : PmSt → PmSt) (i : Nat) : (s.updPm f).loop i = s.loop i := rfl
@[simp] theorem State.updPm_phase (s : State) (f : PmSt → PmSt) (i : Nat) : (s.updPm f).phase i = s.phase i := rfl
@[simp] theorem State.updPm_conv (s : State) (f : PmSt → PmSt) (i : Nat) : (s.updPm f).conv i = s.conv i := rfl
@[simp] theorem State.updPm_govOf (s : State) (f : PmSt → PmSt) (i : Nat) : (s.updPm f).govOf i = s.govOf i := rfl
@[simp] theorem State.updPm_port (s : State) (f : PmSt → PmSt) (i : Nat) : (s.updPm f).port i = s.port i := rfl

@[simp] theorem State.setCtl_pending (s : State) (n : Nat) (c : Option CtlSt) : (s.setCtl n c).pending = s.pending := rfl
@[simp] theorem State.setCtl_freeCtr (s : State) (n : Nat) (c : Option CtlSt) : (s.setCtl n c).freeCtr = s.freeCtr := rfl
@[simp] theorem State.setCtl_clk (s : State) (n : Nat) (c : Option CtlSt) : (s.setCtl n c).clk = s.clk := rfl
@[simp] theorem State.setCtl_out (s : State) (n : Nat) (c : Option CtlSt) : (s.setCtl n c).out = s.out := rfl
@[simp] theorem State.setCtl_regs (s : State) (n : Nat) (c : Option CtlSt) : (s.setCtl n c).regs = s.regs := rfl
@[simp] theorem State.setCtl_rdShadow (s : State) (n : Nat) (c : Option CtlSt) : (s.setCtl n c).rdShadow = s.rdShadow := rfl
@[simp] theorem State.setCtl_wrShadow (s : State) (n : Nat) (c : Option CtlSt) : (s.setCtl n c).wrShadow = s.wrShadow := rfl
@[simp] theorem State.setCtl_mem (s : State) (n : Nat) (c : Option CtlSt) : (s.setCtl n c).mem = s.mem := rfl
@[simp] theorem State.setCtl_rsMem (s : State) (n : Nat) (c : Option CtlSt) : (s.setCtl n c).rsMem = s.rsMem := rfl
@[simp] theorem State.setCtl_nv (s : State) (n : Nat) (c : Option CtlSt) : (s.setCtl n c).nv = s.nv := rfl
@[simp] theorem State.setCtl_nvCounts (s : State) (n : Nat) (c : Option CtlSt) : (s.setCtl n c).nvCounts = s.nvCounts := rfl
@[simp] theorem State.setCtl_fill (s : State) (n : Nat) (c : Option CtlSt) : (s.setCtl n c).fill = s.fill := rfl
@[simp] theorem State.setCtl_rram (s : State) (n : Nat) (c : Option CtlSt) : (s.setCtl n c).rram = s.rram := rfl
@[simp] theorem State.setCtl_ecc (s : State) (n : Nat) (c : Option CtlSt) : (s.setCtl n c).ecc = s.ecc := rfl
@[simp] theorem State.setCtl_rsEcc (s : State) (n : Nat) (c : Option CtlSt) : (s.setCtl n c).rsEcc = s.rsEcc := rfl
@[simp] theorem State.setCtl_rramEcc (s : State) (n : Nat) (c : Option CtlSt) : (s.setCtl n c).rramEcc = s.rramEcc := rfl
@[simp] theorem State.setCtl_nvEcc (s : State) (n : Nat) (c : Option CtlSt) : (s.setCtl n c).nvEcc = s.nvEcc := rfl
@[simp] theorem State.setCtl_saEcc (s : State) (n : Nat) (c : Option CtlSt) : (s.setCtl n c).saEcc = s.saEcc := rfl
@[simp] theorem State.setCtl_threads (s : State) (n : Nat) (c : Option CtlSt) : (s.setCtl n c).threads = s.threads := rfl
@[simp] theorem State.setCtl_helpers (s : State) (n : Nat) (c : Option CtlSt) : (s.setCtl n c).helpers = s.helpers := rfl
@[simp] theorem State.setCtl_tap (s : State) (n : Nat) (c : Option CtlSt) : (s.setCtl n c).tap = s.tap := rfl
@[simp] theorem State.setCtl_slow (s : State) (n : Nat) (c : Option CtlSt) : (s.setCtl n c).slow = s.slow := rfl
@[simp] theorem State.setCtl_admOff (s : State) (n : Nat) (c : Option CtlSt) : (s.setCtl n c).admOff = s.admOff := rfl
@[simp] theorem State.setCtl_fuses (s : State) (n : Nat) (c : Option CtlSt) : (s.setCtl n c).fuses = s.fuses := rfl
@[simp] theorem State.setCtl_boot (s : State) (n : Nat) (c : Option CtlSt) : (s.setCtl n c).boot = s.boot := rfl
@[simp] theorem State.setCtl_loops (s : State) (n : Nat) (c : Option CtlSt) : (s.setCtl n c).loops = s.loops := rfl
@[simp] theorem State.setCtl_phases (s : State) (n : Nat) (c : Option CtlSt) : (s.setCtl n c).phases = s.phases := rfl
@[simp] theorem State.setCtl_convs (s : State) (n : Nat) (c : Option CtlSt) : (s.setCtl n c).convs = s.convs := rfl
@[simp] theorem State.setCtl_cnv (s : State) (n : Nat) (c : Option CtlSt) : (s.setCtl n c).cnv = s.cnv := rfl
@[simp] theorem State.setCtl_gov (s : State) (n : Nat) (c : Option CtlSt) : (s.setCtl n c).gov = s.gov := rfl
@[simp] theorem State.setCtl_fanForced (s : State) (n : Nat) (c : Option CtlSt) : (s.setCtl n c).fanForced = s.fanForced := rfl
@[simp] theorem State.setCtl_bat (s : State) (n : Nat) (c : Option CtlSt) : (s.setCtl n c).bat = s.bat := rfl
@[simp] theorem State.setCtl_batKeep (s : State) (n : Nat) (c : Option CtlSt) : (s.setCtl n c).batKeep = s.batKeep := rfl
@[simp] theorem State.setCtl_pm (s : State) (n : Nat) (c : Option CtlSt) : (s.setCtl n c).pm = s.pm := rfl
@[simp] theorem State.setCtl_rows (s : State) (n : Nat) (c : Option CtlSt) : (s.setCtl n c).rows = s.rows := rfl
@[simp] theorem State.setCtl_perst (s : State) (n : Nat) (c : Option CtlSt) : (s.setCtl n c).perst = s.perst := rfl
@[simp] theorem State.setCtl_esp (s : State) (n : Nat) (c : Option CtlSt) : (s.setCtl n c).esp = s.esp := rfl
@[simp] theorem State.setCtl_ports (s : State) (n : Nat) (c : Option CtlSt) : (s.setCtl n c).ports = s.ports := rfl
@[simp] theorem State.setCtl_saMaster (s : State) (n : Nat) (c : Option CtlSt) : (s.setCtl n c).saMaster = s.saMaster := rfl
@[simp] theorem State.setCtl_saCopies (s : State) (n : Nat) (c : Option CtlSt) : (s.setCtl n c).saCopies = s.saCopies := rfl
@[simp] theorem State.setCtl_msecBusy (s : State) (n : Nat) (c : Option CtlSt) : (s.setCtl n c).msecBusy = s.msecBusy := rfl
@[simp] theorem State.setCtl_dtb (s : State) (n : Nat) (c : Option CtlSt) : (s.setCtl n c).dtb = s.dtb := rfl
@[simp] theorem State.setCtl_ring (s : State) (n : Nat) (c : Option CtlSt) : (s.setCtl n c).ring = s.ring := rfl
@[simp] theorem State.setCtl_usb (s : State) (n : Nat) (c : Option CtlSt) : (s.setCtl n c).usb = s.usb := rfl
@[simp] theorem State.setCtl_jobs (s : State) (n : Nat) (c : Option CtlSt) : (s.setCtl n c).jobs = s.jobs := rfl
@[simp] theorem State.setCtl_fst (s : State) (n : Nat) (c : Option CtlSt) : (s.setCtl n c).fst = s.fst := rfl
@[simp] theorem State.setCtl_pins (s : State) (n : Nat) (c : Option CtlSt) : (s.setCtl n c).pins = s.pins := rfl
@[simp] theorem State.setCtl_graft (s : State) (n : Nat) (c : Option CtlSt) : (s.setCtl n c).graft = s.graft := rfl
theorem State.setCtl_ctl (s : State) (n : Nat) (c : Option CtlSt) : (s.setCtl n c).ctl = tabSet none n c s.ctl := rfl
@[simp] theorem State.setCtl_reg (s : State) (n : Nat) (c : Option CtlSt) (q : Nat) : (s.setCtl n c).reg q = s.reg q := rfl
@[simp] theorem State.setCtl_fld (s : State) (n : Nat) (c : Option CtlSt) (g : Fld) : (s.setCtl n c).fld g = s.fld g := rfl
@[simp] theorem State.setCtl_flag (s : State) (n : Nat) (c : Option CtlSt) (g : Fld) : (s.setCtl n c).flag g = s.flag g := rfl
@[simp] theorem State.setCtl_granted (s : State) (n : Nat) (c : Option CtlSt) (d : Nat) : (s.setCtl n c).granted d = s.granted d := rfl
@[simp] theorem State.setCtl_ready (s : State) (n : Nat) (c : Option CtlSt) (i : Nat) : (s.setCtl n c).ready i = s.ready i := rfl
@[simp] theorem State.setCtl_safe (s : State) (n : Nat) (c : Option CtlSt) : (s.setCtl n c).safe = s.safe := rfl
@[simp] theorem State.setCtl_thr (s : State) (n : Nat) (c : Option CtlSt) (j : Nat) : (s.setCtl n c).thr j = s.thr j := rfl
@[simp] theorem State.setCtl_row (s : State) (n : Nat) (c : Option CtlSt) (i : Nat) : (s.setCtl n c).row i = s.row i := rfl
@[simp] theorem State.setCtl_loop (s : State) (n : Nat) (c : Option CtlSt) (i : Nat) : (s.setCtl n c).loop i = s.loop i := rfl
@[simp] theorem State.setCtl_phase (s : State) (n : Nat) (c : Option CtlSt) (i : Nat) : (s.setCtl n c).phase i = s.phase i := rfl
@[simp] theorem State.setCtl_conv (s : State) (n : Nat) (c : Option CtlSt) (i : Nat) : (s.setCtl n c).conv i = s.conv i := rfl
@[simp] theorem State.setCtl_govOf (s : State) (n : Nat) (c : Option CtlSt) (i : Nat) : (s.setCtl n c).govOf i = s.govOf i := rfl
@[simp] theorem State.setCtl_port (s : State) (n : Nat) (c : Option CtlSt) (i : Nat) : (s.setCtl n c).port i = s.port i := rfl

@[simp] theorem State.updEsp_pending (s : State) (f : EspSt → EspSt) : (s.updEsp f).pending = s.pending := rfl
@[simp] theorem State.updEsp_freeCtr (s : State) (f : EspSt → EspSt) : (s.updEsp f).freeCtr = s.freeCtr := rfl
@[simp] theorem State.updEsp_clk (s : State) (f : EspSt → EspSt) : (s.updEsp f).clk = s.clk := rfl
@[simp] theorem State.updEsp_out (s : State) (f : EspSt → EspSt) : (s.updEsp f).out = s.out := rfl
@[simp] theorem State.updEsp_regs (s : State) (f : EspSt → EspSt) : (s.updEsp f).regs = s.regs := rfl
@[simp] theorem State.updEsp_rdShadow (s : State) (f : EspSt → EspSt) : (s.updEsp f).rdShadow = s.rdShadow := rfl
@[simp] theorem State.updEsp_wrShadow (s : State) (f : EspSt → EspSt) : (s.updEsp f).wrShadow = s.wrShadow := rfl
@[simp] theorem State.updEsp_mem (s : State) (f : EspSt → EspSt) : (s.updEsp f).mem = s.mem := rfl
@[simp] theorem State.updEsp_rsMem (s : State) (f : EspSt → EspSt) : (s.updEsp f).rsMem = s.rsMem := rfl
@[simp] theorem State.updEsp_nv (s : State) (f : EspSt → EspSt) : (s.updEsp f).nv = s.nv := rfl
@[simp] theorem State.updEsp_nvCounts (s : State) (f : EspSt → EspSt) : (s.updEsp f).nvCounts = s.nvCounts := rfl
@[simp] theorem State.updEsp_fill (s : State) (f : EspSt → EspSt) : (s.updEsp f).fill = s.fill := rfl
@[simp] theorem State.updEsp_rram (s : State) (f : EspSt → EspSt) : (s.updEsp f).rram = s.rram := rfl
@[simp] theorem State.updEsp_ecc (s : State) (f : EspSt → EspSt) : (s.updEsp f).ecc = s.ecc := rfl
@[simp] theorem State.updEsp_rsEcc (s : State) (f : EspSt → EspSt) : (s.updEsp f).rsEcc = s.rsEcc := rfl
@[simp] theorem State.updEsp_rramEcc (s : State) (f : EspSt → EspSt) : (s.updEsp f).rramEcc = s.rramEcc := rfl
@[simp] theorem State.updEsp_nvEcc (s : State) (f : EspSt → EspSt) : (s.updEsp f).nvEcc = s.nvEcc := rfl
@[simp] theorem State.updEsp_saEcc (s : State) (f : EspSt → EspSt) : (s.updEsp f).saEcc = s.saEcc := rfl
@[simp] theorem State.updEsp_threads (s : State) (f : EspSt → EspSt) : (s.updEsp f).threads = s.threads := rfl
@[simp] theorem State.updEsp_helpers (s : State) (f : EspSt → EspSt) : (s.updEsp f).helpers = s.helpers := rfl
@[simp] theorem State.updEsp_tap (s : State) (f : EspSt → EspSt) : (s.updEsp f).tap = s.tap := rfl
@[simp] theorem State.updEsp_slow (s : State) (f : EspSt → EspSt) : (s.updEsp f).slow = s.slow := rfl
@[simp] theorem State.updEsp_admOff (s : State) (f : EspSt → EspSt) : (s.updEsp f).admOff = s.admOff := rfl
@[simp] theorem State.updEsp_fuses (s : State) (f : EspSt → EspSt) : (s.updEsp f).fuses = s.fuses := rfl
@[simp] theorem State.updEsp_boot (s : State) (f : EspSt → EspSt) : (s.updEsp f).boot = s.boot := rfl
@[simp] theorem State.updEsp_loops (s : State) (f : EspSt → EspSt) : (s.updEsp f).loops = s.loops := rfl
@[simp] theorem State.updEsp_phases (s : State) (f : EspSt → EspSt) : (s.updEsp f).phases = s.phases := rfl
@[simp] theorem State.updEsp_convs (s : State) (f : EspSt → EspSt) : (s.updEsp f).convs = s.convs := rfl
@[simp] theorem State.updEsp_cnv (s : State) (f : EspSt → EspSt) : (s.updEsp f).cnv = s.cnv := rfl
@[simp] theorem State.updEsp_gov (s : State) (f : EspSt → EspSt) : (s.updEsp f).gov = s.gov := rfl
@[simp] theorem State.updEsp_fanForced (s : State) (f : EspSt → EspSt) : (s.updEsp f).fanForced = s.fanForced := rfl
@[simp] theorem State.updEsp_bat (s : State) (f : EspSt → EspSt) : (s.updEsp f).bat = s.bat := rfl
@[simp] theorem State.updEsp_batKeep (s : State) (f : EspSt → EspSt) : (s.updEsp f).batKeep = s.batKeep := rfl
@[simp] theorem State.updEsp_pm (s : State) (f : EspSt → EspSt) : (s.updEsp f).pm = s.pm := rfl
@[simp] theorem State.updEsp_ctl (s : State) (f : EspSt → EspSt) : (s.updEsp f).ctl = s.ctl := rfl
@[simp] theorem State.updEsp_rows (s : State) (f : EspSt → EspSt) : (s.updEsp f).rows = s.rows := rfl
@[simp] theorem State.updEsp_perst (s : State) (f : EspSt → EspSt) : (s.updEsp f).perst = s.perst := rfl
@[simp] theorem State.updEsp_ports (s : State) (f : EspSt → EspSt) : (s.updEsp f).ports = s.ports := rfl
@[simp] theorem State.updEsp_saMaster (s : State) (f : EspSt → EspSt) : (s.updEsp f).saMaster = s.saMaster := rfl
@[simp] theorem State.updEsp_saCopies (s : State) (f : EspSt → EspSt) : (s.updEsp f).saCopies = s.saCopies := rfl
@[simp] theorem State.updEsp_msecBusy (s : State) (f : EspSt → EspSt) : (s.updEsp f).msecBusy = s.msecBusy := rfl
@[simp] theorem State.updEsp_dtb (s : State) (f : EspSt → EspSt) : (s.updEsp f).dtb = s.dtb := rfl
@[simp] theorem State.updEsp_ring (s : State) (f : EspSt → EspSt) : (s.updEsp f).ring = s.ring := rfl
@[simp] theorem State.updEsp_usb (s : State) (f : EspSt → EspSt) : (s.updEsp f).usb = s.usb := rfl
@[simp] theorem State.updEsp_jobs (s : State) (f : EspSt → EspSt) : (s.updEsp f).jobs = s.jobs := rfl
@[simp] theorem State.updEsp_fst (s : State) (f : EspSt → EspSt) : (s.updEsp f).fst = s.fst := rfl
@[simp] theorem State.updEsp_pins (s : State) (f : EspSt → EspSt) : (s.updEsp f).pins = s.pins := rfl
@[simp] theorem State.updEsp_graft (s : State) (f : EspSt → EspSt) : (s.updEsp f).graft = s.graft := rfl
theorem State.updEsp_esp (s : State) (f : EspSt → EspSt) : (s.updEsp f).esp = f s.esp := rfl
@[simp] theorem State.updEsp_reg (s : State) (f : EspSt → EspSt) (q : Nat) : (s.updEsp f).reg q = s.reg q := rfl
@[simp] theorem State.updEsp_fld (s : State) (f : EspSt → EspSt) (g : Fld) : (s.updEsp f).fld g = s.fld g := rfl
@[simp] theorem State.updEsp_flag (s : State) (f : EspSt → EspSt) (g : Fld) : (s.updEsp f).flag g = s.flag g := rfl
@[simp] theorem State.updEsp_granted (s : State) (f : EspSt → EspSt) (d : Nat) : (s.updEsp f).granted d = s.granted d := rfl
@[simp] theorem State.updEsp_ready (s : State) (f : EspSt → EspSt) (i : Nat) : (s.updEsp f).ready i = s.ready i := rfl
@[simp] theorem State.updEsp_safe (s : State) (f : EspSt → EspSt) : (s.updEsp f).safe = s.safe := rfl
@[simp] theorem State.updEsp_thr (s : State) (f : EspSt → EspSt) (j : Nat) : (s.updEsp f).thr j = s.thr j := rfl
@[simp] theorem State.updEsp_row (s : State) (f : EspSt → EspSt) (i : Nat) : (s.updEsp f).row i = s.row i := rfl
@[simp] theorem State.updEsp_loop (s : State) (f : EspSt → EspSt) (i : Nat) : (s.updEsp f).loop i = s.loop i := rfl
@[simp] theorem State.updEsp_phase (s : State) (f : EspSt → EspSt) (i : Nat) : (s.updEsp f).phase i = s.phase i := rfl
@[simp] theorem State.updEsp_conv (s : State) (f : EspSt → EspSt) (i : Nat) : (s.updEsp f).conv i = s.conv i := rfl
@[simp] theorem State.updEsp_govOf (s : State) (f : EspSt → EspSt) (i : Nat) : (s.updEsp f).govOf i = s.govOf i := rfl
@[simp] theorem State.updEsp_port (s : State) (f : EspSt → EspSt) (i : Nat) : (s.updEsp f).port i = s.port i := rfl

@[simp] theorem State.updPort_pending (s : State) (p : Nat) (f : PortSt → PortSt) : (s.updPort p f).pending = s.pending := rfl
@[simp] theorem State.updPort_freeCtr (s : State) (p : Nat) (f : PortSt → PortSt) : (s.updPort p f).freeCtr = s.freeCtr := rfl
@[simp] theorem State.updPort_clk (s : State) (p : Nat) (f : PortSt → PortSt) : (s.updPort p f).clk = s.clk := rfl
@[simp] theorem State.updPort_out (s : State) (p : Nat) (f : PortSt → PortSt) : (s.updPort p f).out = s.out := rfl
@[simp] theorem State.updPort_regs (s : State) (p : Nat) (f : PortSt → PortSt) : (s.updPort p f).regs = s.regs := rfl
@[simp] theorem State.updPort_rdShadow (s : State) (p : Nat) (f : PortSt → PortSt) : (s.updPort p f).rdShadow = s.rdShadow := rfl
@[simp] theorem State.updPort_wrShadow (s : State) (p : Nat) (f : PortSt → PortSt) : (s.updPort p f).wrShadow = s.wrShadow := rfl
@[simp] theorem State.updPort_mem (s : State) (p : Nat) (f : PortSt → PortSt) : (s.updPort p f).mem = s.mem := rfl
@[simp] theorem State.updPort_rsMem (s : State) (p : Nat) (f : PortSt → PortSt) : (s.updPort p f).rsMem = s.rsMem := rfl
@[simp] theorem State.updPort_nv (s : State) (p : Nat) (f : PortSt → PortSt) : (s.updPort p f).nv = s.nv := rfl
@[simp] theorem State.updPort_nvCounts (s : State) (p : Nat) (f : PortSt → PortSt) : (s.updPort p f).nvCounts = s.nvCounts := rfl
@[simp] theorem State.updPort_fill (s : State) (p : Nat) (f : PortSt → PortSt) : (s.updPort p f).fill = s.fill := rfl
@[simp] theorem State.updPort_rram (s : State) (p : Nat) (f : PortSt → PortSt) : (s.updPort p f).rram = s.rram := rfl
@[simp] theorem State.updPort_ecc (s : State) (p : Nat) (f : PortSt → PortSt) : (s.updPort p f).ecc = s.ecc := rfl
@[simp] theorem State.updPort_rsEcc (s : State) (p : Nat) (f : PortSt → PortSt) : (s.updPort p f).rsEcc = s.rsEcc := rfl
@[simp] theorem State.updPort_rramEcc (s : State) (p : Nat) (f : PortSt → PortSt) : (s.updPort p f).rramEcc = s.rramEcc := rfl
@[simp] theorem State.updPort_nvEcc (s : State) (p : Nat) (f : PortSt → PortSt) : (s.updPort p f).nvEcc = s.nvEcc := rfl
@[simp] theorem State.updPort_saEcc (s : State) (p : Nat) (f : PortSt → PortSt) : (s.updPort p f).saEcc = s.saEcc := rfl
@[simp] theorem State.updPort_threads (s : State) (p : Nat) (f : PortSt → PortSt) : (s.updPort p f).threads = s.threads := rfl
@[simp] theorem State.updPort_helpers (s : State) (p : Nat) (f : PortSt → PortSt) : (s.updPort p f).helpers = s.helpers := rfl
@[simp] theorem State.updPort_tap (s : State) (p : Nat) (f : PortSt → PortSt) : (s.updPort p f).tap = s.tap := rfl
@[simp] theorem State.updPort_slow (s : State) (p : Nat) (f : PortSt → PortSt) : (s.updPort p f).slow = s.slow := rfl
@[simp] theorem State.updPort_admOff (s : State) (p : Nat) (f : PortSt → PortSt) : (s.updPort p f).admOff = s.admOff := rfl
@[simp] theorem State.updPort_fuses (s : State) (p : Nat) (f : PortSt → PortSt) : (s.updPort p f).fuses = s.fuses := rfl
@[simp] theorem State.updPort_boot (s : State) (p : Nat) (f : PortSt → PortSt) : (s.updPort p f).boot = s.boot := rfl
@[simp] theorem State.updPort_loops (s : State) (p : Nat) (f : PortSt → PortSt) : (s.updPort p f).loops = s.loops := rfl
@[simp] theorem State.updPort_phases (s : State) (p : Nat) (f : PortSt → PortSt) : (s.updPort p f).phases = s.phases := rfl
@[simp] theorem State.updPort_convs (s : State) (p : Nat) (f : PortSt → PortSt) : (s.updPort p f).convs = s.convs := rfl
@[simp] theorem State.updPort_cnv (s : State) (p : Nat) (f : PortSt → PortSt) : (s.updPort p f).cnv = s.cnv := rfl
@[simp] theorem State.updPort_gov (s : State) (p : Nat) (f : PortSt → PortSt) : (s.updPort p f).gov = s.gov := rfl
@[simp] theorem State.updPort_fanForced (s : State) (p : Nat) (f : PortSt → PortSt) : (s.updPort p f).fanForced = s.fanForced := rfl
@[simp] theorem State.updPort_bat (s : State) (p : Nat) (f : PortSt → PortSt) : (s.updPort p f).bat = s.bat := rfl
@[simp] theorem State.updPort_batKeep (s : State) (p : Nat) (f : PortSt → PortSt) : (s.updPort p f).batKeep = s.batKeep := rfl
@[simp] theorem State.updPort_pm (s : State) (p : Nat) (f : PortSt → PortSt) : (s.updPort p f).pm = s.pm := rfl
@[simp] theorem State.updPort_ctl (s : State) (p : Nat) (f : PortSt → PortSt) : (s.updPort p f).ctl = s.ctl := rfl
@[simp] theorem State.updPort_rows (s : State) (p : Nat) (f : PortSt → PortSt) : (s.updPort p f).rows = s.rows := rfl
@[simp] theorem State.updPort_perst (s : State) (p : Nat) (f : PortSt → PortSt) : (s.updPort p f).perst = s.perst := rfl
@[simp] theorem State.updPort_esp (s : State) (p : Nat) (f : PortSt → PortSt) : (s.updPort p f).esp = s.esp := rfl
@[simp] theorem State.updPort_saMaster (s : State) (p : Nat) (f : PortSt → PortSt) : (s.updPort p f).saMaster = s.saMaster := rfl
@[simp] theorem State.updPort_saCopies (s : State) (p : Nat) (f : PortSt → PortSt) : (s.updPort p f).saCopies = s.saCopies := rfl
@[simp] theorem State.updPort_msecBusy (s : State) (p : Nat) (f : PortSt → PortSt) : (s.updPort p f).msecBusy = s.msecBusy := rfl
@[simp] theorem State.updPort_dtb (s : State) (p : Nat) (f : PortSt → PortSt) : (s.updPort p f).dtb = s.dtb := rfl
@[simp] theorem State.updPort_ring (s : State) (p : Nat) (f : PortSt → PortSt) : (s.updPort p f).ring = s.ring := rfl
@[simp] theorem State.updPort_usb (s : State) (p : Nat) (f : PortSt → PortSt) : (s.updPort p f).usb = s.usb := rfl
@[simp] theorem State.updPort_jobs (s : State) (p : Nat) (f : PortSt → PortSt) : (s.updPort p f).jobs = s.jobs := rfl
@[simp] theorem State.updPort_fst (s : State) (p : Nat) (f : PortSt → PortSt) : (s.updPort p f).fst = s.fst := rfl
@[simp] theorem State.updPort_pins (s : State) (p : Nat) (f : PortSt → PortSt) : (s.updPort p f).pins = s.pins := rfl
@[simp] theorem State.updPort_graft (s : State) (p : Nat) (f : PortSt → PortSt) : (s.updPort p f).graft = s.graft := rfl
theorem State.updPort_ports (s : State) (p : Nat) (f : PortSt → PortSt) : (s.updPort p f).ports = tabSet {} p (f (s.port p)) s.ports := rfl
@[simp] theorem State.updPort_reg (s : State) (p : Nat) (f : PortSt → PortSt) (q : Nat) : (s.updPort p f).reg q = s.reg q := rfl
@[simp] theorem State.updPort_fld (s : State) (p : Nat) (f : PortSt → PortSt) (g : Fld) : (s.updPort p f).fld g = s.fld g := rfl
@[simp] theorem State.updPort_flag (s : State) (p : Nat) (f : PortSt → PortSt) (g : Fld) : (s.updPort p f).flag g = s.flag g := rfl
@[simp] theorem State.updPort_granted (s : State) (p : Nat) (f : PortSt → PortSt) (d : Nat) : (s.updPort p f).granted d = s.granted d := rfl
@[simp] theorem State.updPort_ready (s : State) (p : Nat) (f : PortSt → PortSt) (i : Nat) : (s.updPort p f).ready i = s.ready i := rfl
@[simp] theorem State.updPort_safe (s : State) (p : Nat) (f : PortSt → PortSt) : (s.updPort p f).safe = s.safe := rfl
@[simp] theorem State.updPort_thr (s : State) (p : Nat) (f : PortSt → PortSt) (j : Nat) : (s.updPort p f).thr j = s.thr j := rfl
@[simp] theorem State.updPort_row (s : State) (p : Nat) (f : PortSt → PortSt) (i : Nat) : (s.updPort p f).row i = s.row i := rfl
@[simp] theorem State.updPort_loop (s : State) (p : Nat) (f : PortSt → PortSt) (i : Nat) : (s.updPort p f).loop i = s.loop i := rfl
@[simp] theorem State.updPort_phase (s : State) (p : Nat) (f : PortSt → PortSt) (i : Nat) : (s.updPort p f).phase i = s.phase i := rfl
@[simp] theorem State.updPort_conv (s : State) (p : Nat) (f : PortSt → PortSt) (i : Nat) : (s.updPort p f).conv i = s.conv i := rfl
@[simp] theorem State.updPort_govOf (s : State) (p : Nat) (f : PortSt → PortSt) (i : Nat) : (s.updPort p f).govOf i = s.govOf i := rfl

@[simp] theorem State.updRing_pending (s : State) (f : RingSt → RingSt) : (s.updRing f).pending = s.pending := rfl
@[simp] theorem State.updRing_freeCtr (s : State) (f : RingSt → RingSt) : (s.updRing f).freeCtr = s.freeCtr := rfl
@[simp] theorem State.updRing_clk (s : State) (f : RingSt → RingSt) : (s.updRing f).clk = s.clk := rfl
@[simp] theorem State.updRing_out (s : State) (f : RingSt → RingSt) : (s.updRing f).out = s.out := rfl
@[simp] theorem State.updRing_regs (s : State) (f : RingSt → RingSt) : (s.updRing f).regs = s.regs := rfl
@[simp] theorem State.updRing_rdShadow (s : State) (f : RingSt → RingSt) : (s.updRing f).rdShadow = s.rdShadow := rfl
@[simp] theorem State.updRing_wrShadow (s : State) (f : RingSt → RingSt) : (s.updRing f).wrShadow = s.wrShadow := rfl
@[simp] theorem State.updRing_mem (s : State) (f : RingSt → RingSt) : (s.updRing f).mem = s.mem := rfl
@[simp] theorem State.updRing_rsMem (s : State) (f : RingSt → RingSt) : (s.updRing f).rsMem = s.rsMem := rfl
@[simp] theorem State.updRing_nv (s : State) (f : RingSt → RingSt) : (s.updRing f).nv = s.nv := rfl
@[simp] theorem State.updRing_nvCounts (s : State) (f : RingSt → RingSt) : (s.updRing f).nvCounts = s.nvCounts := rfl
@[simp] theorem State.updRing_fill (s : State) (f : RingSt → RingSt) : (s.updRing f).fill = s.fill := rfl
@[simp] theorem State.updRing_rram (s : State) (f : RingSt → RingSt) : (s.updRing f).rram = s.rram := rfl
@[simp] theorem State.updRing_ecc (s : State) (f : RingSt → RingSt) : (s.updRing f).ecc = s.ecc := rfl
@[simp] theorem State.updRing_rsEcc (s : State) (f : RingSt → RingSt) : (s.updRing f).rsEcc = s.rsEcc := rfl
@[simp] theorem State.updRing_rramEcc (s : State) (f : RingSt → RingSt) : (s.updRing f).rramEcc = s.rramEcc := rfl
@[simp] theorem State.updRing_nvEcc (s : State) (f : RingSt → RingSt) : (s.updRing f).nvEcc = s.nvEcc := rfl
@[simp] theorem State.updRing_saEcc (s : State) (f : RingSt → RingSt) : (s.updRing f).saEcc = s.saEcc := rfl
@[simp] theorem State.updRing_threads (s : State) (f : RingSt → RingSt) : (s.updRing f).threads = s.threads := rfl
@[simp] theorem State.updRing_helpers (s : State) (f : RingSt → RingSt) : (s.updRing f).helpers = s.helpers := rfl
@[simp] theorem State.updRing_tap (s : State) (f : RingSt → RingSt) : (s.updRing f).tap = s.tap := rfl
@[simp] theorem State.updRing_slow (s : State) (f : RingSt → RingSt) : (s.updRing f).slow = s.slow := rfl
@[simp] theorem State.updRing_admOff (s : State) (f : RingSt → RingSt) : (s.updRing f).admOff = s.admOff := rfl
@[simp] theorem State.updRing_fuses (s : State) (f : RingSt → RingSt) : (s.updRing f).fuses = s.fuses := rfl
@[simp] theorem State.updRing_boot (s : State) (f : RingSt → RingSt) : (s.updRing f).boot = s.boot := rfl
@[simp] theorem State.updRing_loops (s : State) (f : RingSt → RingSt) : (s.updRing f).loops = s.loops := rfl
@[simp] theorem State.updRing_phases (s : State) (f : RingSt → RingSt) : (s.updRing f).phases = s.phases := rfl
@[simp] theorem State.updRing_convs (s : State) (f : RingSt → RingSt) : (s.updRing f).convs = s.convs := rfl
@[simp] theorem State.updRing_cnv (s : State) (f : RingSt → RingSt) : (s.updRing f).cnv = s.cnv := rfl
@[simp] theorem State.updRing_gov (s : State) (f : RingSt → RingSt) : (s.updRing f).gov = s.gov := rfl
@[simp] theorem State.updRing_fanForced (s : State) (f : RingSt → RingSt) : (s.updRing f).fanForced = s.fanForced := rfl
@[simp] theorem State.updRing_bat (s : State) (f : RingSt → RingSt) : (s.updRing f).bat = s.bat := rfl
@[simp] theorem State.updRing_batKeep (s : State) (f : RingSt → RingSt) : (s.updRing f).batKeep = s.batKeep := rfl
@[simp] theorem State.updRing_pm (s : State) (f : RingSt → RingSt) : (s.updRing f).pm = s.pm := rfl
@[simp] theorem State.updRing_ctl (s : State) (f : RingSt → RingSt) : (s.updRing f).ctl = s.ctl := rfl
@[simp] theorem State.updRing_rows (s : State) (f : RingSt → RingSt) : (s.updRing f).rows = s.rows := rfl
@[simp] theorem State.updRing_perst (s : State) (f : RingSt → RingSt) : (s.updRing f).perst = s.perst := rfl
@[simp] theorem State.updRing_esp (s : State) (f : RingSt → RingSt) : (s.updRing f).esp = s.esp := rfl
@[simp] theorem State.updRing_ports (s : State) (f : RingSt → RingSt) : (s.updRing f).ports = s.ports := rfl
@[simp] theorem State.updRing_saMaster (s : State) (f : RingSt → RingSt) : (s.updRing f).saMaster = s.saMaster := rfl
@[simp] theorem State.updRing_saCopies (s : State) (f : RingSt → RingSt) : (s.updRing f).saCopies = s.saCopies := rfl
@[simp] theorem State.updRing_msecBusy (s : State) (f : RingSt → RingSt) : (s.updRing f).msecBusy = s.msecBusy := rfl
@[simp] theorem State.updRing_dtb (s : State) (f : RingSt → RingSt) : (s.updRing f).dtb = s.dtb := rfl
@[simp] theorem State.updRing_usb (s : State) (f : RingSt → RingSt) : (s.updRing f).usb = s.usb := rfl
@[simp] theorem State.updRing_jobs (s : State) (f : RingSt → RingSt) : (s.updRing f).jobs = s.jobs := rfl
@[simp] theorem State.updRing_fst (s : State) (f : RingSt → RingSt) : (s.updRing f).fst = s.fst := rfl
@[simp] theorem State.updRing_pins (s : State) (f : RingSt → RingSt) : (s.updRing f).pins = s.pins := rfl
@[simp] theorem State.updRing_graft (s : State) (f : RingSt → RingSt) : (s.updRing f).graft = s.graft := rfl
theorem State.updRing_ring (s : State) (f : RingSt → RingSt) : (s.updRing f).ring = f s.ring := rfl
@[simp] theorem State.updRing_reg (s : State) (f : RingSt → RingSt) (q : Nat) : (s.updRing f).reg q = s.reg q := rfl
@[simp] theorem State.updRing_fld (s : State) (f : RingSt → RingSt) (g : Fld) : (s.updRing f).fld g = s.fld g := rfl
@[simp] theorem State.updRing_flag (s : State) (f : RingSt → RingSt) (g : Fld) : (s.updRing f).flag g = s.flag g := rfl
@[simp] theorem State.updRing_granted (s : State) (f : RingSt → RingSt) (d : Nat) : (s.updRing f).granted d = s.granted d := rfl
@[simp] theorem State.updRing_ready (s : State) (f : RingSt → RingSt) (i : Nat) : (s.updRing f).ready i = s.ready i := rfl
@[simp] theorem State.updRing_safe (s : State) (f : RingSt → RingSt) : (s.updRing f).safe = s.safe := rfl
@[simp] theorem State.updRing_thr (s : State) (f : RingSt → RingSt) (j : Nat) : (s.updRing f).thr j = s.thr j := rfl
@[simp] theorem State.updRing_row (s : State) (f : RingSt → RingSt) (i : Nat) : (s.updRing f).row i = s.row i := rfl
@[simp] theorem State.updRing_loop (s : State) (f : RingSt → RingSt) (i : Nat) : (s.updRing f).loop i = s.loop i := rfl
@[simp] theorem State.updRing_phase (s : State) (f : RingSt → RingSt) (i : Nat) : (s.updRing f).phase i = s.phase i := rfl
@[simp] theorem State.updRing_conv (s : State) (f : RingSt → RingSt) (i : Nat) : (s.updRing f).conv i = s.conv i := rfl
@[simp] theorem State.updRing_govOf (s : State) (f : RingSt → RingSt) (i : Nat) : (s.updRing f).govOf i = s.govOf i := rfl
@[simp] theorem State.updRing_port (s : State) (f : RingSt → RingSt) (i : Nat) : (s.updRing f).port i = s.port i := rfl

@[simp] theorem State.updUsb_pending (s : State) (f : UsbSt → UsbSt) : (s.updUsb f).pending = s.pending := rfl
@[simp] theorem State.updUsb_freeCtr (s : State) (f : UsbSt → UsbSt) : (s.updUsb f).freeCtr = s.freeCtr := rfl
@[simp] theorem State.updUsb_clk (s : State) (f : UsbSt → UsbSt) : (s.updUsb f).clk = s.clk := rfl
@[simp] theorem State.updUsb_out (s : State) (f : UsbSt → UsbSt) : (s.updUsb f).out = s.out := rfl
@[simp] theorem State.updUsb_regs (s : State) (f : UsbSt → UsbSt) : (s.updUsb f).regs = s.regs := rfl
@[simp] theorem State.updUsb_rdShadow (s : State) (f : UsbSt → UsbSt) : (s.updUsb f).rdShadow = s.rdShadow := rfl
@[simp] theorem State.updUsb_wrShadow (s : State) (f : UsbSt → UsbSt) : (s.updUsb f).wrShadow = s.wrShadow := rfl
@[simp] theorem State.updUsb_mem (s : State) (f : UsbSt → UsbSt) : (s.updUsb f).mem = s.mem := rfl
@[simp] theorem State.updUsb_rsMem (s : State) (f : UsbSt → UsbSt) : (s.updUsb f).rsMem = s.rsMem := rfl
@[simp] theorem State.updUsb_nv (s : State) (f : UsbSt → UsbSt) : (s.updUsb f).nv = s.nv := rfl
@[simp] theorem State.updUsb_nvCounts (s : State) (f : UsbSt → UsbSt) : (s.updUsb f).nvCounts = s.nvCounts := rfl
@[simp] theorem State.updUsb_fill (s : State) (f : UsbSt → UsbSt) : (s.updUsb f).fill = s.fill := rfl
@[simp] theorem State.updUsb_rram (s : State) (f : UsbSt → UsbSt) : (s.updUsb f).rram = s.rram := rfl
@[simp] theorem State.updUsb_ecc (s : State) (f : UsbSt → UsbSt) : (s.updUsb f).ecc = s.ecc := rfl
@[simp] theorem State.updUsb_rsEcc (s : State) (f : UsbSt → UsbSt) : (s.updUsb f).rsEcc = s.rsEcc := rfl
@[simp] theorem State.updUsb_rramEcc (s : State) (f : UsbSt → UsbSt) : (s.updUsb f).rramEcc = s.rramEcc := rfl
@[simp] theorem State.updUsb_nvEcc (s : State) (f : UsbSt → UsbSt) : (s.updUsb f).nvEcc = s.nvEcc := rfl
@[simp] theorem State.updUsb_saEcc (s : State) (f : UsbSt → UsbSt) : (s.updUsb f).saEcc = s.saEcc := rfl
@[simp] theorem State.updUsb_threads (s : State) (f : UsbSt → UsbSt) : (s.updUsb f).threads = s.threads := rfl
@[simp] theorem State.updUsb_helpers (s : State) (f : UsbSt → UsbSt) : (s.updUsb f).helpers = s.helpers := rfl
@[simp] theorem State.updUsb_tap (s : State) (f : UsbSt → UsbSt) : (s.updUsb f).tap = s.tap := rfl
@[simp] theorem State.updUsb_slow (s : State) (f : UsbSt → UsbSt) : (s.updUsb f).slow = s.slow := rfl
@[simp] theorem State.updUsb_admOff (s : State) (f : UsbSt → UsbSt) : (s.updUsb f).admOff = s.admOff := rfl
@[simp] theorem State.updUsb_fuses (s : State) (f : UsbSt → UsbSt) : (s.updUsb f).fuses = s.fuses := rfl
@[simp] theorem State.updUsb_boot (s : State) (f : UsbSt → UsbSt) : (s.updUsb f).boot = s.boot := rfl
@[simp] theorem State.updUsb_loops (s : State) (f : UsbSt → UsbSt) : (s.updUsb f).loops = s.loops := rfl
@[simp] theorem State.updUsb_phases (s : State) (f : UsbSt → UsbSt) : (s.updUsb f).phases = s.phases := rfl
@[simp] theorem State.updUsb_convs (s : State) (f : UsbSt → UsbSt) : (s.updUsb f).convs = s.convs := rfl
@[simp] theorem State.updUsb_cnv (s : State) (f : UsbSt → UsbSt) : (s.updUsb f).cnv = s.cnv := rfl
@[simp] theorem State.updUsb_gov (s : State) (f : UsbSt → UsbSt) : (s.updUsb f).gov = s.gov := rfl
@[simp] theorem State.updUsb_fanForced (s : State) (f : UsbSt → UsbSt) : (s.updUsb f).fanForced = s.fanForced := rfl
@[simp] theorem State.updUsb_bat (s : State) (f : UsbSt → UsbSt) : (s.updUsb f).bat = s.bat := rfl
@[simp] theorem State.updUsb_batKeep (s : State) (f : UsbSt → UsbSt) : (s.updUsb f).batKeep = s.batKeep := rfl
@[simp] theorem State.updUsb_pm (s : State) (f : UsbSt → UsbSt) : (s.updUsb f).pm = s.pm := rfl
@[simp] theorem State.updUsb_ctl (s : State) (f : UsbSt → UsbSt) : (s.updUsb f).ctl = s.ctl := rfl
@[simp] theorem State.updUsb_rows (s : State) (f : UsbSt → UsbSt) : (s.updUsb f).rows = s.rows := rfl
@[simp] theorem State.updUsb_perst (s : State) (f : UsbSt → UsbSt) : (s.updUsb f).perst = s.perst := rfl
@[simp] theorem State.updUsb_esp (s : State) (f : UsbSt → UsbSt) : (s.updUsb f).esp = s.esp := rfl
@[simp] theorem State.updUsb_ports (s : State) (f : UsbSt → UsbSt) : (s.updUsb f).ports = s.ports := rfl
@[simp] theorem State.updUsb_saMaster (s : State) (f : UsbSt → UsbSt) : (s.updUsb f).saMaster = s.saMaster := rfl
@[simp] theorem State.updUsb_saCopies (s : State) (f : UsbSt → UsbSt) : (s.updUsb f).saCopies = s.saCopies := rfl
@[simp] theorem State.updUsb_msecBusy (s : State) (f : UsbSt → UsbSt) : (s.updUsb f).msecBusy = s.msecBusy := rfl
@[simp] theorem State.updUsb_dtb (s : State) (f : UsbSt → UsbSt) : (s.updUsb f).dtb = s.dtb := rfl
@[simp] theorem State.updUsb_ring (s : State) (f : UsbSt → UsbSt) : (s.updUsb f).ring = s.ring := rfl
@[simp] theorem State.updUsb_jobs (s : State) (f : UsbSt → UsbSt) : (s.updUsb f).jobs = s.jobs := rfl
@[simp] theorem State.updUsb_fst (s : State) (f : UsbSt → UsbSt) : (s.updUsb f).fst = s.fst := rfl
@[simp] theorem State.updUsb_pins (s : State) (f : UsbSt → UsbSt) : (s.updUsb f).pins = s.pins := rfl
@[simp] theorem State.updUsb_graft (s : State) (f : UsbSt → UsbSt) : (s.updUsb f).graft = s.graft := rfl
theorem State.updUsb_usb (s : State) (f : UsbSt → UsbSt) : (s.updUsb f).usb = f s.usb := rfl
@[simp] theorem State.updUsb_reg (s : State) (f : UsbSt → UsbSt) (q : Nat) : (s.updUsb f).reg q = s.reg q := rfl
@[simp] theorem State.updUsb_fld (s : State) (f : UsbSt → UsbSt) (g : Fld) : (s.updUsb f).fld g = s.fld g := rfl
@[simp] theorem State.updUsb_flag (s : State) (f : UsbSt → UsbSt) (g : Fld) : (s.updUsb f).flag g = s.flag g := rfl
@[simp] theorem State.updUsb_granted (s : State) (f : UsbSt → UsbSt) (d : Nat) : (s.updUsb f).granted d = s.granted d := rfl
@[simp] theorem State.updUsb_ready (s : State) (f : UsbSt → UsbSt) (i : Nat) : (s.updUsb f).ready i = s.ready i := rfl
@[simp] theorem State.updUsb_safe (s : State) (f : UsbSt → UsbSt) : (s.updUsb f).safe = s.safe := rfl
@[simp] theorem State.updUsb_thr (s : State) (f : UsbSt → UsbSt) (j : Nat) : (s.updUsb f).thr j = s.thr j := rfl
@[simp] theorem State.updUsb_row (s : State) (f : UsbSt → UsbSt) (i : Nat) : (s.updUsb f).row i = s.row i := rfl
@[simp] theorem State.updUsb_loop (s : State) (f : UsbSt → UsbSt) (i : Nat) : (s.updUsb f).loop i = s.loop i := rfl
@[simp] theorem State.updUsb_phase (s : State) (f : UsbSt → UsbSt) (i : Nat) : (s.updUsb f).phase i = s.phase i := rfl
@[simp] theorem State.updUsb_conv (s : State) (f : UsbSt → UsbSt) (i : Nat) : (s.updUsb f).conv i = s.conv i := rfl
@[simp] theorem State.updUsb_govOf (s : State) (f : UsbSt → UsbSt) (i : Nat) : (s.updUsb f).govOf i = s.govOf i := rfl
@[simp] theorem State.updUsb_port (s : State) (f : UsbSt → UsbSt) (i : Nat) : (s.updUsb f).port i = s.port i := rfl

@[simp] theorem State.updGraft_pending (s : State) (f : GraftSt → GraftSt) : (s.updGraft f).pending = s.pending := rfl
@[simp] theorem State.updGraft_freeCtr (s : State) (f : GraftSt → GraftSt) : (s.updGraft f).freeCtr = s.freeCtr := rfl
@[simp] theorem State.updGraft_clk (s : State) (f : GraftSt → GraftSt) : (s.updGraft f).clk = s.clk := rfl
@[simp] theorem State.updGraft_out (s : State) (f : GraftSt → GraftSt) : (s.updGraft f).out = s.out := rfl
@[simp] theorem State.updGraft_regs (s : State) (f : GraftSt → GraftSt) : (s.updGraft f).regs = s.regs := rfl
@[simp] theorem State.updGraft_rdShadow (s : State) (f : GraftSt → GraftSt) : (s.updGraft f).rdShadow = s.rdShadow := rfl
@[simp] theorem State.updGraft_wrShadow (s : State) (f : GraftSt → GraftSt) : (s.updGraft f).wrShadow = s.wrShadow := rfl
@[simp] theorem State.updGraft_mem (s : State) (f : GraftSt → GraftSt) : (s.updGraft f).mem = s.mem := rfl
@[simp] theorem State.updGraft_rsMem (s : State) (f : GraftSt → GraftSt) : (s.updGraft f).rsMem = s.rsMem := rfl
@[simp] theorem State.updGraft_nv (s : State) (f : GraftSt → GraftSt) : (s.updGraft f).nv = s.nv := rfl
@[simp] theorem State.updGraft_nvCounts (s : State) (f : GraftSt → GraftSt) : (s.updGraft f).nvCounts = s.nvCounts := rfl
@[simp] theorem State.updGraft_fill (s : State) (f : GraftSt → GraftSt) : (s.updGraft f).fill = s.fill := rfl
@[simp] theorem State.updGraft_rram (s : State) (f : GraftSt → GraftSt) : (s.updGraft f).rram = s.rram := rfl
@[simp] theorem State.updGraft_ecc (s : State) (f : GraftSt → GraftSt) : (s.updGraft f).ecc = s.ecc := rfl
@[simp] theorem State.updGraft_rsEcc (s : State) (f : GraftSt → GraftSt) : (s.updGraft f).rsEcc = s.rsEcc := rfl
@[simp] theorem State.updGraft_rramEcc (s : State) (f : GraftSt → GraftSt) : (s.updGraft f).rramEcc = s.rramEcc := rfl
@[simp] theorem State.updGraft_nvEcc (s : State) (f : GraftSt → GraftSt) : (s.updGraft f).nvEcc = s.nvEcc := rfl
@[simp] theorem State.updGraft_saEcc (s : State) (f : GraftSt → GraftSt) : (s.updGraft f).saEcc = s.saEcc := rfl
@[simp] theorem State.updGraft_threads (s : State) (f : GraftSt → GraftSt) : (s.updGraft f).threads = s.threads := rfl
@[simp] theorem State.updGraft_helpers (s : State) (f : GraftSt → GraftSt) : (s.updGraft f).helpers = s.helpers := rfl
@[simp] theorem State.updGraft_tap (s : State) (f : GraftSt → GraftSt) : (s.updGraft f).tap = s.tap := rfl
@[simp] theorem State.updGraft_slow (s : State) (f : GraftSt → GraftSt) : (s.updGraft f).slow = s.slow := rfl
@[simp] theorem State.updGraft_admOff (s : State) (f : GraftSt → GraftSt) : (s.updGraft f).admOff = s.admOff := rfl
@[simp] theorem State.updGraft_fuses (s : State) (f : GraftSt → GraftSt) : (s.updGraft f).fuses = s.fuses := rfl
@[simp] theorem State.updGraft_boot (s : State) (f : GraftSt → GraftSt) : (s.updGraft f).boot = s.boot := rfl
@[simp] theorem State.updGraft_loops (s : State) (f : GraftSt → GraftSt) : (s.updGraft f).loops = s.loops := rfl
@[simp] theorem State.updGraft_phases (s : State) (f : GraftSt → GraftSt) : (s.updGraft f).phases = s.phases := rfl
@[simp] theorem State.updGraft_convs (s : State) (f : GraftSt → GraftSt) : (s.updGraft f).convs = s.convs := rfl
@[simp] theorem State.updGraft_cnv (s : State) (f : GraftSt → GraftSt) : (s.updGraft f).cnv = s.cnv := rfl
@[simp] theorem State.updGraft_gov (s : State) (f : GraftSt → GraftSt) : (s.updGraft f).gov = s.gov := rfl
@[simp] theorem State.updGraft_fanForced (s : State) (f : GraftSt → GraftSt) : (s.updGraft f).fanForced = s.fanForced := rfl
@[simp] theorem State.updGraft_bat (s : State) (f : GraftSt → GraftSt) : (s.updGraft f).bat = s.bat := rfl
@[simp] theorem State.updGraft_batKeep (s : State) (f : GraftSt → GraftSt) : (s.updGraft f).batKeep = s.batKeep := rfl
@[simp] theorem State.updGraft_pm (s : State) (f : GraftSt → GraftSt) : (s.updGraft f).pm = s.pm := rfl
@[simp] theorem State.updGraft_ctl (s : State) (f : GraftSt → GraftSt) : (s.updGraft f).ctl = s.ctl := rfl
@[simp] theorem State.updGraft_rows (s : State) (f : GraftSt → GraftSt) : (s.updGraft f).rows = s.rows := rfl
@[simp] theorem State.updGraft_perst (s : State) (f : GraftSt → GraftSt) : (s.updGraft f).perst = s.perst := rfl
@[simp] theorem State.updGraft_esp (s : State) (f : GraftSt → GraftSt) : (s.updGraft f).esp = s.esp := rfl
@[simp] theorem State.updGraft_ports (s : State) (f : GraftSt → GraftSt) : (s.updGraft f).ports = s.ports := rfl
@[simp] theorem State.updGraft_saMaster (s : State) (f : GraftSt → GraftSt) : (s.updGraft f).saMaster = s.saMaster := rfl
@[simp] theorem State.updGraft_saCopies (s : State) (f : GraftSt → GraftSt) : (s.updGraft f).saCopies = s.saCopies := rfl
@[simp] theorem State.updGraft_msecBusy (s : State) (f : GraftSt → GraftSt) : (s.updGraft f).msecBusy = s.msecBusy := rfl
@[simp] theorem State.updGraft_dtb (s : State) (f : GraftSt → GraftSt) : (s.updGraft f).dtb = s.dtb := rfl
@[simp] theorem State.updGraft_ring (s : State) (f : GraftSt → GraftSt) : (s.updGraft f).ring = s.ring := rfl
@[simp] theorem State.updGraft_usb (s : State) (f : GraftSt → GraftSt) : (s.updGraft f).usb = s.usb := rfl
@[simp] theorem State.updGraft_jobs (s : State) (f : GraftSt → GraftSt) : (s.updGraft f).jobs = s.jobs := rfl
@[simp] theorem State.updGraft_fst (s : State) (f : GraftSt → GraftSt) : (s.updGraft f).fst = s.fst := rfl
@[simp] theorem State.updGraft_pins (s : State) (f : GraftSt → GraftSt) : (s.updGraft f).pins = s.pins := rfl
theorem State.updGraft_graft (s : State) (f : GraftSt → GraftSt) : (s.updGraft f).graft = f s.graft := rfl
@[simp] theorem State.updGraft_reg (s : State) (f : GraftSt → GraftSt) (q : Nat) : (s.updGraft f).reg q = s.reg q := rfl
@[simp] theorem State.updGraft_fld (s : State) (f : GraftSt → GraftSt) (g : Fld) : (s.updGraft f).fld g = s.fld g := rfl
@[simp] theorem State.updGraft_flag (s : State) (f : GraftSt → GraftSt) (g : Fld) : (s.updGraft f).flag g = s.flag g := rfl
@[simp] theorem State.updGraft_granted (s : State) (f : GraftSt → GraftSt) (d : Nat) : (s.updGraft f).granted d = s.granted d := rfl
@[simp] theorem State.updGraft_ready (s : State) (f : GraftSt → GraftSt) (i : Nat) : (s.updGraft f).ready i = s.ready i := rfl
@[simp] theorem State.updGraft_safe (s : State) (f : GraftSt → GraftSt) : (s.updGraft f).safe = s.safe := rfl
@[simp] theorem State.updGraft_thr (s : State) (f : GraftSt → GraftSt) (j : Nat) : (s.updGraft f).thr j = s.thr j := rfl
@[simp] theorem State.updGraft_row (s : State) (f : GraftSt → GraftSt) (i : Nat) : (s.updGraft f).row i = s.row i := rfl
@[simp] theorem State.updGraft_loop (s : State) (f : GraftSt → GraftSt) (i : Nat) : (s.updGraft f).loop i = s.loop i := rfl
@[simp] theorem State.updGraft_phase (s : State) (f : GraftSt → GraftSt) (i : Nat) : (s.updGraft f).phase i = s.phase i := rfl
@[simp] theorem State.updGraft_conv (s : State) (f : GraftSt → GraftSt) (i : Nat) : (s.updGraft f).conv i = s.conv i := rfl
@[simp] theorem State.updGraft_govOf (s : State) (f : GraftSt → GraftSt) (i : Nat) : (s.updGraft f).govOf i = s.govOf i := rfl
@[simp] theorem State.updGraft_port (s : State) (f : GraftSt → GraftSt) (i : Nat) : (s.updGraft f).port i = s.port i := rfl

@[simp] theorem State.pokeByte_pending (s : State) (addr : Nat) (b : Byte) : (s.pokeByte addr b).pending = s.pending := rfl
@[simp] theorem State.pokeByte_freeCtr (s : State) (addr : Nat) (b : Byte) : (s.pokeByte addr b).freeCtr = s.freeCtr := rfl
@[simp] theorem State.pokeByte_clk (s : State) (addr : Nat) (b : Byte) : (s.pokeByte addr b).clk = s.clk := rfl
@[simp] theorem State.pokeByte_out (s : State) (addr : Nat) (b : Byte) : (s.pokeByte addr b).out = s.out := rfl
@[simp] theorem State.pokeByte_regs (s : State) (addr : Nat) (b : Byte) : (s.pokeByte addr b).regs = s.regs := rfl
@[simp] theorem State.pokeByte_rdShadow (s : State) (addr : Nat) (b : Byte) : (s.pokeByte addr b).rdShadow = s.rdShadow := rfl
@[simp] theorem State.pokeByte_wrShadow (s : State) (addr : Nat) (b : Byte) : (s.pokeByte addr b).wrShadow = s.wrShadow := rfl
@[simp] theorem State.pokeByte_rsMem (s : State) (addr : Nat) (b : Byte) : (s.pokeByte addr b).rsMem = s.rsMem := rfl
@[simp] theorem State.pokeByte_nv (s : State) (addr : Nat) (b : Byte) : (s.pokeByte addr b).nv = s.nv := rfl
@[simp] theorem State.pokeByte_nvCounts (s : State) (addr : Nat) (b : Byte) : (s.pokeByte addr b).nvCounts = s.nvCounts := rfl
@[simp] theorem State.pokeByte_fill (s : State) (addr : Nat) (b : Byte) : (s.pokeByte addr b).fill = s.fill := rfl
@[simp] theorem State.pokeByte_rram (s : State) (addr : Nat) (b : Byte) : (s.pokeByte addr b).rram = s.rram := rfl
@[simp] theorem State.pokeByte_ecc (s : State) (addr : Nat) (b : Byte) : (s.pokeByte addr b).ecc = s.ecc := rfl
@[simp] theorem State.pokeByte_rsEcc (s : State) (addr : Nat) (b : Byte) : (s.pokeByte addr b).rsEcc = s.rsEcc := rfl
@[simp] theorem State.pokeByte_rramEcc (s : State) (addr : Nat) (b : Byte) : (s.pokeByte addr b).rramEcc = s.rramEcc := rfl
@[simp] theorem State.pokeByte_nvEcc (s : State) (addr : Nat) (b : Byte) : (s.pokeByte addr b).nvEcc = s.nvEcc := rfl
@[simp] theorem State.pokeByte_saEcc (s : State) (addr : Nat) (b : Byte) : (s.pokeByte addr b).saEcc = s.saEcc := rfl
@[simp] theorem State.pokeByte_threads (s : State) (addr : Nat) (b : Byte) : (s.pokeByte addr b).threads = s.threads := rfl
@[simp] theorem State.pokeByte_helpers (s : State) (addr : Nat) (b : Byte) : (s.pokeByte addr b).helpers = s.helpers := rfl
@[simp] theorem State.pokeByte_tap (s : State) (addr : Nat) (b : Byte) : (s.pokeByte addr b).tap = s.tap := rfl
@[simp] theorem State.pokeByte_slow (s : State) (addr : Nat) (b : Byte) : (s.pokeByte addr b).slow = s.slow := rfl
@[simp] theorem State.pokeByte_admOff (s : State) (addr : Nat) (b : Byte) : (s.pokeByte addr b).admOff = s.admOff := rfl
@[simp] theorem State.pokeByte_fuses (s : State) (addr : Nat) (b : Byte) : (s.pokeByte addr b).fuses = s.fuses := rfl
@[simp] theorem State.pokeByte_boot (s : State) (addr : Nat) (b : Byte) : (s.pokeByte addr b).boot = s.boot := rfl
@[simp] theorem State.pokeByte_loops (s : State) (addr : Nat) (b : Byte) : (s.pokeByte addr b).loops = s.loops := rfl
@[simp] theorem State.pokeByte_phases (s : State) (addr : Nat) (b : Byte) : (s.pokeByte addr b).phases = s.phases := rfl
@[simp] theorem State.pokeByte_convs (s : State) (addr : Nat) (b : Byte) : (s.pokeByte addr b).convs = s.convs := rfl
@[simp] theorem State.pokeByte_cnv (s : State) (addr : Nat) (b : Byte) : (s.pokeByte addr b).cnv = s.cnv := rfl
@[simp] theorem State.pokeByte_gov (s : State) (addr : Nat) (b : Byte) : (s.pokeByte addr b).gov = s.gov := rfl
@[simp] theorem State.pokeByte_fanForced (s : State) (addr : Nat) (b : Byte) : (s.pokeByte addr b).fanForced = s.fanForced := rfl
@[simp] theorem State.pokeByte_bat (s : State) (addr : Nat) (b : Byte) : (s.pokeByte addr b).bat = s.bat := rfl
@[simp] theorem State.pokeByte_batKeep (s : State) (addr : Nat) (b : Byte) : (s.pokeByte addr b).batKeep = s.batKeep := rfl
@[simp] theorem State.pokeByte_pm (s : State) (addr : Nat) (b : Byte) : (s.pokeByte addr b).pm = s.pm := rfl
@[simp] theorem State.pokeByte_ctl (s : State) (addr : Nat) (b : Byte) : (s.pokeByte addr b).ctl = s.ctl := rfl
@[simp] theorem State.pokeByte_rows (s : State) (addr : Nat) (b : Byte) : (s.pokeByte addr b).rows = s.rows := rfl
@[simp] theorem State.pokeByte_perst (s : State) (addr : Nat) (b : Byte) : (s.pokeByte addr b).perst = s.perst := rfl
@[simp] theorem State.pokeByte_esp (s : State) (addr : Nat) (b : Byte) : (s.pokeByte addr b).esp = s.esp := rfl
@[simp] theorem State.pokeByte_ports (s : State) (addr : Nat) (b : Byte) : (s.pokeByte addr b).ports = s.ports := rfl
@[simp] theorem State.pokeByte_saMaster (s : State) (addr : Nat) (b : Byte) : (s.pokeByte addr b).saMaster = s.saMaster := rfl
@[simp] theorem State.pokeByte_saCopies (s : State) (addr : Nat) (b : Byte) : (s.pokeByte addr b).saCopies = s.saCopies := rfl
@[simp] theorem State.pokeByte_msecBusy (s : State) (addr : Nat) (b : Byte) : (s.pokeByte addr b).msecBusy = s.msecBusy := rfl
@[simp] theorem State.pokeByte_dtb (s : State) (addr : Nat) (b : Byte) : (s.pokeByte addr b).dtb = s.dtb := rfl
@[simp] theorem State.pokeByte_ring (s : State) (addr : Nat) (b : Byte) : (s.pokeByte addr b).ring = s.ring := rfl
@[simp] theorem State.pokeByte_usb (s : State) (addr : Nat) (b : Byte) : (s.pokeByte addr b).usb = s.usb := rfl
@[simp] theorem State.pokeByte_jobs (s : State) (addr : Nat) (b : Byte) : (s.pokeByte addr b).jobs = s.jobs := rfl
@[simp] theorem State.pokeByte_fst (s : State) (addr : Nat) (b : Byte) : (s.pokeByte addr b).fst = s.fst := rfl
@[simp] theorem State.pokeByte_pins (s : State) (addr : Nat) (b : Byte) : (s.pokeByte addr b).pins = s.pins := rfl
@[simp] theorem State.pokeByte_graft (s : State) (addr : Nat) (b : Byte) : (s.pokeByte addr b).graft = s.graft := rfl
theorem State.pokeByte_mem (s : State) (addr : Nat) (b : Byte) : (s.pokeByte addr b).mem = tabSet (memDflt s.fill addr) addr b s.mem := rfl
@[simp] theorem State.pokeByte_reg (s : State) (addr : Nat) (b : Byte) (q : Nat) : (s.pokeByte addr b).reg q = s.reg q := rfl
@[simp] theorem State.pokeByte_fld (s : State) (addr : Nat) (b : Byte) (g : Fld) : (s.pokeByte addr b).fld g = s.fld g := rfl
@[simp] theorem State.pokeByte_flag (s : State) (addr : Nat) (b : Byte) (g : Fld) : (s.pokeByte addr b).flag g = s.flag g := rfl
@[simp] theorem State.pokeByte_granted (s : State) (addr : Nat) (b : Byte) (d : Nat) : (s.pokeByte addr b).granted d = s.granted d := rfl
@[simp] theorem State.pokeByte_ready (s : State) (addr : Nat) (b : Byte) (i : Nat) : (s.pokeByte addr b).ready i = s.ready i := rfl
@[simp] theorem State.pokeByte_safe (s : State) (addr : Nat) (b : Byte) : (s.pokeByte addr b).safe = s.safe := rfl
@[simp] theorem State.pokeByte_thr (s : State) (addr : Nat) (b : Byte) (j : Nat) : (s.pokeByte addr b).thr j = s.thr j := rfl
@[simp] theorem State.pokeByte_row (s : State) (addr : Nat) (b : Byte) (i : Nat) : (s.pokeByte addr b).row i = s.row i := rfl
@[simp] theorem State.pokeByte_loop (s : State) (addr : Nat) (b : Byte) (i : Nat) : (s.pokeByte addr b).loop i = s.loop i := rfl
@[simp] theorem State.pokeByte_phase (s : State) (addr : Nat) (b : Byte) (i : Nat) : (s.pokeByte addr b).phase i = s.phase i := rfl
@[simp] theorem State.pokeByte_conv (s : State) (addr : Nat) (b : Byte) (i : Nat) : (s.pokeByte addr b).conv i = s.conv i := rfl
@[simp] theorem State.pokeByte_govOf (s : State) (addr : Nat) (b : Byte) (i : Nat) : (s.pokeByte addr b).govOf i = s.govOf i := rfl
@[simp] theorem State.pokeByte_port (s : State) (addr : Nat) (b : Byte) (i : Nat) : (s.pokeByte addr b).port i = s.port i := rfl

@[simp] theorem State.setEcc_pending (s : State) (addr n : Nat) : (s.setEcc addr n).pending = s.pending := rfl
@[simp] theorem State.setEcc_freeCtr (s : State) (addr n : Nat) : (s.setEcc addr n).freeCtr = s.freeCtr := rfl
@[simp] theorem State.setEcc_clk (s : State) (addr n : Nat) : (s.setEcc addr n).clk = s.clk := rfl
@[simp] theorem State.setEcc_out (s : State) (addr n : Nat) : (s.setEcc addr n).out = s.out := rfl
@[simp] theorem State.setEcc_regs (s : State) (addr n : Nat) : (s.setEcc addr n).regs = s.regs := rfl
@[simp] theorem State.setEcc_rdShadow (s : State) (addr n : Nat) : (s.setEcc addr n).rdShadow = s.rdShadow := rfl
@[simp] theorem State.setEcc_wrShadow (s : State) (addr n : Nat) : (s.setEcc addr n).wrShadow = s.wrShadow := rfl
@[simp] theorem State.setEcc_mem (s : State) (addr n : Nat) : (s.setEcc addr n).mem = s.mem := rfl
@[simp] theorem State.setEcc_rsMem (s : State) (addr n : Nat) : (s.setEcc addr n).rsMem = s.rsMem := rfl
@[simp] theorem State.setEcc_nv (s : State) (addr n : Nat) : (s.setEcc addr n).nv = s.nv := rfl
@[simp] theorem State.setEcc_nvCounts (s : State) (addr n : Nat) : (s.setEcc addr n).nvCounts = s.nvCounts := rfl
@[simp] theorem State.setEcc_fill (s : State) (addr n : Nat) : (s.setEcc addr n).fill = s.fill := rfl
@[simp] theorem State.setEcc_rram (s : State) (addr n : Nat) : (s.setEcc addr n).rram = s.rram := rfl
@[simp] theorem State.setEcc_rsEcc (s : State) (addr n : Nat) : (s.setEcc addr n).rsEcc = s.rsEcc := rfl
@[simp] theorem State.setEcc_rramEcc (s : State) (addr n : Nat) : (s.setEcc addr n).rramEcc = s.rramEcc := rfl
@[simp] theorem State.setEcc_nvEcc (s : State) (addr n : Nat) : (s.setEcc addr n).nvEcc = s.nvEcc := rfl
@[simp] theorem State.setEcc_saEcc (s : State) (addr n : Nat) : (s.setEcc addr n).saEcc = s.saEcc := rfl
@[simp] theorem State.setEcc_threads (s : State) (addr n : Nat) : (s.setEcc addr n).threads = s.threads := rfl
@[simp] theorem State.setEcc_helpers (s : State) (addr n : Nat) : (s.setEcc addr n).helpers = s.helpers := rfl
@[simp] theorem State.setEcc_tap (s : State) (addr n : Nat) : (s.setEcc addr n).tap = s.tap := rfl
@[simp] theorem State.setEcc_slow (s : State) (addr n : Nat) : (s.setEcc addr n).slow = s.slow := rfl
@[simp] theorem State.setEcc_admOff (s : State) (addr n : Nat) : (s.setEcc addr n).admOff = s.admOff := rfl
@[simp] theorem State.setEcc_fuses (s : State) (addr n : Nat) : (s.setEcc addr n).fuses = s.fuses := rfl
@[simp] theorem State.setEcc_boot (s : State) (addr n : Nat) : (s.setEcc addr n).boot = s.boot := rfl
@[simp] theorem State.setEcc_loops (s : State) (addr n : Nat) : (s.setEcc addr n).loops = s.loops := rfl
@[simp] theorem State.setEcc_phases (s : State) (addr n : Nat) : (s.setEcc addr n).phases = s.phases := rfl
@[simp] theorem State.setEcc_convs (s : State) (addr n : Nat) : (s.setEcc addr n).convs = s.convs := rfl
@[simp] theorem State.setEcc_cnv (s : State) (addr n : Nat) : (s.setEcc addr n).cnv = s.cnv := rfl
@[simp] theorem State.setEcc_gov (s : State) (addr n : Nat) : (s.setEcc addr n).gov = s.gov := rfl
@[simp] theorem State.setEcc_fanForced (s : State) (addr n : Nat) : (s.setEcc addr n).fanForced = s.fanForced := rfl
@[simp] theorem State.setEcc_bat (s : State) (addr n : Nat) : (s.setEcc addr n).bat = s.bat := rfl
@[simp] theorem State.setEcc_batKeep (s : State) (addr n : Nat) : (s.setEcc addr n).batKeep = s.batKeep := rfl
@[simp] theorem State.setEcc_pm (s : State) (addr n : Nat) : (s.setEcc addr n).pm = s.pm := rfl
@[simp] theorem State.setEcc_ctl (s : State) (addr n : Nat) : (s.setEcc addr n).ctl = s.ctl := rfl
@[simp] theorem State.setEcc_rows (s : State) (addr n : Nat) : (s.setEcc addr n).rows = s.rows := rfl
@[simp] theorem State.setEcc_perst (s : State) (addr n : Nat) : (s.setEcc addr n).perst = s.perst := rfl
@[simp] theorem State.setEcc_esp (s : State) (addr n : Nat) : (s.setEcc addr n).esp = s.esp := rfl
@[simp] theorem State.setEcc_ports (s : State) (addr n : Nat) : (s.setEcc addr n).ports = s.ports := rfl
@[simp] theorem State.setEcc_saMaster (s : State) (addr n : Nat) : (s.setEcc addr n).saMaster = s.saMaster := rfl
@[simp] theorem State.setEcc_saCopies (s : State) (addr n : Nat) : (s.setEcc addr n).saCopies = s.saCopies := rfl
@[simp] theorem State.setEcc_msecBusy (s : State) (addr n : Nat) : (s.setEcc addr n).msecBusy = s.msecBusy := rfl
@[simp] theorem State.setEcc_dtb (s : State) (addr n : Nat) : (s.setEcc addr n).dtb = s.dtb := rfl
@[simp] theorem State.setEcc_ring (s : State) (addr n : Nat) : (s.setEcc addr n).ring = s.ring := rfl
@[simp] theorem State.setEcc_usb (s : State) (addr n : Nat) : (s.setEcc addr n).usb = s.usb := rfl
@[simp] theorem State.setEcc_jobs (s : State) (addr n : Nat) : (s.setEcc addr n).jobs = s.jobs := rfl
@[simp] theorem State.setEcc_fst (s : State) (addr n : Nat) : (s.setEcc addr n).fst = s.fst := rfl
@[simp] theorem State.setEcc_pins (s : State) (addr n : Nat) : (s.setEcc addr n).pins = s.pins := rfl
@[simp] theorem State.setEcc_graft (s : State) (addr n : Nat) : (s.setEcc addr n).graft = s.graft := rfl
theorem State.setEcc_ecc (s : State) (addr n : Nat) : (s.setEcc addr n).ecc = tabSet 0 (addr / 4) n s.ecc := rfl
@[simp] theorem State.setEcc_reg (s : State) (addr n : Nat) (q : Nat) : (s.setEcc addr n).reg q = s.reg q := rfl
@[simp] theorem State.setEcc_fld (s : State) (addr n : Nat) (g : Fld) : (s.setEcc addr n).fld g = s.fld g := rfl
@[simp] theorem State.setEcc_flag (s : State) (addr n : Nat) (g : Fld) : (s.setEcc addr n).flag g = s.flag g := rfl
@[simp] theorem State.setEcc_granted (s : State) (addr n : Nat) (d : Nat) : (s.setEcc addr n).granted d = s.granted d := rfl
@[simp] theorem State.setEcc_ready (s : State) (addr n : Nat) (i : Nat) : (s.setEcc addr n).ready i = s.ready i := rfl
@[simp] theorem State.setEcc_safe (s : State) (addr n : Nat) : (s.setEcc addr n).safe = s.safe := rfl
@[simp] theorem State.setEcc_thr (s : State) (addr n : Nat) (j : Nat) : (s.setEcc addr n).thr j = s.thr j := rfl
@[simp] theorem State.setEcc_row (s : State) (addr n : Nat) (i : Nat) : (s.setEcc addr n).row i = s.row i := rfl
@[simp] theorem State.setEcc_loop (s : State) (addr n : Nat) (i : Nat) : (s.setEcc addr n).loop i = s.loop i := rfl
@[simp] theorem State.setEcc_phase (s : State) (addr n : Nat) (i : Nat) : (s.setEcc addr n).phase i = s.phase i := rfl
@[simp] theorem State.setEcc_conv (s : State) (addr n : Nat) (i : Nat) : (s.setEcc addr n).conv i = s.conv i := rfl
@[simp] theorem State.setEcc_govOf (s : State) (addr n : Nat) (i : Nat) : (s.setEcc addr n).govOf i = s.govOf i := rfl
@[simp] theorem State.setEcc_port (s : State) (addr n : Nat) (i : Nat) : (s.setEcc addr n).port i = s.port i := rfl

end Sys2Proof.Machine
end

