-- ==== Sys2Proof/Laws/Regs.lean ====
section
/-! SUPPORT. Registers of the window and their fields: what a write of a register or of a field leaves of every other. -/

namespace Sys2Proof.Machine

@[simp] theorem State.reg_setReg_same (s : State) (off : Nat) (v : Word) : (s.setReg off v).reg off = v := by
  simp [State.reg, State.setReg]

theorem State.reg_setReg_other (s : State) {off q : Nat} (v : Word) (h : q ≠ off) : (s.setReg off v).reg q = s.reg q := by
  simp [State.reg, State.setReg, tabGet_set_other _ _ _ _ h]

theorem State.reg_setReg (s : State) (off q : Nat) (v : Word) : (s.setReg off v).reg q = if q = off then v else s.reg q := by
  split
  next h => subst h; simp
  next h => exact s.reg_setReg_other v h

/-- A field fits its register. -/
def Fld.ok (f : Fld) : Bool := decide (f.lo + f.w ≤ 32)

theorem Fld.put_nat (f : Fld) (h : f.ok = true) (v : Nat) (w : Word) :
    (f.put v w).toNat = w.toNat / 2 ^ (f.lo + f.w) * 2 ^ (f.lo + f.w) + v % 2 ^ f.w * 2 ^ f.lo + w.toNat % 2 ^ f.lo := by
  have h32 : f.lo + f.w ≤ 32 := by simpa [Fld.ok] using h
  have hp : 2 ^ (f.lo + f.w) = 2 ^ f.lo * 2 ^ f.w := by rw [Nat.pow_add]
  have ha : 0 < 2 ^ f.lo := Nat.two_pow_pos _
  have hb : 0 < 2 ^ f.w := Nat.two_pow_pos _
  have e1 := Nat.div_add_mod w.toNat (2 ^ f.lo)
  have e2 := Nat.div_add_mod (w.toNat / 2 ^ f.lo) (2 ^ f.w)
  have e3 : w.toNat / 2 ^ f.lo / 2 ^ f.w = w.toNat / 2 ^ (f.lo + f.w) := by rw [Nat.div_div_eq_div_mul, hp]
  rw [e3] at e2
  have hv : v % 2 ^ f.w < 2 ^ f.w := Nat.mod_lt _ hb
  have hq : w.toNat % 2 ^ f.lo < 2 ^ f.lo := Nat.mod_lt _ ha
  have hw : w.toNat < 2 ^ 32 := w.isLt
  have key : w.toNat - w.toNat / 2 ^ f.lo % 2 ^ f.w * 2 ^ f.lo =
      w.toNat / 2 ^ (f.lo + f.w) * 2 ^ (f.lo + f.w) + w.toNat % 2 ^ f.lo := by
    have : w.toNat = w.toNat / 2 ^ (f.lo + f.w) * 2 ^ (f.lo + f.w) + w.toNat / 2 ^ f.lo % 2 ^ f.w * 2 ^ f.lo + w.toNat % 2 ^ f.lo := by
      conv_lhs => rw [← e1, ← e2]
      rw [hp]
      ring
    omega
  have bound : w.toNat / 2 ^ (f.lo + f.w) * 2 ^ (f.lo + f.w) + v % 2 ^ f.w * 2 ^ f.lo + w.toNat % 2 ^ f.lo < 2 ^ 32 := by
    have hh : w.toNat / 2 ^ (f.lo + f.w) < 2 ^ (32 - (f.lo + f.w)) := by
      rw [Nat.div_lt_iff_lt_mul (Nat.two_pow_pos _), ← Nat.pow_add]
      rwa [Nat.sub_add_cancel h32]
    have h2 : (w.toNat / 2 ^ (f.lo + f.w) + 1) * 2 ^ (f.lo + f.w) ≤ 2 ^ 32 := by
      calc _ ≤ 2 ^ (32 - (f.lo + f.w)) * 2 ^ (f.lo + f.w) := Nat.mul_le_mul_right _ hh
        _ = 2 ^ 32 := by rw [← Nat.pow_add, Nat.sub_add_cancel h32]
    have h3 : (v % 2 ^ f.w + 1) * 2 ^ f.lo ≤ 2 ^ (f.lo + f.w) := by
      rw [hp, Nat.mul_comm (2 ^ f.lo)]
      exact Nat.mul_le_mul_right _ hv
    rw [Nat.add_mul, Nat.one_mul] at h2 h3
    omega
  unfold Fld.put Fld.get
  rw [key, BitVec.toNat_ofNat, Nat.add_right_comm, Nat.mod_eq_of_lt bound]

@[simp] theorem Fld.get_put_same (f : Fld) (h : f.ok = true) (v : Nat) (w : Word) : f.get (f.put v w) = v % 2 ^ f.w := by
  have ha : 0 < 2 ^ f.lo := Nat.two_pow_pos _
  have hq : w.toNat % 2 ^ f.lo < 2 ^ f.lo := Nat.mod_lt _ ha
  unfold Fld.get
  rw [f.put_nat h]
  have e : w.toNat / 2 ^ (f.lo + f.w) * 2 ^ (f.lo + f.w) + v % 2 ^ f.w * 2 ^ f.lo + w.toNat % 2 ^ f.lo
      = 2 ^ f.lo * (w.toNat / 2 ^ (f.lo + f.w) * 2 ^ f.w + v % 2 ^ f.w) + w.toNat % 2 ^ f.lo := by
    rw [Nat.pow_add]; ring
  rw [e, Nat.mul_add_div ha, Nat.div_eq_of_lt hq, Nat.add_zero, Nat.mul_comm _ (2 ^ f.w), Nat.mul_add_mod]
  exact Nat.mod_mod _ _

/-- Two fields of a register that share no bit. -/
def Fld.apart (f g : Fld) : Bool := decide (f.lo + f.w ≤ g.lo) || decide (g.lo + g.w ≤ f.lo)

theorem Fld.get_put_other (f g : Fld) (h : f.ok = true) (hd : f.apart g = true) (v : Nat) (w : Word) :
    g.get (f.put v w) = g.get w := by
  have e : ∀ i, g.lo ≤ i → i < g.lo + g.w → (f.put v w).toNat.testBit i = w.toNat.testBit i := by
    intro i h1 h2
    have ha : 0 < 2 ^ f.lo := Nat.two_pow_pos _
    have hq : w.toNat % 2 ^ f.lo < 2 ^ f.lo := Nat.mod_lt _ ha
    have hv : v % 2 ^ f.w < 2 ^ f.w := Nat.mod_lt _ (Nat.two_pow_pos _)
    rw [f.put_nat h]
    simp only [Fld.apart, Bool.or_eq_true, decide_eq_true_eq] at hd
    rcases hd with hd | hd
    · have hlow : v % 2 ^ f.w * 2 ^ f.lo + w.toNat % 2 ^ f.lo < 2 ^ (f.lo + f.w) := by
        have h3 : (v % 2 ^ f.w + 1) * 2 ^ f.lo ≤ 2 ^ (f.lo + f.w) := by
          rw [Nat.pow_add, Nat.mul_comm (2 ^ f.lo)]
          exact Nat.mul_le_mul_right _ hv
        rw [Nat.add_mul, Nat.one_mul] at h3
        omega
      rw [Nat.add_assoc, Nat.mul_comm, Nat.testBit_two_pow_mul_add _ hlow, if_neg (by omega), Nat.testBit_div_two_pow]
      congr 1
      omega
    · rw [show w.toNat / 2 ^ (f.lo + f.w) * 2 ^ (f.lo + f.w) + v % 2 ^ f.w * 2 ^ f.lo + w.toNat % 2 ^ f.lo
          = 2 ^ f.lo * (w.toNat / 2 ^ (f.lo + f.w) * 2 ^ f.w + v % 2 ^ f.w) + w.toNat % 2 ^ f.lo by
            rw [Nat.pow_add]; ring,
        Nat.testBit_two_pow_mul_add _ hq, if_pos (by omega), Nat.testBit_mod_two_pow]
      simp [show i < f.lo by omega]
  unfold Fld.get
  apply Nat.eq_of_testBit_eq
  intro i
  simp only [Nat.testBit_mod_two_pow, Nat.testBit_div_two_pow]
  by_cases hi : i < g.w
  · simp only [hi, decide_true, Bool.true_and]
    exact e _ (by omega) (by omega)
  · simp [hi]

/-- A field after a write of that field. -/
theorem State.fld_setFld_same (s : State) (f : Fld) (v : Nat) (h : f.ok = true) : (s.setFld f v).fld f = v % 2 ^ f.w := by
  simp [State.fld, State.setFld, h]

/-- A field after a write of a field of another register. -/
theorem State.fld_setFld_off (s : State) (f g : Fld) (v : Nat) (h : g.off ≠ f.off) : (s.setFld f v).fld g = s.fld g := by
  simp only [State.fld, State.setFld]
  rw [State.reg_setReg_other _ _ h]

/-- A field after a write of a field that shares no bit with it. -/
theorem State.fld_setFld_apart (s : State) (f g : Fld) (v : Nat) (h : f.ok = true) (hd : f.apart g = true) :
    (s.setFld f v).fld g = s.fld g := by
  by_cases e : g.off = f.off
  · simp only [State.fld, State.setFld, e, State.reg_setReg_same]
    rw [Fld.get_put_other f g h hd]
  · exact s.fld_setFld_off f g v e

theorem State.fld_setReg_off (s : State) (g : Fld) (off : Nat) (v : Word) (h : g.off ≠ off) : (s.setReg off v).fld g = s.fld g := by
  simp only [State.fld]
  rw [State.reg_setReg_other _ _ h]

theorem State.reg_setFld_other (s : State) (f : Fld) (v q : Nat) (h : q ≠ f.off) : (s.setFld f v).reg q = s.reg q :=
  s.reg_setReg_other _ h

/-- Thread `k` after a write of a thread. -/
@[simp] theorem State.thr_setThr_same (s : State) (k : Nat) (t : Thread) : (s.setThr k t).thr k = t := by
  simp [State.thr, State.setThr]

theorem State.thr_setThr_other (s : State) {k j : Nat} (t : Thread) (h : j ≠ k) : (s.setThr k t).thr j = s.thr j := by
  simp [State.thr, State.setThr, tabGet_set_other _ _ _ _ h]

@[simp] theorem State.thr_updThr_same (s : State) (k : Nat) (f : Thread → Thread) : (s.updThr k f).thr k = f (s.thr k) := by
  simp [State.updThr]

theorem State.thr_updThr_other (s : State) {k j : Nat} (f : Thread → Thread) (h : j ≠ k) : (s.updThr k f).thr j = s.thr j :=
  s.thr_setThr_other _ h

/-- A second write of a thread replaces the first, unless the first left what an unlisted thread holds. -/
theorem State.setThr_setThr (s : State) (k : Nat) {a b : Thread} (h : a.state ≠ .idle) (h' : a.state ≠ .unassigned) :
    (s.setThr k a).setThr k b = s.setThr k b := by
  unfold State.setThr
  congr 1
  refine tabSet_set ?_ _ _ _
  rintro rfl
  unfold threadDflt at h h'
  split at h
  next hk => rw [if_pos hk] at h'; exact h' rfl
  · exact h rfl

/-- A general register after a write of one. -/
theorem Thread.gr_setG (t : Thread) (n i : Nat) (v : Word) :
    (t.setG n v).gr i = if i = n ∧ n ≠ 0 then v else t.gr i := by
  unfold Thread.setG Thread.gr
  by_cases hn : n = 0
  · simp [hn]
  · by_cases hi : i = n
    · subst hi; simp [hn]
    · simp only [hn, if_false, hi, false_and]
      rw [tabGet_set_other _ _ _ _ hi]

/-- A byte of memory after a write of one. -/
@[simp] theorem State.byteAt_pokeByte_same (s : State) (a : Nat) (b : Byte) : (s.pokeByte a b).byteAt a = b := by
  simp [State.byteAt, State.pokeByte]

theorem State.byteAt_pokeByte_other (s : State) {a i : Nat} (b : Byte) (h : i ≠ a) : (s.pokeByte a b).byteAt i = s.byteAt i := by
  simp only [State.byteAt, State.pokeByte]
  rw [tabGet_set_other _ _ _ _ h]

/-- A byte of memory after a write of bytes. -/
theorem State.byteAt_poke_other : ∀ (bs : Bytes) (s : State) (a i : Nat), (i < a ∨ a + bs.length ≤ i) →
    (s.poke a bs).byteAt i = s.byteAt i
  | [], _, _, _, _ => rfl
  | b :: bs, s, a, i, h => by
    simp only [List.length_cons] at h
    rw [State.poke, State.byteAt_poke_other bs _ _ _ (by omega), State.byteAt_pokeByte_other _ _ (by omega)]

theorem State.byteAt_poke_same : ∀ (bs : Bytes) (s : State) (a i : Nat), i < bs.length →
    (s.poke a bs).byteAt (a + i) = bs.getD i 0
  | [], _, _, _, h => absurd h (by simp)
  | b :: bs, s, a, 0, _ => by
    rw [State.poke, State.byteAt_poke_other _ _ _ _ (by omega)]
    simp
  | b :: bs, s, a, i + 1, h => by
    rw [State.poke, show a + (i + 1) = a + 1 + i by omega, State.byteAt_poke_same bs _ _ _ (by simpa using h)]
    simp

end Sys2Proof.Machine
end

