-- ==== Sys2Proof/Laws/Thread.lean ====
section
/-! SUPPORT. What each update of a thread leaves of each of its registers. -/

namespace Sys2Proof.Machine

@[simp] theorem Thread.setG_state (t : Thread) (n : Nat) (v : Word) : (t.setG n v).state = t.state := by
  unfold Thread.setG; split <;> rfl
@[simp] theorem Thread.setG_wait (t : Thread) (n : Nat) (v : Word) : (t.setG n v).wait = t.wait := by
  unfold Thread.setG; split <;> rfl
@[simp] theorem Thread.setG_row (t : Thread) (n : Nat) (v : Word) : (t.setG n v).row = t.row := by
  unfold Thread.setG; split <;> rfl
@[simp] theorem Thread.setG_borrowed (t : Thread) (n : Nat) (v : Word) : (t.setG n v).borrowed = t.borrowed := by
  unfold Thread.setG; split <;> rfl
@[simp] theorem Thread.setG_parent (t : Thread) (n : Nat) (v : Word) : (t.setG n v).parent = t.parent := by
  unfold Thread.setG; split <;> rfl
@[simp] theorem Thread.setG_cause (t : Thread) (n : Nat) (v : Word) : (t.setG n v).cause = t.cause := by
  unfold Thread.setG; split <;> rfl
@[simp] theorem Thread.setG_pc (t : Thread) (n : Nat) (v : Word) : (t.setG n v).pc = t.pc := by
  unfold Thread.setG; split <;> rfl
@[simp] theorem Thread.setG_a (t : Thread) (n : Nat) (v : Word) : (t.setG n v).a = t.a := by
  unfold Thread.setG; split <;> rfl
@[simp] theorem Thread.setG_ag (t : Thread) (n : Nat) (v : Word) : (t.setG n v).ag = t.ag := by
  unfold Thread.setG; split <;> rfl
@[simp] theorem Thread.setG_tsr (t : Thread) (n : Nat) (v : Word) : (t.setG n v).tsr = t.tsr := by
  unfold Thread.setG; split <;> rfl
@[simp] theorem Thread.setG_etsr (t : Thread) (n : Nat) (v : Word) : (t.setG n v).etsr = t.etsr := by
  unfold Thread.setG; split <;> rfl
@[simp] theorem Thread.setG_epc (t : Thread) (n : Nat) (v : Word) : (t.setG n v).epc = t.epc := by
  unfold Thread.setG; split <;> rfl
@[simp] theorem Thread.setG_ecause (t : Thread) (n : Nat) (v : Word) : (t.setG n v).ecause = t.ecause := by
  unfold Thread.setG; split <;> rfl
@[simp] theorem Thread.setG_eval (t : Thread) (n : Nat) (v : Word) : (t.setG n v).eval = t.eval := by
  unfold Thread.setG; split <;> rfl
@[simp] theorem Thread.setG_tsp (t : Thread) (n : Nat) (v : Word) : (t.setG n v).tsp = t.tsp := by
  unfold Thread.setG; split <;> rfl
@[simp] theorem Thread.setG_rtvec (t : Thread) (n : Nat) (v : Word) : (t.setG n v).rtvec = t.rtvec := by
  unfold Thread.setG; split <;> rfl
@[simp] theorem Thread.setG_rstk (t : Thread) (n : Nat) (v : Word) : (t.setG n v).rstk = t.rstk := by
  unfold Thread.setG; split <;> rfl
@[simp] theorem Thread.setG_rsTop (t : Thread) (n : Nat) (v : Word) : (t.setG n v).rsTop = t.rsTop := by
  unfold Thread.setG; split <;> rfl
@[simp] theorem Thread.setG_rsWrapped (t : Thread) (n : Nat) (v : Word) : (t.setG n v).rsWrapped = t.rsWrapped := by
  unfold Thread.setG; split <;> rfl
@[simp] theorem Thread.setG_xar (t : Thread) (n : Nat) (v : Word) : (t.setG n v).xar = t.xar := by
  unfold Thread.setG; split <;> rfl
@[simp] theorem Thread.setG_tpri (t : Thread) (n : Nat) (v : Word) : (t.setG n v).tpri = t.tpri := by
  unfold Thread.setG; split <;> rfl
@[simp] theorem Thread.setG_tevt (t : Thread) (n : Nat) (v : Word) : (t.setG n v).tevt = t.tevt := by
  unfold Thread.setG; split <;> rfl
@[simp] theorem Thread.setG_tcmp (t : Thread) (n : Nat) (v : Word) : (t.setG n v).tcmp = t.tcmp := by
  unfold Thread.setG; split <;> rfl
@[simp] theorem Thread.setG_haltq (t : Thread) (n : Nat) (v : Word) : (t.setG n v).haltq = t.haltq := by
  unfold Thread.setG; split <;> rfl
@[simp] theorem Thread.setG_haltOvf (t : Thread) (n : Nat) (v : Word) : (t.setG n v).haltOvf = t.haltOvf := by
  unfold Thread.setG; split <;> rfl
@[simp] theorem Thread.setG_compl (t : Thread) (n : Nat) (v : Word) : (t.setG n v).compl = t.compl := by
  unfold Thread.setG; split <;> rfl

@[simp] theorem Thread.setG_accR (t : Thread) (n : Nat) (v : Word) (i : Nat) : (t.setG n v).acc i = t.acc i := by
  simp [Thread.acc]
@[simp] theorem Thread.setG_agenR (t : Thread) (n : Nat) (v : Word) (i : Nat) : (t.setG n v).agen i = t.agen i := by
  simp [Thread.agen]
@[simp] theorem Thread.setG_completionR (t : Thread) (n : Nat) (v : Word) (i : Nat) : (t.setG n v).completion i = t.completion i := by
  simp [Thread.completion]
@[simp] theorem Thread.setG_xarOfR (t : Thread) (n : Nat) (v : Word) (i : Nat) : (t.setG n v).xarOf i = t.xarOf i := by
  simp [Thread.xarOf]
@[simp] theorem Thread.setAcc_state (t : Thread) (n : Nat) (v : BitVec 40) : (t.setAcc n v).state = t.state := rfl
@[simp] theorem Thread.setAcc_wait (t : Thread) (n : Nat) (v : BitVec 40) : (t.setAcc n v).wait = t.wait := rfl
@[simp] theorem Thread.setAcc_row (t : Thread) (n : Nat) (v : BitVec 40) : (t.setAcc n v).row = t.row := rfl
@[simp] theorem Thread.setAcc_borrowed (t : Thread) (n : Nat) (v : BitVec 40) : (t.setAcc n v).borrowed = t.borrowed := rfl
@[simp] theorem Thread.setAcc_parent (t : Thread) (n : Nat) (v : BitVec 40) : (t.setAcc n v).parent = t.parent := rfl
@[simp] theorem Thread.setAcc_cause (t : Thread) (n : Nat) (v : BitVec 40) : (t.setAcc n v).cause = t.cause := rfl
@[simp] theorem Thread.setAcc_pc (t : Thread) (n : Nat) (v : BitVec 40) : (t.setAcc n v).pc = t.pc := rfl
@[simp] theorem Thread.setAcc_g (t : Thread) (n : Nat) (v : BitVec 40) : (t.setAcc n v).g = t.g := rfl
@[simp] theorem Thread.setAcc_ag (t : Thread) (n : Nat) (v : BitVec 40) : (t.setAcc n v).ag = t.ag := rfl
@[simp] theorem Thread.setAcc_tsr (t : Thread) (n : Nat) (v : BitVec 40) : (t.setAcc n v).tsr = t.tsr := rfl
@[simp] theorem Thread.setAcc_etsr (t : Thread) (n : Nat) (v : BitVec 40) : (t.setAcc n v).etsr = t.etsr := rfl
@[simp] theorem Thread.setAcc_epc (t : Thread) (n : Nat) (v : BitVec 40) : (t.setAcc n v).epc = t.epc := rfl
@[simp] theorem Thread.setAcc_ecause (t : Thread) (n : Nat) (v : BitVec 40) : (t.setAcc n v).ecause = t.ecause := rfl
@[simp] theorem Thread.setAcc_eval (t : Thread) (n : Nat) (v : BitVec 40) : (t.setAcc n v).eval = t.eval := rfl
@[simp] theorem Thread.setAcc_tsp (t : Thread) (n : Nat) (v : BitVec 40) : (t.setAcc n v).tsp = t.tsp := rfl
@[simp] theorem Thread.setAcc_rtvec (t : Thread) (n : Nat) (v : BitVec 40) : (t.setAcc n v).rtvec = t.rtvec := rfl
@[simp] theorem Thread.setAcc_rstk (t : Thread) (n : Nat) (v : BitVec 40) : (t.setAcc n v).rstk = t.rstk := rfl
@[simp] theorem Thread.setAcc_rsTop (t : Thread) (n : Nat) (v : BitVec 40) : (t.setAcc n v).rsTop = t.rsTop := rfl
@[simp] theorem Thread.setAcc_rsWrapped (t : Thread) (n : Nat) (v : BitVec 40) : (t.setAcc n v).rsWrapped = t.rsWrapped := rfl
@[simp] theorem Thread.setAcc_xar (t : Thread) (n : Nat) (v : BitVec 40) : (t.setAcc n v).xar = t.xar := rfl
@[simp] theorem Thread.setAcc_tpri (t : Thread) (n : Nat) (v : BitVec 40) : (t.setAcc n v).tpri = t.tpri := rfl
@[simp] theorem Thread.setAcc_tevt (t : Thread) (n : Nat) (v : BitVec 40) : (t.setAcc n v).tevt = t.tevt := rfl
@[simp] theorem Thread.setAcc_tcmp (t : Thread) (n : Nat) (v : BitVec 40) : (t.setAcc n v).tcmp = t.tcmp := rfl
@[simp] theorem Thread.setAcc_haltq (t : Thread) (n : Nat) (v : BitVec 40) : (t.setAcc n v).haltq = t.haltq := rfl
@[simp] theorem Thread.setAcc_haltOvf (t : Thread) (n : Nat) (v : BitVec 40) : (t.setAcc n v).haltOvf = t.haltOvf := rfl
@[simp] theorem Thread.setAcc_compl (t : Thread) (n : Nat) (v : BitVec 40) : (t.setAcc n v).compl = t.compl := rfl

@[simp] theorem Thread.setAcc_grR (t : Thread) (n : Nat) (v : BitVec 40) (i : Nat) : (t.setAcc n v).gr i = t.gr i := by
  simp [Thread.gr]
@[simp] theorem Thread.setAcc_agenR (t : Thread) (n : Nat) (v : BitVec 40) (i : Nat) : (t.setAcc n v).agen i = t.agen i := by
  simp [Thread.agen]
@[simp] theorem Thread.setAcc_completionR (t : Thread) (n : Nat) (v : BitVec 40) (i : Nat) : (t.setAcc n v).completion i = t.completion i := by
  simp [Thread.completion]
@[simp] theorem Thread.setAcc_xarOfR (t : Thread) (n : Nat) (v : BitVec 40) (i : Nat) : (t.setAcc n v).xarOf i = t.xarOf i := by
  simp [Thread.xarOf]
@[simp] theorem Thread.setAgen_state (t : Thread) (n : Nat) (v : AddrGen) : (t.setAgen n v).state = t.state := rfl
@[simp] theorem Thread.setAgen_wait (t : Thread) (n : Nat) (v : AddrGen) : (t.setAgen n v).wait = t.wait := rfl
@[simp] theorem Thread.setAgen_row (t : Thread) (n : Nat) (v : AddrGen) : (t.setAgen n v).row = t.row := rfl
@[simp] theorem Thread.setAgen_borrowed (t : Thread) (n : Nat) (v : AddrGen) : (t.setAgen n v).borrowed = t.borrowed := rfl
@[simp] theorem Thread.setAgen_parent (t : Thread) (n : Nat) (v : AddrGen) : (t.setAgen n v).parent = t.parent := rfl
@[simp] theorem Thread.setAgen_cause (t : Thread) (n : Nat) (v : AddrGen) : (t.setAgen n v).cause = t.cause := rfl
@[simp] theorem Thread.setAgen_pc (t : Thread) (n : Nat) (v : AddrGen) : (t.setAgen n v).pc = t.pc := rfl
@[simp] theorem Thread.setAgen_g (t : Thread) (n : Nat) (v : AddrGen) : (t.setAgen n v).g = t.g := rfl
@[simp] theorem Thread.setAgen_a (t : Thread) (n : Nat) (v : AddrGen) : (t.setAgen n v).a = t.a := rfl
@[simp] theorem Thread.setAgen_tsr (t : Thread) (n : Nat) (v : AddrGen) : (t.setAgen n v).tsr = t.tsr := rfl
@[simp] theorem Thread.setAgen_etsr (t : Thread) (n : Nat) (v : AddrGen) : (t.setAgen n v).etsr = t.etsr := rfl
@[simp] theorem Thread.setAgen_epc (t : Thread) (n : Nat) (v : AddrGen) : (t.setAgen n v).epc = t.epc := rfl
@[simp] theorem Thread.setAgen_ecause (t : Thread) (n : Nat) (v : AddrGen) : (t.setAgen n v).ecause = t.ecause := rfl
@[simp] theorem Thread.setAgen_eval (t : Thread) (n : Nat) (v : AddrGen) : (t.setAgen n v).eval = t.eval := rfl
@[simp] theorem Thread.setAgen_tsp (t : Thread) (n : Nat) (v : AddrGen) : (t.setAgen n v).tsp = t.tsp := rfl
@[simp] theorem Thread.setAgen_rtvec (t : Thread) (n : Nat) (v : AddrGen) : (t.setAgen n v).rtvec = t.rtvec := rfl
@[simp] theorem Thread.setAgen_rstk (t : Thread) (n : Nat) (v : AddrGen) : (t.setAgen n v).rstk = t.rstk := rfl
@[simp] theorem Thread.setAgen_rsTop (t : Thread) (n : Nat) (v : AddrGen) : (t.setAgen n v).rsTop = t.rsTop := rfl
@[simp] theorem Thread.setAgen_rsWrapped (t : Thread) (n : Nat) (v : AddrGen) : (t.setAgen n v).rsWrapped = t.rsWrapped := rfl
@[simp] theorem Thread.setAgen_xar (t : Thread) (n : Nat) (v : AddrGen) : (t.setAgen n v).xar = t.xar := rfl
@[simp] theorem Thread.setAgen_tpri (t : Thread) (n : Nat) (v : AddrGen) : (t.setAgen n v).tpri = t.tpri := rfl
@[simp] theorem Thread.setAgen_tevt (t : Thread) (n : Nat) (v : AddrGen) : (t.setAgen n v).tevt = t.tevt := rfl
@[simp] theorem Thread.setAgen_tcmp (t : Thread) (n : Nat) (v : AddrGen) : (t.setAgen n v).tcmp = t.tcmp := rfl
@[simp] theorem Thread.setAgen_haltq (t : Thread) (n : Nat) (v : AddrGen) : (t.setAgen n v).haltq = t.haltq := rfl
@[simp] theorem Thread.setAgen_haltOvf (t : Thread) (n : Nat) (v : AddrGen) : (t.setAgen n v).haltOvf = t.haltOvf := rfl
@[simp] theorem Thread.setAgen_compl (t : Thread) (n : Nat) (v : AddrGen) : (t.setAgen n v).compl = t.compl := rfl

@[simp] theorem Thread.setAgen_grR (t : Thread) (n : Nat) (v : AddrGen) (i : Nat) : (t.setAgen n v).gr i = t.gr i := by
  simp [Thread.gr]
@[simp] theorem Thread.setAgen_accR (t : Thread) (n : Nat) (v : AddrGen) (i : Nat) : (t.setAgen n v).acc i = t.acc i := by
  simp [Thread.acc]
@[simp] theorem Thread.setAgen_completionR (t : Thread) (n : Nat) (v : AddrGen) (i : Nat) : (t.setAgen n v).completion i = t.completion i := by
  simp [Thread.completion]
@[simp] theorem Thread.setAgen_xarOfR (t : Thread) (n : Nat) (v : AddrGen) (i : Nat) : (t.setAgen n v).xarOf i = t.xarOf i := by
  simp [Thread.xarOf]
@[simp] theorem Thread.setXar_state (t : Thread) (n : Nat) (v : BitVec 10) : (t.setXar n v).state = t.state := rfl
@[simp] theorem Thread.setXar_wait (t : Thread) (n : Nat) (v : BitVec 10) : (t.setXar n v).wait = t.wait := rfl
@[simp] theorem Thread.setXar_row (t : Thread) (n : Nat) (v : BitVec 10) : (t.setXar n v).row = t.row := rfl
@[simp] theorem Thread.setXar_borrowed (t : Thread) (n : Nat) (v : BitVec 10) : (t.setXar n v).borrowed = t.borrowed := rfl
@[simp] theorem Thread.setXar_parent (t : Thread) (n : Nat) (v : BitVec 10) : (t.setXar n v).parent = t.parent := rfl
@[simp] theorem Thread.setXar_cause (t : Thread) (n : Nat) (v : BitVec 10) : (t.setXar n v).cause = t.cause := rfl
@[simp] theorem Thread.setXar_pc (t : Thread) (n : Nat) (v : BitVec 10) : (t.setXar n v).pc = t.pc := rfl
@[simp] theorem Thread.setXar_g (t : Thread) (n : Nat) (v : BitVec 10) : (t.setXar n v).g = t.g := rfl
@[simp] theorem Thread.setXar_a (t : Thread) (n : Nat) (v : BitVec 10) : (t.setXar n v).a = t.a := rfl
@[simp] theorem Thread.setXar_ag (t : Thread) (n : Nat) (v : BitVec 10) : (t.setXar n v).ag = t.ag := rfl
@[simp] theorem Thread.setXar_tsr (t : Thread) (n : Nat) (v : BitVec 10) : (t.setXar n v).tsr = t.tsr := rfl
@[simp] theorem Thread.setXar_etsr (t : Thread) (n : Nat) (v : BitVec 10) : (t.setXar n v).etsr = t.etsr := rfl
@[simp] theorem Thread.setXar_epc (t : Thread) (n : Nat) (v : BitVec 10) : (t.setXar n v).epc = t.epc := rfl
@[simp] theorem Thread.setXar_ecause (t : Thread) (n : Nat) (v : BitVec 10) : (t.setXar n v).ecause = t.ecause := rfl
@[simp] theorem Thread.setXar_eval (t : Thread) (n : Nat) (v : BitVec 10) : (t.setXar n v).eval = t.eval := rfl
@[simp] theorem Thread.setXar_tsp (t : Thread) (n : Nat) (v : BitVec 10) : (t.setXar n v).tsp = t.tsp := rfl
@[simp] theorem Thread.setXar_rtvec (t : Thread) (n : Nat) (v : BitVec 10) : (t.setXar n v).rtvec = t.rtvec := rfl
@[simp] theorem Thread.setXar_rstk (t : Thread) (n : Nat) (v : BitVec 10) : (t.setXar n v).rstk = t.rstk := rfl
@[simp] theorem Thread.setXar_rsTop (t : Thread) (n : Nat) (v : BitVec 10) : (t.setXar n v).rsTop = t.rsTop := rfl
@[simp] theorem Thread.setXar_rsWrapped (t : Thread) (n : Nat) (v : BitVec 10) : (t.setXar n v).rsWrapped = t.rsWrapped := rfl
@[simp] theorem Thread.setXar_tpri (t : Thread) (n : Nat) (v : BitVec 10) : (t.setXar n v).tpri = t.tpri := rfl
@[simp] theorem Thread.setXar_tevt (t : Thread) (n : Nat) (v : BitVec 10) : (t.setXar n v).tevt = t.tevt := rfl
@[simp] theorem Thread.setXar_tcmp (t : Thread) (n : Nat) (v : BitVec 10) : (t.setXar n v).tcmp = t.tcmp := rfl
@[simp] theorem Thread.setXar_haltq (t : Thread) (n : Nat) (v : BitVec 10) : (t.setXar n v).haltq = t.haltq := rfl
@[simp] theorem Thread.setXar_haltOvf (t : Thread) (n : Nat) (v : BitVec 10) : (t.setXar n v).haltOvf = t.haltOvf := rfl
@[simp] theorem Thread.setXar_compl (t : Thread) (n : Nat) (v : BitVec 10) : (t.setXar n v).compl = t.compl := rfl

@[simp] theorem Thread.setXar_grR (t : Thread) (n : Nat) (v : BitVec 10) (i : Nat) : (t.setXar n v).gr i = t.gr i := by
  simp [Thread.gr]
@[simp] theorem Thread.setXar_accR (t : Thread) (n : Nat) (v : BitVec 10) (i : Nat) : (t.setXar n v).acc i = t.acc i := by
  simp [Thread.acc]
@[simp] theorem Thread.setXar_agenR (t : Thread) (n : Nat) (v : BitVec 10) (i : Nat) : (t.setXar n v).agen i = t.agen i := by
  simp [Thread.agen]
@[simp] theorem Thread.setXar_completionR (t : Thread) (n : Nat) (v : BitVec 10) (i : Nat) : (t.setXar n v).completion i = t.completion i := by
  simp [Thread.completion]
@[simp] theorem Thread.setCompletion_state (t : Thread) (n : Nat) (c : Compl) : (t.setCompletion n c).state = t.state := rfl
@[simp] theorem Thread.setCompletion_wait (t : Thread) (n : Nat) (c : Compl) : (t.setCompletion n c).wait = t.wait := rfl
@[simp] theorem Thread.setCompletion_row (t : Thread) (n : Nat) (c : Compl) : (t.setCompletion n c).row = t.row := rfl
@[simp] theorem Thread.setCompletion_borrowed (t : Thread) (n : Nat) (c : Compl) : (t.setCompletion n c).borrowed = t.borrowed := rfl
@[simp] theorem Thread.setCompletion_parent (t : Thread) (n : Nat) (c : Compl) : (t.setCompletion n c).parent = t.parent := rfl
@[simp] theorem Thread.setCompletion_cause (t : Thread) (n : Nat) (c : Compl) : (t.setCompletion n c).cause = t.cause := rfl
@[simp] theorem Thread.setCompletion_pc (t : Thread) (n : Nat) (c : Compl) : (t.setCompletion n c).pc = t.pc := rfl
@[simp] theorem Thread.setCompletion_g (t : Thread) (n : Nat) (c : Compl) : (t.setCompletion n c).g = t.g := rfl
@[simp] theorem Thread.setCompletion_a (t : Thread) (n : Nat) (c : Compl) : (t.setCompletion n c).a = t.a := rfl
@[simp] theorem Thread.setCompletion_ag (t : Thread) (n : Nat) (c : Compl) : (t.setCompletion n c).ag = t.ag := rfl
@[simp] theorem Thread.setCompletion_tsr (t : Thread) (n : Nat) (c : Compl) : (t.setCompletion n c).tsr = t.tsr := rfl
@[simp] theorem Thread.setCompletion_etsr (t : Thread) (n : Nat) (c : Compl) : (t.setCompletion n c).etsr = t.etsr := rfl
@[simp] theorem Thread.setCompletion_epc (t : Thread) (n : Nat) (c : Compl) : (t.setCompletion n c).epc = t.epc := rfl
@[simp] theorem Thread.setCompletion_ecause (t : Thread) (n : Nat) (c : Compl) : (t.setCompletion n c).ecause = t.ecause := rfl
@[simp] theorem Thread.setCompletion_eval (t : Thread) (n : Nat) (c : Compl) : (t.setCompletion n c).eval = t.eval := rfl
@[simp] theorem Thread.setCompletion_tsp (t : Thread) (n : Nat) (c : Compl) : (t.setCompletion n c).tsp = t.tsp := rfl
@[simp] theorem Thread.setCompletion_rtvec (t : Thread) (n : Nat) (c : Compl) : (t.setCompletion n c).rtvec = t.rtvec := rfl
@[simp] theorem Thread.setCompletion_rstk (t : Thread) (n : Nat) (c : Compl) : (t.setCompletion n c).rstk = t.rstk := rfl
@[simp] theorem Thread.setCompletion_rsTop (t : Thread) (n : Nat) (c : Compl) : (t.setCompletion n c).rsTop = t.rsTop := rfl
@[simp] theorem Thread.setCompletion_rsWrapped (t : Thread) (n : Nat) (c : Compl) : (t.setCompletion n c).rsWrapped = t.rsWrapped := rfl
@[simp] theorem Thread.setCompletion_xar (t : Thread) (n : Nat) (c : Compl) : (t.setCompletion n c).xar = t.xar := rfl
@[simp] theorem Thread.setCompletion_tpri (t : Thread) (n : Nat) (c : Compl) : (t.setCompletion n c).tpri = t.tpri := rfl
@[simp] theorem Thread.setCompletion_tevt (t : Thread) (n : Nat) (c : Compl) : (t.setCompletion n c).tevt = t.tevt := rfl
@[simp] theorem Thread.setCompletion_tcmp (t : Thread) (n : Nat) (c : Compl) : (t.setCompletion n c).tcmp = t.tcmp := rfl
@[simp] theorem Thread.setCompletion_haltq (t : Thread) (n : Nat) (c : Compl) : (t.setCompletion n c).haltq = t.haltq := rfl
@[simp] theorem Thread.setCompletion_haltOvf (t : Thread) (n : Nat) (c : Compl) : (t.setCompletion n c).haltOvf = t.haltOvf := rfl

@[simp] theorem Thread.setCompletion_grR (t : Thread) (n : Nat) (c : Compl) (i : Nat) : (t.setCompletion n c).gr i = t.gr i := by
  simp [Thread.gr]
@[simp] theorem Thread.setCompletion_accR (t : Thread) (n : Nat) (c : Compl) (i : Nat) : (t.setCompletion n c).acc i = t.acc i := by
  simp [Thread.acc]
@[simp] theorem Thread.setCompletion_agenR (t : Thread) (n : Nat) (c : Compl) (i : Nat) : (t.setCompletion n c).agen i = t.agen i := by
  simp [Thread.agen]
@[simp] theorem Thread.setCompletion_xarOfR (t : Thread) (n : Nat) (c : Compl) (i : Nat) : (t.setCompletion n c).xarOf i = t.xarOf i := by
  simp [Thread.xarOf]
@[simp] theorem Thread.setZN_state (t : Thread) (z n : Bool) : (t.setZN z n).state = t.state := rfl
@[simp] theorem Thread.setZN_wait (t : Thread) (z n : Bool) : (t.setZN z n).wait = t.wait := rfl
@[simp] theorem Thread.setZN_row (t : Thread) (z n : Bool) : (t.setZN z n).row = t.row := rfl
@[simp] theorem Thread.setZN_borrowed (t : Thread) (z n : Bool) : (t.setZN z n).borrowed = t.borrowed := rfl
@[simp] theorem Thread.setZN_parent (t : Thread) (z n : Bool) : (t.setZN z n).parent = t.parent := rfl
@[simp] theorem Thread.setZN_cause (t : Thread) (z n : Bool) : (t.setZN z n).cause = t.cause := rfl
@[simp] theorem Thread.setZN_pc (t : Thread) (z n : Bool) : (t.setZN z n).pc = t.pc := rfl
@[simp] theorem Thread.setZN_g (t : Thread) (z n : Bool) : (t.setZN z n).g = t.g := rfl
@[simp] theorem Thread.setZN_a (t : Thread) (z n : Bool) : (t.setZN z n).a = t.a := rfl
@[simp] theorem Thread.setZN_ag (t : Thread) (z n : Bool) : (t.setZN z n).ag = t.ag := rfl
@[simp] theorem Thread.setZN_etsr (t : Thread) (z n : Bool) : (t.setZN z n).etsr = t.etsr := rfl
@[simp] theorem Thread.setZN_epc (t : Thread) (z n : Bool) : (t.setZN z n).epc = t.epc := rfl
@[simp] theorem Thread.setZN_ecause (t : Thread) (z n : Bool) : (t.setZN z n).ecause = t.ecause := rfl
@[simp] theorem Thread.setZN_eval (t : Thread) (z n : Bool) : (t.setZN z n).eval = t.eval := rfl
@[simp] theorem Thread.setZN_tsp (t : Thread) (z n : Bool) : (t.setZN z n).tsp = t.tsp := rfl
@[simp] theorem Thread.setZN_rtvec (t : Thread) (z n : Bool) : (t.setZN z n).rtvec = t.rtvec := rfl
@[simp] theorem Thread.setZN_rstk (t : Thread) (z n : Bool) : (t.setZN z n).rstk = t.rstk := rfl
@[simp] theorem Thread.setZN_rsTop (t : Thread) (z n : Bool) : (t.setZN z n).rsTop = t.rsTop := rfl
@[simp] theorem Thread.setZN_rsWrapped (t : Thread) (z n : Bool) : (t.setZN z n).rsWrapped = t.rsWrapped := rfl
@[simp] theorem Thread.setZN_xar (t : Thread) (z n : Bool) : (t.setZN z n).xar = t.xar := rfl
@[simp] theorem Thread.setZN_tpri (t : Thread) (z n : Bool) : (t.setZN z n).tpri = t.tpri := rfl
@[simp] theorem Thread.setZN_tevt (t : Thread) (z n : Bool) : (t.setZN z n).tevt = t.tevt := rfl
@[simp] theorem Thread.setZN_tcmp (t : Thread) (z n : Bool) : (t.setZN z n).tcmp = t.tcmp := rfl
@[simp] theorem Thread.setZN_haltq (t : Thread) (z n : Bool) : (t.setZN z n).haltq = t.haltq := rfl
@[simp] theorem Thread.setZN_haltOvf (t : Thread) (z n : Bool) : (t.setZN z n).haltOvf = t.haltOvf := rfl
@[simp] theorem Thread.setZN_compl (t : Thread) (z n : Bool) : (t.setZN z n).compl = t.compl := rfl

@[simp] theorem Thread.setZN_grR (t : Thread) (z n : Bool) (i : Nat) : (t.setZN z n).gr i = t.gr i := by
  simp [Thread.gr]
@[simp] theorem Thread.setZN_accR (t : Thread) (z n : Bool) (i : Nat) : (t.setZN z n).acc i = t.acc i := by
  simp [Thread.acc]
@[simp] theorem Thread.setZN_agenR (t : Thread) (z n : Bool) (i : Nat) : (t.setZN z n).agen i = t.agen i := by
  simp [Thread.agen]
@[simp] theorem Thread.setZN_completionR (t : Thread) (z n : Bool) (i : Nat) : (t.setZN z n).completion i = t.completion i := by
  simp [Thread.completion]
@[simp] theorem Thread.setZN_xarOfR (t : Thread) (z n : Bool) (i : Nat) : (t.setZN z n).xarOf i = t.xarOf i := by
  simp [Thread.xarOf]
@[simp] theorem Thread.setZNCV_state (t : Thread) (z n c v : Bool) : (t.setZNCV z n c v).state = t.state := rfl
@[simp] theorem Thread.setZNCV_wait (t : Thread) (z n c v : Bool) : (t.setZNCV z n c v).wait = t.wait := rfl
@[simp] theorem Thread.setZNCV_row (t : Thread) (z n c v : Bool) : (t.setZNCV z n c v).row = t.row := rfl
@[simp] theorem Thread.setZNCV_borrowed (t : Thread) (z n c v : Bool) : (t.setZNCV z n c v).borrowed = t.borrowed := rfl
@[simp] theorem Thread.setZNCV_parent (t : Thread) (z n c v : Bool) : (t.setZNCV z n c v).parent = t.parent := rfl
@[simp] theorem Thread.setZNCV_cause (t : Thread) (z n c v : Bool) : (t.setZNCV z n c v).cause = t.cause := rfl
@[simp] theorem Thread.setZNCV_pc (t : Thread) (z n c v : Bool) : (t.setZNCV z n c v).pc = t.pc := rfl
@[simp] theorem Thread.setZNCV_g (t : Thread) (z n c v : Bool) : (t.setZNCV z n c v).g = t.g := rfl
@[simp] theorem Thread.setZNCV_a (t : Thread) (z n c v : Bool) : (t.setZNCV z n c v).a = t.a := rfl
@[simp] theorem Thread.setZNCV_ag (t : Thread) (z n c v : Bool) : (t.setZNCV z n c v).ag = t.ag := rfl
@[simp] theorem Thread.setZNCV_etsr (t : Thread) (z n c v : Bool) : (t.setZNCV z n c v).etsr = t.etsr := rfl
@[simp] theorem Thread.setZNCV_epc (t : Thread) (z n c v : Bool) : (t.setZNCV z n c v).epc = t.epc := rfl
@[simp] theorem Thread.setZNCV_ecause (t : Thread) (z n c v : Bool) : (t.setZNCV z n c v).ecause = t.ecause := rfl
@[simp] theorem Thread.setZNCV_eval (t : Thread) (z n c v : Bool) : (t.setZNCV z n c v).eval = t.eval := rfl
@[simp] theorem Thread.setZNCV_tsp (t : Thread) (z n c v : Bool) : (t.setZNCV z n c v).tsp = t.tsp := rfl
@[simp] theorem Thread.setZNCV_rtvec (t : Thread) (z n c v : Bool) : (t.setZNCV z n c v).rtvec = t.rtvec := rfl
@[simp] theorem Thread.setZNCV_rstk (t : Thread) (z n c v : Bool) : (t.setZNCV z n c v).rstk = t.rstk := rfl
@[simp] theorem Thread.setZNCV_rsTop (t : Thread) (z n c v : Bool) : (t.setZNCV z n c v).rsTop = t.rsTop := rfl
@[simp] theorem Thread.setZNCV_rsWrapped (t : Thread) (z n c v : Bool) : (t.setZNCV z n c v).rsWrapped = t.rsWrapped := rfl
@[simp] theorem Thread.setZNCV_xar (t : Thread) (z n c v : Bool) : (t.setZNCV z n c v).xar = t.xar := rfl
@[simp] theorem Thread.setZNCV_tpri (t : Thread) (z n c v : Bool) : (t.setZNCV z n c v).tpri = t.tpri := rfl
@[simp] theorem Thread.setZNCV_tevt (t : Thread) (z n c v : Bool) : (t.setZNCV z n c v).tevt = t.tevt := rfl
@[simp] theorem Thread.setZNCV_tcmp (t : Thread) (z n c v : Bool) : (t.setZNCV z n c v).tcmp = t.tcmp := rfl
@[simp] theorem Thread.setZNCV_haltq (t : Thread) (z n c v : Bool) : (t.setZNCV z n c v).haltq = t.haltq := rfl
@[simp] theorem Thread.setZNCV_haltOvf (t : Thread) (z n c v : Bool) : (t.setZNCV z n c v).haltOvf = t.haltOvf := rfl
@[simp] theorem Thread.setZNCV_compl (t : Thread) (z n c v : Bool) : (t.setZNCV z n c v).compl = t.compl := rfl

@[simp] theorem Thread.setZNCV_grR (t : Thread) (z n c v : Bool) (i : Nat) : (t.setZNCV z n c v).gr i = t.gr i := by
  simp [Thread.gr]
@[simp] theorem Thread.setZNCV_accR (t : Thread) (z n c v : Bool) (i : Nat) : (t.setZNCV z n c v).acc i = t.acc i := by
  simp [Thread.acc]
@[simp] theorem Thread.setZNCV_agenR (t : Thread) (z n c v : Bool) (i : Nat) : (t.setZNCV z n c v).agen i = t.agen i := by
  simp [Thread.agen]
@[simp] theorem Thread.setZNCV_completionR (t : Thread) (z n c v : Bool) (i : Nat) : (t.setZNCV z n c v).completion i = t.completion i := by
  simp [Thread.completion]
@[simp] theorem Thread.setZNCV_xarOfR (t : Thread) (z n c v : Bool) (i : Nat) : (t.setZNCV z n c v).xarOf i = t.xarOf i := by
  simp [Thread.xarOf]
@[simp] theorem Thread.flagsZN_state (t : Thread) (v : Word) : (t.flagsZN v).state = t.state := rfl
@[simp] theorem Thread.flagsZN_wait (t : Thread) (v : Word) : (t.flagsZN v).wait = t.wait := rfl
@[simp] theorem Thread.flagsZN_row (t : Thread) (v : Word) : (t.flagsZN v).row = t.row := rfl
@[simp] theorem Thread.flagsZN_borrowed (t : Thread) (v : Word) : (t.flagsZN v).borrowed = t.borrowed := rfl
@[simp] theorem Thread.flagsZN_parent (t : Thread) (v : Word) : (t.flagsZN v).parent = t.parent := rfl
@[simp] theorem Thread.flagsZN_cause (t : Thread) (v : Word) : (t.flagsZN v).cause = t.cause := rfl
@[simp] theorem Thread.flagsZN_pc (t : Thread) (v : Word) : (t.flagsZN v).pc = t.pc := rfl
@[simp] theorem Thread.flagsZN_g (t : Thread) (v : Word) : (t.flagsZN v).g = t.g := rfl
@[simp] theorem Thread.flagsZN_a (t : Thread) (v : Word) : (t.flagsZN v).a = t.a := rfl
@[simp] theorem Thread.flagsZN_ag (t : Thread) (v : Word) : (t.flagsZN v).ag = t.ag := rfl
@[simp] theorem Thread.flagsZN_etsr (t : Thread) (v : Word) : (t.flagsZN v).etsr = t.etsr := rfl
@[simp] theorem Thread.flagsZN_epc (t : Thread) (v : Word) : (t.flagsZN v).epc = t.epc := rfl
@[simp] theorem Thread.flagsZN_ecause (t : Thread) (v : Word) : (t.flagsZN v).ecause = t.ecause := rfl
@[simp] theorem Thread.flagsZN_eval (t : Thread) (v : Word) : (t.flagsZN v).eval = t.eval := rfl
@[simp] theorem Thread.flagsZN_tsp (t : Thread) (v : Word) : (t.flagsZN v).tsp = t.tsp := rfl
@[simp] theorem Thread.flagsZN_rtvec (t : Thread) (v : Word) : (t.flagsZN v).rtvec = t.rtvec := rfl
@[simp] theorem Thread.flagsZN_rstk (t : Thread) (v : Word) : (t.flagsZN v).rstk = t.rstk := rfl
@[simp] theorem Thread.flagsZN_rsTop (t : Thread) (v : Word) : (t.flagsZN v).rsTop = t.rsTop := rfl
@[simp] theorem Thread.flagsZN_rsWrapped (t : Thread) (v : Word) : (t.flagsZN v).rsWrapped = t.rsWrapped := rfl
@[simp] theorem Thread.flagsZN_xar (t : Thread) (v : Word) : (t.flagsZN v).xar = t.xar := rfl
@[simp] theorem Thread.flagsZN_tpri (t : Thread) (v : Word) : (t.flagsZN v).tpri = t.tpri := rfl
@[simp] theorem Thread.flagsZN_tevt (t : Thread) (v : Word) : (t.flagsZN v).tevt = t.tevt := rfl
@[simp] theorem Thread.flagsZN_tcmp (t : Thread) (v : Word) : (t.flagsZN v).tcmp = t.tcmp := rfl
@[simp] theorem Thread.flagsZN_haltq (t : Thread) (v : Word) : (t.flagsZN v).haltq = t.haltq := rfl
@[simp] theorem Thread.flagsZN_haltOvf (t : Thread) (v : Word) : (t.flagsZN v).haltOvf = t.haltOvf := rfl
@[simp] theorem Thread.flagsZN_compl (t : Thread) (v : Word) : (t.flagsZN v).compl = t.compl := rfl

@[simp] theorem Thread.flagsZN_grR (t : Thread) (v : Word) (i : Nat) : (t.flagsZN v).gr i = t.gr i := by
  simp [Thread.gr]
@[simp] theorem Thread.flagsZN_accR (t : Thread) (v : Word) (i : Nat) : (t.flagsZN v).acc i = t.acc i := by
  simp [Thread.acc]
@[simp] theorem Thread.flagsZN_agenR (t : Thread) (v : Word) (i : Nat) : (t.flagsZN v).agen i = t.agen i := by
  simp [Thread.agen]
@[simp] theorem Thread.flagsZN_completionR (t : Thread) (v : Word) (i : Nat) : (t.flagsZN v).completion i = t.completion i := by
  simp [Thread.completion]
@[simp] theorem Thread.flagsZN_xarOfR (t : Thread) (v : Word) (i : Nat) : (t.flagsZN v).xarOf i = t.xarOf i := by
  simp [Thread.xarOf]
@[simp] theorem Thread.noteSat_state (t : Thread) (b : Bool) : (t.noteSat b).state = t.state := by
  unfold Thread.noteSat; split <;> rfl
@[simp] theorem Thread.noteSat_wait (t : Thread) (b : Bool) : (t.noteSat b).wait = t.wait := by
  unfold Thread.noteSat; split <;> rfl
@[simp] theorem Thread.noteSat_row (t : Thread) (b : Bool) : (t.noteSat b).row = t.row := by
  unfold Thread.noteSat; split <;> rfl
@[simp] theorem Thread.noteSat_borrowed (t : Thread) (b : Bool) : (t.noteSat b).borrowed = t.borrowed := by
  unfold Thread.noteSat; split <;> rfl
@[simp] theorem Thread.noteSat_parent (t : Thread) (b : Bool) : (t.noteSat b).parent = t.parent := by
  unfold Thread.noteSat; split <;> rfl
@[simp] theorem Thread.noteSat_cause (t : Thread) (b : Bool) : (t.noteSat b).cause = t.cause := by
  unfold Thread.noteSat; split <;> rfl
@[simp] theorem Thread.noteSat_pc (t : Thread) (b : Bool) : (t.noteSat b).pc = t.pc := by
  unfold Thread.noteSat; split <;> rfl
@[simp] theorem Thread.noteSat_g (t : Thread) (b : Bool) : (t.noteSat b).g = t.g := by
  unfold Thread.noteSat; split <;> rfl
@[simp] theorem Thread.noteSat_a (t : Thread) (b : Bool) : (t.noteSat b).a = t.a := by
  unfold Thread.noteSat; split <;> rfl
@[simp] theorem Thread.noteSat_ag (t : Thread) (b : Bool) : (t.noteSat b).ag = t.ag := by
  unfold Thread.noteSat; split <;> rfl
@[simp] theorem Thread.noteSat_etsr (t : Thread) (b : Bool) : (t.noteSat b).etsr = t.etsr := by
  unfold Thread.noteSat; split <;> rfl
@[simp] theorem Thread.noteSat_epc (t : Thread) (b : Bool) : (t.noteSat b).epc = t.epc := by
  unfold Thread.noteSat; split <;> rfl
@[simp] theorem Thread.noteSat_ecause (t : Thread) (b : Bool) : (t.noteSat b).ecause = t.ecause := by
  unfold Thread.noteSat; split <;> rfl
@[simp] theorem Thread.noteSat_eval (t : Thread) (b : Bool) : (t.noteSat b).eval = t.eval := by
  unfold Thread.noteSat; split <;> rfl
@[simp] theorem Thread.noteSat_tsp (t : Thread) (b : Bool) : (t.noteSat b).tsp = t.tsp := by
  unfold Thread.noteSat; split <;> rfl
@[simp] theorem Thread.noteSat_rtvec (t : Thread) (b : Bool) : (t.noteSat b).rtvec = t.rtvec := by
  unfold Thread.noteSat; split <;> rfl
@[simp] theorem Thread.noteSat_rstk (t : Thread) (b : Bool) : (t.noteSat b).rstk = t.rstk := by
  unfold Thread.noteSat; split <;> rfl
@[simp] theorem Thread.noteSat_rsTop (t : Thread) (b : Bool) : (t.noteSat b).rsTop = t.rsTop := by
  unfold Thread.noteSat; split <;> rfl
@[simp] theorem Thread.noteSat_rsWrapped (t : Thread) (b : Bool) : (t.noteSat b).rsWrapped = t.rsWrapped := by
  unfold Thread.noteSat; split <;> rfl
@[simp] theorem Thread.noteSat_xar (t : Thread) (b : Bool) : (t.noteSat b).xar = t.xar := by
  unfold Thread.noteSat; split <;> rfl
@[simp] theorem Thread.noteSat_tpri (t : Thread) (b : Bool) : (t.noteSat b).tpri = t.tpri := by
  unfold Thread.noteSat; split <;> rfl
@[simp] theorem Thread.noteSat_tevt (t : Thread) (b : Bool) : (t.noteSat b).tevt = t.tevt := by
  unfold Thread.noteSat; split <;> rfl
@[simp] theorem Thread.noteSat_tcmp (t : Thread) (b : Bool) : (t.noteSat b).tcmp = t.tcmp := by
  unfold Thread.noteSat; split <;> rfl
@[simp] theorem Thread.noteSat_haltq (t : Thread) (b : Bool) : (t.noteSat b).haltq = t.haltq := by
  unfold Thread.noteSat; split <;> rfl
@[simp] theorem Thread.noteSat_haltOvf (t : Thread) (b : Bool) : (t.noteSat b).haltOvf = t.haltOvf := by
  unfold Thread.noteSat; split <;> rfl
@[simp] theorem Thread.noteSat_compl (t : Thread) (b : Bool) : (t.noteSat b).compl = t.compl := by
  unfold Thread.noteSat; split <;> rfl

@[simp] theorem Thread.noteSat_grR (t : Thread) (b : Bool) (i : Nat) : (t.noteSat b).gr i = t.gr i := by
  simp [Thread.gr]
@[simp] theorem Thread.noteSat_accR (t : Thread) (b : Bool) (i : Nat) : (t.noteSat b).acc i = t.acc i := by
  simp [Thread.acc]
@[simp] theorem Thread.noteSat_agenR (t : Thread) (b : Bool) (i : Nat) : (t.noteSat b).agen i = t.agen i := by
  simp [Thread.agen]
@[simp] theorem Thread.noteSat_completionR (t : Thread) (b : Bool) (i : Nat) : (t.noteSat b).completion i = t.completion i := by
  simp [Thread.completion]
@[simp] theorem Thread.noteSat_xarOfR (t : Thread) (b : Bool) (i : Nat) : (t.noteSat b).xarOf i = t.xarOf i := by
  simp [Thread.xarOf]
@[simp] theorem Thread.putSum_state (t : Thread) (rd : Nat) (r : Word × Bool × Bool) : (t.putSum rd r).state = t.state := by
  simp [Thread.putSum]
@[simp] theorem Thread.putSum_wait (t : Thread) (rd : Nat) (r : Word × Bool × Bool) : (t.putSum rd r).wait = t.wait := by
  simp [Thread.putSum]
@[simp] theorem Thread.putSum_row (t : Thread) (rd : Nat) (r : Word × Bool × Bool) : (t.putSum rd r).row = t.row := by
  simp [Thread.putSum]
@[simp] theorem Thread.putSum_borrowed (t : Thread) (rd : Nat) (r : Word × Bool × Bool) : (t.putSum rd r).borrowed = t.borrowed := by
  simp [Thread.putSum]
@[simp] theorem Thread.putSum_parent (t : Thread) (rd : Nat) (r : Word × Bool × Bool) : (t.putSum rd r).parent = t.parent := by
  simp [Thread.putSum]
@[simp] theorem Thread.putSum_cause (t : Thread) (rd : Nat) (r : Word × Bool × Bool) : (t.putSum rd r).cause = t.cause := by
  simp [Thread.putSum]
@[simp] theorem Thread.putSum_pc (t : Thread) (rd : Nat) (r : Word × Bool × Bool) : (t.putSum rd r).pc = t.pc := by
  simp [Thread.putSum]
@[simp] theorem Thread.putSum_a (t : Thread) (rd : Nat) (r : Word × Bool × Bool) : (t.putSum rd r).a = t.a := by
  simp [Thread.putSum]
@[simp] theorem Thread.putSum_ag (t : Thread) (rd : Nat) (r : Word × Bool × Bool) : (t.putSum rd r).ag = t.ag := by
  simp [Thread.putSum]
@[simp] theorem Thread.putSum_etsr (t : Thread) (rd : Nat) (r : Word × Bool × Bool) : (t.putSum rd r).etsr = t.etsr := by
  simp [Thread.putSum]
@[simp] theorem Thread.putSum_epc (t : Thread) (rd : Nat) (r : Word × Bool × Bool) : (t.putSum rd r).epc = t.epc := by
  simp [Thread.putSum]
@[simp] theorem Thread.putSum_ecause (t : Thread) (rd : Nat) (r : Word × Bool × Bool) : (t.putSum rd r).ecause = t.ecause := by
  simp [Thread.putSum]
@[simp] theorem Thread.putSum_eval (t : Thread) (rd : Nat) (r : Word × Bool × Bool) : (t.putSum rd r).eval = t.eval := by
  simp [Thread.putSum]
@[simp] theorem Thread.putSum_tsp (t : Thread) (rd : Nat) (r : Word × Bool × Bool) : (t.putSum rd r).tsp = t.tsp := by
  simp [Thread.putSum]
@[simp] theorem Thread.putSum_rtvec (t : Thread) (rd : Nat) (r : Word × Bool × Bool) : (t.putSum rd r).rtvec = t.rtvec := by
  simp [Thread.putSum]
@[simp] theorem Thread.putSum_rstk (t : Thread) (rd : Nat) (r : Word × Bool × Bool) : (t.putSum rd r).rstk = t.rstk := by
  simp [Thread.putSum]
@[simp] theorem Thread.putSum_rsTop (t : Thread) (rd : Nat) (r : Word × Bool × Bool) : (t.putSum rd r).rsTop = t.rsTop := by
  simp [Thread.putSum]
@[simp] theorem Thread.putSum_rsWrapped (t : Thread) (rd : Nat) (r : Word × Bool × Bool) : (t.putSum rd r).rsWrapped = t.rsWrapped := by
  simp [Thread.putSum]
@[simp] theorem Thread.putSum_xar (t : Thread) (rd : Nat) (r : Word × Bool × Bool) : (t.putSum rd r).xar = t.xar := by
  simp [Thread.putSum]
@[simp] theorem Thread.putSum_tpri (t : Thread) (rd : Nat) (r : Word × Bool × Bool) : (t.putSum rd r).tpri = t.tpri := by
  simp [Thread.putSum]
@[simp] theorem Thread.putSum_tevt (t : Thread) (rd : Nat) (r : Word × Bool × Bool) : (t.putSum rd r).tevt = t.tevt := by
  simp [Thread.putSum]
@[simp] theorem Thread.putSum_tcmp (t : Thread) (rd : Nat) (r : Word × Bool × Bool) : (t.putSum rd r).tcmp = t.tcmp := by
  simp [Thread.putSum]
@[simp] theorem Thread.putSum_haltq (t : Thread) (rd : Nat) (r : Word × Bool × Bool) : (t.putSum rd r).haltq = t.haltq := by
  simp [Thread.putSum]
@[simp] theorem Thread.putSum_haltOvf (t : Thread) (rd : Nat) (r : Word × Bool × Bool) : (t.putSum rd r).haltOvf = t.haltOvf := by
  simp [Thread.putSum]
@[simp] theorem Thread.putSum_compl (t : Thread) (rd : Nat) (r : Word × Bool × Bool) : (t.putSum rd r).compl = t.compl := by
  simp [Thread.putSum]

@[simp] theorem Thread.putSum_accR (t : Thread) (rd : Nat) (r : Word × Bool × Bool) (i : Nat) : (t.putSum rd r).acc i = t.acc i := by
  simp [Thread.acc]
@[simp] theorem Thread.putSum_agenR (t : Thread) (rd : Nat) (r : Word × Bool × Bool) (i : Nat) : (t.putSum rd r).agen i = t.agen i := by
  simp [Thread.agen]
@[simp] theorem Thread.putSum_completionR (t : Thread) (rd : Nat) (r : Word × Bool × Bool) (i : Nat) : (t.putSum rd r).completion i = t.completion i := by
  simp [Thread.completion]
@[simp] theorem Thread.putSum_xarOfR (t : Thread) (rd : Nat) (r : Word × Bool × Bool) (i : Nat) : (t.putSum rd r).xarOf i = t.xarOf i := by
  simp [Thread.xarOf]
@[simp] theorem Thread.putZN_state (t : Thread) (rd : Nat) (r : Word) : (t.putZN rd r).state = t.state := by
  simp [Thread.putZN]
@[simp] theorem Thread.putZN_wait (t : Thread) (rd : Nat) (r : Word) : (t.putZN rd r).wait = t.wait := by
  simp [Thread.putZN]
@[simp] theorem Thread.putZN_row (t : Thread) (rd : Nat) (r : Word) : (t.putZN rd r).row = t.row := by
  simp [Thread.putZN]
@[simp] theorem Thread.putZN_borrowed (t : Thread) (rd : Nat) (r : Word) : (t.putZN rd r).borrowed = t.borrowed := by
  simp [Thread.putZN]
@[simp] theorem Thread.putZN_parent (t : Thread) (rd : Nat) (r : Word) : (t.putZN rd r).parent = t.parent := by
  simp [Thread.putZN]
@[simp] theorem Thread.putZN_cause (t : Thread) (rd : Nat) (r : Word) : (t.putZN rd r).cause = t.cause := by
  simp [Thread.putZN]
@[simp] theorem Thread.putZN_pc (t : Thread) (rd : Nat) (r : Word) : (t.putZN rd r).pc = t.pc := by
  simp [Thread.putZN]
@[simp] theorem Thread.putZN_a (t : Thread) (rd : Nat) (r : Word) : (t.putZN rd r).a = t.a := by
  simp [Thread.putZN]
@[simp] theorem Thread.putZN_ag (t : Thread) (rd : Nat) (r : Word) : (t.putZN rd r).ag = t.ag := by
  simp [Thread.putZN]
@[simp] theorem Thread.putZN_etsr (t : Thread) (rd : Nat) (r : Word) : (t.putZN rd r).etsr = t.etsr := by
  simp [Thread.putZN]
@[simp] theorem Thread.putZN_epc (t : Thread) (rd : Nat) (r : Word) : (t.putZN rd r).epc = t.epc := by
  simp [Thread.putZN]
@[simp] theorem Thread.putZN_ecause (t : Thread) (rd : Nat) (r : Word) : (t.putZN rd r).ecause = t.ecause := by
  simp [Thread.putZN]
@[simp] theorem Thread.putZN_eval (t : Thread) (rd : Nat) (r : Word) : (t.putZN rd r).eval = t.eval := by
  simp [Thread.putZN]
@[simp] theorem Thread.putZN_tsp (t : Thread) (rd : Nat) (r : Word) : (t.putZN rd r).tsp = t.tsp := by
  simp [Thread.putZN]
@[simp] theorem Thread.putZN_rtvec (t : Thread) (rd : Nat) (r : Word) : (t.putZN rd r).rtvec = t.rtvec := by
  simp [Thread.putZN]
@[simp] theorem Thread.putZN_rstk (t : Thread) (rd : Nat) (r : Word) : (t.putZN rd r).rstk = t.rstk := by
  simp [Thread.putZN]
@[simp] theorem Thread.putZN_rsTop (t : Thread) (rd : Nat) (r : Word) : (t.putZN rd r).rsTop = t.rsTop := by
  simp [Thread.putZN]
@[simp] theorem Thread.putZN_rsWrapped (t : Thread) (rd : Nat) (r : Word) : (t.putZN rd r).rsWrapped = t.rsWrapped := by
  simp [Thread.putZN]
@[simp] theorem Thread.putZN_xar (t : Thread) (rd : Nat) (r : Word) : (t.putZN rd r).xar = t.xar := by
  simp [Thread.putZN]
@[simp] theorem Thread.putZN_tpri (t : Thread) (rd : Nat) (r : Word) : (t.putZN rd r).tpri = t.tpri := by
  simp [Thread.putZN]
@[simp] theorem Thread.putZN_tevt (t : Thread) (rd : Nat) (r : Word) : (t.putZN rd r).tevt = t.tevt := by
  simp [Thread.putZN]
@[simp] theorem Thread.putZN_tcmp (t : Thread) (rd : Nat) (r : Word) : (t.putZN rd r).tcmp = t.tcmp := by
  simp [Thread.putZN]
@[simp] theorem Thread.putZN_haltq (t : Thread) (rd : Nat) (r : Word) : (t.putZN rd r).haltq = t.haltq := by
  simp [Thread.putZN]
@[simp] theorem Thread.putZN_haltOvf (t : Thread) (rd : Nat) (r : Word) : (t.putZN rd r).haltOvf = t.haltOvf := by
  simp [Thread.putZN]
@[simp] theorem Thread.putZN_compl (t : Thread) (rd : Nat) (r : Word) : (t.putZN rd r).compl = t.compl := by
  simp [Thread.putZN]

@[simp] theorem Thread.putZN_accR (t : Thread) (rd : Nat) (r : Word) (i : Nat) : (t.putZN rd r).acc i = t.acc i := by
  simp [Thread.acc]
@[simp] theorem Thread.putZN_agenR (t : Thread) (rd : Nat) (r : Word) (i : Nat) : (t.putZN rd r).agen i = t.agen i := by
  simp [Thread.agen]
@[simp] theorem Thread.putZN_completionR (t : Thread) (rd : Nat) (r : Word) (i : Nat) : (t.putZN rd r).completion i = t.completion i := by
  simp [Thread.completion]
@[simp] theorem Thread.putZN_xarOfR (t : Thread) (rd : Nat) (r : Word) (i : Nat) : (t.putZN rd r).xarOf i = t.xarOf i := by
  simp [Thread.xarOf]
@[simp] theorem Thread.putAcc_state (t : Thread) (ad : Nat) (x : Int) (c : Bool) : (t.putAcc ad x c).state = t.state := by
  simp [Thread.putAcc]
@[simp] theorem Thread.putAcc_wait (t : Thread) (ad : Nat) (x : Int) (c : Bool) : (t.putAcc ad x c).wait = t.wait := by
  simp [Thread.putAcc]
@[simp] theorem Thread.putAcc_row (t : Thread) (ad : Nat) (x : Int) (c : Bool) : (t.putAcc ad x c).row = t.row := by
  simp [Thread.putAcc]
@[simp] theorem Thread.putAcc_borrowed (t : Thread) (ad : Nat) (x : Int) (c : Bool) : (t.putAcc ad x c).borrowed = t.borrowed := by
  simp [Thread.putAcc]
@[simp] theorem Thread.putAcc_parent (t : Thread) (ad : Nat) (x : Int) (c : Bool) : (t.putAcc ad x c).parent = t.parent := by
  simp [Thread.putAcc]
@[simp] theorem Thread.putAcc_cause (t : Thread) (ad : Nat) (x : Int) (c : Bool) : (t.putAcc ad x c).cause = t.cause := by
  simp [Thread.putAcc]
@[simp] theorem Thread.putAcc_pc (t : Thread) (ad : Nat) (x : Int) (c : Bool) : (t.putAcc ad x c).pc = t.pc := by
  simp [Thread.putAcc]
@[simp] theorem Thread.putAcc_g (t : Thread) (ad : Nat) (x : Int) (c : Bool) : (t.putAcc ad x c).g = t.g := by
  simp [Thread.putAcc]
@[simp] theorem Thread.putAcc_ag (t : Thread) (ad : Nat) (x : Int) (c : Bool) : (t.putAcc ad x c).ag = t.ag := by
  simp [Thread.putAcc]
@[simp] theorem Thread.putAcc_etsr (t : Thread) (ad : Nat) (x : Int) (c : Bool) : (t.putAcc ad x c).etsr = t.etsr := by
  simp [Thread.putAcc]
@[simp] theorem Thread.putAcc_epc (t : Thread) (ad : Nat) (x : Int) (c : Bool) : (t.putAcc ad x c).epc = t.epc := by
  simp [Thread.putAcc]
@[simp] theorem Thread.putAcc_ecause (t : Thread) (ad : Nat) (x : Int) (c : Bool) : (t.putAcc ad x c).ecause = t.ecause := by
  simp [Thread.putAcc]
@[simp] theorem Thread.putAcc_eval (t : Thread) (ad : Nat) (x : Int) (c : Bool) : (t.putAcc ad x c).eval = t.eval := by
  simp [Thread.putAcc]
@[simp] theorem Thread.putAcc_tsp (t : Thread) (ad : Nat) (x : Int) (c : Bool) : (t.putAcc ad x c).tsp = t.tsp := by
  simp [Thread.putAcc]
@[simp] theorem Thread.putAcc_rtvec (t : Thread) (ad : Nat) (x : Int) (c : Bool) : (t.putAcc ad x c).rtvec = t.rtvec := by
  simp [Thread.putAcc]
@[simp] theorem Thread.putAcc_rstk (t : Thread) (ad : Nat) (x : Int) (c : Bool) : (t.putAcc ad x c).rstk = t.rstk := by
  simp [Thread.putAcc]
@[simp] theorem Thread.putAcc_rsTop (t : Thread) (ad : Nat) (x : Int) (c : Bool) : (t.putAcc ad x c).rsTop = t.rsTop := by
  simp [Thread.putAcc]
@[simp] theorem Thread.putAcc_rsWrapped (t : Thread) (ad : Nat) (x : Int) (c : Bool) : (t.putAcc ad x c).rsWrapped = t.rsWrapped := by
  simp [Thread.putAcc]
@[simp] theorem Thread.putAcc_xar (t : Thread) (ad : Nat) (x : Int) (c : Bool) : (t.putAcc ad x c).xar = t.xar := by
  simp [Thread.putAcc]
@[simp] theorem Thread.putAcc_tpri (t : Thread) (ad : Nat) (x : Int) (c : Bool) : (t.putAcc ad x c).tpri = t.tpri := by
  simp [Thread.putAcc]
@[simp] theorem Thread.putAcc_tevt (t : Thread) (ad : Nat) (x : Int) (c : Bool) : (t.putAcc ad x c).tevt = t.tevt := by
  simp [Thread.putAcc]
@[simp] theorem Thread.putAcc_tcmp (t : Thread) (ad : Nat) (x : Int) (c : Bool) : (t.putAcc ad x c).tcmp = t.tcmp := by
  simp [Thread.putAcc]
@[simp] theorem Thread.putAcc_haltq (t : Thread) (ad : Nat) (x : Int) (c : Bool) : (t.putAcc ad x c).haltq = t.haltq := by
  simp [Thread.putAcc]
@[simp] theorem Thread.putAcc_haltOvf (t : Thread) (ad : Nat) (x : Int) (c : Bool) : (t.putAcc ad x c).haltOvf = t.haltOvf := by
  simp [Thread.putAcc]
@[simp] theorem Thread.putAcc_compl (t : Thread) (ad : Nat) (x : Int) (c : Bool) : (t.putAcc ad x c).compl = t.compl := by
  simp [Thread.putAcc]

@[simp] theorem Thread.putAcc_grR (t : Thread) (ad : Nat) (x : Int) (c : Bool) (i : Nat) : (t.putAcc ad x c).gr i = t.gr i := by
  simp [Thread.gr]
@[simp] theorem Thread.putAcc_agenR (t : Thread) (ad : Nat) (x : Int) (c : Bool) (i : Nat) : (t.putAcc ad x c).agen i = t.agen i := by
  simp [Thread.agen]
@[simp] theorem Thread.putAcc_completionR (t : Thread) (ad : Nat) (x : Int) (c : Bool) (i : Nat) : (t.putAcc ad x c).completion i = t.completion i := by
  simp [Thread.completion]
@[simp] theorem Thread.putAcc_xarOfR (t : Thread) (ad : Nat) (x : Int) (c : Bool) (i : Nat) : (t.putAcc ad x c).xarOf i = t.xarOf i := by
  simp [Thread.xarOf]
@[simp] theorem Thread.putFrac_state (t : Thread) (rd : Nat) (x : Int) (c : Bool) : (t.putFrac rd x c).state = t.state := by
  simp [Thread.putFrac]
@[simp] theorem Thread.putFrac_wait (t : Thread) (rd : Nat) (x : Int) (c : Bool) : (t.putFrac rd x c).wait = t.wait := by
  simp [Thread.putFrac]
@[simp] theorem Thread.putFrac_row (t : Thread) (rd : Nat) (x : Int) (c : Bool) : (t.putFrac rd x c).row = t.row := by
  simp [Thread.putFrac]
@[simp] theorem Thread.putFrac_borrowed (t : Thread) (rd : Nat) (x : Int) (c : Bool) : (t.putFrac rd x c).borrowed = t.borrowed := by
  simp [Thread.putFrac]
@[simp] theorem Thread.putFrac_parent (t : Thread) (rd : Nat) (x : Int) (c : Bool) : (t.putFrac rd x c).parent = t.parent := by
  simp [Thread.putFrac]
@[simp] theorem Thread.putFrac_cause (t : Thread) (rd : Nat) (x : Int) (c : Bool) : (t.putFrac rd x c).cause = t.cause := by
  simp [Thread.putFrac]
@[simp] theorem Thread.putFrac_pc (t : Thread) (rd : Nat) (x : Int) (c : Bool) : (t.putFrac rd x c).pc = t.pc := by
  simp [Thread.putFrac]
@[simp] theorem Thread.putFrac_a (t : Thread) (rd : Nat) (x : Int) (c : Bool) : (t.putFrac rd x c).a = t.a := by
  simp [Thread.putFrac]
@[simp] theorem Thread.putFrac_ag (t : Thread) (rd : Nat) (x : Int) (c : Bool) : (t.putFrac rd x c).ag = t.ag := by
  simp [Thread.putFrac]
@[simp] theorem Thread.putFrac_etsr (t : Thread) (rd : Nat) (x : Int) (c : Bool) : (t.putFrac rd x c).etsr = t.etsr := by
  simp [Thread.putFrac]
@[simp] theorem Thread.putFrac_epc (t : Thread) (rd : Nat) (x : Int) (c : Bool) : (t.putFrac rd x c).epc = t.epc := by
  simp [Thread.putFrac]
@[simp] theorem Thread.putFrac_ecause (t : Thread) (rd : Nat) (x : Int) (c : Bool) : (t.putFrac rd x c).ecause = t.ecause := by
  simp [Thread.putFrac]
@[simp] theorem Thread.putFrac_eval (t : Thread) (rd : Nat) (x : Int) (c : Bool) : (t.putFrac rd x c).eval = t.eval := by
  simp [Thread.putFrac]
@[simp] theorem Thread.putFrac_tsp (t : Thread) (rd : Nat) (x : Int) (c : Bool) : (t.putFrac rd x c).tsp = t.tsp := by
  simp [Thread.putFrac]
@[simp] theorem Thread.putFrac_rtvec (t : Thread) (rd : Nat) (x : Int) (c : Bool) : (t.putFrac rd x c).rtvec = t.rtvec := by
  simp [Thread.putFrac]
@[simp] theorem Thread.putFrac_rstk (t : Thread) (rd : Nat) (x : Int) (c : Bool) : (t.putFrac rd x c).rstk = t.rstk := by
  simp [Thread.putFrac]
@[simp] theorem Thread.putFrac_rsTop (t : Thread) (rd : Nat) (x : Int) (c : Bool) : (t.putFrac rd x c).rsTop = t.rsTop := by
  simp [Thread.putFrac]
@[simp] theorem Thread.putFrac_rsWrapped (t : Thread) (rd : Nat) (x : Int) (c : Bool) : (t.putFrac rd x c).rsWrapped = t.rsWrapped := by
  simp [Thread.putFrac]
@[simp] theorem Thread.putFrac_xar (t : Thread) (rd : Nat) (x : Int) (c : Bool) : (t.putFrac rd x c).xar = t.xar := by
  simp [Thread.putFrac]
@[simp] theorem Thread.putFrac_tpri (t : Thread) (rd : Nat) (x : Int) (c : Bool) : (t.putFrac rd x c).tpri = t.tpri := by
  simp [Thread.putFrac]
@[simp] theorem Thread.putFrac_tevt (t : Thread) (rd : Nat) (x : Int) (c : Bool) : (t.putFrac rd x c).tevt = t.tevt := by
  simp [Thread.putFrac]
@[simp] theorem Thread.putFrac_tcmp (t : Thread) (rd : Nat) (x : Int) (c : Bool) : (t.putFrac rd x c).tcmp = t.tcmp := by
  simp [Thread.putFrac]
@[simp] theorem Thread.putFrac_haltq (t : Thread) (rd : Nat) (x : Int) (c : Bool) : (t.putFrac rd x c).haltq = t.haltq := by
  simp [Thread.putFrac]
@[simp] theorem Thread.putFrac_haltOvf (t : Thread) (rd : Nat) (x : Int) (c : Bool) : (t.putFrac rd x c).haltOvf = t.haltOvf := by
  simp [Thread.putFrac]
@[simp] theorem Thread.putFrac_compl (t : Thread) (rd : Nat) (x : Int) (c : Bool) : (t.putFrac rd x c).compl = t.compl := by
  simp [Thread.putFrac]

@[simp] theorem Thread.putFrac_accR (t : Thread) (rd : Nat) (x : Int) (c : Bool) (i : Nat) : (t.putFrac rd x c).acc i = t.acc i := by
  simp [Thread.acc]
@[simp] theorem Thread.putFrac_agenR (t : Thread) (rd : Nat) (x : Int) (c : Bool) (i : Nat) : (t.putFrac rd x c).agen i = t.agen i := by
  simp [Thread.agen]
@[simp] theorem Thread.putFrac_completionR (t : Thread) (rd : Nat) (x : Int) (c : Bool) (i : Nat) : (t.putFrac rd x c).completion i = t.completion i := by
  simp [Thread.completion]
@[simp] theorem Thread.putFrac_xarOfR (t : Thread) (rd : Nat) (x : Int) (c : Bool) (i : Nat) : (t.putFrac rd x c).xarOf i = t.xarOf i := by
  simp [Thread.xarOf]
@[simp] theorem Thread.takeCompl_state (t : Thread) (rd cn : Nat) (w : Word) : (t.takeCompl rd cn w).state = t.state := by
  simp [Thread.takeCompl]
@[simp] theorem Thread.takeCompl_wait (t : Thread) (rd cn : Nat) (w : Word) : (t.takeCompl rd cn w).wait = t.wait := by
  simp [Thread.takeCompl]
@[simp] theorem Thread.takeCompl_row (t : Thread) (rd cn : Nat) (w : Word) : (t.takeCompl rd cn w).row = t.row := by
  simp [Thread.takeCompl]
@[simp] theorem Thread.takeCompl_borrowed (t : Thread) (rd cn : Nat) (w : Word) : (t.takeCompl rd cn w).borrowed = t.borrowed := by
  simp [Thread.takeCompl]
@[simp] theorem Thread.takeCompl_parent (t : Thread) (rd cn : Nat) (w : Word) : (t.takeCompl rd cn w).parent = t.parent := by
  simp [Thread.takeCompl]
@[simp] theorem Thread.takeCompl_cause (t : Thread) (rd cn : Nat) (w : Word) : (t.takeCompl rd cn w).cause = t.cause := by
  simp [Thread.takeCompl]
@[simp] theorem Thread.takeCompl_pc (t : Thread) (rd cn : Nat) (w : Word) : (t.takeCompl rd cn w).pc = t.pc := by
  simp [Thread.takeCompl]
@[simp] theorem Thread.takeCompl_a (t : Thread) (rd cn : Nat) (w : Word) : (t.takeCompl rd cn w).a = t.a := by
  simp [Thread.takeCompl]
@[simp] theorem Thread.takeCompl_ag (t : Thread) (rd cn : Nat) (w : Word) : (t.takeCompl rd cn w).ag = t.ag := by
  simp [Thread.takeCompl]
@[simp] theorem Thread.takeCompl_etsr (t : Thread) (rd cn : Nat) (w : Word) : (t.takeCompl rd cn w).etsr = t.etsr := by
  simp [Thread.takeCompl]
@[simp] theorem Thread.takeCompl_epc (t : Thread) (rd cn : Nat) (w : Word) : (t.takeCompl rd cn w).epc = t.epc := by
  simp [Thread.takeCompl]
@[simp] theorem Thread.takeCompl_ecause (t : Thread) (rd cn : Nat) (w : Word) : (t.takeCompl rd cn w).ecause = t.ecause := by
  simp [Thread.takeCompl]
@[simp] theorem Thread.takeCompl_eval (t : Thread) (rd cn : Nat) (w : Word) : (t.takeCompl rd cn w).eval = t.eval := by
  simp [Thread.takeCompl]
@[simp] theorem Thread.takeCompl_tsp (t : Thread) (rd cn : Nat) (w : Word) : (t.takeCompl rd cn w).tsp = t.tsp := by
  simp [Thread.takeCompl]
@[simp] theorem Thread.takeCompl_rtvec (t : Thread) (rd cn : Nat) (w : Word) : (t.takeCompl rd cn w).rtvec = t.rtvec := by
  simp [Thread.takeCompl]
@[simp] theorem Thread.takeCompl_rstk (t : Thread) (rd cn : Nat) (w : Word) : (t.takeCompl rd cn w).rstk = t.rstk := by
  simp [Thread.takeCompl]
@[simp] theorem Thread.takeCompl_rsTop (t : Thread) (rd cn : Nat) (w : Word) : (t.takeCompl rd cn w).rsTop = t.rsTop := by
  simp [Thread.takeCompl]
@[simp] theorem Thread.takeCompl_rsWrapped (t : Thread) (rd cn : Nat) (w : Word) : (t.takeCompl rd cn w).rsWrapped = t.rsWrapped := by
  simp [Thread.takeCompl]
@[simp] theorem Thread.takeCompl_xar (t : Thread) (rd cn : Nat) (w : Word) : (t.takeCompl rd cn w).xar = t.xar := by
  simp [Thread.takeCompl]
@[simp] theorem Thread.takeCompl_tpri (t : Thread) (rd cn : Nat) (w : Word) : (t.takeCompl rd cn w).tpri = t.tpri := by
  simp [Thread.takeCompl]
@[simp] theorem Thread.takeCompl_tevt (t : Thread) (rd cn : Nat) (w : Word) : (t.takeCompl rd cn w).tevt = t.tevt := by
  simp [Thread.takeCompl]
@[simp] theorem Thread.takeCompl_tcmp (t : Thread) (rd cn : Nat) (w : Word) : (t.takeCompl rd cn w).tcmp = t.tcmp := by
  simp [Thread.takeCompl]
@[simp] theorem Thread.takeCompl_haltq (t : Thread) (rd cn : Nat) (w : Word) : (t.takeCompl rd cn w).haltq = t.haltq := by
  simp [Thread.takeCompl]
@[simp] theorem Thread.takeCompl_haltOvf (t : Thread) (rd cn : Nat) (w : Word) : (t.takeCompl rd cn w).haltOvf = t.haltOvf := by
  simp [Thread.takeCompl]

@[simp] theorem Thread.takeCompl_accR (t : Thread) (rd cn : Nat) (w : Word) (i : Nat) : (t.takeCompl rd cn w).acc i = t.acc i := by
  simp [Thread.acc]
@[simp] theorem Thread.takeCompl_agenR (t : Thread) (rd cn : Nat) (w : Word) (i : Nat) : (t.takeCompl rd cn w).agen i = t.agen i := by
  simp [Thread.agen]
@[simp] theorem Thread.takeCompl_xarOfR (t : Thread) (rd cn : Nat) (w : Word) (i : Nat) : (t.takeCompl rd cn w).xarOf i = t.xarOf i := by
  simp [Thread.xarOf]
@[simp] theorem Thread.pushRet_state (t : Thread) (v : Word) : (t.pushRet v).state = t.state := rfl
@[simp] theorem Thread.pushRet_wait (t : Thread) (v : Word) : (t.pushRet v).wait = t.wait := rfl
@[simp] theorem Thread.pushRet_row (t : Thread) (v : Word) : (t.pushRet v).row = t.row := rfl
@[simp] theorem Thread.pushRet_borrowed (t : Thread) (v : Word) : (t.pushRet v).borrowed = t.borrowed := rfl
@[simp] theorem Thread.pushRet_parent (t : Thread) (v : Word) : (t.pushRet v).parent = t.parent := rfl
@[simp] theorem Thread.pushRet_cause (t : Thread) (v : Word) : (t.pushRet v).cause = t.cause := rfl
@[simp] theorem Thread.pushRet_pc (t : Thread) (v : Word) : (t.pushRet v).pc = t.pc := rfl
@[simp] theorem Thread.pushRet_g (t : Thread) (v : Word) : (t.pushRet v).g = t.g := rfl
@[simp] theorem Thread.pushRet_a (t : Thread) (v : Word) : (t.pushRet v).a = t.a := rfl
@[simp] theorem Thread.pushRet_ag (t : Thread) (v : Word) : (t.pushRet v).ag = t.ag := rfl
@[simp] theorem Thread.pushRet_tsr (t : Thread) (v : Word) : (t.pushRet v).tsr = t.tsr := rfl
@[simp] theorem Thread.pushRet_etsr (t : Thread) (v : Word) : (t.pushRet v).etsr = t.etsr := rfl
@[simp] theorem Thread.pushRet_epc (t : Thread) (v : Word) : (t.pushRet v).epc = t.epc := rfl
@[simp] theorem Thread.pushRet_ecause (t : Thread) (v : Word) : (t.pushRet v).ecause = t.ecause := rfl
@[simp] theorem Thread.pushRet_eval (t : Thread) (v : Word) : (t.pushRet v).eval = t.eval := rfl
@[simp] theorem Thread.pushRet_tsp (t : Thread) (v : Word) : (t.pushRet v).tsp = t.tsp := rfl
@[simp] theorem Thread.pushRet_rtvec (t : Thread) (v : Word) : (t.pushRet v).rtvec = t.rtvec := rfl
@[simp] theorem Thread.pushRet_xar (t : Thread) (v : Word) : (t.pushRet v).xar = t.xar := rfl
@[simp] theorem Thread.pushRet_tpri (t : Thread) (v : Word) : (t.pushRet v).tpri = t.tpri := rfl
@[simp] theorem Thread.pushRet_tevt (t : Thread) (v : Word) : (t.pushRet v).tevt = t.tevt := rfl
@[simp] theorem Thread.pushRet_tcmp (t : Thread) (v : Word) : (t.pushRet v).tcmp = t.tcmp := rfl
@[simp] theorem Thread.pushRet_haltq (t : Thread) (v : Word) : (t.pushRet v).haltq = t.haltq := rfl
@[simp] theorem Thread.pushRet_haltOvf (t : Thread) (v : Word) : (t.pushRet v).haltOvf = t.haltOvf := rfl
@[simp] theorem Thread.pushRet_compl (t : Thread) (v : Word) : (t.pushRet v).compl = t.compl := rfl

@[simp] theorem Thread.pushRet_grR (t : Thread) (v : Word) (i : Nat) : (t.pushRet v).gr i = t.gr i := by
  simp [Thread.gr]
@[simp] theorem Thread.pushRet_accR (t : Thread) (v : Word) (i : Nat) : (t.pushRet v).acc i = t.acc i := by
  simp [Thread.acc]
@[simp] theorem Thread.pushRet_agenR (t : Thread) (v : Word) (i : Nat) : (t.pushRet v).agen i = t.agen i := by
  simp [Thread.agen]
@[simp] theorem Thread.pushRet_completionR (t : Thread) (v : Word) (i : Nat) : (t.pushRet v).completion i = t.completion i := by
  simp [Thread.completion]
@[simp] theorem Thread.pushRet_xarOfR (t : Thread) (v : Word) (i : Nat) : (t.pushRet v).xarOf i = t.xarOf i := by
  simp [Thread.xarOf]
end Sys2Proof.Machine
end

