-- ==== Sys2Proof/Laws/Flags.lean ====
section
/-! SUPPORT. The flags of a thread: what each update leaves of each bit of TSR. -/

namespace Sys2Proof.Machine

theorem getLsbD_putBit (w : Word) (n : Nat) (b : Bool) (i : Nat) (hn : n < 32) :
    (putBit w n b).getLsbD i = if i = n then b else w.getLsbD i := by
  have h : ∀ i, (BitVec.ofNat 32 (2 ^ n)).getLsbD i = decide (i = n) := by
    intro i
    rw [BitVec.getLsbD_ofNat]
    by_cases e : i = n
    · subst e; simp [hn]
    · simp [e, Ne.symm e]
  have h0 : ∀ i, (0 : Word).getLsbD i = false := fun i => by simp
  by_cases hi : i < 32
  · cases b <;> by_cases e : i = n <;>
      simp only [putBit, BitVec.getLsbD_or, BitVec.getLsbD_and, BitVec.getLsbD_not, h, hi, e, decide_true, decide_false,
        Bool.not_true, Bool.not_false, Bool.and_true, Bool.and_false, Bool.or_true, Bool.or_false, if_true, if_false, h0,
        Bool.false_eq_true]
  · rw [BitVec.getLsbD_of_ge _ _ (by omega), if_neg (by omega), BitVec.getLsbD_of_ge _ _ (by omega)]

theorem bitOf_eq (w : Word) (n : Nat) : bitOf w n = w.getLsbD n := by
  simp [bitOf, BitVec.getLsbD]

theorem bitOf_putBit (w : Word) (n : Nat) (b : Bool) (i : Nat) (hn : n < 32) :
    bitOf (putBit w n b) i = if i = n then b else bitOf w i := by
  rw [bitOf_eq, bitOf_eq, getLsbD_putBit w n b i hn]

/-- A mask that has bit `n` clear does not see a change of it. -/
theorem putBit_and (w m : Word) (n : Nat) (b : Bool) (hn : n < 32) (hm : m.getLsbD n = false) : putBit w n b &&& m = w &&& m := by
  apply BitVec.eq_of_getLsbD_eq
  intro i hi
  rw [BitVec.getLsbD_and, BitVec.getLsbD_and, getLsbD_putBit w n b i hn]
  split
  next e => subst e; simp [hm]
  · rfl

@[simp] theorem Thread.fz_setZNCV (t : Thread) (z n c v : Bool) : (t.setZNCV z n c v).fz = z := by
  simp [Thread.fz, Thread.setZNCV, bitOf_putBit]
@[simp] theorem Thread.fn_setZNCV (t : Thread) (z n c v : Bool) : (t.setZNCV z n c v).fn = n := by
  simp [Thread.fn, Thread.setZNCV, bitOf_putBit]
@[simp] theorem Thread.fc_setZNCV (t : Thread) (z n c v : Bool) : (t.setZNCV z n c v).fc = c := by
  simp [Thread.fc, Thread.setZNCV, bitOf_putBit]
@[simp] theorem Thread.fv_setZNCV (t : Thread) (z n c v : Bool) : (t.setZNCV z n c v).fv = v := by
  simp [Thread.fv, Thread.setZNCV, bitOf_putBit]

/-- The bits of TSR besides Z, N, C and V. -/
theorem Thread.rest_setZNCV (t : Thread) (z n c v : Bool) : (t.setZNCV z n c v).tsr &&& 0xFFFFFFF0 = t.tsr &&& 0xFFFFFFF0 := by
  simp only [Thread.setZNCV]
  rw [putBit_and _ _ 3 _ (by decide) (by decide), putBit_and _ _ 2 _ (by decide) (by decide),
    putBit_and _ _ 1 _ (by decide) (by decide), putBit_and _ _ 0 _ (by decide) (by decide)]

@[simp] theorem Thread.fz_flagsZN (t : Thread) (r : Word) : (t.flagsZN r).fz = (r == 0) := by
  simp [Thread.fz, Thread.flagsZN, Thread.setZN, bitOf_putBit]
@[simp] theorem Thread.fn_flagsZN (t : Thread) (r : Word) : (t.flagsZN r).fn = r.msb := by
  simp [Thread.fn, Thread.flagsZN, Thread.setZN, bitOf_putBit]

/-- The bits of TSR besides Z and N. -/
theorem Thread.rest_flagsZN (t : Thread) (r : Word) : (t.flagsZN r).tsr &&& 0xFFFFFFFC = t.tsr &&& 0xFFFFFFFC := by
  simp only [Thread.flagsZN, Thread.setZN]
  rw [putBit_and _ _ 1 _ (by decide) (by decide), putBit_and _ _ 0 _ (by decide) (by decide)]

/-! ## Sums, differences and cut results -/

theorem not_fits32 (i : Int) : (!fits 32 i) = decide (i < -(2 ^ 31 : Int) ∨ (2 ^ 31 : Int) ≤ i) := by
  unfold fits
  rw [← decide_not]
  apply decide_eq_decide.mpr
  norm_num
  omega

theorem addCV_eq (x y : Word) (c : Bool) : addCV x y c =
    (x + y + BitVec.ofNat 32 c.toNat, decide (2 ^ 32 ≤ x.toNat + y.toNat + c.toNat), !fits 32 (x.toInt + y.toInt + c.toNat)) := by
  unfold addCV
  rw [not_fits32]
  refine Prod.ext ?_ rfl
  apply BitVec.eq_of_toNat_eq
  simp

theorem addCV_sum (x y : Word) : addCV x y false =
    (x + y, decide (2 ^ 32 ≤ x.toNat + y.toNat), !fits 32 (x.toInt + y.toInt)) := by
  rw [addCV_eq]; simp

theorem toInt_not32 (y : Word) : (~~~ y).toInt = - y.toInt - 1 := by
  have h := y.isLt
  rw [BitVec.toInt_not, BitVec.toInt_eq_toNat_cond, Int.bmod_def]
  split <;> split <;> omega

theorem addCV_diff (x y : Word) : addCV x (~~~ y) true =
    (x - y, decide (y.toNat ≤ x.toNat), !fits 32 (x.toInt - y.toInt)) := by
  rw [addCV_eq]
  refine Prod.ext ?_ (Prod.ext ?_ ?_)
  · show x + ~~~ y + 1#32 = x - y
    rw [BitVec.sub_eq_add_neg, BitVec.neg_eq_not_add, BitVec.add_assoc]
  · show decide _ = decide _
    apply decide_eq_decide.mpr
    have := y.isLt
    simp only [BitVec.toNat_not, Bool.toNat_true]
    omega
  · show (!fits 32 _) = !fits 32 _
    rw [toInt_not32]
    congr 2
    simp only [Bool.toNat_true]
    omega

theorem u40_eq (x : Int) :
    (BitVec.ofInt 40 x).toNat = u40 x := by
  simp [u40, ofSigned, BitVec.toNat_ofInt]

/-- A result cut with SATEN is the nearest value that fits. -/
theorem satTo_cut (w : Nat) (b : Bool) (x : Int) : satTo w b x = cutTo w b x := by
  unfold satTo cutTo fits
  have hp : (0 : Int) < ((2 ^ (w - 1) : Nat) : Int) := by positivity
  cases b
  · simp
  · simp only [Bool.not_true, Bool.or_false, decide_eq_true_eq, if_true]
    generalize ((2 ^ (w - 1) : Nat) : Int) = p at hp
    split
    next h => congr 1; omega
    next h =>
      split
      · congr 1; omega
      · congr 1; omega

/-- TSR after a result that may not have fitted: SAT is set where it was cut, nothing else changes. -/
theorem Thread.tsr_noteSat (t : Thread) (b : Bool) : (t.noteSat b).tsr = if !b && t.saten then putBit t.tsr 4 true else t.tsr := by
  unfold Thread.noteSat; split <;> rfl

theorem Thread.saten_eq {t u : Thread} (h : t.tsr = u.tsr) : t.saten = u.saten := by simp [Thread.saten, h]

end Sys2Proof.Machine
end

