-- ==== Sys2Proof/Laws/Global.lean ====
section
/-! SUPPORT. The rules that every command obeys: the queue and the clock are step's own, the log and the fuses only grow, and
the memories stay in canonical form. -/

namespace Sys2Proof.Machine

theorem closed_pending (q : List Instr) : Closed (fun s => s.pending = q) where
  same h hs := by simp only [State.heart, Prod.mk.injEq] at h; rw [h.1]; exact hs
  setReg _ _ h := h
  coldBits _ h := h
  pokeByte _ _ h := h
  dropMem _ _ h := h
  wipe _ _ _ _ _ h hs := by simp only [State.heart, Prod.mk.injEq] at h; rw [h.1]; exact hs
  refill _ _ _ _ _ _ h hs := by simp only [State.heart, Prod.mk.injEq] at h; rw [h.1]; exact hs
  rsPut _ _ h := h
  rsClear h := h
  nvPut _ _ h := h
  nvKeep _ h := h
  rramPut _ _ h := h
  rramRefill _ h := h
  tookFree h := h
  send _ h := h
  fuse _ _ _ _ h := h
  cold h _ _ _ _ _ _ _ _ _ _ _ hs := by rw [h]; exact hs

theorem closed_clk (c : Nat) : Closed (fun s => s.clk = c) where
  same h hs := by simp only [State.heart, Prod.mk.injEq] at h; rw [h.2.2.1]; exact hs
  setReg _ _ h := h
  coldBits _ h := h
  pokeByte _ _ h := h
  dropMem _ _ h := h
  wipe _ _ _ _ _ h hs := by simp only [State.heart, Prod.mk.injEq] at h; rw [h.2.2.1]; exact hs
  refill _ _ _ _ _ _ h hs := by simp only [State.heart, Prod.mk.injEq] at h; rw [h.2.2.1]; exact hs
  rsPut _ _ h := h
  rsClear h := h
  nvPut _ _ h := h
  nvKeep _ h := h
  rramPut _ _ h := h
  rramRefill _ h := h
  tookFree h := h
  send _ h := h
  fuse _ _ _ _ h := h
  cold _ _ h _ _ _ _ _ _ _ _ _ hs := by rw [h]; exact hs

theorem closed_freeCtr (n : Nat) : Closed (fun s => n ≤ s.freeCtr) where
  same h hs := by simp only [State.heart, Prod.mk.injEq] at h; rw [h.2.1]; exact hs
  setReg _ _ h := h
  coldBits _ h := h
  pokeByte _ _ h := h
  dropMem _ _ h := h
  wipe _ _ _ _ _ h hs := by simp only [State.heart, Prod.mk.injEq] at h; rw [h.2.1]; exact hs
  refill _ _ _ _ _ _ h hs := by simp only [State.heart, Prod.mk.injEq] at h; rw [h.2.1]; exact hs
  rsPut _ _ h := h
  rsClear h := h
  nvPut _ _ h := h
  nvKeep _ h := h
  rramPut _ _ h := h
  rramRefill _ h := h
  tookFree h := Nat.le_succ_of_le h
  send _ h := h
  fuse _ _ _ _ h := h
  cold _ h _ _ _ _ _ _ _ _ _ _ hs := by rw [h]; exact hs

theorem closed_log (s0 : State) : Closed (LogGrows s0) where
  same h hs := by simp only [State.heart, Prod.mk.injEq] at h; unfold LogGrows; rw [h.2.2.2.1]; exact hs
  setReg _ _ h := h
  coldBits _ h := h
  pokeByte _ _ h := h
  dropMem _ _ h := h
  wipe _ _ _ _ _ h hs := by simp only [State.heart, Prod.mk.injEq] at h; unfold LogGrows; rw [h.2.2.2.1]; exact hs
  refill _ _ _ _ _ _ h hs := by simp only [State.heart, Prod.mk.injEq] at h; unfold LogGrows; rw [h.2.2.2.1]; exact hs
  rsPut _ _ h := h
  rsClear h := h
  nvPut _ _ h := h
  nvKeep _ h := h
  rramPut _ _ h := h
  rramRefill _ h := h
  tookFree h := h
  send o h := by obtain ⟨l, hl⟩ := h; exact ⟨o :: l, by simp [State.send, hl]⟩
  fuse _ _ _ _ h := h
  cold _ _ _ h _ _ _ _ _ _ _ _ hs := by unfold LogGrows; rw [h]; exact hs

theorem closed_fuses (s0 : State) : Closed (FusesGrow s0) where
  same h hs := by simp only [State.heart, Prod.mk.injEq] at h; unfold FusesGrow; rw [h.2.2.2.2.2.2.2.2.2.2.2]; exact hs
  setReg _ _ h := h
  coldBits _ h := h
  pokeByte _ _ h := h
  dropMem _ _ h := h
  wipe _ _ _ _ _ h hs := by
    simp only [State.heart, Prod.mk.injEq] at h; unfold FusesGrow; rw [h.2.2.2.2.2.2.2.2.2.2.2]; exact hs
  refill _ _ _ _ _ _ h hs := by
    simp only [State.heart, Prod.mk.injEq] at h; unfold FusesGrow; rw [h.2.2.2.2.2.2.2.2.2.2.2]; exact hs
  rsPut _ _ h := h
  rsClear h := h
  nvPut _ _ h := h
  nvKeep _ h := h
  rramPut _ _ h := h
  rramRefill _ h := h
  tookFree h := h
  send _ h := h
  fuse r v hr hv h := by
    refine ⟨?_, ?_⟩
    · show s0.fuses.revoked &&& r = s0.fuses.revoked
      rw [← h.1, BitVec.and_assoc, hr]
    · show s0.fuses.minVer.toNat ≤ v.toNat
      rcases hv with e | e
      · rw [e]; exact h.2
      · exact Nat.le_trans h.2 (Nat.le_of_lt e)
  cold _ _ _ _ _ h _ _ _ _ _ _ hs := by unfold FusesGrow; rw [h]; exact hs

/-- The canonical form as a property of the parts that it speaks of. -/
def memForm (regs : Tab Word) (mem rsMem nv : List Host.Cell) (fill : Tab Nat) (rram : Tab Word) (n : Nat) : Bool :=
  Memory.wf (memDflt fill) mem && Memory.wf (fun _ => 0) rsMem && Memory.wf (fun _ => 0xFF) nv && tabWf (rramDflt n) rram
    && tabWf coldWord regs

theorem wf_eq (s : State) : s.wf = memForm s.regs s.mem s.rsMem s.nv s.fill s.rram s.batKeep.fill := rfl

theorem tabWf_keepSame {α : Type} [DecidableEq α] {d : Nat → α} (p : Nat → Bool) {t : Tab α} (ht : tabWf d t = true) :
    tabWf d (tabKeep p t) = true := tabWf_keep p (fun _ _ => rfl) ht

/-- A bough's fill does not matter to the bytes outside the bough. -/
theorem memDflt_out {fill fill' : Tab Nat} {b lo hi : Nat} (hlo : lo = 0x100000000 + b * 0x1000000) (hhi : hi = lo + 0x1000000)
    (h : ∀ i, i ≠ b → tabGet 0 i fill' = tabGet 0 i fill) (k : Nat) (hk : k < lo ∨ hi ≤ k) :
    memDflt fill' k = memDflt fill k := by
  unfold memDflt
  split
  · rw [h]
    omega
  · rfl

theorem tabGet_del_other {α : Type} {k i : Nat} (d : α) (t : Tab α) (h : i ≠ k) : tabGet d i (tabDel k t) = tabGet d i t := by
  unfold tabGet
  rw [tabFind_del_other t h]

/-- The table after some bits of its entries went back to their cold values. -/
def coldTab (m : Nat → Word) (t : Tab Word) : Tab Word :=
  t.filterMap (fun c =>
    let v := (c.2 &&& ~~~ m c.1) ||| (coldWord c.1 &&& m c.1)
    if v = coldWord c.1 then none else some (c.1, v))

theorem tabAbove_cold (m : Nat → Word) {i : Nat} {t : Tab Word} (ht : tabAbove i t = true) : tabAbove i (coldTab m t) = true := by
  induction t with
  | nil => rfl
  | cons c t ih =>
    obtain ⟨j, w⟩ := c
    simp only [tabAbove, Bool.and_eq_true, decide_eq_true_eq] at ht
    have hk := ih ht.2
    simp only [coldTab, List.filterMap_cons] at hk ⊢
    by_cases e : (w &&& ~~~ m j) ||| (coldWord j &&& m j) = coldWord j
    · simp only [e, if_true]
      exact hk
    · simp only [e, if_false, tabAbove, Bool.and_eq_true, decide_eq_true_eq]
      exact ⟨ht.1, hk⟩

theorem tabWf_cold (m : Nat → Word) {t : Tab Word} (ht : tabWf coldWord t = true) : tabWf coldWord (coldTab m t) = true := by
  induction t with
  | nil => rfl
  | cons c t ih =>
    obtain ⟨j, w⟩ := c
    simp only [tabWf, Bool.and_eq_true, decide_eq_true_eq] at ht
    have hk := ih ht.2
    have ha := tabAbove_cold m ht.1.2
    simp only [coldTab, List.filterMap_cons] at hk ha ⊢
    by_cases e : (w &&& ~~~ m j) ||| (coldWord j &&& m j) = coldWord j
    · simp only [e, if_true]
      exact hk
    · simp only [e, if_false, tabWf, Bool.and_eq_true, decide_eq_true_eq]
      exact ⟨⟨e, ha⟩, hk⟩

theorem closed_wf : Closed (fun s => s.wf = true) where
  same {s t} h hs := by
    simp only [State.heart, Prod.mk.injEq] at h
    obtain ⟨-, -, -, -, h1, h2, h3, h4, h5, h6, h7, -⟩ := h
    simp only [wf_eq, h1, h2, h3, h4, h5, h6, h7] at hs ⊢
    exact hs
  setReg off v h := by
    simp only [State.wf, Bool.and_eq_true] at h ⊢
    exact ⟨h.1, tabWf_set _ _ h.2⟩
  coldBits m h := by
    simp only [State.wf, Bool.and_eq_true] at h ⊢
    exact ⟨h.1, tabWf_cold m h.2⟩
  pokeByte addr b h := by
    simp only [State.wf, Memory.wf, Bool.and_eq_true] at h ⊢
    exact ⟨⟨⟨⟨tabWf_set _ _ h.1.1.1.1, h.1.1.1.2⟩, h.1.1.2⟩, h.1.2⟩, h.2⟩
  dropMem lo hi h := by
    simp only [State.wf, State.dropMem, Memory.wf, Bool.and_eq_true] at h ⊢
    exact ⟨⟨⟨⟨tabWf_keepSame _ h.1.1.1.1, h.1.1.1.2⟩, h.1.1.2⟩, h.1.2⟩, h.2⟩
  wipe {s t} b lo hi hlo hhi h hs := by
    simp only [State.heart, Prod.mk.injEq] at h
    obtain ⟨-, -, -, -, h1, h2, h3, h4, h5, h6, h7, -⟩ := h
    simp only [wf_eq, h1, h2, h3, h4, h5, h6, h7] at hs ⊢
    simp only [memForm, State.dropMem, Memory.wf, Bool.and_eq_true] at hs ⊢
    refine ⟨⟨⟨⟨tabWf_keep _ ?_ hs.1.1.1.1, hs.1.1.1.2⟩, hs.1.1.2⟩, hs.1.2⟩, hs.2⟩
    intro k hk
    exact memDflt_out hlo hhi (fun i hi' => tabGet_del_other 0 _ hi') k (by simpa using hk)
  refill {s t} b lo hi n hlo hhi h hs := by
    simp only [State.heart, Prod.mk.injEq] at h
    obtain ⟨-, -, -, -, h1, h2, h3, h4, h5, h6, h7, -⟩ := h
    simp only [wf_eq, h1, h2, h3, h4, h5, h6, h7] at hs ⊢
    simp only [memForm, State.dropMem, Memory.wf, Bool.and_eq_true] at hs ⊢
    refine ⟨⟨⟨⟨tabWf_keep _ ?_ hs.1.1.1.1, hs.1.1.1.2⟩, hs.1.1.2⟩, hs.1.2⟩, hs.2⟩
    intro k hk
    exact memDflt_out hlo hhi (fun i hi' => tabGet_set_other 0 0 _ _ hi') k (by simpa using hk)
  rsPut off b h := by
    simp only [State.wf, Memory.wf, Bool.and_eq_true] at h ⊢
    exact ⟨⟨⟨⟨h.1.1.1.1, tabWf_set (d := fun _ => 0) _ _ h.1.1.1.2⟩, h.1.1.2⟩, h.1.2⟩, h.2⟩
  rsClear h := by
    simp only [State.wf, Memory.wf, Bool.and_eq_true] at h ⊢
    exact ⟨⟨⟨⟨h.1.1.1.1, rfl⟩, h.1.1.2⟩, h.1.2⟩, h.2⟩
  nvPut off b h := by
    simp only [State.wf, Memory.wf, Bool.and_eq_true] at h ⊢
    exact ⟨⟨⟨⟨h.1.1.1.1, h.1.1.1.2⟩, tabWf_set (d := fun _ => 0xFF) _ _ h.1.1.2⟩, h.1.2⟩, h.2⟩
  nvKeep p h := by
    simp only [State.wf, Memory.wf, Bool.and_eq_true] at h ⊢
    exact ⟨⟨⟨⟨h.1.1.1.1, h.1.1.1.2⟩, tabWf_keepSame _ h.1.1.2⟩, h.1.2⟩, h.2⟩
  rramPut w v h := by
    simp only [State.wf, Memory.wf, Bool.and_eq_true] at h ⊢
    exact ⟨⟨⟨⟨h.1.1.1.1, h.1.1.1.2⟩, h.1.1.2⟩, tabWf_set _ _ h.1.2⟩, h.2⟩
  rramRefill n h := by
    simp only [State.wf, Memory.wf, Bool.and_eq_true] at h ⊢
    refine ⟨⟨⟨⟨h.1.1.1.1, h.1.1.1.2⟩, h.1.1.2⟩, tabWf_keep _ ?_ h.1.2⟩, h.2⟩
    intro k hk
    simp only [Bool.not_eq_true', Bool.and_eq_false_iff, decide_eq_false_iff_not] at hk
    unfold rramDflt
    rw [if_neg (by omega), if_neg (by omega)]
  tookFree h := h
  send _ h := h
  fuse _ _ _ _ h := h
  cold _ _ _ _ h4 _ h1 h2 h3 h5 h6 h7 hs := by
    simp only [wf_eq, h1, h2, h3, h4, h5, h6, h7] at hs ⊢
    simp only [memForm, Memory.wf, Bool.and_eq_true] at hs ⊢
    exact ⟨⟨⟨⟨rfl, rfl⟩, hs.1.1.2⟩, rfl⟩, rfl⟩

end Sys2Proof.Machine
end

