-- ==== Sys2Proof/Laws/Issue.lean ====
section
/-! SUPPORT. What issuing an instruction does: the shapes that the instructions share. -/

namespace Sys2Proof.Machine

/-- An instruction that can issue acts. -/
theorem State.issue_next {s : State} {t : Thr} {n : Nat} (h : CanIssue s t n) (body : Word → State → State) :
    s.issue (thrKey t) n body = body (s.thr (thrKey t)).pc s := by
  unfold State.issue
  dsimp only
  rw [if_pos ⟨h.1, h.2.1⟩, h.2.2]

/-- A thread that is not in RUN issues nothing. -/
theorem State.issue_idle {s : State} {k n : Nat} (h : (s.thr k).state ≠ .run) (body : Word → State → State) :
    s.issue k n body = s := by
  unfold State.issue
  exact if_neg (fun c => h c.1)

/-- A fetch exception comes before anything the instruction does. -/
theorem State.issue_exc {s : State} {k n : Nat} {e : Nat × Word} (h : (s.thr k).state = .run)
    (hm : s.mayRun k = true) (he : s.fetchExc k n (s.thr k).pc = some e) (body : Word → State → State) :
    s.issue k n body = s.raiseExc k e.1 e.2 (s.thr k).pc := by
  unfold State.issue
  dsimp only
  rw [if_pos ⟨h, hm⟩, he]

theorem State.plain_next {s : State} {t : Thr} {n : Nat} (h : CanIssue s t n) (f : Thread → Thread) :
    s.plain (thrKey t) n f = s.setThr (thrKey t) { f (s.own t) with pc := (s.own t).pc + BitVec.ofNat 32 n } := by
  unfold State.plain
  rw [State.issue_next h]
  rfl

/-- The next state of an instruction that raises no exception of its own. -/
theorem plain_gives {i : Instr} {s : State} {t : Thr} {n : Nat} {f : Thread → Thread} {P : State → Prop} {b : Thread}
    (h : CanIssue s t n) (e : exec i s = .next (s.plain (thrKey t) n f)) (ef : f (s.own t) = b)
    (p : P (s.setThr (thrKey t) { b with pc := (s.own t).pc + BitVec.ofNat 32 n })) : ∃ u, exec i s = .next u ∧ P u :=
  ⟨_, e.trans (by rw [State.plain_next h, ef]), p⟩

/-- A register-register instruction, its operands known. -/
theorem State.aluOp_next {s : State} {t : Thr} {f : AluForm} {n rd : Nat} {x y : Word}
    (e : aluArgs (s.own t) f = (n, rd, x, y)) (h : CanIssue s t n) (g : Thread → Nat → Word → Word → Thread) :
    s.aluOp t f g = s.setThr (thrKey t) { g (s.own t) rd x y with pc := (s.own t).pc + BitVec.ofNat 32 n } := by
  unfold State.aluOp
  have e' : aluArgs (s.thr (thrKey t)) f = (n, rd, x, y) := e
  rw [e', State.plain_next h]
  simp only [e']

theorem alu_gives {i : Instr} {s : State} {t : Thr} {f : AluForm} {n rd : Nat} {x y : Word}
    {g : Thread → Nat → Word → Word → Thread} {P : State → Prop} {b : Thread} (e : aluArgs (s.own t) f = (n, rd, x, y))
    (h : CanIssue s t n) (ei : exec i s = .next (s.aluOp t f g)) (eg : g (s.own t) rd x y = b)
    (p : P (s.setThr (thrKey t) { b with pc := (s.own t).pc + BitVec.ofNat 32 n })) : ∃ u, exec i s = .next u ∧ P u :=
  ⟨_, ei.trans (by rw [State.aluOp_next e h, eg]), p⟩

/-- A branch: the PC goes to the target where the condition holds, else past the instruction. -/
theorem State.branch_next {s : State} {t : Thr} {n : Nat} (h : CanIssue s t n) (off : Word) (cond : Thread → Bool) :
    s.branch (thrKey t) n off cond = s.setThr (thrKey t) { s.own t with
      pc := if cond (s.own t) then (s.own t).pc + off * 2 else (s.own t).pc + BitVec.ofNat 32 n } :=
  State.issue_next h _

/-- A change of one thread leaves everything else. -/
theorem onlyThread_setThr (s : State) (k : Nat) (b : Thread) : OnlyThread s (s.setThr k b) k :=
  ⟨rfl, fun _ h => s.thr_setThr_other b h⟩

theorem wroteReg_of {a b : Thread} {n rd : Nat} {v : Word} (hg : b.g = (a.setG rd v).g)
    (hpc : b.pc = a.pc + BitVec.ofNat 32 n) (hr : { b with g := a.g, tsr := a.tsr, pc := a.pc } = a) : WroteReg a b n rd v := by
  have e : ∀ i, b.gr i = (a.setG rd v).gr i := by
    intro i
    unfold Thread.gr
    rw [hg]
  refine ⟨?_, ?_, hpc, hr⟩
  · rw [e, Thread.gr_setG]
    by_cases h : rd = 0
    · simp [h, Thread.gr]
    · simp [h]
  · intro i hi
    rw [e, Thread.gr_setG]
    simp [hi]

theorem wroteAcc_of {a b : Thread} {ad : Nat} {v : BitVec 40} (hg : b.a = (a.setAcc ad v).a)
    (hpc : b.pc = a.pc + 4) (hr : { b with a := a.a, tsr := a.tsr, pc := a.pc } = a) : WroteAcc a b ad v := by
  refine ⟨?_, ?_, hpc, hr⟩
  · unfold Thread.acc
    rw [hg]
    simp [Thread.setAcc]
  · intro i hi
    unfold Thread.acc
    rw [hg]
    exact tabGet_set_other _ _ _ _ hi

theorem gives_setG (s : State) (t : Thr) (n rd : Nat) (v : Word) :
    Gives s (s.setThr (thrKey t) { (s.own t).setG rd v with pc := (s.own t).pc + BitVec.ofNat 32 n }) t n rd v := by
  refine ⟨onlyThread_setThr _ _ _, ?_, ?_⟩ <;> simp only [State.own, State.thr_setThr_same]
  · exact wroteReg_of rfl rfl (by unfold Thread.setG; split <;> rfl)
  · simp

theorem givesZN_putZN (s : State) (t : Thr) (n rd : Nat) (v : Word) :
    GivesZN s (s.setThr (thrKey t) { (s.own t).putZN rd v with pc := (s.own t).pc + BitVec.ofNat 32 n }) t n rd v := by
  refine ⟨onlyThread_setThr _ _ _, ?_, ?_, ?_, ?_⟩ <;> simp only [State.own, State.thr_setThr_same]
  · exact wroteReg_of rfl rfl (by unfold Thread.putZN Thread.flagsZN Thread.setZN Thread.setG; split <;> rfl)
  · exact Thread.fz_flagsZN _ _
  · exact Thread.fn_flagsZN _ _
  · exact (Thread.rest_flagsZN _ _).trans (by simp)

theorem givesCV_putSum (s : State) (t : Thr) (n rd : Nat) (r : Word) (c v : Bool) :
    GivesCV s (s.setThr (thrKey t) { (s.own t).putSum rd (r, c, v) with pc := (s.own t).pc + BitVec.ofNat 32 n }) t n rd r c v := by
  refine ⟨onlyThread_setThr _ _ _, ?_, ?_, ?_, ?_, ?_, ?_⟩ <;> simp only [State.own, State.thr_setThr_same]
  · exact wroteReg_of rfl rfl (by unfold Thread.putSum Thread.setZNCV Thread.setG; split <;> rfl)
  · exact Thread.fz_setZNCV _ _ _ _ _
  · exact Thread.fn_setZNCV _ _ _ _ _
  · exact Thread.fc_setZNCV _ _ _ _ _
  · exact Thread.fv_setZNCV _ _ _ _ _
  · exact (Thread.rest_setZNCV _ _ _ _ _).trans (by simp)

/-- The flags of a result that may have been cut. -/
theorem fracFlags_of {a x : Thread} (hx : x.tsr = a.tsr) (fit z n c v : Bool) :
    FracFlags a ((x.noteSat fit).setZNCV z n c v) z n c fit v := by
  have hs : x.saten = a.saten := Thread.saten_eq hx
  refine ⟨Thread.fz_setZNCV _ _ _ _ _, Thread.fn_setZNCV _ _ _ _ _, Thread.fc_setZNCV _ _ _ _ _, Thread.fv_setZNCV _ _ _ _ _, ?_, ?_⟩
  · simp only [Thread.setZNCV, bitOf_putBit _ 0 _ _ (by decide : 0 < 32), bitOf_putBit _ 1 _ _ (by decide : 1 < 32),
      bitOf_putBit _ 2 _ _ (by decide : 2 < 32), bitOf_putBit _ 3 _ _ (by decide : 3 < 32), Thread.tsr_noteSat]
    rw [hs, hx, if_neg (by decide), if_neg (by decide), if_neg (by decide), if_neg (by decide)]
    cases hb : (!fit && a.saten)
    · simp
    · simp [bitOf_putBit]
  · have h1 := Thread.rest_setZNCV (x.noteSat fit) z n c v
    have h2 : (x.noteSat fit).tsr &&& 0xFFFFFFE0 = a.tsr &&& 0xFFFFFFE0 := by
      rw [Thread.tsr_noteSat, ← hx]
      split
      · exact putBit_and _ _ 4 _ (by decide) (by decide)
      · rfl
    have e : ∀ w : Word, w &&& 0xFFFFFFE0 = (w &&& 0xFFFFFFF0) &&& 0xFFFFFFE0 := by
      intro w
      rw [BitVec.and_assoc]
      congr 1
    rw [e, h1, ← e, h2]

theorem givesAcc_putAcc (s : State) (t : Thr) (ad : Nat) (x : Int) (c : Bool) :
    GivesAcc s (s.setThr (thrKey t) { (s.own t).putAcc ad x c with pc := (s.own t).pc + 4 }) t ad x c := by
  unfold GivesAcc
  refine ⟨onlyThread_setThr _ _ _, ?_, ?_⟩ <;> simp only [State.own, State.thr_setThr_same]
  · refine wroteAcc_of ?_ rfl ?_
    · show ((s.own t).putAcc ad x c).a = _
      rw [← satTo_cut]
      simp [Thread.putAcc]
    · simp
  · have h := fracFlags_of (a := s.own t) (x := (s.own t).setAcc ad (satTo 40 (s.own t).saten x)) (by simp) (fits 40 x)
      (satTo 40 (s.own t).saten x == 0) (satTo 40 (s.own t).saten x).msb c (!fits 40 x)
    rw [← satTo_cut]
    exact h

theorem givesFrac_of (s : State) (t : Thr) (rd : Nat) (x : Int) (c : Bool) :
    GivesFrac s (s.setThr (thrKey t) { ((((s.own t).setG rd (satTo 32 (s.own t).saten x)).noteSat (fits 32 x)).setZNCV
      (satTo 32 (s.own t).saten x == 0) (satTo 32 (s.own t).saten x).msb c (!fits 32 x)) with pc := (s.own t).pc + 4 }) t rd x c := by
  unfold GivesFrac
  refine ⟨onlyThread_setThr _ _ _, ?_, ?_⟩ <;> simp only [State.own, State.thr_setThr_same] <;> rw [← satTo_cut]
  · refine wroteReg_of ?_ rfl ?_
    · simp
    · simp
  · exact fracFlags_of (a := s.own t) (x := (s.own t).setG rd (satTo 32 (s.own t).saten x)) (by simp) _ _ _ _ _

end Sys2Proof.Machine
end

