-- ==== Sys2Proof/Laws/RegWrite.lean ====
section
/-! SUPPORT. What a write of a register does when its requester may write every field of it. -/

namespace Sys2Proof.Machine

/-- A field's new place in a register word, bit by bit. -/
theorem Fld.getLsbD_put (f : Fld) (h : f.ok = true) (v : Nat) (w : Word) (i : Nat) :
    (f.put v w).getLsbD i = if f.lo ≤ i ∧ i < f.lo + f.w then v.testBit (i - f.lo) else w.getLsbD i := by
  show (f.put v w).toNat.testBit i = if f.lo ≤ i ∧ i < f.lo + f.w then v.testBit (i - f.lo) else w.toNat.testBit i
  have hq : w.toNat % 2 ^ f.lo < 2 ^ f.lo := Nat.mod_lt _ (Nat.two_pow_pos _)
  have hv : v % 2 ^ f.w < 2 ^ f.w := Nat.mod_lt _ (Nat.two_pow_pos _)
  rw [f.put_nat h]
  by_cases h1 : i < f.lo
  · rw [show w.toNat / 2 ^ (f.lo + f.w) * 2 ^ (f.lo + f.w) + v % 2 ^ f.w * 2 ^ f.lo + w.toNat % 2 ^ f.lo
        = 2 ^ f.lo * (w.toNat / 2 ^ (f.lo + f.w) * 2 ^ f.w + v % 2 ^ f.w) + w.toNat % 2 ^ f.lo by rw [Nat.pow_add]; ring,
      Nat.testBit_two_pow_mul_add _ hq, if_pos h1, if_neg (by omega), Nat.testBit_mod_two_pow]
    simp [h1]
  · by_cases h2 : i < f.lo + f.w
    · rw [show w.toNat / 2 ^ (f.lo + f.w) * 2 ^ (f.lo + f.w) + v % 2 ^ f.w * 2 ^ f.lo + w.toNat % 2 ^ f.lo
          = 2 ^ f.lo * (2 ^ f.w * (w.toNat / 2 ^ (f.lo + f.w)) + v % 2 ^ f.w) + w.toNat % 2 ^ f.lo by rw [Nat.pow_add]; ring,
        Nat.testBit_two_pow_mul_add _ hq, if_neg h1, Nat.testBit_two_pow_mul_add _ hv, if_pos (by omega), if_pos (by omega),
        Nat.testBit_mod_two_pow]
      simp [show i - f.lo < f.w by omega]
    · have hlow : v % 2 ^ f.w * 2 ^ f.lo + w.toNat % 2 ^ f.lo < 2 ^ (f.lo + f.w) := by
        have h3 : (v % 2 ^ f.w + 1) * 2 ^ f.lo ≤ 2 ^ (f.lo + f.w) := by
          rw [Nat.pow_add, Nat.mul_comm (2 ^ f.lo)]
          exact Nat.mul_le_mul_right _ hv
        rw [Nat.add_mul, Nat.one_mul] at h3
        omega
      rw [Nat.add_assoc, Nat.mul_comm, Nat.testBit_two_pow_mul_add _ hlow, if_neg h2, if_neg (by omega), Nat.testBit_div_two_pow]
      congr 1
      omega

/-- The judgement of a write by a requester that may write every field. -/
def RegRow.judgeAll (r : RegRow) (locked : Bool) (old wr : Word) : Judged := r.judge (fun _ => true) locked old wr

/-- The bits of a row that a write can act on all lie in its fields, of which it has some. -/
def RegRow.sound (r : RegRow) : Bool :=
  r.bits (fun _ => true) != 0
    && (r.bits (fun f => f.acc == .rw || f.acc == .rwl) ||| r.bits (fun f => f.acc == .w1c || f.acc == .w1s || f.acc == .wo))
        &&& ~~~ r.bits (fun _ => true) == 0

theorem regBlock_sound (off : Nat) : (regBlock off).all RegRow.sound = true := by
  have ite_all : ∀ {c : Prop} [Decidable c] {a b : List RegRow}, a.all RegRow.sound = true → b.all RegRow.sound = true →
      (if c then a else b).all RegRow.sound = true := by
    intro c _ a b ha hb
    split
    · exact ha
    · exact hb
  unfold regBlock
  repeat refine ite_all (by decide +kernel) ?_
  rfl

theorem regRow_sound {off : Nat} {r : RegRow} (h : regRow off = some r) : r.sound = true :=
  List.all_eq_true.mp (regBlock_sound off) r (List.mem_of_find?_eq_some h)

theorem RegRow.bits_congr {r : RegRow} {p q : FieldRow → Bool} (h : ∀ f ∈ r.fields, p f = q f) : r.bits p = r.bits q := by
  unfold RegRow.bits
  congr 1
  generalize r.fields = l at h
  generalize (0 : Nat) = a
  induction l generalizing a with
  | nil => rfl
  | cons f l ih =>
    rw [List.foldl_cons, List.foldl_cons, h f (List.mem_cons_self ..), ih (fun g hg => h g (List.mem_cons_of_mem _ hg))]

theorem RegRow.judge_all {r : RegRow} {may : Priv → Bool} (h : ∀ f ∈ r.fields, may (f.privIn r) = true) (locked : Bool)
    (old wr : Word) : r.judge may locked old wr = r.judgeAll locked old wr := by
  have e : r.bits (fun f => may (f.privIn r)) = r.bits (fun _ => true) := RegRow.bits_congr (fun f hf => h f hf)
  unfold RegRow.judgeAll RegRow.judge
  rw [e]

theorem RegRow.judgeAll_any {r : RegRow} (h : r.sound = true) (locked : Bool) (old wr : Word) :
    (r.judgeAll locked old wr).any = true := by
  unfold RegRow.sound at h
  rw [Bool.and_eq_true] at h
  exact h.1

theorem RegRow.judgeAll_refused {r : RegRow} (h : r.sound = true) (locked : Bool) (old wr : Word) :
    (r.judgeAll locked old wr).refused = false := by
  unfold RegRow.sound at h
  rw [Bool.and_eq_true, beq_iff_eq] at h
  have h := h.2
  show (((old ^^^ wr) &&& _ ||| wr &&& _) &&& ~~~ r.bits (fun _ => true) != 0) = false
  generalize r.bits (fun _ => true) = ok at *
  generalize r.bits (fun f => f.acc == .rw || f.acc == .rwl) = rw at *
  generalize r.bits (fun f => f.acc == .w1c || f.acc == .w1s || f.acc == .wo) = act at *
  generalize old ^^^ wr = x
  rw [bne_eq_false_iff_eq]
  apply BitVec.eq_of_getLsbD_eq
  intro i hi
  have := congrArg (fun y => y.getLsbD i) h
  simp only [BitVec.getLsbD_and, BitVec.getLsbD_or, BitVec.getLsbD_not] at this ⊢
  cases hA : x.getLsbD i <;> cases hB : rw.getLsbD i <;> cases hC : wr.getLsbD i <;> cases hD : act.getLsbD i <;> simp_all

/-- The registers that commit a submission are upper halves. -/
theorem submitHalf {off : Nat} {r : RegRow} (hr : regRow off = some r) (hh : r.half = .whole) (a : 0x24000 ≤ off) (b : off < 0x24240)
    (c : off % 0x40 = 4) : False := by
  have key : ∀ o : Fin 9, (regRow (0x24004 + 0x40 * o.val)).all (fun r => r.half != .whole) = true := by decide +kernel
  have e : off = 0x24004 + 0x40 * ((off - 0x24004) / 0x40) := by omega
  have k := key ⟨(off - 0x24004) / 0x40, by omega⟩
  rw [← e, hr] at k
  simp [hh] at k

/-- How a write by a requester that may write every field is judged. -/
theorem State.judged_all {s : State} {req : Req} {off : Nat} {r : RegRow}
    (h : ∀ f ∈ r.fields, s.mayWrite req off (f.privIn r) = true) (w : Word) :
    s.judged req r off w = r.judgeAll (s.flag R.WDT_CTL_LOCK) (s.reg off) w := RegRow.judge_all h _ _ _

/-- No such write is refused. -/
theorem State.writeRefused_none {s : State} {req : Req} {off : Nat} {r : RegRow} (hr : regRow off = some r)
    (h : ∀ f ∈ r.fields, s.mayWrite req off (f.privIn r) = true) (p1 : r.priv ≠ .eventPost) (p2 : r.priv ≠ .threadCmd)
    (p3 : off ≠ R.WDT_KEY) (p4 : isRowKey off = false) (p5 : ¬ (0x24000 ≤ off ∧ off < 0x24240 ∧ off % 0x40 = 4)) (w : Word) :
    s.writeRefused req r off w = false := by
  unfold State.writeRefused
  dsimp only
  rw [if_neg p3, p4, if_neg (by simp), if_neg p5]
  split
  next h => exact absurd h p1
  next h => exact absurd h p2
  · rw [State.judged_all h, RegRow.judgeAll_refused (regRow_sound hr)]

/-- A write of a whole register by a requester that may write every field: the word takes what the access codes allow, then the
register's own effect follows. -/
theorem State.winWrite_whole {s : State} {req : Req} {off : Nat} {r : RegRow} (hc : CanWrite s req off) (hr : regRow off = some r)
    (hh : r.half = .whole) (p1 : r.priv ≠ .eventPost) (p2 : r.priv ≠ .threadCmd) (p3 : off ≠ R.TAP_RRAM_DATA) (p4 : off ≠ R.WDT_KEY)
    (p5 : isRowKey off = false) (p6 : off ≠ R.SEC_RNG_CTL) (hq : s.hqBusy off = false) (w : Word) :
    s.winWrite req off w = ⟨0, 0, (s.setReg off (r.judgeAll (s.flag R.WDT_CTL_LOCK) (s.reg off) w).new).hook off (s.reg off)
      (r.judgeAll (s.flag R.WDT_CTL_LOCK) (s.reg off) w).eff false⟩ := by
  obtain ⟨-, -, h3, h4⟩ := hc
  have h4 := h4 r hr
  have p7 : ¬ (0x24000 ≤ off ∧ off < 0x24240 ∧ off % 0x40 = 4) := by
    rintro ⟨a, b, c⟩
    exact submitHalf hr hh a b c
  have hwr := State.writeRefused_none hr h4 p1 p2 p4 p5 p7 w
  unfold State.winWrite
  rw [if_neg p6]
  unfold State.winWriteWith
  rw [h3, hr]
  simp only [Bool.not_true, Bool.false_eq_true, if_false, hq, Bool.false_and, hh]
  unfold State.writeWhole
  simp only [hwr, Bool.false_eq_true, if_false, if_neg p3, if_neg p4, p5, State.judged_all h4, RegRow.judgeAll_any (regRow_sound hr),
    if_true]
  rfl

/-- A pair's registers lie apart from the registers with rules of their own. -/
def RegRow.half_plain (r : RegRow) : Bool :=
  r.half == .whole || (r.priv != .eventPost && r.priv != .threadCmd)

theorem regBlock_half (off : Nat) : (regBlock off).all RegRow.half_plain = true := by
  have ite_all : ∀ {c : Prop} [Decidable c] {a b : List RegRow}, a.all RegRow.half_plain = true → b.all RegRow.half_plain = true →
      (if c then a else b).all RegRow.half_plain = true := by
    intro c _ a b ha hb
    split
    · exact ha
    · exact hb
  unfold regBlock
  repeat refine ite_all (by decide +kernel) ?_
  rfl

theorem regRow_half {off : Nat} {r : RegRow} (h : regRow off = some r) (hh : r.half ≠ .whole) :
    r.priv ≠ .eventPost ∧ r.priv ≠ .threadCmd := by
  have := List.all_eq_true.mp (regBlock_half off) r (List.mem_of_find?_eq_some h)
  unfold RegRow.half_plain at this
  simpa [hh] using this

/-- No key register and no host queue register is half of a pair. -/
theorem halfOff {off : Nat} {r : RegRow} (hr : regRow off = some r) (hh : r.half ≠ .whole) :
    off ≠ R.WDT_KEY ∧ off ≠ R.SEC_RNG_CTL ∧ isRowKey off = false := by
  refine ⟨?_, ?_, ?_⟩
  · rintro rfl
    have : (regRow R.WDT_KEY).all (fun r => r.half == .whole) = true := by decide +kernel
    rw [hr] at this
    simp [hh] at this
  · rintro rfl
    have : (regRow R.SEC_RNG_CTL).all (fun r => r.half == .whole) = true := by decide +kernel
    rw [hr] at this
    simp [hh] at this
  · rw [Bool.eq_false_iff]
    intro hk
    unfold isRowKey at hk
    simp only [Bool.and_eq_true, decide_eq_true_eq, beq_iff_eq] at hk
    have key : ∀ o : Fin 8, (regRow (0x28104 + 0x1000 * o.val)).all (fun r => r.half == .whole) = true := by decide +kernel
    have e : off = 0x28104 + 0x1000 * ((off - 0x28104) / 0x1000) := by omega
    have k := key ⟨(off - 0x28104) / 0x1000, by omega⟩
    rw [← e, hr] at k
    simp [hh] at k

/-- A write of a lower half by a requester that may write every field is held. -/
theorem State.winWrite_lo {s : State} {req : Req} {off : Nat} {r : RegRow} (hc : CanWrite s req off) (hr : regRow off = some r)
    (hh : r.half = .lo) (hj : off < 0x24000 ∨ 0x24240 ≤ off) (hq : s.hqBusy off = false) (w : Word) :
    s.winWrite req off w = ⟨0, 0, { s with wrShadow := tabPut (reqCode req) (off, w) s.wrShadow }⟩ := by
  obtain ⟨-, -, h3, h4⟩ := hc
  have h4 := h4 r hr
  have hn : r.half ≠ .whole := by rw [hh]; simp
  obtain ⟨p1, p2⟩ := regRow_half hr hn
  obtain ⟨p3, p4, p5⟩ := halfOff hr hn
  have hwr := State.writeRefused_none hr h4 p1 p2 p3 p5 (by omega) w
  unfold State.winWrite
  rw [if_neg p4]
  unfold State.winWriteWith
  rw [h3, hr]
  simp only [Bool.not_true, Bool.false_eq_true, if_false, hq, Bool.false_and, hh]
  unfold State.writeLo
  simp only [hwr, Bool.false_eq_true, if_false, State.judged_all h4, RegRow.judgeAll_any (regRow_sound hr), if_true]
  rfl

/-- A write of the upper half by such a requester commits both, the lower half being the one it has written. -/
theorem State.winWrite_hi {s : State} {req : Req} {lo : Nat} {r rl : RegRow} {held : Word} (hc : CanWrite s req (lo + 4))
    (hr : regRow (lo + 4) = some r) (hh : r.half = .hi) (hrl : regRow lo = some rl)
    (hl : ∀ f ∈ rl.fields, s.mayWrite req lo (f.privIn rl) = true) (hj : lo + 4 < 0x24000 ∨ 0x24240 ≤ lo + 4)
    (hq : s.hqBusy (lo + 4) = false) (hs : tabFind (reqCode req) s.wrShadow = some (lo, held)) (w : Word) :
    s.winWrite req (lo + 4) w = ⟨0, 0, State.hook
        ((State.setReg { s with wrShadow := tabDel (reqCode req) s.wrShadow } lo
          (rl.judgeAll (s.flag R.WDT_CTL_LOCK) (s.reg lo) held).new).setReg (lo + 4)
            (r.judgeAll (s.flag R.WDT_CTL_LOCK) (s.reg (lo + 4)) w).new)
        (lo + 4) (s.reg (lo + 4)) (r.judgeAll (s.flag R.WDT_CTL_LOCK) (s.reg (lo + 4)) w).eff false⟩ := by
  obtain ⟨-, -, h3, h4⟩ := hc
  have h4 := h4 r hr
  have hn : r.half ≠ .whole := by rw [hh]; simp
  obtain ⟨p1, p2⟩ := regRow_half hr hn
  obtain ⟨p3, p4, p5⟩ := halfOff hr hn
  have hwr := State.writeRefused_none hr h4 p1 p2 p3 p5 (by omega) w
  have hheld : s.heldLo req lo = held := by
    unfold State.heldLo
    rw [hs]
    simp
  have hdrop : s.dropLo req lo = { s with wrShadow := tabDel (reqCode req) s.wrShadow } := by
    unfold State.dropLo
    rw [hs]
    simp
  unfold State.winWrite
  rw [if_neg p4]
  unfold State.winWriteWith
  rw [h3, hr]
  simp only [Bool.not_true, Bool.false_eq_true, if_false, hq, Bool.false_and, hh]
  unfold State.writeHi
  simp only [Nat.add_sub_cancel, hrl, hheld, hwr, Bool.false_eq_true, if_false, State.judged_all h4, State.judged_all hl, RegRow.judgeAll_any (regRow_sound hr),
    if_true, hdrop]
  rw [if_neg (by omega)]
  rfl

/-- A register that is written as a whole by its fields' access codes alone. -/
def RegRow.plain (r : RegRow) (off : Nat) : Bool :=
  r.half == .whole && r.priv != .eventPost && r.priv != .threadCmd && off != R.TAP_RRAM_DATA && off != R.WDT_KEY && !isRowKey off
    && off != R.SEC_RNG_CTL
    && !(decide (0x28000 ≤ off) && decide (off < 0x30000) && decide (0x200 ≤ off % 0x1000) && decide (off % 0x1000 < 0x300))

/-- The same for the commands that are a write of one named register. -/
theorem State.regDo_plain {s : State} {req : Req} {off : Nat} {r : RegRow} (hc : CanWrite s req off) (hr : regRow off = some r)
    (hp : r.plain off = true) (w : Word) :
    s.regDo req off w = (s.setReg off (r.judgeAll (s.flag R.WDT_CTL_LOCK) (s.reg off) w).new).hook off (s.reg off)
      (r.judgeAll (s.flag R.WDT_CTL_LOCK) (s.reg off) w).eff false := by
  unfold RegRow.plain at hp
  simp only [Bool.and_eq_true, Bool.not_eq_true', bne_iff_ne, ne_eq, beq_iff_eq] at hp
  obtain ⟨⟨⟨⟨⟨⟨⟨hh, p1⟩, p2⟩, p3⟩, p4⟩, p5⟩, p6⟩, p8⟩ := hp
  have hq : s.hqBusy off = false := by
    unfold State.hqBusy
    rw [Bool.and_eq_false_iff]
    left
    rw [decide_eq_false_iff_not]
    rintro ⟨a, b, c, d⟩
    rw [decide_eq_true a, decide_eq_true b, decide_eq_true c, decide_eq_true d] at p8
    simp at p8
  unfold State.regDo
  rw [hc.1, hc.2.1, State.winWrite_whole hc hr hh p1 p2 p3 p4 p5 p6 hq]
  rfl

/-- Only a fault enable register posts events for the bits that rise. -/
theorem State.enRise_none {off : Nat} (h : faultEnBlock off = none) (s : State) (old : Word) : s.enRise off old = s := by
  unfold State.enRise
  rw [h]

/-! ## Writes by masks -/

/-- The masks of a register without lockable fields: what a write stores, what acts, and of these what is cleared and what is set by a
1. Its write has no enable to raise. -/
def RegRow.masks (r : RegRow) (off : Nat) (m a c d : Word) : Bool :=
  r.plain off && (faultEnBlock off).isNone && decide (off < 0x4F000 ∨ 0x4F03C ≤ off) && r.bits (fun f => f.acc == .rwl) == 0
    && r.bits (fun f => f.acc == .rw) == m && r.bits (fun f => f.acc == .w1c || f.acc == .w1s || f.acc == .wo) == a
    && r.bits (fun f => f.acc == .w1c) == c && r.bits (fun f => f.acc == .w1s) == d
    && r.bits (fun f => f.acc == .rw || f.acc == .rwl) == m && r.bits (fun _ => true) &&& (m ||| a) == m ||| a
    && r.bits (fun f => f.acc == .rw || (f.acc == .rwl && true) || (f.acc == .wo && false)) == m
    && r.bits (fun f => f.acc == .rw || (f.acc == .rwl && true) || (f.acc == .wo && decide (0x4F000 ≤ r.base) && decide (r.base < 0x4F03C))) == m
    && r.bits (fun f => f.acc == .rw || (f.acc == .rwl && false) || (f.acc == .wo && decide (0x4F000 ≤ r.base) && decide (r.base < 0x4F03C))) == m

theorem State.regDo_masks {s : State} {req : Req} {off : Nat} {m a c d : Word} (hc : CanWrite s req off)
    (h : (regRow off).any (fun r => r.masks off m a c d) = true) (w : Word) :
    s.regDo req off w = (s.setReg off
      (((s.reg off &&& ~~~ m ||| w &&& m) &&& ~~~ (w &&& (m ||| a) &&& c)) ||| (w &&& (m ||| a) &&& d))).hook off (s.reg off)
        (w &&& (m ||| a)) false := by
  cases hr : regRow off with
  | none => rw [hr] at h; simp at h
  | some r =>
    rw [hr] at h
    simp only [Option.any_some] at h
    unfold RegRow.masks at h
    simp only [Bool.and_eq_true, beq_iff_eq] at h
    obtain ⟨⟨⟨⟨⟨⟨⟨⟨⟨⟨⟨⟨hp, -⟩, -⟩, -⟩, -⟩, ha⟩, hw⟩, hd⟩, -⟩, hok⟩, -⟩, ht⟩, hf⟩ := h
    rw [State.regDo_plain hc hr hp]
    have take : ∀ l, r.bits (fun f => f.acc == .rw || (f.acc == .rwl && !l)
        || (f.acc == .wo && decide (0x4F000 ≤ r.base) && decide (r.base < 0x4F03C))) = m := by
      intro l
      cases l
      · exact ht
      · exact hf
    have hm : m &&& r.bits (fun _ => true) = m := by
      generalize r.bits (fun _ => true) = ok at hok
      apply BitVec.eq_of_getLsbD_eq
      intro i hi
      have := congrArg (fun y => y.getLsbD i) hok
      simp only [BitVec.getLsbD_and, BitVec.getLsbD_or] at this ⊢
      revert this
      cases ok.getLsbD i <;> cases m.getLsbD i <;> simp
    have hA : a &&& r.bits (fun _ => true) = a := by
      generalize r.bits (fun _ => true) = ok at hok
      apply BitVec.eq_of_getLsbD_eq
      intro i hi
      have := congrArg (fun y => y.getLsbD i) hok
      simp only [BitVec.getLsbD_and, BitVec.getLsbD_or] at this ⊢
      revert this
      cases ok.getLsbD i <;> cases m.getLsbD i <;> cases a.getLsbD i <;> simp
    unfold RegRow.judgeAll RegRow.judge
    dsimp only
    rw [take, ha, hw, hd, hm, hA]

/-- The RW fields of a register as a read-modify-write keeps them. -/
theorem State.keep_masks {s : State} {off : Nat} {m a c d : Word}
    (h : (regRow off).any (fun r => r.masks off m a c d) = true) : s.keep off = s.reg off &&& m := by
  unfold State.keep
  cases hr : regRow off with
  | none => rw [hr] at h; simp at h
  | some r =>
    rw [hr] at h
    simp only [Option.any_some] at h
    unfold RegRow.masks at h
    simp only [Bool.and_eq_true, beq_iff_eq] at h
    obtain ⟨⟨⟨⟨⟨⟨⟨⟨⟨⟨⟨⟨-, -⟩, -⟩, -⟩, -⟩, -⟩, -⟩, -⟩, hrw⟩, -⟩, -⟩, -⟩, -⟩ := h
    dsimp only
    rw [hrw]

@[simp] theorem and_allOnes32 (x : Word) : x &&& 4294967295#32 = x := by
  apply BitVec.eq_of_getLsbD_eq
  intro i hi
  rw [BitVec.getLsbD_and, show (4294967295#32 : Word) = BitVec.allOnes 32 from rfl, BitVec.getLsbD_allOnes]
  simp [hi]

/-- The field lies in the mask. -/
def Fld.within (f : Fld) (m : Word) : Bool := f.ok && (List.range 32).all (fun i => !(decide (f.lo ≤ i) && decide (i < f.lo + f.w)) || m.getLsbD i)

theorem Fld.within_bit {f : Fld} {m : Word} (h : f.within m = true) {i : Nat} (h1 : f.lo ≤ i) (h2 : i < f.lo + f.w) :
    m.getLsbD i = true := by
  unfold Fld.within at h
  rw [Bool.and_eq_true, List.all_eq_true] at h
  have hk : f.lo + f.w ≤ 32 := by have := h.1; unfold Fld.ok at this; simpa using this
  have := h.2 i (List.mem_range.mpr (by omega))
  simpa [h1, h2] using this

theorem Fld.within_ok {f : Fld} {m : Word} (h : f.within m = true) : f.ok = true := by
  unfold Fld.within at h
  rw [Bool.and_eq_true] at h
  exact h.1

/-- A write of one RW field. -/
theorem State.fldDo_rw {s : State} {req : Req} {f : Fld} {m a c d : Word} (hc : CanWrite s req f.off)
    (h : (regRow f.off).any (fun r => r.masks f.off m a c d) = true) (hf : f.within m = true) (hma : m &&& a = 0) (hca : c &&& a = c)
    (hda : d &&& a = d) (v : Nat) :
    s.fldDo req f v = (s.setFld f v).hook f.off (s.reg f.off) (f.put v (s.reg f.off) &&& m) false := by
  unfold State.fldDo
  rw [State.regDo_masks hc h, State.keep_masks h, show s.setFld f v = s.setReg f.off (f.put v (s.reg f.off)) from rfl]
  generalize s.reg f.off = old
  have hok := Fld.within_ok hf
  have bit : ∀ i : Nat, (f.put v (old &&& m)).getLsbD i = ((f.put v old).getLsbD i && m.getLsbD i) := by
    intro i
    rw [f.getLsbD_put hok, f.getLsbD_put hok]
    by_cases hi : f.lo ≤ i ∧ i < f.lo + f.w
    · rw [if_pos hi, if_pos hi, Fld.within_bit hf hi.1 hi.2, Bool.and_true]
    · rw [if_neg hi, if_neg hi, BitVec.getLsbD_and]
  have e1 : f.put v (old &&& m) &&& (m ||| a) = f.put v old &&& m := by
    apply BitVec.eq_of_getLsbD_eq
    intro i hi
    simp only [BitVec.getLsbD_and, BitVec.getLsbD_or, bit]
    cases m.getLsbD i <;> simp
  have z : ∀ x, x &&& a = x → f.put v old &&& m &&& x = 0 := by
    intro x hx
    apply BitVec.eq_of_getLsbD_eq
    intro i hi
    have h1 := congrArg (fun y => y.getLsbD i) hma
    have h2 := congrArg (fun y => y.getLsbD i) hx
    simp only [BitVec.getLsbD_and] at h1 h2 ⊢
    revert h1 h2
    cases m.getLsbD i <;> cases x.getLsbD i <;> cases a.getLsbD i <;> simp
  rw [e1, z c hca, z d hda]
  have e2 : ((old &&& ~~~ m ||| f.put v (old &&& m) &&& m) &&& ~~~ 0 ||| 0) = f.put v old := by
    apply BitVec.eq_of_getLsbD_eq
    intro i hi
    simp only [BitVec.getLsbD_and, BitVec.getLsbD_or, BitVec.getLsbD_not, bit, hi, decide_true, Bool.true_and]
    by_cases hx : f.lo ≤ i ∧ i < f.lo + f.w
    · rw [Fld.within_bit hf hx.1 hx.2]; simp
    · rw [f.getLsbD_put hok, if_neg hx]
      cases old.getLsbD i <;> cases m.getLsbD i <;> simp
  rw [e2]

/-- A write of one field that acts and is not stored, the others written back. -/
theorem State.fldDo_act {s : State} {req : Req} {f : Fld} {m a c d : Word} (hc : CanWrite s req f.off)
    (h : (regRow f.off).any (fun r => r.masks f.off m a c d) = true) (hf : f.within a = true) (hma : m &&& a = 0) (hca : c &&& a = c)
    (hda : d &&& a = d) (hfc : f.put 0xFFFFFFFF 0 &&& (c ||| d) = 0) (v : Nat) :
    s.fldDo req f v = (s.setReg f.off (s.reg f.off)).hook f.off (s.reg f.off) (f.put v (s.reg f.off &&& m)) false := by
  unfold State.fldDo
  rw [State.regDo_masks hc h, State.keep_masks h]
  generalize s.reg f.off = old
  have hok := Fld.within_ok hf
  have bit : ∀ i : Nat, (f.put v (old &&& m)).getLsbD i =
      if f.lo ≤ i ∧ i < f.lo + f.w then v.testBit (i - f.lo) else old.getLsbD i && m.getLsbD i := by
    intro i
    rw [f.getLsbD_put hok, BitVec.getLsbD_and]
  have e1 : f.put v (old &&& m) &&& (m ||| a) = f.put v (old &&& m) := by
    apply BitVec.eq_of_getLsbD_eq
    intro i hi
    simp only [BitVec.getLsbD_and, BitVec.getLsbD_or, bit]
    split
    next hx => rw [Fld.within_bit hf hx.1 hx.2]; simp
    · cases m.getLsbD i <;> simp
  have z : ∀ x, x &&& a = x → f.put 0xFFFFFFFF 0 &&& x = 0 → f.put v (old &&& m) &&& x = 0 := by
    intro x hx hx'
    apply BitVec.eq_of_getLsbD_eq
    intro i hi
    have h1 := congrArg (fun y => y.getLsbD i) hma
    have h2 := congrArg (fun y => y.getLsbD i) hx
    have h3 := congrArg (fun y => y.getLsbD i) hx'
    simp only [BitVec.getLsbD_and, bit, f.getLsbD_put hok] at h1 h2 h3 ⊢
    split
    next hy =>
      rw [if_pos hy] at h3
      have hlt : i - f.lo < 32 := by omega
      have ht : Nat.testBit 0xFFFFFFFF (i - f.lo) = true := by
        rw [show (0xFFFFFFFF : Nat) = 2 ^ 32 - 1 from rfl, Nat.testBit_two_pow_sub_one]; simpa using hlt
      rw [ht, Bool.true_and] at h3
      rw [h3]; simp
    next hy =>
      revert h1 h2
      cases m.getLsbD i <;> cases x.getLsbD i <;> cases a.getLsbD i <;> simp
  have hcd : f.put 0xFFFFFFFF 0 &&& c = 0 ∧ f.put 0xFFFFFFFF 0 &&& d = 0 := by
    generalize f.put 0xFFFFFFFF 0 = y at hfc
    constructor <;>
    · apply BitVec.eq_of_getLsbD_eq
      intro i hi
      have := congrArg (fun y => y.getLsbD i) hfc
      simp only [BitVec.getLsbD_and, BitVec.getLsbD_or] at this ⊢
      revert this
      cases y.getLsbD i <;> cases c.getLsbD i <;> cases d.getLsbD i <;> simp
  rw [e1, z c hca hcd.1, z d hda hcd.2]
  have e2 : ((old &&& ~~~ m ||| f.put v (old &&& m) &&& m) &&& ~~~ 0 ||| 0) = old := by
    apply BitVec.eq_of_getLsbD_eq
    intro i hi
    simp only [BitVec.getLsbD_and, BitVec.getLsbD_or, BitVec.getLsbD_not, bit, hi, decide_true, Bool.true_and]
    split
    next hx =>
      have h1 := congrArg (fun y => y.getLsbD i) hma
      simp only [BitVec.getLsbD_and, Fld.within_bit hf hx.1 hx.2, Bool.and_true] at h1
      rw [h1]; simp
    · cases old.getLsbD i <;> cases m.getLsbD i <;> simp
  rw [e2]

/-- The same where the requester may write that field and none that is stored: `ok` are the bits it may write. -/
theorem State.fldDo_alone {s : State} {req : Req} {f : Fld} {m a ok : Word} {r : RegRow} (hl : s.reqLive req = true)
    (hr : reaches req f.off = true) (hg : s.granted (domainOf f.off) = true) (hrow : regRow f.off = some r)
    (h : r.masks f.off m a 0 0 = true) (hok : r.bits (fun g => s.mayWrite req f.off (g.privIn r)) = ok) (hf : f.within (a &&& ok) = true)
    (hma : m &&& a = 0) (hmo : m &&& ok = 0) (h0 : ok ≠ 0) (h6 : ¬ (0x24000 ≤ f.off ∧ f.off < 0x24240 ∧ f.off % 0x40 = 4)) (v : Nat) :
    s.fldDo req f v = (s.setReg f.off (s.reg f.off)).hook f.off (s.reg f.off) (f.put v 0) false := by
  have hm : (regRow f.off).any (fun r => r.masks f.off m a 0 0) = true := by rw [hrow]; exact h
  unfold State.fldDo
  rw [State.keep_masks hm]
  have hbit := Fld.within_ok hf
  have bit : ∀ i : Nat, (f.put v (s.reg f.off &&& m)).getLsbD i =
      if f.lo ≤ i ∧ i < f.lo + f.w then v.testBit (i - f.lo) else (s.reg f.off).getLsbD i && m.getLsbD i := by
    intro i
    rw [f.getLsbD_put hbit, BitVec.getLsbD_and]
  unfold RegRow.masks at h
  simp only [Bool.and_eq_true, beq_iff_eq] at h
  obtain ⟨⟨⟨⟨⟨⟨⟨⟨⟨⟨⟨⟨hp, -⟩, -⟩, -⟩, -⟩, ha⟩, hw⟩, hd⟩, hmm⟩, -⟩, -⟩, ht⟩, hff⟩ := h
  have take : ∀ l, r.bits (fun f => f.acc == .rw || (f.acc == .rwl && !l)
      || (f.acc == .wo && decide (0x4F000 ≤ r.base) && decide (r.base < 0x4F03C))) = m := by
    intro l
    cases l
    · exact ht
    · exact hff
  generalize hwv : f.put v (s.reg f.off &&& m) = wr
  rw [hwv] at bit
  have hj : s.judged req r f.off wr = ⟨s.reg f.off, f.put v 0, true, false⟩ := by
    unfold State.judged RegRow.judge
    simp only [take, ha, hw, hd, hmm, hok, hmo]
    congr 1
    · apply BitVec.eq_of_getLsbD_eq
      intro i hi
      simp [hi]
    · apply BitVec.eq_of_getLsbD_eq
      intro i hi
      simp only [BitVec.getLsbD_and, BitVec.getLsbD_or, bit, f.getLsbD_put hbit]
      split
      next hx =>
        have := Fld.within_bit hf hx.1 hx.2
        rw [BitVec.getLsbD_and] at this
        simp [this]
      · have h1 := congrArg (fun y => y.getLsbD i) hma
        simp only [BitVec.getLsbD_and] at h1
        revert h1
        cases m.getLsbD i <;> cases a.getLsbD i <;> simp
    · simpa using h0
    · rw [bne_eq_false_iff_eq]
      apply BitVec.eq_of_getLsbD_eq
      intro i hi
      have h1 := congrArg (fun y => y.getLsbD i) hma
      have h2 := congrArg (fun y => y.getLsbD i) hmo
      simp only [BitVec.getLsbD_and, BitVec.getLsbD_or, BitVec.getLsbD_xor, BitVec.getLsbD_not, bit] at h1 h2 ⊢
      split
      next hx =>
        have := Fld.within_bit hf hx.1 hx.2
        rw [BitVec.getLsbD_and] at this
        revert this h1
        cases m.getLsbD i <;> cases a.getLsbD i <;> cases ok.getLsbD i <;> simp
      · revert h1 h2
        cases m.getLsbD i <;> cases a.getLsbD i <;> cases ok.getLsbD i <;> simp
  unfold RegRow.plain at hp
  simp only [Bool.and_eq_true, Bool.not_eq_true', bne_iff_ne, ne_eq, beq_iff_eq] at hp
  obtain ⟨⟨⟨⟨⟨⟨⟨hh, p1⟩, p2⟩, p3⟩, p4⟩, p5⟩, p6⟩, p8⟩ := hp
  have hq : s.hqBusy f.off = false := by
    unfold State.hqBusy
    rw [Bool.and_eq_false_iff]
    left
    rw [decide_eq_false_iff_not]
    rintro ⟨a, b, c, d⟩
    rw [decide_eq_true a, decide_eq_true b, decide_eq_true c, decide_eq_true d] at p8
    simp at p8
  have hwr : s.writeRefused req r f.off wr = false := by
    unfold State.writeRefused
    dsimp only
    rw [if_neg p4, p5, if_neg (by simp), if_neg h6]
    split
    next h => exact absurd h p1
    next h => exact absurd h p2
    · rw [hj]
  unfold State.regDo
  rw [hl, hr, Bool.and_self, if_pos rfl]
  unfold State.winWrite
  rw [if_neg p6]
  unfold State.winWriteWith
  rw [hg, hrow]
  simp only [Bool.not_true, Bool.false_eq_true, if_false, hq, Bool.false_and, hh]
  unfold State.writeWhole
  simp only [hwr, Bool.false_eq_true, if_false, if_neg p3, if_neg p4, p5, hj, if_true]


/-- A register with masks is no fault enable. -/
theorem State.enRise_masks {off : Nat} {m a c d : Word} (h : (regRow off).any (fun r => r.masks off m a c d) = true)
    (s : State) (old : Word) : s.enRise off old = s := by
  refine State.enRise_none ?_ s old
  cases hr : regRow off with
  | none => rw [hr] at h; simp at h
  | some r =>
    rw [hr] at h
    simp only [Option.any_some] at h
    unfold RegRow.masks at h
    simp only [Bool.and_eq_true, beq_iff_eq] at h
    obtain ⟨⟨⟨⟨⟨⟨⟨⟨⟨⟨⟨⟨-, hn⟩, -⟩, -⟩, -⟩, -⟩, -⟩, -⟩, -⟩, -⟩, -⟩, -⟩, -⟩ := h
    exact Option.isNone_iff_eq_none.mp hn

/-! ## Which block's effect a write has -/

theorem State.hook_tap1 (s : State) {off : Nat} (h1 : 0x1000 ≤ off) (h2 : off < 0x1100) (old eff : Word) (pass : Bool) :
    s.hook off old eff pass = (s.enRise off old).tapHook off eff := by
  unfold State.hook
  dsimp only
  rw [if_neg (by omega), if_pos h2]

theorem State.hook_flt0 (s : State) {off : Nat} (_h1 : 0x0 ≤ off) (h2 : off < 0x1000) (old eff : Word) (pass : Bool) :
    s.hook off old eff pass = (s.enRise off old).fltHook off old eff := by
  unfold State.hook
  dsimp only
  rw [if_pos h2]

theorem State.hook_flt1 (s : State) {off : Nat} (h1 : 0x1100 ≤ off) (h2 : off < 0x2000) (old eff : Word) (pass : Bool) :
    s.hook off old eff pass = (s.enRise off old).fltHook off old eff := by
  unfold State.hook
  dsimp only
  rw [if_neg (by omega), if_neg (by omega), if_pos h2]

theorem State.hook_tap2 (s : State) {off : Nat} (h1 : 0x2000 ≤ off) (h2 : off < 0x3000) (old eff : Word) (pass : Bool) :
    s.hook off old eff pass = (s.enRise off old).tapHook off eff := by
  unfold State.hook
  dsimp only
  rw [if_neg (by omega), if_neg (by omega), if_neg (by omega), if_pos h2]

theorem State.hook_flt2 (s : State) {off : Nat} (h1 : 0x3000 ≤ off) (h2 : off < 0x10000) (old eff : Word) (pass : Bool) :
    s.hook off old eff pass = (s.enRise off old).fltHook off old eff := by
  unfold State.hook
  dsimp only
  rw [if_neg (by omega), if_neg (by omega), if_neg (by omega), if_neg (by omega), if_pos h2]

theorem State.hook_loop (s : State) {off : Nat} (h1 : 0x10000 ≤ off) (h2 : off < 0x18000) (old eff : Word) (pass : Bool) :
    s.hook off old eff pass = (s.enRise off old).loopHook off old eff := by
  unfold State.hook
  dsimp only
  rw [if_neg (by omega), if_neg (by omega), if_neg (by omega), if_neg (by omega), if_neg (by omega), if_pos h2]

theorem State.hook_cnv (s : State) {off : Nat} (h1 : 0x18000 ≤ off) (h2 : off < 0x1a000) (old eff : Word) (pass : Bool) :
    s.hook off old eff pass = (s.enRise off old).cnvHook off old eff := by
  unfold State.hook
  dsimp only
  rw [if_neg (by omega), if_neg (by omega), if_neg (by omega), if_neg (by omega), if_neg (by omega), if_neg (by omega), if_pos h2]

theorem State.hook_fan (s : State) {off : Nat} (h1 : 0x1a000 ≤ off) (h2 : off < 0x1b000) (old eff : Word) (pass : Bool) :
    s.hook off old eff pass = (s.enRise off old).fanHook off := by
  unfold State.hook
  dsimp only
  iterate 7 rw [if_neg (by omega)]
  rw [if_pos h2]

theorem State.hook_bat (s : State) {off : Nat} (h1 : 0x1b000 ≤ off) (h2 : off < 0x1c000) (old eff : Word) (pass : Bool) :
    s.hook off old eff pass = (s.enRise off old).batHook off old eff := by
  unfold State.hook
  dsimp only
  iterate 8 rw [if_neg (by omega)]
  rw [if_pos h2]

theorem State.hook_tw (s : State) {off : Nat} (h1 : 0x1c000 ≤ off) (h2 : off < 0x1e000) (old eff : Word) (pass : Bool) :
    s.hook off old eff pass = (s.enRise off old).twHook off eff := by
  unfold State.hook
  dsimp only
  iterate 9 rw [if_neg (by omega)]
  rw [if_pos h2]

theorem State.hook_gov (s : State) {off : Nat} (h1 : 0x1e000 ≤ off) (h2 : off < 0x20000) (old eff : Word) (pass : Bool) :
    s.hook off old eff pass = (s.enRise off old).govHook off old eff := by
  unfold State.hook
  dsimp only
  iterate 10 rw [if_neg (by omega)]
  rw [if_pos h2]

theorem State.hook_esp (s : State) {off : Nat} (h1 : 0x20000 ≤ off) (h2 : off < 0x28000) (old eff : Word) (pass : Bool) :
    s.hook off old eff pass = (s.enRise off old).espHook off old eff := by
  unfold State.hook
  dsimp only
  iterate 11 rw [if_neg (by omega)]
  rw [if_pos h2]

theorem State.hook_row (s : State) {off : Nat} (h1 : 0x28000 ≤ off) (h2 : off < 0x30000) (old eff : Word) (pass : Bool) :
    s.hook off old eff pass = (s.enRise off old).rowHook off old eff := by
  unfold State.hook
  dsimp only
  iterate 12 rw [if_neg (by omega)]
  rw [if_pos h2]

theorem State.hook_usb (s : State) {off : Nat} (h1 : 0x50000 ≤ off) (h2 : off < 0x54000) (old eff : Word) (pass : Bool) :
    s.hook off old eff pass = (s.enRise off old).usbHook off eff := by
  unfold State.hook
  dsimp only
  iterate 14 rw [if_neg (by omega)]
  rw [if_neg (by unfold R.MSEC_CMD; omega), if_neg (by omega), if_pos h2]

theorem State.hook_graft (s : State) {off : Nat} (h1 : 0x58000 ≤ off) (h2 : off < 0x5c000) (old eff : Word) (pass : Bool) :
    s.hook off old eff pass = (s.enRise off old).graftHook off old eff := by
  unfold State.hook
  dsimp only
  iterate 14 rw [if_neg (by omega)]
  rw [if_neg (by unfold R.MSEC_CMD; omega), if_neg (by omega), if_neg (by omega), if_neg (by omega), if_pos h2]

theorem State.hook_sec (s : State) {off : Nat} (h1 : 0x64000 ≤ off) (old eff : Word) (pass : Bool) :
    s.hook off old eff pass = (s.enRise off old).secHook off eff pass := by
  unfold State.hook
  dsimp only
  iterate 14 rw [if_neg (by omega)]
  rw [if_neg (by unfold R.MSEC_CMD; omega), if_neg (by omega), if_neg (by omega), if_neg (by omega), if_neg (by omega), if_neg (by omega), if_neg (by omega)]

theorem State.hook_ring (s : State) (old eff : Word) (pass : Bool) :
    s.hook R.RING_CTL old eff pass = (let t := s.enRise R.RING_CTL old
      let t := if bitOf eff 0 then t.ringStart else t
      if bitOf eff 1 then t.ringStop else t) := rfl

theorem State.hook_msec (s : State) (old eff : Word) (pass : Bool) :
    s.hook R.MSEC_CMD old eff pass = (if bitOf eff 0 then (s.enRise R.MSEC_CMD old).commitSa else s.enRise R.MSEC_CMD old) := rfl

end Sys2Proof.Machine
end

