-- ==== Sys2Proof/Laws/Rows.lean ====
section
/-! SUPPORT. What the fields of a host descriptor are, in the words that H2D_DESCRIPTOR and D2H_DELIVERY carry (Table 12.3, R431). -/

namespace Sys2Proof.Machine

/-- The 16 bytes of a descriptor as a number, from its words. -/
theorem desc_toNat (addr : BitVec 64) (len tag : BitVec 16) (w3 : Word) :
    BitVec.toNat (w := 128) (w3 ++ (tag ++ len : Word) ++ addr) =
      (w3.toNat * 2 ^ 32 + tag.toNat * 2 ^ 16 + len.toNat) * 2 ^ 64 + addr.toNat := by
  have h1 := BitVec.toNat_append (w3 ++ (tag ++ len : Word)) addr
  have h2 := BitVec.toNat_append w3 (tag ++ len : Word)
  have h3 := BitVec.toNat_append tag len
  rw [← Nat.shiftLeft_add_eq_or_of_lt (by omega)] at h1 h2 h3
  rw [Nat.shiftLeft_eq] at h1 h2 h3
  have e : BitVec.toNat (w := 128) (w3 ++ (tag ++ len : Word) ++ addr) = BitVec.toNat (w3 ++ (tag ++ len : Word) ++ addr) := rfl
  have e3 : BitVec.toNat (w := 32) (tag ++ len) = BitVec.toNat (tag ++ len) := rfl
  rw [e, h1, h2, e3, h3]; omega

/-- LEN is the lower half of word 2. -/
theorem descLen_words (addr : BitVec 64) (len tag : BitVec 16) (w3 : Word) :
    descLen (w3 ++ (tag ++ len : Word) ++ addr) = len.toNat := by
  unfold descLen
  rw [BitVec.toNat_ushiftRight, desc_toNat, Nat.shiftRight_eq_div_pow]; omega

/-- TAG is the upper half of word 2. -/
theorem descTag_words (addr : BitVec 64) (len tag : BitVec 16) (w3 : Word) :
    descTag (w3 ++ (tag ++ len : Word) ++ addr) = tag.toNat := by
  unfold descTag
  rw [BitVec.toNat_ushiftRight, desc_toNat, Nat.shiftRight_eq_div_pow]; omega

/-- ADDR is the first eight bytes. -/
theorem descAddr_words (addr : BitVec 64) (len tag : BitVec 16) (w3 : Word) :
    descAddr (w3 ++ (tag ++ len : Word) ++ addr) = addr := by
  unfold descAddr
  apply BitVec.eq_of_toNat_eq
  rw [BitVec.truncate, BitVec.toNat_setWidth, desc_toNat]; omega

end Sys2Proof.Machine
end

