-- ==== Sys2Proof/Tests/Slice0.lean ====
section
/-! SUPPORT. Tests: ill-formed operands that each check of WellFormed.lean refuses, words written out from the encoding tables,
and for every statement with hypotheses a state and operands that meet them. -/

set_option Elab.async false

namespace Sys2Proof.Tests

open Sys2Proof Sys2Proof.Machine

/-! ## What is well formed -/

theorem test_access_width : Instr.wf (.registerWrite .rootstock (.dev 0xF000000040) 3 0) = false ∧
    Instr.wf (.registerWrite .rootstock (.dev 0xF000000040) 8 0) = true := by decide

theorem test_access_target : Instr.wf (.loRead (.bar0 1) ⟨.dev 0xF000000040, 4⟩) = false ∧
    Instr.wf (.hiWrite .pf0Bar4 (.bar2 0) 0) = false ∧ Instr.wf (.hiRead (.bar0 1) (.bar0 8)) = true := by decide

theorem test_mv_zero : Instr.wf (.mv (.rs 0) 0 0) = false ∧ Instr.wf (.mv (.rs 0) 0 1) = true := by decide

theorem test_compact_byte_load : Instr.wf (.agLoad (.rs 0) (.c 1 3 true) .byte) = false ∧
    Instr.wf (.agLoad (.rs 0) (.c 1 3 true) .byteu) = false ∧ Instr.wf (.agLoad (.rs 0) (.w 1 3 true) .byte) = true := by decide

theorem test_compact_byte_store : Instr.wf (.agStore (.rs 0) (.c 1 3 true) .byte) = false ∧
    Instr.wf (.agStore (.rs 0) (.c 1 3 true) .half) = true := by decide

theorem test_helper_code : Instr.wf (.hreq (.scion 0) 5 0 1 2) = false ∧ Instr.wf (.hreq (.scion 0) 4 0 1 2) = true := by decide

theorem test_descriptor_length : Instr.wf (.h2dDescriptor 0 0 0 2 0 [1] false) = false ∧
    Instr.wf (.h2dDescriptor 0 0 0 0x00050001 0 [1] false) = true := by decide

theorem test_bulk_packet_length : Instr.wf (.bulkOutPacket (List.replicate 513 0)) = false ∧
    Instr.wf (.bulkOutPacket (List.replicate 512 0)) = true := by decide +kernel

theorem test_pmbus_transfer_length : Instr.wf (.page (.write (List.replicate 256 0) none)) = false ∧
    Instr.wf (.page (.write (List.replicate 255 0) none)) = true := by decide +kernel

/-! ## Words written out from Tables 5.3 to 5.16, field by field -/

theorem test_decode_add_c : (decodeWord 0b0000000000000000_0000_0011_0101_0001).map (· (.rs 0)) =
    some (.add (.rs 0) (.c 3 5)) := by decide

theorem test_decode_mul : (decodeWord 0b00111_00000001000_11_0000_00101_00110).map (· (.rs 0)) =
    some (.mul (.rs 0) 5 6 7) := by decide

theorem test_decode_ldh : (decodeWord 0b1111111111110_001_11_0101_00101_00110).map (· (.rs 0)) =
    some (.ldh (.rs 0) 5 6 0x1FFE) := by decide

theorem test_decode_ag_store : (decodeWord 0b0000000000000_001_11_0111_00101_01110).map (· (.rs 0)) =
    some (.agStore (.rs 0) (.w 5 2 true) .half) := by decide

theorem test_decode_macl : (decodeWord 0b00111_00_00000_0000_11_1101_00010_00110).map (· (.rs 0)) =
    some (.macl (.rs 0) 2 6 7) := by decide

theorem test_decode_bcond : (decodeWord 0b1111111111111110_11_1000_0001_111111).map (· (.rs 0)) =
    some (.bcond (.rs 0) (.w 1 0x3FFFFE)) := by decide

theorem test_decode_callm : (decodeWord 0b0000000000010000_11_1011_00000_00011).map (· (.rs 0)) =
    some (.callm (.rs 0) (.rel 3 16)) := by decide

theorem test_decode_hreq : (decodeWord 0b00111_0000_011_0101_11_1110_00010_00110).map (· (.rs 0)) =
    some (.hreq (.rs 0) 3 2 6 7) := by decide

theorem test_decode_mts : (decodeWord 0b00000_00100010_001_11_1111_00000_00110).map (· (.rs 0)) =
    some (.mts (.rs 0) 0x22 6) := by decide

theorem test_decode_undefined : decodeWord 0 = none ∧ decodeWord 0b00000_00000011000_11_0000_00000_00000 = none := by decide

/-! ## A device in operation -/

/-- The device in operation: every domain granted, every block ready. -/
def bench : State :=
  State.setReg (State.setReg (State.setReg (State.setReg { tap := { mode := .running, refSys := .running, vioGood := true }, boot := { boughsOn := true } }
    R.IDR_READY_0 0xFFFFFFFF) R.IDR_READY_1 0xFFFFFFFF) R.PDC_GRANT 0xFFFF) R.PCIE_HOSTPRIV 1

/-- The first scion thread. -/
def t0 : Thr := .scion 0

/-- The first scion thread runs in row 1 with the largest and the smallest words in its registers. -/
def runner : State := bench.setThr 0
  { state := .run, row := 1, pc := 0x100, tsr := 0x20, tsp := 0x1000,
    g := [(1, 0x7FFFFFFF), (2, 0x80000000), (3, 0xFFFFFFFF), (4, 0x1000), (5, 0x200), (6, 0x80000000)],
    a := [(0, 0x7FFFFFFFFF), (1, 0x8000000000)], ag := [(0, { base := 0x1000, idx := 4, mode := 0 }), (1, { mode := 3 })] }

/-- The runner with other contents. -/
def runnerWith (f : Thread → Thread) : State := runner.setThr 0 (f (runner.own t0))

theorem witness_SumsAndDifferences :
    aluArgs (runner.own t0) (.c 1 2) = (2, 1, 0x7FFFFFFF, 0x80000000) ∧ CanIssue runner t0 2 ∧
    aluArgs (runner.own t0) (.w 0 3 3) = (4, 0, 0xFFFFFFFF, 0xFFFFFFFF) ∧ CanIssue runner t0 4 ∧
    addiArgs (runner.own t0) (.c 1 0x7F) = (2, 1, 0x7FFFFFFF, 0x7F) ∧
    addiArgs (runner.own t0) (.w 0 2 0xFFFF) = (4, 0, 0x80000000, 0xFFFFFFFF) ∧
    (runner.own t0).gr (0 : BitVec 4).toNat = 0 ∧ (runner.own t0).gr (2 : BitVec 4).toNat = 0x80000000 ∧
    (0x80 : BitVec 8).signExtend 32 = (0xFFFFFF80 : Word) ∧ (runner.own t0).gr (3 : BitVec 5).toNat = 0xFFFFFFFF ∧
    (runner.own t0).fc = false ∧ ((runnerWith (fun t => { t with tsr := 0x24 })).own t0).fc = true := by
  unfold CanIssue; decide +kernel

theorem witness_LogicAndShifts :
    aluArgs (runner.own t0) (.c 1 3) = (2, 1, 0x7FFFFFFF, 0xFFFFFFFF) ∧ CanIssue runner t0 2 ∧
    aluArgs (runner.own t0) (.w 0 2 3) = (4, 0, 0x80000000, 0xFFFFFFFF) ∧ CanIssue runner t0 4 ∧
    shiftArgs (runner.own t0) (.c 1 31) = (2, 1, 0x7FFFFFFF, 31) ∧
    shiftArgs (runner.own t0) (.w 0 2 0) = (4, 0, 0x80000000, 0) := by
  unfold CanIssue; decide +kernel

theorem witness_MovesAndProducts : CanIssue runner t0 2 ∧ CanIssue runner t0 4 ∧
    (runner.own t0).gr (2 : BitVec 5).toNat = 0x80000000 ∧ (runner.own t0).gr (0 : BitVec 5).toNat = 0 := by
  unfold CanIssue; decide +kernel

theorem witness_BitCountsAndExtracts :
    unaryArgs (runner.own t0) (.c 1 2) = (2, 1, 0x80000000) ∧ CanIssue runner t0 2 ∧
    unaryArgs (runner.own t0) (.w 0 2) = (4, 0, 0x80000000) ∧ CanIssue runner t0 4 ∧
    (runner.own t0).gr (0 : BitVec 5).toNat = 0 ∧ (runner.own t0).gr (3 : BitVec 5).toNat = 0xFFFFFFFF := by
  unfold CanIssue; decide +kernel

theorem witness_MultiplyAccumulate : CanIssue runner t0 4 ∧ (runner.own t0).gr (2 : BitVec 5).toNat = 0x80000000 ∧
    (runner.own t0).acc (0 : BitVec 2).toNat = 0x7FFFFFFFFF ∧ (runner.own t0).acc (1 : BitVec 2).toNat = 0x8000000000 ∧
    roundShift (runner.own t0).rnd ((0x80000000 : Word).toInt * (0x80000000 : Word).toInt) 31 = 2 ^ 31 := by
  unfold CanIssue; decide +kernel

theorem witness_FractionalOperations : CanIssue runner t0 4 ∧ (runner.own t0).gr (1 : BitVec 5).toNat = 0x7FFFFFFF ∧
    (0x7FFFFFFF : Word).extractLsb' 0 16 = (0xFFFF : BitVec 16) ∧ (0x7FFFFFFF : Word).extractLsb' 16 16 = (0x7FFF : BitVec 16) ∧
    -8 ≤ (0x18 : BitVec 5).toInt ∧ (0x18 : BitVec 5).toInt ≤ 8 ∧ -8 ≤ (8 : BitVec 5).toInt ∧ (8 : BitVec 5).toInt ≤ 8 ∧
    (0x17 : BitVec 5).toInt < -8 ∧ 8 < (9 : BitVec 5).toInt := by
  unfold CanIssue; decide +kernel

theorem witness_RoundingModes : roundShift 0 (-3) 1 = -2 ∧ roundShift 1 (-3) 1 = -1 ∧ roundShift 2 (-3) 1 = -2 ∧
    roundShift 2 (-1) 1 = 0 ∧ roundShift 3 (-3) 1 = -2 := by decide +kernel

theorem witness_BranchesAndJumps : CanIssue runner t0 2 ∧ CanIssue runner t0 4 ∧
    bccArgs (.c 0xF 0x80) = (2, 0xF, 0xFFFFFF80) ∧ bccArgs (.w 0 0x200000) = (4, 0, 0xFFE00000) ∧
    (runner.own t0).holds 0 = true ∧ (runner.own t0).holds 0xF = false ∧
    bzArgs (.c 0 0x40) = (2, 0, 0xFFFFFFC0) ∧ bzArgs (.w 1 0x7FFF) = (4, 1, 0x7FFF) ∧
    (runner.own t0).gr 0 = 0 ∧ (runner.own t0).gr 1 ≠ 0 := by
  unfold CanIssue; decide +kernel

theorem witness_ConditionsAfterCompare : ∃ a : Thread, a.fz = ((0x80000000 : Word) - 1 == 0) ∧ a.fn = ((0x80000000 : Word) - 1).msb ∧
    a.fc = decide ((1 : Word).toNat ≤ (0x80000000 : Word).toNat) ∧
    a.fv = !fits 32 ((0x80000000 : Word).toInt - (1 : Word).toInt) := ⟨{ state := .run, tsr := 0xC }, by decide +kernel⟩

theorem witness_LoadsTakeTheirValue :
    memArgs (runner.own t0) (.c 1 4 1) = (2, 1, 0x1004) ∧ CanIssue runner t0 2 ∧ (runner.dataRead t0 0x1004 4).code = 0 ∧
    memArgs (runner.own t0) (.w 0 4 0x1FFC) = (4, 0, 0xFFC) ∧ CanIssue runner t0 4 ∧ (runner.dataRead t0 0xFFC 4).code = 0 ∧
    (runner.dataRead t0 0xFFE 2).code = 0 ∧ (runner.dataRead t0 0x1003 1).code = 0 ∧
    agArgs (.w 1 0 true) = (4, 1, 0, true) ∧ ((runner.own t0).agen 0).mode ≠ 3 ∧
    ((runner.own t0).agen 0).base + ((runner.own t0).agen 0).idx = 0x1004 := by
  unfold CanIssue; decide +kernel

theorem witness_StoresAndAtomics :
    memArgs (runner.own t0) (.c 1 4 0) = (2, 1, 0x1000) ∧ CanIssue runner t0 2 ∧ CanIssue runner t0 4 ∧
    ((runnerWith (fun t => { t with pc := t.pc + 2 })).dataWrite t0 0x1000 4 7).code = 0 ∧
    ((runnerWith (fun t => { t with pc := t.pc + 4 })).dataWrite t0 0x1002 2 7).code = 0 ∧
    ((runnerWith (fun t => { t with pc := t.pc + 4 })).dataWrite t0 0x1003 1 7).code = 0 ∧
    agArgs (.c 1 0 true) = (2, 1, 0, true) ∧ ((runner.own t0).agen 0).mode ≠ 3 ∧
    ((runnerWith (fun t => { t.setAgen 0 (t.agen 0).bump with pc := t.pc + 2 })).dataWrite t0 0x1004 4 7).code = 0 ∧
    (runner.dataSwap t0 0x1000 (fun w => (w + 1) % 2 ^ 32)).code = 0 := by
  unfold CanIssue; decide +kernel

theorem witness_MemoryAccesses : (∃ m, runner.dataPlace t0 0x3FFFFFC = some (.inl 0x3FFFFFC) ∧ memAt 0x3FFFFFC 4 = some m ∧ m ≠ .regs ∧
    runner.granted m.domain = true ∧ runner.eccAt 0x3FFFFFC = 0) ∧ (∃ m, runner.dataPlace t0 3 = some (.inl 3) ∧ memAt 3 1 = some m ∧
    m ≠ .regs ∧ runner.granted m.domain = true ∧ runner.eccAt 3 = 0) := ⟨⟨.buf, by decide +kernel⟩, ⟨.buf, by decide +kernel⟩⟩

theorem witness_AlignmentAndModeExceptions : memArgs (runner.own t0) (.w 0 4 1) = (4, 0, 0x1001) ∧ CanIssue runner t0 4 ∧
    memArgs (runner.own t0) (.c 1 3 0) = (2, 1, 0xFFFFFFFF) ∧ CanIssue runner t0 2 ∧ (0x1001 : Word).toNat % 4 ≠ 0 ∧
    (0x1001 : Word).toNat % 2 ≠ 0 ∧ agArgs (.w 1 1 true) = (4, 1, 1, true) ∧ agArgs (.c 1 1 false) = (2, 1, 1, false) ∧
    ((runner.own t0).agen 1).mode = 3 := by
  unfold CanIssue; decide +kernel

/-- The runner with a full return stack, and with the frame of one register in memory. -/
def fullStack (wrap : Word) : State := runnerWith (fun t => { t with rstk := List.replicate 16 0x20, tsr := t.tsr ||| wrap })

/-- The runner inside a call whose frame holds g4. -/
def called : State := (runnerWith (fun t => { t with rstk := [0x20] })).poke 0x1000 [0x10, 0, 0x11, 0xCA, 1, 2, 3, 4]

theorem witness_CallsAndReturns : callArgs (runner.own t0) (runner.own t0).pc (.reg 5 0xFFFF) = (0xFFFF, 0x200) ∧
    callArgs (runner.own t0) (runner.own t0).pc (.rel 0 0x1FFFFF) = (0, 0xFE) ∧ CanIssue runner t0 4 ∧
    (runner.own t0).rstk.length < 16 ∧ (runner.own t0).tsp.toNat % 4 = 0 ∧
    (runner.storeFrame t0 (((0xCA11 : BitVec 16) ++ (0xFFFF : BitVec 16)) ::
      (maskRegs 0xFFFF).map (fun r => (runner.own t0).gr r)) ((runner.own t0).tsp - BitVec.ofNat 32 (4 * (1 + (maskRegs 0xFFFF).length)))).1
      = 0 ∧
    CanIssue (fullStack 0) t0 4 ∧ ((fullStack 0).own t0).rswrap = false ∧ 16 ≤ ((fullStack 0).own t0).rstk.length ∧
    CanIssue (fullStack 0x100) t0 4 ∧ ((fullStack 0x100).own t0).rswrap = true ∧
    CanIssue called t0 2 ∧ (called.own t0).rstk = [0x20] ∧ (called.own t0).tsp.toNat % 4 = 0 ∧
    (called.dataRead t0 0x1000 4).code = 0 ∧ (called.dataRead t0 0x1000 4).val / 2 ^ 16 = 0xCA11 ∧ (called.loadFrame t0 1 0x1004 []).1 = 0 ∧
    CanIssue runner t0 2 ∧ (runner.own t0).rstk = [] := by
  unfold CanIssue; decide +kernel

/-- The runner with a second idle thread in its row, and with a child that is done. -/
def family : State := (runner.setThr 1 { state := .idle, row := 1 }).setThr 2 { state := .done, row := 1, parent := some 0 }

theorem witness_ForkAndJoin : CanIssue family t0 4 ∧ (family.own t0).gr (5 : BitVec 5).toNat = 0x200 ∧ bitOf 0x200 0 = false ∧
    family.forkPick 0 = some (1, false) ∧ bitOf ((family.own t0).gr (3 : BitVec 5).toNat) 0 = true ∧ runner.forkPick 0 = none ∧
    family.joinChild 0 2 = some 2 ∧ (family.thr 2).state = .done ∧ 2 ≠ thrKey t0 ∧
    (family.setThr 2 { state := .run, row := 1, parent := some 0 }).joinChild 0 2 = some 2 ∧
    family.joinChild 0 1 = none ∧ family.joinChild 0 0x200 = none ∧
    ((family.setThr 0 { state := .wait, wait := .join 2 }).own t0).wait = .join 2 ∧
    ((family.setThr 0 { state := .wait, wait := .join 1 }).thr 1).parent ≠ some 0 := by
  unfold CanIssue; decide +kernel

theorem witness_WaitsAndEvents : CanIssue runner t0 4 ∧ (runner.own t0).gr (2 : BitVec 5).toNat = 0x80000000 ∧
    (runner.own t0).gr (0 : BitVec 5).toNat = 0 ∧ 0x80000000 < ((runner.own t0).gr (3 : BitVec 5).toNat).toNat ∧
    ((runner.setThr 0 { state := .wait, wait := .waitt }).own t0).wait = .waitt ∧
    (BitVec.ofNat 32 (runner.setThr 0 { state := .wait, wait := .waitt }).dtbNow -
      ((runner.setThr 0 { state := .wait, wait := .waitt }).own t0).tcmp).msb = false ∧
    ((runner.own t0).gr (0 : BitVec 5).toNat).truncate 8 = (0 : Byte) ∧
    ((runner.own t0).gr (3 : BitVec 5).toNat).truncate 8 = (0xFF : Byte) ∧ (runner.own t0).tevt &&& 0xFF = 0 ∧
    ((runnerWith (fun t => { t with tevt := 0x80 })).own t0).tevt &&& (0xFF : Byte).zeroExtend 32 ≠ 0 ∧
    ((runnerWith (fun t => { t with tevt := 0x81, state := .wait, wait := .waite 1 1 })).own t0).wait = .waite 1 1 ∧
    bitOf ((runnerWith (fun t => { t with tevt := 0x200 })).own t0).tevt 9 = true := by
  unfold CanIssue; decide +kernel

/-- The runner with completion register 7 in the state given. -/
def completing (c : Compl) : State := runnerWith (fun t => t.setCompletion 7 c)

/-- The runner with the last twelve bytes of its data memory as a request area: g5 leads there, g7 asks for operation 1. -/
def asking : State := runnerWith (fun t => { t with xar := [(0, 4)], g := [(5, 0x207FF4), (7, 1)] })

theorem witness_HelperRequestsAndCompletions : CanIssue asking t0 4 ∧ (asking.own t0).gr (5 : BitVec 5).toNat = 0x207FF4 ∧
    (asking.own t0).gr (7 : BitVec 5).toNat = 1 ∧ (asking.own t0).eaMap 0x207FF4 = 0x100207FF4 ∧
    asking.areaBytes 0 2 1 0x100207FF4 1 = 12 ∧ asking.helpers = [] ∧ (asking.own t0).completion 7 = .idle ∧ helperOp 2 1 = true ∧
    ownArea 0 0x100207FF4 12 = true ∧ tabGet false 60 asking.admOff = false ∧ tabGet false 68 asking.admOff = false ∧
    CanIssue (completing (.held 5)) t0 4 ∧ ((completing (.held 5)).own t0).completion 7 = .held 5 ∧
    CanIssue (completing .outstanding) t0 4 ∧ ((completing .outstanding).own t0).completion 7 = .outstanding ∧
    CanIssue (completing .idle) t0 4 ∧ ((completing .idle).own t0).completion 7 = .idle ∧
    ((runnerWith (fun t => { t.setCompletion 7 (.held 5) with state := .wait, wait := .hwait 1 7 })).own t0).wait = .hwait 1 7 ∧
    ((runnerWith (fun t => { t.setCompletion 7 (.held 5) with state := .wait, wait := .hwait 1 7 })).own t0).completion 7 = .held 5 ∧
    CanIssue (runner.setThr 519 { state := .run, tsr := 0x820 }) (.rs 7) 4 := by
  unfold CanIssue; decide +kernel

theorem witness_ExceptionEntryAndReturn : bitOf (runner.own t0).tsr 9 = false ∧
    runner.flag (R.ROW_POLICY_FPOL (runner.own t0).row) = false ∧ CanIssue runner t0 2 ∧ CanIssue runner t0 4 ∧
    CanIssue (runnerWith (fun t => { t with tsr := 0x620 })) t0 2 ∧
    plOf ((runnerWith (fun t => { t with tsr := 0x620 })).own t0).tsr ≠ 0 ∧ plOf (runner.own t0).tsr = 0 ∧
    bitOf ((runnerWith (fun t => { t with tsr := 0x620 })).thr 0).tsr 9 = true := by
  unfold CanIssue; decide +kernel

theorem witness_SystemRegisterMoves : CanIssue runner t0 4 ∧ sysReg 0 = true ∧ sysReg 0x24 = true ∧ sysReg 0x0C = false ∧
    sysReg 0x25 = false ∧ plOf (runner.own t0).tsr = 0 ∧ mtsPriv 0 = false ∧ mtsPriv 1 = true ∧ mtsPriv 8 = true ∧ mtsPriv 0x0C = false ∧
    CanIssue (runnerWith (fun t => { t with tsr := 0x420 })) t0 4 ∧ plOf ((runnerWith (fun t => { t with tsr := 0x420 })).own t0).tsr ≠ 0
    := by
  unfold CanIssue; decide +kernel

theorem witness_FetchFenceAndQuit : ((runnerWith (fun t => { t with pc := 0x40000 })).own t0).state = .run ∧
    0x40000 ≤ ((runnerWith (fun t => { t with pc := 0x40000 })).own t0).pc.toNat ∧
    ((runnerWith (fun t => { t with pc := 0x101 })).own t0).pc.toNat % 2 = 1 ∧ decodeWord 0 = none ∧ CanIssue runner t0 2 ∧
    CanIssue runner t0 4 ∧ runner.eccAt (0x100000000 + 0x106) = 0 ∧
    { runner with ecc := [(0x40000040, 1)] }.eccAt 0x100000100 = 1 ∧ { runner with ecc := [(0x40000040, 2)] }.eccAt 0x100000100 = 2 ∧
    (runnerWith (fun t => { t with pc := 0x3FFF8 })).fetchExc 0 4 0x3FFF8 = none ∧ 0x3FFF8 + 2 * 3 < 0x40000 ∧
    (bench.setThr 5 { state := .run, row := 1 }).quitBarred 5 = false ∧ bench.quitBarred 512 = true ∧
    CanIssue (bench.setThr 512 { state := .run, tsr := 0x820 }) (.rs 0) 2 := by
  unfold CanIssue; decide +kernel

theorem witness_EventPosts : (bench.thr 0).state = .unassigned ∧ (bench.thr 512).state = .idle ∧ (runner.thr 0).state = .run ∧
    ((runnerWith (fun t => { t with tevt := 0x80 })).thr 0).tevt.getLsbD 7 = true ∧ (runner.thr 0).tevt.getLsbD 7 = false := by
  decide +kernel

/-! ## Registers, taproot, power and boot -/

theorem witness_RegisterAccesses :
    place .rootstock (.dev 0xF000000000) = some (.dev (0xF000000000 + 0)) ∧
    place .rootstock (.dev (BitVec.ofNat 40 (0xF000000000 + R.DTB_LO))) = some (.dev (0xF000000000 + R.DTB_LO)) ∧
    R.DTB_LO % 4 = 0 ∧ R.DTB_LO < 0x68000 ∧ reaches .rootstock R.DTB_LO = true ∧ bench.reqLive .rootstock = true ∧
    bench.granted (domainOf R.DTB_LO) = true ∧ (regRow R.DTB_LO).map (·.half) = some .lo ∧
    R.DTB_HI = R.DTB_LO + 4 ∧ (regRow R.DTB_HI).map (·.half) = some .hi ∧
    tabFind (reqCode .rootstock) { bench with rdShadow := [(0x210, (R.DTB_LO, 7))] }.rdShadow = some (R.DTB_LO, 7) ∧
    tabFind (reqCode .rootstock) bench.rdShadow = none ∧
    (regRow R.TAP_RTC_SEC_LO).map (·.half) = some .lo ∧ CanWrite bench .rootstock R.TAP_RTC_SEC_LO ∧
    bench.hqBusy R.TAP_RTC_SEC_LO = false ∧ (regRow R.TAP_RTC_SEC_HI).map (·.half) = some .hi ∧
    R.TAP_RTC_SEC_HI = R.TAP_RTC_SEC_LO + 4 ∧ CanWrite bench .rootstock R.TAP_RTC_SEC_HI ∧ R.TAP_RTC_SEC_HI < 0x24000 ∧
    tabFind (reqCode .rootstock) { bench with wrShadow := [(0x210, (R.TAP_RTC_SEC_LO, 7))] }.wrShadow = some (R.TAP_RTC_SEC_LO, 7) ∧
    CanWrite bench .rootstock R.TAP_WAKE_EN ∧ (regRow R.TAP_WAKE_EN).map (·.half) = some .whole ∧
    (regRow R.TAP_WAKE_EN).map (·.priv) ≠ some .eventPost ∧ (regRow R.TAP_WAKE_EN).map (·.priv) ≠ some .threadCmd ∧
    isRowKey R.TAP_WAKE_EN = false ∧ bench.hqBusy R.TAP_WAKE_EN = false := by
  unfold CanWrite; decide +kernel

theorem witness_RefusedAccesses : (bench.reg R.IDR_ACC_STATUS).toNat % 16 = 0 ∧ (bench.setReg R.IDR_ACC_STATUS 8).reg R.IDR_ACC_STATUS = 8 ∧
    (8 : Word).toNat % 16 ≠ 0 := by decide +kernel

theorem witness_ColdStartAndResets : State.reset.tap.mode = .powerOnReset ∧ bench.tap.mode = .running ∧ bench.tap.warmHeld = false ∧
    bench.tap.testEn = false ∧ (bench.updTap (fun t => { t with mode := .standbyEntry })).tap.mode = .standbyEntry ∧
    (bench.updTap (fun t => { t with warmHeld := true })).tap.warmHeld = true ∧
    (bench.updTap (fun t => { t with mode := .vioLost, stby := true })).tap.mode = .vioLost := by decide +kernel

theorem witness_ClockAndWakeSources : bench.tap.mode ≠ .powerOnReset ∧
    { bench with slow := { counted := true } }.slow.counted = true ∧ bench.reg R.TAP_RTC_SEC_LO = bench.reg R.TAP_ALARM_SEC ∧
    bench.fld R.TAP_RTC_SUB_SUB = bench.fld R.TAP_ALARM_SUB_SUB ∧
    (bench.setFld (R.TAP_WAKE_CFG_EN 7) 1).fld (R.TAP_WAKE_CFG_EN 7) ≠ 0 ∧ bench.wakeHeld 7 = false ∧
    bench.tap.vbatHiArmed = true ∧ (bench.setFld R.TAP_VBAT_CMP_HI_CODE 1).fld R.TAP_VBAT_CMP_HI_CODE ≠ 0 ∧
    bench.tap.vbatLoArmed = true ∧ (bench.setFld R.TAP_VBAT_CMP_LO_CODE 1).fld R.TAP_VBAT_CMP_LO_CODE ≠ 0 ∧
    bitOf (bench.reg R.TAP_WAKE_REASON) 11 = false ∧
    ((bench.setBit R.TAP_WAKE_REASON 11).event (bench.reg R.TAP_WAKE_ROUTE)).tap.mode = .running ∧
    ((bench.setBit R.TAP_WAKE_REASON 11).event (bench.reg R.TAP_WAKE_ROUTE)).tap.firstOpen = false ∧ bench.tap.firstOpen = false ∧
    ((bench.setBit R.TAP_WAKE_REASON 11).updTap (fun t => { t with firstOpen := true })).tap.firstOpen = true ∧
    bitOf ((bench.setBit R.TAP_WAKE_REASON 11).reg R.TAP_WAKE_REASON) 11 = true ∧
    (bench.updTap (fun t => { t with mode := .standby })).tap.mode = .standby := by decide +kernel

theorem witness_TaprootRegisters : CanWrite bench .rootstock R.TAP_RTC_SEC_LO ∧ CanWrite bench .rootstock R.TAP_RTC_SEC_HI ∧
    CanWrite bench .rootstock (R.TAP_WAKE_CFG 7) ∧ CanWrite bench .rootstock R.TAP_VBAT_CMP ∧ CanWrite bench .rootstock R.TAP_STBY ∧
    bench.tap.mode = .running ∧ bench.fld R.TAP_WAKE_EN_SRC = 0 ∧ CanWrite bench .rootstock R.TAP_RRAM_DATA ∧
    (bench.setFld R.TAP_RRAM_IDX_IDX 4095).fld R.TAP_RRAM_IDX_IDX = 4095 ∧ CanRead bench .rootstock R.TAP_RRAM_DATA ∧
    tabGet 0 4095 bench.rramEcc = 0 ∧ tabGet 0 4095 { bench with rramEcc := [(4095, 1)] }.rramEcc = 1 ∧
    2 ≤ tabGet 0 4095 { bench with rramEcc := [(4095, 2)] }.rramEcc ∧ CanWrite bench .rootstock R.TAP_RRAM_ECC_INJ.off := by
  unfold CanWrite CanRead; decide +kernel

theorem witness_PowerDomains : bench.tap.mode = .running ∧ bench.tap.testEn = false ∧ bench.domState 15 = 0 ∧
    (bench.setDomState 4 2).domState 4 ≠ 0 ∧ bitOf (bench.reg R.PDC_REQ) 15 = false ∧ bitOf (bench.reg R.ESP_BREQ) (11 - 4) = false ∧ (bench.setDomState 15 4).domState 15 = 4 ∧
    (bench.setDomState 15 5).domState 15 = 5 ∧ 1 ≤ (bench.setDomState 15 1).domState 15 ∧ (bench.setDomState 15 3).domState 15 ≤ 3 ∧
    bench.grantable 15 = true ∧ (bench.setDomState 11 3).domState 11 = 3 ∧ (bench.setDomState 15 1).domState 15 = 1 ∧
    (7, 0) ∈ (((bench.updLoop 0 (fun l => { l with settling := [(7, 0)] })).setLoopState 0 2).loop 0).settling ∧
    ((bench.updLoop 0 (fun l => { l with settling := [(7, 0)] })).setLoopState 0 2).loopState 0 = 2 ∧
    (bench.setDomState 11 2).domState (4 + 7) = 2 ∧ (bench.updTap (fun t => { t with refSys := .starting })).tap.refSys = .starting ∧
    (bench.setPll 2 .starting).pll 2 = .starting := by decide +kernel

theorem witness_FusesRandomAndDebug : CanWrite bench .rootstock R.BOOT_FUSE_CMD ∧
    { bench with boot := { rsKey := some 3 } }.boot.rsKey = some 3 ∧ (bench.setFld R.BOOT_STATUS_RS_VER 63).fld R.BOOT_STATUS_RS_VER = 63 ∧
    bench.fuses.minVer.toNat < 63 ∧ bench.boot.rsKey = none ∧ CanRead bench .rootstock R.SEC_RNG_DATA ∧
    bench.fld R.SEC_RNG_STATUS_VALID = 0 ∧ (bench.setFld R.SEC_RNG_STATUS_VALID 1).fld R.SEC_RNG_STATUS_VALID ≠ 0 ∧
    bench.granted 1 = true ∧ CanWrite bench .rootstock R.SEC_RNG_CTL ∧ bench.tap.mode ≠ .powerOnReset ∧ bench.tap.testEn = false ∧
    bench.ready 18 = true ∧ bench.ready 62 = true ∧ bench.boot.dbgNonce = none ∧ bench.fld R.SEC_DBG_FAILS < 2 ∧ (bench.setFld R.SEC_DBG_FAILS 2).fld R.SEC_DBG_FAILS = 2 ∧
    (bench.setFld R.SEC_DBG_LOCKOUT 1).fld R.SEC_DBG_LOCKOUT ≠ 0 ∧ bench.fuses.dbgDis = false := by
  unfold CanWrite CanRead; decide +kernel

/-- Fuses whose owner key slot 3 is the key of the private number 7. -/
def owned : State := { bench with fuses := { keys := [(3, 0x2238F0E348C0445A60AFFD248BFE765DB34318C0A10BFC9FC7423170E019D490)] } }

/-- A rootstock image of 16 zero bytes, version 63, signed by that key. -/
def rootImage : Bytes := (beBytes 32 0x4458494D010001033F0001001000000000000000000000000000000000000000 ++
    beBytes 32 0x374708FFF7719DD5979EC875D56CD2286F6D3CF7EC317A3B25632AAB28EC37BB ++
    beBytes 32 0x8E533B6FA0BF7B4625BB30667C01FB607EF9F8B8A80FEF5B300628703187B2A3 ++
    beBytes 32 0x73EB1DBDE03318366D069F83A6F5900053C73633CB041B21C55E1A86C1F400B4 ++
    beBytes 32 0x088BB9FF22AB291A74C86FC677BA897BAADEE370CC6129B82D170BA3FC26415C ++
    beBytes 32 0x321D3EC29A0525ABE0AF9881C5F639F494EF0816EBE30E81E8D7C29033BB8699 ++
    beBytes 32 0x0000000000000000000000000000000000000000000000000000000000000000 ++
    beBytes 32 0x0000000000000000000000000000000000000000000000000000000000000000 ++
    beBytes 16 0x00000000000000000000000000000000)

/-- A fabric image for bough 0, likewise. -/
def fabricImage : Bytes := (beBytes 32 0x4458494D010002033F0001001000000000000000000000000000000001000000 ++
    beBytes 32 0x374708FFF7719DD5979EC875D56CD2286F6D3CF7EC317A3B25632AAB28EC37BB ++
    beBytes 32 0x8E533B6FA0BF7B4625BB30667C01FB607EF9F8B8A80FEF5B300628703187B2A3 ++
    beBytes 32 0x73EB1DBDE03318366D069F83A6F5900053C73633CB041B21C55E1A86C1F400B4 ++
    beBytes 32 0x088BB9FF22AB291A74C86FC677BA897BAADEE370CC6129B82D170BA3FC26415C ++
    beBytes 32 0x8677A5B8CD349DB73B711512BA8FCCBE70442C7E462632037545E202CF3FE990 ++
    beBytes 32 0x0000000000000000000000000000000000000000000000000000000000000000 ++
    beBytes 32 0x0000000000000000000000000000000000000000000000000000000000000000 ++
    beBytes 16 0x00000000000000000000000000000000)

theorem rootImage_passes : owned.bytesErr rootImage [1] = 0 := by decide +kernel

theorem fabricImage_passes : owned.bytesErr fabricImage [2] = 0 := by decide +kernel

/-- The signature of 32 zero bytes, a UID of zeros and level 2 by that key: r, then s. -/
def levelTwo : BitVec 512 := (0x088BB9FF22AB291A74C86FC677BA897BAADEE370CC6129B82D170BA3FC26415C : BitVec 256) ++
  (0x289362FD2CC864C0198209DF2BD75829B1AFA2EE56BD374F0460017ABAE53A6E : BitVec 256)

theorem response_signed : owned.ownerSigned (List.replicate 32 0) 2 levelTwo = true := by decide +kernel

theorem imageErr_room {s : State} {h : Header} {types types' : List Nat} {a b : Nat} {p q : Nat → Bytes}
    (h0 : s.imageErr h types a p = 0) (ht : types'.contains h.type = true) (hb : h.layoutOk b = true) (hq : q h.len = p h.len) :
    s.imageErr h types' b q = 0 := by
  unfold State.imageErr at *
  rw [hb, hq, ht]
  split at h0
  · exact absurd h0 (by decide)
  rename_i h1
  rw [if_neg (fun c => h1 (c.imp id (Or.imp id (fun d => .inr (d.resolve_left (by decide))))))]
  split at h0
  · exact absurd h0 (by decide)
  rw [if_neg ‹_›]
  split at h0
  · exact absurd h0 (by decide)
  rw [if_neg ‹_›]
  split at h0
  · exact absurd h0 (by decide)
  rw [if_neg ‹_›]
  split at h0
  · exact absurd h0 (by decide)
  rw [if_neg ‹_›, if_neg (by decide)]
  split at h0
  · exact absurd h0 (by decide)
  split at h0
  · exact absurd h0 (by decide)
  rw [if_neg ‹_›]

theorem trySlots_first {s : State} {base i : Nat} {more : List Nat} (h : s.slotErr (base + i) = 0) :
    s.trySlots base (i :: more) = (some i, s) := by
  unfold State.trySlots
  rw [h]
  rfl

/-- Bytes listed from an offset on. -/
def run (o : Nat) : Bytes → List Host.Cell
  | [] => []
  | b :: bs => (o, b) :: run (o + 1) bs

theorem run_get {d : Byte} {rest : List Host.Cell} : ∀ (bs : Bytes) (o i : Nat) (h : i < bs.length),
    tabGet d (o + i) (run o bs ++ rest) = bs[i]
  | b :: bs, o, 0, _ => by simp [run, tabGet, tabFind]
  | b :: bs, o, i + 1, h => by
    have := run_get (d := d) (rest := rest) bs (o + 1) i (by simpa using h)
    simp only [run, List.cons_append, tabGet, tabFind, List.getElem_cons_succ] at *
    rw [if_neg (by omega), show o + (i + 1) = o + 1 + i by omega]
    exact this

theorem run_skip {d : Byte} {rest : List Host.Cell} : ∀ (bs : Bytes) (o i : Nat), o + bs.length ≤ i →
    tabGet d i (run o bs ++ rest) = tabGet d i rest
  | [], _, _, _ => rfl
  | b :: bs, o, i, h => by
    have := run_skip (d := d) (rest := rest) bs (o + 1) i (by simp at h; omega)
    simp only [run, List.cons_append, tabGet, tabFind] at *
    rw [if_neg (by simp at h; omega)]
    exact this

/-- The store with the rootstock image in slot 0 and the fabric image in slot 2, and version 0 in slots 1 and 3. -/
def stored : State :=
  { owned with nv := run 0 rootImage ++ (run 0x40008 [0, 0, 0, 0] ++ (run 0x80000 fabricImage ++ run 0x100008 [0, 0, 0, 0])) }

theorem stored_root (i n : Nat) (h : i + n ≤ 272) : stored.nvBytes i n = (rootImage.drop i).take n := by
  have hl : rootImage.length = 272 := by decide +kernel
  apply List.ext_getElem
  · simp [State.nvBytes, hl]; omega
  · intro j h1 h2
    simp only [State.nvBytes, List.length_map, List.length_range] at h1
    simp only [State.nvBytes, List.getElem_map, List.getElem_range, List.getElem_take, List.getElem_drop]
    have := run_get (d := 0xFF) (rest := run 0x40008 [0, 0, 0, 0] ++ (run 0x80000 fabricImage ++ run 0x100008 [0, 0, 0, 0]))
      rootImage 0 (i + j) (by omega)
    rw [Nat.zero_add] at this
    exact this

theorem stored_fabric (i n : Nat) (h : i + n ≤ 272) : stored.nvBytes (0x80000 + i) n = (fabricImage.drop i).take n := by
  have hl : fabricImage.length = 272 := by decide +kernel
  have hr : rootImage.length = 272 := by decide +kernel
  apply List.ext_getElem
  · simp [State.nvBytes, hl]; omega
  · intro j h1 h2
    simp only [State.nvBytes, List.length_map, List.length_range] at h1
    simp only [State.nvBytes, List.getElem_map, List.getElem_range, List.getElem_take, List.getElem_drop]
    have := run_get (d := 0xFF) (rest := run 0x100008 [0, 0, 0, 0]) fabricImage 0x80000 (i + j) (by omega)
    rw [← this]
    unfold State.nvByte stored
    dsimp only
    rw [run_skip _ _ _ (by omega), run_skip _ _ _ (by simp; omega), Nat.add_assoc]

theorem stored_header0 : stored.slotHeader 0 = headerOf (rootImage.take 256 ++ List.replicate (256 - rootImage.length) 0xFF) := by
  unfold State.slotHeader
  rw [show (imageSlot 0).1 = 0 from rfl, stored_root 0 256 (by decide)]
  decide +kernel

theorem stored_header2 : stored.slotHeader 2 = headerOf (fabricImage.take 256 ++ List.replicate (256 - fabricImage.length) 0xFF) := by
  unfold State.slotHeader
  rw [show (imageSlot 2).1 = 0x80000 + 0 from rfl, stored_fabric 0 256 (by decide)]
  decide +kernel

theorem stored_sound (o n : Nat) : stored.nvBad o n = false := by
  unfold State.nvBad; rw [show stored.nvEcc = [] from rfl]; rfl

theorem stored_read (b : Nat) : stored.headersRead b = stored := by
  unfold State.headersRead State.nvMeet
  simp only [stored_sound, Bool.false_eq_true, if_false]

theorem stored_slotErr (i : Nat) : stored.slotErr i = stored.imageErr (stored.slotHeader i) [if i < 2 then 1 else 2] (imageSlot i).2
    (fun n => stored.nvBytes ((imageSlot i).1 + 256) n) := by
  unfold State.slotErr
  simp only [stored_sound, Bool.false_eq_true, and_false, if_false]

theorem stored_slot0 : stored.slotErr 0 = 0 := by
  have e : stored.slotErr 0 = owned.imageErr (headerOf (rootImage.take 256 ++ List.replicate (256 - rootImage.length) 0xFF)) [1] 0x40000
      (fun n => stored.nvBytes (0 + 256) n) := by
    rw [stored_slotErr, stored_header0]; rfl
  rw [e]
  refine imageErr_room rootImage_passes (by decide +kernel) (by decide +kernel) ?_
  rw [show (headerOf (rootImage.take 256 ++ List.replicate (256 - rootImage.length) 0xFF)).len = 16 by decide +kernel]
  rw [stored_root _ _ (by decide)]
  rfl

theorem stored_slot2 : stored.slotErr 2 = 0 := by
  have e : stored.slotErr 2 = owned.imageErr (headerOf (fabricImage.take 256 ++ List.replicate (256 - fabricImage.length) 0xFF)) [2] 0x80000
      (fun n => stored.nvBytes (0x80000 + 256) n) := by
    rw [stored_slotErr, stored_header2]; rfl
  rw [e]
  refine imageErr_room fabricImage_passes (by decide +kernel) (by decide +kernel) ?_
  rw [show (headerOf (fabricImage.take 256 ++ List.replicate (256 - fabricImage.length) 0xFF)).len = 16 by decide +kernel]
  rw [stored_fabric 256 _ (by decide)]
  rfl

/-- The staging state: the image lies at address 0x1000 of the packet buffer and is being verified. -/
def staged (img : Bytes) (recov : Nat) : State :=
  (((owned.setReg R.BOOT_STAGE_ADDR 0x1000).setReg R.BOOT_STAGE_LEN (BitVec.ofNat 32 img.length)).setFld R.BOOT_STATUS_RECOV recov).updBoot
    (fun b => { b with verifying := true }) |>.poke 0x1000 img

theorem witness_BootAndStaging :
    (stored.granted 1 = true ∧ stored.granted 3 = true ∧ stored.tap.warmHeld = false ∧ stored.fld R.BOOT_STATUS_STATE = 0 ∧
      (stored.headersRead 0).trySlots 0 [stored.preferred 0, 1 - stored.preferred 0] = (some 0, stored)) ∧
    (∃ u, (bench.headersRead 0).trySlots 0 [bench.preferred 0, 1 - bench.preferred 0] = (none, u) ∧ u.strapBoot ≠ 1) ∧
    (∃ u, ((owned.setFld R.TAP_STRAP_BOOT 1).headersRead 0).trySlots 0 [0, 1] = (none, u) ∧ u.strapBoot = 1 ∧ u.bytesErr rootImage [1] = 0) ∧
    ((stored.bootTo 1).fld R.BOOT_STATUS_STATE = 1 ∧ stored.granted 12 = true ∧ stored.targetsOn (headerOf fabricImage) = true ∧
      (stored.headersRead 2).trySlots 2 [stored.preferred 2, 1 - stored.preferred 2] = (some 0, stored)) ∧
    ((owned.setFld R.TAP_STRAP_BOOT 2).strapBoot = 2 ∧ (owned.setFld R.TAP_STRAP_BOOT 1).strapBoot = 1 ∧
      owned.bytesErr fabricImage [2] = 0) ∧
    (∃ u, (bench.headersRead 2).trySlots 2 [bench.preferred 2, 1 - bench.preferred 2] = (none, u)) ∧
    CanWrite bench .rootstock R.BOOT_STAGE_GO ∧ CanWrite bench .rootstock R.BOOT_CTL ∧
    ((staged rootImage 1).boot.verifying = true ∧ (staged rootImage 1).boot.rsKey.isNone = true ∧
      (staged rootImage 1).stagedBytes = rootImage ∧ (staged fabricImage 0).stagedBytes = fabricImage ∧
      (headerOf rootImage).type = 1 ∧ (headerOf fabricImage).type = 2 ∧ (staged rootImage 1).bytesErr rootImage [1, 2] = 0 ∧
      (staged fabricImage 0).bytesErr fabricImage [2] = 0 ∧ (staged [] 0).bytesErr [] [2] ≠ 0) ∧
    ((owned.setFld R.TAP_STRAP_BOOT 3).strapBoot = 3 ∧ owned.boot.released = false) := by
  have p0 : stored.preferred 0 = 0 := by
    unfold State.preferred; rw [stored_sound, stored_sound, if_neg (by decide), if_neg (by decide), stored_header0]
    exact if_neg (by decide +kernel)
  have p2 : stored.preferred 2 = 0 := by
    unfold State.preferred; rw [stored_sound, stored_sound, if_neg (by decide), if_neg (by decide), stored_header2]
    exact if_neg (by decide +kernel)
  refine ⟨⟨by decide +kernel, by decide +kernel, by decide +kernel, by decide +kernel, ?_⟩, ⟨_, Prod.ext (by decide +kernel) rfl, by decide +kernel⟩,
    ⟨_, Prod.ext (by decide +kernel) rfl, by decide +kernel, ?_⟩, ⟨by decide +kernel, by decide +kernel, by decide +kernel, ?_⟩,
    ⟨by decide +kernel, by decide +kernel, fabricImage_passes⟩, ⟨_, Prod.ext (by decide +kernel) rfl⟩, ?_, ?_,
    ⟨by decide +kernel, by decide +kernel, by decide +kernel, by decide +kernel, by decide +kernel, by decide +kernel, ?_, ?_, by decide +kernel⟩,
    by decide +kernel⟩
  · rw [p0, stored_read]; exact trySlots_first stored_slot0
  · refine Eq.trans ?_ rootImage_passes
    have e : ∀ u : State, u.fuses = owned.fuses → u.bytesErr rootImage [1] = owned.bytesErr rootImage [1] := by
      intro u hu; unfold State.bytesErr State.imageErr; rw [hu]
    exact e _ (by decide +kernel)
  · rw [p2, stored_read]; exact trySlots_first stored_slot2
  · unfold CanWrite; decide +kernel
  · unfold CanWrite; decide +kernel
  · have e : (staged rootImage 1).fuses = owned.fuses := by decide +kernel
    have := imageErr_room (types' := [1, 2]) rootImage_passes (by decide +kernel) (b := rootImage.length) (q := fun n => slice 256 n rootImage) (by decide +kernel) rfl
    refine Eq.trans ?_ this
    unfold State.bytesErr State.imageErr; rw [e]
  · have e : (staged fabricImage 0).fuses = owned.fuses := by decide +kernel
    refine Eq.trans ?_ fabricImage_passes
    unfold State.bytesErr State.imageErr; rw [e]

/-! ## Voltage loops, converters, cooling and the battery -/

/-- The bench with loop `x` in state `st`. -/
def looping (x st : Nat) : State := bench.setLoopState x st

theorem witness_LoopStateChanges : CanWrite bench .rootstock (R.LOOP_CTL 0) ∧ CanWrite bench .rootstock (R.LOOP_CTL 3) ∧ bench.loadOn = true ∧
    (∃ s : State, s.loopState 0 = 1 ∧ (s.loop 0).ramp = some (250 * s.vsetEff 0) ∧ s.fld (R.LOOP_PG_DLY 0) ≤ (s.loop 0).pgCount) ∧
    (looping 3 1).loopState 3 = 1 ∧
    (∃ s : State, 1 ≤ s.loopState 3 ∧ s.loopState 3 ≤ 3 ∧ s.fld (R.LOOP_DE_ENTER 3) < s.fld (R.LOOP_DE_EXIT 3) ∧
      max 1 (s.fld (R.LOOP_DE_CNT_CNT 3)) ≤ (s.loop 3).deCount) ∧
    (bench.setPh 15 3 .low).phState 15 = 3 ∧ ((bench.setPh 15 3 .low).phase 15).pruneLeft = 0 ∧
    bench.fld (R.PH_CFG_ZSRC 15) = 0 ∧
    (∃ s : State, s.fld (R.PH_CFG_ZSRC 0) = 0 ∧ s.phState 0 = 2 ∧ s.emulating 0 = true ∧ s.servedBy 0 = some 0) ∧
    (bench.setDomState 11 2).domState (4 + 7) = 2 ∧ 7 ∉ (bench.loop 0).wakes ∧ (bench.loop 0).settling = [] ∧
    { bench with esp := { hintUpDue := true, hintDnDue := true } }.esp.hintUpDue = true := by
  refine ⟨?_, ?_, by decide +kernel, ⟨(looping 0 1).updLoop 0 (fun l => { l with ramp := some (250 * (looping 0 1).vsetEff 0), pgCount := 65535 }), by decide +kernel⟩,
    by decide +kernel, ⟨((looping 3 3).setFld (R.LOOP_DE_EXIT 3) 1).updLoop 3 (fun l => { l with deCount := 65536 }), by decide +kernel⟩,
    by decide +kernel, by decide +kernel, by decide +kernel,
    ⟨(((looping 0 1).setFld (R.PH_CFG_ASSIGN 0) 1).setFld (R.PH_CFG_LOOP 0) 0).setPh 0 2 .low, by decide +kernel⟩,
    by decide +kernel, by decide +kernel, by decide +kernel, by decide +kernel⟩
  · unfold CanWrite; decide +kernel
  · unfold CanWrite; decide +kernel

theorem witness_LoopPeriods : (looping 0 1).loopState 0 = 1 ∧ (looping 3 3).loopState 3 = 3 ∧
    (((looping 0 1).endPeriod 0).beginPeriod 0).switching 0 = true ∧ CanWrite bench .rootstock (R.LOOP_PHCMD 3) ∧
    CanWrite bench .rootstock (R.LOOP_TLM_CTL_PEAK_CLR 3).off ∧
    (∃ s : State, s.fld (R.LOOP_TLM_CTL_MODE 3) ≠ 0 ∧ 2 ^ s.fld (R.LOOP_TLM_CTL_K 3) ≤ (s.loop 3).telN) := by
  refine ⟨by decide +kernel, by decide +kernel, by decide +kernel, ?_, ?_,
    ⟨((bench.setFld (R.LOOP_TLM_CTL_MODE 3) 1).setFld (R.LOOP_TLM_CTL_K 3) 10).updLoop 3 (fun l => { l with telN := 1024 }), by decide +kernel⟩⟩
  · unfold CanWrite; decide +kernel
  · unfold CanWrite; decide +kernel

/-- The thread runs as its row's supervisor. -/
def supervisor : State := runnerWith (fun t => { t with tsr := 0x420 })

theorem witness_PostsAndThreadCommands : bench.reqLive .rootstock = true ∧ reaches .rootstock (R.BGH_EVT_POST 7) = true ∧
    bench.granted (domainOf (R.BGH_EVT_POST 7)) = true ∧ bench.mayPost (bench.level .rootstock) (64 * 7 + 63) = true ∧
    runner.mayPost (runner.level (.thread 0)) 0 = true ∧ supervisor.supervisesThr (supervisor.level (.thread 0)) 0 = true ∧
    (supervisor.setThr 511 { state := .halted, row := 1 }).supervisesThr (supervisor.level (.thread 0)) 511 = true ∧
    reaches (.thread 0) (R.BGH_TSTATE (511 / 64) (511 % 64)) = true ∧ supervisor.granted (domainOf (R.BGH_TSTATE (511 / 64) (511 % 64))) = true ∧
    (supervisor.setThr 511 { state := .halted, row := 1 }).reqLive (.thread 0) = true := by decide +kernel

/-- Slot 3 of converter 15 enabled on loop D, with the bits given beside, and the loop switching. -/
def sampling (bits : Word) : State :=
  let s := (looping 3 2).setFld (R.LOOP_PERIOD_PERIOD 3) 0x400
  s.setReg (R.CNV_SLOT 15 3) (0x61 ||| bits)

/-- The bench with the list control at `ctl` and the lists at `pos`. -/
def listing (ctl : Word) (pos : List (Nat × Nat)) : State :=
  (bench.setReg R.CNV_P_CTL ctl).updCnv (fun c => { c with listPos := pos })

theorem witness_ConverterCommands :
    (∃ w, w = (sampling 0).cnvReg (R.CNV_SLOT 15 3) ∧ w.toNat / 32 % 4 = 3 ∧ bitOf w 0 = true ∧ bitOf w 4 = false ∧ bitOf w 8 = false) ∧
    (sampling 0).ready 7 = true ∧ (sampling 0).switching 3 = true ∧ (sampling 0).interleaved 15 = false ∧
    (∃ w, w = (sampling 0x3FF0010).cnvReg (R.CNV_SLOT 15 3) ∧ bitOf w 4 = true ∧
      w.toNat / 2 ^ 16 % 2 ^ 13 < (sampling 0x3FF0010).fld (R.LOOP_PERIOD_PERIOD 3)) ∧
    (∃ w, w = (sampling 0x100).cnvReg (R.CNV_SLOT 15 3) ∧ bitOf w 8 = true) ∧ ((sampling 0x100).conv 15).busy = none ∧
    (((sampling 0x100).updConv 15 (fun c => { c with busy := some 3 })).conv 15).busy = some 3 ∧
    (bench.setFld (R.CNV_PAIR_ILV 7) 1).interleaved 15 = true ∧ bench.granted 2 = true ∧ bench.ready 8 = true ∧
    (∃ s : State, s.ready 8 = true ∧ s.listOn 1 = true ∧ s.listAt 1 = 8 ∧ s.listsTied = false) ∧
    (∃ s : State, s.ready 8 = true ∧ s.listOn 1 = true ∧ s.listAt 0 = 8 ∧ s.listAt 1 = 8 ∧ s.listsTied = true) ∧
    (∃ s : State, s.ready 8 = true ∧ s.listOn 1 = true ∧ s.listAt 1 ≠ 8 ∧ s.fld R.CNV_P_CTL_PERIOD ≠ 0) ∧
    (∃ s : State, s.ready 8 = true ∧ s.listOn 1 = true ∧ s.listAt 1 = 7 ∧ (s.listEntry 1 7).toNat / 2 ^ 8 % 8 = 0 ∧ s.listsTied = false) := by
  refine ⟨⟨_, rfl, by decide +kernel⟩, by decide +kernel, by decide +kernel, by decide +kernel, ⟨_, rfl, by decide +kernel⟩,
    ⟨_, rfl, by decide +kernel⟩, by decide +kernel, by decide +kernel, by decide +kernel, by decide +kernel, by decide +kernel,
    ⟨listing 0x10002 [], by decide +kernel⟩, ⟨listing 0x10007 [], by decide +kernel⟩,
    ⟨listing 0x10002 [(1, 7)], by decide +kernel⟩, ⟨listing 0x10002 [(1, 7)], by decide +kernel⟩⟩

theorem witness_GovernorCommands : bench.granted 1 = true ∧
    (∃ s : State, (s.govOf 3).isOpen = true ∧ s.loopState 3 ≠ 1 ∧ (s.govOf 3).cut = true) ∧
    (∃ s : State, (s.govOf 2).isOpen = true ∧ (s.govOf 2).cut = false ∧ (s.govOf 2).wmax ≠ 0 ∧ 10000 * (s.govOf 2).wmax ≤ (s.govOf 2).openT) ∧
    (∃ s : State, (s.govOf 3).isOpen = true ∧ 10 * (s.govOf 3).close < (s.govOf 3).below) ∧
    CanWrite bench .rootstock (R.GOV_CTL 0) ∧ CanWrite bench .rootstock (R.GOV_CTL 1) ∧ (bench.govOf 3).acc / 4000000 < 2 ^ 32 := by
  refine ⟨by decide +kernel, ⟨bench.updGov 3 (fun v => { v with isOpen := true, cut := true }), by decide +kernel⟩,
    ⟨bench.updGov 2 (fun v => { v with isOpen := true, cut := false, wmax := 1, openT := 10000 }), by decide +kernel⟩,
    ⟨bench.updGov 3 (fun v => { v with isOpen := true, close := 0, below := 1 }), by decide +kernel⟩, ?_, ?_, by decide +kernel⟩
  · unfold CanWrite; decide +kernel
  · unfold CanWrite; decide +kernel

theorem witness_FanAndShutdownCommands : bench.granted 1 = true ∧ (bench.setFld (R.FAN_TACH_STALL 3) 1).flag (R.FAN_TACH_STALL 3) = true ∧
    (bench.setFld (R.FAN_TACH_STALL 3) 0).flag (R.FAN_TACH_STALL 3) = false ∧ (bench.setFld R.FAN_CTL_KEEP 1).fld R.FAN_CTL_KEEP ≠ 0 ∧
    bench.tap.vioGood = true ∧ (bench.updTap (fun t => { t with vioGood := false })).tap.vioGood = false ∧ bench.pins.therm = none ∧
    { bench with pins := { bench.pins with therm := some (100, 350001) } }.pins.therm = some (100, 350001) := by decide +kernel

/-- A temperature and a voltage of THERM_X on each side of the limits. -/
theorem witness_FanAndShutdownCommands_limits : bench.tsLimit ≤ bench.tsLimit ∧ thermLimit - 1 < thermLimit ∧
    (bench.tsLimit - 240 < bench.tsLimit ∧ thermLimit ≤ thermLimit) ∧ (350000 : Int) < 350001 ∧
    bench.tsLimit - 240 < bench.tsLimit - 239 := by omega

/-- The estimator at work on an empty battery. -/
def onBattery : State :=
  ((bench.setFld R.BAT_CTL_EN 1).setFld R.BAT_DESIGN_DESIGN 5000).updBat (fun b =>
    { b with vSeen := true, vbat := 2999, firstDue := true, resync := true, paused := false })

theorem witness_BatteryCommands : onBattery.batOn = true ∧ onBattery.bat.vSeen = true ∧ onBattery.bat.vbat < 3000 ∧
    onBattery.bat.firstDue = true ∧ onBattery.bat.resync = true ∧ onBattery.bat.paused = false ∧
    onBattery.flag R.BAT_STATUS_ABSENT = false ∧ bench.reqLive .rootstock = true ∧ reaches .rootstock R.BAT_CTL = true ∧
    bench.granted (domainOf R.BAT_CTL) = true ∧ bench.level .rootstock = .warden ∧ CanWrite bench .rootstock R.BAT_CTL ∧
    bench.flag R.BAT_CTL_EN = false ∧ bench.fld R.BAT_DESIGN_DESIGN = 0 ∧
    (bench.setFld R.BAT_DESIGN_DESIGN 5000).fld R.BAT_DESIGN_DESIGN ≠ 0 ∧
    ((List.range 8).all fun n => (bench.setFld R.BAT_DESIGN_DESIGN 5000).rramWord n == 0) = true ∧
    (bench.setFld R.BAT_CTL_EN 1).blockCheck (fun n => (bench.setFld R.BAT_CTL_EN 1).rramWord n) ≠ 1 ∧
    { bench with rram := [(0, 1)] }.rramWord 0 ≠ 0 ∧
    { bench with rram := [(0, 1)] }.blockCheck (fun n => { bench with rram := [(0, 1)] }.rramWord n) ≠ 1 ∧
    (bench.setFld R.BAT_STATUS_PROVISIONAL 1).blockCheck (fun n => if n = 0 then 0xBA770001 else if n = 7 then
      BitVec.ofNat 32 (crc32Ieee ([1, 0, 0x77, 0xBA] ++ List.replicate 24 0)) else 0) = 1 := by
  unfold CanWrite; decide +kernel


/-! ## The management buses -/

theorem witness_PmbusTransferRules : bench.pmUp = true ∧ State.reset.pmUp = false ∧
    (bench.setFld (R.TW_CFG_PEC_STD 0) 1).pmUp = true ∧ (bench.setFld (R.TW_CFG_PEC_STD 0) 1).pecNeeded 0x21 = true ∧
    (bench.setFld (R.TW_CFG_PEC_MFR 0) 1).pecNeeded 0xD0 = true ∧
    (bench.updPm (fun p => { p with wp := 0x80 })).wpAllows 0x00 = false ∧
    (bench.updPm (fun p => { p with page := 0xFF })).pm.page = 0xFF ∧ (0xFE : Byte).toNat ∉ pmCodes ∧
    bench.pecNeeded 0x21 = false ∧ (0 : Byte) ≠ BitVec.ofNat 8 (crc8 (BitVec.ofNat 8 (2 * bench.pmAddr) :: 0x21 :: [0, 4])) ∧
    (bench.updPm (fun p => { p with alertLow := true })).pm.alertLow = true := by decide +kernel

theorem witness_PmbusCommands : bench.pm.page = 0 ∧ (bench.updPm (fun p => { p with page := 3 })).pm.page = 3 ∧
    (∀ c ∈ [0x00, 0x01, 0x02, 0x03, 0x21, 0x24, 0x2B, 0x40, 0x44, 0x27, 0x7A, 0x7B, 0x7D, 0x80, 0x79, 0x78, 0x7E, 0xD1], bench.wpAllows c = true) ∧
    (3 : Byte).toNat < 4 ∧ 0 ∈ bench.pmPages ∧ bench.pecRest 0x21 [0, 4] none = .fine ∧ bench.pecRest 0x7E [0xFF] none = .fine ∧ bench.loadOn = true ∧
    0 ∉ (bench.updPm (fun p => { p with page := 3 })).pmPages ∧
    milliOf (0x41 + 256 * 0) = some 65000 ∧ milliOf 0 = some 0 := by decide +kernel

/-- The mailbox holds a call of a program, or a write. -/
def mailed (read : Bool) (rest : PmAfter) : State :=
  bench.updPm (fun p => { p with hold := some { read := read, pec := true, head := [0x80], rest := rest } })

/-- Controller 1 works at a transfer. -/
def transferring (c : CtlSt) : State := bench.setCtl 1 (some c)

/-- A block read with PEC, and a write that has lost arbitration. -/
def blockRead : CtlSt := { proto := 3, addr := 0x7F, wlen := 32, rlen := 32, pec := true, sent := [], triesLeft := 0 }
def lostWrite : CtlSt := { proto := 0, addr := 0, wlen := 0, rlen := 0, pec := false, sent := [], triesLeft := 7, lost := true }

theorem witness_MailboxAndControllers : bench.pmUp = true ∧ bench.ready 2 = true ∧ bench.wpAllows (0xE0 + 15) = true ∧
    1 ≤ ([1] : Bytes).length ∧ (List.replicate 32 (0 : Byte)).length ≤ 32 ∧ bench.pm.page ≠ 0xFF ∧
    (bench.clrReady 2).pmUp = true ∧ (bench.clrReady 2).ready 2 = false ∧ CanWrite bench .rootstock R.TW_0_MBX_RESP ∧
    bench.pm.hold = none ∧ CanWrite (mailed true .fine) .rootstock R.TW_0_MBX_RESP ∧
    (∀ p ∈ [(true, PmAfter.fine), (false, .fine), (false, .pecWrong), (false, .pecMissing)],
      (mailed p.1 p.2).pm.hold = some { read := p.1, pec := true, head := [0x80], rest := p.2 }) ∧
    bitOf 0x4000 0 = false ∧ bitOf 0x3F01 0 = true ∧ bench.twUp 0 = true ∧ CanWrite bench .rootstock (R.TW_MCMD 1) ∧
    (bench.setFld (R.TW_MSTAT_BUSY 1) 1).flag (R.TW_MSTAT_BUSY 1) = true ∧ CanWrite (bench.setFld (R.TW_MSTAT_BUSY 1) 1) .rootstock (R.TW_MCMD 1) ∧
    bench.flag (R.TW_MSTAT_BUSY 1) = false ∧ bench.twUp 1 = true ∧ (bench.setFld (R.TW_CFG_EN 1) 0).twUp 1 = false ∧
    CanWrite (bench.setFld (R.TW_CFG_EN 1) 0) .rootstock (R.TW_MCMD 1) ∧
    (transferring blockRead).ctlOf 1 = some blockRead ∧ (transferring lostWrite).ctlOf 1 = some lostWrite ∧ lostWrite.lost = true ∧
    blockRead.lost = false ∧ blockRead.pec = true ∧ blockRead.proto = 3 ∧ (List.replicate 32 (0 : Byte)).length ≤ 32 ∧
    blockRead.pecRight [] (BitVec.ofNat 8 (crc8 [0xFF, 0])) = true ∧
    blockRead.pecRight [] (BitVec.ofNat 8 (crc8 [0xFF, 0]) + 1) = false := by
  unfold CanWrite; decide +kernel

/-- The bench with AVSBus master 1 enabled on loop C in regulation or out of it. -/
def serving (st : Nat) : State := (bench.setFld (R.AVS_CFG_EN 1) 1).setLoopState 2 st

/-- A frame with its check bits: command, data type and data. -/
def avsFrame (cmd ty data : Nat) : Nat :=
  let f := 2 ^ 30 + cmd * 2 ^ 28 + ty * 2 ^ 23 + data * 2 ^ 3
  f + crc3 f

theorem witness_AvsBusFrames : (serving 2).ready 15 = true ∧ (serving 2).flag (R.AVS_CFG_EN 1) = true ∧ (serving 2).loopState 2 = 2 ∧
    (serving 1).loopState 2 ≠ 2 ∧
    (∀ p ∈ [(0, 0), (1, 0), (3, 0), (3, 1), (0, 1), (3, 2), (3, 3), (0, 4), (3, 14), (3, 15)],
      let f := (BitVec.ofNat 32 (avsFrame p.1 p.2 0xFFFF)).toNat
      f / 2 ^ 30 % 4 = 1 ∧ crc3 f = f % 8 ∧ f / 2 ^ 27 % 2 = 0 ∧ f / 2 ^ 19 % 16 = 0 ∧ f / 2 ^ 28 % 4 = p.1 ∧ f / 2 ^ 23 % 16 = p.2 ∧
      f / 2 ^ 3 % 2 ^ 16 = 0xFFFF) ∧ crc3 (avsFrame 0 0 0 ^^^ 1) ≠ (avsFrame 0 0 0 ^^^ 1) % 8 := by decide +kernel

/-! ## Rows and the host -/

/-- Row 7 with its enable bit at `en` and thread `k` as its supervisor's code, thread 511 mapped. -/
def rowed (en k : Nat) : State :=
  ((bench.setFld (R.ROW_CTL_EN 7) en).setFld (R.ROW_SUPV_CODE 7) k).setReg (R.ROW_TMAP 7 15) 0x80000000

/-- Queue 7 of row 7 enabled in direction `dir`, its head at 0xFFFF and its tail at `tail`. -/
def queued (dir tail : Nat) : State :=
  (((bench.setFld (R.ROW_HQ_CFG_EN 7 7) 1).setFld (R.ROW_HQ_CFG_DIR 7 7) dir).setFld (R.ROW_HQ_IDX_HEAD 7 7) 0xFFFF).setFld
    (R.ROW_HQ_IDX_TAIL 7 7) tail

/-- A frame of 60 bytes in slot 4095, its one cell written. -/
def framed (s : State) : State :=
  (s.setFrame 4095 { row := 7, cells := [3], len := 60 }).poke (256 * 3 + 64) (List.replicate 60 1)

theorem witness_RowCommands : CanWrite (rowed 0 511) .rootstock (R.ROW_CTL 7) ∧ (rowed 0 511).fld (R.ROW_SUPV_CODE 7) = 511 ∧
    (rowed 0 511).flag (R.ROW_CTL_EN 7) = false ∧ (rowed 0 511).mapped 7 511 = true ∧
    CanWrite (rowed 0 510) .rootstock (R.ROW_CTL 7) ∧ (rowed 0 510).fld (R.ROW_SUPV_CODE 7) = 510 ∧
    (rowed 0 510).flag (R.ROW_CTL_EN 7) = false ∧ (rowed 0 510).mapped 7 510 = false ∧ (rowed 0 512).fld (R.ROW_SUPV_CODE 7) = 512 ∧
    CanWrite (rowed 1 0) .rootstock (R.ROW_CTL 7) ∧ (rowed 1 0).flag (R.ROW_CTL_EN 7) = true ∧
    bench.reqLive (.bar0 7) = true ∧ reaches (.bar0 7) (R.ROW_CTL 7) = true ∧ bench.granted (domainOf (R.ROW_CTL 7)) = true ∧
    (bench.level (.bar0 7)).supervises 7 = true ∧ (bench.setFld (R.ROW_STATUS_RST_BUSY 7) 1).flag (R.ROW_STATUS_RST_BUSY 7) = true ∧
    (queued 0 0).granted 15 = true ∧ (queued 0 0).granted 12 = true ∧ (queued 0 0).flag (R.ROW_STATUS_RST_BUSY 7) = false ∧
    (queued 0 0).flag (R.ROW_HQ_CFG_EN 7 7) = true ∧
    (15 + 2 ^ 16 - (queued 0 0).fld (R.ROW_HQ_IDX_HEAD 7 7)) % 2 ^ 16 = (queued 0 0).hqSize 7 7 ∧
    (queued 0 0).hqSize 7 7 < (16 + 2 ^ 16 - (queued 0 0).fld (R.ROW_HQ_IDX_HEAD 7 7)) % 2 ^ 16 ∧
    bench.flag (R.ROW_HQ_CFG_EN 0 0) = false ∧ bench.flag (R.ROW_STATUS_RST_BUSY 0) = false ∧
    (queued 0 0).hqPosted 7 7 false = true ∧ (0x4001 : BitVec 16).toNat > 16384 ∧ (0x4000 : BitVec 16).toNat = 16384 ∧
    (queued 1 0).hqPosted 7 7 true = true := by
  unfold CanWrite; decide +kernel

theorem witness_RowCommands_deliveries : ∃ s : State, s.hqPosted 7 7 true = true ∧ s.hqWaiting 7 7 = [4095] ∧
    ∃ f, s.frameOf 4095 = some f ∧ ∃ bs t,
      (s.send (.hostRead 7 (BitVec.ofNat 64 (s.descAt 7 7)) 16)).frameRead f (f.cells.length + 1) 0 60 = (some bs, t) :=
  ⟨framed ((queued 1 0).setHqWaiting 7 7 [4095]), by decide +kernel, by decide +kernel, _, by rfl, List.replicate 60 1, _,
    Prod.ext (by decide +kernel) rfl⟩

theorem witness_RowCommands_messages : bench.granted 15 = true ∧
    (∃ s : State, s.granted 15 = true ∧ (s.row 7).msixPend.getLsbD 31 = true ∧ (s.msixEntry 7 31).masked = false ∧
      (s.row 7).fnMask = false ∧ (s.row 7).bme = true ∧ (s.row 7).d0 = true) ∧
    bitOf (bench.row 7).mbCtl 1 = false ∧ (0x400 : BitVec 11).toNat = 1024 ∧ 1024 < (0x401 : BitVec 11).toNat := by
  refine ⟨by decide +kernel, ⟨bench.updRow 7 (fun x => { x with msixPend := 0x80000000, msix := [(31, { masked := false })], bme := true }),
    by decide +kernel⟩, by decide +kernel, by decide +kernel, by decide +kernel⟩

theorem witness_PcieCommands : bench.granted 15 = true ∧ (bench.setFld R.PCIE_STATUS_LINK_UP 1).flag R.PCIE_STATUS_LINK_UP = true ∧
    bench.perst = false ∧ bench.tap.srdGood = true ∧ bench.tap.srhGood = true ∧
    bench.tap.vio18Good = true ∧ bench.ready 57 = true ∧ (bench.clrReady 57).ready 57 = false := by decide +kernel

/-! ## The packet path -/

/-- The bench with port `p` enabled and its receiver locked. -/
def porting (p : Nat) : State :=
  let s := bench.setFld (R.PORT_CTL_EN p) 1
  if p < 24 then s.setFld (R.PORT_STATUS_LOCK p) 1 else s

/-- The frame of `framed` holds the ticket of domain 63 in state `st`; thread 0 runs in row 7. -/
def ticketed (st : TickState) : State :=
  ((framed (bench.setDom 63 [{ num := 0, slot := 4095, state := st }])).setFrame 4095
    { row := 7, dom := 63, cells := [3], len := 60 }).setThr 0 { state := .run, row := 7 }

/-- A GET of thread 0 waits in row 7, whose dispatch queue holds the frame. -/
def awaiting : State := { (ticketed .issued).updRow 7 (fun x => { x with dispQ := [4095] }) with
  helpers := [{ t := 0, cn := 0, h := 0, desc := 0, arg := 0x8001 }] }

theorem witness_PacketFlow : (∀ p ∈ [0, 8, 23, 24, 35], (porting p).granted (portDomain p) = true ∧ ((porting p).activity p).portUp p = true) ∧
    (bench.activity 35).portUp 35 = false ∧ (List.replicate 59 (0 : Byte)).length < 60 ∧ 60 ≤ (List.replicate 60 (0 : Byte)).length ∧
    bench.granted 12 = true ∧ bench.granted 14 = true ∧ CanWrite bench .rootstock R.ESP_BREQ ∧ awaiting.safe = false ∧
    awaiting.ready 28 = true ∧ (awaiting.row 7).dispQ = [4095] ∧ (awaiting.pendingGet 7).isSome = true ∧ (awaiting.frameOf 4095).isSome = true ∧
    (∀ st ∈ [TickState.issued, .held, .ready, .void], ∃ x, (ticketed st).dom 63 = [x] ∧ x.state = st ∧ (ticketed st).safe = false) ∧
    (bench.setFld (R.PORT_GATE_NEXT_VALID 35) 1).flag (R.PORT_GATE_NEXT_VALID 35) = true ∧
    bench.pair (R.PORT_GATE_AT_LO 35) (R.PORT_GATE_AT_HI 35) ≤ bench.dtbNow ∧ bench.granted (portDomain 35) = true := by
  refine ⟨by decide +kernel, by decide +kernel, by decide +kernel, by decide +kernel, by decide +kernel, by decide +kernel, ?_,
    by decide +kernel, by decide +kernel, by decide +kernel, by decide +kernel, by decide +kernel, ?_, by decide +kernel, by decide +kernel,
    by decide +kernel⟩
  · unfold CanWrite; decide +kernel
  · intro st h
    refine ⟨{ num := 0, slot := 4095, state := st }, ?_, rfl, ?_⟩ <;> revert st <;> decide +kernel

/-- Slot 4095 waits at the head of class 7 of port 35. -/
def leaving : State := framed ((porting 35).setEgressQ 35 7 [4095])

theorem witness_PacketFlow_transmission : leaving.portUp 35 = true ∧ (leaving.port 35).pause = false ∧ (leaving.port 35).tx = none ∧
    leaving.plcaTurn 35 = true ∧ leaving.txClass 35 = some (7, 4095) ∧ ∃ f, leaving.frameOf 4095 = some f ∧
    (((leaving.setEgressQ 35 7 []).stampFrame 35 4095 f).frameRead f (f.cells.length + 1) 0 f.len).1 = some (List.replicate 60 1) := by
  and_intros
  on_goal 6 => exact ⟨{ row := 7, cells := [3], len := 60 }, by decide +kernel⟩
  all_goals decide +kernel

theorem witness_PacketFlow_transmissionEnd : (∃ s : State, ∃ x f, (s.port 35).tx = some x ∧ s.frameOf x.slot = some f ∧ s.genOf x.slot = x.gen) ∧
    ∃ s : State, ∃ x, (s.port 35).tx = some x ∧ s.frameOf x.slot = none :=
  ⟨⟨leaving.updPort 35 (fun x => { x with tx := some { slot := 4095, gen := 0, data := [] } }), _, { row := 7, cells := [3], len := 60 },
    rfl, by decide +kernel⟩, ⟨leaving.updPort 35 (fun x => { x with tx := some { slot := 4094, gen := 0, data := [] } }), _, rfl, by decide +kernel⟩⟩

/-! ## Helper operations -/

/-- The descriptor of the request under test, in bough 0's data memory. -/
def area : Nat := 0x100200000

/-- The request of thread 0 for operation `op` of helper `h`, with argument bits `arg`. -/
def asked (h op arg : Nat) (sa : SaEntry := {}) : HelperReq :=
  { t := 0, cn := 7, h := h, desc := area, arg := BitVec.ofNat 32 (op + 256 * arg), sa := sa }

/-- `ticketed .held` with that request outstanding and descriptor `d`. -/
def helping (g : HelperReq) (d : Bytes) : State := { (ticketed .held).poke area d with helpers := [g] }

/-- A descriptor of 32 bytes: the token of slot 4095, `d` after it, zeros to the end. -/
def described (d : Bytes) : Bytes := ([0xFF, 0x0F, 0, 0] ++ d ++ List.replicate 32 0).take 32

/-- A descriptor of EMIT: write-back of `wb` bytes, `cut` bytes cut. -/
def emitting (wb cut : Byte) : State := helping (asked 0 2 0) (described (List.replicate 20 0 ++ [wb, cut]) ++ List.replicate 128 0)

/-- A GET that waits: with a frame in its row's queue, with none, and with a slot that holds none. -/
theorem witness_PacketHelpers_get : (awaiting.request 0 0 0 1).isSome = true ∧ awaiting.safe = false ∧ (awaiting.thr 0).row = 7 ∧
    (awaiting.row 7).dispQ = [4095] ∧ (awaiting.pendingGet 7).isSome = true ∧ (awaiting.frameOf 4095).isSome = true ∧
    ((helping (asked 0 1 0x80) []).row 7).dispQ = [] ∧
    ((awaiting.updRow 7 (fun x => { x with dispQ := [4094] })).row 7).dispQ = [4094] ∧ awaiting.frameOf 4094 = none := by decide +kernel

theorem witness_PacketHelpers :
    (helping (asked 0 1 0x80) []).request 0 7 0 1 = some (asked 0 1 0x80) ∧ (helping (asked 0 1 0x80) []).ready 28 = true ∧
    (asked 0 1 0x80).hcopyOk = true ∧ (asked 0 1 0x81).hcopyOk = false ∧ ((helping (asked 0 1 0x80) []).clrReady 28).ready 28 = false ∧
    (emitting 124 60).request 0 7 0 2 = some (asked 0 2 0) ∧
    ((emitting 124 60).getArea area 32).1 = some (described (List.replicate 20 0 ++ [124, 60])) ∧
    leNat (slice 0x18 1 (described (List.replicate 20 0 ++ [124, 60]))) = 124 ∧ leNat (slice 0x19 1 (described (List.replicate 20 0 ++ [124, 60]))) = 60 ∧
    ((emitting 124 60).getArea (area + 0x20) 124).1 = some (List.replicate 124 0) ∧
    (∃ f x, ((emitting 124 60).getArea area 32).2.tokenFrame 4095 = some (4095, f) ∧ f.len = 60 ∧ f.row = 7 ∧
      ((emitting 124 60).getArea area 32).2.ticketOf f.dom 4095 = some x ∧ x.state = .held ∧ (((emitting 124 60).getArea area 32).2.thr 0).row = 7) ∧
    ((emitting 125 60).getArea area 32).1 = some (described (List.replicate 20 0 ++ [125, 60])) ∧ 64 + 60 < 125 ∧
    ((emitting 125 61).getArea area 32).1 = some (described (List.replicate 20 0 ++ [125, 61])) ∧ 60 < 61 := by
  and_intros
  on_goal 11 => exact ⟨{ row := 7, dom := 63, cells := [3], len := 60 }, { num := 0, slot := 4095, state := .held }, by decide +kernel⟩
  all_goals decide +kernel

/-- The states in which the operations that read a descriptor find it, and the frame its token names. -/
theorem witness_PacketHelpers_descriptors : ∀ p ∈ [(0, 3, 32), (2, 1, 8), (2, 2, 8), (3, 1, 28), (3, 2, 28), (4, 2, 4)],
    let s := helping (asked p.1 p.2.1 0) (described [0, 0, 60, 0])
    s.request 0 7 p.1 p.2.1 = some (asked p.1 p.2.1 0) ∧ (s.getArea area p.2.2).1 = some ((described [0, 0, 60, 0]).take p.2.2) ∧
    ∃ f, (s.getArea area p.2.2).2.tokenFrame 4095 = some (4095, f) ∧ f.len = 60 ∧ f.txTime = none ∧
      ((s.getArea area p.2.2).2.frameRead f (f.cells.length + 1) 0 60).1 = some (List.replicate 60 1) := by
  intro p h
  refine ⟨?_, ?_, { row := 7, dom := 63, cells := [3], len := 60 }, ?_⟩ <;> revert p <;> decide +kernel

theorem witness_PacketHelpers_egressTime : ∃ s : State, ∃ f, s.request 0 7 4 2 = some (asked 4 2 0) ∧
    (s.getArea area 4).1 = some [0xFF, 0x0F, 0, 0] ∧ (s.getArea area 4).2.tokenFrame 4095 = some (4095, f) ∧ f.txTime = some 5 :=
  ⟨(helping (asked 4 2 0) (described [])).setFrame 4095 { row := 7, dom := 63, cells := [3], len := 60, txTime := some 5 }, _,
    by decide +kernel, by decide +kernel, by rfl, by decide +kernel⟩

/-- A token that names no frame; the time; a thread with no ready time base. -/
theorem witness_PacketHelpers_others : ∃ s : State, s.request 0 7 0 2 = some (asked 0 2 0) ∧
    (s.getArea area 32).1 = some (List.replicate 32 0) ∧ (s.getArea area 32).2.tokenFrame 0 = none ∧
    (helping (asked 4 1 0) []).request 0 7 4 1 = some (asked 4 1 0) :=
  ⟨helping (asked 0 2 0) (List.replicate 32 0), by decide +kernel⟩

/-- Table 7 of bough 0 with one bucket at word 0: its first entry holds `w0` and key 0. -/
def looking (w0 : Byte) (base : Nat) : State :=
  (((helping (asked 1 1 7) (List.replicate 4 0)).setFld (R.BGH_LKP_CFG_EN 0 7) 1).setFld (R.BGH_LKP_BASE_BASE 0 7) base).poke 0x100100000
    (w0 :: List.replicate 47 0)

theorem witness_PacketHelpers_find : (looking 1 0).request 0 7 1 1 = some (asked 1 1 7) ∧ (looking 1 0).lookup 0 7 = (1, 1, 48) ∧
    (looking 1 0).flag (R.BGH_LKP_CFG_EN 0 7) = true ∧ (looking 1 0).fld (R.BGH_LKP_CFG_LOG2 0 7) = 0 ∧
    4 * (looking 1 0).fld (R.BGH_LKP_BASE_BASE 0 7) + 48 ≤ 0x100000 ∧
    0x100000 < 4 * (looking 1 0x3FFFF).fld (R.BGH_LKP_BASE_BASE 0 7) + 48 ∧ ((looking 1 0).getArea area 4).1 = some [0, 0, 0, 0] ∧
    (((looking 1 0).getArea area 4).2.searchBucket [0, 0, 0, 0] 1 1 0x100100000 [0, 1, 2, 3]).1 = some (some (0, [0, 0, 0, 0])) ∧
    (((looking 0 0).getArea area 4).2.searchBucket [0, 0, 0, 0] 1 1 0x100100000 [0, 1, 2, 3]).1 = some none := by decide +kernel

/-- An association of suite 0 with key 0. -/
def nullSa : SaEntry := { valid := true }

/-- GCM over no payload at the end of the frame: test case 1 of the GCM specification gives the tag for key 0 and IV 0. -/
def sealed (op : Nat) (tag : Bytes) : State :=
  (helping (asked 3 op 0 nullSa) (described [])).poke (256 * 3 + 64) tag

/-- The tag of that test case. -/
def nullTag : Bytes := [0x58, 0xE2, 0xFC, 0xCE, 0xFA, 0x7E, 0x30, 0x61, 0x36, 0x7F, 0x1D, 0x57, 0xA4, 0xE7, 0x45, 0x5A]

theorem witness_PacketHelpers_gcm : (sealed 1 []).request 0 7 3 1 = some (asked 3 1 0 nullSa) ∧
    (sealed 2 nullTag).request 0 7 3 2 = some (asked 3 2 0 nullSa) ∧ (asked 3 2 0 nullSa).sa.valid = true ∧
    gcmRanges ((described []).take 28) = (0, 0, 0, 0) ∧ nullSa.nonce (List.replicate 12 0) = List.replicate 12 0 ∧
    Crypto.gcmTag nullSa.keys (List.replicate 12 0) [] [] = nullTag ∧
    (∃ f, (sealed 2 nullTag).frameOf 4095 = some f ∧ ((sealed 2 nullTag).frameRead f (f.cells.length + 1) 0 16).1 = some nullTag ∧
      ((sealed 2 []).frameRead f (f.cells.length + 1) 0 16).1 = some (List.replicate 16 1) ∧
      ((sealed 1 []).takeCells f.row ((f.off + max f.len 16 + 255) / 256 - f.cells.length) []).1 = []) := by
  refine ⟨by decide +kernel, by decide +kernel, by decide +kernel, by decide +kernel, by decide +kernel, by decide +kernel,
    { row := 7, dom := 63, cells := [3], len := 60 }, by decide +kernel⟩

/-! ## Ports, ring and USB -/

theorem witness_PortCommands : (porting 35).portUp 35 = true ∧
    bitOf ((bench.updPort 35 (fun x => { x with plcaNow := 0x101 })).port 35).plcaNow 0 = true ∧
    plcaCoordinator ((bench.updPort 35 (fun x => { x with plcaNow := 0x101 })).port 35).plcaNow = false ∧
    CanWrite bench .rootstock R.MSEC_CMD ∧ (bench.setReg R.MSEC_CMD (bench.reg R.MSEC_CMD &&& ~~~ (0 &&& 4))).flag R.MSEC_CMD_BUSY = false ∧
    CanWrite (bench.setFld R.MSEC_CMD_BUSY 1) .rootstock R.MSEC_CMD ∧
    ((bench.setFld R.MSEC_CMD_BUSY 1).setReg R.MSEC_CMD ((bench.setFld R.MSEC_CMD_BUSY 1).reg R.MSEC_CMD &&& ~~~ (4 &&& 4))).flag R.MSEC_CMD_BUSY = true ∧
    { bench with msecBusy := some 63 }.msecBusy = some 63 ∧ CanWrite bench .rootstock R.DTB_CMD ∧ bench.dtb.slewLeft = 0 ∧
    bench.granted (portDomain 23) = true ∧ (bench.setFld (R.PORT_CTL_EN 23) 1).flag (R.PORT_CTL_EN 23) = true ∧ bench.tap.srdGood = true ∧
    bench.tap.srhGood = true ∧ (bench.setFld (R.PORT_CTL_EN 23) 1).flag (R.PORT_STATUS_LOCK 23) = false ∧
    (porting 23).flag (R.PORT_STATUS_LOCK 23) = true ∧ (porting 0).granted (portDomain 0) = true := by
  unfold CanWrite; decide +kernel

/-- The ring engine of node 0 in state `st` on ports 6 and 7, both up, as cold leader or not. -/
def circling (st cold : Nat) : State :=
  let s := [6, 7].foldl (fun s p => (s.setFld (R.PORT_CTL_EN p) 1).setFld (R.PORT_STATUS_LOCK p) 1) bench
  (((s.setFld R.RING_CFG_PORT_E 6).setFld R.RING_CFG_PORT_W 7).setRingState st).setFld R.RING_STATUS_COLD cold

/-- A ring frame of node `n` and type `ty`, with the COLD word `cold`. -/
def ringFrame (n ty cold : Nat) : Bytes :=
  [3, 0x52, 0x49, 0x4C, 0, 0, 1, 2, 3, 4, 5, 6, 0x88, 0xB5, BitVec.ofNat 8 (0x10 + ty), BitVec.ofNat 8 n, 0, 0, 0, 0] ++ beBytes 2 cold
    ++ List.replicate 38 0

/-- The same frame with the source address of a ring port. -/
def ownFrame (ty : Nat) : Bytes :=
  (ringFrame 0 ty 0).take 6 ++ (circling 1 0).portMac 6 ++ (ringFrame 0 ty 0).drop 12

theorem witness_RingCommands : CanWrite bench .rootstock R.RING_CTL ∧ bench.ringState = 0 ∧ CanWrite (circling 5 0) .rootstock R.RING_CTL ∧
    (circling 5 0).ringState ≠ 0 ∧ (circling 1 0).granted 13 = true ∧
    (∀ p ∈ [6, 7], ((circling 1 0).activity p).portUp p = true) ∧ (bench.activity 6).portUp 6 = false ∧
    60 ≤ (ownFrame 1).length ∧ 60 ≤ (ringFrame 15 1 1).length ∧ (List.replicate 59 (0 : Byte)).length < 60 ∧
    ringSound (List.replicate 60 0) = false ∧ (circling 1 0).ringSide true = 6 ∧ (circling 1 0).ringSide false = 7 ∧
    isRingFrame (ringFrame 15 1 1) = true ∧ isRingFrame (List.replicate 60 0) = false ∧
    (circling 1 0).ringForeign (ringFrame 0 1 0) = true ∧
    (∀ ty ∈ [1, 2, 4], ringSound (ownFrame ty) = true ∧ ringType (ownFrame ty) = ty ∧ ringNode (ownFrame ty) = (circling 1 0).nodeId ∧
      (circling 1 0).ringForeign (ownFrame ty) = false) ∧
    (∀ ty ∈ [1, 2, 3, 4], ringSound (ringFrame 15 ty 1) = true ∧ ringType (ringFrame 15 ty 1) = ty ∧ ringNode (ringFrame 15 ty 1) = 15 ∧
      be16 (ringFrame 15 ty 1) 20 % 2 = 1 ∧ be16 (ringFrame 15 ty 0) 20 % 2 = 0) ∧
    bench.nodeId = 0 ∧ (bench.setFld R.TAP_STRAP_NODE 15).nodeId = 15 ∧
    (∀ st ∈ [1, 2, 3, 4, 5, 6], (circling st 0).ringState = st ∧ (circling st 0).flag R.RING_STATUS_COLD = false ∧
      (circling st 1).flag R.RING_STATUS_COLD = true ∧ (circling st 0).ringOn = decide (4 ≤ st)) ∧
    (circling 3 0).ring.collided = false ∧
    (∃ s : State, s.ringState = 3 ∧ s.ring.collided = true ∧ s.ring.attempt = 4) ∧
    (∃ s : State, s.ringState = 3 ∧ s.ring.collided = true ∧ s.ring.attempt = 3) ∧
    (∃ s : State, s.ringOn = true ∧ s.ring.inCycle = true ∧ s.fld R.RING_MEMBERS_MEMBERS &&& s.ring.heard = s.fld R.RING_MEMBERS_MEMBERS ∧ s.ringState ≠ 5) ∧
    (∃ s : State, s.ringOn = true ∧ s.ring.inCycle = true ∧ s.fld R.RING_MEMBERS_MEMBERS &&& s.ring.heard ≠ s.fld R.RING_MEMBERS_MEMBERS) := by
  and_intros
  all_goals try decide +kernel
  · exact ⟨(circling 3 0).updRing (fun r => { r with collided := true, attempt := 4 }), by decide +kernel⟩
  · exact ⟨(circling 3 0).updRing (fun r => { r with collided := true, attempt := 3 }), by decide +kernel⟩
  · exact ⟨((circling 4 0).setFld R.RING_MEMBERS_MEMBERS 0x8001).updRing (fun r => { r with inCycle := true, heard := 0x8001 }), by decide +kernel⟩
  · exact ⟨((circling 4 0).setFld R.RING_MEMBERS_MEMBERS 0x8001).updRing (fun r => { r with inCycle := true, heard := 1 }), by decide +kernel⟩

/-- The bench attached to a host and configured, with further state. -/
def attached (f : UsbSt → UsbSt) : State :=
  (bench.setFld R.USB_CTL_EN 1).updUsb (fun u => f { u with vbus := true, pullup := true, addressed := true, hubCfg := true, fnCfg := true })

/-- The bench suspended with an unmasked reason pending that may wake the host. -/
def suspended (f : UsbSt → UsbSt) : State :=
  (((attached (fun u => f { u with susp := true })).setFld R.USB_NTF_PEND_BITS 0x8000).setFld R.USB_NTF_MASK_BITS 0xFFFF).setFld
    R.USB_STATUS_RWE_FN 1

theorem witness_UsbCommands :
    (bench.setFld R.USB_CTL_EN 1).flag R.USB_CTL_EN = true ∧ (bench.setFld R.USB_CTL_EN 1).granted 15 = true ∧
    (bench.setFld R.USB_CTL_EN 1).usb.pullup = false ∧ (attached id).usb.pullup = true ∧ (attached id).usbLive = true ∧
    ((attached id).setFld (R.USB_PORT_POWER 1) 1).flag (R.USB_PORT_POWER 1) = true ∧ (attached id).usb.hubCfg = true ∧
    (attached id).ep1Live = true ∧ (List.replicate 64 (0 : Byte)).length ≤ (attached id).maxPacket ∧
    (attached (fun u => { u with bufs := [[], [], [], []] })).usb.bufs.length = 4 ∧
    ((attached (fun u => { u with bufs := [[], [], []] })).setFld R.USB_STATUS_SPEED 1).flag R.USB_STATUS_SPEED = true ∧
    (attached (fun u => { u with bufs := [[], [], []] })).flag R.USB_STATUS_SPEED = false ∧ (attached id).usb.fly = none ∧
    (attached (fun u => { u with fly := some ([1, 0], 0x30000) })).usb.fly = some ([1, 0], 0x30000) ∧ (attached id).ntfReasons = 0 ∧
    (((attached id).setFld R.USB_NTF_PEND_BITS 0x20000).setFld R.USB_NTF_MASK_BITS 0x20000).ntfReasons ≠ 0 ∧
    CanWrite bench .rootstock R.USB_NTF_POST ∧ CanWrite bench .rootstock R.USB_CTL ∧ CanWrite (attached id) .rootstock R.USB_CTL ∧
    bench.granted 15 = true ∧ ((attached id).setFld (R.USB_PORT_POWER 1) 1).flag (R.USB_PORT_CONN 1) = false ∧
    (((attached id).setFld (R.USB_PORT_POWER 1) 1).setFld (R.USB_PORT_CONN 1) 1).flag (R.USB_PORT_CONN 1) = true ∧
    (attached id).usb.port3Susp = false ∧ (attached (fun u => { u with port3Susp := true })).usb.port3Susp = true ∧
    (suspended id).usb.susp = true ∧ (suspended (fun u => { u with hostK := true })).usb.hostK = true ∧
    (suspended (fun u => { u with released := true })).usb.released = true ∧ (suspended id).usb.driving = false ∧
    (suspended id).usb.cancelled = false ∧ (suspended id).usb.released = false ∧ (suspended id).usb.retryDue = false ∧
    (suspended id).usb.gaveUp = false ∧ (suspended id).wakeReasons ≠ 0 ∧ (suspended (fun u => { u with driving := true })).usb.driving = true ∧
    (suspended (fun u => { u with released := true })).usb.hostK = false ∧
    (suspended (fun u => { u with wakeTries := 6 })).usb.wakeTries < ((suspended id).setFld R.USB_WAKE_CFG_RETRIES 7).fld R.USB_WAKE_CFG_RETRIES ∧
    ((suspended id).setFld R.USB_WAKE_CFG_RETRIES 0).fld R.USB_WAKE_CFG_RETRIES ≤ (suspended id).usb.wakeTries := by
  unfold CanWrite; decide +kernel

/-- A request of Fankoec with opcode `op` and payload `p`. -/
def request (op : Byte) (p : Bytes) : Bytes :=
  let h : Bytes := [0x46, 0x4B, 1, op, 0xFF, 0xFF] ++ leBytes 2 p.length ++ [0, 0, 0, 0] ++ p
  h ++ leBytes 4 (crc32Ieee h)

/-- Owned fuses, the nonce of zeros, the request received whole; the session at warden level. -/
def fankoec (op : Byte) (p : Bytes) : State :=
  { owned with usb := { rx := request op p, whole := true, nonce := some (List.replicate 32 0) } }.setFld R.USB_FK_LEVEL 2

/-- The payload of AUTH_RESPONSE for level 2 with the signature of `response_signed`. -/
def response : Bytes := [2, 0, 0, 0] ++ beBytes 64 levelTwo.toNat

theorem witness_FankoecCommands :
    (∀ p ∈ ([(1, []), (2, []), (3, response), (4, []), (5, []), (0x10, [0, 0, 0, 0, 252, 0, 0, 0]), (0x11, [0, 0, 0, 0, 1, 0, 0, 0]),
        (0x30, List.replicate 36 0), (0x31, List.replicate 8 0)] : List (Byte × Bytes)),
      (fankoec p.1 p.2).usb.whole = true ∧ (fankoec p.1 p.2).fkCheck .usb (fankoec p.1 p.2).usb.rx = 0 ∧ fkSized (fankoec p.1 p.2).usb.rx = true) ∧
    (∀ p ∈ ([(1, [0]), (2, [0]), (3, [0]), (4, [0]), (5, [0]), (0x10, [0]), (0x11, [0]), (0x30, [0]), (0x31, [0])] : List (Byte × Bytes)),
      (fankoec p.1 p.2).usb.whole = true ∧ (fankoec p.1 p.2).fkCheck .usb (fankoec p.1 p.2).usb.rx ≠ 0) ∧
    (fankoec 3 response).flag R.USB_FK_LOCKOUT = false ∧ ((fankoec 3 response).setFld R.USB_FK_LOCKOUT 1).flag R.USB_FK_LOCKOUT = true ∧
    (fankoec 3 response).usb.nonce = some (List.replicate 32 0) ∧ (fankoec 3 response).usb.rx.getD 12 0 = 2 ∧
    BitVec.ofNat 512 (beNat (slice 16 64 (fankoec 3 response).usb.rx)) = levelTwo ∧
    (fankoec 3 (List.replicate 68 3)).fkCheck .usb (fankoec 3 (List.replicate 68 3)).usb.rx = 0 ∧
    (fankoec 3 (List.replicate 68 3)).usb.rx.getD 12 0 = 3 ∧
    (fankoec 0x30 (List.replicate 36 0)).fkRowOk .usb 0 = true ∧ (fankoec 0x30 (8 :: List.replicate 35 0)).fkRowOk .usb 8 = false ∧
    ((fankoec 0x30 (List.replicate 36 0)).clrReady 17).ready 17 = false ∧ (fankoec 0x30 (List.replicate 36 0)).ready 17 = true ∧
    bitOf ((fankoec 0x30 (List.replicate 36 0)).submit 0 true (List.replicate 32 0)).1 30 = false ∧
    bitOf ((fankoec 0x30 (List.replicate 36 0)).submit 0 true (6 :: List.replicate 31 0)).1 30 = true := by
  and_intros <;> decide +kernel

/-! ## Jobs -/

/-- A job for row 7. -/
def aJob (op arg0 src dst len : Nat) : Job := { tag := 1023, owner := 7, op := op, arg0 := arg0, src := src, dst := dst, len := len, arg1 := 0 }

/-- The bench with these jobs. -/
def working (js : List Job) : State := { bench with jobs := { list := js } }

/-- A descriptor of RING_START at the start of the packet buffer, and one in the rootstock's memory. -/
def submitting : State := { bench.poke 0 (5 :: List.replicate 31 0) with rsMem := [(0x3FFE0, 5)] }

theorem witness_JobQueue : CanWrite bench .rootstock (R.JOB_SUBMIT_LO 8) ∧ CanWrite bench .rootstock (R.JOB_SUBMIT_HI 8) ∧
    CanWrite bench .pf0Bar4 (R.JOB_SUBMIT_LO 7) ∧ CanWrite bench .pf0Bar4 (R.JOB_SUBMIT_HI 7) ∧
    (16 : Nat) % 32 ≠ 0 ∧ 0x3FFE0 % 32 = 0 ∧ 0x3FFE0 + 32 ≤ 0x40000 ∧ bitOf (0x80000000 : Word) 31 = true ∧ bitOf (0xFF : Word) 31 = false ∧
    (submitting.reqRead .rootstock 0 32).1 = some (5 :: List.replicate 31 0) ∧ (bench.reqRead .rootstock 0x4000000 32).1 = none ∧
    (submitting.rsReadAll 0x3FFE0 32).1 = some (5 :: List.replicate 31 0) ∧
    ({ submitting with rsEcc := [(0x3FFE0 / 4, 2)] }.rsReadAll 0x3FFE0 32).1 = none ∧
    CanRead bench .rootstock (R.JOB_CPL 8 0) ∧ tabGet [] 8 bench.jobs.cpl = [] ∧
    CanRead { bench with jobs := { cpl := [(8, [{ words := [1], tag := 7 }])] } } .rootstock (R.JOB_CPL 8 0) ∧
    tabGet [] 8 ({ cpl := [(8, [{ words := [1], tag := 7 }])] } : JobsSt).cpl = [{ words := [1], tag := 7 }] ∧
    (∃ j, (working [{ aJob 5 0 0 0 0 with state := .running, ended := true }]).job 1023 = some j ∧ j.state = .running ∧ j.ended = true) := by
  and_intros <;> decide +kernel

/-- A running NV_WRITE of page 7 from the start of the packet buffer, and a running NV_ERASE of it. -/
def programming (op : Nat) : State :=
  (working [{ aJob op 0 0 0x700 256 with state := .running }]).poke 0 (List.replicate 256 1)

theorem witness_JobQueue_pages : bench.granted 3 = true ∧ (∃ s : State, s.granted 3 = true ∧ s.fst.queue = [[1]] ∧ s.flag R.FLT_NV_STAT_BUSY = false) ∧
    (∃ s : State, s.granted 3 = true ∧ s.fst.queue = [[1]] ∧ s.flag R.FLT_NV_STAT_BUSY = true) ∧
    (∀ op ∈ [1, 2], (programming op).fst.queue = [] ∧ (programming op).jobs.list.find? (fun j => j.state == .running && !j.ended && decide (0 < j.pageCount)) =
      some { aJob op 0 0 0x700 256 with state := .running } ∧ (programming op).safe = false) ∧
    (((bench.setReg R.NV_HOLD_C 1000).setReg R.NV_HOLD_SCALE 10000).holdUp 0xFFF).1 = true ∧ (bench.holdUp 0).1 = false ∧
    (programming 1).nextPage { aJob 1 0 0 0x700 256 with state := .running } = (7, 0, .inr (0, 256)) ∧
    ((programming 1).devRead 0 256).1 = some (List.replicate 256 1) ∧
    (programming 2).nextPage { aJob 2 0 0 0x700 256 with state := .running } = (7, 0, .inl (List.replicate 256 0xFF)) ∧
    (∃ s : State, s.safe = true ∧ s.fst.queue = []) := by
  refine ⟨by decide +kernel, ⟨{ bench with fst := { queue := [[1]] } }, by decide +kernel⟩,
    ⟨{ bench.setFld R.FLT_NV_STAT_BUSY 1 with fst := { queue := [[1]] } }, by decide +kernel⟩, by decide +kernel, by decide +kernel, by decide +kernel,
    by decide +kernel, by decide +kernel, by decide +kernel, ⟨bench.setFld R.FLT_SAFE_SAFE 1, by decide +kernel⟩⟩

/-- A calibration record with sequence number `q` and four bytes of data, in slot 0. -/
def recorded (q : Nat) : State :=
  let h : Bytes := [0x44, 0x58, 0x52, 0x43, 1, 0, 1, 0] ++ leBytes 4 q ++ leBytes 4 4 ++ leBytes 4 (crc32Ieee [1, 2, 3, 4])
  ((working [aJob 3 1 0 0 0]).nvPoke 0x180000 (h ++ leBytes 4 (crc32Ieee h))).nvPoke 0x180100 [1, 2, 3, 4]

/-- An active device with a ready link and a queued GRAFT_SYNC. -/
def syncing (role : Nat) : State := ((working [aJob 4 1 0 0 16]).setFld R.GRAFT_CTL_EN 1).setFld R.GRAFT_STATUS_ROLE role

theorem witness_JobStarts : (∀ op ∈ [1, 2, 3, 4, 5, 6, 7, 8, 9], (working [aJob op 1 0 0 0]).job 1023 = some (aJob op 1 0 0 0) ∧
      (working [aJob op 1 0 0 0]).mayStart 1023 = true ∧ (aJob op 1 0 0 0).op = op) ∧
    ((working [aJob 3 1 0 0 0]).updJob 1023 (fun k => { k with state := .running })).recWinner 0 = none ∧
    ((recorded 0xFFFFFFFF).updJob 1023 (fun k => { k with state := .running })).recWinner 0 = some (0, 0xFFFFFFFF, 4) ∧
    ((recorded 0).updJob 1023 (fun k => { k with state := .running })).recWinner 0 = some (0, 0, 4) ∧
    (syncing 1).isActive = true ∧ (syncing 1).graft.pActive = false ∧ (syncing 1).ready 60 = true ∧ (syncing 0).isActive = false ∧
    ({ bench with nvEcc := [(0, 2)] }.nvEcc.any (fun c => c.2 == 2)) = true ∧ (bench.nvEcc.any (fun c => c.2 == 2)) = false ∧
    (aJob 6 2 0 0 0).arg0 = 2 ∧ (aJob 6 1 0 0 0).arg0 ≠ 2 ∧ bench.granted 11 = true ∧ (bench.setReg R.PDC_GRANT 0).granted 11 = false ∧
    (bench.nvRead 0 256).1 = some (List.replicate 256 0xFF) ∧ ({ bench with nvEcc := [(0, 2)] }.nvRead 0 256).1 = none ∧
    ((bench.poke 0 (List.replicate 256 0)).devRead 0 256).1 = some (List.replicate 256 0) ∧
    (∃ s : State, (s.devRead 0 256).1 = none) ∧ imageRoom 0x3FFFF00 = 256 ∧ (headerOf (List.replicate 256 0)).len = 0 ∧
    (bench.nvRead (0x1A0000 + 64 * 1023) 64).1 = some (List.replicate 64 0xFF) ∧
    ({ bench with nvEcc := [(0x1AFFC0 / 4, 2)] }.nvRead (0x1A0000 + 64 * 1023) 64).1 = none ∧ bench.granted 12 = true ∧
    (bench.setReg R.PDC_GRANT 0).granted 12 = false := by
  and_intros
  all_goals try decide +kernel
  exact ⟨{ bench with ecc := [(0, 2)] }, by decide +kernel⟩

/-! ## Faults, service and the graft link -/

/-- The watchdog enabled with a window of half its period, its count at `n` cycles, a first key at `k`. -/
def watched (n : Nat) (k : Option Nat) : State :=
  { ((bench.setFld R.WDT_CTL_EN 1).setFld R.WDT_CTL_WIN 4).setFld R.WDT_PERIOD_PERIOD 1000 with slow := { wdtCycles := n, wdtArmed := k } }

theorem witness_FaultsAdminAndWatchdogs : CanWrite bench .rootstock R.FLT_NV_CFG ∧ bench.granted 3 = true ∧
    CanWrite (bench.setReg R.PDC_GRANT 3) .rootstock R.FLT_NV_CFG ∧ (bench.setReg R.PDC_GRANT 3).granted 3 = false ∧
    CanWrite bench .rootstock (R.FLT_INJ 31) ∧ bench.granted 1 = true ∧ CanWrite bench .rootstock (R.ADM 151) ∧
    (bench.reg (R.ADM 151)).toNat / 2 ^ 16 = (bench.setReg (R.ADM 151) ((bench.reg (R.ADM 151) &&& ~~~ 0xFFFF0001) ||| (1 &&& 0xFFFF0001))).fld (R.ADM_EPOCH 151) ∧
    (bench.reg (R.ADM 132)).toNat / 2 ^ 16 ≠ (bench.setReg (R.ADM 132) ((bench.reg (R.ADM 132) &&& ~~~ 0xFFFF0001) ||| (0x10000 &&& 0xFFFF0001))).fld (R.ADM_EPOCH 132) ∧
    CanWrite bench .rootstock (R.ADM 132) ∧
    (((looping 0 1).setFld (R.PH_CFG_ASSIGN 0) 1).setFld (R.PH_CFG_LOOP 0) 0).servedBy 0 = some 0 ∧ (looping 0 1).switching 0 = true ∧
    bench.switching 0 = false ∧ (bench.setFld (R.OPS_ADOPTED 151) 0).flag (R.OPS_ADOPTED 151) = false ∧ bench.granted (unitDomain 151) = true ∧
    reaches .rootstock R.WDT_KEY = true ∧ bench.reqLive .rootstock = true ∧ bench.granted (domainOf R.WDT_KEY) = true ∧
    bench.level .rootstock = .warden ∧ (bench.setFld R.WDT_CTL_EN 0).flag R.WDT_CTL_EN = false ∧ (watched 0 none).flag R.WDT_CTL_EN = true ∧
    (watched 16384 none).wdtOpen (msOf 16385) = true ∧ (watched 0 none).wdtOpen (msOf 1) = false ∧
    (watched 16416 (some 16385)).slow.wdtArmed = some 16385 ∧ (16417 - 16385) * 1000 ≤ 32768 ∧ msOf 16417 < (watched 16416 none).wdtPeriod ∧
    (watched 32767 none).wdtPeriod ≤ msOf 32768 ∧ 32768 < (16418 - 16385) * 1000 ∧
    (watched 32768 none).wdtPeriod ≤ (watched 32768 none).wdtCount ∧ (watched 32768 none).wdtFrozen = false ∧
    { bench with pins := { bench.pins with wdTrip := true } }.pins.wdTrip = true ∧ (bench.setFld R.WDT_CTL_HOLD 1).flag R.WDT_CTL_HOLD = true ∧
    bench.flag R.WDT_CTL_HOLD = false ∧ reaches (.bar0 7) (R.ROW_WDT_KEY 7) = true ∧ bench.reqLive (.bar0 7) = true ∧
    bench.granted (domainOf (R.ROW_WDT_KEY 7)) = true ∧ bench.mayServe (.bar0 7) 7 = false ∧ bench.mayServe .rootstock 7 = true ∧
    reaches (.thread 0) (R.ROW_WDT_KEY 7) = true ∧ runner.mayServe (.thread 0) 7 = false ∧ runner.reqLive (.thread 0) = true ∧ bench.granted 12 = true ∧
    (bench.setFld (R.ROW_WDT_CTL_EN 7) 1).flag (R.ROW_WDT_CTL_EN 7) = true ∧
    ∃ s : State, max 1 (s.fld (R.ROW_WDT_CTL_PERIOD 7)) ≤ s.rowWdtCount 7 := by
  and_intros
  all_goals try decide +kernel
  exact ⟨{ bench with slow := { rowWdtCycles := [(7, 2147483648)] } }, by decide +kernel⟩

/-- The standby with the link up, in state `st`. -/
def standby (st : Nat) : State := ((bench.setFld R.GRAFT_CTL_EN 1).setFld R.GRAFT_STATUS_ROLE 0).graftTo st

/-- A frame of the link. -/
def grafted (type flags : Byte) (epoch off : Nat) (p : Bytes) : Bytes :=
  let h : Bytes := [type, flags, 0, 0] ++ beBytes 4 epoch ++ beBytes 4 off ++ beBytes 2 p.length ++ [0, 0] ++ p
  h ++ beBytes 4 (crc32Ieee h)

/-- A transfer of epoch 1 and eight bytes into bank 0, of which `got` has come. -/
def receiving (got : List (Nat × Nat)) : State :=
  (standby 4).updGraft (fun g => { g with rx := some { epoch := 1, total := 8, nsec := 1, bank := 0, got := got, start := 0 } })

/-- Bank 0 committed with epoch 1. -/
def holding : State :=
  (standby 2).poke ((standby 2).bankAt 0 + (standby 2).bankSize - 64) (commitBytes { epoch := 1, total := 8, nsec := 1, bank := 0, got := [], start := 0 } 0)

theorem witness_GraftCommands : (standby 2).graftUp = true ∧ (standby 2).currentBank = none ∧ holding.graftUp = true ∧
    holding.currentBank = some (0, 1) ∧
    (∀ ty ∈ [(1 : Byte), 2, 3, 4, 5, 6, 7], graftFrame ty.toNat (grafted ty 1 1 0 [0, 0, 0, 1, 0, 0, 0, 1]) = some (1, 1, 0, [0, 0, 0, 1, 0, 0, 0, 1])) ∧
    (standby 2).isActive = false ∧ ((standby 2).setFld R.GRAFT_STATUS_ROLE 1).isActive = true ∧
    ((standby 2).setFld R.GRAFT_STATUS_ROLE 1).graftUp = true ∧ (standby 2).graftState ≠ 5 ∧ (standby 5).graftState = 5 ∧
    (standby 2).bankSize < (standby 2).bankSize - 63 + 64 ∧ (standby 2).bankSize - 64 + 64 ≤ (standby 2).bankSize ∧ (standby 2).granted 12 = true ∧
    (receiving []).graft.rx = some { epoch := 1, total := 8, nsec := 1, bank := 0, got := [], start := 0 } ∧ (receiving []).graftUp = true ∧
    coversOnce 8 [(0, 4), (4, 4)] = true ∧ coversOnce 8 [(0, 4)] = false ∧ coversOnce 8 [(0, 4), (3, 4)] = false ∧
    crc32Ieee ((receiving [(0, 8)]).peekBytes ((receiving [(0, 8)]).bankAt 0) 8) = beNat (beBytes 4 (crc32Ieee (List.replicate 8 0))) ∧
    crc32Ieee ((receiving [(0, 8)]).peekBytes ((receiving [(0, 8)]).bankAt 0) 8) ≠ 1 ∧ CanWrite bench .rootstock R.GRAFT_CTL ∧
    ((standby 2).updGraft (fun g => { g with txTag := some 1023, txEpoch := 1 })).graft.txTag = some 1023 ∧
    (standby 2).flag R.GRAFT_CTL_TAKE_EN = false ∧ ((standby 2).setFld R.GRAFT_CTL_TAKE_EN 1).flag R.GRAFT_CTL_TAKE_EN = true := by
  and_intros <;> decide +kernel

/-! ## The queue, the clock and the whole state -/

theorem witness_StepRunsFrontCommand : { bench with pending := [.linkDown] }.pending = .linkDown :: [] := rfl

theorem witness_IdleStepCountsTime : bench.pending = [] ∧ Sys2Proof.Machine.step bench = .next bench.dtbTick.clkUp.slowClock.lockTick.ep1In ∧
    bench.granted 12 = true ∧ bench.dtb.slewLeft = 0 ∧ State.reset.granted 12 = false := ⟨by decide +kernel, rfl, by decide +kernel⟩

theorem witness_StepKeepsCanonicalForm : State.reset.wf = true ∧
    Sys2Proof.Machine.step { State.reset with pending := [.perstRise] } = .next { State.reset with perst := false } := ⟨by decide +kernel, rfl⟩

theorem witness_CommandsKeepQueueAndClock : Sys2Proof.Machine.exec .perstRise bench = .next { bench with perst := false } := rfl

theorem witness_FusesOnlyGrow : ∃ t, Sys2Proof.Machine.step { bench with pending := [.perstRise] } = .next t := ⟨_, rfl⟩

theorem witness_EncodedWordsDecode : Instr.wf (.add (.scion 0) (.c 1 2)) = true ∧ (encodeWord (.add (.scion 0) (.c 1 2))).isSome = true ∧
    (encodeWord (.add (.scion 511) (.w 31 31 31))).isSome = true := by decide +kernel

theorem witness_MemoryReadsBack : bench.wf = true := by decide +kernel
end Sys2Proof.Tests
end

section
/-! The refused accesses of 01 (R38, R39): how one is counted and recorded, and that the faults and events which follow it
leave the identification block as it is. -/

namespace Sys2Proof.Machine

/-! ## What faults and events leave of the identification block -/

/-- The registers of the identification block, which lie below the fault registers, read in `t` as in `s`. -/
def IdrKept (s t : State) : Prop := ∀ q, q < R.FLT_SAFE → t.reg q = s.reg q

theorem IdrKept.refl (s : State) : IdrKept s s := fun _ _ => rfl

section
variable {o s t : State}

theorem IdrKept.fld (h : IdrKept s t) {f : Fld} (hf : f.off < R.FLT_SAFE) : t.fld f = s.fld f := congrArg f.get (h _ hf)

theorem IdrKept.flag (h : IdrKept s t) {f : Fld} (hf : f.off < R.FLT_SAFE) : t.flag f = s.flag f :=
  congrArg (· != 0) (h.fld hf)

theorem IdrKept.of_regs (h : IdrKept o s) (hr : t.regs = s.regs) : IdrKept o t := fun q hq => by
  rw [← h q hq, State.reg, State.reg, hr]

theorem IdrKept.setReg (h : IdrKept o s) {off : Nat} (ho : R.FLT_SAFE ≤ off) (v : Word) : IdrKept o (s.setReg off v) :=
  fun q hq => by rw [State.reg_setReg_other s v (by omega), h q hq]

theorem IdrKept.satAdd (h : IdrKept o s) {f : Fld} (ho : R.FLT_SAFE ≤ f.off) (k top : Nat) : IdrKept o (s.satAdd f k top) :=
  h.setReg ho _

theorem fltSafe_le_faultStatusOff (b : Nat) : R.FLT_SAFE ≤ faultStatusOff b := by
  unfold faultStatusOff
  repeat' refine iteInduction (motive := (R.FLT_SAFE ≤ ·)) (fun _ => ?_) (fun _ => ?_)
  all_goals
    simp only [R.FLT_SAFE, R.TAP_FAULT_STATUS, R.WDT_FAULT_STATUS, R.FLT_SYS_STATUS, R.SEC_FAULT_STATUS,
      R.LOOP_FAULT_STATUS, R.CNV_FAULT_STATUS, R.GOV_FAULT_STATUS, R.FAN_FAULT_STATUS, R.BAT_FAULT_STATUS, R.TW_FAULT_STATUS,
      R.NV_FAULT_STATUS, R.ESP_FAULT_STATUS, R.ROW_FAULT_STATUS, R.ROW_WDT_STAT, R.BGH_FAULT_STATUS, R.PORT_FAULT_STATUS,
      R.PCIE_FAULT_STATUS, R.USB_FAULT_STATUS, R.GRAFT_FAULT_STATUS, R.RING_FAULT_STATUS]
    omega

/-- The record registers of every block lie above the identification block. -/
theorem fltSafe_le_records (b : Nat) : R.FLT_SAFE ≤ R.FLT_FIRST b ∧ R.FLT_SAFE ≤ R.FLT_FIRST_T b ∧
    R.FLT_SAFE ≤ R.FLT_LAST b ∧ R.FLT_SAFE ≤ R.FLT_LAST_T b ∧ R.FLT_SAFE ≤ R.FLT_CNT b := by
  simp only [R.FLT_SAFE, R.FLT_FIRST, R.FLT_FIRST_T, R.FLT_LAST, R.FLT_LAST_T, R.FLT_CNT]
  omega

theorem IdrKept.faultRecord (h : IdrKept o s) (b bit cls n : Nat) : IdrKept o (s.faultRecord b bit cls n) := by
  obtain ⟨hfirst, hfirstT, hlast, hlastT, hcnt⟩ := fltSafe_le_records b
  exact ((ite_kept h ((h.setReg hfirst _).setReg hfirstT _)).setReg hlast _ |>.setReg hlastT _).satAdd hcnt n 65535

theorem IdrKept.pmAlert (h : IdrKept o s) (i : Nat) : IdrKept o (s.pmAlert i) :=
  ite_kept h (h.of_regs rfl)

theorem IdrKept.latchSums (h : IdrKept o s) (x : Nat) (up : BitVec 16) (src : Bool) : IdrKept o (s.latchSums x up src) := by
  unfold State.latchSums
  exact foldl_kept (fun _ b ht => ite_kept (ht.pmAlert b.2) ht) sumBits (h.of_regs rfl)

theorem IdrKept.pmRaise (h : IdrKept o s) (f : PmSt → PmSt) (i : Nat) : IdrKept o (s.pmRaise f i) := by
  have hset : IdrKept o { s with pm := f s.pm } := h.of_regs rfl
  exact ite_kept h (foldl_kept (fun _ x ht => ht.latchSums x _ _) _ (hset.pmAlert i))

theorem IdrKept.pmLatch (h : IdrKept o s) (b bit : Nat) : IdrKept o (s.pmLatch b bit) :=
  ite_kept (ite_kept (h.pmRaise _ _) (ite_kept (h.pmRaise _ _) h))
    (ite_kept ((h.pmRaise _ _).pmRaise _ _)
      (ite_kept (foldl_kept (fun _ _ ht => ht.pmRaise _ _) _ h)
        (ite_kept (foldl_kept (fun _ _ ht => ht.pmRaise _ _) _ h) h)))

theorem IdrKept.enterSafe (h : IdrKept o s) (b bit : Nat) : IdrKept o (s.enterSafe b bit) := by
  have hnamed : IdrKept o (if s.fld R.FLT_SAFE_FATAL_CNT = 0 then (s.setFld R.FLT_SAFE_BLOCK b).setFld R.FLT_SAFE_BIT bit else s) :=
    ite_kept ((h.setReg le_rfl _).setReg le_rfl _) h
  exact ((hnamed.setReg le_rfl _).satAdd le_rfl 1 255).of_regs rfl

theorem IdrKept.offerRecord (h : IdrKept o s) (cls : Nat) (rec : Bytes) : IdrKept o (s.offerRecord cls rec).1 :=
  have hdrop : IdrKept o (s.satAdd R.FLT_NV_STAT_DROP 1 65535) := h.satAdd (by decide) 1 65535
  ite_fst_kept h (ite_fst_kept hdrop (ite_fst_kept (h.of_regs rfl) hdrop))

theorem IdrKept.post (h : IdrKept o s) (k i : Nat) : IdrKept o (s.post k i) := ite_kept (h.of_regs rfl) h

theorem IdrKept.deliver (h : IdrKept o s) (route : Word) : IdrKept o (s.deliver route).1 := by
  unfold State.deliver
  dsimp only
  split
  · exact ite_fst_kept (h.post _ _) h
  · exact ite_fst_kept (h.of_regs rfl) h
  · exact h.post _ _
  · exact h

/-- A fault, with the faults that its lost event or record starts, writes no register of the identification block. -/
theorem IdrKept.raiseFuel {fuel b : Nat} {bits : List Nat} {detail : Bytes} (h : IdrKept o s) :
    IdrKept o (State.raiseFuel fuel s b bits detail) := by
  induction fuel generalizing s b bits detail with
  | zero => exact h
  | succ fuel ih =>
    cases bits with
    | nil => exact h
    | cons bit more =>
      unfold State.raiseFuel
      refine foldl_kept (fun _ _ ht => ite_kept (ih (ht.deliver _)) (ht.deliver _)) _ ?_
      refine foldl_kept (fun _ _ ht => ite_kept (ih (ht.offerRecord _ _)) (ht.offerRecord _ _)) _ ?_
      refine foldl_kept (fun _ i ht => ite_kept (ht.enterSafe b i) ht) _ ?_
      refine foldl_kept (fun _ i ht => ht.pmLatch b i) _ ?_
      refine IdrKept.faultRecord ?_ _ _ _ _
      exact foldl_kept (fun _ _ ht => ht.setReg (fltSafe_le_faultStatusOff b) _) _ h

theorem IdrKept.fault (h : IdrKept o s) (b bit : Nat) : IdrKept o (s.fault b bit) := h.raiseFuel

theorem IdrKept.event (h : IdrKept o s) (route : Word) : IdrKept o (s.event route) :=
  ite_kept ((h.deliver route).fault 3 6) (h.deliver route)

end

/-! ## What a refusal writes -/

/-- What a refusal writes in the identification block: the count, the record or OVF, and the status bit of its kind (R38, R39). -/
def State.noteRefusal (s : State) (k : RefKind) (req : Req) (addr : Nat) (write : Bool) (bar : Nat) : State :=
  let held := (s.reg R.IDR_ACC_STATUS).toNat % 16 != 0
  let s := s.satAdd R.IDR_ACC_CNT_COUNT 1 65535
  let s := if held then s.setFld R.IDR_ACC_STATUS_OVF 1
    else (s.setReg R.IDR_ACC_ADDR (BitVec.ofNat 32 addr)).setReg R.IDR_ACC_SRC
      (BitVec.ofNat 32 (addr / 2 ^ 32 % 256 + reqCode req * 2 ^ 8 + (if write then 2 ^ 18 else 0) + bar % 4 * 2 ^ 19))
  s.setBit R.IDR_ACC_STATUS k.bit

/-- The fault record, the store record and the event of a refusal leave what it wrote in the identification block. -/
theorem State.noteRefusal_idrKept_refuse (s : State) (k : RefKind) (req : Req) (addr : Nat) (write : Bool) (bar : Nat) :
    IdrKept (s.noteRefusal k req addr write bar) (s.refuse k req addr write bar) := by
  have hrecord := (IdrKept.refl (s.noteRefusal k req addr write bar)).faultRecord 0 k.bit 2 1
  have hstore := fun detail => hrecord.offerRecord 2 detail
  exact ite_kept (ite_kept ((hstore _).fault 3 7) (hstore _)) ((ite_kept ((hstore _).fault 3 7) (hstore _)).event _)

section
variable (s : State) (k : RefKind) (req : Req) (addr : Nat) (write : Bool) (bar : Nat)

theorem RefKind.bit_lt (k : RefKind) : k.bit < 4 := by cases k <;> decide

/-- Setting a bit of a register is writing 1 to the field of that bit alone. -/
theorem State.setBit_eq_setFld (off : Nat) {n : Nat} (hn : n < 32) : s.setBit off n = s.setFld ⟨off, n, 1⟩ 1 := by
  rw [State.setBit, State.setFld]
  congr 1
  apply BitVec.eq_of_getLsbD_eq
  intro i hi
  rw [Fld.getLsbD_put _ (by simp [Fld.ok]; omega), BitVec.getLsbD_or, BitVec.getLsbD_ofNat, Nat.testBit_two_pow]
  by_cases e : n = i
  · simp [e, hi]
  · rw [if_neg (by dsimp only; omega)]
    simp [e]

theorem State.fld_setBit_off (g : Fld) {off : Nat} (n : Nat) (h : g.off ≠ off) : (s.setBit off n).fld g = s.fld g :=
  s.fld_setReg_off g off _ h

theorem State.reg_setBit_other {off q : Nat} (n : Nat) (h : q ≠ off) : (s.setBit off n).reg q = s.reg q :=
  s.reg_setReg_other _ h

theorem State.noteRefusal_count :
    (s.noteRefusal k req addr write bar).fld R.IDR_ACC_CNT_COUNT = min 65535 (s.fld R.IDR_ACC_CNT_COUNT + 1) := by
  have hcount : (s.satAdd R.IDR_ACC_CNT_COUNT 1 65535).fld R.IDR_ACC_CNT_COUNT = min 65535 (s.fld R.IDR_ACC_CNT_COUNT + 1) := by
    rw [State.satAdd, State.fld_setFld_same _ _ _ rfl]
    exact Nat.mod_eq_of_lt (Nat.lt_of_le_of_lt (Nat.min_le_left _ _) (by decide))
  unfold State.noteRefusal
  dsimp only
  rw [State.fld_setBit_off _ _ _ (by decide)]
  split
  · rw [State.fld_setFld_off _ _ _ _ (by decide), hcount]
  · rw [State.fld_setReg_off _ _ _ _ (by decide), State.fld_setReg_off _ _ _ _ (by decide), hcount]

theorem State.noteRefusal_status : bitOf ((s.noteRefusal k req addr write bar).reg R.IDR_ACC_STATUS) k.bit = true := by
  have hk := k.bit_lt
  unfold State.noteRefusal bitOf
  rw [State.setBit, State.reg_setReg_same, BitVec.toNat_or, Nat.testBit_or, BitVec.toNat_ofNat, Nat.testBit_mod_two_pow,
    Nat.testBit_two_pow_self]
  simp [show k.bit < 32 by omega]

theorem State.noteRefusal_first (h : (s.reg R.IDR_ACC_STATUS).toNat % 16 = 0) :
    (s.noteRefusal k req addr write bar).reg R.IDR_ACC_ADDR = BitVec.ofNat 32 addr ∧
    (s.noteRefusal k req addr write bar).reg R.IDR_ACC_SRC =
      BitVec.ofNat 32 (addr / 2 ^ 32 % 256 + reqCode req * 2 ^ 8 + (if write then 2 ^ 18 else 0) + bar % 4 * 2 ^ 19) := by
  have hheld : ((s.reg R.IDR_ACC_STATUS).toNat % 16 != 0) = false := by simp [h]
  unfold State.noteRefusal
  simp only [hheld, Bool.false_eq_true, if_false]
  constructor
  · rw [State.reg_setBit_other _ _ (by decide), State.reg_setReg_other _ _ (by decide), State.reg_setReg_same]
  · rw [State.reg_setBit_other _ _ (by decide), State.reg_setReg_same]

theorem State.noteRefusal_later (h : (s.reg R.IDR_ACC_STATUS).toNat % 16 ≠ 0) :
    (s.noteRefusal k req addr write bar).flag R.IDR_ACC_STATUS_OVF = true ∧
    (s.noteRefusal k req addr write bar).reg R.IDR_ACC_ADDR = s.reg R.IDR_ACC_ADDR ∧
    (s.noteRefusal k req addr write bar).reg R.IDR_ACC_SRC = s.reg R.IDR_ACC_SRC := by
  have hheld : ((s.reg R.IDR_ACC_STATUS).toNat % 16 != 0) = true := by simp [h]
  unfold State.noteRefusal
  simp only [hheld, if_true]
  refine ⟨?_, ?_, ?_⟩
  · have hbit := k.bit_lt
    rw [State.flag, State.setBit_eq_setFld _ _ (by omega), State.fld_setFld_apart _ _ _ _ (by simp [Fld.ok]; omega)
      (by simp [Fld.apart, R.IDR_ACC_STATUS_OVF]; omega), State.fld_setFld_same _ _ _ rfl]
    rfl
  · rw [State.reg_setBit_other _ _ (by decide), State.reg_setFld_other _ _ _ _ (by decide), State.satAdd,
      State.reg_setFld_other _ _ _ _ (by decide)]
  · rw [State.reg_setBit_other _ _ (by decide), State.reg_setFld_other _ _ _ _ (by decide), State.satAdd,
      State.reg_setFld_other _ _ _ _ (by decide)]

end

/-- Settles O59: what a refusal writes stands in the identification block, where the fault and event that follow write nothing. -/
theorem refusedAccesses : Obligations.RefusedAccesses := by
  rintro s _ k req addr write bar rfl
  have hkept := s.noteRefusal_idrKept_refuse k req addr write bar
  rw [hkept.fld (by decide), hkept.flag (by decide), hkept R.IDR_ACC_STATUS (by decide), hkept R.IDR_ACC_ADDR (by decide),
    hkept R.IDR_ACC_SRC (by decide)]
  exact ⟨s.noteRefusal_count k req addr write bar, s.noteRefusal_status k req addr write bar,
    s.noteRefusal_first k req addr write bar, s.noteRefusal_later k req addr write bar⟩

end Sys2Proof.Machine
end

section
/-! Accesses of one aligned word of the register window (01, R15, R19, R28-R30): the bus leads them to the register named, and a
read of a half of a pair works on the requester's shadow. -/

namespace Sys2Proof.Machine

/-! ## The way of an aligned word to its register -/

theorem inWindow_add {off : Nat} (h : off < 0x68000) : inWindow (0xF000000000 + off) = some off := by
  unfold inWindow
  rw [if_pos (by omega), Nat.add_sub_cancel_left]

theorem tooWide_word (addr : Nat) : tooWide addr 4 = false := rfl

section
variable {s : State} {req : Req} {tgt : Target} {off : Nat} (hp : place req tgt = some (.dev (0xF000000000 + off)))
  (ha : off % 4 = 0) (hw : off < 0x68000)
include hp ha hw

theorem State.accRead_word : s.accRead req tgt 4 = s.winRead req off := by
  unfold State.accRead State.busRead
  simp only [hp, tooWide_word, Bool.false_eq_true, if_false, inWindow_add hw]
  rw [if_pos ⟨trivial, by omega⟩]

theorem State.accWrite_word (v : Nat) : s.accWrite req tgt 4 v = s.winWrite req off (BitVec.ofNat 32 v) := by
  unfold State.accWrite State.busWrite
  simp only [hp, tooWide_word, Bool.false_eq_true, if_false, inWindow_add hw]
  rw [if_pos ⟨trivial, by omega⟩]

/-- A read of one word by a live requester: the register's own read, whose value goes to the requester. -/
theorem State.readOut_word {r : RegRow} (hr : regRow off = some r) (hl : s.reqLive req = true)
    (hg : s.granted (domainOf off) = true) :
    s.readOut req tgt 4 = (s.readEffect req r.half off).2.send
      (.regRead req (BitVec.ofNat 64 (s.readEffect req r.half off).1.toNat)) := by
  unfold State.readOut
  rw [if_pos hl, State.accRead_word hp ha hw]
  unfold State.winRead
  simp [hg, hr]

/-- REGISTER_WRITE of one word by a live requester is the window's write of the low 32 bits. -/
theorem execRegisterWrite_word (hl : s.reqLive req = true) (v : BitVec 4096) :
    execRegisterWrite req tgt 4 v s = .next (s.winWrite req off (BitVec.ofNat 32 v.toNat)).st := by
  unfold execRegisterWrite
  rw [if_pos hl, show ((4 : Fin 513) : Nat) = 4 from rfl, State.accWrite_word hp ha hw]
  rfl

/-- A write of one word of a pair by a live requester is the window's write. -/
theorem State.writeIn_word (hl : s.reqLive req = true) (v : Word) : s.writeIn req tgt v = (s.winWrite req off v).st := by
  unfold State.writeIn
  rw [if_pos hl, State.accWrite_word hp ha hw, BitVec.ofNat_toNat, BitVec.setWidth_eq]

end

/-! ## The read shadow of a pair (R28, R29) -/

theorem State.readEffect_hi_held {s : State} {req : Req} {lo : Nat} {w : Word}
    (h : tabFind (reqCode req) s.rdShadow = some (lo, w)) :
    s.readEffect req .hi (lo + 4) = (w, { s with rdShadow := tabDel (reqCode req) s.rdShadow }) := by
  simp [State.readEffect, h]

theorem State.readEffect_hi_other {s : State} {req : Req} {off : Nat}
    (h : ∀ lo w, tabFind (reqCode req) s.rdShadow = some (lo, w) → off ≠ lo + 4) :
    s.readEffect req .hi off = (s.regView (s.level req) off, s) := by
  cases hf : tabFind (reqCode req) s.rdShadow with
  | none => simp [State.readEffect, hf]
  | some c =>
    obtain ⟨lo, w⟩ := c
    simp [State.readEffect, hf, (h lo w hf).symm]

/-- Settles O21: an access of a word is the register's own read or write, and a requester that may write every field is refused
nothing. -/
theorem registerAccesses : Obligations.RegisterAccesses := by
  intro req tgt off r s hp ha hw hr _ hl hg
  have hread := State.readOut_word hp ha hw hr hl hg
  have hwrite := State.writeIn_word hp ha hw hl
  refine ⟨fun hh => ?_, fun lo w hh he hf => ?_, fun hh hf => ?_, fun v hh hc hj hq => ?_,
    fun rl lo held v hh he hc hrl hm hj hq hf => ?_, fun v hc hh p1 p2 p3 p4 p5 p6 hq => ?_⟩
  · rw [hh] at hread
    exact congrArg Host.Outcome.next hread
  · subst he
    rw [hh, State.readEffect_hi_held hf] at hread
    exact congrArg Host.Outcome.next hread
  · rw [hh, State.readEffect_hi_other hf] at hread
    exact congrArg Host.Outcome.next hread
  · have hheld := hwrite v
    rw [State.winWrite_lo hc hr hh hj hq] at hheld
    exact congrArg Host.Outcome.next hheld
  · subst he
    have hcommit := hwrite v
    rw [State.winWrite_hi hc hr hh hrl hm hj hq hf] at hcommit
    exact congrArg Host.Outcome.next hcommit
  · have hstore := execRegisterWrite_word hp ha hw hl v
    rw [State.winWrite_whole hc hr hh p1 p2 p3 p4 p5 p6 hq] at hstore
    exact hstore

end Sys2Proof.Machine
end

section
/-! The taproot registers of 02: what a write of each does beside its store (R45, R47, R48, R71, R72), and the word of retention RAM
that an access of TAP_RRAM_DATA takes or gives (R52-R55). -/

namespace Sys2Proof.Machine

/-- A write by a live requester whose paths lead to the register is the window's. -/
theorem State.regDo_window {s : State} {req : Req} {off : Nat} (hc : CanWrite s req off) (w : Word) :
    s.regDo req off w = (s.winWrite req off w).st := by
  obtain ⟨hlive, hreach, -, -⟩ := hc
  rw [State.regDo, hlive, hreach, Bool.and_self, if_pos rfl]

/-! ## Both halves of a pair -/

theorem RegRow.bits_none {r : RegRow} {p : FieldRow → Bool} (h : ∀ f ∈ r.fields, p f = false) : r.bits p = 0 := by
  rw [RegRow.bits_congr (q := fun _ => false) h, RegRow.bits]
  simp

/-- A half of a pair whose fields are all RW and take up the bits of `m`. -/
def RegRow.storedHalf (r : RegRow) (h : Half) (m : Word) : Bool :=
  r.half == h && r.fields.all (fun f => f.acc == .rw) && r.bits (fun _ => true) == m

/-- The row of such a half, and that a write of it stores the bits of `m` and acts by no other. -/
theorem regRow_storedHalf {off : Nat} {h : Half} {m : Word} (hoff : (regRow off).any (fun r => r.storedHalf h m) = true) :
    ∃ r, regRow off = some r ∧ r.half = h ∧ ∀ locked old wr,
      (r.judgeAll locked old wr).new = old &&& ~~~ m ||| wr &&& m ∧ (r.judgeAll locked old wr).eff = wr &&& m := by
  obtain ⟨r, hr, hstored⟩ := (Option.any_eq_true ..).mp hoff
  simp only [RegRow.storedHalf, Bool.and_eq_true, beq_iff_eq, List.all_eq_true] at hstored
  obtain ⟨⟨hhalf, hrw⟩, rfl⟩ := hstored
  refine ⟨r, hr, hhalf, fun locked old wr => ?_⟩
  have hc : r.bits (fun f => f.acc == .w1c) = 0 := RegRow.bits_none fun f hf => by rw [hrw f hf]; rfl
  have hs : r.bits (fun f => f.acc == .w1s) = 0 := RegRow.bits_none fun f hf => by rw [hrw f hf]; rfl
  have hact : r.bits (fun f => f.acc == .w1c || f.acc == .w1s || f.acc == .wo) = 0 :=
    RegRow.bits_none fun f hf => by rw [hrw f hf]; rfl
  have htake : r.bits (fun f => f.acc == .rw || (f.acc == .rwl && !locked)
      || (f.acc == .wo && decide (0x4F000 ≤ r.base) && decide (r.base < 0x4F03C))) = r.bits (fun _ => true) :=
    RegRow.bits_congr fun f hf => by rw [hrw f hf]; rfl
  constructor
  · simp [RegRow.judgeAll, RegRow.judge, hc, hs, htake]
  · simp [RegRow.judgeAll, RegRow.judge, hact, htake]

/-- The lower half, then the upper half of a pair by a requester that may write every field of both: the held word is the one just
written, so both are stored at once (R30). -/
theorem State.regDo_pair {s : State} {req : Req} {lo hi : Nat} {ml mh : Word} (hpair : hi = lo + 4) (hlo : CanWrite s req lo)
    (hhi : CanWrite s req hi) (hl : (regRow lo).any (fun r => r.storedHalf .lo ml) = true)
    (hh : (regRow hi).any (fun r => r.storedHalf .hi mh) = true) (hoff : lo < 0x20000) (v w : Word) :
    (s.regDo req lo v).regDo req hi w = State.hook
      ((State.setReg { s with wrShadow := tabDel (reqCode req) s.wrShadow } lo (s.reg lo &&& ~~~ ml ||| v &&& ml)).setReg hi
        (s.reg hi &&& ~~~ mh ||| w &&& mh)) hi (s.reg hi) (w &&& mh) false := by
  subst hpair
  obtain ⟨-, -, -, hmay⟩ := id hlo
  obtain ⟨rl, hrl, hlhalf, hljudge⟩ := regRow_storedHalf hl
  obtain ⟨rh, hrh, hhhalf, hhjudge⟩ := regRow_storedHalf hh
  have hqueue : ∀ (t : State) (off : Nat), off < 0x28000 → t.hqBusy off = false := fun t off h => by
    simp [State.hqBusy, show ¬ 0x28000 ≤ off by omega]
  have hheld : s.regDo req lo v = { s with wrShadow := tabPut (reqCode req) (lo, v) s.wrShadow } := by
    rw [State.regDo_window hlo, State.winWrite_lo hlo hrl hlhalf (by omega) (hqueue s lo (by omega))]
  have hcan : CanWrite { s with wrShadow := tabPut (reqCode req) (lo, v) s.wrShadow } req (lo + 4) := hhi
  rw [hheld, State.regDo_window hcan, State.winWrite_hi hcan hrh hhhalf hrl (hmay rl hrl) (by omega)
    (hqueue _ _ (by omega)) (tabFind_put_same _ _ _), tabDel_put, (hljudge _ _ _).1, (hhjudge _ _ _).1, (hhjudge _ _ _).2]
  rfl

/-! ## Registers of the taproot block -/

/-- A write by masks of a register of the taproot block, whose effects are the block's own. -/
theorem State.regDo_tap {s : State} {req : Req} {off : Nat} {m a c d : Word} (hc : CanWrite s req off)
    (h : (regRow off).any (fun r => r.masks off m a c d) = true) (h1 : 0x1000 ≤ off) (h2 : off < 0x1100) (w : Word) :
    s.regDo req off w = (s.setReg off
      (((s.reg off &&& ~~~ m ||| w &&& m) &&& ~~~ (w &&& (m ||| a) &&& c)) ||| (w &&& (m ||| a) &&& d))).tapHook off
        (w &&& (m ||| a)) := by
  rw [State.regDo_masks hc h, State.hook_tap1 _ h1 h2, State.enRise_masks h]

/-- The same where no bit that a write acts on is cleared or set by it: only the bits of `m` take the word's. -/
theorem State.regDo_tap_stored {s : State} {req : Req} {off : Nat} {m : Word} (hc : CanWrite s req off)
    (h : (regRow off).any (fun r => r.masks off m 0 0 0) = true) (h1 : 0x1000 ≤ off) (h2 : off < 0x1100) (w : Word) :
    s.regDo req off w = (s.setReg off (s.reg off &&& ~~~ m ||| w &&& m)).tapHook off (w &&& m) := by
  rw [State.regDo_tap hc h h1 h2]
  simp

theorem State.tapHook_rtcSecHi (s : State) (wr : Word) :
    s.tapHook R.TAP_RTC_SEC_HI wr = { s.setFld R.TAP_RTC_SUB_SUB 0 with slow := { s.slow with counted := false } } := rfl

theorem State.tapHook_wakeCfg (s : State) (n : Fin 8) (wr : Word) : s.tapHook (R.TAP_WAKE_CFG n.val) wr = s.setWakeHeld n.val false := by
  have hrtc : R.TAP_WAKE_CFG n.val ≠ R.TAP_RTC_SEC_HI := by unfold R.TAP_WAKE_CFG R.TAP_RTC_SEC_HI; omega
  have halarm : ¬ (R.TAP_WAKE_CFG n.val = R.TAP_ALARM_SEC ∨ R.TAP_WAKE_CFG n.val = R.TAP_ALARM_SUB) := by
    unfold R.TAP_WAKE_CFG R.TAP_ALARM_SEC R.TAP_ALARM_SUB; omega
  have hwake : R.TAP_WAKE_CFG 0 ≤ R.TAP_WAKE_CFG n.val ∧ R.TAP_WAKE_CFG n.val ≤ R.TAP_WAKE_CFG 7 := by
    unfold R.TAP_WAKE_CFG; omega
  have hindex : (R.TAP_WAKE_CFG n.val - R.TAP_WAKE_CFG 0) / 4 = n.val := by unfold R.TAP_WAKE_CFG; omega
  rw [State.tapHook, if_neg hrtc, if_neg halarm, if_pos hwake, hindex]

theorem State.tapHook_vbatCmp (s : State) (wr : Word) :
    s.tapHook R.TAP_VBAT_CMP wr = s.updTap (fun t => { t with vbatLoArmed := true, vbatHiArmed := true }) := rfl

theorem State.tapHook_stby (s : State) (wr : Word) : s.tapHook R.TAP_STBY wr = if bitOf wr 0 then s.standbyGo else s := rfl

theorem State.tapHook_rramEcc (s : State) (wr : Word) : s.tapHook R.TAP_RRAM_ECC wr = s := rfl

/-- R45: the RTC's seconds are written as a pair, and SUB becomes 0. -/
theorem execRtcSecWrite_next {s : State} {req : Req} (hlo : CanWrite s req R.TAP_RTC_SEC_LO) (hhi : CanWrite s req R.TAP_RTC_SEC_HI)
    (lo hi : Word) :
    execRtcSecWrite req lo hi s = .next
      { ((State.setReg { s with wrShadow := tabDel (reqCode req) s.wrShadow } R.TAP_RTC_SEC_LO lo).setReg R.TAP_RTC_SEC_HI
          ((s.reg R.TAP_RTC_SEC_HI &&& 0xFFFF0000) ||| (hi &&& 0xFFFF))).setFld
          R.TAP_RTC_SUB_SUB 0 with slow := { s.slow with counted := false } } := by
  have hlow : (s.reg R.TAP_RTC_SEC_LO &&& ~~~ 0xFFFFFFFF ||| lo &&& 0xFFFFFFFF : Word) = lo := by simp
  unfold execRtcSecWrite
  rw [State.regDo_pair (lo := R.TAP_RTC_SEC_LO) (hi := R.TAP_RTC_SEC_HI) (ml := 0xFFFFFFFF) (mh := 0xFFFF) rfl hlo hhi
    (by decide +kernel) (by decide +kernel) (by decide), hlow, State.hook_tap1 _ (by decide) (by decide),
    State.enRise_none (by decide +kernel), State.tapHook_rtcSecHi]
  rfl

/-- R47: a wake input's new configuration has not qualified. -/
theorem execWakeCfgWrite_next {s : State} {req : Req} {n : Fin 8} (hc : CanWrite s req (R.TAP_WAKE_CFG n.val)) (v : Word) :
    execWakeCfgWrite req n v s = .next ((s.setReg (R.TAP_WAKE_CFG n.val)
      ((s.reg (R.TAP_WAKE_CFG n.val) &&& 0xFFFF00F8) ||| (v &&& 0xFF07))).setWakeHeld n.val false) := by
  have hrow : ∀ n : Fin 8, (regRow (R.TAP_WAKE_CFG n.val)).any (fun r => r.masks (R.TAP_WAKE_CFG n.val) 0xFF07 0 0 0) = true := by
    decide +kernel
  have hoff : 0x1000 ≤ R.TAP_WAKE_CFG n.val ∧ R.TAP_WAKE_CFG n.val < 0x1100 := by unfold R.TAP_WAKE_CFG; omega
  unfold execWakeCfgWrite
  rw [State.regDo_tap_stored hc (hrow n) hoff.1 hoff.2, State.tapHook_wakeCfg]
  rfl

/-- R48: a write of the comparators arms both anew. -/
theorem execVbatCmpWrite_next {s : State} {req : Req} (hc : CanWrite s req R.TAP_VBAT_CMP) (v : Word) :
    execVbatCmpWrite req v s = .next ((s.setReg R.TAP_VBAT_CMP
      ((s.reg R.TAP_VBAT_CMP &&& 0xFFFFC0C0) ||| (v &&& 0x3F3F))).updTap
        (fun t => { t with vbatLoArmed := true, vbatHiArmed := true })) := by
  unfold execVbatCmpWrite
  rw [State.regDo_tap_stored (m := 0x3F3F) hc (by decide +kernel) (by decide) (by decide), State.tapHook_vbatCmp]
  rfl

/-- R71: writing GO alone stores nothing in TAP_STBY and starts the entry. -/
theorem execStandbyEntry_next {s : State} {req : Req} (hc : CanWrite s req R.TAP_STBY) :
    execStandbyEntry req s = .next (s.setReg R.TAP_STBY (s.reg R.TAP_STBY)).standbyGo := by
  have hkept : (((s.reg R.TAP_STBY &&& ~~~ 0 ||| 1 &&& 0) &&& ~~~ (1 &&& (0 ||| 7) &&& 6)) ||| (1 &&& (0 ||| 7) &&& 0) : Word) =
      s.reg R.TAP_STBY := by simp
  unfold execStandbyEntry
  rw [State.regDo_tap (m := 0) (a := 7) (c := 6) (d := 0) hc (by decide +kernel) (by decide) (by decide), hkept, State.tapHook_stby,
    if_pos (by decide)]

/-- R72: with no source enabled GO is refused. -/
theorem State.standbyGo_refused {s : State} (h : s.fld R.TAP_WAKE_EN_SRC = 0) : s.standbyGo = s.setFld R.TAP_STBY_REFUSED 1 := if_pos h

/-- R55: INJ is written, the other fields of TAP_RRAM_ECC stay. -/
theorem execRramEccInjArm_next {s : State} {req : Req} (hc : CanWrite s req R.TAP_RRAM_ECC_INJ.off) (inj : BitVec 2) :
    execRramEccInjArm req inj s = .next (s.setFld R.TAP_RRAM_ECC_INJ inj.toNat) := by
  have hrow : (regRow R.TAP_RRAM_ECC_INJ.off).any (fun r => r.masks R.TAP_RRAM_ECC_INJ.off 3 0 0 0) = true := by decide +kernel
  unfold execRramEccInjArm
  rw [State.fldDo_rw hc hrow (by decide) rfl rfl rfl, State.hook_tap1 _ (by decide) (by decide), State.enRise_masks hrow]
  exact congrArg Host.Outcome.next (State.tapHook_rramEcc _ _)

/-! ## Retention RAM (R52-R55) -/

theorem regRow_rramData : regRow R.TAP_RRAM_DATA = some ⟨0x1064, [], .c, .anyone, .whole, [⟨0, 32, .rw, 0, none, none⟩]⟩ := by
  decide +kernel

/-- A write of TAP_RRAM_DATA goes to retention RAM, its register storing nothing. -/
theorem State.regDo_rramData {s : State} {req : Req} (hc : CanWrite s req R.TAP_RRAM_DATA) (v : Word) :
    s.regDo req R.TAP_RRAM_DATA v = s.rramWrite v := by
  have hlands := State.regDo_window hc v
  obtain ⟨-, -, hgrant, hmay⟩ := hc
  have hwr := State.writeRefused_none regRow_rramData (hmay _ regRow_rramData) (by decide) (by decide) (by decide) (by decide) (by decide) v
  have hqueue : s.hqBusy R.TAP_RRAM_DATA = false := rfl
  rw [hlands, State.winWrite, if_neg (by decide), State.winWriteWith, hgrant, regRow_rramData]
  simp [hqueue, State.writeWhole, hwr]

/-- R55: what a write of word `i` stores, with the check bit that INJ inverts and INJ itself. -/
theorem State.rramStore_eq (s : State) (i : Nat) (v : Word) : s.rramStore i v =
    if s.fld R.TAP_RRAM_ECC_INJ = 1 then (s.rramPut i v 1).setFld R.TAP_RRAM_ECC_INJ 0
    else s.rramPut i v (if s.fld R.TAP_RRAM_ECC_INJ = 2 then 1 else 0) := by
  unfold State.rramStore
  by_cases h1 : s.fld R.TAP_RRAM_ECC_INJ = 1
  · simp [h1]
  · simp [h1]

/-- A read of TAP_RRAM_DATA gives the word at IDX, meets its errors, then advances IDX. -/
theorem State.regAsk_rramData {s : State} {req : Req} (hc : CanRead s req R.TAP_RRAM_DATA) :
    s.regAsk req R.TAP_RRAM_DATA = (s.rramMeet (s.fld R.TAP_RRAM_IDX_IDX)).rramStep.send
      (.regRead req (BitVec.ofNat 64 (s.rramWord (s.fld R.TAP_RRAM_IDX_IDX)).toNat)) := by
  obtain ⟨hlive, hreach, hgrant⟩ := hc
  rw [State.regAsk, hlive, hreach, State.winRead, hgrant, regRow_rramData]
  rfl

section
variable {s : State} {i : Nat}

theorem State.rramMeet_good (h : tabGet 0 i s.rramEcc = 0) : s.rramMeet i = s := by
  simp [State.rramMeet, h]

/-- R53: one inverted check bit is corrected and counted. -/
theorem State.rramMeet_corrected (h : tabGet 0 i s.rramEcc = 1) :
    s.rramMeet i = (s.satAdd R.TAP_RRAM_ECC_CE_CNT 1 255).fault 1 3 := by
  simp [State.rramMeet, h]

/-- R54: two are a fault, of which UE_IDX keeps the first word. -/
theorem State.rramMeet_uncorrected (h : 2 ≤ tabGet 0 i s.rramEcc) : s.rramMeet i =
    (if s.flag R.TAP_FAULT_STATUS_RRAM_UE then s else s.setFld R.TAP_RRAM_ECC_UE_IDX i).fault 1 4 := by
  obtain ⟨n, hn⟩ := Nat.exists_eq_add_of_le' h
  simp [State.rramMeet, hn]

end

/-- Settles O24: each command is a write or read of one taproot register, whose masks and whose own effect say what follows. -/
theorem taprootRegisters : Obligations.TaprootRegisters := by
  refine ⟨fun req lo hi s hlo hhi => execRtcSecWrite_next hlo hhi lo hi, fun req n v s hc => execWakeCfgWrite_next hc v,
    fun req v s hc => execVbatCmpWrite_next hc v, ?_, ?_, ?_, fun req inj s hc => execRramEccInjArm_next hc inj⟩
  · rintro req s _ hc rfl
    refine ⟨execStandbyEntry_next hc, fun hsrc => State.standbyGo_refused ?_⟩
    rw [State.fld_setReg_off _ _ _ _ (by decide), hsrc]
  · rintro req v s _ _ hc rfl rfl
    show Host.Outcome.next (s.regDo req R.TAP_RRAM_DATA v) = _
    rw [State.regDo_rramData hc, State.rramWrite, State.rramStore_eq]
  · rintro req s _ _ hc rfl rfl
    have hread := State.regAsk_rramData hc
    refine ⟨fun h => ?_, fun h => ?_, fun h => ?_⟩
    · rw [State.rramMeet_good h] at hread
      exact congrArg Host.Outcome.next hread
    · rw [State.rramMeet_corrected h] at hread
      exact congrArg Host.Outcome.next hread
    · rw [State.rramMeet_uncorrected h] at hread
      exact congrArg Host.Outcome.next hread

end Sys2Proof.Machine
end

section
/-! The fuses, the random number generator and the debug port of 03 (R92-R102, R674): what a write of BOOT_FUSE_CMD and of
SEC_RNG_CTL and a read of SEC_RNG_DATA do, and how a RESPONSE ends. -/

namespace Sys2Proof.Machine

/-! ## Registers that only command (R93, R94, R97) -/

/-- A write of a register of the security block that stores nothing, whose bits of `a` act. -/
theorem State.regDo_secCommand {s : State} {req : Req} {off : Nat} {a : Word} (hc : CanWrite s req off)
    (h : (regRow off).any (fun r => r.masks off 0 a 0 0) = true) (hsec : 0x64000 ≤ off) (w : Word) :
    s.regDo req off w = (s.setReg off (s.reg off)).secHook off (w &&& a) false := by
  rw [State.regDo_masks hc h, State.hook_sec _ hsec, State.enRise_masks h]
  simp

/-! ## Fuses (R93, R94) -/

/-- R93: ADV_VER raises the minimum version to the running image's and never lowers it. -/
theorem State.fuseCmd_advVer (s : State) : s.fuseCmd 1 =
    if s.boot.rsKey.isSome = true ∧ s.fuses.minVer.toNat < s.fld R.BOOT_STATUS_RS_VER then
      { s with fuses := { s.fuses with minVer := BitVec.ofNat 6 (s.fld R.BOOT_STATUS_RS_VER) } }
    else s := by
  have hslots : (List.range 4).filter (fun n => bitOf 1 (4 + n)) = [] := by decide
  have hadv : bitOf 1 0 = true := by decide
  unfold State.fuseCmd
  rw [hslots]
  simp only [hadv, List.any_nil, List.foldl_nil, Bool.true_and, Bool.and_eq_true, decide_eq_true_eq, Bool.false_eq_true, if_false]
  split <;> rfl

/-- R94: REVOKE of the slot in use faults and burns nothing; that of another slot burns its bit alone. -/
theorem State.fuseCmd_revoke (s : State) (n : Fin 4) : s.fuseCmd (BitVec.ofNat 32 (2 ^ (4 + n.val))) =
    if s.boot.rsKey = some n then s.fault 4 3
    else { s with fuses := { s.fuses with revoked := s.fuses.revoked ||| BitVec.ofNat 4 (2 ^ n.val) } } := by
  have hslots : ∀ n : Fin 4, (List.range 4).filter (fun k => bitOf (BitVec.ofNat 32 (2 ^ (4 + n.val))) (4 + k)) = [n.val] := by decide
  have hadv : ∀ n : Fin 4, bitOf (BitVec.ofNat 32 (2 ^ (4 + n.val))) 0 = false := by decide
  unfold State.fuseCmd
  rw [hslots, hadv]
  simp

theorem regRow_fuseCmd : (regRow R.BOOT_FUSE_CMD).any (fun r => r.masks R.BOOT_FUSE_CMD 0 0xF1 0 0) = true := by decide +kernel

theorem execAdvVer_next {s : State} {req : Req} (hc : CanWrite s req R.BOOT_FUSE_CMD) :
    execAdvVer req s = .next (s.setReg R.BOOT_FUSE_CMD (s.reg R.BOOT_FUSE_CMD) |>.fuseCmd 1) := by
  unfold execAdvVer
  rw [State.regDo_secCommand hc regRow_fuseCmd (by decide)]
  rfl

theorem execRevoke_next {s : State} {req : Req} (hc : CanWrite s req R.BOOT_FUSE_CMD) (n : Fin 4) : execRevoke req n s =
    .next (s.setReg R.BOOT_FUSE_CMD (s.reg R.BOOT_FUSE_CMD) |>.fuseCmd (BitVec.ofNat 32 (2 ^ (4 + n.val)))) := by
  have hact : ∀ n : Fin 4, (BitVec.ofNat 32 (2 ^ (4 + n.val)) &&& 0xF1 : Word) = BitVec.ofNat 32 (2 ^ (4 + n.val)) := by decide
  unfold execRevoke
  rw [State.regDo_secCommand hc regRow_fuseCmd (by decide), hact]
  rfl

/-! ## Random numbers (R95-R97) -/

theorem regRow_rngData : regRow R.SEC_RNG_DATA = some ⟨0x64020, [], .c, .warden, .whole, [⟨0, 32, .ro, 0, none, none⟩]⟩ := by
  decide +kernel

/-- A read of SEC_RNG_DATA takes the generator's word. -/
theorem State.regAsk_rngData {s : State} {req : Req} (hc : CanRead s req R.SEC_RNG_DATA) :
    s.regAsk req R.SEC_RNG_DATA = s.rngTake.2.send (.regRead req (BitVec.ofNat 64 s.rngTake.1.toNat)) := by
  obtain ⟨hlive, hreach, hgrant⟩ := hc
  rw [State.regAsk, hlive, hreach, State.winRead, hgrant, regRow_rngData]
  rfl

/-- R95: while VALID is 1 the word is a free value (log 1). -/
theorem State.rngTake_valid {s : State} (h : s.fld R.SEC_RNG_STATUS_VALID ≠ 0) : s.rngTake = (s.nextFree, s.tookFree) :=
  if_pos (bne_iff_ne.mpr h)

/-- R96: while VALID is 0 the word is 0. -/
theorem State.rngTake_invalid {s : State} (h : s.fld R.SEC_RNG_STATUS_VALID = 0) : s.rngTake = (0, s) :=
  if_neg (by simp [State.flag, h])

/-- The row of SEC_RNG_CTL, whose one field acts and is not stored (Table 3.10). -/
def rngCtlRow : RegRow := ⟨0x64028, [], .c, .warden, .whole, [⟨0, 1, .wo, 0, none, none⟩]⟩

theorem regRow_rngCtl : regRow R.SEC_RNG_CTL = some rngCtlRow := by decide +kernel

theorem rngCtlRow_judgeAll_restart (locked : Bool) (old : Word) : rngCtlRow.judgeAll locked old 1 = ⟨old, 1, true, false⟩ := by
  simp [rngCtlRow, RegRow.judgeAll, RegRow.judge, RegRow.bits, FieldRow.mask]

section
variable {s : State} {req : Req} (hc : CanWrite s req R.SEC_RNG_CTL) (pass : Bool)
include hc

/-- R97: writing RESTART stores nothing; what the register does by itself follows. -/
theorem State.writeWhole_rngRestart : s.writeWhole req rngCtlRow R.SEC_RNG_CTL 1 pass =
    (s.setReg R.SEC_RNG_CTL (s.reg R.SEC_RNG_CTL)).hook R.SEC_RNG_CTL (s.reg R.SEC_RNG_CTL) 1 pass := by
  obtain ⟨-, -, -, hmay⟩ := hc
  have hmay := hmay _ regRow_rngCtl
  have hwr := State.writeRefused_none regRow_rngCtl hmay (by decide) (by decide) (by decide) (by decide) (by decide) 1
  have hkey : isRowKey R.SEC_RNG_CTL = false := by decide
  rw [State.writeWhole, hwr, State.judged_all hmay, rngCtlRow_judgeAll_restart, hkey]
  simp only [Bool.false_eq_true, if_false, if_true]
  rw [if_neg (by decide), if_neg (by decide)]
  rfl

theorem State.winWriteWith_rngRestart :
    (s.winWriteWith req R.SEC_RNG_CTL 1 pass).st = s.writeWhole req rngCtlRow R.SEC_RNG_CTL 1 pass := by
  obtain ⟨-, -, hgrant, -⟩ := hc
  have hqueue : s.hqBusy R.SEC_RNG_CTL = false := by simp [State.hqBusy, R.SEC_RNG_CTL]
  rw [State.winWriteWith, hgrant, regRow_rngCtl, hqueue]
  rfl

/-- R97: RESTART runs the start-up tests again, which end as `pass` says. -/
theorem execRestart_next :
    execRestart req pass s = .next ((s.setReg R.SEC_RNG_CTL (s.reg R.SEC_RNG_CTL)).rngRestart pass) := by
  rw [execRestart, State.winWriteWith_rngRestart hc, State.writeWhole_rngRestart hc, State.hook_sec _ (by decide),
    State.enRise_none (by decide +kernel)]
  obtain ⟨hlive, hreach, -, -⟩ := hc
  rw [hlive, hreach]
  rfl

end

/-! ## The debug port (R98-R102, R674) -/

theorem State.tapOn_iff (s : State) : s.tapOn = true ↔ s.tap.mode ≠ .powerOnReset := bne_iff_ne

section
variable {s : State}

theorem execIdcode_next (hon : s.tap.mode ≠ .powerOnReset) (hdbg : s.ready 62 = true) : execIdcode s =
    .next (s.send (.jtag (leBytes 4 (s.fld R.IDR_REV_MINOR % 16 * 2 ^ 28 + 0x6416 * 2 ^ 12 + s.fuses.mfrId.toNat * 2 + 1)))) := by
  simp only [execIdcode, s.tapOn_iff.mpr hon, hdbg, Bool.not_true, Bool.and_false, Bool.false_eq_true, if_false, if_true]

theorem execBypass_next {code : Byte} (hon : s.tap.mode ≠ .powerOnReset) (hdbg : s.ready 62 = true) (h1 : code ≠ 0x01)
    (h2 : code ≠ 0x20) (h3 : code ≠ 0x21) : execBypass code s = .next s.jtagBypass := by
  simp only [execBypass, s.tapOn_iff.mpr hon, hdbg, bne_iff_ne.mpr h1, bne_iff_ne.mpr h2, bne_iff_ne.mpr h3, Bool.and_self, if_true]

section
variable (hon : s.tap.mode ≠ .powerOnReset) (hte : s.tap.testEn = false) (hsec : s.ready 18 = true) (hdbg : s.ready 62 = true)
include hon hte hsec hdbg

/-- R92: the nonce and the secret number that the signature draws are the next two free values (log 1). -/
theorem execChallenge_next : execChallenge s = .next (State.send
    { s with boot := { s.boot with dbgNonce := some s.freshNonce }, freeCtr := s.freeCtr + 2 }
    (.jtag (s.freshNonce ++ beBytes 64 (Crypto.ecdsaSign s.fuses.idKey
      (Crypto.sha256 (s.freshNonce ++ leBytes 8 s.fuses.uid.toNat)) (Config.freeBig (s.freeCtr + 1))).toNat))) := by
  simp only [execChallenge, s.tapOn_iff.mpr hon, hte, hsec, hdbg, Bool.not_true, Bool.or_self, Bool.false_eq_true, if_false]
  rfl

/-- R99, R102: a RESPONSE that verifies gives the level it asks for, where the fuses do not disable the debug port. -/
theorem execResponse_verified {level : Byte} {sig : BitVec 512} {n : Bytes} (hn : s.boot.dbgNonce = some n)
    (hlock : s.fld R.SEC_DBG_LOCKOUT = 0) (hsig : s.ownerSigned n level sig = true) (hdis : s.fuses.dbgDis = false)
    (hlevel : level.toNat < 4) : execResponse level sig s =
      .next ((s.updBoot (fun b => { b with dbgNonce := none })).setFld R.SEC_DBG_LEVEL level.toNat) := by
  have hopen : s.flag R.SEC_DBG_LOCKOUT = false := by simp [State.flag, hlock]
  have hdis' : (s.updBoot (fun b => { b with dbgNonce := none })).fuses.dbgDis = false := hdis
  simp only [execResponse, s.tapOn_iff.mpr hon, hte, hsec, hdbg, hn, hopen, hsig, hdis', hlevel, Bool.not_true, Bool.not_false,
    Bool.and_self, Bool.or_self, Bool.false_eq_true, if_false, if_true]

/-- R101: without a nonce, under lockout, or with a signature that does not verify, a RESPONSE fails. -/
theorem execResponse_failed {level : Byte} {sig : BitVec 512}
    (hfail : ∀ n, s.boot.dbgNonce = some n → s.fld R.SEC_DBG_LOCKOUT ≠ 0 ∨ s.ownerSigned n level sig = false) :
    execResponse level sig s = .next (s.updBoot (fun b => { b with dbgNonce := none })).dbgFail := by
  simp only [execResponse, s.tapOn_iff.mpr hon, hte, hsec, hdbg, Bool.not_true, Bool.or_self, Bool.false_eq_true, if_false]
  cases hn : s.boot.dbgNonce with
  | none => rfl
  | some n => obtain hlock | hsig := hfail n hn <;> simp_all [State.flag]

end

/-- R101: a failure before the third is counted. -/
theorem State.dbgFail_counted (h : s.fld R.SEC_DBG_FAILS < 2) :
    s.dbgFail = (s.setFld R.SEC_DBG_FAILS (s.fld R.SEC_DBG_FAILS + 1)).fault 4 4 := by
  unfold State.dbgFail
  dsimp only
  rw [Nat.min_eq_right (by omega), if_neg (by omega)]

/-- R101: the third failure locks the port, and every one after it leaves it locked. -/
theorem State.dbgFail_locked (h : 2 ≤ s.fld R.SEC_DBG_FAILS) :
    s.dbgFail = ((s.setFld R.SEC_DBG_FAILS 3).setFld R.SEC_DBG_LOCKOUT 1).fault 4 4 := by
  unfold State.dbgFail
  dsimp only
  rw [Nat.min_eq_left (by omega), if_pos rfl]

end

/-- Settles O27: a fuse command, a random word and a RESPONSE each come down to one function of the security block, whose cases
are the statement's. -/
theorem fusesRandomAndDebug : Obligations.FusesRandomAndDebug := by
  refine ⟨?_, ?_, ?_, ?_, fun s hon hdbg => execIdcode_next hon hdbg, ?_, ?_,
    fun code s hon hdbg h1 h2 h3 => execBypass_next hon hdbg h1 h2 h3⟩
  · rintro req s _ _ hc rfl rfl
    have hver : (s.setReg R.BOOT_FUSE_CMD (s.reg R.BOOT_FUSE_CMD)).fld R.BOOT_STATUS_RS_VER = s.fld R.BOOT_STATUS_RS_VER :=
      s.fld_setReg_off _ _ _ (by decide)
    have hadv := execAdvVer_next hc
    rw [State.fuseCmd_advVer, hver] at hadv
    refine ⟨fun hrun hlow => ?_, fun hkeep => ?_, fun n hfree => ?_, fun n huse => ?_⟩
    · exact hadv.trans (congrArg Host.Outcome.next (if_pos ⟨hrun, hlow⟩))
    · refine hadv.trans (congrArg Host.Outcome.next (if_neg ?_))
      rintro ⟨hrun, hlow⟩
      obtain hnone | hle := hkeep
      · exact absurd (hrun : s.boot.rsKey.isSome = true) (by simp [hnone])
      · exact absurd hlow (Nat.not_lt.mpr hle)
    · exact (execRevoke_next hc n).trans (congrArg Host.Outcome.next ((State.fuseCmd_revoke _ n).trans (if_neg hfree)))
    · exact (execRevoke_next hc n).trans (congrArg Host.Outcome.next ((State.fuseCmd_revoke _ n).trans (if_pos huse)))
  · intro req s hc
    have hread := State.regAsk_rngData hc
    refine ⟨fun hvalid => ?_, fun hinvalid => ?_⟩
    · rw [State.rngTake_valid hvalid] at hread
      exact congrArg Host.Outcome.next hread
    · rw [State.rngTake_invalid hinvalid] at hread
      exact congrArg Host.Outcome.next hread
  · exact fun s hgrant => congrArg Host.Outcome.next (if_pos hgrant)
  · rintro req pass s _ hc rfl
    exact execRestart_next hc pass
  · rintro s _ _ _ hon hte hsec hdbg rfl rfl rfl
    exact execChallenge_next hon hte hsec hdbg
  · rintro level sig s _ hon hte hsec hdbg rfl
    have hfailed (h : s.boot.dbgNonce = none ∨ s.fld R.SEC_DBG_LOCKOUT ≠ 0) :=
      execResponse_failed (level := level) (sig := sig) hon hte hsec hdbg (fun n hn => .inl (h.resolve_left (by simp [hn])))
    refine ⟨fun n hn hlock hsig hdis hlevel => execResponse_verified hon hte hsec hdbg hn hlock hsig hdis hlevel,
      fun h hfew => ?_, fun h hmany => ?_⟩
    · exact (hfailed h).trans (congrArg Host.Outcome.next (State.dbgFail_counted hfew))
    · exact (hfailed h).trans (congrArg Host.Outcome.next (State.dbgFail_locked hmany))

end Sys2Proof.Machine
end

section
/-! Calls and returns of 04 (R127-R130): what CALLM and RETM do with a frame that is stored or read whole, and with a return stack
that is full or empty. -/

namespace Sys2Proof.Machine

section
variable {s : State} {t : Thr}

/-- R129: a full return stack that may not wrap raises RS_OVF before anything is stored. -/
theorem execCallm_full {f : CallForm} (hi : CanIssue s t 4) (hw : (s.own t).rswrap = false) (hd : 16 ≤ (s.own t).rstk.length) :
    execCallm t f s = .next (s.raiseExc (thrKey t) 0x06 0 (s.own t).pc) := by
  simp only [execCallm, State.issue_next hi, hw, hd, Bool.not_false, decide_true, Bool.and_self, if_true]

/-- R127-R129: a CALLM whose frame is stored pushes the return address, lowers TSP and jumps. -/
theorem execCallm_stored {f : CallForm} {u : State} {mask : BitVec 16} {dest tsp e : Word}
    (hargs : callArgs (s.own t) (s.own t).pc f = (mask, dest))
    (htsp : tsp = (s.own t).tsp - BitVec.ofNat 32 (4 * (1 + (maskRegs mask).length))) (hi : CanIssue s t 4)
    (hroom : (s.own t).rswrap = true ∨ (s.own t).rstk.length < 16) (hal : (s.own t).tsp.toNat % 4 = 0)
    (hst : s.storeFrame t (((0xCA11 : BitVec 16) ++ mask) :: (maskRegs mask).map (fun r => (s.own t).gr r)) tsp = (0, e, u)) :
    execCallm t f s = .next (u.setThr (thrKey t) { (u.own t).pushRet ((s.own t).pc + 4) with tsp := tsp, pc := dest }) := by
  have hfull : (!(s.own t).rswrap && decide (16 ≤ (s.own t).rstk.length)) = false := by
    obtain hw | hd := hroom
    · simp [hw]
    · simp [hd]
  subst htsp
  simp only [execCallm, State.issue_next hi, hargs, hfull, eaAligned, hal, hst, beq_self_eq_true, Bool.not_true,
    Bool.false_eq_true, if_false, if_true, State.updThr]

/-- R130: an empty return stack raises RS_UDF before anything is read. -/
theorem execRetm_empty (hi : CanIssue s t 2) (hs : (s.own t).rstk = []) :
    execRetm t s = .next (s.raiseExc (thrKey t) 0x07 0 (s.own t).pc) := by
  simp only [execRetm, State.issue_next hi, hs]

/-- R130: a RETM whose frame is read restores the registers of the mask and TSP, and pops. -/
theorem execRetm_loaded {w u : State} {ret e : Word} {rest ws : List Word} {v : Nat} (hi : CanIssue s t 2)
    (hs : (s.own t).rstk = ret :: rest) (hal : (s.own t).tsp.toNat % 4 = 0) (hhead : s.dataRead t (s.own t).tsp 4 = ⟨0, v, w⟩)
    (hmark : v / 2 ^ 16 = 0xCA11)
    (hld : w.loadFrame t (maskRegs (BitVec.ofNat 16 v)).length ((s.own t).tsp + 4) [] = (0, e, ws, u)) :
    execRetm t s = .next (u.updThr (thrKey t) (fun th =>
      let r := ((maskRegs (BitVec.ofNat 16 v)).zip ws).foldl (fun a c => a.setG c.1 c.2) th
      { r with tsp := r.tsp + BitVec.ofNat 32 (4 * (1 + (maskRegs (BitVec.ofNat 16 v)).length)), rstk := rest,
               rsTop := (r.rsTop + 15) % 16, pc := ret })) := by
  simp only [execRetm, State.issue_next hi, hs, eaAligned, hal, hhead, hmark, hld, beq_self_eq_true, Bool.not_true,
    Bool.false_eq_true, ne_eq, not_true_eq_false, if_false]

end

/-- Settles O14: a frame stored or read whole, and a return stack full or empty, are the four cases of CALLM and RETM above. -/
theorem callsAndReturns : Obligations.CallsAndReturns := by
  refine ⟨?_, fun t f s hi hw hd => execCallm_full hi hw hd, ?_, fun t s hi hs => execRetm_empty hi hs⟩
  · rintro t f s u mask dest tsp e _ hargs rfl htsp hi hroom hal hst
    exact execCallm_stored hargs htsp hi hroom hal hst
  · rintro t s w u ret rest v _ e ws hi hs hal hhead hmark rfl hld
    exact execRetm_loaded hi hs hal hhead hmark hld

end Sys2Proof.Machine
end

section
/-! Exceptions of 04 (R138-R140, R182): the state that taking one leaves, the return, and the second exception inside a handler. -/

namespace Sys2Proof.Machine

/-! ## TSR inside a handler -/

theorem plOf_eq_extractLsb' (w : Word) : plOf w = (w.extractLsb' 10 2).toNat := by
  simp [plOf, BitVec.extractLsb'_toNat, Nat.shiftRight_eq_div_pow]

theorem plOf_lt (w : Word) : plOf w < 4 := Nat.mod_lt _ (by decide)

/-- Bits outside TSR.PL do not change the level. -/
theorem plOf_or {w m : Word} (hm : m.extractLsb' 10 2 = 0#2) : plOf (w ||| m) = plOf w := by
  rw [plOf_eq_extractLsb', plOf_eq_extractLsb', BitVec.extractLsb'_or, hm, BitVec.or_zero]

theorem plOf_withPl (w : Word) {p : Nat} (hp : p < 4) : plOf (withPl w p) = p := by
  have hfield : ∀ p < 4, ((BitVec.ofNat 32 (p % 4 * 2 ^ 10)).extractLsb' 10 2).toNat = p := by decide
  have hclear : (w &&& ~~~ (0xC00 : Word)).extractLsb' 10 2 = 0#2 := by
    rw [BitVec.extractLsb'_and, show (~~~ (0xC00 : Word)).extractLsb' 10 2 = 0#2 by decide, BitVec.and_zero]
  rw [withPl, BitVec.or_comm, plOf_or hclear, plOf_eq_extractLsb', hfield p hp]

theorem and_not_of_and_eq_zero {w m : Word} (h : w &&& m = 0#32) : w &&& ~~~ m = w := by
  have hall : m ||| ~~~ m = BitVec.allOnes 32 := by simp
  calc w &&& ~~~ m = (w &&& m) ||| (w &&& ~~~ m) := by rw [h, BitVec.zero_or]
    _ = w &&& (m ||| ~~~ m) := BitVec.and_or_distrib_left.symm
    _ = w := by rw [hall, BitVec.and_allOnes]

/-- A mask that has TSR.PL clear does not see a change of it. -/
theorem withPl_and (w : Word) {p : Nat} {m : Word} (hm : m &&& 0xC00 = 0#32) : withPl w p &&& m = w &&& m := by
  have hfield : ∀ p < 4, (0xC00 : Word) &&& BitVec.ofNat 32 (p * 2 ^ 10) = BitVec.ofNat 32 (p * 2 ^ 10) := by decide
  have hset : BitVec.ofNat 32 (p % 4 * 2 ^ 10) &&& m = 0#32 := by
    rw [← hfield _ (Nat.mod_lt _ (by decide)), BitVec.and_comm, ← BitVec.and_assoc, hm, BitVec.zero_and]
  have hkeep : ~~~ (0xC00 : Word) &&& m = m := (BitVec.and_comm _ _).trans (and_not_of_and_eq_zero hm)
  rw [withPl, BitVec.and_or_distrib_right, hset, BitVec.or_zero, BitVec.and_assoc, hkeep]

/-- TSR as a handler starts with it (R138): row supervisor level or above, and EXL. -/
def handlerTsr (w : Word) : Word := withPl w (max (plOf w) 1) ||| 0x200

theorem bitOf_handlerTsr (w : Word) : bitOf (handlerTsr w) 9 = true := by
  simp [handlerTsr, bitOf_eq]

theorem plOf_handlerTsr (w : Word) : plOf (handlerTsr w) = max (plOf w) 1 := by
  have := plOf_lt w
  rw [handlerTsr, plOf_or (by decide), plOf_withPl _ (by omega)]

/-- The bits of TSR besides PL and EXL. -/
theorem rest_handlerTsr (w : Word) : handlerTsr w &&& 0xFFFFF1FF = w &&& 0xFFFFF1FF := by
  rw [handlerTsr, BitVec.and_or_distrib_right, show (0x200 : Word) &&& 0xFFFFF1FF = 0#32 by decide, BitVec.or_zero,
    withPl_and w (by decide)]

/-- Outside a handler, clearing EXL changes nothing. -/
theorem clearExl_of_outside {w : Word} (h : bitOf w 9 = false) : w &&& ~~~ 0x200 = w := by
  have hoff : w &&& BitVec.twoPow 32 9 = 0#32 := by rw [BitVec.and_twoPow, ← bitOf_eq, h]; rfl
  exact and_not_of_and_eq_zero hoff

/-! ## Where a handler starts -/

theorem State.trapVec_scion (s : State) (k : Fin 512) :
    s.trapVec (thrKey (.scion k)) = BitVec.ofNat 32 (2 * s.fld (R.ROW_TVEC_OFFS (s.own (.scion k)).row)) :=
  if_pos k.isLt

theorem State.trapVec_rs (s : State) (k : Fin 8) : s.trapVec (thrKey (.rs k)) = (s.own (.rs k)).rtvec :=
  if_neg (Nat.not_lt.mpr (Nat.le_add_right _ _))

/-! ## Taking an exception -/

section
variable {s : State} {k : Nat} (cause : Nat) (ev epc : Word)

/-- R138: outside a handler, and where the halt policy (R207) does not apply, the thread enters its handler. -/
theorem State.raiseExc_enter (hout : bitOf (s.thr k).tsr 9 = false)
    (hpol : k < 512 → s.flag (R.ROW_POLICY_FPOL (s.thr k).row) = false ∨ cause = 0x10 ∨ cause = 0x11) :
    s.raiseExc k cause ev epc = s.setThr k
      { (s.thr k).saveExc cause ev epc with tsr := handlerTsr (s.thr k).tsr, pc := s.trapVec k } := by
  have hgo : (decide (k < 512) && s.flag (R.ROW_POLICY_FPOL (s.thr k).row) && cause != 0x10 && cause != 0x11) = false := by
    by_cases hk : k < 512
    · obtain hflag | rfl | rfl := hpol hk
      · simp [hflag]
      · simp
      · simp
    · simp [hk]
  simp only [State.raiseExc, exlOf, hout, hgo, Bool.false_eq_true, if_false]
  rfl

/-- R139: an exception inside a handler halts a scion thread. -/
theorem State.raiseExc_second (hk : k < 512) (hin : bitOf (s.thr k).tsr 9 = true) :
    s.raiseExc k cause ev epc = (s.setThr k { s.thr k with
      ecause := ((s.thr k).ecause &&& 0xFFFE00FF) ||| BitVec.ofNat 32 (2 ^ 16 + cause % 256 * 2 ^ 8) }).halt k cause := by
  simp only [State.raiseExc, exlOf, hin, hk, if_true]
  rfl

end

/-! ## SYSC, BRK and ERET -/

section
variable {s : State} {t : Thr} {f : Wd} (hi : CanIssue s t (wdBytes f))
include hi

theorem execSysc_next (imm : Byte) : execSysc t f imm s =
    .next (s.raiseExc (thrKey t) 0x10 (imm.zeroExtend 32) ((s.own t).pc + BitVec.ofNat 32 (wdBytes f))) := by
  rw [execSysc, State.issue_next hi]

theorem execBrk_next (imm : Byte) : execBrk t f imm s =
    .next (s.raiseExc (thrKey t) 0x11 (imm.zeroExtend 32) ((s.own t).pc + BitVec.ofNat 32 (wdBytes f))) := by
  rw [execBrk, State.issue_next hi]

/-- R140: ERET at row supervisor level or above takes TSR and PC back. -/
theorem execEret_next (hpl : plOf (s.own t).tsr ≠ 0) : execEret t f s = .next (s.setThr (thrKey t) (s.own t).returnExc) := by
  rw [execEret, State.issue_next hi]
  exact congrArg Host.Outcome.next (if_neg hpl)

/-- R140: ERET at thread level raises PRIV. -/
theorem execEret_priv (hpl : plOf (s.own t).tsr = 0) : execEret t f s =
    .next (s.raiseExc (thrKey t) 0x02 (firstHalf (.eret t f)) (s.own t).pc) := by
  rw [execEret, State.issue_next hi]
  exact congrArg Host.Outcome.next (if_pos hpl)

end

/-- Settles O18: the entry into a handler writes six registers of the thread, which are read off one by one. -/
theorem exceptionEntryAndReturn : Obligations.ExceptionEntryAndReturn := by
  refine ⟨?_, ?_, fun t f s hi hpl => execEret_next hi hpl, fun t f s hi hpl => execEret_priv hi hpl,
    fun s k cause ev epc hk hin => State.raiseExc_second cause ev epc hk hin⟩
  · intro s t cause ev epc hout hpol
    have hpolicy : thrKey t < 512 → s.flag (R.ROW_POLICY_FPOL (s.own t).row) = false ∨ cause = 0x10 ∨ cause = 0x11 := by
      cases t with
      | scion k => exact fun _ => hpol k rfl
      | rs k => exact fun hk => absurd hk (Nat.not_lt.mpr (Nat.le_add_right _ _))
    refine ⟨_, State.raiseExc_enter cause ev epc hout hpolicy, onlyThread_setThr _ _ _, ?_⟩
    simp only [State.own, State.thr_setThr_same]
    refine ⟨clearExl_of_outside hout, rfl, rfl, rfl, ?_, bitOf_handlerTsr _, plOf_handlerTsr _, rest_handlerTsr _, rfl⟩
    cases t with
    | scion k => exact s.trapVec_scion k
    | rs k => exact s.trapVec_rs k
  · rintro t f imm s _ rfl hi
    exact ⟨execSysc_next hi imm, execBrk_next hi imm⟩

end Sys2Proof.Machine
end

section
/-! The integer, fractional and multiply-accumulate instructions of 05 (Tables 5.3, 5.7, 5.11): each goes on after one change of its
thread, whose result and flags are those of the statement. -/

namespace Sys2Proof.Machine

/-- R158: a register shift counts by the low five bits. -/
theorem toNat_and_31 (y : Word) : (y &&& 31).toNat = y.toNat % 32 := by
  rw [BitVec.toNat_and]
  exact Nat.and_two_pow_sub_one_eq_mod y.toNat 5

/-- A shift by an immediate, its operands known. -/
theorem State.shiftOp_next {s : State} {t : Thr} {f : ShiftForm} {n rd m : Nat} {x : Word}
    (e : shiftArgs (s.own t) f = (n, rd, x, m)) (h : CanIssue s t n) (g : Word → Nat → Word) :
    s.shiftOp t f g = s.setThr (thrKey t) { (s.own t).putZN rd (g x m) with pc := (s.own t).pc + BitVec.ofNat 32 n } := by
  have e' : shiftArgs (s.thr (thrKey t)) f = (n, rd, x, m) := e
  rw [State.shiftOp, e', State.plain_next h]
  simp only [e']

/-- A 32-bit register-register instruction that can issue. -/
theorem State.rOp_next {s : State} {t : Thr} (h : CanIssue s t 4) (rd ra rb : BitVec 5) (g : Thread → Nat → Word → Word → Thread) :
    s.rOp t rd ra rb g = s.setThr (thrKey t) { g (s.own t) rd.toNat ((s.own t).gr ra.toNat) ((s.own t).gr rb.toNat) with
      pc := (s.own t).pc + 4 } :=
  State.plain_next h _

/-- Settles O2: every one of them puts its result with `putZN`, whose result and flags `givesZN_putZN` gives. -/
theorem logicAndShifts : Obligations.LogicAndShifts := by
  refine ⟨fun t f s n rd x y e h => ?_, fun t f s n rd x m e h => ?_, fun t rd rs s h => ?_, fun t rd ra imm s h => ?_⟩
  · have hput (v : Word) := givesZN_putZN s t n rd v
    have hsra : x.sshiftRight (y.toNat % 32) = x.sshiftRight' (y &&& 31) := by rw [BitVec.sshiftRight', toNat_and_31]
    simp only [BitVec.shiftLeft_eq', BitVec.ushiftRight_eq', ← hsra, toNat_and_31]
    exact ⟨alu_gives e h rfl rfl (hput _), alu_gives e h rfl rfl (hput _), alu_gives e h rfl rfl (hput _),
      alu_gives e h rfl rfl (hput _), alu_gives e h rfl rfl (hput _), alu_gives e h rfl rfl (hput _)⟩
  · have hshift (g : Word → Nat → Word) : GivesZN s (s.shiftOp t f g) t n rd (g x m) :=
      State.shiftOp_next e h g ▸ givesZN_putZN s t n rd (g x m)
    exact ⟨⟨_, rfl, hshift _⟩, ⟨_, rfl, hshift _⟩, ⟨_, rfl, hshift _⟩⟩
  · exact plain_gives h rfl rfl (givesZN_putZN _ _ _ _ _)
  · exact ⟨plain_gives h rfl rfl (givesZN_putZN _ _ _ _ _), plain_gives h rfl rfl (givesZN_putZN _ _ _ _ _)⟩

/-! ## Fractional results -/

theorem elem_zero (a : Word) : elem a 0 = a.extractLsb' 0 16 := by
  apply BitVec.eq_of_toNat_eq
  simp [elem]

theorem elem_one (a : Word) : elem a 1 = a.extractLsb' 16 16 := by
  apply BitVec.eq_of_toNat_eq
  simp [elem, Nat.shiftRight_eq_div_pow]

/-- A 40-bit accumulator is its own unsigned number. -/
theorem u40_toInt (y : BitVec 40) : u40 y.toInt = y.toNat := by
  rw [← u40_eq, BitVec.ofInt_toInt]

theorem givesAcc_next {i : Instr} {s : State} {t : Thr} {f : Thread → Thread} {ad : Nat} {x : Int} {c : Bool} (h : CanIssue s t 4)
    (e : exec i s = .next (s.plain (thrKey t) 4 f)) (ef : f (s.own t) = (s.own t).putAcc ad x c) :
    ∃ u, exec i s = .next u ∧ GivesAcc s u t ad x c :=
  plain_gives h e ef (givesAcc_putAcc s t ad x c)

theorem wroteAcc_setAcc (s : State) (t : Thr) (ad : Nat) (v : BitVec 40) :
    WroteAcc (s.own t) ((s.setThr (thrKey t) { (s.own t).setAcc ad v with pc := (s.own t).pc + 4 }).own t) ad v := by
  simp only [State.own, State.thr_setThr_same]
  exact wroteAcc_of rfl rfl rfl

/-- Settles O5: every one of them but ACLR and AMOV puts an exact result with `putAcc`, which cuts it once. -/
theorem multiplyAccumulate : Obligations.MultiplyAccumulate := by
  refine ⟨?_, ?_, fun t ad s h => ?_, fun t ad ra s h => ?_⟩
  · rintro t ad ra rb s x y _ _ _ _ rfl rfl rfl rfl rfl rfl h
    simp only [u40_eq, ← elem_zero, ← elem_one]
    exact ⟨givesAcc_next h rfl rfl, givesAcc_next h rfl rfl, givesAcc_next h rfl rfl, givesAcc_next h rfl rfl,
      givesAcc_next h rfl rfl⟩
  · rintro t ad an s _ _ rfl rfl h
    rw [← u40_toInt ((s.own t).acc an.toNat)]
    exact givesAcc_next h rfl rfl
  · exact plain_gives h rfl rfl ⟨onlyThread_setThr _ _ _, wroteAcc_setAcc _ _ _ _, by simp⟩
  · exact plain_gives h rfl rfl ⟨onlyThread_setThr _ _ _, wroteAcc_setAcc _ _ _ _, by simp⟩

theorem givesFrac_next {i : Instr} {s : State} {t : Thr} {f : Thread → Thread} {rd : Nat} {x : Int} {c : Bool} (h : CanIssue s t 4)
    (e : exec i s = .next (s.plain (thrKey t) 4 f)) (ef : f (s.own t) = (s.own t).putFrac rd x c) :
    ∃ u, exec i s = .next u ∧ GivesFrac s u t rd x c :=
  plain_gives h e ef (givesFrac_of s t rd x c)

/-- R115, R118, R167: a packed result, cut element by element, with the flags of element 1. -/
def GivesPacked (s u : State) (t : Thr) (rd : Nat) (r1 r0 : BitVec 16) (c didFit v : Bool) : Prop :=
  OnlyThread s u (thrKey t) ∧ WroteReg (s.own t) (u.own t) 4 rd (r1 ++ r0) ∧
    FracFlags (s.own t) (u.own t) (r1 == 0) r1.msb c didFit v

theorem givesPacked_packed (s : State) (t : Thr) (sub : Bool) (rd : Nat) (a b : Word) :
    GivesPacked s (s.setThr (thrKey t) { (s.own t).packed sub rd a b with pc := (s.own t).pc + 4 }) t rd
      (cutTo 16 (s.own t).saten (packedExact sub a b 1)) (cutTo 16 (s.own t).saten (packedExact sub a b 0))
      (if sub then decide ((elem b 1).toNat ≤ (elem a 1).toNat) else decide (2 ^ 16 ≤ (elem a 1).toNat + (elem b 1).toNat))
      (fits 16 (packedExact sub a b 0) && fits 16 (packedExact sub a b 1)) (!fits 16 (packedExact sub a b 1)) := by
  refine ⟨onlyThread_setThr _ _ _, ?_, ?_⟩ <;> simp only [State.own, State.thr_setThr_same, ← satTo_cut]
  · exact wroteReg_of (by simp [Thread.packed]) rfl (by simp [Thread.packed])
  · exact fracFlags_of (by simp) _ _ _ _ _

/-- R169: EXT inside its range is an instruction with a cut result. -/
theorem execExt_next {s : State} {t : Thr} {rd : BitVec 5} {an : BitVec 2} {sh : BitVec 5} (h : CanIssue s t 4) (hlo : -8 ≤ sh.toInt)
    (hhi : sh.toInt ≤ 8) : execExt t rd an sh s = .next (s.plain (thrKey t) 4
      (fun th => th.putFrac rd.toNat (extValue th.rnd (th.acc an.toNat) sh.toInt) th.fc)) := by
  rw [execExt, State.plain, State.issue_next h, State.issue_next h, if_neg (by omega)]
  rfl

theorem execExt_illegal {s : State} {t : Thr} {rd : BitVec 5} {an : BitVec 2} {sh : BitVec 5} (h : CanIssue s t 4)
    (hsh : sh.toInt < -8 ∨ 8 < sh.toInt) : execExt t rd an sh s =
      .next (s.raiseExc (thrKey t) 0x01 (firstHalf (.ext t rd an sh)) (s.own t).pc) := by
  rw [execExt, State.issue_next h, if_pos hsh]

/-- Settles O6: FADD, FSUB and EXT put an exact result with `putFrac`, PADD and PSUB two with `packed`. -/
theorem fractionalOperations : Obligations.FractionalOperations := by
  refine ⟨?_, ?_, ?_, fun t rd an sh s hsh h => execExt_illegal h hsh⟩
  · rintro t rd ra rb s _ _ rfl rfl h
    refine ⟨givesFrac_next h rfl ?_, givesFrac_next h rfl ?_, plain_gives h rfl rfl (gives_setG _ _ _ _ _)⟩
    · simp only [addCV_sum]
    · simp only [addCV_diff]
  · rintro t rd ra rb s _ _ _ _ _ _ rfl rfl rfl rfl rfl rfl h
    simp only [← elem_zero, ← elem_one]
    obtain ⟨hoAdd, hwAdd, hfAdd⟩ := givesPacked_packed s t false rd.toNat ((s.own t).gr ra.toNat) ((s.own t).gr rb.toNat)
    obtain ⟨hoSub, hwSub, hfSub⟩ := givesPacked_packed s t true rd.toNat ((s.own t).gr ra.toNat) ((s.own t).gr rb.toNat)
    exact ⟨⟨_, _, _, congrArg Host.Outcome.next (State.rOp_next h rd ra rb _), hoAdd, rfl, rfl, hwAdd, hfAdd⟩,
      ⟨_, _, _, congrArg Host.Outcome.next (State.rOp_next h rd ra rb _), hoSub, rfl, rfl, hwSub, hfSub⟩⟩
  · rintro t rd an sh s _ hlo hhi rfl h
    refine givesFrac_next h (execExt_next h hlo hhi) ?_
    rw [extValue]
    push_cast
    rfl

end Sys2Proof.Machine
end

section
/-! The loads of 05 (Tables 5.3, 5.9, 5.10): one rule for a load whose read is answered, which every form of a load comes down to. -/

namespace Sys2Proof.Machine

section
variable {s u : State} {t : Thr} {ea : Word} {v : Nat}

/-- R122, R160: a load at an aligned address whose read is answered puts the value into the thread as the read left it. -/
theorem State.load_answered {n : Nat} (ha : ea.toNat % n = 0) (hr : s.dataRead t ea n = ⟨0, v, u⟩) (pc : Word) (len : Nat)
    (done : Thread → Nat → Thread) : s.load t pc len ea n done =
      u.setThr (thrKey t) { done (u.own t) v with pc := pc + BitVec.ofNat 32 len } := by
  simp only [State.load, eaAligned, ha, hr, beq_self_eq_true, Bool.not_true, Bool.false_eq_true, if_false, if_true]
  rfl

theorem execLdw_answered {f : MemForm} {n rd : Nat} (e : memArgs (s.own t) f = (n, rd, ea)) (hi : CanIssue s t n)
    (ha : ea.toNat % 4 = 0) (hr : s.dataRead t ea 4 = ⟨0, v, u⟩) : execLdw t f s =
      .next (u.setThr (thrKey t) { (u.own t).setG rd (BitVec.ofNat 32 v) with pc := (s.own t).pc + BitVec.ofNat 32 n }) := by
  simp only [execLdw, e, State.issue_next hi, State.load_answered ha hr]

theorem State.loadM_answered {k : LoadKind} {rd ra : BitVec 5} {imm : BitVec 13} (hea : ea = (s.own t).gr ra.toNat + imm.signExtend 32)
    (hi : CanIssue s t 4) (ha : ea.toNat % loadBytes k = 0) (hr : s.dataRead t ea (loadBytes k) = ⟨0, v, u⟩) :
    s.loadM t k rd ra imm =
      u.setThr (thrKey t) { (u.own t).setG rd.toNat (extendLoad k v) with pc := (s.own t).pc + 4 } := by
  subst hea
  exact (State.issue_next hi _).trans (State.load_answered ha hr _ _ _)

/-- R125, R166: an addressed load; its generator moves from what it held before the load. -/
theorem execAgLoad_answered {f : AgForm} {k : LoadKind} {len r n : Nat} {upd : Bool} (e : agArgs f = (len, r, n, upd))
    (hi : CanIssue s t len) (hmode : ((s.own t).agen n).mode ≠ 3) (hea : ea = ((s.own t).agen n).base + ((s.own t).agen n).idx)
    (ha : ea.toNat % loadBytes k = 0) (hr : s.dataRead t ea (loadBytes k) = ⟨0, v, u⟩) : execAgLoad t f k s =
      .next (u.setThr (thrKey t)
        { (if upd then (u.own t).setAgen n ((s.own t).agen n).bump else u.own t).setG r (extendLoad k v) with
          pc := (s.own t).pc + BitVec.ofNat 32 len }) := by
  subst hea
  simp only [execAgLoad, State.agIssue, e, State.issue_next hi, hmode, if_false, AddrGen.ea, State.load_answered ha hr]

end

/-- Settles O10: each form of a load is a load at its address, and an answered one puts its value. -/
theorem loadsTakeTheirValue : Obligations.LoadsTakeTheirValue := by
  refine ⟨fun t f s n rd ea v u e hi ha hr => execLdw_answered e hi ha hr, ?_,
    fun t f k s len r n upd ea v u e hi hmode hea ha hr => execAgLoad_answered e hi hmode hea ha hr⟩
  intro t rd ra imm s ea hea hi
  refine ⟨fun v u ha hr => ⟨?_, ?_⟩, fun v u hr => ⟨?_, ?_⟩⟩
  · exact congrArg Host.Outcome.next (State.loadM_answered (k := .half) hea hi ha hr)
  · exact congrArg Host.Outcome.next (State.loadM_answered (k := .halfu) hea hi ha hr)
  · exact congrArg Host.Outcome.next (State.loadM_answered (k := .byte) hea hi (Nat.mod_one _) hr)
  · exact congrArg Host.Outcome.next (State.loadM_answered (k := .byteu) hea hi (Nat.mod_one _) hr)

end Sys2Proof.Machine
end

section
/-! The waits and the completions of 05 and 06 (R171-R175, R193, R196-R198): what a wait takes at once, and what ends it. -/

namespace Sys2Proof.Machine

/-! ## Waking a thread -/

/-- A thread that is woken and then changed by `f` is written once. -/
theorem State.wakeThr_updThr (s : State) (k : Nat) (f : Thread → Thread) :
    (s.wakeThr k).updThr k f = s.setThr k (f { s.thr k with state := .run, wait := .nothing }) := by
  simp only [State.wakeThr, State.updThr, State.thr_setThr_same]
  exact State.setThr_setThr s k (by simp) (by simp)

theorem Thread.consume_woken (t : Thread) (rd : Nat) (mask : Byte) : { t with state := .run, wait := .nothing }.consume rd mask =
    { t.consume rd mask with state := .run, wait := .nothing } := by
  unfold Thread.consume Thread.setG
  split <;> rfl

theorem Thread.takeCompl_woken (t : Thread) (rd cn : Nat) (w : Word) : { t with state := .run, wait := .nothing }.takeCompl rd cn w =
    { t.takeCompl rd cn w with state := .run, wait := .nothing } := by
  unfold Thread.takeCompl Thread.setG
  split <;> rfl

/-- R196: a compare is met while the time since it is below half the range. -/
theorem State.cmpMet_of_msb {s : State} {k : Nat} (h : (BitVec.ofNat 32 s.dtbNow - (s.thr k).tcmp).msb = false) :
    s.cmpMet k = true :=
  decide_eq_true (BitVec.toNat_lt_of_msb_false h)

/-! ## WAITT, WAITE and the compare -/

section
variable {s : State} {t : Thr}

/-- R172, R197: WAITT within its range sets the compare, and waits unless it asks for no time. -/
theorem execWaitt_inRange {ra : BitVec 5} {v : Word} (hi : CanIssue s t 4) (hra : (s.own t).gr ra.toNat = v)
    (hv : v.toNat ≤ 0x80000000) : execWaitt t ra s = .next (s.setThr (thrKey t)
      { s.own t with
        pc := (s.own t).pc + 4, tcmp := BitVec.ofNat 32 s.dtbNow + v, tevt := (s.own t).tevt &&& 0xFFFFFDFF,
        state := if v = 0 then (s.own t).state else .wait, wait := if v = 0 then (s.own t).wait else .waitt }) := by
  subst hra
  rw [execWaitt, State.issue_next hi]
  refine congrArg Host.Outcome.next ((if_neg (Nat.not_lt.mpr hv)).trans (congrArg (s.setThr (thrKey t)) ?_))
  by_cases hz : (s.own t).gr ra.toNat = 0
  · simp only [hz, if_true]
    rfl
  · simp only [hz, if_false]
    rfl

theorem execWaitt_outOfRange {ra : BitVec 5} (hi : CanIssue s t 4) (hv : 0x80000000 < ((s.own t).gr ra.toNat).toNat) :
    execWaitt t ra s = .next (s.raiseExc (thrKey t) 0x0A ((s.own t).gr ra.toNat) (s.own t).pc) := by
  rw [execWaitt, State.issue_next hi]
  exact congrArg Host.Outcome.next (if_pos hv)

theorem execWaittComplete_met (hs : (s.own t).state = .wait) (hw : (s.own t).wait = .waitt)
    (hm : (BitVec.ofNat 32 s.dtbNow - (s.own t).tcmp).msb = false) : execWaittComplete t s =
      .next (s.setThr (thrKey t) { s.own t with state := .run, wait := .nothing }) :=
  congrArg Host.Outcome.next (if_pos ⟨hs, hw, State.cmpMet_of_msb hm⟩)

/-- R193: WAITE takes the pending events of its mask; a mask of 0 takes none and does not wait. -/
theorem execWaite_hit {rd ra : BitVec 5} (hi : CanIssue s t 4) (hhit : ((s.own t).gr ra.toNat).truncate 8 = (0 : Byte) ∨
    (s.own t).tevt &&& (((s.own t).gr ra.toNat).truncate 8 : Byte).zeroExtend 32 ≠ 0) : execWaite t rd ra s =
      .next (s.setThr (thrKey t) { (s.own t).consume rd.toNat (((s.own t).gr ra.toNat).truncate 8) with
        pc := (s.own t).pc + 4 }) := by
  rw [execWaite, State.plain_next hi, if_pos hhit]
  rfl

theorem execWaite_none {rd ra : BitVec 5} (hi : CanIssue s t 4) (hmask : ((s.own t).gr ra.toNat).truncate 8 ≠ (0 : Byte))
    (hnone : (s.own t).tevt &&& (((s.own t).gr ra.toNat).truncate 8 : Byte).zeroExtend 32 = 0) : execWaite t rd ra s =
      .next (s.setThr (thrKey t) { s.own t with state := .wait, wait := .waite rd (((s.own t).gr ra.toNat).truncate 8),
                                                pc := (s.own t).pc + 4 }) := by
  rw [execWaite, State.plain_next hi, if_neg (not_or.mpr ⟨hmask, not_not.mpr hnone⟩)]
  rfl

theorem execWaiteComplete_hit {rd : BitVec 5} {mask : Byte} (hs : (s.own t).state = .wait) (hw : (s.own t).wait = .waite rd mask)
    (hhit : (s.own t).tevt &&& mask.zeroExtend 32 ≠ 0) : execWaiteComplete t s =
      .next (s.setThr (thrKey t) ({ s.own t with state := .run, wait := .nothing }.consume rd.toNat mask)) := by
  simp only [execWaiteComplete, hs, hw]
  rw [if_pos hhit, State.wakeThr_updThr]

/-- R196: a compare that is met posts event 6 to a thread that takes posts, and is no longer armed. -/
theorem execTimerCompareMet_met (ha : bitOf (s.own t).tevt 9 = true) (hm : (BitVec.ofNat 32 s.dtbNow - (s.own t).tcmp).msb = false) :
    execTimerCompareMet t s = .next (s.setThr (thrKey t)
      { s.own t with tevt := (s.own t).tevt &&& ~~~ 0x200 ||| (if (s.own t).state.takesEvents then 0x40 else 0) }) := by
  have hmet : (armedOf (s.own t).tevt && s.cmpMet (thrKey t)) = true := by rw [armedOf, ha, State.cmpMet_of_msb hm]; rfl
  refine congrArg Host.Outcome.next ((if_pos hmet).trans ?_)
  simp only [State.post, State.updThr, State.thr_setThr_same]
  cases htakes : (s.own t).state.takesEvents with
  | false => simp
  | true =>
    have hidle : (s.own t).state ≠ .idle := fun h => by simp [h, TState.takesEvents] at htakes
    have hun : (s.own t).state ≠ .unassigned := fun h => by simp [h, TState.takesEvents] at htakes
    exact State.setThr_setThr s _ hidle hun

end

/-- Settles O16: WAITT in and out of its range, WAITE with and without an event, and the completions are the cases above. -/
theorem waitsAndEvents : Obligations.WaitsAndEvents := by
  refine ⟨fun t ra s v hi hra hv => execWaitt_inRange hi hra hv, fun t ra s hi hv => execWaitt_outOfRange hi hv,
    fun t s hs hw hm => execWaittComplete_met hs hw hm, ?_, ?_, fun t s ha hm => execTimerCompareMet_met ha hm⟩
  · rintro t rd ra s _ hi rfl
    exact ⟨fun hhit => execWaite_hit hi hhit, fun hmask hnone => execWaite_none hi hmask hnone⟩
  · intro t s rd mask hs hw hhit
    refine (execWaiteComplete_hit hs hw hhit).trans ?_
    rw [Thread.consume_woken]
    rfl

/-! ## Completion registers -/

/-- A completion register after a write of it. -/
theorem Thread.completion_setCompletion (t : Thread) (n : Nat) (c : Compl) : (t.setCompletion n c).completion n = c := by
  simp [Thread.completion, Thread.setCompletion]

section
variable (t : Thread) (rd cn : Nat) (w : Word)

theorem Thread.takeCompl_gr_same : (t.takeCompl rd cn w).gr rd = if rd = 0 then 0 else w := by
  show ((t.setCompletion cn .idle).setG rd w).gr rd = _
  rw [Thread.gr_setG]
  by_cases hz : rd = 0 <;> simp [hz, Thread.gr]

theorem Thread.takeCompl_gr_other {i : Nat} (h : i ≠ rd) : (t.takeCompl rd cn w).gr i = t.gr i := by
  show ((t.setCompletion cn .idle).setG rd w).gr i = _
  rw [Thread.gr_setG, if_neg (fun hc => h hc.1), Thread.setCompletion_grR]

theorem Thread.takeCompl_completion : (t.takeCompl rd cn w).completion cn = .idle := by
  rw [show (t.takeCompl rd cn w).completion cn = ((t.setCompletion cn .idle).setG rd w).completion cn from rfl,
    Thread.setG_completionR, Thread.completion_setCompletion]

theorem Thread.takeCompl_tsr : (t.takeCompl rd cn w).tsr = putBit t.tsr 0 false := by
  simp [Thread.takeCompl]

end

section
variable {s : State} {t : Fin 512} {rd : BitVec 5} {cn : BitVec 3}

/-- An instruction for scion threads alone, issued by one. -/
theorem State.issue_scionOnly (hi : CanIssue s (.scion t) 4) (illegal act : Word → State → State) :
    s.issue (thrKey (.scion t)) 4 (fun pc s => if 512 ≤ thrKey (.scion t) then illegal pc s else act pc s) =
      act (s.own (.scion t)).pc s :=
  (State.issue_next hi _).trans (if_neg (Nat.not_le.mpr t.isLt))

section
variable (hi : CanIssue s (.scion t) 4)
include hi

/-- R174: a completion that is held is taken by HWAIT and HPOLL alike. -/
theorem execHwait_held {w : Word} (hc : (s.own (.scion t)).completion cn.toNat = .held w) : execHwait (.scion t) rd cn s =
    .next (s.setThr t.val ({ s.own (.scion t) with pc := (s.own (.scion t)).pc + 4 }.takeCompl rd.toNat cn.toNat w)) := by
  rw [Thread.completion] at hc
  simp only [execHwait, State.issue_scionOnly hi, State.updThr, Thread.completion, hc]
  rfl

theorem execHpoll_held {w : Word} (hc : (s.own (.scion t)).completion cn.toNat = .held w) : execHpoll (.scion t) rd cn s =
    .next (s.setThr t.val ({ s.own (.scion t) with pc := (s.own (.scion t)).pc + 4 }.takeCompl rd.toNat cn.toNat w)) := by
  rw [Thread.completion] at hc
  simp only [execHpoll, State.issue_scionOnly hi, State.updThr, Thread.completion, hc]
  rfl

/-- R175: HWAIT on an idle register does not wait. -/
theorem execHwait_idle (hc : (s.own (.scion t)).completion cn.toNat = .idle) : execHwait (.scion t) rd cn s = .next (s.setThr t.val
    { s.own (.scion t) with tsr := putBit (s.own (.scion t)).tsr 0 true, pc := (s.own (.scion t)).pc + 4 }) := by
  rw [Thread.completion] at hc
  simp only [execHwait, State.issue_scionOnly hi, State.updThr, Thread.completion, hc]
  rfl

theorem execHwait_outstanding (hc : (s.own (.scion t)).completion cn.toNat = .outstanding) : execHwait (.scion t) rd cn s =
    .next (s.setThr t.val
      { s.own (.scion t) with state := .wait, wait := .hwait rd cn, pc := (s.own (.scion t)).pc + 4 }) := by
  rw [Thread.completion] at hc
  simp only [execHwait, State.issue_scionOnly hi, State.updThr, Thread.completion, hc]
  rfl

/-- R174, R175: HPOLL on a register that holds no completion sets Z and goes on. -/
theorem execHpoll_none (hc : (s.own (.scion t)).completion cn.toNat = .idle ∨ (s.own (.scion t)).completion cn.toNat = .outstanding) :
    execHpoll (.scion t) rd cn s = .next (s.setThr t.val
      { s.own (.scion t) with tsr := putBit (s.own (.scion t)).tsr 0 true, pc := (s.own (.scion t)).pc + 4 }) := by
  rw [Thread.completion] at hc
  obtain hc | hc := hc
  · simp only [execHpoll, State.issue_scionOnly hi, State.updThr, Thread.completion, hc]
    rfl
  · simp only [execHpoll, State.issue_scionOnly hi, State.updThr, Thread.completion, hc]
    rfl

end

end

/-- R610: activity of a unit whose admin state is on does nothing. -/
theorem State.activity_on {s : State} {u : Nat} (h : tabGet false u s.admOff = false) : s.activity u = s := by
  rw [State.activity, h]
  rfl

/-- R171, R464: HREQ of a scion thread that the helper accepts. -/
theorem execHreq_accepted {s : State} {t : Thr} {h cn : BitVec 3} {ra rb : BitVec 5} {ea arg : Word} {a n : Nat}
    (hk : thrKey t < 512) (hi : CanIssue s t 4) (hea : (s.own t).gr ra.toNat = ea) (harg : (s.own t).gr rb.toNat = arg)
    (hdesc : (s.own t).eaMap ea = a) (hlen : s.areaBytes (thrKey t) h.toNat (arg.toNat % 256) a arg.toNat = n)
    (hh : h.toNat < 5) (hroom : (s.helpers.filter (fun g => g.h == h.toNat && boughOf g.t == boughOf (thrKey t))).length < 32)
    (hidle : (s.own t).completion cn.toNat = .idle) (hop : helperOp h.toNat (arg.toNat % 256) = true)
    (hal : ea.toNat % 4 = 0) (hfit : ea.toNat % 2 ^ 30 + n ≤ 2 ^ 30) (hown : ownArea (thrKey t) a n = true)
    (hbough : tabGet false (60 + boughOf (thrKey t)) s.admOff = false)
    (hscion : tabGet false (68 + thrKey t / 8) s.admOff = false) :
    execHreq t h cn ra rb s = .next (State.setThr
      { s with helpers := s.helpers ++ [{ t := thrKey t, cn := cn.toNat, h := h.toNat, desc := a, arg := arg,
                                          sa := if h = 3 then s.saAt (boughOf (thrKey t)) a else {} }] } (thrKey t)
      { (s.own t).setCompletion cn.toNat .outstanding with pc := (s.own t).pc + 4 }) := by
  have hmay : ¬ (512 ≤ thrKey t ∨ 5 ≤ h.toNat) := by omega
  have hvalid : ¬ ((s.own t).completion cn.toNat ≠ .idle ∨ helperOp h.toNat (arg.toNat % 256) = false ∨ ea.toNat % 4 ≠ 0 ∨
      2 ^ 30 < ea.toNat % 2 ^ 30 + n ∨ ownArea (thrKey t) a n = false) := by
    simp only [hidle, hop, hal, hown, Nat.not_lt.mpr hfit, ne_eq, not_true_eq_false, Bool.true_eq_false, or_self, not_false_eq_true]
  simp only [execHreq, State.issue_next hi, hea, harg, hdesc, hlen, if_neg hmay, if_neg (Nat.not_le.mpr hroom), if_neg hvalid,
    State.activity_on hbough, State.activity_on hscion]
  rfl

section
variable {s : State} {t : Fin 8} (hi : CanIssue s (.rs t) 4) (h cn : BitVec 3) (rd ra rb : BitVec 5)
include hi

/-- A rootstock thread has no helpers and no completion registers: HREQ, HWAIT and HPOLL raise ILLEGAL there. -/
theorem execHreq_rootstock : execHreq (.rs t) h cn ra rb s =
    .next (s.raiseExc (512 + t.val) 0x01 (firstHalf (.hreq (.rs t) h cn ra rb)) (s.own (.rs t)).pc) := by
  rw [execHreq, State.issue_next hi]
  exact congrArg Host.Outcome.next (if_pos (.inl (Nat.le_add_right _ _)))

theorem execHwait_rootstock : execHwait (.rs t) rd cn s =
    .next (s.raiseExc (512 + t.val) 0x01 (firstHalf (.hwait (.rs t) rd cn)) (s.own (.rs t)).pc) := by
  rw [execHwait, State.issue_next hi]
  exact congrArg Host.Outcome.next (if_pos (Nat.le_add_right _ _))

theorem execHpoll_rootstock : execHpoll (.rs t) rd cn s =
    .next (s.raiseExc (512 + t.val) 0x01 (firstHalf (.hpoll (.rs t) rd cn)) (s.own (.rs t)).pc) := by
  rw [execHpoll, State.issue_next hi]
  exact congrArg Host.Outcome.next (if_pos (Nat.le_add_right _ _))

end

theorem execHwaitComplete_held {s : State} {t : Thr} {rd : BitVec 5} {cn : BitVec 3} {w : Word} (hs : (s.own t).state = .wait)
    (hw : (s.own t).wait = .hwait rd cn) (hc : (s.own t).completion cn.toNat = .held w) : execHwaitComplete t s =
      .next (s.setThr (thrKey t) ({ s.own t with state := .run, wait := .nothing }.takeCompl rd.toNat cn.toNat w)) := by
  simp only [execHwaitComplete, hs, hw, hc, State.wakeThr_updThr]

/-- Settles O17: a request that is accepted, a completion that is held, idle or outstanding, the end of the wait, and ILLEGAL on a
rootstock thread are the cases above. -/
theorem helperRequestsAndCompletions : Obligations.HelperRequestsAndCompletions := by
  refine ⟨?_, ?_, ?_, ?_, fun t h cn rd ra rb s hi =>
    ⟨execHreq_rootstock hi h cn ra rb, execHwait_rootstock hi cn rd, execHpoll_rootstock hi cn rd⟩⟩
  · intro t h cn ra rb s ea arg a n hi hea harg hdesc hlen hh hroom hidle hop hal hfit hown hbough hscion
    exact ⟨_, execHreq_accepted t.isLt hi hea harg hdesc hlen hh hroom hidle hop hal hfit hown hbough hscion⟩
  · intro t rd cn s w hi hc
    refine ⟨_, ⟨execHwait_held hi hc, execHpoll_held hi hc⟩, onlyThread_setThr _ _ _, ?_⟩
    simp only [State.own, thrKey, State.thr_setThr_same, Thread.takeCompl_gr_same, Thread.takeCompl_completion,
      Thread.takeCompl_pc, Thread.takeCompl_tsr, Thread.fz, bitOf_putBit _ 0 _ _ (by decide : 0 < 32), if_true, true_and, and_true]
    exact ⟨fun i hne => Thread.takeCompl_gr_other _ _ _ _ hne, putBit_and _ _ 0 _ (by decide) (by decide)⟩
  · rintro t rd cn s _ hi rfl
    exact ⟨fun hc => ⟨execHwait_idle hi hc, execHpoll_none hi (.inl hc)⟩,
      fun hc => ⟨execHpoll_none hi (.inr hc), execHwait_outstanding hi hc⟩⟩
  · intro t rd cn s w hs hw hc
    refine (execHwaitComplete_held hs hw hc).trans ?_
    rw [Thread.takeCompl_woken]

end Sys2Proof.Machine
end

section
/-! The system registers of 04 and 06 (R133-R135, R143-R145, R176, R177): what MFS and MTS do, and what a write leaves to read. -/

namespace Sys2Proof.Machine

section
variable {s : State} {t : Thr} {n : Byte} (hi : CanIssue s t 4)
include hi

theorem execMfs_next {rd : BitVec 5} (hn : sysReg n.toNat = true) : execMfs t rd n s = .next (s.setThr (thrKey t)
    { ((s.own t).sysPop n.toNat).setG rd.toNat ((s.own t).sysRead (thrKey t) n.toNat) with pc := (s.own t).pc + 4 }) := by
  rw [execMfs, State.issue_next hi]
  exact congrArg Host.Outcome.next (if_pos hn)

/-- R177: MFS of a number that names no system register raises ILLEGAL. -/
theorem execMfs_illegal {rd : BitVec 5} (hn : sysReg n.toNat = false) : execMfs t rd n s =
    .next (s.raiseExc (thrKey t) 0x01 (firstHalf (.mfs t rd n)) (s.own t).pc) := by
  rw [execMfs, State.issue_next hi]
  exact congrArg Host.Outcome.next (if_neg (by simp [hn]))

theorem execMts_illegal {ra : BitVec 5} (hn : sysReg n.toNat = false) : execMts t n ra s =
    .next (s.raiseExc (thrKey t) 0x01 (firstHalf (.mts t n ra)) (s.own t).pc) := by
  rw [execMts, State.issue_next hi]
  exact congrArg Host.Outcome.next (if_pos (by simp [hn]))

/-- R144, R145: MTS at the level that the register needs. -/
theorem execMts_next {ra : BitVec 5} (hn : sysReg n.toNat = true) (hpl : plOf (s.own t).tsr ≠ 0 ∨ mtsPriv n.toNat = false) :
    execMts t n ra s = .next (s.setThr (thrKey t)
      { (s.own t).sysWrite (thrKey t) n.toNat ((s.own t).gr ra.toNat) with pc := (s.own t).pc + 4 }) := by
  have hpriv : (decide (plOf (s.own t).tsr = 0) && mtsPriv n.toNat) = false := by
    obtain hlevel | hfree := hpl
    · simp [hlevel]
    · simp [hfree]
  rw [execMts, State.issue_next hi]
  exact congrArg Host.Outcome.next ((if_neg (by simp [hn])).trans (if_neg (by simp [hpriv])))

theorem execMts_priv {ra : BitVec 5} (hn : sysReg n.toNat = true) (hpl : plOf (s.own t).tsr = 0) (hpriv : mtsPriv n.toNat = true) :
    execMts t n ra s = .next (s.raiseExc (thrKey t) 0x02 (firstHalf (.mts t n ra)) (s.own t).pc) := by
  rw [execMts, State.issue_next hi]
  exact congrArg Host.Outcome.next ((if_neg (by simp [hn])).trans (if_pos (by simp [hpl, hpriv])))

end

/-- An address generator after a write of it. -/
theorem Thread.agen_setAgen (a : Thread) (n : Nat) (g : AddrGen) : (a.setAgen n g).agen n = g := by
  simp [Thread.agen, Thread.setAgen]

/-- R135: the level of a written ETSR is at most that of TSR. -/
theorem plOf_etsrWrite_le (tsr v : Word) : plOf (etsrWrite tsr v) ≤ plOf tsr := by
  have hlt := plOf_lt tsr
  unfold etsrWrite
  dsimp only
  split
  · rw [plOf_withPl _ hlt]
  · rw [plOf_withPl _ (by omega)]
    exact Nat.min_le_right _ _

/-- Settles O19: MFS and MTS in their cases, and a register read after it is written. -/
theorem systemRegisterMoves : Obligations.SystemRegisterMoves := by
  refine ⟨fun t rd n s hi hn => execMfs_next hi hn, fun t rd ra n s hi hn => ⟨execMfs_illegal hi hn, execMts_illegal hi hn⟩,
    fun t n ra s hi hn => ⟨fun hpl => execMts_next hi hn hpl, fun hpl hpriv => execMts_priv hi hn hpl hpriv⟩, fun a k v => ?_⟩
  refine ⟨rfl, rfl, rfl, rfl, congrArg AddrGen.base (a.agen_setAgen 0 _), rfl, ?_, plOf_etsrWrite_le a.tsr v⟩
  show bitOf (a.tevt ||| 0x200) 9 = true
  simp [bitOf_eq]

end Sys2Proof.Machine
end

section
/-! Posts to a thread's event inputs (06, R191, R215). -/

namespace Sys2Proof.Machine

theorem TState.takesEvents_eq_false {st : TState} (h : st = .idle ∨ st = .done ∨ st = .unassigned) : st.takesEvents = false := by
  obtain rfl | rfl | rfl := h <;> rfl

theorem TState.takesEvents_eq_true {st : TState} (h : st = .run ∨ st = .wait ∨ st = .halted) : st.takesEvents = true := by
  obtain rfl | rfl | rfl := h <;> rfl

theorem State.post_ignored {s : State} {k : Nat} (h : (s.thr k).state.takesEvents = false) (i : Nat) : s.post k i = s :=
  if_neg (by simp [h])

theorem State.post_taken {s : State} {k i : Nat} (h : (s.thr k).state.takesEvents = true) (hi : i < 8) :
    s.post k i = s.setThr k { s.thr k with tevt := (s.thr k).tevt ||| BitVec.ofNat 32 (2 ^ i) } := by
  rw [State.post, if_pos h, Nat.mod_eq_of_lt hi]
  rfl

theorem getLsbD_or_bit (w : Word) (i : Nat) {j : Nat} (hj : j < 32) :
    (w ||| BitVec.ofNat 32 (2 ^ i)).getLsbD j = (decide (j = i) || w.getLsbD j) := by
  rw [BitVec.getLsbD_or, BitVec.getLsbD_ofNat, Nat.testBit_two_pow, Bool.or_comm]
  simp [hj, eq_comm]

theorem or_bit_of_getLsbD {w : Word} {i : Nat} (h : w.getLsbD i = true) : w ||| BitVec.ofNat 32 (2 ^ i) = w := by
  apply BitVec.eq_of_getLsbD_eq
  intro j hj
  rw [getLsbD_or_bit w i hj]
  by_cases hji : j = i
  · simp [hji, h]
  · simp [hji]

/-- Settles O58: a post is ignored or ors one bit into TEVT, by the state of the thread. -/
theorem eventPosts : Obligations.EventPosts := by
  intro s k i hi
  refine ⟨fun h => State.post_ignored (TState.takesEvents_eq_false h) i, fun h => ?_⟩
  rw [State.post_taken (TState.takesEvents_eq_true h) hi]
  refine ⟨onlyThread_setThr _ _ _, ?_⟩
  rw [State.thr_setThr_same]
  exact ⟨rfl, fun j hj => getLsbD_or_bit _ i hj, fun hset => by rw [or_bit_of_getLsbD hset]⟩

end Sys2Proof.Machine
end

section
/-! Fetching, FENCE and QUIT (R124, R149-R151, R178, R206, R707). -/

namespace Sys2Proof.Machine

/-! ## What a read inside one word does besides giving its value (R705, R707) -/

section
variable {s : State} {m : Mem} {addr n : Nat}

theorem State.memRead_good (h : s.eccAt addr = 0) : (s.memRead m addr n).2 = s := by
  simp [State.memRead, h]

theorem State.memRead_corrected (h : s.eccAt addr = 1) : (s.memRead m addr n).2 = s.memCe m := by
  simp [State.memRead, h]

theorem State.memRead_uncorrected (h : 2 ≤ s.eccAt addr) : (s.memRead m addr n).2 = s.memUe m := by
  rw [State.memRead]
  split
  · omega
  · omega
  · rfl

end

/-! ## Fetching -/

/-- R124, R149: a PC outside the memory or at an odd offset, before anything else that a fetch can meet. -/
theorem State.fetchExc_outside {s : State} {k n : Nat} {pc : Word} (h : 0x40000 ≤ pc.toNat ∨ pc.toNat % 2 = 1) :
    s.fetchExc k n pc = some (0x03, pc) :=
  if_pos h

theorem execFetchFault_outside {s : State} {t : Thr} (hrun : (s.own t).state = .run) (hmay : s.mayRun (thrKey t) = true)
    (hpc : 0x40000 ≤ (s.own t).pc.toNat ∨ (s.own t).pc.toNat % 2 = 1) :
    execFetchFault t s = .next (s.raiseExc (thrKey t) 0x03 (s.own t).pc (s.own t).pc) := by
  rw [execFetchFault, if_pos ⟨hrun, hmay⟩, State.fetchExc_outside hpc]
  rfl

/-- R707: a scion thread fetches a halfword by a read of its bough's instruction memory. -/
theorem execInstructionFetch_scion {s : State} {t : Fin 512} {k : Fin 4} {p : Nat} (hrun : (s.own (.scion t)).state = .run)
    (hon : s.boot.boughsOn = true) (hp : p = (s.own (.scion t)).pc.toNat + 2 * k.val) (hin : p < 0x40000) (heven : p % 2 = 0) :
    execInstructionFetch (.scion t) k s =
      .next (s.memRead (.imem (boughOf t.val)) (0x100000000 + boughOf t.val * 0x1000000 + p) 2).2 := by
  subst hp
  have hmay : s.mayRun (thrKey (.scion t)) = true := by simp [State.mayRun, hon]
  have hfetch : ¬ ((s.own (.scion t)).state ≠ .run ∨ s.mayRun (thrKey (.scion t)) = false ∨
      0x40000 ≤ (s.own (.scion t)).pc.toNat + 2 * k.val ∨ ((s.own (.scion t)).pc.toNat + 2 * k.val) % 2 = 1) := by
    simp only [hrun, hmay, ne_eq, not_true_eq_false, Bool.true_eq_false, false_or]
    omega
  exact congrArg Host.Outcome.next (if_neg hfetch)

/-- R150, R151: a word that the reference does not define. -/
theorem execIllegalEncoding_undefined {s : State} {t : Thr} {w : Word} (hw : decodeWord w = none)
    (hi : CanIssue s t (if isWide (w.extractLsb' 0 16) then 4 else 2)) : execIllegalEncoding t w s =
      .next (s.raiseExc (thrKey t) 0x01 ((w.extractLsb' 0 16).zeroExtend 32) (s.own t).pc) := by
  exact congrArg Host.Outcome.next ((if_neg (by simp [hw])).trans (State.issue_next hi _))

/-! ## FENCE and QUIT -/

theorem execFence_next {s : State} {t : Thr} (hi : CanIssue s t 4) :
    execFence t s = .next (s.setThr (thrKey t) { s.own t with pc := (s.own t).pc + 4 }) :=
  congrArg Host.Outcome.next (State.plain_next hi id)

section
variable {s : State} {t : Thr} {f : Wd} (hi : CanIssue s t (wdBytes f))
include hi

theorem execQuit_allowed (h : s.quitBarred (thrKey t) = false) :
    execQuit t f s = .next (s.endThread (thrKey t) Thread.quitClear) := by
  rw [execQuit, State.issue_next hi]
  exact congrArg Host.Outcome.next (if_neg (by simp [h]))

/-- R206: a supervisor thread and rootstock thread 0 may not end themselves. -/
theorem execQuit_barred (h : s.quitBarred (thrKey t) = true) :
    execQuit t f s = .next (s.raiseExc (thrKey t) 0x01 (firstHalf (.quit t f)) (s.own t).pc) := by
  rw [execQuit, State.issue_next hi]
  exact congrArg Host.Outcome.next (if_pos h)

end

/-- Settles O20: the fetch exception, the undefined word, the three outcomes of a fetch's check bits, FENCE and QUIT are the cases
above. -/
theorem fetchFenceAndQuit : Obligations.FetchFenceAndQuit := by
  refine ⟨fun t s hrun hmay hpc => execFetchFault_outside hrun hmay hpc, fun t w s hw hi => execIllegalEncoding_undefined hw hi, ?_,
    fun t s hi => execFence_next hi, fun t f s hi => ⟨execQuit_allowed hi, execQuit_barred hi⟩⟩
  intro t k s p hrun hon hp hin heven
  have hread := execInstructionFetch_scion hrun hon hp hin heven
  exact ⟨fun h => hread.trans (congrArg Host.Outcome.next (State.memRead_good h)),
    fun h => hread.trans (congrArg Host.Outcome.next (State.memRead_corrected h)),
    fun h => hread.trans (congrArg Host.Outcome.next (State.memRead_uncorrected h))⟩

end Sys2Proof.Machine
end

section
/-! Starts, stops and state changes of a loop and of its phases, and the requests that reach engine A (07, R232-R252). -/

namespace Sys2Proof.Machine

/-! ## LOOP_x_CTL (R232, R237, R238, R269) -/

/-- EN and HARDOFF are the two RW fields of LOOP_x_CTL, and it has no others. -/
theorem regRow_loopCtl (x : Loop) :
    (regRow (R.LOOP_CTL (loopNum x))).any (fun r => r.masks (R.LOOP_CTL (loopNum x)) 3 0 0 0) = true := by
  cases x <;> decide +kernel

theorem loopNum_lt (x : Loop) : loopNum x < 4 := by cases x <;> decide

section
variable {s : State} {x : Loop} {n : Nat} (hn : n = loopNum x)
include hn

/-- A write of LOOP_x_CTL stores EN and HARDOFF and then has the effect of the loop block. -/
theorem State.regDo_loopCtl {req : Req} (hc : CanWrite s req (R.LOOP_CTL n)) {c : Word} (hc3 : c &&& 3 = c) :
    s.regDo req (R.LOOP_CTL n) c =
      (s.setReg (R.LOOP_CTL n) ((s.reg (R.LOOP_CTL n) &&& 0xFFFFFFFC) ||| c)).loopHook (R.LOOP_CTL n) (s.reg (R.LOOP_CTL n)) c := by
  subst hn
  have hlt := loopNum_lt x
  have hrow := regRow_loopCtl x
  rw [State.regDo_masks hc hrow, State.hook_loop _ (by simp [R.LOOP_CTL]) (by simp only [R.LOOP_CTL]; omega), State.enRise_masks hrow]
  simp [show c &&& 3#32 = c from hc3]

/-- What a write of LOOP_x_CTL does once it is stored. -/
theorem State.loopHook_loopCtl (old wr : Word) : s.loopHook (R.LOOP_CTL n) old wr =
    if n = 0 && !s.flag (R.LOOP_CTL_EN n) && s.loadOn then
      (s.setReg (R.LOOP_CTL n) old).loopEvt n (R.LOOP_STATUS_CFG_ERR n)
    else if !bitOf old 0 && s.flag (R.LOOP_CTL_EN n) then (if s.loopState n = 4 then s else s.startLoop n)
    else if !s.flag (R.LOOP_CTL_EN n) && (bitOf old 0 || s.loopState n == 4) then s.disableLoop n
    else s := by
  subst hn
  cases x <;> rfl

/-- R232: EN written 1 starts a loop whose EN was 0, unless it is in FAULT. -/
theorem State.loopHook_enable {old : Word} (wr : Word) (hen : s.flag (R.LOOP_CTL_EN n) = true) : s.loopHook (R.LOOP_CTL n) old wr =
    if bitOf old 0 = true ∨ s.loopState n = 4 then s else s.startLoop n := by
  rw [State.loopHook_loopCtl hn, hen]
  cases bitOf old 0 <;> simp

/-- R237, R238, R269: EN written 0 stops a loop whose EN was 1 or that is in FAULT; on loop A it is refused under load. -/
theorem State.loopHook_disable {old : Word} (wr : Word) (hen : s.flag (R.LOOP_CTL_EN n) = false) : s.loopHook (R.LOOP_CTL n) old wr =
    if n = 0 ∧ s.loadOn = true then (s.setReg (R.LOOP_CTL n) old).loopEvt n (R.LOOP_STATUS_CFG_ERR n)
    else if bitOf old 0 = true ∨ s.loopState n = 4 then s.disableLoop n else s := by
  rw [State.loopHook_loopCtl hn, hen]
  simp

end

section
variable (s : State) (x : Nat) (v : Word)

theorem State.flag_loopEn : s.flag (R.LOOP_CTL_EN x) = bitOf (s.reg (R.LOOP_CTL x)) 0 := by
  simp only [State.flag, State.fld, Fld.get, R.LOOP_CTL_EN, bitOf, Nat.testBit_zero]
  rw [pow_zero, Nat.div_one, pow_one]
  rcases Nat.mod_two_eq_zero_or_one (s.reg (R.LOOP_CTL x)).toNat with h | h <;> rw [h] <;> rfl

theorem State.loopState_setLoopCtl : (s.setReg (R.LOOP_CTL x) v).loopState x = s.loopState x :=
  s.fld_setReg_off _ _ v (by simp only [R.LOOP_STATUS_STATE, R.LOOP_STATUS, R.LOOP_CTL]; omega)

theorem State.loadOn_setLoopCtl : (s.setReg (R.LOOP_CTL x) v).loadOn = s.loadOn := by
  have hgrant : (s.setReg (R.LOOP_CTL x) v).reg R.PDC_GRANT = s.reg R.PDC_GRANT :=
    s.reg_setReg_other v (by simp only [R.PDC_GRANT, R.LOOP_CTL]; omega)
  simp only [State.loadOn, State.granted, hgrant]

end

/-- EN of the word that is stored is that of the word written. -/
theorem bitOf_loopCtl_en (old c : Word) : bitOf ((old &&& 0xFFFFFFFC) ||| c) 0 = bitOf c 0 := by
  simp [bitOf_eq]

theorem execLoopEnable_next {s u : State} {req : Req} {x : Loop} {hard : Bool} {n : Nat} {c : Word} (hn : n = loopNum x)
    (hc : CanWrite s req (R.LOOP_CTL n)) (hu : u = s.setReg (R.LOOP_CTL n) ((s.reg (R.LOOP_CTL n) &&& 0xFFFFFFFC) ||| c))
    (hw : c = if hard then 3 else 1) : execLoopEnable req x hard s =
      .next (if bitOf (s.reg (R.LOOP_CTL n)) 0 = true ∨ s.loopState n = 4 then u else u.startLoop n) := by
  have hc3 : c &&& 3 = c := by subst hw; cases hard <;> rfl
  have hen : u.flag (R.LOOP_CTL_EN n) = true := by
    rw [State.flag_loopEn, hu, State.reg_setReg_same, bitOf_loopCtl_en, hw]
    cases hard <;> rfl
  have hst : u.loopState n = s.loopState n := hu ▸ s.loopState_setLoopCtl n _
  rw [execLoopEnable, ← hn, ← hw, State.regDo_loopCtl hn hc hc3, ← hu, State.loopHook_enable hn c hen, hst]

theorem execLoopDisable_next {s u : State} {req : Req} {x : Loop} {hard : Bool} {n : Nat} {c : Word} (hn : n = loopNum x)
    (hc : CanWrite s req (R.LOOP_CTL n)) (hu : u = s.setReg (R.LOOP_CTL n) ((s.reg (R.LOOP_CTL n) &&& 0xFFFFFFFC) ||| c))
    (hw : c = if hard then 2 else 0) : execLoopDisable req x hard s =
      .next (if n = 0 ∧ s.loadOn = true then (u.setReg (R.LOOP_CTL n) (s.reg (R.LOOP_CTL n))).loopEvt n (R.LOOP_STATUS_CFG_ERR n)
        else if bitOf (s.reg (R.LOOP_CTL n)) 0 = true ∨ s.loopState n = 4 then u.disableLoop n else u) := by
  have hc3 : c &&& 3 = c := by subst hw; cases hard <;> rfl
  have hen : u.flag (R.LOOP_CTL_EN n) = false := by
    rw [State.flag_loopEn, hu, State.reg_setReg_same, bitOf_loopCtl_en, hw]
    cases hard <;> rfl
  have hst : u.loopState n = s.loopState n := hu ▸ s.loopState_setLoopCtl n _
  have hload : u.loadOn = s.loadOn := hu ▸ s.loadOn_setLoopCtl n _
  rw [execLoopDisable, ← hn, ← hw, State.regDo_loopCtl hn hc hc3, ← hu, State.loopHook_disable hn c hen, hst, hload]

/-! ## States of a loop (R233-R240, R265, R268) -/

theorem State.reg_clrReady_other (s : State) {q : Nat} (k : Nat) (hq : R.IDR_READY_1 < q) : (s.clrReady k).reg q = s.reg q := by
  refine s.reg_setReg_other _ ?_
  simp only [R.IDR_READY_0, R.IDR_READY_1] at hq ⊢
  split <;> omega

/-- The governor's report of a closed event lies in its own registers, above those of the loops. -/
theorem State.reg_govClose_other (s : State) (x : Nat) {q : Nat} (hq : q < 0x1E000) : (s.govClose x).reg q = s.reg q := by
  have hgov : q ≠ R.GOV_EVT_E (x - 2) ∧ q ≠ R.GOV_EVT_T (x - 2) ∧ q ≠ R.GOV_EVT_CNT (x - 2) ∧ q ≠ R.GOV_EVT_SEQ (x - 2) ∧
      q ≠ R.GOV_EVT_MAX (x - 2) ∧ q ≠ R.GOV_STATUS (x - 2) := by
    simp only [R.GOV_EVT_E, R.GOV_EVT_T, R.GOV_EVT_CNT, R.GOV_EVT_SEQ, R.GOV_EVT_MAX, R.GOV_STATUS]
    omega
  obtain ⟨he, ht, hcnt, hseq, hmax, hstatus⟩ := hgov
  have hcntF : q ≠ (R.GOV_EVT_CNT_CNT (x - 2)).off := hcnt
  have hstatusF : q ≠ (R.GOV_STATUS_OPEN (x - 2)).off := hstatus
  simp only [State.govClose, State.satAdd, State.updGov_reg, State.reg_setFld_other _ _ _ _ hstatusF, State.reg_setReg_other _ _ hmax,
    State.reg_setReg_other _ _ hseq, State.reg_setFld_other _ _ _ _ hcntF, State.reg_setReg_other _ _ ht, State.reg_setReg_other _ _ he]

/-- A loop that enters a state other than REGULATING, which posts no readiness, is in that state. -/
theorem State.loopState_setLoopState (s : State) {x st : Nat} (hx : x < 4) (hreg : st ≠ 2) (hst : st < 8) :
    (s.setLoopState x st).loopState x = st := by
  have hlow : R.IDR_READY_1 < R.LOOP_STATUS x ∧ R.LOOP_STATUS x < 0x1E000 := by
    simp only [R.IDR_READY_1, R.LOOP_STATUS]; omega
  obtain ⟨hready, hgov⟩ := hlow
  have hpre : R.LOOP_STATUS x ≠ R.GOV_PRE_E (x - 2) := by simp only [R.GOV_PRE_E]; omega
  have hset : ((s.setFld (R.LOOP_STATUS_STATE x) st).clrReady (3 + x)).loopState x = st := by
    have hkept : ((s.setFld (R.LOOP_STATUS_STATE x) st).clrReady (3 + x)).loopState x =
        (s.setFld (R.LOOP_STATUS_STATE x) st).loopState x := congrArg (R.LOOP_STATUS_STATE x).get (State.reg_clrReady_other _ _ hready)
    rw [hkept, State.loopState, State.fld_setFld_same _ _ _ rfl]
    exact Nat.mod_eq_of_lt hst
  have hclose (t : State) : (t.govClose x).loopState x = t.loopState x := congrArg (R.LOOP_STATUS_STATE x).get (t.reg_govClose_other x hgov)
  have hreport (t : State) (v : Word) : (t.setReg (R.GOV_PRE_E (x - 2)) v).loopState x = t.loopState x := t.fld_setReg_off _ _ v hpre
  have hheld (c : Prop) [Decidable c] {t u : State} (ht : t.loopState x = st) (hu : u.loopState x = st) :
      (if c then t else u).loopState x = st := ite_kept (P := fun s => s.loopState x = st) ht hu
  unfold State.setLoopState
  dsimp only
  rw [if_neg hreg]
  have hshut (c : Prop) [Decidable c] := hheld c ((hclose _).trans hset) hset
  exact hheld _ hset (hheld _ ((hreport _ _).trans (hshut _)) (hshut _))

/-- R237, R265, R268: a loop that is stopped is in the state it is stopped into. -/
theorem State.loopState_stopLoop (s : State) {x final : Nat} (hx : x < 4) (hreg : final ≠ 2) (hfinal : final < 8) :
    (s.stopLoop x final).loopState x = final :=
  State.loopState_setLoopState _ hx hreg hfinal

section
variable {s : State} {x : Loop} {n : Nat} (hn : n = loopNum x)
include hn

/-- R234: the ramp has reached VSET_eff and PG.DLY samples lay in the window. -/
theorem execRegulatingEntry_next (hss : s.loopState n = 1) (hramp : (s.loop n).ramp = some (250 * s.vsetEff n))
    (hpg : s.fld (R.LOOP_PG_DLY n) ≤ (s.loop n).pgCount) :
    execRegulatingEntry x s = .next ((s.setLoopState n 2).setPgood n true) := by
  subst hn
  exact congrArg Host.Outcome.next (if_pos ⟨hss, hramp, hpg⟩)

theorem execSoftstartTimeout_next (hss : s.loopState n = 1) :
    execSoftstartTimeout x s = .next ((s.stopLoop n 4).fault (5 + n) 1) := by
  subst hn
  exact congrArg Host.Outcome.next (if_pos hss)

/-- R239: a loop that switches, with a window between ENTER and EXIT, after CNT periods below ENTER. -/
theorem execDeEnter_next (h1 : 1 ≤ s.loopState n) (h3 : s.loopState n ≤ 3)
    (hwin : s.fld (R.LOOP_DE_ENTER n) < s.fld (R.LOOP_DE_EXIT n)) (hcnt : max 1 (s.fld (R.LOOP_DE_CNT_CNT n)) ≤ (s.loop n).deCount) :
    execDeEnter x s = .next ((s.setFld (R.LOOP_STATUS_DE_ON n) 1).updLoop n (fun l => { l with deCount := 0 })) := by
  subst hn
  have hswitch : s.switching (loopNum x) = true := by rw [State.switching, decide_eq_true h1, decide_eq_true h3]; rfl
  refine congrArg Host.Outcome.next (if_pos ?_)
  rw [hswitch, decide_eq_true hwin, decide_eq_true hcnt]
  rfl

end

/-! ## Phases (R241, R244) -/

section
variable {s : State} {n : Fin 16}

theorem execPruneTimeout_next (hpr : s.phState n.val = 3) (hleft : (s.phase n.val).pruneLeft = 0) :
    execPruneTimeout n s = .next (s.setPh n.val 1 .mid) :=
  congrArg Host.Outcome.next (if_pos ⟨hpr, hleft⟩)

/-- ZSRC = 0 selects the pin, whose edge is then the phase's zero crossing. -/
theorem execZeroCrossing_pin (hsrc : s.fld (R.PH_CFG_ZSRC n.val) = 0) : execZeroCrossing n s = .next (s.zeroCross n.val) :=
  congrArg Host.Outcome.next (if_neg (by simp [State.flag, hsrc]))

theorem execZeroCrossing_converter (hsrc : s.fld (R.PH_CFG_ZSRC n.val) ≠ 0) : execZeroCrossing n s = .next s :=
  congrArg Host.Outcome.next (if_pos (bne_iff_ne.mpr hsrc))

end

/-- R244: a pruning phase is SHED. -/
theorem State.zeroCross_pruning {s : State} {n : Nat} (hpr : s.phState n = 3) : s.zeroCross n = s.setPh n 1 .mid :=
  if_pos hpr

/-- R241: an active phase under diode emulation goes to mid-level, unless it is on. -/
theorem State.zeroCross_emulating {s : State} {n x : Nat} (hact : s.phState n = 2) (hem : s.emulating n = true)
    (hx : s.servedBy n = some x) : s.zeroCross n = (match s.phaseSpan x n with
      | .before => s.updPhase n (fun p => { p with startMid := true })
      | .on => s
      | .after => s.updPhase n (fun p => { p with endMid := true })) := by
  rw [State.zeroCross, if_neg (by omega), if_pos ⟨hact, hem⟩, hx] <;> rfl

/-! ## Requests that reach engine A (R247-R252) -/

section
variable {s : State} (hgrant : s.granted 1 = true)
include hgrant

/-- R247, R249: a request that waits for its switch and that engine A does not hold already is held; it cancels a prune under way. -/
theorem execBoughWakeRequest_new {b : Fin 8} (hdom : s.domState (4 + b.val) = 2) (hnew : b.val ∉ (s.loop 0).wakes)
    (hset : ∀ c ∈ (s.loop 0).settling, c.1 ≠ b.val) : execBoughWakeRequest b s = .next (s.updLoop 0 (fun l => { l with
      wakes := l.wakes ++ [b.val],
      wakeCancel := if (s.mine 0).any (fun n => s.phState n == 3) || ((s.loop 0).cmdPend && s.fld (R.LOOP_PHCMD_OP 0) == 2)
        then l.wakeCancel ++ [b.val] else l.wakeCancel })) := by
  refine congrArg Host.Outcome.next (if_neg ?_)
  have hidle : (s.loop 0).settling.any (fun c => c.1 == b.val) = false := by simpa using hset
  simp [hgrant, hdom, hnew, hidle]

theorem execHintUp_due (hdue : s.esp.hintUpDue = true) : execHintUp s =
    .next (State.updLoop { s with esp := { s.esp with hintUpDue := false } } 0 (fun l => { l with hints := l.hints + 1 })) :=
  congrArg Host.Outcome.next (if_pos (by rw [hdue, hgrant]; rfl))

theorem execHintDn_due (hdue : s.esp.hintDnDue = true) : execHintDn s =
    .next (State.loopEvt { s with esp := { s.esp with hintDnDue := false } } 0 (R.LOOP_STATUS_HINT_DN 0)) :=
  congrArg Host.Outcome.next (if_pos (by rw [hdue, hgrant]; rfl))

end

/-- Settles O28: an enable or disable is the loop block's effect of a write of LOOP_x_CTL; every other command is one of the cases
above, taken where its event can occur. -/
theorem loopStateChanges : Obligations.LoopStateChanges := by
  refine ⟨?_, ?_, ?_, fun b s hgrant hdom hnew hset => execBoughWakeRequest_new hgrant hdom hnew hset, fun s => rfl,
    fun s hgrant => ⟨execHintUp_due hgrant, execHintDn_due hgrant⟩⟩
  · rintro req x hard s u c _ n hn hc rfl hu
    exact ⟨execLoopEnable_next hn hc hu, execLoopDisable_next hn hc hu⟩
  · intro x s n hn
    exact ⟨execRegulatingEntry_next hn, execSoftstartTimeout_next hn, execDeEnter_next hn,
      fun final hreg hfinal => s.loopState_stopLoop (hn ▸ loopNum_lt x) hreg hfinal⟩
  · intro n s
    refine ⟨execPruneTimeout_next, fun hsrc hpr => ?_, fun x hsrc hact hem hx => ?_, execZeroCrossing_converter⟩
    · exact (execZeroCrossing_pin hsrc).trans (congrArg Host.Outcome.next (State.zeroCross_pruning hpr))
    · exact (execZeroCrossing_pin hsrc).trans (congrArg Host.Outcome.next (State.zeroCross_emulating hact hem hx))

end Sys2Proof.Machine
end

section
/-! The mailbox of program-served commands and the two bus controllers of 11 (R371-R374, R389-R400, R408): how a request is posted and
answered, how a controller's transaction starts, and how it ends. -/

namespace Sys2Proof.Machine

/-! ## Fields of a word that a write stores in part -/

/-- Words with the same bits in a field have the same field. -/
theorem Fld.get_congr {f : Fld} {x y : Word} (h : ∀ i, f.lo ≤ i → i < f.lo + f.w → x.getLsbD i = y.getLsbD i) :
    f.get x = f.get y := by
  refine Nat.eq_of_testBit_eq fun i => ?_
  simp only [Fld.get, Nat.testBit_mod_two_pow, Nat.testBit_div_two_pow]
  by_cases hi : i < f.w
  · exact congrArg (_ && ·) (h (i + f.lo) (by omega) (by omega))
  · simp [hi]

/-- A field inside the stored bits is the written word's. -/
theorem Fld.get_stored {f : Fld} {m : Word} (hf : f.within m = true) (old w : Word) : f.get (old &&& ~~~ m ||| w &&& m) = f.get w := by
  refine Fld.get_congr fun i h1 h2 => ?_
  have hm := Fld.within_bit hf h1 h2
  simp [hm]

theorem Fld.get_and {f : Fld} {m : Word} (hf : f.within m = true) (w : Word) : f.get (w &&& m) = f.get w := by
  simpa using Fld.get_stored hf 0 w

theorem State.flag_setReg_off (s : State) {f : Fld} {off : Nat} (v : Word) (h : f.off ≠ off) : (s.setReg off v).flag f = s.flag f := by
  rw [State.flag, State.fld_setReg_off _ _ _ _ h, State.flag]

/-! ## Requests to the serving program (R393, R394, R397) -/

section
variable {s : State}

theorem State.setRegBytes_nil (off : Nat) : s.setRegBytes off [] = s := rfl

/-- R393, R394: a request stores its bytes and the command word of Table 11.10, holds its byte and raises the mailbox event. -/
theorem State.pmPost_eq {page : Nat} (hpage : page = if s.pm.page = 0xFF then 3 else s.pm.page) (code : Nat) {data : Bytes}
    (hlen : data.length ≤ 32) (h : PmHold) : s.pmPost code data h =
      let t := (s.setRegBytes (R.TW_0_MBX_DATA 0) data).setReg R.TW_0_MBX_CMD (BitVec.ofNat 32 (code + page * 2 ^ 8 +
        data.length * 2 ^ 10 + (if h.read then 2 ^ 16 else 0) + (if s.pm.page = 0xFF then 2 ^ 17 else 0) + 2 ^ 31))
      (t.updPm (fun p => { p with hold := some h })).event (t.reg R.TW_0_MBX_ROUTE) := by
  have hread : b2n h.read * 2 ^ 16 = if h.read then 2 ^ 16 else 0 := by cases h.read <;> rfl
  have hall : b2n (s.pm.page == 0xFF) * 2 ^ 17 = if s.pm.page = 0xFF then 2 ^ 17 else 0 := by
    by_cases hp : s.pm.page = 0xFF <;> simp [b2n, hp]
  rw [State.pmPost, ← hpage, Nat.mod_eq_of_lt (show data.length < 64 by omega), hread, hall]

theorem counted_block {bs : Bytes} (h1 : 1 ≤ bs.length) (h32 : bs.length ≤ 32) :
    counted (BitVec.ofNat 8 bs.length :: bs) = some bs := by
  refine if_pos ⟨?_, h1, h32⟩
  rw [BitVec.toNat_ofNat, Nat.mod_eq_of_lt (by omega)]

section
variable (hup : s.pmUp = true)
include hup

/-- R393: a write is posted with its counted bytes; what its PEC byte brings follows the answer. -/
theorem execMfrProg_write (hready : s.ready 2 = true) {i : Fin 16} {bs : Bytes} (pec : Option Byte)
    (hwp : s.wpAllows (0xE0 + i.val) = true) (h1 : 1 ≤ bs.length) (h32 : bs.length ≤ 32) :
    execMfrProg i (.write (BitVec.ofNat 8 bs.length :: bs) pec) s = .next (s.pmPost (0xE0 + i.val) bs
      { read := false, pec := false, head := [], rest := s.pecRest (0xE0 + i.val) (BitVec.ofNat 8 bs.length :: bs) pec }) := by
  simp only [execMfrProg, hup, hready, hwp, counted_block h1 h32, Bool.not_true, Bool.false_eq_true, if_false]

theorem execMfrProg_read (hready : s.ready 2 = true) (i : Fin 16) (pec : Bool) (hpage : s.pm.page ≠ 0xFF) :
    execMfrProg i (.read pec) s = .next (s.pmPost (0xE0 + i.val) []
      { read := true, pec := pec, head := s.pecHead (0xE0 + i.val) [], rest := .fine }) := by
  simp only [execMfrProg, hup, hready, hpage, Bool.not_true, Bool.false_eq_true, if_false]

/-- R397: while the serving program is not ready, every program-served command is NACKed at once. -/
theorem execMfrProg_unserved (hready : s.ready 2 = false) (i : Fin 16) (x : PmXfer) :
    execMfrProg i x s = .next (s.latchBusy.send .pmNack) := by
  simp only [execMfrProg, hup, hready, Bool.not_true, Bool.not_false, Bool.false_eq_true, if_false, if_true]

end

/-! ## Answers of the serving program (R395, R396) -/

/-- ACK and LEN are the fields of TW_0_MBX_RESP; both act and neither is stored. -/
theorem regRow_mbxResp : (regRow R.TW_0_MBX_RESP).any (fun r => r.masks R.TW_0_MBX_RESP 0 0x3F01 0 0) = true := by decide +kernel

theorem State.regDo_mbxResp {req : Req} (hc : CanWrite s req R.TW_0_MBX_RESP) (v : Word) : s.regDo req R.TW_0_MBX_RESP v =
    (s.setReg R.TW_0_MBX_RESP (s.reg R.TW_0_MBX_RESP)).mbxRespond (v &&& 0x3F01) := by
  rw [State.regDo_masks hc regRow_mbxResp, State.hook_tw _ (by decide) (by decide), State.enRise_masks regRow_mbxResp]
  simp only [BitVec.not_zero, BitVec.and_zero, BitVec.or_zero, BitVec.zero_or, BitVec.ofNat_eq_ofNat, BitVec.and_allOnes]
  rfl

theorem bitOf_mbxResp_ack (v : Word) : bitOf (v &&& 0x3F01) 0 = bitOf v 0 := by simp [bitOf_eq]

theorem mbxResp_len (v : Word) : (v &&& 0x3F01).toNat / 2 ^ 8 % 64 = v.toNat / 2 ^ 8 % 64 :=
  Fld.get_and (f := R.TW_0_MBX_RESP_LEN) (by decide) v

/-- R396: an answer to no held byte is late. -/
theorem State.mbxRespond_late (h : s.pm.hold = none) (wr : Word) : s.mbxRespond wr = s.setFld R.TW_0_MBX_STAT_LATE 1 := by
  rw [State.mbxRespond, h]

section
variable {h : PmHold} {u : State} {wr : Word} (hhold : s.pm.hold = some h)
  (hu : u = (s.setFld R.TW_0_MBX_CMD_VALID 0).updPm (fun p => { p with hold := none }))
include hhold hu

theorem State.mbxRespond_nack (hack : bitOf wr 0 = false) : s.mbxRespond wr = u.send .pmNack := by
  simp only [State.mbxRespond, hhold, hack, hu, Bool.not_false, if_true]

/-- R395: ACK of a write acknowledges its byte; then its PEC byte is judged. -/
theorem State.mbxRespond_write (hack : bitOf wr 0 = true) (hwr : h.read = false) :
    s.mbxRespond wr = (u.send (.pmbus [])).afterHold h := by
  simp only [State.mbxRespond, hhold, hack, hwr, hu, Bool.not_true, Bool.not_false, Bool.false_eq_true, if_false, if_true]

/-- R395: ACK of a read sends LEN and as many bytes of the mailbox. -/
theorem State.mbxRespond_read (hack : bitOf wr 0 = true) (hrd : h.read = true) (hrest : h.rest = .fine) :
    s.mbxRespond wr = u.holdSend h
      (BitVec.ofNat 8 (wr.toNat / 2 ^ 8 % 64) :: u.regBytes (R.TW_0_MBX_DATA 0) (wr.toNat / 2 ^ 8 % 64)) := by
  simp only [State.mbxRespond, hhold, hack, hrd, hrest, hu, Bool.not_true, Bool.false_eq_true, if_false, State.afterHold,
    reduceCtorEq]

end

theorem State.holdSend_eq (h : PmHold) (data : Bytes) : s.holdSend h data =
    s.send (.pmbus (if h.pec then data ++ [BitVec.ofNat 8 (crc8 (h.head ++ data))] else data)) := by
  cases hp : h.pec <;> simp [State.holdSend, hp]

/-- R396: the hold ends without an answer. -/
theorem execStretchTimeout_held {h : PmHold} {u : State} (hhold : s.pm.hold = some h)
    (hu : u = (s.setFld R.TW_0_MBX_CMD_VALID 0).updPm (fun p => { p with hold := none })) (total : Bool) :
    execStretchTimeout total s = .next ((((u.setFld R.TW_0_MBX_STAT_TMO 1).latchBusy).latchCml 1 9).send .pmNack) := by
  simp only [execStretchTimeout, hhold, hu, Option.isNone_some, Bool.false_eq_true, if_false]

/-- R372: a bus that is up gives up the transaction in progress. -/
theorem execBusTimeout_up (hup : s.twUp 0 = true) : execBusTimeout s =
    .next (((s.setFld R.TW_0_MBX_CMD_VALID 0).updPm (fun p => { p with hold := none })).latchCml 1 9) :=
  congrArg Host.Outcome.next (if_pos hup)

end

/-! ## A controller's command (R398, R399) -/

/-- TW_n_MCMD stores its five parameters; GO acts and is not stored (Table 11.10). -/
theorem regRow_mcmd (n : Fin 2) :
    (regRow (R.TW_MCMD n.val)).any (fun r => r.masks (R.TW_MCMD n.val) 0x013FFF7F 0x80000000 0 0) = true := by
  revert n; decide +kernel

/-- What a command stores, GO apart. -/
def mcmdStored (v : Word) (proto : Nat) : Word := (R.TW_MCMD_PROTO 0).put proto v &&& 0x013FFF7F

theorem mcmdGo_stored (v : Word) (proto : Nat) : mcmdGo v proto &&& 0x013FFF7F = mcmdStored v proto := by
  refine BitVec.eq_of_getLsbD_eq fun i _ => ?_
  have hgo : ((0x80000000 : Word) &&& 0x013FFF7F).getLsbD i = false := by
    rw [show (0x80000000 : Word) &&& 0x013FFF7F = 0 by decide]; simp
  rw [BitVec.getLsbD_and] at hgo
  rw [mcmdGo, mcmdStored, BitVec.getLsbD_and, BitVec.getLsbD_or, Bool.and_or_distrib_right, hgo, Bool.or_false, BitVec.getLsbD_and]

theorem bitOf_mcmdGo (v : Word) (proto : Nat) : bitOf (mcmdGo v proto &&& (0x013FFF7F ||| 0x80000000)) 31 = true := by
  simp [bitOf_eq, mcmdGo]

/-- A write of TW_n_MCMD with GO is a GO of controller `n`. -/
theorem State.twHook_mcmd (s : State) (n : Fin 2) {wr : Word} (hgo : bitOf wr 31 = true) :
    s.twHook (R.TW_MCMD n.val) wr = s.ctlGo n.val := by
  have hn : n.val = 0 ∨ n.val = 1 := by omega
  obtain hn | hn := hn <;> simp [State.twHook, R.TW_MCMD, hn, hgo]

section
variable {s t : State} {n : Fin 2} {v : Word} {proto : Nat}

theorem State.regDo_mcmd {req : Req} (hc : CanWrite s req (R.TW_MCMD n.val)) :
    s.regDo req (R.TW_MCMD n.val) (mcmdGo v proto) =
      (s.setReg (R.TW_MCMD n.val) ((s.reg (R.TW_MCMD n.val) &&& 0xFEC00080) ||| mcmdStored v proto)).ctlGo n.val := by
  have hrow := regRow_mcmd n
  rw [State.regDo_masks hc hrow, State.hook_tw _ (by simp only [R.TW_MCMD]; omega) (by simp only [R.TW_MCMD]; omega), State.enRise_masks hrow,
    State.twHook_mcmd _ _ (bitOf_mcmdGo v proto), mcmdGo_stored]
  simp

/-- What a GO on an idle controller of a bus that is up begins (R398). -/
def ctlBegun (t : State) (n : Nat) (v : Word) (proto tries : Nat) : CtlSt :=
  { proto := proto, addr := v.toNat % 2 ^ 7, wlen := min 32 (v.toNat / 2 ^ 10 % 2 ^ 6), rlen := min 32 (v.toNat / 2 ^ 16 % 2 ^ 6),
    pec := v.getLsbD 24, sent := if proto < 2 then t.regBytes (R.TW_MDATA n 0) (min 32 (v.toNat / 2 ^ 10 % 2 ^ 6)) else [],
    triesLeft := tries }

section
variable (ht : t = s.setReg (R.TW_MCMD n.val) ((s.reg (R.TW_MCMD n.val) &&& 0xFEC00080) ||| mcmdStored v proto))
include ht

/-- A stored parameter is the one that the command names. -/
theorem State.fld_mcmd {f : Fld} (hoff : f.off = R.TW_MCMD n.val) (hf : f.within 0x013FFF7F = true) :
    t.fld f = f.get ((R.TW_MCMD_PROTO 0).put proto v) := by
  rw [State.fld, hoff, ht, State.reg_setReg_same]
  exact Fld.get_stored hf _ _

/-- The same for a parameter beside PROTO. -/
theorem State.fld_mcmd_apart {f : Fld} (hoff : f.off = R.TW_MCMD n.val) (hf : f.within 0x013FFF7F = true)
    (hapart : (R.TW_MCMD_PROTO 0).apart f = true) : t.fld f = f.get v := by
  rw [State.fld_mcmd ht hoff hf, Fld.get_put_other _ _ (by decide) hapart]

theorem State.fld_mcmd_proto (hproto : proto < 4) : t.fld (R.TW_MCMD_PROTO n.val) = proto := by
  rw [State.fld_mcmd ht rfl rfl]
  exact ((R.TW_MCMD_PROTO 0).get_put_same rfl proto v).trans (Nat.mod_eq_of_lt hproto)

theorem State.flag_mcmd_pec : t.flag (R.TW_MCMD_PEC n.val) = v.getLsbD 24 := by
  rw [State.flag, State.fld_mcmd_apart ht rfl rfl rfl, BitVec.getLsbD, Nat.testBit_eq_decide_div_mod_eq]
  simp only [Fld.get, R.TW_MCMD_PEC, pow_one]
  obtain h | h := Nat.mod_two_eq_zero_or_one (v.toNat / 2 ^ 24) <;> rw [h] <;> rfl

theorem State.flag_mcmd_busy : t.flag (R.TW_MSTAT_BUSY n.val) = s.flag (R.TW_MSTAT_BUSY n.val) := by
  rw [ht, State.flag_setReg_off]
  simp only [R.TW_MSTAT_BUSY, R.TW_MSTAT, R.TW_MCMD]; omega

theorem State.twUp_mcmd : t.twUp n.val = s.twUp n.val := by
  have hready : t.ready (12 + n.val) = s.ready (12 + n.val) := by
    rw [State.ready, if_pos (by omega), ht, State.reg_setReg_other _ _ (by simp only [R.IDR_READY_0, R.TW_MCMD]; omega), State.ready,
      if_pos (by omega)]
  have hen : t.flag (R.TW_CFG_EN n.val) = s.flag (R.TW_CFG_EN n.val) := by
    rw [ht, State.flag_setReg_off]
    simp only [R.TW_CFG_EN, R.TW_CFG, R.TW_MCMD]; omega
  rw [State.twUp, hready, hen, State.twUp]

theorem State.fld_mcmd_retry : t.fld (R.TW_MCTL_RETRY n.val) = s.fld (R.TW_MCTL_RETRY n.val) := by
  rw [ht, State.fld_setReg_off]
  simp only [R.TW_MCTL_RETRY, R.TW_MCTL, R.TW_MCMD]; omega

/-- R399: a GO while a transaction runs is lost. -/
theorem State.ctlGo_busy (hbusy : s.flag (R.TW_MSTAT_BUSY n.val) = true) : t.ctlGo n.val = t.setFld (R.TW_MSTAT_GO_LOST n.val) 1 := by
  rw [State.ctlGo, State.flag_mcmd_busy ht, hbusy, if_pos rfl]

section
variable (hbusy : s.flag (R.TW_MSTAT_BUSY n.val) = false)
include hbusy

/-- On a bus that is down nothing acknowledges (log 46). -/
theorem State.ctlGo_down (hdown : s.twUp n.val = false) : t.ctlGo n.val = t.ctlEnd n.val (some (R.TW_MSTAT_NACK n.val)) [] := by
  simp only [State.ctlGo, State.flag_mcmd_busy ht, State.twUp_mcmd ht, hbusy, hdown, Bool.not_false, Bool.false_eq_true, if_false,
    if_true]

/-- R398: a GO begins the transaction that TW_n_MCMD describes. -/
theorem State.ctlGo_begins (hup : s.twUp n.val = true) (hproto : proto < 4) : t.ctlGo n.val =
    (t.setCtl n.val (some (ctlBegun t n.val v proto (s.fld (R.TW_MCTL_RETRY n.val))))).setFld (R.TW_MSTAT_BUSY n.val) 1 := by
  have haddr : t.fld (R.TW_MCMD_ADDR n.val) = v.toNat / 2 ^ 0 % 2 ^ 7 := State.fld_mcmd_apart ht rfl rfl rfl
  have hwlen : t.fld (R.TW_MCMD_WLEN n.val) = v.toNat / 2 ^ 10 % 2 ^ 6 := State.fld_mcmd_apart ht rfl rfl rfl
  have hrlen : t.fld (R.TW_MCMD_RLEN n.val) = v.toNat / 2 ^ 16 % 2 ^ 6 := State.fld_mcmd_apart ht rfl rfl rfl
  rw [pow_zero, Nat.div_one] at haddr
  simp only [State.ctlGo, State.flag_mcmd_busy ht, State.twUp_mcmd ht, hbusy, hup, Bool.not_true, Bool.false_eq_true, if_false,
    State.fld_mcmd_proto ht hproto, haddr, hwlen, hrlen, State.flag_mcmd_pec ht, State.fld_mcmd_retry ht, ctlBegun]

end

end

end

/-! ## A controller's transaction (R369-R374, R398, R400, R408) -/

theorem CtlSt.written_eq (c : CtlSt) : c.written = c.sent ++ (if c.pec = true ∧ c.proto = 0 then
    [BitVec.ofNat 8 (crc8 (BitVec.ofNat 8 (2 * c.addr) :: c.sent))] else []) := by
  simp [CtlSt.written]

/-- Whether `bs` is all that a transaction reads, said by its protocol. -/
theorem CtlSt.fits_iff (c : CtlSt) (bs : Bytes) : c.fits bs = true ↔
    if c.proto = 0 then bs = [] else if c.proto = 3 then bs.length ≤ 32 else bs.length = c.rlen := by
  by_cases h0 : c.proto = 0
  · simp [CtlSt.fits, CtlSt.most, h0]
  · by_cases h3 : c.proto = 3 <;> simp [CtlSt.fits, CtlSt.most, h0, h3]

section
variable {s : State} {n : Fin 2} {c : CtlSt} (hc : s.ctlOf n.val = some c)
include hc

/-- R370, R371, R408: the bus is free again, and the TW_0 target holds no byte of its own. -/
theorem execControllerRetry_again (hlost : c.lost = true) (hhold : n.val = 0 → s.pm.hold = none) :
    execControllerRetry n s = .next (s.setCtl n.val (some { c with lost := false, triesLeft := c.triesLeft - 1 })) := by
  have hfree : (n == 0 && s.pm.hold.isSome) = false := by
    by_cases hn : n = 0
    · simp [hhold (congrArg Fin.val hn)]
    · simp [hn]
  simp only [execControllerRetry, hc, hlost, hfree, Bool.not_false, Bool.and_self, if_true]

section
variable (hlost : c.lost = false)
include hlost

/-- R374: SDA low after nine clocks. -/
theorem execControllerDone_stuck (clocks : Fin 10) : execControllerDone n ⟨clocks, .stuck⟩ s =
    .next (((s.ctlClocks n.val 9).ctlEnd n.val (some (R.TW_MSTAT_STUCK n.val)) []).fault 13 n.val) := by
  simp only [execControllerDone, hc, hlost, Bool.false_eq_true, if_false]

/-- R373: the bytes received so far are kept. -/
theorem execControllerTimeout_next (bs : Bytes) : execControllerTimeout ⟨n, bs⟩ s =
    .next ((s.ctlSend n.val c).ctlEnd n.val (some (R.TW_MSTAT_TIMEOUT n.val)) (bs.take c.most)) := by
  simp only [execControllerTimeout, hc, hlost, Bool.false_eq_true, if_false]

section
variable {t : State} {clocks : Fin 10} (ht : t = (s.ctlClocks n.val clocks.val).ctlSend n.val c)
include ht

/-- R398, R400: a transaction that nothing cuts short ends well unless the PEC byte of its read is wrong. -/
theorem execControllerDone_ok {bs : Bytes} (hfits : c.fits bs = true) (pec : Byte) :
    execControllerDone n ⟨clocks, .ok bs pec⟩ s = .next (t.ctlEnd n.val
      (if c.pec && c.proto != 0 && !c.pecRight bs pec then some (R.TW_MSTAT_PEC_ERR n.val) else none) bs) := by
  simp only [execControllerDone, hc, hlost, ht, hfits, Bool.not_true, Bool.false_eq_true, if_false]

theorem execControllerDone_nack :
    execControllerDone n ⟨clocks, .nack⟩ s = .next (t.ctlEnd n.val (some (R.TW_MSTAT_NACK n.val)) []) := by
  simp only [execControllerDone, hc, hlost, ht, Bool.false_eq_true, if_false]

/-- R400: a block count above 32 stops the read after 32 bytes. -/
theorem execControllerDone_badLen {bs : Bytes} (hproto : c.proto = 3) (hlen : bs.length = 32) :
    execControllerDone n ⟨clocks, .badLen bs⟩ s = .next (t.ctlEnd n.val (some (R.TW_MSTAT_NACK n.val)) bs) := by
  simp only [execControllerDone, hc, hlost, ht, hproto, hlen, and_self, Bool.false_eq_true, if_false, if_true]

/-- R370: a lost arbitration ends the transaction when its tries are spent. -/
theorem execControllerDone_arbLost (bs : Bytes) : execControllerDone n ⟨clocks, .arbLost bs⟩ s = .next (
    if c.triesLeft = 0 then t.ctlEnd n.val (some (R.TW_MSTAT_ARB_LOST n.val)) (bs.take c.most)
    else (t.setFld (R.TW_MSTAT_ARB_LOST n.val) 1).setCtl n.val (some { c with lost := true })) := by
  simp only [execControllerDone, hc, hlost, ht, Bool.false_eq_true, if_false]

end

end

end

/-! ## The obligation -/

/-- The four commands of a controller write TW_n_MCMD with GO and their value of PROTO (R398). -/
theorem exec_controllerCommand {p : (Req → Fin 2 → Word → Instr) × Nat}
    (hp : p ∈ [(.controllerWrite, 0), (.controllerWriteRead, 1), (.controllerRead, 2), (.controllerBlockRead, 3)]) :
    p.2 < 4 ∧ ∀ req n v s, exec (p.1 req n v) s = .next (s.regDo req (R.TW_MCMD n.val) (mcmdGo v p.2)) := by
  simp only [List.mem_cons, List.not_mem_nil, or_false] at hp
  obtain rfl | rfl | rfl | rfl := hp <;> exact ⟨by decide, fun _ _ _ _ => rfl⟩

/-- Settles O37: a request of either form and one that nobody serves, the answers, the timeouts, the GO of a controller and the ends of
its transaction are the cases above. -/
theorem mailboxAndControllers : Obligations.MailboxAndControllers := by
  refine ⟨?_, fun i x s hup hready => execMfrProg_unserved hup hready i x, ?_,
    fun total h s u hhold hu => execStretchTimeout_held hhold hu total, fun s hup => execBusTimeout_up hup, ?_, ?_⟩
  · intro i s page hup hready hpage
    constructor
    · rintro bs d pec hwp h1 h32 rfl
      refine (execMfrProg_write hup hready pec hwp h1 h32).trans ?_
      rw [State.pmPost_eq hpage _ h32]
      simp only [Bool.false_eq_true, if_false, Nat.add_zero]
    · intro pec hone
      refine (execMfrProg_read hup hready i pec hone).trans ?_
      rw [State.pmPost_eq hpage _ (by simp)]
      simp only [State.setRegBytes_nil, List.length_nil, Nat.zero_mul, if_neg hone, if_true, Nat.add_zero]
  · intro req v s t hc ht
    have hexec : exec (.mbxResponse req v) s = .next (t.mbxRespond (v &&& 0x3F01)) :=
      congrArg Host.Outcome.next (ht ▸ State.regDo_mbxResp hc v)
    have hpm : t.pm = s.pm := ht ▸ State.setReg_pm ..
    rw [hexec, ← hpm]
    refine ⟨fun hnone => by rw [State.mbxRespond_late hnone], fun h u hhold hu => ⟨fun hack => ?_, fun hack hwr => ?_, ?_⟩⟩
    · rw [State.mbxRespond_nack hhold hu ((bitOf_mbxResp_ack v).trans hack)]
    · rw [State.mbxRespond_write hhold hu ((bitOf_mbxResp_ack v).trans hack) hwr]
      refine ⟨fun hrest => ?_, fun hrest => ?_, fun hrest => ?_⟩ <;> rw [State.afterHold, hrest]
    · rintro data hack hrd hrest rfl
      rw [State.mbxRespond_read hhold hu ((bitOf_mbxResp_ack v).trans hack) hrd hrest, mbxResp_len, State.holdSend_eq]
  · rintro p hp req n v w s t hc rfl ht
    obtain ⟨hproto, hexec⟩ := exec_controllerCommand hp
    rw [hexec, State.regDo_mcmd hc, mcmdStored, ← ht]
    refine ⟨fun hbusy => by rw [State.ctlGo_busy ht hbusy], fun hbusy hdown => by rw [State.ctlGo_down ht hbusy hdown], ?_⟩
    rintro c hbusy hup rfl
    exact congrArg Host.Outcome.next (State.ctlGo_begins ht hbusy hup hproto)
  · intro n clocks s t c hc ht
    rw [← CtlSt.written_eq] at ht
    refine ⟨execControllerRetry_again hc, fun hlost => ⟨fun bs pec hfits => ?_, execControllerDone_nack hc hlost ht,
      fun bs hproto hlen => execControllerDone_badLen hc hlost ht hproto hlen, execControllerDone_stuck hc hlost clocks,
      execControllerDone_arbLost hc hlost ht, fun bs hclocks => ?_⟩⟩
    · have hdone := execControllerDone_ok hc hlost ht ((c.fits_iff bs).mpr hfits) pec
      refine ⟨fun hgood => ?_, fun hpec hread hwrong => ?_⟩
      · have hright : (c.pec && c.proto != 0 && !c.pecRight bs pec) = false := by
          obtain h | h | h := hgood <;> simp [h]
        rwa [hright] at hdone
      · rwa [hpec, hwrong, bne_iff_ne.mpr hread] at hdone
    · have hstart : t = s.ctlSend n.val c := by rw [ht, State.ctlClocks, if_pos hclocks]; rfl
      exact hstart ▸ execControllerTimeout_next hc hlost bs

end Sys2Proof.Machine
end

section
/-! Ports of 14: PLCA (R501-R503), the MACsec key port (R504-R507), steps and slews of the device time base (R512-R514), and the locks
of backbone and edge ports (R20, R21, R499). -/

namespace Sys2Proof.Machine

/-! ## PLCA (R501-R503) -/

section
variable {s : State} {i : Fin 12}

/-- R501-R503: on a port that is up, the settings written since the last BEACON take effect. -/
theorem execPlcaBeacon_up (hup : s.portUp (24 + i.val) = true) {w : Word} {t : State} (hw : w = s.reg (R.T1S_PLCA i.val))
    (ht : t = if plcaCoordinator (s.port (24 + i.val)).plcaNow || plcaCoordinator w then
      s.send (.plcaBeacon i.val (w.toNat / 2 ^ 16 % 256)) else s) : execPlcaBeacon i s =
      .next ((t.updPort (24 + i.val) (fun x => { x with plcaNow := w, beaconAt := some s.clk, sent := 0 })).setFld
        (R.T1S_STATUS2_PLCA_OK i.val) (if bitOf w 0 then 1 else 0)) := by
  have hclk : t.clk = s.clk := by rw [ht]; split <;> simp
  simp only [execPlcaBeacon, hup, ← hw, ← ht, hclk, Bool.not_true, Bool.false_eq_true, if_false]

/-- R502: a follower falls back to CSMA/CD. -/
theorem execPlcaBeaconLoss_follower (hen : bitOf (s.port (24 + i.val)).plcaNow 0 = true)
    (hfollow : plcaCoordinator (s.port (24 + i.val)).plcaNow = false) :
    execPlcaBeaconLoss i s = .next (s.setFld (R.T1S_STATUS2_PLCA_OK i.val) 0) :=
  congrArg Host.Outcome.next (if_pos (by rw [hen, hfollow]; rfl))

end

/-! ## The MACsec key port (R504-R506) -/

/-- COMMIT acts, BUSY is read-only and LOST is cleared by a 1; none is stored (Table 14.7). -/
theorem regRow_msecCmd : (regRow R.MSEC_CMD).any (fun r => r.masks R.MSEC_CMD 0 5 4 0) = true := by decide +kernel

/-- The bits of a COMMIT that act: COMMIT itself, and LOST where the word clears it. -/
theorem bitOf_commit (v : Word) : bitOf ((v ||| 1) &&& 5) 0 = true := by simp [bitOf_eq]

theorem commit_lost (v : Word) : (v ||| 1) &&& 5 &&& 4 = v &&& 4 := by
  rw [BitVec.and_assoc, show (5 : Word) &&& 4 = 4 from rfl, BitVec.and_or_distrib_right]
  simp

/-- A COMMIT clears LOST where its word says so and then commits the staged entry. -/
theorem State.regDo_commit {s : State} {req : Req} (hc : CanWrite s req R.MSEC_CMD) (v : Word) :
    s.regDo req R.MSEC_CMD (v ||| 1) = (s.setReg R.MSEC_CMD (s.reg R.MSEC_CMD &&& ~~~ (v &&& 4))).commitSa := by
  rw [State.regDo_masks hc regRow_msecCmd, State.hook_msec, State.enRise_masks regRow_msecCmd]
  rw [show (0 : Word) ||| 5 = 5 from rfl, if_pos (bitOf_commit v), commit_lost]
  simp

section
variable {s : State}

/-- R506: a COMMIT while BUSY is lost. -/
theorem State.commitSa_busy (hbusy : s.flag R.MSEC_CMD_BUSY = true) : s.commitSa = s.setFld R.MSEC_CMD_LOST 1 := if_pos hbusy

/-- R504: a COMMIT that is taken writes the staged entry and its check bits to the master, clears the staging registers and sets
BUSY. -/
theorem State.commitSa_idle {i : Nat} {u x : State} (hbusy : s.flag R.MSEC_CMD_BUSY = false) (hi : i = s.fld R.MSEC_SEL_SA)
    (hu : u = { s with saMaster := tabSet {} i s.stagedSa s.saMaster }.saCheck i)
    (hx : x = (List.range 3).foldl (fun s k => s.setReg (R.MSEC_SALT k) 0)
      ((List.range 8).foldl (fun s k => s.setReg (R.MSEC_KEY k) 0) u)) :
    s.commitSa = { x.setFld R.MSEC_CMD_BUSY 1 with msecBusy := some i } := by
  subst hi hu hx
  exact if_neg (by simp [hbusy])

/-- R504, R505: the last copy is written. -/
theorem execMsecCommitDone_busy {i : Nat} (hbusy : s.msecBusy = some i) : execMsecCommitDone s = .next
    { ((List.range 8).foldl (fun s b => if s.granted (4 + b) then s.copySa b i else s) s).setFld R.MSEC_CMD_BUSY 0 with
      msecBusy := none } := by
  rw [execMsecCommitDone, hbusy]

end

/-! ## Steps and slews of the time base (R512-R514) -/

/-- What a write of DTB_CMD does by its CMD. -/
theorem State.espHook_dtbCmd (s : State) (old eff : Word) : s.espHook R.DTB_CMD old eff =
    if eff.toNat % 4 = 1 then s.dtbStep else if eff.toNat % 4 = 2 then s.dtbSlew else s := by
  rw [State.espHook, if_neg (by decide), if_neg (by decide), if_pos rfl]

/-- CMD is the one field of DTB_CMD; it acts and is not stored (Table 14.7). -/
theorem regRow_dtbCmd : (regRow R.DTB_CMD).any (fun r => r.masks R.DTB_CMD 0 3 0 0) = true := by decide +kernel

section
variable {s : State} {req : Req} (hc : CanWrite s req R.DTB_CMD)
include hc

/-- A write of DTB_CMD stores nothing and then has the effect of the espalier block. -/
theorem State.regDo_dtbCmd (w : Word) : s.regDo req R.DTB_CMD w =
    (s.setReg R.DTB_CMD (s.reg R.DTB_CMD)).espHook R.DTB_CMD (s.reg R.DTB_CMD) (w &&& 3) := by
  rw [State.regDo_masks hc regRow_dtbCmd, State.hook_esp _ (by decide) (by decide), State.enRise_masks regRow_dtbCmd]
  simp

theorem execStep_next : execStep req s = .next (s.setReg R.DTB_CMD (s.reg R.DTB_CMD)).dtbStep := by
  rw [execStep, State.regDo_dtbCmd hc, State.espHook_dtbCmd, if_pos (by decide)]

theorem execSlew_next : execSlew req s = .next (s.setReg R.DTB_CMD (s.reg R.DTB_CMD)).dtbSlew := by
  rw [execSlew, State.regDo_dtbCmd hc, State.espHook_dtbCmd, if_neg (by decide), if_pos (by decide)]

end

/-- R512, R514: a step moves the DTB by DTB_ADJ, ends a slew and reaches every thread whose bough has its domain (log 50). -/
theorem State.dtbStep_eq {t u v : State}
    (hu : u = (t.setPair R.DTB_LO R.DTB_HI ((t.dtbNow + t.pair R.DTB_ADJ_LO R.DTB_ADJ_HI) % 2 ^ 64)).setFld R.DTB_STATUS_SLEWING 0)
    (hv : v = { u with dtb := { u.dtb with slewLeft := 0, slewPhase := 0 } }) : t.dtbStep = (List.range 520).foldl (fun s k =>
      if k < 512 ∧ s.granted (4 + boughOf k) = false then s else s.updThr k Thread.dtbStep) v := by
  -- Rewritten, not unfolded: comparing the states before and after the write of SLEWING by evaluation recurses too deep.
  have hdtb := (congrArg State.dtb hu).trans (State.setFld_dtb ..)
  rw [hv, hdtb, hu, State.dtbStep]

/-- R513: a slew that has nothing left has ended. -/
theorem execSlewDone_ended {s : State} (hleft : s.dtb.slewLeft = 0) :
    execSlewDone s = .next (s.setFld R.DTB_STATUS_SLEWING 0) := congrArg Host.Outcome.next (if_pos hleft)

/-! ## Locks of ports (R20, R21, R499) -/

section
variable {p : Fin 36} {s : State} (hp : p.val < 24) (hgrant : s.granted (portDomain p.val) = true)
include hp hgrant

/-- R20, R499: an enabled port without a lock gains it; a port that trains takes the coefficients that training has left, unless they
lie below the limit of R496 (log 25). -/
theorem execPortLockGain_next {t u : State} (hen : s.flag (R.PORT_CTL_EN p.val) = true) (hsrd : s.tap.srdGood = true)
    (hsrh : s.tap.srhGood = true) (hlock : s.flag (R.PORT_STATUS_LOCK p.val) = false)
    (ht : t = (s.setFld (R.PORT_STATUS_LINK p.val) 1).setFld (R.PORT_STATUS_LOCK p.val) 1)
    (hu : u = if t.trained p.val then t.tookFree.txeqUse p.val
      (if mainTapMin p.val ≤ mainTap p.val s.nextFree then s.nextFree else t.txeqSet p.val) else t) :
    execPortLockGain p s = .next ((u.setReady (32 + p.val)).activity (36 + p.val)) := by
  subst hu ht
  exact congrArg Host.Outcome.next (if_neg (by simp [hp, hgrant, hen, hsrd, hsrh, hlock]))

/-- R21: a port that is locked loses its lock, its readiness bit first. -/
theorem execPortLinkLost_locked (hlock : s.flag (R.PORT_STATUS_LOCK p.val) = true) : execPortLinkLost p s =
    .next (((((s.clrReady (32 + p.val)).setFld (R.PORT_STATUS_LOCK p.val) 0).setFld (R.PORT_STATUS_LINK p.val) 0).txeqRefresh
      p.val).fault (40 + p.val) 0) := by
  rw [execPortLinkLost, if_pos hp, State.portLost, hgrant, hlock, State.portUnlock, if_pos hp]
  rfl

end

/-- Settles O43: a COMMIT, a step and a slew are writes of their command registers; each other command is one of the cases above, taken
where its event can occur. -/
theorem portCommands : Obligations.PortCommands := by
  refine ⟨fun i s w t hup hw ht => execPlcaBeacon_up hup hw ht, fun i s hen hfollow => execPlcaBeaconLoss_follower hen hfollow, ?_,
    fun s i hbusy => execMsecCommitDone_busy hbusy, ?_, fun s hleft => execSlewDone_ended hleft,
    fun p s t u hp hgrant hen hsrd hsrh hlock ht hu => execPortLockGain_next hp hgrant hen hsrd hsrh hlock ht hu,
    fun p s hp hgrant hlock => execPortLinkLost_locked hp hgrant hlock⟩
  · intro req v s t hc ht
    have hexec : exec (.commit req v) s = .next t.commitSa := congrArg Host.Outcome.next (ht ▸ State.regDo_commit hc v)
    rw [hexec]
    exact ⟨fun hbusy => by rw [State.commitSa_busy hbusy], fun hbusy i u x hi hu hx => by rw [State.commitSa_idle hbusy hi hu hx]⟩
  · intro req s t u v hc ht hu hv
    subst ht
    exact ⟨(execStep_next hc).trans (congrArg Host.Outcome.next (State.dtbStep_eq hu hv)), execSlew_next hc⟩

end Sys2Proof.Machine
end

section
/-! USB of 15: attach and detach (R528-R530, R557, R561), the bulk endpoints and notifications (R532-R534, R543, R544, R548, R559), the
hub's cabin ports (R536-R538), suspend, resume and remote wake (R539-R550). -/

namespace Sys2Proof.Machine

/-! ## Attach, detach and bus reset (R528-R530, R541, R557) -/

section
variable {s : State}

/-- R528: a pull-up that already is what EN, the grant of PD15 and VBUS ask for stays. -/
theorem State.usbPullup_settled (h : (s.flag R.USB_CTL_EN && s.granted 15 && s.usb.vbus) = s.usb.pullup) : s.usbPullup = s :=
  if_pos h

/-- R528: the device attaches. -/
theorem State.usbPullup_attach (hwant : (s.flag R.USB_CTL_EN && s.granted 15 && s.usb.vbus) = true) (hdown : s.usb.pullup = false) :
    s.usbPullup = s.updUsb (fun u => { u with pullup := true }) := by
  rw [State.usbPullup, hwant, hdown, if_neg (by decide), if_pos rfl]

/-- R528, R557: a detach leaves what a bus reset leaves. -/
theorem State.usbPullup_detach (hwant : (s.flag R.USB_CTL_EN && s.granted 15 && s.usb.vbus) = false) (hup : s.usb.pullup = true) :
    s.usbPullup = s.usbDefault.updUsb (fun u => { u with pullup := false }) := by
  rw [State.usbPullup, hwant, hup, if_neg (by decide), if_neg (by decide)]

/-- R529, R541: a reset of the bus that the device is attached to. -/
theorem execUsbBusReset_attached (hup : s.usb.pullup = true) (hs : Bool) :
    execUsbBusReset hs s = .next (s.usbDefault.setFld R.USB_STATUS_SPEED (if hs then 1 else 0)) := congrArg Host.Outcome.next (if_pos hup)

end

section
variable {s : State} (hlive : s.usbLive = true)
include hlive

/-- R530, R557: what SET_CONFIGURATION does to the hub. -/
theorem execSetConfiguration_hub (on : Bool) : execSetConfiguration true on s = .next
    (if on then (s.updUsb (fun u => { u with addressed := true, hubCfg := true })).setReady 58
     else (s.updUsb (fun u => { u with addressed := true, hubCfg := false })).clrReady 58) := by
  cases on <;> simp [execSetConfiguration, hlive]

/-- R530, R557: what SET_CONFIGURATION does to the function, whose session ends with its configuration. -/
theorem execSetConfiguration_function (on : Bool) : execSetConfiguration false on s = .next
    (if on then (s.updUsb (fun u => { u with addressed := true, fnCfg := true })).setReady 59
     else ((s.updUsb (fun u => { u with addressed := true, fnCfg := false })).clrReady 59).setFld R.USB_FK_LEVEL 0) := by
  cases on <;> simp [execSetConfiguration, hlive]

/-- R545: the host enables or disables remote wake while it reaches the device. -/
theorem execDeviceRemoteWakeup_live (fn on : Bool) : execDeviceRemoteWakeup fn on s =
    .next (s.setFld (if fn then R.USB_STATUS_RWE_FN else R.USB_STATUS_RWE_HUB) (if on then 1 else 0)) :=
  congrArg Host.Outcome.next (if_pos hlive)

/-- R539: an attached device that is awake suspends. -/
theorem execUsbSuspend_live : execUsbSuspend s = .next (s.updUsb (fun u => { u.awake with susp := true, wakeBits := 0 })) :=
  congrArg Host.Outcome.next (if_pos hlive)

/-- R538: babble on a powered port disables it, is counted and faults. -/
theorem execBabble_powered {n : Fin 2} (hpower : s.flag (R.USB_PORT_POWER n.val) = true) : execBabble n s = .next
    ((((s.setFld (R.USB_PORT_EN n.val) 0).satAdd (R.USB_PORT_BABBLE n.val) 1 255).portChange n.val 1).fault 77 (2 + n.val)) :=
  congrArg Host.Outcome.next (if_pos (by rw [hlive, hpower]; rfl))

section
variable (hhub : s.usb.hubCfg = true)
include hhub

/-- R536: the requests for PORT_POWER reach a configured hub. -/
theorem execPortPower_configured (n : Fin 2) (on : Bool) : execPortPower n on s = .next (s.portPowerTo n.val on) :=
  congrArg Host.Outcome.next (if_pos (by rw [hlive, hhub]; rfl))

/-- R550: the host suspends port 3 selectively (log 78). -/
theorem execClearPortSuspend_set (hawake : s.usb.port3Susp = false) : execClearPortSuspend .set s =
    .next (s.updUsb (fun u => { u with port3Susp := true, wakeBits := 0 })) := by
  simp [execClearPortSuspend, hlive, hhub, hawake]

/-- R550: the host resumes port 3, unless a wake of the function has begun its resume; a wake in the same microframe joins. -/
theorem execClearPortSuspend_clear (merge : Bool) (hsusp : s.usb.port3Susp = true) (hdriving : s.usb.driving = false)
    (hreleased : s.usb.released = false) : execClearPortSuspend (.clear merge) s = .next ((s.satAdd R.USB_RESUME_CNT_HOST 1 255).updUsb
      (fun u => { u.awake with port3Susp := false, wakeBits := if merge then s.ntfReasons % 2 ^ 16 else 0 })) := by
  simp [execClearPortSuspend, hlive, hhub, hsusp, hdriving, hreleased]

end

end

/-! ## The bulk endpoints (R532, R533) -/

section
variable {s : State} (hlive : s.ep1Live = true)
include hlive

/-- R532: a packet that fits is answered with NAK where no buffer is free; in the last buffer it is answered with NYET at high speed, and
otherwise with ACK. -/
theorem execBulkOutPacket_live {data : Bytes} (hfits : data.length ≤ s.maxPacket) : execBulkOutPacket data s = .next
    (if 4 ≤ s.usb.bufs.length then s.send .usbNak
     else (s.updUsb (fun u => { u with bufs := u.bufs ++ [data] }.drain s.maxPacket)).send
      (if s.usb.bufs.length = 3 ∧ s.flag R.USB_STATUS_SPEED = true then .usbNyet else .usbAck)) := by
  simp [execBulkOutPacket, hlive, hfits]

/-- R533: a PING asks whether a buffer is free. -/
theorem execPing_live : execPing s = .next (s.send (if s.usb.bufs.length < 4 then .usbAck else .usbNak)) :=
  congrArg Host.Outcome.next (if_pos hlive)

/-! ## Notifications (R543, R544, R548) -/

/-- R544: a notification that the host has not acknowledged goes out again. -/
theorem execNotificationPoll_again {p : Bytes × Nat} (hfly : s.usb.fly = some p) :
    execNotificationPoll s = .next (s.send (.usbData 2 p.1)) := by
  simp [execNotificationPoll, hlive, hfly]

/-- R544: with no notification on its way, the pending reasons that are not masked make one; with none of them the answer is NAK. -/
theorem execNotificationPoll_fresh (hfly : s.usb.fly = none) : execNotificationPoll s = .next
    (if s.ntfReasons = 0 then s.send .usbNak
     else (s.updUsb (fun u => { u with fly := some (s.ntfPacket s.ntfReasons, s.ntfReasons), ntfSeq := (u.ntfSeq + 1) % 2 ^ 16 })).send
      (.usbData 2 (s.ntfPacket s.ntfReasons))) := by
  simp [execNotificationPoll, hlive, hfly]

/-- R544, R548: an acknowledged notification's reasons are no longer pending. -/
theorem execNotificationAck_sent {p : Bytes × Nat} (hfly : s.usb.fly = some p) : execNotificationAck s = .next
    ((s.setFld R.USB_NTF_PEND_BITS (s.fld R.USB_NTF_PEND_BITS &&& (2 ^ 18 - 1 - p.2 % 2 ^ 18))).updUsb (fun u =>
      { u with fly := none, wakeBits := u.wakeBits &&& (2 ^ 18 - 1 - p.2 % 2 ^ 18),
               posted := u.posted.filter (fun q => !p.2.testBit q.1) })) := by
  rw [execNotificationAck, hlive, hfly]

end

/-! ## The registers of the block (R543, R559, R561) -/

/-- EN is the one field of USB_CTL (Table 15.11). -/
theorem regRow_usbCtl : (regRow R.USB_CTL).any (fun r => r.masks R.USB_CTL 1 0 0 0) = true := by decide +kernel

/-- POST is the one field of USB_NTF_POST; it acts and is not stored (Table 15.11). -/
theorem regRow_ntfPost : (regRow R.USB_NTF_POST).any (fun r => r.masks R.USB_NTF_POST 0 0xFFFF 0 0) = true := by decide +kernel

section
variable {s : State} {req : Req}

/-- A write of USB_CTL stores EN, which the pull-up follows. -/
theorem State.regDo_usbCtl (hc : CanWrite s req R.USB_CTL) (w : Word) :
    s.regDo req R.USB_CTL w = (s.setReg R.USB_CTL (s.reg R.USB_CTL &&& ~~~ 1 ||| w &&& 1)).usbPullup := by
  rw [State.regDo_masks hc regRow_usbCtl, State.hook_usb _ (by decide) (by decide), State.enRise_masks regRow_usbCtl, State.usbHook,
    if_pos rfl]
  simp

/-- R561: USB_DISABLE clears EN, which the pull-up follows. -/
theorem execUsbDisable_next (hc : CanWrite s req R.USB_CTL) :
    execUsbDisable req s = .next (s.setReg R.USB_CTL (s.reg R.USB_CTL &&& ~~~ 1)).usbPullup := by
  rw [execUsbDisable, State.regDo_usbCtl hc]
  simp

/-- EN reads 0 once bit 0 of USB_CTL is cleared. -/
theorem State.usbCtlEn_cleared (w : Word) : (s.setReg R.USB_CTL (w &&& ~~~ 1)).flag R.USB_CTL_EN = false := by
  have hbit : R.USB_CTL_EN.get (w &&& ~~~ 1) = R.USB_CTL_EN.get 0 := Fld.get_congr fun i hlo hhi => by
    obtain rfl : i = 0 := by simp only [R.USB_CTL_EN] at hhi; omega
    simp
  rw [State.flag, State.fld, show R.USB_CTL_EN.off = R.USB_CTL from rfl, State.reg_setReg_same, hbit]
  rfl

/-- R543: a write of USB_NTF_POST that is not refused (R559) raises the reasons written. -/
theorem execNtfPost_next (hc : CanWrite s req R.USB_NTF_POST) (bits : Word) : execNtfPost req bits s =
    .next ((s.setReg R.USB_NTF_POST (s.reg R.USB_NTF_POST)).ntfRaise (bits.toNat % 2 ^ 16)) := by
  have hbits : (bits &&& 0xFFFF).toNat % 2 ^ 16 = bits.toNat % 2 ^ 16 := by
    rw [BitVec.toNat_and, show (0xFFFF : Word).toNat = 2 ^ 16 - 1 from rfl, Nat.and_two_pow_sub_one_eq_mod, Nat.mod_mod]
  rw [execNtfPost, State.regDo_masks hc regRow_ntfPost, State.hook_usb _ (by decide) (by decide), State.enRise_masks regRow_ntfPost,
    State.usbHook, if_neg (by decide), if_pos rfl, show (0 : Word) ||| 0xFFFF = 0xFFFF from rfl, hbits]
  simp

end

/-! ## Hub ports (R537, R543) -/

section
variable {s : State} (hgrant : s.granted 15 = true) (n : Fin 2)
include hgrant

/-- R537: over-current takes the port's power, and the fault names the port. -/
theorem execUsbOvercurrent_granted : execUsbOvercurrent n s =
    .next ((((s.portPowerTo n.val false).setFld (R.USB_PORT_OC n.val) 1).portChange n.val 3).fault 77 n.val) :=
  congrArg Host.Outcome.next (if_pos hgrant)

variable {n} (hpower : s.flag (R.USB_PORT_POWER n.val) = true)
include hpower

/-- R543: a device connects at a powered port. -/
theorem execPortConnectChange_connect (hconn : s.flag (R.USB_PORT_CONN n.val) = false) :
    execPortConnectChange n true s = .next ((s.setFld (R.USB_PORT_CONN n.val) 1).portChange n.val 0) :=
  congrArg Host.Outcome.next (if_pos (by rw [hgrant, hpower, hconn]; rfl))

/-- R543: a disconnect disables the port too. -/
theorem execPortConnectChange_disconnect (hconn : s.flag (R.USB_PORT_CONN n.val) = true) : execPortConnectChange n false s =
    .next (((s.setFld (R.USB_PORT_CONN n.val) 0).setFld (R.USB_PORT_EN n.val) 0).portChange n.val 0) :=
  congrArg Host.Outcome.next (if_pos (by rw [hgrant, hpower, hconn]; rfl))

end

/-! ## Suspend, resume and remote wake (R539-R550) -/

section
variable {s : State}

/-- R540: the host begins a resume of a suspended upstream port. -/
theorem execUsbResumeK_suspended (hsusp : s.usb.susp = true) :
    execUsbResumeK s = .next (s.updUsb (fun u => { u with hostK := true })) := congrArg Host.Outcome.next (if_pos hsusp)

theorem UsbSt.asleep_iff (u : UsbSt) : u.asleep = true ↔ u.susp = true ∨ u.port3Susp = true := Bool.or_eq_true_iff

/-- R542: a resume that the host has driven, or taken over, ends and is counted as the host's or the device's. -/
theorem execUsbResumeEnd_resumed (hasleep : s.usb.asleep = true) (hk : s.usb.hostK = true ∨ s.usb.released = true)
    (hdriving : s.usb.driving = false) : execUsbResumeEnd s = .next
      ((s.satAdd (if s.usb.droveK then R.USB_RESUME_CNT_REMOTE else R.USB_RESUME_CNT_HOST) 1 255).updUsb
        (fun u => { u.awake with port3Susp := u.port3Susp && u.susp })) :=
  congrArg Host.Outcome.next (if_pos (by rw [hasleep, hdriving, Bool.or_eq_true_iff.mpr hk]; rfl))

/-- R545, R546: with a reason to wake and no resume under way, K on the line cancels the wake and no K begins it. -/
theorem execRemoteWakeDecision_due (hasleep : s.usb.asleep = true) (hcancelled : s.usb.cancelled = false)
    (hdriving : s.usb.driving = false) (hreleased : s.usb.released = false) (hretry : s.usb.retryDue = false)
    (hgave : s.usb.gaveUp = false) (hreasons : s.wakeReasons ≠ 0) (lineK : Bool) : execRemoteWakeDecision lineK s = .next
      (if lineK then (s.satAdd R.USB_RESUME_CNT_CANCEL 1 255).updUsb
        (fun u => { u with cancelled := true, hostK := true, wakeBits := s.ntfReasons })
       else (s.updUsb (fun u => { u with driving := true, droveK := true, wakeBits := s.ntfReasons })).send (.usbK true)) :=
  congrArg Host.Outcome.next
    (if_neg (by simp [hasleep, hcancelled, hdriving, hreleased, hretry, hgave, hreasons]))

/-- R547: the device ends its K. -/
theorem execRemoteWakeRelease_driving (hdriving : s.usb.driving = true) : execRemoteWakeRelease s =
    .next ((s.updUsb (fun u => { u with driving := false, released := true })).send (.usbK false)) :=
  congrArg Host.Outcome.next (if_pos hdriving)

/-- R549: a remote wake that the host has not taken over is counted; it comes again while retries are left, and faults after the last. -/
theorem execRemoteWakeFail_released {t : State} (hreleased : s.usb.released = true) (hk : s.usb.hostK = false)
    (ht : t = (s.satAdd R.USB_RESUME_CNT_FAIL 1 127).updUsb (fun u => { u with released := false, wakeBits := 0 })) :
    execRemoteWakeFail s = .next (if t.usb.wakeTries < t.fld R.USB_WAKE_CFG_RETRIES then
        t.updUsb (fun u => { u with wakeTries := u.wakeTries + 1, retryDue := true })
      else (t.updUsb (fun u => { u with gaveUp := true })).fault 77 4) := by
  subst ht
  exact congrArg Host.Outcome.next (if_pos (by rw [hreleased, hk]; rfl))

end

/-! ## The obligation -/

/-- Settles O45: VBUS and USB_CTL move the pull-up, and each other command is one of the cases above, taken where its event can occur. -/
theorem usbCommands : Obligations.UsbCommands := by
  refine ⟨?attach, fun hs s hup => execUsbBusReset_attached hup hs, ?live, ?endpoints, fun req bits s hc => execNtfPost_next hc bits,
    ?disable, ?ports, fun s hsusp => execUsbResumeK_suspended hsusp, ?asleep, fun s hdriving => execRemoteWakeRelease_driving hdriving,
    ?fail, fun s => rfl⟩
  case attach =>
    rintro vbus s t rfl
    exact ⟨fun h => congrArg Host.Outcome.next (State.usbPullup_settled h),
      fun hwant hdown => congrArg Host.Outcome.next (State.usbPullup_attach hwant hdown),
      fun hwant hup => congrArg Host.Outcome.next (State.usbPullup_detach hwant hup)⟩
  case live =>
    exact fun s hlive => ⟨execSetConfiguration_hub hlive, execSetConfiguration_function hlive, execUsbSuspend_live hlive,
      fun hhub => execClearPortSuspend_set hlive hhub, execDeviceRemoteWakeup_live hlive, fun n => execBabble_powered hlive,
      fun hhub => ⟨execPortPower_configured hlive hhub, execClearPortSuspend_clear hlive hhub⟩⟩
  case endpoints =>
    intro s hlive
    refine ⟨fun data hfits => ?packet, fun hfree => (execPing_live hlive).trans (by rw [if_pos hfree]),
      fun hfull => (execPing_live hlive).trans (by rw [if_neg (by omega)]),
      fun p hfly => ⟨execNotificationPoll_again hlive hfly, execNotificationAck_sent hlive hfly⟩,
      fun hfly hnone => (execNotificationPoll_fresh hlive hfly).trans (by rw [if_pos hnone]),
      fun hfly hsome => (execNotificationPoll_fresh hlive hfly).trans (by rw [if_neg hsome])⟩
    case packet =>
      have hexec : exec (.bulkOutPacket data) s = _ := execBulkOutPacket_live hlive hfits
      rw [hexec]
      refine ⟨fun hfull => by rw [if_pos hfull], fun hlast hspeed => ?_, fun hmore => ?_⟩
      · rw [if_neg (by omega), if_pos ⟨hlast, hspeed⟩]
      · rw [if_neg (by omega), if_neg]
        rintro ⟨hlast, hspeed⟩
        obtain hroom | ⟨-, hfull⟩ := hmore
        · omega
        · exact absurd hspeed (by rw [hfull]; decide)
  case disable =>
    rintro req s t hc rfl
    have hoff := State.usbCtlEn_cleared (s := s) (s.reg R.USB_CTL)
    have hexec : exec (.usbDisable req) s = _ := execUsbDisable_next hc
    rw [hexec]
    exact ⟨hoff, fun hdown => by rw [State.usbPullup_settled (by rw [hoff, hdown]; rfl)],
      fun hup => by rw [State.usbPullup_detach (by rw [hoff]; rfl) hup]⟩
  case ports =>
    exact fun n s hgrant => ⟨execUsbOvercurrent_granted hgrant n, fun hpower =>
      ⟨execPortConnectChange_connect hgrant hpower, execPortConnectChange_disconnect hgrant hpower⟩⟩
  case asleep =>
    intro s hsusp
    have hasleep := s.usb.asleep_iff.mpr hsusp
    exact ⟨execUsbResumeEnd_resumed hasleep, fun hcancelled hdriving hreleased hretry hgave hreasons =>
      have hdecide := execRemoteWakeDecision_due hasleep hcancelled hdriving hreleased hretry hgave hreasons
      ⟨hdecide true, hdecide false⟩⟩
  case fail =>
    intro s t hreleased hk ht
    have hexec : exec .remoteWakeFail s = _ := execRemoteWakeFail_released hreleased hk ht
    rw [hexec]
    exact ⟨fun hleft => by rw [if_pos hleft], fun hlast => by rw [if_neg (by omega)]⟩

end Sys2Proof.Machine
end

section
/-! What every command and every step keep: the queue and the clock are `step`'s own, the log and the fuses only grow, the memories
stay in canonical form, and a store is read back. -/

namespace Sys2Proof.Machine

/-! ## One step -/

/-- A property that every part of a step keeps: every command, the taking of one off the queue, and the advance of the clock. -/
structure StepClosed (P : State → Prop) : Prop where
  closed : Closed P
  queue : ∀ s q, P s → P { s with pending := q }
  clock : ∀ s, P s → P s.clkUp

theorem step_closed {P : State → Prop} (hP : StepClosed P) {s t : State} (h : step s = .next t) (hs : P s) : P t := by
  unfold step at h
  split at h
  · cases h
    exact State.tick_kept hP.closed hP.clock hs
  · exact exec_closed hP.closed h (hP.queue _ _ hs)

/-- Settles O53: the canonical form is a `Closed` property that neither the queue nor the clock has a part in. -/
theorem stepKeepsCanonicalForm : Obligations.StepKeepsCanonicalForm :=
  fun _ _ hwf h => step_closed ⟨closed_wf, fun _ _ hs => hs, fun _ hs => hs⟩ h hwf

theorem logGrows_refl (s : State) : LogGrows s s := ⟨[], rfl⟩

theorem fusesGrow_refl (s : State) : FusesGrow s s := ⟨BitVec.and_self, le_rfl⟩

/-- Settles O56: the growth of the fuses is a `Closed` property that neither the queue nor the clock has a part in. -/
theorem fusesOnlyGrow : Obligations.FusesOnlyGrow :=
  fun s _ h => step_closed ⟨closed_fuses s, fun _ _ hs => hs, fun _ hs => hs⟩ h (fusesGrow_refl s)

/-- Settles O55: each of the four is a `Closed` property. -/
theorem commandsKeepQueueAndClock : Obligations.CommandsKeepQueueAndClock :=
  fun _ s _ h => ⟨exec_closed (closed_pending _) h rfl, exec_closed (closed_clk _) h rfl, exec_closed (closed_log s) h (logGrows_refl s),
    exec_closed (closed_freeCtr _) h le_rfl⟩

/-- Settles O51: `step` takes the front command off the queue. -/
theorem stepRunsFrontCommand : Obligations.StepRunsFrontCommand := by
  intro c rest s hq
  rw [step, hq]

/-! ## One nanosecond (R510, R535) -/

theorem State.tick_clk (s : State) : s.tick.clk = s.clk + 1 :=
  have hup : s.dtbTick.clkUp.clk = s.clk + 1 := congrArg (· + 1) (State.dtbTick_kept (closed_clk s.clk) rfl)
  have hC := closed_clk (s.clk + 1)
  State.ep1In_kept hC (State.lockTick_kept hC (State.slowClock_kept hC hup))

theorem State.dtbTick_off {s : State} (h : s.granted 12 = false) : s.dtbTick = s := if_neg (by simp [h])

theorem State.ep1In_sends {s : State} {p : Bytes} {more : List Bytes} (hlive : s.ep1Live = true) (hresp : s.usb.resp = p :: more) :
    s.ep1In = (s.updUsb (fun u => { u with resp := more })).send (.usbData 1 p) := by
  rw [State.ep1In, hlive, hresp]

theorem State.ep1In_idle {s : State} (h : s.ep1Live = false ∨ s.usb.resp = []) : s.ep1In = s := by
  unfold State.ep1In
  split
  next hlive hresp => simp [hlive, hresp] at h
  next => rfl

/-- A pair of registers after it is stored. -/
theorem State.pair_setPair (s : State) {lo hi v : Nat} (hne : lo ≠ hi) (hv : v < 2 ^ 64) : (s.setPair lo hi v).pair lo hi = v := by
  rw [State.pair, State.setPair, State.reg_setReg_same, State.reg_setReg_other _ _ hne, State.reg_setReg_same]
  simp only [BitVec.toNat_ofNat]
  omega

theorem toSigned_toNat (w : Word) : toSigned 32 w.toNat = w.toInt := by
  rw [toSigned, BitVec.toInt_eq_toNat_cond]
  split <;> split <;> omega

/-- DTB_RATE in force (R510): a magnitude above 2^22 acts as 2^22. -/
theorem State.dtbRate_eq (s : State) : s.dtbRate = max (-(2 ^ 22)) (min (2 ^ 22) (s.reg R.DTB_RATE).toInt) := by
  rw [State.dtbRate, toSigned_toNat, clampI]
  split
  · omega
  · split <;> omega

/-- R510: what the DTB advances by in a nanosecond in which no slew is under way. -/
theorem State.dtbTick_running {s : State} (hgrant : s.granted 12 = true) (hslew : s.dtb.slewLeft = 0) :
    s.dtbTick.dtbNow = (s.dtbNow + dtbAdvance s.dtb.frac s.dtbRate) % 2 ^ 64 ∧
    s.dtbTick.dtb.frac = ((s.dtb.frac + s.dtbRate) % 2 ^ 32).toNat := by
  have hstep : s.dtb.slewStep = 0 := by simp [DtbSt.slewStep, hslew]
  rw [State.dtbTick, if_pos hgrant]
  refine ⟨?_, rfl⟩
  show (s.setPair R.DTB_LO R.DTB_HI _).pair R.DTB_LO R.DTB_HI = _
  rw [State.pair_setPair _ (by decide) (by omega), hstep]
  omega

/-- Settles O52: a step on an empty queue is `tick`, whose parts move the time base, the main clock and EP1 IN. -/
theorem idleStepCountsTime : Obligations.IdleStepCountsTime := by
  intro s t hq h
  have ht : t = s.tick := by
    rw [step, hq] at h
    exact (Host.Outcome.next.inj h).symm
  subst ht
  refine ⟨rfl, State.tick_kept (closed_pending []) (fun _ hs => hs) hq, s.tick_clk,
    State.tick_kept (closed_log s) (fun _ hs => hs) (logGrows_refl s), State.dtbTick_off, fun p more => State.ep1In_sends,
    State.ep1In_idle, ?_⟩
  rintro _ _ hgrant hslew rfl rfl
  rw [← s.dtbRate_eq]
  obtain ⟨hnow, hfrac⟩ := State.dtbTick_running hgrant hslew
  exact ⟨hnow.trans (by rw [dtbAdvance]), hfrac⟩

/-! ## Reset (Tables 1.7, 1.9) -/

theorem State.reg_reset (off : Nat) : State.reset.reg off = coldWord off := rfl

/-- Settles O54: at reset every table is empty, so every register and thread reads as it does unlisted. -/
theorem resetState : Obligations.ResetState := by
  refine ⟨rfl, rfl, rfl, rfl, State.reg_reset, by decide +kernel, by decide +kernel, by decide +kernel, fun k => ?_⟩
  show (threadDflt k).state = _
  unfold threadDflt
  split <;> rfl

/-! ## Memory -/

/-- Settles O60: a store keeps the canonical form, and each byte of memory reads as what was last stored there. -/
theorem memoryReadsBack : Obligations.MemoryReadsBack := by
  intro s addr bs hwf
  refine ⟨State.poke_kept closed_wf addr bs hwf, ?_, fun a ha => State.byteAt_poke_other bs s addr a ha⟩
  refine List.ext_getElem (by simp [State.peekBytes]) fun i hi hbs => ?_
  simp [State.peekBytes, State.byteAt_poke_same bs s addr i hbs, hbs]

end Sys2Proof.Machine
end

section
/-! The sums, products, bit counts, rounding modes and branches of 04 and 05 (Tables 4.4, 4.5, 5.3, 5.7, 5.12, 5.13). -/

namespace Sys2Proof.Machine

/-! ## Sums and differences (R155, R157, R159) -/

/-- What a 32-bit register-register instruction gives. -/
theorem rOp_gives {i : Instr} {s : State} {t : Thr} {rd ra rb : BitVec 5} {g : Thread → Nat → Word → Word → Thread}
    {P : State → Prop} {b : Thread} (h : CanIssue s t 4) (ei : exec i s = .next (s.rOp t rd ra rb g))
    (eg : g (s.own t) rd.toNat ((s.own t).gr ra.toNat) ((s.own t).gr rb.toNat) = b)
    (p : P (s.setThr (thrKey t) { b with pc := (s.own t).pc + BitVec.ofNat 32 4 })) : ∃ u, exec i s = .next u ∧ P u :=
  plain_gives h ei eg p

/-- NEG is the difference of 0. -/
theorem addCV_neg (x : Word) : addCV 0 (~~~ x) true = (-x, decide (x = 0), !fits 32 (-x.toInt)) := by
  rw [addCV_diff]
  refine Prod.ext (BitVec.zero_sub x) (Prod.ext (decide_eq_decide.mpr ?_) (by simp))
  rw [← BitVec.toNat_inj]
  simp

/-- ADDI, its operands known. -/
theorem execAddi_next {s : State} {t : Thr} {f : AddiForm} {n rd : Nat} {x y : Word} (e : addiArgs (s.own t) f = (n, rd, x, y)) :
    exec (.addi t f) s = .next (s.plain (thrKey t) n (fun th =>
      let a := addiArgs th f; th.putSum a.2.1 (addCV a.2.2.1 a.2.2.2 false))) := by
  rw [show n = (addiArgs (s.own t) f).1 by rw [e]]
  rfl

/-- Settles O1: every one of them puts a result of `addCV` with `putSum`, whose result and flags `givesCV_putSum` gives. -/
theorem sumsAndDifferences : Obligations.SumsAndDifferences := by
  refine ⟨fun t f s n rd x y e h => ?_, fun t f s n rd x y e h => ?_, fun t f s n rd x y e h => ?_, ?_, ?_, ?_, ?_, ?_⟩
  · exact alu_gives e h rfl (by rw [addCV_sum]) (givesCV_putSum s t n rd _ _ _)
  · exact alu_gives e h rfl (by rw [addCV_diff]) (givesCV_putSum s t n rd _ _ _)
  · exact plain_gives h (execAddi_next e) (by simp only [e, addCV_sum]) (givesCV_putSum s t n rd _ _ _)
  · rintro t rd rs s _ _ rfl rfl h
    exact plain_gives h rfl (by rw [addCV_diff]) (givesCV_putSum s t 2 0 _ _ _)
  · rintro t rs imm s _ _ rfl rfl h
    exact plain_gives h rfl (by rw [addCV_diff]) (givesCV_putSum s t 2 0 _ _ _)
  · rintro t rd rs s _ rfl h
    exact plain_gives h rfl (by rw [addCV_neg]) (givesCV_putSum s t 2 _ _ _ _)
  · rintro t rd ra rb s _ _ _ rfl rfl rfl h
    exact rOp_gives h rfl (by rw [addCV_eq]) (givesCV_putSum s t 4 _ _ _ _)
  · rintro t rd ra rb s _ _ _ rfl rfl rfl h
    exact rOp_gives h rfl (by rw [addCV_eq]) (givesCV_putSum s t 4 _ _ _ _)

/-! ## Moves and products (R155, R157, R159) -/

theorem toNat_append_add {v w : Nat} (a : BitVec v) (b : BitVec w) : (a ++ b).toNat = a.toNat * 2 ^ w + b.toNat := by
  rw [BitVec.toNat_append, ← Nat.shiftLeft_add_eq_or_of_lt b.isLt, Nat.shiftLeft_eq]

theorem shiftLeft_16_eq_append (imm : BitVec 16) : imm.zeroExtend 32 <<< 16 = (imm ++ (0 : BitVec 16) : BitVec 32) := by
  apply BitVec.eq_of_toNat_eq
  have := imm.isLt
  rw [toNat_append_add, BitVec.toNat_shiftLeft, BitVec.toNat_setWidth, Nat.shiftLeft_eq]
  simp
  omega

theorem signedHigh_eq (x y : Word) :
    BitVec.ofInt 32 (x.toInt * y.toInt / 2 ^ 32) = (x.signExtend 64 * y.signExtend 64).extractLsb' 32 32 := by
  have hprod : x.signExtend 64 * y.signExtend 64 = BitVec.ofInt 64 (x.toInt * y.toInt) := by
    rw [BitVec.signExtend, BitVec.signExtend, BitVec.ofInt_mul]
  rw [hprod]
  apply BitVec.eq_of_toNat_eq
  rw [BitVec.extractLsb'_toNat, BitVec.toNat_ofInt, BitVec.toNat_ofInt, Nat.shiftRight_eq_div_pow]
  generalize x.toInt * y.toInt = p
  omega

theorem unsignedHigh_eq (x y : Word) :
    BitVec.ofNat 32 (x.toNat * y.toNat / 2 ^ 32) = (x.zeroExtend 64 * y.zeroExtend 64).extractLsb' 32 32 := by
  have hx := x.isLt
  have hy := y.isLt
  have hxy : x.toNat * y.toNat < 2 ^ 64 := by simpa using Nat.mul_lt_mul'' hx hy
  apply BitVec.eq_of_toNat_eq
  rw [BitVec.extractLsb'_toNat, BitVec.toNat_mul, BitVec.toNat_setWidth, BitVec.toNat_setWidth, BitVec.toNat_ofNat,
    Nat.mod_eq_of_lt (show x.toNat < 2 ^ 64 by omega), Nat.mod_eq_of_lt (show y.toNat < 2 ^ 64 by omega), Nat.mod_eq_of_lt hxy,
    Nat.shiftRight_eq_div_pow]

theorem slt_iff_toInt (x y : Word) : x.slt y = true ↔ x.toInt < y.toInt := by simp [BitVec.slt]

theorem ult_iff_toNat (x y : Word) : x.ult y = true ↔ x.toNat < y.toNat := by simp [BitVec.ult]

theorem min_signed (x y : Word) : (if x.toInt ≤ y.toInt then x else y) = if x.slt y then x else y := by
  rcases Int.lt_trichotomy x.toInt y.toInt with h | h | h
  · simp [slt_iff_toInt, h, h.le]
  · simp [BitVec.eq_of_toInt_eq h]
  · simp [slt_iff_toInt, h.not_ge, h.not_gt]

theorem max_signed (x y : Word) : (if x.toInt ≤ y.toInt then y else x) = if x.slt y then y else x := by
  rcases Int.lt_trichotomy x.toInt y.toInt with h | h | h
  · simp [slt_iff_toInt, h, h.le]
  · simp [BitVec.eq_of_toInt_eq h]
  · simp [slt_iff_toInt, h.not_ge, h.not_gt]

theorem min_unsigned (x y : Word) : (if x.toNat ≤ y.toNat then x else y) = if x.ult y then x else y := by
  rcases Nat.lt_trichotomy x.toNat y.toNat with h | h | h
  · simp [ult_iff_toNat, h, h.le]
  · simp [BitVec.eq_of_toNat_eq h]
  · simp [ult_iff_toNat, h.not_ge, h.not_gt]

theorem max_unsigned (x y : Word) : (if x.toNat ≤ y.toNat then y else x) = if x.ult y then y else x := by
  rcases Nat.lt_trichotomy x.toNat y.toNat with h | h | h
  · simp [ult_iff_toNat, h, h.le]
  · simp [BitVec.eq_of_toNat_eq h]
  · simp [ult_iff_toNat, h.not_ge, h.not_gt]

/-- Settles O3: each puts its result with `setG`. -/
theorem movesAndProducts : Obligations.MovesAndProducts := by
  refine ⟨fun t rd rs s h => ?_, fun t rd imm s h => ?_, fun t rd imm s h => ?_, ?_⟩
  · exact plain_gives h rfl rfl (gives_setG s t 2 _ _)
  · exact plain_gives h rfl rfl (gives_setG s t 2 _ _)
  · exact plain_gives h rfl (congrArg ((s.own t).setG rd.toNat) (shiftLeft_16_eq_append imm)) (gives_setG s t 4 _ _)
  rintro t rd ra rb s x y rfl rfl h
  refine ⟨?_, ?_, ?_, ?_, ?_, ?_, ?_⟩
  · exact rOp_gives h rfl rfl (gives_setG s t 4 _ _)
  · exact rOp_gives h rfl (by rw [signedHigh_eq]) (gives_setG s t 4 _ _)
  · exact rOp_gives h rfl (by rw [unsignedHigh_eq]) (gives_setG s t 4 _ _)
  · exact rOp_gives h rfl (by rw [min_signed]) (gives_setG s t 4 _ _)
  · exact rOp_gives h rfl (by rw [max_signed]) (gives_setG s t 4 _ _)
  · exact rOp_gives h rfl (by rw [min_unsigned]) (gives_setG s t 4 _ _)
  · exact rOp_gives h rfl (by rw [max_unsigned]) (gives_setG s t 4 _ _)

/-! ## Byte reversal, counts and extract (Table 5.7) -/

theorem bswap32_eq (x : Word) :
    bswap32 x = x.extractLsb' 0 8 ++ x.extractLsb' 8 8 ++ x.extractLsb' 16 8 ++ x.extractLsb' 24 8 := by
  have hx := x.isLt
  apply BitVec.eq_of_toNat_eq
  simp only [bswap32, beNat, leBytes, List.reverse_cons, List.reverse_nil, List.nil_append, List.cons_append, leNat,
    toNat_append_add, BitVec.extractLsb'_toNat, BitVec.toNat_ofNat, Nat.shiftRight_eq_div_pow, Nat.pow_zero, Nat.div_one,
    Nat.div_div_eq_div_mul]
  generalize x.toNat = n at *
  norm_num
  omega

theorem popNat_eq (n : Nat) : ∀ x, popNat n x = (List.range n).countP (fun i => x.testBit i) := by
  induction n with
  | zero => intro x; rfl
  | succ n ih =>
    intro x
    have hbit : (if x.testBit 0 = true then 1 else 0) = x % 2 := by
      rw [Nat.testBit_zero]
      rcases Nat.mod_two_eq_zero_or_one x with h | h <;> simp [h]
    rw [popNat, ih, List.range_succ_eq_map, List.countP_cons, List.countP_map, hbit, add_comm]
    simp only [Nat.testBit_div_two, Function.comp_def, Nat.succ_eq_add_one]

/-- The leading zeros of a word, and the 1 that ends them. -/
theorem clz_bits (x : Word) : let c := if x = 0 then 32 else 31 - Nat.log2 x.toNat
    c ≤ 32 ∧ (∀ i, 32 - c ≤ i → x.getLsbD i = false) ∧ (c < 32 → x.getLsbD (31 - c) = true) := by
  by_cases hx : x = 0
  · subst hx; simp
  · have hne : x.toNat ≠ 0 := fun h => hx (BitVec.eq_of_toNat_eq h)
    have hlog : Nat.log2 x.toNat < 32 := (Nat.log2_lt hne).mpr x.isLt
    rw [if_neg hx]
    refine ⟨by omega, fun i hi => ?_, fun _ => ?_⟩
    · exact Nat.testBit_lt_two_pow (lt_of_lt_of_le Nat.lt_log2_self (Nat.pow_le_pow_right (by decide) (by omega)))
    · rw [show 31 - (31 - Nat.log2 x.toNat) = Nat.log2 x.toNat by omega]
      exact Nat.testBit_log2 hne

theorem getLsbD_extu32 (x y : Word) (i : Nat) :
    (extu32 x y).getLsbD i = (decide (i < y.toNat / 2 ^ 8 % 64) && x.getLsbD (y.toNat % 32 + i)) := by
  have hbit : (extu32 x y).getLsbD i =
      (decide (i < 32) && (decide (i < min (y.toNat / 2 ^ 8 % 64) 32) && x.getLsbD (y.toNat % 32 + i))) := by
    rw [extu32, BitVec.getLsbD_ofNat, Nat.testBit_mod_two_pow, Nat.testBit_div_two_pow, Nat.add_comm i]
    rfl
  rw [hbit]
  by_cases hi : i < 32
  · simp [hi]
  · rw [BitVec.getLsbD_of_ge x _ (by omega)]
    simp

/-- BSWAP, its operands known. -/
theorem execBswap_next {s : State} {t : Thr} {f : UnaryForm} {n rd : Nat} {x : Word} (e : unaryArgs (s.own t) f = (n, rd, x)) :
    exec (.bswap t f) s = .next (s.plain (thrKey t) n (fun th => let a := unaryArgs th f; th.setG a.2.1 (bswap32 a.2.2))) := by
  rw [show n = (unaryArgs (s.own t) f).1 by rw [e]]
  rfl

/-- Settles O4: each puts with `setG` a result whose bits the lemmas above give. -/
theorem bitCountsAndExtracts : Obligations.BitCountsAndExtracts := by
  refine ⟨fun t f s n rd x e h => ?_, ?_⟩
  · exact plain_gives h (execBswap_next e) (by simp only [e, bswap32_eq]) (gives_setG s t n rd _)
  rintro t rd ra rb s x y rfl rfl h
  refine ⟨?_, ?_, ?_⟩
  · obtain ⟨u, hu, hg⟩ := rOp_gives (i := .clz t rd ra) (P := fun u => Gives s u t 4 rd.toNat (clz32 _)) h rfl rfl (gives_setG s t 4 _ _)
    exact ⟨u, _, hu, hg, clz_bits _⟩
  · exact rOp_gives h rfl (by rw [popNat_eq]; rfl) (gives_setG s t 4 _ _)
  · obtain ⟨u, hu, hg⟩ := rOp_gives (i := .extu t rd ra rb) (P := fun u => Gives s u t 4 rd.toNat (extu32 _ _)) h rfl rfl (gives_setG s t 4 _ _)
    exact ⟨u, _, hu, hg, getLsbD_extu32 _ _⟩

/-! ## Rounding (R108, Table 4.5) -/

theorem ediv_bounds (x : Int) {p : Int} (hp : 0 < p) : x / p * p ≤ x ∧ x < (x / p + 1) * p :=
  ⟨Int.ediv_mul_le x hp.ne', Int.lt_ediv_add_one_mul_self x hp⟩

theorem roundShift_floor (x : Int) (k : Nat) :
    roundShift 0 x k * 2 ^ k ≤ x ∧ x < (roundShift 0 x k + 1) * 2 ^ k := by
  have h := ediv_bounds x (p := 2 ^ k) (by positivity)
  simpa [roundShift] using h

theorem roundShift_nearest (x : Int) (k : Nat) :
    2 * x - 2 ^ k < 2 * (roundShift 1 x k * 2 ^ k) ∧ 2 * (roundShift 1 x k * 2 ^ k) ≤ 2 * x + 2 ^ k := by
  have hp : (0 : Int) < 2 ^ k := by positivity
  have he : roundShift 1 x k = (2 * x + 2 ^ k) / (2 * 2 ^ k) := by simp [roundShift]
  obtain ⟨hlow, hhigh⟩ := ediv_bounds (2 * x + 2 ^ k) (p := 2 * 2 ^ k) (by positivity)
  rw [he]
  constructor <;> linarith

/-- The three branches of the convergent mode: below the half, above it, and the half, which goes to the even neighbour. -/
theorem roundShift_convergent (x : Int) (k : Nat) :
    2 * x - 2 ^ k ≤ 2 * (roundShift 2 x k * 2 ^ k) ∧ 2 * (roundShift 2 x k * 2 ^ k) ≤ 2 * x + 2 ^ k ∧
      (2 * (roundShift 2 x k * 2 ^ k) = 2 * x - 2 ^ k ∨ 2 * (roundShift 2 x k * 2 ^ k) = 2 * x + 2 ^ k →
        roundShift 2 x k % 2 = 0) := by
  have hp : (0 : Int) < 2 ^ k := by positivity
  have he : roundShift 2 x k = if 2 * (x - x / 2 ^ k * 2 ^ k) < 2 ^ k then x / 2 ^ k
      else if 2 ^ k < 2 * (x - x / 2 ^ k * 2 ^ k) then x / 2 ^ k + 1
      else if x / 2 ^ k % 2 = 0 then x / 2 ^ k else x / 2 ^ k + 1 := by simp [roundShift]
  obtain ⟨hlow, hhigh⟩ := ediv_bounds x hp
  rw [add_mul, one_mul] at hhigh
  rw [he]
  generalize x / 2 ^ k = q at *
  generalize (2 : Int) ^ k = p at *
  have hup : (q + 1) * p = q * p + p := by ring
  split
  · generalize q * p = m at *; omega
  · split
    · rw [hup]; generalize q * p = m at *; omega
    · split
      · generalize q * p = m at *; omega
      · rw [hup]; generalize q * p = m at *; omega

/-- Settles O7, a lemma for each mode. -/
theorem roundingModes : Obligations.RoundingModes :=
  fun x k _ => ⟨⟨roundShift_floor x k, roundShift_nearest x k, roundShift_convergent x k⟩, rfl⟩

/-! ## Branches (R153, R154, R170, Tables 5.12, 5.13) -/

/-- A branch whose condition is known. -/
theorem State.branch_taken {s : State} {t : Thr} {n : Nat} (h : CanIssue s t n) (off : Word) {cond : Thread → Bool}
    (hc : cond (s.own t) = true) :
    s.branch (thrKey t) n off cond = s.setThr (thrKey t) { s.own t with pc := (s.own t).pc + off * 2 } := by
  rw [State.branch_next h, if_pos hc]

theorem State.branch_fallsThrough {s : State} {t : Thr} {n : Nat} (h : CanIssue s t n) (off : Word) {cond : Thread → Bool}
    (hc : cond (s.own t) = false) :
    s.branch (thrKey t) n off cond = s.setThr (thrKey t) { s.own t with pc := (s.own t).pc + BitVec.ofNat 32 n } := by
  rw [State.branch_next h, if_neg (by simp [hc])]

theorem execBcond_args {f : BccForm} {n : Nat} {c : Cond} {off : Word} (e : bccArgs f = (n, c, off)) (t : Thr) (s : State) :
    exec (.bcond t f) s = .next (s.branch (thrKey t) n off (fun th => th.holds c)) := by
  show Host.Outcome.next (s.branch _ (bccArgs f).1 (bccArgs f).2.2 (fun th => th.holds (bccArgs f).2.1)) = _
  rw [e]

theorem execBz_args {f : BzForm} {n r : Nat} {off : Word} (e : bzArgs f = (n, r, off)) (t : Thr) (s : State) :
    exec (.bz t f) s = .next (s.branch (thrKey t) n off (fun th => th.gr r == 0)) ∧
    exec (.bnz t f) s = .next (s.branch (thrKey t) n off (fun th => th.gr r != 0)) := by
  constructor
  · show Host.Outcome.next (s.branch _ (bzArgs f).1 (bzArgs f).2.2 (fun th => th.gr (bzArgs f).2.1 == 0)) = _
    rw [e]
  · show Host.Outcome.next (s.branch _ (bzArgs f).1 (bzArgs f).2.2 (fun th => th.gr (bzArgs f).2.1 != 0)) = _
    rw [e]

/-- Settles O8: each is a `branch`, taken or not as its condition says; JR takes its target from a register. -/
theorem branchesAndJumps : Obligations.BranchesAndJumps := by
  refine ⟨fun t off s h => ?_, fun t off s h => ?_, fun t rs s h => ?_, fun t f s n c off e h => ⟨fun hc => ?_, fun hc => ?_⟩,
    fun t f s n r off e h => ?_⟩
  · exact congrArg Host.Outcome.next (State.branch_taken h _ rfl)
  · exact congrArg Host.Outcome.next (State.branch_taken h _ rfl)
  · exact congrArg Host.Outcome.next (State.issue_next h _)
  · rw [execBcond_args e, State.branch_taken h off hc]
  · rw [execBcond_args e, State.branch_fallsThrough h off hc]
  obtain ⟨hbz, hbnz⟩ := execBz_args e t s
  rw [hbz, hbnz]
  constructor <;> intro hr
  · rw [State.branch_taken h off (by simp [hr]), State.branch_fallsThrough h off (by simp [hr])]
    exact ⟨rfl, rfl⟩
  · rw [State.branch_taken (cond := fun th => th.gr r != 0) h off (bne_iff_ne.mpr hr),
      State.branch_fallsThrough (cond := fun th => th.gr r == 0) h off (beq_eq_false_iff_ne.mpr hr)]
    exact ⟨rfl, rfl⟩

theorem sub_beq_zero (x y : Word) : (x - y == 0) = decide (x = y) := by
  rw [Bool.eq_iff_iff, beq_iff_eq, decide_eq_true_eq]
  exact sub_eq_zero

/-- N ≠ V after a comparison says that the signed difference is negative. -/
theorem msb_bne_overflow (x y : Word) : ((x - y).msb != !fits 32 (x.toInt - y.toInt)) = x.slt y := by
  have hx := BitVec.toInt_lt (x := x)
  have hx' := BitVec.le_toInt x
  have hy := BitVec.toInt_lt (x := y)
  have hy' := BitVec.le_toInt y
  rw [BitVec.msb_eq_toInt, BitVec.toInt_sub, Int.bmod_def, Bool.eq_iff_iff]
  simp only [fits, BitVec.slt, bne_iff_ne, ne_eq, ← decide_not, decide_eq_decide, decide_eq_true_eq]
  norm_num at *
  split <;> omega

theorem msb_beq_overflow (x y : Word) : ((x - y).msb == !fits 32 (x.toInt - y.toInt)) = y.sle x := by
  rw [BitVec.sle_eq_not_slt, ← msb_bne_overflow, bne, Bool.not_not]

theorem ule_and_ne (x y : Word) : (y.ule x && !decide (x = y)) = y.ult x := by
  rw [Bool.eq_iff_iff, ult_iff_toNat]
  simp [BitVec.ule, ← BitVec.toNat_inj]
  omega

theorem sle_and_ne (x y : Word) : (!decide (x = y) && y.sle x) = y.slt x := by
  rw [Bool.eq_iff_iff, slt_iff_toInt]
  simp [BitVec.sle, ← BitVec.toInt_inj]
  omega

theorem ult_or_eq (x y : Word) : (x.ult y || decide (x = y)) = x.ule y := by
  rw [Bool.eq_iff_iff, Bool.or_eq_true, ult_iff_toNat]
  simp [BitVec.ule, ← BitVec.toNat_inj]
  omega

theorem eq_or_slt (x y : Word) : (decide (x = y) || x.slt y) = x.sle y := by
  rw [Bool.eq_iff_iff, Bool.or_eq_true, slt_iff_toInt]
  simp [BitVec.sle, ← BitVec.toInt_inj]
  omega

theorem not_ule (x y : Word) : (!y.ule x) = x.ult y := by rw [BitVec.ule_eq_not_ult, Bool.not_not]

/-- Settles O9: C = 1 is `y ≤ x`, Z is `x = y`, and N ≠ V is the signed `x < y`. -/
theorem conditionsAfterCompare : Obligations.ConditionsAfterCompare := by
  intro a x y hz hn hc hv
  rw [sub_beq_zero] at hz
  have hc' : a.fc = y.ule x := hc
  have hlt : (a.fn != a.fv) = x.slt y := by rw [hn, hv, msb_bne_overflow]
  have hge : (a.fn == a.fv) = y.sle x := by rw [hn, hv, msb_beq_overflow]
  refine ⟨rfl, hz, ?_, ?_, hc', ?_, ?_, hlt, hge, ?_, ?_, hn, congrArg not hn, hv, ?_, rfl⟩
  · show (!a.fz) = _
    rw [hz, decide_not]
  · show (!a.fc) = _
    rw [hc', not_ule]
  · show (a.fc && !a.fz) = _
    rw [hc', hz, ule_and_ne]
  · show (!a.fc || a.fz) = _
    rw [hc', hz, not_ule, ult_or_eq]
  · show (!a.fz && a.fn == a.fv) = _
    rw [hge, hz, sle_and_ne]
  · show (a.fz || a.fn != a.fv) = _
    rw [hlt, hz, eq_or_slt]
  · show (!a.fv) = _
    rw [hv, Bool.not_not]

end Sys2Proof.Machine
end

section
/-! The decoder reads back what the encoder writes (R147, R155–R157, Tables 5.2–5.16): the fields of each format, then each instruction. -/

namespace Sys2Proof

open BitVec

/-! ## Fields of a word -/

/-- A field of the low halfword is a field of the word. -/
theorem hbits_wbits (w : Word) {lo n : Nat} (h : lo + n ≤ 16) : hbits (wbits w 0 16) lo n = wbits w lo n := by
  refine BitVec.eq_of_getLsbD_eq fun i hi => ?_
  simp only [hbits, wbits, getLsbD_extractLsb', Nat.zero_add]
  simp [show lo + i < 16 by omega]

/-- A word whose bits 15:14 are 0b11 is a 32-bit instruction. -/
theorem decodeWord_wide {w : Word} (h : wbits w 14 2 = 3) : decodeWord w = decode32 w := by
  have hw : isWide (wbits w 0 16) = true := by simp [isWide, hbits_wbits, h]
  rw [decodeWord, if_pos hw]

/-- The two highest bits of a halfword are those of its highest nibble. -/
theorem isWide_nibble (h : BitVec 16) : isWide h = ((hbits h 12 4).extractLsb' 2 2 == 3) := by
  have hb : hbits h 14 2 = (hbits h 12 4).extractLsb' 2 2 := by
    refine BitVec.eq_of_getLsbD_eq fun i hi => ?_
    simp only [hbits, getLsbD_extractLsb', show 12 + (2 + i) = 14 + i by omega]
    simp [hi, show 2 + i < 4 by omega]
  rw [isWide, hb]

/-- A halfword in a word's low half, its highest nibble below 0xC, is a 16-bit instruction. -/
theorem decodeWord_narrow {h : BitVec 16} {a : BitVec 4} (ha : hbits h 12 4 = a) (hn : (a.extractLsb' 2 2 == 3) = false) :
    decodeWord ((0 : BitVec 16) ++ h) = decode16 h := by
  have hh : wbits ((0 : BitVec 16) ++ h) 0 16 = h := (extractLsb'_append_eq_of_add_le (by decide)).trans extractLsb'_eq_self
  rw [decodeWord, hh, isWide_nibble, ha, hn]
  rfl

/-- A part of a field. -/
theorem wbits_part (w : Word) {lo len i n : Nat} (h : i + n ≤ len) : wbits w (lo + i) n = (wbits w lo len).extractLsb' i n := by
  refine BitVec.eq_of_getLsbD_eq fun j hj => ?_
  simp only [wbits, getLsbD_extractLsb']
  simp [hj, show i + j < len by omega, Nat.add_assoc]

/-! ## 16-bit formats (Table 5.2) -/

section Nibbles

variable (a b c d : BitVec 4)

/-- Four nibbles (C.ALU, C.LDW, C.STW, C.JR). -/
def nibbleForm (a b c d : BitVec 4) : BitVec 16 :=
  a ++ b ++ c ++ d

@[simp] theorem nibbleForm_d : hbits (nibbleForm a b c d) 0 4 = d := by
  rw [hbits, nibbleForm, extractLsb'_append_eq_of_add_le (by decide), extractLsb'_eq_self]

@[simp] theorem nibbleForm_c : hbits (nibbleForm a b c d) 4 4 = c := by
  rw [hbits, nibbleForm, extractLsb'_append_eq_of_le (by decide), extractLsb'_append_eq_of_add_le (by decide),
    extractLsb'_eq_self]

@[simp] theorem nibbleForm_b : hbits (nibbleForm a b c d) 8 4 = b := by
  rw [hbits, nibbleForm, extractLsb'_append_eq_of_le (by decide), extractLsb'_append_eq_of_le (by decide),
    extractLsb'_append_eq_of_add_le (by decide), extractLsb'_eq_self]

@[simp] theorem nibbleForm_a : hbits (nibbleForm a b c d) 12 4 = a := by
  rw [hbits, nibbleForm, extractLsb'_append_eq_of_le (by decide), extractLsb'_append_eq_of_le (by decide),
    extractLsb'_append_eq_of_le (by decide), extractLsb'_eq_self]

end Nibbles

section Bytes

variable (a b : BitVec 4) (x : BitVec 8)

/-- Two nibbles and a byte. -/
def byteForm (a b : BitVec 4) (x : BitVec 8) : BitVec 16 :=
  a ++ b ++ x

@[simp] theorem byteForm_x : hbits (byteForm a b x) 0 8 = x := by
  rw [hbits, byteForm, extractLsb'_append_eq_of_add_le (by decide), extractLsb'_eq_self]

@[simp] theorem byteForm_b : hbits (byteForm a b x) 8 4 = b := by
  rw [hbits, byteForm, extractLsb'_append_eq_of_le (by decide), extractLsb'_append_eq_of_add_le (by decide), extractLsb'_eq_self]

@[simp] theorem byteForm_a : hbits (byteForm a b x) 12 4 = a := by
  rw [hbits, byteForm, extractLsb'_append_eq_of_le (by decide), extractLsb'_append_eq_of_le (by decide), extractLsb'_eq_self]

end Bytes

section ShiftForms

variable (a rd : BitVec 4) (k : BitVec 2) (z : BitVec 1) (sh : BitVec 5)

/-- C.SHI. -/
def shiftForm (a rd : BitVec 4) (k : BitVec 2) (z : BitVec 1) (sh : BitVec 5) : BitVec 16 :=
  a ++ rd ++ k ++ z ++ sh

@[simp] theorem shiftForm_count : hbits (shiftForm a rd k z sh) 0 5 = sh := by
  rw [hbits, shiftForm, extractLsb'_append_eq_of_add_le (by decide), extractLsb'_eq_self]

@[simp] theorem shiftForm_zero : hbits (shiftForm a rd k z sh) 5 1 = z := by
  rw [hbits, shiftForm, extractLsb'_append_eq_of_le (by decide), extractLsb'_append_eq_of_add_le (by decide), extractLsb'_eq_self]

@[simp] theorem shiftForm_kind : hbits (shiftForm a rd k z sh) 6 2 = k := by
  rw [hbits, shiftForm, extractLsb'_append_eq_of_le (by decide), extractLsb'_append_eq_of_le (by decide),
    extractLsb'_append_eq_of_add_le (by decide), extractLsb'_eq_self]

@[simp] theorem shiftForm_rd : hbits (shiftForm a rd k z sh) 8 4 = rd := by
  rw [hbits, shiftForm, extractLsb'_append_eq_of_le (by decide), extractLsb'_append_eq_of_le (by decide),
    extractLsb'_append_eq_of_le (by decide), extractLsb'_append_eq_of_add_le (by decide), extractLsb'_eq_self]

@[simp] theorem shiftForm_op : hbits (shiftForm a rd k z sh) 12 4 = a := by
  rw [hbits, shiftForm, extractLsb'_append_eq_of_le (by decide), extractLsb'_append_eq_of_le (by decide),
    extractLsb'_append_eq_of_le (by decide), extractLsb'_append_eq_of_le (by decide), extractLsb'_eq_self]

end ShiftForms

section GeneratorForms

variable (a r : BitVec 4) (n : BitVec 2) (st : BitVec 1) (k : BitVec 2) (u : BitVec 1) (z : BitVec 2)

/-- C.AGM. -/
def agForm (a r : BitVec 4) (n : BitVec 2) (st : BitVec 1) (k : BitVec 2) (u : BitVec 1) (z : BitVec 2) : BitVec 16 :=
  a ++ r ++ n ++ st ++ k ++ u ++ z

@[simp] theorem agForm_zero : hbits (agForm a r n st k u z) 0 2 = z := by
  rw [hbits, agForm, extractLsb'_append_eq_of_add_le (by decide), extractLsb'_eq_self]

@[simp] theorem agForm_update : hbits (agForm a r n st k u z) 2 1 = u := by
  rw [hbits, agForm, extractLsb'_append_eq_of_le (by decide), extractLsb'_append_eq_of_add_le (by decide), extractLsb'_eq_self]

@[simp] theorem agForm_kind : hbits (agForm a r n st k u z) 3 2 = k := by
  rw [hbits, agForm, extractLsb'_append_eq_of_le (by decide), extractLsb'_append_eq_of_le (by decide),
    extractLsb'_append_eq_of_add_le (by decide), extractLsb'_eq_self]

@[simp] theorem agForm_store : hbits (agForm a r n st k u z) 5 1 = st := by
  rw [hbits, agForm, extractLsb'_append_eq_of_le (by decide), extractLsb'_append_eq_of_le (by decide),
    extractLsb'_append_eq_of_le (by decide), extractLsb'_append_eq_of_add_le (by decide), extractLsb'_eq_self]

@[simp] theorem agForm_gen : hbits (agForm a r n st k u z) 6 2 = n := by
  rw [hbits, agForm, extractLsb'_append_eq_of_le (by decide), extractLsb'_append_eq_of_le (by decide),
    extractLsb'_append_eq_of_le (by decide), extractLsb'_append_eq_of_le (by decide),
    extractLsb'_append_eq_of_add_le (by decide), extractLsb'_eq_self]

@[simp] theorem agForm_reg : hbits (agForm a r n st k u z) 8 4 = r := by
  rw [hbits, agForm, extractLsb'_append_eq_of_le (by decide), extractLsb'_append_eq_of_le (by decide),
    extractLsb'_append_eq_of_le (by decide), extractLsb'_append_eq_of_le (by decide), extractLsb'_append_eq_of_le (by decide),
    extractLsb'_append_eq_of_add_le (by decide), extractLsb'_eq_self]

@[simp] theorem agForm_op : hbits (agForm a r n st k u z) 12 4 = a := by
  rw [hbits, agForm, extractLsb'_append_eq_of_le (by decide), extractLsb'_append_eq_of_le (by decide),
    extractLsb'_append_eq_of_le (by decide), extractLsb'_append_eq_of_le (by decide), extractLsb'_append_eq_of_le (by decide),
    extractLsb'_append_eq_of_le (by decide), extractLsb'_eq_self]

end GeneratorForms

section BranchForms

variable (a rs : BitVec 4) (nz : BitVec 1) (off : BitVec 7) (far : BitVec 12)

/-- C.BZ. -/
def bzForm (a rs : BitVec 4) (nz : BitVec 1) (off : BitVec 7) : BitVec 16 :=
  a ++ rs ++ nz ++ off

@[simp] theorem bzForm_off : hbits (bzForm a rs nz off) 0 7 = off := by
  rw [hbits, bzForm, extractLsb'_append_eq_of_add_le (by decide), extractLsb'_eq_self]

@[simp] theorem bzForm_nz : hbits (bzForm a rs nz off) 7 1 = nz := by
  rw [hbits, bzForm, extractLsb'_append_eq_of_le (by decide), extractLsb'_append_eq_of_add_le (by decide), extractLsb'_eq_self]

@[simp] theorem bzForm_rs : hbits (bzForm a rs nz off) 8 4 = rs := by
  rw [hbits, bzForm, extractLsb'_append_eq_of_le (by decide), extractLsb'_append_eq_of_le (by decide),
    extractLsb'_append_eq_of_add_le (by decide), extractLsb'_eq_self]

@[simp] theorem bzForm_op : hbits (bzForm a rs nz off) 12 4 = a := by
  rw [hbits, bzForm, extractLsb'_append_eq_of_le (by decide), extractLsb'_append_eq_of_le (by decide),
    extractLsb'_append_eq_of_le (by decide), extractLsb'_eq_self]

/-- C.B. -/
def bForm (a : BitVec 4) (far : BitVec 12) : BitVec 16 :=
  a ++ far

@[simp] theorem bForm_off : hbits (bForm a far) 0 12 = far := by
  rw [hbits, bForm, extractLsb'_append_eq_of_add_le (by decide), extractLsb'_eq_self]

@[simp] theorem bForm_op : hbits (bForm a far) 12 4 = a := by
  rw [hbits, bForm, extractLsb'_append_eq_of_le (by decide), extractLsb'_eq_self]

end BranchForms

/-! ## 32-bit formats (Table 5.5) -/

section Words

variable (op : BitVec 4) (rb rd ra : BitVec 5) (func : BitVec 11) (imm : BitVec 16) (off : BitVec 13) (kind : BitVec 3)

@[simp] theorem encR_ra : wbits (encR op rb func rd ra) 0 5 = ra := by
  rw [wbits, encR, extractLsb'_append_eq_of_add_le (by decide), extractLsb'_eq_self]

@[simp] theorem encR_rd : wbits (encR op rb func rd ra) 5 5 = rd := by
  rw [wbits, encR, extractLsb'_append_eq_of_le (by decide), extractLsb'_append_eq_of_add_le (by decide), extractLsb'_eq_self]

@[simp] theorem encR_op : wbits (encR op rb func rd ra) 10 4 = op := by
  rw [wbits, encR, extractLsb'_append_eq_of_le (by decide), extractLsb'_append_eq_of_le (by decide),
    extractLsb'_append_eq_of_add_le (by decide), extractLsb'_eq_self]

@[simp] theorem encR_wide : wbits (encR op rb func rd ra) 14 2 = 3 := by
  rw [wbits, encR, extractLsb'_append_eq_of_le (by decide), extractLsb'_append_eq_of_le (by decide),
    extractLsb'_append_eq_of_le (by decide), extractLsb'_append_eq_of_add_le (by decide), extractLsb'_eq_self]

@[simp] theorem encR_func : wbits (encR op rb func rd ra) 16 11 = func := by
  rw [wbits, encR, extractLsb'_append_eq_of_le (by decide), extractLsb'_append_eq_of_le (by decide),
    extractLsb'_append_eq_of_le (by decide), extractLsb'_append_eq_of_le (by decide),
    extractLsb'_append_eq_of_add_le (by decide), extractLsb'_eq_self]

@[simp] theorem encR_rb : wbits (encR op rb func rd ra) 27 5 = rb := by
  rw [wbits, encR, extractLsb'_append_eq_of_le (by decide), extractLsb'_append_eq_of_le (by decide),
    extractLsb'_append_eq_of_le (by decide), extractLsb'_append_eq_of_le (by decide), extractLsb'_append_eq_of_le (by decide),
    extractLsb'_eq_self]

@[simp] theorem encI_ra : wbits (encI op imm rd ra) 0 5 = ra := by
  rw [wbits, encI, extractLsb'_append_eq_of_add_le (by decide), extractLsb'_eq_self]

@[simp] theorem encI_rd : wbits (encI op imm rd ra) 5 5 = rd := by
  rw [wbits, encI, extractLsb'_append_eq_of_le (by decide), extractLsb'_append_eq_of_add_le (by decide), extractLsb'_eq_self]

@[simp] theorem encI_op : wbits (encI op imm rd ra) 10 4 = op := by
  rw [wbits, encI, extractLsb'_append_eq_of_le (by decide), extractLsb'_append_eq_of_le (by decide),
    extractLsb'_append_eq_of_add_le (by decide), extractLsb'_eq_self]

@[simp] theorem encI_wide : wbits (encI op imm rd ra) 14 2 = 3 := by
  rw [wbits, encI, extractLsb'_append_eq_of_le (by decide), extractLsb'_append_eq_of_le (by decide),
    extractLsb'_append_eq_of_le (by decide), extractLsb'_append_eq_of_add_le (by decide), extractLsb'_eq_self]

@[simp] theorem encI_imm : wbits (encI op imm rd ra) 16 16 = imm := by
  rw [wbits, encI, extractLsb'_append_eq_of_le (by decide), extractLsb'_append_eq_of_le (by decide),
    extractLsb'_append_eq_of_le (by decide), extractLsb'_append_eq_of_le (by decide), extractLsb'_eq_self]

@[simp] theorem encM_ra : wbits (encM op off kind rd ra) 0 5 = ra := by
  rw [wbits, encM, extractLsb'_append_eq_of_add_le (by decide), extractLsb'_eq_self]

@[simp] theorem encM_rd : wbits (encM op off kind rd ra) 5 5 = rd := by
  rw [wbits, encM, extractLsb'_append_eq_of_le (by decide), extractLsb'_append_eq_of_add_le (by decide), extractLsb'_eq_self]

@[simp] theorem encM_op : wbits (encM op off kind rd ra) 10 4 = op := by
  rw [wbits, encM, extractLsb'_append_eq_of_le (by decide), extractLsb'_append_eq_of_le (by decide),
    extractLsb'_append_eq_of_add_le (by decide), extractLsb'_eq_self]

@[simp] theorem encM_wide : wbits (encM op off kind rd ra) 14 2 = 3 := by
  rw [wbits, encM, extractLsb'_append_eq_of_le (by decide), extractLsb'_append_eq_of_le (by decide),
    extractLsb'_append_eq_of_le (by decide), extractLsb'_append_eq_of_add_le (by decide), extractLsb'_eq_self]

@[simp] theorem encM_kind : wbits (encM op off kind rd ra) 16 3 = kind := by
  rw [wbits, encM, extractLsb'_append_eq_of_le (by decide), extractLsb'_append_eq_of_le (by decide),
    extractLsb'_append_eq_of_le (by decide), extractLsb'_append_eq_of_le (by decide),
    extractLsb'_append_eq_of_add_le (by decide), extractLsb'_eq_self]

@[simp] theorem encM_imm : wbits (encM op off kind rd ra) 19 13 = off := by
  rw [wbits, encM, extractLsb'_append_eq_of_le (by decide), extractLsb'_append_eq_of_le (by decide),
    extractLsb'_append_eq_of_le (by decide), extractLsb'_append_eq_of_le (by decide), extractLsb'_append_eq_of_le (by decide),
    extractLsb'_eq_self]

end Words
section Parts

variable (op : BitVec 4) (rb rd ra : BitVec 5) (func : BitVec 11)

@[simp] theorem encR_rd_0_2 : wbits (encR op rb func rd ra) 5 2 = rd.extractLsb' 0 2 := by
  rw [wbits_part _ (lo := 5) (len := 5) (by decide : 0 + 2 ≤ 5), encR_rd]

@[simp] theorem encR_rd_2_3 : wbits (encR op rb func rd ra) 7 3 = rd.extractLsb' 2 3 := by
  rw [wbits_part _ (lo := 5) (len := 5) (by decide : 2 + 3 ≤ 5), encR_rd]

@[simp] theorem encR_rd_0_3 : wbits (encR op rb func rd ra) 5 3 = rd.extractLsb' 0 3 := by
  rw [wbits_part _ (lo := 5) (len := 5) (by decide : 0 + 3 ≤ 5), encR_rd]

@[simp] theorem encR_rd_3_2 : wbits (encR op rb func rd ra) 8 2 = rd.extractLsb' 3 2 := by
  rw [wbits_part _ (lo := 5) (len := 5) (by decide : 3 + 2 ≤ 5), encR_rd]

@[simp] theorem encR_ra_0_2 : wbits (encR op rb func rd ra) 0 2 = ra.extractLsb' 0 2 := by
  rw [wbits_part _ (lo := 0) (len := 5) (by decide : 0 + 2 ≤ 5), encR_ra]

@[simp] theorem encR_ra_2_3 : wbits (encR op rb func rd ra) 2 3 = ra.extractLsb' 2 3 := by
  rw [wbits_part _ (lo := 0) (len := 5) (by decide : 2 + 3 ≤ 5), encR_ra]

@[simp] theorem encR_ra_0_3 : wbits (encR op rb func rd ra) 0 3 = ra.extractLsb' 0 3 := by
  rw [wbits_part _ (lo := 0) (len := 5) (by decide : 0 + 3 ≤ 5), encR_ra]

@[simp] theorem encR_ra_3_2 : wbits (encR op rb func rd ra) 3 2 = ra.extractLsb' 3 2 := by
  rw [wbits_part _ (lo := 0) (len := 5) (by decide : 3 + 2 ≤ 5), encR_ra]

@[simp] theorem encR_func_0_4 : wbits (encR op rb func rd ra) 16 4 = func.extractLsb' 0 4 := by
  rw [wbits_part _ (lo := 16) (len := 11) (by decide : 0 + 4 ≤ 11), encR_func]

@[simp] theorem encR_func_4_5 : wbits (encR op rb func rd ra) 20 5 = func.extractLsb' 4 5 := by
  rw [wbits_part _ (lo := 16) (len := 11) (by decide : 4 + 5 ≤ 11), encR_func]

@[simp] theorem encR_func_9_2 : wbits (encR op rb func rd ra) 25 2 = func.extractLsb' 9 2 := by
  rw [wbits_part _ (lo := 16) (len := 11) (by decide : 9 + 2 ≤ 11), encR_func]

@[simp] theorem encR_func_4_3 : wbits (encR op rb func rd ra) 20 3 = func.extractLsb' 4 3 := by
  rw [wbits_part _ (lo := 16) (len := 11) (by decide : 4 + 3 ≤ 11), encR_func]

@[simp] theorem encR_func_7_4 : wbits (encR op rb func rd ra) 23 4 = func.extractLsb' 7 4 := by
  rw [wbits_part _ (lo := 16) (len := 11) (by decide : 7 + 4 ≤ 11), encR_func]

@[simp] theorem encR_func_0_3 : wbits (encR op rb func rd ra) 16 3 = func.extractLsb' 0 3 := by
  rw [wbits_part _ (lo := 16) (len := 11) (by decide : 0 + 3 ≤ 11), encR_func]

@[simp] theorem encR_func_3_8 : wbits (encR op rb func rd ra) 19 8 = func.extractLsb' 3 8 := by
  rw [wbits_part _ (lo := 16) (len := 11) (by decide : 3 + 8 ≤ 11), encR_func]

end Parts

section Functions

variable (op : BitVec 4) (h k : BitVec 3) (sh : BitVec 5) (n : BitVec 8)

@[simp] theorem macFunc_op : (0#2 ++ sh ++ op : BitVec 11).extractLsb' 0 4 = op := by
  rw [extractLsb'_append_eq_of_add_le (by decide), extractLsb'_eq_self]

@[simp] theorem macFunc_shift : (0#2 ++ sh ++ op : BitVec 11).extractLsb' 4 5 = sh := by
  rw [extractLsb'_append_eq_of_le (by decide), extractLsb'_append_eq_of_add_le (by decide), extractLsb'_eq_self]

@[simp] theorem macFunc_zero : (0#2 ++ sh ++ op : BitVec 11).extractLsb' 9 2 = 0 := by
  rw [extractLsb'_append_eq_of_le (by decide), extractLsb'_append_eq_of_le (by decide), extractLsb'_eq_self]
  rfl

@[simp] theorem threadFunc_op : (0#4 ++ h ++ op : BitVec 11).extractLsb' 0 4 = op := by
  rw [extractLsb'_append_eq_of_add_le (by decide), extractLsb'_eq_self]

@[simp] theorem threadFunc_helper : (0#4 ++ h ++ op : BitVec 11).extractLsb' 4 3 = h := by
  rw [extractLsb'_append_eq_of_le (by decide), extractLsb'_append_eq_of_add_le (by decide), extractLsb'_eq_self]

@[simp] theorem threadFunc_zero : (0#4 ++ h ++ op : BitVec 11).extractLsb' 7 4 = 0 := by
  rw [extractLsb'_append_eq_of_le (by decide), extractLsb'_append_eq_of_le (by decide), extractLsb'_eq_self]
  rfl

@[simp] theorem systemFunc_op : (n ++ k : BitVec 11).extractLsb' 0 3 = k := by
  rw [extractLsb'_append_eq_of_add_le (by decide), extractLsb'_eq_self]

@[simp] theorem systemFunc_number : (n ++ k : BitVec 11).extractLsb' 3 8 = n := by
  rw [extractLsb'_append_eq_of_le (by decide), extractLsb'_eq_self]

end Functions

section LongForms

variable (op c : BitVec 4) (rs rm far5 : BitVec 5) (imm : BitVec 16) (far6 : BitVec 6) (far10 : BitVec 10) (z4 : BitVec 4) (nz : BitVec 1)
  (z13 : BitVec 13) (kind : BitVec 3) (z1 u st : BitVec 1) (n : BitVec 2)

/-- BCOND. -/
def wideBcond (op c : BitVec 4) (imm : BitVec 16) (far6 : BitVec 6) : Word :=
  imm ++ (3 : BitVec 2) ++ op ++ c ++ far6

@[simp] theorem wideBcond_far : wbits (wideBcond op c imm far6) 0 6 = far6 := by
  rw [wbits, wideBcond, extractLsb'_append_eq_of_add_le (by decide), extractLsb'_eq_self]

@[simp] theorem wideBcond_cond : wbits (wideBcond op c imm far6) 6 4 = c := by
  rw [wbits, wideBcond, extractLsb'_append_eq_of_le (by decide), extractLsb'_append_eq_of_add_le (by decide), extractLsb'_eq_self]

@[simp] theorem wideBcond_op : wbits (wideBcond op c imm far6) 10 4 = op := by
  rw [wbits, wideBcond, extractLsb'_append_eq_of_le (by decide), extractLsb'_append_eq_of_le (by decide),
    extractLsb'_append_eq_of_add_le (by decide), extractLsb'_eq_self]

@[simp] theorem wideBcond_wide : wbits (wideBcond op c imm far6) 14 2 = 3 := by
  rw [wbits, wideBcond, extractLsb'_append_eq_of_le (by decide), extractLsb'_append_eq_of_le (by decide),
    extractLsb'_append_eq_of_le (by decide), extractLsb'_append_eq_of_add_le (by decide), extractLsb'_eq_self]

@[simp] theorem wideBcond_imm : wbits (wideBcond op c imm far6) 16 16 = imm := by
  rw [wbits, wideBcond, extractLsb'_append_eq_of_le (by decide), extractLsb'_append_eq_of_le (by decide),
    extractLsb'_append_eq_of_le (by decide), extractLsb'_append_eq_of_le (by decide), extractLsb'_eq_self]

/-- BZ and BNZ. -/
def wideBz (op : BitVec 4) (rs : BitVec 5) (imm : BitVec 16) (z4 : BitVec 4) (nz : BitVec 1) : Word :=
  imm ++ (3 : BitVec 2) ++ op ++ rs ++ z4 ++ nz

@[simp] theorem wideBz_nz : wbits (wideBz op rs imm z4 nz) 0 1 = nz := by
  rw [wbits, wideBz, extractLsb'_append_eq_of_add_le (by decide), extractLsb'_eq_self]

@[simp] theorem wideBz_zero : wbits (wideBz op rs imm z4 nz) 1 4 = z4 := by
  rw [wbits, wideBz, extractLsb'_append_eq_of_le (by decide), extractLsb'_append_eq_of_add_le (by decide), extractLsb'_eq_self]

@[simp] theorem wideBz_rs : wbits (wideBz op rs imm z4 nz) 5 5 = rs := by
  rw [wbits, wideBz, extractLsb'_append_eq_of_le (by decide), extractLsb'_append_eq_of_le (by decide),
    extractLsb'_append_eq_of_add_le (by decide), extractLsb'_eq_self]

@[simp] theorem wideBz_op : wbits (wideBz op rs imm z4 nz) 10 4 = op := by
  rw [wbits, wideBz, extractLsb'_append_eq_of_le (by decide), extractLsb'_append_eq_of_le (by decide),
    extractLsb'_append_eq_of_le (by decide), extractLsb'_append_eq_of_add_le (by decide), extractLsb'_eq_self]

@[simp] theorem wideBz_wide : wbits (wideBz op rs imm z4 nz) 14 2 = 3 := by
  rw [wbits, wideBz, extractLsb'_append_eq_of_le (by decide), extractLsb'_append_eq_of_le (by decide),
    extractLsb'_append_eq_of_le (by decide), extractLsb'_append_eq_of_le (by decide),
    extractLsb'_append_eq_of_add_le (by decide), extractLsb'_eq_self]

@[simp] theorem wideBz_imm : wbits (wideBz op rs imm z4 nz) 16 16 = imm := by
  rw [wbits, wideBz, extractLsb'_append_eq_of_le (by decide), extractLsb'_append_eq_of_le (by decide),
    extractLsb'_append_eq_of_le (by decide), extractLsb'_append_eq_of_le (by decide), extractLsb'_append_eq_of_le (by decide),
    extractLsb'_eq_self]

/-- CALLM with a PC-relative target. -/
def wideCall (op : BitVec 4) (rm far5 : BitVec 5) (imm : BitVec 16) : Word :=
  imm ++ (3 : BitVec 2) ++ op ++ far5 ++ rm

@[simp] theorem wideCall_mask : wbits (wideCall op rm far5 imm) 0 5 = rm := by
  rw [wbits, wideCall, extractLsb'_append_eq_of_add_le (by decide), extractLsb'_eq_self]

@[simp] theorem wideCall_far : wbits (wideCall op rm far5 imm) 5 5 = far5 := by
  rw [wbits, wideCall, extractLsb'_append_eq_of_le (by decide), extractLsb'_append_eq_of_add_le (by decide), extractLsb'_eq_self]

@[simp] theorem wideCall_op : wbits (wideCall op rm far5 imm) 10 4 = op := by
  rw [wbits, wideCall, extractLsb'_append_eq_of_le (by decide), extractLsb'_append_eq_of_le (by decide),
    extractLsb'_append_eq_of_add_le (by decide), extractLsb'_eq_self]

@[simp] theorem wideCall_wide : wbits (wideCall op rm far5 imm) 14 2 = 3 := by
  rw [wbits, wideCall, extractLsb'_append_eq_of_le (by decide), extractLsb'_append_eq_of_le (by decide),
    extractLsb'_append_eq_of_le (by decide), extractLsb'_append_eq_of_add_le (by decide), extractLsb'_eq_self]

@[simp] theorem wideCall_imm : wbits (wideCall op rm far5 imm) 16 16 = imm := by
  rw [wbits, wideCall, extractLsb'_append_eq_of_le (by decide), extractLsb'_append_eq_of_le (by decide),
    extractLsb'_append_eq_of_le (by decide), extractLsb'_append_eq_of_le (by decide), extractLsb'_eq_self]

/-- J. -/
def wideJump (op : BitVec 4) (imm : BitVec 16) (far10 : BitVec 10) : Word :=
  imm ++ (3 : BitVec 2) ++ op ++ far10

@[simp] theorem wideJump_far : wbits (wideJump op imm far10) 0 10 = far10 := by
  rw [wbits, wideJump, extractLsb'_append_eq_of_add_le (by decide), extractLsb'_eq_self]

@[simp] theorem wideJump_op : wbits (wideJump op imm far10) 10 4 = op := by
  rw [wbits, wideJump, extractLsb'_append_eq_of_le (by decide), extractLsb'_append_eq_of_add_le (by decide), extractLsb'_eq_self]

@[simp] theorem wideJump_wide : wbits (wideJump op imm far10) 14 2 = 3 := by
  rw [wbits, wideJump, extractLsb'_append_eq_of_le (by decide), extractLsb'_append_eq_of_le (by decide),
    extractLsb'_append_eq_of_add_le (by decide), extractLsb'_eq_self]

@[simp] theorem wideJump_imm : wbits (wideJump op imm far10) 16 16 = imm := by
  rw [wbits, wideJump, extractLsb'_append_eq_of_le (by decide), extractLsb'_append_eq_of_le (by decide),
    extractLsb'_append_eq_of_le (by decide), extractLsb'_eq_self]

/-- An access through a generator. -/
def wideAg (op : BitVec 4) (rs : BitVec 5) (z13 : BitVec 13) (kind : BitVec 3) (z1 u st : BitVec 1) (n : BitVec 2) : Word :=
  z13 ++ kind ++ (3 : BitVec 2) ++ op ++ rs ++ z1 ++ u ++ st ++ n

@[simp] theorem wideAg_gen : wbits (wideAg op rs z13 kind z1 u st n) 0 2 = n := by
  rw [wbits, wideAg, extractLsb'_append_eq_of_add_le (by decide), extractLsb'_eq_self]

@[simp] theorem wideAg_store : wbits (wideAg op rs z13 kind z1 u st n) 2 1 = st := by
  rw [wbits, wideAg, extractLsb'_append_eq_of_le (by decide), extractLsb'_append_eq_of_add_le (by decide), extractLsb'_eq_self]

@[simp] theorem wideAg_update : wbits (wideAg op rs z13 kind z1 u st n) 3 1 = u := by
  rw [wbits, wideAg, extractLsb'_append_eq_of_le (by decide), extractLsb'_append_eq_of_le (by decide),
    extractLsb'_append_eq_of_add_le (by decide), extractLsb'_eq_self]

@[simp] theorem wideAg_zero : wbits (wideAg op rs z13 kind z1 u st n) 4 1 = z1 := by
  rw [wbits, wideAg, extractLsb'_append_eq_of_le (by decide), extractLsb'_append_eq_of_le (by decide),
    extractLsb'_append_eq_of_le (by decide), extractLsb'_append_eq_of_add_le (by decide), extractLsb'_eq_self]

@[simp] theorem wideAg_reg : wbits (wideAg op rs z13 kind z1 u st n) 5 5 = rs := by
  rw [wbits, wideAg, extractLsb'_append_eq_of_le (by decide), extractLsb'_append_eq_of_le (by decide),
    extractLsb'_append_eq_of_le (by decide), extractLsb'_append_eq_of_le (by decide),
    extractLsb'_append_eq_of_add_le (by decide), extractLsb'_eq_self]

@[simp] theorem wideAg_op : wbits (wideAg op rs z13 kind z1 u st n) 10 4 = op := by
  rw [wbits, wideAg, extractLsb'_append_eq_of_le (by decide), extractLsb'_append_eq_of_le (by decide),
    extractLsb'_append_eq_of_le (by decide), extractLsb'_append_eq_of_le (by decide), extractLsb'_append_eq_of_le (by decide),
    extractLsb'_append_eq_of_add_le (by decide), extractLsb'_eq_self]

@[simp] theorem wideAg_wide : wbits (wideAg op rs z13 kind z1 u st n) 14 2 = 3 := by
  rw [wbits, wideAg, extractLsb'_append_eq_of_le (by decide), extractLsb'_append_eq_of_le (by decide),
    extractLsb'_append_eq_of_le (by decide), extractLsb'_append_eq_of_le (by decide), extractLsb'_append_eq_of_le (by decide),
    extractLsb'_append_eq_of_le (by decide), extractLsb'_append_eq_of_add_le (by decide), extractLsb'_eq_self]

@[simp] theorem wideAg_kind : wbits (wideAg op rs z13 kind z1 u st n) 16 3 = kind := by
  rw [wbits, wideAg, extractLsb'_append_eq_of_le (by decide), extractLsb'_append_eq_of_le (by decide),
    extractLsb'_append_eq_of_le (by decide), extractLsb'_append_eq_of_le (by decide), extractLsb'_append_eq_of_le (by decide),
    extractLsb'_append_eq_of_le (by decide), extractLsb'_append_eq_of_le (by decide),
    extractLsb'_append_eq_of_add_le (by decide), extractLsb'_eq_self]

@[simp] theorem wideAg_high : wbits (wideAg op rs z13 kind z1 u st n) 19 13 = z13 := by
  rw [wbits, wideAg, extractLsb'_append_eq_of_le (by decide), extractLsb'_append_eq_of_le (by decide),
    extractLsb'_append_eq_of_le (by decide), extractLsb'_append_eq_of_le (by decide), extractLsb'_append_eq_of_le (by decide),
    extractLsb'_append_eq_of_le (by decide), extractLsb'_append_eq_of_le (by decide), extractLsb'_append_eq_of_le (by decide),
    extractLsb'_eq_self]

end LongForms

/-! ## Which decoder reads which format -/

theorem decodeWord_enc16 {a : BitVec 4} (b c d : BitVec 4) (ha : (a.extractLsb' 2 2 == 3) = false) :
    decodeWord (enc16 a b c d) = decode16 (nibbleForm a b c d) :=
  decodeWord_narrow (nibbleForm_a a b c d) ha

theorem decodeWord_enc16b {a : BitVec 4} (b : BitVec 4) (x : BitVec 8) (ha : (a.extractLsb' 2 2 == 3) = false) :
    decodeWord (enc16b a b x) = decode16 (byteForm a b x) :=
  decodeWord_narrow (byteForm_a a b x) ha

theorem decodeWord_shiftForm (rd : BitVec 4) (k : BitVec 2) (z : BitVec 1) (sh : BitVec 5) :
    decodeWord ((0 : BitVec 16) ++ shiftForm 3 rd k z sh) = decode16 (shiftForm 3 rd k z sh) :=
  decodeWord_narrow (shiftForm_op 3 rd k z sh) rfl

theorem decodeWord_agForm (r : BitVec 4) (n : BitVec 2) (st : BitVec 1) (k : BitVec 2) (u : BitVec 1) (z : BitVec 2) :
    decodeWord ((0 : BitVec 16) ++ agForm 6 r n st k u z) = decode16 (agForm 6 r n st k u z) :=
  decodeWord_narrow (agForm_op 6 r n st k u z) rfl

theorem decodeWord_bzForm (rs : BitVec 4) (nz : BitVec 1) (off : BitVec 7) :
    decodeWord ((0 : BitVec 16) ++ bzForm 9 rs nz off) = decode16 (bzForm 9 rs nz off) :=
  decodeWord_narrow (bzForm_op 9 rs nz off) rfl

theorem decodeWord_bForm (off : BitVec 12) : decodeWord ((0 : BitVec 16) ++ bForm 7 off) = decode16 (bForm 7 off) :=
  decodeWord_narrow (bForm_op 7 off) rfl

section Wide

variable (op c : BitVec 4) (rb rd ra : BitVec 5) (func : BitVec 11) (imm : BitVec 16)

theorem decodeWord_encR : decodeWord (encR op rb func rd ra) = decode32 (encR op rb func rd ra) :=
  decodeWord_wide (encR_wide op rb rd ra func)

theorem decodeWord_encI : decodeWord (encI op imm rd ra) = decode32 (encI op imm rd ra) :=
  decodeWord_wide (encI_wide op rd ra imm)

theorem decodeWord_encM (off : BitVec 13) (kind : BitVec 3) :
    decodeWord (encM op off kind rd ra) = decode32 (encM op off kind rd ra) :=
  decodeWord_wide (encM_wide op rd ra off kind)

theorem decodeWord_wideBcond (far : BitVec 6) : decodeWord (wideBcond op c imm far) = decode32 (wideBcond op c imm far) :=
  decodeWord_wide (wideBcond_wide op c imm far)

theorem decodeWord_wideBz (z : BitVec 4) (nz : BitVec 1) : decodeWord (wideBz op rd imm z nz) = decode32 (wideBz op rd imm z nz) :=
  decodeWord_wide (wideBz_wide op rd imm z nz)

theorem decodeWord_wideCall : decodeWord (wideCall op ra rd imm) = decode32 (wideCall op ra rd imm) :=
  decodeWord_wide (wideCall_wide op ra rd imm)

theorem decodeWord_wideJump (far : BitVec 10) : decodeWord (wideJump op imm far) = decode32 (wideJump op imm far) :=
  decodeWord_wide (wideJump_wide op imm far)

theorem decodeWord_wideAg (z13 : BitVec 13) (kind : BitVec 3) (z u st : BitVec 1) (n : BitVec 2) :
    decodeWord (wideAg op rd z13 kind z u st n) = decode32 (wideAg op rd z13 kind z u st n) :=
  decodeWord_wide (wideAg_wide op rd z13 kind z u st n)

end Wide

/-! ## Every instruction -/

@[simp] theorem pad2_low (n : BitVec 2) : (n.setWidth 5).extractLsb' 0 2 = n := by revert n; decide

@[simp] theorem pad2_high (n : BitVec 2) : (n.setWidth 5).extractLsb' 2 3 = 0 := by revert n; decide

@[simp] theorem pad3_low (n : BitVec 3) : (n.setWidth 5).extractLsb' 0 3 = n := by revert n; decide

@[simp] theorem pad3_high (n : BitVec 3) : (n.setWidth 5).extractLsb' 3 2 = 0 := by revert n; decide

@[simp] theorem ofBool_beq_one (u : Bool) : (BitVec.ofBool u == 1#1) = u := by revert u; decide

/-- A long offset from its two parts. -/
theorem offset_parts {n : Nat} (off : BitVec (n + 16)) : off.extractLsb' 16 n ++ off.extractLsb' 0 16 = off :=
  (extractLsb'_append_extractLsb'_eq_extractLsb' (start₁ := 0) (by omega)).trans extractLsb'_eq_self

/-- C.AGM has no byte loads (Table 5.10), so its SZ names the load. -/
theorem decodeWord_agLoad {f : AgForm} {k : LoadKind} (hwf : f.loadOk k = true) :
    decodeWord (encAgF 0 (loadKindBits k) f) = some (.agLoad · f k) := by
  cases f with
  | c r n u =>
    refine (decodeWord_agForm r (.ofFin n) 0 ((loadKindBits k).extractLsb' 0 2) (.ofBool u) 0).trans ?_
    cases k with
    | word => simp [loadKindBits, decode16, decAgm]
    | half => simp [loadKindBits, decode16, decAgm]
    | halfu => simp [loadKindBits, decode16, decAgm]
    | byte => cases hwf
    | byteu => cases hwf
  | w r n u =>
    refine (decodeWord_wideAg 7 r 0 (loadKindBits k) 0 (.ofBool u) 0 (.ofFin n)).trans ?_
    cases k <;> simp [loadKindBits, decode32, decAg]

theorem decodeWord_agStore {f : AgForm} {k : StoreKind} (hwf : f.storeOk k = true) :
    decodeWord (encAgF 1 (storeKindBits k) f) = some (.agStore · f k) := by
  cases f with
  | c r n u =>
    refine (decodeWord_agForm r (.ofFin n) 1 ((storeKindBits k).extractLsb' 0 2) (.ofBool u) 0).trans ?_
    cases k with
    | word => simp [storeKindBits, decode16, decAgm]
    | half => simp [storeKindBits, decode16, decAgm]
    | byte => cases hwf
  | w r n u =>
    refine (decodeWord_wideAg 7 r 0 (storeKindBits k) 0 (.ofBool u) 1 (.ofFin n)).trans ?_
    cases k <;> simp [storeKindBits, decode32, decAg]

/-- The halfword 0x0000 is illegal (R151): MV 0, 0 has no word. -/
theorem decodeWord_mv {rd rs : BitVec 4} (h : rd ≠ 0 ∨ rs ≠ 0) : decodeWord (enc16 0 rd rs 0) = some (.mv · rd rs) := by
  have hne : nibbleForm 0 rd rs 0 ≠ 0 := by
    intro hz
    have hrd := nibbleForm_b 0 rd rs 0
    have hrs := nibbleForm_c 0 rd rs 0
    rw [hz] at hrd hrs
    exact h.elim (fun h => h hrd.symm) (fun h => h hrs.symm)
  have hne' : ¬ nibbleForm 0#4 rd rs 0#4 = 0#16 := hne
  simp [decodeWord_enc16, decode16, decAlu, hne']

/-- An instruction whose word is known reads back. -/
theorem readsBack {i : Instr} {w w' : Word} {op : Op} {t : Thr} (h : encodeWord i = some w) (he : encodeWord i = some w')
    (hd : decodeWord w' = some op) (hop : op t = i) : ∃ (op : Op) (t : Thr), decodeWord w = some op ∧ op t = i := by
  obtain rfl : w = w' := Option.some.inj (h.symm.trans he)
  exact ⟨op, t, hd, hop⟩

/-- Settles O57: the decoder of each table reads the fields that the instruction's format puts there. -/
theorem encodedWordsDecode : Obligations.EncodedWordsDecode := by
  intro i w hwf h
  cases i with
  | mv t rd rs => exact readsBack (op := (.mv · rd rs)) h rfl (decodeWord_mv (by simpa [Instr.wf] using hwf)) rfl
  | add t f =>
    cases f with
    | c rd rs => exact readsBack (op := (.add · (.c rd rs))) h rfl (by simp [encAluF, decodeWord_enc16, decode16, decAlu]) rfl
    | w rd ra rb => exact readsBack (op := (.add · (.w rd ra rb))) h rfl (by simp [encAluF, decodeWord_encR, decode32, decInt]) rfl
  | sub t f =>
    cases f with
    | c rd rs => exact readsBack (op := (.sub · (.c rd rs))) h rfl (by simp [encAluF, decodeWord_enc16, decode16, decAlu]) rfl
    | w rd ra rb => exact readsBack (op := (.sub · (.w rd ra rb))) h rfl (by simp [encAluF, decodeWord_encR, decode32, decInt]) rfl
  | and t f =>
    cases f with
    | c rd rs => exact readsBack (op := (.and · (.c rd rs))) h rfl (by simp [encAluF, decodeWord_enc16, decode16, decAlu]) rfl
    | w rd ra rb => exact readsBack (op := (.and · (.w rd ra rb))) h rfl (by simp [encAluF, decodeWord_encR, decode32, decInt]) rfl
  | or t f =>
    cases f with
    | c rd rs => exact readsBack (op := (.or · (.c rd rs))) h rfl (by simp [encAluF, decodeWord_enc16, decode16, decAlu]) rfl
    | w rd ra rb => exact readsBack (op := (.or · (.w rd ra rb))) h rfl (by simp [encAluF, decodeWord_encR, decode32, decInt]) rfl
  | xor t f =>
    cases f with
    | c rd rs => exact readsBack (op := (.xor · (.c rd rs))) h rfl (by simp [encAluF, decodeWord_enc16, decode16, decAlu]) rfl
    | w rd ra rb => exact readsBack (op := (.xor · (.w rd ra rb))) h rfl (by simp [encAluF, decodeWord_encR, decode32, decInt]) rfl
  | sll t f =>
    cases f with
    | c rd rs => exact readsBack (op := (.sll · (.c rd rs))) h rfl (by simp [encAluF, decodeWord_enc16, decode16, decAlu]) rfl
    | w rd ra rb => exact readsBack (op := (.sll · (.w rd ra rb))) h rfl (by simp [encAluF, decodeWord_encR, decode32, decInt]) rfl
  | srl t f =>
    cases f with
    | c rd rs => exact readsBack (op := (.srl · (.c rd rs))) h rfl (by simp [encAluF, decodeWord_enc16, decode16, decAlu]) rfl
    | w rd ra rb => exact readsBack (op := (.srl · (.w rd ra rb))) h rfl (by simp [encAluF, decodeWord_encR, decode32, decInt]) rfl
  | sra t f =>
    cases f with
    | c rd rs => exact readsBack (op := (.sra · (.c rd rs))) h rfl (by simp [encAluF, decodeWord_enc16, decode16, decAlu]) rfl
    | w rd ra rb => exact readsBack (op := (.sra · (.w rd ra rb))) h rfl (by simp [encAluF, decodeWord_encR, decode32, decInt]) rfl
  | bswap t f =>
    cases f with
    | c rd rs => exact readsBack (op := (.bswap · (.c rd rs))) h rfl (by simp [decodeWord_enc16, decode16, decAlu]) rfl
    | w rd ra => exact readsBack (op := (.bswap · (.w rd ra))) h rfl (by simp [decodeWord_encR, decode32, decInt]) rfl
  | addi t f =>
    cases f with
    | c rd x => exact readsBack (op := (.addi · (.c rd x))) h rfl (by simp [decodeWord_enc16b, decode16]) rfl
    | w rd ra x => exact readsBack (op := (.addi · (.w rd ra x))) h rfl (by simp [decodeWord_encI, decode32]) rfl
  | slli t f =>
    cases f with
    | c rd sh =>
      exact readsBack (op := (.slli · (.c rd sh))) h rfl ((decodeWord_shiftForm rd 0 0 sh).trans (by simp [decode16, decShi])) rfl
    | w rd ra sh => exact readsBack (op := (.slli · (.w rd ra sh))) h rfl (by simp [encShF, decodeWord_encR, decode32, decInt]) rfl
  | srli t f =>
    cases f with
    | c rd sh =>
      exact readsBack (op := (.srli · (.c rd sh))) h rfl ((decodeWord_shiftForm rd 1 0 sh).trans (by simp [decode16, decShi])) rfl
    | w rd ra sh => exact readsBack (op := (.srli · (.w rd ra sh))) h rfl (by simp [encShF, decodeWord_encR, decode32, decInt]) rfl
  | srai t f =>
    cases f with
    | c rd sh =>
      exact readsBack (op := (.srai · (.c rd sh))) h rfl ((decodeWord_shiftForm rd 2 0 sh).trans (by simp [decode16, decShi])) rfl
    | w rd ra sh => exact readsBack (op := (.srai · (.w rd ra sh))) h rfl (by simp [encShF, decodeWord_encR, decode32, decInt]) rfl
  | cmp t rd rs => exact readsBack (op := (.cmp · rd rs)) h rfl (by simp [decodeWord_enc16, decode16, decAlu]) rfl
  | neg t rd rs => exact readsBack (op := (.neg · rd rs)) h rfl (by simp [decodeWord_enc16, decode16, decAlu]) rfl
  | not t rd rs => exact readsBack (op := (.not · rd rs)) h rfl (by simp [decodeWord_enc16, decode16, decAlu]) rfl
  | li t rd x => exact readsBack (op := (.li · rd x)) h rfl (by simp [decodeWord_enc16b, decode16]) rfl
  | cmpi t rs x => exact readsBack (op := (.cmpi · rs x)) h rfl (by simp [decodeWord_enc16b, decode16]) rfl
  | mul t rd ra rb => exact readsBack (op := (.mul · rd ra rb)) h rfl (by simp [decodeWord_encR, decode32, decInt]) rfl
  | mulhs t rd ra rb => exact readsBack (op := (.mulhs · rd ra rb)) h rfl (by simp [decodeWord_encR, decode32, decInt]) rfl
  | mulhu t rd ra rb => exact readsBack (op := (.mulhu · rd ra rb)) h rfl (by simp [decodeWord_encR, decode32, decInt]) rfl
  | min t rd ra rb => exact readsBack (op := (.min · rd ra rb)) h rfl (by simp [decodeWord_encR, decode32, decInt]) rfl
  | max t rd ra rb => exact readsBack (op := (.max · rd ra rb)) h rfl (by simp [decodeWord_encR, decode32, decInt]) rfl
  | minu t rd ra rb => exact readsBack (op := (.minu · rd ra rb)) h rfl (by simp [decodeWord_encR, decode32, decInt]) rfl
  | maxu t rd ra rb => exact readsBack (op := (.maxu · rd ra rb)) h rfl (by simp [decodeWord_encR, decode32, decInt]) rfl
  | addc t rd ra rb => exact readsBack (op := (.addc · rd ra rb)) h rfl (by simp [decodeWord_encR, decode32, decInt]) rfl
  | subc t rd ra rb => exact readsBack (op := (.subc · rd ra rb)) h rfl (by simp [decodeWord_encR, decode32, decInt]) rfl
  | extu t rd ra rb => exact readsBack (op := (.extu · rd ra rb)) h rfl (by simp [decodeWord_encR, decode32, decInt]) rfl
  | clz t rd ra => exact readsBack (op := (.clz · rd ra)) h rfl (by simp [decodeWord_encR, decode32, decInt]) rfl
  | popc t rd ra => exact readsBack (op := (.popc · rd ra)) h rfl (by simp [decodeWord_encR, decode32, decInt]) rfl
  | andi t rd ra x => exact readsBack (op := (.andi · rd ra x)) h rfl (by simp [decodeWord_encI, decode32]) rfl
  | ori t rd ra x => exact readsBack (op := (.ori · rd ra x)) h rfl (by simp [decodeWord_encI, decode32]) rfl
  | lui t rd x => exact readsBack (op := (.lui · rd x)) h rfl (by simp [decodeWord_encI, decode32]) rfl
  | ldw t f =>
    cases f with
    | c r rb off => exact readsBack (op := (.ldw · (.c r rb off))) h rfl (by simp [decodeWord_enc16, decode16]) rfl
    | w r ra x => exact readsBack (op := (.ldw · (.w r ra x))) h rfl (by simp [decodeWord_encM, decode32, decLoad]) rfl
  | stw t f =>
    cases f with
    | c r rb off => exact readsBack (op := (.stw · (.c r rb off))) h rfl (by simp [decodeWord_enc16, decode16]) rfl
    | w r ra x => exact readsBack (op := (.stw · (.w r ra x))) h rfl (by simp [decodeWord_encM, decode32, decStore]) rfl
  | ldh t rd ra x => exact readsBack (op := (.ldh · rd ra x)) h rfl (by simp [decodeWord_encM, decode32, decLoad]) rfl
  | ldhu t rd ra x => exact readsBack (op := (.ldhu · rd ra x)) h rfl (by simp [decodeWord_encM, decode32, decLoad]) rfl
  | ldb t rd ra x => exact readsBack (op := (.ldb · rd ra x)) h rfl (by simp [decodeWord_encM, decode32, decLoad]) rfl
  | ldbu t rd ra x => exact readsBack (op := (.ldbu · rd ra x)) h rfl (by simp [decodeWord_encM, decode32, decLoad]) rfl
  | xadd t rd ra x => exact readsBack (op := (.xadd · rd ra x)) h rfl (by simp [decodeWord_encM, decode32, decLoad]) rfl
  | xchg t rd ra x => exact readsBack (op := (.xchg · rd ra x)) h rfl (by simp [decodeWord_encM, decode32, decLoad]) rfl
  | sth t rd ra x => exact readsBack (op := (.sth · rd ra x)) h rfl (by simp [decodeWord_encM, decode32, decStore]) rfl
  | stb t rd ra x => exact readsBack (op := (.stb · rd ra x)) h rfl (by simp [decodeWord_encM, decode32, decStore]) rfl
  | agLoad t f k => exact readsBack (op := (.agLoad · f k)) h rfl (decodeWord_agLoad hwf) rfl
  | agStore t f k => exact readsBack (op := (.agStore · f k)) h rfl (decodeWord_agStore hwf) rfl
  | b t off =>
    exact readsBack (op := (.b · off)) h rfl ((decodeWord_bForm off).trans (by simp [decode16])) rfl
  | bcond t f =>
    cases f with
    | c c off => exact readsBack (op := (.bcond · (.c c off))) h rfl (by simp [decodeWord_enc16b, decode16]) rfl
    | w c off =>
      exact readsBack (op := (.bcond · (.w c off))) h rfl ((decodeWord_wideBcond 8 c _ _).trans (by simp [decode32, offset_parts])) rfl
  | bz t f =>
    cases f with
    | c rs off =>
      exact readsBack (op := (.bz · (.c rs off))) h rfl ((decodeWord_bzForm rs 0 off).trans (by simp [decode16])) rfl
    | w rs off =>
      exact readsBack (op := (.bz · (.w rs off))) h rfl ((decodeWord_wideBz 9 rs off 0 0).trans (by simp [decode32])) rfl
  | bnz t f =>
    cases f with
    | c rs off =>
      exact readsBack (op := (.bnz · (.c rs off))) h rfl ((decodeWord_bzForm rs 1 off).trans (by simp [decode16])) rfl
    | w rs off =>
      exact readsBack (op := (.bnz · (.w rs off))) h rfl ((decodeWord_wideBz 9 rs off 0 1).trans (by simp [decode32])) rfl
  | callm t f =>
    cases f with
    | reg ra mask => exact readsBack (op := (.callm · (.reg ra mask))) h rfl (by simp [decodeWord_encI, decode32]) rfl
    | rel rm off =>
      exact readsBack (op := (.callm · (.rel rm off))) h rfl ((decodeWord_wideCall 0xB _ rm _).trans (by simp [decode32, offset_parts])) rfl
  | retm t => exact readsBack (op := (.retm ·)) h rfl (by simp [decodeWord_enc16b, decode16, decMisc]) rfl
  | j t off =>
    exact readsBack (op := (.j · off)) h rfl ((decodeWord_wideJump 0xC _ _).trans (by simp [decode32, offset_parts])) rfl
  | jr t rs => exact readsBack (op := (.jr · rs)) h rfl (by simp [decodeWord_enc16, decode16, decMisc]) rfl
  | macl t ad ra rb => exact readsBack (op := (.macl · ad ra rb)) h rfl (by simp [encMac, decodeWord_encR, decode32, decMac]) rfl
  | msul t ad ra rb => exact readsBack (op := (.msul · ad ra rb)) h rfl (by simp [encMac, decodeWord_encR, decode32, decMac]) rfl
  | mpyl t ad ra rb => exact readsBack (op := (.mpyl · ad ra rb)) h rfl (by simp [encMac, decodeWord_encR, decode32, decMac]) rfl
  | macp t ad ra rb => exact readsBack (op := (.macp · ad ra rb)) h rfl (by simp [encMac, decodeWord_encR, decode32, decMac]) rfl
  | msup t ad ra rb => exact readsBack (op := (.msup · ad ra rb)) h rfl (by simp [encMac, decodeWord_encR, decode32, decMac]) rfl
  | ext t rd an x => exact readsBack (op := (.ext · rd an x)) h rfl (by simp [encMac, decodeWord_encR, decode32, decMac]) rfl
  | aclr t ad => exact readsBack (op := (.aclr · ad)) h rfl (by simp [encMac, decodeWord_encR, decode32, decMac]) rfl
  | amov t ad ra => exact readsBack (op := (.amov · ad ra)) h rfl (by simp [encMac, decodeWord_encR, decode32, decMac]) rfl
  | aadd t ad an => exact readsBack (op := (.aadd · ad an)) h rfl (by simp [encMac, decodeWord_encR, decode32, decMac]) rfl
  | fadd t rd ra rb => exact readsBack (op := (.fadd · rd ra rb)) h rfl (by simp [encMac, decodeWord_encR, decode32, decMac]) rfl
  | fsub t rd ra rb => exact readsBack (op := (.fsub · rd ra rb)) h rfl (by simp [encMac, decodeWord_encR, decode32, decMac]) rfl
  | padd t rd ra rb => exact readsBack (op := (.padd · rd ra rb)) h rfl (by simp [encMac, decodeWord_encR, decode32, decMac]) rfl
  | psub t rd ra rb => exact readsBack (op := (.psub · rd ra rb)) h rfl (by simp [encMac, decodeWord_encR, decode32, decMac]) rfl
  | fsra t rd ra rb => exact readsBack (op := (.fsra · rd ra rb)) h rfl (by simp [encMac, decodeWord_encR, decode32, decMac]) rfl
  | fork t rd ra rb => exact readsBack (op := (.fork · rd ra rb)) h rfl (by simp [encThr, decodeWord_encR, decode32, decThread]) rfl
  | join t ra => exact readsBack (op := (.join · ra)) h rfl (by simp [encThr, decodeWord_encR, decode32, decThread]) rfl
  | quit t f =>
    cases f with
    | c => exact readsBack (op := (.quit · .c)) h rfl (by simp [decodeWord_enc16b, decode16, decMisc]) rfl
    | w => exact readsBack (op := (.quit · .w)) h rfl (by simp [encThr, decodeWord_encR, decode32, decThread]) rfl
  | waitt t ra => exact readsBack (op := (.waitt · ra)) h rfl (by simp [encThr, decodeWord_encR, decode32, decThread]) rfl
  | waite t rd ra => exact readsBack (op := (.waite · rd ra)) h rfl (by simp [encThr, decodeWord_encR, decode32, decThread]) rfl
  | hreq t hc cn ra rb =>
    have hcode : hc.toNat < 5 := of_decide_eq_true hwf
    exact readsBack (op := (.hreq · hc cn ra rb)) h rfl (by simp [encThr, decodeWord_encR, decode32, decThread, hcode]) rfl
  | hwait t rd cn => exact readsBack (op := (.hwait · rd cn)) h rfl (by simp [encThr, decodeWord_encR, decode32, decThread]) rfl
  | hpoll t rd cn => exact readsBack (op := (.hpoll · rd cn)) h rfl (by simp [encThr, decodeWord_encR, decode32, decThread]) rfl
  | mfs t rd n => exact readsBack (op := (.mfs · rd n)) h rfl (by simp [encSys, decodeWord_encR, decode32, decSystem]) rfl
  | mts t n ra => exact readsBack (op := (.mts · n ra)) h rfl (by simp [encSys, decodeWord_encR, decode32, decSystem]) rfl
  | eret t f =>
    cases f with
    | c => exact readsBack (op := (.eret · .c)) h rfl (by simp [decodeWord_enc16b, decode16, decMisc]) rfl
    | w => exact readsBack (op := (.eret · .w)) h rfl (by simp [encSys, decodeWord_encR, decode32, decSystem]) rfl
  | sysc t f x =>
    cases f with
    | c => exact readsBack (op := (.sysc · .c x)) h rfl (by simp [decodeWord_enc16b, decode16, decMisc]) rfl
    | w => exact readsBack (op := (.sysc · .w x)) h rfl (by simp [encSys, decodeWord_encR, decode32, decSystem]) rfl
  | brk t f x =>
    cases f with
    | c => exact readsBack (op := (.brk · .c x)) h rfl (by simp [decodeWord_enc16b, decode16, decMisc]) rfl
    | w => exact readsBack (op := (.brk · .w x)) h rfl (by simp [encSys, decodeWord_encR, decode32, decSystem]) rfl
  | fence t => exact readsBack (op := (.fence ·)) h rfl (by simp [encSys, decodeWord_encR, decode32, decSystem]) rfl
  | _ => cases h

end Sys2Proof
end

section
/-! Stores, atomics and the accesses behind them (04, R120–R126; 05, R160–R166, Tables 5.3, 5.9, 5.10; 17, R705, R706). -/

namespace Sys2Proof.Machine

/-! ## Stores and atomics, answered and misaligned (R122, R160–R166) -/

section
variable {s u : State} {t : Thr} {ea : Word} {v : Nat}

/-- R122, R160: a store at an aligned address whose write is answered leaves what the write left. -/
theorem State.store_answered {n x len : Nat} {pc : Word} {post : Thread → Thread} {go : State} (ha : ea.toNat % n = 0)
    (hgo : go = s.setThr (thrKey t) { post (s.own t) with pc := pc + BitVec.ofNat 32 len })
    (hw : go.dataWrite t ea n x = ⟨0, v, u⟩) : s.store t pc len ea n x post = u := by
  subst hgo
  have hal : eaAligned ea n = true := by simp [eaAligned, ha]
  rw [State.store, hal]
  exact (congrArg (fun a : Ans => if a.code = 0 then a.st else _) hw).trans rfl

/-- R162: an atomic whose exchange is answered returns the word read. -/
theorem State.atomic_answered {f : Nat → Nat} (ha : ea.toNat % 4 = 0) (hw : s.dataSwap t ea f = ⟨0, v, u⟩) (pc : Word) (rd : Nat) :
    s.atomic t pc ea f rd = u.setThr (thrKey t) { (u.own t).setG rd (BitVec.ofNat 32 v) with pc := pc + 4 } := by
  simp only [State.atomic, eaAligned, ha, hw, beq_self_eq_true, Bool.not_true, Bool.false_eq_true, if_false, if_true]
  rfl

theorem eaAligned_false {n : Nat} (ha : ea.toNat % n ≠ 0) : eaAligned ea n = false := by simp [eaAligned, ha]

/-- R122: what a misaligned load, store or atomic does. -/
theorem State.load_misaligned {n : Nat} (ha : ea.toNat % n ≠ 0) (pc : Word) (len : Nat) (done : Thread → Nat → Thread) :
    s.load t pc len ea n done = s.raiseExc (thrKey t) 0x04 ea pc := by
  rw [State.load, eaAligned_false ha]
  rfl

theorem State.store_misaligned {n : Nat} (ha : ea.toNat % n ≠ 0) (pc : Word) (len x : Nat) (post : Thread → Thread) :
    s.store t pc len ea n x post = s.raiseExc (thrKey t) 0x04 ea pc := by
  rw [State.store, eaAligned_false ha]
  rfl

theorem State.atomic_misaligned (ha : ea.toNat % 4 ≠ 0) (pc : Word) (f : Nat → Nat) (rd : Nat) :
    s.atomic t pc ea f rd = s.raiseExc (thrKey t) 0x04 ea pc := by
  rw [State.atomic, eaAligned_false ha]
  rfl

/-! ## Each instruction is a load, a store or an atomic at its address -/

theorem execLdw_load {f : MemForm} {n rd : Nat} (e : memArgs (s.own t) f = (n, rd, ea)) (hi : CanIssue s t n) :
    exec (.ldw t f) s = .next (s.load t (s.own t).pc n ea 4 (fun th v => th.setG rd (BitVec.ofNat 32 v))) := by
  show execLdw t f s = _
  simp only [execLdw, e, State.issue_next hi]

theorem execStw_store {f : MemForm} {n r : Nat} (e : memArgs (s.own t) f = (n, r, ea)) (hi : CanIssue s t n) :
    exec (.stw t f) s = .next (s.store t (s.own t).pc n ea 4 ((s.own t).gr r).toNat id) := by
  show execStw t f s = _
  simp only [execStw, e, State.issue_next hi]

theorem State.loadM_load (k : LoadKind) (rd ra : BitVec 5) (imm : BitVec 13) (hi : CanIssue s t 4) :
    s.loadM t k rd ra imm = s.load t (s.own t).pc 4 ((s.own t).gr ra.toNat + imm.signExtend 32) (loadBytes k)
      (fun th v => th.setG rd.toNat (extendLoad k v)) :=
  State.issue_next hi _

theorem State.storeM_store (k : StoreKind) (rd ra : BitVec 5) (imm : BitVec 13) (hi : CanIssue s t 4) :
    s.storeM t k rd ra imm = s.store t (s.own t).pc 4 ((s.own t).gr ra.toNat + imm.signExtend 32) (storeBytes k)
      ((s.own t).gr rd.toNat).toNat id :=
  State.issue_next hi _

theorem execXadd_atomic (rd ra : BitVec 5) (imm : BitVec 13) (hi : CanIssue s t 4) :
    exec (.xadd t rd ra imm) s = .next (s.atomic t (s.own t).pc ((s.own t).gr ra.toNat + imm.signExtend 32)
      (fun w => (w + ((s.own t).gr rd.toNat).toNat) % 2 ^ 32) rd.toNat) :=
  congrArg Host.Outcome.next (State.issue_next hi _)

theorem execXchg_atomic (rd ra : BitVec 5) (imm : BitVec 13) (hi : CanIssue s t 4) :
    exec (.xchg t rd ra imm) s = .next (s.atomic t (s.own t).pc ((s.own t).gr ra.toNat + imm.signExtend 32)
      (fun _ => ((s.own t).gr rd.toNat).toNat) rd.toNat) :=
  congrArg Host.Outcome.next (State.issue_next hi _)

/-- R126: MODE 0b11 raises AG_MODE before the access. -/
theorem State.agIssue_mode3 {f : AgForm} {len r n : Nat} {upd : Bool} (e : agArgs f = (len, r, n, upd)) (hi : CanIssue s t len)
    (hmode : ((s.own t).agen n).mode = 3) (body : Word → Nat → Nat → Nat → Bool → State → State) :
    s.agIssue t f body = s.raiseExc (thrKey t) 0x09 (BitVec.ofNat 32 n) (s.own t).pc := by
  simp only [State.agIssue, e, State.issue_next hi, hmode, if_true]

theorem State.agIssue_body {f : AgForm} {len r n : Nat} {upd : Bool} (e : agArgs f = (len, r, n, upd)) (hi : CanIssue s t len)
    (hmode : ((s.own t).agen n).mode ≠ 3) (body : Word → Nat → Nat → Nat → Bool → State → State) :
    s.agIssue t f body = body (s.own t).pc len r n upd s := by
  simp only [State.agIssue, e, State.issue_next hi, hmode, if_false]

end

/-- Settles O11: each form is a store or an atomic at its address, and an answered one completes. -/
theorem storesAndAtomics : Obligations.StoresAndAtomics := by
  refine ⟨fun t f s go n r ea v u e hi ha hgo hw => ?_, fun t rd ra imm s go u ea v hea hi hgo => ⟨fun ha hw => ?_, fun hw => ?_⟩,
    fun t f k s go len r n upd ea v u e hi hmode hea ha hgo hw => ?_, fun t rd ra imm s ea hea hi ha => ⟨fun v u hw => ?_, fun v u hw => ?_⟩⟩
  · rw [execStw_store e hi, State.store_answered ha hgo hw]
  · subst hea
    exact congrArg Host.Outcome.next ((State.storeM_store .half rd ra imm hi).trans (State.store_answered ha hgo hw))
  · subst hea
    exact congrArg Host.Outcome.next ((State.storeM_store .byte rd ra imm hi).trans (State.store_answered (Nat.mod_one _) hgo hw))
  · subst hea
    exact congrArg Host.Outcome.next ((State.agIssue_body e hi hmode _).trans
      (State.store_answered (post := fun th => if upd then th.setAgen n ((s.own t).agen n).bump else th) ha hgo hw))
  · subst hea
    rw [execXadd_atomic rd ra imm hi, State.atomic_answered ha hw]
  · subst hea
    rw [execXchg_atomic rd ra imm hi, State.atomic_answered ha hw]

/-- Settles O13: a misaligned access raises ALIGN in place of the access, and MODE 0b11 is judged before it. -/
theorem alignmentAndModeExceptions : Obligations.AlignmentAndModeExceptions := by
  refine ⟨fun t f s n rd ea e hi ha => ?_, fun t rd ra imm s ea hea hi => ⟨fun ha => ?_, fun ha => ?_⟩,
    fun t f s len r n upd lk sk e hi hmode => ?_⟩
  · rw [execLdw_load e hi, execStw_store e hi, State.load_misaligned ha, State.store_misaligned ha]
    exact ⟨rfl, rfl⟩
  · subst hea
    refine ⟨congrArg Host.Outcome.next ?_, congrArg Host.Outcome.next ?_, congrArg Host.Outcome.next ?_⟩
    · exact (State.loadM_load .half rd ra imm hi).trans (State.load_misaligned ha _ _ _)
    · exact (State.loadM_load .halfu rd ra imm hi).trans (State.load_misaligned ha _ _ _)
    · exact (State.storeM_store .half rd ra imm hi).trans (State.store_misaligned ha _ _ _ _)
  · subst hea
    rw [execXadd_atomic rd ra imm hi, execXchg_atomic rd ra imm hi, State.atomic_misaligned ha, State.atomic_misaligned ha]
    exact ⟨rfl, rfl⟩
  · exact ⟨congrArg Host.Outcome.next (State.agIssue_mode3 e hi hmode _), congrArg Host.Outcome.next (State.agIssue_mode3 e hi hmode _)⟩

/-! ## Accesses inside one good word of a memory (R120, R705, R706) -/

/-- A memory of the device lies outside the register window, in the region of its domain. -/
theorem memAt_region {a n : Nat} {m : Mem} (hm : memAt a n = some m) (hn : 0 < n) (hr : m ≠ .regs) :
    inWindow a = none ∧ regionDomain a = some m.domain := by
  unfold memAt at hm
  split at hm
  next hbuf =>
    cases hm
    exact ⟨if_neg (by omega), if_pos (by omega)⟩
  next hbuf =>
    split at hm
    next hbough =>
      have hwin : inWindow a = none := if_neg (by omega)
      have hregion : a % 0x1000000 < 0x40000 ∨ 0x100000 ≤ a % 0x1000000 ∧ a % 0x1000000 < 0x240000 →
          regionDomain a = some (4 + (a - 0x100000000) / 0x1000000) := fun ho => by
        rw [regionDomain, if_neg (by omega), if_pos hbough]
        exact if_pos ho
      dsimp only at hm
      split at hm
      · cases hm
        exact ⟨hwin, hregion (by omega)⟩
      · split at hm
        · cases hm
          exact ⟨hwin, hregion (by omega)⟩
        · split at hm
          · cases hm
            exact ⟨hwin, hregion (by omega)⟩
          · cases hm
    next hbough =>
      split at hm
      · exact absurd (Option.some.inj hm).symm hr
      · cases hm

/-- Bytes inside one word touch that word alone. -/
theorem wordsOf_one {a n : Nat} (h : a % 4 + n ≤ 4) (hn : 0 < n) : wordsOf a n = [4 * (a / 4)] := by
  rw [wordsOf, if_neg (by omega), show (a + n - 1) / 4 + 1 - a / 4 = 1 by omega]
  rfl

theorem State.leNat_peekBytes (s : State) : ∀ (n a : Nat), leNat (s.peekBytes a n) = s.peek a n
  | 0, _ => rfl
  | n + 1, a => by
    have ih := State.leNat_peekBytes s n (a + 1)
    rw [State.peekBytes] at ih ⊢
    rw [List.range_succ_eq_map, List.map_cons, List.map_map, leNat, State.peek, ← ih]
    simp only [Function.comp_def, Nat.add_zero, Nat.succ_eq_add_one, Nat.add_assoc, Nat.add_comm 1]

theorem State.memRead_value {s : State} {a : Nat} (he : s.eccAt a = 0) (m : Mem) (n : Nat) :
    s.memRead m a n = (some (s.peek a n), s) := by
  simp [State.memRead, he]

theorem State.memReadAll_good {s : State} {m : Mem} {a n : Nat} (h : a % 4 + n ≤ 4) (hn : 0 < n) (he : s.eccAt a = 0) :
    s.memReadAll m a n = (some (s.peekBytes a n), s) := by
  have he' : s.eccAt (4 * (a / 4)) = 0 := by rw [← he, State.eccAt, State.eccAt, Nat.mul_div_cancel_left _ (by decide)]
  rw [State.memReadAll, wordsOf_one h hn]
  simp only [List.foldl, State.memRead_value he']
  rfl

/-- R705: a write into a word whose check bits are good. -/
theorem State.memWrite_good {s : State} {m : Mem} {a : Nat} (bs : Bytes) (he : s.eccAt a = 0) :
    s.memWrite m a bs = (true, ((s.inject m.store).2.poke a bs).setEcc a (s.inject m.store).1) := by
  rw [State.memWrite, he]
  split <;> rfl

/-- R605: all that an injection changes is its own register, which a one-shot injection uses up. -/
theorem State.inject_state (s : State) (st : Nat) :
    (s.inject st).2 = s ∨ (s.inject st).2 = s.setFld (R.FLT_INJ_MODE st) 0 := by
  simp only [State.inject]
  split
  · dsimp only
    split
    · exact .inr rfl
    · exact .inl rfl
  · exact .inl rfl

theorem State.inject_eq (s : State) (st : Nat) : (s.inject st).2 = { s with regs := (s.inject st).2.regs } := by
  obtain h | h := s.inject_state st
  · rw [h]
  · rw [h]; rfl

theorem State.inject_reg_other (s : State) (st : Nat) {q : Nat} (h : q ≠ (R.FLT_INJ_MODE st).off) :
    (s.inject st).2.reg q = s.reg q := by
  obtain hs | hs := s.inject_state st
  · rw [hs]
  · rw [hs, State.reg_setFld_other _ _ _ _ h]

/-- A store of bytes changes memory alone. -/
theorem State.poke_eq (bs : Bytes) : ∀ (s : State) (a : Nat), s.poke a bs = { s with mem := (s.poke a bs).mem } := by
  induction bs with
  | nil => exact fun _ _ => rfl
  | cons b bs ih =>
    intro s a
    rw [State.poke, ih]
    rfl

/-- What a write of bytes into a good word leaves: the bytes, and nothing else but the injection register. -/
theorem State.write_frame (s : State) (st a : Nat) (bs : Bytes) {u : State}
    (hu : u = ((s.inject st).2.poke a bs).setEcc a (s.inject st).1) :
    (∀ i, i < bs.length → u.byteAt (a + i) = bs.getD i 0) ∧ (∀ i, i < a ∨ a + bs.length ≤ i → u.byteAt i = s.byteAt i) ∧
    (∀ q, q ≠ (R.FLT_INJ_MODE st).off → u.reg q = s.reg q) ∧ { u with mem := s.mem, ecc := s.ecc, regs := s.regs } = s := by
  have hbyte : ∀ i, u.byteAt i = ((s.inject st).2.poke a bs).byteAt i := fun _ => by rw [hu]; rfl
  refine ⟨fun i hi => ?_, fun i hi => ?_, fun q hq => ?_, ?_⟩
  · rw [hbyte, State.byteAt_poke_same bs _ _ _ hi]
  · rw [hbyte, State.byteAt_poke_other bs _ _ _ hi, s.inject_eq]
    rfl
  · rw [← s.inject_reg_other st hq, hu, State.poke_eq]
    rfl
  · rw [hu, State.poke_eq, s.inject_eq]
    rfl

theorem getD_leBytes : ∀ (n v i : Nat), i < n → (leBytes n v).getD i 0 = BitVec.ofNat 8 (v / 2 ^ (8 * i))
  | n + 1, v, 0, _ => by simp [leBytes]
  | n + 1, v, i + 1, h => by
    rw [leBytes, List.getD_cons_succ, getD_leBytes n (v / 256) i (by omega), Nat.div_div_eq_div_mul, Nat.mul_succ, Nat.pow_add,
      Nat.mul_comm]

@[simp] theorem length_leBytes : ∀ (n v : Nat), (leBytes n v).length = n
  | 0, _ => rfl
  | n + 1, v => by rw [leBytes, List.length_cons, length_leBytes n]

theorem reqOf_bufBarred (s : State) (t : Thr) (w : Bool) : s.bufBarred (reqOf t) w = false := by
  cases t <;> rfl

section
variable {s : State} {t : Thr} {ea : Word} {a n : Nat} {m : Mem}

theorem State.dataRead_good (hp : s.dataPlace t ea = some (.inl a)) (hw : a % 4 + n ≤ 4) (hn : 0 < n) (hm : memAt a n = some m)
    (hr : m ≠ .regs) (hg : s.granted m.domain = true) (he : s.eccAt a = 0) : s.dataRead t ea n = ⟨0, s.peek a n, s⟩ := by
  obtain ⟨hwin, hreg⟩ := memAt_region hm hn hr
  simp [State.dataRead, hp, State.busRead, hwin, hreg, hg, hm, reqOf_bufBarred, State.memReadAll_good hw hn he,
    State.leNat_peekBytes]

theorem State.dataWrite_good (hp : s.dataPlace t ea = some (.inl a)) (hw : a % 4 + n ≤ 4) (hn : 0 < n) (hm : memAt a n = some m)
    (hr : m ≠ .regs) (hg : s.granted m.domain = true) (he : s.eccAt a = 0) (v : Nat) : s.dataWrite t ea n v =
      ⟨0, 0, ((s.inject m.store).2.poke a (leBytes n v)).setEcc a (s.inject m.store).1⟩ := by
  obtain ⟨hwin, hreg⟩ := memAt_region hm hn hr
  simp [State.dataWrite, hp, State.busWrite, hwin, hreg, hg, hm, reqOf_bufBarred, hw, State.memWrite_good _ he]

theorem State.dataSwap_good (hp : s.dataPlace t ea = some (.inl a)) (hm : memAt a 4 = some m)
    (hr : m ≠ .regs) (hg : s.granted m.domain = true) (he : s.eccAt a = 0) (f : Nat → Nat) : s.dataSwap t ea f =
      ⟨0, s.peek a 4, ((s.inject m.store).2.poke a (leBytes 4 (f (s.peek a 4)))).setEcc a (s.inject m.store).1⟩ := by
  obtain ⟨hwin, hreg⟩ := memAt_region hm (by decide) hr
  simp [State.dataSwap, hp, hwin, hreg, hg, hm, State.memRead_value he, State.memWrite_good _ he]

end

/-- Settles O12: a read gives the bytes, a write is `poke` and an injection, and an atomic is the one after the other. -/
theorem memoryAccesses : Obligations.MemoryAccesses := by
  intro s t ea a n m hp hw hn hm hr hg he
  refine ⟨State.dataRead_good hp hw hn hm hr hg he, fun v => ⟨_, State.dataWrite_good hp hw hn hm hr hg he v, ?_⟩, ?_⟩
  · obtain ⟨hin, hout, hregs, hframe⟩ := s.write_frame m.store a (leBytes n v) rfl
    rw [length_leBytes] at hin hout
    exact ⟨fun i hi => (hin i hi).trans (getD_leBytes n v i hi), hout, hregs, hframe⟩
  · rintro rfl f
    exact ⟨_, State.dataSwap_good hp hm hr hg he f, State.dataWrite_good hp hw hn hm hr hg he _⟩

end Sys2Proof.Machine
end

section
/-! FORK and JOIN (06, R200–R204, R708). -/

namespace Sys2Proof.Machine

/-! ## FORK -/

/-- The thread that a FORK takes has not started: it is IDLE or UNASSIGNED. -/
theorem State.forkPick_resting {s : State} {k c : Nat} {bor : Bool} (h : s.forkPick k = some (c, bor)) :
    (s.thr c).state = .idle ∨ (s.thr c).state = .unassigned := by
  unfold State.forkPick at h
  dsimp only at h
  split at h
  next d hd =>
    cases h
    have hfound := List.find?_some hd
    simp only [Bool.and_eq_true, beq_iff_eq] at hfound
    exact .inl hfound.1
  next =>
    split at h
    · obtain ⟨d, hd, hc⟩ := Option.map_eq_some_iff.mp h
      cases hc
      have hfound := List.find?_some hd
      simp only [Bool.and_eq_true, beq_iff_eq] at hfound
      exact .inr hfound.1
    · cases h

/-- A change of a thread changes the table of threads alone. -/
theorem State.updThr_eq (s : State) (k : Nat) (f : Thread → Thread) : s.updThr k f = { s with threads := (s.updThr k f).threads } := rfl

/-- The child of a FORK begins with the argument in g1 (R201). -/
theorem State.startChild_gr_one (s : State) (k c : Nat) (bor : Bool) (pc g1 : Word) :
    ((s.startChild k c bor pc g1).thr c).gr 1 = g1 := by
  rw [State.startChild, State.thr_updThr_same]
  exact (Thread.gr_setG (s.thr c).reset 1 1 g1).trans (if_pos ⟨rfl, by decide⟩)

section
variable {t : Fin 512} {rd ra rb : BitVec 5} {s : State}

/-- FORK of a scion thread with an even PC, its child found. -/
theorem execFork_started {c : Nat} {bor : Bool} (hi : CanIssue s (.scion t) 4)
    (heven : bitOf ((s.own (.scion t)).gr ra.toNat) 0 = false) (hpick : s.forkPick t.val = some (c, bor)) :
    exec (.fork (.scion t) rd ra rb) s =
      .next ((s.startChild t.val c bor ((s.own (.scion t)).gr ra.toNat) ((s.own (.scion t)).gr rb.toNat)).updThr t.val
        (fun th => { th.setG rd.toNat (BitVec.ofNat 32 c) with pc := (s.own (.scion t)).pc + 4 })) := by
  have hk : thrKey (.scion t) < 512 := t.isLt
  refine congrArg Host.Outcome.next ((State.issue_next hi _).trans ?_)
  dsimp only
  rw [if_neg (by simp [heven]), if_pos hk]
  simp only [show s.forkPick (thrKey (.scion t)) = some (c, bor) from hpick]
  rfl

theorem execFork_failed (hi : CanIssue s (.scion t) 4)
    (hfail : bitOf ((s.own (.scion t)).gr ra.toNat) 0 = true ∨ s.forkPick t.val = none) :
    exec (.fork (.scion t) rd ra rb) s =
      .next ((s.satAdd (R.BGH_FORK_FAIL_COUNT (boughOf t.val)) 1 65535).setThr t.val
        { (s.own (.scion t)).setG rd.toNat 0xFFFFFFFF with pc := (s.own (.scion t)).pc + 4 }) := by
  have hk : thrKey (.scion t) < 512 := t.isLt
  refine congrArg Host.Outcome.next ((State.issue_next hi _).trans ?_)
  dsimp only
  by_cases hodd : bitOf ((s.own (.scion t)).gr ra.toNat) 0 = true
  · rw [if_pos hodd, if_pos hk]
    rfl
  · rw [if_neg hodd, if_pos hk]
    simp only [show s.forkPick (thrKey (.scion t)) = none from hfail.resolve_left hodd, if_pos hk]
    rfl

end

/-! ## JOIN -/

/-- R204: going on to the next instruction changes no parent. -/
theorem State.joinChild_goneOn (s : State) (k : Nat) (pc code : Word) :
    (s.updThr k (fun t => { t with pc := pc })).joinChild k code = s.joinChild k code := by
  have hparent : ∀ c, ((s.updThr k (fun t => { t with pc := pc })).thr c).parent = (s.thr c).parent := fun c => by
    by_cases hc : c = k
    · rw [hc, State.thr_updThr_same]
    · rw [State.thr_updThr_other s _ hc]
  simp only [State.joinChild, hparent]

section
variable {t : Thr} {ra : BitVec 5} {s : State}

/-- The child that a JOIN names, judged after the thread has gone on. -/
theorem State.joinChild_issued (s : State) (k : Nat) (pc : Word) (ra : BitVec 5) :
    (s.updThr k (fun t => { t with pc := pc })).joinChild k (((s.updThr k (fun t => { t with pc := pc })).thr k).gr ra.toNat) =
      s.joinChild k ((s.thr k).gr ra.toNat) := by
  rw [State.joinChild_goneOn, State.thr_updThr_same]
  rfl

theorem execJoin_child {c : Nat} (hi : CanIssue s t 4) (hc : s.joinChild (thrKey t) ((s.own t).gr ra.toNat) = some c) :
    exec (.join t ra) s = .next (
      let s' := s.setThr (thrKey t) { s.own t with pc := (s.own t).pc + 4 }
      if (s'.thr c).state = .done then s'.updThr c Thread.toPool
      else s'.updThr (thrKey t) (fun t => { t with state := .wait, wait := .join c })) := by
  refine congrArg Host.Outcome.next ((State.issue_next hi _).trans ?_)
  simp only [State.joinChild_issued, hc]
  rfl

theorem execJoin_noChild (hi : CanIssue s t 4) (hc : s.joinChild (thrKey t) ((s.own t).gr ra.toNat) = none) :
    exec (.join t ra) s = .next (s.setThr (thrKey t) { s.own t with pc := (s.own t).pc + 4 }) := by
  refine congrArg Host.Outcome.next ((State.issue_next hi _).trans ?_)
  simp only [State.joinChild_issued, hc]
  rfl

theorem execJoin_done {c : Nat} (hi : CanIssue s t 4) (hc : s.joinChild (thrKey t) ((s.own t).gr ra.toNat) = some c)
    (hne : c ≠ thrKey t) (hdone : (s.thr c).state = .done) : exec (.join t ra) s =
      .next ((s.setThr (thrKey t) { s.own t with pc := (s.own t).pc + 4 }).setThr c (s.thr c).toPool) := by
  rw [execJoin_child hi hc]
  simp only [State.thr_setThr_other s _ hne, hdone, if_true, State.updThr]

theorem execJoin_waits {c : Nat} (hi : CanIssue s t 4) (hc : s.joinChild (thrKey t) ((s.own t).gr ra.toNat) = some c)
    (hne : c ≠ thrKey t) (hbusy : (s.thr c).state ≠ .done) : exec (.join t ra) s =
      .next (s.setThr (thrKey t) { s.own t with pc := (s.own t).pc + 4, state := .wait, wait := .join c }) := by
  have hrun : (s.own t).state = .run := hi.1
  rw [execJoin_child hi hc]
  simp only [State.thr_setThr_other s _ hne, hbusy, if_false, State.updThr, State.thr_setThr_same]
  rw [State.setThr_setThr s _ (by simp [hrun]) (by simp [hrun])]

/-- JOIN_COMPLETE of a thread that waits for `c`. -/
theorem execJoinComplete_waiting {c : Nat} (hw : (s.own t).state = .wait) (hj : (s.own t).wait = .join c) :
    exec (.joinComplete t) s = .next (
      if (s.thr c).parent = some (thrKey t) then
        (if (s.thr c).state = .done then (s.updThr c Thread.toPool).wakeThr (thrKey t) else s)
      else s.wakeThr (thrKey t)) := by
  show execJoinComplete t s = _
  simp only [execJoinComplete, hw, hj]

end

/-- Settles O15: FORK starts what its search finds, JOIN and JOIN_COMPLETE judge the child's state and parent. -/
theorem forkAndJoin : Obligations.ForkAndJoin := by
  refine ⟨?_, fun t rd ra rb s hi hfail => execFork_failed hi hfail,
    fun t ra s c hi hc hne => ⟨execJoin_done hi hc hne, execJoin_waits hi hc hne⟩, fun t ra s hi hc => execJoin_noChild hi hc, ?_⟩
  · rintro t rd ra rb s c bor _ _ hi rfl rfl heven hpick
    have hrun : (s.thr t.val).state = .run := hi.1
    have hne : c ≠ t.val := by
      rintro rfl
      obtain h | h := State.forkPick_resting hpick <;> rw [hrun] at h <;> cases h
    refine ⟨_, execFork_started hi heven hpick, hne, ?_⟩
    have hg1 := s.startChild_gr_one t.val c bor ((s.own (.scion t)).gr ra.toNat) ((s.own (.scion t)).gr rb.toNat)
    rw [State.thr_updThr_other _ _ hne, hg1, State.startChild, State.thr_updThr_same]
    refine ⟨rfl, rfl, rfl, rfl, rfl, rfl, rfl, ?_, fun j hjc hjt => ?_, ?_⟩
    · exact (State.thr_updThr_same _ _ _).trans (by rw [State.thr_updThr_other _ _ (Ne.symm hne)]; rfl)
    · rw [State.thr_updThr_other _ _ hjt, State.thr_updThr_other _ _ hjc]
    · rw [State.updThr_eq, State.updThr_eq s]
  · intro t s c hw hj hne
    refine ⟨fun hp hd => ?_, fun hp => ?_⟩
    · rw [execJoinComplete_waiting hw hj, if_pos hp, if_pos hd]
      simp only [State.wakeThr, State.updThr, State.thr_setThr_other s _ (Ne.symm hne)]
    · rw [execJoinComplete_waiting hw hj, if_neg hp]
      rfl

end Sys2Proof.Machine
end

section
/-! Cold start, warm reset and VIO (02, R41, R57, R70–R76; Table 1.7). -/

namespace Sys2Proof.Machine

/-! ## Registers that a reset restores -/

theorem restored_cold (c m : Word) : (c &&& ~~~ m) ||| (c &&& m) = c := by
  ext i hi
  simp only [BitVec.getElem_or, BitVec.getElem_and, BitVec.getElem_not]
  rw [← Bool.and_or_distrib_left, Bool.not_or_self, Bool.and_true]

/-- What a key of a canonical table reads as after some bits of its entries went back to their cold values. -/
theorem tabGet_coldTab (m : Nat → Word) (k : Nat) {t : Tab Word} (ht : tabWf coldWord t = true) :
    tabGet (coldWord k) k (coldTab m t) = (tabGet (coldWord k) k t &&& ~~~ m k) ||| (coldWord k &&& m k) := by
  induction t with
  | nil => exact (restored_cold _ _).symm
  | cons c t ih =>
    obtain ⟨j, w⟩ := c
    simp only [tabWf, Bool.and_eq_true, decide_eq_true_eq] at ht
    obtain ⟨⟨-, habove⟩, htail⟩ := ht
    have ih := ih htail
    simp only [coldTab, List.filterMap_cons, tabGet, tabFind] at ih ⊢
    by_cases hjk : j = k
    · subst hjk
      by_cases hcold : (w &&& ~~~ m j) ||| (coldWord j &&& m j) = coldWord j
      · have hnone := tabAbove_find (Nat.le_refl j) (tabAbove_cold m habove)
        simp only [coldTab] at hnone
        simp [hcold, hnone]
      · simp [hcold, tabFind]
    · by_cases hcold : (w &&& ~~~ m j) ||| (coldWord j &&& m j) = coldWord j
      · simp only [hcold, if_true, hjk, if_false]
        exact ih
      · simp only [hcold, if_false, tabFind, hjk]
        exact ih

theorem State.reg_coldBits {s : State} (hwf : s.wf = true) (m : Nat → Word) (off : Nat) :
    (s.coldBits m).reg off = (s.reg off &&& ~~~ m off) ||| (coldWord off &&& m off) := by
  have hregs : tabWf coldWord s.regs = true := by
    simp only [State.wf, Bool.and_eq_true] at hwf
    exact hwf.2
  exact tabGet_coldTab m off hregs

/-! ## What the end of a warm reset settles -/

theorem State.settlePlls_eq (s : State) : ∃ plls, s.settlePlls = { s with tap := { s.tap with plls := plls } } := by
  refine foldl_kept (P := fun t => ∃ plls, t = { s with tap := { s.tap with plls := plls } }) ?_ _ ⟨s.tap.plls, rfl⟩
  rintro u p ⟨plls, rfl⟩
  dsimp only
  split
  · exact ⟨plls, rfl⟩
  · exact ⟨_, rfl⟩

theorem State.setFld_frame (s : State) (f : Fld) (v : Nat) : ∃ regs, s.setFld f v = { s with regs := regs } := ⟨_, rfl⟩

/-- Two fields written and the pin of a fan: the turn of one fan channel in `fanRefresh`. -/
theorem State.fanTurn_frame (s : State) (f g : Fld) (d v n : Nat) (p : State → Option FanPin) : ∃ regs fan,
    (let t := (s.setFld f d).setFld g v;
      { t with pins := { t.pins with fan := tabSet none n (p t) t.pins.fan } }) = { s with regs := regs, pins := { s.pins with fan := fan } } := by
  obtain ⟨r, hr⟩ := s.setFld_frame f d
  obtain ⟨q, hq⟩ := State.setFld_frame { s with regs := r } g v
  rw [hr, hq]
  exact ⟨_, _, rfl⟩

theorem State.fanRefresh_eq (s : State) : ∃ regs fan, s.fanRefresh = { s with regs := regs, pins := { s.pins with fan := fan } } := by
  refine foldl_kept (P := fun t => ∃ regs fan, t = { s with regs := regs, pins := { s.pins with fan := fan } }) ?_ _
    ⟨s.regs, s.pins.fan, rfl⟩
  rintro u n ⟨regs, fan, rfl⟩
  obtain ⟨r, f, h⟩ := State.fanTurn_frame { s with regs := regs, pins := { s.pins with fan := fan } } _ _ _ _ n (fun t => some (t.fanPin n _))
  exact ⟨r, f, h⟩
/-- The fan channels' own registers are all that `fanRefresh` writes. -/
theorem State.fanTurn_reg (s : State) (f g : Fld) (d v n : Nat) (p : State → Option FanPin) {off : Nat} (hf : off ≠ f.off)
    (hg : off ≠ g.off) : State.reg (let t := (s.setFld f d).setFld g v;
      { t with pins := { t.pins with fan := tabSet none n (p t) t.pins.fan } }) off = s.reg off := by
  show ((s.setFld f d).setFld g v).reg off = _
  rw [State.reg_setFld_other _ _ _ _ hg, State.reg_setFld_other _ _ _ _ hf]

theorem State.reg_fanRefresh {s : State} {off : Nat} (h : ∀ x, x < 4 → off ≠ R.FAN_OUT x) : s.fanRefresh.reg off = s.reg off := by
  refine List.foldlRecOn (motive := fun t : State => t.reg off = s.reg off) _ _ rfl fun u hu n hn => ?_
  have hne := h n (List.mem_range.mp hn)
  exact (u.fanTurn_reg (R.FAN_OUT_DUTY n) (R.FAN_OUT_FORCED n) _ _ n (fun t => some (t.fanPin n _)) hne hne).trans hu

/-- LOOP_x_STATUS.AUTO of every loop is set (R263). -/
def State.autoLoops (s : State) : State := (List.range 4).foldl (fun s x => s.setFld (R.LOOP_STATUS_AUTO x) 1) s

theorem State.autoLoops_eq (s : State) : ∃ regs, s.autoLoops = { s with regs := regs } := by
  refine foldl_kept (P := fun t => ∃ regs, t = { s with regs := regs }) ?_ _ ⟨s.regs, rfl⟩
  rintro u x ⟨regs, rfl⟩
  exact State.setFld_frame { s with regs := regs } _ _

theorem State.reg_autoLoops (s : State) {off : Nat} (h : ∀ x, x < 4 → off ≠ R.LOOP_STATUS x) : s.autoLoops.reg off = s.reg off := by
  refine List.foldlRecOn (motive := fun t : State => t.reg off = s.reg off) _ _ rfl fun u hu x hx => ?_
  rw [State.reg_setFld_other _ _ _ _ (h x (List.mem_range.mp hx)), hu]

/-- AUTO of loop `x`, once set, is not cleared by the other loops' turns. -/
theorem State.flag_autoLoops (s : State) {x : Nat} (hx : x < 4) : s.autoLoops.flag (R.LOOP_STATUS_AUTO x) = true := by
  have hset : ∀ (l : List Nat) (s : State), x ∈ l ∨ s.fld (R.LOOP_STATUS_AUTO x) = 1 →
      (l.foldl (fun s x => s.setFld (R.LOOP_STATUS_AUTO x) 1) s).fld (R.LOOP_STATUS_AUTO x) = 1 := by
    intro l
    induction l with
    | nil => exact fun s h => h.resolve_left List.not_mem_nil
    | cons y l ih =>
      intro s h
      rw [List.foldl_cons]
      refine ih _ ?_
      by_cases hy : x = y
      · subst hy
        exact .inr (State.fld_setFld_same _ _ _ rfl)
      · refine h.imp (fun hmem => (List.mem_cons.mp hmem).resolve_left hy) fun hold => ?_
        rw [State.fld_setFld_off _ _ _ _ (by simp only [R.LOOP_STATUS_AUTO, R.LOOP_STATUS]; omega), hold]
  rw [State.flag, State.autoLoops, hset _ _ (.inl (List.mem_range.mpr hx))]
  rfl

/-- The end of a warm reset writes registers, PLLs and fan pins. -/
theorem State.settled_frame (w : State) : ∃ regs plls fan, w.settlePlls.autoLoops.fanRefresh =
    { w with regs := regs, tap := { w.tap with plls := plls }, pins := { w.pins with fan := fan } } := by
  obtain ⟨plls, hplls⟩ := w.settlePlls_eq
  obtain ⟨regs, hregs⟩ := State.autoLoops_eq { w with tap := { w.tap with plls := plls } }
  rw [hplls, hregs]
  obtain ⟨regs', fan, h⟩ := State.fanRefresh_eq { w with regs := regs, tap := { w.tap with plls := plls } }
  exact ⟨regs', plls, fan, h⟩

/-- What a warm reset makes of the state `v` that the open switches leave, before its engines settle (Table 1.7). -/
def State.warmCut (v : State) : State :=
  { v.coldBits (kindBits Kinds.warm) with
    threads := tabKeep (· < 512) v.threads, pm := {}, ctl := [], jobs := {}, boot := {}, bat := {}, fanForced := false,
    pins := { v.pins with faultLow := false, wdTrip := false },
    slow := { v.slow with wdtCycles := 0, wdtArmed := none, wdtKeys := [], rowWdtCycles := [] },
    tap := { v.tap with mode := .running, hwReq := [(1, true), (2, true)], warmHeld := true } }

theorem State.warmReset_eq {s v : State} (hv : v = (List.range 13).foldl (fun s i => s.openSwitch (15 - i)) s) :
    s.warmReset = v.warmCut.settlePlls.autoLoops.fanRefresh := by
  rw [State.warmReset, ← hv]
  rfl

theorem State.reg_warmReset {s v : State} (hv : v = (List.range 13).foldl (fun s i => s.openSwitch (15 - i)) s) (hwf : s.wf = true)
    {off : Nat} (h : ∀ x, x < 4 → off ≠ R.LOOP_STATUS x ∧ off ≠ R.FAN_OUT x) :
    s.warmReset.reg off = (v.reg off &&& ~~~ kindBits Kinds.warm off) ||| (coldWord off &&& kindBits Kinds.warm off) := by
  have hvwf : v.wf = true := by
    rw [hv]
    exact foldl_kept (P := fun t => t.wf = true) (fun _ i => State.openSwitch_kept closed_wf (15 - i)) _ hwf
  obtain ⟨plls, hplls⟩ := v.warmCut.settlePlls_eq
  rw [State.warmReset_eq hv, State.reg_fanRefresh fun x hx => (h x hx).2, State.reg_autoLoops _ fun x hx => (h x hx).1, hplls]
  exact State.reg_coldBits hvwf _ off

theorem State.flag_fanRefresh {s : State} {g : Fld} (h : ∀ x, x < 4 → g.off ≠ R.FAN_OUT x) : s.fanRefresh.flag g = s.flag g := by
  rw [State.flag, State.fld, State.reg_fanRefresh h]
  rfl

theorem State.flag_warmReset (s : State) {x : Nat} (hx : x < 4) : s.warmReset.flag (R.LOOP_STATUS_AUTO x) = true := by
  rw [State.warmReset_eq rfl, State.flag_fanRefresh fun y hy => by simp only [R.LOOP_STATUS_AUTO, R.LOOP_STATUS, R.FAN_OUT]; omega]
  exact State.flag_autoLoops _ hx

/-! ## Cold start and VIO -/

theorem State.tapOn_false_iff (s : State) : s.tapOn = false ↔ s.tap.mode = .powerOnReset := by
  simp [State.tapOn]

theorem execVioLoss_on {s : State} (hon : s.tap.mode ≠ .powerOnReset) (hgood : s.tap.mode ≠ .vioLost) : exec .vioLoss s = .next (
    let v : State := { s with
      pins := { s.pins with shdnLow := false, tripTs := false, tripX := false }
      tap := { s.tap with vioGood := false, stby := s.tap.mode == .standby, mode := .vioLost } }
    let u := (List.range 15).foldl (fun s i => s.openSwitch (15 - i)) v
    (u.updTap (fun t => { t with refSys := .off, plls := [] })).fault 1 6) := by
  exact congrArg Host.Outcome.next (if_neg (by simp [State.tapOn, State.updTap, hon, hgood]))

/-- Settles O22: a command in its mode is the change that the statement writes out; the warm reset's by the lemmas above. -/
theorem coldStartAndResets : Obligations.ColdStartAndResets := by
  refine ⟨?_, fun s => rfl, ?_, ?_, ?_, ?_⟩
  · rintro straps te s u hoff rfl
    exact congrArg Host.Outcome.next (if_neg (by simp [State.tapOn, hoff]))
  · intro s v hmode hheld htest hv
    refine ⟨s.warmReset, congrArg Host.Outcome.next (if_pos ⟨hmode, hheld, htest⟩), ?_⟩
    obtain ⟨regs, plls, fan, h⟩ := v.warmCut.settled_frame
    have hflag := fun x hx => s.flag_warmReset (x := x) hx
    have hreg := fun hwf off h => State.reg_warmReset hv hwf (off := off) h
    rw [State.warmReset_eq hv, h] at *
    exact ⟨rfl, rfl, rfl, rfl, rfl, rfl, rfl, rfl, rfl, rfl, rfl, rfl, rfl, rfl, rfl, rfl, rfl, rfl, rfl, hflag, hreg⟩
  · rintro s u hheld rfl
    exact congrArg Host.Outcome.next (if_pos hheld)
  · rintro s u v hon hgood rfl rfl
    exact execVioLoss_on hon hgood
  · rintro s u hlost rfl
    exact congrArg Host.Outcome.next (if_pos hlost)

end Sys2Proof.Machine
end

section
/-! The slow clock and the wake sources (02, R42–R51, R74, R75). -/

namespace Sys2Proof.Machine

theorem State.tapOn_of {s : State} (h : s.tap.mode ≠ .powerOnReset) : s.tapOn = true := by simp [State.tapOn, h]

/-! ## A wake source qualifies -/

section
variable {s u : State} {i : Nat}

/-- R49, R50: a rise of the reason bit in operation raises the event, and nothing more. -/
theorem State.wakeSource_rise (hrun : s.tap.mode = .running) (hlow : bitOf (s.reg R.TAP_WAKE_REASON) i = false)
    (hu : u = (s.setBit R.TAP_WAKE_REASON i).event (s.reg R.TAP_WAKE_ROUTE)) (hrun' : u.tap.mode = .running)
    (hclosed : u.tap.firstOpen = false) : s.wakeSource i = u := by
  have hroute : (s.setBit R.TAP_WAKE_REASON i).reg R.TAP_WAKE_ROUTE = s.reg R.TAP_WAKE_ROUTE := State.reg_setReg_other _ _ (by decide)
  simp [State.wakeSource, hlow, hrun, hroute, ← hu, hrun', hclosed]

/-- R51: a source that qualifies again, while the cycle of the first wake still runs, takes the first place from a higher one. -/
theorem State.wakeSource_again (hrun : s.tap.mode = .running) (hhigh : bitOf (s.reg R.TAP_WAKE_REASON) i = true)
    (hopen : s.tap.firstOpen = true) (hu : u = s.setBit R.TAP_WAKE_REASON i) : s.wakeSource i =
      if bitOf (s.reg R.TAP_WAKE_EN) i = true ∧ i < s.fld R.TAP_WAKE_FIRST_SRC then u.setFld R.TAP_WAKE_FIRST_SRC i else u := by
  subst hu
  have hen : (s.setBit R.TAP_WAKE_REASON i).reg R.TAP_WAKE_EN = s.reg R.TAP_WAKE_EN := State.reg_setReg_other _ _ (by decide)
  have hfirst : (s.setBit R.TAP_WAKE_REASON i).fld R.TAP_WAKE_FIRST_SRC = s.fld R.TAP_WAKE_FIRST_SRC :=
    State.fld_setReg_off _ _ _ _ (by decide)
  cases he : bitOf (s.reg R.TAP_WAKE_EN) i with
  | false => simp [State.wakeSource, hhigh, hrun, hopen, hen, he]
  | true =>
    by_cases hplace : i < s.fld R.TAP_WAKE_FIRST_SRC
    · simp [State.wakeSource, hhigh, hrun, hopen, hen, hfirst, he, hplace]
    · simp [State.wakeSource, hhigh, hrun, hopen, hen, hfirst, he, hplace]

/-- R51, R74: an enabled source ends standby. -/
theorem State.wakeSource_standby (hstby : s.tap.mode = .standby) (hclosed : s.tap.firstOpen = false) : s.wakeSource i =
    if bitOf (s.reg R.TAP_WAKE_EN) i then ((s.setBit R.TAP_WAKE_REASON i).firstWake i).restart
    else s.setBit R.TAP_WAKE_REASON i := by
  have hen : (s.setBit R.TAP_WAKE_REASON i).reg R.TAP_WAKE_EN = s.reg R.TAP_WAKE_EN := State.reg_setReg_other _ _ (by decide)
  simp [State.wakeSource, hstby, hclosed, hen]

end

/-! ## The sources -/

section
variable {s : State}

theorem execRtcAlarm_met (hc : s.slow.counted = true) (hsec : s.reg R.TAP_RTC_SEC_LO = s.reg R.TAP_ALARM_SEC)
    (hsub : s.fld R.TAP_RTC_SUB_SUB = s.fld R.TAP_ALARM_SUB_SUB) :
    exec .rtcAlarm s = .next (State.wakeSource { s with slow := { s.slow with counted := false } } 10) :=
  congrArg Host.Outcome.next (if_pos (by simp [hc, hsec, hsub]))

theorem execWakeQualify_new {n : Fin 8} (hon : s.tap.mode ≠ .powerOnReset) (hen : s.fld (R.TAP_WAKE_CFG_EN n.val) ≠ 0)
    (hheld : s.wakeHeld n.val = false) : exec (.wakeQualify n) s =
      .next ((s.setWakeHeld n.val (decide (s.fld (R.TAP_WAKE_CFG_MODE n.val) = 0))).wakeSource n.val) := by
  have hmode : (!s.flag (R.TAP_WAKE_CFG_MODE n.val)) = decide (s.fld (R.TAP_WAKE_CFG_MODE n.val) = 0) := by
    rw [State.flag, bne, Bool.not_not]
    rfl
  rw [← hmode]
  exact congrArg Host.Outcome.next (if_neg (by simp [State.tapOn_of hon, State.flag, hen, hheld]))

theorem execVbatComparatorQualify_hi (hon : s.tap.mode ≠ .powerOnReset) (harm : s.tap.vbatHiArmed = true)
    (hcode : s.fld R.TAP_VBAT_CMP_HI_CODE ≠ 0) : exec (.vbatComparatorQualify true) s =
      .next ((s.updTap (fun t => { t with vbatHiArmed := false })).wakeSource 9) :=
  congrArg Host.Outcome.next (if_pos (by simp [State.tapOn_of hon, harm, hcode]))

theorem execVbatComparatorQualify_lo (hon : s.tap.mode ≠ .powerOnReset) (harm : s.tap.vbatLoArmed = true)
    (hcode : s.fld R.TAP_VBAT_CMP_LO_CODE ≠ 0) : exec (.vbatComparatorQualify false) s =
      .next ((s.updTap (fun t => { t with vbatLoArmed := false })).wakeSource 8) :=
  congrArg Host.Outcome.next (if_pos (by simp [State.tapOn_of hon, harm, hcode]))

end

/-- Settles O23: each source, enabled, calls `wakeSource`, whose cases the lemmas above give. -/
theorem clockAndWakeSources : Obligations.ClockAndWakeSources :=
  ⟨fun _ hon => ⟨congrArg Host.Outcome.next (if_pos (State.tapOn_of hon)), congrArg Host.Outcome.next (if_pos (State.tapOn_of hon))⟩,
    fun _ hc hsec hsub => execRtcAlarm_met hc hsec hsub,
    fun _ _ hon hen hheld => execWakeQualify_new hon hen hheld,
    fun _ _ => rfl,
    fun _ hon => ⟨execVbatComparatorQualify_hi hon, execVbatComparatorQualify_lo hon⟩,
    fun _ => ⟨rfl, rfl⟩,
    fun _ _ _ hrun hlow _ hu hrun' hclosed => State.wakeSource_rise hrun hlow hu hrun' hclosed,
    fun _ _ _ hrun hhigh hopen hu => State.wakeSource_again hrun hhigh hopen hu,
    fun _ _ hstby hclosed => State.wakeSource_standby hstby hclosed⟩

end Sys2Proof.Machine
end

section
/-! Requests, grants and releases of power domains (02, R59–R69, R76–R79, R682; Table 2.2). -/

namespace Sys2Proof.Machine

/-! ## Requests (R59–R64) -/

section
variable {s t u : State} {d : Nat}

theorem State.requestDomain_busy (h : u.domState d ≠ 0) : u.requestDomain d = u := if_pos (.inr (.inr (.inr h)))

/-- R60: a domain that is OFF starts its clocks and waits for what it still lacks. -/
theorem State.requestDomain_off (hd : d ≠ 0) (hrun : u.tap.mode = .running) (htest : u.tap.testEn = false) (hoff : u.domState d = 0) :
    u.requestDomain d = ((u.setFld (R.PDC_DOM_ERR d) 0).startClocks (pllOf d)).setDomState d
      (if 4 ≤ d ∧ d < 12 then 2 else if u.pll (pllOf d) = .running then 3 else 1) := by
  rw [State.requestDomain, if_neg (by simp [hd, hrun, htest, hoff])]
  simp only [beq_iff_eq]

/-- The registers of the power controller are not the espalier's. -/
theorem State.domState_setBreq (s : State) (b : Nat) {d : Nat} (hd : d < 16) : (s.setBit R.ESP_BREQ b).domState d = s.domState d :=
  State.fld_setReg_off _ _ _ _ (by unfold R.PDC_DOM_STATE R.PDC_DOM R.ESP_BREQ; dsimp only; omega)

/-- What DOMAIN_REQUEST notes before the domain is judged. -/
theorem domainRequest_noted (hd : d < 16) (c : Prop) [Decidable c] (hu : u = (if c then s.setBit R.ESP_BREQ (d - 4) else s).setHwReq d true) :
    u.tap.mode = s.tap.mode ∧ u.tap.testEn = s.tap.testEn ∧ u.domState d = s.domState d := by
  subst hu
  by_cases hc : c
  · rw [if_pos hc]
    exact ⟨rfl, rfl, s.domState_setBreq _ hd⟩
  · rw [if_neg hc]
    exact ⟨rfl, rfl, rfl⟩

/-! ## The end of a request -/

theorem State.breqOn_false (h : d < 4 ∨ 12 ≤ d ∨ bitOf (s.reg R.ESP_BREQ) (d - 4) = false) : s.breqOn d = false := by
  unfold State.breqOn
  rcases h with h | h | h
  · simp [Nat.not_le.mpr h]
  · simp [Nat.not_lt.mpr h]
  · simp [h]

theorem State.requested_ended (h : bitOf (s.reg R.PDC_REQ) d = false) : (s.setHwReq d false).requested d = false := by
  show (tabGet false d (tabSet false d false s.tap.hwReq) || bitOf (s.reg R.PDC_REQ) d) = false
  rw [tabGet_set_same, h]
  rfl

/-- A domain that is no longer requested is judged by its state. -/
theorem State.judgeDomain_ended (hd : d ≠ 0) (h : u.requested d = false) : u.judgeDomain d =
    match u.domState d with
    | 0 => u
    | 4 => u.drain d
    | 5 => u
    | _ => u.endPending d 0 := by
  rw [State.judgeDomain, if_neg hd, h]
  rfl

theorem State.judgeDomain_granted (hd : d ≠ 0) (h : u.requested d = false) (hs : u.domState d = 4) : u.judgeDomain d = u.drain d := by
  rw [State.judgeDomain_ended hd h, hs]
  rfl

theorem State.judgeDomain_resting (hd : d ≠ 0) (h : u.requested d = false) (hs : u.domState d = 0 ∨ u.domState d = 5) :
    u.judgeDomain d = u := by
  rw [State.judgeDomain_ended hd h]
  obtain hs | hs := hs <;> (rw [hs]; rfl)

theorem State.judgeDomain_pending (hd : d ≠ 0) (h : u.requested d = false) (hlo : 1 ≤ u.domState d) (hhi : u.domState d ≤ 3) :
    u.judgeDomain d = u.endPending d 0 := by
  rw [State.judgeDomain_ended hd h]
  split
  · omega
  · omega
  · omega
  · rfl

theorem execDomainRequestEnd_judged {d : Fin 16} (hrun : s.tap.mode = .running)
    (hb : d.val < 4 ∨ 12 ≤ d.val ∨ bitOf (s.reg R.ESP_BREQ) (d.val - 4) = false) :
    exec (.domainRequestEnd d) s = .next ((s.setHwReq d.val false).judgeDomain d.val) := by
  show execDomainRequestEnd d s = _
  rw [execDomainRequestEnd, State.breqOn_false hb]
  exact congrArg Host.Outcome.next (if_pos hrun)

end

/-! ## Grants and failures -/

theorem execDomainGrant_pending {s : State} {d : Fin 16} (hrun : s.tap.mode = .running) (hd : d.val ≠ 0) (hg : s.grantable d.val = true)
    (hp : s.domState d.val = 3 ∨ (s.domState d.val = 1 ∧ ¬ (4 ≤ d.val ∧ d.val < 12))) : exec (.domainGrant d) s =
      .next ((State.setDomState (State.setBit (((s.updTap (fun t => { t with refSys := .running })).pllLocked (pllOf d.val)).setLanes
        d.val true) R.PDC_GRANT d.val) d.val 4).onGrant d.val) := by
  refine congrArg Host.Outcome.next (if_pos ⟨hrun, by omega, ?_, hg⟩)
  obtain hp | ⟨hp, hb⟩ := hp
  · simp [hp]
  · simp [hp]
    omega

theorem execBudAck_settled {s : State} {b : Fin 8} (hmem : (b.val, 0) ∈ (s.loop 0).settling) (hreg : s.loopState 0 = 2) :
    exec (.budAck b) s = .next (
      let u := s.updLoop 0 (fun l => { l with settling := l.settling.filter (fun c => c.1 != b.val) })
      if s.domState (4 + b.val) = 2 then u.setDomState (4 + b.val) 3 else u) :=
  congrArg Host.Outcome.next (if_pos (by simp [hmem, hreg]))

/-- Settles O25: each command judges the domain's state; the cases are the lemmas above. -/
theorem powerDomains : Obligations.PowerDomains := by
  refine ⟨?_, ?_, fun d s hrun hd hg hp => execDomainGrant_pending hrun hd hg hp, ?_, ?_, fun b s hw => congrArg Host.Outcome.next (if_pos hw),
    fun s hst => congrArg Host.Outcome.next (if_pos hst), fun p s hst => congrArg Host.Outcome.next (if_pos hst),
    fun rail s => ⟨rfl, rfl⟩⟩
  · rintro d s t u hon rfl hu
    obtain ⟨hmode, htest, hdom⟩ := domainRequest_noted d.isLt _ hu
    refine ⟨?_, fun hd hrun ht hoff => ?_, fun hbusy => State.requestDomain_busy (hdom ▸ hbusy)⟩
    · subst hu
      exact congrArg Host.Outcome.next (if_pos (State.tapOn_of hon))
    · exact State.requestDomain_off hd (hmode.trans hrun) (htest.trans ht) (hdom.trans hoff)
  · rintro d s u hrun rfl hd hreq hb
    have hended := s.requested_ended hreq
    rw [execDomainRequestEnd_judged hrun hb]
    exact ⟨fun hs => congrArg Host.Outcome.next (State.judgeDomain_granted hd hended hs),
      fun hs => congrArg Host.Outcome.next (State.judgeDomain_resting hd hended hs),
      fun hlo hhi => congrArg Host.Outcome.next (State.judgeDomain_pending hd hended hlo hhi)⟩
  · rintro d s u hdrain rfl
    exact congrArg Host.Outcome.next (if_pos hdrain)
  · rintro b s u hmem hreg rfl
    exact execBudAck_settled hmem hreg

end Sys2Proof.Machine
end

section
/-! The boot ROM, the fabric image and staged images (03, R80, R82–R91). -/

namespace Sys2Proof.Machine

/-! ## ROOTSTOCK_BOOT (R80, R82, R83, R85–R87) -/

section
variable {s u : State} {xspi : Option Bytes}

/-- The condition under which the boot ROM looks for an image. -/
theorem rootstockBoot_starts (h1 : s.granted 1 = true) (h3 : s.granted 3 = true) (hw : s.tap.warmHeld = false)
    (h0 : s.fld R.BOOT_STATUS_STATE = 0) :
    ¬ ((!s.granted 1 || !s.granted 3 || s.tap.warmHeld || s.fld R.BOOT_STATUS_STATE != 0) = true) := by
  simp [h1, h3, hw, h0]

variable (h1 : s.granted 1 = true) (h3 : s.granted 3 = true) (hw : s.tap.warmHeld = false) (h0 : s.fld R.BOOT_STATUS_STATE = 0)
include h1 h3 hw h0

theorem execRootstockBoot_slot {i : Nat} {h : Header}
    (htry : (s.headersRead 0).trySlots 0 [s.preferred 0, 1 - s.preferred 0] = (some i, u)) (hh : h = u.slotHeader i) :
    exec (.rootstockBoot xspi) s = .next (State.bootTo (State.setFld (State.updBoot (State.startRootstock
      (u.fillArea h (u.nvBytes ((imageSlot i).1 + 256) h.len)) h) (fun b => { b with rsStore := some i })) R.BOOT_STATUS_RS_SLOT i) 1) := by
  refine congrArg Host.Outcome.next ((if_neg (rootstockBoot_starts h1 h3 hw h0)).trans ?_)
  simp only [htry, hh]

theorem execRootstockBoot_none (htry : (s.headersRead 0).trySlots 0 [s.preferred 0, 1 - s.preferred 0] = (none, u))
    (hstrap : u.strapBoot ≠ 1) :
    exec (.rootstockBoot xspi) s = .next (if u.fuses.recovEn then u.recover else u.bootHalt) := by
  refine congrArg Host.Outcome.next ((if_neg (rootstockBoot_starts h1 h3 hw h0)).trans ?_)
  simp only [htry]
  exact if_pos hstrap

theorem execRootstockBoot_flash {img : Bytes} {h : Header}
    (htry : (s.headersRead 0).trySlots 0 [s.preferred 0, 1 - s.preferred 0] = (none, u)) (hstrap : u.strapBoot = 1)
    (hh : h = headerOf (img.take 256 ++ List.replicate (256 - img.length) 0xFF)) (herr : u.bytesErr img [1] = 0) :
    exec (.rootstockBoot (some img)) s = .next (((u.fillArea h (slice 256 h.len img)).startRootstock h).bootTo 1) := by
  refine congrArg Host.Outcome.next ((if_neg (rootstockBoot_starts h1 h3 hw h0)).trans ?_)
  simp only [htry, hh, hstrap, herr]
  rfl

end

/-! ## FABRIC_LOAD and XSPI_TIMEOUT (R88) -/

section
variable {s u : State} {xspi : Bytes}

/-- The condition under which the fabric image is loaded. -/
theorem fabricLoad_starts (h1 : s.fld R.BOOT_STATUS_STATE = 1) (h12 : s.granted 12 = true) :
    ¬ (s.fld R.BOOT_STATUS_STATE ≠ 1 ∨ s.granted 12 = false) := by
  simp [h1, h12]

variable (h1 : s.fld R.BOOT_STATUS_STATE = 1) (h12 : s.granted 12 = true)
include h1 h12

theorem execFabricLoad_staged (hstrap : s.strapBoot = 2) : exec (.fabricLoad xspi) s = .next (s.bootTo 4) :=
  congrArg Host.Outcome.next ((if_neg (fabricLoad_starts h1 h12)).trans (if_pos hstrap))

theorem execFabricLoad_flash {h : Header} (hstrap : s.strapBoot = 1)
    (hh : h = headerOf (xspi.take 256 ++ List.replicate (256 - xspi.length) 0xFF)) (herr : s.bytesErr xspi [2] = 0)
    (hon : s.targetsOn h = true) : exec (.fabricLoad xspi) s = .next (s.startFabric h 0 (slice 256 h.len xspi)) := by
  refine congrArg Host.Outcome.next ((if_neg (fabricLoad_starts h1 h12)).trans ((if_neg (by omega)).trans ((if_pos hstrap).trans ?_)))
  subst hh
  simp only [herr, hon, if_true]

theorem execFabricLoad_slot {i : Nat} {h : Header} (hs1 : s.strapBoot ≠ 1) (hs2 : s.strapBoot ≠ 2)
    (htry : (s.headersRead 2).trySlots 2 [s.preferred 2, 1 - s.preferred 2] = (some i, u)) (hh : h = u.slotHeader (2 + i))
    (hon : u.targetsOn h = true) : exec (.fabricLoad xspi) s =
      .next (u.startFabric h i (u.nvBytes ((imageSlot (2 + i)).1 + 256) h.len)) := by
  refine congrArg Host.Outcome.next ((if_neg (fabricLoad_starts h1 h12)).trans ((if_neg hs2).trans ((if_neg hs1).trans ?_)))
  subst hh
  simp only [htry, hon, if_true]

theorem execFabricLoad_none (hs1 : s.strapBoot ≠ 1) (hs2 : s.strapBoot ≠ 2)
    (htry : (s.headersRead 2).trySlots 2 [s.preferred 2, 1 - s.preferred 2] = (none, u)) :
    exec (.fabricLoad xspi) s = .next u.fabricFailed := by
  refine congrArg Host.Outcome.next ((if_neg (fabricLoad_starts h1 h12)).trans ((if_neg hs2).trans ((if_neg hs1).trans ?_)))
  simp only [htry]

theorem execXspiTimeout_next (hstrap : s.strapBoot = 1) : exec .xspiTimeout s = .next (s.setFld R.BOOT_STATUS_ERR 8).fabricFailed :=
  congrArg Host.Outcome.next (if_pos ⟨h1, h12, hstrap⟩)

end

/-! ## Staged images and RELEASE (R86–R91) -/

theorem execStageGo_next {s : State} {req : Req} (hc : CanWrite s req R.BOOT_STAGE_GO) :
    exec (.stageGo req) s = .next (s.setReg R.BOOT_STAGE_GO (s.reg R.BOOT_STAGE_GO)).stageGo := by
  show execStageGo req s = _
  rw [execStageGo, State.regDo_secCommand (a := 1) hc (by decide) (by decide)]
  rfl

/-- A write of BOOT_CTL.RELEASE under 0b11 before the release. -/
theorem execBoughRelease_next {s u : State} {req : Req} (hc : CanWrite s req R.BOOT_CTL)
    (hu : u = s.setReg R.BOOT_CTL (s.reg R.BOOT_CTL)) (hstrap : s.strapBoot = 3) (hrel : s.boot.released = false) :
    exec (.boughRelease req) s = .next (
      let v := u.updBoot (fun b => { b with released := true })
      if s.fld R.BOOT_STATUS_STATE = 7 then v.startBoughs else v) := by
  have hstrap' : u.strapBoot = 3 := by
    rw [← hstrap, hu]
    exact State.fld_setReg_off s _ _ _ (by decide)
  have hstate : u.fld R.BOOT_STATUS_STATE = s.fld R.BOOT_STATUS_STATE := by
    rw [hu]
    exact State.fld_setReg_off s _ _ _ (by decide)
  have hrel' : u.boot.released = false := by rw [hu]; exact hrel
  show execBoughRelease req s = _
  rw [execBoughRelease, State.regDo_secCommand (a := 1) hc (by decide) (by decide), ← hu, ← hstate]
  exact congrArg Host.Outcome.next ((if_pos rfl).trans (if_pos (by simp [hstrap', hrel']; decide)))

section
variable {s : State} {img : Bytes} {h : Header} {types : List Nat} (hv : s.boot.verifying = true) (himg : img = s.stagedBytes)
  (hh : h = headerOf (img.take 256 ++ List.replicate (256 - img.length) 0xFF))
  (ht : types = if s.boot.rsKey.isNone && s.flag R.BOOT_STATUS_RECOV then [1, 2] else [2])
include hv himg hh ht

/-- The outcome of a verification by its error code. -/
theorem execStagedImageDone_judged {e : Nat} (herr : s.bytesErr img types = e) : exec .stagedImageDone s = .next (
    let done := fun (s : State) => s.updBoot (fun b => { b with verifying := false })
    let payload := slice 256 h.len img
    if e = 0 then
      if h.type = 1 then ((done (s.fillArea h payload)).startRootstock h).startBoughs
      else if s.targetsOn h then
        (((done (s.fillArea h payload)).updBoot (fun b => { b with fabStore := none })).setFld R.BOOT_STATUS_FAB_VER h.secVer).startBoughs
      else s
    else (done (s.imageFailed h img.length e)).bootTo 4) := by
  subst himg hh ht
  refine congrArg Host.Outcome.next ((if_neg (by simp [hv])).trans ?_)
  dsimp only
  rw [herr]
  cases e <;> rfl

end

/-- Settles O26: the boot ROM, the fabric load and the staged images by the slot, the strap and the error code that decide them. -/
theorem bootAndStaging : Obligations.BootAndStaging := by
  refine ⟨fun xspi s u i h h1 h3 hw h0 htry hh => execRootstockBoot_slot h1 h3 hw h0 htry hh,
    fun xspi s u h1 h3 hw h0 htry hs => execRootstockBoot_none h1 h3 hw h0 htry hs,
    fun img s u h h1 h3 hw h0 htry hs hh he => execRootstockBoot_flash h1 h3 hw h0 htry hs hh he, ?_, ?_, ?_, ?_, fun s => rfl⟩
  · intro xspi s h1 h12
    exact ⟨execFabricLoad_staged h1 h12, fun h hs hh he hon => execFabricLoad_flash h1 h12 hs hh he hon,
      fun i u h hs1 hs2 htry hh hon => execFabricLoad_slot h1 h12 hs1 hs2 htry hh hon,
      fun u hs1 hs2 htry => execFabricLoad_none h1 h12 hs1 hs2 htry, execXspiTimeout_next h1 h12⟩
  · rintro req s u hc rfl
    exact execStageGo_next hc
  · intro s img h types hv himg hh ht
    refine ⟨fun he htype => ?_, fun he htype hon => ?_, fun he => ?_⟩
    · rw [execStagedImageDone_judged hv himg hh ht he]
      exact congrArg Host.Outcome.next (if_pos htype)
    · rw [execStagedImageDone_judged hv himg hh ht he]
      exact congrArg Host.Outcome.next ((if_neg htype).trans (if_pos hon))
    · rw [execStagedImageDone_judged hv himg hh ht rfl]
      exact congrArg Host.Outcome.next (if_neg he)
  · intro req s u hc hu hstrap hrel
    exact execBoughRelease_next hc hu hstrap hrel

end Sys2Proof.Machine
end

section
/-! The registers of a bough by which threads are posted to and commanded (06, R191, R192, R211): both are written by rules of their
own, which judge a write as a whole. -/

namespace Sys2Proof.Machine

/-! ## Writes of a bough's thread registers -/

section
variable {s : State} {req : Req} {off : Nat} {r : RegRow} (hl : s.reqLive req = true) (hreach : reaches req off = true)
  (hg : s.granted (domainOf off) = true) (hrow : regRow off = some r) (hwhole : r.half = .whole) (hlo : 0x30000 ≤ off) (hhi : off < 0x40000)
include hl hreach hg hrow hwhole hlo hhi

/-- A write of a bough's register goes through the rules for whole registers. -/
theorem State.regDo_bough (w : Word) : s.regDo req off w = s.writeWhole req r off w false := by
  have hqueue : s.hqBusy off = false := by
    rw [State.hqBusy, decide_eq_false (by omega), Bool.false_and]
  rw [State.regDo, hl, hreach, Bool.and_self, if_pos rfl, State.winWrite, if_neg (by unfold R.SEC_RNG_CTL; omega), State.winWriteWith, hg, hrow]
  simp only [hqueue, hwhole, Bool.not_true, Bool.false_eq_true, if_false, Bool.false_and]

/-- A post that the requester may make (R191, R192). -/
theorem State.regDo_eventPost (hp : r.priv = .eventPost) {w : Word}
    (hmay : s.mayPost (s.level req) ((off - 0x30000) / 0x2000 * 64 + w.toNat % 64) = true) :
    s.regDo req off w = s.postMask ((off - 0x30000) / 0x2000 * 64 + w.toNat % 64) ((w >>> 8).truncate 8) := by
  have hkey : isRowKey off = false := by rw [isRowKey, decide_eq_false (p := off < 0x30000) (by omega)]; simp
  have haccepted : s.writeRefused req r off w = false := by
    rw [State.writeRefused, if_neg (by unfold R.WDT_KEY; omega), hkey, if_neg Bool.false_ne_true, if_neg (by omega), hp, hmay]
    rfl
  rw [State.regDo_bough hl hreach hg hrow hwhole hlo hhi, State.writeWhole, haccepted, hp, hkey, if_neg (by unfold R.TAP_RRAM_DATA; omega),
    if_neg (by unfold R.WDT_KEY; omega)]
  rfl

/-- A command by a requester that supervises the thread (R211). -/
theorem State.regDo_threadCmd (hp : r.priv = .threadCmd) (hmay : s.supervisesThr (s.level req) (thrAtReg off 0x200) = true) (w : Word) :
    s.regDo req off w = s.threadCmd (thrAtReg off 0x200) (w.toNat / 2 ^ 30) := by
  have hkey : isRowKey off = false := by rw [isRowKey, decide_eq_false (p := off < 0x30000) (by omega)]; simp
  have haccepted : s.writeRefused req r off w = false := by
    rw [State.writeRefused, if_neg (by unfold R.WDT_KEY; omega), hkey, if_neg Bool.false_ne_true, if_neg (by omega), hp]
    simp only [hmay, Bool.not_true, Bool.and_false]
  rw [State.regDo_bough hl hreach hg hrow hwhole hlo hhi, State.writeWhole, haccepted, hp, hkey, if_neg (by unfold R.TAP_RRAM_DATA; omega),
    if_neg (by unfold R.WDT_KEY; omega)]
  rfl

end

/-! ## The two registers (Table 6.8) -/

theorem regRow_eventPost (b : Fin 8) : ∃ r, regRow (R.BGH_EVT_POST b.val) = some r ∧ r.half = .whole ∧ r.priv = .eventPost := by
  have h : ∀ b : Fin 8, (regRow (R.BGH_EVT_POST b.val)).any (fun r => r.half == .whole && r.priv == .eventPost) = true := by
    decide
  obtain ⟨r, hr, hprop⟩ := (Option.any_eq_true ..).mp (h b)
  simp only [Bool.and_eq_true, beq_iff_eq] at hprop
  exact ⟨r, hr, hprop⟩

theorem regRow_threadState (b : Fin 8) (t : Fin 64) :
    ∃ r, regRow (R.BGH_TSTATE b.val t.val) = some r ∧ r.half = .whole ∧ r.priv = .threadCmd := by
  have h : ∀ (b : Fin 8) (t : Fin 64),
      (regRow (R.BGH_TSTATE b.val t.val)).any (fun r => r.half == .whole && r.priv == .threadCmd) = true := by
    decide
  obtain ⟨r, hr, hprop⟩ := (Option.any_eq_true ..).mp (h b t)
  simp only [Bool.and_eq_true, beq_iff_eq] at hprop
  exact ⟨r, hr, hprop⟩

/-- A post to the bits of a mask, one after another. -/
theorem State.postMask_filter (s : State) (k : Nat) (mask : Byte) :
    s.postMask k mask = ((List.range 8).filter (fun i => mask.getLsbD i)).foldl (fun s i => s.post k i) s := by
  rw [List.foldl_filter]
  rfl

/-! ## The commands -/

/-- EVENT_POST (R191): the thread and the mask are the fields of the word written. -/
theorem execEventPost_posts {s : State} {req : Req} {b : Fin 8} {t : Fin 64} (mask : Byte) (hl : s.reqLive req = true)
    (hreach : reaches req (R.BGH_EVT_POST b.val) = true) (hg : s.granted (domainOf (R.BGH_EVT_POST b.val)) = true)
    (hmay : s.mayPost (s.level req) (64 * b.val + t.val) = true) :
    exec (.eventPost req b t mask) s = .next (s.postMask (64 * b.val + t.val) mask) := by
  obtain ⟨r, hrow, hwhole, hp⟩ := regRow_eventPost b
  have hoff : R.BGH_EVT_POST b.val = 0x30100 + 0x2000 * b.val := rfl
  have hword : (BitVec.ofNat 32 (t.val + mask.toNat * 2 ^ 8)).toNat = t.val + mask.toNat * 2 ^ 8 :=
    BitVec.toNat_ofNat .. |>.trans (Nat.mod_eq_of_lt (by have := mask.isLt; omega))
  have hthr : (R.BGH_EVT_POST b.val - 0x30000) / 0x2000 * 64 + (BitVec.ofNat 32 (t.val + mask.toNat * 2 ^ 8)).toNat % 64
      = 64 * b.val + t.val := by
    rw [hword, hoff]
    omega
  have hmask : (BitVec.ofNat 32 (t.val + mask.toNat * 2 ^ 8) >>> 8).truncate 8 = mask := by
    apply BitVec.eq_of_toNat_eq
    rw [BitVec.truncate, BitVec.toNat_setWidth, BitVec.toNat_ushiftRight, hword, Nat.shiftRight_eq_div_pow]
    omega
  have hwrite := State.regDo_eventPost hl hreach hg hrow hwhole (by omega) (by omega) hp (w := BitVec.ofNat 32 (t.val + mask.toNat * 2 ^ 8))
    (by rw [hthr]; exact hmay)
  rw [hthr, hmask] at hwrite
  exact congrArg Host.Outcome.next hwrite

/-- A write of a thread's command register is the command in its upper two bits (R211). -/
theorem State.regDo_thread {s : State} {req : Req} {k : Fin 512} (hl : s.reqLive req = true)
    (hreach : reaches req (R.BGH_TSTATE (k.val / 64) (k.val % 64)) = true)
    (hg : s.granted (domainOf (R.BGH_TSTATE (k.val / 64) (k.val % 64))) = true)
    (hsup : s.supervisesThr (s.level req) k.val = true) (w : Word) :
    s.regDo req (R.BGH_TSTATE (boughOf k.val) (k.val % 64)) w = s.threadCmd k.val (w.toNat / 2 ^ 30) := by
  obtain ⟨r, hrow, hwhole, hp⟩ := regRow_threadState ⟨k.val / 64, by omega⟩ ⟨k.val % 64, by omega⟩
  have hoff : R.BGH_TSTATE (k.val / 64) (k.val % 64) = 0x30200 + 0x2000 * (k.val / 64) + 4 * (k.val % 64) := rfl
  have hthr : thrAtReg (R.BGH_TSTATE (k.val / 64) (k.val % 64)) 0x200 = k.val := by
    rw [thrAtReg, hoff]
    omega
  have hwrite := State.regDo_threadCmd hl hreach hg hrow hwhole (by omega) (by omega) hp (by rw [hthr]; exact hsup) w
  rw [hthr] at hwrite
  exact hwrite

/-- Settles O30: both registers are written by rules of their own, which turn the word's fields into the thread and what is done to
it. -/
theorem postsAndThreadCommands : Obligations.PostsAndThreadCommands := by
  refine ⟨fun req b t mask s hl hreach hg hmay => ?_, fun req k s hl hreach hg hsup hhalted => ⟨?_, ?_⟩⟩
  · rw [execEventPost_posts mask hl hreach hg hmay, State.postMask_filter]
  · have hrel : s.threadCmd k.val 1 = s.endThread k.val Thread.reset := if_pos hhalted
    exact congrArg Host.Outcome.next ((State.regDo_thread hl hreach hg hsup 0x40000000).trans hrel)
  · have hres : s.threadCmd k.val 2 = s.updThr k.val (fun t => { t with pc := t.epc, tsr := t.etsr &&& ~~~ 0x200, state := .run }) :=
      if_pos hhalted
    exact congrArg Host.Outcome.next ((State.regDo_thread hl hreach hg hsup 0x80000000).trans hres)

end Sys2Proof.Machine
end

section
/-! The harness governor (09, R301–R308): its ticks, the ends of an event and its register commands. -/

namespace Sys2Proof.Machine

/-- A field of one bit as that bit of its register. -/
theorem State.flag_eq_bitOf (s : State) (off n : Nat) : s.flag ⟨off, n, 1⟩ = bitOf (s.reg off) n := by
  simp only [State.flag, State.fld, Fld.get, bitOf, Nat.testBit_eq_decide_div_mod_eq, pow_one]
  rcases Nat.mod_two_eq_zero_or_one ((s.reg off).toNat / 2 ^ n) with h | h <;> rw [h] <;> rfl

theorem hloopNum_cases (x : HLoop) : hloopNum x = 2 ∨ hloopNum x = 3 := by cases x <;> decide

/-! ## Ticks (R301, R303) -/

theorem State.govOf_updGov (s : State) (n : Nat) (f : GovSt → GovSt) : (s.updGov n f).govOf n = f (s.govOf n) := by
  rw [State.govOf, State.updGov, tabGet_set_same]

/-- The soft start's accumulator counts only in a start (R312). -/
theorem State.govPrecharge_outside {s : State} {x : Nat} (p : Nat) (i : Int) (h : s.loopState x ≠ 1) :
    s.govPrecharge x p i = (s.updGov x (fun v => { v with hold := false }), 0) := if_pos (.inl h)

/-- A tick of an open event that calls for no cut: the accumulator, the window and the time at or below ITRIP count (R303). -/
theorem State.govTick_counts {s t : State} {n : Nat} (hopen : (s.govOf n).isOpen = true) (hstart : s.loopState n ≠ 1)
    (ht : t = s.updGov n (fun v => { v with
      acc := min (2 ^ 48 - 1) (v.acc + ((s.loop n).v * s.govCurrent n).toNat), openT := v.openT + 1,
      below := if s.govCurrent n ≤ v.itrip then v.below + 1 else 0 }))
    (hnocut : (s.govOf n).cut = true ∨ (t.govOf n).acc < (s.govOf n).emax * 4000000000) :
    s.govTick n = ((t.setReg (R.GOV_ACC (n - 2)) (BitVec.ofNat 32 ((t.govOf n).acc / 4000000))).updGov n (fun v => { v with hold := false }), []) := by
  have hgov : t.govOf n = { s.govOf n with
      acc := min (2 ^ 48 - 1) ((s.govOf n).acc + ((s.loop n).v * s.govCurrent n).toNat), openT := (s.govOf n).openT + 1,
      below := if s.govCurrent n ≤ (s.govOf n).itrip then (s.govOf n).below + 1 else 0 } := by rw [ht, State.govOf_updGov]
  have hopen' : (t.govOf n).isOpen = true := by rw [hgov]; exact hopen
  have hcause : ((t.govOf n).isOpen && !(t.govOf n).cut && decide ((t.govOf n).emax * 4000000000 ≤ (t.govOf n).acc)) = false := by
    rcases hnocut with hcut | hless
    · rw [show (t.govOf n).cut = true by rw [hgov]; exact hcut]
      simp
    · have hemax : (t.govOf n).emax = (s.govOf n).emax := by rw [hgov]
      rw [hemax, decide_eq_false (by omega), Bool.and_false]
  have hstart' : (t.setReg (R.GOV_ACC (n - 2)) (BitVec.ofNat 32 ((t.govOf n).acc / 4000000))).loopState n ≠ 1 := by
    have hregs : t.loopState n = s.loopState n := by rw [ht]; rfl
    rwa [State.loopState, State.fld_setReg_off _ _ _ _ (by simp only [R.LOOP_STATUS_STATE, R.LOOP_STATUS, R.GOV_ACC]; omega),
      ← State.loopState, hregs]
  unfold State.govTick
  dsimp only
  rw [if_pos hopen, ← ht, if_pos hopen', State.govPrecharge_outside _ _ hstart', hcause]
  rfl

/-- GOVERNOR_TICK: both harness loops, and the bits that either sets as one fault. -/
theorem execGovernorTick_both {s t u : State} {bits bits' : List Nat} (hg : s.granted 1 = true) (ht : s.govTick 2 = (t, bits))
    (hu : t.govTick 3 = (u, bits')) :
    exec .governorTick s = .next (if bits ++ bits' = [] then u else u.raiseD 10 (bits ++ bits') []) := by
  show execGovernorTick s = _
  simp only [execGovernorTick, hg, ht, hu, if_true]
  cases bits ++ bits' <;> rfl

/-! ## GOV_x_CTL (R307, R308) -/

section
variable {s : State} {req : Req} {g : Nat} (hg : g < 2) (hc : CanWrite s req (R.GOV_CTL g))
include hg

/-- EN and PRE_EN are stored, MAX_CLR acts. -/
theorem regRow_govCtl : (regRow (R.GOV_CTL g)).any (fun r => r.masks (R.GOV_CTL g) 3 4 0 0) = true := by
  have h : ∀ g : Fin 2, (regRow (R.GOV_CTL g.val)).any (fun r => r.masks (R.GOV_CTL g.val) 3 4 0 0) = true := by decide
  exact h ⟨g, hg⟩

theorem State.govHook_ctl (u : State) (old wr : Word) : u.govHook (R.GOV_CTL g) old wr =
    (let v := if bitOf wr 2 then u.setReg (R.GOV_EVT_MAX g) 0 else u
     if bitOf old 0 && !v.flag (R.GOV_CTL_EN g) && (v.govOf (2 + g)).isOpen then v.govClose (2 + g) else v) := by
  have hblock : (R.GOV_CTL g - 0x1E000) / 0x100 = g := by simp only [R.GOV_CTL]; omega
  unfold State.govHook
  dsimp only
  rw [hblock, if_pos ⟨by simp only [R.GOV_CTL]; omega, hg⟩]

theorem State.hook_govCtl (u : State) (old wr : Word) :
    u.hook (R.GOV_CTL g) old wr false = u.govHook (R.GOV_CTL g) old wr := by
  rw [State.hook_gov _ (by simp [R.GOV_CTL]) (by simp only [R.GOV_CTL]; omega), State.enRise_masks (regRow_govCtl hg)]

include hc

/-- R308: EN written 0 closes an event that is open. -/
theorem State.fldDo_govDisable : s.fldDo req (R.GOV_CTL_EN g) 0 =
    if s.flag (R.GOV_CTL_EN g) = true ∧ (s.govOf (2 + g)).isOpen = true then (s.setFld (R.GOV_CTL_EN g) 0).govClose (2 + g)
    else s.setFld (R.GOV_CTL_EN g) 0 := by
  have hoff : (s.setFld (R.GOV_CTL_EN g) 0).flag (R.GOV_CTL_EN g) = false := by
    rw [State.flag, State.fld_setFld_same _ _ _ rfl]
    rfl
  have hnoclr (w : Word) : bitOf (w &&& 3) 2 = false := by simp [bitOf_eq]
  rw [State.fldDo_rw (f := R.GOV_CTL_EN g) hc (regRow_govCtl hg) (by rfl) (by decide) (by decide) (by decide)]
  refine (State.hook_govCtl hg ..).trans ((State.govHook_ctl hg ..).trans ?_)
  dsimp only
  rw [hnoclr, if_neg Bool.false_ne_true, hoff, State.setFld_govOf, show s.flag (R.GOV_CTL_EN g) = bitOf (s.reg (R.GOV_CTL g)) 0 from
    s.flag_eq_bitOf ..]
  simp only [Bool.not_false, Bool.and_true, Bool.and_eq_true]
  rfl

/-- R307: MAX_CLR clears the largest energy and does nothing else. -/
theorem State.fldDo_maxClr : s.fldDo req (R.GOV_CTL_MAX_CLR g) 1 =
    (s.setReg (R.GOV_CTL g) (s.reg (R.GOV_CTL g))).setReg (R.GOV_EVT_MAX g) 0 := by
  have hclr : bitOf ((R.GOV_CTL_MAX_CLR g).put 1 (s.reg (R.GOV_CTL g) &&& 3)) 2 = true := by
    rw [bitOf_eq, Fld.getLsbD_put _ rfl, if_pos ⟨by simp [R.GOV_CTL_MAX_CLR], by simp [R.GOV_CTL_MAX_CLR]⟩]
    simp [R.GOV_CTL_MAX_CLR]
  have hen : ((s.setReg (R.GOV_CTL g) (s.reg (R.GOV_CTL g))).setReg (R.GOV_EVT_MAX g) 0).flag (R.GOV_CTL_EN g) =
      bitOf (s.reg (R.GOV_CTL g)) 0 := by
    rw [show R.GOV_CTL_EN g = ⟨R.GOV_CTL g, 0, 1⟩ from rfl, State.flag_eq_bitOf,
      State.reg_setReg_other _ _ (by simp only [R.GOV_CTL, R.GOV_EVT_MAX]; omega), State.reg_setReg_same]
  rw [State.fldDo_act (f := R.GOV_CTL_MAX_CLR g) hc (regRow_govCtl hg) (by rfl) (by decide) (by decide) (by decide) (by simp)]
  refine (State.hook_govCtl hg ..).trans ((State.govHook_ctl hg ..).trans ?_)
  dsimp only
  rw [show (R.GOV_CTL_MAX_CLR g).off = R.GOV_CTL g from rfl, if_pos hclr, hen, Bool.and_not_self, Bool.false_and, if_neg Bool.false_ne_true]

end

/-! ## A closed event (R307) -/

/-- What the close of an event publishes. -/
theorem State.govClose_published (s : State) (n : Nat) {e : Nat} (he : e = (s.govOf n).acc / 4000000) :
    ((s.govClose n).govOf n).isOpen = false ∧ (s.govClose n).reg (R.GOV_EVT_E (n - 2)) = BitVec.ofNat 32 e ∧
    (s.govClose n).reg (R.GOV_EVT_SEQ (n - 2)) = s.reg (R.GOV_EVT_SEQ (n - 2)) + 1 ∧
    (s.govClose n).reg (R.GOV_EVT_MAX (n - 2)) = BitVec.ofNat 32 (max (s.fld (R.GOV_EVT_MAX_E (n - 2))) e) := by
  subst he
  refine ⟨by rw [State.govClose, State.govOf_updGov], ?_, ?_, ?_⟩
  · simp [State.govClose, State.satAdd, State.setFld, State.reg_setReg, R.GOV_EVT_E, R.GOV_EVT_T, R.GOV_EVT_CNT_CNT, R.GOV_EVT_CNT,
      R.GOV_EVT_SEQ, R.GOV_EVT_MAX, R.GOV_STATUS_OPEN, R.GOV_STATUS]
  · simp [State.govClose, State.satAdd, State.setFld, State.reg_setReg, R.GOV_EVT_E, R.GOV_EVT_T, R.GOV_EVT_CNT_CNT, R.GOV_EVT_CNT,
      R.GOV_EVT_SEQ, R.GOV_EVT_MAX, R.GOV_STATUS_OPEN, R.GOV_STATUS]
  · simp [State.govClose, State.satAdd, State.setFld, State.reg_setReg, State.fld, R.GOV_EVT_E, R.GOV_EVT_T, R.GOV_EVT_CNT_CNT, R.GOV_EVT_CNT,
      R.GOV_EVT_SEQ, R.GOV_EVT_MAX, R.GOV_EVT_MAX_E, R.GOV_STATUS_OPEN, R.GOV_STATUS]

/-- Settles O32: a tick, the two ends of an event, the two register commands and what a close publishes. -/
theorem governorCommands : Obligations.GovernorCommands := by
  refine ⟨fun s t u bits bits' hg ht hu => execGovernorTick_both hg ht hu, ?_, ?_, ?_,
    fun x s n e _ he _ => s.govClose_published n he⟩
  · rintro x s t n v i - rfl rfl hopen hstart ht hnocut
    exact State.govTick_counts hopen hstart ht hnocut
  · rintro x s n v rfl rfl hopen
    refine ⟨fun hcut hmax htime => ?_, fun hbelow => ?_⟩
    · exact congrArg Host.Outcome.next (if_pos (by simp [hopen, hcut, hmax, htime]))
    · exact congrArg Host.Outcome.next (if_pos (by simp [hopen, hbelow]))
  · rintro req x s n rfl hc
    obtain ⟨hg, hn⟩ : hloopNum x - 2 < 2 ∧ 2 + (hloopNum x - 2) = hloopNum x := by
      rcases hloopNum_cases x with h | h <;> rw [h] <;> decide
    refine ⟨congrArg Host.Outcome.next ?_, congrArg Host.Outcome.next (State.fldDo_maxClr hg hc)⟩
    have hdis := State.fldDo_govDisable hg hc
    rwa [hn] at hdis

end Sys2Proof.Machine
end

section
/-! A loop's period (07, R225–R231, R242–R246, R254–R262): its phase-safe point, its law, the commands that wait for the one and the
telemetry of the other. -/

namespace Sys2Proof.Machine

/-! ## Phase-safe points and the law -/

theorem State.switching_of {s : State} {n : Nat} (h1 : 1 ≤ s.loopState n) (h3 : s.loopState n ≤ 3) : s.switching n = true := by
  simp [State.switching, h1, h3]

section
variable {x : Loop} {s u : State} {n : Nat} (hn : n = loopNum x) (h1 : 1 ≤ s.loopState n) (h3 : s.loopState n ≤ 3)
  (hu : u = ((s.endPeriod n).beginPeriod n).stopOutOfService n)
include hn h1 h3 hu

/-- A loop that the phase-safe point has stopped has no further period (R242). -/
theorem execPhaseSafePoint_stopped (hstop : u.switching n = false) : exec (.phaseSafePoint x) s = .next u := by
  subst hn hu
  show execPhaseSafePoint x s = _
  simp only [execPhaseSafePoint, State.switching_of h1 h3, hstop, Bool.not_true, Bool.not_false, Bool.false_eq_true, if_false, if_true]

/-- The order of what a phase-safe point brings (R242). -/
theorem execPhaseSafePoint_next {v w z : State} (hv : v = (u.mine n).foldl State.servicePhase u)
    (hw : w = (if n = 0 then ((v.serveWakes).phaseCommand n).serveHints else v.phaseCommand n)) (hz : z = (w.placeEdges n).reportStored n)
    (hgo : u.switching n = true) : exec (.phaseSafePoint x) s = .next (
      let t := (z.active n).foldl (fun s k => s.activity (132 + k)) z
      if t.active n = [] then t else t.activity (148 + n)) := by
  subst hn hz hw hv hu
  show execPhaseSafePoint x s = _
  simp only [execPhaseSafePoint, State.switching_of h1 h3, hgo, Bool.not_true, Bool.false_eq_true, if_false]
  by_cases h0 : loopNum x = 0
  · simp only [h0, if_true]
  · simp only [if_neg h0]

end

theorem asr_twelve (a : Int) : asr a 12 = a / 4096 := rfl

/-- LAW_COMPUTE with its parts named (R225, R256, R265). -/
theorem execLawCompute_next {x : Loop} {s u w y : State} {n : Nat} {v : Int} (hn : n = loopNum x) (h1 : 1 ≤ s.loopState n)
    (h3 : s.loopState n ≤ 3)
    (hv : v = (match (s.loop n).sample with
      | some c => ((c : Int) - s.fld (R.LOOP_SENSE_OFFS n)) * s.fld (R.LOOP_SENSE_GAIN n) / 4096
      | none => (s.loop n).v))
    (hu : u = s.updLoop n (fun l => { l with v := v, sample := none }))
    (hw : w = (u.advanceRamps n).updLoop n (fun l => { l with ramp := some (l.ramp.getD (250 * v)) }))
    (hy : y = (if w.vsetClamped n ≠ w.vsetRamp n then w.loopEvt n (R.LOOP_STATUS_VCLAMP n) else w)) :
    exec (.lawCompute x) s = .next (
      if (u.fld (R.LOOP_PROT_OV n) : Int) < v then (u.stopLoop n 4).fault (5 + n) 0
      else if w.loopState n = 3 ∧ (w.loop n).ramp.getD 0 ≤ 0 then w.stopLoop n 0
      else
        let t := y.law n (clampI (-32768) 32767 (y.lawTarget n - v))
        let t := if t.flag (R.LOOP_TIMING_MODE n) then t.moveEdges n else t
        (if t.loopState n = 2 ∧ v < t.fld (R.LOOP_PROT_UV n) then t.fault (5 + n) 2 else t).powerGood n) := by
  subst hn hy hw hu
  show execLawCompute x s = _
  unfold execLawCompute
  dsimp only
  rw [State.switching_of h1 h3, Bool.not_true, if_neg Bool.false_ne_true]
  cases hsample : (s.loop (loopNum x)).sample with
  | none => rw [hsample] at hv; subst hv; rfl
  | some c => rw [hsample] at hv; subst hv; rfl

/-! ## Commands that wait for a phase-safe point (R243, R262) -/

theorem regRow_phcmd (x : Loop) :
    (regRow (R.LOOP_PHCMD (loopNum x))).any (fun r => r.masks (R.LOOP_PHCMD (loopNum x)) 0xFF03FFFF 0 0 0) = true := by
  cases x <;> decide

/-- A write of LOOP_x_PHCMD is stored and waits (R243). -/
theorem State.regDo_phcmd {s : State} {req : Req} {x : Loop} (hc : CanWrite s req (R.LOOP_PHCMD (loopNum x))) {c : Word}
    (hmask : c &&& 0xFF03FFFF = c) : s.regDo req (R.LOOP_PHCMD (loopNum x)) c =
      (s.setReg (R.LOOP_PHCMD (loopNum x)) ((s.reg (R.LOOP_PHCMD (loopNum x)) &&& 0x00FC0000) ||| c)).updLoop (loopNum x)
        (fun l => { l with cmdPend := true }) := by
  have hlt := loopNum_lt x
  have hrow := regRow_phcmd x
  have hhook (u : State) (old wr : Word) : u.loopHook (R.LOOP_PHCMD (loopNum x)) old wr =
      u.updLoop (loopNum x) (fun l => { l with cmdPend := true }) := by cases x <;> rfl
  rw [State.regDo_masks hc hrow, State.hook_loop _ (by simp only [R.LOOP_PHCMD]; omega) (by simp only [R.LOOP_PHCMD]; omega),
    State.enRise_masks hrow, hhook]
  simp [show c &&& 0xFF03FFFF#32 = c from hmask]

/-- The word of a command is its fields side by side. -/
theorem phcmd_word (tmo : Byte) (op : Fin 4) (mask : BitVec 16) :
    BitVec.ofNat 32 (mask.toNat + op.val * 2 ^ 16 + tmo.toNat * 2 ^ 24) = tmo ++ BitVec.ofNat 8 op.val ++ mask := by
  apply BitVec.eq_of_toNat_eq
  rw [BitVec.toNat_ofNat, toNat_append_add, toNat_append_add, BitVec.toNat_ofNat]
  omega

/-- Such a word lies in the register's RW fields. -/
theorem phcmd_within (tmo : Byte) (mask : BitVec 16) {op : Byte} (hop : op &&& 0x03 = op) :
    (tmo ++ op ++ mask : Word) &&& 0xFF03FFFF = tmo ++ op ++ mask := by
  have hsplit : (0xFF03FFFF : Word) = (0xFF : Byte) ++ (0x03 : Byte) ++ (0xFFFF : BitVec 16) := by decide
  have hbyte : tmo &&& 0xFF = tmo := BitVec.and_allOnes
  have hhalf : mask &&& 0xFFFF = mask := BitVec.and_allOnes
  rw [hsplit, BitVec.and_append, BitVec.and_append, hop, hbyte, hhalf]

theorem regRow_tlmCtl (x : Loop) :
    (regRow (R.LOOP_TLM_CTL (loopNum x))).any (fun r => r.masks (R.LOOP_TLM_CTL (loopNum x)) 0xF1F 0x10000 0 0) = true := by
  cases x <;> decide

/-- R262: PEAK_CLR stores nothing; the peaks are cleared with the next block. -/
theorem State.fldDo_peakClr {s : State} {req : Req} {x : Loop} (hc : CanWrite s req (R.LOOP_TLM_CTL_PEAK_CLR (loopNum x)).off) :
    s.fldDo req (R.LOOP_TLM_CTL_PEAK_CLR (loopNum x)) 1 =
      (s.setReg (R.LOOP_TLM_CTL_PEAK_CLR (loopNum x)).off (s.reg (R.LOOP_TLM_CTL_PEAK_CLR (loopNum x)).off)).updLoop (loopNum x)
        (fun l => { l with peakClr := true }) := by
  have hlt := loopNum_lt x
  have hrow := regRow_tlmCtl x
  have hclr (w : Word) : bitOf ((R.LOOP_TLM_CTL_PEAK_CLR (loopNum x)).put 1 w) 16 = true := by
    rw [bitOf_eq, Fld.getLsbD_put _ rfl, if_pos ⟨by simp [R.LOOP_TLM_CTL_PEAK_CLR], by simp [R.LOOP_TLM_CTL_PEAK_CLR]⟩]
    simp [R.LOOP_TLM_CTL_PEAK_CLR]
  have hhook (u : State) (old wr : Word) : u.loopHook (R.LOOP_TLM_CTL (loopNum x)) old wr =
      if bitOf wr 16 then u.updLoop (loopNum x) (fun l => { l with peakClr := true }) else u := by cases x <;> rfl
  rw [State.fldDo_act (f := R.LOOP_TLM_CTL_PEAK_CLR (loopNum x)) hc hrow (by rfl) (by decide) (by decide) (by decide) (by simp)]
  refine (State.hook_loop _ (by simp only [R.LOOP_TLM_CTL_PEAK_CLR, R.LOOP_TLM_CTL]; omega)
    (by simp only [R.LOOP_TLM_CTL_PEAK_CLR, R.LOOP_TLM_CTL]; omega) ..).trans ?_
  rw [show (R.LOOP_TLM_CTL_PEAK_CLR (loopNum x)).off = R.LOOP_TLM_CTL (loopNum x) from rfl, State.enRise_masks hrow]
  exact (hhook ..).trans (if_pos (hclr _))

/-! ## Telemetry (R261) -/

theorem State.loop_updLoop (s : State) (n : Nat) (f : LoopSt → LoopSt) : (s.updLoop n f).loop n = f (s.loop n) := by
  rw [State.loop, State.updLoop, tabGet_set_same]

theorem ofSigned_lt (w : Nat) (v : Int) : ofSigned w v < 2 ^ w := by
  have hpos : (0 : Int) < ((2 ^ w : Nat) : Int) := by exact_mod_cast Nat.two_pow_pos w
  have hlt := Int.emod_lt_of_pos v hpos
  have hnn := Int.emod_nonneg v (ne_of_gt hpos)
  unfold ofSigned
  omega

/-- The registers that a full block of telemetry writes: its four means, its number and the three peaks. -/
def State.putBlock (s : State) (x v i p t : Nat) (seq : Word) (peakV peakI peakT : Nat) : State :=
  ((((((((s.setFld (R.LOOP_TLM_V_V x) v).setFld (R.LOOP_TLM_I_I x) i).setFld (R.LOOP_TLM_P_P x) p).setFld (R.LOOP_TLM_T_T x) t).setReg
    (R.LOOP_TLM_SEQ x) seq).setFld (R.LOOP_PEAK_V_V x) peakV).setFld (R.LOOP_PEAK_I_I x) peakI).setFld (R.LOOP_PEAK_T_T x) peakT)

/-- Each of them lies in a register of its own. -/
theorem State.putBlock_reads (s : State) (x v i p t : Nat) (seq : Word) (peakV peakI peakT : Nat) :
    (s.putBlock x v i p t seq peakV peakI peakT).fld (R.LOOP_TLM_V_V x) = v % 2 ^ 16 ∧
    (s.putBlock x v i p t seq peakV peakI peakT).fld (R.LOOP_TLM_I_I x) = i % 2 ^ 16 ∧
    (s.putBlock x v i p t seq peakV peakI peakT).fld (R.LOOP_TLM_P_P x) = p % 2 ^ 32 ∧
    (s.putBlock x v i p t seq peakV peakI peakT).fld (R.LOOP_TLM_T_T x) = t % 2 ^ 16 ∧
    (s.putBlock x v i p t seq peakV peakI peakT).reg (R.LOOP_TLM_SEQ x) = seq := by
  unfold State.putBlock
  simp (disch := (simp only [R.LOOP_TLM_V_V, R.LOOP_TLM_V, R.LOOP_TLM_I_I, R.LOOP_TLM_I, R.LOOP_TLM_P_P, R.LOOP_TLM_P,
    R.LOOP_TLM_T_T, R.LOOP_TLM_T, R.LOOP_TLM_SEQ, R.LOOP_PEAK_V_V, R.LOOP_PEAK_V, R.LOOP_PEAK_I_I, R.LOOP_PEAK_I, R.LOOP_PEAK_T_T,
    R.LOOP_PEAK_T]; omega))
    only [State.fld_setFld_off, State.fld_setReg_off, State.reg_setFld_other, State.reg_setReg_same, and_true]
  exact ⟨State.fld_setFld_same _ _ _ rfl, State.fld_setFld_same _ _ _ rfl, State.fld_setFld_same _ _ _ rfl, State.fld_setFld_same _ _ _ rfl⟩

/-- A full block is published and a new one begins (R261, R379). -/
theorem execLoopTelemetryPublish_next {x : Loop} {s : State} {n : Nat} {l : LoopSt} (hn : n = loopNum x) (hl : l = s.loop n)
    (hmode : s.fld (R.LOOP_TLM_CTL_MODE n) ≠ 0) (hfull : 2 ^ s.fld (R.LOOP_TLM_CTL_K n) ≤ l.telN) :
    ∃ (u : State) (peakV peakI peakT : Nat) (acc : Int),
      u = s.putBlock n (ofSigned 16 (divFree l.telV l.telN)) (ofSigned 16 (divFree l.telI l.telN))
        (ofSigned 32 (divFree l.telP (400 * l.telN))) (ofSigned 16 (divFree l.telT l.telN)) (s.reg (R.LOOP_TLM_SEQ n) + 1) peakV peakI peakT ∧
      exec (.loopTelemetryPublish x) s = .next (u.updLoop n (fun m => { m with
        telN := 0, telV := 0, telI := 0, telP := 0, telT := 0, peakClr := false,
        eoutAcc := acc % 32768, eoutRoll := (m.eoutRoll + acc / 32768) % 256, eoutN := (m.eoutN + 1) % 2 ^ 24 })) := by
  subst hn hl
  have hflag : s.flag (R.LOOP_TLM_CTL_MODE (loopNum x)) = true := by simp [State.flag, hmode]
  have hsome : ((s.loop (loopNum x)).telN == 0) = false := by
    have := Nat.two_pow_pos (s.fld (R.LOOP_TLM_CTL_K (loopNum x)))
    exact beq_eq_false_iff_ne.mpr (by omega)
  have hseq (v i p t : Nat) : ((((s.setFld (R.LOOP_TLM_V_V (loopNum x)) v).setFld (R.LOOP_TLM_I_I (loopNum x)) i).setFld
      (R.LOOP_TLM_P_P (loopNum x)) p).setFld (R.LOOP_TLM_T_T (loopNum x)) t).reg (R.LOOP_TLM_SEQ (loopNum x)) =
        s.reg (R.LOOP_TLM_SEQ (loopNum x)) := by
    simp (disch := (simp only [R.LOOP_TLM_V_V, R.LOOP_TLM_V, R.LOOP_TLM_I_I, R.LOOP_TLM_I, R.LOOP_TLM_P_P, R.LOOP_TLM_P, R.LOOP_TLM_T_T,
      R.LOOP_TLM_T, R.LOOP_TLM_SEQ]; omega)) only [State.reg_setFld_other]
  have hrun : exec (.loopTelemetryPublish x) s = execLoopTelemetryPublish x s := rfl
  rw [hrun]
  unfold execLoopTelemetryPublish State.putBlock
  dsimp only
  rw [if_neg (by simp [hflag, hsome, hfull]), hseq]
  exact ⟨_, _, _, _, _, rfl, rfl⟩

/-- Settles O29: the phase-safe point in its order, the law with its parts named, the commands that wait, and what a full block of
telemetry publishes. -/
theorem loopPeriods : Obligations.LoopPeriods := by
  refine ⟨?_, ?_, ?_, ?_, ?_⟩
  · intro x s u v w z n hn h1 h3 hu hv hw hz
    exact ⟨execPhaseSafePoint_stopped hn h1 h3 hu, execPhaseSafePoint_next hn h1 h3 hu hv hw hz⟩
  · intro x s u w y n v hn h1 h3 hv hu hw hy
    exact execLawCompute_next hn h1 h3 hv hu hw hy
  · rintro req x mask tmo s n c rfl hc
    refine ⟨?_, ?_⟩
    · rintro rfl
      have hword := State.regDo_phcmd hc (phcmd_within tmo mask (op := 0x01) (by decide))
      rw [show (tmo ++ (0x01 : Byte) ++ mask : Word) = _ from (phcmd_word tmo 1 mask).symm] at hword ⊢
      exact congrArg Host.Outcome.next hword
    · rintro rfl
      have hword := State.regDo_phcmd hc (phcmd_within tmo mask (op := 0x02) (by decide))
      rw [show (tmo ++ (0x02 : Byte) ++ mask : Word) = _ from (phcmd_word tmo 2 mask).symm] at hword ⊢
      exact congrArg Host.Outcome.next hword
  · rintro req x s n rfl hc
    exact congrArg Host.Outcome.next (State.fldDo_peakClr hc)
  · intro x s n l hn hl hmode hfull
    obtain ⟨u, peakV, peakI, peakT, acc, hu, hnext⟩ := execLoopTelemetryPublish_next hn hl hmode hfull
    have hloop : u.loop n = l := by simp only [hu, hl, State.putBlock, State.setFld_loop, State.setReg_loop]
    obtain ⟨hv, hi, hp, ht, hseq⟩ := s.putBlock_reads n (ofSigned 16 (divFree l.telV l.telN)) (ofSigned 16 (divFree l.telI l.telN))
      (ofSigned 32 (divFree l.telP (400 * l.telN))) (ofSigned 16 (divFree l.telT l.telN)) (s.reg (R.LOOP_TLM_SEQ n) + 1) peakV peakI peakT
    rw [← hu, Nat.mod_eq_of_lt (ofSigned_lt _ _)] at hv hi hp ht
    rw [← hu] at hseq
    refine ⟨_, hnext, hv, hi, hp, ht, hseq, ?_, ?_, ?_⟩
    · rw [State.loop_updLoop]
    · rw [State.loop_updLoop]
    · rw [State.loop_updLoop, hloop]

end Sys2Proof.Machine
end

section
/-! The converters (08, R273–R300): slots, conversions, calibrations and precision lists. -/

namespace Sys2Proof.Machine

/-! ## Slots (R276, R278–R280, R284) -/

section
variable {s : State} {n : Fin 16} {sl : Fin 4} {w : Word} {x : Nat} (hw : w = s.cnvReg (R.CNV_SLOT n.val sl.val))
  (hx : x = w.toNat / 32 % 4) (hready : s.ready 7 = true) (hon : bitOf w 0 = true) (hsw : s.switching x = true)
  (hearly : bitOf w 4 = false ∨ w.toNat / 2 ^ 16 % 2 ^ 13 < s.fld (R.LOOP_PERIOD_PERIOD x))
  (hfirst : n.val % 2 = 0 ∨ s.interleaved n.val = false)
include hw hx hready hon hsw hearly hfirst

/-- A slot that may fire: it waits, or it is the loop engine's, which takes the converter at once unless another such slot has it. -/
theorem execSlotFire_fires : exec (.slotFire n sl) s = .next (
    if bitOf w 8 = false then s.updConv n.val (fun c => { c with waiting := insertSlot sl.val c.waiting })
    else if (s.conv n.val).busy.any (fun b => bitOf (s.cnvReg (R.CNV_SLOT n.val b)) 8) = true then
      (s.satAdd (R.CNV_STAT_SLIP_CNT n.val) 1 255).fault 9 2
    else (s.satAdd (R.CNV_STAT_ABORT n.val) 1 255).updConv n.val (fun c => { c with busy := some sl.val })) := by
  subst hx hw
  have hlate : (bitOf (s.cnvReg (R.CNV_SLOT n.val sl.val)) 4 && decide (s.fld (R.LOOP_PERIOD_PERIOD
      ((s.cnvReg (R.CNV_SLOT n.val sl.val)).toNat / 32 % 4)) ≤ (s.cnvReg (R.CNV_SLOT n.val sl.val)).toNat / 2 ^ 16 % 2 ^ 13)) = false := by
    rcases hearly with h | h
    · rw [h, Bool.false_and]
    · rw [decide_eq_false (by omega), Bool.and_false]
  have hpair : (n.val % 2 == 1 && s.interleaved n.val) = false := by
    rcases hfirst with h | h
    · rw [h]; rfl
    · rw [h, Bool.and_false]
  show execSlotFire n sl s = _
  unfold execSlotFire
  dsimp only
  rw [hready, hon, hsw, hlate, hpair, if_neg (by decide)]
  cases bitOf (s.cnvReg (R.CNV_SLOT n.val sl.val)) 8 with
  | false => rfl
  | true =>
    cases (s.conv n.val).busy with
    | none => rfl
    | some b => rfl

end

/-! ## Conversions (R275, R283, R285) -/

/-- A conversion that a slot asked for. -/
theorem execConversionResult_slot {s : State} {n : Fin 16} (uV : Int) (hready : s.ready 7 = true) {sl : Nat}
    (hbusy : (s.conv n.val).busy = some sl) :
    exec (.conversionResult n uV) s = .next ((s.slotResult n.val sl (fastSample uV)).nextConversion n.val) := by
  show execConversionResult n uV s = _
  unfold execConversionResult
  dsimp only
  rw [hready, Bool.not_true, if_neg Bool.false_ne_true, hbusy]

/-- A home sample, or a word of the stream of an interleaved pair, whose second converter is trimmed. -/
theorem execConversionResult_home {s : State} {n : Fin 16} (uV : Int) (hready : s.ready 7 = true) (hbusy : (s.conv n.val).busy = none) :
    exec (.conversionResult n uV) s = .next ((s.homeResult n.val (if s.interleaved n.val = true ∧ n.val % 2 = 1 then
      trimmedSample (s.sfld (R.CNV_PAIR_GTRIM (n.val / 2))) (s.sfld (R.CNV_PAIR_OTRIM (n.val / 2))) uV else fastSample uV)).nextConversion
        n.val) := by
  show execConversionResult n uV s = _
  unfold execConversionResult
  dsimp only
  rw [hready, Bool.not_true, if_neg Bool.false_ne_true, hbusy]
  simp only [Bool.and_eq_true, beq_iff_eq]

theorem State.homeResult_single {s : State} {n : Nat} (v : Sample) (h : s.interleaved n = false) :
    s.homeResult n v = (s.phaseSample n v.code).comparators n 0 v.code v.above v.below := by simp [State.homeResult, h]

theorem State.homeResult_stream {s : State} {n : Nat} (v : Sample) (h : s.interleaved n = true) :
    s.homeResult n v =
      (s.capture (resultWord v.code.toNat v.above v.below 0 true (s.conv n).seq)).comparators n 0 v.code v.above v.below := by
  simp [State.homeResult, h]

/-! ## Precision lists (R286–R290) -/

section
variable {s : State} {m : Fin 2} (hready : s.ready 8 = true) (hon : s.listOn m.val = true)
include hready hon

/-- PRECISION_LIST_RESTART of an enabled list. -/
theorem execPrecisionListRestart_on : exec (.precisionListRestart m) s = .next (
    if s.listAt m.val = 8 ∧ (s.listsTied = false ∨ s.listAt (1 - m.val) = 8) then s.restartLists m.val
    else if s.fld R.CNV_P_CTL_PERIOD = 0 then s
    else s.updCnv (fun c => { c with listDue := tabSet false m.val true c.listDue })) :=
  congrArg Host.Outcome.next (if_neg (by simp [hready, hon]))

/-- A finished list that runs by itself restarts. -/
theorem execPrecisionListRestart_single (hend : s.listAt m.val = 8) (htied : s.listsTied = false) :
    exec (.precisionListRestart m) s = .next (s.startList m.val) := by
  rw [execPrecisionListRestart_on hready hon, if_pos ⟨hend, .inl htied⟩, State.restartLists, htied, if_neg Bool.false_ne_true, if_pos hend]

/-- Tied lists restart together once both have finished (R288). -/
theorem execPrecisionListRestart_tied (h0 : s.listAt 0 = 8) (h1 : s.listAt 1 = 8) (htied : s.listsTied = true) :
    exec (.precisionListRestart m) s = .next ((s.startList 0).startList 1) := by
  have hboth : s.listAt m.val = 8 ∧ s.listAt (1 - m.val) = 8 := by
    match m with
    | ⟨0, _⟩ => exact ⟨h0, h1⟩
    | ⟨1, _⟩ => exact ⟨h1, h0⟩
  rw [execPrecisionListRestart_on hready hon, if_pos ⟨hboth.1, .inr hboth.2⟩, State.restartLists, htied, if_pos rfl, if_pos ⟨h0, h1⟩]

/-- A list that is still running when its period has expired is due (R287). -/
theorem execPrecisionListRestart_running (hrun : s.listAt m.val ≠ 8) (hper : s.fld R.CNV_P_CTL_PERIOD ≠ 0) :
    exec (.precisionListRestart m) s = .next (s.updCnv (fun c => { c with listDue := tabSet false m.val true c.listDue })) := by
  rw [execPrecisionListRestart_on hready hon, if_neg (fun h => hrun h.1), if_neg hper]

/-- PRECISION_ENTRY_DONE whose conversions lie out of range on one side at most: the mean is published, its effects follow, and the list
goes on (R286). -/
theorem execPrecisionEntryDone_next {sl : Fin 8} {uVs : List Int} {t u : State} {w res : Word} {vs : List Sample} {code : Int}
    {above below : Bool} (hat : s.listAt m.val = sl.val) (hw : w = s.listEntry m.val sl.val)
    (hlen : uVs.length = 2 ^ (w.toNat / 2 ^ 8 % 8)) (hturn : s.listsTied = true → sl.val ≤ s.listAt (1 - m.val))
    (hvs : vs = uVs.map (precisionSample (w.toNat / 2 % 32))) (hcode : code = meanHalfUp ((vs.map (fun v => v.code)).sum) uVs.length)
    (habove : above = vs.any (fun v => v.above)) (hbelow : below = vs.any (fun v => v.below)) (hone : (above && below) = false)
    (hres : res = resultWord (ofSigned 16 code) above below (w.toNat / 2 % 32) false (tabGet 0 m.val s.cnv.pSeq))
    (ht : t = s.updCnv (fun c => { c with pSeq := tabSet 0 m.val ((tabGet 0 m.val c.pSeq + 1) % 256) c.pSeq }))
    (hu : u = State.precisionEffects ((t.setReg (R.CNV_P_RES m.val sl.val) res).setReg R.CNV_P_SEQ (s.reg R.CNV_P_SEQ + 1))
      (w.toNat / 2 % 32) code (above || below) res) :
    exec (.precisionEntryDone m sl uVs) s =
      .next (((State.comparators (if bitOf w 12 then u.capture res else u) (16 + m.val) (w.toNat / 2 % 32) code above below).listTo m.val
        (sl.val + 1)).listEnded m.val) := by
  have hgo : ¬ (!s.ready 8 || !s.listOn m.val || s.listAt m.val != sl.val || uVs.length != 2 ^ ((s.listEntry m.val sl.val).toNat / 2 ^ 8 % 8)
      || (s.listsTied && decide (s.listAt (1 - m.val) < sl.val))) = true := by
    have hlate : (s.listsTied && decide (s.listAt (1 - m.val) < sl.val)) = false := by
      cases htied : s.listsTied with
      | false => rfl
      | true => rw [Bool.true_and, decide_eq_false (by have := hturn htied; omega)]
    simp [hready, hon, hat, hlate, ← hw, hlen]
  have hneg : (below && (!above || bitOf s.nextFree 0)) = below ∧ (above && !below) = above := by
    revert hone
    cases above <;> cases below <;> simp
  rw [hlen, hvs] at hcode
  rw [hvs] at habove hbelow
  show execPrecisionEntryDone m sl uVs s = _
  unfold execPrecisionEntryDone
  dsimp only
  rw [if_neg hgo, ← hw, ← hcode, ← habove, ← hbelow, hneg.1, hneg.2, hone, if_neg Bool.false_ne_true, ← hres, ← ht]
  subst hu ht
  rfl

end

/-- Settles O31: slots, conversions, calibrations, and the restart and the entries of precision lists. -/
theorem converterCommands : Obligations.ConverterCommands := by
  refine ⟨?_, ?_, ?_, ?_, ?_⟩
  · intro n sl s w x hw hx hready hon hsw hearly hfirst
    have hfire := execSlotFire_fires hw hx hready hon hsw hearly hfirst
    refine ⟨fun h8 => ?_, fun h8 hfree => ?_, fun b h8 hb hb8 => ?_⟩
    · rw [hfire, if_pos h8]
    · rw [hfire, if_neg (by rw [h8]; decide), if_neg]
      rw [Option.any_eq_true]
      rintro ⟨b, hb, hb8⟩
      rw [hfree b hb] at hb8
      exact Bool.false_ne_true hb8
    · rw [hfire, if_neg (by rw [h8]; decide), if_pos]
      rw [hb]
      exact hb8
  · intro n uV s hready
    refine ⟨fun sl hbusy => execConversionResult_slot uV hready hbusy, fun hbusy hpair => ?_, fun hbusy hpair => ⟨_, rfl, ?_⟩⟩
    · rw [execConversionResult_home uV hready hbusy, State.homeResult_single _ hpair, if_neg (by simp [hpair])]
    · rw [execConversionResult_home uV hready hbusy, State.homeResult_stream _ hpair]
      simp only [hpair, true_and]
  · intro fast ok s hg
    exact congrArg Host.Outcome.next (if_neg (by simp [hg]))
  · intro m s hready hon
    exact ⟨execPrecisionListRestart_single hready hon, execPrecisionListRestart_tied hready hon, execPrecisionListRestart_running hready hon⟩
  · intro m sl uVs s t u w res vs code above below hready hon hat hw hlen hturn hvs hcode habove hbelow hone hres ht hu
    exact execPrecisionEntryDone_next hready hon hat hw hlen hturn hvs hcode habove hbelow hone hres ht hu

end Sys2Proof.Machine
end

section
/-! The fans, their monitor and the shutdown comparator (09, R318–R328). -/

namespace Sys2Proof.Machine

/-- A value held between two bounds lies between them. -/
theorem clampI_bounds {lo hi : Int} (h : lo ≤ hi) (v : Int) : lo ≤ clampI lo hi v ∧ clampI lo hi v ≤ hi := by
  unfold clampI
  split
  · exact ⟨le_refl lo, h⟩
  · split
    · exact ⟨h, le_refl hi⟩
    · omega

/-! ## Tachometers and the monitor (R318–R323) -/

/-- TACH_EDGE after a stall restarts the measurement; else it measures the period. -/
theorem execTachEdge_next {n : Fin 4} (us : Nat) {s : State} (hg : s.granted 1 = true) : exec (.tachEdge n us) s = .next (
    if s.flag (R.FAN_TACH_STALL n.val) = true then s.setFld (R.FAN_TACH_STALL n.val) 0
    else if us = 0 ∨ 0xFFFFF ≤ us then s
    else (s.setFld (R.FAN_TACH_PERIOD n.val) us).setFld (R.FAN_RPM_RPM n.val)
      (min 65535 (60000000 / (us * (s.fld (R.FAN_CFG_PPR n.val) + 1))))) :=
  congrArg Host.Outcome.next (if_neg (by simp [hg]))

theorem execTachStall_next {n : Fin 4} {s t : State} (hg : s.granted 1 = true)
    (ht : t = ((s.setFld (R.FAN_TACH_PERIOD n.val) 0xFFFFF).setFld (R.FAN_TACH_STALL n.val) 1).setFld (R.FAN_RPM_RPM n.val) 0) :
    exec (.tachStall n) s = .next (
      if s.flag (R.FAN_CFG_EN n.val) = true ∧ s.fld (R.FAN_OUT_DUTY n.val) ≠ 0 then t.fault 11 (8 + n.val) else t) := by
  have hen : t.flag (R.FAN_CFG_EN n.val) = s.flag (R.FAN_CFG_EN n.val) := by
    simp (disch := (simp only [R.FAN_CFG_EN, R.FAN_CFG, R.FAN_TACH_PERIOD, R.FAN_TACH_STALL, R.FAN_TACH, R.FAN_RPM_RPM, R.FAN_RPM]; omega))
      only [ht, State.flag, State.fld_setFld_off]
  have hduty : t.fld (R.FAN_OUT_DUTY n.val) = s.fld (R.FAN_OUT_DUTY n.val) := by
    simp (disch := (simp only [R.FAN_OUT_DUTY, R.FAN_OUT, R.FAN_TACH_PERIOD, R.FAN_TACH_STALL, R.FAN_TACH, R.FAN_RPM_RPM, R.FAN_RPM]; omega))
      only [ht, State.fld_setFld_off]
  rw [← hen, ← hduty]
  subst ht
  refine congrArg Host.Outcome.next ((if_neg (by simp [hg])).trans ?_)
  dsimp only
  simp only [Bool.and_eq_true, bne_iff_ne]

/-- FAN_MONITOR_CHECK: the checks that are on are recorded; a bad one is a fault, else forcing is as the fault bits say. -/
theorem execFanMonitorCheck_next {s t : State} {on bad : List Nat} (hg : s.granted 1 = true)
    (hon : on = (List.range 4).filter (fun j => s.flag (R.FAN_MON_CFG_EN j) && decide (s.fld (R.FAN_MON_CFG_SRC j) < 9)))
    (hbad : bad = on.filter (fun j => (s.monCheck j).1 != 0))
    (ht : t = on.foldl (fun t j => (t.setFld (R.FAN_MON_STAT_KIND j) (s.monCheck j).1).setFld (R.FAN_MON_STAT_VALUE j) (s.monCheck j).2) s) :
    exec .fanMonitorCheck s = .next (
      let st := (t.reg R.FAN_FAULT_STATUS).toNat
      if bad = [] then State.fanRefresh { t with fanForced := decide (st % 32 ≠ 0) || st.testBit 12 }
      else t.fanFault bad) := by
  have hchecks : (on.map (fun j => (j, s.monCheck j))).foldl (fun s c =>
      (s.setFld (R.FAN_MON_STAT_KIND c.1) c.2.1).setFld (R.FAN_MON_STAT_VALUE c.1) c.2.2) s = t := by rw [ht, List.foldl_map]
  have hfound : ((on.map (fun j => (j, s.monCheck j))).filter (fun c => c.2.1 != 0)).map (fun c => c.1) = bad := by
    rw [hbad, List.filter_map, List.map_map]
    exact List.map_id' _
  refine congrArg Host.Outcome.next ((if_neg (by simp [hg])).trans ?_)
  dsimp only
  rw [← hon, hchecks, hfound]
  by_cases h : bad = []
  · rw [if_pos h, if_neg (by simp [h])]
  · rw [if_neg h, if_pos (by simpa using h)]

/-! ## The shutdown comparator (R324–R328) -/

section
variable {s : State} {ts uV : Int}

/-- SHUTDOWN_ASSERT where an input meets its trip condition. -/
theorem execShutdownAssert_trips (hvio : s.tap.vioGood = true) (htrip : s.tsLimit ≤ ts ∨ uV < thermLimit) :
    exec (.shutdownAssert ts uV) s = .next (
      let t := { s with pins := { s.pins with
        shdnLow := true, tripTs := decide (s.tsLimit ≤ ts), tripX := decide (uV < thermLimit), therm := .some (ts, uV) } }
      if s.pins.shdnLow = true ∨ s.granted 1 = false then t else (t.setFld R.FAN_SHDN_LAT 1).fanFault [12]) := by
  refine congrArg Host.Outcome.next ((if_neg ?_).trans ?_)
  · have hany : (decide (s.tsLimit ≤ ts) || decide (uV < thermLimit)) = true := by simpa using htrip
    show ¬ (!s.tap.vioGood || !(decide (s.tsLimit ≤ ts) || decide (uV < thermLimit))) = true
    rw [hvio, hany]
    decide
  · show (if (s.pins.shdnLow || !s.granted 1) = true then _ else _) = _
    simp only [Bool.or_eq_true, Bool.not_eq_true']
    rfl

/-- Where none does, or without VIO, the inputs are only noted. -/
theorem execShutdownAssert_notes (h : s.tap.vioGood = false ∨ (ts < s.tsLimit ∧ thermLimit ≤ uV)) :
    exec (.shutdownAssert ts uV) s = .next { s with pins := { s.pins with therm := .some (ts, uV) } } := by
  refine congrArg Host.Outcome.next (if_pos ?_)
  show (!s.tap.vioGood || !(decide (s.tsLimit ≤ ts) || decide (uV < thermLimit))) = true
  rcases h with h | ⟨hts, hx⟩
  · rw [h]; rfl
  · rw [decide_eq_false (by omega), decide_eq_false (by omega), Bool.or_false, Bool.not_false, Bool.or_true]

/-- SHUTDOWN_RELEASE judges the inputs last noted (R326). -/
theorem execShutdownRelease_next : exec .shutdownRelease s = .next (
    if s.tap.vioGood = true ∧ ∃ x, s.pins.therm = some x ∧ x.1 ≤ s.tsLimit - 240 ∧ 350000 < x.2 then
      { s with pins := { s.pins with shdnLow := false, tripTs := false, tripX := false } }
    else s) := by
  refine congrArg Host.Outcome.next ?_
  simp only [Bool.and_eq_true, Option.any_eq_true, decide_eq_true_eq]

end

/-- R324, R325: both limits lie within the tolerance. -/
theorem State.tsLimit_bounds (s : State) : 16 * (105 + 10 * (s.fld R.TAP_STRAP_TSHD : Int)) - 48 ≤ s.tsLimit ∧
    s.tsLimit ≤ 16 * (105 + 10 * (s.fld R.TAP_STRAP_TSHD : Int)) + 48 := by
  have := clampI_bounds (show (-48 : Int) ≤ 48 by decide) Config.tsShift
  unfold State.tsLimit
  omega

theorem thermLimit_bounds : 290000 ≤ thermLimit ∧ thermLimit ≤ 310000 := by
  have := clampI_bounds (show (-10000 : Int) ≤ 10000 by decide) Config.thermShift
  unfold thermLimit
  omega

/-- Settles O33: the tachometers, the monitor, the keep timer, and the comparator's assertion, release and limits. -/
theorem fanAndShutdownCommands : Obligations.FanAndShutdownCommands := by
  refine ⟨fun n us s hg => ⟨fun hstall => ?_, fun hstall hpos hlt => ?_⟩, fun n s t hg ht => execTachStall_next hg ht,
    fun s t on bad hg hon hbad ht => execFanMonitorCheck_next hg hon hbad ht, fun s hg hkeep => ?_, fun s ts uV => ⟨?_, ?_, ?_, ?_, ?_, ?_⟩⟩
  · rw [execTachEdge_next us hg, if_pos hstall]
  · rw [execTachEdge_next us hg, if_neg (by simp [hstall]), if_neg (by omega)]
  · exact congrArg Host.Outcome.next (if_pos (by simp [hg, hkeep]))
  · exact execShutdownAssert_trips
  · exact execShutdownAssert_notes
  · intro htherm hvio hts hx
    rw [execShutdownRelease_next, if_pos ⟨hvio, _, htherm, hts, hx⟩]
  · rintro (h | h)
    · rw [execShutdownRelease_next, if_neg (by simp [h])]
    · rw [execShutdownRelease_next, if_neg (by simp [h])]
  · intro htherm hwarm
    rw [execShutdownRelease_next, if_neg]
    rintro ⟨-, x, hx, hts, huV⟩
    obtain rfl : (ts, uV) = x := Option.some.inj (htherm.symm.trans hx)
    dsimp only at hts huV
    omega
  · exact ⟨s.tsLimit_bounds.1, s.tsLimit_bounds.2, thermLimit_bounds⟩

end Sys2Proof.Machine
end

section
/-! The battery estimator's events and its two commands (10, R338–R341, R345, R350–R354, R362, R363). -/

namespace Sys2Proof.Machine

/-! ## Estimates (R341, R363) -/

theorem clampI_zero {hi : Int} (h : 0 ≤ hi) (v : Int) : clampI 0 hi v = max 0 (min hi v) := by
  unfold clampI
  split
  · omega
  · split <;> omega

/-- An estimate puts Q at the compensated SOC, inside FCC. -/
theorem State.estimate_q (s : State) : s.estimate.bat.q =
    max 0 (min (s.bat.fcc * mAh) (((s.socOcv * s.bat.fcc).toNat / 10000 : Nat) * mAh)) := by
  have hcap : (0 : Int) ≤ s.bat.fcc * mAh := by
    unfold mAh
    omega
  exact clampI_zero hcap (((s.socOcv * s.bat.fcc).toNat / 10000 : Nat) * mAh)

theorem execFirstEstimate_due {s : State} (hon : s.batOn = true) (hdue : s.bat.firstDue = true) :
    exec .firstEstimate s = .next (s.estimate.updBat (fun b => { b with firstDue := false, estDone := true })) :=
  congrArg Host.Outcome.next (if_pos (by simp [hon, hdue]))

theorem execBatRelaxResync_due {s : State} (hon : s.batOn = true) (hre : s.bat.resync = true) :
    exec .batRelaxResync s = .next (s.estimate.updBat (fun b => { b with resync := false })) :=
  congrArg Host.Outcome.next (if_pos (by simp [hon, hre]))

theorem State.bat_updBat (s : State) (f : BatSt → BatSt) : (s.updBat f).bat = f s.bat := rfl

/-! ## BAT_CTL (R352, R353) -/

theorem regRow_batCtl : regRow R.BAT_CTL = some ⟨0x1b000, [], .cwd, .warden, .whole,
    [⟨0, 1, .rw, 0, none, none⟩, ⟨1, 1, .wo, 0, none, some .batRestore⟩, ⟨4, 4, .rw, 4, none, none⟩]⟩ := by decide

theorem regRow_batCtl_masks : (regRow R.BAT_CTL).any (fun r => r.masks R.BAT_CTL 0xF1 2 0 0) = true := by decide

theorem State.hook_batCtl (u : State) (old wr : Word) : u.hook R.BAT_CTL old wr false =
    (let v := if bitOf wr 1 then u.batRestore else u
     if !bitOf old 0 && v.batOn then v.batStart else v) := by
  rw [State.hook_bat _ (by decide) (by decide), State.enRise_masks regRow_batCtl_masks]
  rfl

/-- The write bit of RESTORE in a word that has it put to 1. -/
theorem bitOf_batRestore (w : Word) : bitOf (R.BAT_CTL_RESTORE.put 1 w) 1 = true := by
  rw [bitOf_eq, Fld.getLsbD_put _ rfl]
  rfl

/-- A block is taken into registers other than BAT_CTL. -/
theorem State.takeBlock_ctl (s : State) (w : Nat → Word) : (s.takeBlock w).reg R.BAT_CTL = s.reg R.BAT_CTL := by
  unfold State.takeBlock State.clampQ
  dsimp only
  rw [State.updBat_reg, State.reg_setFld_other _ _ _ _ (by decide), State.reg_setFld_other _ _ _ _ (by decide),
    State.reg_setFld_other _ _ _ _ (by decide), State.reg_setReg_other _ _ (by decide), State.updBat_reg]

/-- A restore leaves BAT_CTL as it is. -/
theorem State.batRestore_ctl (s : State) : s.batRestore.reg R.BAT_CTL = s.reg R.BAT_CTL := by
  have hrestore (u : State) (w : Nat → Word) : (u.restoreBlock w).reg R.BAT_CTL = u.reg R.BAT_CTL := by
    unfold State.restoreBlock State.setRc State.clampQ
    rw [State.reg_setFld_other _ _ _ _ (by decide), State.updBat_reg, State.updBat_reg, State.takeBlock_ctl]
  have hresult (c : Nat) : (s.setFld R.BAT_STATUS_RESULT c).reg R.BAT_CTL = s.reg R.BAT_CTL := s.reg_setFld_other _ _ _ (by decide)
  unfold State.batRestore
  dsimp only
  split
  · rw [hrestore, hresult]
  · rw [hresult]

/-- RESTORE written by a requester that may: the field acts alone. -/
theorem State.fldDo_batRestore {s : State} {req : Req} (hl : s.reqLive req = true) (hreach : reaches req R.BAT_CTL = true)
    (hg : s.granted (domainOf R.BAT_CTL) = true) (hmay : s.level req = .warden ∨ req = .pf0Bar4) :
    ∃ wr, bitOf wr 1 = true ∧
      s.fldDo req R.BAT_CTL_RESTORE 1 = (s.setReg R.BAT_CTL (s.reg R.BAT_CTL)).hook R.BAT_CTL (s.reg R.BAT_CTL) wr false := by
  have hrestore : s.mayWrite req R.BAT_CTL .batRestore = true := by
    rcases hmay with h | h
    · simp [State.mayWrite, h]
    · simp [State.mayWrite, h]
  cases hward : s.mayWrite req R.BAT_CTL .warden with
  | true =>
    have hc : CanWrite s req R.BAT_CTL := by
      refine ⟨hl, hreach, hg, fun r hr f hf => ?_⟩
      rw [regRow_batCtl] at hr
      obtain rfl := Option.some.inj hr
      simp only [List.mem_cons, List.not_mem_nil, or_false] at hf
      rcases hf with rfl | rfl | rfl
      · exact hward
      · exact hrestore
      · exact hward
    exact ⟨_, bitOf_batRestore _,
      State.fldDo_act (f := R.BAT_CTL_RESTORE) hc regRow_batCtl_masks (by decide) (by decide) (by decide) (by decide) (by simp) 1⟩
  | false =>
    refine ⟨_, bitOf_batRestore _, State.fldDo_alone (f := R.BAT_CTL_RESTORE) (m := 0xF1) (a := 2) (ok := 2) hl hreach hg regRow_batCtl
      (by decide) ?_ (by decide) (by decide) (by decide) (by decide) (by decide) 1⟩
    have hw : s.mayWrite req R.BAT_CTL_RESTORE.off .warden = false := hward
    have hr : s.mayWrite req R.BAT_CTL_RESTORE.off .batRestore = true := hrestore
    simp [RegRow.bits, FieldRow.privIn, FieldRow.mask, hw, hr]

/-- BAT_RESTORE: the block in the registers is judged, and taken where it is good (R353, R354). -/
theorem execBatRestore_judged {s t : State} {req : Req} (hl : s.reqLive req = true) (hreach : reaches req R.BAT_CTL = true)
    (hg : s.granted (domainOf R.BAT_CTL) = true) (hmay : s.level req = .warden ∨ req = .pf0Bar4)
    (ht : t = s.setReg R.BAT_CTL (s.reg R.BAT_CTL)) : exec (.batRestore req) s = .next t.batRestore := by
  obtain ⟨wr, hwr, hwrite⟩ := State.fldDo_batRestore hl hreach hg hmay
  have hen : t.batRestore.batOn = bitOf (s.reg R.BAT_CTL) 0 := by
    rw [State.batOn, show R.BAT_CTL_EN = ⟨R.BAT_CTL, 0, 1⟩ from rfl, State.flag_eq_bitOf, State.batRestore_ctl, ht, State.reg_setReg_same]
  refine congrArg Host.Outcome.next (hwrite.trans ((State.hook_batCtl ..).trans ?_))
  dsimp only
  rw [if_pos hwr, ← ht, hen, Bool.not_and_self, if_neg Bool.false_ne_true]

/-- BAT_ENABLE of an estimator that is off starts it (R341, R352). -/
theorem execBatEnable_starts {s : State} {req : Req} (hc : CanWrite s req R.BAT_CTL) (hoff : s.flag R.BAT_CTL_EN = false) :
    exec (.batEnable req) s = .next (s.setFld R.BAT_CTL_EN 1).batStart := by
  have hold : bitOf (s.reg R.BAT_CTL) 0 = false := (s.flag_eq_bitOf R.BAT_CTL 0).symm.trans hoff
  have hon : (s.setFld R.BAT_CTL_EN 1).batOn = true := by
    rw [State.batOn, State.flag, State.fld_setFld_same _ _ _ rfl]
    rfl
  have hbit (w : Word) : bitOf (w &&& 0xF1) 1 = false := by simp [bitOf_eq]
  refine congrArg Host.Outcome.next ?_
  rw [State.fldDo_rw (f := R.BAT_CTL_EN) hc regRow_batCtl_masks (by decide) (by decide) (by decide) (by decide)]
  refine (State.hook_batCtl ..).trans ?_
  rw [hbit, if_neg Bool.false_ne_true]
  dsimp only
  rw [show s.reg R.BAT_CTL_EN.off = s.reg R.BAT_CTL from rfl, hold, hon, Bool.not_false, Bool.and_self, if_pos rfl]

/-! ## The start of the estimator (R341, R343, R352) -/

section
variable {t u v : State} (hd : t.fld R.BAT_DESIGN_DESIGN ≠ 0)
  (hu : u = ((List.range 8).foldl State.rramMeet t).updBat (fun b => { b with firstDue := true, estDone := false, lastI := none, held := [] }))
include hd hu

/-- A good block in retention RAM is taken. -/
theorem State.batStart_block (hgood : t.blockCheck (fun n => t.rramWord n) = 1) : t.batStart = u.takeBlock (fun n => t.rramWord n) := by
  unfold State.batStart
  dsimp only
  rw [if_neg hd, ← hu, hgood, if_pos (by decide)]

variable (hv : v = State.clampQ (((u.setFld R.BAT_STATUS_PROVISIONAL 1).setFld R.BAT_SOC_SOH 10000).updBat
  (fun b => { b with fcc := u.fld R.BAT_DESIGN_DESIGN % 2 ^ 31 })))
include hv

/-- A bad one is a fault unless all its words are 0; the estimator begins from the design capacity. -/
theorem State.batStart_provisional [Decidable (∃ n, n < 8 ∧ u.rramWord n ≠ 0)] (hbad : t.blockCheck (fun n => t.rramWord n) ≠ 1) :
    t.batStart = if ∃ n, n < 8 ∧ u.rramWord n ≠ 0 then v.fault 12 2 else v := by
  have hany : (List.range 8).any (fun n => u.rramWord n != 0) = true ↔ ∃ n, n < 8 ∧ u.rramWord n ≠ 0 := by
    rw [List.any_eq_true]
    simp only [List.mem_range, bne_iff_ne]
  unfold State.batStart
  dsimp only
  rw [if_neg hd, ← hu, beq_eq_false_iff_ne.mpr hbad, if_neg Bool.false_ne_true, ← hv]
  exact if_congr hany rfl rfl

end

/-- Settles O34: the estimator's events, the restore from the host, and the three ends of a start. -/
theorem batteryCommands : Obligations.BatteryCommands := by
  refine ⟨fun s hon hseen hlow => ?_, fun s hon => ⟨fun hdue => ?_, fun hre => ?_, fun hp => ?_, fun ha => ?_⟩, ?_, ?_⟩
  · exact congrArg Host.Outcome.next (if_pos (by simp [hon, hseen, hlow]))
  · refine ⟨_, execFirstEstimate_due hon hdue, ?_, ?_, ?_⟩
    · rw [State.bat_updBat, ← s.estimate_q]
    · rw [State.bat_updBat]
    · rw [State.bat_updBat]
  · refine ⟨_, execBatRelaxResync_due hon hre, ?_, ?_⟩
    · rw [State.bat_updBat, ← s.estimate_q]
    · rw [State.bat_updBat]
  · exact congrArg Host.Outcome.next (if_pos (by simp [hon, hp]))
  · exact congrArg Host.Outcome.next (if_pos (by simp [hon, ha]))
  · intro req s t hl hreach hg hmay ht
    exact execBatRestore_judged hl hreach hg hmay ht
  · intro req s t hc hoff ht
    have hstart : exec (.batEnable req) s = .next t.batStart := ht ▸ execBatEnable_starts hc hoff
    have hdesign : t.fld R.BAT_DESIGN_DESIGN = s.fld R.BAT_DESIGN_DESIGN := by rw [ht, State.fld_setFld_off _ _ _ _ (by decide)]
    rw [← hdesign]
    refine ⟨fun h0 => ?_, fun u v h0 hu hv => ⟨fun hgood => ?_, fun hzero hbad => ?_, fun n hn hword hbad => ?_⟩⟩
    · rw [hstart, State.batStart, if_pos h0]
    · rw [hstart, State.batStart_block h0 hu hgood]
    · classical rw [hstart, State.batStart_provisional h0 hu hv hbad, if_neg (fun ⟨n, hn, hword⟩ => hword (hzero n hn))]
    · classical rw [hstart, State.batStart_provisional h0 hu hv hbad, if_pos ⟨n, hn, hword⟩]

end Sys2Proof.Machine
end

section
/-! The PMBus target (11, R375–R391, R406): what every command does beside its own meaning, and what each reads and writes. -/

namespace Sys2Proof.Machine

/-! ## Commands of the shared form (R375, R380–R382, R389–R391) -/

section
variable {s t : State} {code n : Nat} {block : Bool} {rd : State → Option Bytes} {wr : Bytes → State → Option State} {data : Bytes}
  {pec : Option Byte}

theorem State.pmCommand_down (x : PmXfer) (h : s.pmUp = false) : s.pmCommand code x n block rd wr = s := by
  exact if_pos (by rw [h]; rfl)

theorem State.pmCommand_write (hup : s.pmUp = true) :
    s.pmCommand code (.write data pec) n block rd wr = s.pmWrite code data pec (wr data) := by
  rw [State.pmCommand, hup, Bool.not_true, if_neg Bool.false_ne_true]

theorem State.pmWrite_pecWrong (act : State → Option State) (h : s.pecRest code data pec = .pecWrong) :
    s.pmWrite code data pec act = (s.latchCml 5 8).send .pmNack := by
  rw [State.pmWrite, h]

theorem State.pmWrite_pecMissing (act : State → Option State) (h : s.pecRest code data pec = .pecMissing) :
    s.pmWrite code data pec act = s.latchCml 5 8 := by
  rw [State.pmWrite, h]

theorem State.pmWrite_protected (act : State → Option State) (h : s.pecRest code data pec = .fine) (hwp : s.wpAllows code = false) :
    s.pmWrite code data pec act = s.pmInvalid := by
  simp only [State.pmWrite, h, hwp, Bool.not_false, if_true]

/-- A write that nothing refuses. -/
theorem State.pmWrite_fine {act : State → Option State} (h : s.pecRest code data pec = .fine) (hwp : s.wpAllows code = true)
    (hact : act s = some t) : s.pmWrite code data pec act = t := by
  simp only [State.pmWrite, h, hwp, hact, Bool.not_true, Bool.false_eq_true, if_false]

theorem State.pmCommand_written (hup : s.pmUp = true) (h : s.pecRest code data pec = .fine) (hwp : s.wpAllows code = true)
    (hact : wr data s = some t) : s.pmCommand code (.write data pec) n block rd wr = t := by
  rw [State.pmCommand_write hup, State.pmWrite_fine h hwp hact]

/-- A read of one page that has the command. -/
theorem State.pmCommand_read {bs : Bytes} (p : Bool) (hup : s.pmUp = true) (hpage : s.pm.page ≠ 0xFF) (hrd : rd s = some bs) :
    s.pmCommand code (.read p) n block rd wr = s.pmSend code [] (if block then blockOf bs else bs) p := by
  simp only [State.pmCommand, hup, Bool.not_true, Bool.false_eq_true, if_false, if_neg hpage, hrd]

/-- A read of all pages. -/
theorem State.pmCommand_readAll (p : Bool) (hup : s.pmUp = true) (hpage : s.pm.page = 0xFF) :
    s.pmCommand code (.read p) n block rd wr = s.pmBadRead code n block [] p := by
  simp only [State.pmCommand, hup, Bool.not_true, Bool.false_eq_true, if_false, if_pos hpage]

theorem State.pecRest_wrong {b : Byte}
    (h : b ≠ BitVec.ofNat 8 (crc8 (BitVec.ofNat 8 (2 * s.pmAddr) :: BitVec.ofNat 8 code :: data))) :
    s.pecRest code data (some b) = .pecWrong := if_neg h

theorem State.pecRest_missing (h : s.pecNeeded code = true) : s.pecRest code data none = .pecMissing := if_pos h

/-- A write is fine without a PEC byte where none is needed, and with the right one. -/
theorem State.pecRest_fine (h : pec = none ∧ s.pecNeeded code = false ∨
    pec = some (BitVec.ofNat 8 (crc8 (BitVec.ofNat 8 (2 * s.pmAddr) :: BitVec.ofNat 8 code :: data)))) :
    s.pecRest code data pec = .fine := by
  rcases h with ⟨rfl, h⟩ | rfl
  · exact if_neg (by rw [h]; decide)
  · exact if_pos rfl

end

/-- A command of the target whose writes and reads have the shared form, and which does nothing while the target is down. -/
structure PmServed (c : PmXfer → Instr) (code n : Nat) (block : Bool) (s : State) : Prop where
  down : ∀ x, s.pmUp = false → exec (c x) s = .next s
  served : ∃ rd wr, (∀ d p, exec (c (.write d p)) s = .next (s.pmCommand code (.write d p) n block rd wr)) ∧
    ∀ p, exec (c (.read p)) s = .next (s.pmCommand code (.read p) n block rd wr)

/-- A command all of whose transfers have it. -/
theorem PmServed.of_command {c : PmXfer → Instr} {code n : Nat} {block : Bool} {s : State}
    (h : ∃ rd wr, ∀ x, exec (c x) s = .next (s.pmCommand code x n block rd wr)) : PmServed c code n block s := by
  obtain ⟨rd, wr, hx⟩ := h
  exact ⟨fun x hdown => (hx x).trans (congrArg Host.Outcome.next (State.pmCommand_down x hdown)), rd, wr, fun d p => hx _, fun p => hx _⟩

/-- MFR_REG_READ, whose process call has a form of its own. -/
theorem mfrRegRead_served (s : State) : PmServed .mfrRegRead 0xD0 5 true s where
  down x hdown := by
    cases x with
    | write d p => exact congrArg Host.Outcome.next (State.pmCommand_down _ hdown)
    | read p => exact congrArg Host.Outcome.next (State.pmCommand_down _ hdown)
    | call d p => exact congrArg Host.Outcome.next (if_pos (by rw [hdown]; rfl))
  served := ⟨_, _, fun _ _ => rfl, fun _ => rfl⟩

/-- The commands of the target (Tables 11.3, 11.5): its instruction, its code, the data bytes that it reads, whether they are a block. -/
def pmTable : List ((PmXfer → Instr) × Nat × Nat × Bool) :=
  [(.page, 0x00, 1, false), (.operation, 0x01, 1, false), (.onOffConfig, 0x02, 1, false), (.clearFaults, 0x03, 1, false),
   (.writeProtect, 0x10, 1, false), (.capability, 0x19, 1, false), (.voutMode, 0x20, 1, false), (.voutCommand, 0x21, 2, false),
   (.voutMax, 0x24, 2, false), (.voutTransitionRate, 0x27, 2, false), (.voutMin, 0x2B, 2, false), (.voutOvFaultLimit, 0x40, 2, false),
   (.voutUvFaultLimit, 0x44, 2, false), (.statusByte, 0x78, 1, false), (.statusWord, 0x79, 2, false), (.statusVout, 0x7A, 1, false),
   (.statusIout, 0x7B, 1, false), (.statusTemperature, 0x7D, 1, false), (.statusCml, 0x7E, 1, false),
   (.statusMfrSpecific, 0x80, 1, false), (.readEout, 0x87, 6, true), (.readVout, 0x8B, 2, false), (.readIout, 0x8C, 2, false),
   (.readTemperature1, 0x8D, 2, false), (.readPout, 0x96, 2, false), (.pmbusRevision, 0x98, 1, false), (.mfrId, 0x99, 6, true),
   (.mfrModel, 0x9A, 8, true), (.mfrRevision, 0x9B, 2, true), (.mfrRegRead, 0xD0, 5, true), (.mfrRegWrite, 0xD1, 8, true),
   (.mfrGovEvent, 0xD2, 12, true), (.mfrBat, 0xD3, 16, true), (.mfrPhases, 0xD4, 2, false), (.mfrReady, 0xD5, 8, true)]

theorem pmTable_served (s : State) : ∀ p ∈ pmTable, PmServed p.1 p.2.1 p.2.2.1 p.2.2.2 s := by
  have shared {c : PmXfer → Instr} {code n : Nat} {block : Bool} (rd : State → Option Bytes) (wr : Bytes → State → Option State)
      (h : ∀ x, exec (c x) s = .next (s.pmCommand code x n block rd wr)) : PmServed c code n block s := .of_command ⟨rd, wr, h⟩
  unfold pmTable
  simp only [List.forall_mem_cons, List.not_mem_nil, false_imp_iff, implies_true, and_true]
  and_intros
  pick_goal 30
  · exact mfrRegRead_served s
  all_goals exact shared _ _ fun _ => rfl

/-- Settles O35: the shared form gives each transfer's refusal, and every command of the table has it. -/
theorem pmbusTransferRules : Obligations.PmbusTransferRules := by
  refine ⟨fun p hp s => ?_, fun code s hup hcode => ?_, fun s hup halert => ?_⟩
  · obtain ⟨hdown, rd, wr, hwrite, hread⟩ := pmTable_served s p hp
    refine ⟨hdown, fun data b hup hb => ?_, fun data hup hneed => ?_, fun data b hup hwp hb => ?_, fun pec hup hpage => ?_⟩
    · rw [hwrite, State.pmCommand_write hup, State.pmWrite_pecWrong _ (State.pecRest_wrong hb)]
    · rw [hwrite, State.pmCommand_write hup, State.pmWrite_pecMissing _ (State.pecRest_missing hneed)]
    · rw [hwrite, State.pmCommand_write hup, State.pmWrite_protected _ (State.pecRest_fine hb) hwp]
    · rw [hread, State.pmCommand_readAll pec hup hpage, State.pmBadRead, blockOf, List.length_replicate]
  · exact congrArg Host.Outcome.next (if_pos (by simp [hup, hcode]))
  · exact congrArg Host.Outcome.next (if_pos (by simp [hup, halert]))

end Sys2Proof.Machine
end

section
/-! What each PMBus command reads and writes (11, Tables 11.3–11.5, R375–R388, R406). -/

namespace Sys2Proof.Machine

/-! ## Reads -/

section
variable {s : State} {x : Nat} (pec : Bool) (hup : s.pmUp = true) (hx : x = s.pm.page) (hpage : x ≠ 0xFF)
include hup hx hpage

/-- A read of a command with a plain value. -/
theorem exec_pmRead {c : PmXfer → Instr} {code n : Nat} {rd : State → Option Bytes} {wr : Bytes → State → Option State} {bs : Bytes}
    (hc : exec (c (.read pec)) s = .next (s.pmCommand code (.read pec) n false rd wr)) (hrd : rd s = some bs) :
    exec (c (.read pec)) s = .next (s.pmSend code [] bs pec) :=
  hc.trans (congrArg Host.Outcome.next (State.pmCommand_read pec hup (hx ▸ hpage) hrd))

/-- A read of a command with a block. -/
theorem exec_pmReadBlock {c : PmXfer → Instr} {code n k : Nat} {rd : State → Option Bytes} {wr : Bytes → State → Option State} {bs : Bytes}
    (hc : exec (c (.read pec)) s = .next (s.pmCommand code (.read pec) n true rd wr)) (hrd : rd s = some bs) (hlen : bs.length = k) :
    exec (c (.read pec)) s = .next (s.pmSend code [] (BitVec.ofNat 8 k :: bs) pec) := by
  subst hlen
  exact hc.trans (congrArg Host.Outcome.next (State.pmCommand_read pec hup (hx ▸ hpage) hrd))

/-- The latched bytes of a page, a byte of which may have more. -/
theorem exec_pmReadStatus {c : PmXfer → Instr} {code : Nat} {get : PmSt → Tab Byte} {put : PmSt → Tab Byte → PmSt} {extra : State → Byte}
    (hc : exec (c (.read pec)) s = .next (s.pmStatus code (.read pec) get put extra)) :
    exec (c (.read pec)) s = .next (s.pmSend code [] [tabGet 0 x (get s.pm) ||| extra s] pec) := by
  subst hx
  exact hc.trans (congrArg Host.Outcome.next (State.pmCommand_read pec hup hpage rfl))

/-- The standard commands up to the voltage limits. -/
theorem pmReads_settings :
    exec (.page (.read pec)) s = .next (s.pmSend 0x00 [] [BitVec.ofNat 8 x] pec) ∧
    exec (.operation (.read pec)) s = .next (s.pmSend 0x01 [] [if s.flag (R.LOOP_CTL_EN x) then 0x80 else 0] pec) ∧
    exec (.onOffConfig (.read pec)) s = .next (s.pmSend 0x02 [] [0x18] pec) ∧
    exec (.writeProtect (.read pec)) s = .next (s.pmSend 0x10 [] [s.pm.wp] pec) ∧
    exec (.capability (.read pec)) s = .next (s.pmSend 0x19 [] [0xD4] pec) ∧
    exec (.voutMode (.read pec)) s = .next (s.pmSend 0x20 [] [0x14] pec) ∧
    exec (.voutCommand (.read pec)) s = .next (s.pmSend 0x21 [] (leBytes 2 ((s.fld (R.LOOP_VSET_VSET x) * 1024 + 500) / 1000)) pec) ∧
    exec (.voutMax (.read pec)) s = .next (s.pmSend 0x24 [] (leBytes 2 ((s.fld (R.LOOP_VLIM_VMAX x) * 1024 + 500) / 1000)) pec) ∧
    exec (.voutMin (.read pec)) s = .next (s.pmSend 0x2B [] (leBytes 2 ((s.fld (R.LOOP_VLIM_VMIN x) * 1024 + 500) / 1000)) pec) ∧
    exec (.voutTransitionRate (.read pec)) s = .next (s.pmSend 0x27 [] (leBytes 2 (linear11 (s.reg (R.LOOP_VSLEW x)).toNat 1000)) pec) ∧
    exec (.voutOvFaultLimit (.read pec)) s = .next (s.pmSend 0x40 [] (leBytes 2 ((s.fld (R.LOOP_PROT_OV x) * 1024 + 500) / 1000)) pec) ∧
    exec (.voutUvFaultLimit (.read pec)) s = .next (s.pmSend 0x44 [] (leBytes 2 ((s.fld (R.LOOP_PROT_UV x) * 1024 + 500) / 1000)) pec) := by
  have plain {c : PmXfer → Instr} {code n : Nat} {rd : State → Option Bytes} {wr : Bytes → State → Option State} {bs : Bytes}
      (hc : exec (c (.read pec)) s = .next (s.pmCommand code (.read pec) n false rd wr)) (hrd : rd s = some bs) :
      exec (c (.read pec)) s = .next (s.pmSend code [] bs pec) := exec_pmRead pec hup hx hpage hc hrd
  subst hx
  exact ⟨plain rfl rfl, plain rfl rfl, plain rfl rfl, plain rfl rfl, plain rfl rfl, plain rfl rfl, plain rfl rfl, plain rfl rfl, plain rfl rfl,
    plain rfl rfl, plain rfl rfl, plain rfl rfl⟩

/-- The status commands. -/
theorem pmReads_status :
    exec (.statusByte (.read pec)) s = .next (s.pmSend 0x78 [] (leBytes 1 (s.statusWordOf x)) pec) ∧
    exec (.statusWord (.read pec)) s = .next (s.pmSend 0x79 [] (leBytes 2 (s.statusWordOf x)) pec) ∧
    exec (.statusVout (.read pec)) s = .next (s.pmSend 0x7A [] [tabGet 0 x s.pm.latVout] pec) ∧
    exec (.statusIout (.read pec)) s = .next (s.pmSend 0x7B [] [tabGet 0 x s.pm.latIout] pec) ∧
    exec (.statusTemperature (.read pec)) s = .next (s.pmSend 0x7D [] [tabGet 0 x s.pm.latTemp] pec) ∧
    exec (.statusCml (.read pec)) s = .next (s.pmSend 0x7E [] [s.pm.cml] pec) ∧
    exec (.statusMfrSpecific (.read pec)) s =
      .next (s.pmSend 0x80 [] [tabGet 0 x s.pm.latMfr ||| BitVec.ofNat 8 (s.pm.regRes * 16)] pec) := by
  have plain {c : PmXfer → Instr} {code n : Nat} {rd : State → Option Bytes} {wr : Bytes → State → Option State} {bs : Bytes}
      (hc : exec (c (.read pec)) s = .next (s.pmCommand code (.read pec) n false rd wr)) (hrd : rd s = some bs) :
      exec (c (.read pec)) s = .next (s.pmSend code [] bs pec) := exec_pmRead pec hup hx hpage hc hrd
  have latched {c : PmXfer → Instr} {code : Nat} {get : PmSt → Tab Byte} {put : PmSt → Tab Byte → PmSt}
      (hc : exec (c (.read pec)) s = .next (s.pmStatus code (.read pec) get put (fun _ => 0))) :
      exec (c (.read pec)) s = .next (s.pmSend code [] [tabGet 0 x (get s.pm)] pec) := by
    rw [exec_pmReadStatus pec hup hx hpage hc]
    simp only [BitVec.or_zero, BitVec.ofNat_eq_ofNat]
  have hmfr := exec_pmReadStatus pec hup hx hpage (c := .statusMfrSpecific) (code := 0x80) (get := fun p => p.latMfr)
    (put := fun p t => { p with latMfr := t }) (extra := fun s => BitVec.ofNat 8 (s.pm.regRes * 16)) rfl
  subst hx
  exact ⟨plain rfl rfl, plain rfl rfl, latched rfl, latched rfl, latched rfl, plain rfl rfl, hmfr⟩

/-- What the loop and the device report. -/
theorem pmReads_reports :
    exec (.readEout (.read pec)) s = .next (s.pmSend 0x87 []
      (6 :: (leBytes 2 (s.loop x).eoutAcc.toNat ++ leBytes 1 (s.loop x).eoutRoll.toNat ++ leBytes 3 (s.loop x).eoutN)) pec) ∧
    exec (.readVout (.read pec)) s = .next (s.pmSend 0x8B [] (leBytes 2 ((s.fld (R.LOOP_TLM_V_V x) * 1024 + 500) / 1000)) pec) ∧
    exec (.readIout (.read pec)) s = .next (s.pmSend 0x8C [] (leBytes 2 (linear11 (s.sfld (R.LOOP_TLM_I_I x)) 100)) pec) ∧
    exec (.readTemperature1 (.read pec)) s = .next (s.pmSend 0x8D [] (leBytes 2 (linear11 (s.sfld (R.LOOP_TLM_T_T x)) 16)) pec) ∧
    exec (.readPout (.read pec)) s = .next (s.pmSend 0x96 [] (leBytes 2 (linear11 (s.sfld (R.LOOP_TLM_P_P x)) 1000)) pec) ∧
    exec (.pmbusRevision (.read pec)) s = .next (s.pmSend 0x98 [] [0x33] pec) ∧
    exec (.mfrId (.read pec)) s = .next (s.pmSend 0x99 [] [6, 0x4E, 0x41, 0x52, 0x42, 0x45, 0x4C] pec) ∧
    exec (.mfrModel (.read pec)) s = .next (s.pmSend 0x9A [] [8, 0x44, 0x58, 0x39, 0x2D, 0x36, 0x34, 0x31, 0x36] pec) ∧
    exec (.mfrRevision (.read pec)) s =
      .next (s.pmSend 0x9B [] [2, BitVec.ofNat 8 (s.fld R.IDR_REV_MAJOR), BitVec.ofNat 8 (s.fld R.IDR_REV_MINOR)] pec) := by
  have plain {c : PmXfer → Instr} {code n : Nat} {rd : State → Option Bytes} {wr : Bytes → State → Option State} {bs : Bytes}
      (hc : exec (c (.read pec)) s = .next (s.pmCommand code (.read pec) n false rd wr)) (hrd : rd s = some bs) :
      exec (c (.read pec)) s = .next (s.pmSend code [] bs pec) := exec_pmRead pec hup hx hpage hc hrd
  have whole {c : PmXfer → Instr} {code n k : Nat} {rd : State → Option Bytes} {wr : Bytes → State → Option State} {bs : Bytes}
      (hc : exec (c (.read pec)) s = .next (s.pmCommand code (.read pec) n true rd wr)) (hrd : rd s = some bs) (hlen : bs.length = k) :
      exec (c (.read pec)) s = .next (s.pmSend code [] (BitVec.ofNat 8 k :: bs) pec) := exec_pmReadBlock pec hup hx hpage hc hrd hlen
  subst hx
  exact ⟨whole rfl rfl rfl, plain rfl rfl, plain rfl rfl, plain rfl rfl, plain rfl rfl, plain rfl rfl, whole rfl rfl rfl, whole rfl rfl rfl,
    whole rfl rfl rfl⟩

/-- The manufacturer commands. -/
theorem pmReads_mfr :
    (2 ≤ x → exec (.mfrGovEvent (.read pec)) s = .next (s.pmSend 0xD2 [] (12 ::
      (leBytes 4 (s.reg (R.GOV_EVT_E (x - 2))).toNat ++ leBytes 4 (s.reg (R.GOV_EVT_T (x - 2))).toNat
        ++ leBytes 2 (s.fld (R.GOV_EVT_CNT_CNT (x - 2))) ++ [BitVec.ofNat 8 (s.fld (R.GOV_STATUS_CAUSE (x - 2))), 0])) pec)) ∧
    exec (.mfrBat (.read pec)) s = .next (s.pmSend 0xD3 [] (16 ::
      [R.BAT_SOC, R.BAT_RC, R.BAT_FCC, R.BAT_TTE].flatMap (fun r => leBytes 4 (s.regView .warden r).toNat)) pec) ∧
    exec (.mfrPhases (.read pec)) s = .next (s.pmSend 0xD4 [] (leBytes 2 ((s.mine x).foldl (fun m n => m + 2 ^ n) 0)) pec) ∧
    exec (.mfrReady (.read pec)) s = .next (s.pmSend 0xD5 []
      (8 :: (leBytes 4 (s.reg R.IDR_READY_0).toNat ++ leBytes 4 (s.reg R.IDR_READY_1).toNat)) pec) ∧
    (∀ a b c d : Byte, exec (.mfrRegRead (.call [4, a, b, c, d] pec)) s = .next (
      let r := s.busRead .tw0 (0xF000000000 + leNat [a, b, c, d]) 4
      r.st.pmSend 0xD0 [4, a, b, c, d] (5 :: (leBytes 1 r.code ++ leBytes 4 (if r.code = 0 then r.val else 0))) pec)) := by
  refine ⟨fun h2 => exec_pmReadBlock pec hup hx hpage rfl ?_ rfl, exec_pmReadBlock pec hup hx hpage rfl rfl rfl, ?_,
    exec_pmReadBlock pec hup hx hpage rfl rfl rfl, fun a b c d => ?_⟩
  · subst hx
    exact if_neg (by omega)
  · subst hx
    exact exec_pmRead pec hup rfl hpage rfl rfl
  · subst hx
    refine congrArg Host.Outcome.next ((if_neg (by rw [hup]; decide)).trans ((if_neg ?_).trans rfl))
    simp [hpage]

end

/-! ## Writes -/

/-- The word that the two bytes of a write make, in its seventh bit. -/
theorem testBit_word_seven (a b : Byte) : (a.toNat + 256 * b.toNat).testBit 7 = a.getLsbD 7 := by
  rw [show a.getLsbD 7 = a.toNat.testBit 7 from rfl, Nat.testBit_eq_decide_div_mod_eq, Nat.testBit_eq_decide_div_mod_eq]
  congr 1
  apply propext
  omega

theorem leNat_leBytes (n v : Nat) : leNat (leBytes n v) = v % 256 ^ n := by
  induction n generalizing v with
  | zero => rw [pow_zero, Nat.mod_one]; rfl
  | succ n ih =>
    show (BitVec.ofNat 8 v).toNat + 256 * leNat (leBytes n (v / 256)) = _
    rw [ih, BitVec.toNat_ofNat, show 256 ^ (n + 1) = 256 * 256 ^ n from pow_succ' .., Nat.mod_mul]

section
variable {s : State} {pec : Option Byte} (hup : s.pmUp = true)
include hup

/-- A write that nothing refuses does what the command's rule says. -/
theorem exec_pmWrite {c : PmXfer → Instr} {code n : Nat} {block : Bool} {rd : State → Option Bytes} {wr : Bytes → State → Option State}
    {data : Bytes} {t : State} (hc : exec (c (.write data pec)) s = .next (s.pmCommand code (.write data pec) n block rd wr))
    (hfine : s.pecRest code data pec = .fine) (hwp : s.wpAllows code = true) (hact : wr data s = some t) :
    exec (c (.write data pec)) s = .next t := hc.trans (congrArg Host.Outcome.next (State.pmCommand_written hup hfine hwp hact))

/-- PAGE, OPERATION and ON_OFF_CONFIG (R238, R375, R406). -/
theorem pmWrites_operation :
    (∀ v : Byte, v.toNat < 4 ∨ v = 0xFF → s.pecRest 0x00 [v] pec = .fine → s.wpAllows 0x00 = true →
      exec (.page (.write [v] pec)) s = .next (s.updPm (fun p => { p with page := v.toNat }))) ∧
    (s.pecRest 0x01 [0x80] pec = .fine → s.wpAllows 0x01 = true → exec (.operation (.write [0x80] pec)) s =
      .next (s.loopReg R.LOOP_CTL (fun w => w ||| 1))) ∧
    (∀ v : Byte, v = 0x40 ∨ v = 0x00 → s.pecRest 0x01 [v] pec = .fine → s.wpAllows 0x01 = true → ¬ (0 ∈ s.pmPages ∧ s.loadOn = true) →
      exec (.operation (.write [v] pec)) s =
        .next (s.loopReg R.LOOP_CTL (fun w => (w &&& 0xFFFFFFFC) ||| (if v = 0 then 2 else 0)))) ∧
    (s.pecRest 0x02 [0x18] pec = .fine → s.wpAllows 0x02 = true → exec (.onOffConfig (.write [0x18] pec)) s = .next s) := by
  refine ⟨fun v hv hfine hwp => ?_, fun hfine hwp => exec_pmWrite hup rfl hfine hwp rfl, fun v hv hfine hwp hload => ?_,
    fun hfine hwp => exec_pmWrite hup rfl hfine hwp rfl⟩
  · have hrange : v.toNat < 4 ∨ v.toNat = 0xFF := hv.imp id (congrArg BitVec.toNat)
    exact exec_pmWrite hup rfl hfine hwp (if_pos hrange)
  · have hgo : ¬ (s.pmPages.contains 0 && s.loadOn) = true := by simpa using hload
    rcases hv with rfl | rfl
    · exact exec_pmWrite hup rfl hfine hwp (if_neg hgo)
    · exact exec_pmWrite hup rfl hfine hwp (if_neg hgo)

/-- CLEAR_FAULTS, WRITE_PROTECT and the voltages (R377, R382, R384). -/
theorem pmWrites_settings :
    (s.pecRest 0x03 [] pec = .fine → s.wpAllows 0x03 = true → exec (.clearFaults (.write [] pec)) s = .next (
      let t := s.pmPages.foldl (fun s k => s.updPm (fun p => { p with
        latVout := tabDel k p.latVout
        latIout := tabDel k p.latIout
        latTemp := tabDel k p.latTemp
        latMfr := tabDel k p.latMfr
        latSum := tabDel k p.latSum })) s
      (t.updPm (fun p => { p with cml := 0, busy := false })).pmSettle)) ∧
    (∀ v : Byte, v = 0x80 ∨ v = 0x40 ∨ v = 0x20 ∨ v = 0 → s.pecRest 0x10 [v] pec = .fine →
      exec (.writeProtect (.write [v] pec)) s = .next (s.updPm (fun p => { p with wp := v }))) ∧
    (∀ p ∈ ([(.voutCommand, 0x21, R.LOOP_VSET, R.LOOP_VSET_VSET 0), (.voutMax, 0x24, R.LOOP_VLIM, R.LOOP_VLIM_VMAX 0),
        (.voutMin, 0x2B, R.LOOP_VLIM, R.LOOP_VLIM_VMIN 0), (.voutOvFaultLimit, 0x40, R.LOOP_PROT, R.LOOP_PROT_OV 0),
        (.voutUvFaultLimit, 0x44, R.LOOP_PROT, R.LOOP_PROT_UV 0)] : List ((PmXfer → Instr) × Nat × (Nat → Nat) × Fld)), ∀ a b : Byte,
      s.pecRest p.2.1 [a, b] pec = .fine → s.wpAllows p.2.1 = true → exec (p.1 (.write [a, b] pec)) s =
        .next (s.loopReg p.2.2.1 (p.2.2.2.put (((a.toNat + 256 * b.toNat) * 1000 + 512) / 1024)))) ∧
    (∀ (a b : Byte) (r : Nat), s.pecRest 0x27 [a, b] pec = .fine → s.wpAllows 0x27 = true → milliOf (a.toNat + 256 * b.toNat) = .some r →
      exec (.voutTransitionRate (.write [a, b] pec)) s = .next (s.loopReg R.LOOP_VSLEW (fun _ => BitVec.ofNat 32 r))) := by
  refine ⟨fun hfine hwp => exec_pmWrite hup rfl hfine hwp (if_neg (fun h => h rfl)), fun v hv hfine => ?_, ?_, fun a b r hfine hwp hr => ?_⟩
  · rcases hv with rfl | rfl | rfl | rfl <;> exact exec_pmWrite hup rfl hfine rfl rfl
  · have volts {c : PmXfer → Instr} {code : Nat} {reg : Nat → Nat} {f : Nat → Fld} (hc : ∀ x, exec (c x) s = .next (s.pmVolts code x reg f))
        (a b : Byte) (hfine : s.pecRest code [a, b] pec = .fine) (hwp : s.wpAllows code = true) : exec (c (.write [a, b] pec)) s =
          .next (s.loopReg reg ((f 0).put (((a.toNat + 256 * b.toNat) * 1000 + 512) / 1024))) := exec_pmWrite hup (hc _) hfine hwp rfl
    simp only [List.forall_mem_cons, List.not_mem_nil, false_imp_iff, implies_true, and_true]
    exact ⟨volts fun _ => rfl, volts fun _ => rfl, volts fun _ => rfl, volts fun _ => rfl, volts fun _ => rfl⟩
  · exact exec_pmWrite hup rfl hfine hwp (by simp only [onWord, hr, Option.map_some])

/-- The status commands: a write clears the bits written 1 (R385). -/
theorem pmWrites_status :
    (∀ p ∈ ([(.statusVout, 0x7A, fun p => p.latVout, fun p t => { p with latVout := t }),
        (.statusIout, 0x7B, fun p => p.latIout, fun p t => { p with latIout := t }),
        (.statusTemperature, 0x7D, fun p => p.latTemp, fun p t => { p with latTemp := t }),
        (.statusMfrSpecific, 0x80, fun p => p.latMfr, fun p t => { p with latMfr := t })] :
        List ((PmXfer → Instr) × Nat × (PmSt → Tab Byte) × (PmSt → Tab Byte → PmSt))), ∀ v : Byte,
      s.pecRest p.2.1 [v] pec = .fine → s.wpAllows p.2.1 = true →
      exec (p.1 (.write [v] pec)) s = .next (s.pmPages.foldl (fun s k =>
        s.updPm (fun q => p.2.2.2 q (tabSet 0 k (tabGet 0 k (p.2.2.1 q) &&& ~~~ v) (p.2.2.1 q)))) s).pmSettle) ∧
    (∀ (v : Nat) (t : State), t = s.pmPages.foldl (fun s k => s.updPm (fun p =>
        { p with latSum := tabSet 0 k (tabGet 0 k p.latSum &&& ~~~ BitVec.ofNat 16 v) p.latSum })) s →
      (∀ a b : Byte, v = a.toNat + 256 * b.toNat → s.pecRest 0x79 [a, b] pec = .fine → s.wpAllows 0x79 = true →
        exec (.statusWord (.write [a, b] pec)) s =
          .next (if a.getLsbD 7 then t.updPm (fun p => { p with busy := false }) else t).pmSettle) ∧
      (∀ a : Byte, v = a.toNat → s.pecRest 0x78 [a] pec = .fine → s.wpAllows 0x78 = true →
        exec (.statusByte (.write [a] pec)) s =
          .next (if a.getLsbD 7 then t.updPm (fun p => { p with busy := false }) else t).pmSettle)) ∧
    (∀ v : Byte, s.pecRest 0x7E [v] pec = .fine → s.wpAllows 0x7E = true → exec (.statusCml (.write [v] pec)) s =
      .next (s.updPm (fun p => { p with cml := p.cml &&& ~~~ v })).pmSettle) := by
  have hbyte (v : Byte) : BitVec.ofNat 8 v.toNat = v := by rw [BitVec.ofNat_toNat, BitVec.setWidth_eq]
  refine ⟨?_, ?_, fun v hfine hwp => ?_⟩
  · have latched {c : PmXfer → Instr} {code : Nat} {get : PmSt → Tab Byte} {put : PmSt → Tab Byte → PmSt} {extra : State → Byte}
        (hc : ∀ x, exec (c x) s = .next (s.pmStatus code x get put extra)) (v : Byte) (hfine : s.pecRest code [v] pec = .fine)
        (hwp : s.wpAllows code = true) : exec (c (.write [v] pec)) s = .next (s.pmPages.foldl (fun s k =>
          s.updPm (fun q => put q (tabSet 0 k (tabGet 0 k (get q) &&& ~~~ v) (get q)))) s).pmSettle := by
      rw [exec_pmWrite hup (hc _) hfine hwp rfl, hbyte]
    simp only [List.forall_mem_cons, List.not_mem_nil, false_imp_iff, implies_true, and_true]
    exact ⟨latched (put := fun p t => { p with latVout := t }) (extra := fun _ => 0) fun _ => rfl,
      latched (put := fun p t => { p with latIout := t }) (extra := fun _ => 0) fun _ => rfl,
      latched (put := fun p t => { p with latTemp := t }) (extra := fun _ => 0) fun _ => rfl,
      latched (put := fun p t => { p with latMfr := t }) (extra := fun s => BitVec.ofNat 8 (s.pm.regRes * 16)) fun _ => rfl⟩
  · rintro v t rfl
    refine ⟨?_, ?_⟩
    · rintro a b rfl hfine hwp
      have hclear : exec (.statusWord (.write [a, b] pec)) s = .next (s.clearSums (a.toNat + 256 * b.toNat)) :=
        exec_pmWrite hup rfl hfine hwp rfl
      rw [hclear, State.clearSums, testBit_word_seven]
    · rintro a rfl hfine hwp
      have hclear : exec (.statusByte (.write [a] pec)) s = .next (s.clearSums a.toNat) := exec_pmWrite hup rfl hfine hwp rfl
      rw [hclear, State.clearSums]
      rfl
  · have hclear : exec (.statusCml (.write [v] pec)) s =
        .next (s.updPm (fun p => { p with cml := p.cml &&& ~~~ BitVec.ofNat 8 v.toNat })).pmSettle := exec_pmWrite hup rfl hfine hwp rfl
    rw [hclear, hbyte]

end

/-- MFR_REG_WRITE (R388): the two words behind the count. -/
theorem pmWrites_mfrRegWrite {s : State} {pec : Option Byte} (hup : s.pmUp = true) {o v : Word} {d : Bytes}
    (hd : d = 8 :: (leBytes 4 o.toNat ++ leBytes 4 v.toNat)) (hfine : s.pecRest 0xD1 d pec = .fine) (hwp : s.wpAllows 0xD1 = true) :
    exec (.mfrRegWrite (.write d pec)) s = .next (
      let r := s.busWrite .tw0 (0xF000000000 + o.toNat) 4 v.toNat
      r.st.updPm (fun p => { p with regRes := r.code })) := by
  have ho : leNat (slice 1 4 d) = o.toNat := by
    rw [hd, show slice 1 4 ((8 : Byte) :: (leBytes 4 o.toNat ++ leBytes 4 v.toNat)) = leBytes 4 o.toNat from rfl, leNat_leBytes]
    omega
  have hv : leNat (slice 5 4 d) = v.toNat := by
    rw [hd, show slice 5 4 ((8 : Byte) :: (leBytes 4 o.toNat ++ leBytes 4 v.toNat)) = leBytes 4 v.toNat from rfl, leNat_leBytes]
    omega
  have hcount : ¬ (d.length ≠ 9 ∨ d.head? ≠ some 8) := by
    rw [hd]
    simp
  refine exec_pmWrite hup rfl hfine hwp ((if_neg hcount).trans ?_)
  rw [ho, hv]

/-- Settles O36: the reads, and the writes that nothing refuses. -/
theorem pmbusCommands : Obligations.PmbusCommands := by
  refine ⟨fun s pec x hup hx hpage => ?_, fun s pec hup => ?_⟩
  · obtain ⟨r1, r2, r3, r4, r5, r6, r7, r8, r9, r10, r11, r12⟩ := pmReads_settings pec hup hx hpage
    obtain ⟨s1, s2, s3, s4, s5, s6, s7⟩ := pmReads_status pec hup hx hpage
    obtain ⟨v1, v2, v3, v4, v5, v6, v7, v8, v9⟩ := pmReads_reports pec hup hx hpage
    exact ⟨r1, r2, r3, r4, r5, r6, r7, r8, r9, r10, r11, r12, s1, s2, s3, s4, s5, s6, s7, v1, v2, v3, v4, v5, v6, v7, v8, v9,
      pmReads_mfr pec hup hx hpage⟩
  · obtain ⟨o1, o2, o3, o4⟩ := pmWrites_operation (pec := pec) hup
    obtain ⟨t1, t2, t3, t4⟩ := pmWrites_settings (pec := pec) hup
    obtain ⟨u1, u2, u3⟩ := pmWrites_status (pec := pec) hup
    exact ⟨o1, o2, o3, o4, t1, t2, t3, t4, u1, u2, u3, fun o v d hd hfine hwp => pmWrites_mfrRegWrite hup hd hfine hwp⟩

end Sys2Proof.Machine
end

section
/-! AVSBus frames (11, R401–R405). -/

namespace Sys2Proof.Machine

/-! ## What a frame meets, in order -/

/-- Whether a command and its data type are ones that Table 11.7 lists. -/
def State.avsKnown (s : State) (m cmd ty data : Nat) : Bool :=
  if cmd = 3 then (s.avsRead (avsLoop m) ty).isSome else if cmd = 0 then (s.avsWrite m ty data).isSome else cmd == 1 && ty == 0

/-- A frame that begins as one of the enabled interface `m`. -/
structure AvsStart (s : State) (m f : Nat) : Prop where
  ready : s.ready (14 + m) = true
  enabled : s.flag (R.AVS_CFG_EN m) = true
  start : f / 2 ^ 30 % 4 = 1

/-- One with a good CRC and of the right form. -/
structure AvsGood (s : State) (m f : Nat) : Prop extends AvsStart s m f where
  crc : crc3 f = f % 8
  bit : f / 2 ^ 27 % 2 = 0
  reserved : f / 2 ^ 19 % 16 = 0

section
variable {s : State} {m f : Nat}

/-- A frame of an enabled interface with a bad CRC is counted (R401). -/
theorem State.avsFrame_badCrc (h : AvsStart s m f) (hcrc : crc3 f ≠ f % 8) :
    s.avsFrame m f = (s.satAdd (R.AVS_STAT_CRC_CNT m) 1 255).avsReply m 2 0 := by
  unfold State.avsFrame
  dsimp only
  rw [h.ready, h.enabled, h.start, if_neg (by decide), if_pos hcrc]

/-- A frame of the wrong form. -/
theorem State.avsFrame_badForm (h : AvsStart s m f) (hcrc : crc3 f = f % 8) (hform : f / 2 ^ 27 % 2 ≠ 0 ∨ f / 2 ^ 19 % 16 ≠ 0) :
    s.avsFrame m f = s.avsReply m 3 0 := by
  unfold State.avsFrame
  dsimp only
  rw [h.ready, h.enabled, h.start, if_neg (by decide), if_neg (not_not_intro hcrc), if_pos hform]

/-- A frame that the interface takes. -/
theorem State.avsFrame_taken (h : AvsGood s m f) {cmd ty : Nat} (hcmd : f / 2 ^ 28 % 4 = cmd) (hty : f / 2 ^ 23 % 16 = ty) :
    s.avsFrame m f =
      if !s.avsKnown m cmd ty (f / 2 ^ 3 % 2 ^ 16) then s.avsReply m 3 0
      else if s.loopState (avsLoop m) ≠ 2 then (s.setFld (R.AVS_STAT_LAST_TYPE m) ty).avsReply m 1 0
      else if cmd = 3 then (s.setFld (R.AVS_STAT_LAST_TYPE m) ty).avsReply m 0 ((s.avsRead (avsLoop m) ty).getD 0)
      else if cmd = 1 then
        ((s.setReg (R.AVS_HOLD m) (BitVec.ofNat 32 (f / 2 ^ 3 % 2 ^ 16 + 2 ^ 16))).setFld (R.AVS_STAT_LAST_TYPE m) ty).avsReply m 0 0
      else (((s.avsWrite m ty (f / 2 ^ 3 % 2 ^ 16)).getD s).setFld (R.AVS_STAT_LAST_TYPE m) ty).avsReply m 0 0 := by
  subst hcmd hty
  unfold State.avsFrame
  dsimp only
  rw [h.ready, h.enabled, h.start, if_neg (by decide), if_neg (not_not_intro h.crc), if_neg (by rw [h.bit, h.reserved]; decide)]
  rfl

/-- One for a loop that does not regulate. -/
theorem State.avsFrame_idle (h : AvsGood s m f) {cmd ty : Nat} (hcmd : f / 2 ^ 28 % 4 = cmd)
    (hty : f / 2 ^ 23 % 16 = ty) (hknown : s.avsKnown m cmd ty (f / 2 ^ 3 % 2 ^ 16) = true) (hidle : s.loopState (avsLoop m) ≠ 2) :
    s.avsFrame m f = (s.setFld (R.AVS_STAT_LAST_TYPE m) ty).avsReply m 1 0 := by
  rw [State.avsFrame_taken h hcmd hty, hknown, if_neg (by decide), if_pos hidle]

/-- A data type that is not listed. -/
theorem State.avsFrame_unlisted (h : AvsStart s m f) (hcrc : crc3 f = f % 8) (hlo : 5 ≤ f / 2 ^ 23 % 16) (hhi : f / 2 ^ 23 % 16 ≤ 13) :
    s.avsFrame m f = s.avsReply m 3 0 := by
  by_cases hform : f / 2 ^ 27 % 2 ≠ 0 ∨ f / 2 ^ 19 % 16 ≠ 0
  · exact State.avsFrame_badForm h hcrc hform
  · have hcmd4 : f / 2 ^ 28 % 4 < 4 := Nat.mod_lt _ (by decide)
    have hunknown : s.avsKnown m (f / 2 ^ 28 % 4) (f / 2 ^ 23 % 16) (f / 2 ^ 3 % 2 ^ 16) = false := by
      generalize f / 2 ^ 23 % 16 = ty at hlo hhi
      generalize f / 2 ^ 28 % 4 = cmd at hcmd4
      interval_cases ty <;> interval_cases cmd <;> rfl
    rw [State.avsFrame_taken ⟨h, hcrc, by omega, by omega⟩ rfl rfl, hunknown, Bool.not_false, if_pos rfl]

variable (h : AvsGood s m f) (hreg : s.loopState (avsLoop m) = 2)
include h hreg

/-- A read of a regulating loop. -/
theorem State.avsFrame_read {ty v : Nat} (hcmd : f / 2 ^ 28 % 4 = 3) (hty : f / 2 ^ 23 % 16 = ty) (hread : s.avsRead (avsLoop m) ty = some v) :
    s.avsFrame m f = (s.setFld (R.AVS_STAT_LAST_TYPE m) ty).avsReply m 0 v := by
  have hknown : s.avsKnown m 3 ty (f / 2 ^ 3 % 2 ^ 16) = true := by simp [State.avsKnown, hread]
  rw [State.avsFrame_taken h hcmd hty, hknown, if_neg (by decide), if_neg (fun h => h hreg), if_pos rfl, hread,
    Option.getD_some]

/-- A voltage that is held (R402). -/
theorem State.avsFrame_hold (hcmd : f / 2 ^ 28 % 4 = 1) (hty : f / 2 ^ 23 % 16 = 0) : s.avsFrame m f =
    ((s.setReg (R.AVS_HOLD m) (BitVec.ofNat 32 (f / 2 ^ 3 % 2 ^ 16 + 2 ^ 16))).setFld (R.AVS_STAT_LAST_TYPE m) 0).avsReply m 0 0 := by
  rw [State.avsFrame_taken h hcmd hty, show s.avsKnown m 1 0 (f / 2 ^ 3 % 2 ^ 16) = true from rfl, if_neg (by decide),
    if_neg (fun h => h hreg), if_neg (by decide), if_pos rfl]

/-- A write and commit (R402). -/
theorem State.avsFrame_write {ty : Nat} {t : State} (hcmd : f / 2 ^ 28 % 4 = 0) (hty : f / 2 ^ 23 % 16 = ty)
    (hwrite : s.avsWrite m ty (f / 2 ^ 3 % 2 ^ 16) = some t) :
    s.avsFrame m f = (t.setFld (R.AVS_STAT_LAST_TYPE m) ty).avsReply m 0 0 := by
  have hknown : s.avsKnown m 0 ty (f / 2 ^ 3 % 2 ^ 16) = true := by
    rw [State.avsKnown, if_neg (by decide), if_pos rfl, hwrite]
    rfl
  rw [State.avsFrame_taken h hcmd hty, hknown, if_neg (by decide), if_neg (fun h => h hreg), if_neg (by decide),
    if_neg (by decide), hwrite, Option.getD_some]

end

/-! ## The commands (Table 11.7) -/

/-- The commands of the interface, with the CMD and the data type of their frames. -/
def avsTable : List ((Fin 2 → BitVec 32 → Instr) × Nat × Nat) :=
  [(.avsWriteCommit, 0, 0), (.avsWriteHold, 1, 0), (.avsVoltageRead, 3, 0), (.avsRateRead, 3, 1),
   (.avsRateWrite, 0, 1), (.avsCurrentRead, 3, 2), (.avsTemperatureRead, 3, 3), (.avsResetVoltage, 0, 4), (.avsStatusRead, 3, 14),
   (.avsVersionRead, 3, 15)]

section
variable (m : Fin 2) (frame : BitVec 32) (s : State)

theorem avsIs_own {cmd ty w : Nat} (hcmd : w / 2 ^ 28 % 4 = cmd) (hty : w / 2 ^ 23 % 16 = ty) : avsIs cmd ty w = true := by
  rw [avsIs, hcmd, hty]
  simp

theorem avsIs_badCrc (cmd ty : Nat) {w : Nat} (h : crc3 w ≠ w % 8) : avsIs cmd ty w = true := by
  rw [avsIs, bne_iff_ne.mpr h, Bool.or_true]

/-- Each takes the frames with its CMD and data type. -/
theorem avsTable_frame : ∀ c ∈ avsTable, frame.toNat / 2 ^ 28 % 4 = c.2.1 → frame.toNat / 2 ^ 23 % 16 = c.2.2 →
    exec (c.1 m frame) s = .next (s.avsFrame m.val frame.toNat) := by
  unfold avsTable
  simp only [List.forall_mem_cons, List.not_mem_nil, false_imp_iff, implies_true, and_true]
  refine ⟨?_, ?_, ?_, ?_, ?_, ?_, ?_, ?_, ?_, ?_⟩ <;> intro hcmd hty
  · exact congrArg Host.Outcome.next (if_pos (avsIs_own hcmd hty))
  · exact congrArg Host.Outcome.next (if_pos hcmd)
  · exact congrArg Host.Outcome.next (if_pos (avsIs_own hcmd hty))
  · exact congrArg Host.Outcome.next (if_pos (avsIs_own hcmd hty))
  · exact congrArg Host.Outcome.next (if_pos (avsIs_own hcmd hty))
  · exact congrArg Host.Outcome.next (if_pos (by rw [avsIs_own hcmd hty]; rfl))
  · exact congrArg Host.Outcome.next (if_pos (by rw [avsIs_own hcmd hty]; rfl))
  · exact congrArg Host.Outcome.next (if_pos (by rw [avsIs_own hcmd hty]; rfl))
  · exact congrArg Host.Outcome.next (if_pos (by rw [avsIs_own hcmd hty]; rfl))
  · exact congrArg Host.Outcome.next (if_pos (.inl hty))

/-- A frame with a bad CRC may come as any of them but the hold, whose frames have CMD 1. -/
theorem avsCommands_badCrc (hcrc : crc3 frame.toNat ≠ frame.toNat % 8) :
    ∀ c ∈ ([.avsWriteCommit, .avsVoltageRead, .avsRateRead, .avsRateWrite, .avsCurrentRead, .avsTemperatureRead,
        .avsResetVoltage, .avsStatusRead, .avsVersionRead] : List (Fin 2 → BitVec 32 → Instr)),
      exec (c m frame) s = .next (s.avsFrame m.val frame.toNat) := by
  have hown (cmd ty : Nat) : avsIs cmd ty frame.toNat = true := avsIs_badCrc cmd ty hcrc
  have hboth (cmd ty cmd' ty' : Nat) : (avsIs cmd ty frame.toNat || avsIs cmd' ty' frame.toNat) = true := by rw [hown, Bool.true_or]
  simp only [List.forall_mem_cons, List.not_mem_nil, false_imp_iff, implies_true, and_true]
  exact ⟨congrArg Host.Outcome.next (if_pos (hown ..)), congrArg Host.Outcome.next (if_pos (hown ..)),
    congrArg Host.Outcome.next (if_pos (hown ..)), congrArg Host.Outcome.next (if_pos (hown ..)),
    congrArg Host.Outcome.next (if_pos (hboth ..)), congrArg Host.Outcome.next (if_pos (hboth ..)),
    congrArg Host.Outcome.next (if_pos (hboth ..)), congrArg Host.Outcome.next (if_pos (hboth ..)),
    congrArg Host.Outcome.next (if_pos (.inr (.inr (.inr hcrc))))⟩

end

/-- Every command of the table is one that is listed. -/
theorem avsTable_known (s : State) (m data : Nat) : ∀ c ∈ avsTable, s.avsKnown m c.2.1 c.2.2 data = true := by
  unfold avsTable
  simp only [List.forall_mem_cons, List.not_mem_nil, false_imp_iff, implies_true, and_true]
  exact ⟨rfl, rfl, rfl, rfl, rfl, rfl, rfl, rfl, rfl, rfl⟩

/-- Settles O38: each command takes its frames, and a frame is answered by the first rule that it meets. -/
theorem avsBusFrames : Obligations.AvsBusFrames := by
  rintro m frame s f x ty data srv rfl rfl rfl rfl rfl hready hen hsof
  have hstart : AvsStart s m.val frame.toNat := ⟨hready, hen, hsof⟩
  refine ⟨fun hcrc c hc => ?_, fun hcrc hcmd => ?_, fun hcrc c hc hcmd hty => ⟨fun hform => ?_, fun hbit hres hidle => ?_⟩,
    fun hcrc hlo hhi => ?_, fun hcrc hbit hres hreg => ?_⟩
  · rw [avsCommands_badCrc m frame s hcrc c hc, State.avsFrame_badCrc hstart hcrc]
  · exact congrArg Host.Outcome.next ((if_pos hcmd).trans (State.avsFrame_badCrc hstart hcrc))
  · rw [avsTable_frame m frame s c hc hcmd hty, State.avsFrame_badForm hstart hcrc hform]
  · rw [avsTable_frame m frame s c hc hcmd hty, hty,
      State.avsFrame_idle ⟨hstart, hcrc, hbit, hres⟩ hcmd hty (avsTable_known s m.val _ c hc) hidle]
  · exact congrArg Host.Outcome.next ((if_pos (.inr (.inl ⟨hlo, hhi⟩))).trans (State.avsFrame_unlisted hstart hcrc hlo hhi))
  · have taken {c : Fin 2 → BitVec 32 → Instr} {cmd ty : Nat} {t : State} (hc : (c, cmd, ty) ∈ avsTable)
        (hcmd : frame.toNat / 2 ^ 28 % 4 = cmd) (hty : frame.toNat / 2 ^ 23 % 16 = ty) (ht : s.avsFrame m.val frame.toNat = t) :
        exec (c m frame) s = .next t := (avsTable_frame m frame s _ hc hcmd hty).trans (congrArg Host.Outcome.next ht)
    have hread {ty v : Nat} (hcmd : frame.toNat / 2 ^ 28 % 4 = 3) (hty : frame.toNat / 2 ^ 23 % 16 = ty)
        (hv : s.avsRead (1 + m.val) ty = some v) := State.avsFrame_read ⟨hstart, hcrc, hbit, hres⟩ hreg hcmd hty hv
    have hwrite {ty : Nat} {t : State} (hcmd : frame.toNat / 2 ^ 28 % 4 = 0) (hty : frame.toNat / 2 ^ 23 % 16 = ty)
        (ht : s.avsWrite m.val ty (frame.toNat / 2 ^ 3 % 2 ^ 16) = some t) :=
      State.avsFrame_write ⟨hstart, hcrc, hbit, hres⟩ hreg hcmd hty ht
    refine ⟨fun hcmd hty => ?_, fun hcmd hty => ?_, fun hcmd hty => ?_, fun r hcmd hty hr => ?_, fun hcmd hty => ?_, fun hcmd hty => ?_,
      fun hcmd hty => ?_, fun hcmd hty => ?_, fun hcmd hty => ?_, fun hcmd hty => ?_⟩
    · rw [hty]; exact taken (by simp [avsTable]) hcmd hty (hwrite hcmd hty rfl)
    · rw [hty]; exact taken (by simp [avsTable]) hcmd hty (State.avsFrame_hold ⟨hstart, hcrc, hbit, hres⟩ hreg hcmd hty)
    · rw [hty]; exact taken (by simp [avsTable]) hcmd hty (hread hcmd hty rfl)
    · rw [hty, hr]; exact taken (by simp [avsTable]) hcmd hty (hread hcmd hty rfl)
    · rw [hty]; exact taken (by simp [avsTable]) hcmd hty (hwrite hcmd hty rfl)
    · rw [hty]; exact taken (by simp [avsTable]) hcmd hty (hread hcmd hty rfl)
    · rw [hty]; exact taken (by simp [avsTable]) hcmd hty (hread hcmd hty rfl)
    · rw [hty]; exact taken (by simp [avsTable]) hcmd hty (hwrite hcmd hty rfl)
    · rw [hty]; exact taken (by simp [avsTable]) hcmd hty (hread hcmd hty rfl)
    · rw [hty]; exact taken (by simp [avsTable]) hcmd hty (hread hcmd hty rfl)

end Sys2Proof.Machine
end

section
/-! Rows (12, R409–R411, R428–R446): enabling, disabling and reset, doorbells, host queues, interrupts and the mailbox. -/

namespace Sys2Proof.Machine

/-! ## ROW_r_CTL (R409–R411, R441) -/

section
variable (r : Fin 8)

theorem regRow_rowCtl : regRow (R.ROW_CTL r.val) = some ⟨0x28000, [(8, 0x1000)], .cwd, .warden, .whole,
    [⟨0, 1, .rw, 0, none, none⟩, ⟨1, 1, .wo, 0, none, some .rowSupv⟩]⟩ := by
  revert r
  decide

theorem regRow_rowCtl_masks : (regRow (R.ROW_CTL r.val)).any (fun w => w.masks (R.ROW_CTL r.val) 1 2 0 0) = true := by
  revert r
  decide

theorem State.rowHook_ctl (u : State) (old wr : Word) : u.rowHook (R.ROW_CTL r.val) old wr =
    (let v :=
      if !bitOf old 0 && u.flag (R.ROW_CTL_EN r.val) then
        if decide (512 ≤ u.fld (R.ROW_SUPV_CODE r.val)) || !u.mapped r.val (u.fld (R.ROW_SUPV_CODE r.val)) then
          (u.setReg (R.ROW_CTL r.val) old).rowCfgErr r.val
        else u.enableRow r.val
      else if bitOf old 0 && !u.flag (R.ROW_CTL_EN r.val) then u.rowReset r.val 3
      else u
     if bitOf wr 1 then v.rowReset r.val 0 else v) := by
  have hrow : (R.ROW_CTL r.val - 0x28000) / 0x1000 = r.val := by simp only [R.ROW_CTL]; omega
  have hoff : R.ROW_CTL r.val % 0x1000 = 0 := by simp only [R.ROW_CTL]; omega
  unfold State.rowHook
  dsimp only
  rw [hrow, if_pos hoff]

theorem State.hook_rowCtl (u : State) (old wr : Word) :
    u.hook (R.ROW_CTL r.val) old wr false = u.rowHook (R.ROW_CTL r.val) old wr := by
  rw [State.hook_row _ (by simp [R.ROW_CTL]) (by simp only [R.ROW_CTL]; omega), State.enRise_masks (regRow_rowCtl_masks r)]

variable {s : State} {req : Req} {r}

/-- A write of EN beside nothing else. -/
theorem State.fldDo_rowEn (hc : CanWrite s req (R.ROW_CTL r.val)) (v : Nat) : s.fldDo req (R.ROW_CTL_EN r.val) v =
    (let u := s.setFld (R.ROW_CTL_EN r.val) v
     if !s.flag (R.ROW_CTL_EN r.val) && u.flag (R.ROW_CTL_EN r.val) then
       if decide (512 ≤ u.fld (R.ROW_SUPV_CODE r.val)) || !u.mapped r.val (u.fld (R.ROW_SUPV_CODE r.val)) then
         (u.setReg (R.ROW_CTL r.val) (s.reg (R.ROW_CTL r.val))).rowCfgErr r.val
       else u.enableRow r.val
     else if s.flag (R.ROW_CTL_EN r.val) && !u.flag (R.ROW_CTL_EN r.val) then u.rowReset r.val 3
     else u) := by
  have hbit (w : Word) : bitOf (w &&& 1) 1 = false := by simp [bitOf_eq]
  rw [State.fldDo_rw (f := R.ROW_CTL_EN r.val) hc (regRow_rowCtl_masks r) (by rfl) (by decide) (by decide) (by decide)]
  refine (State.hook_rowCtl r ..).trans ((State.rowHook_ctl r ..).trans ?_)
  dsimp only
  rw [hbit, if_neg Bool.false_ne_true, show s.flag (R.ROW_CTL_EN r.val) = bitOf (s.reg (R.ROW_CTL r.val)) 0 from s.flag_eq_bitOf ..]
  rfl

section
variable {t : State} {k : Nat} (hc : CanWrite s req (R.ROW_CTL r.val)) (hk : k = s.fld (R.ROW_SUPV_CODE r.val))
  (hoff : s.flag (R.ROW_CTL_EN r.val) = false) (ht : t = s.setFld (R.ROW_CTL_EN r.val) 1)
include hc hk hoff ht

/-- ROW_ENABLE: the supervisor must be a thread that the row maps (R409). -/
theorem execRowEnable_next : exec (.rowEnable req r) s = .next (
    if 512 ≤ k ∨ s.mapped r.val k = false then (t.setReg (R.ROW_CTL r.val) (s.reg (R.ROW_CTL r.val))).rowCfgErr r.val
    else t.enableRow r.val) := by
  have hon : t.flag (R.ROW_CTL_EN r.val) = true := by
    rw [ht, State.flag, State.fld_setFld_same _ _ _ rfl]
    rfl
  have hcode : t.fld (R.ROW_SUPV_CODE r.val) = k := by
    rw [ht, hk, State.fld_setFld_off _ _ _ _ (by simp only [R.ROW_SUPV_CODE, R.ROW_SUPV, R.ROW_CTL_EN, R.ROW_CTL]; omega)]
  have hmap : t.mapped r.val k = s.mapped r.val k := by
    have hlt : k < 2 ^ 10 := by rw [hk]; exact Nat.mod_lt _ (Nat.two_pow_pos _)
    rw [State.mapped, State.mapped, ht, State.reg_setFld_other _ _ _ _ (by simp only [R.ROW_TMAP, R.ROW_CTL_EN, R.ROW_CTL]; omega)]
  refine congrArg Host.Outcome.next ((State.fldDo_rowEn hc 1).trans ?_)
  dsimp only
  rw [← ht, hoff, hon, if_pos (by decide), hcode, hmap]
  simp only [Bool.or_eq_true, decide_eq_true_eq, Bool.not_eq_true']

end

/-- ROW_DISABLE resets the row (R411). -/
theorem execRowDisable_next {t : State} (hc : CanWrite s req (R.ROW_CTL r.val)) (hon : s.flag (R.ROW_CTL_EN r.val) = true)
    (ht : t = s.setFld (R.ROW_CTL_EN r.val) 0) : exec (.rowDisable req r) s = .next (t.rowReset r.val 3) := by
  have hoff : t.flag (R.ROW_CTL_EN r.val) = false := by
    rw [ht, State.flag, State.fld_setFld_same _ _ _ rfl]
    rfl
  refine congrArg Host.Outcome.next ((State.fldDo_rowEn hc 0).trans ?_)
  dsimp only
  rw [← ht, hon, hoff, if_neg (by decide), if_pos (by decide)]

/-- RST written by a requester that supervises the row: the field acts alone. -/
theorem State.fldDo_rowRst (hl : s.reqLive req = true) (hreach : reaches req (R.ROW_CTL r.val) = true)
    (hg : s.granted (domainOf (R.ROW_CTL r.val)) = true) (hsup : (s.level req).supervises r.val = true) :
    ∃ wr, bitOf wr 1 = true ∧ s.fldDo req (R.ROW_CTL_RST r.val) 1 =
      (s.setReg (R.ROW_CTL r.val) (s.reg (R.ROW_CTL r.val))).hook (R.ROW_CTL r.val) (s.reg (R.ROW_CTL r.val)) wr false := by
  have hrst (w : Word) : bitOf ((R.ROW_CTL_RST r.val).put 1 w) 1 = true := by
    rw [bitOf_eq, Fld.getLsbD_put _ rfl, if_pos ⟨by simp [R.ROW_CTL_RST], by simp [R.ROW_CTL_RST]⟩]
    simp [R.ROW_CTL_RST]
  have howner : s.mayWrite req (R.ROW_CTL r.val) .rowSupv = true := by
    rw [State.mayWrite, show (R.ROW_CTL r.val - 0x28000) / 0x1000 = r.val by simp only [R.ROW_CTL]; omega]
    exact hsup
  have hplace : ¬ (0x24000 ≤ R.ROW_CTL r.val ∧ R.ROW_CTL r.val < 0x24240 ∧ R.ROW_CTL r.val % 0x40 = 4) := by
    simp only [R.ROW_CTL]; omega
  cases hward : s.mayWrite req (R.ROW_CTL r.val) .warden with
  | true =>
    have hc : CanWrite s req (R.ROW_CTL r.val) := by
      refine ⟨hl, hreach, hg, fun w hw f hf => ?_⟩
      rw [regRow_rowCtl] at hw
      obtain rfl := Option.some.inj hw
      simp only [List.mem_cons, List.not_mem_nil, or_false] at hf
      rcases hf with rfl | rfl
      · exact hward
      · exact howner
    exact ⟨_, hrst _, State.fldDo_act (f := R.ROW_CTL_RST r.val) hc (regRow_rowCtl_masks r) (by rfl) (by decide) (by decide) (by decide)
      (by simp) 1⟩
  | false =>
    have hmasks := regRow_rowCtl_masks r
    rw [regRow_rowCtl] at hmasks
    refine ⟨_, hrst _, State.fldDo_alone (f := R.ROW_CTL_RST r.val) (m := 1) (a := 2) (ok := 2) hl hreach hg (regRow_rowCtl r)
      hmasks ?_ (by rfl) (by decide) (by decide) (by decide) hplace 1⟩
    have hw : s.mayWrite req (R.ROW_CTL_RST r.val).off .warden = false := hward
    have ho : s.mayWrite req (R.ROW_CTL_RST r.val).off .rowSupv = true := howner
    simp [RegRow.bits, FieldRow.privIn, FieldRow.mask, hw, ho]

/-- ROW_RESET by a write (R441). -/
theorem execRowReset_next (hl : s.reqLive req = true) (hreach : reaches req (R.ROW_CTL r.val) = true)
    (hg : s.granted (domainOf (R.ROW_CTL r.val)) = true) (hsup : (s.level req).supervises r.val = true) :
    exec (.rowReset req r) s = .next ((s.setReg (R.ROW_CTL r.val) (s.reg (R.ROW_CTL r.val))).rowReset r.val 0) := by
  obtain ⟨wr, hwr, hwrite⟩ := State.fldDo_rowRst hl hreach hg hsup
  have hen : (s.setReg (R.ROW_CTL r.val) (s.reg (R.ROW_CTL r.val))).flag (R.ROW_CTL_EN r.val) = bitOf (s.reg (R.ROW_CTL r.val)) 0 := by
    rw [show R.ROW_CTL_EN r.val = ⟨R.ROW_CTL r.val, 0, 1⟩ from rfl, State.flag_eq_bitOf, State.reg_setReg_same]
  refine congrArg Host.Outcome.next (hwrite.trans ((State.hook_rowCtl r ..).trans ((State.rowHook_ctl r ..).trans ?_)))
  dsimp only
  rw [hen, Bool.not_and_self, if_neg Bool.false_ne_true, Bool.and_not_self, if_neg Bool.false_ne_true, if_pos hwr]

end

/-! ## The end of a row reset (R442, R443) -/

/-- Writing one value into several registers. -/
theorem State.reg_foldl_setReg (f : Nat → Nat) (v : Word) (l : List Nat) (s : State) (q : Nat) :
    (l.foldl (fun s k => s.setReg (f k) v) s).reg q = if q ∈ l.map f then v else s.reg q := by
  induction l generalizing s with
  | nil => rfl
  | cons k l ih =>
    rw [List.foldl_cons, ih, State.reg_setReg]
    by_cases hk : q = f k
    · simp [hk]
    · simp [hk]

/-- The state that the end of a row reset leaves, before the row's threads go on or part. -/
def State.rowResetEnded (s : State) (r : Nat) : State :=
  let s := (List.range 8).foldl (fun s q => s.setReg (R.ROW_HQ_IDX r q) 0) s
  let s := s.updRow r (fun x => { x with msixPend := 0, mbCtl := x.mbCtl &&& ~~~ 0x1F })
  let s := (s.setFld (R.ROW_WDT_CTL_EN r) 0).setFld (R.ROW_WDT_STAT_COUNT r) 0
  ((s.rowWdtRestart r).setFld (R.ROW_STATUS_RST_BUSY r) 0).setFld (R.ROW_STATUS_RST_DONE r) 1

@[simp] theorem State.rowWdtRestart_reg (s : State) (r q : Nat) : (s.rowWdtRestart r).reg q = s.reg q := rfl
@[simp] theorem State.rowWdtRestart_fld (s : State) (r : Nat) (f : Fld) : (s.rowWdtRestart r).fld f = s.fld f := rfl
@[simp] theorem State.rowWdtRestart_row (s : State) (r i : Nat) : (s.rowWdtRestart r).row i = s.row i := rfl
@[simp] theorem State.rowWdtRestart_thr (s : State) (r k : Nat) : (s.rowWdtRestart r).thr k = s.thr k := rfl

theorem execRowResetDone_busy {r : Fin 8} {s : State} (hbusy : s.flag (R.ROW_STATUS_RST_BUSY r.val) = true) :
    exec (.rowResetDone r) s = .next (if (s.rowResetEnded r.val).flag (R.ROW_CTL_EN r.val) then (s.rowResetEnded r.val).startSupervisor r.val
      else (s.rowResetEnded r.val).disbandRow r.val) :=
  congrArg Host.Outcome.next (if_neg (by simp [hbusy]))

section
variable (s : State) (r : Fin 8)

/-- Its registers: the queues' indices are 0, the watchdog is off, the reset is done; the rest is as before. -/
theorem State.reg_rowResetEnded (q : Nat) (hw : q ≠ R.ROW_WDT_CTL r.val) (hc : q ≠ R.ROW_WDT_STAT r.val) (hs : q ≠ R.ROW_STATUS r.val) :
    (s.rowResetEnded r.val).reg q = if q ∈ (List.range 8).map (R.ROW_HQ_IDX r.val) then 0 else s.reg q := by
  unfold State.rowResetEnded
  dsimp only
  rw [State.reg_setFld_other _ _ _ _ hs, State.reg_setFld_other _ _ _ _ hs, State.rowWdtRestart_reg, State.reg_setFld_other _ _ _ _ hc,
    State.reg_setFld_other _ _ _ _ hw, State.updRow_reg, State.reg_foldl_setReg]

theorem State.rowResetEnded_flags : (s.rowResetEnded r.val).flag (R.ROW_STATUS_RST_BUSY r.val) = false ∧
    (s.rowResetEnded r.val).flag (R.ROW_STATUS_RST_DONE r.val) = true ∧ (s.rowResetEnded r.val).flag (R.ROW_WDT_CTL_EN r.val) = false := by
  unfold State.rowResetEnded State.flag
  dsimp only
  refine ⟨?_, ?_, ?_⟩
  · rw [State.fld_setFld_apart _ _ _ _ (by rfl) (by simp [Fld.apart, R.ROW_STATUS_RST_BUSY, R.ROW_STATUS_RST_DONE]),
      State.fld_setFld_same _ _ _ (by rfl)]
    rfl
  · rw [State.fld_setFld_same _ _ _ (by rfl)]
    rfl
  · rw [State.fld_setFld_off _ _ _ _ (by simp only [R.ROW_WDT_CTL_EN, R.ROW_WDT_CTL, R.ROW_STATUS_RST_DONE, R.ROW_STATUS]; omega),
      State.fld_setFld_off _ _ _ _ (by simp only [R.ROW_WDT_CTL_EN, R.ROW_WDT_CTL, R.ROW_STATUS_RST_BUSY, R.ROW_STATUS]; omega),
      State.rowWdtRestart_fld, State.fld_setFld_off _ _ _ _ (by simp only [R.ROW_WDT_CTL_EN, R.ROW_WDT_CTL, R.ROW_WDT_STAT_COUNT, R.ROW_WDT_STAT]; omega),
      State.fld_setFld_same _ _ _ (by rfl)]
    rfl

/-- No vector of the row is pending, and no thread has changed. -/
theorem State.rowResetEnded_row : ((s.rowResetEnded r.val).row r.val).msixPend = 0 := by
  unfold State.rowResetEnded
  dsimp only
  rw [State.setFld_row, State.setFld_row, State.rowWdtRestart_row, State.setFld_row, State.setFld_row, State.row, State.updRow_rows, tabGet_set_same]

theorem State.rowResetEnded_thr (k : Nat) : (s.rowResetEnded r.val).thr k = s.thr k := by
  have hfold (l : List Nat) (t : State) : (l.foldl (fun s q => s.setReg (R.ROW_HQ_IDX r.val q) 0) t).thr k = t.thr k := by
    induction l generalizing t with
    | nil => rfl
    | cons q l ih => rw [List.foldl_cons, ih, State.setReg_thr]
  unfold State.rowResetEnded
  dsimp only
  rw [State.setFld_thr, State.setFld_thr, State.rowWdtRestart_thr, State.setFld_thr, State.setFld_thr, State.updRow_thr, hfold]

end

/-! ## Host queues (R431–R437) -/

theorem execDoorbell_live {r q : Fin 8} {v : Word} {s : State} {tail : Nat} (h15 : s.granted 15 = true) (h12 : s.granted 12 = true)
    (hidle : s.flag (R.ROW_STATUS_RST_BUSY r.val) = false) (htail : tail = v.toNat % 2 ^ 16) : exec (.doorbell r q v) s = .next (
      if s.hqSize r.val q.val < (tail + 2 ^ 16 - s.fld (R.ROW_HQ_IDX_HEAD r.val q.val)) % 2 ^ 16 ∨
          s.flag (R.ROW_HQ_CFG_EN r.val q.val) = false then
        (s.setFld (R.ROW_HQ_STAT_LAST_BAD r.val q.val) tail).fault (16 + r.val) 0
      else s.setFld (R.ROW_HQ_IDX_TAIL r.val q.val) tail) := by
  subst htail
  exact congrArg Host.Outcome.next ((if_neg (by simp [h15])).trans ((if_neg (by simp [h12])).trans (if_neg (by simp [hidle]))))

section
variable {r q : Fin 8} {addr : BitVec 64} {len tag : BitVec 16} {w3 : Word} {s u : State}

/-- H2D_DESCRIPTOR of a posted descriptor whose read is good. -/
theorem execH2dDescriptor_read (data : Bytes) (hp : s.hqPosted r.val q.val false = true)
    (hu : u = s.send (.hostRead r.val (BitVec.ofNat 64 (s.descAt r.val q.val)) 16)) :
    exec (.h2dDescriptor r q addr (tag ++ len) w3 data false) s = .next (
      if len.toNat < 1 ∨ 16384 < len.toNat then u.completeDesc r.val q.val len.toNat tag.toNat 3
      else
        let i := (u.send (.hostRead r.val addr len.toNat)).ingress (srcNum (.host r q)) data false s.dtbNow
        i.2.completeDesc r.val q.val len.toNat tag.toNat (if i.1 then 2 else 0)) := by
  subst hu
  refine congrArg Host.Outcome.next ((if_neg (by simp [hp])).trans ((if_neg Bool.false_ne_true).trans ?_))
  dsimp only
  rw [descLen_words, descTag_words, descAddr_words, State.hostRead, State.hostRead, BitVec.ofNat_toNat, BitVec.setWidth_eq]
  rfl

/-- One whose read failed. -/
theorem execH2dDescriptor_failed (data : Bytes) (hp : s.hqPosted r.val q.val false = true)
    (hu : u = s.send (.hostRead r.val (BitVec.ofNat 64 (s.descAt r.val q.val)) 16)) :
    exec (.h2dDescriptor r q addr (tag ++ len) w3 data true) s =
      .next ((u.completeDesc r.val q.val len.toNat tag.toNat 4).fault (16 + r.val) 1) := by
  subst hu
  refine congrArg Host.Outcome.next ((if_neg (by simp [hp])).trans ((if_pos rfl).trans ?_))
  dsimp only
  rw [descLen_words, descTag_words, State.hostRead]

variable {k : Nat} {rest : List Nat} (hp : s.hqPosted r.val q.val true = true) (hw : s.hqWaiting r.val q.val = k :: rest)
  (hu : u = s.send (.hostRead r.val (BitVec.ofNat 64 (s.descAt r.val q.val)) 16))
include hp hw hu

/-- D2H_DELIVERY into a descriptor whose read failed. -/
theorem execD2hDelivery_failed : exec (.d2hDelivery r q addr (tag ++ len) w3 true) s =
    .next ((u.completeDesc r.val q.val 0 tag.toNat 4).fault (16 + r.val) 1) := by
  subst hu
  show execD2hDelivery r q addr (tag ++ len) w3 true s = _
  unfold execD2hDelivery
  dsimp only
  rw [hp, hw, descTag_words]
  rfl

/-- D2H_DELIVERY of the oldest frame that waits (R435). -/
theorem execD2hDelivery_frame {t : State} {n : Nat} {f : Frame} {bs : Bytes} (hf : s.frameOf k = some f) (hn : n = min f.len len.toNat)
    (hread : u.frameRead f (f.cells.length + 1) 0 n = (some bs, t)) : exec (.d2hDelivery r q addr (tag ++ len) w3 false) s =
      .next ((((t.send (.hostWrite r.val addr bs)).setHqWaiting r.val q.val rest).freeSlot k).completeDesc r.val q.val n tag.toNat
        (if n < f.len then 1 else 0)) := by
  have hf' : u.frameOf k = some f := by rw [hu]; exact hf
  have hu' : s.hostRead r.val (s.descAt r.val q.val) 16 = u := hu.symm
  show execD2hDelivery r q addr (tag ++ len) w3 false s = _
  unfold execD2hDelivery
  dsimp only
  rw [hp, hw]
  simp only [hu', hf', descLen_words, descTag_words, descAddr_words, ← hn, hread, Bool.false_eq_true, if_false, Option.isSome_some, if_true,
    Option.getD_some]

end

/-! ## Interrupts and the mailbox (R428–R430, R438–R440) -/

/-- The word of a MAILBOX_GO: GO, the vector and the length. -/
theorem mailboxGo_word (len : BitVec 11) (vec : BitVec 5) :
    BitVec.ofNat 32 (1 + vec.toNat * 2 ^ 16 + len.toNat * 2 ^ 21) = len ++ vec ++ (1 : BitVec 16) := by
  apply BitVec.eq_of_toNat_eq
  rw [BitVec.toNat_ofNat, toNat_append_add, toNat_append_add]
  have hone : (1 : BitVec 16).toNat = 1 := rfl
  omega

section
variable {r : Fin 8} {len : BitVec 11} {vec : BitVec 5} {s u : State} (h15 : s.granted 15 = true)
  (hu : u = s.updRow r.val (fun b => { b with mbCtl := (b.mbCtl &&& 0xFFFF) ||| (len ++ vec ++ (0 : BitVec 16)) }))
  (hidle : bitOf (s.row r.val).mbCtl 1 = false)
include h15 hu hidle

/-- GO on an idle mailbox clears no status bit and starts the exchange, unless the length is out of range. -/
theorem execMailboxGo_idle : exec (.mailboxGo r len vec) s = .next (
    if len.toNat = 0 ∨ 1024 < len.toNat then u.updRow r.val (fun b => { b with mbCtl := b.mbCtl ||| 0xC })
    else u.mailbox r len.toNat) := by
  have hclear : (len ++ vec ++ (1 : BitVec 16) : Word) &&& 0x1C = 0 := by
    rw [show (0x1C : Word) = (0 : BitVec 11) ++ (0 : BitVec 5) ++ (0x1C : BitVec 16) by decide, BitVec.and_append, BitVec.and_append,
      show len &&& 0 = 0 from BitVec.and_zero, show vec &&& 0 = 0 from BitVec.and_zero]
    decide
  have hkeep : (len ++ vec ++ (1 : BitVec 16) : Word) &&& 0xFFFF0000 = len ++ vec ++ (0 : BitVec 16) := by
    rw [show (0xFFFF0000 : Word) = BitVec.allOnes 11 ++ BitVec.allOnes 5 ++ (0 : BitVec 16) by decide, BitVec.and_append, BitVec.and_append,
      BitVec.and_allOnes, BitVec.and_allOnes, show (1 : BitVec 16) &&& 0 = 0 by decide]
  have hgo : bitOf (len ++ vec ++ (1 : BitVec 16) : Word) 0 = true := by
    rw [bitOf_eq, BitVec.getLsbD_append]
    rfl
  have hlen : (len ++ vec ++ (1 : BitVec 16) : Word).toNat / 2 ^ 21 = len.toNat := by
    rw [toNat_append_add, toNat_append_add]
    have hone : (1 : BitVec 16).toNat = 1 := rfl
    omega
  have hnone (w : Word) : w &&& ~~~ 0 &&& 0xFFFF = w &&& 0xFFFF := by
    rw [show (~~~ 0 : Word) = BitVec.allOnes 32 by decide, BitVec.and_allOnes]
  subst hu
  refine congrArg Host.Outcome.next ((if_pos h15).trans ?_)
  rw [mailboxGo_word]
  unfold State.mbxCtl
  dsimp only
  rw [hclear, hkeep, hgo, hlen, hidle, Bool.not_true, if_neg Bool.false_ne_true, if_neg Bool.false_ne_true]
  simp only [hnone]

end

/-- Settles O39: enabling and resets, the end of a reset, doorbells, both directions of a host queue, vectors and the mailbox. -/
theorem rowCommands : Obligations.RowCommands := by
  refine ⟨fun req r s t k hc hk => ⟨fun hoff ht => ⟨fun hlt hmap => ?_, fun hbad => ?_⟩, fun hon ht => execRowDisable_next hc hon ht⟩,
    fun req r s hl hreach hg hsup => execRowReset_next hl hreach hg hsup, fun r s hbusy => ?_, fun r q v s tail h15 h12 hidle htail => ?_,
    ?_, ?_, ?_, ?_⟩
  · rw [execRowEnable_next hc hk hoff ht, if_neg (by simp [hlt, hmap])]
  · rw [execRowEnable_next hc hk hoff ht, if_pos hbad]
  · obtain ⟨hb, hd, hw⟩ := s.rowResetEnded_flags r
    refine ⟨_, execRowResetDone_busy hbusy, hb, hd, hw, fun q => ?_, s.rowResetEnded_row r, s.rowResetEnded_thr r, ?_⟩
    · rw [State.reg_rowResetEnded _ _ _ (by simp only [R.ROW_HQ_IDX, R.ROW_WDT_CTL]; omega)
        (by simp only [R.ROW_HQ_IDX, R.ROW_WDT_STAT]; omega) (by simp only [R.ROW_HQ_IDX, R.ROW_STATUS]; omega),
        if_pos (List.mem_map.mpr ⟨q.val, List.mem_range.mpr q.isLt, rfl⟩)]
    · have hnot : R.ROW_CTL r.val ∉ (List.range 8).map (R.ROW_HQ_IDX r.val) := by
        rintro hmem
        obtain ⟨q, -, hq⟩ := List.mem_map.mp hmem
        simp only [R.ROW_HQ_IDX, R.ROW_CTL] at hq
        omega
      have hreg := s.reg_rowResetEnded r (R.ROW_CTL r.val) (by simp only [R.ROW_CTL, R.ROW_WDT_CTL]; omega)
        (by simp only [R.ROW_CTL, R.ROW_WDT_STAT]; omega) (by simp only [R.ROW_CTL, R.ROW_STATUS]; omega)
      rw [if_neg hnot] at hreg
      exact congrArg (fun w => (R.ROW_CTL_EN r.val).get w != 0) hreg
  · refine ⟨fun hen hfit => ?_, fun hbad => ?_⟩
    · rw [execDoorbell_live h15 h12 hidle htail, if_neg (by rintro (h | h) <;> simp_all; omega)]
    · rw [execDoorbell_live h15 h12 hidle htail, if_pos hbad.symm]
  · intro r q addr len tag w3 data s u hp hu
    refine ⟨execH2dDescriptor_failed data hp hu, fun hlen => ?_, fun full t h1 hmax hin => ?_⟩
    · rw [execH2dDescriptor_read data hp hu, if_pos (by omega)]
    · rw [execH2dDescriptor_read data hp hu, if_neg (by omega), hin]
  · intro r q addr size tag w3 s u t k n rest f bs hp hw hu
    exact ⟨execD2hDelivery_failed hp hw hu, fun hf hn hread => execD2hDelivery_frame hp hw hu hf hn hread⟩
  · rintro r v s x e rfl rfl h15 hpend hmask hfn hbme hd0
    exact congrArg Host.Outcome.next (if_pos (by simp [h15, bitOf_eq, hpend, hmask, hfn, hbme, hd0]))
  · intro r len vec s u h15 hu hidle
    refine ⟨fun h1 hmax => ?_, fun hbad => ?_⟩
    · rw [execMailboxGo_idle h15 hu hidle, if_neg (by omega)]
    · rw [execMailboxGo_idle h15 hu hidle, if_pos hbad]

end Sys2Proof.Machine
end

section
/-! The PCIe endpoint (12, R441, R447, R448, R451, R452, R673): its link, its resets and its configuration requests. -/

namespace Sys2Proof.Machine

section
variable {s : State} (h15 : s.granted 15 = true) (hperst : s.perst = false)
include h15 hperst

/-- FUNCTION_LEVEL_RESET: the function's own state, then the row's, as far as PD12 has power (R441, R452). -/
theorem execFunctionLevelReset_next (r : Fin 8) : exec (.functionLevelReset r) s =
    .next (if s.granted 12 then (s.fnReset r.val).rowReset r.val 1 else (s.fnReset r.val).rowResetOff r.val) :=
  congrArg Host.Outcome.next (if_neg (by simp [h15, hperst]))

variable {pf : Fin 8}

/-- A request that comes before the endpoint is ready is to be retried (R447). -/
theorem execConfigRequest_early (op : CfgOp) (hready : s.ready 57 = false) :
    exec (.configRequest pf op) s = .next (s.send (.configRetry pf.val)) :=
  congrArg Host.Outcome.next ((if_neg (by simp [h15, hperst])).trans (if_pos (by rw [hready]; rfl)))

/-- A request of an endpoint that is ready. -/
theorem execConfigRequest_ready (op : CfgOp) (hready : s.ready 57 = true) : exec (.configRequest pf op) s = .next (
    let a : Word × State := match op with
      | .read off => s.cfgRead pf.val off.toNat
      | .writeBar i v =>
        (0, s.updRow pf.val (fun x => { x with bars := tabSet 0 i.val (v &&& barMask pf.val i.val) x.bars }))
      | .setBme b => (0, s.updRow pf.val (fun x => { x with bme := b }))
      | .setFnMask b => (0, s.updRow pf.val (fun x => { x with fnMask := b }))
      | .setD0 b => (0, s.updRow pf.val (fun x => { x with d0 := b }))
    a.2.send (.configDone pf.val a.1)) :=
  congrArg Host.Outcome.next ((if_neg (by simp [h15, hperst])).trans (if_neg (by simp [hready])))

end

/-- BAR4 and BAR5 are those of PF 0 alone (R448). -/
theorem State.cfgRead_absentBar (s : State) {r off : Nat} (hr : 0 < r) (hoff : off / 4 = 8 ∨ off / 4 = 9) : s.cfgRead r off = (0, s) := by
  have hbar : s.barWord r (off / 4 - 4) = 0 := if_pos ⟨by omega, by omega⟩
  unfold State.cfgRead
  dsimp only
  rw [if_neg (by omega), if_neg (by omega), if_neg (by omega), if_pos (by omega), hbar]

/-- Settles O40: the link's events, the reset of a function, and each configuration request. -/
theorem pcieCommands : Obligations.PcieCommands := by
  refine ⟨fun s h15 hup => ?_, fun s hperst => ?_, fun s => rfl, fun s speed width h15 hperst hsrd hsrh hvio => ?_,
    fun r s h15 hperst => execFunctionLevelReset_next h15 hperst r, fun pf op s h15 hperst => ⟨execConfigRequest_early h15 hperst op, ?_⟩⟩
  · exact congrArg Host.Outcome.next (if_pos (by simp [h15, hup]))
  · exact congrArg Host.Outcome.next (if_neg (by simp [hperst]))
  · exact congrArg Host.Outcome.next (if_pos (by simp [h15, hperst, hsrd, hsrh, hvio]))
  · intro hready
    exact ⟨fun off => execConfigRequest_ready h15 hperst (.read off) hready, fun hpf off hoff => s.cfgRead_absentBar hpf hoff,
      fun i v => execConfigRequest_ready h15 hperst (.writeBar i v) hready, fun b => execConfigRequest_ready h15 hperst (.setBme b) hready,
      fun b => execConfigRequest_ready h15 hperst (.setFnMask b) hready, fun b => execConfigRequest_ready h15 hperst (.setD0 b) hready⟩

end Sys2Proof.Machine
end

section
/-! The packet path (13, 14; R453–R462, R470–R475, R479, R484–R494): frames arrive, wait, are dispatched, released and sent. -/

namespace Sys2Proof.Machine

/-! ## Arrival (R453, R484–R487, R515) -/

/-- A frame at a port that is no ring frame of a ring port. -/
theorem execFrameReceive_port {p : Fin 36} {data : Bytes} {fcsOk : Bool} {s t : State} (hg : s.granted (portDomain p.val) = true)
    (ht : t = s.activity p.val)
    (hplain : fcsOk = false ∨ isRingFrame data = false ∨ (p.val ≠ s.ringSide true ∧ p.val ≠ s.ringSide false)) :
    exec (.frameReceive (.port p) data fcsOk) s = .next (
      if t.portUp p.val = false then t.portCount p.val 2
      else if data.length + 4 < 64 then t.portCount p.val 3
      else ((t.portCount p.val 0).ingress p.val data (!fcsOk) (t.dtbPlus (t.sfld (R.PORT_TSCORR_RX p.val)))).2) := by
  subst ht
  have hring : ¬ (fcsOk && isRingFrame data && (p.val == s.ringSide true || p.val == s.ringSide false)) = true := by
    rcases hplain with h | h | ⟨he, hw⟩
    · simp [h]
    · simp [h]
    · simp [he, hw]
  refine congrArg Host.Outcome.next ((if_neg hring).trans ((if_neg (by simp [hg])).trans ?_))
  dsimp only
  simp only [Bool.not_eq_true']

theorem execFrameReceive_ring {p : Fin 36} {data : Bytes} {s : State} (hdata : isRingFrame data = true)
    (hside : p.val = s.ringSide true ∨ p.val = s.ringSide false) :
    exec (.frameReceive (.port p) data true) s = .next (s.ringFrame (p.val == s.ringSide true) data) :=
  congrArg Host.Outcome.next (if_pos (by simpa [hdata] using hside))

/-- PAUSE_RECEIVE: a pause is a frame of its port (R487). -/
theorem execPauseReceive_next {e : Fin 16} (quanta : BitVec 16) {s t : State} (hg : s.granted 14 = true) (ht : t = s.activity (8 + e.val)) :
    exec (.pauseReceive e quanta) s = .next (if t.portUp (8 + e.val) = false then t.portCount (8 + e.val) 2
      else (t.portCount (8 + e.val) 0).updPort (8 + e.val) (fun x => { x with pause := quanta != 0 })) := by
  subst ht
  refine congrArg Host.Outcome.next ((if_neg (by simp [hg])).trans ?_)
  dsimp only
  simp only [Bool.not_eq_true']

/-! ## Bough requests (R479) -/

theorem regRow_breq : (regRow R.ESP_BREQ).any (fun r => r.masks R.ESP_BREQ 0 0xFF 0xFF 0) = true := by decide

/-- A write of ESP_BREQ clears the bits written 1 and ends their requests. -/
theorem State.regDo_breq {s : State} {req : Req} (hc : CanWrite s req R.ESP_BREQ) (mask : Word) : s.regDo req R.ESP_BREQ mask =
    (s.setReg R.ESP_BREQ (s.reg R.ESP_BREQ &&& ~~~ (mask &&& 0xFF))).endBreq (s.reg R.ESP_BREQ &&& (mask &&& 0xFF)).toNat := by
  have hnew (old : Word) : ((old &&& ~~~ 0 ||| mask &&& 0) &&& ~~~ (mask &&& (0 ||| 0xFF) &&& 0xFF)) ||| (mask &&& (0 ||| 0xFF) &&& 0) =
      old &&& ~~~ (mask &&& 0xFF) := by
    apply BitVec.eq_of_getLsbD_eq
    intro i hi
    simp [hi]
  rw [State.regDo_masks hc regRow_breq, State.hook_esp _ (by decide) (by decide), State.enRise_masks regRow_breq, hnew]
  rw [show mask &&& (0 ||| 0xFF) = mask &&& 0xFF by simp]
  exact if_pos rfl

/-! ## Dispatch and release (R462, R470–R475) -/

/-- A waiting frame goes to a pending GET. -/
theorem State.dispatchRow_delivers {s : State} {r k : Nat} {rest : List Nat} {g : HelperReq} {f : Frame} (hsafe : s.safe = false)
    (hready : s.ready 28 = true) (hq : (s.row r).dispQ = k :: rest) (hget : s.pendingGet r = some g) (hf : s.frameOf k = some f) :
    s.dispatchRow r = s.deliverGet g k f := by
  unfold State.dispatchRow
  rw [if_neg (by simp [hsafe, hready]), hq, hget]
  dsimp only
  rw [hf]

section
variable {d : Fin 64} {s t : State} {x : Ticket} {rest : List Ticket} (hd : s.dom d.val = x :: rest)
include hd

/-- The head ticket of a domain at a release. -/
theorem execTicketRelease_head (hsafe : s.safe = false)
    (ht : t = (s.setDom d.val rest).setFld (R.ESP_DOM_IDX_HEAD d.val) (s.fld (R.ESP_DOM_IDX_HEAD d.val) + 1)) :
    exec (.ticketRelease d) s = .next (match x.state with
      | .ready => (t.count64 (R.ESP_DOM_REL_LO d.val) (R.ESP_DOM_REL_HI d.val)).releaseFrame x.slot
      | .void => t
      | _ => s) := by
  subst ht
  show execTicketRelease d s = _
  unfold execTicketRelease
  rw [if_neg (by rw [hsafe]; decide), hd] <;> cases hst : x.state <;> dsimp only <;> rw [hst]

theorem execOrderTimeout_waits (hst : x.state = .issued ∨ x.state = .held) : exec (.orderTimeout d) s =
    .next (((s.satAdd (R.ESP_DOM_VOID_COUNT d.val) 1 65535).fault 15 0).voidTicket d.val x.slot 3) := by
  show execOrderTimeout d s = _
  unfold execOrderTimeout
  rw [hd]
  exact congrArg Host.Outcome.next (if_pos hst)

end

/-! ## Transmission (R473, R484, R488, R490) -/

/-- FRAME_TRANSMIT: the port takes the frame of the class that may start. -/
theorem execFrameTransmit_starts {p : Fin 36} {s t u : State} {c k : Nat} {f : Frame} {data : Bytes} (hup : s.portUp p.val = true)
    (hpause : (s.port p.val).pause = false) (htx : (s.port p.val).tx = none) (hturn : s.plcaTurn p.val = true)
    (hcls : s.txClass p.val = some (c, k)) (hf : s.frameOf k = some f)
    (ht : t = (s.setEgressQ p.val c (s.egressQ p.val c).tail).stampFrame p.val k f)
    (hread : t.frameRead f (f.cells.length + 1) 0 f.len = (some data, u)) : exec (.frameTransmit p) s =
      .next (u.updPort p.val (fun x => { x with tx := some { slot := k, gen := t.genOf k, data := data }, sent := x.sent + 1 })) := by
  subst ht
  have hf' : (s.setEgressQ p.val c (s.egressQ p.val c).tail).frameOf k = some f := hf
  show execFrameTransmit p s = _
  unfold execFrameTransmit
  dsimp only
  rw [if_neg (by simp [hup, hpause, htx, hturn]), hcls]
  dsimp only
  rw [hf']
  dsimp only
  rw [hread]
  rfl

section
variable {p : Fin 36} {s t : State} {x : TxSt} (htx : (s.port p.val).tx = some x)
  (ht : t = s.updPort p.val (fun y => { y with tx := none, lastEnd := s.clk }))
include htx ht

/-- FRAME_TRANSMIT_END of a frame that is still there (R459, R484). -/
theorem execFrameTransmitEnd_live {u : State} {f : Frame} (hf : s.frameOf x.slot = some f) (hgen : s.genOf x.slot = x.gen)
    (hu : u = (if s.portUp p.val then (t.portCount p.val 1).send (.frame p.val x.data (f.bad || f.crcBad)) else t)) :
    exec (.frameTransmitEnd p) s = .next ((if f.bad || f.crcBad then u.countDrop f.row 2 else u).freeSlot x.slot) := by
  subst hu ht
  show execFrameTransmitEnd p s = _
  unfold execFrameTransmitEnd
  dsimp only
  rw [htx]
  dsimp only
  rw [if_pos hgen, hf]

/-- One that has gone meanwhile is sent as bad (log 71). -/
theorem execFrameTransmitEnd_gone (hgone : s.frameOf x.slot = none ∨ s.genOf x.slot ≠ x.gen) : exec (.frameTransmitEnd p) s =
    .next (if s.portUp p.val then (t.portCount p.val 1).send (.frame p.val x.data true) else t) := by
  have hnone : (if s.genOf x.slot = x.gen then s.frameOf x.slot else none) = none := by
    rcases hgone with h | h
    · rw [h, ite_self]
    · exact if_neg h
  subst ht
  show execFrameTransmitEnd p s = _
  unfold execFrameTransmitEnd
  dsimp only
  rw [htx]
  dsimp only
  rw [hnone]

end

/-- GATE_CHANGE at its time (R490). -/
theorem execGateChange_due {p : Fin 36} {s t : State} (h12 : s.granted 12 = true) (hg : s.granted (portDomain p.val) = true)
    (hvalid : s.flag (R.PORT_GATE_NEXT_VALID p.val) = true)
    (hdue : s.pair (R.PORT_GATE_AT_LO p.val) (R.PORT_GATE_AT_HI p.val) ≤ s.dtbNow)
    (ht : t = (s.setFld (R.PORT_GATE_OPEN p.val) (s.fld (R.PORT_GATE_NEXT p.val))).setFld (R.PORT_GATE_NEXT_VALID p.val) 0) :
    exec (.gateChange p) s = .next (t.event (t.reg (R.PORT_GATE_ROUTE p.val))) := by
  have hroute : t.reg (R.PORT_GATE_ROUTE p.val) = s.reg (R.PORT_GATE_ROUTE p.val) := by
    rw [ht, State.reg_setFld_other _ _ _ _ (by simp only [R.PORT_GATE_ROUTE, R.PORT_GATE, R.PORT_GATE_NEXT_VALID]; omega),
      State.reg_setFld_other _ _ _ _ (by simp only [R.PORT_GATE_ROUTE, R.PORT_GATE, R.PORT_GATE_OPEN]; omega)]
  rw [hroute]
  subst ht
  exact congrArg Host.Outcome.next (if_pos (by simp [h12, hg, hvalid, hdue]))

/-- Settles O41: arrivals, pauses, requests, dispatch, tickets, and the start and the end of a transmission. -/
theorem packetFlow : Obligations.PacketFlow := by
  refine ⟨?_, fun p data s hdata hside => execFrameReceive_ring hdata hside, fun r q data fcsOk s hg => ?_, ?_, fun e s => rfl,
    fun req mask s hc => congrArg Host.Outcome.next (State.regDo_breq hc mask), ?_, ?_, ?_, ?_, ?_⟩
  · intro p data fcsOk s t hg ht hplain
    have hnext := execFrameReceive_port hg ht hplain
    refine ⟨fun hdown => ?_, fun hup hshort => ?_, fun hup hlong => ?_⟩
    · rw [hnext, if_pos hdown]
    · rw [hnext, if_neg (by simp [hup]), if_pos (by omega)]
    · rw [hnext, if_neg (by simp [hup]), if_neg (by omega)]
  · exact congrArg Host.Outcome.next (if_pos hg)
  · intro e quanta s t hg ht
    have hnext := execPauseReceive_next quanta hg ht
    refine ⟨fun hup => ?_, fun hdown => ?_⟩
    · rw [hnext, if_neg (by simp [hup])]
    · rw [hnext, if_pos hdown]
  · intro r s k rest g f hsafe hready hq hget hf
    exact congrArg Host.Outcome.next (State.dispatchRow_delivers hsafe hready hq hget hf)
  · intro d s t x rest hd ht
    refine ⟨fun hsafe hst => ?_, fun hsafe hst => ?_, fun hst => execOrderTimeout_waits hd hst⟩
    · rw [execTicketRelease_head hd hsafe ht, hst]
    · rw [execTicketRelease_head hd hsafe ht, hst]
  · intro p s t u c k f data hup hpause htx hturn hcls hf ht hread
    exact execFrameTransmit_starts hup hpause htx hturn hcls hf ht hread
  · intro p s t u x htx ht
    exact ⟨fun f hf hgen hu => execFrameTransmitEnd_live htx ht hf hgen hu, fun hgone => execFrameTransmitEnd_gone htx ht hgone⟩
  · intro p s t h12 hg hvalid hdue ht
    exact execGateChange_due h12 hg hvalid hdue ht

end Sys2Proof.Machine
end


section
/-! # What each packet helper operation completes with (O42) -/

namespace Sys2Proof.Machine

section
variable {s u v : State} {g : HelperReq}

/-! ## The shared parts: the request, its descriptor, its frame -/

theorem State.serve_request {t cn h op : Nat} (body : HelperReq → State → State) (hreq : s.request t cn h op = some g) :
    s.serve t cn h op body = body g s := by
  unfold State.serve
  rw [hreq]

theorem State.withDesc_read {n : Nat} {d : Bytes} (body : Bytes → State → State) (hd : s.getArea g.desc n = (some d, u)) :
    s.withDesc g n body = body d u := by
  unfold State.withDesc
  rw [hd]

theorem State.withFrame_live {tok k : Nat} {f : Frame} (body : Nat → Frame → State → State) (hf : s.tokenFrame tok = some (k, f)) :
    s.withFrame g tok body = body k f s := by
  unfold State.withFrame
  rw [hf]

theorem State.withFrame_gone {tok : Nat} (body : Nat → Frame → State → State) (hf : s.tokenFrame tok = none) :
    s.withFrame g tok body = s.finish g 2 0 := by
  unfold State.withFrame
  rw [hf]

section
variable {t : Fin 512} {cn : BitVec 3}

/-! ## GET (R462, R463, R481) -/

theorem execGet_request (hreq : s.request t.val cn.toNat 0 1 = some g) : exec (.get t cn) s =
    .next (if !s.ready 28 then s.finish g 5 0 else if !g.hcopyOk then s.finish g 3 0 else s.dispatchRow (s.thr g.t).row) := by
  show execGet t cn s = _
  unfold execGet
  rw [hreq]

theorem State.dispatchRow_idle {r : Nat} (h : (s.row r).dispQ = [] ∨ s.safe = true) : s.dispatchRow r = s := by
  unfold State.dispatchRow
  obtain hempty | hsafe := h
  · rw [hempty]
    exact ite_self _
  · exact if_pos (by simp [hsafe])

theorem State.dispatchRow_unmatched {r k : Nat} {rest : List Nat} (hq : (s.row r).dispQ = k :: rest)
    (h : s.pendingGet r = none ∨ s.frameOf k = none) : s.dispatchRow r = s := by
  unfold State.dispatchRow
  rw [hq]
  obtain hnone | hgone := h
  · rw [hnone]
    exact ite_self _
  · cases s.pendingGet r <;> dsimp only
    · exact ite_self _
    · rw [hgone]
      exact ite_self _

/-! ## EMIT and PARSE (R469) -/

section
variable {d : Bytes} {k : Nat} {f : Frame}

section
variable {x : Ticket} {wb cut : Nat} (hreq : s.request t.val cn.toNat 0 2 = some g) (hd : s.getArea g.desc 32 = (some d, u))
include hreq hd

theorem execEmit_gone (hf : u.tokenFrame (leNat (d.take 4)) = none) : exec (.emit t cn) s = .next (u.finish g 2 0) :=
  congrArg Host.Outcome.next
    ((State.serve_request _ hreq).trans ((State.withDesc_read _ hd).trans (State.withFrame_gone _ hf)))

variable (hf : u.tokenFrame (leNat (d.take 4)) = some (k, f)) (hx : u.ticketOf f.dom k = some x) (hwb : wb = leNat (slice 0x18 1 d))
  (hcut : cut = leNat (slice 0x19 1 d))
include hf hx hwb hcut

theorem execEmit_live : exec (.emit t cn) s = .next (
    if (u.thr g.t).row ≠ f.row ∨ (x.state == .held) = false ∨ 128 < wb ∨ 128 < cut ∨ 64 + cut < wb ∨ f.len < cut then u.finish g 3 0
    else match u.getArea (g.desc + 0x20) wb with
      | (some hdr, v) => v.emitFrame g k f cut hdr (leNat (slice 0x1C 4 d))
      | (none, v) => v.finish g 6 0) := by
  subst hwb hcut
  refine congrArg Host.Outcome.next
    ((State.serve_request _ hreq).trans ((State.withDesc_read _ hd).trans ((State.withFrame_live _ hf).trans ?_)))
  dsimp only
  rw [hx] <;> rfl

theorem execEmit_refused (h : (u.thr g.t).row ≠ f.row ∨ x.state ≠ .held ∨ 128 < wb ∨ 128 < cut ∨ 64 + cut < wb ∨ f.len < cut) :
    exec (.emit t cn) s = .next (u.finish g 3 0) := by
  rw [execEmit_live hreq hd hf hx hwb hcut, if_pos (by simpa using h)]

theorem execEmit_takes {hdr : Bytes} (hrow : (u.thr g.t).row = f.row) (hheld : x.state = .held) (hw : wb ≤ 128) (hc : cut ≤ 128)
    (hroom : wb ≤ 64 + cut) (hlen : cut ≤ f.len) (hhdr : u.getArea (g.desc + 0x20) wb = (some hdr, v)) :
    exec (.emit t cn) s = .next (v.emitFrame g k f cut hdr (leNat (slice 0x1C 4 d))) := by
  rw [execEmit_live hreq hd hf hx hwb hcut, if_neg (by simp [hrow, hheld]; omega), hhdr]

end

theorem execParse_live {data : Bytes} (hreq : s.request t.val cn.toNat 0 3 = some g) (hd : s.getArea g.desc 32 = (some d, u))
    (hf : u.tokenFrame (leNat (d.take 4)) = some (k, f)) (hdata : u.frameRead f (f.cells.length + 1) 0 f.len = (some data, v))
    {p : Nat × Nat × Nat} (hp : p = parseFrame data (g.arg.toNat / 2 ^ 8 % 2 ^ 16)) : exec (.parse t cn) s =
      .next ((v.putArea (g.desc + 0x0C) (leBytes 4 p.1 ++ leBytes 2 p.2.1 ++ leBytes 2 p.2.2)).finish g 0 0) := by
  subst hp
  refine congrArg Host.Outcome.next
    ((State.serve_request _ hreq).trans ((State.withDesc_read _ hd).trans ((State.withFrame_live _ hf).trans ?_)))
  dsimp only
  rw [hdata]

/-! ## INET and CRC32 -/

section
variable {off len : Nat} (sum : Bytes → Nat) (hd : s.getArea g.desc 8 = (some d, u))
  (hf : u.tokenFrame (leNat (d.take 4)) = some (k, f)) (hoff : off = leNat (slice 4 2 d)) (hlen : len = leNat (slice 6 2 d))
include hd hf hoff hlen

theorem State.checksum_refused (h : f.len < off + len) : s.checksum g sum = u.finish g 3 0 := by
  subst hoff hlen
  exact (State.withDesc_read _ hd).trans ((State.withFrame_live _ hf).trans (if_pos h))

theorem State.checksum_range {bs : Bytes} (h : off + len ≤ f.len) (hbs : u.frameRead f (f.cells.length + 1) off len = (some bs, v)) :
    s.checksum g sum = (v.putArea (g.desc + 8) (leBytes 4 (sum bs))).finish g 0 (sum bs) := by
  subst hoff hlen
  refine (State.withDesc_read _ hd).trans ((State.withFrame_live _ hf).trans ((if_neg (by omega)).trans ?_))
  rw [hbs]

end
end

/-! ## FIND (R467, R468) -/

section
variable {b i kw ew bucket log2 base : Nat} (hreq : s.request t.val cn.toNat 1 1 = some g) (hb : b = boughOf g.t)
  (hi : i = g.arg.toNat / 256 % 8) (hw : s.lookup b i = (kw, ew, bucket)) (hlog : log2 = min 16 (s.fld (R.BGH_LKP_CFG_LOG2 b i)))
  (hbase : base = 4 * s.fld (R.BGH_LKP_BASE_BASE b i))
include hreq hb hi hw hlog hbase

theorem execFind_table : exec (.find t cn) s = .next (
    if s.flag (R.BGH_LKP_CFG_EN b i) = false ∨ 0x100000 < base + 2 ^ log2 * bucket then s.finish g 3 0
    else s.findIn g kw ew bucket (2 ^ log2) (0x100100000 + b * 0x1000000 + base)) := by
  subst hb hi hlog hbase
  refine congrArg Host.Outcome.next ((State.serve_request _ hreq).trans ?_)
  dsimp only
  rw [hw]
  rfl

theorem execFind_refused (h : s.flag (R.BGH_LKP_CFG_EN b i) = false ∨ 0x100000 < base + 2 ^ log2 * bucket) :
    exec (.find t cn) s = .next (s.finish g 3 0) := by
  rw [execFind_table hreq hb hi hw hlog hbase, if_pos h]

variable (hen : s.flag (R.BGH_LKP_CFG_EN b i) = true) (hfits : base + 2 ^ log2 * bucket ≤ 0x100000) {key : Bytes} {n : Nat}
  (hkey : s.getArea g.desc (4 * kw) = (some key, u)) (hn : n = crc32Ieee key % 2 ^ log2)
include hen hfits hkey hn

theorem execFind_bucket : exec (.find t cn) s = .next (
    match u.searchBucket key kw ew (0x100100000 + b * 0x1000000 + base + n * bucket) [0, 1, 2, 3] with
    | (some (some r), v) => (v.putArea (g.desc + 0x20) r.2).finish g 0 (4 * n + r.1)
    | (some none, v) => v.finish g 1 0
    | (none, v) => v.finish g 6 0) := by
  subst hn
  rw [execFind_table hreq hb hi hw hlog hbase, if_neg (by simp [hen]; omega)]
  exact congrArg Host.Outcome.next (State.withDesc_read _ hkey)

theorem execFind_match {r : Nat × Bytes}
    (hr : u.searchBucket key kw ew (0x100100000 + b * 0x1000000 + base + n * bucket) [0, 1, 2, 3] = (some (some r), v)) :
    exec (.find t cn) s = .next ((v.putArea (g.desc + 0x20) r.2).finish g 0 (4 * n + r.1)) := by
  rw [execFind_bucket hreq hb hi hw hlog hbase hen hfits hkey hn, hr]

theorem execFind_noMatch
    (hr : u.searchBucket key kw ew (0x100100000 + b * 0x1000000 + base + n * bucket) [0, 1, 2, 3] = (some none, v)) :
    exec (.find t cn) s = .next (v.finish g 1 0) := by
  rw [execFind_bucket hreq hb hi hw hlog hbase hen hfits hkey hn, hr]

end

/-! ## AES-GCM (R508, R509) -/

section
variable {d aad text nonce : Bytes} {k ao al po pl : Nat} {f : Frame} {w : State} (hd : s.getArea g.desc 28 = (some d, u))
  (hf : u.tokenFrame (leNat (d.take 4)) = some (k, f)) (hr : gcmRanges d = (ao, al, po, pl)) (hsa : g.sa.valid = true)
  (haad : u.frameRead f (f.cells.length + 1) ao al = (some aad, v)) (hao : ao + al ≤ f.len)
include hd hf hr hsa haad hao

theorem State.withGcm_ranges {tail : Nat} (body : Nat → Frame → Bytes → Bytes → Bytes → State → State) (hpo : po + pl + tail ≤ f.len)
    (htext : v.frameRead f (f.cells.length + 1) po (pl + tail) = (some text, w)) :
    s.withGcm g tail body = body k f d aad text w := by
  refine (State.withDesc_read _ hd).trans ((State.withFrame_live _ hf).trans ?_)
  rw [hr]
  dsimp only
  rw [if_neg (by simp [hsa]; omega), haad]
  dsimp only
  rw [htext]

variable (hnonce : nonce = g.sa.nonce (slice 16 12 d))
include hnonce

theorem execAesSeal_takes {cells : List Nat} {y : State} {ct : Bytes} {h : Frame} (hreq : s.request t.val cn.toNat 3 1 = some g)
    (hpo : po + pl ≤ f.len) (htext : v.frameRead f (f.cells.length + 1) po pl = (some text, w))
    (hcells : w.takeCells f.row ((f.off + max f.len (po + pl + 16) + 255) / 256 - f.cells.length) [] = (cells, true, y))
    (hct : ct = Crypto.gcmCtr g.sa.keys nonce text) (hh : h = { f with cells := f.cells ++ cells, len := max f.len (po + pl + 16) }) :
    exec (.aesSeal t cn) s = .next
      ((((y.setFrame k h).peakCells f.row (w.cellUse f.row + cells.length)).frameWrite h (h.cells.length + 1) po
        (ct ++ Crypto.gcmTag g.sa.keys nonce aad ct)).finish g 0 0) := by
  refine congrArg Host.Outcome.next ((State.serve_request _ hreq).trans
    ((State.withGcm_ranges (tail := 0) hd hf hr hsa haad hao _ hpo htext).trans ?_))
  rw [hr]
  dsimp only
  rw [hcells, hct, hh, hnonce]
  rfl

section
variable {ct : Bytes} (hreq : s.request t.val cn.toNat 3 2 = some g) (hpo : po + pl + 16 ≤ f.len)
  (htext : v.frameRead f (f.cells.length + 1) po (pl + 16) = (some text, w)) (hct : ct = text.take pl)
include hreq hpo htext hct

theorem execAesOpen_ranges : exec (.aesOpen t cn) s = .next (if Crypto.gcmTag g.sa.keys nonce aad ct = text.drop pl then
    (w.frameWrite f (f.cells.length + 1) po (Crypto.gcmCtr g.sa.keys nonce ct)).finish g 0 0 else w.finish g 4 0) := by
  refine congrArg Host.Outcome.next ((State.serve_request _ hreq).trans
    ((State.withGcm_ranges hd hf hr hsa haad hao _ hpo htext).trans ?_))
  rw [hr, hct, hnonce]

theorem execAesOpen_right (htag : Crypto.gcmTag g.sa.keys nonce aad ct = text.drop pl) : exec (.aesOpen t cn) s =
    .next ((w.frameWrite f (f.cells.length + 1) po (Crypto.gcmCtr g.sa.keys nonce ct)).finish g 0 0) := by
  rw [execAesOpen_ranges hd hf hr hsa haad hao hnonce hreq hpo htext hct, if_pos htag]

theorem execAesOpen_wrong (htag : Crypto.gcmTag g.sa.keys nonce aad ct ≠ text.drop pl) :
    exec (.aesOpen t cn) s = .next (w.finish g 4 0) := by
  rw [execAesOpen_ranges hd hf hr hsa haad hao hnonce hreq hpo htext hct, if_neg htag]

end
end

/-! ## EGRESS_TS -/

section
variable {d : Bytes} {k : Nat} {f : Frame} (hreq : s.request t.val cn.toNat 4 2 = some g) (hd : s.getArea g.desc 4 = (some d, u))
  (hf : u.tokenFrame (leNat d) = some (k, f))
include hreq hd hf

theorem execEgressTs_live : exec (.egressTs t cn) s = .next (match f.txTime with
    | some n => (u.putArea (g.desc + 8) (leBytes 8 n)).finish g 0 0
    | none => { u with helpers := u.helpers.map (fun x => if x.t = g.t ∧ x.cn = g.cn then { x with stamp := some k } else x) }) :=
  congrArg Host.Outcome.next
    ((State.serve_request _ hreq).trans ((State.withDesc_read _ hd).trans (State.withFrame_live _ hf)))

theorem execEgressTs_sent {n : Nat} (htx : f.txTime = some n) :
    exec (.egressTs t cn) s = .next ((u.putArea (g.desc + 8) (leBytes 8 n)).finish g 0 0) := by
  rw [execEgressTs_live hreq hd hf, htx]

theorem execEgressTs_waits (htx : f.txTime = none) : exec (.egressTs t cn) s = .next
    { u with helpers := u.helpers.map (fun x => if x.t = g.t ∧ x.cn = g.cn then { x with stamp := some k } else x) } := by
  rw [execEgressTs_live hreq hd hf, htx]

end
end
end

/-- Settles O42: each operation is its request served, with its descriptor read and its frame found. -/
theorem packetHelpers : Obligations.PacketHelpers := by
  intro t cn s g
  refine ⟨fun hreq => ?_, fun hreq => ?_, fun hreq => ?_, fun hreq => ?_, ?_, ?_,
    fun hreq => congrArg Host.Outcome.next (State.serve_request _ hreq), fun hreq => ?_,
    fun hreq d u hd hf => execEmit_gone hreq hd hf⟩
  · have hget := execGet_request hreq
    refine ⟨fun hready => ?_, fun hready hcopy => ?_, fun hready hcopy r hr => ⟨fun hidle => ?_, fun k rest h f hsafe hq hpend hf => ?_,
      fun k rest hq hnone => ?_⟩⟩
    · rw [hget, hready]
      rfl
    · rw [hget, hready, hcopy]
      rfl
    · rw [hget, hready, hcopy, ← hr, State.dispatchRow_idle hidle]
      rfl
    · rw [hget, hready, hcopy, ← hr, State.dispatchRow_delivers hsafe hready hq hpend hf]
      rfl
    · rw [hget, hready, hcopy, ← hr, State.dispatchRow_unmatched hq hnone]
      rfl
  · intro d u k f wb cut hdr v x hd hf hx hwb hcut
    exact ⟨execEmit_refused hreq hd hf hx hwb hcut, execEmit_takes hreq hd hf hx hwb hcut⟩
  · intro d u k f data v p hd hf hdata hp
    exact execParse_live hreq hd hf hdata hp
  · intro b i kw ew bucket hb hi hw log2 base hlog hbase
    refine ⟨execFind_refused hreq hb hi hw hlog hbase, fun hen hfits key n u v hkey hn => ⟨fun r hr => ?_, fun hr => ?_⟩⟩
    · exact execFind_match hreq hb hi hw hlog hbase hen hfits hkey hn hr
    · exact execFind_noMatch hreq hb hi hw hlog hbase hen hfits hkey hn hr
  · intro d u k f off len hd hf hoff hlen
    refine ⟨fun hreq => ⟨fun h => ?_, fun bs v h hbs => ?_⟩, fun hreq => ⟨fun h => ?_, fun bs v h hbs => ?_⟩⟩ <;>
      refine congrArg Host.Outcome.next ((State.serve_request _ hreq).trans ?_)
    · exact State.checksum_refused _ hd hf hoff hlen h
    · exact State.checksum_range _ hd hf hoff hlen h hbs
    · exact State.checksum_refused _ hd hf hoff hlen h
    · exact State.checksum_range _ hd hf hoff hlen h hbs
  · intro d u k f ao al po pl aad v nonce hd hf hr hsa haad hnonce
    refine ⟨fun hreq text w cells y ct h hao hpo htext hcells hct hh => ?_, fun hreq text w ct hao hpo htext hct => ⟨?_, ?_⟩⟩
    · exact execAesSeal_takes hd hf hr hsa haad hao hnonce hreq hpo htext hcells hct hh
    · exact execAesOpen_right hd hf hr hsa haad hao hnonce hreq hpo htext hct
    · exact execAesOpen_wrong hd hf hr hsa haad hao hnonce hreq hpo htext hct
  · intro d u k f hd hf
    exact ⟨fun n => execEgressTs_sent hreq hd hf, execEgressTs_waits hreq hd hf⟩

end Sys2Proof.Machine
end


section
/-! # Injection into a store that the device does not have (O49)

Table 17.5 has no stores 28 to 31: their FLT_INJ registers are reserved, and a write that arms an injection there keeps the
register as it was. -/

namespace Sys2Proof.Machine

theorem regRow_fltInj_reserved : (regRow (R.FLT_INJ 31)).any (fun r => r.masks (R.FLT_INJ 31) 0 0 0 0) = true := by decide

/-- A write of a reserved FLT_INJ register changes nothing. -/
theorem execInjectionArm_reserved {req : Req} {s : State} (hc : CanWrite s req (R.FLT_INJ 31)) (mode : BitVec 2) (dbl : Bool) :
    exec (.injectionArm req 31 mode dbl) s = .next (s.setReg (R.FLT_INJ 31) (s.reg (R.FLT_INJ 31))) := by
  have hold (old w : Word) : ((old &&& ~~~0 ||| w &&& 0) &&& ~~~(w &&& (0 ||| 0) &&& 0)) ||| (w &&& (0 ||| 0) &&& 0) = old := by simp
  refine congrArg Host.Outcome.next ((State.regDo_masks hc regRow_fltInj_reserved _).trans ?_)
  rw [State.hook_flt0 _ (by decide) (by decide), State.enRise_masks regRow_fltInj_reserved, hold]
  rfl

/-- The device in operation takes the write. -/
theorem bench_mayArm : CanWrite Tests.bench .rootstock (R.FLT_INJ 31) := by
  unfold CanWrite
  decide

theorem bench_fltInj : Tests.bench.reg (R.FLT_INJ 31) = 0 := by decide

/-- Refutes O49: on the device in operation, arming MODE 1 in FLT_INJ_31, which is reserved, leaves the register 0, where the
statement has it 1. -/
theorem not_faultsAdminAndWatchdogs : ¬ Obligations.FaultsAdminAndWatchdogs := by
  rintro ⟨-, -, harm, -⟩
  have hstored := harm .rootstock 31 1 false Tests.bench bench_mayArm
  rw [execInjectionArm_reserved bench_mayArm] at hstored
  have hreg := congrArg (fun t : State => t.reg (R.FLT_INJ 31)) (Host.Outcome.next.inj hstored)
  simp only [Fin.isValue, State.reg_setReg_same, bench_fltInj] at hreg
  revert hreg
  decide

end Sys2Proof.Machine
end


section
/-! # What the Fankoec interface does with a request (O46) -/

namespace Sys2Proof.Machine

/-- What becomes of a handled request over USB: the packets of its response wait on EP1 IN, unless the request has detached the
device. -/
def State.fkDone (s : State) (x : Bytes × State) : State :=
  if x.2.usb.pullup then
    x.2.updUsb (fun u => UsbSt.drain s.maxPacket { u with resp := u.resp ++ packets s.maxPacket x.1, rx := [], whole := false })
  else x.2

/-! ## The request at the head -/

/-- A whole request with opcode `op` waits at the head. -/
structure FkWaiting (s : State) (op : Nat) : Prop where
  whole : s.usb.whole = true
  opcode : op = (s.usb.rx.getD 3 0).toNat

section
variable {s : State} {op : Nat} (hw : FkWaiting s op)
include hw

theorem State.fkHead_waiting : s.fkHead = some op := by
  rw [hw.opcode]
  exact if_pos hw.whole

theorem execFankoecHello_serves (h : op = 0x01 ∨ (fkOpcodes true).contains op = false) :
    exec .fankoecHello s = .next (s.fkDone (s.fankoec .usb s.usb.rx)) := by
  show execFankoecHello s = _
  unfold execFankoecHello
  rw [State.fkHead_waiting hw]
  exact congrArg Host.Outcome.next (if_pos (by rw [Bool.not_eq_true']; exact h))

end

/-- The commands of the other opcodes (Table 15.6). -/
def fkCommands : List (Instr × Nat) := [(.authChallenge, 0x02), (.authResponse, 0x03), (.logout, 0x04), (.readyMap, 0x05),
  (.regRead, 0x10), (.regWrite, 0x11), (.fankoecJobSubmit, 0x30), (.jobRead, 0x31)]

theorem exec_fkCommand (s : State) : ∀ p ∈ fkCommands, exec p.1 s = .next (if s.fkHead = some p.2 then s.fkServe else s) := by
  simp only [fkCommands, List.forall_mem_cons, List.not_mem_nil, false_imp_iff, implies_true, and_true]
  exact ⟨rfl, rfl, rfl, rfl, rfl, rfl, rfl, rfl⟩

theorem exec_fkCommand_serves {s : State} {op : Nat} (hw : FkWaiting s op) {p : Instr × Nat} (hp : p ∈ fkCommands) (h : op = p.2) :
    exec p.1 s = .next (s.fkDone (s.fankoec .usb s.usb.rx)) := by
  rw [exec_fkCommand s p hp, if_pos (h ▸ State.fkHead_waiting hw)]
  rfl

/-! ## The opcodes (Table 15.6) -/

section
variable {s : State} {req : Req} {d : Bytes}

/-- R551: a request that fails a check. -/
theorem State.fankoec_refused (hcheck : s.fkCheck req d ≠ 0) : s.fankoec req d = (fkReply d (s.fkCheck req d) [], s) := if_pos hcheck

section
variable (hcheck : s.fkCheck req d = 0) (hsized : fkSized d = true)
include hcheck hsized

/-- A sound request does what its opcode says. -/
theorem State.fankoec_sound : s.fankoec req d = match (d.getD 3 0).toNat with
    | 0x01 => (fkReply d 0 (s.fkHello req), s)
    | 0x02 => (fkReply d 0 s.fkChallenge.1, s.fkChallenge.2)
    | 0x03 => (fkReply d (s.fkResponse d).1 [], (s.fkResponse d).2)
    | 0x04 => (fkReply d 0 [], s.setFld R.USB_FK_LEVEL 0)
    | 0x05 => (fkReply d 0 (leBytes 4 (s.reg R.IDR_READY_0).toNat ++ leBytes 4 (s.reg R.IDR_READY_1).toNat), s)
    | 0x10 => let x := s.fkRead req (fkWord d 0) (fkWord d 1) 0 []
              (fkReply d x.1 x.2.1, x.2.2)
    | 0x11 => let x := s.fkWrite req (fkWord d 0) ((List.range (fkLen d / 4 - 1)).map (fun i => fkWord d (i + 1))) 0
              (fkReply d x.1 x.2.1, x.2.2)
    | 0x30 => (fkReply d (s.fkSubmit req d).1 (s.fkSubmit req d).2.1, (s.fkSubmit req d).2.2)
    | _ => (fkReply d (s.fkJobRead req d).1 (s.fkJobRead req d).2, s) := by
  unfold State.fankoec
  dsimp only
  rw [if_neg (by simp [hcheck]), if_neg (by simp [hsized])] <;> rfl

end

/-! ### AUTH_RESPONSE (R555, R556) -/

section
variable {level : Byte} {sig : BitVec 512} {t : State} (hlevel : level = d.getD 12 0) (hsig : sig = BitVec.ofNat 512 (beNat (slice 16 64 d)))
  (ht : t = s.updUsb (fun u => { u with nonce := none }))

theorem State.fkResponse_locked (hlock : s.flag R.USB_FK_LOCKOUT = true) : s.fkResponse d = (8, s) := if_pos hlock

include hlevel hsig ht

theorem State.fkResponse_signed {n : Bytes} (hlock : s.flag R.USB_FK_LOCKOUT = false) (hn : s.usb.nonce = some n)
    (hrange : level = 1 ∨ level = 2) (hown : s.ownerSigned n level sig = true) :
    s.fkResponse d = (0, t.setFld R.USB_FK_LEVEL level.toNat) := by
  unfold State.fkResponse
  dsimp only
  rw [if_neg (by simp [hlock]), ← hlevel, ← hsig, ← ht, hn]
  dsimp only
  exact if_pos (by rw [hown, Bool.and_true, Bool.or_eq_true, beq_iff_eq, beq_iff_eq]; exact hrange)

theorem State.fkResponse_refused (hlock : s.flag R.USB_FK_LOCKOUT = false)
    (hbad : ∀ n, s.usb.nonce = some n → (level ≠ 1 ∧ level ≠ 2) ∨ s.ownerSigned n level sig = false) :
    s.fkResponse d = (7, t.fkRefused) := by
  unfold State.fkResponse
  dsimp only
  rw [if_neg (by simp [hlock]), ← hlevel, ← hsig, ← ht]
  cases hn : s.usb.nonce with
  | none => rfl
  | some n =>
    dsimp only
    refine if_neg ?_
    obtain ⟨h1, h2⟩ | hunsigned := hbad n hn
    · rw [beq_eq_false_iff_ne.mpr h1, beq_eq_false_iff_ne.mpr h2]
      exact Bool.false_ne_true
    · rw [hunsigned, Bool.and_false]
      exact Bool.false_ne_true

end

/-! ### JOB_SUBMIT -/

section
variable {r : Nat} (hr : r = fkWord d 0)
include hr

theorem State.fkSubmit_otherRow (hrow : s.fkRowOk req r = false) : s.fkSubmit req d = (5, [], s) := by
  subst hr
  exact if_pos (by simp [hrow])

theorem State.fkSubmit_notReady (hrow : s.fkRowOk req r = true) (hready : s.ready 17 = false) :
    s.fkSubmit req d = (9, leBytes 4 6, s) := by
  subst hr
  exact (if_neg (by simp [hrow])).trans (if_pos (by simp [hready]))

theorem State.fkSubmit_submits {w : Word} {t : State} (hrow : s.fkRowOk req r = true) (hready : s.ready 17 = true)
    (hw : s.submit r (s.level req == .warden) (slice 16 32 d) = (w, t)) :
    s.fkSubmit req d = if bitOf w 30 then (0, leBytes 4 w.toNat, t) else (9, leBytes 4 (w.toNat % 256), t) := by
  subst hr
  refine (if_neg (by simp [hrow])).trans ((if_neg (by simp [hready])).trans ?_)
  rw [hw]

end
end

/-- Settles O46: the request that waits is handled as its opcode says, and its response queued. -/
theorem fankoecCommands : Obligations.FankoecCommands := by
  intro s d op done hwhole hd hop hdone
  obtain rfl : done = s.fkDone := hdone
  subst hd
  have hhello := execFankoecHello_serves ⟨hwhole, hop⟩
  have hserves := fun p (hp : p ∈ fkCommands) => exec_fkCommand_serves ⟨hwhole, hop⟩ hp
  refine ⟨fun hcheck => ⟨by decide, fun h => ?_, fun p hp h => ?_⟩, fun hcheck hsized => ?_⟩
  · rw [hhello h, State.fankoec_refused hcheck]
  · rw [hserves p hp h, State.fankoec_refused hcheck]
  have hsound := State.fankoec_sound hcheck hsized
  rw [← hop] at hsound
  refine ⟨fun h => ?_, fun h => ?_, fun h level sig t hlevel hsig ht => ?_, fun h => ?_, fun h => ?_, fun h st bs t hread => ?_,
    fun h st bs t hwrite => ?_, fun h r hr => ?_, fun h => ?_⟩
  · rw [hhello (.inl h), hsound, h]
    rfl
  · rw [hserves (.authChallenge, 0x02) (by simp [fkCommands]) h, hsound, h]
    rfl
  · have hexec := hserves (.authResponse, 0x03) (by simp [fkCommands]) h
    rw [hsound, h] at hexec
    dsimp only at hexec
    refine ⟨fun hlock => ?_, fun n hlock hn hrange hown => ?_, fun hlock hbad => ?_⟩
    · rw [hexec, State.fkResponse_locked hlock]
      rfl
    · rw [hexec, State.fkResponse_signed hlevel hsig ht hlock hn hrange hown]
      rfl
    · rw [hexec, State.fkResponse_refused hlevel hsig ht hlock hbad]
      rfl
  · rw [hserves (.logout, 0x04) (by simp [fkCommands]) h, hsound, h]
    rfl
  · rw [hserves (.readyMap, 0x05) (by simp [fkCommands]) h, hsound, h]
    rfl
  · rw [hserves (.regRead, 0x10) (by simp [fkCommands]) h, hsound, h]
    dsimp only
    rw [hread]
    rfl
  · rw [hserves (.regWrite, 0x11) (by simp [fkCommands]) h, hsound, h]
    dsimp only
    rw [hwrite]
    rfl
  · have hexec := hserves (.fankoecJobSubmit, 0x30) (by simp [fkCommands]) h
    rw [hsound, h] at hexec
    dsimp only at hexec
    refine ⟨fun hrow => ?_, fun hrow hready => ?_, fun w t hrow hready hw => ⟨fun hok => ?_, fun hbad => ?_⟩⟩
    · rw [hexec, State.fkSubmit_otherRow hr hrow]
      rfl
    · rw [hexec, State.fkSubmit_notReady hr hrow hready]
      rfl
    · rw [hexec, State.fkSubmit_submits hr hrow hready hw, if_pos hok]
      rfl
    · rw [hexec, State.fkSubmit_submits hr hrow hready hw, if_neg (by simp [hbad])]
      rfl
  · rw [hserves (.jobRead, 0x31) (by simp [fkCommands]) h, hsound, h]
    rfl

end Sys2Proof.Machine
end


section
/-! # Job submission, store pages and completion (O47) -/

namespace Sys2Proof.Machine

/-! ## Submission (R565–R567) -/

theorem regRow_jobSubmitLo (o : Fin 9) : ∃ r, regRow (R.JOB_SUBMIT_LO o.val) = some r ∧ r.half = .lo := by
  have h : ∀ o : Fin 9, (regRow (R.JOB_SUBMIT_LO o.val)).any (fun r => r.half == .lo) = true := by decide
  obtain ⟨r, hr, hhalf⟩ := (Option.any_eq_true ..).mp (h o)
  exact ⟨r, hr, by simpa using hhalf⟩

theorem regRow_jobSubmitHi (o : Fin 9) :
    ∃ r, regRow (R.JOB_SUBMIT_HI o.val) = some r ∧ r.half = .hi ∧ ∃ f ∈ r.fields, f.privIn r = .jobOwner := by
  have h : ∀ o : Fin 9, (regRow (R.JOB_SUBMIT_HI o.val)).any
      (fun r => r.half == .hi && r.fields.any (fun f => f.privIn r == .jobOwner)) = true := by decide
  obtain ⟨r, hr, hprop⟩ := (Option.any_eq_true ..).mp (h o)
  rw [Bool.and_eq_true, beq_iff_eq, List.any_eq_true] at hprop
  obtain ⟨hhalf, f, hf, hpriv⟩ := hprop
  exact ⟨r, hr, hhalf, f, hf, by simpa using hpriv⟩

/-- No queue of a host lies among the registers of the jobs. -/
theorem State.hqBusy_below (s : State) {off : Nat} (h : off < 0x28000) : s.hqBusy off = false := by
  simp [State.hqBusy, show ¬ 0x28000 ≤ off by omega]

section
variable {s : State} {req : Req} {o : Fin 9}

/-- The lower half is held. -/
theorem State.regDo_jobSubmitLo (hc : CanWrite s req (R.JOB_SUBMIT_LO o.val)) (v : Word) : s.regDo req (R.JOB_SUBMIT_LO o.val) v =
    { s with wrShadow := tabPut (reqCode req) (R.JOB_SUBMIT_LO o.val, v) s.wrShadow } := by
  obtain ⟨r, hrow, hhalf⟩ := regRow_jobSubmitLo o
  have hoff : R.JOB_SUBMIT_LO o.val = 0x24000 + 0x40 * o.val := rfl
  obtain ⟨-, -, hgrant, hmay⟩ := id hc
  have hmay := hmay r hrow
  obtain ⟨hpost, hcmd⟩ := regRow_half hrow (by rw [hhalf]; decide)
  obtain ⟨hkey, hrng, hrowKey⟩ := halfOff hrow (by rw [hhalf]; decide)
  have haccepted := State.writeRefused_none hrow hmay hpost hcmd hkey hrowKey (by omega) v
  rw [State.regDo_window hc, State.winWrite, if_neg hrng, State.winWriteWith, hgrant, hrow]
  simp only [Bool.not_true, Bool.false_eq_true, if_false, State.hqBusy_below s (off := R.JOB_SUBMIT_LO o.val) (by omega),
    Bool.false_and, hhalf]
  simp only [State.writeLo, haccepted, Bool.false_eq_true, if_false, State.judged_all hmay, RegRow.judgeAll_any (regRow_sound hrow),
    if_true]

/-- The upper half submits the job at the address that both halves give. -/
theorem State.regDo_jobSubmitHi (hc : CanWrite s req (R.JOB_SUBMIT_HI o.val)) {v : Word}
    (hheld : tabFind (reqCode req) s.wrShadow = some (R.JOB_SUBMIT_LO o.val, v)) (w : Word) : s.regDo req (R.JOB_SUBMIT_HI o.val) w =
      State.submitAt { s with wrShadow := tabDel (reqCode req) s.wrShadow } o.val req (bitOf w 31) (v.toNat + w.toNat % 2 ^ 8 * 2 ^ 32) := by
  obtain ⟨r, hrow, hhalf, f, hf, hpriv⟩ := regRow_jobSubmitHi o
  have hoff : R.JOB_SUBMIT_HI o.val = 0x24004 + 0x40 * o.val := rfl
  have hlo : R.JOB_SUBMIT_HI o.val - 4 = R.JOB_SUBMIT_LO o.val := by simp only [R.JOB_SUBMIT_HI, R.JOB_SUBMIT_LO]; omega
  have howner : (R.JOB_SUBMIT_HI o.val - 0x24000) / 0x40 = o.val := by omega
  obtain ⟨-, -, hgrant, hmay⟩ := id hc
  have hmay := hpriv ▸ hmay r hrow f hf
  obtain ⟨hkey, hrng, hrowKey⟩ := halfOff hrow (by rw [hhalf]; decide)
  have haccepted : s.writeRefused req r (R.JOB_SUBMIT_HI o.val) w = false := by
    rw [State.writeRefused, if_neg hkey, hrowKey, if_neg Bool.false_ne_true, if_pos (by omega), hmay, Bool.not_true]
  have hword : s.heldLo req (R.JOB_SUBMIT_LO o.val) = v := by
    rw [State.heldLo, hheld]
    exact if_pos rfl
  have hdrop : s.dropLo req (R.JOB_SUBMIT_LO o.val) = { s with wrShadow := tabDel (reqCode req) s.wrShadow } := by
    rw [State.dropLo, hheld]
    exact if_pos rfl
  rw [State.regDo_window hc, State.winWrite, if_neg hrng, State.winWriteWith, hgrant, hrow]
  simp only [Bool.not_true, Bool.false_eq_true, if_false, State.hqBusy_below s (off := R.JOB_SUBMIT_HI o.val) (by omega),
    Bool.false_and, hhalf]
  simp only [State.writeHi, haccepted, Bool.false_eq_true, if_false, hlo, hword, hdrop, howner]
  rw [if_pos ⟨by omega, by omega⟩]

theorem execJobSubmit_submits (hlo : CanWrite s req (R.JOB_SUBMIT_LO o.val)) (hhi : CanWrite s req (R.JOB_SUBMIT_HI o.val))
    {addr : BitVec 64} {lo hi : Word} (hl : lo = addr.truncate 32) (hh : hi = (addr >>> 32).truncate 32) :
    exec (.jobSubmit req o addr) s = .next (State.submitAt { s with wrShadow := tabDel (reqCode req) s.wrShadow } o.val req (bitOf hi 31)
      (lo.toNat + hi.toNat % 2 ^ 8 * 2 ^ 32)) := by
  have hcan : CanWrite { s with wrShadow := tabPut (reqCode req) (R.JOB_SUBMIT_LO o.val, lo) s.wrShadow } req (R.JOB_SUBMIT_HI o.val) := hhi
  have hcommit := State.regDo_jobSubmitHi hcan (tabFind_put_same _ _ _) hi
  rw [tabDel_put] at hcommit
  show execJobSubmit req o addr s = _
  rw [execJobSubmit, ← hl, ← hh, State.regDo_jobSubmitLo hlo, hcommit]

section
variable {t : State} {a : Nat} {priv : Bool}

theorem State.submitAt_misplaced (h : a % 32 ≠ 0 ∨ (priv = true ∧ 0x40000 < a + 32)) :
    t.submitAt o.val req priv a = t.setFld (R.JOB_STAT_BADSUB o.val) 1 := by
  by_cases hmod : a % 32 = 0
  · obtain ⟨hpriv, hpast⟩ := h.resolve_left (absurd hmod)
    exact (if_neg (by simp [hmod])).trans ((if_pos hpriv).trans (if_pos hpast))
  · exact if_pos hmod

section
variable (hmod : a % 32 = 0)
include hmod

theorem State.submitAt_rsMemory (hpriv : priv = true) (hin : a + 32 ≤ 0x40000) : t.submitAt o.val req priv a =
    match t.rsReadAll a 32 with
    | (some d, x) => (x.submit o.val (t.level req == .warden) d).2.rsPoke (a + 28)
        (leBytes 4 (x.submit o.val (t.level req == .warden) d).1.toNat)
    | (none, x) => x.setFld (R.JOB_STAT_BADSUB o.val) 1 :=
  (if_neg (by simp [hmod])).trans ((if_pos hpriv).trans (if_neg (by omega)))

theorem State.submitAt_device (hpriv : priv = false) : t.submitAt o.val req priv a =
    match t.reqRead req a 32 with
    | (some d, x) => (x.submit o.val (t.level req == .warden) d).2.devWrite (a + 28)
        (leBytes 4 (x.submit o.val (t.level req == .warden) d).1.toNat)
    | (none, x) => x.setFld (R.JOB_STAT_BADSUB o.val) 1 :=
  (if_neg (by simp [hmod])).trans (if_neg (by simp [hpriv]))

end
end
end

/-- What a requester holds of a pair is no part of its level. -/
theorem State.level_wrShadow (s : State) (req : Req) (tab : Tab (Nat × Word)) : State.level { s with wrShadow := tab } req = s.level req := by
  cases req <;> rfl

/-! ## Completion records (R571, R572) -/

theorem regRow_jobCpl (o : Fin 9) : ∃ r, regRow (R.JOB_CPL o.val 0) = some r ∧ r.half = .whole := by
  have h : ∀ o : Fin 9, (regRow (R.JOB_CPL o.val 0)).any (fun r => r.half == .whole) = true := by decide
  obtain ⟨r, hr, hhalf⟩ := (Option.any_eq_true ..).mp (h o)
  exact ⟨r, hr, by simpa using hhalf⟩

theorem execCplRead_takes {s : State} {req : Req} {o : Fin 9} (hc : CanRead s req (R.JOB_CPL o.val 0)) : exec (.cplRead req o) s =
    .next ((s.cplTake (reqCode req) o.val).2.send (.regRead req (BitVec.ofNat 64 (s.cplTake (reqCode req) o.val).1.toNat))) := by
  obtain ⟨r, hrow, hhalf⟩ := regRow_jobCpl o
  obtain ⟨hlive, hreach, hgrant⟩ := hc
  have hoff : R.JOB_CPL o.val 0 = 0x24010 + 0x40 * o.val := rfl
  have howner : (R.JOB_CPL o.val 0 - 0x24000) / 0x40 = o.val := by omega
  have hread : s.readEffect req .whole (R.JOB_CPL o.val 0) = s.cplTake (reqCode req) o.val := by
    unfold State.readEffect
    dsimp only
    rw [if_neg (by simp only [R.SEC_RNG_DATA]; omega), if_neg (by simp only [R.TAP_RRAM_DATA]; omega),
      if_neg (by simp only [R.NV_RD_DATA]; omega), if_pos (by omega), if_pos (by omega), howner]
  refine congrArg Host.Outcome.next ?_
  rw [State.regAsk, hlive, hreach, Bool.and_self, if_pos rfl, State.winRead, hgrant, Bool.not_true, if_neg Bool.false_ne_true, hrow]
  dsimp only
  rw [hhalf, hread]

theorem State.cplTake_none {s : State} {q o : Nat} (h : tabGet [] o s.jobs.cpl = []) : s.cplTake q o = (0, s) := by
  rw [State.cplTake, h]

theorem State.cplTake_head {s : State} {q o : Nat} {c : Cpl} {cs : List Cpl} (h : tabGet [] o s.jobs.cpl = c :: cs) :
    s.cplTake q o = (c.words.getD 0 0, { s with jobs := { s.jobs with
      list := s.jobs.list.filter (fun j => j.tag != c.tag), cpl := tabSet [] o cs s.jobs.cpl,
      cplShadow := tabSet [] q c.words s.jobs.cplShadow } }) := by
  rw [State.cplTake, h]

section
variable {tag : BitVec 10} {s t u : State} {j : Job} (hj : s.job tag.toNat = some j) (hrun : j.state = .running) (hend : j.ended = true)
  (ht : t = s.updJob j.tag (fun k => { j with state := .done, ended := true, tag := k.tag }))
  (hu : u = State.event { t with jobs := { t.jobs with
    cpl := tabSet [] j.owner (tabGet [] j.owner s.jobs.cpl ++ [{ words := s.cplWords j, tag := j.tag }]) t.jobs.cpl } }
      (t.reg (R.JOB_ROUTE j.owner)))
include hj hrun hend ht hu

/-- JOB_COMPLETE of a job that has ended. -/
theorem execJobComplete_ended : exec (.jobComplete tag) s =
    .next (if j.op = 3 ∧ u.granted 3 = true then (u.reportWinner 0).reportWinner 1 else u) := by
  subst hu ht
  show execJobComplete tag s = _
  unfold execJobComplete
  rw [hj]
  exact congrArg Host.Outcome.next (if_pos ⟨hrun, hend⟩)

end

/-! ## Store pages (R575–R578) -/

section
variable {s : State} {code : Nat} {mismatch : Bool} (h3 : s.granted 3 = true)
include h3

theorem State.pageProgram_record {rec : Bytes} {more : List Bytes} (hq : s.fst.queue = rec :: more) : s.pageProgram code mismatch =
    if s.flag R.FLT_NV_STAT_BUSY then s else s.programRecord rec more code mismatch := by
  rw [State.pageProgram, h3, Bool.not_true, if_neg Bool.false_ne_true, hq]

theorem State.pageProgram_job {j : Job} (hq : s.fst.queue = [])
    (hj : s.jobs.list.find? (fun j => j.state == .running && !j.ended && decide (0 < j.pageCount)) = some j) :
    s.pageProgram code mismatch = if s.safe then s else s.jobPage j code mismatch := by
  rw [State.pageProgram, h3, Bool.not_true, if_neg Bool.false_ne_true, hq]
  dsimp only
  rw [hj]

end

section
variable {s u v : State} {j : Job} {code : Nat}

theorem State.jobPage_low (mismatch : Bool) (h : s.holdUp code = (false, u)) :
    s.jobPage j code mismatch = (u.endJob j.tag 1 0 0).fault 14 0 := by
  unfold State.jobPage
  rw [h]
  rfl

/-- A page whose bytes are all new. -/
theorem State.jobPage_whole {x : State} {p at_ : Nat} {bs : Bytes} {mismatch : Bool} (h : s.holdUp code = (true, u)) (hlen : bs.length = 256)
    (hpage : (u.nextPage j = (p, at_, .inl bs) ∧ v = u) ∨ ∃ src n, u.nextPage j = (p, at_, .inr (src, n)) ∧ u.devRead src n = (some bs, v))
    (hx : x = (v.programPage p (mergePage bs at_ bs) mismatch).updJob j.tag
      (fun k => { k with pages := j.pages + 1, pos := max k.pos (j.posAfter (j.pages + 1)) })) :
    s.jobPage j code mismatch = if mismatch then x.endJob j.tag 8 0 0
      else if j.pages + 1 = j.pageCount then x.finishStore { j with pages := j.pages + 1 } else x := by
  unfold State.jobPage
  rw [h]
  dsimp only
  rw [Bool.not_true, if_neg Bool.false_ne_true]
  obtain ⟨hfixed, rfl⟩ | ⟨src, n, hsrc, hread⟩ := hpage
  · rw [hfixed]
    dsimp only
    rw [if_pos hlen, hx]
  · rw [hsrc]
    dsimp only
    rw [hread]
    dsimp only
    rw [if_pos hlen, hx]

end

/-- Settles O47: a submission is the commit of its register pair, a record is read by the effect of the read, and a page is the next
fault record's or the running job's. -/
theorem jobQueue : Obligations.JobQueue := by
  refine ⟨?_, ?_, ?_, ?_⟩
  · intro req o addr s t lo hi a hlo hhi hl hh ha ht
    have hlevel : t.level req = s.level req := ht ▸ s.level_wrShadow req _
    have hexec := execJobSubmit_submits hlo hhi hl hh
    rw [← ha, ← ht] at hexec
    refine ⟨fun hbad => ?_, fun hmod hpriv hin => ?_, fun hmod hpriv => ?_⟩
    · rw [hexec, State.submitAt_misplaced hbad]
    · rw [hexec, State.submitAt_rsMemory hmod hpriv hin, hlevel]
      refine ⟨fun x hx => ?_, fun d x w u hx hw => ?_⟩
      · rw [hx]
      · rw [hx]
        dsimp only
        rw [hw]
    · rw [hexec, State.submitAt_device hmod hpriv, hlevel]
      refine ⟨fun x hx => ?_, fun d x w u hx hw => ?_⟩
      · rw [hx]
      · rw [hx]
        dsimp only
        rw [hw]
  · intro req o s hc
    refine ⟨fun hnone => ?_, fun c cs hhead => ?_⟩
    · rw [execCplRead_takes hc, State.cplTake_none hnone]
      rfl
    · rw [execCplRead_takes hc, State.cplTake_head hhead]
  · intro tag s t u j hj hrun hend ht hu
    have hexec := execJobComplete_ended hj hrun hend ht hu
    refine ⟨fun hop h3 => ?_, fun hother => ?_⟩
    · rw [hexec, if_pos ⟨hop, h3⟩]
    · rw [hexec, if_neg]
      rintro ⟨hop, h3⟩
      obtain hne | hoff := hother
      · exact hne hop
      · exact Bool.false_ne_true (hoff.symm.trans h3)
  · intro code mismatch s h3
    refine ⟨fun rec more hq => ⟨fun hbusy => ?_, fun hfree => ?_⟩, fun j hq hj => ⟨fun hsafe => ?_, fun u hsafe hhold => ?_,
      fun u p at_ bs v x hsafe hhold hlen hpage hx => ?_⟩⟩
    · exact congrArg Host.Outcome.next ((State.pageProgram_record h3 hq).trans (if_pos hbusy))
    · exact congrArg Host.Outcome.next ((State.pageProgram_record h3 hq).trans (if_neg (ne_true_of_eq_false hfree)))
    · exact congrArg Host.Outcome.next ((State.pageProgram_job h3 hq hj).trans (if_pos hsafe))
    · exact congrArg Host.Outcome.next ((State.pageProgram_job h3 hq hj).trans ((if_neg (by simp [hsafe])).trans
        (State.jobPage_low mismatch hhold)))
    · exact congrArg Host.Outcome.next ((State.pageProgram_job h3 hq hj).trans ((if_neg (by simp [hsafe])).trans
        (State.jobPage_whole hhold hlen hpage hx)))

end Sys2Proof.Machine
end


section
/-! # What a job does when its turn comes (O48) -/

namespace Sys2Proof.Machine

section
variable {tag : BitVec 10} {s u : State} {j : Job} (hj : s.job tag.toNat = some j) (hmay : s.mayStart tag.toNat = true)
  (hu : u = s.updJob tag.toNat (fun k => { k with state := .running }))
include hj hmay hu

/-- A job whose turn has come starts (R569). -/
theorem State.startJob_turn {op : Nat} (hop : j.op = op) (body : Job → State → State) : s.startJob tag.toNat op body = body j u := by
  unfold State.startJob
  rw [hj, hu]
  exact if_pos ⟨hop, hmay⟩

/-! ## CAL_STORE (R580, R584) -/

section
variable (hop : j.op = 3)
include hop

theorem execCalStore_first (hw : u.recWinner (j.arg0 - 1) = none) : exec (.calStore tag) s =
    .next (u.updJob j.tag (fun k => { k with dst := recSlot (k.arg0 - 1) 0, arg1 := 1 })) := by
  refine congrArg Host.Outcome.next ((State.startJob_turn hj hmay hu hop _).trans ?_)
  rw [hw]

theorem execCalStore_next {i q w : Nat} (hw : u.recWinner (j.arg0 - 1) = some (i, q, w)) : exec (.calStore tag) s =
    .next (if q = 0xFFFFFFFF then u.endJob j.tag 3 0 0
      else u.updJob j.tag (fun k => { k with dst := recSlot (k.arg0 - 1) (1 - i), arg1 := q + 1 })) := by
  refine congrArg Host.Outcome.next ((State.startJob_turn hj hmay hu hop _).trans ?_)
  rw [hw]

end

/-! ## GRAFT_SYNC (R638) -/

theorem execGraftSync_refused (hop : j.op = 4) (h : u.isActive = false ∨ u.graft.pActive = true ∨ u.ready 60 = false) :
    exec (.graftSync tag) s = .next (u.endJob j.tag 9 0 0) := by
  refine congrArg Host.Outcome.next ((State.startJob_turn hj hmay hu hop _).trans (if_pos ?_))
  obtain h | h | h := h <;> simp [h]

theorem execGraftSync_sends {e : Nat} {r : Bytes × State} {bank : Bytes} {v : State} (hop : j.op = 4) (hactive : u.isActive = true)
    (hpartner : u.graft.pActive = false) (hready : u.ready 60 = true) (he : e = u.nextEpoch)
    (hr : r = (graftSections j.arg0 (u.graftSource j.src (16 * j.arg0)).1).foldl (fun (a : Bytes × State) sec =>
      (a.1 ++ (a.2.graftSource sec.1 sec.2.1).1, (a.2.graftSource sec.1 sec.2.1).2)) (u.graftSource j.src (16 * j.arg0)))
    (hbank : bank = r.1.take j.len)
    (hv : v = (r.2.graftSend 2 e 0 (beBytes 4 j.len ++ beBytes 4 j.arg0)).graftData e (bank.length / 4096 + 1) 0 bank) :
    exec (.graftSync tag) s = .next ((((v.graftSend 4 e 0 (beBytes 4 (crc32Ieee bank))).graftTo 3).updJob j.tag
      (fun k => { k with pos := j.len })).updGraft (fun g => { g with txTag := some j.tag, txEpoch := e })) := by
  subst hv hbank hr he
  exact congrArg Host.Outcome.next ((State.startJob_turn hj hmay hu hop _).trans (if_neg (by simp [hactive, hpartner, hready])))

/-! ## SCRUB -/

section
variable (hop : j.op = 6)
include hop

theorem execScrub_store {v : State} {n : Nat} (harg : j.arg0 = 2) (hv : v = { u with nvEcc := u.nvEcc.filter (fun c => c.2 != 1) })
    (hn : n = (u.nvEcc.filter (fun c => c.2 == 1)).length) : exec (.scrub tag) s =
      .next ((if u.nvEcc.any (fun c => c.2 == 2) then v.fault 14 3 else v).endJob j.tag
        (if u.nvEcc.any (fun c => c.2 == 2) then 8 else 0) n j.total) := by
  subst hv hn
  exact congrArg Host.Outcome.next ((State.startJob_turn hj hmay hu hop _).trans (if_pos harg))

theorem execScrub_memory {v : State} {n : Nat} (harg : j.arg0 ≠ 2)
    (hv : u.scrubMem (fun a => if j.arg0 = 0 then decide (a < 0x4000000) else decide (0x100000000 ≤ a)) = (n, v)) :
    exec (.scrub tag) s = .next (v.endJob j.tag 0 n j.total) := by
  refine congrArg Host.Outcome.next ((State.startJob_turn hj hmay hu hop _).trans ((if_neg harg).trans ?_))
  rw [hv]

end

/-! ## IMAGE_VERIFY (R83) -/

section
variable (hop : j.op = 8)
include hop

theorem execImageVerify_slot (harg : j.arg0 < 4) {h : Header} (hh : h = u.slotHeader j.arg0) : exec (.imageVerify tag) s =
    .next (match u.nvRead (imageSlot j.arg0).1 (min (h.len + 256) (imageSlot j.arg0).2) with
      | (some _, v) => v.verdict j.tag h.len (v.slotErr j.arg0)
      | (none, v) => v.endJob j.tag 8 0 0) := by
  subst hh
  exact congrArg Host.Outcome.next ((State.startJob_turn hj hmay hu hop _).trans (if_pos harg))

theorem execImageVerify_range (harg : 4 ≤ j.arg0) : exec (.imageVerify tag) s =
    .next (match u.devRead j.src 256 with
      | (none, v) => v.endJob j.tag 9 0 0
      | (some hd, v) =>
        match (if 256 + (headerOf hd).len ≤ imageRoom j.src then v.devRead (j.src + 256) (headerOf hd).len else (some [], v)) with
        | (some p, w) => w.verdict j.tag (headerOf hd).len (w.imageErr (headerOf hd) [1, 2] (imageRoom j.src) (fun _ => p))
        | (none, w) => w.endJob j.tag 9 0 0) :=
  congrArg Host.Outcome.next ((State.startJob_turn hj hmay hu hop _).trans (if_neg (by omega)))

end

/-! ## BIST_BOUGH and LOG_EXPORT -/

section
variable (hop : j.op = 7) (fails : Word)
include hop

theorem execBistBough_off (hoff : u.granted (4 + j.arg0) = false) : exec (.bistBough tag fails) s = .next (u.endJob j.tag 6 0 0) :=
  congrArg Host.Outcome.next ((State.startJob_turn hj hmay hu hop _).trans (if_neg (ne_true_of_eq_false hoff)))

theorem execBistBough_on {v : State} (hon : u.granted (4 + j.arg0) = true)
    (hv : v = u.dropMem (0x100000000 + j.arg0 * 0x1000000) (0x100000000 + j.arg0 * 0x1000000 + 0x1000000)) :
    exec (.bistBough tag fails) s = .next ((State.tookFree { v with fill := tabSet 0 j.arg0 (u.freeCtr + 1) u.fill }).endJob j.tag
      (if fails = 0 then 0 else 9) fails.toNat 1536) := by
  subst hv
  exact congrArg Host.Outcome.next ((State.startJob_turn hj hmay hu hop _).trans (if_pos hon))

end

theorem execLogExport_read (hop : j.op = 9) : exec (.logExport tag) s =
    .next (match u.nvRead (0x1A0000 + 64 * j.arg0) (64 * j.len) with
      | (none, v) => v.endJob j.tag 8 0 0
      | (some bs, v) => if v.granted 12 then (v.devWrite j.dst bs).endJob j.tag 0 0 j.len else v.endJob j.tag 6 0 0) :=
  congrArg Host.Outcome.next (State.startJob_turn hj hmay hu hop _)

end

/-- Settles O48: each command is the start of a job, which acts as its type says. -/
theorem jobStarts : Obligations.JobStarts := by
  intro tag s u j hj hmay hu
  refine ⟨fun hop => congrArg Host.Outcome.next (State.startJob_turn hj hmay hu hop _),
    fun hop => congrArg Host.Outcome.next (State.startJob_turn hj hmay hu hop _),
    fun hop => ⟨execCalStore_first hj hmay hu hop, fun i q w hw => ?_⟩,
    fun hop => ⟨execGraftSync_refused hj hmay hu hop, fun e r bank v hactive hpartner hready he hr hbank hv =>
      execGraftSync_sends hj hmay hu hop hactive hpartner hready he hr hbank hv⟩,
    fun hop => congrArg Host.Outcome.next (State.startJob_turn hj hmay hu hop _), fun hop => ⟨fun v n harg hv hn => ?_,
      fun n v harg hv => execScrub_memory hj hmay hu hop harg hv⟩,
    fun hop fails => ⟨execBistBough_off hj hmay hu hop fails, fun v hon hv => execBistBough_on hj hmay hu hop fails hon hv⟩,
    fun hop => ?_, fun hop r v hr => ?_⟩
  · have hexec := execCalStore_next hj hmay hu hop hw
    refine ⟨fun hq => ?_, fun hq => ?_⟩
    · rw [hexec, if_pos hq]
    · rw [hexec, if_neg hq]
  · have hexec := execScrub_store hj hmay hu hop harg hv hn
    refine ⟨fun hgood => ?_, fun hbad => ?_⟩
    · rw [hexec, hgood, if_neg Bool.false_ne_true, if_neg Bool.false_ne_true]
    · rw [hexec, hbad, if_pos rfl, if_pos rfl]
  · refine ⟨fun h bs v harg hh hread => ?_, fun h v harg hh hread => ?_, fun v harg hread => ?_, fun hd h v harg hread hh => ?_⟩
    · rw [execImageVerify_slot hj hmay hu hop harg hh, hread]
    · rw [execImageVerify_slot hj hmay hu hop harg hh, hread]
    · rw [execImageVerify_range hj hmay hu hop harg, hread]
    · have hexec := execImageVerify_range hj hmay hu hop harg
      rw [hread] at hexec
      dsimp only at hexec
      rw [← hh] at hexec
      refine ⟨fun hshort => ?_, fun p w hlong hp => ?_⟩
      · rw [hexec, if_neg (by omega)]
      · rw [hexec, if_pos hlong, hp]
  · have hexec := execLogExport_read hj hmay hu hop
    rw [hr] at hexec
    refine ⟨fun hnone => ?_, fun bs hsome hon => ?_, fun bs hsome hoff => ?_⟩
    · rw [hexec, hnone]
    · rw [hexec, hsome]
      dsimp only
      rw [if_pos hon]
    · rw [hexec, hsome]
      dsimp only
      rw [if_neg (ne_true_of_eq_false hoff)]

end Sys2Proof.Machine
end


section
/-! # The graft link and the takeover (O50) -/

namespace Sys2Proof.Machine

section
variable {s t u : State} {data p : Bytes} {f e o : Nat}

/-! ## Frames that arrive while the link works (R633) -/

theorem State.graftReceive_frame {type : Nat} (hup : s.graftUp = true) (hframe : graftFrame type data = some (f, e, o, p))
    (body : Nat → Nat → Nat → Bytes → State → State) : s.graftReceive type data body = body f e o p s := by
  unfold State.graftReceive
  rw [hup, hframe]

/-- HELLO (R630): what it says of the partner is kept, and two active devices are a fault. -/
theorem execGraftHello_frame (hup : s.graftUp = true) (hframe : graftFrame 1 data = some (f, e, o, p))
    (ht : t = s.updGraft (fun g =>
      { g with pSeen := true, pActive := f % 2 == 1, pEpoch := beNat (p.take 4), pBank := (p.getD 4 0).toNat }))
    (hu : u = (if t.graftState < 2 then t.graftTo 2 else t).setReady 60) :
    exec (.graftHello data) s = .next (if u.isActive && f % 2 == 1 then u.syncFailed.fault 78 3 else u) := by
  subst hu ht
  exact congrArg Host.Outcome.next (State.graftReceive_frame hup hframe _)

theorem execGraftHelloSend_next (hup : s.graftUp = true) : exec .graftHelloSend s = .next (s.graftSend 1 0 0 (beBytes 4
    (match s.currentBank with
      | some b => b.2
      | none => 0) ++ [BitVec.ofNat 8 (s.fld R.GRAFT_SHADOW_BANK_MIB), 0, 0, 0])) :=
  congrArg Host.Outcome.next (if_pos hup)

/-! ## The copy, standby side (R639, R640, R642) -/

section
variable (hup : s.graftUp = true)
include hup

section
variable (hframe : graftFrame 2 data = some (f, e, o, p)) (hstate : s.graftState ≠ 5)
include hframe hstate

theorem execBeginFrame_active (hactive : s.isActive = true) :
    exec (.beginFrame data) s = .next (s.graftSend 6 e 0 (beBytes 4 4)) :=
  congrArg Host.Outcome.next ((State.graftReceive_frame hup hframe _).trans ((if_neg hstate).trans (if_pos hactive)))

section
variable {total : Nat} (hactive : s.isActive = false) (ht : t = s.rxDiscard) (htotal : total = beNat (p.take 4))
include hactive ht htotal

theorem execBeginFrame_refused (h : t.bankSize < total + 64 ∨ t.granted 12 = false) :
    exec (.beginFrame data) s = .next (t.graftSend 6 e 0 (beBytes 4 3)) := by
  subst ht htotal
  exact congrArg Host.Outcome.next ((State.graftReceive_frame hup hframe _).trans ((if_neg hstate).trans
    ((if_neg (ne_true_of_eq_false hactive)).trans (if_pos h))))

theorem execBeginFrame_takes {k : Nat} {x : GraftRx} (hroom : total + 64 ≤ t.bankSize) (h12 : t.granted 12 = true)
    (hk : (t.currentBank = none ∧ k = 0) ∨ ∃ b, t.currentBank = some b ∧ k = 1 - b.1)
    (hu : u = t.devWrite (t.bankAt k + t.bankSize - 64) (List.replicate 64 0))
    (hx : x = { epoch := e, total := total, nsec := beNat (slice 4 4 p), bank := k, got := [], start := u.dtbNow }) :
    exec (.beginFrame data) s = .next ((u.updGraft (fun g => { g with rx := some x })).graftTo 4) := by
  subst hx hu htotal ht
  refine congrArg Host.Outcome.next ((State.graftReceive_frame hup hframe _).trans ((if_neg hstate).trans
    ((if_neg (ne_true_of_eq_false hactive)).trans ((if_neg (by rw [h12]; simp; omega)).trans ?_))))
  obtain ⟨hnone, rfl⟩ | ⟨b, hb, rfl⟩ := hk
  · rw [hnone]
  · rw [hb]

end
end

section
variable {x : GraftRx} (hx : s.graft.rx = some x)
include hx

theorem execDataFrame_epoch (hframe : graftFrame 3 data = some (f, e, o, p)) (hepoch : x.epoch = e) : exec (.dataFrame data) s =
    .next ((if o + p.length ≤ x.total then s.devWrite (s.bankAt x.bank + o) p else s).updGraft
      (fun g => { g with rx := some { x with got := x.got ++ [(o, p.length)] } })) := by
  refine congrArg Host.Outcome.next ((State.graftReceive_frame hup hframe _).trans ?_)
  dsimp only
  rw [hx]
  exact if_pos hepoch

theorem execEndFrame_epoch {icrc : Nat} (hframe : graftFrame 4 data = some (f, e, o, p)) (hepoch : x.epoch = e) (ht : t = s.rxDiscard)
    (hicrc : icrc = beNat (p.take 4)) : exec (.endFrame data) s =
      .next (if coversOnce x.total x.got && crc32Ieee (s.peekBytes (s.bankAt x.bank) x.total) == icrc && t.granted 12 then
        (t.devWrite (t.bankAt x.bank + t.bankSize - 64) (commitBytes x icrc)).graftSend 5 e 0 (beBytes 4 e)
      else (t.graftSend 6 e 0 (beBytes 4 (if coversOnce x.total x.got then 1 else 2))).fault 78 1) := by
  subst ht hicrc
  refine congrArg Host.Outcome.next ((State.graftReceive_frame hup hframe _).trans ?_)
  dsimp only
  rw [hx]
  exact if_neg (not_not_intro hepoch)

theorem execAbortFrame_rx (hframe : graftFrame 7 data = some (f, e, o, p)) : exec (.abortFrame data) s = .next s.rxDiscard :=
  congrArg Host.Outcome.next ((State.graftReceive_frame hup hframe _).trans (if_pos (by rw [hx]; rfl)))

end

/-! ## The answers to a copy (R641) -/

section
variable (htx : s.graft.txTag.isSome = true)
include htx

theorem execAckFrame_epoch (hframe : graftFrame 5 data = some (f, e, o, p)) (hepoch : beNat (p.take 4) = s.graft.txEpoch)
    (ht : t = (s.endJobOf 4 0 s.graft.txEpoch).updGraft (fun g => { g with txTag := none, pEpoch := g.txEpoch })) :
    exec (.ackFrame data) s = .next (if t.graftState = 3 then t.graftTo 2 else t) := by
  subst ht
  exact congrArg Host.Outcome.next ((State.graftReceive_frame hup hframe _).trans (if_pos ⟨htx, hepoch⟩))

theorem execNakFrame_fails (hframe : graftFrame 6 data = some (f, e, o, p)) : exec (.nakFrame data) s = .next s.syncFailed :=
  congrArg Host.Outcome.next ((State.graftReceive_frame hup hframe _).trans (if_pos htx))

end
end
end

/-! ## Roles and the takeover (R628, R645–R651) -/

theorem regRow_graftCtl : (regRow R.GRAFT_CTL).any (fun r => r.masks R.GRAFT_CTL 3 4 0 0) = true := by decide

/-- R628: DEMOTE leaves EN as it was, so that the write does nothing else. -/
theorem State.graftHook_demote {s t : State} {wr : Word} (ht : t = s.setReg R.GRAFT_CTL (s.reg R.GRAFT_CTL)) (hwr : bitOf wr 2 = true) :
    t.graftHook R.GRAFT_CTL (s.reg R.GRAFT_CTL) wr = if t.isActive then t.setFld R.GRAFT_STATUS_ROLE 0 else t := by
  have hreg : t.reg R.GRAFT_CTL = s.reg R.GRAFT_CTL := by rw [ht, State.reg_setReg_same]
  have hkept (v : State) (hv : v.reg R.GRAFT_CTL = s.reg R.GRAFT_CTL) : v.flag R.GRAFT_CTL_EN = bitOf (s.reg R.GRAFT_CTL) 0 := by
    rw [← hv]
    exact v.flag_eq_bitOf R.GRAFT_CTL 0
  have hsame (v : State) (hv : v.reg R.GRAFT_CTL = s.reg R.GRAFT_CTL) : (if v.graftState = 5 then v
      else if bitOf (s.reg R.GRAFT_CTL) 0 && !v.flag R.GRAFT_CTL_EN then
        ((v.clrReady 60).rxDiscard.updGraft (fun g => { g with pSeen := false, pActive := false })).graftTo 0
      else if !bitOf (s.reg R.GRAFT_CTL) 0 && v.flag R.GRAFT_CTL_EN then v.graftTo 1 else v) = v := by
    rw [hkept v hv, Bool.and_not_self, Bool.not_and_self, if_neg Bool.false_ne_true, if_neg Bool.false_ne_true, ite_self]
  unfold State.graftHook
  rw [if_pos rfl, hwr, Bool.true_and]
  dsimp only
  cases t.isActive
  · exact hsame t hreg
  · exact hsame _ ((State.reg_setFld_other t _ _ _ (by decide)).trans hreg)

theorem execDemote_next {req : Req} {s t : State} (hc : CanWrite s req R.GRAFT_CTL) (ht : t = s.setReg R.GRAFT_CTL (s.reg R.GRAFT_CTL)) :
    exec (.demote req) s = .next (if t.isActive then t.setFld R.GRAFT_STATUS_ROLE 0 else t) := by
  have hbit (w : Word) : bitOf (R.GRAFT_CTL_DEMOTE.put 1 w) 2 = true := by
    rw [bitOf_eq, Fld.getLsbD_put _ rfl]
    rfl
  show Host.Outcome.next (s.fldDo req R.GRAFT_CTL_DEMOTE 1) = _
  rw [State.fldDo_act (f := R.GRAFT_CTL_DEMOTE) hc regRow_graftCtl (by decide) (by decide) (by decide) (by decide) (by simp),
    show R.GRAFT_CTL_DEMOTE.off = R.GRAFT_CTL from rfl, State.hook_graft _ (by decide) (by decide), State.enRise_masks regRow_graftCtl, ← ht]
  exact congrArg Host.Outcome.next (State.graftHook_demote ht (hbit _))

section
variable {s : State}

theorem State.rxDiscard_clk (s : State) : s.rxDiscard.clk = s.clk := by
  unfold State.rxDiscard
  exact (apply_ite State.clk _ _ _).trans (ite_self _)

theorem execPartnerTrip_next (h15 : s.granted 15 = true) (hstate : s.graftState ≠ 5) : exec .partnerTrip s =
    .next (if s.isActive then s.fault 78 2
      else if s.flag R.GRAFT_CTL_TAKE_EN then ((s.rxDiscard).updGraft (fun g => { g with tripAt := s.rxDiscard.clk })).graftTo 5
      else s) := by
  rw [State.rxDiscard_clk]
  exact congrArg Host.Outcome.next (if_neg (by simp [h15, hstate]))

theorem execTakeover_ends {t u v : State} (hstate : s.graftState = 5) (ht : t = (s.setReg R.GRAFT_TAKE 0).setReg R.GRAFT_TAKE_SKIP 0)
    (hu : (t.currentBank = none ∧ u = ((t.setFld R.BAT_STATUS_PROVISIONAL 1).setFld R.GRAFT_TAKE_NO_EPOCH 1).fault 78 4) ∨
      ∃ b, t.currentBank = some b ∧ u = t.takeBank b.1)
    (hv : v = ((u.setFld R.GRAFT_STATUS_ROLE 1).graftTo 2).setFld R.GRAFT_TAKE_DONE 1) : exec .takeover s =
    .next (let x := v.setReg R.GRAFT_TAKE_T (BitVec.ofNat 32 (50 + (v.clk - v.graft.tripAt) / 1000))
      x.event (x.reg R.GRAFT_ROUTE)) := by
  subst hv ht
  refine congrArg Host.Outcome.next ((if_pos hstate).trans ?_)
  dsimp only
  obtain ⟨hnone, rfl⟩ | ⟨b, hb, rfl⟩ := hu
  · rw [hnone]
  · rw [hb]

end

/-- Settles O50: frames, timeouts and the trip act on the link's state, and the takeover applies the bank that is current. -/
theorem graftCommands : Obligations.GraftCommands := by
  refine ⟨fun s hup => ?_, fun data s f e o p hup => ⟨fun hframe t u ht hu => ?_, fun hframe hstate => ⟨?_, ?_⟩, fun x hx => ⟨?_, ?_, ?_⟩,
    fun htx => ⟨?_, ?_⟩⟩, fun s h15 => congrArg Host.Outcome.next (if_pos h15), fun s htx => congrArg Host.Outcome.next (if_pos htx),
    fun s hrx => congrArg Host.Outcome.next (if_pos hrx), fun req s t hc ht => ?_, fun s h15 hstate => ?_,
    fun s t u v hstate ht hu hv => execTakeover_ends hstate ht hu hv⟩
  · have hexec := execGraftHelloSend_next hup
    refine ⟨fun hnone => ?_, fun b hb => ?_⟩
    · rw [hexec, hnone]
    · rw [hexec, hb]
  · have hexec := execGraftHello_frame hup hframe ht hu
    refine ⟨fun hactive hpartner => ?_, fun hone => ?_⟩
    · rw [hexec, if_pos (by simp [hactive, hpartner])]
    · rw [hexec, if_neg (by obtain h | h := hone <;> simp [h])]
  · exact execBeginFrame_active hup hframe hstate
  · intro t total hactive ht htotal
    exact ⟨execBeginFrame_refused hup hframe hstate hactive ht htotal, fun k u hroom h12 hk hu x hx =>
      execBeginFrame_takes hup hframe hstate hactive ht htotal hroom h12 hk hu hx⟩
  · exact execDataFrame_epoch hup hx
  · intro hframe hepoch t icrc ht hicrc
    have hexec := execEndFrame_epoch hup hx hframe hepoch ht hicrc
    refine ⟨fun hwhole hcrc h12 => ?_, fun hwhole hcrc => ?_, fun hwhole => ?_⟩
    · rw [hexec, if_pos (by simp [hwhole, hcrc, h12])]
    · rw [hexec, if_neg (by simp [hcrc]), if_pos hwhole]
    · rw [hexec, if_neg (by simp [hwhole]), if_neg (ne_true_of_eq_false hwhole)]
  · exact execAbortFrame_rx hup hx
  · exact fun hframe hepoch t ht => execAckFrame_epoch hup htx hframe hepoch ht
  · exact execNakFrame_fails hup htx
  · have hexec := execDemote_next hc ht
    exact ⟨fun hactive => by rw [hexec, if_pos hactive], fun hidle => by rw [hexec, if_neg (ne_true_of_eq_false hidle)]⟩
  · have hexec := execPartnerTrip_next h15 hstate
    refine ⟨fun hactive => ?_, fun hstandby hoff => ?_, fun hstandby hon => ?_⟩
    · rw [hexec, if_pos hactive]
    · rw [hexec, if_neg (ne_true_of_eq_false hstandby), if_neg (ne_true_of_eq_false hoff)]
    · rw [hexec, if_neg (ne_true_of_eq_false hstandby), if_pos hon]

end Sys2Proof.Machine
end


section
/-! # The ring engine (O44) -/

namespace Sys2Proof.Machine

/-! ## RING_CTL (R519, R527) -/

theorem regRow_ringCtl : (regRow R.RING_CTL).any (fun r => r.masks R.RING_CTL 0 3 0 0) = true := by decide

section
variable {req : Req} {s t : State} (hc : CanWrite s req R.RING_CTL) (ht : t = s.setReg R.RING_CTL (s.reg R.RING_CTL))
include hc ht

/-- A write of RING_CTL stores nothing: it starts or stops the ring. -/
theorem State.regDo_ringCtl (w : Word) : s.regDo req R.RING_CTL w =
    (if bitOf (w &&& 3) 1 then (if bitOf (w &&& 3) 0 then t.ringStart else t).ringStop
      else if bitOf (w &&& 3) 0 then t.ringStart else t) := by
  have hold (old : Word) : ((old &&& ~~~0 ||| w &&& 0) &&& ~~~(w &&& (0 ||| 3) &&& 0)) ||| (w &&& (0 ||| 3) &&& 0) = old := by simp
  rw [State.regDo_masks hc regRow_ringCtl, State.hook_ring, State.enRise_masks regRow_ringCtl, hold, ← ht]
  rw [show w &&& (0 ||| 3) = w &&& 3 by simp]

theorem execRingCtlStart_next : exec (.ringCtlStart req) s = .next t.ringStart :=
  congrArg Host.Outcome.next (State.regDo_ringCtl hc ht 1)

theorem execStop_next : exec (.stop req) s = .next t.ringStop := congrArg Host.Outcome.next (State.regDo_ringCtl hc ht 2)

end

/-! ## Frames (R515, R516) -/

section
variable {s t : State} {east : Bool} {data : Bytes} {p type : Nat}

/-- What a ring port does with a frame before the engine takes it. -/
theorem State.ringReceive_port (h13 : s.granted 13 = true) (hp : p = s.ringSide east) (body : State → State)
    (htype : ringSound data = true → ringType data = type)
    (ht : t = s.activity p) : s.ringReceive type east data body =
      if !t.portUp p then t.portCount p 2
      else if data.length + 4 < 64 then t.portCount p 3
      else if !ringSound data then (t.portCount p 0).fault 79 3
      else
        let s := if type = 3 then t else t.portCount p 0
        let own := ringNode data == s.nodeId
        let s := if type = 3 || own then s else s.ringOut (!east) data
        let s := if own && s.ringForeign data then s.fault 79 0 else s
        if own && !s.ringForeign data && type != 3 then s else body s := by
  subst ht hp
  refine if_neg ?_
  rw [h13, Bool.not_true, Bool.false_or]
  cases hsound : ringSound data with
  | false => exact Bool.false_ne_true
  | true => simp [htype hsound]

/-- A frame of a type that passes its port's checks and those of the engine. -/
structure RingSound (s : State) (east : Bool) (data : Bytes) (p type : Nat) : Prop where
  granted : s.granted 13 = true
  port : p = s.ringSide east
  sound : ringSound data = true
  long : 60 ≤ data.length
  up : (s.activity p).portUp p = true
  type : ringType data = type

section
variable (h : RingSound s east data p type)
include h

theorem State.ringReceive_sound (body : State → State) : s.ringReceive type east data body =
    let s := if type = 3 then s.activity p else (s.activity p).portCount p 0
    let own := ringNode data == s.nodeId
    let s := if type = 3 || own then s else s.ringOut (!east) data
    let s := if own && s.ringForeign data then s.fault 79 0 else s
    if own && !s.ringForeign data && type != 3 then s else body s := by
  have hlong := h.long
  rw [State.ringReceive_port h.granted h.port body (fun _ => h.type) rfl, if_neg (by simp [h.up]), if_neg (by omega), if_neg (by simp [h.sound])]

/-- A frame of the node's own that has come back. -/
theorem State.ringReceive_own (body : State → State) (hother : type ≠ 3) (ht : t = (s.activity p).portCount p 0)
    (hown : ringNode data = t.nodeId) (hsource : t.ringForeign data = false) : s.ringReceive type east data body = t := by
  rw [State.ringReceive_sound h, if_neg hother, ← ht]
  simp [hown, hsource, hother]

/-- A frame of another node is passed on, and the engine acts on it. -/
theorem State.ringReceive_node {u : State} (body : State → State) (hother : type ≠ 3) (ht : t = (s.activity p).portCount p 0)
    (hu : u = t.ringOut (!east) data) (hnode : ringNode data ≠ t.nodeId) : s.ringReceive type east data body = body u := by
  rw [State.ringReceive_sound h, if_neg hother, ← ht]
  simp [hnode, hother, hu]

end

/-- A SLOT is passed on in any case; the node's own ID from elsewhere is a fault. -/
theorem State.ringReceive_slot {v : State} (h : RingSound s east data p 3) (body : State → State)
    (hv : v = if ringNode data = (s.activity p).nodeId ∧ (s.activity p).ringForeign data = true then (s.activity p).fault 79 0
      else s.activity p) : s.ringReceive 3 east data body = body v := by
  rw [State.ringReceive_sound h, hv]
  simp

end

/-! ## What the engine does with them (R520, R521, R526) -/

section
variable {u : State} {data : Bytes}

theorem State.heedClaim_backoff (h : u.ringState = 2) : u.heedClaim = (u.setRingState 4).updRing (fun r => { r with inCycle := false }) :=
  if_pos h

theorem State.heedClaim_confirm (h : u.ringState = 3) : u.heedClaim = u.updRing (fun r => { r with collided := true }) :=
  (if_neg (by omega)).trans (if_pos h)

theorem State.heedClaim_other (h2 : u.ringState ≠ 2) (h3 : u.ringState ≠ 3) : u.heedClaim = u := (if_neg h2).trans (if_neg h3)

theorem State.heedBeacon_yields (hcold : u.flag R.RING_STATUS_COLD = true) (hlower : be16 data 20 % 2 = 1 ∧ ringNode data < u.nodeId) :
    u.heedBeacon data = (u.fault 79 1).ringFollow data := (if_pos hcold).trans (if_pos hlower)

theorem State.heedBeacon_stays (hcold : u.flag R.RING_STATUS_COLD = true) (hhigher : be16 data 20 % 2 = 0 ∨ u.nodeId ≤ ringNode data) :
    u.heedBeacon data = u := (if_pos hcold).trans (if_neg (by omega))

theorem State.heedBeacon_follows (hcold : u.flag R.RING_STATUS_COLD = false)
    (hon : u.ringState = 1 ∨ u.ringState = 2 ∨ u.ringOn = true) : u.heedBeacon data = u.ringFollow data :=
  (if_neg (ne_true_of_eq_false hcold)).trans (if_pos hon)

end

/-! ## The ends of the engine's waits (R519–R523, R526) -/

theorem State.ringSettled_run (s : State) : s.ringSettled 5 = ((s.setRingState 5).setReady 31).endJobOf 5 0 5 := rfl

theorem State.ringSettled_degraded (s : State) : s.ringSettled 6 = ((s.setRingState 6).setReady 31).endJobOf 5 9 6 := rfl

section
variable {s t : State} (h13 : s.granted 13 = true)
include h13

theorem execRingListenEnd_listening (h : s.ringState = 1) : exec .ringListenEnd s = .next (s.ringAttempt 1) :=
  congrArg Host.Outcome.next (if_pos (by simp [h13, h]))

theorem execRingBackoffEnd_backedOff (h : s.ringState = 2) : exec .ringBackoffEnd s =
    .next (((s.ringSend 1 0 s.ring.attempt).setRingState 3).updRing (fun r => { r with collided := false })) :=
  congrArg Host.Outcome.next (if_pos (by simp [h13, h]))

section
variable (h : s.ringState = 3)
include h

theorem execRingConfirmEnd_alone (halone : s.ring.collided = false) : exec .ringConfirmEnd s =
    .next ((((s.setRingState 4).setFld R.RING_STATUS_COLD 1).setFld R.RING_STATUS_CNODE s.nodeId).ringBeacon 0) :=
  congrArg Host.Outcome.next ((if_neg (by simp [h13, h])).trans (if_neg (ne_true_of_eq_false halone)))

theorem execRingConfirmEnd_collided (hcoll : s.ring.collided = true)
    (ht : t = s.setFld R.RING_STATUS_COLL (s.fld R.RING_STATUS_COLL + 1)) : exec .ringConfirmEnd s =
      .next (if 4 ≤ t.ring.attempt then (t.fault 79 0).ringListen else t.ringAttempt (t.ring.attempt + 1)) := by
  subst ht
  exact congrArg Host.Outcome.next ((if_neg (by simp [h13, h])).trans (if_pos hcoll))

end

theorem execRingCycleStart_cold (hon : s.ringOn = true) (hcold : s.flag R.RING_STATUS_COLD = true) :
    exec .ringCycleStart s = .next (s.ringBeacon (s.fld R.RING_CYCLE_VALUE + 1)) :=
  congrArg Host.Outcome.next (if_pos (by simp [h13, hon, hcold]))

section
variable (hon : s.ringOn = true) (hcycle : s.ring.inCycle = true)
include hon hcycle

theorem execRingWindow_opens : exec .ringWindow s = .next ((s.ringSend 3 (s.fld R.RING_CYCLE_VALUE) 0).updRing (fun r =>
    { r with windowOpen := true, windowEnd := r.cycleAt + (15 + 7 * s.nodeId) * 1000 })) :=
  congrArg Host.Outcome.next (if_pos (by simp [h13, hon, hcycle]))

theorem execRingCycleEnd_judges {m : Nat} (hm : m = s.fld R.RING_MEMBERS_MEMBERS)
    (ht : t = s.updRing (fun r => { r with heardPrev := r.heard, heard := 0, inCycle := false, windowOpen := false })) :
    exec .ringCycleEnd s = .next (if m &&& s.ring.heard == m && t.ringState != 5 then
      (t.setReg R.RING_START_T (BitVec.ofNat 32 ((t.clk - t.ring.startAt) / 1000 % 2 ^ 16))).ringSettled 5 else t) := by
  subst ht hm
  exact congrArg Host.Outcome.next (if_neg (by simp [h13, hon, hcycle]))

end

theorem execRingStartTimeout_degraded (hlo : 1 ≤ s.ringState) (hhi : s.ringState ≤ 4) : exec .ringStartTimeout s =
    .next (((s.setFld R.RING_STATUS_MISSING
      (s.fld R.RING_MEMBERS_MEMBERS &&& (2 ^ 16 - 1 - s.ring.everHeard % 2 ^ 16))).fault 79 2).ringSettled 6) :=
  congrArg Host.Outcome.next (if_pos (by simp [h13, hlo, hhi]))

theorem execRingBeaconMiss_listens (hon : s.ringOn = true) (hcold : s.flag R.RING_STATUS_COLD = false) :
    exec .ringBeaconMiss s = .next (((s.clrReady 31).ringListen).fault 79 1) :=
  congrArg Host.Outcome.next (if_pos (by simp [h13, hon, hcold]))

end

/-- Settles O44: a frame passes its port's checks and those of the engine before it is heeded, and each wait ends in its own state. -/
theorem ringCommands : Obligations.RingCommands := by
  refine ⟨fun req s t hc ht => ⟨execRingCtlStart_next hc ht, execStop_next hc ht⟩, fun east data s t p h13 hp ht htype => ?_,
    fun east data s t u p h13 hp hsound hlong hup ht hu => ⟨fun hother => ?_, fun hnode => ⟨fun h1 => ?_, fun h2 => ?_, fun h4 => ?_⟩,
      fun v w h3 hv hw => ?_⟩, fun s h13 => ⟨?_, ?_, ?_, ?_, ?_, ?_, ?_, ?_, ?_⟩⟩
  · have hexec : exec (.claim east data) s = _ := congrArg Host.Outcome.next (State.ringReceive_port h13 hp State.heedClaim htype ht)
    refine ⟨fun hdown => hexec.trans ?_, fun hup hshort => hexec.trans ?_, fun hup hlong hunsound => hexec.trans ?_⟩
    · rw [if_pos (by simp [hdown])]
    · rw [if_neg (by simp [hup]), if_pos (by omega)]
    · rw [if_neg (by simp [hup]), if_neg (by omega), if_pos (by simp [hunsound])]
  · intro hown hsource
    refine ⟨fun h1 => ?_, fun h2 => ?_, fun h4 => ?_⟩
    · exact congrArg Host.Outcome.next (State.ringReceive_own ⟨h13, hp, hsound, hlong, hup, h1⟩ _ (by decide) ht hown hsource)
    · exact congrArg Host.Outcome.next (State.ringReceive_own ⟨h13, hp, hsound, hlong, hup, h2⟩ _ (by decide) ht hown hsource)
    · exact congrArg Host.Outcome.next (State.ringReceive_own ⟨h13, hp, hsound, hlong, hup, h4⟩ _ (by decide) ht hown hsource)
  · have hexec : exec (.claim east data) s = _ := congrArg Host.Outcome.next
      (State.ringReceive_node ⟨h13, hp, hsound, hlong, hup, h1⟩ State.heedClaim (by decide) ht hu hnode)
    exact ⟨fun h => hexec.trans (congrArg _ (State.heedClaim_backoff h)), fun h => hexec.trans (congrArg _ (State.heedClaim_confirm h)),
      fun hb hc => hexec.trans (congrArg _ (State.heedClaim_other hb hc))⟩
  · have hexec : exec (.beacon east data) s = _ := congrArg Host.Outcome.next
      (State.ringReceive_node ⟨h13, hp, hsound, hlong, hup, h2⟩ (fun s => s.heedBeacon data) (by decide) ht hu hnode)
    exact ⟨fun hcold hcflag hlower => hexec.trans (congrArg _ (State.heedBeacon_yields hcold ⟨hcflag, hlower⟩)),
      fun hcold hhigher => hexec.trans (congrArg _ (State.heedBeacon_stays hcold hhigher)),
      fun hcold hon => hexec.trans (congrArg _ (State.heedBeacon_follows hcold hon))⟩
  · exact congrArg Host.Outcome.next
      (State.ringReceive_node ⟨h13, hp, hsound, hlong, hup, h4⟩ (fun s => s.heedLeave data) (by decide) ht hu hnode)
  · subst hw
    exact congrArg Host.Outcome.next (State.ringReceive_slot ⟨h13, hp, hsound, hlong, hup, h3⟩ (fun s => s.heedSlot east data) hv)
  · exact execRingListenEnd_listening h13
  · exact execRingBackoffEnd_backedOff h13
  · exact execRingConfirmEnd_alone h13
  · intro t h hcoll ht
    have hexec := execRingConfirmEnd_collided h13 h hcoll ht
    exact ⟨fun hlast => by rw [hexec, if_pos hlast], fun hmore => by rw [hexec, if_neg (by omega)]⟩
  · exact execRingCycleStart_cold h13
  · exact execRingWindow_opens h13
  · intro hon hcycle m t hm ht
    have hexec := execRingCycleEnd_judges h13 hon hcycle hm ht
    refine ⟨fun hall hrun => ?_, fun hnot => ?_⟩
    · rw [hexec, if_pos (by simp [hall, hrun]), State.ringSettled_run]
    · rw [hexec, if_neg (by obtain h | h := hnot <;> simp [h])]
  · intro hlo hhi
    rw [execRingStartTimeout_degraded h13 hlo hhi, State.ringSettled_degraded]
  · exact execRingBeaconMiss_listens h13

end Sys2Proof.Machine
end
